-- ==== Sys2Proof/Word.lean ====
section
/-! DEFINITION. The word types of Skohiot and the small closed types (engines, scopes, access kinds) that every
other file names. -/

namespace Sys2Proof

/-- A byte: the smallest unit an address names (R6). -/
abbrev Byte := BitVec 8

/-- A 32-bit word: a stream unit (R53), a vector element (R252) or a cairn lane (R376). -/
abbrev W32 := BitVec 32

/-- A 64-bit word: a scalar register (R61), a CSR (R98) or a device register. -/
abbrev W64 := BitVec 64

/-- A register-field code of an instruction word (R61). -/
abbrev RegCode := BitVec 8

/-- A world tag (R415). -/
abbrev World := BitVec 4

/-- One 128-byte row of a ledge (R177) or one 128-byte line of L2 (R180). -/
abbrev Row := BitVec 1024

/-- One quarter of a vector register: 256 elements of 32 bits, element `e` at bits `[32 e + 31 : 32 e]` (R252). -/
abbrev Quarter := BitVec 8192

/-- An architectural core, numbered face, then cluster, then core within the cluster (R1). -/
abbrev CoreId := Fin 128

/-- A cluster, numbered face first (R1). -/
abbrev ClusterId := Fin 32

/-- A table from numbers to values that lists only the keys whose value is not the default. Its one canonical
form (keys strictly rising, no default value listed) is `swf` in Sys2Proof.Machine.Mem. -/
abbrev Sparse (α : Type) := List (Nat × α)

/-- The six engines of a core in the order that every engine field uses (R16). -/
inductive Engine where
  | lead | ap | mx | va | vb | sf
deriving DecidableEq, Repr

/-- The engine code of R16. -/
def Engine.code : Engine → Nat
  | .lead => 0 | .ap => 1 | .mx => 2 | .va => 3 | .vb => 4 | .sf => 5

/-- Every engine but the AP is timed (R16). -/
def Engine.timed : Engine → Bool
  | .ap => false
  | _ => true

/-- The engines in code order. -/
def Engine.all : List Engine := [.lead, .ap, .mx, .va, .vb, .sf]

/-- The kinds of access that R187 gives permissions to. `peek` is `pref`, which drops itself on any failure. -/
inductive Access where
  | read | write | rmw
deriving DecidableEq, Repr

/-- The targets of command queues (R157). -/
inductive Target where
  | copy | dresser | histogram | binning | collective | rng | priv
deriving DecidableEq, Repr

/-- The two engines that issue commands (R157). -/
inductive CmdSource where
  | lead | ap
deriving DecidableEq, Repr

/-- The SPDM 1.3 requests that the guide core answers (R427). -/
inductive Spdm where
  | getVersion | getCapabilities | negotiateAlgorithms | getDigests | getCertificate | challenge
  | getMeasurements | keyExchange | finish | keyUpdate | heartbeat | endSession
deriving DecidableEq, Repr

/-- The cluster that holds a core (R1). -/
def CoreId.cluster (c : CoreId) : ClusterId := ⟨c.val / 4, by omega⟩

/-- A core's index within its cluster (R41). -/
def CoreId.inCluster (c : CoreId) : Nat := c.val % 4

/-- The face that holds a core (R1). -/
def CoreId.face (c : CoreId) : Fin 4 := ⟨c.val / 32, by omega⟩

/-- The face that holds a cluster (R1). -/
def ClusterId.face (k : ClusterId) : Fin 4 := ⟨k.val / 8, by omega⟩

/-- Core `i` of a cluster (R1). -/
def ClusterId.core (k : ClusterId) (i : Fin 4) : CoreId := ⟨4 * k.val + i.val, by omega⟩

/-- The four cores of a cluster in order. -/
def ClusterId.cores (k : ClusterId) : List CoreId := [k.core 0, k.core 1, k.core 2, k.core 3]

end Sys2Proof
end

