-- ==== Sys2Proof/Syntax.lean ====
section
/-! DEFINITION. The instructions and events of Skohiot: one constructor per row of the opcode table. Engine words carry
their fields as R56 cuts the 96-bit word; cairn words as R378 cuts the 32-bit word; dresser words as R172 cuts the
64-bit word. Commands name the core and the number of a dispatched command. Events name the unit they befall and the
value that arrives with them. -/

namespace Sys2Proof

/-- The fields that every engine word has (R56): delay, guard slot and guard sense. -/
structure Head where
  /-- idle ticks before issue (R19) -/
  dly : BitVec 8
  /-- guard slot, 15 for none -/
  g : BitVec 4
  /-- guard sense -/
  gs : Bool
deriving DecidableEq, Repr

/-- The operand fields of an engine word (R56). Majors and minors are the constructor. -/
structure Fld where
  h : Head
  d : RegCode
  a : RegCode
  b : RegCode
  c : RegCode
  imm : BitVec 36
deriving DecidableEq, Repr

/-- A rope flit (R346), or the rope message of a datagram (R366). Its flow is the collective group, the sequence number of the
collective, the ring position `pos` of the package that sent it (R181, R347, R370), and the place `dest` of the one it goes to,
as COLLID lays it out (R352). `ce` is the CE mark of a datagram (R366); `run` counts the aborted runs of the collective before
the one that the flit belongs to (R357, log 13). `crcOk` is the outcome of the CRC-32 over the flit, whose polynomial the
manual does not give (log 11). `ctl` marks a flit that announces a rank's `coll` and carries no element (log 13). `blocks`
are the Scree blocks whose headers the flit carries on the link (R364). -/
structure Flit where
  seq : BitVec 24
  cgrp : BitVec 16
  collSeq : W32
  pos : Nat
  len : BitVec 8
  off : BitVec 16
  payload : BitVec 1920
  ctl : Bool
  blocks : List (List Byte)
  crcOk : Bool
  dest : W64 := 0
  ce : Bool := false
  run : Nat := 0
deriving DecidableEq, Repr

/-- A tether packet as it arrives (R182, R422): header bytes, payload (ciphertext under a session), tag, and for a
completion the number of the non-posted request that it answers. -/
structure Packet where
  hdr : List Byte
  body : List Byte
  tag : BitVec 128
  req : Nat
deriving DecidableEq, Repr

/-- The rows of the opcode table. -/
inductive Instr where
  /-- R36. A cluster's schedule clock attempts one tick: every due word, write, lane step and result-buffer validity is checked, and the tick takes place or the cluster freezes. -/
  | tickAttempt (k : ClusterId)
  /-- R40. A freeze that reaches FRZLIM cycles raises a watchdog / forced save trap with detail 2. -/
  | freezeLimit (k : ClusterId)
  /-- R40. A core's tick count reaching its nonzero WDCMP raises a watchdog trap before any word of that tick issues. -/
  | watchdogCompare (k : ClusterId)
  /-- R55. An engine's fetch unit reads stream items through the cluster L2 into the core's fetch buffer ahead of issue. -/
  | streamFetch (c : CoreId) (e : Engine) (a : BitVec 52) (n : BitVec 8)
  /-- R18. When a job starts, each present stream's first item and first word are checked before any tick is counted. -/
  | jobStart (job : Nat)
  /-- R26. rdv.align retires in every present stream of the team together, zeroing tick counts and resetting loop, predicate, rotation and other job state. -/
  | rdvAlignRetire (job : Nat)
  /-- R100. A rdv or rdv.flip retires once every member has reached it, or raises a schedule-violation trap if forms differ. -/
  | rendezvousRetire (job : Nat)
  /-- R97. Issues if the named slot is written and otherwise meets a late operand of kind 3. -/
  | gate (f : Fld)
  /-- R91. Register add modulo 2^64. -/
  | add (f : Fld)
  /-- R91. Register subtract modulo 2^64. -/
  | sub (f : Fld)
  /-- R91. Register multiply, low 64 bits, written two ticks later. -/
  | mul (f : Fld)
  /-- R91. Signed high half of a register product. -/
  | mulh (f : Fld)
  /-- R91. Unsigned high half of a register product. -/
  | mulhu (f : Fld)
  /-- R91. Register bitwise and. -/
  | and (f : Fld)
  /-- R91. Register bitwise or. -/
  | or (f : Fld)
  /-- R91. Register bitwise xor. -/
  | xor (f : Fld)
  /-- R91. Register and with the complement of the second source. -/
  | andn (f : Fld)
  /-- R91. Register shift left by y[5:0]. -/
  | shl (f : Fld)
  /-- R91. Register logical shift right by y[5:0]. -/
  | shr (f : Fld)
  /-- R91. Register arithmetic shift right by y[5:0]. -/
  | sra (f : Fld)
  /-- R91. Signed minimum of two registers. -/
  | min (f : Fld)
  /-- R91. Signed maximum of two registers. -/
  | max (f : Fld)
  /-- R91. Unsigned minimum of two registers. -/
  | minu (f : Fld)
  /-- R91. Unsigned maximum of two registers. -/
  | maxu (f : Fld)
  /-- R91. Counts leading zero bits of a register. -/
  | clz (f : Fld)
  /-- R91. Counts trailing zero bits of a register. -/
  | ctz (f : Fld)
  /-- R91. Counts one bits of a register. -/
  | popc (f : Fld)
  /-- R91. Immediate add modulo 2^64. -/
  | addI (f : Fld)
  /-- R91. Immediate subtract modulo 2^64. -/
  | subI (f : Fld)
  /-- R91. Immediate multiply, low 64 bits. -/
  | mulI (f : Fld)
  /-- R91. Signed high half of a product with the sign-extended immediate. -/
  | mulhI (f : Fld)
  /-- R91. Unsigned high half of a product with the sign-extended immediate. -/
  | mulhuI (f : Fld)
  /-- R91. Bitwise and with the sign-extended immediate. -/
  | andI (f : Fld)
  /-- R91. Bitwise or with the sign-extended immediate. -/
  | orI (f : Fld)
  /-- R91. Bitwise xor with the sign-extended immediate. -/
  | xorI (f : Fld)
  /-- R91. And with the complement of the sign-extended immediate. -/
  | andnI (f : Fld)
  /-- R91. Shift left by the immediate's bits [5:0]. -/
  | shlI (f : Fld)
  /-- R91. Logical shift right by the immediate's bits [5:0]. -/
  | shrI (f : Fld)
  /-- R91. Arithmetic shift right by the immediate's bits [5:0]. -/
  | sraI (f : Fld)
  /-- R91. Signed minimum with the immediate. -/
  | minI (f : Fld)
  /-- R91. Signed maximum with the immediate. -/
  | maxI (f : Fld)
  /-- R91. Unsigned minimum with the immediate. -/
  | minuI (f : Fld)
  /-- R91. Unsigned maximum with the immediate. -/
  | maxuI (f : Fld)
  /-- R92. Writes the sign-extended 36-bit immediate to a register. -/
  | movi (f : Fld)
  /-- R92. Writes imm36[27:0] into register bits [63:36], keeping the low bits. -/
  | movhi (f : Fld)
  /-- R93. Writes a slot true if two registers are equal. -/
  | ceq (f : Fld)
  /-- R93. Writes a slot true if two registers differ. -/
  | cne (f : Fld)
  /-- R93. Writes a slot with a signed less-than of two registers. -/
  | clt (f : Fld)
  /-- R93. Writes a slot with an unsigned less-than of two registers. -/
  | cltu (f : Fld)
  /-- R93. Writes a slot with a signed less-or-equal of two registers. -/
  | cle (f : Fld)
  /-- R93. Writes a slot with an unsigned less-or-equal of two registers. -/
  | cleu (f : Fld)
  /-- R93. Writes a slot true if a register equals the immediate. -/
  | ceqI (f : Fld)
  /-- R93. Writes a slot true if a register differs from the immediate. -/
  | cneI (f : Fld)
  /-- R93. Signed less-than against the immediate into a slot. -/
  | cltI (f : Fld)
  /-- R93. Unsigned less-than against the immediate into a slot. -/
  | cltuI (f : Fld)
  /-- R93. Signed less-or-equal against the immediate into a slot. -/
  | cleI (f : Fld)
  /-- R93. Unsigned less-or-equal against the immediate into a slot. -/
  | cleuI (f : Fld)
  /-- R94. Slot d := a and b. -/
  | pand (f : Fld)
  /-- R94. Slot d := a or b. -/
  | por (f : Fld)
  /-- R94. Slot d := a xor b. -/
  | pxor (f : Fld)
  /-- R94. Slot d := a and not b. -/
  | pandn (f : Fld)
  /-- R94. Slot d := not a. -/
  | pnot (f : Fld)
  /-- R94. Slot d := a. -/
  | pmov (f : Fld)
  /-- R94. Slot d := true. -/
  | pset (f : Fld)
  /-- R94. Slot d := false. -/
  | pclr (f : Fld)
  /-- R94. Makes slot d unwritten. -/
  | pvoid (f : Fld)
  /-- R96. Selects one of two registers by a predicate slot. -/
  | sel (f : Fld)
  /-- R98. Reads a CSR into a register, with its read side effect. -/
  | csrr (f : Fld)
  /-- R98. Writes a CSR from a register, optionally returning the old value. -/
  | csrw (f : Fld)
  /-- R98. Sets CSR bits from a register, optionally returning the old value. -/
  | csrs (f : Fld)
  /-- R98. Clears CSR bits named by a register, optionally returning the old value. -/
  | csrc (f : Fld)
  /-- R26. Opening word of every present stream; waits for the whole team to align. -/
  | rdvAlign (f : Fld)
  /-- R99. Reaches a counted rendezvous of the team. -/
  | rdv (f : Fld)
  /-- R99. Reaches a rendezvous that is also the drain point for swaps and pre-emption. -/
  | rdvFlip (f : Fld)
  /-- R101. Retires at its own issue and ends the stream for the job. -/
  | rdvEnd (f : Fld)
  /-- R103. Delays the stream's next word by n ticks. -/
  | idle (f : Fld)
  /-- R105. Opens a hardware loop level with a count, end and epilogue from the word or the level's registers. -/
  | loop (f : Fld)
  /-- R105. Opens a loop level with stage predicates. -/
  | loopSt (f : Fld)
  /-- R110. Reads a loop register into an s register. -/
  | lpr (f : Fld)
  /-- R110. Writes an engine's own loop register. -/
  | lpw (f : Fld)
  /-- R124. Leaves handler state and, if no other core's trap is pending, resumes the cluster clock at the trapped tick. -/
  | tret (f : Fld)
  /-- R80. Pushes a coprocessor command with its captured operands onto its engine's command queue. -/
  | cop (fn : BitVec 7) (f : Fld)
  /-- R146. Loads one byte, zero-extended. -/
  | ldB (f : Fld)
  /-- R146. Loads two bytes, zero-extended. -/
  | ldH (f : Fld)
  /-- R146. Loads four bytes, zero-extended. -/
  | ldW (f : Fld)
  /-- R146. Loads eight bytes. -/
  | ldD (f : Fld)
  /-- R146. Loads one byte, sign-extended. -/
  | ldBs (f : Fld)
  /-- R146. Loads two bytes, sign-extended. -/
  | ldHs (f : Fld)
  /-- R146. Loads four bytes, sign-extended. -/
  | ldWs (f : Fld)
  /-- R146. Stores one byte. -/
  | stB (f : Fld)
  /-- R146. Stores two bytes. -/
  | stH (f : Fld)
  /-- R146. Stores four bytes. -/
  | stW (f : Fld)
  /-- R146. Stores eight bytes. -/
  | stD (f : Fld)
  /-- R147. Reserves a load-queue place and requests 4 KiB from memory into it. -/
  | qld (f : Fld)
  /-- R147. Pops a visible store-queue entry and writes its 4 KiB to memory. -/
  | qst (f : Fld)
  /-- R148. Asks the cluster L2 to fetch a line; never faults. -/
  | pref (f : Fld)
  /-- R149. Atomic add at the named scope, returning the old value. -/
  | amoAdd (w : Bool) (ord : BitVec 2) (f : Fld)
  /-- R149. Atomic signed minimum. -/
  | amoMin (w : Bool) (ord : BitVec 2) (f : Fld)
  /-- R149. Atomic signed maximum. -/
  | amoMax (w : Bool) (ord : BitVec 2) (f : Fld)
  /-- R149. Atomic unsigned minimum. -/
  | amoMinu (w : Bool) (ord : BitVec 2) (f : Fld)
  /-- R149. Atomic unsigned maximum. -/
  | amoMaxu (w : Bool) (ord : BitVec 2) (f : Fld)
  /-- R149. Atomic and. -/
  | amoAnd (w : Bool) (ord : BitVec 2) (f : Fld)
  /-- R149. Atomic or. -/
  | amoOr (w : Bool) (ord : BitVec 2) (f : Fld)
  /-- R149. Atomic xor. -/
  | amoXor (w : Bool) (ord : BitVec 2) (f : Fld)
  /-- R149. Atomic swap. -/
  | amoSwap (w : Bool) (ord : BitVec 2) (f : Fld)
  /-- R149. Atomic compare-and-swap. -/
  | amoCas (w : Bool) (ord : BitVec 2) (f : Fld)
  /-- R151. Orders earlier before later accesses at a scope, with release and acquire at package scope and wider. -/
  | fence (f : Fld)
  /-- R151. Acquire fence at a scope. -/
  | fenceAcq (f : Fld)
  /-- R151. Release fence at a scope. -/
  | fenceRel (f : Fld)
  /-- R152. Package fence that also discards the AP's held lines. -/
  | afence (f : Fld)
  /-- R151. Orders the AP's loads and stores at core scope. -/
  | mark (f : Fld)
  /-- R154. Pushes an arrival token carrying a register into a load queue. -/
  | tok (f : Fld)
  /-- R131. Returns from the user-level interrupt handler to UIEPC. -/
  | uret (f : Fld)
  /-- R153. Writes a geometry register. -/
  | gset (f : Fld)
  /-- R153. Reads a geometry register. -/
  | gget (f : Fld)
  /-- R186. A TLB miss makes the AP's walker read up to four table levels and check the leaf. -/
  | pageWalk (c : CoreId) (va : W64) (acc : Access)
  /-- R193. A halted AP posts its fault record once the fault ring has room. -/
  | faultRecordPost (c : CoreId)
  /-- R194. A write of APRES makes a fault-halted AP reissue its faulting word. -/
  | apres (v : W64)
  /-- R147. The bytes of a qld entry arrive, and the entry becomes visible in reservation order. -/
  | qldDataArrive (c : CoreId) (q : Fin 8)
  /-- R314. A store leaves the AP's store queue in FIFO order and writes its face's L2 level. -/
  | apStoreDrain (c : CoreId)
  /-- R314. A dirty line is evicted and written back to its HBM controller. -/
  | l2Eviction (face : Fin 4) (line : BitVec 45)
  /-- R248. Clears every cell of a tile, optionally setting a fixed exponent. -/
  | mclr (f : Fld)
  /-- R244. Performs one dense K step on a tile from the A planes and the head B half. -/
  | mstep (f : Fld)
  /-- R245. K step with seeded 2:4 sparse B. -/
  | mstepN24 (f : Fld)
  /-- R245. K step with seeded 4:8 sparse B. -/
  | mstepN48 (f : Fld)
  /-- R245. K step with seeded 1:4 sparse B. -/
  | mstepN14 (f : Fld)
  /-- R240. Reads one B step from ledges into a claimed B half locally or over the cluster bus. -/
  | mbsrc (f : Fld)
  /-- R248. Loads a tile from 64 × 64 FP32 values in a ledge. -/
  | mload (f : Fld)
  /-- R247. K step whose A rows are gathered by an index vector. -/
  | mgath (f : Fld)
  /-- R248. Writes a format-table entry from an s register. -/
  | mfmt (f : Fld)
  /-- R248. Exchanges which physical tiles z0 and z1 name. -/
  | mswap (f : Fld)
  /-- R248. Scales every applied cell's mantissa by 2^n. -/
  | mscale (f : Fld)
  /-- R249. Drains a tile into rb by the entry's drain format and clears it. -/
  | mdrain (f : Fld)
  /-- R258. FP32 element add. -/
  | vaddF32 (f : Fld)
  /-- R258. FP32 element subtract. -/
  | vsubF32 (f : Fld)
  /-- R258. FP32 element multiply. -/
  | vmulF32 (f : Fld)
  /-- R223. FP32 element minimum. -/
  | vminF32 (f : Fld)
  /-- R223. FP32 element maximum. -/
  | vmaxF32 (f : Fld)
  /-- R258. Fused a·b + c, rounded once. -/
  | vfmaF32 (f : Fld)
  /-- R258. Fused a·b − c, rounded once. -/
  | vfmsF32 (f : Fld)
  /-- R258. Fused c − a·b, rounded once. -/
  | vfnmaF32 (f : Fld)
  /-- R258. Clears each element's sign bit. -/
  | vabsF32 (f : Fld)
  /-- R258. Inverts each element's sign bit. -/
  | vnegF32 (f : Fld)
  /-- R259. Wrapping integer add per subelement. -/
  | vaddI (t : BitVec 2) (f : Fld)
  /-- R259. Wrapping integer subtract per subelement. -/
  | vsubI (t : BitVec 2) (f : Fld)
  /-- R259. Wrapping integer multiply per subelement. -/
  | vmulI (t : BitVec 2) (f : Fld)
  /-- R259. Signed integer minimum per subelement. -/
  | vminI (t : BitVec 2) (f : Fld)
  /-- R259. Signed integer maximum per subelement. -/
  | vmaxI (t : BitVec 2) (f : Fld)
  /-- R259. Bitwise and per subelement. -/
  | vand (t : BitVec 2) (f : Fld)
  /-- R259. Bitwise or per subelement. -/
  | vor (t : BitVec 2) (f : Fld)
  /-- R259. Bitwise xor per subelement. -/
  | vxor (t : BitVec 2) (f : Fld)
  /-- R259. Shift left per subelement. -/
  | vshl (t : BitVec 2) (f : Fld)
  /-- R259. Logical shift right per subelement. -/
  | vshr (t : BitVec 2) (f : Fld)
  /-- R259. Arithmetic shift right per subelement. -/
  | vsra (t : BitVec 2) (f : Fld)
  /-- R259. Saturating integer add per subelement. -/
  | vadds (t : BitVec 2) (f : Fld)
  /-- R259. Saturating integer subtract per subelement. -/
  | vsubs (t : BitVec 2) (f : Fld)
  /-- R260. Compares elements under a condition and type into a mask. -/
  | vcmp (cond : BitVec 5) (t : BitVec 2) (f : Fld)
  /-- R261. Mask and. -/
  | kand (f : Fld)
  /-- R261. Mask or. -/
  | kor (f : Fld)
  /-- R261. Mask xor. -/
  | kxor (f : Fld)
  /-- R261. Mask and-not. -/
  | kandn (f : Fld)
  /-- R261. Mask complement. -/
  | knot (f : Fld)
  /-- R261. Mask copy. -/
  | kmov (f : Fld)
  /-- R262. Selects elements of two sources by a mask. -/
  | vsel (f : Fld)
  /-- R263. Converts each element between types 0–9. -/
  | vcvt (dst : BitVec 4) (f : Fld)
  /-- R264. Packs elements of a narrow type into one part of a register. -/
  | vpack (f : Fld)
  /-- R264. Unpacks one part of packed narrow elements. -/
  | vunpack (f : Fld)
  /-- R265. Rotates each row by n columns. -/
  | vrotR (f : Fld)
  /-- R265. Broadcasts column n along each row. -/
  | vbcR (f : Fld)
  /-- R266. Sums each row. -/
  | vraddR (f : Fld)
  /-- R266. Maximum of each row. -/
  | vrmaxR (f : Fld)
  /-- R266. Minimum of each row. -/
  | vrminR (f : Fld)
  /-- R266. Maximum of each row with its index. -/
  | vrmaxiR (f : Fld)
  /-- R266. Minimum of each row with its index. -/
  | vrminiR (f : Fld)
  /-- R265. Rotates each column by n rows. -/
  | vrotC (f : Fld)
  /-- R265. Broadcasts row n down each column. -/
  | vbcC (f : Fld)
  /-- R266. Sums each column. -/
  | vraddC (f : Fld)
  /-- R266. Maximum of each column. -/
  | vrmaxC (f : Fld)
  /-- R266. Minimum of each column. -/
  | vrminC (f : Fld)
  /-- R266. Maximum of each column with its index. -/
  | vrmaxiC (f : Fld)
  /-- R266. Minimum of each column with its index. -/
  | vrminiC (f : Fld)
  /-- R267. Copies a register, queue entry or rb slice to a register or store queue. -/
  | vmov (f : Fld)
  /-- R267. Writes an immediate to every element. -/
  | vmovi (f : Fld)
  /-- R268. Loads a register from ledge rows over the lanes. -/
  | vld (f : Fld)
  /-- R268. Stores a register to ledge rows over the lanes. -/
  | vst (f : Fld)
  /-- R269. Takes eight rows off the lanes at the pipe's stop into a quarter. -/
  | vtapr (f : Fld)
  /-- R269. Puts a quarter's rows onto the lanes toward a target stop. -/
  | vtapw (f : Fld)
  /-- R226. Correctly rounded 2^x per element. -/
  | sfExp2 (f : Fld)
  /-- R226. Correctly rounded log2 per element. -/
  | sfLog2 (f : Fld)
  /-- R226. Correctly rounded reciprocal. -/
  | sfRcp (f : Fld)
  /-- R226. Correctly rounded reciprocal square root. -/
  | sfRsqrt (f : Fld)
  /-- R226. Correctly rounded square root. -/
  | sfSqrt (f : Fld)
  /-- R228. Correctly rounded sine, NaN and SFRANGE beyond 2^20. -/
  | sfSin (f : Fld)
  /-- R228. Correctly rounded cosine, NaN and SFRANGE beyond 2^20. -/
  | sfCos (f : Fld)
  /-- R226. Correctly rounded hyperbolic tangent. -/
  | sfTanh (f : Fld)
  /-- R276. Reduces each row to a transformed mean with term and skip counts. -/
  | sfTmx (f : Fld)
  /-- R278. Routes 16 rows into bins by index, dropping, deferring or trapping overflow. -/
  | sfRoute (f : Fld)
  /-- R280. Checks composition and zero-fills a bin's rows from FILL to CAP. -/
  | sfBopen (f : Fld)
  /-- R280. Clears a bin's counters and pops SFPATH if it matches. -/
  | sfBclose (f : Fld)
  /-- R302. Residue point: opens a bin over a spill area's rows and pushes SFPATH. -/
  | sfBdrain (f : Fld)
  /-- R282. Counts row indices into the histogram array H. -/
  | sfHist (f : Fld)
  /-- R282. Clears H and then counts row indices. -/
  | sfHistZ (f : Fld)
  /-- R282. Latches H counts into bin fills and bases. -/
  | sfHistLatch (f : Fld)
  /-- R283. Merges 64 new candidates per row into a 64-best shortlist. -/
  | sfShort (f : Fld)
  /-- R284. Sets a sticky mask bit for rows whose sum is below a threshold. -/
  | sfMass (f : Fld)
  /-- R285. Draws raw Philox words per element. -/
  | sfRng (f : Fld)
  /-- R285. Draws uniform FP32 values in [0, 1) per element. -/
  | sfRngU (f : Fld)
  /-- R281. Writes a bin descriptor's fields into a register. -/
  | sfBget (f : Fld)
  /-- R281. Writes one bin descriptor field from an s register. -/
  | sfBset (f : Fld)
  /-- R81. A command reaching its queue head has its guard resolved once the slot is written, retiring as a null if false. -/
  | commandHeadResolve (c : CoreId) (src : CmdSource) (t : Target)
  /-- R158. A true head command is dispatched to a free engine once no earlier overlapping command of its queue is incomplete. -/
  | commandDispatch (c : CoreId) (src : CmdSource) (t : Target)
  /-- R129. A completion adds its record to the AP's completion queue once the queue has room. -/
  | completionRecordEnqueue (c : CoreId)
  /-- R130. An AP read of UIREC pops the head completion record. -/
  | uirecRead (c : CoreId) (d : Fin 32)
  /-- R129. An AP between words with a pending record and UIEN set enters its user-level interrupt handler. -/
  | uiEntry (c : CoreId)
  /-- R165. Copies and converts a tensor from memory into the scratchpad, optionally plane-major or dressed. -/
  | copyIn (c : CoreId) (id : Nat)
  /-- R165. Copies and converts a tensor from the scratchpad to memory. -/
  | copyOut (c : CoreId) (id : Nat)
  /-- R138. Gathers eight table rows by index into the scratchpad, replying a miss mask. -/
  | gather (c : CoreId) (id : Nat)
  /-- R169. Scatters eight scratchpad rows into table rows by index. -/
  | scatter (c : CoreId) (id : Nat)
  /-- R165. Copies and converts a tensor from memory to memory. -/
  | copyMm (c : CoreId) (id : Nat)
  /-- R170. Fills scratchpad rows with a 32-bit pattern. -/
  | fill (c : CoreId) (id : Nat)
  /-- R139. Loads a dressing program into a dresser slot. -/
  | dress (c : CoreId) (id : Nat)
  /-- R304. Counts expert indices of a scratchpad column and latches bin fills and bases. -/
  | hist (c : CoreId) (id : Nat)
  /-- R306. Copies rows into the first length class wide enough. -/
  | binsort (c : CoreId) (id : Nat)
  /-- R355. Issues a collective described by a descriptor and sequence number. -/
  | coll (c : CoreId) (id : Nat)
  /-- R285. Writes a random generator seed. -/
  | rngSeed (c : CoreId) (id : Nat)
  /-- R195. Submits a TLB invalidate to the package's invalidate sequencer. -/
  | inval (c : CoreId) (id : Nat)
  /-- R391. Records a scrub of a core's non-ledge state and ledges for a world. -/
  | scrubLedge (f : Fld)
  /-- R391. Records a scrub of an HBM range for a world. -/
  | scrubMem (f : Fld)
  /-- R391. Records a discard of a world's L2 lines and dresser slots in every cluster. -/
  | scrubL2 (f : Fld)
  /-- R396. Replies once the world's recorded scrubs have finished. -/
  | scrubJoin (f : Fld)
  /-- R419. Unwraps a key blob under KIMP into a world's key slot. -/
  | keyslotLoad (c : CoreId) (id : Nat)
  /-- R390. Zeroises a world's key slot. -/
  | keyslotZero (c : CoreId) (id : Nat)
  /-- R419. Wraps a loaded key slot under KSLP into a blob. -/
  | keyslotWrap (c : CoreId) (id : Nat)
  /-- R419. Unwraps a sleep blob under KSLP into a world's key slot. -/
  | keyslotUnwrap (c : CoreId) (id : Nat)
  /-- R173. Declares a dresser axis with its extent. -/
  | axis (d : BitVec 4) (n : BitVec 16)
  /-- R173. Splits a dresser axis in two. -/
  | split (c : BitVec 4) (n : BitVec 16)
  /-- R173. Joins two adjacent dresser axes. -/
  | join (c : BitVec 4)
  /-- R173. Exchanges two dresser axis positions. -/
  | swap (c j : BitVec 4)
  /-- R173. Reverses a dresser axis. -/
  | rev (c : BitVec 4)
  /-- R173. Pads a dresser axis with a pad byte. -/
  | pad (c : BitVec 4) (lo hi : BitVec 16) (v : BitVec 8)
  /-- R173. Records an xor swizzle against another axis. -/
  | tile (c j : BitVec 4) (m : BitVec 4)
  /-- R173. Sets the output stride of a dresser axis. -/
  | emit (c : BitVec 4) (s : BitVec 32)
  /-- R196. A host write of INVCTL.GO submits an invalidate to the sequencer. -/
  | invctlGo (v : W64)
  /-- R197. An invalidate is acknowledged once every AP has removed entries and every use of the old translation has drained. -/
  | invalidateAck
  /-- R132. A team with PREQ set suspends at its next rdv.flip once its untimed commands complete, saving its state and freeing its cores. -/
  | drainPointSuspend (job : Nat)
  /-- R133. When DRAINLIM expires the team is stopped at tick and word boundaries and its whole context is saved. -/
  | forcedSave (job : Nat)
  /-- R133. A write of PRECTL.FORCE starts a forced save of the core's team at once. -/
  | prectlForce (c : CoreId)
  /-- R135. A write of PRECTL.KILL kills the core's current job. -/
  | prectlKill (c : CoreId)
  /-- R134. A suspended team is placed on cores, restored and started together. -/
  | teamResume (job : Nat)
  /-- R401. A notify write sets a slot's tail or is written to the queue's notify shadow. -/
  | notify (v : Fin 128) (s : Fin 256) (x : W32)
  /-- R401. A write of SLOTCFG maps or unmaps a slot; mapping reads the queue's head and shadow. -/
  | slotcfgWrite (s : Fin 256) (x : W64)
  /-- R400. Kills every resident job that the slot launched. -/
  | slotctlKill (s : Fin 256)
  /-- R400. Makes the slot's suspended teams eligible to resume. -/
  | slotctlResume (s : Fin 256)
  /-- R400. Requests pre-emption of every resident team of the slot, setting PREQ. -/
  | slotctlPreempt (s : Fin 256)
  /-- R402. With a channel free and a slot ready, base camp steps BCSEED and picks a winning slot by band and tickets. -/
  | lotteryDecision
  /-- R407. A launch entry's plane is loaded into the shadow planes of the chosen cores, with its patch map applied. -/
  | launch (s : Fin 256)
  /-- R408. A swap entry's plane is loaded into the running team's shadow planes for the next rdv.flip. -/
  | swapEntry (s : Fin 256)
  /-- R410. A replay entry binds its graph-parameter bank, writes a composition record and runs its nodes as a graph. -/
  | replay (s : Fin 256)
  /-- R409. After every present stream retires rdv.end and commands complete, base camp releases accesses, writes the completion record, decrements successors and frees cores. -/
  | jobComplete (job : Nat)
  /-- R355. When every member has issued a coll of one sequence number the collective unit checks agreement and starts the exchange. -/
  | collStart (id : Nat)
  /-- R356. A rank writes its reply once it has received every rank's done mark. -/
  | collDoneMark (id : Nat) (rank : Nat)
  /-- R357. An abort for a collective reaches a rank, which discards its partials and writes a job event. -/
  | collAbort (id : Nat) (detail : BitVec 8) (rank : Nat)
  /-- R346. A rope flit arrives, its CRC and Scree blocks are checked, and its payload is delivered or replay requested. -/
  | flitReceive (p : Fin 24) (fl : Flit)
  /-- R363. A port encodes an egress block in the shortest or forced Scree mode and sends it in flits. -/
  | ropeEgressBlock (p : Fin 24) (b : BitVec 4096)
  /-- R346. A replay request makes the sender replay from the named flit in order. -/
  | flitReplayRequest (p : Fin 24) (seq : BitVec 24)
  /-- R346. A port that fails 16 replays of a flit is taken down and its traffic moved. -/
  | portDown (p : Fin 24)
  /-- R365. A read of ROPEERR returns and clears its error counters. -/
  | ropeerrRead (p : Fin 24)
  /-- R366. A UDP datagram carrying a rope message arrives on an Ethernet port. -/
  | ethDatagramReceive (p : Fin 4) (src : Fin 16) (fl : Flit)
  /-- R366. After 50 µs without acknowledgement the Ethernet transport retries go-back-N. -/
  | ethRetryTimeout (j : Fin 16)
  /-- R367. A peer silent for 100 ms counts as a lost direction. -/
  | peerLossTimeout (j : Fin 16)
  /-- R366. A priority flow control frame pauses or resumes one priority of an Ethernet port. -/
  | priorityFlowControl (p : Fin 4) (prio : Fin 8) (pause : Bool)
  /-- R376. A matched flit runs its class's kernel on the flow's home core and is forwarded as modified, dropped or by TPOL on a trap. -/
  | cairnRun (k : Fin 64)
  /-- R373. A write of CAIRNPART is accepted or refused and zeroes the partition when its placement changes. -/
  | cairnpartWrite (j : Fin 16) (v : W64)
  /-- R373. A write of CAIRNMASK is accepted or refused against kernel-region overlap. -/
  | cairnmaskWrite (j : Fin 16) (v : W64)
  /-- R375. A read of a class counter returns and clears TRAPS and LOST. -/
  | cairnCounterRead (j : Fin 16) (cl : Fin 8)
  /-- R379. Lane-wise wrapping add of two registers. -/
  | cAdd (d a b : BitVec 4) (m : BitVec 2)
  /-- R379. Lane-wise wrapping add of an immediate. -/
  | cAddI (d a : BitVec 4) (m : BitVec 2) (imm : BitVec 11)
  /-- R379. Lane-wise wrapping subtract. -/
  | cSub (d a b : BitVec 4) (m : BitVec 2)
  /-- R379. Lane-wise subtract of an immediate. -/
  | cSubI (d a : BitVec 4) (m : BitVec 2) (imm : BitVec 11)
  /-- R379. Lane-wise low-half multiply. -/
  | cMul (d a b : BitVec 4) (m : BitVec 2)
  /-- R379. Lane-wise multiply by an immediate. -/
  | cMulI (d a : BitVec 4) (m : BitVec 2) (imm : BitVec 11)
  /-- R379. Lane-wise and. -/
  | cAnd (d a b : BitVec 4) (m : BitVec 2)
  /-- R379. Lane-wise and with an immediate. -/
  | cAndI (d a : BitVec 4) (m : BitVec 2) (imm : BitVec 11)
  /-- R379. Lane-wise or. -/
  | cOr (d a b : BitVec 4) (m : BitVec 2)
  /-- R379. Lane-wise or with an immediate. -/
  | cOrI (d a : BitVec 4) (m : BitVec 2) (imm : BitVec 11)
  /-- R379. Lane-wise xor. -/
  | cXor (d a b : BitVec 4) (m : BitVec 2)
  /-- R379. Lane-wise xor with an immediate. -/
  | cXorI (d a : BitVec 4) (m : BitVec 2) (imm : BitVec 11)
  /-- R379. Lane-wise shift left. -/
  | cShl (d a b : BitVec 4) (m : BitVec 2)
  /-- R379. Lane-wise shift left by an immediate. -/
  | cShlI (d a : BitVec 4) (m : BitVec 2) (imm : BitVec 11)
  /-- R379. Lane-wise logical shift right. -/
  | cShr (d a b : BitVec 4) (m : BitVec 2)
  /-- R379. Lane-wise logical shift right by an immediate. -/
  | cShrI (d a : BitVec 4) (m : BitVec 2) (imm : BitVec 11)
  /-- R379. Lane-wise arithmetic shift right. -/
  | cSra (d a b : BitVec 4) (m : BitVec 2)
  /-- R379. Lane-wise arithmetic shift right by an immediate. -/
  | cSraI (d a : BitVec 4) (m : BitVec 2) (imm : BitVec 11)
  /-- R379. Lane-wise signed minimum. -/
  | cMin (d a b : BitVec 4) (m : BitVec 2)
  /-- R379. Lane-wise signed minimum with an immediate. -/
  | cMinI (d a : BitVec 4) (m : BitVec 2) (imm : BitVec 11)
  /-- R379. Lane-wise signed maximum. -/
  | cMax (d a b : BitVec 4) (m : BitVec 2)
  /-- R379. Lane-wise signed maximum with an immediate. -/
  | cMaxI (d a : BitVec 4) (m : BitVec 2) (imm : BitVec 11)
  /-- R379. Lane-wise unsigned minimum. -/
  | cMinu (d a b : BitVec 4) (m : BitVec 2)
  /-- R379. Lane-wise unsigned minimum with an immediate. -/
  | cMinuI (d a : BitVec 4) (m : BitVec 2) (imm : BitVec 11)
  /-- R379. Lane-wise unsigned maximum. -/
  | cMaxu (d a b : BitVec 4) (m : BitVec 2)
  /-- R379. Lane-wise unsigned maximum with an immediate. -/
  | cMaxuI (d a : BitVec 4) (m : BitVec 2) (imm : BitVec 11)
  /-- R379. Lane-wise binary32 add. -/
  | cFadd (d a b : BitVec 4) (m : BitVec 2)
  /-- R379. Lane-wise binary32 subtract. -/
  | cFsub (d a b : BitVec 4) (m : BitVec 2)
  /-- R379. Lane-wise binary32 multiply. -/
  | cFmul (d a b : BitVec 4) (m : BitVec 2)
  /-- R379. Lane-wise binary32 minimum. -/
  | cFmin (d a b : BitVec 4) (m : BitVec 2)
  /-- R379. Lane-wise binary32 maximum. -/
  | cFmax (d a b : BitVec 4) (m : BitVec 2)
  /-- R379. Lane-wise equality into a mask. -/
  | cCmpEq (d : BitVec 2) (a b : BitVec 4) (m : BitVec 2)
  /-- R379. Lane-wise equality with an immediate into a mask. -/
  | cCmpEqI (d : BitVec 2) (a : BitVec 4) (m : BitVec 2) (imm : BitVec 11)
  /-- R379. Lane-wise inequality into a mask. -/
  | cCmpNe (d : BitVec 2) (a b : BitVec 4) (m : BitVec 2)
  /-- R379. Lane-wise inequality with an immediate into a mask. -/
  | cCmpNeI (d : BitVec 2) (a : BitVec 4) (m : BitVec 2) (imm : BitVec 11)
  /-- R379. Lane-wise signed less-than into a mask. -/
  | cCmpLt (d : BitVec 2) (a b : BitVec 4) (m : BitVec 2)
  /-- R379. Lane-wise signed less-than an immediate into a mask. -/
  | cCmpLtI (d : BitVec 2) (a : BitVec 4) (m : BitVec 2) (imm : BitVec 11)
  /-- R379. Lane-wise signed less-or-equal into a mask. -/
  | cCmpLe (d : BitVec 2) (a b : BitVec 4) (m : BitVec 2)
  /-- R379. Lane-wise signed less-or-equal an immediate into a mask. -/
  | cCmpLeI (d : BitVec 2) (a : BitVec 4) (m : BitVec 2) (imm : BitVec 11)
  /-- R379. Lane-wise unsigned less-than into a mask. -/
  | cCmpLtu (d : BitVec 2) (a b : BitVec 4) (m : BitVec 2)
  /-- R379. Lane-wise unsigned less-than an immediate into a mask. -/
  | cCmpLtuI (d : BitVec 2) (a : BitVec 4) (m : BitVec 2) (imm : BitVec 11)
  /-- R379. Lane-wise unsigned less-or-equal into a mask. -/
  | cCmpLeu (d : BitVec 2) (a b : BitVec 4) (m : BitVec 2)
  /-- R379. Lane-wise unsigned less-or-equal an immediate into a mask. -/
  | cCmpLeuI (d : BitVec 2) (a : BitVec 4) (m : BitVec 2) (imm : BitVec 11)
  /-- R379. Lane-wise IEEE less-than into a mask. -/
  | cCmpFlt (d : BitVec 2) (a b : BitVec 4) (m : BitVec 2)
  /-- R379. Lane-wise IEEE less-or-equal into a mask. -/
  | cCmpFle (d : BitVec 2) (a b : BitVec 4) (m : BitVec 2)
  /-- R379. Selects lanes of two registers by a mask. -/
  | cSel (d a b : BitVec 4) (m : BitVec 2)
  /-- R379. Mask and. -/
  | cMand (d a b : BitVec 2)
  /-- R379. Mask or. -/
  | cMor (d a b : BitVec 2)
  /-- R379. Mask xor. -/
  | cMxor (d a b : BitVec 2)
  /-- R379. Mask complement. -/
  | cMnot (d a : BitVec 2)
  /-- R379. Loads a sign-extended 17-bit value into every lane. -/
  | cLi (d : BitVec 4) (v : BitVec 17)
  /-- R379. Loads bits [31:17] of every lane. -/
  | cLhi (d : BitVec 4) (v : BitVec 15)
  /-- R379. Writes each lane's number. -/
  | cLidx (d : BitVec 4)
  /-- R379. Broadcasts lane n to every lane. -/
  | cBcast (d a : BitVec 4) (n : BitVec 4)
  /-- R379. Rotates lanes by n. -/
  | cRot (d a : BitVec 4) (n : BitVec 4)
  /-- R379. Sums the masked lanes into lane 0. -/
  | cRadd (d a : BitVec 4) (m : BitVec 2)
  /-- R379. Signed maximum of the masked lanes into lane 0. -/
  | cRmax (d a : BitVec 4) (m : BitVec 2)
  /-- R379. Loads lanes from the flit window. -/
  | cFld (d : BitVec 4) (m : BitVec 2) (off : BitVec 6)
  /-- R379. Stores lanes into the flit payload window. -/
  | cFst (a : BitVec 4) (m : BitVec 2) (off : BitVec 6)
  /-- R380. Loads lanes from the flow's record. -/
  | cSld (d : BitVec 4) (m : BitVec 2) (r : BitVec 6) (x : BitVec 5)
  /-- R380. Stores lanes into the flow's record. -/
  | cSst (a : BitVec 4) (m : BitVec 2) (r : BitVec 6) (x : BitVec 5)
  /-- R384. Reduces masked lanes to a transformed-mean partial. -/
  | cTmred (d a : BitVec 4) (m : BitVec 2)
  /-- R384. Merges two transformed-mean partials. -/
  | cTmmrg (d a b : BitVec 4)
  /-- R384. Applies the exit of a transformed-mean partial. -/
  | cTmext (d a : BitVec 4)
  /-- R381. Repeats the next len words n times. -/
  | cRep (n : BitVec 8) (len : BitVec 11)
  /-- R382. Skips the next k words when any mask bit is set. -/
  | cSkip (m : BitVec 2) (k : BitVec 11)
  /-- R382. Skips the next k words when no mask bit is set. -/
  | cSkipNone (m : BitVec 2) (k : BitVec 11)
  /-- R381. Writes a repeat level's index to every lane. -/
  | cRidx (d : BitVec 4) (lv : BitVec 1)
  /-- R379. Marks the flit's payload to be dropped. -/
  | cDrop
  /-- R386. Writes a job event carrying lane 0 of a register. -/
  | cEv (a : BitVec 4)
  /-- R392. The scrub engine performs one 4 KiB step of a recorded scrub and advances DONE. -/
  | scrubStep (w : World)
  /-- R394. A write of CWREQ assigns a core to a world, clearing its non-ledge state and TLB, or is refused. -/
  | cwreq (c : CoreId) (v : W64)
  /-- R394. A read of CWSTAT returns it and clears REFUSED. -/
  | cwstatRead (c : CoreId)
  /-- R438. A read of UEADDR returns the failed unit's address and clears it. -/
  | ueaddrRead (c : CoreId)
  /-- R424. A tether packet arrives and, under a session, its GCM tag is checked; a failure discards it and terminates the session. -/
  | tetherPacketReceive (v : Fin 128) (k : Fin 3) (p : Packet)
  /-- R422. A sub-stream counter reaching 2^RKLOG holds its next packet while both ends switch to the next key. -/
  | substreamRekey (v : Fin 128) (k : Fin 3)
  /-- R198. A non-posted request without completion after TMO counts as uncorrectable data. -/
  | nonpostedTimeout (v : Fin 128) (id : Nat)
  /-- R424. A write of TSESS.TERM terminates the virtual function's session. -/
  | tsessTerm (v : Fin 128)
  /-- R423. A read of TSESS returns it and clears TAGFAIL. -/
  | tsessRead (v : Fin 128)
  /-- R427. SPDM GET_VERSION request answered by the guide core. -/
  | getVersion (v : Fin 128) (msg : List Byte)
  /-- R427. SPDM GET_CAPABILITIES request. -/
  | getCapabilities (v : Fin 128) (msg : List Byte)
  /-- R427. SPDM NEGOTIATE_ALGORITHMS request. -/
  | negotiateAlgorithms (v : Fin 128) (msg : List Byte)
  /-- R427. SPDM GET_DIGESTS request. -/
  | getDigests (v : Fin 128) (msg : List Byte)
  /-- R427. SPDM GET_CERTIFICATE request. -/
  | getCertificate (v : Fin 128) (msg : List Byte)
  /-- R427. SPDM CHALLENGE request. -/
  | challenge (v : Fin 128) (msg : List Byte)
  /-- R427. SPDM GET_MEASUREMENTS returning MEAS registers. -/
  | getMeasurements (v : Fin 128) (msg : List Byte)
  /-- R427. SPDM KEY_EXCHANGE request opening a session. -/
  | keyExchange (v : Fin 128) (msg : List Byte)
  /-- R421. SPDM FINISH binds the session to its VF and installs sub-stream keys and KIMP. -/
  | finish (v : Fin 128) (msg : List Byte)
  /-- R427. SPDM KEY_UPDATE request. -/
  | keyUpdate (v : Fin 128) (msg : List Byte)
  /-- R427. SPDM HEARTBEAT request. -/
  | heartbeat (v : Fin 128) (msg : List Byte)
  /-- R427. SPDM END_SESSION terminates the session. -/
  | endSession (v : Fin 128) (msg : List Byte)
  /-- R429. A write of SLPCTL.REQ enters deep sleep, wrapping key slots and powering down, or is refused. -/
  | slpctlReq
  /-- R431. A write of SLPCTL.WAKE wakes the package from deep sleep. -/
  | slpctlWake
  /-- R431. The wake input asserted for 1 µs wakes the package, unwrapping key slots and restarting dispatch. -/
  | wakeInput
  /-- R428. A read of SLPCTL returns it and clears REFUSED. -/
  | slpctlRead
  /-- R449. The reset pin or power-on detector resets the package and runs bring-up with image verification and measurement. -/
  | coldReset
  /-- R447. A write of RSTCTL.WARM starts a warm reset. -/
  | rstctlWarm
  /-- R447. A write of RSTCTL.CGO resets one architectural core. -/
  | rstctlCgo (c : CoreId)
  /-- R444. Each millisecond the guide core lowers or raises core clocks to hold WATTS under CAP. -/
  | throttleAdjust
  /-- R439. After a detected error the unit is quiesced at its drain point, tested and repaired or disabled. -/
  | selfTest
  /-- R437. An error record is written to the error ring once it has room. -/
  | errorRecordPost
  /-- R8. A write to a register without a row of its own sets its fields as their access codes allow. -/
  | registerWrite (a : BitVec 52) (v : W64)
deriving DecidableEq, Repr

end Sys2Proof
end

