-- ==== Sys2Proof/Decode.lean ====
section
/-! DEFINITION. Decoding and encoding of the four kinds of word that Skohiot stores: engine words of 96 bits and pitch
headers (R53-R75), cairn words of 32 bits (R378), dresser words of 64 bits (R172). Decoding is total and rejects by
name. The encoding checks of R76 stand here as one function over the fields of a word, and the encoder after them. -/

namespace Sys2Proof

/-- Why bits are not an instruction: the failed checks of R76 by name, then those of cairn and dresser words. -/
inductive Reject where
  /-- detail 1: the header marker stands in a word slot -/
  | marker
  /-- detail 2: reserved major -/
  | reservedMajor
  /-- detail 3: a major or function the stream does not accept -/
  | wrongStream
  /-- detail 4: fn not assigned -/
  | badFn
  /-- detail 5: reserved register code -/
  | reservedReg
  /-- detail 6: register class not accepted -/
  | wrongClass
  /-- detail 7: scope or type code -/
  | badType
  /-- detail 8: unused field not zero, or a sub-field outside its range -/
  | notZero
  /-- detail 9: delay field -/
  | delay
  /-- detail 10: the item after a pitch's last word is not a header -/
  | noHeader
  /-- detail 11: pitch number out of sequence -/
  | pitchNumber
  /-- detail 12: malformed header -/
  | badHeader
  /-- detail 13: loop end beyond the pitch, or spatial level -/
  | loopEnd
  /-- detail 14: the first item is not a header -/
  | noFirstHeader
  /-- detail 15: rdv.align that is not a stream's first word -/
  | notOpening
  /-- a reserved cairn op or a nonzero unused field (R383) -/
  | badCairn
  /-- a reserved dresser op or a nonzero unused bit (R174) -/
  | badDress
  /-- too few bytes -/
  | tooShort
deriving DecidableEq, Repr

/-- The name of a detail code of R76. -/
def rejectOf (detail : Nat) : Reject :=
  match detail with
  | 1 => .marker | 2 => .reservedMajor | 3 => .wrongStream | 4 => .badFn | 5 => .reservedReg | 6 => .wrongClass
  | 7 => .badType | 8 => .notZero | 9 => .delay | 10 => .noHeader | 11 => .pitchNumber | 12 => .badHeader
  | 13 => .loopEnd | 14 => .noFirstHeader | _ => .notOpening

/-! ### Fields of an engine word -/

/-- An engine word cut into its fields (R56). -/
structure Fields where
  op : BitVec 8
  fn : BitVec 7
  f : Fld
deriving DecidableEq, Repr

/-- The 96 bits of a word's fields, most significant first (R56). -/
def packWord (x : Fields) : BitVec 96 :=
  x.op ++ x.f.h.dly ++ x.f.h.g ++ BitVec.ofBool x.f.h.gs ++ x.fn ++ x.f.d ++ x.f.a ++ x.f.b ++ x.f.c ++ x.f.imm

/-- The fields of a word (R56). -/
def unpackWord (w : BitVec 96) : Fields :=
  { op := w.extractLsb' 88 8, fn := w.extractLsb' 68 7
    f := { h := { dly := w.extractLsb' 80 8, g := w.extractLsb' 76 4, gs := w.getLsbD 75 }
           d := w.extractLsb' 60 8, a := w.extractLsb' 52 8, b := w.extractLsb' 44 8, c := w.extractLsb' 36 8
           imm := w.extractLsb' 0 36 } }

/-- The fn of an atomic: operation, width, ordering (R72). -/
def amoFn (o : Nat) (w : Bool) (ord : BitVec 2) : BitVec 7 := BitVec.ofNat 4 o ++ BitVec.ofBool w ++ ord

/-- A sub-field of imm36 as a number. -/
def immBits (f : Fld) (lo len : Nat) : Nat := f.imm.toNat / 2 ^ lo % 2 ^ len

/-! ### Register classes -/

/-- The register classes of R61. -/
inductive RClass where
  | s | a | v | k | q | w | z | rb | b | p | ft | cw | ac
deriving DecidableEq, Repr

/-- The class of a register-field code; none for a reserved code (R61). -/
def regClass (code : Nat) : Option RClass :=
  if code < 0x20 then some .s
  else if code < 0x40 then some .a
  else if code < 0x60 then some .v
  else if code < 0x68 then some .k
  else if code < 0x70 then some .q
  else if code < 0x74 then some .w
  else if code < 0x76 then some .z
  else if code = 0x76 then some .rb
  else if code < 0x80 then none
  else if code < 0x90 then some .b
  else if code < 0x9F then some .p
  else if code < 0xA0 then none
  else if code < 0xB0 then some .ft
  else if code < 0xB8 then some .cw
  else if code < 0xC0 then some .ac
  else none

/-- May the engine name the class, writing or reading (R62)? A tap may be named in either direction. -/
def classAllowed (e : Engine) (cl : RClass) (write : Bool) : Bool :=
  match cl with
  | .s => match e with | .lead => true | .ap => false | _ => !write
  | .a => match e with | .ap => true | _ => false
  | .v => match e with | .mx => !write | .va | .vb | .sf => true | _ => false
  | .k => match e with | .va | .vb | .sf => true | _ => false
  | .q => match e with | .lead => false | .ap => write | _ => !write
  | .w => match e with | .ap => !write | .va | .vb | .sf => write | _ => false
  | .z => match e with | .mx => true | _ => false
  | .rb => match e with | .mx => write | .va | .vb => !write | _ => false
  | .b => match e with | .lead => !write | .sf => true | _ => false
  | .p => match e with | .lead | .ap => true | _ => !write
  | .ft => match e with | .lead => !write | .mx => true | _ => false
  | .cw | .ac => match e with | .mx | .va | .vb | .sf => true | _ => false

/-- How an instruction uses a register field: not at all, as a register of the listed classes, or as one of them or
0x00 for none. -/
inductive FieldUse where
  | no
  | reg (cls : List RClass)
  | opt (cls : List RClass)
deriving DecidableEq, Repr

/-- The failed check of one register field, as a detail code (R57, R61-R63); 0 when it passes. Of the lanes only cw0
and ac0 are accepted (R257). -/
def fieldDetail (e : Engine) (write : Bool) (use : FieldUse) (code : Nat) : Nat :=
  let check (cls : List RClass) : Nat :=
    match regClass code with
    | none => 5
    | some cl =>
      if !cls.contains cl || !classAllowed e cl write then 6
      else if (decide (cl = .cw) && decide (code ≠ 0xB0)) || (decide (cl = .ac) && decide (code ≠ 0xB8)) then 6
      else 0
  match use with
  | .no => if code = 0 then 0 else 8
  | .reg cls => check cls
  | .opt cls => if code = 0 then 0 else check cls

/-! ### The opcode map -/

/-- The engines that accept a major; none for a reserved major (R69, R70). -/
def majorEngines (op : Nat) : Option (List Engine) :=
  if op = 0x00 then some [.lead]
  else if 0x08 ≤ op ∧ op ≤ 0x0E then some [.lead, .ap]
  else if 0x20 ≤ op ∧ op ≤ 0x2B then some [.ap]
  else if 0x40 ≤ op ∧ op ≤ 0x48 then some [.mx]
  else if 0x50 ≤ op ∧ op ≤ 0x5D then some [.va, .vb]
  else if 0x90 ≤ op ∧ op ≤ 0x96 then some [.sf]
  else if op = 0xB0 ∨ op = 0xB5 then some [.lead, .ap]
  else if op = 0xB1 then some Engine.all
  else if op = 0xB2 ∨ op = 0xB3 ∨ op = 0xB4 then some [.lead, .mx, .va, .vb, .sf]
  else if op = 0xB6 then some [.lead]
  else none

/-- The fields an instruction uses: its register fields, the bits of imm36 that it names, and whether it takes a guard
(R57, R89, R144). -/
structure Shape where
  d : FieldUse := .no
  a : FieldUse := .no
  b : FieldUse := .no
  c : FieldUse := .no
  mask : Nat := 0
  guard : Bool := true
deriving DecidableEq, Repr

/-- Every bit of imm36. -/
def immAll : Nat := 2 ^ 36 - 1

/-- The scalar class of a stream: s in LEAD and the other timed engines, a in the AP (R69). -/
def scalarClass (e : Engine) : RClass :=
  match e with
  | .ap => .a
  | _ => .s

/-- The function codes of R155 with the sub-fields of imm36 beyond TAG. -/
def copMask (fn : Nat) : Option Nat :=
  match fn with
  | 0x01 => some 0xFFF0F0000
  | 0x02 => some 0xFFE000000
  | 0x03 => some 0xFFFFF0000
  | 0x04 => some 0xFFFF00000
  | 0x05 => some 0xFFE0F0000
  | 0x06 => some 0
  | 0x08 => some 0x0000F0000
  | 0x09 => some 0
  | 0x0A => some 0
  | 0x0B => some 0
  | 0x0C => some 0
  | 0x40 => some 0xFFFF30000
  | 0x41 => some 0x000F30000
  | 0x42 => some 0x000F30000
  | _ => none

/-- The functions that LEAD may issue (R155, R156). -/
def copLead (fn : Nat) : Bool :=
  match fn with
  | 0x06 | 0x09 | 0x0A | 0x0C => true
  | _ => false

/-- Does the function use operand a, operand b (R137, R155, R391, R419)? `sel` is imm36[17:16]. -/
def copUsesA (fn sel : Nat) : Bool := !((decide (fn = 0x41) && decide (2 ≤ sel)) || (decide (fn = 0x42) && decide (sel = 1)))
def copUsesB (fn sel : Nat) : Bool :=
  !(decide (fn = 0x08) || decide (fn = 0x42) || (decide (fn = 0x41) && decide (2 ≤ sel)))

/-- The fields of a word of the shared scalar and LEAD majors (R71, R90-R97). -/
def shapeScalar (e : Engine) (op fn : Nat) : Option Shape :=
  let x : FieldUse := .reg [scalarClass e]
  let p : FieldUse := .reg [.p]
  match op with
  | 0x00 => if fn = 0 then some { a := p, guard := false } else none
  | 0x08 => if fn ≤ 0x0F then some { d := x, a := x, b := x } else if fn ≤ 0x12 then some { d := x, a := x } else none
  | 0x09 => if fn ≤ 0x0F then some { d := x, a := x, mask := immAll } else none
  | 0x0A => if fn = 0 then some { d := x, mask := immAll } else if fn = 1 then some { d := x, mask := 2 ^ 28 - 1 } else none
  | 0x0B => if fn ≤ 5 then some { d := p, a := x, b := x } else none
  | 0x0C => if fn ≤ 5 then some { d := p, a := x, mask := immAll } else none
  | 0x0D => if fn ≤ 3 then some { d := p, a := p, b := p } else if fn ≤ 5 then some { d := p, a := p }
            else if fn ≤ 8 then some { d := p } else none
  | 0x0E => if fn = 0 then some { d := x, a := x, b := x, c := p } else none
  | _ => none

/-- The fields of a word of the AP majors (R72, R144, R154). -/
def shapeAp (op fn : Nat) : Option Shape :=
  let a : FieldUse := .reg [.a]
  match op with
  | 0x20 => if fn ≤ 6 then some { d := a, a := a, mask := immAll } else none
  | 0x21 => if fn ≤ 3 then some { a := a, b := a, mask := immAll } else none
  | 0x22 => if fn = 0 then some { d := .reg [.q], a := a, mask := immAll } else none
  | 0x23 => if fn = 0 then some { a := a, b := .reg [.w], mask := immAll } else none
  | 0x24 => if fn = 0 then some { a := a, mask := immAll } else none
  | 0x25 => if fn / 8 = 9 then some { d := a, a := a, b := a, c := a, mask := immAll }
            else if fn / 8 < 9 then some { d := a, a := a, b := a, mask := immAll } else none
  | 0x26 => if fn ≤ 2 then some { mask := 0xF00000000 } else none
  | 0x27 => if fn = 0 then some {} else none
  | 0x28 => if fn = 0 then some {} else none
  | 0x29 => if fn = 0 then some { d := .reg [.q], a := a } else none
  | 0x2A => if fn = 0 then some { guard := false } else none
  | 0x2B => if fn = 0 then some { a := a, mask := 7 } else if fn = 1 then some { d := a, mask := 7 } else none
  | _ => none

/-- The fields of an MX word (R73, R236, R237). -/
def shapeMx (op fn : Nat) : Option Shape :=
  let z : FieldUse := .reg [.z]
  let ft : FieldUse := .reg [.ft]
  match op with
  | 0x40 => if fn = 0 then some { d := z, mask := 0x1FFFF } else none
  | 0x41 => if fn ≤ 3 then some { d := z, b := ft, mask := immAll - 1 } else none
  | 0x42 => if fn = 0 then some { mask := immAll } else none
  | 0x43 => if fn = 0 then some { d := z, mask := immAll - 0xFF } else none
  | 0x44 => if fn = 0 then some { d := z, b := ft, c := .reg [.v], mask := immAll - 1 } else none
  | 0x45 => if fn = 0 then some { d := ft, a := .reg [.s] } else none
  | 0x46 => if fn = 0 then some {} else none
  | 0x47 => if fn = 0 then some { d := z, mask := 0x7F } else none
  | 0x48 => if fn = 0 then some { d := .reg [.rb], a := z, b := ft, mask := 0x6F8 } else none
  | _ => none

/-- The fields of a vector word (R74, R257). -/
def shapeVec (op fn : Nat) : Option Shape :=
  let vw : FieldUse := .reg [.v, .w]
  let vq : FieldUse := .reg [.v, .q]
  let vqs : FieldUse := .reg [.v, .q, .s]
  let k : FieldUse := .reg [.k]
  let lane : FieldUse := .reg [.cw, .ac]
  match op with
  | 0x50 => if fn ≤ 4 then some { d := vw, a := vq, b := vqs } else none
  | 0x51 => if fn ≤ 2 then some { d := vw, a := vq, b := vqs, c := vqs } else none
  | 0x52 => if fn ≤ 1 then some { d := vw, a := vq } else none
  | 0x53 => if fn / 4 ≤ 12 ∧ fn % 4 ≤ 2 then some { d := vw, a := vq, b := vqs } else none
  | 0x54 => if fn / 4 ≤ 5 then some { d := k, a := vq, b := vqs } else none
  | 0x55 => if fn ≤ 3 then some { d := k, a := k, b := k } else if fn ≤ 5 then some { d := k, a := k } else none
  | 0x56 => if fn = 0 then some { d := vw, a := vq, b := vqs, c := k } else none
  | 0x57 => if fn ≤ 15 then some { d := vw, a := vq, mask := 0xF } else none
  | 0x58 => if fn = 0 then some { d := vw, a := vq, c := .reg [.v], mask := 0x7F }
            else if fn = 1 then some { d := vw, a := vq, mask := 0x7F } else none
  | 0x59 | 0x5A => if fn ≤ 1 then some { d := vw, a := vq, b := .opt [.s], mask := 0x3F0 }
                   else if fn ≤ 6 then some { d := vw, a := vq, mask := 0xF } else none
  | 0x5B => if fn = 0 then some { d := vw, a := .reg [.v, .q, .rb], mask := 3 }
            else if fn = 1 then some { d := vw, mask := 2 ^ 32 - 1 } else none
  | 0x5C => if fn = 0 then some { d := .reg [.v], c := lane, mask := immAll - 0xFF }
            else if fn = 1 then some { a := .reg [.v], c := lane, mask := immAll - 0xFF } else none
  | 0x5D => if fn = 0 then some { d := .reg [.v], c := lane, mask := 3 }
            else if fn = 1 then some { a := .reg [.v], c := lane, mask := 0x1F03 } else none
  | _ => none

/-- The fields of an SF word (R75, R273-R285). `mode` is imm36[1:0] and `act` imm36[23:22]. -/
def shapeSf (op fn mode act : Nat) : Option Shape :=
  let v : FieldUse := .reg [.v]
  let b : FieldUse := .reg [.b]
  match op with
  | 0x90 => if fn ≤ 7 then some { d := .reg [.v, .w], a := .reg [.v, .q, .cw, .ac] } else none
  | 0x91 => if fn = 0 then some { d := v, a := v, b := if act = 2 then .reg [.s] else .no, mask := immAll - 0x3FFFFF } else none
  | 0x92 => if fn = 0 then some { d := .reg [.k], a := v, b := .reg [.v, .k], c := b, mask := 0xFFFFF000F }
            else if fn ≤ 2 then some { d := b }
            else if fn = 3 then some { d := b, mask := 3 } else none
  | 0x93 => if fn = 0 then
              (if mode = 2 then some { c := b, mask := 0xFF03 } else some { d := v, a := v, mask := 0xFF03 }) else none
  | 0x94 => if fn = 0 then some { d := v, a := v, b := .reg [.s], c := v }
            else if fn = 1 then some { d := .reg [.k], a := v, b := .reg [.s] } else none
  | 0x95 => if fn = 0 then some { d := v, a := v, mask := 0xFFF3 } else none
  | 0x96 => if fn = 0 then some { d := v, a := b } else if fn = 1 then some { d := b, a := .reg [.s], mask := 7 } else none
  | _ => none

/-- The fields of a word of the coprocessor form and the system majors (R70, R79, R98-R110, R155). -/
def shapeSys (e : Engine) (op fn sel : Nat) : Option Shape :=
  let x : RClass := scalarClass e
  match op with
  | 0xB0 => (copMask fn).map fun m =>
      { d := .opt [x, .p], a := if copUsesA fn sel then .reg [x] else .no, b := if copUsesB fn sel then .reg [x] else .no
        mask := m + 0xFFFF }
  | 0xB1 => if fn ≤ 3 then some { guard := false } else none
  | 0xB2 => if fn ≤ 1 then some { a := .opt [.s], mask := immAll, guard := false } else none
  | 0xB3 => if fn = 0 then some { mask := immAll, guard := false } else none
  | 0xB4 => if fn = 0 then some { d := .reg [.s], mask := 0x37, guard := false }
            else if fn = 1 then some { a := .reg [.s], mask := 0x37, guard := false } else none
  | 0xB5 => if fn = 0 then some { d := .reg [x], mask := 0xFFF }
            else if fn ≤ 3 then some { d := .opt [x], a := .reg [x], mask := 0xFFF } else none
  | 0xB6 => if fn = 0 then some { guard := false } else none
  | _ => none

/-- The fields that a word's major and fn use in the stream of engine `e`; none where fn is not assigned. -/
def shapeOf (e : Engine) (x : Fields) : Option Shape :=
  let op := x.op.toNat
  let fn := x.fn.toNat
  if op < 0x20 then shapeScalar e op fn
  else if op < 0x40 then shapeAp op fn
  else if op < 0x50 then shapeMx op fn
  else if op < 0x90 then shapeVec op fn
  else if op < 0xB0 then shapeSf op fn (immBits x.f 0 2) (immBits x.f 22 2)
  else shapeSys e op fn (immBits x.f 16 2)

/-- The least of two detail codes, where 0 means none. -/
def minDetail (a b : Nat) : Nat := if a = 0 then b else if b = 0 then a else min a b

/-- A detail code when the condition holds. -/
def detailIf (p : Bool) (d : Nat) : Nat := if p then d else 0

/-- Is the scope code one of 2-10 (R144)? -/
def badScope (f : Fld) : Bool := decide (immBits f 32 4 < 2) || decide (10 < immBits f 32 4)

/-- Is the pair of types, with PL, not supported by a copy (R166)? -/
def badCopyPair (st dt pl : Nat) (isIn : Bool) : Bool :=
  let ash (t : Nat) : Bool := decide (10 ≤ t) && decide (t ≤ 13)
  let int (t : Nat) : Bool := decide (6 ≤ t) && decide (t ≤ 9)
  decide (13 < st) || decide (13 < dt) || (ash st && int dt) || (int st && ash dt)
    || (ash st && ash dt && decide (st ≠ dt))
    || (decide (pl = 1) && !(isIn && ash dt && (decide (st ≤ 5) || decide (st = dt))))

/-- The width of an element that vpack and vunpack move; none for an unsupported type (R264). -/
def packWidth (t : Nat) : Option Nat :=
  match t with
  | 1 | 2 | 7 => some 16
  | 3 | 4 | 5 | 8 => some 8
  | 9 => some 4
  | _ => none

/-- The operand block of R235: STRIDE needs AL, LV needs AL or FL, DM needs FL. -/
def opBlockDetail (f : Fld) : Nat :=
  let al := immBits f 8 1
  let fl := immBits f 7 1
  detailIf ((decide (al = 0) && decide (immBits f 11 11 ≠ 0))
    || (decide (al = 0) && decide (fl = 0) && decide (immBits f 9 2 ≠ 0))
    || (decide (fl = 0) && decide (immBits f 3 4 ≠ 0))) 8

/-- The address block of R268: STRIDE and LV need AL. -/
def addrBlockDetail (f : Fld) : Nat :=
  detailIf (decide (immBits f 8 1 = 0) && decide (immBits f 9 13 ≠ 0)) 8

/-- The loop word's fields (R104). -/
def loopDetail (fn : Nat) (f : Fld) : Nat :=
  let rg := immBits f 33 1
  let cnt := immBits f 8 12
  detailIf ((decide (fn = 0) && decide (immBits f 0 8 ≠ 0))
    || (decide (fn = 1) && decide (immBits f 0 4 = 0))
    || (decide (rg = 0) && decide (immBits f 23 10 = 0))
    || (decide (rg = 1) && (decide (immBits f 20 13 ≠ 0) || decide (cnt ≠ 0) || decide (f.a ≠ 0)))
    || (decide (f.a ≠ 0) && decide (cnt ≠ 0))) 8

/-- The stop of a vector pipe on the lane ring (R47). -/
def pipeStop (e : Engine) : Nat :=
  match e with
  | .va => 6
  | .vb => 9
  | .sf => 12
  | .mx => 0
  | _ => 24

/-- The checks of sub-fields that are particular to an instruction (R66, R72, R155, R166, R235-R237, R257, R264, R274,
R277, R282, R285). -/
def subDetail (e : Engine) (x : Fields) : Nat :=
  let f := x.f
  let fn := x.fn.toNat
  match x.op.toNat with
  | 0x25 => detailIf (badScope f) 7
  | 0x26 => detailIf (badScope f) 7
  | 0x40 => detailIf (decide (immBits f 16 1 = 0) && decide (immBits f 0 16 ≠ 0)) 8
  | 0x41 => opBlockDetail f
  | 0x42 => minDetail (detailIf (decide (immBits f 0 2 = 3)) 7)
      (detailIf (decide (immBits f 5 3 = 0) && decide (immBits f 3 2 ≠ 0)) 8)
  | 0x43 => opBlockDetail f
  | 0x44 => opBlockDetail f
  | 0x47 => detailIf (decide (immBits f 0 7 = 0x40)) 8
  | 0x48 => opBlockDetail f
  | 0x57 => detailIf (decide (9 < fn % 16) || decide (9 < immBits f 0 4)) 7
  | 0x58 =>
    match packWidth (immBits f 0 4) with
    | none => 7
    | some n => detailIf (decide (32 / n ≤ immBits f 4 3)) 8
  | 0x59 => if fn ≤ 1 then detailIf (decide (f.b ≠ 0) && decide (immBits f 4 6 ≠ 0)) 8
            else detailIf (decide (immBits f 0 4 ≠ 0) && decide (immBits f 0 4 ≠ 6)) 7
  | 0x5A => if fn ≤ 1 then detailIf ((decide (f.b ≠ 0) && decide (immBits f 4 6 ≠ 0)) || decide (15 < immBits f 4 6)) 8
            else detailIf (decide (immBits f 0 4 ≠ 0) && decide (immBits f 0 4 ≠ 6)) 7
  | 0x5B => detailIf (decide (fn = 0) && decide (f.a ≠ 0x76) && decide (immBits f 0 2 ≠ 0)) 8
  | 0x5C => addrBlockDetail f
  | 0x5D =>
    let stop := immBits f 8 5
    detailIf (decide (fn = 1) &&
      ((decide (stop ≠ 6) && decide (stop ≠ 9) && decide (stop ≠ 12)) || decide (stop = pipeStop e))) 8
  | 0x91 =>
    let p := immBits f 28 8
    let tb := immBits f 27 1
    let slot := immBits f 24 3
    detailIf ((decide (tb = 1) && (decide (p ≠ 0) || decide (slot = 0)))
      || (decide (tb = 0) && decide (slot ≠ 0))
      || (decide (tb = 0) && decide (p ≠ 0x7F) && decide (64 < p) && decide (p < 192))
      || decide (immBits f 22 2 = 3)) 8
  | 0x92 => detailIf (decide (fn = 0) && decide (0x90 < f.c.toNat + immBits f 0 4 + 1) && decide (f.c.toNat < 0x90)) 8
  | 0x93 => detailIf (decide (immBits f 0 2 = 3)) 8
  | 0x95 => detailIf (decide (2 ≤ immBits f 0 2)) 8
  | 0xB0 =>
    let pair (isIn : Bool) : Nat :=
      detailIf (badCopyPair (immBits f 32 4) (immBits f 28 4) (immBits f 24 1) isIn) 7
    match fn with
    | 0x01 => pair true
    | 0x02 => pair false
    | 0x05 => pair false
    | 0x08 => detailIf (decide (immBits f 16 4 = 0)) 8
    | _ => 0
  | 0xB2 => loopDetail fn f
  | _ => 0

/-- Where a word stands, as far as the encoding checks ask: the stream's engine, whether the word is the stream's first
word, and whether the image is a trap handler's or a user-level interrupt handler's. -/
structure Where where
  eng : Engine
  first : Bool
  trap : Bool
  intr : Bool
deriving DecidableEq, Repr

/-- A word of a job's own stream that is not its first. -/
def Where.plain (e : Engine) : Where := { eng := e, first := false, trap := false, intr := false }

/-- Forms that a trap-handler image may not hold (R122). -/
def badInTrap (op : Nat) : Bool := decide (0xB1 ≤ op) && decide (op ≤ 0xB4)

/-- The details that depend on the stream and on the place of the word: 3 for an image or stream that does not accept
the word (R122, R129, R131, R156), 9 for the delay field (R18, R19, R58, R122), 15 for a misplaced rdv.align (R99). -/
def placeDetail (p : Where) (x : Fields) : Nat :=
  let op := x.op.toNat
  let fn := x.fn.toNat
  let opening := p.first && decide (op = 0xB1) && decide (fn = 0)
  let untimed := decide (p.eng = .ap) || p.trap
  minDetail
    (detailIf ((p.trap && badInTrap op) || (p.intr && decide (op = 0xB1)) || (decide (op = 0x2A) && !p.intr)
      || (decide (op = 0xB0) && decide (p.eng = .lead) && !copLead fn)) 3)
    (minDetail
      (detailIf (if untimed then decide (x.f.h.dly ≠ 0) else decide (x.f.h.dly = 0) && !opening) 9)
      (detailIf (decide (op = 0xB1) && decide (fn = 0) && !p.first) 15))

/-- The lowest failed check of R76 for a word; 0 when every check passes. -/
def encodingDetail (p : Where) (x : Fields) : Nat :=
  let op := x.op.toNat
  if 0xF0 ≤ op then 1
  else
    match majorEngines op with
    | none => 2
    | some engines =>
      if !engines.contains p.eng then 3
      else
        match shapeOf p.eng x with
        | none => minDetail (placeDetail p x) 4
        | some sh =>
          let f := x.f
          minDetail (placeDetail p x)
            (minDetail (minDetail (fieldDetail p.eng true sh.d f.d.toNat) (fieldDetail p.eng false sh.a f.a.toNat))
              (minDetail (minDetail (fieldDetail p.eng false sh.b f.b.toNat) (fieldDetail p.eng false sh.c f.c.toNat))
                (minDetail (detailIf (decide (f.imm.toNat &&& (immAll - sh.mask) ≠ 0)) 8)
                  (minDetail (detailIf ((decide (f.h.g = 15) || !sh.guard) && f.h.gs) 8)
                    (minDetail (detailIf (!sh.guard && decide (f.h.g ≠ 15)) 8) (subDetail p.eng x))))))

/-- The fields of the word that an instruction of an engine stands for (R56, R70-R75); none for the other rows. -/
def toFields : Instr → Option Fields
  | .gate f => some ⟨0x00, 0, f⟩
  | .add f => some ⟨0x08, 0, f⟩
  | .sub f => some ⟨0x08, 1, f⟩
  | .mul f => some ⟨0x08, 2, f⟩
  | .mulh f => some ⟨0x08, 3, f⟩
  | .mulhu f => some ⟨0x08, 4, f⟩
  | .and f => some ⟨0x08, 5, f⟩
  | .or f => some ⟨0x08, 6, f⟩
  | .xor f => some ⟨0x08, 7, f⟩
  | .andn f => some ⟨0x08, 8, f⟩
  | .shl f => some ⟨0x08, 9, f⟩
  | .shr f => some ⟨0x08, 10, f⟩
  | .sra f => some ⟨0x08, 11, f⟩
  | .min f => some ⟨0x08, 12, f⟩
  | .max f => some ⟨0x08, 13, f⟩
  | .minu f => some ⟨0x08, 14, f⟩
  | .maxu f => some ⟨0x08, 15, f⟩
  | .clz f => some ⟨0x08, 16, f⟩
  | .ctz f => some ⟨0x08, 17, f⟩
  | .popc f => some ⟨0x08, 18, f⟩
  | .addI f => some ⟨0x09, 0, f⟩
  | .subI f => some ⟨0x09, 1, f⟩
  | .mulI f => some ⟨0x09, 2, f⟩
  | .mulhI f => some ⟨0x09, 3, f⟩
  | .mulhuI f => some ⟨0x09, 4, f⟩
  | .andI f => some ⟨0x09, 5, f⟩
  | .orI f => some ⟨0x09, 6, f⟩
  | .xorI f => some ⟨0x09, 7, f⟩
  | .andnI f => some ⟨0x09, 8, f⟩
  | .shlI f => some ⟨0x09, 9, f⟩
  | .shrI f => some ⟨0x09, 10, f⟩
  | .sraI f => some ⟨0x09, 11, f⟩
  | .minI f => some ⟨0x09, 12, f⟩
  | .maxI f => some ⟨0x09, 13, f⟩
  | .minuI f => some ⟨0x09, 14, f⟩
  | .maxuI f => some ⟨0x09, 15, f⟩
  | .movi f => some ⟨0x0a, 0, f⟩
  | .movhi f => some ⟨0x0a, 1, f⟩
  | .ceq f => some ⟨0x0b, 0, f⟩
  | .cne f => some ⟨0x0b, 1, f⟩
  | .clt f => some ⟨0x0b, 2, f⟩
  | .cltu f => some ⟨0x0b, 3, f⟩
  | .cle f => some ⟨0x0b, 4, f⟩
  | .cleu f => some ⟨0x0b, 5, f⟩
  | .ceqI f => some ⟨0x0c, 0, f⟩
  | .cneI f => some ⟨0x0c, 1, f⟩
  | .cltI f => some ⟨0x0c, 2, f⟩
  | .cltuI f => some ⟨0x0c, 3, f⟩
  | .cleI f => some ⟨0x0c, 4, f⟩
  | .cleuI f => some ⟨0x0c, 5, f⟩
  | .pand f => some ⟨0x0d, 0, f⟩
  | .por f => some ⟨0x0d, 1, f⟩
  | .pxor f => some ⟨0x0d, 2, f⟩
  | .pandn f => some ⟨0x0d, 3, f⟩
  | .pnot f => some ⟨0x0d, 4, f⟩
  | .pmov f => some ⟨0x0d, 5, f⟩
  | .pset f => some ⟨0x0d, 6, f⟩
  | .pclr f => some ⟨0x0d, 7, f⟩
  | .pvoid f => some ⟨0x0d, 8, f⟩
  | .sel f => some ⟨0x0e, 0, f⟩
  | .ldB f => some ⟨0x20, 0, f⟩
  | .ldH f => some ⟨0x20, 1, f⟩
  | .ldW f => some ⟨0x20, 2, f⟩
  | .ldD f => some ⟨0x20, 3, f⟩
  | .ldBs f => some ⟨0x20, 4, f⟩
  | .ldHs f => some ⟨0x20, 5, f⟩
  | .ldWs f => some ⟨0x20, 6, f⟩
  | .stB f => some ⟨0x21, 0, f⟩
  | .stH f => some ⟨0x21, 1, f⟩
  | .stW f => some ⟨0x21, 2, f⟩
  | .stD f => some ⟨0x21, 3, f⟩
  | .qld f => some ⟨0x22, 0, f⟩
  | .qst f => some ⟨0x23, 0, f⟩
  | .pref f => some ⟨0x24, 0, f⟩
  | .fence f => some ⟨0x26, 0, f⟩
  | .fenceAcq f => some ⟨0x26, 1, f⟩
  | .fenceRel f => some ⟨0x26, 2, f⟩
  | .afence f => some ⟨0x27, 0, f⟩
  | .mark f => some ⟨0x28, 0, f⟩
  | .tok f => some ⟨0x29, 0, f⟩
  | .uret f => some ⟨0x2a, 0, f⟩
  | .gset f => some ⟨0x2b, 0, f⟩
  | .gget f => some ⟨0x2b, 1, f⟩
  | .mclr f => some ⟨0x40, 0, f⟩
  | .mstep f => some ⟨0x41, 0, f⟩
  | .mstepN24 f => some ⟨0x41, 1, f⟩
  | .mstepN48 f => some ⟨0x41, 2, f⟩
  | .mstepN14 f => some ⟨0x41, 3, f⟩
  | .mbsrc f => some ⟨0x42, 0, f⟩
  | .mload f => some ⟨0x43, 0, f⟩
  | .mgath f => some ⟨0x44, 0, f⟩
  | .mfmt f => some ⟨0x45, 0, f⟩
  | .mswap f => some ⟨0x46, 0, f⟩
  | .mscale f => some ⟨0x47, 0, f⟩
  | .mdrain f => some ⟨0x48, 0, f⟩
  | .vaddF32 f => some ⟨0x50, 0, f⟩
  | .vsubF32 f => some ⟨0x50, 1, f⟩
  | .vmulF32 f => some ⟨0x50, 2, f⟩
  | .vminF32 f => some ⟨0x50, 3, f⟩
  | .vmaxF32 f => some ⟨0x50, 4, f⟩
  | .vfmaF32 f => some ⟨0x51, 0, f⟩
  | .vfmsF32 f => some ⟨0x51, 1, f⟩
  | .vfnmaF32 f => some ⟨0x51, 2, f⟩
  | .vabsF32 f => some ⟨0x52, 0, f⟩
  | .vnegF32 f => some ⟨0x52, 1, f⟩
  | .kand f => some ⟨0x55, 0, f⟩
  | .kor f => some ⟨0x55, 1, f⟩
  | .kxor f => some ⟨0x55, 2, f⟩
  | .kandn f => some ⟨0x55, 3, f⟩
  | .knot f => some ⟨0x55, 4, f⟩
  | .kmov f => some ⟨0x55, 5, f⟩
  | .vsel f => some ⟨0x56, 0, f⟩
  | .vpack f => some ⟨0x58, 0, f⟩
  | .vunpack f => some ⟨0x58, 1, f⟩
  | .vrotR f => some ⟨0x59, 0, f⟩
  | .vbcR f => some ⟨0x59, 1, f⟩
  | .vraddR f => some ⟨0x59, 2, f⟩
  | .vrmaxR f => some ⟨0x59, 3, f⟩
  | .vrminR f => some ⟨0x59, 4, f⟩
  | .vrmaxiR f => some ⟨0x59, 5, f⟩
  | .vrminiR f => some ⟨0x59, 6, f⟩
  | .vrotC f => some ⟨0x5a, 0, f⟩
  | .vbcC f => some ⟨0x5a, 1, f⟩
  | .vraddC f => some ⟨0x5a, 2, f⟩
  | .vrmaxC f => some ⟨0x5a, 3, f⟩
  | .vrminC f => some ⟨0x5a, 4, f⟩
  | .vrmaxiC f => some ⟨0x5a, 5, f⟩
  | .vrminiC f => some ⟨0x5a, 6, f⟩
  | .vmov f => some ⟨0x5b, 0, f⟩
  | .vmovi f => some ⟨0x5b, 1, f⟩
  | .vld f => some ⟨0x5c, 0, f⟩
  | .vst f => some ⟨0x5c, 1, f⟩
  | .vtapr f => some ⟨0x5d, 0, f⟩
  | .vtapw f => some ⟨0x5d, 1, f⟩
  | .sfExp2 f => some ⟨0x90, 0, f⟩
  | .sfLog2 f => some ⟨0x90, 1, f⟩
  | .sfRcp f => some ⟨0x90, 2, f⟩
  | .sfRsqrt f => some ⟨0x90, 3, f⟩
  | .sfSqrt f => some ⟨0x90, 4, f⟩
  | .sfSin f => some ⟨0x90, 5, f⟩
  | .sfCos f => some ⟨0x90, 6, f⟩
  | .sfTanh f => some ⟨0x90, 7, f⟩
  | .sfTmx f => some ⟨0x91, 0, f⟩
  | .sfRoute f => some ⟨0x92, 0, f⟩
  | .sfBopen f => some ⟨0x92, 1, f⟩
  | .sfBclose f => some ⟨0x92, 2, f⟩
  | .sfBdrain f => some ⟨0x92, 3, f⟩
  | .sfShort f => some ⟨0x94, 0, f⟩
  | .sfMass f => some ⟨0x94, 1, f⟩
  | .sfBget f => some ⟨0x96, 0, f⟩
  | .sfBset f => some ⟨0x96, 1, f⟩
  | .rdvAlign f => some ⟨0xb1, 0, f⟩
  | .rdv f => some ⟨0xb1, 1, f⟩
  | .rdvFlip f => some ⟨0xb1, 2, f⟩
  | .rdvEnd f => some ⟨0xb1, 3, f⟩
  | .loop f => some ⟨0xb2, 0, f⟩
  | .loopSt f => some ⟨0xb2, 1, f⟩
  | .idle f => some ⟨0xb3, 0, f⟩
  | .lpr f => some ⟨0xb4, 0, f⟩
  | .lpw f => some ⟨0xb4, 1, f⟩
  | .csrr f => some ⟨0xb5, 0, f⟩
  | .csrw f => some ⟨0xb5, 1, f⟩
  | .csrs f => some ⟨0xb5, 2, f⟩
  | .csrc f => some ⟨0xb5, 3, f⟩
  | .tret f => some ⟨0xb6, 0, f⟩
  | .amoAdd w o f => some ⟨0x25, amoFn 0 w o, f⟩
  | .amoMin w o f => some ⟨0x25, amoFn 1 w o, f⟩
  | .amoMax w o f => some ⟨0x25, amoFn 2 w o, f⟩
  | .amoMinu w o f => some ⟨0x25, amoFn 3 w o, f⟩
  | .amoMaxu w o f => some ⟨0x25, amoFn 4 w o, f⟩
  | .amoAnd w o f => some ⟨0x25, amoFn 5 w o, f⟩
  | .amoOr w o f => some ⟨0x25, amoFn 6 w o, f⟩
  | .amoXor w o f => some ⟨0x25, amoFn 7 w o, f⟩
  | .amoSwap w o f => some ⟨0x25, amoFn 8 w o, f⟩
  | .amoCas w o f => some ⟨0x25, amoFn 9 w o, f⟩
  | .vaddI t f => some ⟨0x53, 0#5 ++ t, f⟩
  | .vsubI t f => some ⟨0x53, 1#5 ++ t, f⟩
  | .vmulI t f => some ⟨0x53, 2#5 ++ t, f⟩
  | .vminI t f => some ⟨0x53, 3#5 ++ t, f⟩
  | .vmaxI t f => some ⟨0x53, 4#5 ++ t, f⟩
  | .vand t f => some ⟨0x53, 5#5 ++ t, f⟩
  | .vor t f => some ⟨0x53, 6#5 ++ t, f⟩
  | .vxor t f => some ⟨0x53, 7#5 ++ t, f⟩
  | .vshl t f => some ⟨0x53, 8#5 ++ t, f⟩
  | .vshr t f => some ⟨0x53, 9#5 ++ t, f⟩
  | .vsra t f => some ⟨0x53, 10#5 ++ t, f⟩
  | .vadds t f => some ⟨0x53, 11#5 ++ t, f⟩
  | .vsubs t f => some ⟨0x53, 12#5 ++ t, f⟩
  | .vcmp cond t f => some ⟨0x54, cond ++ t, f⟩
  | .vcvt dst f => some ⟨0x57, 0#3 ++ dst, f⟩
  | .sfHist f => some ⟨0x93, 0, f⟩
  | .sfHistZ f => some ⟨0x93, 0, f⟩
  | .sfHistLatch f => some ⟨0x93, 0, f⟩
  | .sfRng f => some ⟨0x95, 0, f⟩
  | .sfRngU f => some ⟨0x95, 0, f⟩
  | .scrubLedge f => some ⟨0xB0, 0x41, f⟩
  | .scrubMem f => some ⟨0xB0, 0x41, f⟩
  | .scrubL2 f => some ⟨0xB0, 0x41, f⟩
  | .scrubJoin f => some ⟨0xB0, 0x41, f⟩
  | .cop fn f => some ⟨0xB0, fn, f⟩
  | _ => none

/-- The words of major 0x08 by fn (R70-R75). -/
def of08 (fn : Nat) (f : Fld) : Option Instr :=
  match fn with
  | 0 => some (.add f)
  | 1 => some (.sub f)
  | 2 => some (.mul f)
  | 3 => some (.mulh f)
  | 4 => some (.mulhu f)
  | 5 => some (.and f)
  | 6 => some (.or f)
  | 7 => some (.xor f)
  | 8 => some (.andn f)
  | 9 => some (.shl f)
  | 10 => some (.shr f)
  | 11 => some (.sra f)
  | 12 => some (.min f)
  | 13 => some (.max f)
  | 14 => some (.minu f)
  | 15 => some (.maxu f)
  | 16 => some (.clz f)
  | 17 => some (.ctz f)
  | 18 => some (.popc f)
  | _ => none

/-- The words of major 0x09 by fn (R70-R75). -/
def of09 (fn : Nat) (f : Fld) : Option Instr :=
  match fn with
  | 0 => some (.addI f)
  | 1 => some (.subI f)
  | 2 => some (.mulI f)
  | 3 => some (.mulhI f)
  | 4 => some (.mulhuI f)
  | 5 => some (.andI f)
  | 6 => some (.orI f)
  | 7 => some (.xorI f)
  | 8 => some (.andnI f)
  | 9 => some (.shlI f)
  | 10 => some (.shrI f)
  | 11 => some (.sraI f)
  | 12 => some (.minI f)
  | 13 => some (.maxI f)
  | 14 => some (.minuI f)
  | 15 => some (.maxuI f)
  | _ => none

/-- The words of major 0x0a by fn (R70-R75). -/
def of0A (fn : Nat) (f : Fld) : Option Instr :=
  match fn with
  | 0 => some (.movi f)
  | 1 => some (.movhi f)
  | _ => none

/-- The words of major 0x0b by fn (R70-R75). -/
def of0B (fn : Nat) (f : Fld) : Option Instr :=
  match fn with
  | 0 => some (.ceq f)
  | 1 => some (.cne f)
  | 2 => some (.clt f)
  | 3 => some (.cltu f)
  | 4 => some (.cle f)
  | 5 => some (.cleu f)
  | _ => none

/-- The words of major 0x0c by fn (R70-R75). -/
def of0C (fn : Nat) (f : Fld) : Option Instr :=
  match fn with
  | 0 => some (.ceqI f)
  | 1 => some (.cneI f)
  | 2 => some (.cltI f)
  | 3 => some (.cltuI f)
  | 4 => some (.cleI f)
  | 5 => some (.cleuI f)
  | _ => none

/-- The words of major 0x0d by fn (R70-R75). -/
def of0D (fn : Nat) (f : Fld) : Option Instr :=
  match fn with
  | 0 => some (.pand f)
  | 1 => some (.por f)
  | 2 => some (.pxor f)
  | 3 => some (.pandn f)
  | 4 => some (.pnot f)
  | 5 => some (.pmov f)
  | 6 => some (.pset f)
  | 7 => some (.pclr f)
  | 8 => some (.pvoid f)
  | _ => none

/-- The words of major 0x20 by fn (R70-R75). -/
def of20 (fn : Nat) (f : Fld) : Option Instr :=
  match fn with
  | 0 => some (.ldB f)
  | 1 => some (.ldH f)
  | 2 => some (.ldW f)
  | 3 => some (.ldD f)
  | 4 => some (.ldBs f)
  | 5 => some (.ldHs f)
  | 6 => some (.ldWs f)
  | _ => none

/-- The words of major 0x21 by fn (R70-R75). -/
def of21 (fn : Nat) (f : Fld) : Option Instr :=
  match fn with
  | 0 => some (.stB f)
  | 1 => some (.stH f)
  | 2 => some (.stW f)
  | 3 => some (.stD f)
  | _ => none

/-- The words of major 0x26 by fn (R70-R75). -/
def of26 (fn : Nat) (f : Fld) : Option Instr :=
  match fn with
  | 0 => some (.fence f)
  | 1 => some (.fenceAcq f)
  | 2 => some (.fenceRel f)
  | _ => none

/-- The words of major 0x2b by fn (R70-R75). -/
def of2B (fn : Nat) (f : Fld) : Option Instr :=
  match fn with
  | 0 => some (.gset f)
  | 1 => some (.gget f)
  | _ => none

/-- The words of major 0x41 by fn (R70-R75). -/
def of41 (fn : Nat) (f : Fld) : Option Instr :=
  match fn with
  | 0 => some (.mstep f)
  | 1 => some (.mstepN24 f)
  | 2 => some (.mstepN48 f)
  | 3 => some (.mstepN14 f)
  | _ => none

/-- The words of major 0x50 by fn (R70-R75). -/
def of50 (fn : Nat) (f : Fld) : Option Instr :=
  match fn with
  | 0 => some (.vaddF32 f)
  | 1 => some (.vsubF32 f)
  | 2 => some (.vmulF32 f)
  | 3 => some (.vminF32 f)
  | 4 => some (.vmaxF32 f)
  | _ => none

/-- The words of major 0x51 by fn (R70-R75). -/
def of51 (fn : Nat) (f : Fld) : Option Instr :=
  match fn with
  | 0 => some (.vfmaF32 f)
  | 1 => some (.vfmsF32 f)
  | 2 => some (.vfnmaF32 f)
  | _ => none

/-- The words of major 0x52 by fn (R70-R75). -/
def of52 (fn : Nat) (f : Fld) : Option Instr :=
  match fn with
  | 0 => some (.vabsF32 f)
  | 1 => some (.vnegF32 f)
  | _ => none

/-- The words of major 0x55 by fn (R70-R75). -/
def of55 (fn : Nat) (f : Fld) : Option Instr :=
  match fn with
  | 0 => some (.kand f)
  | 1 => some (.kor f)
  | 2 => some (.kxor f)
  | 3 => some (.kandn f)
  | 4 => some (.knot f)
  | 5 => some (.kmov f)
  | _ => none

/-- The words of major 0x58 by fn (R70-R75). -/
def of58 (fn : Nat) (f : Fld) : Option Instr :=
  match fn with
  | 0 => some (.vpack f)
  | 1 => some (.vunpack f)
  | _ => none

/-- The words of major 0x59 by fn (R70-R75). -/
def of59 (fn : Nat) (f : Fld) : Option Instr :=
  match fn with
  | 0 => some (.vrotR f)
  | 1 => some (.vbcR f)
  | 2 => some (.vraddR f)
  | 3 => some (.vrmaxR f)
  | 4 => some (.vrminR f)
  | 5 => some (.vrmaxiR f)
  | 6 => some (.vrminiR f)
  | _ => none

/-- The words of major 0x5a by fn (R70-R75). -/
def of5A (fn : Nat) (f : Fld) : Option Instr :=
  match fn with
  | 0 => some (.vrotC f)
  | 1 => some (.vbcC f)
  | 2 => some (.vraddC f)
  | 3 => some (.vrmaxC f)
  | 4 => some (.vrminC f)
  | 5 => some (.vrmaxiC f)
  | 6 => some (.vrminiC f)
  | _ => none

/-- The words of major 0x5b by fn (R70-R75). -/
def of5B (fn : Nat) (f : Fld) : Option Instr :=
  match fn with
  | 0 => some (.vmov f)
  | 1 => some (.vmovi f)
  | _ => none

/-- The words of major 0x5c by fn (R70-R75). -/
def of5C (fn : Nat) (f : Fld) : Option Instr :=
  match fn with
  | 0 => some (.vld f)
  | 1 => some (.vst f)
  | _ => none

/-- The words of major 0x5d by fn (R70-R75). -/
def of5D (fn : Nat) (f : Fld) : Option Instr :=
  match fn with
  | 0 => some (.vtapr f)
  | 1 => some (.vtapw f)
  | _ => none

/-- The words of major 0x90 by fn (R70-R75). -/
def of90 (fn : Nat) (f : Fld) : Option Instr :=
  match fn with
  | 0 => some (.sfExp2 f)
  | 1 => some (.sfLog2 f)
  | 2 => some (.sfRcp f)
  | 3 => some (.sfRsqrt f)
  | 4 => some (.sfSqrt f)
  | 5 => some (.sfSin f)
  | 6 => some (.sfCos f)
  | 7 => some (.sfTanh f)
  | _ => none

/-- The words of major 0x92 by fn (R70-R75). -/
def of92 (fn : Nat) (f : Fld) : Option Instr :=
  match fn with
  | 0 => some (.sfRoute f)
  | 1 => some (.sfBopen f)
  | 2 => some (.sfBclose f)
  | 3 => some (.sfBdrain f)
  | _ => none

/-- The words of major 0x94 by fn (R70-R75). -/
def of94 (fn : Nat) (f : Fld) : Option Instr :=
  match fn with
  | 0 => some (.sfShort f)
  | 1 => some (.sfMass f)
  | _ => none

/-- The words of major 0x96 by fn (R70-R75). -/
def of96 (fn : Nat) (f : Fld) : Option Instr :=
  match fn with
  | 0 => some (.sfBget f)
  | 1 => some (.sfBset f)
  | _ => none

/-- The words of major 0xb1 by fn (R70-R75). -/
def ofB1 (fn : Nat) (f : Fld) : Option Instr :=
  match fn with
  | 0 => some (.rdvAlign f)
  | 1 => some (.rdv f)
  | 2 => some (.rdvFlip f)
  | 3 => some (.rdvEnd f)
  | _ => none

/-- The words of major 0xb2 by fn (R70-R75). -/
def ofB2 (fn : Nat) (f : Fld) : Option Instr :=
  match fn with
  | 0 => some (.loop f)
  | 1 => some (.loopSt f)
  | _ => none

/-- The words of major 0xb4 by fn (R70-R75). -/
def ofB4 (fn : Nat) (f : Fld) : Option Instr :=
  match fn with
  | 0 => some (.lpr f)
  | 1 => some (.lpw f)
  | _ => none

/-- The words of major 0xb5 by fn (R70-R75). -/
def ofB5 (fn : Nat) (f : Fld) : Option Instr :=
  match fn with
  | 0 => some (.csrr f)
  | 1 => some (.csrw f)
  | 2 => some (.csrs f)
  | 3 => some (.csrc f)
  | _ => none

/-- The atomics of major 0x25 by operation (R72). -/
def of25 (fn : BitVec 7) (f : Fld) : Option Instr :=
  let w := fn.getLsbD 2
  let o : BitVec 2 := fn.extractLsb' 0 2
  match (fn.extractLsb' 3 4).toNat with
  | 0 => some (.amoAdd w o f)
  | 1 => some (.amoMin w o f)
  | 2 => some (.amoMax w o f)
  | 3 => some (.amoMinu w o f)
  | 4 => some (.amoMaxu w o f)
  | 5 => some (.amoAnd w o f)
  | 6 => some (.amoOr w o f)
  | 7 => some (.amoXor w o f)
  | 8 => some (.amoSwap w o f)
  | 9 => some (.amoCas w o f)
  | _ => none

/-- The integer operations of major 0x53 (R74). -/
def of53 (fn : BitVec 7) (f : Fld) : Option Instr :=
  let t : BitVec 2 := fn.extractLsb' 0 2
  match (fn.extractLsb' 2 5).toNat with
  | 0 => some (.vaddI t f)
  | 1 => some (.vsubI t f)
  | 2 => some (.vmulI t f)
  | 3 => some (.vminI t f)
  | 4 => some (.vmaxI t f)
  | 5 => some (.vand t f)
  | 6 => some (.vor t f)
  | 7 => some (.vxor t f)
  | 8 => some (.vshl t f)
  | 9 => some (.vshr t f)
  | 10 => some (.vsra t f)
  | 11 => some (.vadds t f)
  | 12 => some (.vsubs t f)
  | _ => none

/-- The histogram words of major 0x93 by MODE, imm36[1:0] (R282). -/
def of93 (f : Fld) : Option Instr :=
  match (f.imm.extractLsb' 0 2).toNat with
  | 0 => some (.sfHist f)
  | 1 => some (.sfHistZ f)
  | 2 => some (.sfHistLatch f)
  | _ => none

/-- The random-number words of major 0x95 by MODE, imm36[1:0] (R285). -/
def of95 (f : Fld) : Option Instr :=
  match (f.imm.extractLsb' 0 2).toNat with
  | 0 => some (.sfRng f)
  | 1 => some (.sfRngU f)
  | _ => none

/-- The scrub words by kind, imm36[17:16] (R391). -/
def ofScrub (f : Fld) : Instr :=
  match (f.imm.extractLsb' 16 2).toNat with
  | 0 => .scrubLedge f
  | 1 => .scrubMem f
  | 2 => .scrubL2 f
  | _ => .scrubJoin f

/-- The instruction that a word's fields name (R70-R75); none where the major or fn is not assigned. -/
def ofFields (x : Fields) : Option Instr :=
  let f := x.f
  let n := x.fn.toNat
  match x.op.toNat with
  | 0x00 => if n = 0 then some (.gate f) else none
  | 0x08 => of08 n f
  | 0x09 => of09 n f
  | 0x0a => of0A n f
  | 0x0b => of0B n f
  | 0x0c => of0C n f
  | 0x0d => of0D n f
  | 0x0e => if n = 0 then some (.sel f) else none
  | 0x20 => of20 n f
  | 0x21 => of21 n f
  | 0x22 => if n = 0 then some (.qld f) else none
  | 0x23 => if n = 0 then some (.qst f) else none
  | 0x24 => if n = 0 then some (.pref f) else none
  | 0x25 => of25 x.fn f
  | 0x26 => of26 n f
  | 0x27 => if n = 0 then some (.afence f) else none
  | 0x28 => if n = 0 then some (.mark f) else none
  | 0x29 => if n = 0 then some (.tok f) else none
  | 0x2a => if n = 0 then some (.uret f) else none
  | 0x2b => of2B n f
  | 0x40 => if n = 0 then some (.mclr f) else none
  | 0x41 => of41 n f
  | 0x42 => if n = 0 then some (.mbsrc f) else none
  | 0x43 => if n = 0 then some (.mload f) else none
  | 0x44 => if n = 0 then some (.mgath f) else none
  | 0x45 => if n = 0 then some (.mfmt f) else none
  | 0x46 => if n = 0 then some (.mswap f) else none
  | 0x47 => if n = 0 then some (.mscale f) else none
  | 0x48 => if n = 0 then some (.mdrain f) else none
  | 0x50 => of50 n f
  | 0x51 => of51 n f
  | 0x52 => of52 n f
  | 0x53 => of53 x.fn f
  | 0x54 => some (.vcmp (x.fn.extractLsb' 2 5) (x.fn.extractLsb' 0 2) f)
  | 0x55 => of55 n f
  | 0x56 => if n = 0 then some (.vsel f) else none
  | 0x57 => if n < 16 then some (.vcvt (x.fn.extractLsb' 0 4) f) else none
  | 0x58 => of58 n f
  | 0x59 => of59 n f
  | 0x5a => of5A n f
  | 0x5b => of5B n f
  | 0x5c => of5C n f
  | 0x5d => of5D n f
  | 0x90 => of90 n f
  | 0x91 => if n = 0 then some (.sfTmx f) else none
  | 0x92 => of92 n f
  | 0x93 => if n = 0 then of93 f else none
  | 0x94 => of94 n f
  | 0x95 => if n = 0 then of95 f else none
  | 0x96 => of96 n f
  | 0xb0 => if n = 0x41 then some (ofScrub f) else some (.cop x.fn f)
  | 0xb1 => ofB1 n f
  | 0xb2 => ofB2 n f
  | 0xb3 => if n = 0 then some (.idle f) else none
  | 0xb4 => ofB4 n f
  | 0xb5 => ofB5 n f
  | 0xb6 => if n = 0 then some (.tret f) else none
  | _ => none
/-- The instruction of a 96-bit word in a stream, or the failed check (R76). -/
def decodeWord (p : Where) (w : BitVec 96) : Except Reject Instr :=
  let x := unpackWord w
  match encodingDetail p x with
  | 0 =>
    match ofFields x with
    | some i => .ok i
    | none => .error .badFn
  | n => .error (rejectOf n)

/-! ### Pitch headers -/

/-- A pitch header (R67): the wait fields in the order of the other five engines. -/
structure Header where
  wc : BitVec 10
  pn : BitVec 10
  w : List (BitVec 8)
deriving DecidableEq, Repr

/-- Does the unit begin a header (R53)? -/
def isHeader (u : W32) : Bool := decide (u.extractLsb' 28 4 = 0xF)

/-- The header of 64 bits (R67). -/
def unpackHeader (x : BitVec 64) : Header :=
  { wc := x.extractLsb' 50 10, pn := x.extractLsb' 40 10
    w := [x.extractLsb' 32 8, x.extractLsb' 24 8, x.extractLsb' 16 8, x.extractLsb' 8 8, x.extractLsb' 0 8] }

/-- The five other engines in code order (R67). -/
def otherEngines (e : Engine) : List Engine := Engine.all.filter fun x => decide (x ≠ e)

/-- The waits of a header with their valid bits set: engine and REQ (R67). -/
def headerWaits (e : Engine) (h : Header) : List (Engine × BitVec 7) :=
  ((otherEngines e).zip h.w).filterMap fun (x, b) => if b.getLsbD 7 then some (x, b.extractLsb' 0 7) else none

/-- The failed check of a header after pitch number `prev` (R30, R68); 0 when it passes. -/
def headerDetail (prev : BitVec 10) (h : Header) : Nat :=
  minDetail (detailIf (decide (h.pn ≠ prev + 1)) 11)
    (detailIf (decide (h.wc = 0) || h.w.any fun b => !b.getLsbD 7 && decide (b ≠ 0)) 12)

/-! ### Cairn words (R378) -/

/-- A cairn word cut into its fields. -/
structure CairnFld where
  op : BitVec 6
  i : Bool
  d : BitVec 4
  a : BitVec 4
  b : BitVec 4
  m : BitVec 2
  imm : BitVec 11
deriving DecidableEq, Repr

def packCairn (x : CairnFld) : W32 := x.op ++ BitVec.ofBool x.i ++ x.d ++ x.a ++ x.b ++ x.m ++ x.imm

def unpackCairn (w : W32) : CairnFld :=
  { op := w.extractLsb' 26 6, i := w.getLsbD 25, d := w.extractLsb' 21 4, a := w.extractLsb' 17 4
    b := w.extractLsb' 13 4, m := w.extractLsb' 11 2, imm := w.extractLsb' 0 11 }

/-- The fields of a cairn instruction's word (R378); none for the other rows. -/
def toCairn : Instr → Option CairnFld
  | .cAdd d a b m => some ⟨0x00, false, d, a, b, m, 0⟩
  | .cAddI d a m imm => some ⟨0x00, true, d, a, 0, m, imm⟩
  | .cSub d a b m => some ⟨0x01, false, d, a, b, m, 0⟩
  | .cSubI d a m imm => some ⟨0x01, true, d, a, 0, m, imm⟩
  | .cMul d a b m => some ⟨0x02, false, d, a, b, m, 0⟩
  | .cMulI d a m imm => some ⟨0x02, true, d, a, 0, m, imm⟩
  | .cAnd d a b m => some ⟨0x03, false, d, a, b, m, 0⟩
  | .cAndI d a m imm => some ⟨0x03, true, d, a, 0, m, imm⟩
  | .cOr d a b m => some ⟨0x04, false, d, a, b, m, 0⟩
  | .cOrI d a m imm => some ⟨0x04, true, d, a, 0, m, imm⟩
  | .cXor d a b m => some ⟨0x05, false, d, a, b, m, 0⟩
  | .cXorI d a m imm => some ⟨0x05, true, d, a, 0, m, imm⟩
  | .cShl d a b m => some ⟨0x06, false, d, a, b, m, 0⟩
  | .cShlI d a m imm => some ⟨0x06, true, d, a, 0, m, imm⟩
  | .cShr d a b m => some ⟨0x07, false, d, a, b, m, 0⟩
  | .cShrI d a m imm => some ⟨0x07, true, d, a, 0, m, imm⟩
  | .cSra d a b m => some ⟨0x08, false, d, a, b, m, 0⟩
  | .cSraI d a m imm => some ⟨0x08, true, d, a, 0, m, imm⟩
  | .cMin d a b m => some ⟨0x09, false, d, a, b, m, 0⟩
  | .cMinI d a m imm => some ⟨0x09, true, d, a, 0, m, imm⟩
  | .cMax d a b m => some ⟨0x0a, false, d, a, b, m, 0⟩
  | .cMaxI d a m imm => some ⟨0x0a, true, d, a, 0, m, imm⟩
  | .cMinu d a b m => some ⟨0x0b, false, d, a, b, m, 0⟩
  | .cMinuI d a m imm => some ⟨0x0b, true, d, a, 0, m, imm⟩
  | .cMaxu d a b m => some ⟨0x0c, false, d, a, b, m, 0⟩
  | .cMaxuI d a m imm => some ⟨0x0c, true, d, a, 0, m, imm⟩
  | .cFadd d a b m => some ⟨0x0d, false, d, a, b, m, 0⟩
  | .cFsub d a b m => some ⟨0x0e, false, d, a, b, m, 0⟩
  | .cFmul d a b m => some ⟨0x0f, false, d, a, b, m, 0⟩
  | .cFmin d a b m => some ⟨0x10, false, d, a, b, m, 0⟩
  | .cFmax d a b m => some ⟨0x11, false, d, a, b, m, 0⟩
  | .cCmpEq d a b m => some ⟨0x12, false, 0#2 ++ d, a, b, m, 0⟩
  | .cCmpEqI d a m imm => some ⟨0x12, true, 0#2 ++ d, a, 0, m, imm⟩
  | .cCmpNe d a b m => some ⟨0x13, false, 0#2 ++ d, a, b, m, 0⟩
  | .cCmpNeI d a m imm => some ⟨0x13, true, 0#2 ++ d, a, 0, m, imm⟩
  | .cCmpLt d a b m => some ⟨0x14, false, 0#2 ++ d, a, b, m, 0⟩
  | .cCmpLtI d a m imm => some ⟨0x14, true, 0#2 ++ d, a, 0, m, imm⟩
  | .cCmpLe d a b m => some ⟨0x15, false, 0#2 ++ d, a, b, m, 0⟩
  | .cCmpLeI d a m imm => some ⟨0x15, true, 0#2 ++ d, a, 0, m, imm⟩
  | .cCmpLtu d a b m => some ⟨0x16, false, 0#2 ++ d, a, b, m, 0⟩
  | .cCmpLtuI d a m imm => some ⟨0x16, true, 0#2 ++ d, a, 0, m, imm⟩
  | .cCmpLeu d a b m => some ⟨0x17, false, 0#2 ++ d, a, b, m, 0⟩
  | .cCmpLeuI d a m imm => some ⟨0x17, true, 0#2 ++ d, a, 0, m, imm⟩
  | .cCmpFlt d a b m => some ⟨0x18, false, 0#2 ++ d, a, b, m, 0⟩
  | .cCmpFle d a b m => some ⟨0x19, false, 0#2 ++ d, a, b, m, 0⟩
  | .cSel d a b m => some ⟨0x1a, false, d, a, b, m, 0⟩
  | .cMand d a b => some ⟨0x1b, false, 0#2 ++ d, 0#2 ++ a, 0#2 ++ b, 0, 0⟩
  | .cMor d a b => some ⟨0x1b, false, 0#2 ++ d, 0#2 ++ a, 0#2 ++ b, 0, 1⟩
  | .cMxor d a b => some ⟨0x1b, false, 0#2 ++ d, 0#2 ++ a, 0#2 ++ b, 0, 2⟩
  | .cMnot d a => some ⟨0x1b, false, 0#2 ++ d, 0#2 ++ a, 0, 0, 3⟩
  | .cLi d v => some ⟨0x1C, false, d, 0, v.extractLsb' 13 4, v.extractLsb' 11 2, v.extractLsb' 0 11⟩
  | .cLhi d v => some ⟨0x1D, false, d, 0, 0#2 ++ v.extractLsb' 13 2, v.extractLsb' 11 2, v.extractLsb' 0 11⟩
  | .cLidx d => some ⟨0x1e, false, d, 0, 0, 0, 0⟩
  | .cBcast d a n => some ⟨0x1f, false, d, a, 0, 0, 0#7 ++ n⟩
  | .cRot d a n => some ⟨0x20, false, d, a, 0, 0, 0#7 ++ n⟩
  | .cRadd d a m => some ⟨0x21, false, d, a, 0, m, 0⟩
  | .cRmax d a m => some ⟨0x22, false, d, a, 0, m, 0⟩
  | .cFld d m off => some ⟨0x23, false, d, 0, 0, m, 0#5 ++ off⟩
  | .cFst a m off => some ⟨0x24, false, 0, a, 0, m, 0#5 ++ off⟩
  | .cSld d m r x => some ⟨0x25, false, d, 0, 0, m, x ++ r⟩
  | .cSst a m r x => some ⟨0x26, false, 0, a, 0, m, x ++ r⟩
  | .cTmred d a m => some ⟨0x27, false, d, a, 0, m, 0⟩
  | .cTmmrg d a b => some ⟨0x28, false, d, a, b, 0, 0⟩
  | .cTmext d a => some ⟨0x29, false, d, a, 0, 0, 0⟩
  | .cRep n len => some ⟨0x2A, false, 0, n.extractLsb' 4 4, n.extractLsb' 0 4, 0, len⟩
  | .cSkip m k => some ⟨0x2b, false, 0, 0, 0, m, k⟩
  | .cSkipNone m k => some ⟨0x2b, true, 0, 0, 0, m, k⟩
  | .cRidx d lv => some ⟨0x2c, false, d, 0, 0, 0, 0#10 ++ lv⟩
  | .cDrop => some ⟨0x2d, false, 0, 0, 0, 0, 0⟩
  | .cEv a => some ⟨0x2e, false, 0, a, 0, 0, 0⟩
  | _ => none

/-- A two-source cairn instruction by op (R378). -/
noncomputable def cairn3 (op : Nat) (d a b : BitVec 4) (m : BitVec 2) : Option Instr :=
  match op with
  | 0 => some (.cAdd d a b m)
  | 1 => some (.cSub d a b m)
  | 2 => some (.cMul d a b m)
  | 3 => some (.cAnd d a b m)
  | 4 => some (.cOr d a b m)
  | 5 => some (.cXor d a b m)
  | 6 => some (.cShl d a b m)
  | 7 => some (.cShr d a b m)
  | 8 => some (.cSra d a b m)
  | 9 => some (.cMin d a b m)
  | 10 => some (.cMax d a b m)
  | 11 => some (.cMinu d a b m)
  | 12 => some (.cMaxu d a b m)
  | 13 => some (.cFadd d a b m)
  | 14 => some (.cFsub d a b m)
  | 15 => some (.cFmul d a b m)
  | 16 => some (.cFmin d a b m)
  | 17 => some (.cFmax d a b m)
  | _ => none

/-- An immediate form by op (R378). -/
noncomputable def cairnI (op : Nat) (d a : BitVec 4) (m : BitVec 2) (imm : BitVec 11) : Option Instr :=
  match op with
  | 0 => some (.cAddI d a m imm)
  | 1 => some (.cSubI d a m imm)
  | 2 => some (.cMulI d a m imm)
  | 3 => some (.cAndI d a m imm)
  | 4 => some (.cOrI d a m imm)
  | 5 => some (.cXorI d a m imm)
  | 6 => some (.cShlI d a m imm)
  | 7 => some (.cShrI d a m imm)
  | 8 => some (.cSraI d a m imm)
  | 9 => some (.cMinI d a m imm)
  | 10 => some (.cMaxI d a m imm)
  | 11 => some (.cMinuI d a m imm)
  | 12 => some (.cMaxuI d a m imm)
  | _ => none

/-- A compare by op (R378). -/
noncomputable def cairnCmp (op : Nat) (d : BitVec 2) (a b : BitVec 4) (m : BitVec 2) : Option Instr :=
  match op with
  | 18 => some (.cCmpEq d a b m)
  | 19 => some (.cCmpNe d a b m)
  | 20 => some (.cCmpLt d a b m)
  | 21 => some (.cCmpLe d a b m)
  | 22 => some (.cCmpLtu d a b m)
  | 23 => some (.cCmpLeu d a b m)
  | 24 => some (.cCmpFlt d a b m)
  | 25 => some (.cCmpFle d a b m)
  | _ => none

/-- A compare with an immediate by op (R378). -/
noncomputable def cairnCmpI (op : Nat) (d : BitVec 2) (a : BitVec 4) (m : BitVec 2) (imm : BitVec 11) : Option Instr :=
  match op with
  | 18 => some (.cCmpEqI d a m imm)
  | 19 => some (.cCmpNeI d a m imm)
  | 20 => some (.cCmpLtI d a m imm)
  | 21 => some (.cCmpLeI d a m imm)
  | 22 => some (.cCmpLtuI d a m imm)
  | 23 => some (.cCmpLeuI d a m imm)
  | _ => none

/-- The cairn instruction that the fields name, before the check that unused fields are zero. -/
noncomputable def ofCairn (x : CairnFld) : Option Instr :=
  let md : BitVec 2 := x.d.extractLsb' 0 2
  let ma : BitVec 2 := x.a.extractLsb' 0 2
  let mb : BitVec 2 := x.b.extractLsb' 0 2
  let op := x.op.toNat
  if op ≤ 0x0C then (if x.i then cairnI op x.d x.a x.m x.imm else cairn3 op x.d x.a x.b x.m)
  else if op ≤ 0x11 then cairn3 op x.d x.a x.b x.m
  else if op ≤ 0x19 then (if x.i then cairnCmpI op md x.a x.m x.imm else cairnCmp op md x.a x.b x.m)
  else
    match op with
    | 0x1A => some (.cSel x.d x.a x.b x.m)
    | 0x1B =>
      match x.imm.toNat with
      | 0 => some (.cMand md ma mb)
      | 1 => some (.cMor md ma mb)
      | 2 => some (.cMxor md ma mb)
      | 3 => some (.cMnot md ma)
      | _ => none
    | 0x1C => some (.cLi x.d (x.b ++ x.m ++ x.imm))
    | 0x1D => some (.cLhi x.d (x.b.extractLsb' 0 2 ++ x.m ++ x.imm))
    | 0x1E => some (.cLidx x.d)
    | 0x1F => some (.cBcast x.d x.a (x.imm.extractLsb' 0 4))
    | 0x20 => some (.cRot x.d x.a (x.imm.extractLsb' 0 4))
    | 0x21 => some (.cRadd x.d x.a x.m)
    | 0x22 => some (.cRmax x.d x.a x.m)
    | 0x23 => some (.cFld x.d x.m (x.imm.extractLsb' 0 6))
    | 0x24 => some (.cFst x.a x.m (x.imm.extractLsb' 0 6))
    | 0x25 => some (.cSld x.d x.m (x.imm.extractLsb' 0 6) (x.imm.extractLsb' 6 5))
    | 0x26 => some (.cSst x.a x.m (x.imm.extractLsb' 0 6) (x.imm.extractLsb' 6 5))
    | 0x27 => some (.cTmred x.d x.a x.m)
    | 0x28 => some (.cTmmrg x.d x.a x.b)
    | 0x29 => some (.cTmext x.d x.a)
    | 0x2A => some (.cRep (x.a ++ x.b) x.imm)
    | 0x2B => some (if x.i then .cSkipNone x.m x.imm else .cSkip x.m x.imm)
    | 0x2C => some (.cRidx x.d (x.imm.extractLsb' 0 1))
    | 0x2D => some .cDrop
    | 0x2E => some (.cEv x.a)
    | _ => none

/-- The instruction of a cairn word; a reserved op or a nonzero unused field is refused (R378, R383). -/
noncomputable def decodeCairn (w : W32) : Except Reject Instr :=
  match ofCairn (unpackCairn w) with
  | some i => if toCairn i = some (unpackCairn w) then .ok i else .error .badCairn
  | none => .error .badCairn

/-! ### Dresser words (R172) -/

/-- The 64-bit word of a dresser instruction; none for the other rows. -/
def toDress : Instr → Option W64
  | .axis d n => some (0#4 ++ d ++ 0#40 ++ n)
  | .split c n => some (1#4 ++ c ++ 0#40 ++ n)
  | .join c => some (2#4 ++ c ++ 0#56)
  | .swap c j => some (3#4 ++ c ++ j ++ 0#52)
  | .rev c => some (4#4 ++ c ++ 0#56)
  | .pad c lo hi v => some (5#4 ++ c ++ 0#8 ++ lo ++ hi ++ 0#8 ++ v)
  | .tile c j m => some (6#4 ++ c ++ j ++ 0#48 ++ m)
  | .emit c s => some (7#4 ++ c ++ 0#24 ++ s)
  | _ => none

/-- The dresser instruction that the fields name. -/
def ofDress (w : W64) : Option Instr :=
  let c : BitVec 4 := w.extractLsb' 56 4
  let j : BitVec 4 := w.extractLsb' 52 4
  match (w.extractLsb' 60 4).toNat with
  | 0 => some (.axis c (w.extractLsb' 0 16))
  | 1 => some (.split c (w.extractLsb' 0 16))
  | 2 => some (.join c)
  | 3 => some (.swap c j)
  | 4 => some (.rev c)
  | 5 => some (.pad c (w.extractLsb' 32 16) (w.extractLsb' 16 16) (w.extractLsb' 0 8))
  | 6 => some (.tile c j (w.extractLsb' 0 4))
  | 7 => some (.emit c (w.extractLsb' 0 32))
  | _ => none

/-- The instruction of a dresser word; a reserved op or a nonzero bit that should be zero is refused (R172, R174). -/
def decodeDress (w : W64) : Except Reject Instr :=
  match ofDress w with
  | some i => if toDress i = some w then .ok i else .error .badDress
  | none => .error .badDress

/-! ### The encoder -/

/-- The 96-bit word of an engine instruction (R56). -/
def encodeWord (i : Instr) : Option (BitVec 96) := (toFields i).map packWord

/-- The 32-bit word of a cairn instruction (R378). -/
def encodeCairn (i : Instr) : Option W32 := (toCairn i).map packCairn

/-- A 32-bit unit's bytes, lowest address first (R6, R53). -/
def unitBytes (u : W32) : List Byte := [u.extractLsb' 0 8, u.extractLsb' 8 8, u.extractLsb' 16 8, u.extractLsb' 24 8]

/-- A unit from four bytes. -/
def unitOf (b0 b1 b2 b3 : Byte) : W32 := b3 ++ b2 ++ b1 ++ b0

/-- The bytes of an instruction as memory holds them: three units, the most significant first, for an engine word
(R53), one unit for a cairn word, two units in little-endian order for a dresser word; none for an event. -/
def encode (i : Instr) : List Byte :=
  match encodeWord i, encodeCairn i, toDress i with
  | some w, _, _ => unitBytes (w.extractLsb' 64 32) ++ unitBytes (w.extractLsb' 32 32) ++ unitBytes (w.extractLsb' 0 32)
  | none, some w, _ => unitBytes w
  | none, none, some w => unitBytes (w.extractLsb' 0 32) ++ unitBytes (w.extractLsb' 32 32)
  | none, none, none => []

/-- The kinds of instruction memory a byte stream can be. -/
inductive ImageKind where
  | stream (p : Where)
  | kernel
  | dressing
deriving DecidableEq, Repr

/-- The first instruction of a byte stream, and the bytes after it. -/
noncomputable def decodeBytes (k : ImageKind) (l : List Byte) : Except Reject (Instr × List Byte) :=
  match k, l with
  | .stream p, b0 :: b1 :: b2 :: b3 :: b4 :: b5 :: b6 :: b7 :: b8 :: b9 :: b10 :: b11 :: r =>
    (decodeWord p (unitOf b0 b1 b2 b3 ++ unitOf b4 b5 b6 b7 ++ unitOf b8 b9 b10 b11)).map fun i => (i, r)
  | .kernel, b0 :: b1 :: b2 :: b3 :: r => (decodeCairn (unitOf b0 b1 b2 b3)).map fun i => (i, r)
  | .dressing, b0 :: b1 :: b2 :: b3 :: b4 :: b5 :: b6 :: b7 :: r =>
    (decodeDress (unitOf b4 b5 b6 b7 ++ unitOf b0 b1 b2 b3)).map fun i => (i, r)
  | _, _ => .error .tooShort

/-! ### The table's numbering of bits -/

/-- The engine and place under which a word decodes, among the places of a stream: the first that accepts it. -/
def placesFor : List Where :=
  [Where.plain .lead, Where.plain .ap, Where.plain .mx, Where.plain .va, Where.plain .vb, Where.plain .sf,
   { eng := .ap, first := false, trap := false, intr := true }, { eng := .lead, first := true, trap := false, intr := false }]

/-- The instruction of a 96-bit word under the first place that accepts it. -/
def decodeAny (w : BitVec 96) : List Where → Option (Where × Instr)
  | [] => none
  | p :: r =>
    match decodeWord p w with
    | .ok i => some (p, i)
    | .error _ => decodeAny w r

/-- The instruction read from a word whose bits are numbered with bit 0 the least significant bit of its first unit:
a cairn word of 32 bits, a dresser word of 64, or an engine word of 96, whose first unit holds bits [95:64] (R56). -/
noncomputable def decodeTableWord (nbits w : Nat) : Option Instr :=
  if nbits ≤ 32 then
    match decodeCairn (BitVec.ofNat 32 w) with
    | .ok i => some i
    | .error _ => none
  else if nbits ≤ 64 then
    match decodeDress (BitVec.ofNat 64 w) with
    | .ok i => some i
    | .error _ => none
  else
    let x : BitVec 96 := BitVec.ofNat 32 w ++ BitVec.ofNat 32 (w / 2 ^ 32) ++ BitVec.ofNat 32 (w / 2 ^ 64)
    (decodeAny x placesFor).map Prod.snd

end Sys2Proof
end

