-- ==== Sys2Proof/Machine/Mem.lean ====
section
/-! DEFINITION. Sparse tables, and bytes in and out of words: the shared arithmetic of memory images. -/

namespace Sys2Proof.Machine

/-! ### Sparse tables -/

/-- The value at a key: `d` where nothing is listed. -/
def sget {α : Type} (d : α) : Sparse α → Nat → α
  | [], _ => d
  | (k, v) :: m, x => if x = k then v else sget d m x

/-- The table with key `x` set to `v`, in canonical form: writing the default removes the entry. -/
def sput {α : Type} [DecidableEq α] (d : α) : Sparse α → Nat → α → Sparse α
  | [], x, v => if v = d then [] else [(x, v)]
  | (k, w) :: m, x, v =>
    if x < k then (if v = d then (k, w) :: m else (x, v) :: (k, w) :: m)
    else if x = k then (if v = d then m else (x, v) :: m)
    else (k, w) :: sput d m x v

/-- Every key of `m` is above `lo`, keys rise strictly, and no value is the default. -/
def swfFrom {α : Type} [DecidableEq α] (d : α) : Nat → Sparse α → Bool
  | _, [] => true
  | lo, (k, v) :: m => decide (lo ≤ k) && !(decide (v = d)) && swfFrom d (k + 1) m

/-- The canonical form of a sparse table: keys strictly rising, no default listed. -/
def swf {α : Type} [DecidableEq α] (d : α) (m : Sparse α) : Bool := swfFrom d 0 m

/-- The part of a table with keys from `x` to `x + n - 1`. -/
def swindow {α : Type} (m : Sparse α) (x n : Nat) : Sparse α := m.filter fun e => decide (x ≤ e.1) && decide (e.1 < x + n)

/-- The `n` values from key `x`, one after another. -/
def sgetEach {α : Type} (d : α) (m : Sparse α) (x : Nat) : Nat → List α
  | 0 => []
  | n + 1 => sget d m x :: sgetEach d m (x + 1) n

/-- The `n` values from key `x`. -/
def sgets {α : Type} (d : α) (m : Sparse α) (x n : Nat) : List α := sgetEach d (swindow m x n) x n

/-- The entries that a list of values from key `x` makes. -/
def slist {α : Type} [DecidableEq α] (d : α) (x : Nat) : List α → Sparse α
  | [] => []
  | v :: vs => if v = d then slist d (x + 1) vs else (x, v) :: slist d (x + 1) vs

/-- The table with the values of a list stored from key `x` on. -/
def sputs {α : Type} [DecidableEq α] (d : α) (m : Sparse α) (x : Nat) (vs : List α) : Sparse α :=
  (m.filter fun e => decide (e.1 < x)) ++ slist d x vs ++ m.filter fun e => decide (x + vs.length ≤ e.1)

/-- The table with every listed (key, value) stored in turn. -/
def sputAll {α : Type} [DecidableEq α] (d : α) (m : Sparse α) : List (Nat × α) → Sparse α
  | [] => m
  | (k, v) :: r => sputAll d (sput d m k v) r

/-! ### Bytes, little-endian (R6) -/

/-- The number that a list of bytes stands for, the first byte lowest. -/
def natOfBytes : List Byte → Nat
  | [] => 0
  | b :: r => b.toNat + 256 * natOfBytes r

/-- The low `n` bytes of a number, lowest first. -/
def bytesOfNat : Nat → Nat → List Byte
  | 0, _ => []
  | n + 1, x => BitVec.ofNat 8 x :: bytesOfNat n (x / 256)

/-- A word of `w` bits from its bytes. -/
def bvOfBytes (w : Nat) (l : List Byte) : BitVec w := BitVec.ofNat w (natOfBytes l)

/-- The bits `[lo + len - 1 : lo]` of a number. -/
def bitsN (x lo len : Nat) : Nat := x / 2 ^ lo % 2 ^ len

/-- The number with bits `[lo + len - 1 : lo]` replaced. -/
def setBitsN (x lo len v : Nat) : Nat :=
  x - bitsN x lo len * 2 ^ lo + v % 2 ^ len * 2 ^ lo

/-- The slice `x[lo + len - 1 : lo]` of a word (R6). -/
def slice {w : Nat} (x : BitVec w) (lo len : Nat) : BitVec len := x.extractLsb' lo len

/-- A word with the slice from `lo` replaced. -/
def setSlice {w n : Nat} (x : BitVec w) (lo : Nat) (v : BitVec n) : BitVec w :=
  (x &&& ~~~((BitVec.allOnes n).setWidth w <<< lo)) ||| ((v.setWidth w) <<< lo)

/-- Elements of `n` bits, the first lowest, as one image. -/
def packNat (n : Nat) : List Nat → Nat
  | [] => 0
  | x :: r => x % 2 ^ n + 2 ^ n * packNat n r

/-- The image's first `cnt` elements of `n` bits. -/
def unpackNat (n : Nat) : Nat → Nat → List Nat
  | 0, _ => []
  | cnt + 1, x => x % 2 ^ n :: unpackNat n cnt (x / 2 ^ n)

/-- A quarter as its 256 elements (R252). -/
def quarterElems (q : Quarter) : List Nat := unpackNat 32 256 q.toNat

/-- A quarter from its elements. -/
def quarterOf (l : List Nat) : Quarter := BitVec.ofNat 8192 (packNat 32 l)

/-- A 4 KiB image from four quarters (R147). -/
def imgOf (q0 q1 q2 q3 : Quarter) : BitVec 32768 :=
  BitVec.ofNat 32768 (q0.toNat + 2 ^ 8192 * (q1.toNat + 2 ^ 8192 * (q2.toNat + 2 ^ 8192 * q3.toNat)))

/-- Quarter `q` of a 4 KiB image. -/
def imgQuarter (x : BitVec 32768) (q : Nat) : Quarter := x.extractLsb' (8192 * q) 8192

/-- Does the physical range lie wholly in HBM (R179)? -/
def inHbm (a n : Nat) : Bool := decide (a + n ≤ 0xC0_0000_0000)

/-- Is the address in the device register region (R179)? -/
def inRegs (a : Nat) : Bool := decide (0x400_0000_0000 ≤ a) && decide (a ≤ 0x400_FFFF_FFFF)

/-- Is the address in the host window (R179)? -/
def inHost (a : Nat) : Bool := decide (0x8_0000_0000_0000 ≤ a) && decide (a ≤ 0xF_FFFF_FFFF_FFFF)

/-- Insert a value into a list of a fixed order by key, replacing an equal key. -/
def assocPut {κ α : Type} [DecidableEq κ] (k : κ) (v : α) : List (κ × α) → List (κ × α)
  | [] => [(k, v)]
  | (k', w) :: r => if k' = k then (k, v) :: r else (k', w) :: assocPut k v r

/-- Look a key up. -/
def assocGet {κ α : Type} [DecidableEq κ] (k : κ) : List (κ × α) → Option α
  | [] => none
  | (k', w) :: r => if k' = k then some w else assocGet k r

end Sys2Proof.Machine
end

