-- ==== Sys2Proof/Machine/Num.lean ====
section
/-! DEFINITION. Exact values and the rounding helpers of R209, the floating formats of R207, and binary32 arithmetic
(R222-R225). Every floating value is read as an exact dyadic number, computed exactly, and rounded once. -/

namespace Sys2Proof.Machine

/-- An exact value: a NaN, an infinity, or `(-1)^neg * m * 2^e`; `m = 0` is a zero with its sign. -/
inductive Val where
  | nan
  | inf (neg : Bool)
  | fin (neg : Bool) (m : Nat) (e : Int)
deriving DecidableEq, Repr

/-- A floating format of R207. -/
structure Fmt where
  ew : Nat
  fw : Nat
  bias : Nat
  ieee : Bool
deriving DecidableEq, Repr

def fmtF32 : Fmt := { ew := 8, fw := 23, bias := 127, ieee := true }
def fmtBf16 : Fmt := { ew := 8, fw := 7, bias := 127, ieee := true }
def fmtF16 : Fmt := { ew := 5, fw := 10, bias := 15, ieee := true }
def fmtE4m3 : Fmt := { ew := 4, fw := 3, bias := 7, ieee := false }
def fmtE5m2 : Fmt := { ew := 5, fw := 2, bias := 15, ieee := true }

/-- The code of the format's positive infinity, or of its NaN in E4M3 (R207, R208). -/
def fmtTop (f : Fmt) : Nat := if f.ieee then (2 ^ f.ew - 1) * 2 ^ f.fw else 2 ^ (f.ew + f.fw) - 1

/-- The sign bit's weight. -/
def fmtSign (f : Fmt) : Nat := 2 ^ (f.ew + f.fw)

/-- The canonical NaN (R207, R208). -/
def fmtNan (f : Fmt) : Nat := if f.ieee then fmtTop f + 2 ^ (f.fw - 1) else fmtTop f

/-- The value of an encoding (R207, R208). -/
def fmtVal (f : Fmt) (x : Nat) : Val :=
  let neg := decide (x / fmtSign f % 2 = 1)
  let mag := x % fmtSign f
  let ex := mag / 2 ^ f.fw
  let fr := mag % 2 ^ f.fw
  if f.ieee && decide (ex = 2 ^ f.ew - 1) then (if fr = 0 then .inf neg else .nan)
  else if !f.ieee && decide (mag = fmtTop f) then .nan
  else if ex = 0 then .fin neg fr (1 - f.bias - f.fw)
  else .fin neg (2 ^ f.fw + fr) ((ex : Int) - f.bias - f.fw)

/-- `m / 2^n` rounded to the nearest integer, ties to even. -/
def rneShift (m n : Nat) : Nat :=
  let q := m / 2 ^ n
  let r := 2 * (m % 2 ^ n)
  if r < 2 ^ n then q else if 2 ^ n < r then q + 1 else q + q % 2

/-- `m * 2^e` rounded to the nearest integer, ties to even. -/
def rneNat (m : Nat) (e : Int) : Nat :=
  match e with
  | .ofNat k => m * 2 ^ k
  | .negSucc k => rneShift m (k + 1)

/-- RNEint of R209 for a finite value. -/
def rneInt (neg : Bool) (m : Nat) (e : Int) : Int := if neg then -(rneNat m e : Int) else rneNat m e

/-- The magnitude bits of RNE(m * 2^e) in a format, without the overflow rule: the code after the largest finite one
and beyond stand for an overflow (R209). -/
def rneBits (f : Fmt) (m : Nat) (e : Int) : Nat :=
  if m = 0 then 0
  else
    let qmin : Int := 1 - f.bias - f.fw
    let q : Int := max ((Nat.log2 m : Int) + e - f.fw) qmin
    (q - qmin).toNat * 2 ^ f.fw + rneNat m (e - q)

/-- RNE(v, F) as an encoding (R209): overflow gives the infinity. -/
def rne (f : Fmt) (neg : Bool) (m : Nat) (e : Int) : Nat :=
  min (rneBits f m e) (fmtTop f) + (if neg then fmtSign f else 0)

/-- The encoding of a value in an IEEE format: the canonical NaN, an infinity, or RNE (R215). -/
def fmtOf (f : Fmt) : Val → Nat
  | .nan => fmtNan f
  | .inf neg => fmtTop f + (if neg then fmtSign f else 0)
  | .fin neg m e => rne f neg m e

/-- SatS of R209. -/
def satS (x : Int) (n : Nat) : Int := max (-(2 ^ (n - 1) : Int)) (min (2 ^ (n - 1) - 1) x)

/-- AsrJam of R209: the shifted integer, and whether a 1 bit was shifted out. -/
def asrJam (x : Int) (n : Nat) : Int × Bool :=
  let q := x / (2 ^ n : Int)
  if x - q * 2 ^ n = 0 then (q, false) else (if q % 2 = 0 then q + 1 else q, true)

/-! ### Exact arithmetic -/

/-- A signed mantissa with its sign. -/
def signedOf (neg : Bool) (m : Nat) : Int := if neg then -(m : Int) else m

/-- The finite value of a signed mantissa; a zero takes the given sign. -/
def valOf (zneg : Bool) (x : Int) (e : Int) : Val :=
  if x = 0 then .fin zneg 0 0 else .fin (decide (x < 0)) x.natAbs e

/-- Negation. -/
def vneg : Val → Val
  | .nan => .nan
  | .inf n => .inf (!n)
  | .fin n m e => .fin (!n) m e

/-- The exact sum. A zero sum of unlike signs is +0 (R222, R224). -/
def vadd : Val → Val → Val
  | .nan, _ => .nan
  | _, .nan => .nan
  | .inf a, .inf b => if a = b then .inf a else .nan
  | .inf a, _ => .inf a
  | _, .inf b => .inf b
  | .fin a m e, .fin b n g =>
    let lo := min e g
    valOf (a && b) (signedOf a m * 2 ^ (e - lo).toNat + signedOf b n * 2 ^ (g - lo).toNat) lo

/-- The exact product. -/
def vmul : Val → Val → Val
  | .nan, _ => .nan
  | _, .nan => .nan
  | .inf a, .inf b => .inf (a != b)
  | .inf a, .fin b m _ => if m = 0 then .nan else .inf (a != b)
  | .fin a m _, .inf b => if m = 0 then .nan else .inf (a != b)
  | .fin a m e, .fin b n g => .fin (a != b) (m * n) (e + g)

/-- The binary32 value of an element. -/
def f32 (x : Nat) : Val := fmtVal fmtF32 x

/-- The binary32 encoding of a value. -/
def toF32 (v : Val) : Nat := fmtOf fmtF32 v

/-- The canonical binary32 NaN. -/
def nan32 : Nat := 0x7FC00000

def isNan32 (x : Nat) : Bool := decide (0x7F800000 < x % 2 ^ 31)

/-- binary32 sum, difference and product (R222). -/
def fadd (x y : Nat) : Nat := toF32 (vadd (f32 x) (f32 y))
def fsub (x y : Nat) : Nat := toF32 (vadd (f32 x) (vneg (f32 y)))
def fmul (x y : Nat) : Nat := toF32 (vmul (f32 x) (f32 y))

/-- a·b + c, rounded once (R222). -/
def ffma (a b c : Nat) : Nat := toF32 (vadd (vmul (f32 a) (f32 b)) (f32 c))

/-- a·b - c, rounded once (R258). -/
def ffms (a b c : Nat) : Nat := toF32 (vadd (vmul (f32 a) (f32 b)) (vneg (f32 c)))

/-- c - a·b, rounded once (R258). -/
def ffnma (a b c : Nat) : Nat := toF32 (vadd (vneg (vmul (f32 a) (f32 b))) (f32 c))

/-- The order of R223 on encodings that are not NaN, as a key: -0 below +0. -/
def fkey (x : Nat) : Int :=
  let mag : Nat := x % 2 ^ 31
  if x / 2 ^ 31 % 2 = 1 then -(mag : Int) - 1 else mag

/-- vmin.f32 and vmax.f32 (R223). -/
def fmin (x y : Nat) : Nat := if isNan32 x || isNan32 y then nan32 else if fkey x ≤ fkey y then x else y
def fmax (x y : Nat) : Nat := if isNan32 x || isNan32 y then nan32 else if fkey y ≤ fkey x then x else y

/-- IEEE less-than and equality: false for a NaN, and the two zeros are equal. -/
def fnum (x : Nat) : Int :=
  let mag : Nat := x % 2 ^ 31
  if x / 2 ^ 31 % 2 = 1 then -(mag : Int) else mag
def flt (x y : Nat) : Bool := !isNan32 x && !isNan32 y && decide (fnum x < fnum y)
def fle (x y : Nat) : Bool := !isNan32 x && !isNan32 y && decide (fnum x ≤ fnum y)
def feq (x y : Nat) : Bool := !isNan32 x && !isNan32 y && decide (fnum x = fnum y)

/-- Adjacent pairs combined: one level of the tree of R224. -/
def pairUp (op : Nat → Nat → Nat) : List Nat → List Nat
  | x :: y :: r => op x y :: pairUp op r
  | l => l

/-- The pairwise tree of R224 over `2^k` elements: halves of halves combine neighbours first. -/
def treeRed (op : Nat → Nat → Nat) : Nat → List Nat → Nat
  | 0, l => l.headD 0
  | k + 1, l => treeRed op k (pairUp op l)

/-- First index of an element for which `p` holds. -/
def firstIdx (p : Nat → Bool) : Nat → List Nat → Option Nat
  | _, [] => none
  | i, x :: r => if p x then some i else firstIdx p (i + 1) r

/-- Maximum (`mx`) or minimum with index (R225): the value and the index. -/
def extremeIdx (mx : Bool) (l : List Nat) : Nat × Nat :=
  match firstIdx isNan32 0 l with
  | some i => (nan32, i)
  | none =>
    let best := l.foldl (fun b x => if mx then fmax b x else fmin b x) (l.headD 0)
    (best, (firstIdx (fun x => decide (x = best)) 0 l).getD 0)

/-! ### Two's complement -/

/-- The signed reading of the low `n` bits. -/
def sintN (n x : Nat) : Int :=
  let y := x % 2 ^ n
  if 2 ^ (n - 1) ≤ y then (y : Int) - 2 ^ n else y

/-- The low `n` bits of an integer. -/
def wrapN (n : Nat) (x : Int) : Nat := (x % (2 ^ n : Int)).toNat

end Sys2Proof.Machine
end

