-- ==== Sys2Proof/Machine/Formats.lean ====
section
/-! DEFINITION. The element formats of R65 and the one element conversion of the device: Spall8 (R210, R211), integers
(R212), ashlar blocks (R213, R214) and Convert (R215, R216). -/

namespace Sys2Proof.Machine

/-! ### Spall8 -/

/-- The magnitude of the code `x = b[6:0]` in units of 2^-20 (R210). -/
def spallMag (x : Nat) : Nat :=
  if x = 0 then 0
  else
    let n := Nat.log2 x
    let z := 6 - n
    let ew := min 2 n
    let fw := n - ew
    let e := x % 2 ^ n / 2 ^ fw
    let f := x % 2 ^ fw
    -- 2^E * (1 + f / 2^fw) with E = 4 (1 - z) + e
    (2 ^ fw + f) * 2 ^ (24 + e - 4 * z - fw)

/-- Spall8Value of R210. -/
def spallVal (b : Nat) : Val :=
  let x := b % 128
  if x = 0 then (if b / 128 % 2 = 0 then .fin false 0 0 else .nan)
  else .fin (decide (b / 128 % 2 = 1)) (spallMag x) (-20)

/-- Does `2 m * 2^e` reach `s * 2^-20`: below, equal or above. -/
def cmpHalf (m : Nat) (e : Int) (s : Nat) : Ordering :=
  match e + 21 with
  | .ofNat k => compare (m * 2 ^ k) s
  | .negSucc k => compare m (s * 2 ^ (k + 1))

/-- The nearest code for a magnitude, ties to the even code: the number of codes x ≥ 1 whose lower midpoint the
magnitude passes (R211). -/
def spallNearest (m : Nat) (e : Int) : Nat :=
  ((List.range 127).filter fun i =>
    match cmpHalf m e (spallMag i + spallMag (i + 1)) with
    | .lt => false
    | .eq => decide (i % 2 = 1)
    | .gt => true).length

/-- Conversion to Spall8 (R211): the byte and whether it counts a saturation. -/
def toSpall : Val → Nat × Nat
  | .nan => (0x80, 0)
  | .inf neg => (if neg then 0xFF else 0x7F, 1)
  | .fin neg m e =>
    let s : Nat := if neg then 128 else 0
    match cmpHalf m e (2 * spallMag 127) with
    | .gt => (s + 0x7F, 1)
    | _ =>
      let x := spallNearest m e
      (if x = 0 then 0 else s + x, 0)

/-! ### The formats -/

/-- The element width of a type code in bits (R65). -/
def typeBits (t : Nat) : Nat :=
  match t with
  | 0 => 32 | 1 => 16 | 2 => 16 | 3 => 8 | 4 => 8 | 5 => 8 | 6 => 32 | 7 => 16 | 8 => 8 | 9 => 4
  | 10 => 2 | 11 => 4 | 12 => 8 | _ => 16

/-- Is the type code an ashlar type (R65)? -/
def isAshlar (t : Nat) : Bool := decide (10 ≤ t) && decide (t ≤ 13)

/-- The exact value of an element of a type that is not ashlar (R207, R210, R212). -/
def elemVal (t x : Nat) : Val :=
  match t with
  | 0 => fmtVal fmtF32 x
  | 1 => fmtVal fmtBf16 x
  | 2 => fmtVal fmtF16 x
  | 3 => fmtVal fmtE4m3 x
  | 4 => fmtVal fmtE5m2 x
  | 5 => spallVal x
  | _ => let v := sintN (typeBits t) x; .fin (decide (v < 0)) v.natAbs 0

/-- Conversion to an integer of `n` bits (R215): the bits and the saturation count. -/
def toIntN (n : Nat) : Val → Nat × Nat
  | .nan => (0, 1)
  | .inf neg => (if neg then 2 ^ (n - 1) else 2 ^ (n - 1) - 1, 1)
  | .fin neg m e =>
    let t := rneInt neg m e
    let r := satS t n
    (wrapN n r, if r = t then 0 else 1)

/-- Is `m * 2^e` above 448? -/
def above448 (m : Nat) (e : Int) : Bool :=
  match e with
  | .ofNat k => decide (448 < m * 2 ^ k)
  | .negSucc k => decide (448 * 2 ^ (k + 1) < m)

/-- Conversion to E4M3 (R215). -/
def toE4m3 : Val → Nat × Nat
  | .nan => (0x7F, 0)
  | .inf neg => (if neg then 0xFE else 0x7E, 1)
  | .fin neg m e => if above448 m e then (if neg then 0xFE else 0x7E, 1) else (rne fmtE4m3 neg m e, 0)

/-- Convert of R215 for a destination that is not ashlar: the bits and the saturation count. -/
def convVal (t : Nat) (v : Val) : Nat × Nat :=
  match t with
  | 0 => (fmtOf fmtF32 v, 0)
  | 1 => (fmtOf fmtBf16 v, 0)
  | 2 => (fmtOf fmtF16 v, 0)
  | 3 => toE4m3 v
  | 4 => (fmtOf fmtE5m2 v, 0)
  | 5 => toSpall v
  | _ => toIntN (typeBits t) v

/-! ### Ashlar blocks -/

/-- An element of an ashlar block with scale code `c` (R213). -/
def ashlarVal (w c m : Nat) : Val :=
  if c = 0 then .fin false 0 0
  else if c = 511 then .nan
  else
    let v := sintN w m
    .fin (decide (v < 0)) v.natAbs ((c : Int) - 256 - ((w : Int) - 1))

/-- A packed block (R214): scale code, mantissa bits, SAT and SPREAD. -/
structure Packed where
  c : Nat
  m : List Nat
  sat : Nat
  spread : Nat
deriving DecidableEq, Repr

/-- The exponent floor(log2 |v|) of a finite nonzero value. -/
def valExp : Val → Option Int
  | .fin _ m e => if m = 0 then none else some ((Nat.log2 m : Int) + e)
  | _ => none

/-- The greatest exponent of a list. -/
def maxExp : List Val → Option Int
  | [] => none
  | v :: r =>
    match valExp v, maxExp r with
    | none, x => x
    | some x, none => some x
    | some x, some y => some (max x y)

/-- Is a value a NaN or an infinity? -/
def valSpecial : Val → Bool
  | .fin _ _ _ => false
  | _ => true

/-- One mantissa: the bits, SAT and SPREAD (R214). -/
def packElem (w : Nat) (emax : Int) : Val → Nat × Nat × Nat
  | .fin neg m e =>
    let t := rneInt neg m (e + (w : Int) - 2 - emax)
    let top : Int := 2 ^ (w - 1) - 1
    let sat := if top < t then 1 else 0
    let t' := if top < t then top else t
    (wrapN w t', sat, if t' = 0 && decide (m ≠ 0) then 1 else 0)
  | _ => (0, 0, 0)

/-- AshlarPack of R214 over a block's values. -/
def ashlarPack (w : Nat) (x : List Val) : Packed :=
  if x.any valSpecial then { c := 511, m := x.map fun _ => 0, sat := 0, spread := 0 }
  else
    match maxExp x with
    | none => { c := 0, m := x.map fun _ => 0, sat := 0, spread := 0 }
    | some emax =>
      let r := x.map (packElem w emax)
      { c := (emax + 257).toNat, m := r.map fun y => y.1, sat := (r.map fun y => y.2.1).sum
        spread := (r.map fun y => y.2.2).sum }

end Sys2Proof.Machine
end

