-- ==== Sys2Proof/Machine/Convert.lean ====
section
/-! DEFINITION. The tensors of the copy engines: layouts in memory, conversion of a whole tensor, and the plane-major
layout of the bench (R160, R163-R167, R214-R216). -/

namespace Sys2Proof.Machine

/-- The fields of a geometry register (R163). -/
structure Geo where
  nrow : Nat
  ncol : Nat
  stride : Nat
  alr : Nat
deriving DecidableEq, Repr

def geoOf (g : BitVec 64) : Geo :=
  { nrow := bitsN g.toNat 48 16, ncol := bitsN g.toNat 32 16, stride := bitsN g.toNat 3 29, alr := bitsN g.toNat 0 3 }

/-- Block columns, BC = 64 / BR (R163). -/
def geoBc (g : Geo) : Nat := 64 / 2 ^ g.alr

/-- The length of the elements' part of a dense stream in bytes, and the place of the scale array (R164). -/
def mantBytes (t : Nat) (g : Geo) : Nat := g.nrow * g.ncol * typeBits t / 8
def scaleAt (t : Nat) (g : Geo) : Nat := (mantBytes t g + 127) / 128 * 128
def blockCount (g : Geo) : Nat := (g.nrow / 2 ^ g.alr) * (g.ncol / geoBc g)

/-- The dense size D(t) (R164). -/
def denseSize (t : Nat) (g : Geo) : Nat :=
  if isAshlar t then scaleAt t g + 2 * blockCount g else mantBytes t g

/-- Is the type's layout invalid under the geometry (R164)? -/
def badLayout (t : Nat) (g : Geo) : Bool :=
  decide (g.ncol * typeBits t % 8 ≠ 0)
    || (isAshlar t && (decide (6 < g.alr) || decide (g.nrow % 2 ^ g.alr ≠ 0) || decide (g.ncol % geoBc g ≠ 0)))

/-- Is a copy's shape invalid, STATUS 0x05 (R164, R167)? `mt` is the type of the memory side. ALR is looked at only where a type is
ashlar (log 36). -/
def badShape (st dt mt : Nat) (pl : Bool) (g : Geo) : Bool :=
  decide (g.nrow = 0) || decide (g.ncol = 0) || badLayout st g || badLayout dt g
    || (decide (g.stride ≠ 0) && isAshlar mt) || (pl && (decide (g.nrow % 64 ≠ 0) || decide (g.ncol % 64 ≠ 0)))

/-- The block of element `i`, in the order of the scale array (R164). -/
def blockOf (g : Geo) (i : Nat) : Nat := (i / g.ncol) / 2 ^ g.alr * (g.ncol / geoBc g) + (i % g.ncol) / geoBc g

/-- The elements of block `b`, row by row. -/
def blockElems (g : Geo) (b : Nat) : List Nat :=
  let bj := b % (g.ncol / geoBc g)
  let bi := b / (g.ncol / geoBc g)
  (List.range (2 ^ g.alr)).flatMap fun r =>
    (List.range (geoBc g)).map fun k => (bi * 2 ^ g.alr + r) * g.ncol + bj * geoBc g + k

/-- A tensor in an engine's hands: its elements' codes, its scale codes, and which elements come from bytes that
failed (R160). -/
structure Tensor where
  codes : Array Nat
  scales : Array Nat
  bad : Array Bool
deriving Repr

/-- The tensor that a dense stream holds (R164). -/
def readTensor (t : Nat) (g : Geo) (bytes : List (Option Byte)) : Tensor :=
  let n := g.nrow * g.ncol
  let w := typeBits t
  let a := bytes.toArray
  let failed (i : Nat) : Bool := match a.getD i (some 0) with
    | none => true
    | some _ => false
  let byte (i : Nat) : Nat := match a.getD i (some 0) with
    | none => 0
    | some b => b.toNat
  let codes := (unpackNat w n (natOfBytes (bytes.map fun b => b.getD 0))).toArray
  let nb := if isAshlar t then blockCount g else 0
  let so := scaleAt t g
  let scales := ((List.range nb).map fun b => (byte (so + 2 * b) + 256 * byte (so + 2 * b + 1)) % 512).toArray
  let bad := ((List.range n).map fun i =>
    ((List.range ((w + 7) / 8)).any fun j => failed (i * w / 8 + j))
      || (decide (nb ≠ 0) && (failed (so + 2 * blockOf g i) || failed (so + 2 * blockOf g i + 1)))).toArray
  { codes, scales, bad }

/-- The exact value of element `i` (R213, R215). -/
def tensorVal (t : Nat) (g : Geo) (x : Tensor) (i : Nat) : Val :=
  if isAshlar t then ashlarVal (typeBits t) (x.scales.getD (blockOf g i) 0) (x.codes.getD i 0)
  else elemVal t (x.codes.getD i 0)

/-- A converted tensor with its counts. -/
structure Converted where
  codes : Array Nat
  scales : Array Nat
  sat : Nat
  spread : Nat
deriving Repr

/-- Conversion to a type that is not ashlar, element by element (R215). -/
def convertPlain (st dt : Nat) (g : Geo) (x : Tensor) : Converted :=
  let r := (List.range (g.nrow * g.ncol)).map fun i =>
    if x.bad.getD i false then (0, 0) else convVal dt (tensorVal st g x i)
  { codes := (r.map Prod.fst).toArray, scales := #[], sat := (r.map Prod.snd).sum, spread := 0 }

/-- A block that meets failed bytes has scale code 0 (R160). -/
def blockBad (g : Geo) (x : Tensor) (b : Nat) : Bool := (blockElems g b).any fun i => x.bad.getD i false

/-- Mantissas of the same width moved as they are (R216). -/
def moveAshlar (g : Geo) (x : Tensor) : Converted :=
  { codes := ((List.range (g.nrow * g.ncol)).map fun i => if x.bad.getD i false then 0 else x.codes.getD i 0).toArray
    scales := ((List.range (blockCount g)).map fun b => if blockBad g x b then 0 else x.scales.getD b 0).toArray
    sat := 0, spread := 0 }

/-- Packing into ashlar blocks (R214, R215). -/
def convertAshlar (st dt : Nat) (g : Geo) (x : Tensor) : Converted :=
  let packs := (List.range (blockCount g)).map fun b =>
    ashlarPack (typeBits dt) ((blockElems g b).map fun i =>
      if x.bad.getD i false then .fin false 0 0 else tensorVal st g x i)
  let cells := ((List.range (blockCount g)).zip packs).flatMap fun (b, p) => (blockElems g b).zip p.m
  { codes := cells.foldl (fun a (i, m) => a.setIfInBounds i m) (Array.replicate (g.nrow * g.ncol) 0)
    scales := (((List.range (blockCount g)).zip packs).map fun (b, p) => if blockBad g x b then 0 else p.c).toArray
    sat := (packs.map fun p => p.sat).sum, spread := (packs.map fun p => p.spread).sum }

/-- Convert of a whole tensor (R165). -/
def convertTensor (st dt : Nat) (g : Geo) (x : Tensor) : Converted :=
  if isAshlar dt then (if st = dt then moveAshlar g x else convertAshlar st dt g x) else convertPlain st dt g x

/-- The element-major stream of a tensor (R164). -/
def elementMajor (t : Nat) (g : Geo) (x : Converted) : List Byte :=
  let m := bytesOfNat (mantBytes t g) (packNat (typeBits t) x.codes.toList)
  if isAshlar t then
    m ++ List.replicate (scaleAt t g - mantBytes t g) 0 ++ x.scales.toList.flatMap fun c => bytesOfNat 2 (c % 512)
  else m

/-- The bits of one row of a plane (R167). -/
def planeRow (x : Converted) (j r0 : Nat) : List Byte :=
  bytesOfNat 8 (packNat 1 ((List.range 64).map fun k => x.codes.getD (r0 + k) 0 / 2 ^ j % 2))

/-- One tile of the plane-major layout (R167). -/
def planeTile (t : Nat) (g : Geo) (x : Converted) (ti tj : Nat) : List Byte :=
  let w := typeBits t
  let bc := geoBc g
  ((List.range w).flatMap fun j => (List.range 64).flatMap fun m => planeRow x j ((64 * ti + m) * g.ncol + 64 * tj))
    ++ (List.range (64 / 2 ^ g.alr)).flatMap fun bi => (List.range (64 / bc)).flatMap fun bj =>
        bytesOfNat 2 (x.scales.getD ((64 * ti / 2 ^ g.alr + bi) * (g.ncol / bc) + 64 * tj / bc + bj) 0 % 512)

/-- The plane-major stream (R167). -/
def planeMajor (t : Nat) (g : Geo) (x : Converted) : List Byte :=
  (List.range (g.nrow / 64)).flatMap fun ti => (List.range (g.ncol / 64)).flatMap fun tj => planeTile t g x ti tj

/-- The length of a copy's stream (R165, R167). -/
def streamSize (dt : Nat) (pl : Bool) (g : Geo) : Nat :=
  if pl then g.nrow / 64 * (g.ncol / 64) * (512 * typeBits dt + 128) else denseSize dt g

/-- The stream that a copy writes (R165). -/
def copyStream (dt : Nat) (pl : Bool) (g : Geo) (x : Converted) : List Byte :=
  if pl then planeMajor dt g x else elementMajor dt g x

/-- The start and length of each row of the memory side (R164): one run when dense. -/
def memoryRows (base t : Nat) (g : Geo) : List (Nat × Nat) :=
  if isAshlar t || decide (g.stride = 0) then [(base, denseSize t g)]
  else (List.range g.nrow).map fun r => (base + 8 * g.stride * r, g.ncol * typeBits t / 8)

end Sys2Proof.Machine
end

