-- ==== Sys2Proof/Config.lean ====
section
/-! DEFINITION. The values that the manual leaves open, as constants with no body: nothing in Lean can evaluate one
or prove a value of it, so a claim holds for every value. The log entries named here say what each stands for. -/

namespace Sys2Proof.Config

/-- A fresh value: applied to the counter `State.free`, which every use advances (log 3). -/
opaque freeWord : Nat → BitVec 64

/-- A fresh value of 32 bits (log 3). -/
opaque freeWord32 : Nat → BitVec 32

/-- A random nonzero generator state (R404; log 5). -/
def seed (n : Nat) : BitVec 32 := if freeWord32 n = 0 then 1 else freeWord32 n

/-- A fresh line (log 3). -/
opaque freeLine : Nat → BitVec 1024

/-- A line written under one XTS key, decrypted with another (R181): the plaintext that comes out is free (log 4).
Arguments: the reader's key and the writer's, none for a world whose slot is empty; the line's number; the line as the
writer's key gives it. -/
opaque wrongKey : Option (BitVec 512) → Option (BitVec 512) → Nat → Row → Row

/-- A key pair drawn at random by the guide core (R415, R428): applied to the free counter (log 5). -/
opaque randomKey : Nat → BitVec 768

/-- Does an SLH-DSA-SHA2-192s signature verify (R425): public key, signature, message digest (log 6). -/
opaque slhDsaVerify : BitVec 384 → List Byte → BitVec 256 → Bool

/-- The application secret of the SPDM session opened by the messages so far (R421; log 7). -/
opaque sessionSecret : Nat → BitVec 384

/-- HKDF-SHA-384 as SPDM 1.3 derives its keys: secret, label number, length in bits truncated to 768 (R421; log 7). -/
opaque hkdf : BitVec 384 → Nat → BitVec 768

/-- The bytes with which the guide core answers an SPDM request whose layout is not in the manual (R427; log 8). -/
opaque spdmReply : Spdm → List Byte → Nat → List Byte

/-- AES-256-GCM of one tether packet: key, IV, header, payload; ciphertext and tag (R422; log 7). -/
opaque gcmSeal : BitVec 256 → BitVec 96 → List Byte → List Byte → List Byte × BitVec 128

/-- AES-256-GCM opening: none when the tag fails (R422; log 7). -/
opaque gcmOpen : BitVec 256 → BitVec 96 → List Byte → List Byte → BitVec 128 → Option (List Byte)

/-- Package power in watts averaged over a millisecond: a measurement of the world outside (R444; log 9). -/
opaque watts : Nat → BitVec 16

/-- Does a quiesced unit pass its self-test (R439): applied to the free counter (log 10). -/
opaque selfTestPass : Nat → Bool

/-- The fuse contents of the col die: key hash, and the minimum security version of each image type (R425; log 6). -/
opaque fuseKeyHash : BitVec 256
/-- See `fuseKeyHash`. -/
opaque fuseMinSvn : Nat → Nat
/-- The fuse configuration that MEAS(0) is extended with (R426; log 6). -/
opaque fuseConfig : List Byte
/-- The firmware image of each type that the guide core loads (R425; log 6). -/
opaque firmware : Nat → List Byte

end Sys2Proof.Config
end

