-- ==== Sys2Proof/Machine/State.lean ====
section
/-! DEFINITION. The state of one Skohiot package as plain data: every register, queue, buffer and list that the manual
names, the jobs that run, and the schedule of what happens next. `State.reset` is the package right after the reset
pin. -/

namespace Sys2Proof.Machine

/-! ### Streams, loops and positions -/

/-- Where an image is being read (R30, R54, R122): `base` is the address of the current pitch's first word, `off` the
next word's offset, `hdr` says that the item at `base` is the next pitch's header. -/
structure Pos where
  base : Nat
  pitch : BitVec 10
  wc : Nat
  off : Nat
  hdr : Bool
deriving DecidableEq, Repr

/-- A position before the first item of the image at `a`: pitch 0 comes next. -/
def Pos.start (a : Nat) : Pos := { base := a, pitch := 0x3FF, wc := 0, off := 0, hdr := true }

/-- One loop level of an engine (R105, R109, R127): the loop registers, then the activation's own copy. `first` and
`last` are the word offsets of the body's first and end word. -/
structure Level where
  cnt : W32
  start : W32
  lend : BitVec 10
  epi : BitVec 3
  idx : W32
  act : Bool
  aCnt : W32
  aStart : W32
  aEnd : BitVec 10
  aEpi : BitVec 3
  stage : Bool
  pf : BitVec 4
  ns : BitVec 4
  done : Nat
  first : Nat
  last : Nat
deriving DecidableEq, Repr

/-- Every loop register zero, inactive (R102). -/
def Level.zero : Level :=
  { cnt := 0, start := 0, lend := 0, epi := 0, idx := 0, act := false, aCnt := 0, aStart := 0, aEnd := 0, aEpi := 0
    stage := false, pf := 0, ns := 0, done := 0, first := 0, last := 0 }

/-- One 32-bit unit in a fetch buffer; `bad` marks uncorrectable data or a failed tag (R55). -/
structure Unit32 where
  val : W32
  bad : Bool
deriving DecidableEq, Repr

/-- The forms at which a stream can stand at a rendezvous (R99). -/
inductive RdvForm where
  | align | rdv | flip
deriving DecidableEq, Repr

/-- One engine stream (R16): the stream's start, where it stands, when its last word issued (`last`, on the cluster's
clock, and `extra`, the count of a preceding `idle`), rendezvous counts, the retired pitch number (R31), ROT (R44) and
the loop levels. `first` says that the next word is the stream's first word. -/
structure Stream where
  present : Bool
  start : Nat
  pos : Pos
  first : Bool
  last : Nat
  extra : Nat
  ended : Bool
  arrived : Option RdvForm
  rdvs : Nat
  ret : BitVec 10
  rot : BitVec 4
  loops : Vector Level 4
  buf : Sparse (Option Unit32)
deriving DecidableEq, Repr

/-- An absent stream (R17); the retired number is 0x3FF (R41). -/
def Stream.absent : Stream :=
  { present := false, start := 0, pos := Pos.start 0, first := true, last := 0, extra := 0
    ended := false, arrived := none, rdvs := 0, ret := 0x3FF, rot := 0, loops := Vector.replicate 4 Level.zero
    buf := [] }

/-! ### Timed state of a core -/

/-- A write of a timed word whose reads are done and that is due at tick `due` (R121): `code` is the destination's
register code (a physical one for v), `q` the quarter; `val` a quarter of a v register or queue entry, a mask quarter in
its low 256 bits, an s register in its low 64 bits, or a slot in bit 0. `at_` is the word's issue tick. `work` marks the
working state of `sf.tmx` and `sf.short`, which is no latch record (R287). -/
structure Latch where
  eng : Engine
  code : RegCode
  q : Nat
  due : Nat
  val : Quarter
  pitch : BitVec 10
  word : Nat
  at_ : Nat
  work : Bool
deriving DecidableEq, Repr

/-- A vector, SF or MX operation in progress (R253, R272, R231): its word, its issue tick on the cluster clock,
the quarters that it has read, keyed by 4 * source + quarter. `aux` holds numbers
bound at issue (an address, a lane distance, a physical register), `fe` the format entry bound at issue (R234). -/
structure Op where
  eng : Engine
  instr : Instr
  at_ : Nat
  pitch : BitVec 10
  word : Nat
  dst : Nat
  srcs : List Nat
  aux : List Nat
  fe : W64
  got : Sparse (BitVec 8192)
deriving DecidableEq, Repr

/-- A 128-byte row in transit on a lane (R48): lanes 0-7 are cw, 8-15 ac. `tap` marks a row that a tap must take at
its destination; `eng`, `pitch` and `word` name the word that put it there. -/
structure Transit where
  lane : Nat
  from_ : Nat
  enter : Nat
  dest : Nat
  tap : Bool
  row : Row
  eng : Engine
  pitch : BitVec 10
  word : Nat
deriving DecidableEq, Repr

/-- An accumulator cell (R219). -/
structure Cell where
  m : BitVec 64
  e : BitVec 16
  jam : Bool
  nan : Bool
  sat : Bool
  clr : Bool
deriving DecidableEq, Repr

/-- A clear cell under `align` (R219). -/
def Cell.clear : Cell := { m := 0, e := 0, jam := false, nan := false, sat := false, clr := true }

/-- An accumulator tile: cell (m, n) at index 64 m + n. -/
abbrev Tile := Vector Cell 4096

/-- A half of the B buffer that is claimed (R231, R241); `slot` is which of the two. -/
structure BHalf where
  slot : Bool
  bus : Bool
  width : BitVec 2
  ready : Nat
  freeAt : Option Nat
  mant : List Byte
  scales : List (BitVec 9)
deriving DecidableEq, Repr

/-- The bench (R231). `busy` is the tick from which the bench is free; `vt` the valid ticks of the row groups of `rb`,
none for never. `upset` says that a datapath error has struck the step in progress (R435). -/
structure Bench where
  tiles : Vector Tile 2
  zr : Bool
  bbuf : List BHalf
  rb : Vector Quarter 16
  vt : Vector (Option Nat) 16
  busy : Nat
  upset : Bool
deriving DecidableEq, Repr

/-- The bench as the retirement of `rdv.align` leaves it (R232). -/
def Bench.reset : Bench :=
  { tiles := Vector.replicate 2 (Vector.replicate 4096 Cell.clear), zr := false, bbuf := []
    rb := Vector.replicate 16 0, vt := Vector.replicate 16 none, busy := 0, upset := false }

/-- The translation that an access uses (R197): its leaf's size and G, the ASID, and how many invalidates the APs had
received when it was made. -/
structure Use where
  bits : Nat := 16
  g : Bool := false
  asid : BitVec 16 := 0
  gen : Nat := 0
deriving DecidableEq, Repr

/-- A part of a translated range, within one page (R190): `wr` says that it is written. -/
structure Piece where
  va : Nat
  pa : Nat
  len : Nat
  wr : Bool
  use : Use := {}
deriving DecidableEq, Repr

/-- A part of an access of host memory that a non-posted request brings (R182): its offset in the access, its length, the
request's number, and the answer, which is none while the request waits and `some none` where it failed (R198). -/
structure HostPart where
  off : Nat
  len : Nat
  req : Nat
  ans : Option (Option (List Byte))
deriving DecidableEq, Repr

/-- The word of an AP that waits for completions (R182, R319): its address, whether it needs W, whether it waits for the
flush read of a release, the bytes it has already, and the parts that its requests bring. -/
structure HostWait where
  va : Nat
  needW : Bool
  flush : Bool
  got : List (Option Byte)
  parts : List HostPart
deriving DecidableEq, Repr

/-- What a command has come to whose posted writes have not all passed the tether's egress (R159, R198). -/
structure Owed where
  id : Nat
  status : Nat
  reply : W64
  failed : Option Nat
  ledge : Option Nat
deriving DecidableEq, Repr

/-- An entry of a load queue (R13, R147): its 4 KiB image, and what has not arrived yet. -/
structure LqEntry where
  img : BitVec 32768
  pending : Option (List Piece)
deriving DecidableEq, Repr

/-- An entry of a store queue (R13): its image, which quarters have been written, and the word that pushed it: its
engine and its issue tick on the cluster's clock. -/
structure SqEntry where
  img : BitVec 32768
  have_ : BitVec 4
  eng : Engine
  at_ : Nat
deriving DecidableEq, Repr

/-- A bin descriptor (R293). -/
structure Bin where
  base : W64
  rowb : BitVec 16
  cap : BitVec 13
  fill : BitVec 13
  rule : BitVec 2
  spill : BitVec 2
  dropped : W32
  deferred : W32
deriving DecidableEq, Repr

/-- The reset descriptor (R293). -/
def Bin.zero : Bin := { base := 0, rowb := 0, cap := 0, fill := 0, rule := 0, spill := 0, dropped := 0, deferred := 0 }

/-- The scalar registers and predicate slots of a core (R61, R60, R122, R129). `pend` marks pending reply
registers (R82): bits of `pendS` for s, `pendH` for the handler bank, `pendA` for a0-a31, `pendX` for the shadow. -/
structure Scal where
  s : Vector W64 32
  hs : Vector W64 32
  a : Vector W64 32
  sh : Vector W64 8
  pv : BitVec 15
  pw : BitVec 15
  hv : BitVec 15
  hw : BitVec 15
  pendS : BitVec 32
  pendH : BitVec 32
  pendA : BitVec 32
  pendX : BitVec 8
deriving DecidableEq, Repr

/-- Scalars at reset: the manual gives no values, and the model takes zero (log 1); every slot written and false. -/
def Scal.reset : Scal :=
  { s := Vector.replicate 32 0, hs := Vector.replicate 32 0, a := Vector.replicate 32 0, sh := Vector.replicate 8 0
    pv := 0, pw := BitVec.allOnes 15, hv := 0, hw := BitVec.allOnes 15, pendS := 0, pendH := 0, pendA := 0, pendX := 0 }

/-- Vector registers, masks and queues (R252, R147). Quarter `q` of physical register `r` is `v[4 r + q]`. -/
structure Vecs where
  v : Vector Quarter 128
  k : Vector (BitVec 1024) 8
  q : Vector (List LqEntry) 8
  w : Vector (List SqEntry) 4
deriving DecidableEq, Repr

/-- Vector state at reset: zero and empty (log 1). -/
def Vecs.reset : Vecs :=
  { v := Vector.replicate 128 0, k := Vector.replicate 8 0, q := Vector.replicate 8 [], w := Vector.replicate 4 [] }

/-- SF state (R293, R282, R285, R298, R360): bins, the histogram array, the seeds, SPCFG and SPCNT images, SFPATH, and
the images of transformed-mean table slots 1-7 (slot 0 unused, empty list for an empty slot). `laid` is
the spill area that a residue point has laid each bin over (R302). -/
structure SfState where
  b : Vector Bin 16
  h : Vector W32 256
  rseed : Vector W64 16
  spcfg : Vector W64 4
  spcnt : Vector W64 4
  path : BitVec 16
  depth : BitVec 3
  tab : Vector (List Byte) 8
  laid : Vector (Option Nat) 16
deriving DecidableEq, Repr

/-- SF state at reset; PATH, for which the manual gives no value, holds 0xF in every nibble (log 1). -/
def SfState.reset : SfState :=
  { b := Vector.replicate 16 Bin.zero, h := Vector.replicate 256 0, rseed := Vector.replicate 16 0
    spcfg := Vector.replicate 4 0, spcnt := Vector.replicate 4 0, path := 0xFFFF, depth := 0, tab := Vector.replicate 8 [],
    laid := Vector.replicate 16 none }

/-! ### Commands and the AP -/

/-- One axis of a dressing program (R173); `sw` is the swizzle (axis identity, modulus), `name` the axis's identity,
which stays with it through swaps. -/
structure Axis where
  ext : Nat
  core : Nat
  lo : Nat
  padded : Bool
  pad : Byte
  istr : Nat
  neg : Bool
  sw : Option (Nat × Nat)
  ostr : Option Nat
  name : Nat
deriving DecidableEq, Repr

/-- The dresser's loader (R173, R174): the axes so far, the product of the declared extents, whether a non-`axis`
instruction has been seen, how many `emit` words, and whether the program has been refused. -/
structure DressWork where
  axes : List Axis
  total : Nat
  closed : Bool
  emits : Nat
  names : Nat
  refused : Bool
deriving DecidableEq, Repr

/-- The loader before any instruction. -/
def DressWork.empty : DressWork :=
  { axes := [], total := 1, closed := false, emits := 0, names := 0, refused := false }

/-- A dresser slot that holds a program (R171). -/
structure DressSlot where
  world : World
  prog : DressWork
deriving DecidableEq, Repr

/-- A command in a queue (R79, R153, R162, R190): what it captured at issue. `ok` is the guard once resolved; `prog` the dresser slot
as bound at dispatch (R171).
`xtra` holds bytes that the AP read at issue (the descriptor of `coll`). -/
structure Command where
  id : Nat
  src : CmdSource
  target : Target
  fn : BitVec 7
  d : RegCode
  g : BitVec 4
  gs : Bool
  a : W64
  b : W64
  imm : BitVec 36
  geo : Vector W64 8
  world : World
  hnd : Bool
  pieces : List Piece
  xtra : List Byte
  tmshape : W64
  tab : List Byte
  ok : Option Bool
  prog : Option DressSlot
deriving DecidableEq, Repr

/-- A store that has been issued and has not left the AP's store queue (R150, R314): byte `i` belongs to virtual
address `va + i` and goes to the `i`-th physical address. `wq` names the store queue whose place a `qst` holds. -/
structure StoreOp where
  va : Nat
  asid : BitVec 16
  world : World
  wq : Option (Fin 4)
  cells : List Host.Cell
  use : Use := {}
deriving DecidableEq, Repr

/-- A line the AP holds from earlier loads (R313); `bad` has a bit for each 64-byte unit that was poisoned when the line
was taken (R188, R441). -/
structure HeldLine where
  va : Nat
  asid : BitVec 16
  pa : Nat
  data : Row
  bad : BitVec 2
deriving DecidableEq, Repr

/-- A TLB leaf (R189): `bits` is 16, 21 or 30. -/
structure TlbEntry where
  va : Nat
  bits : Nat
  asid : BitVec 16
  g : Bool
  w : Bool
  r : Bool
  excl : Bool
  world : World
  pa : Nat
deriving DecidableEq, Repr

/-- A walk-cache entry: the table that a walk reaches below level `lvl` for the prefix `va` (R189). -/
structure WalkEntry where
  root : Nat
  asid : BitVec 16
  lvl : Nat
  va : Nat
  base : Nat
deriving DecidableEq, Repr

/-- Why an AP stands halted (R191, R192): the fields of its fault record, and whether it has been posted. -/
structure ApFault where
  cause : Nat
  detail : Nat
  level : Nat
  needW : Bool
  va : W64
  inUi : Bool
  addr : Nat
  pitch : BitVec 10
  word : Nat
  posted : Bool
deriving DecidableEq, Repr

/-- A completion that its engine holds until the completion queue has room (R129): the record, the finished command if it
is one that a queue gave out, and the reply that it then writes, to the shadow bank when `intr` is set. -/
structure HeldDone where
  record : W64
  cmd : Option Nat
  d : RegCode
  intr : Bool
  v : W64
deriving DecidableEq, Repr

/-- The AP of a core (R144-R154, R129, R189). `stale` says that saved commands wait for their new translation (R199), `host`
is the word that waits for host memory, and `posted` says that a posted write has passed since the last flush read (R319). -/
structure ApState where
  geo : Vector W64 8
  storeQ : List StoreOp
  held : List HeldLine
  tlb : List TlbEntry
  walks : List WalkEntry
  fault : Option ApFault
  inUi : Bool
  uiPos : Pos
  uiBuf : Sparse (Option Unit32)
  uiepc : W64
  uien : Bool
  uiAddr : BitVec 58
  recs : List W64
  heldDone : List HeldDone
  stale : Bool
  apWrites : List (BitVec 10 × Nat)
  host : Option HostWait
  posted : Bool
deriving DecidableEq, Repr

/-- The AP at reset. -/
def ApState.reset : ApState :=
  { geo := Vector.replicate 8 0, storeQ := [], held := [], tlb := [], walks := [], fault := none, inUi := false
    uiPos := Pos.start 0, uiBuf := [], uiepc := 0, uien := false, uiAddr := 0, recs := [], heldDone := []
    stale := false, apWrites := [], host := none, posted := false }

/-! ### Traps and control registers -/

/-- The trap registers and handler state of a core (R122, R125). -/
structure TrapState where
  tcause : W64
  tinfo : W64
  ttick : W64
  handler : Bool
  stopped : Bool
  hpos : Pos
  hbuf : Sparse (Option Unit32)
  wdDone : Option Nat
deriving DecidableEq, Repr

/-- Trap state at reset. -/
def TrapState.reset : TrapState :=
  { tcause := 0, tinfo := 0, ttick := 0, handler := false, stopped := false, hpos := Pos.start 0, hbuf := []
    wdDone := none }

/-- The control registers of a core that are not listed elsewhere (R25, R41, R125, R168, R183, R221, R339, R347,
R438), and the fields of its active plane (R407). -/
structure Csrs where
  world : World
  priv : Bool
  strict : Bool
  dual : Bool
  wdcmp : W64
  teampos : W64
  tbase : W64
  ctxbase : W64
  tvec : W64
  drainlim : W32
  preq : Bool
  cvtstat : W64
  numstat : BitVec 5
  tmshape : W64
  collid : W64
  xlate : W64
  ueaddr : W64
  looptab : Vector (BitVec 16) 4
  ft : Vector W64 16
deriving DecidableEq, Repr

/-- Control registers at reset. -/
def Csrs.reset : Csrs :=
  { world := 0, priv := false, strict := false, dual := false, wdcmp := 0, teampos := 0, tbase := 0, ctxbase := 0
    tvec := 0, drainlim := 0, preq := false, cvtstat := 0, numstat := 0, tmshape := 0, collid := 0, xlate := 0
    ueaddr := 0, looptab := Vector.replicate 4 0, ft := Vector.replicate 16 0 }

/-- One core: its six streams in engine order, registers, pipes in progress, queues of commands, and its scratchpad
(R177), keyed by scratchpad address. `parityBad` marks ledge elements (by address / 4) and `vecBad` register quarters
(by 4 * code + quarter) whose parity fails (R433). `tick0` is the cluster clock at which the job's tick count read `tickHold` (R35); `aligned`
says that the count runs, `badCtx` that the resume found its context area wrong (R128). `busy` gives, per engine, the first tick at which its pipe is free again (R254). `hostIn` holds what
the requests of running commands bring, by command; `owed` the completions that wait for posted writes. -/
structure Core where
  streams : Vector Stream 6
  scal : Scal
  vec : Vecs
  bench : Bench
  sf : SfState
  ap : ApState
  trap : TrapState
  csr : Csrs
  latches : List Latch
  ops : List Op
  transits : List Transit
  busy : Vector Nat 6
  cmds : List Command
  running : List Command
  hostIn : List (Nat × List HostPart)
  owed : List Owed
  scratch : Sparse Byte
  parityBad : Sparse Bool
  vecBad : Sparse Bool
  aligned : Bool
  badCtx : Bool
  tick0 : Nat
  tickHold : Nat
  job : Option Nat
deriving DecidableEq, Repr

/-- A core at reset: no job, ledges zero (R447). -/
def Core.reset : Core :=
  { streams := Vector.replicate 6 Stream.absent, scal := Scal.reset, vec := Vecs.reset, bench := Bench.reset
    sf := SfState.reset, ap := ApState.reset, trap := TrapState.reset, csr := Csrs.reset, latches := [], ops := []
    transits := [], busy := Vector.replicate 6 0, cmds := [], running := [], hostIn := [], owed := []
    scratch := [], parityBad := [], vecBad := []
    aligned := false, badCtx := false, tick0 := 0, tickHold := 0, job := none }

/-! ### Clusters, faces and memory -/

/-- The freeze in progress (R40, R41): its cycles so far, its cycles since the last `tret`, and its first late operand
with the word that met it. -/
structure Freeze where
  cyc : Nat
  run : Nat
  kind : Nat
  eng : Engine
  core : Nat
  pitch : BitVec 10
  word : Nat
deriving DecidableEq, Repr

/-- One cluster (R35, R41, R171): the schedule clock as a count of advances, SLIP, FRZINFO, FRZLIM, the freeze in
progress, the dresser, and the world of the previous command of each shared unit (R162). `tried` says that the present
tick has been attempted before (R124); `turn` is the number among the eight copy queues, twice a core's number in the cluster
plus one for the AP, of the one that the copy engines took a head from last (R158). -/
structure Cluster where
  clk : Nat
  tried : Bool
  turn : Nat
  slip : W64
  frzinfo : W64
  frzlim : W32
  freeze : Option Freeze
  slots : Vector (Option DressSlot) 16
  work : DressWork
  lastWorld : List (Target × World)
deriving DecidableEq, Repr

/-- A cluster at reset. -/
def Cluster.reset : Cluster :=
  { clk := 0, tried := false, turn := 0, slip := 0, frzinfo := 0, frzlim := 0, freeze := none, slots := Vector.replicate 16 none
    work := DressWork.empty, lastWorld := [] }

/-- A line in the L2 level of a face (R313): its bytes, the mask of written bytes (zero for a clean copy), its world,
and the number of the key that it is encrypted under; `bad` has a bit for each 64-byte unit that was poisoned when the
copy was taken and has not been written whole since (R441). -/
structure L2Line where
  data : Row
  bad : BitVec 2
  dirty : BitVec 128
  world : World
  key : Nat
deriving DecidableEq, Repr

/-- Device memory (R179, R181, R433): HBM bytes as plaintext under the key of their line, the number of that key
(`Keys.past`) for each line, and the poisoned 64-byte units; and host memory as the host window sees it. -/
structure Memory where
  hbm : Sparse Byte
  lineKey : Sparse Nat
  poison : Sparse Bool
  host : Sparse Byte
deriving DecidableEq, Repr

/-! ### Jobs -/

/-- A configuration plane (R407), as its image gives it. -/
structure Plane where
  world : World
  strict : Bool
  priv : Bool
  dual : Bool
  drainlim : W32
  starts : Vector Nat 6
  looptab : Vector (BitVec 16) 4
  xlate : W64
  tbase : W64
  ctxbase : W64
  tvec : W64
  uiAddr : W64
  collid : W64
  spcfg : Vector W64 4
  ft : Vector W64 16
  bins : Vector Bin 16
  s : Vector W64 32
  a : Vector W64 32
  cairn : List (W64 × W64 × W64)
  tabs : Vector (List Byte) 8
  kernel : List W32
deriving DecidableEq, Repr

/-- A launch or swap entry as base camp has read it (R405, R408), its plane patched: the address of the entry, its index
in the ring or node array, its fields, and for a privileged plane the hash of its image (R426). -/
structure Entry where
  addr : Nat
  index : Nat
  tag : BitVec 16
  succ : List (BitVec 16)
  evq : Nat
  evlog : Nat
  plane : Plane
  hash : List Byte
deriving DecidableEq, Repr

/-- Where a job stands (R132-R135, R409). -/
inductive JobPhase where
  | loaded | running | suspending | suspended | saved | killed
deriving DecidableEq, Repr

/-- A core of a saved team, with the core and the cluster clock that it was saved at, whether all of R128 was written, and
the replies that have come for it since (R132, R133, R392). -/
structure SavedCore where
  core : Core
  from_ : CoreId
  whole : Bool
  late : List HeldDone
  clk : Nat
  slots : List (Nat × DressSlot)
deriving DecidableEq, Repr

/-- A resident or suspended job (R21-R23, R405-R413). `entry` is the address of its launch entry or node, `index` its
number in the ring or the node array, `replay` the replay it is a node of. `rdvs` counts the rendezvous retired; `save` says
that a forced save has been asked for and waits (R133, R357). -/
structure Job where
  id : Nat
  slot : Fin 256
  entry : Nat
  index : Nat
  replay : Option Nat
  plane : Plane
  team : List CoreId
  phase : JobPhase
  rdvs : Nat
  evq : Nat
  evlog : Nat
  evn : Nat
  tag : BitVec 16
  succ : List (BitVec 16)
  swap : Option Entry
  saved : List SavedCore
  maxTick : Nat
  eligible : Bool
  atFlip : Bool
  save : Bool
deriving DecidableEq, Repr

/-- A replay in progress (R410-R412): the node array, the dependence count of each node and whether it has been
dispatched or done, and the bound bank. -/
structure Replay where
  id : Nat
  slot : Fin 256
  entry : Nat
  index : Nat
  graph : Nat
  counts : List Nat
  sent : List Bool
  done : List Bool
  bank : Vector W64 64
  killed : Bool
  tag : BitVec 16
  succ : List (BitVec 16)
deriving DecidableEq, Repr

/-- A slot of base camp (R400, R401, R411). `lastQ` is the queue that the slot last held, none before it has held one. -/
structure Slot where
  qbase : W64
  mapped : Bool
  priv : Bool
  vf : BitVec 7
  band : BitVec 2
  tickets : BitVec 8
  qlog : BitVec 5
  head : W32
  tail : W32
  lastQ : Option Nat
  open_ : Vector W64 64
  other : Vector W64 64
  replays : Nat
deriving DecidableEq, Repr

/-- A slot at reset: unmapped, QLOG 4 (R400). -/
def Slot.reset : Slot :=
  { qbase := 0, mapped := false, priv := false, vf := 0, band := 0, tickets := 0, qlog := 4, head := 0, tail := 0
    lastQ := none, open_ := Vector.replicate 64 0, other := Vector.replicate 64 0, replays := 0 }

/-- A dispatch channel that a decision has taken (R402): the slot; the node when a replay's node won, the job when a suspended
team did; whether a swap did that its job's end has left as a launch (R408); and the entry as it stood at the decision: its
queue, its count, its index in the ring and its address. -/
structure Channel where
  slot : Fin 256
  node : Option (Nat × Nat)
  resume : Option Nat
  late : Bool
  queue : Nat
  head : W32
  index : Nat
  addr : Nat
deriving DecidableEq, Repr

/-- Base camp (R399-R412). `dep` holds the dependence counts that completions have lowered, keyed by the address of the entry;
`late` the swaps that their job's end leaves as launches (R408); `measured` the hashes of privileged planes launched so far
(R426). -/
structure Camp where
  slots : Vector Slot 256
  ages : Vector Nat 4
  seed : W32
  channels : List Channel
  replays : List Replay
  dep : List (Nat × Nat)
  late : List (Fin 256 × Entry)
  ready : Bool
  stopped : Bool
  nextJob : Nat
  measured : List Nat
deriving DecidableEq, Repr

/-! ### The system units -/

/-- The pending reply of a scrub word (R392): the core, the destination and its bank, the tag, and the issuing job. -/
structure ScrubReply where
  core : CoreId
  d : RegCode
  intr : Bool
  tag : BitVec 16
  job : Option Nat
deriving DecidableEq, Repr

/-- A recorded scrub (R391, R392): kind, the world, its operands, the steps done, and its pending reply. -/
structure Scrub where
  world : World
  kind : BitVec 2
  a : W64
  b : W64
  steps : Nat
  reply : ScrubReply
deriving DecidableEq, Repr

/-- The scrub engine and world assignment (R391-R396). `joins` are the pending replies of kind 3. -/
structure ScrubState where
  list : List Scrub
  active : Vector Bool 16
  total : Vector (BitVec 28) 16
  done : Vector (BitVec 28) 16
  joins : List (World × ScrubReply)
  cworld : Vector World 128
  refused : Vector Bool 128
deriving DecidableEq, Repr

/-- A loaded key slot (R417). -/
structure KeySlot where
  xts : BitVec 512
  ikey : BitVec 256
  prot : Bool
deriving DecidableEq, Repr

/-- The keys that a world writes lines under (R181, R420): its XTS key, none while its slot is empty, and where it is
protected the integrity key of its tags. -/
structure KeyRec where
  world : World
  xts : Option (BitVec 512)
  ikey : BitVec 256
  prot : Bool
deriving DecidableEq, Repr

/-- The key store (R417): `zeroed` marks worlds whose slot is empty after a zeroise or a failed unwrap (R188). `past`
lists the keys that have been in use; a place in it is the number that a line carries (the first is world 0's before
bring-up, the next fifteen are those of empty slots). -/
structure Keys where
  past : List KeyRec
  slots : Vector (Option KeySlot) 16
  zeroed : BitVec 16
  world0 : BitVec 768
  kslp : BitVec 768
  kimp : Vector (Option (BitVec 256)) 16
deriving DecidableEq, Repr

/-- An invalidate in the sequencer (R195-R197): from a command (core and id) or from the host. `sent` says that every
AP has received it, `gen` how many they had received before. -/
structure Inval where
  va : Nat
  len : Nat
  asid : BitVec 16
  hint : BitVec 2
  from_ : Option (CoreId × Nat)
  sent : Bool
  gen : Nat
deriving DecidableEq, Repr

/-- Fault queue, invalidate and notice registers (R193, R196, R448), the error ring (R437) and the package's record
counters; `gen` counts the invalidates that the APs have received; `failed` lists the types of the firmware images that failed their checks at bring-up (R425). -/
structure SysRegs where
  fqbase : W64
  fqsize : BitVec 5
  fqtail : W32
  fqhead : W32
  fseq : W32
  inva : W64
  invl : W64
  invAsid : BitVec 16
  invHint : BitVec 2
  invsub : W64
  invdone : W64
  invals : List Inval
  gen : Nat
  mgt : BitVec 7
  msgs : Nat
  errbase : W64
  errsize : BitVec 5
  errtail : W32
  errhead : W32
  errseq : W32
  errs : List (BitVec 256)
  cap : BitVec 12
  throt : Bool
  steps : Nat
  wattsRead : BitVec 16
  sysTraps : List CoreId
  failed : List Nat
deriving DecidableEq, Repr

/-- A unit that waits for its self-test (R439): unit code, instance, address, world; and the spares left. -/
structure Suspect where
  kind : BitVec 4
  inst : BitVec 8
  addr : W64
  world : World
  uncorr : Bool
deriving DecidableEq, Repr

/-- Repair state (R439, R440): suspects; the spares left, by kind, instance and the part of the instance that they belong to (an
HBM bank, a ledge); repairs in the repair store; disabled units. -/
structure Repair where
  suspects : List Suspect
  spares : List ((BitVec 4 × BitVec 8 × Nat) × Nat)
  store : List Suspect
  disabled : List (BitVec 4 × BitVec 8)
deriving DecidableEq, Repr

/-- A non-posted request without its completion (R198): the core, for a command its number, the access's place and
translation, and whether a completion is still accepted (R424). -/
structure Request where
  id : Nat
  core : CoreId
  cmd : Option Nat
  va : Nat
  len : Nat
  use : Use
  live : Bool
deriving DecidableEq, Repr

/-- A posted write of a command that waits before the tether's egress (R198, R422). -/
structure HeldWrite where
  core : CoreId
  cmd : Nat
  pkt : Packet
deriving DecidableEq, Repr

/-- A tether session (R421-R424). `opened` is the state of the SPDM exchange; keys are indexed by sub-stream, egress
then ingress. -/
structure Session where
  opened : Bool
  active : Bool
  rklog : BitVec 6
  world : World
  tagfail : BitVec 16
  rekeys : W32
  ctr : Vector W64 3
  rctr : Vector W64 3
  keys : Vector (BitVec 256) 6
  salts : Vector (BitVec 96) 6
  secret : Nat
  held : List HeldWrite
  outstanding : List Request
deriving DecidableEq, Repr

/-- A session at reset: inactive, RKLOG 32 (R423). -/
def Session.reset : Session :=
  { opened := false, active := false, rklog := 32, world := 0, tagfail := 0, rekeys := 0, ctr := Vector.replicate 3 0
    rctr := Vector.replicate 3 0, keys := Vector.replicate 6 0, salts := Vector.replicate 6 0, secret := 0
    held := [], outstanding := [] }

/-- The tether and the guide core's mailbox (R421-R427): sessions, TMO, packets sent, the next request's number, and the
mailbox's answers (by function). -/
structure Tether where
  sess : Vector Session 128
  tmo : W32
  out : List (Nat × Nat × Packet)
  nextReq : Nat
  mail : List (Nat × List Byte)
  meas : Vector (BitVec 256) 16
deriving DecidableEq, Repr

/-- Deep sleep (R428-R431): STATE in `st`, and in `phase` how many steps of an entry or a wake the guide core has done. `wrapped`
marks the worlds whose slots the entry wrapped, `wake` a wake that waits for the entry to finish. -/
structure Sleep where
  base : BitVec 40
  st : BitVec 2
  phase : Nat
  wake : Bool
  refused : Bool
  sealed : Bool
  wrapped : BitVec 16
deriving DecidableEq, Repr

/-! ### The fabric -/

/-- A rope port (R346, R365): `sent` is the replay buffer, `outq` what goes to the link, `asked` the flit that was last
asked for again and `tries` how often, `wantReplay` the flit that this end asks for; `wait` holds the messages that go to the
encoder next (R361). -/
structure Port where
  mode : BitVec 3
  up : Bool
  flitcrc : BitVec 24
  replay : BitVec 24
  screecrc : BitVec 16
  rawBytes : Nat
  encBytes : Nat
  rxSeq : BitVec 24
  txSeq : BitVec 24
  tries : Nat
  sent : List (List Byte)
  outq : List (List Byte)
  asked : BitVec 24
  wantReplay : Option (BitVec 24)
  wait : List Flit
deriving DecidableEq, Repr

/-- A port at reset. -/
def Port.reset : Port :=
  { mode := 0, up := false, flitcrc := 0, replay := 0, screecrc := 0, rawBytes := 0, encBytes := 0, rxSeq := 0
    txSeq := 0, tries := 0, sent := [], outq := [], asked := 0, wantReplay := none, wait := [] }

/-- A peer entry of the Ethernet transport (R367), and the transport's state toward it (R366): the next sequence numbers,
messages not yet answered, messages sent, and messages that a pause holds. -/
structure Peer where
  addr0 : W64
  addr1 : W64
  port : BitVec 2
  mac : BitVec 48
  valid : Bool
  rxSeq : BitVec 24
  txSeq : BitVec 24
  unacked : List Flit
  sent : List Flit
  wait : List Flit
  lost : Bool
deriving DecidableEq, Repr

/-- A peer entry at reset. -/
def Peer.reset : Peer :=
  { addr0 := 0, addr1 := 0, port := 0, mac := 0, valid := false, rxSeq := 0, txSeq := 0, unacked := [], sent := [], wait := [], lost := false }

/-- What the rank at a ring position over all axes has brought to a collective (R340, R355): what it announced (its
COLLID, its TMSHAPE, whether that is invalid, its descriptor image and table) and counted (R342), and the bytes of its messages
to this rank so far. -/
structure RemoteRank where
  cgrp : BitVec 16
  seq : W32
  pos : Nat
  ctl : List Byte
  data : List Byte
deriving DecidableEq, Repr

/-- A cairn class as a collective's first step binds it (R374, R389): the descriptor's words, the record size and the
kernel. -/
structure BoundClass where
  slot : Fin 16
  cls : Fin 8
  w0 : W64
  w1 : W64
  w2 : W64
  kernel : List W32
deriving DecidableEq, Repr

/-- A collective in the collective unit (R355-R357): the command that issued it here, whether it runs, which ranks'
done marks have come, whether this rank has written its outputs, its input as read at the first step, its own ring
position over all axes, the bound cairn classes, and the matched flits of each (class, flow) so far (R370). `msgs` counts the
messages that this rank has sent, and `cut` is the STATUS of one that has ended and waits for its cairn runs (R372). -/
structure Coll where
  id : Nat
  core : CoreId
  cmd : Command
  job : Nat
  running : Bool
  wrote : Bool
  marks : List Nat
  ranks : Nat
  own : Nat
  status : Nat
  input : List (Option Byte)
  classes : List BoundClass
  fseqs : List (Nat × W32)
  beyond : Bool
  msgs : Nat
  cut : Option Nat
deriving DecidableEq, Repr

/-- What a rank of a collective sends round the ring beside data (R356, R357): a done mark, or with a DETAIL an abort that the rank
raised. -/
structure RingNote where
  cgrp : BitVec 16
  seq : W32
  rank : Nat
  detail : Option Nat
deriving DecidableEq, Repr

/-- The fabric (R345-R367). `place` holds the package's torus coordinates and Ethernet rank, as COLLID lays them out; `ready` the
collectives whose last rank has arrived, in that order (R355); `told` the collectives, by group and sequence number, that this
rank has announced; `aborts` how many of their runs have been aborted; `notes` what it has sent round the rings; `marked` counts CE marks (R366). -/
structure Fabric where
  ports : Vector Port 24
  peers : Vector Peer 16
  paused : List (Fin 4 × Fin 8)
  remote : List RemoteRank
  colls : List Coll
  place : W64
  ready : List Nat
  told : List (BitVec 16 × W32)
  aborts : List ((BitVec 16 × W32) × Nat)
  notes : List RingNote
  marked : Nat
deriving DecidableEq, Repr

/-- A matched flit on its home core (R369-R371): its class as bound, the collective, flow and FSEQ, the flit, whether
it leaves the package (egress), and whether its collective has been aborted since. -/
structure Matched where
  k : BoundClass
  coll : Nat
  flow : Nat
  fseq : W32
  flit : Flit
  egress : Bool
  dead : Bool
deriving DecidableEq, Repr

/-- A repeat level of a run (R381): passes in all and done, the words of its body. -/
structure Rep where
  n : Nat
  idx : Nat
  first : Nat
  len : Nat
deriving DecidableEq, Repr

/-- A run of a cairn kernel (R376): the matched flit, the window, registers, masks, DROP, the next word, the active
repeats (innermost first), and whether the run has ended (and by which trap). -/
structure Run where
  m : Matched
  w : Vector W32 64
  e : Vector (Vector W32 16) 16
  msk : Vector (BitVec 16) 4
  drop : Bool
  pc : Nat
  reps : List Rep
  trap : Option Nat
deriving DecidableEq, Repr

/-- A class descriptor of a job slot (R374). -/
structure CairnClass where
  w0 : W64
  w1 : W64
  w2 : W64
  runs : W32
  traps : BitVec 16
  lost : BitVec 16
deriving DecidableEq, Repr

/-- An empty class. -/
def CairnClass.zero : CairnClass :=
  { w0 := 0, w1 := 0, w2 := 0, runs := 0, traps := 0, lost := 0 }

/-- A job slot of the switch (R373, R374). `world` is that of the job whose class table it holds last, which a teardown of the world
asks for. -/
structure CairnSlot where
  part : W64
  mask : W64
  classes : Vector CairnClass 8
  job : Option Nat
  world : World
deriving DecidableEq, Repr

/-- The cairn cores (R369-R386): the slots, flow-state memory (keyed by 32-bit word), its uncorrectable words, each
core's kernel store, and the queue and the run on each core. `writes` holds the writes of slot registers that wait for the
slot's runs to end (R373, R389): the slot, whether CAIRNMASK, and the value. -/
structure Cairn where
  slots : Vector CairnSlot 16
  flow : Sparse W32
  flowBad : Sparse Bool
  store : Vector (Sparse W32) 64
  queue : Vector (List Matched) 64
  run : Vector (Option Run) 64
  writes : List (Fin 16 × Bool × W64)
deriving DecidableEq, Repr

/-! ### The schedule, and the whole state -/

/-- An error of the hardware (R433): one that its check corrects, in a unit of HBM, a line of the L2 level, flow-state memory or a
lane of a link; or one that it does not, which marks the place as failing its check, or the bench's step as wrong. -/
inductive Strike where
  | symbol (pa : Nat)
  | poison (pa : Nat)
  | l2 (f : Fin 4) (pa : Nat) (fatal : Bool)
  | ledge (c : CoreId) (a : Nat)
  | file (c : CoreId) (key : Nat)
  | bench (c : CoreId)
  | flow (word : Nat) (fatal : Bool)
  | rope (p : Fin 24) (lane : Nat)
  | tether (lane : Nat)
deriving DecidableEq, Repr

/-- What happens next. The order of these moves is the outside world's and the arbitration's choice (R52): an engine
issues its next word, a cairn core or a dresser runs its next word, or an event of the opcode table befalls; a forced save that has
been escalated to, or held back, takes place (R133, R357); an AP reads a line ahead (R313); the guide core takes the next step of a sleep entry or a wake (R429, R431); an error strikes (R433). -/
inductive Move where
  | word (c : CoreId) (e : Engine)
  | cairn (k : Fin 64)
  | dress (k : ClusterId) (w : W64)
  | event (i : Instr)
  | save (job : Nat)
  | ahead (c : CoreId) (va : Nat)
  | guide
  | strike (x : Strike)
deriving DecidableEq, Repr

/-- Who issues the word that `exec` gives its meaning to. -/
inductive Issuer where
  | eng (c : CoreId) (e : Engine)
  | cairn (k : Fin 64)
  | dress (k : ClusterId)
deriving DecidableEq, Repr

/-- The state of the package. `regq` holds stores that have reached the register region within a step and take effect
before it ends. `free` counts the free values drawn (log 3); `sched` is the schedule (log 2). -/
structure State where
  cores : Vector Core 128
  clusters : Vector Cluster 32
  l2 : Vector (Sparse (Option L2Line)) 4
  mem : Memory
  jobs : List Job
  camp : Camp
  scrub : ScrubState
  keys : Keys
  sys : SysRegs
  repair : Repair
  tether : Tether
  sleep : Sleep
  fabric : Fabric
  cairn : Cairn
  issuer : Issuer
  regq : List (Nat × List Byte)
  sched : List Move
  free : Nat
  nextId : Nat
deriving DecidableEq, Repr

/-- The keys of the sixteen worlds with no slot loaded and a given world 0 key. -/
def emptyKeys (k : BitVec 512) : List KeyRec :=
  { world := 0, xts := some k, ikey := 0, prot := false }
    :: (List.range 15).map fun i => { world := BitVec.ofNat 4 (i + 1), xts := none, ikey := 0, prot := false }

/-- The package right after the reset pin (R447, R449): every register at the reset value of its field map, memory
with nothing listed, no key slot loaded. BCSEED, the world 0 key and KSLP are random (R404, R415, R428): the model
takes free values for them (log 5). READY is not set yet: bring-up is the event COLD_RESET (log 12). -/
def State.reset : State :=
  { cores := Vector.replicate 128 Core.reset
    clusters := Vector.replicate 32 Cluster.reset
    l2 := Vector.replicate 4 []
    mem := { hbm := [], lineKey := [], poison := [], host := [] }
    jobs := []
    camp := { slots := Vector.replicate 256 Slot.reset, ages := Vector.replicate 4 0, seed := Config.seed 0
              channels := [], replays := [], dep := [], late := [], ready := false, stopped := false, nextJob := 0, measured := [] }
    scrub := { list := [], active := Vector.replicate 16 false, total := Vector.replicate 16 0
               done := Vector.replicate 16 0, joins := [], cworld := Vector.replicate 128 0
               refused := Vector.replicate 128 false }
    keys := { past := emptyKeys 0, slots := Vector.replicate 16 none, zeroed := 0, world0 := 0, kslp := 0
              kimp := Vector.replicate 16 none }
    sys := { fqbase := 0, fqsize := 4, fqtail := 0, fqhead := 0, fseq := 0, inva := 0, invl := 0, invAsid := 0
             invHint := 0, invsub := 0, invdone := 0, invals := [], gen := 0, mgt := 0, msgs := 0, errbase := 0, errsize := 4
             errtail := 0, errhead := 0, errseq := 0, errs := [], cap := 2800, throt := false, steps := 0
             wattsRead := 0, sysTraps := [], failed := [] }
    repair := { suspects := [], spares := [], store := [], disabled := [] }
    tether := { sess := Vector.replicate 128 Session.reset, tmo := 10000, out := [], nextReq := 0, mail := []
                meas := Vector.replicate 16 0 }
    sleep := { base := 0, st := 0, phase := 0, wake := false, refused := false, sealed := false, wrapped := 0 }
    fabric := { ports := Vector.replicate 24 Port.reset, peers := Vector.replicate 16 Peer.reset, paused := []
                remote := [], colls := [], place := 0, ready := [], told := [], aborts := [], notes := [], marked := 0 }
    cairn := { slots := Vector.replicate 16 { part := 0, mask := 0
                                              classes := Vector.replicate 8 CairnClass.zero, job := none, world := 0 }
               flow := [], flowBad := [], store := Vector.replicate 64 [], queue := Vector.replicate 64 []
               run := Vector.replicate 64 none, writes := [] }
    issuer := .eng 0 .lead
    regq := []
    sched := []
    free := 0
    nextId := 0 }

/-- Why a step stops the machine with a fault. The manual gives every case an effect: what it calls a fault or a trap of
an engine is state, and the machine goes on. So no step stops with a fault, and the type has no constructor. -/
inductive Fault where
deriving DecidableEq, Repr

/-- Why an instruction has no meaning. -/
inductive Refusal where
  /-- The instruction is not modelled yet. Raised by an arm of `exec` only. Safe: the run stops. -/
  | notModelled (mnemonic : String)
deriving DecidableEq, Repr

/-- The three outcomes of a step of this machine. -/
abbrev Result := Host.Outcome State Fault Refusal

end Sys2Proof.Machine
end

