-- ==== Sys2Proof/Machine/Phys.lean ====
section
/-! DEFINITION. Places of the state by number, and physical memory: HBM under its keys, the L2 levels of the four faces,
and host memory (R179-R182, R311-R318). Bytes are held as the plaintext of the key their line was written under; a read
under another key returns the free line of `Config.wrongKey`, or fails its integrity check (R181). -/

namespace Sys2Proof.Machine

/-! ### Places by number -/

/-- Entry `i` of a vector, or `d` beyond its end. -/
def vget {α : Type} {n : Nat} (v : Vector α n) (i : Nat) (d : α) : α := v[i]?.getD d

/-- The vector with entry `i` replaced; unchanged beyond its end. -/
def vset {α : Type} {n : Nat} (v : Vector α n) (i : Nat) (x : α) : Vector α n := v.setIfInBounds i x

/-- A core of the package. -/
def State.core (s : State) (c : CoreId) : Core := s.cores[c]

/-- The state with a core replaced. -/
def State.setCore (s : State) (c : CoreId) (x : Core) : State := { s with cores := s.cores.set c x }

/-- The state with a core changed. -/
def State.modCore (s : State) (c : CoreId) (f : Core → Core) : State := s.setCore c (f (s.core c))

/-- A cluster of the package. -/
def State.cluster (s : State) (k : ClusterId) : Cluster := s.clusters[k]

/-- The state with a cluster replaced. -/
def State.setCluster (s : State) (k : ClusterId) (x : Cluster) : State := { s with clusters := s.clusters.set k x }

/-- The state with a cluster changed. -/
def State.modCluster (s : State) (k : ClusterId) (f : Cluster → Cluster) : State := s.setCluster k (f (s.cluster k))

/-- A core by a number modulo the package's 128. -/
def coreOf (n : Nat) : CoreId := Fin.ofNat 128 n

/-- The engine's place in the vectors of a core. -/
def engIdx (e : Engine) : Fin 6 :=
  match e with
  | .lead => 0 | .ap => 1 | .mx => 2 | .va => 3 | .vb => 4 | .sf => 5

/-- The engine with a code. -/
def engineOf (n : Nat) : Engine :=
  match n with
  | 0 => .lead | 1 => .ap | 2 => .mx | 3 => .va | 4 => .vb | _ => .sf

/-- An engine's stream. -/
def Core.stream (x : Core) (e : Engine) : Stream := x.streams[engIdx e]

/-- A core with an engine's stream changed. -/
def Core.modStream (x : Core) (e : Engine) (f : Stream → Stream) : Core :=
  { x with streams := x.streams.set (engIdx e) (f (x.stream e)) }

/-- A fresh value of 64 bits, and the state with the counter advanced (log 3). -/
def State.fresh (s : State) : W64 × State := (Config.freeWord s.free, { s with free := s.free + 1 })

/-- Is the package in recovery: has its guide firmware failed its checks (R425)? -/
def recovery (s : State) : Bool := s.sys.failed.contains 1

/-- Is the package neither asleep nor in recovery, so that it answers on every port (R425, R431)? -/
def powered (s : State) : Bool := decide (s.sleep.st ≠ 3) && !(decide (s.sleep.st = 2) && decide (s.sleep.phase = 0)) && !recovery s

/-! ### Keys and protection -/

/-- The keys that a world writes lines under now: world 0's, or those in its slot (R417). -/
def keyRec (k : Keys) (w : World) : KeyRec :=
  if w = 0 then { world := 0, xts := some (k.world0.extractLsb' 0 512), ikey := 0, prot := false }
  else match vget k.slots w.toNat none with
    | some x => { world := w, xts := some x.xts, ikey := x.ikey, prot := x.prot }
    | none => { world := w, xts := none, ikey := 0, prot := false }

/-- The place of some keys in the list of keys in use, or the list's length. -/
def keyIndex (k : KeyRec) : List KeyRec → Nat
  | [] => 0
  | x :: r => if x = k then 0 else keyIndex k r + 1

/-- The number of the keys of a world. -/
def keyNum (s : State) (w : World) : Nat := keyIndex (keyRec s.keys w) s.keys.past

/-- The keys with a number. -/
def keyAt (s : State) (n : Nat) : KeyRec := s.keys.past.getD n { world := 0, xts := none, ikey := 0, prot := false }

/-- The key store with the present keys of a world among those in use. -/
def useKeys (w : World) (k : Keys) : Keys :=
  { k with past := if k.past.contains (keyRec k w) then k.past else k.past ++ [keyRec k w] }

/-- Is a world protected (R416)? -/
def protWorld (s : State) (w : World) : Bool :=
  match vget s.keys.slots w.toNat none with
  | some k => k.prot && decide (w ≠ 0)
  | none => false

/-! ### The canonical form of memory -/

/-- Memory in its one canonical form: in each table the keys rise strictly, and no listed value is what an unlisted key
reads as (zero bytes, key number 0, no poison). -/
def Memory.wf (m : Memory) : Bool := swf 0 m.hbm && swf 0 m.lineKey && swf false m.poison && swf 0 m.host

/-! ### HBM lines -/

/-- Byte `i` of a line. -/
def rowByte (r : Row) (i : Nat) : Byte := r.extractLsb' (8 * i) 8

/-- A line from its bytes. -/
def rowOf (l : List Byte) : Row := bvOfBytes 1024 l

/-- The 128 bytes of a line. -/
def rowBytes (r : Row) : List Byte := bytesOfNat 128 r.toNat

/-- The plaintext of a line at the HBM controller, as its own key gives it. -/
def hbmRow (s : State) (line : Nat) : Row := rowOf (sgets 0 s.mem.hbm (128 * line) 128)

/-- Does the tag of a line written under keys `w` pass the check of a reader with keys `r` (R420)? A reader that is not
protected checks none. -/
def tagPasses (r w : KeyRec) : Bool :=
  !r.prot || (w.prot && decide (w.ikey = r.ikey) && decide (w.world = r.world))

/-- A line at the HBM controller as world `v` reads it, and whether its integrity check fails (R181, R420). -/
def hbmLineFor (s : State) (v : World) (line : Nat) : Row × Bool :=
  if sget 0 s.mem.lineKey line = keyNum s v then (hbmRow s line, false)
  else
    let r := keyRec s.keys v
    let w := keyAt s (sget 0 s.mem.lineKey line)
    (if r.xts.isSome ∧ r.xts = w.xts then hbmRow s line else Config.wrongKey r.xts w.xts line (hbmRow s line)
      , !tagPasses r w)

/-- Is a 64-byte unit of the range poisoned (R433)? -/
def poisonedUnits (m : Sparse Bool) : Nat → Nat → Bool
  | _, 0 => false
  | u, n + 1 => sget false m u || poisonedUnits m (u + 1) n

/-- Does the range of `n` bytes meet a poisoned unit? -/
def poisoned (s : State) (pa n : Nat) : Bool :=
  poisonedUnits s.mem.poison (pa / 64) (if n = 0 then 0 else (pa + n - 1) / 64 - pa / 64 + 1)

/-- The line made the property of world `v` at the HBM controller: when another key wrote it, its bytes become what
`v`'s decryption gives, or zero where `v`'s integrity check fails (R181). -/
def claimLine (s : State) (v : World) (line : Nat) : State :=
  if sget 0 s.mem.lineKey line = keyNum s v then s
  else
    let (r, bad) := hbmLineFor s v line
    { s with mem := { s.mem with
        hbm := sputs 0 s.mem.hbm (128 * line) (if bad then List.replicate 128 0 else rowBytes r)
        lineKey := sput 0 s.mem.lineKey line (keyNum s v) } }

/-- Does a list of cells cover a 64-byte unit from end to end, in whatever order (R441)? -/
def coversUnit (cells : List Host.Cell) (u : Nat) : Bool := (List.range 64).all fun i => cells.any fun c => decide (c.1 = 64 * u + i)

/-- The poison of units written whole is cleared (R441). -/
def clearPoison (cells : List Host.Cell) (s : State) : State :=
  { s with mem := { s.mem with poison := s.mem.poison.filter fun e => !coversUnit cells e.1 } }

/-- Bytes stored at the HBM controller under world `v`. -/
def hbmStore (v : World) : List Host.Cell → State → State
  | [], s => s
  | (a, b) :: r, s =>
    let s := claimLine s v (a / 128)
    hbmStore v r { s with mem := { s.mem with hbm := sput 0 s.mem.hbm a b } }

/-- Bytes written at the HBM controller under world `v`: stored, with new check codes where a unit is covered whole. -/
def hbmPut (v : World) (cells : List Host.Cell) (s : State) : State := clearPoison cells (hbmStore v cells s)

/-! ### The L2 level of a face -/

/-- The line that a face holds. -/
def l2Get (s : State) (f : Fin 4) (line : Nat) : Option L2Line := sget none s.l2[f] line

/-- The state with a face's line replaced or removed. -/
def l2Put (s : State) (f : Fin 4) (line : Nat) (x : Option L2Line) : State :=
  { s with l2 := s.l2.set f (sput none s.l2[f] line x) }

/-- The written bytes of a line, with their addresses. -/
def dirtyCells (line : Nat) (x : L2Line) : List Host.Cell :=
  (List.range 128).filterMap fun i => if x.dirty.getLsbD i then some (128 * line + i, rowByte x.data i) else none

/-- The poisoned units of a line at the HBM controller. -/
def hbmBad (s : State) (line : Nat) : BitVec 2 :=
  BitVec.ofBool (sget false s.mem.poison (2 * line + 1)) ++ BitVec.ofBool (sget false s.mem.poison (2 * line))

/-- The units of a line that a mask of bytes covers whole. -/
def wholeMask (m : BitVec 128) : BitVec 2 :=
  BitVec.ofBool (decide (m.extractLsb' 64 64 = BitVec.allOnes 64)) ++ BitVec.ofBool (decide (m.extractLsb' 0 64 = BitVec.allOnes 64))

/-- The bytes of the units of a line that a mask of units leaves out. -/
def soundBytes (bad : BitVec 2) : BitVec 128 :=
  (if bad.getLsbD 1 then 0 else BitVec.allOnes 64) ++ (if bad.getLsbD 0 then 0 else BitVec.allOnes 64)

/-- The units of a face's copy that a read finds uncorrectable (R188, R441). -/
def copyBad (x : L2Line) : BitVec 2 := x.bad &&& ~~~wholeMask x.dirty

/-- A dirty line's bytes written to its HBM controller; the copy stays, clean. A line of a world whose slot is empty is
not written (R390). -/
def writeBack (s : State) (f : Fin 4) (line : Nat) : State :=
  match l2Get s f line with
  | none => s
  | some x =>
    if x.dirty = 0 then s
    else if x.key ≠ keyNum s x.world then l2Put s f line none
    else l2Put (hbmPut x.world (dirtyCells line x) s) f line (some { x with dirty := 0, bad := copyBad x })

/-- A line of a face evicted (R314). -/
def evictLine (s : State) (f : Fin 4) (line : Nat) : State := l2Put (writeBack s f line) f line none

/-- A clean copy of a line as world `v` takes it from the HBM controller. -/
def cleanCopy (s : State) (v : World) (line : Nat) (r : Row) : L2Line :=
  { data := r, bad := hbmBad s line, dirty := 0, world := v, key := keyNum s v }

/-- A face's line filled from the HBM controller for world `v`; a line that fails its integrity check is not kept. -/
def l2Fill (s : State) (f : Fin 4) (v : World) (line : Nat) : Row × Bool × State :=
  let (r, bad) := hbmLineFor s v line
  (r, bad, if bad then s else l2Put s f line (some (cleanCopy s v line r)))

/-- A face's line as world `v` reads it, filled from the HBM controller where the face holds none or holds another
world's (R181, R315): the line, whether its integrity check fails, and the state with the line held. -/
def l2Read (s : State) (f : Fin 4) (v : World) (line : Nat) : Row × Bool × State :=
  match l2Get s f line with
  | some x => if x.key = keyNum s v then (x.data, false, s) else l2Fill (evictLine s f line) f v line
  | none => l2Fill s f v line

/-- A byte written to a face's line under world `v`: the line is filled as a read through `v` fills it, then the byte is
dirty. A line of another key is taken over whole: every byte is dirty, and zero where the fill failed its check
(R181). -/
def l2WriteByte (s : State) (f : Fin 4) (v : World) (a : Nat) (b : Byte) : State :=
  let line := a / 128
  let other := decide (sget 0 s.mem.lineKey line ≠ keyNum s v) && decide (((l2Get s f line).map fun x => x.key) ≠ some (keyNum s v))
  let (r, bad, s) := l2Read s f v line
  let cur := (l2Get s f line).getD (cleanCopy s v line (if bad then 0 else r))
  let i := a % 128
  l2Put s f line (some { cur with
    data := setSlice (if bad then 0 else cur.data) (8 * i) b
    dirty := (if other then soundBytes cur.bad else cur.dirty) ||| (1 <<< i) })

/-- Bytes written to a face. -/
def l2Write (f : Fin 4) (v : World) : List Host.Cell → State → State
  | [], s => s
  | (a, b) :: r, s => l2Write f v r (l2WriteByte s f v a b)

/-- The lines a face holds. -/
def l2Lines (s : State) (f : Fin 4) : List Nat := s.l2[f].map Prod.fst

/-- Does a byte of HBM, read through a face, lie in an uncorrectable unit: of the face's copy, or where there is none of
the HBM controller's line (R433, R441)? -/
def poisonSeen (s : State) (f : Fin 4) (pa : Nat) : Bool :=
  (match l2Get s f (pa / 128) with
    | some x => copyBad x
    | none => hbmBad s (pa / 128)).getLsbD (pa / 64 % 2)

/-- Every dirty line of world `v` in a face written back: the release of R318. -/
def releaseFace (f : Fin 4) (v : World) (s : State) : State :=
  (l2Lines s f).foldl (fun s line =>
    match l2Get s f line with
    | some x => if x.world = v then writeBack s f line else s
    | none => s) s

/-- A line with the bytes of `a` where a mask has ones, and those of `b` elsewhere. -/
def mergeRow (m : BitVec 128) (a b : Row) : Row := rowOf ((List.range 128).map fun i => rowByte (if m.getLsbD i then a else b) i)

/-- The unwritten bytes of a face's dirty line taken afresh from the HBM controller; a line that fails its integrity check
is evicted. -/
def refreshCopy (s : State) (f : Fin 4) (line : Nat) (x : L2Line) : State :=
  if (hbmLineFor s x.world line).2 then evictLine s f line
  else l2Put s f line (some { x with data := mergeRow x.dirty x.data (hbmLineFor s x.world line).1, bad := hbmBad s line })

/-- Every clean line of world `v` in a face discarded, part of the acquire of R318: what a dirty line holds of clean bytes is
discarded too, so that they read as the HBM controller has them. -/
def discardClean (f : Fin 4) (v : World) (s : State) : State :=
  (l2Lines s f).foldl (fun s line =>
    match l2Get s f line with
    | some x =>
      if x.world ≠ v then s
      else if x.dirty = 0 then l2Put s f line none
      else if x.key = keyNum s v then refreshCopy s f line x else s
    | none => s) s

/-- Every line of world `v` in a face discarded without being written back (R391). -/
def dropWorldLines (f : Fin 4) (v : World) (s : State) : State :=
  (l2Lines s f).foldl (fun s line =>
    match l2Get s f line with
    | some x => if x.world = v then l2Put s f line none else s
    | none => s) s

/-- Held lines of a face's APs over a physical line removed (R316). -/
def dropHeld (f : Fin 4) (line : Nat) (s : State) : State :=
  { s with cores := s.cores.mapFinIdx fun i x _ =>
      if i / 32 = f.val then { x with ap := { x.ap with held := x.ap.held.filter fun h => decide (h.pa / 128 ≠ line) } }
      else x }

/-! ### Untimed engines (R316) -/

/-- A line read by an untimed engine of a face under world `v`, without filling the face: its bytes, whether its integrity
check fails, and its uncorrectable units. -/
def lineForEngine (s : State) (f : Fin 4) (v : World) (line : Nat) : Row × Bool × BitVec 2 :=
  let (own, s) := match l2Get s f line with
    | some x => if x.key = keyNum s v then (some x, s) else (none, writeBack s f line)
    | none => (none, s)
  match own with
  | some x => (x.data, false, copyBad x)
  | none =>
    let (r, bad) := hbmLineFor s v line
    (r, bad, hbmBad s line)

/-- One byte of device or host memory as an untimed engine reads it: none where it is uncorrectable or fails its
integrity check (R160), or lies in the register region (log 56). -/
def engineByte (s : State) (f : Fin 4) (v : World) (pa : Nat) : Option Byte :=
  if inHost pa then some (sget 0 s.mem.host (pa - 0x8_0000_0000_0000))
  else if inHbm pa 1 then
    let (r, bad, units) := lineForEngine s f v (pa / 128)
    if bad || units.getLsbD (pa / 64 % 2) then none else some (rowByte r (pa % 128))
  else none

/-- `n` bytes from a physical address. -/
def engineBytes (s : State) (f : Fin 4) (v : World) (pa : Nat) : Nat → List (Option Byte)
  | 0 => []
  | n + 1 => engineByte s f v pa :: engineBytes s f v (pa + 1) n

/-- One byte written by an untimed engine of a face under world `v`: at the HBM controller, in every copy of the line
that the face holds, and out of the held lines of the face's APs; or in host memory (R316, R182). A write elsewhere, to the register
region too, is discarded (log 56). -/
def enginePut (f : Fin 4) (v : World) (a : Nat) (b : Byte) (s : State) : State :=
  if inHost a then { s with mem := { s.mem with host := sput 0 s.mem.host (a - 0x8_0000_0000_0000) b } }
  else if inHbm a 1 then
    let line := a / 128
    let s := match l2Get s f line with
      | some x => if x.key = keyNum s v then s else evictLine s f line
      | none => s
    let s := hbmPut v [(a, b)] s
    let s := match l2Get s f line with
      | some x => l2Put s f line (some { x with data := setSlice x.data (8 * (a % 128)) b })
      | none => s
    dropHeld f line s
  else s

/-- Bytes written by an untimed engine, one after another. -/
def engineStores (f : Fin 4) (v : World) : List Host.Cell → State → State
  | [], s => s
  | (a, b) :: r, s => engineStores f v r (enginePut f v a b s)

/-- The lines of a face with an uncorrectable unit. -/
def badLines (s : State) (f : Fin 4) : List Nat :=
  (s.l2[f].filter fun e => match e.2 with
    | some x => decide (x.bad ≠ 0)
    | none => false).map Prod.fst

/-- The units of a face's copy that some cells cover whole are sound again (R441). -/
def soundLine (f : Fin 4) (cells : List Host.Cell) (s : State) (line : Nat) : State :=
  match l2Get s f line with
  | some x => l2Put s f line (some { x with
      bad := x.bad &&& ~~~(BitVec.ofBool (coversUnit cells (2 * line + 1)) ++ BitVec.ofBool (coversUnit cells (2 * line))) })
  | none => s

/-- Bytes written by an untimed engine: units covered whole are sound again, at the HBM controller and in the face's
copies (R316, R441). -/
def enginePuts (f : Fin 4) (v : World) (cells : List Host.Cell) (s : State) : State :=
  let dev := cells.filter fun c => inHbm c.1 1
  let s := clearPoison dev (engineStores f v cells s)
  (badLines s f).foldl (soundLine f dev) s

/-- Consecutive cells from an address. -/
def cellsAt (a : Nat) (l : List Byte) : List Host.Cell := (List.range l.length).map (a + ·) |>.zip l

/-- The lines from `lo` to `hi` of every face evicted. -/
def evictLines (lo hi : Nat) (s : State) : State :=
  ([0, 1, 2, 3] : List (Fin 4)).foldl (fun s f =>
    ((l2Lines s f).filter fun l => decide (lo ≤ l) && decide (l ≤ hi)).foldl (fun s l => evictLine s f l) s) s

/-- The lines from `lo`, `n` of them, made the property of world `v`. -/
def claimLines (v : World) : Nat → Nat → State → State
  | _, 0, s => s
  | lo, n + 1, s => claimLines v (lo + 1) n (claimLine s v lo)

/-- `n` bytes of HBM from address `a` written by a unit of the package at package scope under world `v`, and out of every
face's copy of the lines: `m` lists the bytes that are not zero, by their offset. Units covered whole are sound again
(R441). -/
def deviceBlock (v : World) (a n : Nat) (m : Sparse Byte) (s : State) : State :=
  if n = 0 then s
  else
    let lo := a / 128
    let hi := (a + n - 1) / 128
    let s := claimLines v lo (hi - lo + 1) (evictLines lo hi s)
    { s with mem := { s.mem with
        hbm := (s.mem.hbm.filter fun e => decide (e.1 < a))
          ++ (m.filter fun e => decide (e.1 < n)).map (fun e => (a + e.1, e.2))
          ++ s.mem.hbm.filter fun e => decide (a + n ≤ e.1)
        poison := s.mem.poison.filter fun e => !(decide (a ≤ 64 * e.1) && decide (64 * e.1 + 64 ≤ a + n)) } }

/-- A record written by a unit of the package at package scope under world `v` (trap frames, launch and fault records):
straight to HBM or to the host. A record for an address that nothing reaches is lost. -/
def devicePut (v : World) (a : Nat) (l : List Byte) (s : State) : State :=
  if inHost a then { s with mem := { s.mem with host := sputs 0 s.mem.host (a - 0x8_0000_0000_0000) l } }
  else if inHbm a l.length then deviceBlock v a l.length (slist 0 0 l) s
  else s

/-- Bytes that a unit of the package reads at package scope under world `v`. -/
def deviceBytes (s : State) (v : World) (a : Nat) : Nat → List Byte
  | 0 => []
  | n + 1 =>
    (if inHost a then sget 0 s.mem.host (a - 0x8_0000_0000_0000)
     else rowByte (hbmLineFor s v (a / 128)).1 (a % 128)) :: deviceBytes s v (a + 1) n

/-- A little-endian word read by a unit of the package. -/
def deviceWord (s : State) (v : World) (a : Nat) : W64 := bvOfBytes 64 (deviceBytes s v a 8)

/-! ### Scratchpads (R177) -/

/-- A row of the scratchpad, by row number (ledge * 1,024 + row). -/
def spadRow (x : Core) (r : Nat) : Row := rowOf (sgets 0 x.scratch (128 * r) 128)

/-- The scratchpad with bytes stored from an address; an element written whole has good parity again (R433). -/
def spadPut (x : Core) (a : Nat) (l : List Byte) : Core :=
  { x with
    scratch := sputs 0 x.scratch a l
    parityBad := if x.parityBad.isEmpty then []
      else x.parityBad.filter fun e => !(decide (a ≤ 4 * e.1) && decide (4 * e.1 + 4 ≤ a + l.length)) }

/-- `n` bytes of the scratchpad as a command's fill port reads them: none where the parity fails (R433). -/
def spadSeen (x : Core) (a n : Nat) : List (Option Byte) :=
  if x.parityBad.isEmpty then (sgets 0 x.scratch a n).map some
  else (sgets 0 x.scratch a n).mapIdx fun i b => if sget false x.parityBad ((a + i) / 4) then none else some b

/-- The scratchpad address of the first element of `n` bytes whose parity fails (R433). -/
def badLedge (x : Core) (a n : Nat) : Option Nat :=
  if x.parityBad.isEmpty then none
  else ((List.range n).find? fun i => sget false x.parityBad ((a + i) / 4)).map fun i => (a + i) / 4 * 4

/-- `n` bytes of the scratchpad. -/
def spadGet (x : Core) (a n : Nat) : List Byte := sgets 0 x.scratch a n

/-- The `k`-th row of a run of rows from scratchpad row `r`, wrapping within the ledge (R49). -/
def ledgeRow (r k : Nat) : Nat := r / 1024 * 1024 + (r % 1024 + k) % 1024

end Sys2Proof.Machine
end

