-- ==== Sys2Proof/Machine/Dresser.lean ====
section
/-! DEFINITION. The cluster dresser: its loader's instructions, the refusals, and how a program places a stream
(R139, R171-R175). -/

namespace Sys2Proof.Machine

/-- A refused program. -/
def refuse (w : DressWork) : DressWork := { w with refused := true }

/-- The loader past its declarations; a word after an `emit` that is none is refused (R174). -/
def closeAxes (w : DressWork) : DressWork :=
  if w.emits ≠ 0 then refuse { w with closed := true } else { w with closed := true }

/-- Refusals that hold at every point: more than six axes, an extent above 65,536 (R174). -/
def checkAxes (w : DressWork) : DressWork :=
  if 6 < w.axes.length || w.axes.any fun a => decide (65536 < a.ext) then refuse w else w

/-- A plain axis: no pad, reversal or swizzle (R173, R174). -/
def plainAxis (a : Axis) : Bool := !a.padded && !a.neg && a.sw.isNone

/-- A fresh axis (R173). -/
def newAxis (name ext istr : Nat) : Axis :=
  { ext, core := ext, lo := 0, padded := false, pad := 0, istr, neg := false, sw := none, ostr := none, name }

/-- Does a swizzle of some axis refer to the axis (R174)? -/
def referred (w : DressWork) (name : Nat) : Bool :=
  w.axes.any fun a => match a.sw with
    | some (n, _) => decide (n = name)
    | none => false

/-- The list with the entry at `i` replaced by others. -/
def spliceAt {α : Type} (l : List α) (i n : Nat) (r : List α) : List α := l.take i ++ r ++ l.drop (i + n)

/-- axis d, n (R173): declared axes come first, in order; earlier strides grow by the new extent. -/
def dressAxis (d : BitVec 4) (n : BitVec 16) (w : DressWork) : DressWork :=
  let ext := n.toNat + 1
  if w.closed || decide (d.toNat ≠ w.axes.length) || decide (5 < d.toNat) then refuse w
  else
    let w' : DressWork := { w with
      axes := w.axes.map (fun a => { a with istr := a.istr * ext }) ++ [newAxis w.names ext 1]
      total := w.total * ext, names := w.names + 1 }
    checkAxes (if 2 ^ 24 < w'.total then refuse w' else w')

/-- split c, n (R173). -/
def dressSplit (c : BitVec 4) (n : BitVec 16) (w0 : DressWork) : DressWork :=
  let w := closeAxes w0
  let ext := n.toNat + 1
  match w.axes[c.toNat]? with
  | none => refuse w
  | some a =>
    if plainAxis a && decide (a.ext % ext = 0) && !referred w a.name then
      checkAxes { w with
        axes := spliceAt w.axes c.toNat 1 [newAxis w.names (a.ext / ext) (a.istr * ext), newAxis (w.names + 1) ext a.istr]
        names := w.names + 2 }
    else refuse w

/-- join c (R173). -/
def dressJoin (c : BitVec 4) (w0 : DressWork) : DressWork :=
  let w := closeAxes w0
  match w.axes[c.toNat]?, w.axes[c.toNat + 1]? with
  | some a, some b =>
    if plainAxis a && plainAxis b && decide (a.istr = b.ext * b.istr) && !referred w a.name && !referred w b.name then
      checkAxes { w with axes := spliceAt w.axes c.toNat 2 [newAxis w.names (a.ext * b.ext) b.istr], names := w.names + 1 }
    else refuse w
  | _, _ => refuse w

/-- swap c, j (R173). -/
def dressSwap (c j : BitVec 4) (w0 : DressWork) : DressWork :=
  let w := closeAxes w0
  match w.axes[c.toNat]?, w.axes[j.toNat]? with
  | some a, some b => { w with axes := (w.axes.set c.toNat b).set j.toNat a }
  | _, _ => refuse w

/-- The axis at a position changed. -/
def onAxis (c : BitVec 4) (ok : Axis → Bool) (f : Axis → Axis) (w : DressWork) : DressWork :=
  match w.axes[c.toNat]? with
  | some a => if ok a then checkAxes { w with axes := w.axes.set c.toNat (f a) } else refuse w
  | none => refuse w

/-- rev c (R173). -/
def dressRev (c : BitVec 4) (w : DressWork) : DressWork :=
  onAxis c (fun _ => true) (fun a => { a with neg := !a.neg }) (closeAxes w)

/-- pad c, lo, hi, v (R173). -/
def dressPad (c : BitVec 4) (lo hi : BitVec 16) (v : BitVec 8) (w : DressWork) : DressWork :=
  onAxis c (fun a => !a.padded)
    (fun a => { a with lo := lo.toNat, ext := a.ext + lo.toNat + hi.toNat, pad := v, padded := true }) (closeAxes w)

/-- tile c, j, m (R173): the swizzle follows the axis that stands at position j now. -/
def dressTile (c j : BitVec 4) (m : BitVec 4) (w0 : DressWork) : DressWork :=
  let w := closeAxes w0
  match w.axes[j.toNat]? with
  | none => refuse w
  | some b =>
    onAxis c (fun a => decide (j ≠ c) && a.sw.isNone && decide (m ≠ 0) && decide (a.ext % 2 ^ m.toNat = 0))
      (fun a => { a with sw := some (b.name, 2 ^ m.toNat) }) w

/-- emit c, s (R173): one per current axis, in order, last. -/
def dressEmit (c : BitVec 4) (s : BitVec 32) (w0 : DressWork) : DressWork :=
  let w := { w0 with closed := true }
  if c.toNat ≠ w.emits then refuse w
  else onAxis c (fun _ => true) (fun a => { a with ostr := some s.toNat }) { w with emits := w.emits + 1 }

/-- One instruction word of a program in the loader (R172). -/
def dressWord (x : W64) (w : DressWork) : DressWork :=
  match decodeDress x with
  | .ok (.axis d n) => dressAxis d n w
  | .ok (.split c n) => dressSplit c n w
  | .ok (.join c) => dressJoin c w
  | .ok (.swap c j) => dressSwap c j w
  | .ok (.rev c) => dressRev c w
  | .ok (.pad c lo hi v) => dressPad c lo hi v w
  | .ok (.tile c j m) => dressTile c j m w
  | .ok (.emit c s) => dressEmit c s w
  | _ => refuse w

/-- The number of instruction words that a header asks for; none for a header that is refused (R172, R174). -/
def dressCount (hdr : W64) : Option Nat :=
  if 1 ≤ hdr.toNat ∧ hdr.toNat ≤ 16 then some hdr.toNat else none

/-- A program loaded (R139, R174): none when it is refused. -/
def dressLoad (words : List W64) : Option DressWork :=
  let w := words.foldl (fun w x => if w.refused then w else dressWord x w) DressWork.empty
  if w.refused || decide (w.emits = 0) || decide (w.emits ≠ w.axes.length) then none else some w

/-- SPAN of a program (R175). -/
def dressSpan (w : DressWork) : Nat := (w.axes.map fun a => (a.ext - 1) * a.ostr.getD 0).sum + 1

/-- The position of the axis with a name. -/
def posOfName (name : Nat) : Nat → List Axis → Nat
  | i, [] => i
  | i, a :: r => if a.name = name then i else posOfName name (i + 1) r

/-- Every index tuple of a list of extents, in row-major order (R173). -/
def tuples : List Nat → List (List Nat)
  | [] => [[]]
  | n :: r => (List.range n).flatMap fun i => (tuples r).map (i :: ·)

/-- Where one tuple comes from and goes to (R173): the pad byte or the input offset, and the output address. -/
def dressPlace (axes : List Axis) (o : List Nat) : (Byte ⊕ Nat) × Nat :=
  let parts := (axes.zip o).map fun (a, x) =>
    let outside := decide (x < a.lo) || decide (a.core ≤ x - a.lo)
    let ix := x - a.lo
    let ix := if a.neg then a.core - 1 - ix else ix
    let p := match a.sw with
      | some (name, m) => x ^^^ ((o.getD (posOfName name 0 axes) 0) % m)
      | none => x
    (if outside then some a.pad else none, ix * a.istr, p * a.ostr.getD 0)
  let pad := parts.findSome? fun t => t.1
  let off := (parts.map fun t => t.2.1).sum
  let addr := (parts.map fun t => t.2.2).sum
  (match pad with
    | some b => .inl b
    | none => .inr off, addr)

/-- The bytes that a program writes, by offset from the base, a later tuple after an earlier one. Nothing is written at
or past SPAN (R173, R175). -/
def dressOut (w : DressWork) (input : Array Byte) : List (Nat × Byte) :=
  let span := dressSpan w
  ((tuples (w.axes.map fun a => a.ext)).map fun o =>
    match dressPlace w.axes o with
    | (.inl b, addr) => (addr, b)
    | (.inr off, addr) => (addr, input.getD off 0)).filter fun x => decide (x.1 < span)

end Sys2Proof.Machine
end

