-- ==== Sys2Proof/Machine/Fetch.lean ====
section
/-! DEFINITION. Where an engine reads its next word: pitches, headers and the fetch buffer (R30, R53-R55, R67, R68). -/

namespace Sys2Proof.Machine

/-- Does LEAD of the core run a trap handler (R122)? -/
def inTrap (x : Core) (e : Engine) : Bool := x.trap.handler && decide (e = .lead)

/-- Does the AP run a user-level interrupt handler (R129)? -/
def inIntr (x : Core) (e : Engine) : Bool := x.ap.inUi && decide (e = .ap)

/-- Where an engine stands in the image it reads: its job's stream, the trap handler or the interrupt handler. -/
def posOf (x : Core) (e : Engine) : Pos :=
  if inTrap x e then x.trap.hpos else if inIntr x e then x.ap.uiPos else (x.stream e).pos

/-- The fetch buffer of the image an engine reads. -/
def bufOf (x : Core) (e : Engine) : Sparse (Option Unit32) :=
  if inTrap x e then x.trap.hbuf else if inIntr x e then x.ap.uiBuf else (x.stream e).buf

/-- A core with the position of an engine's image replaced. -/
def setPos (e : Engine) (p : Pos) (x : Core) : Core :=
  if inTrap x e then { x with trap := { x.trap with hpos := p } }
  else if inIntr x e then { x with ap := { x.ap with uiPos := p } }
  else x.modStream e fun t => { t with pos := p }

/-- The place of the next word for the encoding checks. -/
def whereOf (x : Core) (e : Engine) : Where :=
  { eng := e, first := !inTrap x e && !inIntr x e && (x.stream e).first, trap := inTrap x e, intr := inIntr x e }

/-- A unit of an image: as fetched, or as memory would give it, with whether it has been fetched and is sound. -/
structure Seen where
  val : W32
  fetched : Bool
  bad : Bool
deriving DecidableEq, Repr

/-- A unit as the fetch unit would read it now: through the face's L2 level under the key of the core's world (R55). -/
def memoryUnit (s : State) (c : CoreId) (a : Nat) : Unit32 :=
  let bytes := engineBytes s c.face (s.core c).csr.world a 4
  { val := bvOfBytes 32 (bytes.map fun b => b.getD 0), bad := bytes.any fun b => b.isNone }

/-- The unit at an address of an image, of which the fetch buffer `buf` holds a part. -/
def seeUnit (s : State) (c : CoreId) (buf : Sparse (Option Unit32)) (a : Nat) : Seen :=
  match sget none buf a with
  | some u => { val := u.val, fetched := true, bad := u.bad }
  | none => { val := (memoryUnit s c a).val, fetched := false, bad := false }

/-- The next word of an engine: the position with any header passed, the pitch and the word offset that a trap of it names
(those of the last word before it where the header fails its check, log 26), the header's waits and its failed check, and
the word's bits with whether they have been fetched soundly. -/
structure Next where
  pos : Pos
  name : BitVec 10 × Nat
  waits : List (Engine × BitVec 7)
  detail : Nat
  fetched : Bool
  bad : Bool
  bits : BitVec 96
deriving DecidableEq, Repr

/-- The word at a position that is not before a header. -/
def wordAt (s : State) (c : CoreId) (buf : Sparse (Option Unit32)) (p : Pos) : Bool × Bool × BitVec 96 :=
  let a := p.base + 12 * p.off
  let u0 := seeUnit s c buf a
  let u1 := seeUnit s c buf (a + 4)
  let u2 := seeUnit s c buf (a + 8)
  (u0.fetched && u1.fetched && u2.fetched, u0.bad || u1.bad || u2.bad, u0.val ++ u1.val ++ u2.val)

/-- The last word before a position that stands before a header; word 0 of pitch 0 before an image's first header. -/
def lastBefore (p : Pos) : BitVec 10 × Nat := if p.wc = 0 then (0, 0) else (p.pitch, p.wc - 1)

/-- The word at the position `p` of an image that engine `e` reads. -/
def nextIn (s : State) (c : CoreId) (e : Engine) (buf : Sparse (Option Unit32)) (p : Pos) : Next :=
  if p.hdr then
    let u0 := seeUnit s c buf p.base
    let u1 := seeUnit s c buf (p.base + 4)
    let h := unpackHeader (u0.val ++ u1.val)
    let detail := if isHeader u0.val then headerDetail p.pitch h else 10
    let q : Pos := { base := p.base + 8, pitch := h.pn, wc := h.wc.toNat, off := 0, hdr := false }
    let (f, b, w) := wordAt s c buf q
    { pos := q, name := if detail = 0 then (h.pn, 0) else lastBefore p, waits := headerWaits e h, detail
      fetched := u0.fetched && u1.fetched && f, bad := u0.bad || u1.bad || b, bits := w }
  else
    let (f, b, w) := wordAt s c buf p
    { pos := p, name := (p.pitch, p.off), waits := [], detail := 0, fetched := f, bad := b, bits := w }

/-- The next word of an engine. -/
def nextOf (s : State) (c : CoreId) (e : Engine) : Next := nextIn s c e (bufOf (s.core c) e) (posOf (s.core c) e)

/-- The next word of an engine's job stream, whatever handler the engine runs. -/
def nextJob (s : State) (c : CoreId) (e : Engine) : Next :=
  nextIn s c e ((s.core c).stream e).buf ((s.core c).stream e).pos

/-- The position after the word at `p`. -/
def posAfter (p : Pos) : Pos :=
  if p.off + 1 < p.wc then { p with off := p.off + 1 }
  else { p with base := p.base + 12 * p.wc, off := 0, hdr := true }

/-- The address of the word at a position. -/
def wordAddr (p : Pos) : Nat := if p.hdr then p.base + 8 else p.base + 12 * p.off

/-- The delay of a word on its stream (R19, R77): its field, and at least one tick. -/
def dlyOf (w : BitVec 96) : Nat := max (w.extractLsb' 80 8).toNat 1

/-- The tick of the cluster's clock at which a timed stream's next word is due (R19, R103); a header that fails its
check is due one tick after the previous pitch's last word (R77). -/
def dueAt (t : Stream) (n : Next) : Nat := if n.detail ≠ 0 then t.last + 1 else t.last + t.extra + dlyOf n.bits

/-- The tick at which an engine's next word is due. -/
def dueOf (s : State) (c : CoreId) (e : Engine) : Nat := dueAt ((s.core c).stream e) (nextOf s c e)

/-- `n` units read into an engine's fetch buffer from an address on (R55). -/
def fetchUnits (c : CoreId) (e : Engine) : Nat → Nat → State → State
  | 0, _, s => s
  | n + 1, a, s =>
    let u := memoryUnit s c a
    let put (b : Sparse (Option Unit32)) : Sparse (Option Unit32) := sput none b a (some u)
    let s := s.modCore c fun x =>
      if inTrap x e then { x with trap := { x.trap with hbuf := put x.trap.hbuf } }
      else if inIntr x e then { x with ap := { x.ap with uiBuf := put x.ap.uiBuf } }
      else x.modStream e fun t => { t with buf := put t.buf }
    fetchUnits c e n (a + 4) s

/-- Does the fetch unit of an engine have an image to read? -/
def hasImage (x : Core) (e : Engine) : Bool := (x.stream e).present || inTrap x e || inIntr x e

end Sys2Proof.Machine
end

