-- ==== Sys2Proof/Machine/Translate.lean ====
section
/-! DEFINITION. Address translation by the AP: page tables, the walk, the checks of a leaf, the TLB and the walk cache
(R183-R191, R393). -/

namespace Sys2Proof.Machine

/-- Why a translation fails: the cause, its detail, the level where the walk stopped, and whether the access needed W
(R186, R188, R192); `pte` is the address of a table entry whose data are uncorrectable. -/
structure WalkFault where
  cause : Nat
  detail : Nat
  lvl : Nat
  needW : Bool
  va : Nat
  pte : Nat := 0
deriving DecidableEq, Repr

/-- The fields of a page-table entry (R185). -/
def pteV (e : W64) : Bool := e.getLsbD 0
def pteLeaf (e : W64) : Bool := e.getLsbD 1
def pteR (e : W64) : Bool := e.getLsbD 2
def pteW (e : W64) : Bool := e.getLsbD 3
def pteG (e : W64) : Bool := e.getLsbD 4
def pteExcl (e : W64) : Bool := e.getLsbD 5
def pteAddr (e : W64) : Nat := (e.extractLsb' 8 44).toNat * 256
def pteWorld (e : W64) : World := e.extractLsb' 60 4

/-- Are the bits that R185 requires zero all zero? -/
def pteZeros (e : W64) : Bool :=
  decide (e.extractLsb' 52 8 = 0) && decide (e.extractLsb' 6 2 = 0)
    && (pteLeaf e || (decide (pteWorld e = 0) && decide (e.extractLsb' 2 4 = 0)))

/-- The lowest bit of the index at a level (R184). -/
def lvlShift (lvl : Nat) : Nat :=
  match lvl with
  | 3 => 39 | 2 => 30 | 1 => 21 | _ => 16

/-- The index of an address in the table of a level (R184). -/
def lvlIndex (lvl va : Nat) : Nat :=
  match lvl with
  | 3 => bitsN va 39 17 | 2 => bitsN va 30 9 | 1 => bitsN va 21 9 | _ => bitsN va 16 5

/-- The size, and alignment, of the table that an entry of level `lvl` points to (R184). -/
def nextTable (lvl : Nat) : Nat := if lvl = 1 then 256 else 4096

/-- Does the range meet one that a recorded scrub of kind 1 marks (R393)? -/
def scrubMarked (s : State) (pa n : Nat) : Bool :=
  s.scrub.list.any fun x => decide (x.kind = 1) && decide (pa < x.a.toNat + x.b.toNat) && decide (x.a.toNat < pa + n)

/-- The job that runs on a core. -/
def jobOf (s : State) (c : CoreId) : Option Job :=
  match (s.core c).job with
  | some id => s.jobs.find? fun j => decide (j.id = id)
  | none => none

/-- The virtual function of a core's job (R182). -/
def vfOf (s : State) (c : CoreId) : Nat :=
  match jobOf s c with
  | some j => s.camp.slots[j.slot].vf.toNat
  | none => 0

/-- Does the virtual function hold an active session bound to the world (R424)? -/
def sessionOk (s : State) (vf : Nat) (w : World) : Bool :=
  match s.tether.sess[vf]? with
  | some x => x.active && decide (x.world = w)
  | none => false

/-- The permissions of R187. -/
def needsR (acc : Access) : Bool := match acc with | .write => false | _ => true
def needsW (acc : Access) : Bool := match acc with | .read => false | _ => true

/-- Does another entry of the TLB overlap the page's physical range under another page or ASID, with EXCL set on either
(R188)? -/
def aliasViolation (tlb : List TlbEntry) (e : TlbEntry) : Bool :=
  tlb.any fun x =>
    decide (x.pa < e.pa + 2 ^ e.bits) && decide (e.pa < x.pa + 2 ^ x.bits)
      && !(decide (x.va = e.va) && decide (x.bits = e.bits) && decide (x.asid = e.asid))
      && (x.excl || e.excl)

/-- check() of R188 for a leaf and the physical addresses of the `n` bytes of an access in its page. -/
def leafCheck (s : State) (c : CoreId) (priv : Bool) (acc : Access) (e : TlbEntry) (va n : Nat) (lvl : Nat) : Option WalkFault :=
  let pa := e.pa + va % 2 ^ e.bits
  let x := s.core c
  let f (cause detail : Nat) : Option WalkFault := some { cause, detail, lvl, needW := needsW acc, va }
  if (needsR acc && !e.r) || (needsW acc && !e.w) then f 6 3
  -- R193 gives a write of its registers from an unprivileged stream the privilege fault (log 16)
  else if !priv && needsW acc && decide (0x400_0000_1000 ≤ pa) && decide (pa < 0x400_0000_1020) then f 2 4
  else if !(inHbm pa 1 || inHost pa || (inRegs pa && priv)) then f 6 5
  else if e.world ≠ x.csr.world then f 10 1
  else if s.keys.zeroed.getLsbD e.world.toNat then f 10 4
  else if scrubMarked s pa n then f 10 3
  else if x.csr.world ≠ 0 && inHost pa && !sessionOk s (vfOf s c) x.csr.world then f 10 5
  else if aliasViolation x.ap.tlb e then f 7 1
  else none

/-- The entry of the TLB that matches an address (R189). -/
def tlbFind (x : Core) (va : Nat) : Option TlbEntry :=
  x.ap.tlb.find? fun e => decide (va / 2 ^ e.bits = e.va / 2 ^ e.bits) && (e.g || decide (e.asid = x.csr.xlate.extractLsb' 48 16))

/-- The level of a leaf's size. -/
def lvlOfBits (bits : Nat) : Nat := if bits = 30 then 2 else if bits = 21 then 1 else 0

/-- The walk from level `fuel - 1` with the table at `base`: the leaf, and the pointers passed (R186). -/
def walkFrom (s : State) (c : CoreId) (va : Nat) (needW : Bool) : Nat → Nat → List WalkEntry → Except WalkFault (TlbEntry × List WalkEntry)
  | 0, _, _ => .error { cause := 6, detail := 2, lvl := 0, needW, va }
  | lvl + 1, base, seen =>
    let f (cause detail : Nat) : Except WalkFault (TlbEntry × List WalkEntry) := .error { cause, detail, lvl, needW, va }
    let a := base + 8 * lvlIndex lvl va
    let x := s.core c
    if scrubMarked s a 8 then f 10 3
    else if poisoned s a 8 then .error { cause := 11, detail := 1, lvl, needW, va, pte := a }
    else
      let e := deviceWord s 0 a
      if !pteV e then f 6 1
      else if !pteZeros e then f 6 2
      else if pteLeaf e then
        if lvl = 3 then f 6 2
        else
          let bits := lvlShift lvl
          if pteAddr e % 2 ^ bits ≠ 0 then f 6 2
          else .ok ({ va := va / 2 ^ bits * 2 ^ bits, bits, asid := x.csr.xlate.extractLsb' 48 16, g := pteG e, w := pteW e
                      r := pteR e, excl := pteExcl e, world := pteWorld e, pa := pteAddr e }, seen)
      else if lvl = 0 then f 6 2
      else
        let base' := pteAddr e
        if base' % nextTable lvl ≠ 0 || !inHbm base' (nextTable lvl) then f 6 2
        else walkFrom s c va needW lvl base'
          ({ root := (x.csr.xlate.extractLsb' 16 32).toNat, asid := x.csr.xlate.extractLsb' 48 16, lvl
             va := va / 2 ^ lvlShift lvl, base := base' } :: seen)

/-- The deepest cached table that covers the address: the level it serves, and its base (R189). -/
def walkCached (x : Core) (va : Nat) : Option WalkEntry :=
  x.ap.walks.foldl (fun best e =>
    if e.root = (x.csr.xlate.extractLsb' 16 32).toNat ∧ e.asid = x.csr.xlate.extractLsb' 48 16 ∧ e.va = va / 2 ^ lvlShift e.lvl
    then (match best with
      | some b => if e.lvl < b.lvl then some e else best
      | none => some e)
    else best) none

/-- The walk of a missing page (R186). -/
def pageWalkAt (s : State) (c : CoreId) (va : Nat) (acc : Access) : Except WalkFault (TlbEntry × List WalkEntry) :=
  let x := s.core c
  let needW := needsW acc
  let root := (x.csr.xlate.extractLsb' 16 32).toNat * 2 ^ 20
  if va / 2 ^ 56 ≠ 0 then .error { cause := 6, detail := 4, lvl := 3, needW, va }
  else if !inHbm root (2 ^ 20) then .error { cause := 6, detail := 2, lvl := 3, needW, va }
  else
    match walkCached x va with
    | some e => walkFrom s c va needW e.lvl e.base []
    | none => walkFrom s c va needW 4 root []

/-- A core with a leaf and pointers put into its TLB and walk cache, the oldest leaf leaving a full TLB (R189). -/
def tlbInsert (e : TlbEntry) (ws : List WalkEntry) (x : Core) : Core :=
  { x with ap := { x.ap with tlb := (e :: x.ap.tlb).take 1024, walks := (ws ++ x.ap.walks).take 1024 } }

/-- Does the AP of a core issue under privilege (R78)? -/
def apPriv (x : Core) : Bool := x.csr.priv && !x.ap.inUi

/-- The part of a range that a leaf gives to `n` bytes from an address. -/
def pieceOf (s : State) (e : TlbEntry) (va n : Nat) (acc : Access) : Piece :=
  { va, pa := e.pa + va % 2 ^ e.bits, len := n, wr := needsW acc
    use := { bits := e.bits, g := e.g, asid := e.asid, gen := s.sys.gen } }

/-- `n` bytes within one page translated for an access: from the TLB, or by a walk that fills it; then check()
(R186-R189). -/
def translate (s : State) (c : CoreId) (va n : Nat) (acc : Access) : Except WalkFault (Piece × State) :=
  let x := s.core c
  let priv := apPriv x
  if va / 2 ^ 56 ≠ 0 then .error { cause := 6, detail := 4, lvl := 3, needW := needsW acc, va }
  else
    match tlbFind x va with
    | some e =>
      match leafCheck s c priv acc e va n (lvlOfBits e.bits) with
      | some f => .error f
      | none => .ok (pieceOf s e va n acc, s)
    | none =>
      match pageWalkAt s c va acc with
      | .error f => .error f
      | .ok (e, ws) =>
        match leafCheck s c priv acc e va n (lvlOfBits e.bits) with
        | some f => .error f
        | none => .ok (pieceOf s e va n acc, s.modCore c (tlbInsert e ws))

/-- A virtual range cut at 64 KiB boundaries, the least page size: start and length of each part. -/
def splitPages : Nat → Nat → Nat → List (Nat × Nat)
  | 0, _, _ => []
  | fuel + 1, va, n =>
    if n = 0 then []
    else
      let k := min n (0x10000 - va % 0x10000)
      (va, k) :: splitPages fuel (va + k) (n - k)

/-- A range translated page by page in address order; the physical parts (R190). -/
def translateParts (c : CoreId) (acc : Access) : List (Nat × Nat) → State → Except WalkFault (List Piece × State)
  | [], s => .ok ([], s)
  | (va, n) :: r, s =>
    match translate s c va n acc with
    | .error f => .error f
    | .ok (p, s) =>
      match translateParts c acc r s with
      | .error f => .error f
      | .ok (ps, s) => .ok (p :: ps, s)

/-- A range translated. Addresses are taken modulo 2^64 (R145). -/
def translateRange (s : State) (c : CoreId) (va n : Nat) (acc : Access) : Except WalkFault (List Piece × State) :=
  translateParts c acc (splitPages (n / 0x10000 + 2) (va % 2 ^ 64) n) s

/-- The physical address of byte `i` of a translated range. -/
def pieceAddr : List Piece → Nat → Nat
  | [], i => i
  | p :: r, i => if i < p.len then p.pa + i else pieceAddr r (i - p.len)

/-- The parts of a range, each with its offset. -/
def pieceOffsets : Nat → List Piece → List (Nat × Piece)
  | _, [] => []
  | i, p :: r => (i, p) :: pieceOffsets (i + p.len) r

/-- The cells of a translated range. -/
def pieceCells (ps : List Piece) (l : List Byte) : List Host.Cell :=
  ((List.range l.length).map (pieceAddr ps)).zip l

end Sys2Proof.Machine
end

