-- ==== Sys2Proof/Machine/Ops.lean ====
section
/-! DEFINITION. The named operations over registers and predicate slots, and exceptions: taking a cluster trap, an AP
fault and a double trap, and the return from a trap (R60-R62, R82, R117-R127, R191). -/

namespace Sys2Proof.Machine

/-! ### Registers -/

/-- An s register of the job's bank, or of the handler's bank; s0 reads zero (R61, R122). -/
def readS (x : Core) (hnd : Bool) (i : Nat) : W64 :=
  if i % 32 = 0 then 0 else vget (if hnd then x.scal.hs else x.scal.s) (i % 32) 0

/-- A core with an s register written; a write of s0 is discarded (R61). -/
def writeS (hnd : Bool) (i : Nat) (v : W64) (x : Core) : Core :=
  if i % 32 = 0 then x
  else if hnd then { x with scal := { x.scal with hs := vset x.scal.hs (i % 32) v } }
  else { x with scal := { x.scal with s := vset x.scal.s (i % 32) v } }

/-- Does the register name select the shadow bank (R129)? -/
def shadowed (intr : Bool) (i : Nat) : Bool := intr && decide (24 ≤ i % 32)

/-- An a register; a24-a31 name the shadow bank in the interrupt handler (R61, R129). -/
def readA (x : Core) (intr : Bool) (i : Nat) : W64 :=
  if shadowed intr i then vget x.scal.sh (i % 32 - 24) 0 else vget x.scal.a (i % 32) 0

/-- A core with an a register written. -/
def writeA (intr : Bool) (i : Nat) (v : W64) (x : Core) : Core :=
  if shadowed intr i then { x with scal := { x.scal with sh := vset x.scal.sh (i % 32 - 24) v } }
  else { x with scal := { x.scal with a := vset x.scal.a (i % 32) v } }

/-- The scalar register that a field of a word names: an s register in the timed engines, an a register in the AP
(R69); the bank by the engine's state. -/
def readReg (x : Core) (e : Engine) (code : RegCode) : W64 :=
  if e = .ap then readA x (inIntr x e) code.toNat else readS x (inTrap x e) code.toNat

/-- A core with the scalar register that a field names written. -/
def writeReg (e : Engine) (code : RegCode) (v : W64) (x : Core) : Core :=
  if e = .ap then writeA (inIntr x e) code.toNat v x else writeS (inTrap x e) code.toNat v x

/-- Is the scalar register a pending reply destination (R82)? -/
def pendingReg (x : Core) (e : Engine) (code : RegCode) : Bool :=
  let i := code.toNat % 32
  if e = .ap then (if shadowed (inIntr x e) i then x.scal.pendX.getLsbD (i - 24) else x.scal.pendA.getLsbD i)
  else decide (i ≠ 0) && (if inTrap x e then x.scal.pendH else x.scal.pendS).getLsbD i

/-- A bit of a word set to a value. -/
def putBit {w : Nat} (x : BitVec w) (i : Nat) (b : Bool) : BitVec w :=
  if b then x ||| (BitVec.ofNat w 1 <<< i) else x &&& ~~~(BitVec.ofNat w 1 <<< i)

/-- A core with the pending mark of a scalar register set or cleared. `hnd` and `intr` choose the bank. -/
def markPending (ap hnd intr : Bool) (code : RegCode) (b : Bool) (x : Core) : Core :=
  let i := code.toNat % 32
  if ap then
    (if shadowed intr i then { x with scal := { x.scal with pendX := putBit x.scal.pendX (i - 24) b } }
     else { x with scal := { x.scal with pendA := putBit x.scal.pendA i b } })
  else if i = 0 then x
  else if hnd then { x with scal := { x.scal with pendH := putBit x.scal.pendH i b } }
  else { x with scal := { x.scal with pendS := putBit x.scal.pendS i b } }

/-! ### Predicate slots (R60) -/

/-- The slot that a code 0x90-0x9E names. -/
def slotNo (code : RegCode) : Nat := code.toNat - 0x90

/-- The value of a slot of the job's bank or the handler's. -/
def slotVal (x : Core) (hnd : Bool) (i : Nat) : Bool := (if hnd then x.scal.hv else x.scal.pv).getLsbD i

/-- Is the slot written? -/
def slotWritten (x : Core) (hnd : Bool) (i : Nat) : Bool := (if hnd then x.scal.hw else x.scal.pw).getLsbD i

/-- A core with a slot written. -/
def writeSlot (hnd : Bool) (i : Nat) (b : Bool) (x : Core) : Core :=
  if hnd then { x with scal := { x.scal with hv := putBit x.scal.hv i b, hw := putBit x.scal.hw i true } }
  else { x with scal := { x.scal with pv := putBit x.scal.pv i b, pw := putBit x.scal.pw i true } }

/-- A core with a slot made unwritten. -/
def voidSlot (hnd : Bool) (i : Nat) (x : Core) : Core :=
  if hnd then { x with scal := { x.scal with hw := putBit x.scal.hw i false } }
  else { x with scal := { x.scal with pw := putBit x.scal.pw i false } }

/-- Is the code a predicate slot's? -/
def isSlot (code : RegCode) : Bool := decide (0x90 ≤ code.toNat) && decide (code.toNat ≤ 0x9E)

/-- Is the guard slot of a word unwritten (R59)? Slot 15 is no guard. -/
def guardLate (x : Core) (e : Engine) (h : Head) : Bool := decide (h.g ≠ 15) && !slotWritten x (inTrap x e) h.g.toNat

/-- Does a word with a written guard issue, rather than as a null (R59)? -/
def guardTrue (x : Core) (e : Engine) (h : Head) : Bool :=
  decide (h.g = 15) || (slotVal x (inTrap x e) h.g.toNat != h.gs)

/-- Does a slot lie in the stage range of a running loop level of any timed engine of the core (R46, R95)? -/
def inStageRange (x : Core) (i : Nat) : Bool :=
  [Engine.lead, .mx, .va, .vb, .sf].any fun e =>
    ((x.stream e).loops.toList).any fun l =>
      l.act && l.stage && decide (l.pf.toNat ≤ i) && decide (i < l.pf.toNat + l.ns.toNat)

/-! ### Loop levels as other units see them -/

/-- Level `n` of an engine. -/
def levelOf (t : Stream) (n : Nat) : Level := vget t.loops n Level.zero

/-- KIND of a level in the loop table (R21). -/
def kindOf (x : Core) (n : Nat) : Nat := bitsN (vget x.csr.looptab n 0).toNat 8 2

/-- Is a level spatial (R24)? -/
def spatial (x : Core) (n : Nat) : Bool := decide (2 ≤ kindOf x n)

/-- The core's position along a spatial level (R24, R25): FPOS over faces, CPOS over cores. -/
def spatialIdx (x : Core) (n : Nat) : Nat :=
  if kindOf x n = 3 then bitsN x.csr.teampos.toNat 16 8 else bitsN x.csr.teampos.toNat 8 8

/-- The iteration index of a level as format-table indexing and `lpr` see it (R24, R109). -/
def levelIdx (x : Core) (e : Engine) (n : Nat) : Nat :=
  if spatial x n then spatialIdx x n else (levelOf (x.stream e) n).idx.toNat

/-! ### Requesters and causes -/

/-- A word that a trap names (R126). -/
structure Req where
  eng : Engine
  pitch : BitVec 10
  word : Nat
deriving DecidableEq, Repr

/-- The order of requesters: engine code, pitch, word offset (R126). -/
def reqLe (a b : Req) : Bool :=
  if a.eng.code ≠ b.eng.code then decide (a.eng.code < b.eng.code)
  else if a.pitch ≠ b.pitch then decide (a.pitch.toNat < b.pitch.toNat)
  else decide (a.word ≤ b.word)

/-- A cause that a core raises at a tick: code (R117), detail, requesters and object (R126). -/
structure TrapCause where
  code : Nat
  detail : Nat
  r1 : Option Req
  r2 : Option Req
  obj : Nat
deriving DecidableEq, Repr

/-- A cause with one requester. -/
def causeBy (r : Req) (code detail obj : Nat) : TrapCause := { code, detail, r1 := some r, r2 := none, obj }

/-- A cause with two requesters, put in order. -/
def causeBy2 (a b : Req) (code detail obj : Nat) : TrapCause :=
  if reqLe a b then { code, detail, r1 := some a, r2 := some b, obj } else { code, detail, r1 := some b, r2 := some a, obj }

/-- Does cause `a` come before `b`: the lower code, then the lower detail, then the earlier requester (R119)? -/
def causeLe (a b : TrapCause) : Bool :=
  if a.code ≠ b.code then decide (a.code < b.code)
  else if a.detail ≠ b.detail then decide (a.detail < b.detail)
  else match a.r1, b.r1 with
    | some x, some y => reqLe x y
    | none, _ => true
    | some _, none => false

/-- The least cause of a list. -/
def leastCause : TrapCause → List TrapCause → TrapCause
  | a, [] => a
  | a, b :: r => leastCause (if causeLe a b then a else b) r

/-- The OTHER bits of every code beside the recorded one (R119, R125). -/
def otherBits (code : Nat) (l : List TrapCause) : W64 :=
  l.foldl (fun x c => if c.code = code then x else x ||| ((1 : W64) <<< (c.code - 1))) 0

/-- A requester's 23 bits: engine code, pitch, word (R125). -/
def reqBits (r : Option Req) : W64 :=
  match r with
  | some r => (BitVec.ofNat 64 r.eng.code <<< 20) ||| (r.pitch.setWidth 64 <<< 10) ||| (BitVec.ofNat 64 (r.word % 1024))
  | none => 0

/-- TINFO of a cause (R125). -/
def tinfoOf (c : TrapCause) : W64 :=
  (BitVec.ofNat 64 (c.detail % 256) <<< 56) ||| (reqBits c.r1 <<< 33) ||| (reqBits c.r2 <<< 10)
    ||| BitVec.ofNat 64 (c.obj % 1024)

/-- TCAUSE of a first trap (R125): VALID, FSAVE, OTHER and CAUSE. -/
def tcauseOf (fsave : Bool) (c : TrapCause) (l : List TrapCause) : W64 :=
  ((1 : W64) <<< 63) ||| (if fsave then (1 : W64) <<< 61 else 0) ||| (otherBits c.code l <<< 32) ||| BitVec.ofNat 64 c.code

/-- Is a trap of the core pending (R125)? -/
def trapValid (x : Core) : Bool := x.trap.tcause.getLsbD 63

/-- Is a trap pending in the cluster (R36)? -/
def trapPending (s : State) (k : ClusterId) : Bool := k.cores.any fun c => trapValid (s.core c)

/-- A management notice: the bit of MGTNOTE set, and a message when it rises (R448). -/
def notice (bit : Nat) (s : State) : State :=
  if s.sys.mgt.getLsbD bit then s
  else { s with sys := { s.sys with mgt := putBit s.sys.mgt bit true, msgs := s.sys.msgs + 1 } }

/-! ### The trap frame (R127) -/

/-- The tick count of a core (R35). -/
def tickOf (s : State) (c : CoreId) : Nat :=
  let x := s.core c
  x.tickHold + (if x.aligned then (s.cluster c.cluster).clk - x.tick0 else 0)

/-- A little-endian field of a frame. -/
def fieldAt (off n v : Nat) : Nat × List Byte := (off, bytesOfNat n v)

/-- The record of one engine in a frame. -/
def frameEngine (s : State) (c : CoreId) (e : Engine) : List (Nat × List Byte) :=
  let x := s.core c
  let t := x.stream e
  let n := if e = .ap then nextOf s c .ap else nextJob s c e
  let p := n.pos
  let pitch := if n.detail = 0 then p.pitch else (if e = .ap then posOf x .ap else t.pos).pitch + 1
  let off := 0x40 + 32 * e.code
  let clk := (s.cluster c.cluster).clk
  let flags := (if t.present then 0 else 1) + (if t.ended then 2 else 0)
    + (if decide (e = .ap) && x.ap.fault.isSome then 4 else 0)
  [ fieldAt off 8 (wordAddr p)
  , fieldAt (off + 8) 8 (pitch.toNat + 2 ^ 10 * (p.off % 1024) + 2 ^ 20 * flags)
  , fieldAt (off + 16) 8 (if e = .ap || !t.present || t.ended then 0 else dueAt t n - clk)
  , fieldAt (off + 24) 8 t.rot.toNat ]

/-- The record of level `i % 4` of a timed engine in a frame: LIDX is the index as `lpr` reads it (R24, R109). -/
def frameLevel (x : Core) (i : Nat) (y : Engine × Level) : List (Nat × List Byte) :=
  let off := 0x200 + 32 * i
  let l := y.2
  [ fieldAt off 4 l.cnt.toNat, fieldAt (off + 4) 4 l.start.toNat
  , fieldAt (off + 8) 8 (l.lend.toNat + 2 ^ 10 * l.epi.toNat + (if l.act then 2 ^ 16 else 0)
      + 2 ^ 32 * levelIdx x y.1 (i % 4))
  , fieldAt (off + 16) 4 l.aCnt.toNat, fieldAt (off + 20) 4 l.aStart.toNat
  , fieldAt (off + 24) 8 (l.aEnd.toNat + 2 ^ 10 * l.aEpi.toNat + 2 ^ 16 * l.pf.toNat + 2 ^ 20 * l.ns.toNat
      + 2 ^ 32 * (l.done % 2 ^ 32)) ]

/-- Latches in the order of the frame: by due tick, then by engine code (R127). -/
def latchLe (a b : Latch) : Bool :=
  if a.due ≠ b.due then decide (a.due < b.due) else decide (a.eng.code ≤ b.eng.code)

/-- A latch put into its place in an ordered list, after those it does not come before. -/
def latchInsert (a : Latch) : List Latch → List Latch
  | [] => [a]
  | b :: r => if latchLe b a then b :: latchInsert a r else a :: b :: r

/-- The latch records of a core (R121, R287), in order. -/
def latchRecords (x : Core) : List Latch := (x.latches.filter fun l => !l.work).foldl (fun r a => latchInsert a r) []

/-- The record of one latch in a frame. -/
def frameLatch (clk i : Nat) (l : Latch) : Nat × List Byte :=
  fieldAt (0x500 + 16 * i) 4 (l.code.toNat + 2 ^ 8 * 2 ^ l.q + 2 ^ 16 * ((l.due - clk) % 256) + 2 ^ 24 * l.eng.code + 2 ^ 31)

/-- The bytes of a latch's value in the context area (R127). -/
def latchBytes (l : Latch) : List Byte :=
  match regClass l.code.toNat with
  | some .s => bytesOfNat 8 l.val.toNat
  | some .p => bytesOfNat 8 (l.val.toNat % 2)
  | some .k => bytesOfNat 32 l.val.toNat
  | _ => bytesOfNat 1024 l.val.toNat

/-- The trap frame of a core as its fields (R127). -/
def frameFields (s : State) (c : CoreId) : List (Nat × List Byte) :=
  let x := s.core c
  let ls := latchRecords x
  let levels := (([Engine.lead, .mx, .va, .vb, .sf].map fun e => (x.stream e).loops.toList.map fun l => (e, l)).flatten)
  [ fieldAt 0 8 x.trap.tcause.toNat, fieldAt 8 8 x.trap.tinfo.toNat, fieldAt 16 8 x.trap.ttick.toNat
  , fieldAt 24 8 (ls.length % 128) ]
  ++ (Engine.all.map (frameEngine s c)).flatten
  ++ [ fieldAt 0x100 8 (x.scal.pv.toNat + 2 ^ 16 * x.scal.pw.toNat), fieldAt 0x108 8 x.scal.pendS.toNat ]
  ++ (levels.mapIdx (frameLevel x)).flatten
  ++ (ls.mapIdx (frameLatch (s.cluster c.cluster).clk))

/-- Bytes written by the core for a trap; an area that does not lie in HBM is not written. -/
def framePut (w : World) (a : Nat) (l : List Byte) (s : State) : State := if inHbm a l.length then devicePut w a l s else s

/-- The trap frame's 16 KiB from its fields. -/
def frameBlock (w : World) (a : Nat) (fs : List (Nat × List Byte)) (s : State) : State :=
  if inHbm a 0x4000 then deviceBlock w a 0x4000 (fs.foldl (fun m f => sputs 0 m f.1 f.2) []) s else s

/-- The values of latches from an address on, 1 KiB apart (R127). -/
def frameValues (w : World) : Nat → List Latch → State → State
  | _, [], s => s
  | a, l :: r, s => frameValues w (a + 1024) r (framePut w a (latchBytes l) s)

/-- The address of a core's trap frame, and of its latch values (R127, R128). -/
def frameAddr (c : CoreId) (x : Core) : Nat := x.csr.tbase.toNat + c.val * 0x4000
def latchAddr (c : CoreId) (x : Core) : Nat := x.csr.ctxbase.toNat + c.val * 0x400000 + 0x290000

/-- The trap frame and the latch values written to memory at host scope under the key of the core's world (R120). -/
def writeFrame (c : CoreId) (s : State) : State :=
  let x := s.core c
  frameValues x.csr.world (latchAddr c x) (latchRecords x) (frameBlock x.csr.world (frameAddr c x) (frameFields s c) s)

/-! ### Taking and leaving a trap -/

/-- LEAD of a core at the first word of its trap handler, whose fetch buffer holds nothing yet (R122). -/
def enterHandler (x : Core) : Core :=
  { x with trap := { x.trap with handler := true, stopped := false, hpos := Pos.start x.csr.tvec.toNat, hbuf := [] } }

/-- Taking a cluster trap (R119, R120, R123): the core records the least of its causes, writes its frame and latch
values, posts the notice, and LEAD enters handler state; with TVEC = 0 it is a double trap. The cluster's clock stands
because the trap is pending. -/
def takeTrap (c : CoreId) (fsave : Bool) (first : TrapCause) (rest : List TrapCause) (s : State) : State :=
  let least := leastCause first rest
  let x := s.core c
  let dbl := decide (x.csr.tvec = 0)
  let tcause := tcauseOf fsave least (first :: rest) ||| (if dbl then (1 : W64) <<< 62 else 0)
  let tick := BitVec.ofNat 64 (tickOf s c)
  let s := s.modCore c fun x => { x with trap := { x.trap with tcause, tinfo := tinfoOf least, ttick := tick } }
  let s := writeFrame c s
  let s := { s with sys := { s.sys with sysTraps := c :: s.sys.sysTraps } }
  if dbl then notice 4 (s.modCore c fun x => { x with trap := { x.trap with handler := true, stopped := true } })
  else s.modCore c enterHandler

/-- A double trap of a core in handler state (R123): DOUBLE and DCAUSE are set, and LEAD stops. -/
def doubleTrap (c : CoreId) (code : Nat) (s : State) : State :=
  notice 4 (s.modCore c fun x => { x with trap := { x.trap with
    stopped := true
    tcause := x.trap.tcause ||| ((1 : W64) <<< 62) ||| (BitVec.ofNat 64 (code % 16) <<< 4) } })

/-- A cluster whose freeze counts afresh toward FRZLIM (R40). -/
def restartFreeze (k : Cluster) : Cluster := { k with freeze := k.freeze.map fun f => { f with run := 0 } }

/-- `tret` (R124): VALID is cleared, LEAD leaves handler state, and FRZLIM counts afresh (R40). The clock goes on when no
other core of the cluster has a trap pending, because a tick asks for that. -/
def leaveTrap (c : CoreId) (s : State) : State :=
  let s := s.modCore c fun x => { x with trap := { x.trap with
    handler := false, stopped := false, hbuf := []
    tcause := x.trap.tcause &&& ~~~((1 : W64) <<< 63) } }
  s.modCluster c.cluster restartFreeze

/-- An AP fault (R118, R191): the AP halts at its word before the word has any effect. -/
def apFault (c : CoreId) (f : ApFault) (s : State) : State :=
  s.modCore c fun x => { x with ap := { x.ap with fault := some f, host := none } }

/-- The fault of an AP at its present word. -/
def apFaultOf (s : State) (c : CoreId) (cause detail lvl : Nat) (needW : Bool) (va : W64) : ApFault :=
  let n := nextOf s c .ap
  { cause, detail, level := lvl, needW, va, inUi := (s.core c).ap.inUi, addr := wordAddr n.pos, pitch := n.name.1
    word := n.name.2, posted := false }

/-- The fault of a translation; the record's address is `va`, and zero for cause 2 (R192). -/
def apWalkFault (s : State) (c : CoreId) (f : WalkFault) (va : Nat) : ApFault :=
  apFaultOf s c f.cause f.detail f.lvl f.needW (if f.cause = 2 then 0 else BitVec.ofNat 64 va)

/-- The requester that the word of an engine is. -/
def reqOf (s : State) (c : CoreId) (e : Engine) : Req :=
  let n := nextOf s c e
  { eng := e, pitch := n.pos.pitch, word := n.pos.off }

end Sys2Proof.Machine
end

