-- ==== Sys2Proof/Machine/Errors.lean ====
section
/-! DEFINITION. Detected errors: records, the error ring, self-test and repair (R433-R440), and power (R444). -/

namespace Sys2Proof.Machine

/-! ### Records (R436, R437) -/

/-- The record of an error; its sequence number is put in when it is written. -/
def errorRecord (kind : Nat) (uncorr : Bool) (cls inst world : Nat) (addr : W64) (spares : Nat) : BitVec 256 :=
  BitVec.ofNat 256 (kind % 16 + (if uncorr then 2 ^ 4 else 0) + 2 ^ 5 * (cls % 4) + 2 ^ 8 * (inst % 256) + 2 ^ 16 * (world % 16)
    + 2 ^ 64 * addr.toNat + 2 ^ 128 * (spares % 2 ^ 16))

/-- Is a record of a corrected error? -/
def recordCorrected (r : BitVec 256) : Bool := !r.getLsbD 4

/-- A list without its first element of a kind. -/
def dropFirst {α : Type} (p : α → Bool) : List α → List α
  | [] => []
  | a :: r => if p a then r else a :: dropFirst p r

/-- A record put into the guide core's store of 64: when it is full the oldest corrected record gives way, and a corrected
record that finds only uncorrectable ones is the one discarded (R437). -/
def storeRecord (r : BitVec 256) (s : State) : State :=
  let l := s.sys.errs
  let l' := if l.length < 64 then l ++ [r]
    else if l.any recordCorrected then dropFirst recordCorrected l ++ [r]
    else if recordCorrected r then l else l ++ [r]
  { s with sys := { s.sys with errs := l' } }

/-- ERROR_RECORD_POST (R437): the oldest stored record is written to the ring once the ring is enabled and has room,
unless HBM has no verified firmware (R425). -/
def postError (s : State) : State :=
  match s.sys.errs with
  | [] => s
  | r :: rest =>
    let base := bitsN s.sys.errbase.toNat 12 40 * 4096
    let size := 2 ^ s.sys.errsize.toNat
    if base = 0 ∨ s.sys.failed.contains 4 ∨ size ≤ (s.sys.errtail - s.sys.errhead).toNat then s
    else
      let rec' := r.toNat + 2 ^ 192 * s.sys.errseq.toNat
      let s := devicePut 0 (base + 32 * (s.sys.errtail.toNat % size)) (bytesOfNat 32 rec') s
      notice 3 { s with sys := { s.sys with errs := rest, errtail := s.sys.errtail + 1, errseq := s.sys.errseq + 1 } }

/-! ### Detection and self-test (R436, R439) -/

/-- The name of a supply of spares: a unit's kind, its instance and the part of the instance; 15 for a cluster's spare core. -/
abbrev SpareKey := BitVec 4 × BitVec 8 × Nat

/-- The spares that a supply has at first (R439): 16 rows of an HBM bank, 8 of a ledge, the cluster's spare core, one lane of a
port. -/
def firstSpares (kind : Nat) : Nat :=
  match kind with
  | 1 => 16 | 3 => 8 | 6 => 1 | 7 => 1 | 15 => 1 | _ => 0

/-- The spare core of the cluster that holds a core. -/
def spareCore (inst : BitVec 8) : SpareKey := (15, BitVec.ofNat 8 (coreOf inst.toNat).cluster.val, 0)

/-- The supply that an error's unit takes its spares from (R439): an HBM bank (log 10), a ledge, a cluster's spare core, a port. -/
def spareKey (x : Suspect) : SpareKey :=
  match x.kind.toNat with
  | 1 => (1, x.inst, x.addr.toNat / (12 * 4096) % 64)
  | 3 => (3, x.inst, x.addr.toNat / 2 ^ 17 % 16)
  | 4 | 5 => spareCore x.inst
  | _ => (x.kind, x.inst, 0)

/-- The spares left. -/
def sparesLeft (s : State) (k : SpareKey) : Nat := (assocGet k s.repair.spares).getD (firstSpares k.1.toNat)

/-- The spares of a supply set. -/
def setSpares (k : SpareKey) (n : Nat) (s : State) : State :=
  { s with repair := { s.repair with spares := assocPut k n s.repair.spares } }

/-- The team of the job on a core asked to suspend at its next `rdv.flip` (R132); with DRAINLIM = 0 the request escalates to a
forced save at once (R125, R133). -/
def requestPreempt (c : CoreId) (s : State) : State :=
  match jobOf s c with
  | some j =>
    let asked := j.team.all fun d => (s.core d).csr.preq
    let s := j.team.foldl (fun s d => s.modCore d fun x => { x with csr := { x.csr with preq := true } }) s
    if decide (j.plane.drainlim = 0) && !asked then { s with sched := .save j.id :: s.sched } else s
  | none => s

/-- Units whose drain point is the resident team's next `rdv.flip` (R439). -/
def coreUnit (kind : BitVec 4) : Bool := decide (kind = 3) || decide (kind = 4) || decide (kind = 5)

/-- An error detected: recorded once as pending, and its unit waits for its test (R436, R439). -/
def detectError (x : Suspect) (s : State) : State :=
  if s.repair.suspects.contains x then s
  else
    let s := storeRecord (errorRecord x.kind.toNat x.uncorr 0 x.inst.toNat x.world.toNat x.addr
      (sparesLeft s (spareKey x))) s
    let s := { s with repair := { s.repair with suspects := s.repair.suspects ++ [x] } }
    if coreUnit x.kind then requestPreempt (coreOf x.inst.toNat) s else s

/-- The HBM stack of an address (R180). -/
def stackOf (pa : Nat) : BitVec 8 := BitVec.ofNat 8 (pa / 4096 % 12)

/-- An uncorrectable 64-byte unit of HBM, or one that fails its tag, met by a reader of a world. -/
def detectHbm (pa : Nat) (w : World) (s : State) : State :=
  detectError { kind := 1, inst := stackOf pa, addr := BitVec.ofNat 64 (pa / 64 * 64), world := w, uncorr := true } s

/-- The cluster whose L2 slice a line of a face lies in, as the instance of a record (log 10). -/
def sliceOf (f : Fin 4) (pa : Nat) : BitVec 8 := BitVec.ofNat 8 (8 * f.val + pa / 128 % 8)

/-- The error that a walk meets at a table entry (R188). -/
def noteWalk (f : WalkFault) (s : State) : State := if f.cause = 11 then detectHbm f.pte 0 s else s

/-- A parity error of a core's ledges or vector file. -/
def detectCore (kind : BitVec 4) (c : CoreId) (addr : W64) (s : State) : State :=
  detectError { kind, inst := BitVec.ofNat 8 c.val, addr, world := (s.core c).csr.world, uncorr := true } s

/-- An uncorrectable word of flow-state memory, by its record's word address. -/
def detectFlow (a : Nat) (s : State) : State :=
  detectError { kind := 8, inst := 0, addr := BitVec.ofNat 64 (4 * a), world := 0, uncorr := true } s

/-- Does a suspect wait for its drain point: a core unit with a resident team (R439)? -/
def beforeDrain (s : State) (x : Suspect) : Bool := coreUnit x.kind && (s.core (coreOf x.inst.toNat)).job.isSome

/-- A rope port taken down (R346). -/
def portDown (p : Fin 24) (s : State) : State :=
  { s with fabric := { s.fabric with ports := s.fabric.ports.set p { s.fabric.ports[p] with up := false, outq := [], wait := [], wantReplay := none } } }

/-- The lanes of a rope port (R1). -/
def ropeLanes : Nat := 8

/-- Has a rope port lost every lane (R439)? -/
def portLost (s : State) (p : Nat) : Bool :=
  decide (ropeLanes ≤ (s.repair.disabled.filter fun x => decide (x = ((6 : BitVec 4), BitVec.ofNat 8 p))).length)

/-- The rope ports trained (R431, R449): every port with a lane left is up (log 18), if the SerDes firmware runs (R425). -/
def trainPorts (s : State) : State :=
  let ports : Vector Port 24 := Vector.ofFn fun p =>
    { s.fabric.ports[p] with up := s.fabric.ports[p].up || (!portLost s p.val && !s.sys.failed.contains 3) }
  { s with fabric := { s.fabric with ports } }

/-- A unit with no spare left is disabled: of a rope port a lane, and the port goes down with its last (R439). -/
def disableUnit (kind : BitVec 4) (inst : BitVec 8) (s : State) : State :=
  let s := { s with repair := { s.repair with disabled := (kind, inst) :: s.repair.disabled } }
  if kind = 6 ∧ portLost s inst.toNat then portDown (Fin.ofNat 24 inst.toNat) s else s

/-- A spare core in the place of one that fails: it takes its index, and its registers and ledges are as at reset (R439, log 10). -/
def replaceCore (c : CoreId) (s : State) : State :=
  s.modCore c fun x => { Core.reset with csr := { Csrs.reset with world := x.csr.world } }

/-- A spare of the supply of a unit mapped in; none where it has none. -/
def takeSpare (x : Suspect) (s : State) : Option State :=
  let k := spareKey x
  let n := sparesLeft s k
  if 0 < n then
    let s := setSpares k (n - 1) s
    some (if k.1 = 15 then replaceCore (coreOf x.inst.toNat) s else s)
  else if x.kind = 3 ∧ 0 < sparesLeft s (spareCore x.inst) then
    some (replaceCore (coreOf x.inst.toNat) (setSpares (spareCore x.inst) (sparesLeft s (spareCore x.inst) - 1) s))
  else none

/-- A suspect's test: whether it passes is open (log 10); the outcome is recorded, and a lasting error takes a spare or
disables the unit. A line of the L2 level is written back or discarded before its test; a retired way needs no spare. -/
def testSuspect (x : Suspect) (s : State) : State :=
  let pass := Config.selfTestPass s.free
  let s := if x.kind = 2 then evictLine s (ClusterId.face (Fin.ofNat 32 x.inst.toNat)) (x.addr.toNat / 128) else s
  let s := { s with free := s.free + 1, repair := { s.repair with suspects := s.repair.suspects.filter fun y => decide (y ≠ x) } }
  let left := sparesLeft s (spareKey x)
  let note (cls left : Nat) : State → State :=
    storeRecord (errorRecord x.kind.toNat x.uncorr cls x.inst.toNat x.world.toNat x.addr left)
  if pass then note 1 left s
  else
    let s := { s with repair := { s.repair with store := s.repair.store ++ [x] } }
    if x.kind = 2 then note 2 0 s
    else
      match takeSpare x s with
      | some s => note 2 (sparesLeft s (spareKey x)) s
      | none => note 3 0 (disableUnit x.kind x.inst s)

/-- SELF_TEST (R439): the first suspect at its drain point is tested. -/
def selfTestUnit (s : State) : State :=
  match s.repair.suspects.find? fun x => !beforeDrain s x with
  | some x => testSuspect x s
  | none => s

/-- Is a core out of use: disabled, or waiting for its self-test (R439)? -/
def coreDisabled (s : State) (c : CoreId) : Bool :=
  s.repair.disabled.any (fun x => coreUnit x.1 && decide (x.2.toNat = c.val))
    || s.repair.suspects.any fun x => coreUnit x.kind && decide (x.inst.toNat = c.val)

/-! ### Errors that strike (R433) -/

/-- The error that a lane of a link shows, corrected by a replay or a retry (R433, R436). -/
def detectLane (kind : BitVec 4) (inst lane : Nat) (s : State) : State :=
  detectError { kind, inst := BitVec.ofNat 8 inst, addr := BitVec.ofNat 64 lane, world := 0, uncorr := false } s

/-- A 64-byte unit of HBM poisoned. -/
def poisonUnit (pa : Nat) (s : State) : State :=
  { s with mem := { s.mem with poison := sput false s.mem.poison (pa / 64) true } }

/-- An error strikes: its check corrects it, and it is recorded; or the place fails its check until it is written, and is recorded
when it is read (R433, R436). An error of a line of the L2 level that is not corrected poisons the unit. -/
def strikeAt (x : Strike) (s : State) : State :=
  match x with
  | .symbol pa =>
    detectError { kind := 1, inst := stackOf pa, addr := BitVec.ofNat 64 (pa / 64 * 64), world := 0, uncorr := false } s
  | .poison pa => if inHbm pa 1 then poisonUnit pa s else s
  | .l2 f pa fatal =>
    match l2Get s f (pa / 128) with
    | none => s
    | some l =>
      let s := if fatal then poisonUnit pa (evictLine s f (pa / 128)) else s
      detectError { kind := 2, inst := sliceOf f pa, addr := BitVec.ofNat 64 pa, world := l.world, uncorr := fatal } s
  | .ledge c a => s.modCore c fun x => { x with parityBad := sput false x.parityBad (a / 4 % 0x80000) true }
  | .file c k => s.modCore c fun x => { x with vecBad := sput false x.vecBad k true }
  | .bench c => s.modCore c fun x => { x with bench := { x.bench with upset := true } }
  | .flow w fatal =>
    if fatal then { s with cairn := { s.cairn with flowBad := sput false s.cairn.flowBad w true } }
    else detectError { kind := 8, inst := 0, addr := BitVec.ofNat 64 (4 * w), world := 0, uncorr := false } s
  | .rope p lane => detectLane 6 p.val lane s
  | .tether lane => detectLane 7 lane lane s

/-! ### Power (R444) -/

/-- THROTTLE_ADJUST (R444): the power of the last millisecond is measured (log 9); above CAP the clocks go down one step,
and at least 5 % below CAP they come up one. -/
def throttle (s : State) : State :=
  let w := Config.watts s.free
  let cap := s.sys.cap.toNat
  let steps := if cap < w.toNat then s.sys.steps + 1
    else if w.toNat * 100 ≤ cap * 95 then s.sys.steps - 1 else s.sys.steps
  { s with free := s.free + 1, sys := { s.sys with wattsRead := w, steps, throt := decide (0 < steps) } }

end Sys2Proof.Machine
end

