-- ==== Sys2Proof/Machine/Tether.lean ====
section
/-! DEFINITION. Packets on the tether: protection under a session, posted writes, non-posted requests and their completions
(R182, R198, R319, R421-R424). The header layout of a packet is not in the manual: the model's headers hold the physical
address, the virtual function that asks (R182) and the core (log 7). -/

namespace Sys2Proof.Machine

/-! ### Sessions and packets -/

/-- The session of a virtual function. -/
def session (s : State) (v : Nat) : Session := vget s.tether.sess v Session.reset

/-- The state with a session changed. -/
def State.modSess (s : State) (v : Nat) (f : Session → Session) : State :=
  { s with tether := { s.tether with sess := vset s.tether.sess v (f (session s v)) } }

/-- SALT xor the counter (R422). -/
def ivOf (salt : BitVec 96) (ctr : W64) : BitVec 96 := salt ^^^ ctr.setWidth 96

/-- A packet header of the model. -/
def packetHeader (v : Nat) (c : CoreId) (pa : Nat) : List Byte :=
  bytesOfNat 8 pa ++ [BitVec.ofNat 8 v, BitVec.ofNat 8 c.val]

/-- Does a sub-stream wait for a rekey (R422)? -/
def needsRekey (x : Session) (k : Fin 3) : Bool := x.active && decide (2 ^ x.rklog.toNat ≤ x.ctr[k].toNat)

/-- A packet handed to the link: sealed and counted under an active session, in the clear otherwise. -/
def sendPacket (v : Nat) (k : Fin 3) (p : Packet) (s : State) : State :=
  let x := session s v
  if x.active then
    let (body, tag) := Config.gcmSeal (vget x.keys k.val 0) (ivOf (vget x.salts k.val 0) x.ctr[k]) p.hdr p.body
    let s := s.modSess v fun x => { x with ctr := x.ctr.set k (x.ctr[k] + 1) }
    { s with tether := { s.tether with out := s.tether.out ++ [(v, k.val, { p with body, tag })] } }
  else { s with tether := { s.tether with out := s.tether.out ++ [(v, k.val, p)] } }

/-- Does the core's function hold an active session (R424)? -/
def sessionActive (s : State) (c : CoreId) : Bool := (session s (vfOf s c)).active

/-- Bytes at host memory. -/
def hostPut (pa : Nat) (l : List Byte) (s : State) : State :=
  { s with mem := { s.mem with host := sputs 0 s.mem.host (pa - 0x8_0000_0000_0000) l } }

/-- Bytes of host memory. -/
def hostBytes (s : State) (pa n : Nat) : List Byte := sgets 0 s.mem.host (pa - 0x8_0000_0000_0000) n

/-! ### Posted writes (R198, R319) -/

/-- The packet of a posted write. -/
def postedPacket (v : Nat) (c : CoreId) (pa : Nat) (l : List Byte) : Packet :=
  { hdr := packetHeader v c pa, body := l, tag := 0, req := 0 }

/-- A posted write past egress: at the host. -/
def passPosted (v : Nat) (p : Packet) (s : State) : State := hostPut (natOfBytes (p.hdr.take 8)) p.body (sendPacket v 0 p s)

/-- Must a posted write of the function wait before egress: for a rekey, or behind one that does (R422)? -/
def postedWaits (x : Session) : Bool := needsRekey x 0 || !x.held.isEmpty

/-- Is the oldest store of an AP a posted write that waits before egress? It then stays where it is, and every later store
behind it. -/
def storeBlocked (s : State) (c : CoreId) : Bool :=
  match (s.core c).ap.storeQ with
  | [] => false
  | o :: _ => inHost ((o.cells.head?.map Prod.fst).getD 0) && postedWaits (session s (vfOf s c))

/-- A store of an AP to host memory as a posted write. -/
def postedWrite (c : CoreId) (pa : Nat) (l : List Byte) (s : State) : State :=
  (passPosted (vfOf s c) (postedPacket (vfOf s c) c pa l) s).modCore c fun x => { x with ap := { x.ap with posted := true } }

/-- A posted write of a command: held while it must wait, past egress otherwise. -/
def commandWrite (c : CoreId) (id pa : Nat) (l : List Byte) (s : State) : State :=
  let v := vfOf s c
  let p := postedPacket v c pa l
  if postedWaits (session s v) then s.modSess v fun x => { x with held := x.held ++ [{ core := c, cmd := id, pkt := p }] }
  else passPosted v p s

/-- Do posted writes of a command wait before egress? -/
def writesHeld (s : State) (c : CoreId) (id : Nat) : Bool :=
  (session s (vfOf s c)).held.any fun h => decide (h.core = c) && decide (h.cmd = id)

/-! ### Non-posted requests (R182, R198, R319) -/

/-- Must a request of the core wait: for a rekey of its sub-stream, or for an earlier posted write of its function, which it
does not pass? -/
def requestBlocked (s : State) (c : CoreId) : Bool :=
  let v := vfOf s c
  let x := session s v
  x.active && (needsRekey x 1 || !x.held.isEmpty
    || (List.finRange 128).any fun d => decide (vfOf s d = v) && storeBlocked s d)

/-- One request sent under the session of the core's function; `op` is what the header says beside the place. -/
def sendRequest (c : CoreId) (cmd : Option Nat) (op : List Byte) (p : Piece) (s : State) : State :=
  let v := vfOf s c
  let id := s.tether.nextReq
  let s := sendPacket v 1 { hdr := packetHeader v c p.pa ++ bytesOfNat 4 p.len ++ op, body := [], tag := 0, req := id } s
  let s := { s with tether := { s.tether with nextReq := id + 1 } }
  s.modSess v fun x => { x with
    outstanding := x.outstanding ++ [{ id, core := c, cmd, va := p.va, len := p.len, use := p.use, live := true }] }

/-- Requests for parts of an access, one after another. -/
def sendRequests (c : CoreId) (cmd : Option Nat) : List (Nat × Piece) → State → List HostPart × State
  | [], s => ([], s)
  | (i, p) :: r, s =>
    let (l, t) := sendRequests c cmd r (sendRequest c cmd [] p s)
    ({ off := i, len := p.len, req := s.tether.nextReq, ans := none } :: l, t)

/-- A request in the clear: it goes out and its completion comes back within the access. -/
def clearRequest (c : CoreId) (p : Piece) (s : State) : State :=
  sendPacket (vfOf s c) 1 { hdr := packetHeader (vfOf s c) c p.pa ++ bytesOfNat 4 p.len, body := [], tag := 0, req := 0 } s

/-- Has every request been answered? -/
def allAnswered (l : List HostPart) : Bool := l.all fun p => p.ans.isSome

/-- The byte at an offset that answered requests bring: none where there is none or it failed. -/
def partByte (l : List HostPart) (i : Nat) : Option Byte :=
  match l.find? fun p => decide (p.off ≤ i) && decide (i < p.off + p.len) with
  | some p => match p.ans with
    | some (some b) => some (b.getD (i - p.off) 0)
    | _ => none
  | none => none

/-- A request's answer put where its part waits for it. -/
def answerPart (id : Nat) (a : Option (List Byte)) (l : List HostPart) : List HostPart :=
  l.map fun p => if p.req = id ∧ p.ans = none then { p with ans := some a } else p

/-- A core with a request's answer, for its AP's word or for a running command. -/
def answerCore (id : Nat) (a : Option (List Byte)) (x : Core) : Core :=
  { x with
    ap := { x.ap with host := x.ap.host.map fun w => { w with parts := answerPart id a w.parts } }
    hostIn := x.hostIn.map fun e => (e.1, answerPart id a e.2) }

/-- A core whose AP waits for no completion. -/
def clearWait (x : Core) : Core := { x with ap := { x.ap with host := none } }

end Sys2Proof.Machine
end

