-- ==== Sys2Proof/Machine/Access.lean ====
section
/-! DEFINITION. How an AP's accesses reach memory: its store queue, its held lines, the L2 level of its face, the HBM
controllers and host memory (R150, R181, R182, R188, R311-R319, R330). -/

namespace Sys2Proof.Machine

/-- The youngest byte that the store queue holds for a virtual address (R150, R315). -/
def forwardByte (va : Nat) : List StoreOp → Option Byte → Option Byte
  | [], best => best
  | o :: r, best =>
    forwardByte va r (if o.va ≤ va ∧ va < o.va + o.cells.length then ((o.cells[va - o.va]?).map Prod.snd).or best else best)

/-- The ASID of a core's job (R183). -/
def asidOf (x : Core) : BitVec 16 := x.csr.xlate.extractLsb' 48 16

/-- A held line for a virtual address (R313). -/
def heldLine (x : Core) (va : Nat) : Option HeldLine :=
  x.ap.held.find? fun h => decide (h.va / 128 = va / 128) && decide (h.asid = asidOf x)

/-- A core that holds a line, the oldest of 16 giving way (R313). -/
def holdLine (h : HeldLine) (x : Core) : Core := { x with ap := { x.ap with held := (h :: x.ap.held).take 16 } }

/-- One byte of device memory loaded by an AP past its store queue: from a held line, or from the face's L2 level, whose
line is then held (R315); a failed integrity check or poisoned data as cause and detail (R188). -/
def loadDevice (s : State) (c : CoreId) (va pa : Nat) : Except (Nat × Nat) (Byte × State) :=
  let x := s.core c
  match heldLine x va with
  | some h => if h.bad.getLsbD (pa / 64 % 2) then .error (11, 2) else .ok (rowByte h.data (pa % 128), s)
  | none =>
    let (r, bad, s) := l2Read s c.face x.csr.world (pa / 128)
    if bad then .error (10, 2)
    else if poisonSeen s c.face pa then .error (11, 2)
    else
      let units := BitVec.ofBool (poisonSeen s c.face (pa / 128 * 128 + 64)) ++ BitVec.ofBool (poisonSeen s c.face (pa / 128 * 128))
      .ok (rowByte r (pa % 128)
        , s.modCore c (holdLine
            { va := va / 128 * 128, asid := asidOf x, pa := pa / 128 * 128, data := r, bad := units }))

/-- `n` bytes of device memory loaded one after another; a byte of an earlier store of the AP, in `fwd`, comes first
(R315). -/
def loadBytes (c : CoreId) : Nat → Nat → List (Option Byte) → State → Except (Nat × Nat) (List (Option Byte) × State)
  | _, _, [], s => .ok ([], s)
  | va, pa, b :: r, s =>
    match b with
    | some b =>
      match loadBytes c (va + 1) (pa + 1) r s with
      | .error e => .error e
      | .ok (l, s) => .ok (some b :: l, s)
    | none =>
      match loadDevice s c va pa with
      | .error e => .error e
      | .ok (b, s) =>
        match loadBytes c (va + 1) (pa + 1) r s with
        | .error e => .error e
        | .ok (l, s) => .ok (some b :: l, s)

/-- Read-ahead (R313): the AP takes the line of an address that its TLB maps, unless it holds it. -/
def readAhead (c : CoreId) (va : Nat) (s : State) : State :=
  let x := s.core c
  match tlbFind x va with
  | none => s
  | some e =>
    let pa := e.pa + va % 2 ^ e.bits
    if x.job.isSome && x.ap.fault.isNone && inHbm pa 1 && (leafCheck s c (apPriv x) .read e va 1 0).isNone then
      match loadDevice s c va pa with
      | .ok (_, s) => s
      | .error _ => s
    else s

/-- Held lines through a virtual address and ASID removed from every AP of a face (R315). -/
def dropHeldVa (f : Fin 4) (va : Nat) (asid : BitVec 16) (s : State) : State :=
  { s with cores := s.cores.mapFinIdx fun i x _ =>
      if i / 32 = f.val then
        { x with ap := { x.ap with held := x.ap.held.filter fun h => !(decide (h.va / 128 = va / 128) && decide (h.asid = asid)) } }
      else x }

/-- One byte of a store that leaves the store queue for device memory (R314). -/
def performByte (f : Fin 4) (o : StoreOp) (i : Nat) (cell : Host.Cell) (s : State) : State :=
  dropHeldVa f (o.va + i) o.asid (l2Write f o.world [cell] s)

/-- A store of an AP performed at face scope (R314), at the host as a posted write (R182), or at the register region, where
it takes effect before the step ends. -/
def performStore (c : CoreId) (o : StoreOp) (s : State) : State :=
  let pa := (o.cells.head?.map Prod.fst).getD 0
  if inRegs pa then { s with regq := s.regq ++ [(pa, o.cells.map Prod.snd)] }
  else if inHost pa then postedWrite c pa (o.cells.map Prod.snd) s
  else (o.cells.mapIdx fun i cell => (i, cell)).foldl (fun s (i, cell) => performByte c.face o i cell s) s

/-- A core in which the popped store-queue place of a performed `qst` is free again (R147): the first entry leaves. -/
def freePlace (wq : Option (Fin 4)) (x : Core) : Core :=
  match wq with
  | some q => { x with vec := { x.vec with w := x.vec.w.set q ((x.vec.w[q]).drop 1) } }
  | none => x

/-- The oldest store of an AP leaves its store queue (R314), unless it must wait before egress. -/
def drainStore (c : CoreId) (s : State) : State :=
  match (s.core c).ap.storeQ with
  | [] => s
  | o :: r =>
    if storeBlocked s c then s
    else performStore c o (s.modCore c fun x => freePlace o.wq { x with ap := { x.ap with storeQ := r } })

/-- `n` stores of an AP leave its store queue. -/
def drainStores (c : CoreId) : Nat → State → State
  | 0, s => s
  | n + 1, s => drainStores c n (drainStore c s)

/-- Every store that the AP has issued performs at face scope, up to one that must wait before egress. -/
def drainAll (c : CoreId) (s : State) : State := drainStores c (s.core c).ap.storeQ.length s

/-- Has every store of the AP left its store queue? -/
def storesDone (s : State) (c : CoreId) : Bool := (s.core c).ap.storeQ.isEmpty

/-- A core whose AP holds no lines. -/
def dropHeldLines (x : Core) : Core := { x with ap := { x.ap with held := [] } }

/-- The release of R318: every dirty line of the AP's world in its face is written back, after the AP's own stores. -/
def releaseAp (c : CoreId) (s : State) : State :=
  let s := drainAll c s
  releaseFace c.face (s.core c).csr.world s

/-- The acquire of R318: the AP's held lines and every clean line of its world in its face are discarded. -/
def acquireAp (c : CoreId) (s : State) : State :=
  (discardClean c.face (s.core c).csr.world s).modCore c dropHeldLines

/-- The orders of R151: earlier stores perform; at package scope and wider the release and the acquire. -/
def fenceAp (c : CoreId) (scope : Nat) (rel acq : Bool) (s : State) : State :=
  let s := if rel then drainAll c s else s
  let s := if 5 ≤ scope && rel then releaseAp c s else s
  if 5 ≤ scope && acq then acquireAp c s else s

/-- The team scope (R324): the narrowest of cluster, face and package that holds every core of a team. -/
def teamScope (team : List CoreId) : Nat :=
  match team with
  | [] => 3
  | c :: r =>
    if r.all fun d => decide (d.cluster = c.cluster) then 3 else if r.all fun d => decide (d.face = c.face) then 4 else 5

/-- A core in which the data of every `qld` have arrived. -/
def arriveAll (x : Core) : Core :=
  { x with vec := { x.vec with q := x.vec.q.map fun l => l.map fun e => { e with pending := none } } }

/-- Every access that the AP has issued performs at package scope, and its held lines are gone (R330). -/
def settleAp (c : CoreId) (s : State) : State := (releaseAp c s).modCore c fun x => arriveAll (dropHeldLines x)

/-- An atomic at scope 5-10 first takes the line out of the issuing face (R317). -/
def takeLine (c : CoreId) (pa : Nat) (s : State) : State := dropHeld c.face (pa / 128) (evictLine s c.face (pa / 128))

/-- The bytes of a location as an atomic at a scope reads it, past the AP's store queue (R317): cause and detail on a
failed check. -/
def atomicRead (s : State) (c : CoreId) (scope pa n : Nat) : Except (Nat × Nat) (List Byte × State) :=
  let w := (s.core c).csr.world
  if inHost pa then .ok (hostBytes s pa n, s)
  else if scope ≤ 4 then
    let (r, bad, s) := l2Read s c.face w (pa / 128)
    if bad then .error (10, 2)
    else if poisonSeen s c.face pa then .error (11, 2)
    else .ok ((List.range n).map fun i => rowByte r (pa % 128 + i), s)
  else
    let s := takeLine c pa s
    let (r, bad) := hbmLineFor s w (pa / 128)
    if bad then .error (10, 2)
    else if poisoned s pa n then .error (11, 2)
    else .ok ((List.range n).map fun i => rowByte r (pa % 128 + i), s)

/-- The bytes of a location as an atomic at a scope writes it (R317); the writer's own face then holds no older copy. -/
def atomicWrite (c : CoreId) (scope va pa : Nat) (l : List Byte) (s : State) : State :=
  let x := s.core c
  if inHost pa then hostPut pa l s
  else if scope ≤ 4 then dropHeldVa c.face va (asidOf x) (l2Write c.face x.csr.world (cellsAt pa l) s)
  else hbmPut x.csr.world (cellsAt pa l) s

end Sys2Proof.Machine
end

