-- ==== Sys2Proof/Machine/Plan.lean ====
section
/-! DEFINITION. What a word asks of its issue: the late operands it meets, the causes it raises, what it touches at the
tick, and what it does (R36, R37, R117). Every word's meaning is written as such a plan; the tick of a cluster and the
untimed issue of the AP and of handlers carry plans out. -/

namespace Sys2Proof.Machine

/-- What a timed word or access touches at a tick, as far as two of them can meet: a register write (physical code and
quarter), a push into a store queue, a pop of a load queue, a ledge access, the cluster bus, a half of a B buffer (R45, R49, R87, R241,
R256). -/
inductive Touch where
  | write (code q : Nat)
  | push (code : Nat)
  | pop (code : Nat)
  | ledge (l : Nat)
  | bus
  | claim (core : Nat)
deriving DecidableEq, Repr

/-- Who issues a word, and the state it reads: the state at the tick, after the quarter writes that land there. -/
structure Ctx where
  s : State
  c : CoreId
  e : Engine
  req : Req
  now : Nat

/-- The issuing core. -/
def Ctx.core (k : Ctx) : Core := k.s.core k.c

/-- A word's plan. `lates` are (kind, object) pairs (R37); `causes` the causes it raises; `fault` a fault of the AP's
translation; `act` its effect; `idle` the count of `idle`; `skip` the offset of a skipped loop body's end word; `wait`
the effect that the word has although it waits; `after` an effect that follows those of every word of the tick. -/
structure Plan where
  lates : List (Nat × Nat) := []
  causes : List TrapCause := []
  fault : Option ApFault := none
  touches : List Touch := []
  act : State → State := id
  idle : Nat := 0
  skip : Option Nat := none
  leave : Bool := false
  wait : State → State := id
  after : State → State := id

/-- A cause of the word itself; the detail of a privilege cause is for AP records only (R126, R192). -/
def ownCause (k : Ctx) (code detail obj : Nat) : TrapCause :=
  causeBy k.req code (if code = 2 ∧ k.e ≠ .ap then 0 else detail) obj

/-- The plan that raises one cause. -/
def planCause (k : Ctx) (code detail obj : Nat) : Plan := { causes := [ownCause k code detail obj] }

/-- A plan whose whole effect is on the issuing core. -/
def planCore (k : Ctx) (touches : List Touch) (f : Core → Core) : Plan := { touches, act := fun s => s.modCore k.c f }

/-- A plan with further late operands. -/
def Plan.withLates (p : Plan) (l : List (Nat × Nat)) : Plan := { p with lates := l ++ p.lates }

/-- A plan with further causes. -/
def Plan.withCauses (p : Plan) (l : List TrapCause) : Plan := { p with causes := l ++ p.causes }

/-! ### Scalar operands -/

/-- The late operand of reading a scalar register (R82): kind 7 with the register's code. -/
def lateReg (k : Ctx) (code : RegCode) : List (Nat × Nat) :=
  if pendingReg k.core k.e code then [(7, code.toNat)] else []

/-- The late operand of reading a predicate slot (R94): kind 3 with the slot's code. -/
def lateSlot (k : Ctx) (code : RegCode) : List (Nat × Nat) :=
  if slotWritten k.core (inTrap k.core k.e) (slotNo code) then [] else [(3, code.toNat)]

/-- A slot's value as the word reads it. -/
def slotOf (k : Ctx) (code : RegCode) : Bool := slotVal k.core (inTrap k.core k.e) (slotNo code)

/-- Is the issuing engine timed here: not the AP, and not LEAD in handler state? -/
def Ctx.timed (k : Ctx) : Bool := k.e.timed && !inTrap k.core k.e

/-- What writing a scalar register meets when the register is a pending reply destination (R82): in LEAD the cause
(4, 10), in the AP and in handler state a wait. -/
def writePending (k : Ctx) (code : RegCode) (p : Plan) : Plan :=
  if pendingReg k.core k.e code then
    (if k.timed then p.withCauses [ownCause k 4 10 0] else p.withLates [(7, code.toNat)])
  else p

/-- The touch of a timed write to a scalar register; a write of s0 touches nothing. -/
def touchReg (k : Ctx) (code : RegCode) : List Touch :=
  if k.timed && decide (code.toNat % 32 ≠ 0) then [.write code.toNat 0] else []

/-- The touch of a timed write to a slot. -/
def touchSlot (k : Ctx) (code : RegCode) : List Touch := if k.timed then [.write code.toNat 0] else []

/-- A plan that writes a scalar register at its issue tick (R86). -/
def planReg (k : Ctx) (lates : List (Nat × Nat)) (d : RegCode) (v : W64) : Plan :=
  writePending k d { lates, touches := touchReg k d, act := fun s => s.modCore k.c (writeReg k.e d v) }

/-- Does a write of the slot meet a running stage range (R95)? The handler's bank has none. -/
def stageHit (k : Ctx) (code : RegCode) : Bool := !inTrap k.core k.e && inStageRange k.core (slotNo code)

/-- A core in which a discarded AP write of a slot is to be reported at the next tick (R95). -/
def noteApWrite (r : Req) (x : Core) : Core := { x with ap := { x.ap with apWrites := x.ap.apWrites ++ [(r.pitch, r.word)] } }

/-- A plan that changes a predicate slot (R93-R95): in a running stage range a timed write is a cause and an AP write is
discarded and noted. -/
def planSlotWith (k : Ctx) (lates : List (Nat × Nat)) (d : RegCode) (f : Core → Core) : Plan :=
  if stageHit k d then
    (if k.timed then { lates, causes := [ownCause k 4 6 0] }
     else { lates, act := fun s => s.modCore k.c (noteApWrite k.req) })
  else { lates, touches := touchSlot k d, act := fun s => s.modCore k.c f }

/-- A plan that writes a predicate slot. -/
def planSlot (k : Ctx) (lates : List (Nat × Nat)) (d : RegCode) (b : Bool) : Plan :=
  planSlotWith k lates d (writeSlot (inTrap k.core k.e) (slotNo d) b)

/-- imm36 sign-extended to 64 bits (R91). -/
def immS (f : Fld) : W64 := f.imm.signExtend 64

/-! ### Landing of timed writes -/

/-- A store-queue entry with a quarter written (R13). -/
def sqPut (l : Latch) (es : List SqEntry) : List SqEntry :=
  es.map fun e =>
    if e.eng = l.eng ∧ e.at_ = l.at_ then { e with img := setSlice e.img (8192 * l.q) l.val, have_ := putBit e.have_ l.q true }
    else e

/-- A core with a due latch written (R86, R121, R253). -/
def landLatch (l : Latch) (x : Core) : Core :=
  let n := l.code.toNat
  match regClass n with
  | some .s => writeS false n (l.val.setWidth 64) x
  | some .p => writeSlot false (n - 0x90) (l.val.getLsbD 0) x
  | some .v => { x with
      vec := { x.vec with v := vset x.vec.v (4 * (n - 0x40) + l.q) l.val }
      vecBad := sput false x.vecBad (4 * n + l.q) false }
  | some .k => { x with
      vec := { x.vec with
        k := vset x.vec.k (n - 0x60) (setSlice (vget x.vec.k (n - 0x60) 0) (256 * l.q) (l.val.setWidth 256)) }
      vecBad := sput false x.vecBad (4 * n + l.q) false }
  | some .w => { x with vec := { x.vec with w := vset x.vec.w (n - 0x70) (sqPut l (vget x.vec.w (n - 0x70) [])) } }
  | _ => x

/-- Is the latch a scalar or slot write, which lands after the reads of its tick (R86)? -/
def isScalarLatch (l : Latch) : Bool :=
  match regClass l.code.toNat with
  | some .s | some .p => true
  | _ => false

/-- The touch of a latch that lands. -/
def touchLatch (l : Latch) : Touch :=
  match regClass l.code.toNat with
  | some .w => .write (1024 + 4 * l.at_ + l.code.toNat) l.q
  | _ => .write l.code.toNat l.q

end Sys2Proof.Machine
end

