-- ==== Sys2Proof/Machine/Switch.lean ====
section
/-! DEFINITION. The job slots of the switch: their registers, partitions, and the writes that wait for a slot's runs to end (R373,
R389). -/

namespace Sys2Proof.Machine

/-- Do two ranges of whole numbers meet? -/
def rangesMeet (a n b m : Nat) : Bool := decide (a < b + m) && decide (b < a + n)

/-! ### Registers of slots (R373) -/

def partCgrp (v : W64) : BitVec 16 := v.extractLsb' 48 16
def partKbase (v : W64) : Nat := bitsN v.toNat 34 14
def partKsize (v : W64) : Nat := bitsN v.toNat 21 13
def partPsize (v : W64) : Nat := bitsN v.toNat 10 11
def partPbase (v : W64) : Nat := bitsN v.toNat 0 10

/-- A slot of the switch. -/
def cairnSlot (s : State) (j : Fin 16) : CairnSlot := s.cairn.slots[j]

/-- The state with a slot changed. -/
def State.modCairn (s : State) (j : Fin 16) (f : CairnSlot → CairnSlot) : State :=
  { s with cairn := { s.cairn with slots := s.cairn.slots.set j (f (cairnSlot s j)) } }

/-- The state with a class of a slot changed. -/
def State.modClass (s : State) (j : Fin 16) (c : Fin 8) (f : CairnClass → CairnClass) : State :=
  s.modCairn j fun x => { x with classes := x.classes.set c (f x.classes[c]) }

/-- The slots by number. -/
def slotNumbers : List (Fin 16) := List.finRange 16

/-- The used slot that serves a group (R373). -/
def slotOfGroup (s : State) (g : BitVec 16) : Option (Fin 16) :=
  slotNumbers.find? fun j => decide (partPsize (cairnSlot s j).part ≠ 0) && decide (partCgrp (cairnSlot s j).part = g)

/-- Does a pair of register values keep a slot's place: inside the memories, and clear of the other used slots (R373)? -/
def placeFits (s : State) (j : Fin 16) (part mask : W64) : Bool :=
  decide (partPbase part + partPsize part ≤ 1024) && decide (partKbase part + partKsize part ≤ 16384)
    && (decide (partPsize part = 0) || slotNumbers.all fun i =>
      let y := cairnSlot s i
      decide (i = j) || decide (partPsize y.part = 0)
        || (!rangesMeet (partPbase part) (partPsize part) (partPbase y.part) (partPsize y.part)
          && (decide (mask &&& y.mask = 0) || decide (partKsize part = 0) || decide (partKsize y.part = 0)
            || !rangesMeet (partKbase part) (partKsize part) (partKbase y.part) (partKsize y.part))))

/-- Does a run of the slot wait or execute? -/
def slotBusy (s : State) (j : Fin 16) : Bool :=
  (s.cairn.queue.toList.any fun q => q.any fun m => decide (m.k.slot = j))
    || s.cairn.run.toList.any fun r => match r with
      | some r => decide (r.m.k.slot = j)
      | none => false

/-- Flow-state words from `lo` for `n` zeroed. -/
def zeroFlow (lo n : Nat) (s : State) : State :=
  { s with cairn := { s.cairn with
      flow := s.cairn.flow.filter fun p => decide (p.1 < lo) || decide (lo + n ≤ p.1)
      flowBad := s.cairn.flowBad.filter fun p => decide (p.1 < lo) || decide (lo + n ≤ p.1) } }

/-- A slot's partition zeroed. -/
def zeroPartition (j : Fin 16) (s : State) : State :=
  zeroFlow (1024 * partPbase (cairnSlot s j).part) (1024 * partPsize (cairnSlot s j).part) s

/-- The registers of a slot written: a pair that does not fit leaves both; a changed PBASE, PSIZE or CGRP zeroes the
partition. -/
def putCairnPart (j : Fin 16) (v : W64) (s : State) : State :=
  let x := cairnSlot s j
  if placeFits s j v x.mask then
    let moved := decide (partPbase v ≠ partPbase x.part) || decide (partPsize v ≠ partPsize x.part)
      || decide (partCgrp v ≠ partCgrp x.part)
    let s := s.modCairn j fun x => { x with part := v }
    if moved then zeroPartition j s else s
  else s

def putCairnMask (j : Fin 16) (v : W64) (s : State) : State :=
  if placeFits s j (cairnSlot s j).part v then s.modCairn j fun x => { x with mask := v } else s

def putSlotReg (w : Fin 16 × Bool × W64) (s : State) : State := if w.2.1 then putCairnMask w.1 w.2.2 s else putCairnPart w.1 w.2.2 s

/-- A write of a slot's register held until the slot's runs have ended (R389). -/
def holdSlotReg (w : Fin 16 × Bool × W64) (s : State) : State :=
  { s with cairn := { s.cairn with writes := s.cairn.writes ++ [w] } }

/-- The held writes of the slots whose runs have ended take effect, in their order. -/
def settleSlots (s : State) : State :=
  (s.cairn.writes.filter fun w => !slotBusy s w.1).foldl (fun s w => putSlotReg w s)
    { s with cairn := { s.cairn with writes := s.cairn.writes.filter fun w => slotBusy s w.1 } }

/-- CAIRNPART_WRITE and CAIRNMASK_WRITE (R373): a write waits while runs of the slot are queued or execute. -/
def writeCairnPart (j : Fin 16) (v : W64) (s : State) : State :=
  if slotBusy s j then holdSlotReg (j, false, v) s else putCairnPart j v s
def writeCairnMask (j : Fin 16) (v : W64) (s : State) : State :=
  if slotBusy s j then holdSlotReg (j, true, v) s else putCairnMask j v s

end Sys2Proof.Machine
end

