-- ==== Sys2Proof/Machine/Jobs.lean ====
section
/-! DEFINITION. Jobs and teams: replies and completion records of commands, job events, kill, and the saving and
restoring of cores (R81, R118, R127-R135, R161, R413). -/

namespace Sys2Proof.Machine

/-! ### Jobs by number -/

/-- A job by its number. -/
def jobById (s : State) (id : Nat) : Option Job := s.jobs.find? fun j => decide (j.id = id)

/-- The state with a job changed. -/
def State.modJob (s : State) (id : Nat) (f : Job → Job) : State :=
  { s with jobs := s.jobs.map fun j => if j.id = id then f j else j }

/-- Does the job hold cores: is it resident (R394, R429)? -/
def Job.resident (j : Job) : Bool :=
  match j.phase with
  | .suspended | .saved => false
  | _ => true

/-- The core of team position 0 (R118). -/
def Job.lead (j : Job) : CoreId := j.team.headD 0

/-- The members of a job: the present streams of every core in team position and engine order (R99, R100). -/
def members (s : State) (j : Job) : List (CoreId × Engine) :=
  (j.team.map fun c => (Engine.all.filter fun e => ((s.core c).stream e).present).map fun e => (c, e)).flatten

/-- The clusters of a team, each once. -/
def teamClusters (j : Job) : List ClusterId := (j.team.map CoreId.cluster).eraseDups

/-- Does a job of the package's jobs run on the core (R394)? -/
def residentOn (s : State) (c : CoreId) : Bool := (s.core c).job.isSome

/-! ### Replies and completion records -/

/-- The value of a completion record (R130). -/
def recordWord (fn status tag : Nat) : W64 :=
  BitVec.ofNat 64 (2 ^ 63 + fn % 256 * 2 ^ 48 + status % 256 * 2 ^ 40 + tag % 2 ^ 16)

/-- A core with a reply written (R82, R161): a register takes the value, a slot whether it is nonzero. `hnd` chooses the
handler's bank of LEAD, `intr` the shadow bank of the AP. -/
def writeReply (ap hnd intr : Bool) (d : RegCode) (v : W64) (x : Core) : Core :=
  if d = 0 then x
  else if isSlot d then writeSlot hnd (slotNo d) (decide (v ≠ 0)) x
  else
    let x := markPending ap hnd intr d false x
    if ap then writeA intr d.toNat v x else writeS hnd d.toNat v x

/-- A completion takes effect in an AP: its reply is written, and a finished command leaves its engine (R81, R161). -/
def takeDone (y : HeldDone) (x : Core) : Core :=
  let x := match y.cmd with
    | some id => { x with running := x.running.filter fun k => decide (k.id ≠ id) }
    | none => x
  writeReply true false y.intr y.d y.v x

/-- An AP's completion (R129): with UIEN 0 it takes effect at once and adds no record; with UIEN 1 its engine holds it
until the completion queue has room for its record. -/
def holdDone (y : HeldDone) (x : Core) : Core :=
  if x.ap.uien then { x with ap := { x.ap with heldDone := x.ap.heldDone ++ [y] } } else takeDone y x

/-- Every held completion takes effect without a record, as a write that clears UIEN lets it (R129). -/
def releaseDone (x : Core) : Core :=
  { x.ap.heldDone.foldl (fun x y => takeDone y x) x with
    ap := { (x.ap.heldDone.foldl (fun x y => takeDone y x) x).ap with heldDone := [] } }

/-- Does the engine of a finished command hold its completion (R129)? -/
def isHeldDone (x : Core) (id : Nat) : Bool := x.ap.heldDone.any fun y => decide (y.cmd = some id)

/-- A core on which a command has completed with a status and a reply (R81, R129, R161). -/
def completeOn (cmd : Command) (status : Nat) (v : W64) (x : Core) : Core :=
  match cmd.src with
  | .lead => writeReply false cmd.hnd false cmd.d v { x with running := x.running.filter fun y => decide (y.id ≠ cmd.id) }
  | .ap => holdDone
      { record := recordWord cmd.fn.toNat status (cmd.imm.toNat % 2 ^ 16), cmd := some cmd.id, d := cmd.d, intr := cmd.hnd, v } x

/-- COMPLETION_RECORD_ENQUEUE (R129): the oldest held completion adds its record to the completion queue and takes
effect, once the queue holds fewer than 64 records. -/
def enqueueRecord (c : CoreId) (s : State) : State :=
  s.modCore c fun x =>
    match x.ap.heldDone with
    | [] => x
    | y :: rest =>
      if x.ap.recs.length < 64 then
        takeDone y { x with ap := { x.ap with recs := x.ap.recs ++ [y.record], heldDone := rest } }
      else x

/-! ### Job events (R413) -/

/-- The record of a job event. -/
def eventBytes (cause detail : Nat) (c : CoreId) (w1 w2 : W64) (n : Nat) : List Byte :=
  bytesOfNat 8 (cause + 2 ^ 8 * (detail % 256) + 2 ^ 16 * c.val) ++ bytesOfNat 8 w1.toNat ++ bytesOfNat 8 w2.toNat
    ++ bytesOfNat 8 (n % 2 ^ 32)

/-- Does a job event find room: the ring is full when n - EVHEAD equals its size (R413). -/
def eventRoom (s : State) (j : Job) : Bool :=
  let head := natOfBytes (deviceBytes s 0 (j.entry + 88) 4)
  decide ((j.evn + 2 ^ 32 - head) % 2 ^ 32 ≠ 2 ^ j.evlog)

/-- The completion record of a job event, which has no reply (R118, R129); none while UIEN is 0. -/
def noteJobEvent (cause i : Nat) (x : Core) : Core :=
  holdDone { record := recordWord 0x7F cause i, cmd := none, d := 0, intr := false, v := 0 } x

/-- The user-level interrupt of a job event at the AP of team position 0: at the core while the job holds it, in the saved state of
a job that holds none (R118, R386). -/
def noteJobUi (j : Job) (cause i : Nat) (s : State) : State :=
  if (s.core j.lead).job = some j.id then s.modCore j.lead (noteJobEvent cause i)
  else s.modJob j.id fun j => { j with saved := match j.saved with
    | [] => []
    | v :: r => { v with core := noteJobEvent cause i v.core } :: r }

/-- A job event: the record, then the user-level interrupt of R118; discarded when the ring is full. The record is
written as world 0 memory. -/
def jobEvent (id cause detail : Nat) (w1 w2 : W64) (s : State) : State :=
  match jobById s id with
  | none => s
  | some j =>
    if eventRoom s j then
      let i := j.evn % 2 ^ j.evlog
      let s := devicePut 0 (j.evq + 32 * i) (eventBytes cause detail j.lead w1 w2 j.evn) s
      let s := s.modJob id fun j => { j with evn := j.evn + 1 }
      noteJobUi j cause i s
    else s

/-! ### Collectives that end early (R133, R135, R357) -/

/-- The collective group of COLLID. -/
def cgrpOf (id : W64) : BitVec 16 := id.extractLsb' 48 16

/-- Matched flits of a collective discarded from the cairn cores' queues; a run that executes ends by itself, and its
flit goes nowhere. -/
def dropMatched (id : Nat) (s : State) : State :=
  settleSlots { s with cairn := { s.cairn with
      queue := s.cairn.queue.map fun q => q.filter fun m => decide (m.coll ≠ id)
      run := s.cairn.run.map fun r => r.map fun r => if r.m.coll = id then { r with m := { r.m with dead := true } } else r } }

/-- The group and sequence number of a collective. -/
def collGroup (s : State) (k : Coll) : BitVec 16 := cgrpOf (s.core k.core).csr.collid
def collSeq (k : Coll) : W32 := k.cmd.b.setWidth 32

/-- A note sent round the ring of a collective: a done mark, or an abort with its DETAIL, of the rank at a position (R356,
R357). -/
def sendNote (k : Coll) (rank : Nat) (detail : Option Nat) (s : State) : State :=
  { s with fabric := { s.fabric with
      notes := s.fabric.notes ++ [{ cgrp := collGroup s k, seq := collSeq k, rank, detail }] } }

/-- The length of a rank's announcement, in what it has said: what follows counts for the present run only (log 13). -/
def announceLen (ctl : List Byte) : Nat :=
  152 + (if bitsN (natOfBytes ((ctl.drop 24).take 8)) 20 4 = 4 ∧ (natOfBytes ((ctl.drop 8).take 8)).testBit 13 then 2096 else 0)

/-- Does a rank's message belong to a collective? -/
def isOf (g : BitVec 16) (seq : W32) (r : RemoteRank) : Bool := decide (r.cgrp = g) && decide (r.seq = seq)

/-- What has arrived for a collective discarded, but for the announcements of the other ranks, whose `coll` waits on; that of
the rank at `gone` goes too (R357). -/
def discardPartials (k : Coll) (gone : Option Nat) (s : State) : State :=
  let g := collGroup s k
  let t := dropMatched k.id s
  let keep := t.fabric.remote.filter fun r => !(isOf g (collSeq k) r && decide (some r.pos = gone))
  { t with fabric := { t.fabric with
      remote := keep.map fun r => if isOf g (collSeq k) r then { r with ctl := r.ctl.take (announceLen r.ctl), data := [] } else r } }

/-- How many runs of a collective aborts have ended, so far as this rank knows (R357). -/
def runNo (s : State) (g : BitVec 16) (seq : W32) : Nat := (assocGet (g, seq) s.fabric.aborts).getD 0

/-- The next run of a collective that an abort has ended. -/
def nextRun (g : BitVec 16) (seq : W32) (s : State) : State :=
  { s with fabric := { s.fabric with aborts := assocPut (g, seq) (runNo s g seq + 1) s.fabric.aborts } }

/-- A collective leaves this rank's unit with a save (DETAIL 1) or a kill (DETAIL 2) of its job. A save aborts the one that runs, a
kill every one (R357); an aborted one is announced again when its `coll` is issued again. -/
def leaveColl (detail : Nat) (k : Coll) (s : State) : State :=
  let g := collGroup s k
  let raise := k.cut.isNone && (k.running || decide (detail = 2))
  let s := if raise then nextRun g (collSeq k) (sendNote k k.own (some detail) (discardPartials k none s)) else s
  { s with fabric := { s.fabric with
      colls := s.fabric.colls.filter fun y => decide (y.id ≠ k.id)
      ready := s.fabric.ready.filter fun i => decide (i ≠ k.id)
      remote := if detail = 2 then s.fabric.remote.filter fun r => !isOf g (collSeq k) r else s.fabric.remote
      aborts := if detail = 2 then s.fabric.aborts.filter fun y => decide (y.1 ≠ (g, collSeq k)) else s.fabric.aborts
      told := if raise then s.fabric.told.filter fun y => decide (y ≠ (g, collSeq k)) else s.fabric.told } }

/-! ### Kill (R135) -/

/-- A core from which a job has been taken: no streams, commands, operations in flight, pending replies, faults or
handler state. Registers and ledges stay. -/
def dropJob (x : Core) : Core :=
  { x with
    streams := Vector.replicate 6 Stream.absent
    scal := { x.scal with pendS := 0, pendH := 0, pendA := 0, pendX := 0 }
    ap := { x.ap with fault := none, inUi := false, uien := false, recs := [], heldDone := [], storeQ := [], stale := false, apWrites := []
                      host := none, posted := false }
    trap := { x.trap with handler := false, stopped := false, hbuf := [], wdDone := none
                          tcause := x.trap.tcause &&& ~~~((1 : W64) <<< 63) }
    csr := { x.csr with preq := false }
    latches := [], ops := [], transits := [], busy := Vector.replicate 6 0, cmds := [], running := [], hostIn := [], owed := []
    aligned := false, badCtx := false, tickHold := 0 }

/-- The posted writes of a core's commands that have not passed egress discarded. -/
def dropWrites (c : CoreId) (s : State) : State :=
  s.modSess (vfOf s c) fun x => { x with held := x.held.filter fun h => decide (h.core ≠ c) }

/-- A team stopped by a kill (R135, R336): what its cores have not performed is discarded, and its dirty lines reach the HBM
controllers, so that no write of the job performs later. A cluster whose last pending trap goes with it counts its freeze afresh,
as after `tret`. -/
def stopTeam (j : Job) (s : State) : State :=
  let stood := (teamClusters j).filter fun k => trapPending s k
  let s := j.team.foldl (fun s c => (dropWrites c s).modCore c dropJob) s
  let s := (j.team.map CoreId.face).eraseDups.foldl (fun s f => releaseFace f j.plane.world s) s
  (stood.filter fun k => !trapPending s k).foldl (fun s k => s.modCluster k restartFreeze) s

/-- A kill (R135): every stream stops, commands and stores that have not performed are discarded, collectives of the
job end on all ranks, and handlers are abandoned. The job then completes as killed (R409). -/
def killJob (id : Nat) (s : State) : State :=
  match jobById s id with
  | none => s
  | some j =>
    let s := if j.resident then stopTeam j s else s
    let s := (s.fabric.colls.filter fun k => decide (k.job = id)).foldl (fun s k => leaveColl 2 k s) s
    s.modJob id fun j => { j with phase := .killed, saved := [] }

/-- The job on a core killed, if there is one. -/
def killOn (c : CoreId) (s : State) : State :=
  match (s.core c).job with
  | some id => killJob id s
  | none => s

/-! ### Context areas (R128) -/

/-- CRC-32 with the IEEE polynomial, reflected: eight bits of one byte, then a list of bytes (log 24). -/
def crcStep : Nat → W32 → W32
  | 0, c => c
  | n + 1, c => crcStep n (if c.getLsbD 0 then (c >>> 1) ^^^ 0xEDB88320 else c >>> 1)

def crc32 (l : List Byte) : W32 := ~~~(l.foldl (fun c (b : Byte) => crcStep 8 (c ^^^ b.setWidth 32)) 0xFFFFFFFF)

/-- The bytes of an accumulator cell in a context area (R128, R219): M, E, and the sticky flags JAM, NAN, SAT, CLR in bits
3 to 0. -/
def cellBytes (x : Cell) : List Byte :=
  bytesOfNat 8 x.m.toNat ++ bytesOfNat 2 x.e.toNat
    ++ [(0 : BitVec 4) ++ BitVec.ofBool x.jam ++ BitVec.ofBool x.nan ++ BitVec.ofBool x.sat ++ BitVec.ofBool x.clr]
    ++ List.replicate 5 0

/-- An accumulator cell from its bytes. -/
def cellOf (l : List Byte) : Cell :=
  let f := l.getD 10 0
  { m := bvOfBytes 64 (l.take 8), e := bvOfBytes 16 ((l.drop 8).take 2)
    jam := f.getLsbD 3, nan := f.getLsbD 2, sat := f.getLsbD 1, clr := f.getLsbD 0 }

/-- The image of load-queue entries, padded to four (R128). -/
def lqBytes (l : List LqEntry) : List Byte :=
  (l.flatMap fun e => bytesOfNat 4096 e.img.toNat) ++ List.replicate (4096 * (4 - l.length)) 0

/-- The image of store-queue entries, padded to four (R128). -/
def sqBytes (l : List SqEntry) : List Byte :=
  (l.flatMap fun e => bytesOfNat 4096 e.img.toNat) ++ List.replicate (4096 * (4 - l.length)) 0

/-- A bin descriptor as three words of the state block. -/
def binWords (b : Bin) : List W64 :=
  [ b.base, b.rowb.setWidth 64 ||| b.cap.setWidth 64 <<< 16 ||| b.fill.setWidth 64 <<< 32 ||| b.rule.setWidth 64 <<< 48
      ||| b.spill.setWidth 64 <<< 50
  , b.dropped ++ b.deferred ]

/-- A bin descriptor from its words. -/
def blockBin (w0 w1 w2 : W64) : Bin :=
  { base := w0, rowb := w1.extractLsb' 0 16, cap := w1.extractLsb' 16 13, fill := w1.extractLsb' 32 13
    rule := w1.extractLsb' 48 2, spill := w1.extractLsb' 50 2, dropped := w2.extractLsb' 32 32, deferred := w2.extractLsb' 0 32 }

/-- The words of the state block, in the model's order (log 24): scalars with the shadow bank, geometry registers, seeds,
SPCFG and SPCNT, TMSHAPE, CVTSTAT, NUMSTAT, slots, SFPATH and TICK, bins, the histogram array, masks. -/
def blockWords (tick : Nat) (x : Core) : List W64 :=
  x.scal.s.toList ++ x.scal.a.toList ++ x.scal.sh.toList ++ x.ap.geo.toList ++ x.sf.rseed.toList ++ x.sf.spcfg.toList
    ++ x.sf.spcnt.toList
    ++ [ x.csr.tmshape, x.csr.cvtstat, x.csr.numstat.setWidth 64, x.scal.pv.setWidth 64 ||| x.scal.pw.setWidth 64 <<< 16
       , x.sf.path.setWidth 64 ||| x.sf.depth.setWidth 64 <<< 16, BitVec.ofNat 64 tick ]
    ++ x.sf.b.toList.flatMap binWords ++ x.sf.h.toList.map (fun h => h.setWidth 64)
    ++ x.vec.k.toList.flatMap fun k => (List.range 16).map fun i => k.extractLsb' (64 * i) 64

/-- A mask from its sixteen words. -/
def maskFrom (w : Nat → W64) : BitVec 1024 := BitVec.ofNat 1024 (packNat 64 ((List.range 16).map fun n => (w n).toNat))

/-- A core with the words of a state block in place. -/
def blockCore (w : Nat → W64) (x : Core) : Core :=
  { x with
    tickHold := (w 109).toNat
    scal := { x.scal with
      s := Vector.ofFn fun i => w i.val, a := Vector.ofFn fun i => w (32 + i.val), sh := Vector.ofFn fun i => w (64 + i.val)
      pv := (w 107).extractLsb' 0 15, pw := (w 107).extractLsb' 16 15 }
    ap := { x.ap with geo := Vector.ofFn fun i => w (72 + i.val) }
    sf := { x.sf with
      rseed := Vector.ofFn fun i => w (80 + i.val), spcfg := Vector.ofFn fun i => w (96 + i.val)
      spcnt := Vector.ofFn fun i => w (100 + i.val), path := (w 108).extractLsb' 0 16, depth := (w 108).extractLsb' 16 3
      b := Vector.ofFn fun i => blockBin (w (110 + 3 * i.val)) (w (111 + 3 * i.val)) (w (112 + 3 * i.val))
      h := Vector.ofFn fun i => (w (158 + i.val)).setWidth 32 }
    csr := { x.csr with tmshape := w 104, cvtstat := w 105, numstat := (w 106).setWidth 5 }
    vec := { x.vec with k := Vector.ofFn fun i => maskFrom fun n => w (414 + 16 * i.val + n) } }

/-- The version word of the state block. -/
def blockVersion : W64 := 1

/-- The bytes of a state block that its CRC covers: the version and the words. -/
def blockBody (tick : Nat) (x : Core) : List Byte := (blockVersion :: blockWords tick x).flatMap fun w => bytesOfNat 8 w.toNat

/-- The length of a state block's body. -/
def blockLen : Nat := 8 * 543

/-- A state block: its body, then the CRC-32 of the body; the rest is zero. -/
def blockBytes (tick : Nat) (x : Core) : List Byte := blockBody tick x ++ bytesOfNat 4 (crc32 (blockBody tick x)).toNat

/-- The parts of a context area that a save writes, each by its offset, its size and its bytes (R128, R132): queues and the
state block; and for a forced save the ledges, v, the tiles and `rb`. -/
def contextParts (whole : Bool) (tick : Nat) (x : Core) : List (Nat × Nat × Sparse Byte) :=
  [ (0x244000, 0xC000, slist 0 0 (blockBytes tick x))
  , (0x260000, 0x20000, slist 0 0 (x.vec.q.toList.flatMap lqBytes))
  , (0x280000, 0x10000, slist 0 0 (x.vec.w.toList.flatMap sqBytes)) ]
  ++ if whole then
      [ (0x000000, 0x200000, x.scratch)
      , (0x200000, 0x20000, slist 0 0 (x.vec.v.toList.flatMap fun q => bytesOfNat 1024 q.toNat))
      , (0x220000, 0x20000, slist 0 0 (x.bench.tiles.toList.flatMap fun t => t.toList.flatMap cellBytes))
      , (0x240000, 0x4000, slist 0 0 (x.bench.rb.toList.flatMap fun q => bytesOfNat 1024 q.toNat)) ]
    else []

/-- The context area of a core (R125). -/
def contextAddr (c : CoreId) (x : Core) : Nat := x.csr.ctxbase.toNat + c.val * 0x400000

/-- The context area of a core written under its world's key; an area that does not lie in HBM is not written. -/
def writeContext (whole : Bool) (c : CoreId) (s : State) : State :=
  let x := s.core c
  let base := contextAddr c x
  if inHbm base 0x400000 then
    (contextParts whole (tickOf s c) x).foldl (fun s p => deviceBlock x.csr.world (base + p.1) p.2.1 p.2.2 s) s
  else s

/-- `n` bytes of HBM from `a` as the device reads them for a world, those that are not zero by their offset: none where a
line fails its integrity check or is uncorrectable. -/
def readBlock (s : State) (v : World) (a n : Nat) : Option (Sparse Byte) :=
  let lo := a / 128
  let k := (a + n - 1) / 128 - lo + 1
  let keys := swindow s.mem.lineKey lo k
  if poisoned s a n then none
  else if (if keyNum s v = 0 then keys.isEmpty else decide (keys.length = k) && keys.all fun e => decide (e.2 = keyNum s v)) then
    some ((swindow s.mem.hbm a n).map fun e => (e.1 - a, e.2))
  else if (List.range k).any fun i => (hbmLineFor s v (lo + i)).2 then none
  else some (slist 0 0 (deviceBytes s v a n))

/-- Quarter `i` of an image. -/
def blockQuarter (m : Sparse Byte) (i : Nat) : Quarter := bvOfBytes 8192 (sgets 0 m (1024 * i) 1024)

/-- Load-queue entries with the images of a context area, four to a queue. -/
def lqFrom (m : Sparse Byte) (q : Nat) (l : List LqEntry) : List LqEntry :=
  l.mapIdx fun i e => { e with img := bvOfBytes 32768 (sgets 0 m (4096 * (4 * q + i)) 4096) }

/-- Store-queue entries with the images of a context area. -/
def sqFrom (m : Sparse Byte) (q : Nat) (l : List SqEntry) : List SqEntry :=
  l.mapIdx fun i e => { e with img := bvOfBytes 32768 (sgets 0 m (4096 * (4 * q + i)) 4096) }

/-- A core with the queues of a context area. -/
def putQueues (qs ws : Sparse Byte) (x : Core) : Core :=
  { x with vec := { x.vec with q := x.vec.q.mapFinIdx fun q l _ => lqFrom qs q l, w := x.vec.w.mapFinIdx fun q l _ => sqFrom ws q l } }

/-- A core with the ledges, v, tiles and `rb` of a context area. -/
def putImages (l v z r : Sparse Byte) (x : Core) : Core :=
  { x with
    scratch := l
    vec := { x.vec with v := Vector.ofFn fun i => blockQuarter v i.val }
    bench := { x.bench with
      tiles := Vector.ofFn fun t => Vector.ofFn fun i => cellOf (sgets 0 z (16 * (4096 * t.val + i.val)) 16)
      rb := Vector.ofFn fun i => blockQuarter r i.val } }

/-- The core that a state block gives: none where its version or its CRC is wrong (R128). -/
def readState (m : Sparse Byte) (x : Core) : Option Core :=
  let body := sgets 0 m 0 blockLen
  if bvOfBytes 64 (body.take 8) = blockVersion ∧ (bvOfBytes 32 (sgets 0 m blockLen 4) : W32) = crc32 body then
    some (blockCore (fun i => bvOfBytes 64 ((body.drop (8 * (i + 1))).take 8)) x)
  else none

/-- A saved core as its context area gives it; none where the area is wrong. What has no place in the area's layout, and
everything where the area does not lie in HBM, the device keeps itself (log 24). -/
def readContext (s : State) (sv : SavedCore) : Option Core :=
  let x := sv.core
  let base := contextAddr sv.from_ x
  let part (off n : Nat) : Option (Sparse Byte) := readBlock s x.csr.world (base + off) n
  if !inHbm base 0x400000 then some x
  else do
    let b ← part 0x244000 0xC000
    let qs ← part 0x260000 0x20000
    let ws ← part 0x280000 0x10000
    let x ← readState b x
    let x := putQueues qs ws { x with tick0 := sv.clk }
    if sv.whole then
      let l ← part 0x000000 0x200000
      let v ← part 0x200000 0x20000
      let z ← part 0x220000 0x20000
      let r ← part 0x240000 0x4000
      pure (putImages l v z r x)
    else pure x

/-! ### Saving (R127, R132, R133) -/

/-- A core as a drain-point suspension keeps it: ledges, v, k, tiles, rb and lanes read as zero afterwards, and every
VT is the resume tick (R132, R250). -/
def drainedCore (clk : Nat) (x : Core) : Core :=
  { x with
    vec := { x.vec with v := Vector.replicate 128 0, k := Vector.replicate 8 0 }
    bench := { Bench.reset with vt := Vector.replicate 16 (some clk) }
    scratch := [], parityBad := [], vecBad := [], latches := x.latches.filter isScalarLatch, ops := [], transits := []
    ap := { x.ap with held := [], tlb := [], walks := [] } }

/-- The dresser slots of a world in a cluster, by number (R171). -/
def slotsOfWorld (k : Cluster) (w : World) : List (Nat × DressSlot) :=
  (k.slots.toList.mapIdx fun i x => (i, x)).filterMap fun (i, x) =>
    match x with
    | some d => if d.world = w then some (i, d) else none
    | none => none

/-- The core that holds the team world's slots of its cluster: the lowest-positioned one there (R171). -/
def slotHolder (j : Job) (c : CoreId) : Bool :=
  match j.team.find? fun d => decide (d.cluster = c.cluster) with
  | some d => decide (d = c)
  | none => false

/-- One core of a team saved. A tick that has been attempted is not attempted first again after the resume (R124). -/
def saveCore (drain : Bool) (j : Job) (s : State) (c : CoreId) : SavedCore :=
  let k := s.cluster c.cluster
  let y := s.core c
  let x := { y with trap := { y.trap with wdDone := if k.tried then some k.clk else y.trap.wdDone } }
  { core := if drain then drainedCore k.clk x else { x with ap := { x.ap with held := [], tlb := [], walks := [] } }
    from_ := c
    whole := !drain
    late := []
    clk := k.clk
    slots := if slotHolder j c then slotsOfWorld k x.csr.world else [] }

/-- A core freed: it keeps its world and ledges, and has no job. -/
def freeCore (x : Core) : Core := { dropJob x with job := none }

/-- Have the accesses of a core's AP performed as far as a save asks: has every store left its queue, and does no word wait
for the host (R330)? -/
def accessesDone (s : State) (c : CoreId) : Bool := storesDone s c && (s.core c).ap.host.isNone

/-- The stores of a team's APs leave their queues as far as they can. -/
def drainTeam (j : Job) (s : State) : State := j.team.foldl (fun s c => drainAll c s) s

/-- A team saved and its cores freed (R132, R133): frames and context areas are written. -/
def saveTeam (drain : Bool) (id : Nat) (s : State) : State :=
  match jobById s id with
  | none => s
  | some j =>
    let s := j.team.foldl (fun s c => settleAp c s) s
    let s := j.team.foldl (fun s c => writeFrame c s) s
    let s := j.team.foldl (fun s c => writeContext (!drain) c s) s
    let saved := j.team.map fun c => saveCore drain j s c
    let s := j.team.foldl (fun s c => s.modCore c freeCore) s
    s.modJob id fun j => { j with phase := if drain then .suspended else .saved, saved, eligible := false, atFlip := false, save := false }

/-- Has a stream passed every rendezvous that its job has retired? -/
def passedAll (s : State) (j : Job) (c : CoreId) (e : Engine) : Bool := decide (((s.core c).stream e).rdvs = j.rdvs)

/-- Does a stream issue nothing because its job suspends, or flips to a swapped-in plane, at a retired `rdv.flip` that the
stream has passed (R132, R408)? -/
def heldAtFlip (s : State) (c : CoreId) (e : Engine) : Bool :=
  match jobOf s c with
  | some j => (decide (j.phase = .suspending) || (j.atFlip && decide (j.phase = .running))) && passedAll s j c e
  | none => false

/-- A drain-point suspension finishes (R132): the team stands at its retired `rdv.flip` and no command of the team is
incomplete. -/
def suspendJob (id : Nat) (s : State) : State :=
  match jobById s id with
  | none => s
  | some j =>
    if decide (j.phase = .suspending) && ((members s j).all fun m => passedAll s j m.1 m.2)
        && j.team.all fun c => ((s.core c).cmds.isEmpty && (s.core c).running.isEmpty) then
      let s := drainTeam j s
      if j.team.all (accessesDone s) then saveTeam true id s else s
    else s

/-- The cause of a forced save (R126, R133). -/
def forcedCause : TrapCause := { code := 12, detail := 3, r1 := none, r2 := none, obj := 0 }

/-- A core stopped by a forced save: TCAUSE, TINFO and TTICK as for a trap with cause 12 and FSAVE; a core with a trap
pending keeps it (R133). -/
def forceStop (s : State) (c : CoreId) : State :=
  if trapPending s c.cluster then s
  else
    let tick := BitVec.ofNat 64 (tickOf s c)
    s.modCore c fun x => { x with trap := { x.trap with
      -- the clock stops without a pending trap: VALID is for a trap whose handler is to run
      tcause := tcauseOf true forcedCause [] &&& ~~~((1 : W64) <<< 63), tinfo := tinfoOf forcedCause, ttick := tick } }

/-- Every command in progress on a core but a collective completes; `perform` completes one, unless it waits for the tether
(R133). -/
def finishCommands (perform : CoreId → Nat → State → State) (c : CoreId) (s : State) : State :=
  (s.core c).running.foldl (fun s k =>
    if isHeldDone (s.core c) k.id || decide (k.target = .collective) then s else perform c k.id s) s

/-- Is no command of a core in progress but collectives, and those whose completion waits for the completion queue? -/
def commandsDone (s : State) (c : CoreId) : Bool :=
  (s.core c).running.all fun k => isHeldDone (s.core c) k.id || decide (k.target = .collective)

/-- The collectives in progress on a core cancelled, and their commands back among the saved ones in queue order (R133). -/
def cancelColls (c : CoreId) (s : State) : State :=
  let mine (k : Command) : Bool := decide (k.target = .collective) && !isHeldDone (s.core c) k.id
  let ks := (s.core c).running.filter mine
  let of_ (g : Coll) : Bool := decide (g.core = c) && ks.any fun k => decide (k.id = g.id)
  let s := (s.fabric.colls.filter of_).foldl (fun s g => leaveColl 1 g s) s
  s.modCore c fun x => { x with
    cmds := ks.map (fun k => { k with ok := none }) ++ x.cmds
    running := x.running.filter fun k => !ks.any fun y => decide (y.id = k.id)
    hostIn := x.hostIn.filter fun e => !ks.any fun y => decide (y.id = e.1) }

/-- Does a collective that has sent its done mark, or has ended and waits for its cairn runs, hold back the save of its team
(R357, R372)? -/
def markedColl (s : State) (c : CoreId) : Bool :=
  (s.core c).running.any fun k => decide (k.target = .collective) && s.fabric.colls.any fun g =>
    decide (g.core = c) && decide (g.id = k.id) && ((g.running && g.wrote) || g.cut.isSome)

/-- A forced save (R133): the team is stopped at tick and word boundaries and saved whole. The save is held while a collective
that has sent its done mark has no reply (R357), and while an access or a command of the team waits for the tether. -/
def forcedSaveJob (perform : CoreId → Nat → State → State) (id : Nat) (s : State) : State :=
  match jobById s id with
  | none => s
  | some j =>
    if j.resident && decide (j.phase ≠ .killed) then
      let s := s.modJob id fun j => { j with save := true }
      if j.team.any (markedColl s) then s
      else
        let s := drainTeam j (j.team.foldl (fun s c => finishCommands perform c s) s)
        if j.team.all fun c => accessesDone s c && commandsDone s c then
          saveTeam false id (j.team.foldl forceStop (j.team.foldl (fun s c => cancelColls c s) s))
        else s
    else s

/-! ### Restoring (R134) -/

/-- A bench with every tick moved on by `d`. -/
def shiftBench (d : Nat) (b : Bench) : Bench :=
  { b with
    bbuf := b.bbuf.map fun h => { h with ready := h.ready + d, freeAt := h.freeAt.map (· + d) }
    vt := b.vt.map fun t => t.map (· + d), busy := b.busy + d }

/-- A core with every tick of the cluster's clock that it holds moved on by `d`. -/
def shiftCore (d : Nat) (x : Core) : Core :=
  { x with
    streams := x.streams.map fun t => { t with last := t.last + d }
    latches := x.latches.map fun l => { l with due := l.due + d, at_ := l.at_ + d }
    ops := x.ops.map fun o => { o with at_ := o.at_ + d }
    transits := x.transits.map fun t => { t with enter := t.enter + d }
    vec := { x.vec with w := x.vec.w.map fun l => l.map fun e => { e with at_ := e.at_ + d } }
    bench := shiftBench d x.bench
    busy := x.busy.map (· + d)
    trap := { x.trap with wdDone := x.trap.wdDone.map (· + d) }
    tick0 := x.tick0 + d }

/-- A cluster whose clock stands at `clk` or later, its resident cores moved with it. -/
def raiseClock (k : ClusterId) (clk : Nat) (s : State) : State :=
  let d := clk - (s.cluster k).clk
  if d = 0 then s
  else
    let s := k.cores.foldl (fun s c => s.modCore c (shiftCore d)) s
    s.modCluster k fun y => { y with clk := y.clk + d }

/-- An empty handler bank (R134): every register zero, every slot written and false (log 1). -/
def emptyBank (x : Core) : Core :=
  { x with scal := { x.scal with hs := Vector.replicate 32 0, hv := 0, hw := BitVec.allOnes 15, pendH := 0 } }

/-- A restored core's trap state (R134): with a trap pending LEAD is in handler state again, at the first word of its handler
with an empty bank; a double trap stays stopped (R123, R135). -/
def restoreTrap (x : Core) : Core :=
  if !trapValid x then { x with trap := { x.trap with handler := false, stopped := false } }
  else if x.trap.tcause.getLsbD 62 then { emptyBank x with trap := { x.trap with handler := true, stopped := true } }
  else enterHandler (emptyBank x)

/-- The cores that a core's operations name, in the team's new place: those that a `mbsrc` feeds (R240). -/
def moveOps (place : Nat → Nat) (x : Core) : Core :=
  { x with ops := x.ops.map fun o => match o.instr with
      | .mbsrc _ => { o with srcs := o.srcs.map place }
      | _ => o }

/-- What a core keeps of itself when a saved core is put in its place: its world and its translations (R189). -/
def onCore (y x : Core) : Core :=
  { x with
    csr := { x.csr with world := y.csr.world, preq := false }
    ap := { x.ap with fault := none, tlb := y.ap.tlb, walks := y.ap.walks, held := [] }
    parityBad := [], vecBad := [] }

/-- A saved core put in place on core `c` (R134), as its context area gives it. TBASE, CTXBASE and the rest come back with it,
and an AP halted by a fault reissues its word (R194). -/
def restoreCore (place : Nat → Nat) (c : CoreId) (sv : SavedCore) (s : State) : State :=
  let s := raiseClock c.cluster sv.clk s
  let d := (s.cluster c.cluster).clk - sv.clk
  let got := readContext s sv
  let x := restoreTrap (moveOps place (shiftCore d (got.getD sv.core)))
  let y := onCore (s.core c) x
  let s := s.setCore c (sv.late.foldl (fun x r => holdDone r x) { y with badCtx := got.isNone })
  let s := s.modCluster c.cluster fun k => { k with slots := sv.slots.foldl (fun v d => vset v d.1 (some d.2)) k.slots }
  acquireAp c s

/-- May a saved team's dresser slots go to the cluster: does no other world own one of them (R171)? -/
def slotsFit (s : State) (c : CoreId) (sv : SavedCore) : Bool :=
  sv.slots.all fun d => match vget (s.cluster c.cluster).slots d.1 none with
    | some x => decide (x.world = d.2.world)
    | none => true

/-- The pending replies of a job's scrub words follow it to the cores where it resumes (R392). -/
def moveReplies (id : Nat) (place : Nat → Nat) (s : State) : State :=
  let move (r : ScrubReply) : ScrubReply := if r.job = some id then { r with core := coreOf (place r.core.val) } else r
  { s with scrub := { s.scrub with
    list := s.scrub.list.map fun x => { x with reply := move x.reply }
    joins := s.scrub.joins.map fun x => (x.1, move x.2) } }

/-- A saved team restored on the cores of `team` (R134). -/
def restoreTeam (id : Nat) (team : List CoreId) (s : State) : State :=
  match jobById s id with
  | none => s
  | some j =>
    let place (n : Nat) : Nat := match (team.zip j.saved).find? fun p => decide (p.2.from_.val = n) with
      | some p => p.1.val
      | none => n
    let s := (team.zip j.saved).foldl (fun s (c, sv) => restoreCore place c sv s) s
    let s := moveReplies id place s
    let s := team.foldl (fun s c => s.modCore c fun x => { x with job := some id }) s
    s.modJob id fun j => { j with phase := .running, team, saved := [], eligible := false }

end Sys2Proof.Machine
end

