-- ==== Sys2Proof/Machine/Copy.lean ====
section
/-! DEFINITION. The commands of the cluster's untimed engines as they perform: copies, gather, scatter, fill, dress,
hist, binsort and rng.seed (R138-R140, R159-R171, R285, R304-R306). -/

namespace Sys2Proof.Machine

/-! ### Shared parts -/

/-- A sub-field of a command's immediate. -/
def cmdImm (k : Command) (lo len : Nat) : Nat := bitsN k.imm.toNat lo len

/-- A dispatched command by its number, unless it has performed and only its completion waits: for room in the completion
queue (R129), or for the tether (R198). -/
def runningCmd (s : State) (c : CoreId) (id : Nat) : Option Command :=
  if isHeldDone (s.core c) id || (s.core c).owed.any (fun o => decide (o.id = id)) then none
  else (s.core c).running.find? fun k => decide (k.id = id)

/-- The virtual address of the first failed unit among bytes that a translated range gave (R438). -/
def failedVa : List Piece → List (Option Byte) → Option Nat
  | [], _ => none
  | p :: r, l =>
    match (l.take p.len).findIdx? fun b => b.isNone with
    | some i => some ((p.va + i) / 64 * 64)
    | none => failedVa r (l.drop p.len)

/-- What a command comes to: its status, its reply, the first failed unit of its source (R160, R438), and
the first element of a ledge that failed its parity (R433). -/
structure Outcome7 where
  status : Nat
  reply : W64
  failed : Option Nat
  ledge : Option Nat := none
deriving DecidableEq, Repr

/-- A command's end without a failed source. -/
def ends (status : Nat) (reply : W64) : Outcome7 := { status, reply, failed := none }

/-- The parts of a command's translated ranges that it reads, and that it writes (R190). -/
def sourceOf (k : Command) : List Piece := k.pieces.filter fun p => !p.wr
def targetOf (k : Command) : List Piece := k.pieces.filter fun p => p.wr

/-- The 64-byte units of HBM that failed, among the bytes that a command's source gave. -/
def failedUnits (k : Command) (l : List (Option Byte)) : List Nat :=
  (((List.range l.length).zip l).filterMap fun e =>
    let pa := pieceAddr (sourceOf k) e.1
    if e.2.isNone && inHbm pa 1 then some (pa / 64) else none).eraseDups

/-- The errors that a command's source shows, recorded once for each failed unit (R436). A key slot emptied by a zeroise
is no error of a unit (R390). -/
def detectUnits (k : Command) (l : List (Option Byte)) (s : State) : State :=
  if s.keys.zeroed.getLsbD k.world.toNat then s
  else (failedUnits k l).foldl (fun s u => detectHbm (64 * u) k.world s) s

/-- The parity error of a ledge that a command met, recorded (R436). -/
def detectFailed (c : CoreId) (o : Outcome7) (s : State) : State :=
  match o.ledge with
  | some a => detectCore 3 c (BitVec.ofNat 64 a) s
  | none => s

/-- A core that has forgotten what the requests of a command brought, and what its completion waited for. -/
def forgetCmd (id : Nat) (x : Core) : Core :=
  { x with hostIn := x.hostIn.filter fun e => decide (e.1 ≠ id), owed := x.owed.filter fun o => decide (o.id ≠ id) }

/-- A command completed: UEADDR, then its reply, then its completion record (R140, R438), and its place among the
running commands free. -/
def payCmd (c : CoreId) (k : Command) (o : Outcome7) (s : State) : State :=
  (detectFailed c o s).modCore c fun x =>
    let x := match o.failed with
      | some va => { x with csr := { x.csr with ueaddr := BitVec.ofNat 64 va } }
      | none => x
    completeOn k o.status o.reply (forgetCmd k.id x)

/-- A command that has performed completes, once its posted writes have passed the tether's egress (R159, R198). -/
def finishCmd (c : CoreId) (k : Command) (o : Outcome7) (s : State) : State :=
  if writesHeld s c k.id then
    s.modCore c fun x => { x with owed := x.owed ++ [{ id := k.id, status := o.status, reply := o.reply, failed := o.failed, ledge := o.ledge }] }
  else payCmd c k o s

/-- The completions of a core that waited for posted writes which have passed, or that were discarded (`lost`, R198). -/
def payOwed (lost : Bool) (c : CoreId) (s : State) : State :=
  (s.core c).owed.foldl (fun s o =>
    if writesHeld s c o.id then s
    else match (s.core c).running.find? fun k => decide (k.id = o.id) with
      | some k => payCmd c k (if lost then ends 7 0xFF
          else { status := o.status, reply := o.reply, failed := o.failed, ledge := o.ledge }) s
      | none => s) s

/-- May the command reach the host window now (R198, R424)? -/
def hostOpen (s : State) (c : CoreId) (w : World) : Bool := decide (w = 0) || sessionOk s (vfOf s c) w

/-- Is a part of a command's ranges closed to it: the key slot of its world is empty after a zeroise or a failed unwrap
(R390), or it lies in the host window without a session (R198)? -/
def pieceShut (s : State) (c : CoreId) (w : World) (pa : Nat) : Bool :=
  s.keys.zeroed.getLsbD w.toNat || (inHost pa && !hostOpen s c w)

/-- What the requests of a command have brought, or wait for. -/
def broughtBy (x : Core) (id : Nat) : Option (List HostPart) := assocGet id x.hostIn

/-- The parts of a command's source in the host window that requests must bring: those open to it under a session (R182,
R424), with their offsets. -/
def hostSource (s : State) (c : CoreId) (k : Command) : List (Nat × Piece) :=
  if sessionActive s c then (pieceOffsets 0 (sourceOf k)).filter fun x => inHost x.2.pa && !pieceShut s c k.world x.2.pa else []

/-- Does a command wait for data of the host? -/
def hostPending (s : State) (c : CoreId) (k : Command) : Bool :=
  match broughtBy (s.core c) k.id with
  | some l => !allAnswered l
  | none => !(hostSource s c k).isEmpty

/-- The requests of a command for its source in the host window, once and where they need not wait (R182, R319, R422). -/
def askSource (c : CoreId) (k : Command) (s : State) : State :=
  if (broughtBy (s.core c) k.id).isSome || requestBlocked s c then s
  else
    let (l, s) := sendRequests c (some k.id) (hostSource s c k) s
    s.modCore c fun x => { x with hostIn := x.hostIn ++ [(k.id, l)] }

/-- The requests of a command's source in the host window that go in the clear (R182). -/
def clearSource (c : CoreId) (k : Command) (s : State) : State :=
  if sessionActive s c then s
  else ((sourceOf k).filter fun p => inHost p.pa && !pieceShut s c k.world p.pa).foldl (fun s p => clearRequest c p s) s

/-- The end of a command: STATUS 0x07 where it succeeded while the key slot of its world is empty after a zeroise (R390). -/
def zeroEnd (s : State) (k : Command) (o : Outcome7) : Outcome7 :=
  if k.fn.toNat < 0x40 ∧ s.keys.zeroed.getLsbD k.world.toNat ∧ o.status ≤ 1 then { o with status := 7, reply := 0xFF } else o

/-- The bytes of a part of a command's source at an offset (R160, R316): as its requests brought them, or as its engine reads
them; none for a part that is closed to it. -/
def sourcePart (s : State) (c : CoreId) (k : Command) (i : Nat) (p : Piece) : List (Option Byte) :=
  let brought := ((broughtBy (s.core c) k.id).getD []).filter fun q => decide (q.off = i)
  if !brought.isEmpty && !s.keys.zeroed.getLsbD k.world.toNat then (List.range p.len).map fun n => partByte brought (i + n)
  else if pieceShut s c k.world p.pa then List.replicate p.len none
  else engineBytes s c.face k.world p.pa p.len

/-- The bytes of a command's source ranges (R160, R316). -/
def sourceData (s : State) (c : CoreId) (k : Command) : List (Option Byte) :=
  (pieceOffsets 0 (sourceOf k)).flatMap fun x => sourcePart s c k x.1 x.2

/-- An event on a dispatched command: `run` gives the state after its effect and what it comes to. With no such command
running, nothing happens; one that reads host memory under a session asks for its data first. -/
def onCommand (fns : List Nat) (c : CoreId) (id : Nat) (run : Command → State → State × Outcome7) (s : State) : State :=
  match runningCmd s c id with
  | some k =>
    if !fns.contains k.fn.toNat then s
    else if hostPending s c k then askSource c k s
    else
      let s := clearSource c k s
      let (s', o) := run k s
      finishCmd c k (zeroEnd s' k o) (if o.failed.isSome then detectUnits k (sourceData s c k) s' else s')
  | none => s

/-- Consecutive cells put together into runs: the address of the first and the bytes. -/
def cellRuns : List Host.Cell → List (Nat × List Byte)
  | [] => []
  | (a, b) :: r =>
    match cellRuns r with
    | (a', l) :: t => if a' = a + 1 then (a, b :: l) :: t else (a, [b]) :: (a', l) :: t
    | [] => [(a, [b])]

/-- Bytes written into a command's destination ranges by offset: at the HBM controller, or at the host as posted writes (R182,
R316). Bytes for a place that is closed to the command are discarded (R198). The flag says that some were. -/
def writeTarget (c : CoreId) (k : Command) (cells : List (Nat × Byte)) (s : State) : State × Bool :=
  let phys := cells.map fun x => (pieceAddr (targetOf k) x.1, x.2)
  let keep := phys.filter fun x => !pieceShut s c k.world x.1
  let s := enginePuts c.face k.world (keep.filter fun x => !inHost x.1) s
  let s := (cellRuns (keep.filter fun x => inHost x.1)).foldl (fun s r => commandWrite c k.id r.1 r.2 s) s
  (s, decide (keep.length ≠ phys.length))

/-- Scratchpad bytes written by offset from a base (R50). -/
def fillCells (base : Nat) (cells : List (Nat × Byte)) (x : Core) : Core :=
  cells.foldl (fun x p => spadPut x (base + p.1) [p.2]) x

/-- Is the saturation of a count at 2^32 - 1 (R165)? -/
def cap32 (n : Nat) : Nat := min n (2 ^ 32 - 1)

/-- The program bound to a command's dresser slot: none for DSLOT 0, or why it cannot run (R138, R160, R171, R175). -/
def boundProgram (k : Command) (slot size : Nat) : Except Nat (Option DressWork) :=
  if slot = 0 then .ok none
  else
    match k.prog with
    | none => .error 2
    | some d => if d.world ≠ k.world then .error 6 else if d.prog.total ≠ size then .error 2 else .ok (some d.prog)

/-- The bytes of a stream by their offsets, through a program if there is one (R165, R173). -/
def placed (p : Option DressWork) (l : List Byte) : List (Nat × Byte) :=
  match p with
  | none => (List.range l.length).zip l
  | some w => dressOut w l.toArray

/-- The length of the range that a stream takes (R175). -/
def placedSpan (p : Option DressWork) (n : Nat) : Nat :=
  match p with
  | none => n
  | some w => dressSpan w

/-! ### Copies (R163-R168) -/

/-- CVTSTAT with a command's counts added (R168). -/
def addCvt (sat spread : Nat) (x : Core) : Core :=
  let v := cap32 (bitsN x.csr.cvtstat.toNat 0 32 + sat) + 2 ^ 32 * cap32 (bitsN x.csr.cvtstat.toNat 32 32 + spread)
  { x with csr := { x.csr with cvtstat := BitVec.ofNat 64 v } }

/-- The geometry of a copy: the register that GREG names, as copied at issue (R153). -/
def copyGeo (k : Command) : Geo := geoOf (vget k.geo (cmdImm k 25 3) 0)

/-- The types of a copy. -/
def copySt (k : Command) : Nat := cmdImm k 32 4
def copyDt (k : Command) : Nat := cmdImm k 28 4

/-- The end of a copy: the failure of its source, or its counts (R160, R165). -/
def copyEnd (k : Command) (x : Converted) (bytes : List (Option Byte)) (discarded : Bool) : Outcome7 :=
  match bytes.findIdx? fun b => b.isNone with
  | some _ => { status := 7, reply := 0xFF, failed := failedVa (sourceOf k) bytes }
  | none =>
    if discarded then ends 7 0xFF
    else ends 0 (BitVec.ofNat 64 (cap32 x.sat + 2 ^ 32 * cap32 x.spread))

/-- copy.in (R165, R167). The order of its checks is the model's choice (log 36). -/
def runCopyIn (c : CoreId) (k : Command) (s : State) : State × Outcome7 :=
  let g := copyGeo k
  let st := copySt k
  let dt := copyDt k
  let pl := decide (cmdImm k 24 1 = 1)
  let base := bitsN k.b.toNat 0 14 * 128
  if decide (2 ^ 14 ≤ k.b.toNat) || badShape st dt st pl g then (s, ends 5 0xFF)
  else
    match boundProgram k (cmdImm k 16 4) (streamSize dt pl g) with
    | .error e => (s, ends e 0xFF)
    | .ok p =>
      if 0x200000 < base + placedSpan p (streamSize dt pl g) then (s, ends 4 0xFF)
      else
        let bytes := sourceData s c k
        let x := convertTensor st dt g (readTensor st g bytes)
        let s := s.modCore c fun y =>
          addCvt x.sat x.spread (fillCells base (placed p (copyStream dt pl g x)) y)
        (s, copyEnd k x bytes false)

/-- copy.out (R165). The order of its checks is the model's choice (log 36). -/
def runCopyOut (c : CoreId) (k : Command) (s : State) : State × Outcome7 :=
  let g := copyGeo k
  let st := copySt k
  let dt := copyDt k
  let src := bitsN k.b.toNat 0 14 * 128
  if decide (2 ^ 14 ≤ k.b.toNat) || badShape st dt dt false g then (s, ends 5 0xFF)
  else if 0x200000 < src + denseSize st g then (s, ends 4 0xFF)
  else
    let bytes := spadSeen (s.core c) src (denseSize st g)
    let x := convertTensor st dt g (readTensor st g bytes)
    let ledge := badLedge (s.core c) src (denseSize st g)
    let (s, gone) := writeTarget c k (placed none (copyStream dt false g x)) s
    (s.modCore c (addCvt x.sat x.spread), { copyEnd k x bytes gone with ledge })

/-- Do two lists of parts meet in physical memory? -/
def piecesMeet (a b : List Piece) : Bool :=
  a.any fun p => b.any fun q => decide (p.pa < q.pa + q.len) && decide (q.pa < p.pa + p.len)

/-- copy.mm (R160, R165): source and destination shall not overlap. -/
def runCopyMm (c : CoreId) (k : Command) (s : State) : State × Outcome7 :=
  let g := copyGeo k
  let st := copySt k
  let dt := copyDt k
  if badShape st dt st false g || piecesMeet (sourceOf k) (targetOf k) then (s, ends 5 0xFF)
  else
    match boundProgram k (cmdImm k 16 4) (streamSize dt false g) with
    | .error e => (s, ends e 0xFF)
    | .ok p =>
      -- the destination range was translated at issue; a program bound since then that needs more is refused
      if ((targetOf k).map fun q => q.len).sum < placedSpan p (streamSize dt false g) then (s, ends 5 0xFF)
      else
        let bytes := sourceData s c k
        let x := convertTensor st dt g (readTensor st g bytes)
        let (s, gone) := writeTarget c k (placed p (copyStream dt false g x)) s
        (s.modCore c (addCvt x.sat x.spread), copyEnd k x bytes gone)

/-! ### Gather, scatter and fill (R137, R138, R169, R170) -/

/-- Index `n` of a gather or scatter (R138). -/
def indexOf (a b : W64) (n : Nat) : Nat := if n < 4 then bitsN a.toNat (16 * n) 16 else bitsN b.toNat (16 * (n - 4)) 16

/-- ROWB and BOUND of the table that a command names, none when the geometry is invalid (R137). -/
def tableOf (g : W64) : Option (Nat × Nat) :=
  let rowb := bitsN g.toNat 16 16
  if bitsN g.toNat 32 32 ≠ 0 ∨ rowb % 128 ≠ 0 ∨ rowb < 128 ∨ 4096 < rowb then none else some (rowb, bitsN g.toNat 0 16)

/-- The mask of indices out of bound (R138). -/
def missMask (k : Command) (bound : Nat) : Nat :=
  ((List.range 8).map fun n => if indexOf k.a k.b n < bound then 0 else 2 ^ n).sum

/-- The rows that a gather reads, zeros for those out of bound (R138). -/
def gatherRows (k : Command) (rowb bound : Nat) (bytes : List (Option Byte)) : List (Option Byte) :=
  ((List.range 8).foldl (fun (acc : List (Option Byte) × List (Option Byte)) n =>
    if indexOf k.a k.b n < bound then (acc.1 ++ acc.2.take rowb, acc.2.drop rowb)
    else (acc.1 ++ List.replicate rowb (some 0), acc.2)) ([], bytes)).1

/-- gather (R138). The order of its checks is the model's choice (log 36). -/
def runGather (c : CoreId) (k : Command) (s : State) : State × Outcome7 :=
  let dest := cmdImm k 22 14 * 128
  let t := cmdImm k 20 2
  match tableOf (vget k.geo (2 * t + 1) 0) with
  | none => (s, ends 5 0xFF)
  | some (rowb, bound) =>
    match boundProgram k (cmdImm k 16 4) (8 * rowb) with
    | .error e => (s, ends e 0xFF)
    | .ok p =>
      if 0x200000 < dest + placedSpan p (8 * rowb) then (s, ends 4 0xFF)
      else
        let bytes := sourceData s c k
        let rows := gatherRows k rowb bound bytes
        let s := s.modCore c (fillCells dest (placed p (rows.map fun b => b.getD 0)))
        let m := missMask k bound
        (s, match bytes.findIdx? fun b => b.isNone with
          | some _ => { status := 7, reply := 0xFF, failed := failedVa (sourceOf k) bytes }
          | none => ends (if m = 0 then 0 else 1) (BitVec.ofNat 64 m))

/-- scatter (R169): rows in ascending k, so that a later one remains. -/
def runScatter (c : CoreId) (k : Command) (s : State) : State × Outcome7 :=
  let src := cmdImm k 22 14 * 128
  let t := cmdImm k 20 2
  match tableOf (vget k.geo (2 * t + 1) 0) with
  | none => (s, ends 5 0xFF)
  | some (rowb, bound) =>
    if 0x200000 < src + 8 * rowb then (s, ends 4 0xFF)
    else
      let x := s.core c
      let rows := (List.range 8).filter fun n => decide (indexOf k.a k.b n < bound)
      let bytes := rows.flatMap fun n => spadSeen x (src + n * rowb) rowb
      let (s, gone) := writeTarget c k (placed none (bytes.map fun b => b.getD 0)) s
      let m := missMask k bound
      (s, if gone || bytes.any (fun b => b.isNone) then { ends 7 0xFF with ledge := rows.findSome? fun n => badLedge x (src + n * rowb) rowb }
          else ends (if m = 0 then 0 else 1) (BitVec.ofNat 64 m))

/-- fill (R170). -/
def runFill (c : CoreId) (k : Command) (s : State) : State × Outcome7 :=
  let base := bitsN k.b.toNat 0 14 * 128
  let n := 128 * bitsN k.b.toNat 16 16
  if 2 ^ 32 ≤ k.a.toNat ∨ 2 ^ 32 ≤ k.b.toNat ∨ bitsN k.b.toNat 14 2 ≠ 0 ∨ n = 0 ∨ 16384 * 128 < n then (s, ends 5 0xFF)
  else if 0x200000 < base + n then (s, ends 4 0xFF)
  else (s.modCore c fun x => spadPut x base ((List.replicate (n / 4) (bytesOfNat 4 k.a.toNat)).flatten), ends 0 0)

/-! ### dress (R139, R171) -/

/-- dress. Its header is read again here, and words past the range that was translated at issue read zero (log 36). -/
def runDress (c : CoreId) (k : Command) (s : State) : State × Outcome7 :=
  let slot := cmdImm k 16 4
  let cl := s.cluster c.cluster
  let other := match vget cl.slots slot none with
    | some d => decide (d.world ≠ k.world)
    | none => false
  if other then (s, ends 6 0)
  else
    let bytes := sourceData s c k
    match failedVa (sourceOf k) bytes with
    | some va => (s, { status := 7, reply := 0xFF, failed := some va })
    | none =>
      let plain := bytes.map fun b => b.getD 0
      let hdr : W64 := bvOfBytes 64 (plain.take 8)
      match dressCount hdr with
      | none => (s, ends 3 0)
      | some n =>
        let words := (List.range n).map fun i => (bvOfBytes 64 ((plain.drop (8 * (i + 1))).take 8) : W64)
        match dressLoad words with
        | none => (s, ends 3 0)
        | some p =>
          (s.modCluster c.cluster fun y => { y with slots := vset y.slots slot (some { world := k.world, prog := p }) }, ends 0 1)

/-! ### hist, binsort and rng.seed (R285, R304-R306) -/

/-- Little-endian word of the scratchpad. -/
def spadWord (x : Core) (a : Nat) : Nat := natOfBytes (spadGet x a 4)

/-- Bins as a histogram latches them (R282, R304): FILL, DROPPED and BASE of bin F + e from the counts. -/
def latchBins (first : Nat) (counts : List Nat) (v : Vector Bin 16) : Vector Bin 16 :=
  let n := min counts.length (16 - first)
  let b0 := vget v first Bin.zero
  (List.range n).foldl (fun v e =>
    let b := vget v (first + e) Bin.zero
    let c := counts.getD e 0
    let fill := min c b.cap.toNat
    vset v (first + e) { b with
      fill := BitVec.ofNat 13 fill, dropped := BitVec.ofNat 32 (c - fill), deferred := 0
      base := if e = 0 then b.base else b0.base + BitVec.ofNat 64 (b0.rowb.toNat * (counts.take e).sum) }) v

/-- Does a bin to be latched have a CAP outside 1-4,096 (R282, R304)? -/
def badLatch (first n : Nat) (v : Vector Bin 16) : Bool :=
  (List.range (min n (16 - first))).any fun e =>
    let cap := (vget v (first + e) Bin.zero).cap.toNat
    decide (cap = 0) || decide (4096 < cap)

/-- hist (R304). -/
def runHist (c : CoreId) (k : Command) (s : State) : State × Outcome7 :=
  let a := k.a.toNat
  let rows := bitsN k.b.toNat 0 16
  let ne := bitsN k.b.toNat 16 8 + 1
  let first := bitsN k.b.toNat 24 4
  let v := (a + 4 * rows + 127) / 128 * 128
  let x := s.core c
  if 2 ^ 21 ≤ a ∨ a % 4 ≠ 0 ∨ 2 ^ 28 ≤ k.b.toNat ∨ rows = 0 ∨ 4096 < rows then (s, ends 5 0xFF)
  else if 0x200000 < v + 4 * ne then (s, ends 4 0xFF)
  else if badLatch first ne x.sf.b then (s, ends 0x10 0xFF)
  else
    let seen := spadSeen x a (4 * rows)
    let es := (List.range rows).map fun i => spadWord x (a + 4 * i) % 256
    let counts := (List.range ne).map fun e => (es.filter fun y => decide (y = e)).length
    let s := s.modCore c fun x =>
      let x := spadPut x v (counts.flatMap fun n => bytesOfNat 4 n)
      { x with sf := { x.sf with b := latchBins first counts x.sf.b } }
    (s, if seen.any (fun b => b.isNone) then { ends 7 0xFF with ledge := badLedge x a (4 * rows) } else ends 0 (BitVec.ofNat 64 counts.sum))

/-- One row of a binsort: the class that takes it, with its place, or what it adds to (R306). -/
def sortRow (first nc : Nat) (len : Nat) (v : Vector Bin 16) : Option (Nat × Bool) :=
  match (List.range nc).find? fun j => decide (len ≤ (vget v (first + j) Bin.zero).rowb.toNat) with
  | none => none
  | some j =>
    let b := vget v (first + j) Bin.zero
    some (first + j, decide (b.fill.toNat < b.cap.toNat))

/-- The bins after a row has come to one of them (R306). -/
def sortBin (j : Nat) (kept : Bool) (v : Vector Bin 16) : Vector Bin 16 :=
  let b := vget v j Bin.zero
  vset v j (if kept then { b with fill := b.fill + 1 }
            else { b with dropped := BitVec.ofNat 32 (cap32 (b.dropped.toNat + 1)) })

/-- The bins after rows of given lengths, and whether one would exceed a class under trap (R306). -/
def sortRows (first nc : Nat) (lens : List Nat) (v : Vector Bin 16) : Vector Bin 16 × Bool :=
  lens.foldl (fun w len => match sortRow first nc len w.1 with
    | none => w
    | some (j, kept) => (sortBin j kept w.1, w.2 || (!kept && decide ((vget w.1 j Bin.zero).rule = 2)))) (v, false)

/-- A binsort on its way: the core, the rows beyond the last class, and whether bytes that it read failed their parity, with the
first place. -/
structure SortWork where
  x : Core
  beyond : Nat
  failed : Bool
  ledge : Option Nat

def SortWork.start (x : Core) : SortWork := { x, beyond := 0, failed := false, ledge := none }

/-- Bytes of the scratchpad read by a binsort. -/
def SortWork.read (w : SortWork) (a n : Nat) : SortWork :=
  { w with failed := w.failed || (spadSeen w.x a n).any Option.isNone, ledge := w.ledge.or (badLedge w.x a n) }

/-- A row kept at the tail of its bin, with zeros to the end of the bin row. -/
def keepRow (b : Bin) (src len : Nat) (x : Core) : Core :=
  spadPut x (b.base.toNat + b.fill.toNat * b.rowb.toNat)
    ((spadSeen x src len).map (fun y => y.getD 0) ++ List.replicate (b.rowb.toNat - len) 0)

/-- The next row of a binsort, as the rows before it have left the scratchpad: its length at `at_`, its bytes at `src`. -/
def sortNext (first nc at_ src : Nat) (w : SortWork) : SortWork :=
  let len := spadWord w.x at_
  let w := w.read at_ 4
  match sortRow first nc len w.x.sf.b with
  | none => { w with beyond := w.beyond + 1 }
  | some (j, kept) =>
    let w := if kept then w.read src len else w
    let x := if kept then keepRow (vget w.x.sf.b j Bin.zero) src len w.x else w.x
    { w with x := { x with sf := { x.sf with b := sortBin j kept x.sf.b } } }

/-- Is a class of a binsort unusable (R306)? -/
def badClasses (first nc srb : Nat) (v : Vector Bin 16) : Bool :=
  (List.range nc).any fun j =>
    let b := vget v (first + j) Bin.zero
    b.base.getLsbD 63 || !(decide (b.rule = 0) || decide (b.rule = 2)) || decide (srb < b.rowb.toNat)
      || (decide (j + 1 < nc) && decide ((vget v (first + j + 1) Bin.zero).rowb.toNat ≤ b.rowb.toNat))

/-- binsort (R306). -/
def runBinsort (c : CoreId) (k : Command) (s : State) : State × Outcome7 :=
  let a := k.a.toNat
  let b := k.b.toNat
  let rows := bitsN b 0 16
  let nc := bitsN b 16 3 + 1
  let first := bitsN b 20 4
  let src := bitsN b 32 21
  let srb := (bitsN b 56 4 + 1) * 128
  let x := s.core c
  let bins := x.sf.b
  if 2 ^ 21 ≤ a ∨ a % 4 ≠ 0 ∨ src % 128 ≠ 0 ∨ bitsN b 19 1 ≠ 0 ∨ bitsN b 24 8 ≠ 0 ∨ bitsN b 53 3 ≠ 0 ∨ bitsN b 60 4 ≠ 0
      ∨ rows = 0 ∨ 4096 < rows ∨ 16 < first + nc then (s, ends 5 0xFF)
  else if 0x200000 < a + 4 * rows ∨ 0x200000 < src + rows * srb ∨ (List.range nc).any fun j =>
      let y := vget bins (first + j) Bin.zero
      !y.base.getLsbD 63 && decide (0x200000 < y.base.toNat + y.cap.toNat * y.rowb.toNat) then (s, ends 4 0xFF)
  else if badClasses first nc srb bins then (s, ends 0x10 0xFF)
  else
    let lens := (List.range rows).map fun i => spadWord x (a + 4 * i)
    if (sortRows first nc lens bins).2 then (s, ends 0x11 0xFF)
    else
      let w := (List.range rows).foldl (fun w i => sortNext first nc (a + 4 * i) (src + i * srb) w) (SortWork.start x)
      let s := s.modCore c fun _ => w.x
      (s, if w.failed then { ends 7 0xFF with ledge := w.ledge } else ends 0 (BitVec.ofNat 64 w.beyond))

/-- rng.seed (R285). -/
def runRngSeed (c : CoreId) (k : Command) (s : State) : State × Outcome7 :=
  if 16 ≤ k.b.toNat then (s, ends 5 0xFF)
  else (s.modCore c fun x => { x with sf := { x.sf with rseed := vset x.sf.rseed k.b.toNat k.a } }, ends 0 0)

end Sys2Proof.Machine
end

