-- ==== Sys2Proof/Machine/SpecialFn.lean ====
section
/-! DEFINITION. The special functions of the SF column (R226-R228), each correctly rounded to binary32. Algebraic
functions are computed exactly. The others are enclosed in an interval of fixed-point numbers at rising precision, until
both ends round to the same encoding. -/

namespace Sys2Proof.Machine

/-- The integer square root, bit by bit from bit `b - 1` down. -/
def isqrtFrom (n : Nat) : Nat → Nat → Nat
  | 0, acc => acc
  | b + 1, acc => if (acc + 2 ^ b) * (acc + 2 ^ b) ≤ n then isqrtFrom n b (acc + 2 ^ b) else isqrtFrom n b acc

/-- floor(sqrt n). -/
def isqrt (n : Nat) : Nat := isqrtFrom n (Nat.log2 n / 2 + 1) 0

/-- A quotient with a sticky bit below it: RNE of `(2 q + sticky) * 2^(e - 1)` is RNE of the exact value. -/
def withSticky (q : Nat) (exact : Bool) : Nat := 2 * q + (if exact then 0 else 1)

/-- RNE of num / den * 2^e. -/
def rneRat (neg : Bool) (num den : Nat) (e : Int) : Nat :=
  let k := 64 + Nat.log2 den
  let n := num * 2 ^ k
  rne fmtF32 neg (withSticky (n / den) (decide (n % den = 0))) (e - k - 1)

/-- sf.rcp (R226, R227). -/
def sfRcpF (x : Nat) : Nat :=
  match f32 x with
  | .nan => nan32
  | .inf neg => if neg then 0x80000000 else 0
  | .fin neg m e => if m = 0 then (if neg then 0xFF800000 else 0x7F800000) else rneRat neg 1 m (-e)

/-- The mantissa and exponent with an even exponent. -/
def evenExp (m : Nat) (e : Int) : Nat × Int := if e % 2 = 0 then (m, e) else (2 * m, e - 1)

/-- sf.sqrt (R226, R227). -/
def sfSqrtF (x : Nat) : Nat :=
  match f32 x with
  | .nan => nan32
  | .inf neg => if neg then nan32 else 0x7F800000
  | .fin neg m e =>
    if m = 0 then x % 2 ^ 32
    else if neg then nan32
    else
      let (m', e') := evenExp m e
      let n := m' * 2 ^ 64
      let q := isqrt n
      rne fmtF32 false (withSticky q (decide (q * q = n))) (e' / 2 - 32 - 1)

/-- sf.rsqrt (R226, R227). -/
def sfRsqrtF (x : Nat) : Nat :=
  match f32 x with
  | .nan => nan32
  | .inf neg => if neg then nan32 else 0
  | .fin neg m e =>
    if m = 0 then (if neg then 0xFF800000 else 0x7F800000)
    else if neg then nan32
    else
      let (m', e') := evenExp m e
      let q := isqrt (2 ^ 128 / m')
      rne fmtF32 false (withSticky q (decide (q * q * m' = 2 ^ 128))) (-(e' / 2) - 64 - 1)

/-! ### Fixed-point enclosures: a number with `N` fraction bits and an error of at most `2^g` units -/

/-- The sum of 2^N / (k 2^k) for k from `k`: the series of ln 2. -/
def ln2Loop (N : Nat) : Nat → Nat → Nat → Nat
  | 0, _, acc => acc
  | fuel + 1, k, acc => ln2Loop N fuel (k + 1) (acc + 2 ^ N / (k * 2 ^ k))

def ln2Fix (N : Nat) : Nat := ln2Loop N N 1 0

/-- The exponential series. -/
def expLoop (N y : Nat) : Nat → Nat → Nat → Nat → Nat
  | 0, _, _, acc => acc
  | fuel + 1, k, t, acc =>
    let t' := t * y / 2 ^ N / k
    expLoop N y fuel (k + 1) t' (acc + t')

/-- exp y for 0 ≤ y ≤ 1. -/
def expFix (N y : Nat) : Nat := expLoop N y (N / 2) 1 (2 ^ N) (2 ^ N)

/-- The series of atanh: z + z^3/3 + ... -/
def atanhLoop (N z2 : Nat) : Nat → Nat → Nat → Nat → Nat
  | 0, _, _, acc => acc
  | fuel + 1, k, t, acc => atanhLoop N z2 fuel (k + 2) (t * z2 / 2 ^ N) (acc + t / k)

/-- ln of num/den, between 1 and 2. -/
def lnFix (N num den : Nat) : Nat :=
  let z := (num - den) * 2 ^ N / (num + den)
  2 * atanhLoop N (z * z / 2 ^ N) (N / 3 + 2) 1 z 0

/-- The series of atan(1/n) as alternating sums. -/
def atanLoop (n2 : Nat) : Nat → Nat → Nat → Bool → Int → Int
  | 0, _, _, _, acc => acc
  | fuel + 1, k, t, neg, acc =>
    atanLoop n2 fuel (k + 2) (t / n2) (!neg) (if neg then acc - (t / k : Nat) else acc + (t / k : Nat))

def atanInv (N n : Nat) : Int := atanLoop (n * n) (N / 2 + 1) 1 (2 ^ N / n) false 0

/-- pi/2. -/
def halfPi (N : Nat) : Nat := ((16 * atanInv N 5 - 4 * atanInv N 239) / 2).toNat

/-- The alternating series t0 - t0 r²/(k (k+1)) + ... of sine (t0 = r, k = 2) and cosine (t0 = 1, k = 1). -/
def trigLoop (N r2 : Nat) : Nat → Nat → Nat → Bool → Int → Int
  | 0, _, _, _, acc => acc
  | fuel + 1, k, t, neg, acc =>
    let t' := t * r2 / 2 ^ N / (k * (k + 1))
    trigLoop N r2 fuel (k + 2) t' (!neg) (if neg then acc + (t' : Int) else acc - (t' : Int))

def sinFix (N r : Nat) : Int := trigLoop N (r * r / 2 ^ N) (N / 4) 2 r false r
def cosFix (N r : Nat) : Int := trigLoop N (r * r / 2 ^ N) (N / 4) 1 (2 ^ N) false (2 ^ N)

/-- The encoding of an enclosed value, if both ends of the interval round to it. -/
def encloses (N g : Nat) (e : Int) (c : Int) : Option Nat :=
  let enc (x : Int) : Nat := rne fmtF32 (decide (x < 0)) x.natAbs (e - N)
  let lo := enc (c - 2 ^ g)
  let hi := enc (c + 2 ^ g)
  if lo = hi then some lo else none

/-- The first precision at which the interval rounds to one encoding. Every result here is either exact and handled
apart, or transcendental, so that some precision decides; the last centre stands in when none of these does. -/
def atPrecision (f : Nat → Int) (g : Nat) (e : Int) : Nat :=
  match encloses 160 g e (f 160) with
  | some x => x
  | none =>
    match encloses 320 g e (f 320) with
    | some x => x
    | none => let c := f 640; rne fmtF32 (decide (c < 0)) c.natAbs (e - 640)

/-- `m * 2^e` with N fraction bits, rounded down. -/
def fixOf (N m : Nat) (e : Int) : Nat :=
  match (N : Int) + e with
  | .ofNat k => m * 2 ^ k
  | .negSucc k => m / 2 ^ (k + 1)

/-- Is `m * 2^e` below 2^b? -/
def below (m : Nat) (e b : Int) : Bool := decide (m = 0) || decide ((Nat.log2 m : Int) + e < b)

/-- sf.exp2 (R226, R227). -/
def sfExp2F (x : Nat) : Nat :=
  match f32 x with
  | .nan => nan32
  | .inf neg => if neg then 0 else 0x7F800000
  | .fin neg m e =>
    if below m e (-26) then 0x3F800000
    else if !below m e 8 then (if neg then 0 else 0x7F800000)
    else
      -- x = n + f with 0 ≤ f < 1
      let xi : Int := signedOf neg (fixOf 160 m e)
      let n : Int := xi / 2 ^ 160
      let fr : Nat := (xi % 2 ^ 160).toNat
      if n < -150 then 0
      else if fr = 0 then rne fmtF32 false 1 n
      else atPrecision (fun N => expFix N (fr * 2 ^ (N - 160) * ln2Fix N / 2 ^ N)) 20 n

/-- sf.log2 (R226, R227). -/
def sfLog2F (x : Nat) : Nat :=
  match f32 x with
  | .nan => nan32
  | .inf neg => if neg then nan32 else 0x7F800000
  | .fin neg m e =>
    if m = 0 then 0xFF800000
    else if neg then nan32
    else
      let L := Nat.log2 m
      let E : Int := (L : Int) + e
      if m = 2 ^ L then rne fmtF32 (decide (E < 0)) E.natAbs 0
      else atPrecision (fun N => E * 2 ^ N + ((lnFix N m (2 ^ L) * 2 ^ N / ln2Fix N : Nat) : Int)) 20 0

/-- sin or cos of a fixed-point angle. -/
def trigAt (cosine neg : Bool) (m : Nat) (e : Int) (N : Nat) : Int :=
  let X := fixOf N m e
  let P := halfPi N
  let k := X / P + (if cosine then 1 else 0)
  let r := X % P
  let v := match k % 4 with
    | 0 => sinFix N r
    | 1 => cosFix N r
    | 2 => -sinFix N r
    | _ => -cosFix N r
  if neg && !cosine then -v else v

/-- Is an element of sf.sin or sf.cos out of range (R228)? -/
def sfRange (x : Nat) : Bool :=
  match f32 x with
  | .nan => false
  | .inf _ => true
  | .fin _ m e => !below m e 20

/-- sf.sin (R226-R228). -/
def sfSinF (x : Nat) : Nat :=
  match f32 x with
  | .fin neg m e =>
    if !below m e 20 then nan32
    else if below m e (-13) then x % 2 ^ 32
    else atPrecision (trigAt false neg m e) 40 0
  | _ => nan32

/-- sf.cos (R226-R228). -/
def sfCosF (x : Nat) : Nat :=
  match f32 x with
  | .fin neg m e =>
    if !below m e 20 then nan32
    else if below m e (-13) then 0x3F800000
    else atPrecision (trigAt true neg m e) 40 0
  | _ => nan32

/-- tanh of a positive fixed-point number below 16. -/
def tanhAt (neg : Bool) (m : Nat) (e : Int) (N : Nat) : Int :=
  let y := 2 * fixOf N m e
  let l := ln2Fix N
  let E := expFix N (y % l) * 2 ^ (y / l)
  let v : Int := (((E - 2 ^ N) * 2 ^ N / (E + 2 ^ N) : Nat) : Int)
  if neg then -v else v

/-- sf.tanh (R226, R227). -/
def sfTanhF (x : Nat) : Nat :=
  match f32 x with
  | .nan => nan32
  | .inf neg => if neg then 0xBF800000 else 0x3F800000
  | .fin neg m e =>
    if below m e (-13) then x % 2 ^ 32
    else if !below m e 4 then (if neg then 0xBF800000 else 0x3F800000)
    else atPrecision (tanhAt neg m e) 60 0

end Sys2Proof.Machine
end

