-- ==== Sys2Proof/Machine/TMean.lean ====
section
/-! DEFINITION. The bench accumulator (R217-R219), the transformed mean (R275, R276, R341), and its tables (R358-R360). -/

namespace Sys2Proof.Machine

/-! ### Accumulator cells -/

/-- AsrJam on a cell's or partial's integer (R209): a shift that is not positive leaves it. -/
def jamBy (x n : Int) : Int × Bool := if n ≤ 0 then (x, false) else asrJam x n.toNat

/-- AccAdd (R218). `fixed` is the policy of the format-table entry. -/
def accAdd (fixed : Bool) (c : Cell) (s e : Int) : Cell :=
  if c.nan then c
  else if !fixed && c.clr then { c with m := BitVec.ofInt 64 s, e := BitVec.ofInt 16 e, clr := false }
  else
    let m := c.m.toInt
    let ce := c.e.toInt
    let (m, t, e', j) :=
      if ce < e ∧ !fixed then
        let (m', j) := jamBy m (e - ce)
        (m', s, e, j)
      else if ce < e then (m, s * 2 ^ (e - ce).toNat, ce, false)
      else
        let (t, j) := jamBy s (ce - e)
        (m, t, ce, j)
    let r := m + t
    let r' := satS r 64
    { c with m := BitVec.ofInt 64 r', e := BitVec.ofInt 16 e', jam := c.jam || j, sat := c.sat || decide (r' ≠ r), clr := false }

/-! ### FP32 values -/

/-- The sign of an exact value; 0 for a zero or a NaN. -/
def vsign : Val → Int
  | .nan => 0
  | .inf n => if n then -1 else 1
  | .fin n m _ => if m = 0 then 0 else if n then -1 else 1

/-- Exact order of two values that are not NaN. -/
def vle (a b : Val) : Bool := decide (vsign (vadd a (vneg b)) ≤ 0)

/-- floor of a finite value. -/
def vfloor : Val → Int
  | .fin n m e => signedOf n m * 2 ^ e.toNat / 2 ^ (-e).toNat
  | _ => 0

/-- An integer as an exact value. -/
def valInt (x : Int) : Val := .fin (decide (x < 0)) x.natAbs 0

/-- Signed significand and exponent of a finite FP32 value (R276): y = Sig * 2^(Ex - 23). A zero or subnormal value has
exponent -126 and no hidden bit. -/
def sigOf (x : Nat) : Int :=
  match f32 x with
  | .fin n m _ => signedOf n m
  | _ => 0
def scaleOf (x : Nat) : Int :=
  match f32 x with
  | .fin _ _ e => e
  | _ => -149

/-- Is the encoding of a finite value? -/
def finite32 (x : Nat) : Bool := decide (x % 2 ^ 31 < 0x7F800000)

/-- The FP32 value nearest to M * 2^e / n for n > 0, computed with a sticky bit. -/
def rneQuot (m e : Int) (n : Nat) : Nat :=
  let big := m.natAbs * 2 ^ 96
  let q := big / n
  let sticky := if big % n = 0 then 0 else 1
  if m = 0 then 0 else rne fmtF32 (decide (m < 0)) (2 * q + sticky) (e - 97)

/-! ### Means and domains -/

/-- The mean that a word or TMSHAPE selects (R274, R339). -/
inductive Mean where
  | pow (p : Int)
  | top
  | tab (img : List Byte)
deriving DecidableEq, Repr

/-- FP32 value `i` of a table image from an offset (R358). -/
def tabAt (img : List Byte) (off i : Nat) : Nat := natOfBytes ((img.drop (off + 4 * i)).take 4)

/-- The domain of R275. -/
def inDomain (m : Mean) (x : Nat) : Bool :=
  match m with
  | .pow p => finite32 x && (if p ≤ 0 then flt 0 x else fle 0 x)
  | .top => !isNan32 x
  | .tab img => fle (tabAt img 0 0) x && fle x (tabAt img 4 0)

/-- Eval of R359 with knots at an offset. -/
def tabEval (img : List Byte) (lo scl off x : Nat) : Nat :=
  let u := toF32 (vmul (vadd (f32 x) (vneg (f32 lo))) (f32 scl))
  let u := if vle (f32 u) (valInt 0) then 0 else if vle (valInt 256) (f32 u) then 0x43800000 else u
  let i := min (vfloor (f32 u)).toNat 255
  let fr := vadd (f32 u) (valInt (-(i : Int)))
  let k0 := f32 (tabAt img off i)
  let k1 := f32 (tabAt img off (i + 1))
  toF32 (vadd k0 (vmul fr (vadd k1 (vneg k0))))

/-- The entry and exit functions of a table (R359). -/
def tabEntry (img : List Byte) (x : Nat) : Nat := tabEval img (tabAt img 0 0) (tabAt img 8 0) 32 x
def tabExit (img : List Byte) (y : Nat) : Nat := tabEval img (tabAt img 32 0) (tabAt img 12 0) 1064 y

/-- RNE(256 / (a - b)) as R358 gives the scales: none unless a - b is finite and not zero. -/
def tabScale (a b : Nat) : Option Nat :=
  match vadd (f32 a) (vneg (f32 b)) with
  | .fin neg m e => if m = 0 then none
    else
      let q := 256 * 2 ^ 400 / m
      let sticky := if 256 * 2 ^ 400 % m = 0 then 0 else 1
      some (rne fmtF32 neg (2 * q + sticky) (-e - 401))
  | _ => none

/-- |Exit(Entry(x)) - x| ≤ TOL (R360). -/
def tabClose (img : List Byte) (x : Nat) : Bool :=
  let d := vadd (f32 (tabExit img (tabEntry img x))) (vneg (f32 x))
  let tol := f32 (tabAt img 16 0)
  vle d tol && vle (vneg tol) d && (match d with
    | .fin _ _ _ => true
    | _ => false)

/-- Knot abscissa x_i (R360): DLO + i (DHI - DLO) / 256, rounded. -/
def tabX (img : List Byte) (i : Nat) : Nat :=
  let lo := f32 (tabAt img 0 0)
  let w := vadd (f32 (tabAt img 4 0)) (vneg lo)
  toF32 (vadd lo (vmul (vmul (valInt i) w) (.fin false 1 (-8))))

/-- Is each value of a list below the next, exactly? -/
def rising : List Nat → Bool
  | x :: y :: r => flt x y && rising (y :: r)
  | _ => true

/-- Is the table pair verified (R360)? -/
def tabVerified (img : List Byte) : Bool :=
  let lo := tabAt img 0 0
  let hi := tabAt img 4 0
  let ys := (List.range 257).map (tabAt img 32)
  let zs := (List.range 257).map (tabAt img 1064)
  let xs := (List.range 257).map (tabX img)
  let mids := (List.range 256).map fun i =>
    toF32 (vmul (vadd (f32 (tabX img i)) (f32 (tabX img (i + 1)))) (.fin false 1 (-1)))
  finite32 lo && finite32 hi && flt lo hi
    && finite32 (tabAt img 16 0) && fle 0 (tabAt img 16 0)
    && decide (natOfBytes ((img.drop 20).take 12) = 0) && decide (tabAt img 1060 0 = 0) && decide (tabAt img 2092 0 = 0)
    && decide (tabScale hi lo = some (tabAt img 8 0))
    && decide (tabScale (tabAt img 32 256) (tabAt img 32 0) = some (tabAt img 12 0))
    && ys.all finite32 && zs.all finite32 && (rising ys || rising ys.reverse) && rising zs
    && xs.all (tabClose img) && mids.all (tabClose img)

/-! ### Partials (R276, R341) -/

/-- A partial: an accumulator cell, the terms counted, and the terms skipped. -/
structure Part where
  cell : Cell
  n : Nat
  sk : Nat
deriving DecidableEq, Repr

/-- The clear partial. -/
def Part.clear : Part := { cell := Cell.clear, n := 0, sk := 0 }

/-- An FP32 value added to a cell, its exponent raised by `k`. -/
def accF32 (c : Cell) (x : Nat) (k : Int) : Cell := accAdd false c (sigOf x) (scaleOf x + k)

/-- k = floor(y), and exp2(RNE(y - k)) (R276). -/
def expParts (y : Nat) : Int × Nat :=
  let k := vfloor (f32 y)
  (k, sfExp2F (toF32 (vadd (f32 y) (valInt (-k)))))

/-- L / p, rounded. -/
def divByP (l : Nat) (p : Int) : Nat :=
  match f32 l with
  | .fin neg m e =>
    let big := m * 2 ^ 64
    let q := big / p.natAbs
    let sticky := if big % p.natAbs = 0 then 0 else 1
    rne fmtF32 (neg != decide (p < 0)) (2 * q + sticky) (e - 65)
  | v => toF32 v

/-- The per-term step of R276 for a term in the domain. -/
def termStep (m : Mean) (c : Cell) (x : Nat) : Cell :=
  match m with
  | .top =>
    let v := if c.clr then x % 2 ^ 32 else fmax (c.m.toNat % 2 ^ 32) x
    { c with m := BitVec.ofNat 64 v, clr := false }
  | .tab img => accF32 c (tabEntry img x) 0
  | .pow p =>
    if p = 1 then accF32 c x 0
    else if p = 0 then accF32 c (sfLog2F x) 0
    else if x % 2 ^ 31 = 0 then c
    else
      let y := toF32 (vmul (valInt p) (f32 (sfLog2F x)))
      let (k, g) := expParts y
      accF32 c g k

/-- The final step of R276. -/
def meanExit (m : Mean) (x : Part) : Nat :=
  let v := x.cell.m.toInt
  let e := x.cell.e.toInt
  if x.n = 0 || x.cell.nan then nan32
  else
    match m with
    | .top => x.cell.m.toNat % 2 ^ 32
    | .tab img => tabExit img (rneQuot v e x.n)
    | .pow p =>
      if p = 1 then rneQuot v e x.n
      else if p = 0 then sfExp2F (rneQuot v e x.n)
      else if v = 0 then 0
      else
        -- v / n = s * 2^j with 1 ≤ s < 2
        let a := v.natAbs
        let j0 : Int := (Nat.log2 a : Int) - (Nat.log2 x.n : Int)
        let below := match j0 with
          | .ofNat k => decide (a < x.n * 2 ^ k)
          | .negSucc k => decide (a * 2 ^ (k + 1) < x.n)
        let j1 := if below then j0 - 1 else j0
        let s' := rneQuot a (-j1) x.n
        let l := toF32 (vadd (valInt (j1 + e)) (f32 (sfLog2F s')))
        let (k, g) := expParts (divByP l p)
        match f32 g with
        | .fin neg mm ee => rne fmtF32 neg mm (ee + k)
        | w => toF32 w

/-- Merge of two cells (R341). `top` is the exact maximum. -/
def mergeCells (top : Bool) (p q : Cell) : Cell :=
  let c :=
    if top then
      (if q.clr then p else if p.clr then q
       else { p with m := BitVec.ofNat 64 (fmax (p.m.toNat % 2 ^ 32) (q.m.toNat % 2 ^ 32)) })
    else if p.nan || q.nan then p
    else if q.clr then p else if p.clr then q
    else accAdd false p q.m.toInt q.e.toInt
  { c with jam := c.jam || p.jam || q.jam, nan := p.nan || q.nan, sat := c.sat || p.sat || q.sat, clr := p.clr && q.clr }

/-- Merge of two partials (R341). -/
def mergeParts (top : Bool) (p q : Part) : Part :=
  { cell := mergeCells top p.cell q.cell, n := min (p.n + q.n) (2 ^ 32 - 1), sk := min (p.sk + q.sk) (2 ^ 32 - 1) }

/-- The mean of a TMSHAPE or an `sf.tmx` word from its P, TB and table image (R274, R339). -/
def meanOf (p8 : Nat) (tb : Bool) (img : List Byte) : Mean :=
  if tb then .tab img else if p8 = 0x7F then .top else .pow (sintN 8 p8)

end Sys2Proof.Machine
end

