-- ==== Sys2Proof/Machine/Coll.lean ====
section
/-! DEFINITION. Collectives (R339-R342, R347-R354): descriptors, ranks and rings, and the entry, merge and exit of the terms of a
reduction in their fixed order. -/

namespace Sys2Proof.Machine

/-! ### Descriptors (R348) -/

/-- One mesh axis of a descriptor: its torus axis (3 for Ethernet), ranks, origin, and its FROM and TO bytes. -/
structure MeshAxis where
  axis : Nat
  n : Nat
  org : Nat
  src : Nat
  dst : Nat
deriving DecidableEq, Repr

/-- A collective descriptor. -/
structure Desc where
  op : Nat
  ty : Nat
  axes : List MeshAxis
  ext : List Nat
  inp : Nat
  out : Nat
  st : Nat
deriving DecidableEq, Repr

/-- A field of a descriptor image: `n` bytes from an offset. -/
def descAt (l : List Byte) (off n : Nat) : Nat := natOfBytes ((l.drop off).take n)

/-- The descriptor that an image holds. -/
def descOf (l : List Byte) : Desc :=
  let w := descAt l 0 8
  { op := bitsN w 20 4, ty := bitsN w 16 4
    axes := (List.range (min (bitsN w 8 3) 3)).map fun i =>
      let a := descAt l (8 + 2 * i) 2
      { axis := bitsN a 0 2, n := bitsN a 2 4 + 1, org := bitsN a 6 3, src := descAt l (16 + i) 1, dst := descAt l (24 + i) 1 }
    ext := (List.range (min (bitsN w 12 3) 6)).map fun i => descAt l (32 + 4 * i) 4
    inp := descAt l 64 8, out := descAt l 72 8, st := descAt l 80 8 }

/-- Are the bits that the table leaves out zero? Entries of absent axes and dimensions are such bits. -/
def descZeros (l : List Byte) : Bool :=
  let w := descAt l 0 8
  let nax := bitsN w 8 3
  let ndim := bitsN w 12 3
  decide (bitsN w 24 40 = 0) && decide (bitsN w 15 1 = 0) && decide (bitsN w 11 1 = 0)
    && decide (descAt l 14 2 = 0) && decide (descAt l 19 5 = 0) && decide (descAt l 27 5 = 0) && decide (descAt l 56 8 = 0)
    && ((l.drop 88).all fun b => decide (b = 0))
    && (List.range 3).all (fun i =>
      let a := descAt l (8 + 2 * i) 2
      decide (bitsN a 9 7 = 0)
        && (decide (i < nax) || (decide (a = 0) && decide (descAt l (16 + i) 1 = 0) && decide (descAt l (24 + i) 1 = 0))))
    && (List.range 6).all (fun i => decide (i < ndim) || decide (descAt l (32 + 4 * i) 4 = 0))

/-- The extent of a torus axis (R345). -/
def torusExtent (axis : Nat) : Nat := if axis = 2 then 4 else 8

/-- The dimension that a layout byte shards. -/
def shardDim (b : Nat) : Option Nat := if 0x10 ≤ b then some (b - 0x10) else none

/-- The ranks over which a layout shards dimension `d`: 1 when it is whole. `of` picks FROM or TO. -/
def shardCount (axes : List MeshAxis) (of : MeshAxis → Nat) (d : Nat) : Nat :=
  match axes.find? fun a => decide (shardDim (of a) = some d) with
  | some a => a.n
  | none => 1

/-- Local extents under a layout (R349). -/
def localExt (x : Desc) (of : MeshAxis → Nat) : List Nat := x.ext.mapIdx fun d e => e / shardCount x.axes of d

/-- The layout after the slices (R350, R351): FROM, with the slice's dimension sharded. A dimension that another axis shards in FROM is
held in parts already: which of them a rank keeps is settled where the parts move. -/
def slicedByte (x : Desc) (a : MeshAxis) : Nat :=
  if a.src = 1 ∧ 0x10 ≤ a.dst ∧ x.axes.all (fun b => decide (b.src ≠ a.dst)) then a.dst else a.src

/-- The number of elements of extents. -/
def volume (l : List Nat) : Nat := l.foldl (· * ·) 1

/-- The mesh axes that are partial, and the ranks of their ring (R351, R352). -/
def partialAxes (x : Desc) : List MeshAxis := x.axes.filter fun a => decide (a.src = 2)
def ringSize (x : Desc) : Nat := volume ((partialAxes x).map fun a => a.n)

/-- Bytes of a tensor with local extents (R164). -/
def tensorBytes (x : Desc) (l : List Nat) : Nat := (volume l * typeBits x.ty + 7) / 8

/-- Is a layout byte allowed? -/
def layoutByte (ndim b : Nat) : Bool := decide (b = 1) || decide (b = 2) || (decide (0x10 ≤ b) && decide (b < 0x10 + ndim))

/-- Does a layout shard a dimension by two axes? -/
def twiceSharded (x : Desc) (of : MeshAxis → Nat) : Bool :=
  (List.range x.ext.length).any fun d => decide (1 < (x.axes.filter fun a => decide (shardDim (of a) = some d)).length)

/-- Validity of a descriptor (R348, R351, R353). -/
def descValid (l : List Byte) : Bool :=
  let x := descOf l
  let w := descAt l 0 8
  let ndim := bitsN w 12 3
  let nax := bitsN w 8 3
  let ps := partialAxes x
  let n := ringSize x
  let sliced := localExt x (slicedByte x)
  decide (l.length = 128) && descZeros l && decide (bitsN w 0 8 = 1)
    && decide (1 ≤ ndim) && decide (ndim ≤ 6) && decide (1 ≤ nax) && decide (nax ≤ 3)
    && x.axes.all (fun a => layoutByte ndim a.src && layoutByte ndim a.dst && decide (a.dst ≠ 2)
        && (if a.axis = 3 then decide (a.org = 0)
            else decide (a.n ≤ torusExtent a.axis) && decide (a.org < torusExtent a.axis)))
    && x.ext.all (fun e => decide (1 ≤ e) && decide (e ≤ 2 ^ 24))
    && !twiceSharded x MeshAxis.src && !twiceSharded x MeshAxis.dst
    && (List.range x.ext.length).all (fun d =>
        let e := x.ext.getD d 1
        decide (e % shardCount x.axes MeshAxis.src d = 0) && decide (e % shardCount x.axes MeshAxis.dst d = 0))
    && (ps.all (fun a => decide (a.dst = 1)) || decide (ps.length = 1))
    && (decide (x.op = 0) == ps.isEmpty)
    && decide (x.ty ≤ 9) && decide (x.op ≤ 4)
    && (decide (x.op = 0) || decide (x.ty = 0) || (decide (x.op ≤ 3) && (decide (x.ty = 1) || decide (x.ty = 6))))
    && decide (volume sliced % n = 0)
    && decide (x.inp % 128 = 0) && decide (x.out % 128 = 0) && decide (x.st % 8 = 0)
    && !rangesMeet x.inp (tensorBytes x (localExt x MeshAxis.src)) x.out (tensorBytes x (localExt x MeshAxis.dst))
    && !rangesMeet x.inp (tensorBytes x (localExt x MeshAxis.src)) x.st 8

/-! ### Ranks (R347, R352) -/

/-- A coordinate of COLLID: x, y, z, or EPOS. -/
def coordOf (id : W64) (axis : Nat) : Nat :=
  match axis with
  | 0 => bitsN id.toNat 8 3
  | 1 => bitsN id.toNat 4 3
  | 2 => bitsN id.toNat 0 2
  | _ => bitsN id.toNat 24 4

/-- The package's rank on an axis. -/
def rankOn (id : W64) (a : MeshAxis) : Nat :=
  if a.axis = 3 then coordOf id 3 else (coordOf id a.axis + torusExtent a.axis - a.org) % torusExtent a.axis

/-- The package's ranks on all axes; none when it is not a member. -/
def ranksOf (id : W64) (x : Desc) : Option (List Nat) :=
  let l := x.axes.map (rankOn id)
  if (x.axes.zip l).all fun (a, k) => decide (k < a.n) then some l else none

/-- The ring position of ranks over axes of the given sizes (R352). -/
def ringPos : List Nat → List Nat → Nat
  | n :: ns, k :: ks => k + n * ringPos ns ks
  | _, _ => 0

/-- The ranks of a position. -/
def ringRanks : List Nat → Nat → List Nat
  | [], _ => []
  | n :: ns, p => p % n :: ringRanks ns (p / n)

/-- The sizes of all axes, and of the whole group. -/
def axisSizes (x : Desc) : List Nat := x.axes.map fun a => a.n
def groupSize (x : Desc) : Nat := volume (axisSizes x)

/-- The position over all axes of a package; 0 where it is not a member. -/
def ownPos (id : W64) (x : Desc) : Nat := ringPos (axisSizes x) ((ranksOf id x).getD [])

/-! ### Indices -/

/-- Row-major index of a list of indices (R164). -/
def flatIndex : List Nat → List Nat → Nat
  | es, is => (es.zip is).foldl (fun acc p => acc * p.1 + p.2) 0

/-- The indices of a row-major index. -/
def unflat (es : List Nat) (i : Nat) : List Nat :=
  (es.foldr (fun e (acc : List Nat × Nat) => (acc.2 % e :: acc.1, acc.2 / e)) ([], i)).1

/-- The rank on the axis of a layout that shards dimension `d`, with the local extent; none when it is whole. -/
def shardRank (x : Desc) (of : MeshAxis → Nat) (ks : List Nat) (d : Nat) : Option Nat :=
  ((x.axes.zip ks).find? fun p => decide (shardDim (of p.1) = some d)).map Prod.snd

/-! ### Reduction (R340, R341, R353, R354) -/

/-- What the reduction of one element comes to: its bits, terms skipped and substituted, whether it rounded to an
infinity. -/
structure Reduced where
  bits : Nat
  sk : Nat
  sub : Nat
  inf : Bool
deriving DecidableEq, Repr

/-- The fields of TMSHAPE (R339). -/
def tmAct (t : W64) : Nat := bitsN t.toNat 14 2
def tmTb (t : W64) : Bool := t.getLsbD 13
def tmSlot (t : W64) : Nat := bitsN t.toNat 10 3
def tmMean (t : W64) (tab : List Byte) : Mean := meanOf (bitsN t.toNat 0 8) (tmTb t) tab

/-- Is TMSHAPE valid (R339)? `tab` is the pair of the named slot: a slot that is not empty holds a verified pair. -/
def tmValid (t : W64) (tab : List Byte) : Bool :=
  let p := sintN 8 (bitsN t.toNat 0 8)
  ((decide (-64 ≤ p) && decide (p ≤ 64)) || decide (p = 127)) && decide (tmAct t ≠ 3)
    && (!tmTb t || (decide (bitsN t.toNat 0 8 = 0) && !tab.isEmpty))

/-- Entry of a term under an action and a replacement: the partial, whether it was substituted, and whether it is a
domain fault under trap (R341). -/
def tmEntry (m : Mean) (act repl x : Nat) : Part × Bool × Bool :=
  let one (y : Nat) : Part := { cell := termStep m Cell.clear y, n := 1, sk := 0 }
  let skip : Part := { Part.clear with sk := 1 }
  if inDomain m x then (one x, false, false)
  else
    match act with
    | 0 => ({ cell := { Cell.clear with nan := true }, n := 1, sk := 0 }, false, true)
    | 2 => if inDomain m repl then (one repl, true, false) else (skip, false, false)
    | _ => (skip, false, false)

/-- A float operand as binary32 bits: binary32 itself, or bfloat16 widened. -/
def widen (ty x : Nat) : Nat := if ty = 1 then x * 2 ^ 16 else x

/-- Entry of a term of a float add (R354). -/
def addEntry (x : Nat) : Part :=
  if finite32 x then { cell := accF32 Cell.clear x 0, n := 1, sk := 0 }
  else { cell := { Cell.clear with nan := true }, n := 1, sk := 0 }

/-- Exit of a float add: RNE of the sum in the element type. -/
def addExit (ty : Nat) (p : Part) : Nat :=
  let f := if ty = 1 then fmtBf16 else fmtF32
  if p.cell.nan then fmtNan f
  else
    let m := p.cell.m.toInt
    if m = 0 then 0 else rne f (decide (m < 0)) m.natAbs p.cell.e.toInt

/-- Minimum or maximum of two elements (R354). -/
def pickMM (op ty a b : Nat) : Nat :=
  if ty = 6 then
    (if op = 2 then (if sintN 32 a ≤ sintN 32 b then a else b) else (if sintN 32 b ≤ sintN 32 a then a else b))
  else
    let r := if op = 2 then fmin (widen ty a) (widen ty b) else fmax (widen ty a) (widen ty b)
    if ty = 1 then r / 2 ^ 16 else r

/-- Entry of a minimum or maximum: a NaN is the canonical NaN. -/
def enterMM (ty x : Nat) : Nat :=
  if ty = 6 then x else if isNan32 (widen ty x) then (if ty = 1 then nan32 / 2 ^ 16 else nan32) else x

/-- The result for failed input (R356). -/
def failedElem (x : Desc) : Nat :=
  if x.op = 0 || x.ty = 6 then 0 else if x.ty = 1 then nan32 / 2 ^ 16 else nan32

/-- Entry of a term (R341, R354), and whether it was substituted: a term whose input failed enters with NAN set (R356). Integers and
the terms of a minimum or maximum stand in M. -/
def termEntry (x : Desc) (tms : W64) (tab : List Byte) (t : Option Nat) : Part × Bool :=
  match t with
  | none => ({ cell := { Cell.clear with nan := true }, n := 1, sk := 0 }, false)
  | some t =>
    if x.op = 4 then
      let e := tmEntry (tmMean tms tab) (tmAct tms) (bitsN tms.toNat 32 32) t
      (e.1, e.2.1)
    else if x.op = 1 ∧ x.ty ≠ 6 then (addEntry (widen x.ty t), false)
    else
      let v := if x.op = 1 then t % 2 ^ 32 else enterMM x.ty t
      ({ cell := { Cell.clear with m := BitVec.ofNat 64 v, clr := false }, n := 1, sk := 0 }, false)

/-- Merge of the integers, minima or maxima that two partials hold (R354). -/
def mergeValues (x : Desc) (p q : Part) : Part :=
  let v := if x.op = 1 then (p.cell.m.toNat + q.cell.m.toNat) % 2 ^ 32 else pickMM x.op x.ty p.cell.m.toNat q.cell.m.toNat
  let c := if q.cell.clr then p.cell else if p.cell.clr then q.cell else { p.cell with m := BitVec.ofNat 64 v }
  { cell := { c with nan := p.cell.nan || q.cell.nan }, n := min (p.n + q.n) (2 ^ 32 - 1), sk := 0 }

/-- Merge(arriving, own) (R341, R353, R354). -/
def mergeOf (x : Desc) (tms : W64) (tab : List Byte) (p q : Part) : Part :=
  if x.op = 4 then mergeParts (decide (tmMean tms tab = .top)) p q
  else if x.op = 1 ∧ x.ty ≠ 6 then mergeParts false p q
  else mergeValues x p q

/-- Exit of a partial (R341, R354). -/
def exitOf (x : Desc) (tms : W64) (tab : List Byte) (p : Part) : Nat :=
  if x.op = 4 then meanExit (tmMean tms tab) p
  else if x.op = 1 ∧ x.ty ≠ 6 then addExit x.ty p
  else if p.cell.nan then failedElem x else p.cell.m.toNat

/-- Has the result of a float add rounded to an infinity (R354)? -/
def isInf (x : Desc) (r : Nat) : Bool := decide (x.op = 1) && decide (x.ty ≠ 6) && decide (widen x.ty r % 2 ^ 31 = 0x7F800000)

/-- The result that a partial gives. -/
def resultOf (x : Desc) (tms : W64) (tab : List Byte) (p : Part) : Reduced :=
  let r := exitOf x tms tab p
  { bits := r, sk := if x.op = 4 then p.sk else 0, sub := 0, inf := isInf x r }

/-- What one element of a reduction comes to when every rank in the order of R353 has merged its term: the entry of the first, the
merges, and the exit. -/
def reduceTerms (x : Desc) (tms : W64) (tab : List Byte) (terms : List (Option Nat)) : Reduced :=
  let es := terms.map (termEntry x tms tab)
  let p := (es.tail.map Prod.fst).foldl (mergeOf x tms tab) ((es.head?.map Prod.fst).getD Part.clear)
  { resultOf x tms tab p with sub := (es.filter fun e => e.2).length }

/-- A partial as 32 bytes (R384). -/
def partBytes (p : Part) : List Byte :=
  let c := p.cell
  bytesOfNat 8 c.m.toNat ++ bytesOfNat 4 c.e.toNat
    ++ bytesOfNat 4 (8 * c.jam.toNat + 4 * c.nan.toNat + 2 * c.sat.toNat + (!c.clr).toNat)
    ++ bytesOfNat 4 p.n ++ bytesOfNat 4 p.sk ++ bytesOfNat 8 0

/-- The partial that 32 bytes hold. -/
def bytesPart (l : List Byte) : Part :=
  let f := descAt l 12 4
  { cell := { m := bvOfBytes 64 (l.take 8), e := BitVec.ofNat 16 (descAt l 8 4), jam := f.testBit 3, nan := f.testBit 2, sat := f.testBit 1
              clr := !f.testBit 0 }
    n := descAt l 16 4, sk := descAt l 20 4 }

/-- The chunk of an element by its indices in the local tensor after the slices (R353). -/
def chunkOf (x : Desc) (idx : List Nat) : Nat :=
  let n := ringSize x
  let es := localExt x (slicedByte x)
  match (partialAxes x).head? with
  | none => 0
  | some a =>
    match shardDim a.dst with
    | some d => idx.getD d 0 / max 1 (es.getD d 1 / n)
    | none => flatIndex es idx / max 1 (volume es / n)

/-- The ring positions in merging order for chunk `c` (R353). -/
def mergeOrder (x : Desc) (c : Nat) : List Nat :=
  let n := ringSize x
  let start := match (partialAxes x).head? with
    | some a => if 0x10 ≤ a.dst then c + 1 else c
    | none => c
  (List.range n).map fun i => (start + i) % n

/-- Ranks on all axes with the partial axes' ranks taken from a ring position. -/
def ringMember (x : Desc) (ks : List Nat) (r : Nat) : List Nat :=
  let ps := ringRanks ((partialAxes x).map fun a => a.n) r
  ((x.axes.zip ks).foldl (fun (acc : List Nat × List Nat) p =>
    if p.1.src = 2 then (acc.1 ++ [acc.2.headD 0], acc.2.drop 1) else (acc.1 ++ [p.2], acc.2)) ([], ps)).1

/-- The index in a rank's input tensor of an element of its tensor after the slices. -/
def inputIndex (x : Desc) (ks idx : List Nat) : Nat :=
  let es := localExt x MeshAxis.src
  flatIndex es (idx.mapIdx fun d i =>
    match (x.axes.zip ks).find? fun p => decide (slicedByte x p.1 ≠ p.1.src ∧ shardDim p.1.dst = some d) with
    | some (a, k) => k * (x.ext.getD d 1 / a.n) + i
    | none => i)

/-- The ranks of the ring, and the element after the slices, from which element `out` of the output of ranks `own` comes
(R349, R350). -/
def originOf (x : Desc) (own out : List Nat) : List Nat × List Nat :=
  let glob := out.mapIdx fun d i =>
    match shardRank x MeshAxis.dst own d with
    | some k => k * (x.ext.getD d 1 / shardCount x.axes MeshAxis.dst d) + i
    | none => i
  let ks := (x.axes.zip own).map fun (a, k) =>
    match shardDim a.src with
    | some d => glob.getD d 0 / (x.ext.getD d 1 / a.n)
    | none => k
  (ks, glob.mapIdx fun d g => g % (x.ext.getD d 1 / shardCount x.axes (slicedByte x) d))

/-- The status word from the counts of every rank (R342, R354): terms skipped, terms substituted, results that rounded to an
infinity. -/
def collStatusWord (x : Desc) (sk sub inf : Nat) : W64 :=
  if x.op = 4 then BitVec.ofNat 64 (cap32 sk + 2 ^ 32 * cap32 sub)
  else if x.op = 1 ∧ x.ty ≠ 6 then BitVec.ofNat 64 (2 ^ 32 * cap32 inf)
  else 0

end Sys2Proof.Machine
end

