-- ==== Sys2Proof/Machine/Scree.lean ====
section
/-! DEFINITION. Scree compression of what the rope and the Ethernet transport carry: blocks, modes, and their decoding
(R361-R364). -/

namespace Sys2Proof.Machine

/-- The valid bytes of a flit's payload. -/
def flitBytes (fl : Flit) : List Byte := bytesOfNat (min fl.len.toNat 240) fl.payload.toNat

/-- A message cut into blocks of 512 bytes, the last padded with zeros (R361). -/
def cutBlocks : Nat → List Byte → List (List Byte)
  | 0, _ => []
  | n + 1, l => if l.isEmpty then [] else (l.take 512 ++ List.replicate (512 - l.length) 0) :: cutBlocks n (l.drop 512)
def messageBlocks (l : List Byte) : List (List Byte) := cutBlocks (l.length / 512 + 1) l

/-- One bit step of the CRC-16. -/
def crcBits : Nat → BitVec 16 → BitVec 16
  | 0, c => c
  | n + 1, c => crcBits n (if c.getLsbD 15 then (c <<< 1) ^^^ 0x1021 else c <<< 1)

/-- CRC-16, polynomial 0x1021, initial value 0xFFFF, no reflection. -/
def crc16 (l : List Byte) : BitVec 16 := l.foldl (fun c (b : Byte) => crcBits 8 (c ^^^ ((b.setWidth 16 : BitVec 16) <<< 8))) 0xFFFF

/-- The 64 eight-byte words of a block, and its four byte planes. -/
def blockWord (b : List Byte) (i : Nat) : List Byte := (b.drop (8 * i)).take 8
def blockPlane (b : List Byte) (j : Nat) : List Byte :=
  (b.mapIdx fun i x => (i, x)).filterMap fun (i, x) => if i % 4 = j then some x else none

/-- The zero-map payload. -/
def screeZero (b : List Byte) : List Byte :=
  let ws := (List.range 64).filter fun i => (blockWord b i).any fun x => decide (x ≠ 0)
  bytesOfNat 8 ((ws.map fun i => 2 ^ i).sum) ++ ws.flatMap (blockWord b)

/-- Is a plane of one value? -/
def onePlane (p : List Byte) : Bool := p.all fun x => decide (x = p.headD 0)

/-- The byte-plane payload. -/
def screePlanes (b : List Byte) : List Byte :=
  let d := ((List.range 4).map fun j => if onePlane (blockPlane b j) then 2 ^ j else 0).sum
  BitVec.ofNat 8 d :: (List.range 4).flatMap fun j =>
    let p := blockPlane b j
    if onePlane p then [p.headD 0] else p

/-- The exponents and mantissa bytes of a block's 256 bfloat16 values. -/
def bf16Exps (b : List Byte) : List Nat := (unpackNat 16 256 (natOfBytes b)).map fun v => bitsN v 7 8
def bf16Mants (b : List Byte) : List Nat := (unpackNat 16 256 (natOfBytes b)).map fun v => bitsN v 15 1 * 128 + bitsN v 0 7

/-- The nibbles of the exponent plane after the first exponent. -/
def expNibbles : Nat → List Nat → List Nat
  | _, [] => []
  | prev, e :: r =>
    let d : Int := (e : Int) - prev
    (if -7 ≤ d ∧ d ≤ 7 then [wrapN 4 d] else [8, e / 16, e % 16]) ++ expNibbles e r

/-- Nibbles packed low first. -/
def packNibbles : List Nat → List Byte
  | [] => []
  | [a] => [BitVec.ofNat 8 a]
  | a :: b :: r => BitVec.ofNat 8 (a + 16 * b) :: packNibbles r

/-- The BF16 exponent-plane payload. -/
def screeExp (b : List Byte) : List Byte :=
  let es := bf16Exps b
  let e0 := es.headD 0
  BitVec.ofNat 8 e0 :: packNibbles (expNibbles e0 es.tail) ++ (bf16Mants b).map fun m => BitVec.ofNat 8 m

/-- The payload of a mode. -/
def screePayload (mode : Nat) (b : List Byte) : List Byte :=
  match mode with
  | 0 => b
  | 1 => screeZero b
  | 2 => screePlanes b
  | _ => screeExp b

/-- The mode of a block: the shortest, the lower on a tie; or the forced one, raw where it would exceed 512 bytes
(R363). -/
def screeMode (force : Nat) (b : List Byte) : Nat :=
  if force = 0 then
    (List.range 4).foldl (fun best m => if (screePayload m b).length < (screePayload best b).length then m else best) 0
  else if 512 < (screePayload (force - 1) b).length then 0 else force - 1

/-- The header and payload of a block (R361). -/
def screeEncode (force : Nat) (b : List Byte) : List Byte :=
  let mode := screeMode force b
  let p := screePayload mode b
  bytesOfNat 4 (2 ^ 30 * mode + 2 ^ 16 * p.length + (crc16 b).toNat) ++ p

/-- A zero-map payload decoded. -/
def unZero (p : List Byte) : Option (List Byte) :=
  let map := natOfBytes (p.take 8)
  let n := ((List.range 64).filter fun i => map.testBit i).length
  if p.length ≠ 8 + 8 * n then none
  else
    some ((List.range 64).foldl (fun (acc : List Byte × List Byte) i =>
      if map.testBit i then (acc.1 ++ acc.2.take 8, acc.2.drop 8) else (acc.1 ++ List.replicate 8 0, acc.2)) ([], p.drop 8)).1

/-- A byte-plane payload decoded. -/
def unPlanes (p : List Byte) : Option (List Byte) :=
  let d := (p.headD 0).toNat
  let size (j : Nat) : Nat := if d.testBit j then 1 else 128
  if p.length ≠ 1 + size 0 + size 1 + size 2 + size 3 then none
  else
    let planes := ((List.range 4).foldl (fun (acc : List (List Byte) × List Byte) j =>
      (acc.1 ++ [if d.testBit j then List.replicate 128 (acc.2.headD 0) else acc.2.take 128], acc.2.drop (size j)))
      ([], p.drop 1)).1
    some ((List.range 512).map fun i => (planes.getD (i % 4) []).getD (i / 4) 0)

/-- The exponents that a nibble stream gives, and the nibbles it takes. -/
def unNibbles : Nat → Nat → List Nat → List Nat × Nat
  | 0, _, _ => ([], 0)
  | n + 1, _, 8 :: h :: l :: r =>
    let (es, k) := unNibbles n (16 * h + l) r
    ((16 * h + l) :: es, k + 3)
  | n + 1, prev, d :: r =>
    let e := wrapN 8 ((prev : Int) + sintN 4 d)
    let (es, k) := unNibbles n e r
    (e :: es, k + 1)
  | _ + 1, _, [] => ([], 0)

/-- An exponent-plane payload decoded. -/
def unExp (p : List Byte) : Option (List Byte) :=
  let e0 := (p.headD 0).toNat
  let (es, k) := unNibbles 255 e0 ((p.drop 1).flatMap fun b => [b.toNat % 16, b.toNat / 16])
  let body := 1 + (k + 1) / 2
  if es.length ≠ 255 ∨ p.length ≠ body + 256 then none
  else
    let ms := (p.drop body).map fun b => b.toNat
    some (((e0 :: es).zip ms).flatMap fun (e, m) => bytesOfNat 2 (m / 128 * 2 ^ 15 + e * 2 ^ 7 + m % 128))

/-- A block as it arrives: the 512 bytes, or none when LEN does not fit the mode or the CRC fails (R364). -/
def screeDecode (l : List Byte) : Option (List Byte) :=
  let h := natOfBytes (l.take 4)
  let p := l.drop 4
  let r := match bitsN h 30 2 with
    | 0 => if p.length = 512 then some p else none
    | 1 => unZero p
    | 2 => unPlanes p
    | _ => unExp p
  if l.length < 5 ∨ bitsN h 26 4 ≠ 0 ∨ bitsN h 16 10 ≠ p.length then none
  else r.filter fun b => decide (crc16 b = BitVec.ofNat 16 h)

/-- The number of blocks of a flit that fail their check (R364). -/
def failedBlocks (fl : Flit) : Nat := (fl.blocks.filter fun b => (screeDecode b).isNone).length

/-- A flit whose blocks are decoded: the padding is dropped by the message's length (R361). -/
def openedFlit (fl : Flit) : Flit :=
  if fl.blocks.isEmpty then fl
  else
    let l := fl.blocks.flatMap fun b => (screeDecode b).getD []
    { fl with payload := bvOfBytes 1920 (l.take (min fl.len.toNat 240)), blocks := [] }

end Sys2Proof.Machine
end

