-- ==== Sys2Proof/Machine/Exchange.lean ====
section
/-! DEFINITION. How the ranks of a collective meet and exchange data (R339-R342, R345, R346, R352-R357, R372): announcements, the
ring of a reduction, the blocks that move, routes, the first step, completion and aborts. The manual lays out no message between
ranks; those of the model are in log 13. -/

namespace Sys2Proof.Machine

/-! ### Places and routes (R345, R347, R352) -/

/-- The fields of COLLID that say where a package is: EPOS, X, Y and Z. -/
def placeBits (id : W64) : W64 := id &&& 0x0F000773

/-- A place with the coordinate on an axis replaced (3 for the Ethernet rank). -/
def setCoord (id : W64) (axis k : Nat) : W64 :=
  match axis with
  | 0 => setSlice id 8 (BitVec.ofNat 3 k)
  | 1 => setSlice id 4 (BitVec.ofNat 3 k)
  | 2 => setSlice id 0 (BitVec.ofNat 2 k)
  | _ => setSlice id 24 (BitVec.ofNat 4 k)

/-- The place of the member at a position over all axes of the group that a COLLID belongs to (R352): its other coordinates are the
issuer's. -/
def memberPlace (id : W64) (x : Desc) (pos : Nat) : W64 :=
  (x.axes.zip (ringRanks (axisSizes x) pos)).foldl (fun p a =>
    setCoord p a.1.axis (if a.1.axis = 3 then a.2 else (a.1.org + a.2) % torusExtent a.1.axis)) (placeBits id)

/-- The first hop of a route: a torus direction, a peer on Ethernet, or none where the place is reached. -/
inductive Hop where
  | dir (d : Nat)
  | peer (j : Nat)
  | here
deriving DecidableEq, Repr

/-- The first hop from a place to another: in the positive direction, x, then y, then z, then Ethernet (R352). -/
def hopFrom (a b : W64) : Hop :=
  if coordOf a 0 ≠ coordOf b 0 then .dir 0
  else if coordOf a 1 ≠ coordOf b 1 then .dir 2
  else if coordOf a 2 ≠ coordOf b 2 then .dir 4
  else if coordOf a 3 ≠ coordOf b 3 then .peer (coordOf b 3)
  else .here

/-- The place that a package reaches in a direction (R345). -/
def neighbour (a : W64) (d : Nat) : W64 :=
  let n := torusExtent (d / 2)
  setCoord a (d / 2) ((coordOf a (d / 2) + (if d % 2 = 0 then 1 else n - 1)) % n)

/-- The ports of a direction that are up. -/
def upPorts (s : State) (d : Nat) : List (Fin 24) :=
  ((List.range 4).map fun i => Fin.ofNat 24 (4 * d + i)).filter fun p => s.fabric.ports[p].up

/-- Is every port of a direction down? -/
def directionDown (s : State) (d : Nat) : Bool := (upPorts s d).isEmpty

/-- The state with a port changed. -/
def State.modPort (s : State) (p : Fin 24) (f : Port → Port) : State :=
  { s with fabric := { s.fabric with ports := s.fabric.ports.set p (f s.fabric.ports[p]) } }

/-- The state with a peer changed. -/
def State.modPeer (s : State) (j : Fin 16) (f : Peer → Peer) : State :=
  { s with fabric := { s.fabric with peers := s.fabric.peers.set j (f s.fabric.peers[j]) } }

/-- A flit of a direction: on the port of those up that has the fewest waiting, so that the traffic is striped over them (R345);
lost with a direction that is down. -/
def sendRope (d : Nat) (fl : Flit) (s : State) : State :=
  match upPorts s d with
  | [] => s
  | p :: r =>
    let p := r.foldl (fun p q => if s.fabric.ports[q].wait.length < s.fabric.ports[p].wait.length then q else p) p
    s.modPort p fun x => { x with wait := x.wait ++ [fl] }

/-- Does flow control hold the messages to a peer: is the priority of its port that they use paused (R366, log 14)? -/
def peerPaused (s : State) (x : Peer) : Bool := s.fabric.paused.contains (Fin.ofNat 4 x.port.toNat, 0)

/-- A message to a peer: numbered, in Scree blocks, and kept until it is answered (R366). -/
def sendPeer (j : Fin 16) (fl : Flit) (s : State) : State :=
  s.modPeer j fun x =>
    let fl := { fl with seq := x.txSeq, blocks := (messageBlocks (flitBytes fl)).map (screeEncode 0) }
    let x := { x with txSeq := x.txSeq + 1, unacked := x.unacked ++ [fl] }
    if peerPaused s x then { x with wait := x.wait ++ [fl] } else { x with sent := x.sent ++ [fl] }

/-- A flit on its way to its place; one that is there already goes nowhere. -/
def sendFlit (fl : Flit) (s : State) : State :=
  match hopFrom s.fabric.place fl.dest with
  | .dir d => sendRope d fl s
  | .peer j => sendPeer (Fin.ofNat 16 j) fl s
  | .here => s

/-! ### What the ranks announce (R355) -/

/-- The descriptor of a collective in the unit, and its issuer's COLLID. -/
def collDesc (k : Coll) : Desc := descOf k.cmd.xtra
def collId (s : State) (k : Coll) : W64 := (s.core k.core).csr.collid

/-- A collective in the unit by its number. -/
def collById (s : State) (id : Nat) : Option Coll := s.fabric.colls.find? fun k => decide (k.id = id)

/-- The state with a collective changed. -/
def State.modColl (s : State) (id : Nat) (f : Coll → Coll) : State :=
  { s with fabric := { s.fabric with colls := s.fabric.colls.map fun k => if k.id = id then f k else k } }

/-- The remote rank at a position of a collective. -/
def remoteAt (s : State) (g : BitVec 16) (seq : W32) (pos : Nat) : Option RemoteRank :=
  s.fabric.remote.find? fun r => decide (r.cgrp = g) && decide (r.seq = seq) && decide (r.pos = pos)

/-- What a rank announces (log 13): COLLID, TMSHAPE, a word whose bit 0 says that TMSHAPE is invalid there, the descriptor image,
and the table pair where one is used. -/
def ctlCollid (r : RemoteRank) : W64 := bvOfBytes 64 (r.ctl.take 8)
def ctlTms (r : RemoteRank) : W64 := bvOfBytes 64 ((r.ctl.drop 8).take 8)
def ctlBad (r : RemoteRank) : Bool := decide (descAt r.ctl 16 8 % 2 = 1)
def ctlDesc (r : RemoteRank) : List Byte := (r.ctl.drop 24).take 128
def ctlTab (r : RemoteRank) : List Byte := (r.ctl.drop 152).take 2096

/-- Does a collective's OP and TMSHAPE use a table pair? -/
def usesTable (x : Desc) (t : W64) : Bool := decide (x.op = 4) && tmTb t

/-- This rank's announcement. -/
def announcement (id : W64) (k : Command) (bad : Bool) : List Byte :=
  bytesOfNat 8 id.toNat ++ bytesOfNat 8 k.tmshape.toNat ++ bytesOfNat 8 bad.toNat ++ (k.xtra ++ List.replicate 128 0).take 128
    ++ (if usesTable (descOf k.xtra) k.tmshape then (k.tab ++ List.replicate 2096 0).take 2096 else [])

/-- Bytes for another rank of a collective cut into flits of up to `per` bytes. -/
def cutFlits (per : Nat) (fl : Flit) (off : Nat → Nat) : Nat → Nat → List Byte → List Flit
  | 0, _, _ => []
  | n + 1, i, l =>
    if l.isEmpty then []
    else
      let part := l.take per
      { fl with len := BitVec.ofNat 8 part.length, off := BitVec.ofNat 16 (off i), payload := bvOfBytes 1920 part }
        :: cutFlits per fl off n (i + 1) (l.drop per)

/-- A flit of a collective from this rank to the one at a position, with no payload yet. -/
def flitTo (s : State) (g : BitVec 16) (seq : W32) (id : W64) (x : Desc) (own pos : Nat) (ctl : Bool) : Flit :=
  { seq := 0, cgrp := g, collSeq := seq, pos := own, len := 0, off := 0, payload := 0, ctl, blocks := [], crcOk := true
    dest := memberPlace id x pos, run := runNo s g seq }

/-- The positions of the other ranks of a group. -/
def otherPositions (ranks own : Nat) : List Nat := (List.range ranks).filter fun p => decide (p ≠ own)
def otherRanks (k : Coll) : List Nat := otherPositions k.ranks k.own

/-- A collective announced to the other ranks of the group that its own descriptor defines, unless it has been (R355). -/
def announce (c : CoreId) (k : Command) (bad : Bool) (s : State) : State :=
  let id := (s.core c).csr.collid
  let g := cgrpOf id
  let seq : W32 := k.b.setWidth 32
  let x := descOf k.xtra
  let own := ownPos id x
  if s.fabric.told.contains (g, seq) then s
  else
    let l := announcement id k bad
    let fls := (otherPositions (groupSize x) own).flatMap fun p =>
      cutFlits 240 (flitTo s g seq id x own p true) (fun _ => 0) (l.length / 240 + 1) 0 l
    let s := fls.foldl (fun s fl => sendFlit fl s) s
    if bad then s else { s with fabric := { s.fabric with told := (g, seq) :: s.fabric.told } }

/-- Has a rank announced itself whole, from the place that its position has (R352)? -/
def announced (s : State) (k : Coll) (p : Nat) : Bool :=
  match remoteAt s (collGroup s k) (collSeq k) p with
  | some r => decide (152 ≤ r.ctl.length) && decide (announceLen r.ctl ≤ r.ctl.length)
      && decide (hopFrom (ctlCollid r) (memberPlace (collId s k) (collDesc k) p) = .here)
  | none => false

/-- Has every other rank announced its `coll`? -/
def allArrived (s : State) (k : Coll) : Bool := (otherRanks k).all (announced s k)

/-- The collectives whose last rank has arrived, put at the end of those that are to start (R355). -/
def noteArrived (s : State) : State :=
  let l := (s.fabric.colls.filter fun k => !k.running && k.cut.isNone && !s.fabric.ready.contains k.id && allArrived s k).map fun k => k.id
  { s with fabric := { s.fabric with ready := s.fabric.ready ++ l } }

/-- A descriptor image apart from IN, OUT and STATUS. -/
def descShared (l : List Byte) : List Byte := l.take 64 ++ l.drop 88

/-- Do the ranks agree (R355)? -/
def ranksAgree (s : State) (k : Coll) : Bool :=
  let x := collDesc k
  (otherRanks k).all fun p => match remoteAt s (collGroup s k) (collSeq k) p with
    | some r => !ctlBad r && decide (descShared (ctlDesc r) = descShared k.cmd.xtra)
        && (decide (x.op ≠ 4) || (decide (ctlTms r = k.cmd.tmshape) && (!tmTb k.cmd.tmshape || decide (ctlTab r = k.cmd.tab))))
    | none => false

/-! ### The exchange (R340, R350-R354) -/

/-- The elements of a tensor from its bytes: none where a byte failed. -/
def elemsOf (ty n : Nat) (l : List (Option Byte)) : Array (Option Nat) :=
  let w := typeBits ty
  let codes := (unpackNat w n (natOfBytes (l.map fun b => b.getD 0))).toArray
  let a := l.toArray
  ((List.range n).map fun i =>
    if (List.range ((w + 7) / 8)).any (fun j => match a.getD (i * w / 8 + j) (some 0) with
      | none => true
      | some _ => false) then none else codes[i]?).toArray

/-- The exchange of a collective as this rank sees it: the descriptor, TMSHAPE and table, this rank's ranks on all axes, its
terms after the slices, the size of its ring and its place in it, the positions before and after it, and the number of elements;
`failed` says that bytes of its input failed. -/
structure Exchange where
  failed : Bool
  x : Desc
  tms : W64
  tab : List Byte
  own : List Nat
  pos : Nat
  terms : Array (Option Nat)
  n : Nat
  r : Nat
  prev : Nat
  next : Nat
  vol : Nat

/-- The ring position over the partial axes of ranks on all axes (R352). -/
def ringPosOf (x : Desc) (own : List Nat) : Nat :=
  ringPos ((partialAxes x).map fun a => a.n) (((x.axes.zip own).filter fun p => decide (p.1.src = 2)).map Prod.snd)

/-- The exchange of a collective. -/
def exchangeOf (k : Coll) : Exchange :=
  let x := collDesc k
  let own := ringRanks (axisSizes x) k.own
  let es := localExt x (slicedByte x)
  let ins := elemsOf x.ty (volume (localExt x MeshAxis.src)) k.input
  let n := ringSize x
  let r := ringPosOf x own
  let at_ (r : Nat) : Nat := ringPos (axisSizes x) (ringMember x own r)
  { failed := k.input.any Option.isNone, x, tms := k.cmd.tmshape, tab := k.cmd.tab, own, pos := k.own
    terms := ((List.range (volume es)).map fun i => ins.getD (inputIndex x own (unflat es i)) none).toArray
    n, r, prev := at_ ((r + n - 1) % n), next := at_ ((r + 1) % n), vol := volume es }

/-- Does the reduction leave every rank of the ring the whole tensor (an all-reduce), or its own chunk (R351)? -/
def Exchange.gathers (e : Exchange) : Bool := (partialAxes e.x).all fun a => decide (a.dst = 1)

/-- The elements of a chunk, as indices of the tensor after the slices (R353). -/
def Exchange.chunk (e : Exchange) (c : Nat) : List Nat :=
  let es := localExt e.x (slicedByte e.x)
  (List.range e.vol).filter fun i => decide (chunkOf e.x (unflat es i) = c)

/-- The chunk that this rank merges at step `t` of the ring. -/
def Exchange.chunkAt (e : Exchange) (t : Nat) : Nat :=
  ((List.range e.n).find? fun c => decide ((mergeOrder e.x c).getD t e.n = e.r)).getD 0

/-- The chunk whose results are those of the rank `u` hops back: its own for 0 (R340). -/
def Exchange.resultChunk (e : Exchange) (u : Nat) : Nat :=
  ((List.range e.n).find? fun c => decide ((mergeOrder e.x c).getLast? = some ((e.r + e.n - u) % e.n))).getD 0

/-- Elements of a chunk, and the bytes of a chunk's partials and results. -/
def Exchange.size (e : Exchange) : Nat := e.vol / max 1 e.n
def Exchange.partLen (e : Exchange) : Nat := 32 * e.size
def Exchange.resultLen (e : Exchange) : Nat := (e.size * typeBits e.x.ty + 7) / 8

/-- Bytes of the ring that a rank gets from the one before it. -/
def Exchange.ringLen (e : Exchange) : Nat :=
  if e.n ≤ 1 then 0 else (e.n - 1) * (e.partLen + (if e.gathers then e.resultLen else 0))

/-- Bytes of a stream, once they are there. -/
def bytesAt (l : List Byte) (lo n : Nat) : Option (List Byte) := if lo + n ≤ l.length then some ((l.drop lo).take n) else none

/-- This rank's partials of the chunk of step `t`: its own terms at step 0, and then Merge(arriving, own) (R340, R353). -/
def Exchange.partials (e : Exchange) (prev : List Byte) (t : Nat) : Option (List Part) :=
  let own := (e.chunk (e.chunkAt t)).map fun i => (termEntry e.x e.tms e.tab (e.terms.getD i none)).1
  if t = 0 then some own
  else (bytesAt prev ((t - 1) * e.partLen) e.partLen).map fun l =>
    (own.mapIdx fun i p => (i, p)).map fun ip => mergeOf e.x e.tms e.tab (bytesPart ((l.drop (32 * ip.1)).take 32)) ip.2

/-- The results of the chunk that this rank exits. -/
def Exchange.final (e : Exchange) (prev : List Byte) : Option (List Reduced) :=
  (e.partials prev (e.n - 1)).map fun l => l.map (resultOf e.x e.tms e.tab)

/-- The results of the rank `u` hops back, as they have come round the ring. -/
def Exchange.results (e : Exchange) (prev : List Byte) (u : Nat) : Option (List Nat) :=
  if u = 0 then (e.final prev).map fun l => l.map fun r => r.bits
  else (bytesAt prev ((e.n - 1) * e.partLen + (u - 1) * e.resultLen) e.resultLen).map fun l =>
    unpackNat (typeBits e.x.ty) e.size (natOfBytes l)

/-- Elements put into a tensor at indices. -/
def putElems (is vs : List Nat) (a : Array Nat) : Array Nat := (is.zip vs).foldl (fun a p => a.setIfInBounds p.1 p.2) a

/-- This rank's tensor after the slices and the reduction, once the reduction is done here; a failed element that no reduction
meets is zero (R356). -/
def Exchange.tensor (e : Exchange) (prev : List Byte) : Option (Array Nat) :=
  if (partialAxes e.x).isEmpty then some (e.terms.map fun t => t.getD 0)
  else (List.range (if e.gathers then e.n else 1)).foldl (fun (a : Option (Array Nat)) u =>
    match a, e.results prev u with
    | some a, some l => some (putElems (e.chunk (e.resultChunk u)) l a)
    | _, _ => none) (some (Array.replicate e.vol 0))

/-- Where each element of the output of the ranks `q` comes from: a position, and an index of its tensor after the reduction
(R349, R350). -/
def Exchange.origins (e : Exchange) (q : List Nat) : List (Nat × Nat) :=
  let es := localExt e.x MeshAxis.dst
  (List.range (volume es)).map fun i =>
    let (ks, idx) := originOf e.x q (unflat es i)
    (ringPos (axisSizes e.x) ks, flatIndex (localExt e.x (slicedByte e.x)) idx)

/-- The elements of its tensor that this rank sends to the one at a position, in the order of that one's output. -/
def Exchange.moves (e : Exchange) (p : Nat) : List Nat :=
  ((e.origins (ringRanks (axisSizes e.x) p)).filter fun o => decide (o.1 = e.pos)).map Prod.snd

/-- The elements of this rank's output that the rank at a position sends. -/
def Exchange.expects (e : Exchange) (p : Nat) : Nat := ((e.origins e.own).filter fun o => decide (o.1 = p)).length

/-- Bytes that the rank at a position sends to this one. -/
def Exchange.inLen (e : Exchange) (p : Nat) : Nat :=
  (if p = e.prev then e.ringLen else 0) + (e.expects p * typeBits e.x.ty + 7) / 8

/-- A message of this rank to another: its elements' indices in this rank's tensor, how many go into one flit, and its bytes;
`ctl` for its counts. -/
structure RankMsg where
  to_ : Nat
  ctl : Bool
  idx : List Nat
  per : Nat
  bytes : List Byte

/-- The messages that are ready, up to the first that is not. -/
def readyMsgs : List (Option RankMsg) → List RankMsg
  | some m :: r => m :: readyMsgs r
  | _ => []

/-- The counts of this rank (R342, R354): terms skipped in the chunk that it exits, its own terms substituted, results there that
rounded to an infinity, and whether its input failed. -/
def Exchange.counts (e : Exchange) (rs : List Reduced) : List Byte :=
  let subs := (e.terms.toList.filter fun t => (termEntry e.x e.tms e.tab t).2).length
  bytesOfNat 8 (rs.map fun r => r.sk).sum ++ bytesOfNat 8 subs ++ bytesOfNat 8 (rs.filter fun r => r.inf).length
    ++ bytesOfNat 8 e.failed.toNat

/-- Elements of this rank's type as a message. -/
def Exchange.message (e : Exchange) (p : Nat) (idx vs : List Nat) : RankMsg :=
  let w := typeBits e.x.ty
  { to_ := p, ctl := false, idx, per := 1920 / w, bytes := bytesOfNat ((vs.length * w + 7) / 8) (packNat w vs) }

/-- The messages of this rank in their order, as far as what has come from the rank before it lets them be made: the partials
of the ring, its counts, the results of the ring, then the blocks that move. -/
def Exchange.out (e : Exchange) (ranks : Nat) (prev : List Byte) : List RankMsg :=
  let others := otherPositions ranks e.pos
  let part (t : Nat) : Option RankMsg := (e.partials prev t).map fun l =>
    { to_ := e.next, ctl := false, idx := e.chunk (e.chunkAt t), per := 7, bytes := l.flatMap partBytes }
  let rs : Option (List Reduced) := if (partialAxes e.x).isEmpty then some [] else e.final prev
  let ring := if e.n ≤ 1 then [] else (List.range (e.n - 1)).map part
  let sums := others.map fun p => rs.map fun l => { to_ := p, ctl := true, idx := [], per := 0, bytes := e.counts l }
  let results := if e.n ≤ 1 || !e.gathers then [] else (List.range (e.n - 1)).map fun u =>
    (e.results prev u).map fun l => e.message e.next (e.chunk (e.resultChunk u)) l
  let moves := others.filterMap fun p =>
    let idx := e.moves p
    if idx.isEmpty then none else some ((e.tensor prev).map fun a => e.message p idx (idx.map fun i => a.getD i 0))
  readyMsgs (ring ++ sums ++ results ++ moves)

/-- The bytes that the rank at a position has sent to this one. -/
def dataFrom (s : State) (k : Coll) (p : Nat) : List Byte :=
  match remoteAt s (collGroup s k) (collSeq k) p with
  | some r => r.data
  | none => []

/-- The counts that a rank has sent, once they are there. -/
def countsFrom (s : State) (k : Coll) (p : Nat) : Option (List Nat) :=
  match remoteAt s (collGroup s k) (collSeq k) p with
  | some r => (bytesAt r.ctl (announceLen r.ctl) 32).map fun l => (List.range 4).map fun i => descAt l (8 * i) 8
  | none => none

/-- The flits of a message (R346, R376). The offset field tells counts from announcements (log 13). -/
def msgFlits (s : State) (k : Coll) (m : RankMsg) : List Flit :=
  let x := collDesc k
  let fl := flitTo s (collGroup s k) (collSeq k) (collId s k) x k.own m.to_ m.ctl
  cutFlits (if m.ctl then 240 else if m.per = 7 then 224 else 240) fl
    (fun i => if m.ctl then 1 else m.idx.getD (i * m.per) 0 * typeBits x.ty / 32) (m.bytes.length / 224 + 1) 0 m.bytes

/-- Has all the data and counts of the other ranks arrived? -/
def dataComplete (s : State) (k : Coll) : Bool :=
  let e := exchangeOf k
  (otherRanks k).all fun p => decide (e.inLen p ≤ (dataFrom s k p).length) && (countsFrom s k p).isSome

/-- The elements that the rank at a position has sent for this rank's output. -/
def Exchange.moved (e : Exchange) (p : Nat) (data : List Byte) : List Nat :=
  unpackNat (typeBits e.x.ty) (e.expects p) (natOfBytes (data.drop (if p = e.prev then e.ringLen else 0)))

/-- This rank's output (R349). -/
def outputElems (s : State) (k : Coll) : List Nat :=
  let e := exchangeOf k
  let a := (e.tensor (dataFrom s k e.prev)).getD #[]
  let got : List (Nat × List Nat) := (otherRanks k).map fun p => (p, e.moved p (dataFrom s k p))
  ((e.origins e.own).foldl (fun (acc : List Nat × List (Nat × List Nat)) o =>
    if o.1 = e.pos then (a.getD o.2 0 :: acc.1, acc.2)
    else
      let l := (assocGet o.1 acc.2).getD []
      (l.headD 0 :: acc.1, assocPut o.1 (l.drop 1) acc.2)) ([], got)).1.reverse

/-! ### The end of a collective (R356, R372) -/

/-- Does a cairn core of the package still hold or run a flit of the collective (R372)? -/
def runsPending (s : State) (id : Nat) : Bool :=
  (s.cairn.queue.toList.any fun q => q.any fun m => decide (m.coll = id))
    || s.cairn.run.toList.any fun r => match r with
      | some r => decide (r.m.coll = id)
      | none => false

/-- The state without a collective, and without what the other ranks have brought to it. -/
def dropColl (k : Coll) (s : State) : State :=
  let g := collGroup s k
  { s with fabric := { s.fabric with
      colls := s.fabric.colls.filter fun y => decide (y.id ≠ k.id)
      ready := s.fabric.ready.filter fun i => decide (i ≠ k.id)
      told := s.fabric.told.filter fun y => decide (y ≠ (g, collSeq k))
      aborts := s.fabric.aborts.filter fun y => decide (y.1 ≠ (g, collSeq k))
      remote := s.fabric.remote.filter fun r => !isOf g (collSeq k) r } }

/-- The save of a job that a done mark has held back goes on once none does (R357). -/
def wakeSave (id : Nat) (s : State) : State :=
  match jobById s id with
  | some j => if j.save && !j.team.any (markedColl s) then { s with sched := .save id :: s.sched } else s
  | none => s

/-- A collective completed: out of the unit, and the command with it (R356); the failed unit of this rank's input goes with
STATUS 0x07 (R438). -/
def endColl (k : Coll) (status : Nat) (reply : W64) (s : State) : State :=
  let failed := if status = 7 then failedVa (sourceOf k.cmd) k.input else none
  let s := if failed.isSome then detectUnits k.cmd k.input s else s
  wakeSave k.job (finishCmd k.core k.cmd { status, reply, failed } (dropColl k s))

/-- The reply of a collective, once every cairn run on it has ended (R372): of one that is cut, or of one whose done marks have all
come (R356). -/
def replyColl (id : Nat) (s : State) : State :=
  match collById s id with
  | none => s
  | some k =>
    if runsPending s id then s
    else
      match k.cut with
      | some status => endColl k status 0 s
      | none =>
        if k.running && k.wrote && (List.range k.ranks).all (fun p => k.marks.contains p) then endColl k k.status 1 s else s

/-- Bytes whose values the manual leaves undefined (log 3): the output of a collective that ends with 0x12 or 0x13. -/
def freeBytes (n : Nat) (s : State) : List Byte × State :=
  ((List.range n).map fun i => (Config.freeWord (s.free + i)).setWidth 8, { s with free := s.free + n })

/-- The output range, and the status word's range, of a collective's translated parts (R190): the status word is last. -/
def collOutBytes (k : Coll) : Nat := tensorBytes (collDesc k) (localExt (collDesc k) MeshAxis.dst)

/-- A collective that ends with 0x12 or 0x13: its outputs are undefined, its status word is not written (R356). -/
def cutColl (k : Coll) (status : Nat) (s : State) : State :=
  let (l, s) := freeBytes (collOutBytes k) s
  let (s, _) := writeTarget k.core k.cmd (placed none l) s
  let s := s.modColl k.id fun y => { y with running := false, cut := some status }
  replyColl k.id { s with fabric := { s.fabric with ready := s.fabric.ready.filter fun i => decide (i ≠ k.id) } }

/-! ### Issue (R355) -/

/-- coll (R355): a command that passes its checks is announced, joins the collective unit, and stays there; any other completes. A
rank whose TMSHAPE is invalid tells the others so. The descriptor's bytes came with the command. -/
def runColl (c : CoreId) (id : Nat) (s : State) : State :=
  match runningCmd s c id with
  | none => s
  | some k =>
    if k.fn.toNat ≠ 0x0B ∨ (collById s id).isSome then s
    else
      let x := descOf k.xtra
      let cid := (s.core c).csr.collid
      let g := cgrpOf cid
      let twice := s.fabric.colls.any fun y => decide (collGroup s y = g) && decide (collSeq y = k.b.setWidth 32)
      if k.b.toNat / 2 ^ 32 ≠ 0 || !descValid k.xtra || g = 0 || (ranksOf cid x).isNone || twice then
        finishCmd c k (ends 5 0) s
      else if decide (x.op = 4) && !tmValid k.tmshape k.tab then
        finishCmd c k (ends 0x10 0) (announce c k true s)
      else
        let y : Coll :=
          { id, core := c, cmd := k, job := (s.core c).job.getD 0, running := false, wrote := false, marks := []
            ranks := groupSize x, own := ownPos cid x, status := 0, input := [], classes := [], fseqs := [], beyond := false
            msgs := 0, cut := none }
        let s := announce c k false s
        noteArrived { s with fabric := { s.fabric with colls := s.fabric.colls ++ [y] } }

/-! ### Start (R355) -/

/-- The directions that an axis of more than one rank uses (R345, R352). -/
def axisDirections (a : MeshAxis) : List Nat := if a.n ≤ 1 || a.axis = 3 then [] else [2 * a.axis, 2 * a.axis + 1]

/-- Does a collective's ring reach an Ethernet rank (R367)? -/
def reachesPeer (s : State) (j : Nat) (k : Coll) : Bool :=
  (collDesc k).axes.any fun a => decide (a.axis = 3) && decide (1 < a.n) && decide ((rankOn (collId s k) a + 1) % a.n = j)

/-- Is a direction of the collective's rings down, or an Ethernet neighbour without a valid entry (R356, R367)? -/
def collCut (s : State) (k : Coll) : Bool :=
  (collDesc k).axes.any (fun a => (axisDirections a).any (directionDown s))
    || (List.finRange 16).any fun j => reachesPeer s j.val k && (!s.fabric.peers[j].valid || s.fabric.peers[j].lost)

/-- The domain faults of this rank's own terms under trap, by element index (R341). -/
def ownFaults (k : Coll) : List Nat :=
  let x := collDesc k
  if x.op = 4 ∧ tmAct k.cmd.tmshape = 0 then
    let es := localExt x (slicedByte x)
    let n := volume (localExt x MeshAxis.src)
    let elems := elemsOf x.ty n k.input
    let own := ringRanks (axisSizes x) k.own
    ((List.range (volume es)).map fun i => inputIndex x own (unflat es i)).filter fun i =>
      match elems.getD i none with
      | some t => !inDomain (tmMean k.cmd.tmshape k.cmd.tab) t
      | none => false
  else []

/-- The collective run at its first step: the input read, the domain faults of its own terms written as job events. -/
def firstStep (k : Coll) (s : State) : State :=
  let input := sourceData s k.core k.cmd
  let s := clearSource k.core k.cmd s
  let k := { k with running := true, wrote := false, marks := [], input, fseqs := [], beyond := false, msgs := 0 }
  let s := s.modColl k.id fun _ => k
  let s := { s with fabric := { s.fabric with ready := s.fabric.ready.filter fun i => decide (i ≠ k.id) } }
  (ownFaults k).foldl (fun s i => jobEvent k.job 9 0 ((collSeq k).setWidth 64) (BitVec.ofNat 64 i) s) s

/-- Does the collective unit take a collective now: it is the first of those whose last rank has arrived, fewer than eight run,
and those that run are of its world (R162, R355)? -/
def unitTakes (s : State) (k : Coll) : Bool :=
  let l := s.fabric.colls.filter fun y => y.running
  decide (s.fabric.ready.head? = some k.id) && decide (l.length < 8) && l.all fun y => decide (y.cmd.world = k.cmd.world)

/-- COLL_START (R355): when every rank has issued and the unit takes the collective, the ranks are compared, this rank's input is
read and the exchange starts. `bind` binds the cairn classes and `send` sends what this rank has to send. -/
def startColl (bind : Coll → State → State) (send : Nat → State → State) (id : Nat) (s : State) : State :=
  match collById s id with
  | none => s
  | some k =>
    if k.running || k.cut.isSome || !allArrived s k || !unitTakes s k then s
    else if !ranksAgree s k then endColl k 0x11 0 s
    else if collCut s k then cutColl k 0x12 s
    else if hostPending s k.core k.cmd then askSource k.core k.cmd s
    else send id (bind k (firstStep k s))

/-! ### Completion (R356) -/

/-- This rank's outputs and status word written, and its done mark sent (R351, R356). STATUS is 0x07 when an input of
some rank failed. -/
def writeOutputs (k : Coll) (s : State) : State :=
  let e := exchangeOf k
  let out := bytesOfNat (collOutBytes k) (packNat (typeBits e.x.ty) (outputElems s k))
  let rs := if (partialAxes e.x).isEmpty then [] else (e.final (dataFrom s k e.prev)).getD []
  let own := (List.range 4).map fun i => descAt (e.counts rs) (8 * i) 8
  let all := own :: (otherRanks k).map fun p => (countsFrom s k p).getD []
  let total (i : Nat) : Nat := (all.map fun l => l.getD i 0).sum
  let (s, gone) := writeTarget k.core k.cmd (placed none (out ++ bytesOfNat 8 (collStatusWord e.x (total 0) (total 1) (total 2)).toNat)) s
  let s := s.modColl k.id fun k => { k with wrote := true, marks := k.own :: k.marks, status := if total 3 ≠ 0 || gone then 7 else 0 }
  if k.ranks ≤ 1 then s else sendNote k k.own none s

/-- The position that a note goes on to: the next round the ring over all axes, unless that rank sent it (R356, R357). -/
def passNote (k : Coll) (rank : Nat) (detail : Option Nat) (s : State) : State :=
  if (k.own + 1) % max 1 k.ranks = rank then s else sendNote k rank detail s

/-- COLL_DONE_MARK (R356): this rank's own mark follows its outputs, which it writes once all data are there; another
rank's mark is counted and goes on. -/
def doneMark (id rank : Nat) (s : State) : State :=
  match collById s id with
  | none => s
  | some k =>
    if !k.running || k.ranks ≤ rank || k.marks.contains rank then s
    else if rank = k.own then
      (if dataComplete s k && !runsPending s id then replyColl id (writeOutputs k s) else s)
    else replyColl id (passNote k rank none (s.modColl id fun k => { k with marks := rank :: k.marks }))

/-! ### Aborts (R357) -/

/-- A collective that waits again for all ranks. -/
def againColl (k : Coll) : Coll :=
  { k with running := false, wrote := false, marks := [], input := [], fseqs := [], beyond := false, msgs := 0 }

/-- COLL_ABORT (R357): partials are discarded, a job event with cause 13 is written, and the abort goes on round the ring; DETAIL 1
waits for all ranks again, DETAIL 2 completes with 0x13 and DETAIL 3 with 0x12. -/
def abortColl (id detail rank : Nat) (s : State) : State :=
  match collById s id with
  | none => s
  | some k =>
    if k.cut.isSome then s
    else
      let g := collGroup s k
      let w1 : W64 := BitVec.ofNat 64 ((collSeq k).toNat + 2 ^ 32 * g.toNat)
      let s := jobEvent k.job 13 detail w1 (BitVec.ofNat 64 rank) (passNote k rank (some detail) (discardPartials k (some rank) s))
      match detail with
      | 2 => cutColl k 0x13 s
      | 3 => cutColl k 0x12 s
      | _ =>
        let s := (nextRun g (collSeq k) (s.modColl id againColl)).modCore k.core fun x =>
          { x with hostIn := x.hostIn.filter fun e => decide (e.1 ≠ id) }
        noteArrived { s with fabric := { s.fabric with ready := s.fabric.ready.filter fun i => decide (i ≠ id) } }

/-- Running collectives whose ring reaches a peer entry that is no longer valid complete (R367). -/
def cutUnreached (j : Nat) (s : State) : State :=
  (s.fabric.colls.filter fun k => k.running && k.cut.isNone && reachesPeer s j k).foldl (fun s k =>
    cutColl k 0x12 (dropMatched k.id s)) s

/-- Running collectives that a lost direction or peer cuts: DETAIL 3 (R357), which this rank raises. -/
def cutRunning (hit : Coll → Bool) (s : State) : State :=
  (s.fabric.colls.filter fun k => k.running && hit k).foldl (fun s k =>
    abortColl k.id 3 k.own s) s

end Sys2Proof.Machine
end

