-- ==== Sys2Proof/Machine/Cairn.lean ====
section
/-! DEFINITION. The cairn cores of the switch (R369-R389): slots and classes, matching, the effect of every cairn word,
repeats and skips, runs, traps and events, and the loader's checks. -/

namespace Sys2Proof.Machine

/-! ### Classes (R374, R375) -/

def classValid (w0 : W64) : Bool := w0.getLsbD 63
def classTpol (w0 : W64) : Nat := bitsN w0.toNat 61 2
def classPoint (w0 : W64) : Bool := w0.getLsbD 60
def classBudget (w0 : W64) : Nat := bitsN w0.toNat 48 12
def classKlen (w0 : W64) : Nat := bitsN w0.toNat 36 12 + 1
def classKstart (w0 : W64) : Nat := bitsN w0.toNat 22 14
def classRecb (w0 : W64) : Nat := 64 * (bitsN w0.toNat 16 6 + 1)
def classNflow (w0 : W64) : Nat := bitsN w0.toNat 8 8 + 1
def classSeqm (w1 : W64) : W32 := w1.extractLsb' 32 32
def classSeqv (w1 : W64) : W32 := w1.extractLsb' 0 32
def classRepl (w2 : W64) : Nat := bitsN w2.toNat 32 32
def classCbase (w2 : W64) : Nat := bitsN w2.toNat 16 16
def classAct (w2 : W64) : Nat := bitsN w2.toNat 14 2
def classP (w2 : W64) : Int := sintN 8 (bitsN w2.toNat 6 8)
def classZero (w2 : W64) : Bool := w2.getLsbD 5

/-- The counter register of a class (R375). -/
def classCounters (x : CairnClass) : W64 := x.runs ++ x.traps ++ x.lost

/-- CAIRN_COUNTER_READ (R375): the read clears TRAPS and LOST. -/
def readCairnCounter (j : Fin 16) (c : Fin 8) (s : State) : State :=
  s.modClass j c fun x => { x with traps := 0, lost := 0 }

/-- A counter of `w` bits with one added, saturating. -/
def satInc {w : Nat} (x : BitVec w) : BitVec w := if x = BitVec.allOnes w then x else x + 1

/-! ### Events (R386, R413) -/

/-- A job event of a cairn core to the job of the slot; one that finds no room is counted in LOST. -/
def cairnEvent (j : Fin 16) (c : Fin 8) (detail f fseq off : Nat) (v : W64) (s : State) : State :=
  match (cairnSlot s j).job with
  | none => s
  | some id =>
    match jobById s id with
    | none => s
    | some job =>
      let w1 := BitVec.ofNat 64 (c.val + 2 ^ 8 * (f % 256) + 2 ^ 16 * (off % 4096) + 2 ^ 32 * fseq)
      if eventRoom s job then jobEvent id (if detail = 2 then 9 else 14) detail w1 v s
      else s.modClass j c fun x => { x with lost := satInc x.lost }

/-! ### Matching (R369-R371) -/

/-- The `k`-th set bit of a mask, counted from bit 0. -/
def nthBit (x : W64) (k : Nat) : Nat := (((List.range 64).filter fun i => x.getLsbD i)[k]?).getD 0

/-- The number of set bits. -/
def bitCount (x : W64) : Nat := ((List.range 64).filter fun i => x.getLsbD i).length

/-- The home core of a flow (R371). -/
def homeCore (mask : W64) (f c : Nat) : Fin 64 := Fin.ofNat 64 (nthBit mask ((f + 8 * c) % max 1 (bitCount mask)))

/-- The classes of a slot that match a collective, with their kernels, as its first step binds them. -/
def bindClasses (s : State) (j : Fin 16) (seq : W32) : List BoundClass :=
  let x := cairnSlot s j
  let store := vget s.cairn.store (nthBit x.mask 0) []
  (List.finRange 8).filterMap fun c =>
    let k := x.classes[c]
    if classValid k.w0 && decide (seq &&& classSeqm k.w1 = classSeqv k.w1) then
      some { slot := j, cls := c, w0 := k.w0, w1 := k.w1, w2 := k.w2
             kernel := sgets 0 store (partKbase x.part + classKstart k.w0) (classKlen k.w0) }
    else none

/-- The word address of a record in flow state (R374). -/
def recordWordAddr (part : W64) (k : BoundClass) (f o : Nat) : Nat :=
  1024 * partPbase part + (64 * classCbase k.w2 + f * classRecb k.w0 + o) / 4

/-- The classes bound to a collective at its first step, the records of those with ZERO zeroed (R374, R389); none where the cairn
cores have no verified microcode (R425, log 6). -/
def bindColl (k : Coll) (s : State) : State :=
  match slotOfGroup s (collGroup s k) with
  | none => s
  | some j =>
    if s.sys.failed.contains 2 then s
    else
    let ks := bindClasses s j (collSeq k)
    let s := s.modColl k.id fun y => { y with classes := ks }
    ks.foldl (fun s b =>
      if classZero b.w2 then
        zeroFlow (recordWordAddr (cairnSlot s j).part b 0 0) (classNflow b.w0 * classRecb b.w0 / 4) s
      else s) s

/-- A remote rank's announcement or data extended by a flit's valid bytes. -/
def putRemote (fl : Flit) : List RemoteRank → List RemoteRank
  | [] =>
    [{ cgrp := fl.cgrp, seq := fl.collSeq, pos := fl.pos
       ctl := if fl.ctl then flitBytes fl else [], data := if fl.ctl then [] else flitBytes fl }]
  | r :: rest =>
    if r.cgrp = fl.cgrp ∧ r.seq = fl.collSeq ∧ r.pos = fl.pos then
      (if fl.ctl then { r with ctl := r.ctl ++ flitBytes fl } else { r with data := r.data ++ flitBytes fl }) :: rest
    else r :: putRemote fl rest

/-- A flit of a running collective at its point (R369-R371): the lowest matching class takes it, when its flow `f` has a
record; the first flit beyond NFLOW writes an event. The flow is the position of the rank at the other end: the sender's on
ingress, the receiver's on egress. Where no class takes it, `pass` does. -/
def matchFlit (pass : Flit → State → State) (k : Coll) (egress : Bool) (f : Nat) (fl : Flit) (s : State) : State :=
  match k.classes.find? fun b => decide (classPoint b.w0 = egress) with
  | none => pass fl s
  | some b =>
    if classNflow b.w0 ≤ f then
      let s := if k.beyond then s else cairnEvent b.slot b.cls 4 f 0 0 0 s
      pass fl (s.modColl k.id fun y => { y with beyond := true })
    else
      let key := 256 * b.cls.val + f
      let n := (assocGet key k.fseqs).getD 0
      let m : Matched := { k := b, coll := k.id, flow := f, fseq := n, flit := fl, egress, dead := false }
      let h := homeCore (cairnSlot s b.slot).mask f b.cls.val
      let s := s.modColl k.id fun y => { y with fseqs := assocPut key (n + 1) y.fseqs }
      { s with cairn := { s.cairn with queue := s.cairn.queue.set h (s.cairn.queue[h] ++ [m]) } }

/-- A flit of a collective leaves this package's unit: its counts go as they are, data through the cairn classes. -/
def departFlit (id : Nat) (m : RankMsg) (fl : Flit) (s : State) : State :=
  if m.ctl then sendFlit fl s
  else match collById s id with
    | some k => matchFlit sendFlit k true m.to_ fl s
    | none => s

/-- What this rank of a running collective can send by now, sent (R340, R353). -/
def pumpColl (id : Nat) (s : State) : State :=
  match collById s id with
  | none => s
  | some k =>
    if !k.running || k.ranks ≤ 1 then s
    else
      let e := exchangeOf k
      let all := e.out k.ranks (dataFrom s k e.prev)
      (all.drop k.msgs).foldl (fun s m => (msgFlits s k m).foldl (fun s fl => departFlit id m fl s) s)
        (s.modColl id fun k => { k with msgs := all.length })

/-- The running collective that a flit belongs to. -/
def runningOf (s : State) (fl : Flit) : Option Coll :=
  s.fabric.colls.find? fun k => k.running && decide (collGroup s k = fl.cgrp) && decide (collSeq k = fl.collSeq)

/-- A flit delivered to the collective unit: an announcement may be a collective's last; data lets this rank send more. -/
def deliver (fl : Flit) (s : State) : State :=
  let s := { s with fabric := { s.fabric with remote := putRemote fl s.fabric.remote } }
  if fl.ctl then noteArrived s
  else match runningOf s fl with
    | some k => pumpColl k.id s
    | none => s

/-- A flit that a run forwards goes on as one that no class takes. -/
def passFlit (egress : Bool) (fl : Flit) (s : State) : State := if egress then sendFlit fl s else deliver fl s

/-! ### The state of a run (R376) -/

/-- The window of a matched flit. -/
def runWindow (m : Matched) : Vector W32 64 :=
  let w1 := m.flit.collSeq.toNat % 2 ^ 16 * 2 ^ 16 + m.flow % 256 * 2 ^ 8 + m.k.cls.val
  let w2 := min m.flit.len.toNat 240 * 2 ^ 16 + m.flit.off.toNat
  let valid := natOfBytes (flitBytes m.flit)
  Vector.ofFn fun i =>
    if i.val = 0 then m.fseq else if i.val = 1 then BitVec.ofNat 32 w1 else if i.val = 2 then BitVec.ofNat 32 w2
    else if i.val = 3 then 0 else BitVec.ofNat 32 (bitsN valid (32 * (i.val - 4)) 32)

/-- A run at its start. -/
def startRun (m : Matched) : Run :=
  { m, w := runWindow m, e := Vector.replicate 16 (Vector.replicate 16 0), msk := Vector.replicate 4 0, drop := false
    pc := 0, reps := [], trap := none }

/-- A register of lanes. -/
def laneReg (r : Run) (a : BitVec 4) : Vector W32 16 := vget r.e a.toNat (Vector.replicate 16 0)

/-- A mask: m0 reads as all ones (R376). -/
def maskReg (r : Run) (m : BitVec 2) : BitVec 16 := if m = 0 then BitVec.allOnes 16 else vget r.msk m.toNat 0

/-- Lanes of a register written: lane `i` where `on i`. -/
def putLanes (d : BitVec 4) (on : Nat → Bool) (f : Nat → W32) (r : Run) : Run :=
  let old := laneReg r d
  { r with e := vset r.e d.toNat (Vector.ofFn fun i => if on i.val then f i.val else old[i]) }

/-- A mask written; writes of m0 are discarded (R376). -/
def putMask (d : BitVec 2) (v : BitVec 16) (r : Run) : Run :=
  if d = 0 then r else { r with msk := vset r.msk d.toNat v }

/-- A lane of a register. -/
def laneAt (r : Run) (a : BitVec 4) (i : Nat) : W32 := vget (laneReg r a) i 0

/-! ### Lane arithmetic (R379) -/

def laneAdd (x y : W32) : W32 := x + y
def laneSub (x y : W32) : W32 := x - y
def laneMul (x y : W32) : W32 := x * y
def laneAnd (x y : W32) : W32 := x &&& y
def laneOr (x y : W32) : W32 := x ||| y
def laneXor (x y : W32) : W32 := x ^^^ y
def laneShl (x y : W32) : W32 := x <<< (y.toNat % 32)
def laneShr (x y : W32) : W32 := x >>> (y.toNat % 32)
def laneSra (x y : W32) : W32 := x.sshiftRight (y.toNat % 32)
def laneMin (x y : W32) : W32 := if x.toInt ≤ y.toInt then x else y
def laneMax (x y : W32) : W32 := if y.toInt ≤ x.toInt then x else y
def laneMinu (x y : W32) : W32 := if x.toNat ≤ y.toNat then x else y
def laneMaxu (x y : W32) : W32 := if y.toNat ≤ x.toNat then x else y
def laneFadd (x y : W32) : W32 := BitVec.ofNat 32 (fadd x.toNat y.toNat)
def laneFsub (x y : W32) : W32 := BitVec.ofNat 32 (fsub x.toNat y.toNat)
def laneFmul (x y : W32) : W32 := BitVec.ofNat 32 (fmul x.toNat y.toNat)
def laneFmin (x y : W32) : W32 := BitVec.ofNat 32 (fmin x.toNat y.toNat)
def laneFmax (x y : W32) : W32 := BitVec.ofNat 32 (fmax x.toNat y.toNat)
def testEq (x y : W32) : Bool := decide (x = y)
def testNe (x y : W32) : Bool := decide (x ≠ y)
def testLt (x y : W32) : Bool := decide (x.toInt < y.toInt)
def testLe (x y : W32) : Bool := decide (x.toInt ≤ y.toInt)
def testLtu (x y : W32) : Bool := decide (x.toNat < y.toNat)
def testLeu (x y : W32) : Bool := decide (x.toNat ≤ y.toNat)
def testFlt (x y : W32) : Bool := flt x.toNat y.toNat
def testFle (x y : W32) : Bool := fle x.toNat y.toNat

/-- What a word does to its run and to the state. -/
abbrev WordAct := Run → State → Run × State

/-- An effect on the run only. -/
def pureAct (f : Run → Run) : WordAct := fun r s => (f r, s)

/-- A two-source lane operation. -/
def lane2 (op : W32 → W32 → W32) (d a b : BitVec 4) (m : BitVec 2) (r : Run) : Run :=
  putLanes d (fun i => (maskReg r m).getLsbD i) (fun i => op (laneAt r a i) (laneAt r b i)) r

/-- A lane operation with the sign-extended immediate. -/
def laneI (op : W32 → W32 → W32) (d a : BitVec 4) (m : BitVec 2) (imm : BitVec 11) (r : Run) : Run :=
  putLanes d (fun i => (maskReg r m).getLsbD i) (fun i => op (laneAt r a i) (imm.signExtend 32)) r

/-- A mask with bit `i` from `f i` where `on i`, else kept. -/
def maskOf (old : BitVec 16) (on f : Nat → Bool) : BitVec 16 :=
  (List.range 16).foldl (fun v i => putBit v i (if on i then f i else old.getLsbD i)) 0

/-- A compare of two registers into a mask. -/
def cmp2 (rel : W32 → W32 → Bool) (d : BitVec 2) (a b : BitVec 4) (m : BitVec 2) (r : Run) : Run :=
  putMask d (maskOf (maskReg r d) (fun i => (maskReg r m).getLsbD i) fun i => rel (laneAt r a i) (laneAt r b i)) r

/-- A compare with the sign-extended immediate. -/
def cmpI (rel : W32 → W32 → Bool) (d : BitVec 2) (a : BitVec 4) (m : BitVec 2) (imm : BitVec 11) (r : Run) : Run :=
  putMask d (maskOf (maskReg r d) (fun i => (maskReg r m).getLsbD i) fun i => rel (laneAt r a i) (imm.signExtend 32)) r

/-- Every lane of a register. -/
def allLanes (d : BitVec 4) (f : Nat → W32) (r : Run) : Run := putLanes d (fun _ => true) f r

def actCAdd (d a b : BitVec 4) (m : BitVec 2) : WordAct := pureAct (lane2 laneAdd d a b m)
def actCAddI (d a : BitVec 4) (m : BitVec 2) (imm : BitVec 11) : WordAct := pureAct (laneI laneAdd d a m imm)
def actCSub (d a b : BitVec 4) (m : BitVec 2) : WordAct := pureAct (lane2 laneSub d a b m)
def actCSubI (d a : BitVec 4) (m : BitVec 2) (imm : BitVec 11) : WordAct := pureAct (laneI laneSub d a m imm)
def actCMul (d a b : BitVec 4) (m : BitVec 2) : WordAct := pureAct (lane2 laneMul d a b m)
def actCMulI (d a : BitVec 4) (m : BitVec 2) (imm : BitVec 11) : WordAct := pureAct (laneI laneMul d a m imm)
def actCAnd (d a b : BitVec 4) (m : BitVec 2) : WordAct := pureAct (lane2 laneAnd d a b m)
def actCAndI (d a : BitVec 4) (m : BitVec 2) (imm : BitVec 11) : WordAct := pureAct (laneI laneAnd d a m imm)
def actCOr (d a b : BitVec 4) (m : BitVec 2) : WordAct := pureAct (lane2 laneOr d a b m)
def actCOrI (d a : BitVec 4) (m : BitVec 2) (imm : BitVec 11) : WordAct := pureAct (laneI laneOr d a m imm)
def actCXor (d a b : BitVec 4) (m : BitVec 2) : WordAct := pureAct (lane2 laneXor d a b m)
def actCXorI (d a : BitVec 4) (m : BitVec 2) (imm : BitVec 11) : WordAct := pureAct (laneI laneXor d a m imm)
def actCShl (d a b : BitVec 4) (m : BitVec 2) : WordAct := pureAct (lane2 laneShl d a b m)
def actCShlI (d a : BitVec 4) (m : BitVec 2) (imm : BitVec 11) : WordAct := pureAct (laneI laneShl d a m imm)
def actCShr (d a b : BitVec 4) (m : BitVec 2) : WordAct := pureAct (lane2 laneShr d a b m)
def actCShrI (d a : BitVec 4) (m : BitVec 2) (imm : BitVec 11) : WordAct := pureAct (laneI laneShr d a m imm)
def actCSra (d a b : BitVec 4) (m : BitVec 2) : WordAct := pureAct (lane2 laneSra d a b m)
def actCSraI (d a : BitVec 4) (m : BitVec 2) (imm : BitVec 11) : WordAct := pureAct (laneI laneSra d a m imm)
def actCMin (d a b : BitVec 4) (m : BitVec 2) : WordAct := pureAct (lane2 laneMin d a b m)
def actCMinI (d a : BitVec 4) (m : BitVec 2) (imm : BitVec 11) : WordAct := pureAct (laneI laneMin d a m imm)
def actCMax (d a b : BitVec 4) (m : BitVec 2) : WordAct := pureAct (lane2 laneMax d a b m)
def actCMaxI (d a : BitVec 4) (m : BitVec 2) (imm : BitVec 11) : WordAct := pureAct (laneI laneMax d a m imm)
def actCMinu (d a b : BitVec 4) (m : BitVec 2) : WordAct := pureAct (lane2 laneMinu d a b m)
def actCMinuI (d a : BitVec 4) (m : BitVec 2) (imm : BitVec 11) : WordAct := pureAct (laneI laneMinu d a m imm)
def actCMaxu (d a b : BitVec 4) (m : BitVec 2) : WordAct := pureAct (lane2 laneMaxu d a b m)
def actCMaxuI (d a : BitVec 4) (m : BitVec 2) (imm : BitVec 11) : WordAct := pureAct (laneI laneMaxu d a m imm)
def actCFadd (d a b : BitVec 4) (m : BitVec 2) : WordAct := pureAct (lane2 laneFadd d a b m)
def actCFsub (d a b : BitVec 4) (m : BitVec 2) : WordAct := pureAct (lane2 laneFsub d a b m)
def actCFmul (d a b : BitVec 4) (m : BitVec 2) : WordAct := pureAct (lane2 laneFmul d a b m)
def actCFmin (d a b : BitVec 4) (m : BitVec 2) : WordAct := pureAct (lane2 laneFmin d a b m)
def actCFmax (d a b : BitVec 4) (m : BitVec 2) : WordAct := pureAct (lane2 laneFmax d a b m)
def actCCmpEq (d : BitVec 2) (a b : BitVec 4) (m : BitVec 2) : WordAct := pureAct (cmp2 testEq d a b m)
def actCCmpEqI (d : BitVec 2) (a : BitVec 4) (m : BitVec 2) (imm : BitVec 11) : WordAct := pureAct (cmpI testEq d a m imm)
def actCCmpNe (d : BitVec 2) (a b : BitVec 4) (m : BitVec 2) : WordAct := pureAct (cmp2 testNe d a b m)
def actCCmpNeI (d : BitVec 2) (a : BitVec 4) (m : BitVec 2) (imm : BitVec 11) : WordAct := pureAct (cmpI testNe d a m imm)
def actCCmpLt (d : BitVec 2) (a b : BitVec 4) (m : BitVec 2) : WordAct := pureAct (cmp2 testLt d a b m)
def actCCmpLtI (d : BitVec 2) (a : BitVec 4) (m : BitVec 2) (imm : BitVec 11) : WordAct := pureAct (cmpI testLt d a m imm)
def actCCmpLe (d : BitVec 2) (a b : BitVec 4) (m : BitVec 2) : WordAct := pureAct (cmp2 testLe d a b m)
def actCCmpLeI (d : BitVec 2) (a : BitVec 4) (m : BitVec 2) (imm : BitVec 11) : WordAct := pureAct (cmpI testLe d a m imm)
def actCCmpLtu (d : BitVec 2) (a b : BitVec 4) (m : BitVec 2) : WordAct := pureAct (cmp2 testLtu d a b m)
def actCCmpLtuI (d : BitVec 2) (a : BitVec 4) (m : BitVec 2) (imm : BitVec 11) : WordAct := pureAct (cmpI testLtu d a m imm)
def actCCmpLeu (d : BitVec 2) (a b : BitVec 4) (m : BitVec 2) : WordAct := pureAct (cmp2 testLeu d a b m)
def actCCmpLeuI (d : BitVec 2) (a : BitVec 4) (m : BitVec 2) (imm : BitVec 11) : WordAct := pureAct (cmpI testLeu d a m imm)
def actCCmpFlt (d : BitVec 2) (a b : BitVec 4) (m : BitVec 2) : WordAct := pureAct (cmp2 testFlt d a b m)
def actCCmpFle (d : BitVec 2) (a b : BitVec 4) (m : BitVec 2) : WordAct := pureAct (cmp2 testFle d a b m)

/-- c.sel: every lane is written. -/
def actCSel (d a b : BitVec 4) (m : BitVec 2) : WordAct :=
  pureAct fun r => allLanes d (fun i => if (maskReg r m).getLsbD i then laneAt r a i else laneAt r b i) r

def actCMand (d a b : BitVec 2) : WordAct := pureAct fun r => putMask d (maskReg r a &&& maskReg r b) r
def actCMor (d a b : BitVec 2) : WordAct := pureAct fun r => putMask d (maskReg r a ||| maskReg r b) r
def actCMxor (d a b : BitVec 2) : WordAct := pureAct fun r => putMask d (maskReg r a ^^^ maskReg r b) r
def actCMnot (d a : BitVec 2) : WordAct := pureAct fun r => putMask d (~~~(maskReg r a)) r

/-- c.li and c.lhi. -/
def actCLi (d : BitVec 4) (v : BitVec 17) : WordAct := pureAct fun r => allLanes d (fun _ => v.signExtend 32) r
def actCLhi (d : BitVec 4) (v : BitVec 15) : WordAct :=
  pureAct fun r => allLanes d (fun i => v ++ (laneAt r d i).extractLsb' 0 17) r

def actCLidx (d : BitVec 4) : WordAct := pureAct fun r => allLanes d (fun i => BitVec.ofNat 32 i) r
def actCBcast (d a n : BitVec 4) : WordAct := pureAct fun r => allLanes d (fun _ => laneAt r a n.toNat) r
def actCRot (d a n : BitVec 4) : WordAct := pureAct fun r => allLanes d (fun i => laneAt r a ((i + n.toNat) % 16)) r

/-- The lanes in a mask. -/
def lanesIn (r : Run) (m : BitVec 2) : List Nat := (List.range 16).filter fun i => (maskReg r m).getLsbD i

/-- c.radd and c.rmax: the other lanes of d are zero. -/
def actCRadd (d a : BitVec 4) (m : BitVec 2) : WordAct := pureAct fun r =>
  let v := (lanesIn r m).foldl (fun x i => x + laneAt r a i) (0 : W32)
  allLanes d (fun i => if i = 0 then v else 0) r
def actCRmax (d a : BitVec 4) (m : BitVec 2) : WordAct := pureAct fun r =>
  let v := (lanesIn r m).foldl (fun x i => laneMax x (laneAt r a i)) (0x80000000 : W32)
  allLanes d (fun i => if i = 0 then v else 0) r

/-- c.fld and c.fst: the header view is never written. -/
def actCFld (d : BitVec 4) (m : BitVec 2) (off : BitVec 6) : WordAct := pureAct fun r =>
  putLanes d (fun i => (maskReg r m).getLsbD i) (fun i => vget r.w (off.toNat + i) 0) r
def actCFst (a : BitVec 4) (m : BitVec 2) (off : BitVec 6) : WordAct := pureAct fun r =>
  let put (w : Vector W32 64) (i : Nat) : Vector W32 64 :=
    if 4 ≤ off.toNat + i then vset w (off.toNat + i) (laneAt r a i) else w
  { r with w := (lanesIn r m).foldl put r.w }

def actCDrop : WordAct := pureAct fun r => { r with drop := true }

/-! ### Flow state (R380) -/

/-- The index of the innermost active repeat, or of the one that encloses it; 0 where there is none (R381). -/
def ridx (r : Run) (lv : Nat) : Nat := ((r.reps[lv]?).map fun x => x.idx).getD 0

def actCRidx (d : BitVec 4) (lv : BitVec 1) : WordAct :=
  pureAct fun r => allLanes d (fun _ => BitVec.ofNat 32 (ridx r lv.toNat)) r

/-- A run ended by a trap: its event is written. -/
def trapRun (detail : Nat) (v : W64) : WordAct := fun r s =>
  ({ r with trap := some detail }, cairnEvent r.m.k.slot r.m.k.cls detail r.m.flow r.m.fseq.toNat r.pc v s)

/-- The offset of R380, and whether it passes the record or the partition. -/
def recordOff (r : Run) (x : BitVec 5) (rr : BitVec 6) : Nat := 64 * (rr.toNat + x.toNat * ridx r 0)
def recordBad (s : State) (r : Run) (o : Nat) : Bool :=
  let part := (cairnSlot s r.m.k.slot).part
  decide (classRecb r.m.k.w0 < o + 64)
    || decide (4096 * partPsize part < 64 * classCbase r.m.k.w2 + r.m.flow * classRecb r.m.k.w0 + o + 64)

/-- c.sld. -/
def actCSld (d : BitVec 4) (m : BitVec 2) (rr : BitVec 6) (x : BitVec 5) : WordAct := fun r s =>
  let o := recordOff r x rr
  if recordBad s r o then trapRun 1 (BitVec.ofNat 64 o) r s
  else
    let a := recordWordAddr (cairnSlot s r.m.k.slot).part r.m.k r.m.flow o
    if (lanesIn r m).any fun i => sget false s.cairn.flowBad (a + i) then trapRun 3 0 r (detectFlow a s)
    else (putLanes d (fun i => (maskReg r m).getLsbD i) (fun i => sget 0 s.cairn.flow (a + i)) r, s)

/-- c.sst: a word written whole has good check bits again. -/
def actCSst (a : BitVec 4) (m : BitVec 2) (rr : BitVec 6) (x : BitVec 5) : WordAct := fun r s =>
  let o := recordOff r x rr
  if recordBad s r o then trapRun 1 (BitVec.ofNat 64 o) r s
  else
    let w := recordWordAddr (cairnSlot s r.m.k.slot).part r.m.k r.m.flow o
    (r, { s with cairn := { s.cairn with
      flow := (lanesIn r m).foldl (fun f i => sput 0 f (w + i) (laneAt r a i)) s.cairn.flow
      flowBad := (lanesIn r m).foldl (fun f i => sput false f (w + i) false) s.cairn.flowBad } })

/-! ### Transformed means (R384) -/

/-- A partial in lanes 0-7 of a register. -/
def partOf (v : Vector W32 16) : Part :=
  let l3 := v[3]
  { cell := { m := v[1] ++ v[0], e := v[2].extractLsb' 0 16, jam := l3.getLsbD 3, nan := l3.getLsbD 2,
              sat := l3.getLsbD 1, clr := !l3.getLsbD 0 }
    n := v[4].toNat, sk := v[5].toNat }

/-- Lane `i` of a partial; lanes 6-15 are zero. -/
def partLane (p : Part) (i : Nat) : W32 :=
  match i with
  | 0 => p.cell.m.extractLsb' 0 32
  | 1 => p.cell.m.extractLsb' 32 32
  | 2 => p.cell.e.setWidth 32
  | 3 => BitVec.ofNat 32 (p.cell.jam.toNat * 8 + p.cell.nan.toNat * 4 + p.cell.sat.toNat * 2 + (!p.cell.clr).toNat)
  | 4 => BitVec.ofNat 32 p.n
  | 5 => BitVec.ofNat 32 p.sk
  | _ => 0

/-- The mean of the class. -/
def runMean (r : Run) : Mean := .pow (classP r.m.k.w2)

/-- c.tmred: under trap a term outside the domain traps and nothing is written. -/
def actCTmred (d a : BitVec 4) (m : BitVec 2) : WordAct := fun r s =>
  let es := (lanesIn r m).map fun i => tmEntry (runMean r) (classAct r.m.k.w2) (classRepl r.m.k.w2) (laneAt r a i).toNat
  if es.any fun e => e.2.2 then trapRun 2 0 r s
  else
    let q := es.foldl (fun q e => mergeParts false q e.1) Part.clear
    (allLanes d (partLane q) r, s)

def actCTmmrg (d a b : BitVec 4) : WordAct := pureAct fun r =>
  allLanes d (partLane (mergeParts false (partOf (laneReg r a)) (partOf (laneReg r b)))) r

def actCTmext (d a : BitVec 4) : WordAct := pureAct fun r =>
  let p := partOf (laneReg r a)
  let v := BitVec.ofNat 32 (meanExit (runMean r) p)
  allLanes d (fun i => if i = 0 then v else if i = 1 then BitVec.ofNat 32 p.n else if i = 2 then BitVec.ofNat 32 p.sk else 0) r

/-- c.ev. -/
def actCEv (a : BitVec 4) : WordAct := fun r s =>
  (r, cairnEvent r.m.k.slot r.m.k.cls 0 r.m.flow r.m.fseq.toNat r.pc ((laneAt r a 0).setWidth 64) s)

/-! ### Repeats and skips (R381, R382) -/

/-- The next word after position `pc`: at the end of a repeat's body the next pass starts, or the repeat ends. -/
def nextWordAt : Nat → List Rep → Nat × List Rep
  | pc, [] => (pc, [])
  | pc, r :: rest =>
    if pc = r.first + r.len then
      (if r.idx + 1 < r.n then (r.first, { r with idx := r.idx + 1 } :: rest) else nextWordAt pc rest)
    else (pc, r :: rest)

/-- A run moved on to a word. -/
def goTo (pc : Nat) (r : Run) : Run :=
  let (pc, reps) := nextWordAt pc r.reps
  { r with pc, reps }

/-- c.rep: the field holds n - 1. The run moves on by itself. -/
def actCRep (n : BitVec 8) (len : BitVec 11) : WordAct := pureAct fun r =>
  { r with reps := { n := n.toNat + 1, idx := 0, first := r.pc + 1, len := len.toNat } :: r.reps }

/-- c.skip and c.skip.none: `k` words are passed over. -/
def skipWords (go : Bool) (k : BitVec 11) (r : Run) : Run := if go then { r with pc := r.pc + k.toNat } else r
def actCSkip (m : BitVec 2) (k : BitVec 11) : WordAct := pureAct fun r => skipWords (decide (maskReg r m ≠ 0)) k r
def actCSkipNone (m : BitVec 2) (k : BitVec 11) : WordAct := pureAct fun r => skipWords (decide (maskReg r m = 0)) k r

/-! ### Running (R376, R377, R385) -/

/-- The run on a cairn core. -/
def runOn (s : State) (k : Fin 64) : Option Run := s.cairn.run[k]

/-- The state with the run on a core replaced. -/
def setRun (k : Fin 64) (r : Option Run) (s : State) : State := { s with cairn := { s.cairn with run := s.cairn.run.set k r } }

/-- Has a run ended: by a trap, or past its last word? -/
def runEnded (r : Run) : Bool := r.trap.isSome || decide (r.m.k.kernel.length ≤ r.pc)

/-- A word's effect on the run of core `k`, which then moves on; nothing where no run executes. -/
def cairnWord (act : WordAct) (k : Fin 64) (s : State) : State :=
  match runOn s k with
  | none => s
  | some r =>
    if runEnded r then s
    else
      let (r, s) := act r s
      setRun k (some (if r.trap.isSome then r else goTo (r.pc + 1) r)) s

/-- The issuing core's run takes the word; any other issuer leaves the state. -/
def onCairn (act : WordAct) (s : State) : State :=
  match s.issuer with
  | .cairn k => cairnWord act k s
  | _ => s

/-- A lane word by op. -/
def act3 (op : Nat) (d a b : BitVec 4) (m : BitVec 2) : WordAct :=
  match op with
  | 0 => actCAdd d a b m
  | 1 => actCSub d a b m
  | 2 => actCMul d a b m
  | 3 => actCAnd d a b m
  | 4 => actCOr d a b m
  | 5 => actCXor d a b m
  | 6 => actCShl d a b m
  | 7 => actCShr d a b m
  | 8 => actCSra d a b m
  | 9 => actCMin d a b m
  | 10 => actCMax d a b m
  | 11 => actCMinu d a b m
  | 12 => actCMaxu d a b m
  | 13 => actCFadd d a b m
  | 14 => actCFsub d a b m
  | 15 => actCFmul d a b m
  | 16 => actCFmin d a b m
  | 17 => actCFmax d a b m
  | _ => pureAct id

/-- An immediate form by op. -/
def actI (op : Nat) (d a : BitVec 4) (m : BitVec 2) (imm : BitVec 11) : WordAct :=
  match op with
  | 0 => actCAddI d a m imm
  | 1 => actCSubI d a m imm
  | 2 => actCMulI d a m imm
  | 3 => actCAndI d a m imm
  | 4 => actCOrI d a m imm
  | 5 => actCXorI d a m imm
  | 6 => actCShlI d a m imm
  | 7 => actCShrI d a m imm
  | 8 => actCSraI d a m imm
  | 9 => actCMinI d a m imm
  | 10 => actCMaxI d a m imm
  | 11 => actCMinuI d a m imm
  | 12 => actCMaxuI d a m imm
  | _ => pureAct id

/-- A compare by op. -/
def actCmp (op : Nat) (d : BitVec 2) (a b : BitVec 4) (m : BitVec 2) : WordAct :=
  match op with
  | 18 => actCCmpEq d a b m
  | 19 => actCCmpNe d a b m
  | 20 => actCCmpLt d a b m
  | 21 => actCCmpLe d a b m
  | 22 => actCCmpLtu d a b m
  | 23 => actCCmpLeu d a b m
  | 24 => actCCmpFlt d a b m
  | 25 => actCCmpFle d a b m
  | _ => pureAct id

/-- A compare with an immediate by op. -/
def actCmpI (op : Nat) (d : BitVec 2) (a : BitVec 4) (m : BitVec 2) (imm : BitVec 11) : WordAct :=
  match op with
  | 18 => actCCmpEqI d a m imm
  | 19 => actCCmpNeI d a m imm
  | 20 => actCCmpLtI d a m imm
  | 21 => actCCmpLeI d a m imm
  | 22 => actCCmpLtuI d a m imm
  | 23 => actCCmpLeuI d a m imm
  | _ => pureAct id

/-- The effect of the word with given fields (R378, R379). The loader lets no other word into a kernel store. -/
def cairnAct (x : CairnFld) : WordAct :=
  let md : BitVec 2 := x.d.extractLsb' 0 2
  let ma : BitVec 2 := x.a.extractLsb' 0 2
  let mb : BitVec 2 := x.b.extractLsb' 0 2
  let op := x.op.toNat
  if op ≤ 0x0C then (if x.i then actI op x.d x.a x.m x.imm else act3 op x.d x.a x.b x.m)
  else if op ≤ 0x11 then act3 op x.d x.a x.b x.m
  else if op ≤ 0x19 then (if x.i then actCmpI op md x.a x.m x.imm else actCmp op md x.a x.b x.m)
  else
    match op with
    | 0x1A => actCSel x.d x.a x.b x.m
    | 0x1B =>
      match x.imm.toNat with
      | 0 => actCMand md ma mb
      | 1 => actCMor md ma mb
      | 2 => actCMxor md ma mb
      | _ => actCMnot md ma
    | 0x1C => actCLi x.d (x.b ++ x.m ++ x.imm)
    | 0x1D => actCLhi x.d (x.b.extractLsb' 0 2 ++ x.m ++ x.imm)
    | 0x1E => actCLidx x.d
    | 0x1F => actCBcast x.d x.a (x.imm.extractLsb' 0 4)
    | 0x20 => actCRot x.d x.a (x.imm.extractLsb' 0 4)
    | 0x21 => actCRadd x.d x.a x.m
    | 0x22 => actCRmax x.d x.a x.m
    | 0x23 => actCFld x.d x.m (x.imm.extractLsb' 0 6)
    | 0x24 => actCFst x.a x.m (x.imm.extractLsb' 0 6)
    | 0x25 => actCSld x.d x.m (x.imm.extractLsb' 0 6) (x.imm.extractLsb' 6 5)
    | 0x26 => actCSst x.a x.m (x.imm.extractLsb' 0 6) (x.imm.extractLsb' 6 5)
    | 0x27 => actCTmred x.d x.a x.m
    | 0x28 => actCTmmrg x.d x.a x.b
    | 0x29 => actCTmext x.d x.a
    | 0x2A => actCRep (x.a ++ x.b) x.imm
    | 0x2B => if x.i then actCSkipNone x.m x.imm else actCSkip x.m x.imm
    | 0x2C => actCRidx x.d (x.imm.extractLsb' 0 1)
    | 0x2D => actCDrop
    | 0x2E => actCEv x.a
    | _ => pureAct id

/-- The next word of the run on a core executes. -/
def cairnNext (k : Fin 64) (s : State) : State :=
  match runOn s k with
  | none => s
  | some r => cairnWord (cairnAct (unpackCairn (r.m.k.kernel.getD r.pc 0))) k s

/-- Up to `n` words of the run on a core execute. -/
def cairnWords (k : Fin 64) : Nat → State → State
  | 0, s => s
  | n + 1, s =>
    match runOn s k with
    | none => s
    | some r => if runEnded r then s else cairnWords k n (cairnNext k s)

/-- The payload of a window. -/
def windowPayload (w : Vector W32 64) : BitVec 1920 :=
  BitVec.ofNat 1920 (packNat 32 ((w.toList.drop 4).map fun x => x.toNat))

/-- The flit as a run forwards it (R377, R385): as W holds it, as it arrived, or with every payload byte zero. -/
def runFlit (r : Run) : Flit :=
  let fl := r.m.flit
  let dropped := { fl with payload := 0 }
  let kept := if r.drop then dropped else { fl with payload := windowPayload r.w }
  match r.trap with
  | none => kept
  | some _ => if classTpol r.m.k.w0 = 0 then fl else if classTpol r.m.k.w0 = 1 then kept else dropped

/-- A run that has ended leaves its core: counters, the flit, which goes on unless its collective has been aborted, the reply that waited
for the run, and the writes of slot registers that did (R372, R373). -/
def endRun (k : Fin 64) (s : State) : State :=
  match runOn s k with
  | none => s
  | some r =>
    if runEnded r then
      let s := setRun k none s
      let s := s.modClass r.m.k.slot r.m.k.cls fun x =>
        { x with runs := x.runs + 1, traps := if r.trap.isSome then satInc x.traps else x.traps }
      settleSlots (replyColl r.m.coll (if r.m.dead then s else passFlit r.m.egress (runFlit r) s))
    else s

/-- The next matched flit of a core starts its run. -/
def beginRun (k : Fin 64) (s : State) : State :=
  match runOn s k, s.cairn.queue[k] with
  | none, m :: rest => setRun k (some (startRun m)) { s with cairn := { s.cairn with queue := s.cairn.queue.set k rest } }
  | _, _ => s

/-- CAIRN_RUN (R376, R377): the run on the core, or its next matched flit's, goes to its end. A run has at most BUDGET
words. -/
def cairnRunAll (k : Fin 64) (s : State) : State := endRun k (cairnWords k 4096 (beginRun k s))

/-! ### The loader's checks (R381-R383) -/

/-- Is a word legal by its fields: no reserved op, no nonzero unused field, no operand outside its limit (R378, R383)? -/
def cairnLegal (x : CairnFld) : Bool :=
  let z4 (v : BitVec 4) : Bool := decide (v = 0)
  let z2 (v : BitVec 4) : Bool := decide (v.toNat < 4)
  let m0 := decide (x.m = 0)
  let i0 := !x.i
  let imm := x.imm.toNat
  let op := x.op.toNat
  if op ≤ 0x0C then (if x.i then z4 x.b else decide (imm = 0))
  else if op ≤ 0x11 then i0 && decide (imm = 0)
  else if op ≤ 0x17 then z2 x.d && (if x.i then z4 x.b else decide (imm = 0))
  else if op ≤ 0x19 then i0 && z2 x.d && decide (imm = 0)
  else
    match op with
    | 0x1A => i0 && decide (imm = 0)
    | 0x1B => i0 && z2 x.d && z2 x.a && z2 x.b && m0 && decide (imm < 4) && (decide (imm < 3) || z4 x.b)
    | 0x1C => i0 && z4 x.a
    | 0x1D => i0 && z4 x.a && z2 x.b
    | 0x1E => i0 && z4 x.a && z4 x.b && m0 && decide (imm = 0)
    | 0x1F | 0x20 => i0 && z4 x.b && m0 && decide (imm < 16)
    | 0x21 | 0x22 | 0x27 => i0 && z4 x.b && decide (imm = 0)
    | 0x23 => i0 && z4 x.a && z4 x.b && decide (imm % 4 = 0) && decide (imm ≤ 48)
    | 0x24 => i0 && z4 x.d && z4 x.b && decide (imm % 4 = 0) && decide (imm ≤ 48)
    | 0x25 => i0 && z4 x.a && z4 x.b
    | 0x26 => i0 && z4 x.d && z4 x.b
    | 0x28 => i0 && m0 && decide (imm = 0)
    | 0x29 => i0 && z4 x.b && m0 && decide (imm = 0)
    | 0x2A => i0 && z4 x.d && m0 && decide (1 ≤ imm)
    | 0x2B => z4 x.d && z4 x.a && z4 x.b && decide (1 ≤ imm)
    | 0x2C => i0 && z4 x.a && z4 x.b && m0 && decide (imm < 2)
    | 0x2D => i0 && z4 x.d && z4 x.a && z4 x.b && m0 && decide (imm = 0)
    | 0x2E => i0 && z4 x.d && z4 x.b && m0 && decide (imm = 0)
    | _ => false

/-- The cost of a word in col cycles (R378). -/
def cairnCost (x : CairnFld) : Nat :=
  match x.op.toNat with
  | 0x02 | 0x0D | 0x0E | 0x0F | 0x21 | 0x22 | 0x28 => 2
  | 0x25 | 0x26 => 4
  | 0x27 | 0x29 => 8
  | _ => 1

/-- The bodies of the repeats of a kernel: first word, word past the end, and passes. -/
def repBodies (ks : List CairnFld) : List (Nat × Nat × Nat) :=
  (ks.mapIdx fun i x => (i, x)).filterMap fun (i, x) =>
    if x.op = 0x2A then some (i + 1, i + 1 + x.imm.toNat, (x.a ++ x.b).toNat + 1) else none

/-- The bodies that a word lies in. -/
def bodiesOf (bs : List (Nat × Nat × Nat)) (i : Nat) : List (Nat × Nat × Nat) :=
  bs.filter fun b => decide (b.1 ≤ i) && decide (i < b.2.1)

/-- The end of the innermost body of a word, or the kernel's. -/
def innerEnd (bs : List (Nat × Nat × Nat)) (n i : Nat) : Nat :=
  ((bodiesOf bs i).map fun b => b.2.1).foldl min n

/-- The rules of repeats and skips for word `i` (R381, R382). -/
def cairnPlaced (bs : List (Nat × Nat × Nat)) (n i : Nat) (x : CairnFld) : Bool :=
  let fin := i + 1 + x.imm.toNat
  decide ((bodiesOf bs i).length ≤ 2)
    && (decide (x.op ≠ 0x2A) || decide (fin ≤ innerEnd bs n i))
    && (decide (x.op ≠ 0x2B)
      || (decide (fin ≤ innerEnd bs n i) && bs.all fun b =>
        (decide (b.1 ≤ i) && decide (i < b.2.1)) || decide (b.2.1 ≤ i + 1) || decide (fin ≤ b.1)
          || (decide (i + 1 ≤ b.1) && decide (b.2.1 ≤ fin))))

/-- Wmax (R383). -/
def cairnWmax (ks : List CairnFld) : Nat :=
  let bs := repBodies ks
  6 + (ks.mapIdx fun i x => cairnCost x * volume ((bodiesOf bs i).map fun b => b.2.2)).sum

/-- The loader's checks of a kernel (R383). -/
def kernelOk (budget : Nat) (ks : List CairnFld) : Bool :=
  let bs := repBodies ks
  (ks.mapIdx fun i x => cairnLegal x && cairnPlaced bs ks.length i x).all id && decide (cairnWmax ks ≤ budget)

/-- The loader's checks of a class table against a slot's registers (R383). -/
def classesOk (part : W64) (cs : List (W64 × W64 × W64)) (kernel : List W32) : Bool :=
  let vs := cs.filter fun c => classValid c.1
  (vs.all fun (w0, _, w2) =>
    decide (classTpol w0 ≠ 3) && decide (classAct w2 ≠ 3) && decide (-64 ≤ classP w2) && decide (classP w2 ≤ 64)
      && decide (classKlen w0 ≤ 4096) && decide (classKstart w0 + classKlen w0 ≤ partKsize part)
      && decide (64 * classCbase w2 + classNflow w0 * classRecb w0 ≤ 4096 * partPsize part)
      && kernelOk (classBudget w0) (((kernel.drop (classKstart w0)).take (classKlen w0)).map unpackCairn)
      && decide (((kernel.drop (classKstart w0)).take (classKlen w0)).length = classKlen w0))
    && (vs.mapIdx fun i c => (vs.drop (i + 1)).all fun d =>
      !rangesMeet (64 * classCbase c.2.2) (classNflow c.1 * classRecb c.1) (64 * classCbase d.2.2) (classNflow d.1 * classRecb d.1)).all id

/-- The fields of a class descriptor's words (R374): reserved bits read as zero. -/
def classFields (w : W64 × W64 × W64) : W64 × W64 × W64 := (w.1 &&& ~~~0xFF, w.2.1, w.2.2 &&& ~~~0x1F)

/-- A job's class table and kernels copied into its slot (R372): the words go to every core of the slot, as far as the slot's
region and the store hold them. -/
def loadCairn (j : Fin 16) (job : Nat) (cs : List (W64 × W64 × W64)) (kernel : List W32) (s : State) : State :=
  let x := cairnSlot s j
  let s := s.modCairn j fun x => { x with
    job := some job
    world := (jobById s job).elim 0 fun y => y.plane.world
    classes := x.classes.mapIdx fun i k =>
      let w := classFields (cs.getD i (0, 0, 0))
      { k with w0 := w.1, w1 := w.2.1, w2 := w.2.2 } }
  let words := kernel.take (min (partKsize x.part) (16384 - partKbase x.part))
  let store := s.cairn.store.mapIdx fun i st => if x.mask.getLsbD i then sputs 0 st (partKbase x.part) words else st
  { s with cairn := { s.cairn with store } }

end Sys2Proof.Machine
end

