-- ==== Sys2Proof/Machine/Crypto.lean ====
section
/-! DEFINITION. SHA-256 (FIPS 180-4), AES-256 (FIPS 197) and the AES key wrap of NIST SP 800-38F, which R418 and R426
name. -/

namespace Sys2Proof.Machine

/-! ### SHA-256 -/

/-- The integer square or cube root. -/
def rootFrom (k : Nat) : Nat → Nat → Nat → Nat
  | 0, _, r => r
  | n + 1, x, r =>
    let r' := r + 2 ^ n
    rootFrom k n x (if r' ^ k ≤ x then r' else r)

/-- The primes that give the constants. -/
def shaPrimes : List Nat :=
  [2, 3, 5, 7, 11, 13, 17, 19, 23, 29, 31, 37, 41, 43, 47, 53, 59, 61, 67, 71, 73, 79, 83, 89, 97, 101, 103, 107, 109, 113, 127,
    131] ++
  [137, 139, 149, 151, 157, 163, 167, 173, 179, 181, 191, 193, 197, 199, 211, 223, 227, 229, 233, 239, 241, 251, 257, 263, 269,
    271, 277, 281, 283, 293, 307, 311]

/-- The round constants: the first 32 fraction bits of the cube roots. -/
def shaK : List W32 := shaPrimes.map fun p => BitVec.ofNat 32 (rootFrom 3 36 (p * 2 ^ 96) 0)

/-- The initial value: the first 32 fraction bits of the square roots of the first eight primes. -/
def shaInit : List W32 := (shaPrimes.take 8).map fun p => BitVec.ofNat 32 (rootFrom 2 37 (p * 2 ^ 64) 0)

/-- A big-endian 32-bit word. -/
def beWord (l : List Byte) : W32 := (l.take 4).foldl (fun x (b : Byte) => (x <<< 8) ||| b.setWidth 32) 0

/-- A 32-bit word's bytes, most significant first. -/
def beBytes (x : W32) : List Byte := [x.extractLsb' 24 8, x.extractLsb' 16 8, x.extractLsb' 8 8, x.extractLsb' 0 8]

/-- The message schedule, extended by `n` words; the list holds the words so far, the latest first. -/
def shaSchedule : Nat → List W32 → List W32
  | 0, w => w
  | n + 1, w =>
    let a := w.getD 1 0
    let b := w.getD 14 0
    let s0 := b.rotateRight 7 ^^^ b.rotateRight 18 ^^^ (b >>> 3)
    let s1 := a.rotateRight 17 ^^^ a.rotateRight 19 ^^^ (a >>> 10)
    shaSchedule n ((w.getD 15 0 + s0 + w.getD 6 0 + s1) :: w)

/-- One round. -/
def shaRound (v : List W32) (kw : W32 × W32) : List W32 :=
  match v with
  | [a, b, c, d, e, f, g, h] =>
    let s1 := e.rotateRight 6 ^^^ e.rotateRight 11 ^^^ e.rotateRight 25
    let ch := (e &&& f) ^^^ (~~~e &&& g)
    let t1 := h + s1 + ch + kw.1 + kw.2
    let s0 := a.rotateRight 2 ^^^ a.rotateRight 13 ^^^ a.rotateRight 22
    let maj := (a &&& b) ^^^ (a &&& c) ^^^ (b &&& c)
    [t1 + s0 + maj, a, b, c, d + t1, e, f, g]
  | _ => v

/-- One block of 64 bytes. -/
def shaBlock (h : List W32) (b : List Byte) : List W32 :=
  let w0 := (List.range 16).map fun i => beWord (b.drop (4 * i))
  let w := (shaSchedule 48 w0.reverse).reverse
  let v := (shaK.zip w).foldl shaRound h
  (h.zip v).map fun (x, y) => x + y

/-- Blocks of a padded message. -/
def shaBlocks : Nat → List Byte → List W32 → List W32
  | 0, _, h => h
  | n + 1, l, h => shaBlocks n (l.drop 64) (shaBlock h (l.take 64))

/-- SHA-256 of a message, as 32 bytes. -/
def sha256 (l : List Byte) : List Byte :=
  let n := l.length
  let pad := (119 - n % 64) % 64
  let m := l ++ [0x80] ++ List.replicate pad 0 ++ (bytesOfNat 8 (8 * n)).reverse
  (shaBlocks (m.length / 64) m shaInit).flatMap beBytes

/-! ### AES-256 -/

/-- Multiplication by x in GF(2^8). -/
def xtime (b : Byte) : Byte := (b <<< 1) ^^^ (if b.getLsbD 7 then 0x1B else 0)

/-- Multiplication in GF(2^8), by the low `n` bits of `b`. -/
def gmul : Nat → Byte → Byte → Byte
  | 0, _, _ => 0
  | n + 1, a, b => (if b.getLsbD 0 then a else 0) ^^^ gmul n (xtime a) (b >>> 1)

/-- The power a^(2^n - 1) times what has been gathered: squarings for the inverse a^254. -/
def gpow : Nat → Byte → Byte → Byte
  | 0, _, acc => acc
  | n + 1, a, acc =>
    let a2 := gmul 8 a a
    gpow n a2 (gmul 8 acc a2)

/-- The S-box: the inverse, then the affine map. -/
def sbox (b : Byte) : Byte :=
  let i := gpow 7 b 1
  i ^^^ i.rotateLeft 1 ^^^ i.rotateLeft 2 ^^^ i.rotateLeft 3 ^^^ i.rotateLeft 4 ^^^ 0x63

/-- The inverse S-box. -/
def invSbox (b : Byte) : Byte :=
  let x := b.rotateLeft 1 ^^^ b.rotateLeft 3 ^^^ b.rotateLeft 6 ^^^ 0x05
  gpow 7 x 1

/-- Bytes combined one by one. -/
def xorBytes (a b : List Byte) : List Byte := (a.zip b).map fun (x, y) => x ^^^ y

/-- The key schedule: 60 words of four bytes; the list holds the words so far, the latest first. -/
def aesSchedule : Nat → Byte → List (List Byte) → List (List Byte)
  | 0, _, ws => ws
  | n + 1, rcon, ws =>
    let i := ws.length
    let t := ws.headD []
    let sub := t.map sbox
    let (t, rcon) :=
      if i % 8 = 0 then ((sub.drop 1 ++ sub.take 1).mapIdx fun j x => if j = 0 then x ^^^ rcon else x, xtime rcon)
      else if i % 8 = 4 then (sub, rcon) else (t, rcon)
    aesSchedule n rcon (xorBytes (ws.getD 7 []) t :: ws)

/-- The 15 round keys of a 32-byte key. -/
def aesKeys (key : List Byte) : List (List Byte) :=
  let w0 := (List.range 8).map fun i => (key.drop (4 * i)).take 4
  let ws := (aesSchedule 52 1 w0.reverse).reverse
  (List.range 15).map fun r => ((ws.drop (4 * r)).take 4).flatten

/-- ShiftRows with a step of `k` columns per row, on a state in column order. -/
def shiftRows (k : Nat) (s : List Byte) : List Byte :=
  (List.range 16).map fun i => s.getD ((i + 4 * k * (i % 4)) % 16) 0

/-- A column multiplied by the circulant of four coefficients. -/
def mixColumn (m : List Byte) (c : List Byte) : List Byte :=
  (List.range 4).map fun i => (List.range 4).foldl (fun x j => x ^^^ gmul 8 (c.getD j 0) (m.getD ((4 + j - i) % 4) 0)) 0

/-- MixColumns and its inverse by their coefficients. -/
def mixColumns (m : List Byte) (s : List Byte) : List Byte :=
  (List.range 4).flatMap fun c => mixColumn m ((s.drop (4 * c)).take 4)

/-- AES-256 on one block of 16 bytes. -/
def aesEncrypt (key : List Byte) (b : List Byte) : List Byte :=
  let ks := aesKeys key
  let s := xorBytes b (ks.headD [])
  let s := ((ks.drop 1).take 13).foldl (fun s k => xorBytes (mixColumns [2, 3, 1, 1] (shiftRows 1 (s.map sbox))) k) s
  xorBytes (shiftRows 1 (s.map sbox)) (ks.getD 14 [])

/-- The inverse of AES-256 on one block. -/
def aesDecrypt (key : List Byte) (b : List Byte) : List Byte :=
  let ks := aesKeys key
  let s := (shiftRows 3 (xorBytes b (ks.getD 14 []))).map invSbox
  let s := ((ks.drop 1).take 13).reverse.foldl (fun s k => (shiftRows 3 (mixColumns [14, 11, 13, 9] (xorBytes s k))).map invSbox) s
  xorBytes s (ks.headD [])

/-! ### Key wrap (SP 800-38F, KW) -/

/-- A big-endian step number of 8 bytes. -/
def kwCount (t : Nat) : List Byte := (bytesOfNat 8 t).reverse

/-- One pass of the wrap over the semiblocks, from step `t`. -/
def kwPass (key : List Byte) : Nat → List Byte → List (List Byte) → List Byte × List (List Byte)
  | _, a, [] => (a, [])
  | t, a, r :: rs =>
    let b := aesEncrypt key (a ++ r)
    let (a', rs') := kwPass key (t + 1) (xorBytes (b.take 8) (kwCount t)) rs
    (a', b.drop 8 :: rs')

/-- One pass of the unwrap, from the last semiblock (first in the list) down. -/
def kwUnpass (key : List Byte) : Nat → List Byte → List (List Byte) → List Byte × List (List Byte)
  | _, a, [] => (a, [])
  | t, a, r :: rs =>
    let b := aesDecrypt key (xorBytes a (kwCount t) ++ r)
    let (a', rs') := kwUnpass key (t - 1) (b.take 8) rs
    (a', b.drop 8 :: rs')

/-- Semiblocks of 8 bytes. -/
def semiblocks (l : List Byte) : List (List Byte) := (List.range (l.length / 8)).map fun i => (l.drop (8 * i)).take 8

/-- The default initial value. -/
def kwIv : List Byte := List.replicate 8 0xA6

/-- Key wrap of whole semiblocks under a 32-byte key. -/
def kwWrap (key l : List Byte) : List Byte :=
  let n := l.length / 8
  let (a, rs) := (List.range 6).foldl (fun (acc : List Byte × List (List Byte)) j => kwPass key (n * j + 1) acc.1 acc.2)
    (kwIv, semiblocks l)
  a ++ rs.flatten

/-- Key unwrap: none when the initial value does not come out. -/
def kwUnwrap (key l : List Byte) : Option (List Byte) :=
  let n := l.length / 8 - 1
  let (a, rs) := (List.range 6).foldl (fun (acc : List Byte × List (List Byte)) j => kwUnpass key (n * (6 - j)) acc.1 acc.2)
    (l.take 8, (semiblocks (l.drop 8)).reverse)
  if a = kwIv then some rs.reverse.flatten else none

end Sys2Proof.Machine
end

