-- ==== Sys2Proof/Machine/Rope.lean ====
section
/-! DEFINITION. The rope ports and the Ethernet transport: flits on a link, replay, ports down, what becomes of a flit that
arrives, datagrams and flow control (R345, R346, R364-R368). -/

namespace Sys2Proof.Machine

/-! ### Ports (R346, R365) -/

/-- A flit on a link (R346): 16 bytes of header, of which the last four are the CRC-32 over the rest, and 240 bytes of payload. The
order of the header's fields is log 14's. -/
def linkFlit (h p : List Byte) : List Byte := h ++ bytesOfNat 4 (crc32 (h ++ p)).toNat ++ p

/-- The flits of encoded bytes: the sequence number, the flow and the message length, and up to 240 bytes each. -/
def portFlits (flow : List Byte) (len : Nat) : BitVec 24 → Nat → List Byte → List (List Byte)
  | _, 0, _ => []
  | seq, n + 1, l =>
    if l.isEmpty then []
    else
      let p := l.take 240
      linkFlit (bytesOfNat 3 seq.toNat ++ flow ++ bytesOfNat 2 len ++ [0]) (p ++ List.replicate (240 - p.length) 0)
        :: portFlits flow len (seq + 1) n (l.drop 240)

/-- A flit of a link with another sequence number. -/
def stampFlit (seq : BitVec 24) (f : List Byte) : List Byte :=
  linkFlit (bytesOfNat 3 seq.toNat ++ (f.drop 3).take 9) (f.drop 16)

/-- Flits put on a port: kept in its replay buffer of 256. -/
def queueFlits (fs : List (List Byte)) (x : Port) : Port :=
  { x with
    txSeq := x.txSeq + BitVec.ofNat 24 fs.length, outq := x.outq ++ fs
    sent := (x.sent ++ fs).drop ((x.sent ++ fs).length - 256) }

/-- The flow of a flit: its collective's group and sequence number. -/
def flowOf (fl : Flit) : List Byte := bytesOfNat 2 fl.cgrp.toNat ++ bytesOfNat 4 fl.collSeq.toNat

/-- ROPE_EGRESS_BLOCK (R361-R363): the block encoded, counted and sent in flits. It is the message that waits first on the port, or
other traffic of 512 bytes. -/
def egressBlock (p : Fin 24) (b : BitVec 4096) (s : State) : State :=
  s.modPort p fun x =>
    if !x.up then x
    else
      let raw := bytesOfNat 512 b.toNat
      let msg := x.wait.head?.filter fun fl => decide (messageBlocks (flitBytes fl) = [raw])
      let enc := screeEncode x.mode.toNat raw
      let fs := match msg with
        | some fl => portFlits (flowOf fl) (flitBytes fl).length x.txSeq 3 enc
        | none => portFlits (List.replicate 6 0) 512 x.txSeq 3 enc
      let x := queueFlits fs { x with rawBytes := x.rawBytes + 512, encBytes := x.encBytes + enc.length }
      if msg.isSome then { x with wait := x.wait.drop 1 } else x

/-- Does a collective of the unit use a direction (R352)? -/
def usesDirection (k : Coll) (d : Nat) : Bool := (collDesc k).axes.any fun a => (axisDirections a).contains d

/-- The traffic of a port that has gone down, as the port stood: striped over the direction's other ports, under their sequence
numbers (R345, R346); with none left the direction is lost (R357). -/
def moveTraffic (p : Fin 24) (x : Port) (s : State) : State :=
  let d := p.val / 4
  match upPorts s d with
  | [] => cutRunning (fun k => usesDirection k d) s
  | r =>
    let s := (x.outq.mapIdx fun i f => (r.getD (i % r.length) p, f)).foldl (fun s f =>
      s.modPort f.1 fun y => queueFlits [stampFlit y.txSeq f.2] y) s
    x.wait.foldl (fun s fl => sendRope d fl s) s

/-- PORT_DOWN (R346, R357): the port's traffic moves. -/
def takePortDown (p : Fin 24) (s : State) : State := moveTraffic p s.fabric.ports[p] (portDown p s)

/-- The traffic of the ports that a change has taken down moves. -/
def settlePorts (old s : State) : State :=
  ((List.finRange 24).filter fun p => old.fabric.ports[p].up && !s.fabric.ports[p].up).foldl (fun s p =>
    moveTraffic p old.fabric.ports[p] s) s

/-- The flits of the replay buffer from a sequence number on, if it is there. -/
def replayFrom (seq : BitVec 24) : List (List Byte) → Option (List (List Byte))
  | [] => none
  | f :: r => if natOfBytes (f.take 3) = seq.toNat then some (f :: r) else replayFrom seq r

/-- FLIT_REPLAY_REQUEST (R346): the flits from the named one on go again in order; a flit that 16 replays have not
delivered takes the port down. -/
def replayRequest (p : Fin 24) (seq : BitVec 24) (s : State) : State :=
  let x := s.fabric.ports[p]
  match replayFrom seq x.sent with
  | none => s
  | some fs =>
    let tries := if x.asked = seq then x.tries else 0
    if 16 ≤ tries then takePortDown p s
    else s.modPort p fun x => { x with outq := fs, asked := seq, tries := tries + 1 }

/-- ROPEERR_READ (R365): the counters are cleared. -/
def readRopeErr (p : Fin 24) (s : State) : State := s.modPort p fun x => { x with flitcrc := 0, replay := 0, screecrc := 0 }

/-! ### What becomes of a flit (R346, R352, R357, R369) -/

/-- Where an accepted flit goes: on toward its place; to the collective unit; or, data of a running collective, to its classes or the
unit. What belongs to a run that an abort has ended, or to a collective that this rank has not announced, is discarded (R368).
None while the run that it belongs to has not started here: the flit waits on the link (log 14). -/
def routeFlit (fl : Flit) (s : State) : Option State :=
  let run := runNo s fl.cgrp fl.collSeq
  if hopFrom s.fabric.place fl.dest ≠ .here then some (sendFlit fl s)
  else if fl.ctl && decide (fl.off = 0) then some (deliver fl s)
  else if fl.run < run || !s.fabric.told.contains (fl.cgrp, fl.collSeq) then some s
  else if run < fl.run then none
  else if fl.ctl then some (deliver fl s)
  else (runningOf s fl).map fun k => matchFlit deliver k false fl.pos fl s

/-- A counter with `n` added, saturating. -/
def satAdd {w : Nat} (n : Nat) (x : BitVec w) : BitVec w := BitVec.ofNat w (min (2 ^ w - 1) (x.toNat + n))

/-- The error of a link that a replay corrects (R433, R436): which lane shows it is open (log 3). -/
def detectRope (p : Fin 24) (s : State) : State :=
  detectLane 6 p.val ((Config.freeWord s.free).toNat % ropeLanes) { s with free := s.free + 1 }

/-- A flit that fails its check, or in which `n` blocks do: counted, and asked for again (R346, R364). -/
def badFlit (n : Nat) (p : Fin 24) (s : State) : State :=
  detectRope p (s.modPort p fun x => { x with
    flitcrc := satAdd (max 1 n) x.flitcrc, replay := satInc x.replay, wantReplay := some x.rxSeq, screecrc := satAdd n x.screecrc })

/-- FLIT_RECEIVE (R346, R364): the CRC, then the sequence number, then the blocks whose headers it carries. -/
def receiveFlit (p : Fin 24) (fl : Flit) (s : State) : State :=
  let x := s.fabric.ports[p]
  if !x.up then s
  else if !fl.crcOk then badFlit 0 p s
  else if fl.seq ≠ x.rxSeq then s
  else if failedBlocks fl ≠ 0 then badFlit (failedBlocks fl) p s
  else
    match routeFlit (openedFlit fl) s with
    | some s => s.modPort p fun x => { x with rxSeq := x.rxSeq + 1, wantReplay := none }
    | none => s

/-! ### Ethernet (R366, R367) -/

/-- A datagram's CE mark counted (R366). -/
def countCe (fl : Flit) (s : State) : State :=
  if fl.ce then { s with fabric := { s.fabric with marked := s.fabric.marked + 1 } } else s

/-- ETH_DATAGRAM_RECEIVE (R366): a message of a valid peer in sequence is taken; any other is lost, and comes again by the
sender's retry. What a peer sends also answers what it has been sent (log 14). -/
def receiveDatagram (p : Fin 4) (src : Fin 16) (fl : Flit) (s : State) : State :=
  let x := s.fabric.peers[src]
  if !powered s || !x.valid || decide (x.port.toNat ≠ p.val) || !fl.crcOk then s
  else
    let s := countCe fl s
    if decide (fl.seq ≠ x.rxSeq) || decide (failedBlocks fl ≠ 0) then s
    else
      match routeFlit (openedFlit fl) s with
      | some s => s.modPeer src fun x => { x with rxSeq := x.rxSeq + 1, unacked := [], lost := false }
      | none => s

/-- ETH_RETRY_TIMEOUT (R366): every unanswered message goes again, once its port is not paused. -/
def retryPeer (j : Fin 16) (s : State) : State :=
  s.modPeer j fun x => if peerPaused s x then { x with wait := x.unacked } else { x with sent := x.sent ++ x.unacked }

/-- PEER_LOSS_TIMEOUT (R367): a peer that has not answered what it was sent counts as a lost direction. -/
def losePeer (j : Fin 16) (s : State) : State :=
  if s.fabric.peers[j].unacked.isEmpty then s
  else cutRunning (reachesPeer s j.val) (s.modPeer j fun x => { x with lost := true })

/-- The messages that a pause has held go once it ends. -/
def flushPeer (s : State) (x : Peer) : Peer := if peerPaused s x then x else { x with sent := x.sent ++ x.wait, wait := [] }

/-- PRIORITY_FLOW_CONTROL (R366). -/
def flowControl (p : Fin 4) (prio : Fin 8) (pause : Bool) (s : State) : State :=
  let rest := s.fabric.paused.filter fun x => decide (x ≠ (p, prio))
  let s := { s with fabric := { s.fabric with paused := if pause then (p, prio) :: rest else rest } }
  { s with fabric := { s.fabric with peers := s.fabric.peers.map (flushPeer s) } }

end Sys2Proof.Machine
end

