-- ==== Sys2Proof/Machine/Camp.lean ====
section
/-! DEFINITION. Base camp (R399-R413): slots and notifies, the lottery, placement, planes, launches, swaps, replays,
completion, and the suspension and return of teams. -/

namespace Sys2Proof.Machine

/-! ### Slots (R399-R401) -/

/-- A slot of base camp. -/
def campSlot (s : State) (i : Fin 256) : Slot := s.camp.slots[i]

/-- The state with a slot changed. -/
def State.modSlot (s : State) (i : Fin 256) (f : Slot → Slot) : State :=
  { s with camp := { s.camp with slots := s.camp.slots.set i (f (campSlot s i)) } }

/-- The queue's address. -/
def slotQueue (x : Slot) : Nat := bitsN x.qbase.toNat 12 40 * 4096

/-- May base camp reach the queue: does it lie in HBM or in the host window (R399)? -/
def queueReachable (x : Slot) : Bool :=
  let q := slotQueue x
  let n := 128 + 128 * 2 ^ x.qlog.toNat
  inHbm q n || (inHost q && inHost (q + n - 1))

/-- Words of memory that base camp reads and writes, as world 0 memory (log 15). -/
def campWord (s : State) (a n : Nat) : Nat := natOfBytes (deviceBytes s 0 a n)
def campPut (a n v : Nat) (s : State) : State := devicePut 0 a (bytesOfNat n v) s

/-- The notify shadow of a queue written (R401). -/
def putShadow (q : Option Nat) (x : W32) (s : State) : State :=
  match q with
  | some q => campPut q 4 x.toNat s
  | none => s

/-- NOTIFY (R401): captured while the slot is mapped, else written to the notify shadow of the queue last held. -/
def notifySlot (v : Fin 128) (i : Fin 256) (x : W32) (s : State) : State :=
  let y := campSlot s i
  if y.vf.toNat ≠ v.val then s
  else if y.mapped then s.modSlot i fun y => { y with tail := x }
  else putShadow y.lastQ x s

/-- SLOTCFG_WRITE (R400, R401): setting MAPPED reads the queue's head and shadow; clearing it ends the slot's hold, and puts
the captured tail into the shadow, so that a remap of the queue finds it (log 41). -/
def writeSlotcfg (i : Fin 256) (v : W64) (s : State) : State :=
  let y := campSlot s i
  let map := v.getLsbD 63
  let qlog := bitsN v.toNat 40 5
  let s := s.modSlot i fun y => { y with
    mapped := map, priv := v.getLsbD 62, vf := v.extractLsb' 55 7, band := v.extractLsb' 53 2, tickets := v.extractLsb' 45 8
    qlog := if 4 ≤ qlog ∧ qlog ≤ 16 then BitVec.ofNat 5 qlog else y.qlog }
  if map && !y.mapped then
    let q := slotQueue y
    s.modSlot i fun y => { y with
      head := BitVec.ofNat 32 (campWord s (q + 8) 4), tail := BitVec.ofNat 32 (campWord s q 4), lastQ := some q }
  else if !map && y.mapped then
    putShadow (some (slotQueue y)) y.tail (s.modSlot i fun z => { z with lastQ := some (slotQueue y) })
  else s

/-- The jobs of a slot. -/
def slotJobs (s : State) (i : Fin 256) : List Job := s.jobs.filter fun j => decide (j.slot = i)

/-- SLOTCTL.KILL, RESUME and PREEMPT (R400). -/
def slotKill (i : Fin 256) (s : State) : State :=
  ((slotJobs s i).filter Job.resident).foldl (fun s j => killJob j.id s) s
def slotResume (i : Fin 256) (s : State) : State :=
  ((slotJobs s i).filter fun j => !j.resident).foldl (fun s j => s.modJob j.id fun j => { j with eligible := true }) s
def slotPreempt (i : Fin 256) (s : State) : State :=
  ((slotJobs s i).filter Job.resident).foldl (fun s j => requestPreempt j.lead s) s

/-! ### Entries (R405) -/

/-- The address of entry `n` of the ring of the queue at `q` (R399). -/
def ringAddr (q n : Nat) : Nat := q + 128 + 128 * n

/-- The address of entry `n` of a slot's ring (R399). -/
def entryAddr (x : Slot) (n : Nat) : Nat := ringAddr (slotQueue x) (n % 2 ^ x.qlog.toNat)

/-- Fields of an entry. -/
def entKind (s : State) (a : Nat) : Nat := campWord s a 1
def entReinst (s : State) (a : Nat) : Bool := decide (bitsN (campWord s a 2) 8 1 = 1)
def entTag (s : State) (a : Nat) : BitVec 16 := BitVec.ofNat 16 (campWord s (a + 2) 2)
def entWaitc (s : State) (a : Nat) : Nat := campWord s (a + 4) 2
def entPlane (s : State) (a : Nat) : Nat := bitsN (campWord s (a + 8) 8) 7 45 * 128
def entEvq (s : State) (a : Nat) : Nat := bitsN (campWord s (a + 16) 8) 5 47 * 32
def entEvlog (s : State) (a : Nat) : Nat := campWord s (a + 24) 1 % 32
def entSucc (s : State) (a : Nat) : List (BitVec 16) := (List.range 4).map fun i => BitVec.ofNat 16 (campWord s (a + 32 + 2 * i) 2)
def entPatch (s : State) (a : Nat) : List Nat := (List.range 8).map fun i => campWord s (a + 40 + 2 * i) 2
def entGraph (s : State) (a : Nat) : Nat := bitsN (campWord s (a + 56) 8) 7 45 * 128
def entNnode (s : State) (a : Nat) : Nat := campWord s (a + 64) 2
def entLog (s : State) (a : Nat) : Nat := bitsN (campWord s (a + 72) 8) 6 46 * 64
def entLoglog (s : State) (a : Nat) : Nat := campWord s (a + 80) 1 % 32

/-- The dependence count left of the head entry (R409). -/
def headCount (s : State) (x : Slot) : Nat :=
  entWaitc s (entryAddr x x.head.toNat) - (assocGet (entryAddr x x.head.toNat) s.camp.dep).getD 0

/-! ### Planes (R407) -/

/-- A word of a plane image. -/
def wordOf (l : List Byte) (off : Nat) : W64 := bvOfBytes 64 ((l.drop off).take 8)

/-- Words from an offset of an image. -/
def wordsOf (n : Nat) (l : List Byte) (off : Nat) : Vector W64 n := Vector.ofFn fun i => wordOf l (off + 8 * i.val)

/-- A bin descriptor from its 32 bytes (R293). -/
def binOf (l : List Byte) : Bin :=
  let w1 := wordOf l 8
  let w2 := wordOf l 16
  { base := wordOf l 24, rowb := w2.extractLsb' 48 16, cap := w2.extractLsb' 35 13, fill := w2.extractLsb' 22 13
    rule := w2.extractLsb' 20 2, spill := w2.extractLsb' 18 2, dropped := w1.extractLsb' 32 32, deferred := w1.extractLsb' 0 32 }

/-- A table slot of a plane: an all-zero image is empty. -/
def tabOf (l : List Byte) (n : Nat) : List Byte :=
  let t := (l.drop (0x700 + 2112 * (n - 1))).take 2096
  if n = 0 ∨ t.all fun b => decide (b = 0) then [] else t

/-- The bits of an image's words that their registers have (R125, R183, R296, R347): the others read as zero (R9). -/
def xlateMask : W64 := 0xFFFF_FFFF_FFFF_0000
def tbaseMask : W64 := 0x000F_FFFF_FFE0_0000
def ctxbaseMask : W64 := 0x000F_FFFF_FFC0_0000
def tvecMask : W64 := 0x000F_FFFF_FFFF_FFC0
def collidMask : W64 := 0xFFFF_0000_0F00_0773
def spcfgMask : W64 := 0xFFFF_FFFF_FFFE_0000
def formatMask : W64 := 0x3_FEFF
def class0Mask : W64 := 0xFFFF_FFFF_FFFF_FF00
def class2Mask : W64 := 0xFFFF_FFFF_FFFF_FFE0

/-- The plane that an image holds. -/
def planeOf (l : List Byte) : Plane :=
  let w := wordOf l 0
  { world := w.extractLsb' 0 4, strict := w.getLsbD 4, priv := w.getLsbD 5, dual := w.getLsbD 6, drainlim := w.extractLsb' 32 32
    starts := Vector.ofFn fun i => (wordOf l (0x40 + 8 * i.val)).toNat
    looptab := Vector.ofFn fun i => bvOfBytes 16 ((l.drop (0x70 + 2 * i.val)).take 2)
    xlate := wordOf l 0x78 &&& xlateMask, tbase := wordOf l 0x80 &&& tbaseMask, ctxbase := wordOf l 0x88 &&& ctxbaseMask
    tvec := wordOf l 0x90 &&& tvecMask
    uiAddr := wordOf l 0x98
    collid := wordOf l 0xA0 &&& collidMask, spcfg := (wordsOf 4 l 0xA8).map (· &&& spcfgMask), ft := (wordsOf 16 l 0x100).map (· &&& formatMask)
    bins := Vector.ofFn fun i => binOf (l.drop (0x180 + 32 * i.val))
    s := wordsOf 32 l 0x380, a := wordsOf 32 l 0x480
    cairn := (List.range 8).map fun i =>
      (wordOf l (0x600 + 32 * i) &&& class0Mask, wordOf l (0x608 + 32 * i), wordOf l (0x610 + 32 * i) &&& class2Mask)
    tabs := Vector.ofFn fun i => tabOf l i.val
    kernel := (List.range 4096).map fun i => bvOfBytes 32 ((l.drop (0x4100 + 4 * i)).take 4) }

/-- The bytes of a plane image. -/
def planeBytes (s : State) (a : Nat) : List Byte := deviceBytes s 0 a 33024

/-- A plane with the patch map applied from a bank; s0 takes no patch (R407). -/
def patchPlane (bank : Vector W64 64) (ps : List Nat) (p : Plane) : Plane :=
  ps.foldl (fun p x =>
    let code := bitsN x 6 8
    let v := vget bank (x % 64) 0
    if x = 0 then p
    else
      match regClass code with
      | some .s => if code = 0 then p else { p with s := vset p.s code v }
      | some .a => { p with a := vset p.a (code - 0x20) v }
      | _ => p) p

/-! ### Loop tables and placement (R21-R23, R407) -/

def ltKind (x : BitVec 16) : Nat := bitsN x.toNat 8 2
def ltExt (x : BitVec 16) : Nat := bitsN x.toNat 0 8 + 1

/-- The extent over a spatial kind; 1 when there is none. -/
def spatialExt (t : Vector (BitVec 16) 4) (kind : Nat) : Nat :=
  match t.toList.find? fun x => decide (ltKind x = kind) with
  | some x => ltExt x
  | none => 1

/-- Validity of a loop table (R22): levels over faces, then over cores, then temporal, then unused ones. -/
def looptabOk (t : Vector (BitVec 16) 4) : Bool :=
  let rank (x : BitVec 16) : Nat := match ltKind x with
    | 3 => 0 | 2 => 1 | 1 => 2 | _ => 3
  let ks := t.toList.map rank
  (ks.zip (ks.drop 1)).all (fun p => decide (p.1 ≤ p.2))
    && decide ((ks.filter fun k => decide (k = 0)).length ≤ 1) && decide ((ks.filter fun k => decide (k = 1)).length ≤ 1)
    && decide (spatialExt t 3 ≤ 4) && decide (spatialExt t 2 ≤ 32)

/-- Is a scrub of the core recorded: BLOCK (R394)? -/
def coreBlocked (s : State) (c : CoreId) : Bool :=
  s.scrub.list.any fun x => decide (x.kind = 0) && decide (x.a.toNat % 128 = c.val)

/-- Is a core free for a plane of a world (R394, R407, R439)? -/
def coreFree (s : State) (w : World) (c : CoreId) : Bool :=
  (s.core c).job.isNone && decide (s.scrub.cworld[c] = w) && !coreBlocked s c && !coreDisabled s c

/-- The free cores of a cluster. -/
def freeIn (s : State) (w : World) (k : Nat) : List CoreId := ((List.range 4).map fun i => coreOf (4 * k + i)).filter (coreFree s w)

/-- Groups of a face placed in turn on its lowest clusters with enough free cores that no other group has. -/
def placeGroups (s : State) (w : World) (face : Nat) : List Nat → List Nat → Option (List CoreId)
  | [], _ => some []
  | n :: r, used =>
    match (List.range 8).find? fun k => !used.contains k && decide (n ≤ (freeIn s w (8 * face + k)).length) with
    | none => none
    | some k => (placeGroups s w face r (k :: used)).map fun l => (freeIn s w (8 * face + k)).take n ++ l

/-- The groups of four of an extent over cores. -/
def coreGroups (c : Nat) : List Nat := (List.range ((c + 3) / 4)).map fun j => min 4 (c - 4 * j)

/-- Faces in ascending number until `f` are placed. -/
def placeFaces (s : State) (w : World) (c : Nat) : List Nat → Nat → Option (List CoreId)
  | _, 0 => some []
  | [], _ + 1 => none
  | face :: r, n + 1 =>
    match placeGroups s w face (coreGroups c) [] with
    | some l => (placeFaces s w c r n).map fun m => l ++ m
    | none => placeFaces s w c r (n + 1)

/-- The team's cores (R407); none while no set of free cores satisfies the loop table. -/
def placeTeam (s : State) (p : Plane) : Option (List CoreId) :=
  placeFaces s p.world (spatialExt p.looptab 2) (List.range 4) (spatialExt p.looptab 3)

/-! ### Refusals (R406) -/

/-- Is a plane's cairn table unfit for the switch (R372, R383)? -/
def cairnRefused (s : State) (p : Plane) : Bool :=
  if p.cairn.any fun c => classValid c.1 then
    match slotOfGroup s (cgrpOf p.collid) with
    | none => true
    | some j =>
      decide (cgrpOf p.collid = 0) || decide ((cairnSlot s j).mask = 0) || !classesOk (cairnSlot s j).part p.cairn p.kernel
  else false

/-- Does a job already running, other than the job `but`, carry the plane's group (R347)? -/
def groupTaken (s : State) (but : Option Nat) (p : Plane) : Bool :=
  decide (cgrpOf p.collid ≠ 0) && s.jobs.any fun j =>
    j.resident && decide (some j.id ≠ but) && decide (cgrpOf j.plane.collid = cgrpOf p.collid)

/-- Is no core of the package assigned to a plane's world (R394, R406)? A plane whose world has cores waits for free ones
(R407). -/
def worldless (s : State) (p : Plane) : Bool := s.scrub.cworld.toList.all fun w => decide (w ≠ p.world)

/-- What is wrong with a plane whatever cores it finds: its stream starts, tables, cairn plane or group. -/
def planeBad (s : State) (but : Option Nat) (p : Plane) : Bool :=
  p.starts.toList.any (fun a => decide (a % 64 ≠ 0)) || p.tabs.toList.any (fun t => !t.isEmpty && !tabVerified t)
    || cairnRefused s p || groupTaken s but p

/-- The STATUS with which a plane is refused; 0 when it is not. -/
def planeRefusal (s : State) (priv : Bool) (p : Plane) : Nat :=
  if p.priv && !priv then 3
  else if !looptabOk p.looptab || worldless s p || planeBad s none p then 2
  else 0

/-- Can base camp reach a range (R179)? -/
def campReach (a n : Nat) : Bool := inHbm a n || (inHost a && inHost (a + n - 1))

/-- Is a launch or swap entry itself invalid (R405)? -/
def entryInvalid (s : State) (a : Nat) : Bool :=
  let l := entEvlog s a
  decide (l < 4) || decide (16 < l) || !campReach (entPlane s a) 33024 || !campReach (entEvq s a) (32 * 2 ^ l)

/-- Is a replay entry invalid (R405, R410)? -/
def replayInvalid (s : State) (a : Nat) : Bool :=
  let n := entNnode s a
  decide (n = 0) || decide (4096 < n) || !campReach (entGraph s a) (128 * n)

/-! ### Candidates (R402, R410) -/

/-- What a slot's head offers: a suspended team, a swap left as a launch, a replay's node, or the ring's head entry. -/
inductive Candidate where
  | team (job : Nat)
  | late
  | node (replay node : Nat)
  | entry
deriving DecidableEq, Repr

/-- The lowest undispatched node of a replay whose count is zero. -/
def readyNode (r : Replay) : Option Nat :=
  (List.range r.counts.length).find? fun i => decide (r.counts.getD i 1 = 0) && !(r.sent.getD i true)

/-- The plane of an entry, patched from a bank. -/
def entryPlane (s : State) (bank : Vector W64 64) (a : Nat) : Plane := patchPlane bank (entPatch s a) (planeOf (planeBytes s (entPlane s a)))

/-- Is an entry of KIND 1 ready: refused at once, or placed? -/
def launchReady (s : State) (x : Slot) (bank : Vector W64 64) (a : Nat) : Bool :=
  entryInvalid s a || (let p := entryPlane s bank a
                       decide (planeRefusal s x.priv p ≠ 0) || (placeTeam s p).isSome)

/-- The swap that a slot's job has left as a launch (R408). -/
def lateEntry (s : State) (i : Fin 256) : Option Entry := (s.camp.late.find? fun p => decide (p.1 = i)).map Prod.snd

/-- Is it ready: refused at once, or placed? -/
def lateReady (s : State) (i : Fin 256) : Bool :=
  match lateEntry s i with
  | some e => decide (planeRefusal s (campSlot s i).priv e.plane ≠ 0) || (placeTeam s e.plane).isSome
  | none => false

/-- May a suspended team return, and where (R134, R171)? -/
def teamPlace (s : State) (j : Job) : Option (List CoreId) :=
  match placeTeam s j.plane with
  | some l => if (l.zip j.saved).all (fun (c, sv) => slotsFit s c sv) then some l else none
  | none => none

/-- What a slot offers now, if anything is ready (R402). -/
def slotOffer (s : State) (i : Fin 256) : Option Candidate :=
  let x := campSlot s i
  if !x.mapped || s.camp.channels.any (fun c => decide (c.slot = i)) then none
  else
    match (slotJobs s i).find? fun j => j.eligible && (teamPlace s j).isSome with
    | some j => some (.team j.id)
    | none =>
      if lateReady s i then some .late
      else match s.camp.replays.find? fun r => decide (r.slot = i) && r.sent.any fun b => !b with
      | some r =>
        match readyNode r with
        | some n => if launchReady s x r.bank (r.graph + 128 * n) then some (.node r.id n) else none
        | none => none
      | none =>
        if x.head = x.tail || decide (headCount s x ≠ 0) then none
        else
          let a := entryAddr x x.head.toNat
          if entKind s a ≠ 1 || launchReady s x x.open_ a then some .entry else none

/-- The ready slots in ascending order, with what they offer. -/
def readySlots (s : State) : List (Fin 256 × Candidate) :=
  (List.finRange 256).filterMap fun i => (slotOffer s i).map fun c => (i, c)

/-! ### The lottery (R402, R403) -/

/-- One step of the generator. -/
def seedStep (x : W32) : W32 :=
  let x := x ^^^ (x <<< 13)
  let x := x ^^^ (x >>> 17)
  x ^^^ (x <<< 5)

/-- The slot whose running sum of tickets first exceeds `d`. -/
def drawSlot (s : State) (d : Nat) : Nat → List (Fin 256 × Candidate) → Option (Fin 256 × Candidate)
  | _, [] => none
  | sum, p :: r =>
    let sum := sum + (campSlot s p.1).tickets.toNat
    if d < sum then some p else drawSlot s d sum r

/-- The ages after a decision that band `b` wins. -/
def nextAges (ready : Nat → Bool) (b : Nat) (v : Vector Nat 4) : Vector Nat 4 :=
  Vector.ofFn fun i => if i.val = b then 0 else if ready i.val then v[i] + 1 else 0

/-- The channel of a slot's winning candidate, with the entry as the slot stands at the decision: QLOG, like BAND and TICKETS,
takes effect there (R400), and an unmap later leaves the dispatch as it is (R414). -/
def channelOf (x : Slot) (i : Fin 256) (c : Candidate) : Channel :=
  { slot := i
    node := match c with
      | .node r n => some (r, n)
      | _ => none
    resume := match c with
      | .team j => some j
      | _ => none
    late := decide (c = .late), queue := slotQueue x, head := x.head, index := x.head.toNat % 2 ^ x.qlog.toNat
    addr := entryAddr x x.head.toNat }

/-- LOTTERY_DECISION (R402): one decision, when base camp dispatches, a channel is free and a slot is ready. -/
def lotteryStep (s : State) : State :=
  let rs := readySlots s
  if !s.camp.ready || s.camp.stopped || decide (4 ≤ s.camp.channels.length) || rs.isEmpty then s
  else
    let x := seedStep s.camp.seed
    let inBand (b : Nat) : List (Fin 256 × Candidate) := rs.filter fun p => decide ((campSlot s p.1).band.toNat = b)
    let aged := (List.range 4).find? fun b => decide (1024 ≤ vget s.camp.ages b 0) && !(inBand b).isEmpty
    let b := (aged.or ((List.range 4).find? fun b => !(inBand b).isEmpty)).getD 0
    let l := inBand b
    let t := (l.map fun p => (campSlot s p.1).tickets.toNat).sum
    let win := if t = 0 then l.head? else drawSlot s (x.toNat % t) 0 l
    match win with
    | none => s
    | some (i, c) =>
      { s with camp := { s.camp with
          seed := x, channels := s.camp.channels ++ [channelOf (campSlot s i) i c], ages := nextAges (fun b => !(inBand b).isEmpty) b s.camp.ages } }

/-- The channel that a slot has taken. -/
def slotChannel (s : State) (i : Fin 256) : Option Channel := s.camp.channels.find? fun c => decide (c.slot = i)

/-- The state with a slot's channel free. -/
def freeChannel (i : Fin 256) (s : State) : State :=
  { s with camp := { s.camp with channels := s.camp.channels.filter fun c => decide (c.slot ≠ i) } }

/-! ### Dependences and records (R406, R409, R410) -/

/-- The completion record of an entry. -/
def putCompletion (a status : Nat) (tag : BitVec 16) (tick : Nat) (s : State) : State :=
  campPut (a + 112) 16 (status % 256 + 2 ^ 8 + 2 ^ 16 * tag.toNat + 2 ^ 64 * (tick % 2 ^ 64)) s

/-- The address of entry `x` of the ring that holds entry `index` at `addr` (R399, R409). -/
def ringMate (addr index x : Nat) : Nat := addr - 128 * index + 128 * x

/-- One more completion noted against the dependence count of the entry at an address. -/
def lowerCount (a : Nat) (s : State) : State :=
  { s with camp := { s.camp with dep := assocPut a ((assocGet a s.camp.dep).getD 0 + 1) s.camp.dep } }

/-- Successors in the ring of entry `index` at `addr` released. -/
def releaseRing (addr index : Nat) (succ : List (BitVec 16)) (s : State) : State :=
  (succ.filter fun x => decide (x ≠ 0xFFFF)).foldl (fun s x => lowerCount (ringMate addr index x.toNat) s) s

/-- The state with a replay changed. -/
def State.modReplay (s : State) (id : Nat) (f : Replay → Replay) : State :=
  { s with camp := { s.camp with replays := s.camp.replays.map fun r => if r.id = id then f r else r } }

/-- A replay whose every node is done completes (R410). -/
def endReplay (id : Nat) (s : State) : State :=
  match s.camp.replays.find? fun r => decide (r.id = id) with
  | none => s
  | some r =>
    if r.done.all fun b => b then
      let s := { s with camp := { s.camp with replays := s.camp.replays.filter fun y => decide (y.id ≠ id) } }
      releaseRing r.entry r.index r.succ (putCompletion r.entry (if r.killed then 1 else 0) r.tag 0 s)
    else s

/-- A node of a replay done: its successors' counts go down (R409, R410). -/
def endNode (rid n : Nat) (killed : Bool) (succ : List (BitVec 16)) (s : State) : State :=
  let s := s.modReplay rid fun r => { r with
    done := r.done.set n true, killed := r.killed || killed
    counts := (succ.filter fun x => decide (x ≠ 0xFFFF)).foldl (fun l x => l.set x.toNat (l.getD x.toNat 0 - 1)) r.counts }
  endReplay rid s

/-- An entry or node that has ended with a STATUS: its record, and its successors (R406, R409). A node's record goes
nowhere: the node array is only read. -/
def endEntry (replay : Option Nat) (addr index status tick : Nat) (tag : BitVec 16) (succ : List (BitVec 16)) (s : State) : State :=
  match replay with
  | some r => endNode r index (decide (status = 1)) succ s
  | none => releaseRing addr index succ (putCompletion addr status tag tick s)

/-- The entry that a channel holds consumed: the slot's head moves on if the slot still holds the entry's queue, and the queue's
header says so (R399, R414). -/
def consumeHead (ch : Channel) (s : State) : State :=
  let s := s.modSlot ch.slot fun y => { y with head := if slotQueue y = ch.queue then ch.head + 1 else y.head }
  let s := { s with camp := { s.camp with dep := s.camp.dep.filter fun p => decide (p.1 ≠ ch.addr) } }
  campPut (ch.queue + 8) 4 (ch.head + 1).toNat s

/-- A winning entry consumed: the ring's head, the node marked dispatched, or the left swap taken; the channel is free. -/
def consume (ch : Channel) (s : State) : State :=
  let s := match ch.node with
    | some (r, n) => s.modReplay r fun y => { y with sent := y.sent.set n true }
    | none =>
      if ch.late then { s with camp := { s.camp with late := dropFirst (fun p => decide (p.1 = ch.slot)) s.camp.late } }
      else consumeHead ch s
  freeChannel ch.slot s

/-! ### Loading a team (R407) -/

/-- TEAMPOS of a position (R25). -/
def teamposOf (f c i : Nat) : W64 := BitVec.ofNat 64 (2 ^ 16 * (i / c % 256) + 2 ^ 8 * (i % c) + (f * c - 1) % 256)

/-- A stream at its start, or absent (R17). -/
def startStream (a : Nat) : Stream := if a = 0 then Stream.absent else { Stream.absent with present := true, start := a, pos := Pos.start a }

/-- What a plane's flip loads into a core (R407, R408). -/
def flipPlane (p : Plane) (x : Core) : Core :=
  { x with
    streams := p.starts.map startStream
    scal := { x.scal with s := p.s, a := p.a }
    sf := { x.sf with spcfg := p.spcfg, b := p.bins, tab := p.tabs, laid := Vector.replicate 16 none }
    ap := { x.ap with uiAddr := p.uiAddr.extractLsb' 6 58 }
    csr := { x.csr with priv := p.priv, strict := p.strict, dual := p.dual, drainlim := p.drainlim, looptab := p.looptab,
                        xlate := p.xlate, tbase := p.tbase, ctxbase := p.ctxbase, tvec := p.tvec, collid := p.collid, ft := p.ft } }

/-- A core given to a job at a team position. -/
def loadCore (p : Plane) (job : Nat) (i : Nat) (x : Core) : Core :=
  let f := spatialExt p.looptab 3
  let c := spatialExt p.looptab 2
  let x := flipPlane p (dropJob x)
  { x with job := some job, aligned := false, tickHold := 0, csr := { x.csr with teampos := teamposOf f c i, preq := false } }

/-- A privileged plane measured at its first launch, by the hash of its image (R426). -/
def measurePlane (e : Entry) (s : State) : State :=
  let h := natOfBytes e.hash
  if e.plane.priv && !s.camp.measured.contains h then
    let m := bytesOfNat 32 (vget s.tether.meas 6 0).toNat
    { s with
      camp := { s.camp with measured := h :: s.camp.measured }
      tether := { s.tether with meas := vset s.tether.meas 6 (bvOfBytes 256 (sha256 (m ++ e.hash))) } }
  else s

/-- The cairn table of a job's plane in the slot that serves its group (R372); where the package stands in the torus is what COLLID
says there (R347, log 13). -/
def loadTable (id : Nat) (p : Plane) (s : State) : State :=
  if cgrpOf p.collid = 0 then s
  else
    let s := { s with fabric := { s.fabric with place := placeBits p.collid } }
    match slotOfGroup s (cgrpOf p.collid) with
    | some k => loadCairn k id p.cairn p.kernel s
    | none => s

/-- A job created on its cores (R407, R409): the planes loaded, the cairn table in its slot, and the APs' acquire. -/
def startJob (i : Fin 256) (replay : Option Nat) (e : Entry) (team : List CoreId) (s : State) : State :=
  let id := s.camp.nextJob
  let j : Job :=
    { id, slot := i, entry := e.addr, index := e.index, replay, plane := e.plane, team, phase := .loaded, rdvs := 0
      evq := e.evq, evlog := e.evlog, evn := 0, tag := e.tag, succ := e.succ, swap := none, saved := [], maxTick := 0
      eligible := false, atFlip := false, save := false }
  let s := { s with jobs := s.jobs ++ [j], camp := { s.camp with nextJob := id + 1 } }
  let s := (team.mapIdx fun n c => (n, c)).foldl (fun s p => s.modCore p.2 (loadCore e.plane id p.1)) s
  let s := team.foldl (fun s c => acquireAp c s) s
  measurePlane e (loadTable id e.plane s)

/-- An entry as it is bound at dispatch. -/
def entryOf (s : State) (bank : Vector W64 64) (a index : Nat) : Entry :=
  let img := planeBytes s (entPlane s a)
  let plane := patchPlane bank (entPatch s a) (planeOf img)
  { addr := a, index, tag := entTag s a, succ := entSucc s a, evq := entEvq s a, evlog := entEvlog s a, plane
    hash := if plane.priv then sha256 img else [] }

/-- A launch entry or node carried out (R406, R407). -/
def launchEntry (ch : Channel) (bank : Vector W64 64) (a index : Nat) (s : State) : State :=
  let replay := ch.node.map Prod.fst
  let x := campSlot s ch.slot
  let e := entryOf s bank a index
  let refuse (status : Nat) : State := endEntry replay a index status 0 e.tag e.succ (consume ch s)
  if entKind s a ≠ 1 || entryInvalid s a then refuse 5
  else
    let r := planeRefusal s x.priv e.plane
    if r ≠ 0 then refuse r
    else
      match placeTeam s e.plane with
      | none => s
      | some team => startJob ch.slot replay e team (consume ch s)

/-- A swap that its job's end has left as a launch, carried out as an ordinary launch on free cores (R408). -/
def launchLate (ch : Channel) (e : Entry) (s : State) : State :=
  let r := planeRefusal s (campSlot s ch.slot).priv e.plane
  if r ≠ 0 then endEntry none e.addr e.index r 0 e.tag e.succ (consume ch s)
  else
    match placeTeam s e.plane with
    | none => s
    | some team => startJob ch.slot none e team (consume ch s)

/-- LAUNCH (R407): the winning launch entry or node of a slot, or its left swap. A package that sleeps starts no job
(R429). -/
def launchSlot (i : Fin 256) (s : State) : State :=
  match slotChannel s i with
  | none => s
  | some ch =>
    if s.camp.stopped || ch.resume.isSome then s
    else match ch.node with
      | some (r, n) =>
        match s.camp.replays.find? fun y => decide (y.id = r) with
        | some y => launchEntry ch y.bank (y.graph + 128 * n) n s
        | none => freeChannel i s
      | none =>
        if ch.late then
          (match lateEntry s i with
           | some e => launchLate ch e s
           | none => freeChannel i s)
        else if entKind s ch.addr = 2 ∨ entKind s ch.addr = 3 then s
        else launchEntry ch (campSlot s i).open_ ch.addr ch.index s

/-- The state with a swap left as a launch of its slot (R408). -/
def leaveLate (i : Fin 256) (e : Entry) (s : State) : State := { s with camp := { s.camp with late := s.camp.late ++ [(i, e)] } }

/-- Does the channel hold an entry of the ring? -/
def Channel.ring (ch : Channel) : Bool := ch.node.isNone && ch.resume.isNone && !ch.late

/-- Has the job of the launch entry at an address ended: does the entry's record say DONE (R406)? -/
def entryDone (s : State) (a : Nat) : Bool := decide (campWord s (a + 113) 1 % 2 = 1)

/-- SWAP_ENTRY (R408). A swap whose job has ended is left as a launch. -/
def swapSlot (i : Fin 256) (s : State) : State :=
  match slotChannel s i with
  | none => s
  | some ch =>
    let x := campSlot s i
    let a := ch.addr
    if s.camp.stopped || !ch.ring || entKind s a ≠ 2 then s
    else
      let e0 := entryOf s x.open_ a ch.index
      let of_ := (e0.succ.headD 0xFFFF).toNat
      let e := { e0 with succ := e0.succ.drop 1 }
      let refuse (status : Nat) : State := endEntry none a ch.index status 0 e.tag e.succ (consume ch s)
      let mine (j : Job) : Bool := j.resident && j.replay.isNone && decide (j.entry = ringMate a ch.index of_)
      if entryInvalid s a || decide (of_ = 0xFFFF) then refuse 5
      else if e.plane.priv && !x.priv then refuse 3
      else match (slotJobs s i).find? mine with
        | none => if entryDone s (ringMate a ch.index of_) then leaveLate i e (consume ch s) else refuse 5
        | some j =>
          if e.plane.world ≠ j.plane.world || decide (e.plane.looptab ≠ j.plane.looptab) || planeBad s (some j.id) e.plane then
            refuse 2
          else (consume ch s).modJob j.id fun j => { j with swap := some e }

/-- The bank of a composition record. -/
def bankAt (s : State) (a : Nat) : Vector W64 64 := Vector.ofFn fun i => BitVec.ofNat 64 (campWord s (a + 64 + 8 * i.val) 8)

/-- A composition record (R412). -/
def putComposition (a count : Nat) (tag : BitVec 16) (bank : Vector W64 64) (s : State) : State :=
  devicePut 0 a (bytesOfNat 8 count ++ bytesOfNat 8 tag.toNat ++ List.replicate 48 0 ++ bank.toList.flatMap fun v => bytesOfNat 8 v.toNat) s

/-- REPLAY (R410-R412): the bank is bound, copied and replaced in one step; the composition record is written, unless the
bank itself comes from one. -/
def replaySlot (i : Fin 256) (s : State) : State :=
  match slotChannel s i with
  | none => s
  | some ch =>
    let x := campSlot s i
    let a := ch.addr
    if s.camp.stopped || !ch.ring || entKind s a ≠ 3 then s
    else
      let n := ch.index
      let tag := entTag s a
      let succ := entSucc s a
      if replayInvalid s a then endEntry none a n 5 0 tag succ (consume ch s)
      else
        let reinst := entReinst s a
        let bank := if reinst then bankAt s (entLog s a) else x.open_
        let nodes := entNnode s a
        let graph := entGraph s a
        let r : Replay :=
          { id := s.nextId, slot := i, entry := a, index := n, graph, bank, killed := false, tag, succ
            counts := (List.range nodes).map fun k => entWaitc s (graph + 128 * k)
            sent := List.replicate nodes false, done := List.replicate nodes false }
        let s := if reinst then s
          else putComposition (entLog s a + 576 * (x.replays % 2 ^ entLoglog s a)) x.replays tag bank s
        let s := s.modSlot i fun y => { y with replays := y.replays + 1, other := if reinst then y.other else y.open_ }
        let s := { s with nextId := s.nextId + 1, camp := { s.camp with replays := s.camp.replays ++ [r] } }
        consume ch s

/-! ### Completion (R409) -/

/-- Have all streams of a job ended, and all commands of its team completed? -/
def jobEnded (s : State) (j : Job) : Bool :=
  decide (j.phase = .running)
    && ((members s j).all fun m => ((s.core m.1).stream m.2).ended)
    && (j.team.all fun c => (s.core c).cmds.isEmpty && (s.core c).running.isEmpty)

/-- A core that its job has completed on: what its last words still write lands when it is due. -/
def endCore (x : Core) : Core := { freeCore x with latches := x.latches, ops := x.ops, transits := x.transits, busy := x.busy }

/-- The job's cores freed. -/
def freeTeam (j : Job) (s : State) : State :=
  j.team.foldl (fun s c => s.modCore c fun x => if x.job = some j.id then endCore x else x) s

/-- The job gone from the package. -/
def dropJobRecord (id : Nat) (s : State) : State :=
  { s with
    jobs := s.jobs.filter fun j => decide (j.id ≠ id)
    cairn := { s.cairn with slots := s.cairn.slots.map fun x => if x.job = some id then { x with job := none } else x } }

/-- JOB_COMPLETE (R409): the accesses of the team's APs perform, which a store that must wait before egress holds up; the record is written, successors are released, and the
cores are free. A killed job completes with STATUS 0x01. A swap that no flip has taken becomes a launch (R408). -/
def completeJob (id : Nat) (s : State) : State :=
  match jobById s id with
  | none => s
  | some j =>
    let killed := decide (j.phase = .killed)
    let s := if !killed && jobEnded s j then drainTeam j s else s
    if killed || (jobEnded s j && j.team.all (storesDone s)) then
      let s := if killed then s else j.team.foldl (fun s c => settleAp c s) s
      let s := endEntry j.replay j.entry j.index (if killed then 1 else 0) j.maxTick j.tag j.succ s
      let s := dropJobRecord id (freeTeam j s)
      match j.swap with
      | some e => leaveLate j.slot e s
      | none => s
    else s

/-- The running job of a team completes at the flip to its swapped-in plane (R408), its APs' accesses performed (R409): the new job
takes its cores. -/
def swapJobs (j : Job) (e : Entry) (s : State) : State :=
  let s := j.team.foldl (fun s c => settleAp c s) s
  let s := endEntry j.replay j.entry j.index 0 j.maxTick j.tag j.succ s
  let id := s.camp.nextJob
  let new : Job :=
    { j with id, entry := e.addr, index := e.index, replay := none, plane := e.plane, phase := .loaded, rdvs := 0
             evq := e.evq, evlog := e.evlog, evn := 0, tag := e.tag, succ := e.succ, swap := none, saved := [], maxTick := 0
             eligible := false, atFlip := true, save := false }
  let s := { dropJobRecord j.id s with jobs := (dropJobRecord j.id s).jobs ++ [new], camp := { s.camp with nextJob := id + 1 } }
  let s := j.team.foldl (fun s c => s.modCore c fun x => { flipPlane e.plane x with job := some id, aligned := false }) s
  let s := j.team.foldl (fun s c => acquireAp c s) s
  measurePlane e (loadTable id e.plane s)

/-! ### Return of a team (R134, R199) -/

/-- A saved command translated again by its AP; a LEAD command names no memory. -/
def retranslate (c : CoreId) (k : Command) (s : State) : Except WalkFault (Command × State) :=
  match translateAgain c k.pieces s with
  | .error f => .error f
  | .ok (ps, s) => .ok ({ k with pieces := ps }, s)
where
  /-- Each part of a command's ranges translated again. -/
  translateAgain (c : CoreId) : List Piece → State → Except WalkFault (List Piece × State)
    | [], s => .ok ([], s)
    | p :: r, s =>
      match translateRange s c p.va p.len (if p.wr then .write else .read) with
      | .error f => .error f
      | .ok (ps, s) =>
        match translateAgain c r s with
        | .error f => .error f
        | .ok (qs, s) => .ok (ps ++ qs, s)

/-- Every saved command of a core translated again, in queue order. -/
def retranslateAll (c : CoreId) : List Command → State → Except WalkFault (List Command × State)
  | [], s => .ok ([], s)
  | k :: r, s =>
    match retranslate c k s with
    | .error f => .error f
    | .ok (k, s) =>
      match retranslateAll c r s with
      | .error f => .error f
      | .ok (l, s) => .ok (k :: l, s)

/-- The saved commands of a core made ready; a fault halts the AP with a record that names no word (R199). -/
def renewCommands (c : CoreId) (s : State) : State :=
  match retranslateAll c (s.core c).cmds s with
  | .ok (l, s) => s.modCore c fun x => { x with cmds := l, ap := { x.ap with stale := false } }
  | .error f =>
    let x : ApFault := { apWalkFault s c f f.va with addr := 0, pitch := 0, word := 0, level := 0 }
    (noteWalk f (apFault c x s)).modCore c fun x => { x with ap := { x.ap with stale := true } }

/-- TEAM_RESUME (R134): a suspended team that has won a channel is placed, restored and started. -/
def resumeTeam (id : Nat) (s : State) : State :=
  match jobById s id with
  | none => s
  | some j =>
    match slotChannel s j.slot with
    | none => s
    | some ch =>
      if s.camp.stopped || ch.resume ≠ some id then s
      else
        match teamPlace s j with
        | none => s
        | some team =>
          let s := freeChannel j.slot (restoreTeam id team s)
          team.foldl (fun s c => if (s.core c).cmds.isEmpty then s else renewCommands c s) s

/-- APRES (R194): the AP reissues its word from translation onward, or translates its saved commands again. -/
def resumeAp (c : CoreId) (s : State) : State :=
  let x := s.core c
  if x.ap.fault.isNone then s
  else
    let s := s.modCore c fun x => { x with ap := { x.ap with fault := none } }
    if x.ap.stale then renewCommands c s else s

end Sys2Proof.Machine
end

