-- ==== Sys2Proof/Machine/Trust.lean ====
section
/-! DEFINITION. Worlds, keys and the tether: scrubs and world assignment, key slots, sessions, the SPDM responder, measured
boot and deep sleep (R390-R396, R415-R432). -/

namespace Sys2Proof.Machine

/-! ### Marks and registers of the scrub engine (R391-R394) -/

/-- The ledges of a mask in ascending order. -/
def maskLedges (b : W64) : List Nat := (List.range 16).filter fun i => b.getLsbD i

/-- NR of a kind-0 scrub, and its steps per ledge (R391). -/
def scrubRows (b : W64) : Nat := bitsN b.toNat 16 10 + 1
def ledgeSteps (b : W64) : Nat := (scrubRows b + 31) / 32

/-- The steps of a scrub (R391). -/
def scrubSteps (x : Scrub) : Nat :=
  match x.kind.toNat with
  | 0 => 1 + (maskLedges x.b).length * ledgeSteps x.b
  | 1 => x.b.toNat / 4096
  | 2 => 32
  | _ => 0

/-- Is a world's key slot loaded? -/
def slotLoaded (s : State) (w : World) : Bool := (vget s.keys.slots w.toNat none).isSome

/-- WSCRUB (R394). -/
def wscrubValue (s : State) (w : World) : W64 :=
  BitVec.ofNat 64 ((vget s.scrub.active w.toNat false).toNat * 2 ^ 63 + (slotLoaded s w).toNat * 2 ^ 62
    + (vget s.scrub.total w.toNat 0).toNat * 2 ^ 28 + (vget s.scrub.done w.toNat 0).toNat)

/-- CWSTAT (R394). -/
def cwstatValue (s : State) (c : CoreId) : W64 :=
  BitVec.ofNat 64 ((coreBlocked s c).toNat * 2 ^ 63 + (s.scrub.refused[c]).toNat * 2 ^ 8 + (s.scrub.cworld[c]).toNat)

/-- CWSTAT_READ (R394): the read clears REFUSED. -/
def readCwstat (c : CoreId) (s : State) : State := { s with scrub := { s.scrub with refused := s.scrub.refused.set c false } }

/-- The first step of a kind-0 scrub (R391): the core's non-ledge state. -/
def clearNonLedge (x : Core) : Core :=
  { x with
    scal := { x.scal with s := Vector.replicate 32 0, a := Vector.replicate 32 0, sh := Vector.replicate 8 0 }
    vec := Vecs.reset
    bench := { x.bench with tiles := Bench.reset.tiles, rb := Bench.reset.rb, vt := Bench.reset.vt }
    sf := { x.sf with b := Vector.replicate 16 Bin.zero, spcfg := Vector.replicate 4 0, spcnt := Vector.replicate 4 0, laid := Vector.replicate 16 none,
                      h := Vector.replicate 256 0, rseed := Vector.replicate 16 0 }
    ap := { x.ap with geo := Vector.replicate 8 0 }
    csr := { x.csr with tmshape := 0 }
    cmds := [], running := [] }

/-- A core's translations emptied (R189). -/
def emptyTlb (x : Core) : Core := { x with ap := { x.ap with tlb := [], walks := [] } }

/-- CWREQ (R394, R415): refused while the core is blocked or holds a job; a changed world clears the non-ledge state. -/
def requestWorld (c : CoreId) (v : W64) (s : State) : State :=
  let w : World := v.extractLsb' 0 4
  if coreBlocked s c || (s.core c).job.isSome then { s with scrub := { s.scrub with refused := s.scrub.refused.set c true } }
  else if s.scrub.cworld[c] = w then s
  else
    let s := s.modCore c fun x => { emptyTlb (clearNonLedge x) with csr := { (clearNonLedge x).csr with world := w } }
    { s with scrub := { s.scrub with cworld := s.scrub.cworld.set c w } }

/-! ### Scrub words (R392, R396) -/

/-- Is an operand bit outside R391's fields set, or a range or mask unusable? -/
def scrubBad (w : World) (kind : Nat) (a b : W64) : Bool :=
  decide (w = 0) ||
    (match kind with
    | 0 => decide (128 ≤ a.toNat) || decide (2 ^ 26 ≤ b.toNat) || decide (bitsN b.toNat 0 16 = 0)
    | 1 => decide (a.toNat % 4096 ≠ 0) || decide (b.toNat % 4096 ≠ 0) || decide (b = 0) || !inHbm a.toNat b.toNat
    | _ => false)

/-- The STATUS of a scrub word of kind 0-2 that is not recorded; 0 for one that is (R392). -/
def scrubRefusal (s : State) (w : World) (kind : Nat) (a b : W64) : Nat :=
  if scrubBad w kind a b then 5
  else if slotLoaded s w then 0x10
  else if kind = 0 && (s.core (coreOf a.toNat)).job.isSome then 0x11
  else if kind = 0 && decide (s.scrub.cworld[coreOf a.toNat] ≠ w) then 0x12
  else 0

/-- A scrub recorded (R392): marks, ACTIVE and TOTAL. -/
def recordScrub (x : Scrub) (s : State) : State :=
  let i := x.world.toNat
  let act := vget s.scrub.active i false
  let total := if act then vget s.scrub.total i 0 else 0
  { s with scrub := { s.scrub with
      list := s.scrub.list ++ [x]
      active := vset s.scrub.active i true
      total := vset s.scrub.total i (total + BitVec.ofNat 28 (scrubSteps x))
      done := if act then s.scrub.done else vset s.scrub.done i 0 } }

/-- A scrub's reply: written if the issuing job still runs on the core, kept for its resume if the job is saved, otherwise
discarded (R392). -/
def replyScrub (r : ScrubReply) (status : Nat) (v : W64) (s : State) : State :=
  let y : HeldDone := { record := recordWord 0x41 status r.tag.toNat, cmd := none, d := r.d, intr := r.intr, v }
  if (s.core r.core).job = r.job then s.modCore r.core (holdDone y)
  else
    let keep (sv : SavedCore) : SavedCore := if sv.from_ = r.core then { sv with late := sv.late ++ [y] } else sv
    { s with jobs := s.jobs.map fun j => if r.job = some j.id then { j with saved := j.saved.map keep } else j }

/-! ### Scrub steps -/

/-- A 4 KiB page written with zeros under world 0's key at the HBM controller, and out of every L2 and held line. -/
def zeroPage (pa : Nat) (s : State) : State :=
  let lines := (List.range 32).map fun i => pa / 128 + i
  let drop (s : State) (line : Nat) : State :=
    (List.finRange 4).foldl (fun s f => dropHeld f line (l2Put s f line none)) s
  let s := lines.foldl drop s
  let n := keyNum s 0
  { s with mem := { s.mem with
      hbm := s.mem.hbm.filter fun p => decide (p.1 < pa) || decide (pa + 4096 ≤ p.1)
      lineKey := lines.foldl (fun m l => sput 0 m l n) s.mem.lineKey
      poison := s.mem.poison.filter fun p => decide (p.1 < pa / 64) || decide (pa / 64 + 64 ≤ p.1) } }

/-- Rows of a ledge zeroed. -/
def zeroRows (c : CoreId) (row n : Nat) (s : State) : State := s.modCore c fun x => spadPut x (128 * row) (List.replicate (128 * n) 0)

/-- Step `i` of a scrub (R391). -/
def scrubWork (x : Scrub) (i : Nat) (s : State) : State :=
  match x.kind.toNat with
  | 0 =>
    let c := coreOf x.a.toNat
    if i = 0 then s.modCore c clearNonLedge
    else
      let per := ledgeSteps x.b
      let l := (maskLedges x.b).getD ((i - 1) / per) 0
      let row := 32 * ((i - 1) % per)
      zeroRows c (1024 * l + row) (min 32 (scrubRows x.b - row)) s
  | 1 => zeroPage (x.a.toNat + 4096 * i) s
  | _ =>
    let k : ClusterId := Fin.ofNat 32 i
    let s := dropWorldLines k.face x.world s
    let empty (d : Option DressSlot) : Option DressSlot := match d with
      | some d => if d.world = x.world then none else some d
      | none => none
    s.modCluster k fun y => { y with slots := y.slots.map empty }

/-- The partitions that a world's jobs have used scrubbed (R373): no step of R391 names them, and the model zeroes them with the last
(log 13). -/
def scrubPartitions (w : World) (s : State) : State :=
  (slotNumbers.filter fun j => decide ((cairnSlot s j).world = w)).foldl (fun s j =>
    (zeroPartition j s).modCairn j fun x => { x with world := 0 }) s

/-- The end of a world's scrubs (R393): ACTIVE, then the marks, then the replies. -/
def endScrubs (w : World) (s : State) : State :=
  let s := scrubPartitions w s
  let rs := (s.scrub.list.filter fun x => decide (x.world = w)).map fun x => x.reply
  let js := (s.scrub.joins.filter fun x => decide (x.1 = w)).map Prod.snd
  let s := { s with scrub := { s.scrub with
    active := vset s.scrub.active w.toNat false
    list := s.scrub.list.filter fun x => decide (x.world ≠ w)
    joins := s.scrub.joins.filter fun x => decide (x.1 ≠ w) } }
  (rs ++ js).foldl (fun s r => replyScrub r 0 1 s) s

/-- The first unfinished scrub of a world, with one more step counted. -/
def bumpScrub (w : World) : List Scrub → List Scrub
  | [] => []
  | x :: r => if x.world = w ∧ x.steps < scrubSteps x then { x with steps := x.steps + 1 } :: r else x :: bumpScrub w r

/-- SCRUB_STEP (R392): the next step of a world's recorded scrubs. -/
def stepScrub (w : World) (s : State) : State :=
  match s.scrub.list.find? fun x => decide (x.world = w) && decide (x.steps < scrubSteps x) with
  | none => s
  | some x =>
    let s := scrubWork x x.steps s
    let i := w.toNat
    let s := { s with scrub := { s.scrub with
      list := bumpScrub w s.scrub.list, done := vset s.scrub.done i (vget s.scrub.done i 0 + 1) } }
    if vget s.scrub.done i 0 = vget s.scrub.total i 0 then endScrubs w s else s

/-! ### Key slots (R390, R417-R419) -/

/-- The world and the operation of a `keyslot`. -/
def keyWorld (k : Command) : World := BitVec.ofNat 4 (cmdImm k 20 4)
def keyOp (k : Command) : Nat := cmdImm k 16 2

/-- A slot's 96 key bytes. -/
def slotBytes (x : KeySlot) : List Byte := bytesOfNat 64 x.xts.toNat ++ bytesOfNat 32 x.ikey.toNat

/-- A slot filled: its keys join those in use. -/
def putSlot (w : World) (x : KeySlot) (s : State) : State :=
  { s with keys := useKeys w { s.keys with
      slots := vset s.keys.slots w.toNat (some x)
      zeroed := putBit s.keys.zeroed w.toNat false } }

/-- A slot emptied (R390). -/
def emptySlot (w : World) (s : State) : State :=
  { s with keys := { s.keys with slots := vset s.keys.slots w.toNat none, zeroed := putBit s.keys.zeroed w.toNat true } }

/-- Does a job of a world hold a core? -/
def worldResident (s : State) (w : World) : Bool := s.cores.toList.any fun x => x.job.isSome && decide (x.csr.world = w)

/-- The key bytes of KSLP. -/
def sleepKey (s : State) : List Byte := bytesOfNat 32 s.keys.kslp.toNat

/-- A wrapped slot written to a blob (R418, R419). -/
def writeBlob (a : Nat) (w : World) (x : KeySlot) (s : State) : State :=
  let hdr := w.toNat + (if x.prot then 2 ^ 8 else 0) + 2 ^ 9
  devicePut 0 a (bytesOfNat 8 hdr ++ kwWrap (sleepKey s) (slotBytes x)) s

/-- The slot that a blob holds under a key-encryption key: the STATUS, or the slot (R418, R419). -/
def readBlob (s : State) (a : Nat) (w : World) (sleep : Bool) (kek : Option (List Byte)) : Except Nat KeySlot :=
  let hdr := natOfBytes (deviceBytes s 0 a 8)
  if bitsN hdr 0 4 ≠ w.toNat ∨ bitsN hdr 4 4 ≠ 0 ∨ bitsN hdr 10 54 ≠ 0 ∨ decide (bitsN hdr 9 1 = 1) ≠ sleep then .error 5
  else if slotLoaded s w then .error 0x10
  else if vget s.scrub.active w.toNat false then .error 0x11
  else
    match kek with
    | none => .error 0x13
    | some key =>
      match kwUnwrap key (deviceBytes s 0 (a + 8) 104) with
      | none => .error 0x12
      | some l => .ok { xts := bvOfBytes 512 (l.take 64), ikey := bvOfBytes 256 (l.drop 64), prot := decide (bitsN hdr 8 1 = 1) }

/-- Is a blob's place unusable? -/
def blobBad (k : Command) : Bool := decide (keyWorld k = 0) || !inHbm k.a.toNat 112 || decide (k.a.toNat % 8 ≠ 0)

/-- The end of a key-slot command. -/
def keyEnd (status : Nat) : Outcome7 := ends status (if status = 0 then 1 else 0)

/-- keyslot.load and keyslot.unwrap (R419). -/
def runKeyLoad (sleep : Bool) (k : Command) (s : State) : State × Outcome7 :=
  let w := keyWorld k
  let kek := if sleep then some (sleepKey s) else (vget s.keys.kimp w.toNat none).map fun x => bytesOfNat 32 x.toNat
  if blobBad k then (s, keyEnd 5)
  else
    match readBlob s k.a.toNat w sleep kek with
    | .error e => (s, keyEnd e)
    | .ok x => (putSlot w x s, keyEnd 0)

/-- keyslot.wrap (R419). -/
def runKeyWrap (k : Command) (s : State) : State × Outcome7 :=
  match vget s.keys.slots (keyWorld k).toNat none with
  | none => (s, keyEnd 5)
  | some x => if blobBad k then (s, keyEnd 5) else (writeBlob k.a.toNat (keyWorld k) x s, keyEnd 0)

/-- keyslot.zero (R390). -/
def runKeyZero (k : Command) (s : State) : State × Outcome7 :=
  let w := keyWorld k
  if w = 0 then (s, keyEnd 5)
  else if worldResident s w then (s, keyEnd 0x11)
  else (emptySlot w s, keyEnd 0)

/-- A key-slot event on a dispatched command of its operation. -/
def onKeyslot (op : Nat) (run : Command → State → State × Outcome7) (c : CoreId) (id : Nat) (s : State) : State :=
  match runningCmd s c id with
  | some k => if keyOp k = op then onCommand [0x42] c id run s else s
  | none => s

/-! ### Sessions (R421-R424, R198) -/

/-- The keys of a session (R421): sub-streams egress 0-2, then ingress 0-2; label 6 is `kimp`. -/
def sessionKeys (secret : Nat) : Vector (BitVec 256) 6 × Vector (BitVec 96) 6 :=
  let k (i : Nat) : BitVec 768 := Config.hkdf (Config.sessionSecret secret) i
  (Vector.ofFn fun i => (k i.val).extractLsb' 0 256, Vector.ofFn fun i => (k i.val).extractLsb' 256 96)

/-- FINISH (R421, R427): the opened session is active, and KIMP of its world is installed. -/
def activateSession (v : Nat) (s : State) : State :=
  let x := session s v
  if x.opened then
    let (keys, salts) := sessionKeys x.secret
    let s := s.modSess v fun x => { x with
      active := true, keys, salts, ctr := Vector.replicate 3 0, rctr := Vector.replicate 3 0, rekeys := 0 }
    if x.world = 0 then s
    else
      let kimp := (Config.hkdf (Config.sessionSecret x.secret) 6).extractLsb' 0 256
      { s with keys := { s.keys with kimp := vset s.keys.kimp x.world.toNat (some kimp) } }
  else s

/-- Does a store go to the host window? -/
def hostStore (o : StoreOp) : Bool := inHost ((o.cells.head?.map Prod.fst).getD 0)

/-- A discarded AP store's job event (R198, R413). -/
def discardStore (c : CoreId) (o : StoreOp) (s : State) : State :=
  let s := s.modCore c (freePlace o.wq)
  match (s.core c).job with
  | some id => jobEvent id 11 0 (BitVec.ofNat 64 o.va) 0 s
  | none => s

/-- The posted writes of an AP that wait before egress discarded, each with its job event (R198). -/
def discardStores (c : CoreId) (s : State) : State :=
  let gone := (s.core c).ap.storeQ.filter hostStore
  let s := s.modCore c fun x => { x with ap := { x.ap with storeQ := x.ap.storeQ.filter fun o => !hostStore o } }
  gone.foldl (fun s o => discardStore c o s) s

/-- The cores whose job belongs to a virtual function. -/
def coresOf (s : State) (v : Nat) : List CoreId := (List.finRange 128).filter fun c => (s.core c).job.isSome && decide (vfOf s c = v)

/-- The end of a session (R424): the keys go, writes before egress are discarded (R198), and no completion is accepted any
more. -/
def endSessionOf (v : Nat) (s : State) : State :=
  let x := session s v
  let s := s.modSess v fun x => { x with
    opened := false, active := false, keys := Vector.replicate 6 0, salts := Vector.replicate 6 0, held := []
    outstanding := x.outstanding.map fun r => { r with live := false } }
  let s := if x.active && decide (x.world ≠ 0) then
      { s with keys := { s.keys with kimp := vset s.keys.kimp x.world.toNat none } } else s
  if x.active then (coresOf s v).foldl (fun s c => payOwed true c (discardStores c s)) s else s

/-- The next key of a sub-stream: derived from the old one (R422). -/
def nextKey (k : BitVec 256) : BitVec 256 := (Config.hkdf (k.setWidth 384) 7).extractLsb' 0 256

/-- Held posted writes pass egress in their order, until the next rekey is due. -/
def passHeld (v : Nat) : List HeldWrite → State → State
  | [], s => s
  | h :: r, s => if needsRekey (session s v) 0 then s.modSess v fun x => { x with held := h :: r } else passHeld v r (passPosted v h.pkt s)

/-- A sub-stream's next keys in both directions; its counters start again, and held writes go, with the completions that
waited for them (R422). -/
def rekeyStream (v : Nat) (k : Fin 3) (s : State) : State :=
  let held := (session s v).held
  let s := s.modSess v fun x => { x with
    keys := vset (vset x.keys k.val (nextKey (vget x.keys k.val 0))) (3 + k.val) (nextKey (vget x.keys (3 + k.val) 0))
    ctr := x.ctr.set k 0, rctr := x.rctr.set k 0, rekeys := x.rekeys + 1, held := if k = 0 then [] else x.held }
  if k = 0 then (coresOf s v).foldl (fun s c => payOwed false c s) (passHeld v held s) else s

/-- SUBSTREAM_REKEY (R422): when the counter has reached 2^RKLOG. -/
def rekeyDue (v : Nat) (k : Fin 3) (s : State) : State :=
  let x := session s v
  if x.active && needsRekey x k then rekeyStream v k s else s

/-- Does the tether carry traffic: awake, until an entry has terminated the sessions, and once a wake has trained its lanes again
(R429, R431)? -/
def linkUp (s : State) : Bool :=
  decide (s.sleep.st = 0) || (decide (s.sleep.st = 1) && decide (s.sleep.phase ≤ 2)) || (decide (s.sleep.st = 2) && decide (2 ≤ s.sleep.phase))

/-- A request that is answered, or has timed out, is outstanding no more. -/
def dropRequest (v id : Nat) (s : State) : State :=
  s.modSess v fun x => { x with outstanding := x.outstanding.filter fun r => decide (r.id ≠ id) }

/-- A completion taken: the data wait for the AP's word or the command that asked (R198). One for a request of a session that
has ended is not accepted (R424). -/
def takeCompletion (v id : Nat) (data : List Byte) (s : State) : State :=
  match (session s v).outstanding.find? fun r => decide (r.id = id) && r.live with
  | none => s
  | some r => (dropRequest v id s).modCore r.core (answerCore id (some data))

/-- TETHER_PACKET_RECEIVE (R422, R424): under a session the tag is checked; a completion answers its request. What a posted
or non-posted packet asks for is an event of its own. -/
def receivePacket (v : Nat) (k : Fin 3) (p : Packet) (s : State) : State :=
  let x := session s v
  if !linkUp s || recovery s then s
  else if x.active then
    match Config.gcmOpen (vget x.keys (3 + k.val) 0) (ivOf (vget x.salts (3 + k.val) 0) x.rctr[k]) p.hdr p.body p.tag with
    | none => endSessionOf v (s.modSess v fun x => { x with tagfail := satInc x.tagfail })
    | some l =>
      let s := s.modSess v fun x => { x with rctr := x.rctr.set k (x.rctr[k] + 1) }
      if k = 2 then takeCompletion v p.req l s else s
  else if k = 2 then takeCompletion v p.req p.body s
  else s

/-- Does the word of an AP wait for a request? -/
def waitsFor (x : Core) (id : Nat) : Option HostWait :=
  match x.ap.host with
  | some w => if w.parts.any fun p => decide (p.req = id) && p.ans.isNone then some w else none
  | none => none

/-- NONPOSTED_TIMEOUT (R198): the data count as uncorrectable; a load of the AP faults with cause 11, detail 3, and a
command's source has failed there. -/
def timeoutRequest (v id : Nat) (s : State) : State :=
  match (session s v).outstanding.find? fun r => decide (r.id = id) with
  | none => s
  | some r =>
    let s := dropRequest v id s
    match waitsFor (s.core r.core) id with
    | some w => apFault r.core (apFaultOf s r.core 11 3 0 w.needW (BitVec.ofNat 64 w.va)) (s.modCore r.core clearWait)
    | none => s.modCore r.core (answerCore id none)

/-- TSESS_READ (R423): the read clears TAGFAIL. -/
def readTsess (v : Nat) (s : State) : State := s.modSess v fun x => { x with tagfail := 0 }

/-- TSESS (R423). -/
def tsessValue (s : State) (v : Nat) : W64 :=
  let x := session s v
  BitVec.ofNat 64 (x.active.toNat * 2 ^ 63 + x.rklog.toNat * 2 ^ 52 + x.world.toNat * 2 ^ 48 + x.tagfail.toNat * 2 ^ 32 + x.rekeys.toNat)

/-- A write of TSESS (R423). -/
def writeTsess (v : Nat) (x : W64) (s : State) : State :=
  let rk := bitsN x.toNat 52 6
  let s := s.modSess v fun y => { y with
    rklog := if 16 ≤ rk ∧ rk ≤ 40 then BitVec.ofNat 6 rk else y.rklog
    world := if y.active then y.world else x.extractLsb' 48 4 }
  if x.getLsbD 62 then endSessionOf v s else s

/-! ### The SPDM responder (R427) -/

/-- The answer of the guide core: its bytes are not in the manual (log 8); GET_MEASUREMENTS ends with the named MEAS. -/
def spdmAnswer (kind : Spdm) (msg : List Byte) (s : State) : List Byte :=
  let body := Config.spdmReply kind msg s.free
  let i := (msg.getD 3 0).toNat
  if kind = .getMeasurements ∧ 1 ≤ i ∧ i ≤ 16 then body ++ bytesOfNat 32 (vget s.tether.meas (i - 1) 0).toNat else body

/-- A request answered through the mailbox of a function, with its effect on the function's session. The mailbox answers
while the package is awake, in recovery too. -/
def spdmRequest (kind : Spdm) (act : Nat → State → State) (v : Nat) (msg : List Byte) (s : State) : State :=
  if !linkUp s then s
  else
    let l := spdmAnswer kind msg s
    let s := act v { s with free := s.free + 1 }
    { s with tether := { s.tether with mail := s.tether.mail ++ [(v, l)] } }

/-- KEY_EXCHANGE: a session is opened for the function; its secret is free (log 7). -/
def openSession (v : Nat) (s : State) : State :=
  let t := s.modSess v fun x => { x with opened := true, secret := s.free }
  { t with free := s.free + 1 }

/-- KEY_UPDATE: every sub-stream of an active session takes its next key. -/
def updateKeys (v : Nat) (s : State) : State :=
  if (session s v).active then (List.finRange 3).foldl (fun s k => rekeyStream v k s) s else s

/-- No effect on a session. -/
def noSession (_ : Nat) (s : State) : State := s

/-! ### Boot (R425, R426) -/

/-- MEAS(i) extended with bytes (R426). -/
def extendMeas (i : Nat) (l : List Byte) (s : State) : State :=
  let m := bytesOfNat 32 (vget s.tether.meas i 0).toNat
  { s with tether := { s.tether with meas := vset s.tether.meas i (bvOfBytes 256 (sha256 (m ++ sha256 l))) } }

/-- The checks of a firmware image, in order (R425). -/
def imageOk (img : List Byte) : Bool :=
  let ty := natOfBytes (img.take 4)
  let svn := natOfBytes ((img.drop 4).take 4)
  let n := natOfBytes ((img.drop 8).take 8)
  let pk := (img.drop 48).take 48
  let sig := (img.drop 96).take 16224
  let body := (img.drop 16320).take n
  decide (bvOfBytes 256 (sha256 pk) = Config.fuseKeyHash) && decide (Config.fuseMinSvn ty ≤ svn)
    && decide ((img.drop 16).take 32 = sha256 body)
    && Config.slhDsaVerify (bvOfBytes 384 pk) sig (bvOfBytes 256 (sha256 (img.take 96)))

/-- An image verified, and measured before it runs; one that fails is stopped, and its unit stays disabled. -/
def bootImage (ty : Nat) (s : State) : State :=
  let img := Config.firmware ty
  if imageOk img then extendMeas ty (img.take 96) s
  else { s with sys := { s.sys with failed := s.sys.failed ++ [ty] } }

/-! ### Deep sleep (R428-R431) -/

/-- SLPCTL (R428). -/
def slpctlValue (s : State) : W64 :=
  BitVec.ofNat 64 (s.sleep.base.toNat * 2 ^ 12 + s.sleep.st.toNat * 2 ^ 5 + s.sleep.refused.toNat * 2 ^ 4 + s.sleep.sealed.toNat * 2 ^ 3)

/-- SLPCTL_READ (R428): the read clears REFUSED. -/
def readSlpctl (s : State) : State := { s with sleep := { s.sleep with refused := false } }

/-- Is a protected world alive? -/
def protectedAlive (s : State) : Bool := (List.range 16).any fun i => protWorld s (BitVec.ofNat 4 i)

/-- Is a request for sleep refused (R429, R431)? -/
def sleepRefused (s : State) : Bool :=
  decide (s.sleep.st ≠ 0) || (s.cores.toList.any fun x => x.job.isSome) || s.scrub.active.toList.any (fun b => b)
    || (protectedAlive s && !s.sleep.sealed) || (s.sleep.sealed && decide (s.sleep.base = 0))

/-- The worlds 1-15. -/
def worlds : List World := (List.range 15).map fun i => BitVec.ofNat 4 (i + 1)

/-- The place of a world's sleep blob. -/
def blobPlace (s : State) (w : World) : Nat := s.sleep.base.toNat * 4096 + 112 * (w.toNat - 1)

/-- Every face's dirty lines written back, and the faces emptied. -/
def flushFaces (s : State) : State :=
  (List.finRange 4).foldl (fun s f => (l2Lines s f).foldl (fun s line => evictLine s f line) s) s

/-- A loaded slot wrapped and zeroised (R429). -/
def sleepSlot (w : World) (s : State) : State :=
  match vget s.keys.slots w.toNat none with
  | none => s
  | some x =>
    let s := emptySlot w (writeBlob (blobPlace s w) w x s)
    { s with sleep := { s.sleep with wrapped := putBit s.sleep.wrapped w.toNat true } }

/-- The rope ports without power (R429, R431). -/
def darkPorts (s : State) : State :=
  { s with fabric := { s.fabric with ports := s.fabric.ports.map fun x => { x with up := false } } }

/-- STATE, and the steps done in it. -/
def setSleep (st : BitVec 2) (phase : Nat) (s : State) : State := { s with sleep := { s.sleep with st, phase } }

/-- SLPCTL_REQ (R429): refused, or the entry begins: base camp stops dispatch. -/
def enterSleep (s : State) : State :=
  if sleepRefused s then { s with sleep := { s.sleep with refused := true } }
  else setSleep 1 1 { s with camp := { s.camp with stopped := true }, sleep := { s.sleep with wrapped := 0 } }

/-- Every session terminated, one that is opened and not finished too (R429). -/
def endSessions (s : State) : State :=
  (List.range 128).foldl (fun s v => if (session s v).active || (session s v).opened then endSessionOf v s else s) s

/-- The wake begins: SLPCTL.WAKE or the wake input, when the package is asleep; during an entry it is held (R431). -/
def wakeUp (s : State) : State :=
  if s.sleep.st = 3 then setSleep 2 0 { s with sleep := { s.sleep with wake := false } }
  else if s.sleep.st = 1 then { s with sleep := { s.sleep with wake := true } }
  else s

/-- The next step of an entry (R429): the slots wrapped, every face's lines in HBM before; the sessions terminated; then the domains go
dark, and a wake that was held begins (R431). -/
def sleepStep (s : State) : State :=
  match s.sleep.phase with
  | 0 | 1 => setSleep 1 2 (worlds.foldl (fun s w => sleepSlot w s) (flushFaces s))
  | 2 => setSleep 1 3 (endSessions s)
  | _ =>
    let s := setSleep 3 0 (darkPorts s)
    if s.sleep.wake then wakeUp s else s

/-- A slot unwrapped on wake (R430). -/
def wakeSlot (w : World) (s : State) : State :=
  if s.sleep.wrapped.getLsbD w.toNat then
    match readBlob s (blobPlace s w) w true (some (sleepKey s)) with
    | .ok x => putSlot w x s
    | .error _ => notice 5 s
  else s

/-- Every wrapped slot unwrapped, in ascending order. -/
def unwrapSlots (s : State) : State :=
  let s := worlds.foldl (fun s w => wakeSlot w s) s
  { s with sleep := { s.sleep with wrapped := 0 } }

/-- The next step of a wake (R431): power, with the repair store in place; the lanes trained; HBM out of self-refresh; the slots
unwrapped; dispatch; and STATE 0 with the notice. -/
def wakeStep (s : State) : State :=
  match s.sleep.phase with
  | 0 => setSleep 2 1 s
  | 1 => setSleep 2 2 (trainPorts s)
  | 2 => setSleep 2 3 s
  | 3 => setSleep 2 4 (unwrapSlots s)
  | 4 => setSleep 2 5 { s with camp := { s.camp with stopped := false } }
  | _ => notice 6 (setSleep 0 0 s)

/-- The guide core takes the next step of an entry or a wake (R429, R431). -/
def guideStep (s : State) : State :=
  if s.sleep.st = 1 then sleepStep s else if s.sleep.st = 2 then wakeStep s else s

end Sys2Proof.Machine
end

