-- ==== Sys2Proof/Machine/Inval.lean ====
section
/-! DEFINITION. The invalidate sequencer (R189, R195-R198): submission by a command or by the host, the removal of
translations from every AP, and the acknowledgement once every use of them has drained. -/

namespace Sys2Proof.Machine

/-- Does the invalidate's range meet `n` bytes from a virtual address? A length of 0 is the whole address space (R195). -/
def invalMeets (v : Inval) (va n : Nat) : Bool :=
  decide (v.len = 0) || (decide (va < v.va + v.len) && decide (v.va < va + n))

/-- The leaf size that a hint selects (R195). -/
def hintBits (hint : Nat) : Nat :=
  match hint with
  | 1 => 16 | 2 => 21 | _ => 30

/-- Does the invalidate remove a TLB leaf (R195)? -/
def removesLeaf (v : Inval) (e : TlbEntry) : Bool :=
  invalMeets v e.va (2 ^ e.bits) && (e.g || decide (e.asid = v.asid))
    && (decide (v.hint = 0) || decide (hintBits v.hint.toNat = e.bits))

/-- Does the invalidate remove a walk-cache entry: does the entry cover part of the range (R195)? -/
def removesWalk (v : Inval) (e : WalkEntry) : Bool := invalMeets v (e.va * 2 ^ lvlShift e.lvl) (2 ^ lvlShift e.lvl)

/-- An AP that has received an invalidate. Lines held through a removed translation leave with it. -/
def receiveInval (v : Inval) (x : Core) : Core :=
  { x with ap := { x.ap with
      tlb := x.ap.tlb.filter fun e => !removesLeaf v e
      walks := x.ap.walks.filter fun e => !removesWalk v e
      held := x.ap.held.filter fun h => !invalMeets v h.va 128 } }

/-- Was an access at a virtual address translated by what the invalidate removes: by a leaf that it selects, before the APs
received it (R197)? -/
def removedUse (v : Inval) (va : Nat) (u : Use) : Bool :=
  decide (u.gen ≤ v.gen) && invalMeets v (va / 2 ^ u.bits * 2 ^ u.bits) (2 ^ u.bits) && (u.g || decide (u.asid = v.asid))
    && (decide (v.hint = 0) || decide (hintBits v.hint.toNat = u.bits))

/-- Does a use of a removed translation remain in a core: a store, a `qld`, or a command, with its posted writes (R197)? -/
def coreUses (v : Inval) (x : Core) : Bool :=
  (x.ap.storeQ.any fun o => removedUse v o.va o.use)
    || (x.vec.q.toList.any fun l => l.any fun e => (e.pending.getD []).any fun p => removedUse v p.va p.use)
    || ((x.cmds ++ x.running).any fun k => k.pieces.any fun p => removedUse v p.va p.use)

/-- Does a use remain on the tether: a request without its completion (R197, R198)? -/
def tetherUses (v : Inval) (x : Session) : Bool := x.outstanding.any fun r => removedUse v r.va r.use

/-- Has every use in the range drained? -/
def invalDrained (s : State) (v : Inval) : Bool :=
  !(s.cores.toList.any (coreUses v)) && !(s.tether.sess.toList.any (tetherUses v))

/-- The acknowledgement (R195, R196): the reply of the command, or INVDONE. -/
def ackInval (v : Inval) (s : State) : State :=
  match v.from_ with
  | none => { s with sys := { s.sys with invdone := s.sys.invdone + 1 } }
  | some (c, id) =>
    match runningCmd s c id with
    | some k => finishCmd c k (ends 0 1) s
    | none => s

/-- INVALIDATE_ACK (R197): the oldest invalidate reaches every AP, and is acknowledged once its uses have drained. -/
def stepInval (s : State) : State :=
  match s.sys.invals with
  | [] => s
  | v :: rest =>
    let s := if v.sent then s
      else { s with
        cores := s.cores.map (receiveInval v)
        sys := { s.sys with invals := { v with sent := true, gen := s.sys.gen } :: rest, gen := s.sys.gen + 1 } }
    let v := s.sys.invals.headD v
    if invalDrained s v then ackInval v { s with sys := { s.sys with invals := rest } } else s

/-- An invalidate submitted to the sequencer. -/
def submitInval (v : Inval) (s : State) : State := { s with sys := { s.sys with invals := s.sys.invals ++ [v] } }

/-- inval (R195): a dispatched command submits its invalidate, once. -/
def runInval (c : CoreId) (id : Nat) (s : State) : State :=
  match runningCmd s c id with
  | none => s
  | some k =>
    if k.fn.toNat ≠ 0x40 ∨ (s.sys.invals.any fun v => decide (v.from_ = some (c, id))) then s
    else submitInval
      { va := k.a.toNat, len := k.b.toNat, asid := k.imm.extractLsb' 20 16, hint := k.imm.extractLsb' 16 2
        from_ := some (c, id), sent := false, gen := 0 } s

/-- INVCTL_GO (R196): the fields of INVCTL are set, and GO submits the invalidate. -/
def writeInvctl (v : W64) (s : State) : State :=
  let s := { s with sys := { s.sys with invAsid := v.extractLsb' 32 16, invHint := v.extractLsb' 0 2 } }
  if v.getLsbD 63 then
    let s := submitInval
      { va := s.sys.inva.toNat, len := s.sys.invl.toNat, asid := s.sys.invAsid, hint := s.sys.invHint, from_ := none
        sent := false, gen := 0 } s
    { s with sys := { s.sys with invsub := s.sys.invsub + 1 } }
  else s

end Sys2Proof.Machine
end

