-- ==== Sys2Proof/Machine/Reset.lean ====
section
/-! DEFINITION. The reset classes and bring-up (R404, R425, R426, R432, R446-R450). -/

namespace Sys2Proof.Machine

/-- A fresh key pair drawn by the guide core (log 5). -/
def drawKey (s : State) : BitVec 768 × State := (Config.randomKey s.free, { s with free := s.free + 1 })

/-- BCSEED seeded from the guide core's random source (R404). -/
def seedCamp (s : State) : State :=
  { s with free := s.free + 1, camp := { s.camp with seed := Config.seed s.free } }

/-- The world 0 key and KSLP generated (R415, R428). -/
def drawKeys (s : State) : State :=
  let (k0, s) := drawKey s
  let (ks, s) := drawKey s
  { s with keys := useKeys 0 { s.keys with world0 := k0, kslp := ks } }

/-- READY, unless an image has failed (R425), and RESET set, the second as a notice (R448, R449). -/
def setReady (s : State) : State :=
  let s := if s.sys.failed.isEmpty then { s with camp := { s.camp with ready := true }, sys := { s.sys with mgt := putBit s.sys.mgt 0 true, msgs := s.sys.msgs + 1 } } else s
  notice 1 s

/-- COLD_RESET (R395, R447, R449, R450): every register at its reset value and every key slot empty; HBM as it stands, ciphertext
under keys that no slot holds any more, its poison marks gone; the host's memory, the schedule and the free values kept;
then the ROM boots, the repair store is reapplied, the rope trained, keys and BCSEED are drawn, and READY is set unless an image failed. A package
whose guide firmware fails stays in recovery. -/
def coldReset (s : State) : State :=
  let z := State.reset
  let s := { z with mem := { s.mem with poison := [] }, keys := { z.keys with past := s.keys.past }, sched := s.sched, free := s.free, nextId := s.nextId, repair := { z.repair with store := s.repair.store, disabled := s.repair.disabled, spares := s.repair.spares } }
  let s := extendMeas 0 Config.fuseConfig s
  let s := bootImage 1 s
  if recovery s then s
  else setReady (seedCamp (drawKeys (trainPorts ([4, 3, 2, 5].foldl (fun s ty => bootImage ty s) s))))

/-- A core at its reset values, with its ledges kept (R447); its assigned world is kept in CWSTAT. -/
def resetCore (w : World) (x : Core) : Core :=
  { Core.reset with scratch := x.scratch, parityBad := x.parityBad, csr := { Csrs.reset with world := w } }

/-- A killed job's completion record written (R447). -/
def killAndComplete (id : Nat) (s : State) : State := completeJob id (killJob id s)

/-- Every job of the package killed, its record written; a replay whose nodes are all gone ends with them. -/
def killAll (s : State) : State :=
  let s := s.jobs.foldl (fun s j => killAndComplete j.id s) s
  let s := s.camp.replays.foldl (fun s r => endReplay r.id (s.modReplay r.id fun r => { r with killed := true, sent := r.sent.map fun _ => true, done := r.done.map fun _ => true })) s
  { s with camp := { s.camp with replays := [], channels := [], late := [] } }

/-- The captured tail of every mapped slot put into its queue's shadow, as the end of the slot's hold does (R401, R414). -/
def keepTails (s : State) : State :=
  s.camp.slots.toList.foldl (fun s x => if x.mapped then putShadow (some (slotQueue x)) x.tail s else s) s

/-- A slot after a warm reset (R447): MAPPED is cleared, the banks are kept. -/
def warmSlot (x : Slot) : Slot :=
  { Slot.reset with
    lastQ := if x.mapped then some (slotQueue x) else x.lastQ
    open_ := x.open_, other := x.other, replays := x.replays, qbase := x.qbase, vf := x.vf }

/-- RSTCTL.WARM (R447, R449, R450): jobs are killed and recorded, invalidates acknowledged, cores, dressers and the other
registers reset; ledges, HBM, keys, scrubs, MEAS, banks, the repair store and the error ring kept; a sleep entry that the
reset meets is undone (R432). -/
def warmReset (s : State) : State :=
  let s := keepTails (killAll s)
  let s := endSessions s
  let s := if s.sleep.st ≠ 0 then unwrapSlots s else s
  let z := State.reset
  let s := { s with
    cores := s.cores.mapFinIdx fun i x _ => resetCore (s.scrub.cworld.toList.getD i 0) x
    clusters := z.clusters
    camp := { s.camp with slots := s.camp.slots.map warmSlot, ages := z.camp.ages, ready := false, stopped := false }
    sys := { s.sys with
      fqbase := 0, fqsize := 4, fqtail := 0, fqhead := 0, inva := 0, invl := 0, invAsid := 0, invHint := 0, invsub := 0
      invdone := 0, invals := [], mgt := 0, cap := 2800, throt := false, steps := 0, sysTraps := [] }
    tether := { s.tether with sess := z.tether.sess, tmo := 10000 }
    sleep := z.sleep
    fabric := z.fabric
    cairn := z.cairn }
  setReady (seedCamp (trainPorts s))

/-- RSTCTL.CGO (R446, R447): the team of a resident job is killed; a core without one is cleared as by the first step of a
scrub. -/
def coreReset (c : CoreId) (s : State) : State :=
  let s := match (s.core c).job with
    | some id =>
      let s := killAndComplete id s
      s.modCore c fun x => resetCore x.csr.world x
    | none => s.modCore c fun x => emptyTlb (clearNonLedge x)
  notice 1 s

/-- A write of RSTCTL: with WARM and CGO in one write the warm reset only (R450). -/
def writeRstctl (v : W64) (s : State) : State :=
  if v.getLsbD 63 then warmReset s
  else if v.getLsbD 7 then coreReset (coreOf (bitsN v.toNat 0 7)) s
  else s

end Sys2Proof.Machine
end

