-- ==== Sys2Proof/Machine/Regs.lean ====
section
/-! DEFINITION. The device register region (R8, R193, R196, R365, R367, R373-R375, R394, R400, R401, R404, R411, R423,
R426, R428, R437, R444, R446, R448): the value of each 64-bit register, its read side effect, its write, and the stores
that reach the region. -/

namespace Sys2Proof.Machine

/-! ### Where a register stands -/

/-- A register of an indexed file: the file's first offset, the stride, and the count. Gives the index and the offset
within the element. -/
def fileAt (off base stride count : Nat) : Option (Nat × Nat) :=
  if base ≤ off ∧ off < base + stride * count then some ((off - base) / stride, (off - base) % stride) else none

/-- The registers of the region, by the offset of their 8 bytes from 0x0_0400_0000_0000. -/
inductive Reg where
  | fqbase | fqtail | fqhead | apres | inva | invl | invctl | invsub | invdone
  | rope (p : Fin 24) (word : Nat)
  | peer (j : Fin 16) (word : Nat)
  | part (j : Fin 16) | mask (j : Fin 16)
  | cls (j : Fin 16) (c : Fin 8) (word : Nat)
  | wscrub (w : World)
  | cwreq (c : CoreId) | cwstat (c : CoreId)
  | slot (i : Fin 256) (word : Nat)
  | bcseed
  | gpw (v : Option (Fin 128)) (i : Fin 256) (n : Nat)
  | tsess (v : Fin 128) (word : Nat)
  | tto
  | meas (i : Nat) (word : Nat)
  | slpctl
  | errbase | errtail | errhead
  | rstctl | mgtnote | pwrctl
  | notify (v : Fin 128) (i : Fin 256)
  | absent
deriving DecidableEq, Repr

/-- The registers that stand alone. -/
def regSingle (off : Nat) : Option Reg :=
  match off with
  | 0x1000 => some .fqbase | 0x1008 => some .fqtail | 0x1010 => some .fqhead | 0x1018 => some .apres
  | 0x1020 => some .inva | 0x1028 => some .invl | 0x1030 => some .invctl | 0x1038 => some .invsub | 0x1040 => some .invdone
  | 0x62000 => some .bcseed | 0x82000 => some .tto | 0xA0000 => some .slpctl
  | 0xB0000 => some .errbase | 0xB0008 => some .errtail | 0xB0010 => some .errhead
  | 0xC0000 => some .rstctl | 0xC0008 => some .mgtnote | 0xC0010 => some .pwrctl
  | _ => none

/-- The registers of files, tried in the order of the address map. -/
def regFile (off : Nat) : Option Reg :=
  let at_ (base stride count : Nat) (f : Nat → Nat → Reg) : Option Reg := (fileAt off base stride count).map fun p => f p.1 p.2
  (at_ 0x20000 0x40 24 fun p r => if r < 0x18 then .rope (Fin.ofNat 24 p) (r / 8) else .absent)
  <|> (at_ 0x30000 32 16 fun j r => .peer (Fin.ofNat 16 j) (r / 8))
  <|> (at_ 0x40000 16 16 fun j r => if r < 8 then .part (Fin.ofNat 16 j) else .mask (Fin.ofNat 16 j))
  <|> (at_ 0x41000 0x20 128 fun n r => .cls (Fin.ofNat 16 (n / 8)) (Fin.ofNat 8 n) (r / 8))
  <|> (at_ 0x50000 0x10 16 fun w r => if r < 8 then .wscrub (BitVec.ofNat 4 w) else .absent)
  <|> (at_ 0x50200 0x10 128 fun c r => if r < 8 then .cwreq (coreOf c) else .cwstat (coreOf c))
  <|> (at_ 0x60000 0x20 256 fun i r => if r < 0x18 then .slot (Fin.ofNat 256 i) (r / 8) else .absent)
  <|> (at_ 0x100000 0x200 256 fun i r => .gpw none (Fin.ofNat 256 i) (r / 8))
  <|> (at_ 0x80000 0x40 128 fun v r => if r < 0x20 then .tsess (Fin.ofNat 128 v) (r / 8) else .absent)
  <|> (at_ 0x90000 0x20 16 fun i r => .meas i (r / 8))
  <|> (at_ 0x1000000 0x40000 128 fun v r =>
    if r < 0x800 then .notify (Fin.ofNat 128 v) (Fin.ofNat 256 (r / 8))
    else if 0x20000 ≤ r then .gpw (some (Fin.ofNat 128 v)) (Fin.ofNat 256 ((r - 0x20000) / 0x200)) ((r - 0x20000) % 0x200 / 8)
    else .absent)

/-- The register whose 8 bytes hold a physical address. -/
def regAt (pa : Nat) : Reg :=
  let off := (pa - 0x400_0000_0000) / 8 * 8
  ((regSingle off) <|> (regFile off)).getD .absent

/-! ### Values -/

/-- Bits [51:12] of a base register, in place. -/
def baseBits (v : W64) : W64 := v &&& 0x000F_FFFF_FFFF_F000

/-- ROPECTL, ROPEERR and ROPECNT of a port (R365). -/
def ropeValue (x : Port) (word : Nat) : W64 :=
  match word with
  | 0 => BitVec.ofNat 64 (4 * x.mode.toNat + x.up.toNat)
  | 1 => x.flitcrc ++ x.replay ++ x.screecrc
  | _ => BitVec.ofNat 64 (x.rawBytes / 1024 % 2 ^ 32 * 2 ^ 32 + x.encBytes / 1024 % 2 ^ 32)

/-- A peer entry (R367). -/
def peerValue (x : Peer) (word : Nat) : W64 :=
  match word with
  | 0 => x.addr0
  | 1 => x.addr1
  | 2 => BitVec.ofNat 64 (x.port.toNat * 2 ^ 50 + x.mac.toNat)
  | _ => if x.valid then 1 else 0

/-- A class descriptor and its counters (R374, R375). -/
def classValue (x : CairnClass) (word : Nat) : W64 :=
  match word with
  | 0 => x.w0
  | 1 => x.w1
  | 2 => x.w2
  | _ => classCounters x

/-- SLOTQ and SLOTCFG; SLOTCTL reads zero (R400). -/
def slotValue (x : Slot) (word : Nat) : W64 :=
  match word with
  | 0 => x.qbase
  | 1 => BitVec.ofNat 64 (x.mapped.toNat * 2 ^ 63 + x.priv.toNat * 2 ^ 62 + x.vf.toNat * 2 ^ 55 + x.band.toNat * 2 ^ 53
      + x.tickets.toNat * 2 ^ 45 + x.qlog.toNat * 2 ^ 40)
  | _ => 0

/-- PWRCTL (R444). -/
def pwrctlValue (s : State) : W64 := BitVec.ofNat 64 (s.sys.wattsRead.toNat * 2 ^ 32 + s.sys.throt.toNat * 2 ^ 16 + s.sys.cap.toNat)

/-- The value of a register. Registers that are only written read zero. -/
def regValue (s : State) (r : Reg) : W64 :=
  match r with
  | .fqbase => baseBits s.sys.fqbase ||| s.sys.fqsize.setWidth 64
  | .fqtail => s.sys.fqtail.setWidth 64
  | .fqhead => s.sys.fqhead.setWidth 64
  | .apres => 0
  | .inva => s.sys.inva
  | .invl => s.sys.invl
  | .invctl => (s.sys.invAsid.setWidth 64 <<< 32) ||| s.sys.invHint.setWidth 64
  | .invsub => s.sys.invsub
  | .invdone => s.sys.invdone
  | .rope p w => ropeValue s.fabric.ports[p] w
  | .peer j w => peerValue s.fabric.peers[j] w
  | .part j => (cairnSlot s j).part
  | .mask j => (cairnSlot s j).mask
  | .cls j c w => classValue (cairnSlot s j).classes[c] w
  | .wscrub w => wscrubValue s w
  | .cwreq _ => 0
  | .cwstat c => cwstatValue s c
  | .slot i w => slotValue (campSlot s i) w
  | .bcseed => s.camp.seed.setWidth 64
  | .gpw v i n => match v with
    | none => vget (campSlot s i).open_ n 0
    | some v => if (campSlot s i).vf.toNat = v.val then vget (campSlot s i).open_ n 0 else 0
  | .tsess v w => if w = 0 then tsessValue s v.val else vget (session s v.val).ctr (w - 1) 0
  | .tto => s.tether.tmo.setWidth 64
  | .meas i w => (vget s.tether.meas i 0).extractLsb' (64 * w) 64
  | .slpctl => slpctlValue s
  | .errbase => baseBits s.sys.errbase ||| s.sys.errsize.setWidth 64
  | .errtail => s.sys.errtail.setWidth 64
  | .errhead => s.sys.errhead.setWidth 64
  | .rstctl => 0
  | .mgtnote => s.sys.mgt.setWidth 64
  | .pwrctl => pwrctlValue s
  | .notify _ _ => 0
  | .absent => 0

/-- Does the package answer an access to the register? Asleep only SLPCTL and MGTNOTE do (R431), in recovery none (R425). -/
def regAwake (s : State) (r : Reg) : Bool := powered s || (!recovery s && (decide (r = .slpctl) || decide (r = .mgtnote)))

/-- What a read of a register returns. -/
def regRead (s : State) (r : Reg) : W64 := if regAwake s r then regValue s r else 0

/-- The side effect of a read: RC fields clear (R8). -/
def regReadEffect (r : Reg) (s : State) : State :=
  if !regAwake s r then s
  else match r with
    | .rope p 1 => readRopeErr p s
    | .cls j c 3 => readCairnCounter j c s
    | .cwstat c => readCwstat c s
    | .tsess v 0 => readTsess v.val s
    | .slpctl => readSlpctl s
    | _ => s

/-! ### Writes -/

/-- A field of five bits that takes 4-16 only. -/
def sizeField (old : BitVec 5) (v : W64) : BitVec 5 :=
  let n := bitsN v.toNat 0 5
  if 4 ≤ n ∧ n ≤ 16 then BitVec.ofNat 5 n else old

/-- A write of ROPECTL (R365). -/
def writeRopectl (p : Fin 24) (v : W64) (s : State) : State :=
  let m := bitsN v.toNat 2 3
  if m ≤ 4 then s.modPort p fun x => { x with mode := BitVec.ofNat 3 m } else s

/-- A write of a peer entry (R367). -/
def writePeer (j : Fin 16) (word : Nat) (v : W64) (s : State) : State :=
  match word with
  | 0 => s.modPeer j fun x => { x with addr0 := v }
  | 1 => s.modPeer j fun x => { x with addr1 := v }
  | 2 => s.modPeer j fun x => { x with port := v.extractLsb' 50 2, mac := v.extractLsb' 0 48 }
  | _ =>
    let s := s.modPeer j fun x => { x with valid := v.getLsbD 0 }
    if v.getLsbD 0 then s else cutUnreached j.val s

/-- A write of SLOTCTL (R400): a kill comes first, and leaves nothing to pre-empt. -/
def writeSlotctl (i : Fin 256) (v : W64) (s : State) : State :=
  let s := if v.getLsbD 2 then slotKill i s else s
  let s := if v.getLsbD 1 then slotResume i s else s
  if v.getLsbD 0 then slotPreempt i s else s

/-- A write of a graph parameter; through a window of a function that does not own the slot it is discarded (R411). -/
def writeGp (v : Option (Fin 128)) (i : Fin 256) (n : Nat) (x : W64) (s : State) : State :=
  let own := match v with
    | none => true
    | some v => decide ((campSlot s i).vf.toNat = v.val)
  if own then s.modSlot i fun y => { y with open_ := vset y.open_ n x } else s

/-- A write of SLPCTL (R428): the fields, then a request, then a wake. -/
def writeSlpctl (v : W64) (s : State) : State :=
  let s := { s with sleep := { s.sleep with base := v.extractLsb' 12 40, sealed := v.getLsbD 3 } }
  let s := if v.getLsbD 0 then enterSleep s else s
  if v.getLsbD 1 then wakeUp s else s

/-- A write of MGTNOTE (R448): ones clear bits 6-1. -/
def writeMgtnote (v : W64) (s : State) : State :=
  { s with sys := { s.sys with mgt := s.sys.mgt &&& ~~~(v.setWidth 7 &&& 0x7E) } }

/-- A write of PWRCTL.CAP (R444). -/
def writePwrctl (v : W64) (s : State) : State :=
  let n := bitsN v.toNat 0 12
  if 1000 ≤ n ∧ n ≤ 2800 then { s with sys := { s.sys with cap := BitVec.ofNat 12 n } } else s

/-- A write of a register (R8). -/
def regWrite (r : Reg) (v : W64) (s : State) : State :=
  if !regAwake s r then s
  else match r with
    | .fqbase => { s with sys := { s.sys with fqbase := baseBits v, fqsize := sizeField s.sys.fqsize v } }
    | .fqhead => { s with sys := { s.sys with fqhead := v.setWidth 32 } }
    | .apres => resumeAp (coreOf (bitsN v.toNat 0 7)) s
    | .inva => { s with sys := { s.sys with inva := v } }
    | .invl => { s with sys := { s.sys with invl := v } }
    | .invctl => writeInvctl v s
    | .rope p 0 => writeRopectl p v s
    | .peer j w => writePeer j w v s
    | .part j => writeCairnPart j v s
    | .mask j => writeCairnMask j v s
    | .cwreq c => requestWorld c v s
    | .slot i 0 => s.modSlot i fun x => { x with qbase := baseBits v }
    | .slot i 1 => writeSlotcfg i v s
    | .slot i 2 => writeSlotctl i v s
    | .bcseed => if v.setWidth 32 = (0 : W32) then s else { s with camp := { s.camp with seed := v.setWidth 32 } }
    | .gpw w i n => writeGp w i n v s
    | .tsess w 0 => writeTsess w.val v s
    | .tto => if v.setWidth 32 = (0 : W32) then s else { s with tether := { s.tether with tmo := v.setWidth 32 } }
    | .slpctl => writeSlpctl v s
    | .errbase => { s with sys := { s.sys with errbase := baseBits v, errsize := sizeField s.sys.errsize v } }
    | .errhead => { s with sys := { s.sys with errhead := v.setWidth 32 } }
    | .rstctl => writeRstctl v s
    | .mgtnote => writeMgtnote v s
    | .pwrctl => writePwrctl v s
    | .notify w i => notifySlot w i (v.setWidth 32) s
    | _ => s

/-- REGISTER_WRITE (R8): a write of 64 bits that reaches the region. -/
def registerWriteAt (pa : Nat) (v : W64) (s : State) : State := if inRegs pa then regWrite (regAt pa) v s else s

/-! ### Stores that reach the region -/

/-- The value that the bytes of a register hold where a narrower write does not cover them: as it reads; zero where a one
would clear a bit. -/
def regKeep (s : State) (r : Reg) : W64 := if r = .mgtnote then 0 else regRead s r

/-- Up to eight bytes written within one register (log 17). -/
def storeReg (pa : Nat) (l : List Byte) (s : State) : State :=
  let r := regAt pa
  let keep := bytesOfNat 8 (regKeep s r).toNat
  let i := pa % 8
  regWrite r (bvOfBytes 64 (keep.take i ++ l ++ keep.drop (i + l.length))) s

/-- A store to the region cut at register boundaries. -/
def storeRegs : Nat → Nat → List Byte → State → State
  | 0, _, _, s => s
  | fuel + 1, pa, l, s =>
    if l.isEmpty then s
    else
      let n := 8 - pa % 8
      storeRegs fuel (pa + n) (l.drop n) (storeReg pa (l.take n) s)

/-- The stores that reached the region within a step, in order. -/
def storeAllRegs : List (Nat × List Byte) → State → State
  | [], s => s
  | (pa, l) :: r, s => storeAllRegs r (storeRegs (l.length / 8 + 2) pa l s)

/-- The pending stores to the region take effect, `n` rounds of them at most. -/
def flushRounds : Nat → State → State
  | 0, s => s
  | n + 1, s => if s.regq.isEmpty then s else flushRounds n (storeAllRegs s.regq { s with regq := [] })

/-- The pending stores to the region take effect. -/
def flushRegs (s : State) : State := flushRounds 4 s

/-- The end of a step: a next state. -/
def done (s : State) : Result := .next (flushRegs s)

/-- `n` bytes of the region as a load reads them, and the read side effects of the registers they meet. -/
def loadRegs (pa n : Nat) (s : State) : List Byte × State :=
  let l := (List.range n).map fun i => (bytesOfNat 8 (regRead s (regAt (pa + i))).toNat).getD ((pa + i) % 8) 0
  let rs := ((List.range n).map fun i => regAt (pa + i)).eraseDups
  (l, rs.foldl (fun s r => regReadEffect r s) s)

end Sys2Proof.Machine
end

