-- ==== Sys2Proof/Machine/Ap.lean ====
section
/-! DEFINITION. The words of the AP beside its commands (R129-R131, R144-R154, R182, R187, R311-R323), and the events that
befall an AP: drains, arrivals, fault records and interrupt entry. -/

namespace Sys2Proof.Machine

/-! ### Reads of memory -/

/-- What an access of an AP comes to at its word: bytes and the state after it, a wait with its effect, or a fault. -/
inductive Got where
  | bytes (l : List Byte) (s : State)
  | wait (f : State → State)
  | fault (x : ApFault) (f : State → State)

/-- Does a byte of HBM fail a check of a core's reads: of its unit, or of its line's tag (R420, R433)? -/
def unsoundFor (s : State) (c : CoreId) (pa : Nat) : Bool :=
  poisonSeen s c.face pa || (l2Read s c.face (s.core c).csr.world (pa / 128)).2.1

/-- The error that a read of unsound bytes shows, recorded (R436). -/
def noteUnsound (c : CoreId) (ps : List Piece) (n : Nat) (s : State) : State :=
  match (List.range n).find? fun i => inHbm (pieceAddr ps i) 1 && unsoundFor s c (pieceAddr ps i) with
  | some i => detectHbm (pieceAddr ps i) (s.core c).csr.world s
  | none => s

/-- The fault of an access whose data fail a check (R188). -/
def dataFault (c : CoreId) (ps : List Piece) (va n : Nat) (needW : Bool) (e : Nat × Nat) (s : State) : Got :=
  .fault (apFaultOf s c e.1 e.2 0 needW (BitVec.ofNat 64 va)) (noteUnsound c ps n)

/-- The parts of an access that is not aligned: each byte by itself (R146), in ascending order (log 21). -/
def byteParts (ps : List Piece) : List Piece :=
  ps.flatMap fun p => (List.range p.len).map fun i => { p with va := p.va + i, pa := p.pa + i, len := 1 }

/-- The bytes of a part of a load: of earlier stores of the AP with the same virtual address (R150, R315), then of the
register region, of host memory in the clear, or of device memory; none for bytes that a request under a session must
bring. -/
def loadPart (c : CoreId) (p : Piece) (s : State) : Except (Nat × Nat) (List (Option Byte) × State) :=
  let fwd := (List.range p.len).map fun i => forwardByte (p.va + i) (s.core c).ap.storeQ none
  if fwd.all Option.isSome then .ok (fwd, s)
  else if inRegs p.pa then
    let (l, s) := loadRegs p.pa p.len s
    .ok ((fwd.zip l).map fun x => some (x.1.getD x.2), s)
  else if inHost p.pa then
    if sessionActive s c then .ok (fwd, s)
    else .ok ((fwd.zip (hostBytes s p.pa p.len)).map fun x => some (x.1.getD x.2), clearRequest c p s)
  else loadBytes c p.va p.pa fwd s

/-- The bytes of the parts of a load, in their order. -/
def loadParts (c : CoreId) : List Piece → State → Except (Nat × Nat) (List (Option Byte) × State)
  | [], s => .ok ([], s)
  | p :: r, s =>
    match loadPart c p s with
    | .error e => .error e
    | .ok (l, s) =>
      match loadParts c r s with
      | .error e => .error e
      | .ok (l', s) => .ok (l ++ l', s)

/-- The parts of an access that bytes are still missing from, each with its offset. -/
def missingParts (got : List (Option Byte)) (ps : List Piece) : List (Nat × Piece) :=
  (pieceOffsets 0 ps).filter fun x => ((got.drop x.1).take x.2.len).any Option.isNone

/-- Requests for what an access misses, and the AP waits for their completions; nothing where they must wait themselves
(R182, R319, R422). -/
def askHost (c : CoreId) (va : Nat) (got : List (Option Byte)) (miss : List (Nat × Piece)) (s : State) : State :=
  if requestBlocked s c then s
  else
    let (parts, s) := sendRequests c none miss s
    s.modCore c fun x => { x with ap := { x.ap with host := some { va, needW := false, flush := false, got, parts } } }

/-- The bytes of a word whose completions have all come. -/
def waitBytes (w : HostWait) : List Byte := w.got.mapIdx fun i b => b.getD ((partByte w.parts i).getD 0)

/-- A load of `n` bytes at a virtual address (R145, R315). -/
def loadGot (c : CoreId) (va n : Nat) (s : State) : Got :=
  match (s.core c).ap.host with
  | some w => if allAnswered w.parts then .bytes (waitBytes w) (s.modCore c clearWait) else .wait id
  | none =>
    match translateRange s c va n .read with
    | .error f => .fault (apWalkFault s c f va) (noteWalk f)
    | .ok (ps, s) =>
      let ps := if decide (n ≤ 8) && decide (va % n ≠ 0) then byteParts ps else ps
      match loadParts c ps s with
      | .error e => dataFault c ps va n false e s
      | .ok (got, s) =>
        if got.all Option.isSome then .bytes (got.map fun b => b.getD 0) s
        else .wait fun _ => askHost c va got (missingParts got ps) s

/-- The plan of a word that needs an access: it waits for its operands first. -/
def planGot (k : Ctx) (lates : List (Nat × Nat)) (g : State → Got) (use : List Byte → State → State) : Plan :=
  if lates.isEmpty then
    match g k.s with
    | .bytes _ _ => { act := fun s => match g s with
        | .bytes l s => use l s
        | _ => s }
    | .wait f => { lates := [(0, 0)], wait := f }
    | .fault x f => { fault := some x, wait := f }
  else { lates }

/-- The late operand of writing an a register that is a pending destination (R82). -/
def lateDest (k : Ctx) (code : RegCode) : List (Nat × Nat) := lateReg k code

/-- The effective address of a word (R145). -/
def eaOf (k : Ctx) (f : Fld) : Nat := (readReg k.core k.e f.a + immS f).toNat

/-! ### Loads (R146) -/

/-- A load of `n` bytes, zero- or sign-extended. -/
def planLd (n : Nat) (signed : Bool) (f : Fld) (k : Ctx) : Plan :=
  planGot k (lateReg k f.a ++ lateDest k f.d) (loadGot k.c (eaOf k f) n) fun l s =>
    let v := if signed then BitVec.ofInt 64 (sintN (8 * n) (natOfBytes l)) else BitVec.ofNat 64 (natOfBytes l)
    s.modCore k.c (writeReg k.e f.d v)

def planLdB (f : Fld) (k : Ctx) : Plan := planLd 1 false f k
def planLdH (f : Fld) (k : Ctx) : Plan := planLd 2 false f k
def planLdW (f : Fld) (k : Ctx) : Plan := planLd 4 false f k
def planLdD (f : Fld) (k : Ctx) : Plan := planLd 8 false f k
def planLdBs (f : Fld) (k : Ctx) : Plan := planLd 1 true f k
def planLdHs (f : Fld) (k : Ctx) : Plan := planLd 2 true f k
def planLdWs (f : Fld) (k : Ctx) : Plan := planLd 4 true f k

/-! ### Stores (R146, R150) -/

/-- The store-queue entries of a translated store: one for each part, and `wq` on the last. -/
def storeOps (x : Core) (wq : Option (Fin 4)) : List Piece → List Byte → List StoreOp
  | [], _ => []
  | p :: r, l =>
    { va := p.va, asid := asidOf x, world := x.csr.world, wq := if r.isEmpty then wq else none
      cells := cellsAt p.pa (l.take p.len), use := p.use } :: storeOps x wq r (l.drop p.len)

/-- A core with stores at the tail of its AP's store queue. -/
def pushStores (ops : List StoreOp) (x : Core) : Core := { x with ap := { x.ap with storeQ := x.ap.storeQ ++ ops } }

/-- The store of some bytes at a virtual address put into the AP's store queue. -/
def issueStore (c : CoreId) (va : Nat) (split : Bool) (wq : Option (Fin 4)) (l : List Byte) (s : State) : State :=
  match translateRange s c va l.length .write with
  | .error _ => s
  | .ok (ps, s) => s.modCore c fun x => pushStores (storeOps x wq (if split then byteParts ps else ps) l) x

/-- The fault of a range's translation. -/
def rangeFault (k : Ctx) (va n : Nat) (acc : Access) : Option ApFault :=
  match translateRange k.s k.c va n acc with
  | .error f => some (apWalkFault k.s k.c f va)
  | .ok _ => none

/-- The error that a range's translation meets, recorded. -/
def rangeNote (k : Ctx) (va n : Nat) (acc : Access) (s : State) : State :=
  match translateRange k.s k.c va n acc with
  | .error f => noteWalk f s
  | .ok _ => s

/-- A store of the low `n` bytes of register b. -/
def planSt (n : Nat) (f : Fld) (k : Ctx) : Plan :=
  let lates := lateReg k f.a ++ lateReg k f.b
  let va := eaOf k f
  let l := bytesOfNat n (readReg k.core k.e f.b).toNat
  if lates.isEmpty then
    { fault := rangeFault k va n .write, wait := rangeNote k va n .write, act := issueStore k.c va (decide (va % n ≠ 0)) none l }
  else { lates }

def planStB (f : Fld) (k : Ctx) : Plan := planSt 1 f k
def planStH (f : Fld) (k : Ctx) : Plan := planSt 2 f k
def planStW (f : Fld) (k : Ctx) : Plan := planSt 4 f k
def planStD (f : Fld) (k : Ctx) : Plan := planSt 8 f k

/-! ### Queues (R147, R154) -/

/-- The load queue, and the store queue, that a code names. -/
def lqNo (code : RegCode) : Nat := code.toNat - 0x68
def sqNo (code : RegCode) : Nat := code.toNat - 0x70

/-- A core with an entry at the tail of a load queue. -/
def pushLq (q : Nat) (e : LqEntry) (x : Core) : Core :=
  { x with vec := { x.vec with q := vset x.vec.q q (vget x.vec.q q [] ++ [e]) } }

/-- The late operand of a full load queue. -/
def lateFull (k : Ctx) (q : Nat) : List (Nat × Nat) := if 4 ≤ (vget k.core.vec.q q []).length then [(0, 0)] else []

/-- The 4 KiB address of a queue transfer. -/
def eaQueue (k : Ctx) (f : Fld) : Nat := eaOf k f / 128 * 128

/-- The parts of a queue transfer as an invalidate asks for them. -/
def queuePieces (c : CoreId) (va : Nat) (s : State) : List Piece :=
  match translateRange s c va 4096 .read with
  | .ok (ps, _) => ps
  | .error _ => []

/-- qld (R147): a place is reserved when the range has translated; the data arrive with QLD_DATA_ARRIVE. -/
def planQld (f : Fld) (k : Ctx) : Plan :=
  let q := lqNo f.d
  let va := eaQueue k f
  planGot k (lateReg k f.a ++ lateFull k q) (loadGot k.c va 4096) fun l s =>
    s.modCore k.c (pushLq q { img := bvOfBytes 32768 l, pending := some (queuePieces k.c va k.s) })

/-- The number of a store queue's entries that the AP has popped and whose stores have not performed. -/
def poppedEntries (x : Core) (q : Nat) : Nat :=
  (x.ap.storeQ.filter fun o => decide (o.wq.map Fin.val = some q)).length

/-- The entry that a `qst` pops next, once it is visible: once its last quarter is written (R13). -/
def visibleEntry (x : Core) (q : Nat) : Option SqEntry :=
  match (vget x.vec.w q [])[poppedEntries x q]? with
  | some e => if e.have_ = 0xF then some e else none
  | none => none

/-- qst (R147): the popped place stays taken until the store has performed. -/
def planQst (f : Fld) (k : Ctx) : Plan :=
  let q := sqNo f.b
  let lates := lateReg k f.a ++ (if (visibleEntry k.core q).isNone then [(0, 0)] else [])
  let va := eaQueue k f
  match visibleEntry k.core q with
  | some e =>
    if lates.isEmpty then
      { fault := rangeFault k va 4096 .write, wait := rangeNote k va 4096 .write
        act := issueStore k.c va false (some (Fin.ofNat 4 q)) (bytesOfNat 4096 e.img.toNat) }
    else { lates }
  | none => { lates }

/-- tok (R142, R154): an entry with register a in its first eight bytes. -/
def planTok (f : Fld) (k : Ctx) : Plan :=
  let q := lqNo f.d
  (planCore k [] (pushLq q { img := (readReg k.core k.e f.a).setWidth 32768, pending := none })).withLates
    (lateReg k f.a ++ lateFull k q)

/-- pref (R148): the face fetches the line; on any failure nothing happens. -/
def prefetch (c : CoreId) (va : Nat) (s : State) : State :=
  match translateRange s c va 1 .read with
  | .error _ => s
  | .ok (ps, s) =>
    let pa := pieceAddr ps 0
    if inHbm pa 1 then (l2Read s c.face (s.core c).csr.world (pa / 128)).2.2 else s

def planPref (f : Fld) (k : Ctx) : Plan :=
  let va := eaOf k f
  { lates := lateReg k f.a, act := prefetch k.c va }

/-! ### Order (R151, R152, R318, R319) -/

/-- The zero-length read of a release at host scope (R319). -/
def flushPiece : Piece := { va := 0, pa := 0x8_0000_0000_0000, len := 0, wr := false }

/-- A core after the flush read of a release: its posted writes have performed at host memory. -/
def flushed (x : Core) : Core := { x with ap := { x.ap with host := none, posted := false } }

/-- The flush read goes out under a session, and the AP waits for its completion; nothing where it must wait itself. -/
def askFlush (c : CoreId) (s : State) : State :=
  if requestBlocked s c then s
  else
    let (parts, s) := sendRequests c none [(0, flushPiece)] s
    s.modCore c fun x => { x with ap := { x.ap with host := some { va := 0, needW := false, flush := true, got := [], parts } } }

/-- What a release finds: it waits, with an effect, or the earlier accesses have performed as far as its scope asks, in a
state (R151, R318, R319). -/
inductive Release where
  | wait (f : State → State)
  | go (s : State)

/-- The release part of a word at a scope, from a state in which the AP's earlier stores have left their queue as far as they
can: they must all have left, and at host scope those that went to the host are flushed. -/
def releaseGo (c : CoreId) (scope : Nat) (s : State) : Release :=
  match (s.core c).ap.host with
  | some w =>
    if !w.flush then .go s
    else if allAnswered w.parts then .go (s.modCore c flushed) else .wait id
  | none =>
    if !storesDone s c then .wait fun _ => s
    else if 9 ≤ scope ∧ (s.core c).ap.posted then
      if sessionActive s c then .wait fun _ => askFlush c s
      else .go ((clearRequest c flushPiece s).modCore c flushed)
    else .go s

/-- The scope of a fence or atomic. -/
def scopeOf (f : Fld) : Nat := immBits f 32 4

/-- A fence at a scope. -/
def planFenceAt (scope : Nat) (rel acq : Bool) (k : Ctx) : Plan :=
  if rel then
    match releaseGo k.c scope (drainAll k.c k.s) with
    | .wait f => { lates := [(0, 0)], wait := f }
    | .go _ => { act := fun s => match releaseGo k.c scope (drainAll k.c s) with
        | .go s => fenceAp k.c scope rel acq s
        | .wait _ => s }
  else { act := fenceAp k.c scope rel acq }

def planFence (f : Fld) (k : Ctx) : Plan := planFenceAt (scopeOf f) true true k
def planFenceAcq (f : Fld) (k : Ctx) : Plan := planFenceAt (scopeOf f) false true k
def planFenceRel (f : Fld) (k : Ctx) : Plan := planFenceAt (scopeOf f) true false k

/-- afence (R152): a package fence that discards held lines. -/
def planAfence (_ : Fld) (k : Ctx) : Plan := planFenceAt 5 true true k

/-- mark (R151): earlier stores have written the face (R318); loads are bound at their words. -/
def planMark (_ : Fld) (k : Ctx) : Plan := planFenceAt 2 true false k

/-! ### Atomics (R149, R317) -/

/-- The effective address of an atomic (R149). -/
def eaAmo (k : Ctx) (n : Nat) (f : Fld) : Nat :=
  (readReg k.core k.e f.a + (f.imm.extractLsb' 0 32).signExtend 64).toNat / n * n

/-- The header bytes of an atomic request: the value written, none where the atomic writes none. -/
def amoHeader (n : Nat) (v : Option Nat) : List Byte :=
  match v with
  | some v => 1 :: bytesOfNat n v
  | none => [0]

/-- An atomic of the host window under a session (R182, R317): one non-posted request, which reads and writes host memory in
one, and whose completion brings the old value. -/
def askAtomic (c : CoreId) (va n : Nat) (new : Nat → Option Nat) (p : Piece) (s : State) : State :=
  if requestBlocked s c then s
  else
    let v := new (natOfBytes (hostBytes s p.pa n))
    let parts := [{ off := 0, len := n, req := s.tether.nextReq, ans := none }]
    let s := sendRequest c none (amoHeader n v) p s
    let s := match v with
      | some v => hostPut p.pa (bytesOfNat n v) s
      | none => s
    s.modCore c fun x => { x with
      ap := { x.ap with host := some { va, needW := true, flush := false, got := List.replicate n none, parts } } }

/-- The location of an atomic read and, where `new` gives a value, written. -/
def amoMemory (c : CoreId) (scope va n : Nat) (new : Nat → Option Nat) (ps : List Piece) (s : State) : Got :=
  let pa := pieceAddr ps 0
  let put (l : List Byte) : Option (List Byte) := (new (natOfBytes l)).map (bytesOfNat n)
  if inRegs pa then
    let (l, s) := loadRegs pa n s
    .bytes l (match put l with
      | some b => storeRegs 3 pa b s
      | none => s)
  else if inHost pa && sessionActive s c then .wait fun _ => askAtomic c va n new (ps.headD flushPiece) s
  else
    match atomicRead s c scope pa n with
    | .error e => dataFault c ps va n true e s
    | .ok (l, s) =>
      let s := if inHost pa then clearRequest c (ps.headD flushPiece) s else s
      .bytes l (match put l with
        | some b => atomicWrite c scope va pa b s
        | none => s)

/-- An atomic whose earlier accesses have performed (R149, R151): after its release, before its acquire. -/
def amoGo (c : CoreId) (scope va n : Nat) (rel acq : Bool) (new : Nat → Option Nat) (s : State) : Got :=
  match (s.core c).ap.host with
  | some w => if allAnswered w.parts then .bytes (waitBytes w) (fenceAp c scope false acq (s.modCore c clearWait)) else .wait id
  | none =>
    let s := flushRegs (fenceAp c scope rel false s)
    match translateRange s c va n .rmw with
    | .error f => .fault (apWalkFault s c f va) (noteWalk f)
    | .ok (ps, s) =>
      match amoMemory c scope va n new ps s with
      | .bytes l s => .bytes l (fenceAp c scope false acq s)
      | g => g

/-- An atomic (R149, R150): every earlier store of the AP has left its queue. -/
def amoGot (c : CoreId) (scope va n : Nat) (rel acq : Bool) (new : Nat → Option Nat) (s : State) : Got :=
  match releaseGo c (if rel then scope else 0) (flushRegs (drainAll c s)) with
  | .wait f => .wait f
  | .go s => amoGo c scope va n rel acq new s

/-- An atomic word: `op` gives the new value from the old, x and y, as numbers of `n` bytes; none for no write. -/
def planAmo (op : Nat → Nat → Nat → Nat → Option Nat) (w : Bool) (ord : BitVec 2) (cas : Bool) (f : Fld) (k : Ctx) : Plan :=
  let n := if w then 8 else 4
  let lates := lateReg k f.a ++ lateReg k f.b ++ (if cas then lateReg k f.c else []) ++ lateDest k f.d
  let x := (readReg k.core k.e f.b).toNat % 2 ^ (8 * n)
  let y := (readReg k.core k.e f.c).toNat % 2 ^ (8 * n)
  planGot k lates (amoGot k.c (scopeOf f) (eaAmo k n f) n (ord.getLsbD 1) (ord.getLsbD 0) fun old => op (8 * n) old x y)
    fun l s => s.modCore k.c (writeReg k.e f.d (BitVec.ofNat 64 (natOfBytes l)))

def planAmoAdd (w : Bool) (ord : BitVec 2) (f : Fld) (k : Ctx) : Plan :=
  planAmo (fun b old x _ => some ((old + x) % 2 ^ b)) w ord false f k
def planAmoMin (w : Bool) (ord : BitVec 2) (f : Fld) (k : Ctx) : Plan :=
  planAmo (fun b old x _ => some (if sintN b old ≤ sintN b x then old else x)) w ord false f k
def planAmoMax (w : Bool) (ord : BitVec 2) (f : Fld) (k : Ctx) : Plan :=
  planAmo (fun b old x _ => some (if sintN b x ≤ sintN b old then old else x)) w ord false f k
def planAmoMinu (w : Bool) (ord : BitVec 2) (f : Fld) (k : Ctx) : Plan :=
  planAmo (fun _ old x _ => some (min old x)) w ord false f k
def planAmoMaxu (w : Bool) (ord : BitVec 2) (f : Fld) (k : Ctx) : Plan :=
  planAmo (fun _ old x _ => some (max old x)) w ord false f k
def planAmoAnd (w : Bool) (ord : BitVec 2) (f : Fld) (k : Ctx) : Plan :=
  planAmo (fun _ old x _ => some (old &&& x)) w ord false f k
def planAmoOr (w : Bool) (ord : BitVec 2) (f : Fld) (k : Ctx) : Plan :=
  planAmo (fun _ old x _ => some (old ||| x)) w ord false f k
def planAmoXor (w : Bool) (ord : BitVec 2) (f : Fld) (k : Ctx) : Plan :=
  planAmo (fun _ old x _ => some (old ^^^ x)) w ord false f k
def planAmoSwap (w : Bool) (ord : BitVec 2) (f : Fld) (k : Ctx) : Plan := planAmo (fun _ _ x _ => some x) w ord false f k
def planAmoCas (w : Bool) (ord : BitVec 2) (f : Fld) (k : Ctx) : Plan :=
  planAmo (fun _ old x y => if old = y then some x else none) w ord true f k

/-! ### Geometry registers (R153) and `uret` (R131) -/

/-- gset. -/
def planGset (f : Fld) (k : Ctx) : Plan :=
  let v := readReg k.core k.e f.a
  (planCore k [] fun x => { x with ap := { x.ap with geo := vset x.ap.geo (immBits f 0 3) v } }).withLates (lateReg k f.a)

/-- gget. -/
def planGget (f : Fld) (k : Ctx) : Plan := planReg k [] f.d (vget k.core.ap.geo (immBits f 0 3) 0)

/-- The AP of a core enters its interrupt handler (R129). -/
def enterIntr (c : CoreId) (s : State) : State :=
  let a := wordAddr (nextOf s c .ap).pos
  s.modCore c fun x => { x with ap := { x.ap with
    inUi := true, uiepc := BitVec.ofNat 64 a, uiPos := Pos.start (x.ap.uiAddr.toNat * 64), uiBuf := [] } }

/-- May the AP enter its handler (R129, R141)? A word that waits for a host completion has begun. -/
def intrReady (s : State) (c : CoreId) : Bool :=
  let x := s.core c
  let t := x.stream .ap
  x.ap.uien && !x.ap.recs.isEmpty && !x.ap.inUi && x.ap.fault.isNone && t.present && !t.ended && !t.first
    && x.ap.host.isNone

/-- UI_ENTRY (R129). -/
def uiEnter (c : CoreId) (s : State) : State := if intrReady s c then enterIntr c s else s

/-- The AP leaves its handler, and enters again at once while a record is pending (R131). -/
def leaveIntr (c : CoreId) (s : State) : State :=
  uiEnter c (s.modCore c fun x => { x with ap := { x.ap with inUi := false, uiBuf := [] } })

/-- uret (R131). -/
def planUret (_ : Fld) (k : Ctx) : Plan := { act := leaveIntr k.c }

/-! ### Events of an AP -/

/-- A core in which the oldest entry of a queue that still waits for its bytes has them (R147). -/
def arriveEntry : List LqEntry → List LqEntry
  | [] => []
  | e :: r => if e.pending.isSome then { e with pending := none } :: r else e :: arriveEntry r

/-- QLD_DATA_ARRIVE (R147): entries become visible in reservation order. -/
def qldArrive (c : CoreId) (q : Fin 8) (s : State) : State :=
  s.modCore c fun x => { x with vec := { x.vec with q := x.vec.q.set q (arriveEntry x.vec.q[q]) } }

/-- The bytes of a fault record (R192). -/
def faultBytes (s : State) (c : CoreId) (f : ApFault) : List Byte :=
  let x := s.core c
  bytesOfNat 8 (f.cause % 16 + 2 ^ 8 * (f.detail % 16) + 2 ^ 12 * c.val + 2 ^ 19 * f.inUi.toNat + 2 ^ 20 * f.needW.toNat
      + 2 ^ 32 * (asidOf x).toNat + 2 ^ 48 * x.csr.world.toNat)
    ++ bytesOfNat 8 f.va.toNat ++ bytesOfNat 8 f.addr
    ++ bytesOfNat 8 (f.pitch.toNat + 2 ^ 10 * (f.word % 1024) + 2 ^ 20 * (f.level % 4) + 2 ^ 32 * s.sys.fseq.toNat)

/-- FAULT_RECORD_POST (R193): the record of a halted AP goes into the ring once there is room. -/
def postFault (c : CoreId) (s : State) : State :=
  match (s.core c).ap.fault with
  | none => s
  | some f =>
    let base := bitsN s.sys.fqbase.toNat 12 40 * 4096
    let size := 2 ^ s.sys.fqsize.toNat
    if f.posted || decide (base = 0) || decide (size ≤ (s.sys.fqtail - s.sys.fqhead).toNat) then s
    else
      let s := devicePut 0 (base + 32 * (s.sys.fqtail.toNat % size)) (faultBytes s c f) s
      let s := apFault c { f with posted := true } s
      notice 2 { s with sys := { s.sys with fqtail := s.sys.fqtail + 1, fseq := s.sys.fseq + 1 } }

/-- AP_STORE_DRAIN (R314). -/
def drainEvent (c : CoreId) (s : State) : State := drainStore c s

/-- L2_EVICTION (R314). -/
def evictEvent (f : Fin 4) (line : BitVec 45) (s : State) : State := evictLine s f line.toNat

/-- STREAM_FETCH (R55): units of an engine's image read ahead of issue. -/
def fetchEvent (c : CoreId) (e : Engine) (a : BitVec 52) (n : BitVec 8) (s : State) : State :=
  let lo := a.toNat / 4 * 4
  if hasImage (s.core c) e then
    noteUnsound c [{ va := lo, pa := lo, len := 4 * n.toNat, wr := false }] (4 * n.toNat) (fetchUnits c e n.toNat lo s)
  else s

end Sys2Proof.Machine
end

