-- ==== Sys2Proof/Machine/Csr.lean ====
section
/-! DEFINITION. The control and status registers: their values, their read side effects, their writes, and the words
`csrr`, `csrw`, `csrs` and `csrc` (R8, R25, R33, R41, R98, R125, R129, R130, R168, R183, R221, R296, R298, R339, R347,
R438). -/

namespace Sys2Proof.Machine

/-! ### Values -/

/-- PRET (R41): the retired pitch numbers, LEAD highest. -/
def pretValue (x : Core) : W64 :=
  let r (e : Engine) (lo : Nat) : W64 := (x.stream e).ret.setWidth 64 <<< lo
  r .lead 50 ||| r .ap 40 ||| r .mx 30 ||| r .va 20 ||| r .vb 10 ||| r .sf 0

/-- TMODE (R41). -/
def tmodeValue (x : Core) : W64 := (if x.csr.dual then 2 else 0) + (if x.csr.strict then 1 else 0)

/-- PRECTL (R125). -/
def prectlValue (x : Core) : W64 := (x.csr.drainlim.setWidth 64 <<< 32) ||| (if x.csr.preq then 1 else 0)

/-- UICTL (R130). -/
def uictlValue (x : Core) : W64 := (x.ap.uiAddr.setWidth 64 <<< 6) ||| (if x.ap.uien then 1 else 0)

/-- UIREC (R130): the head record of the completion queue, or zero. -/
def uirecValue (x : Core) : W64 := x.ap.recs.headD 0

/-- SFPATH (R298). -/
def sfpathValue (x : Core) : W64 := (x.sf.depth.setWidth 64 <<< 16) ||| x.sf.path.setWidth 64

/-- The value of a CSR as an engine of the core reads it; zero for a number that no chapter assigns (R98), and in LEAD
for 0x050-0x052 (R130). -/
def csrValue (s : State) (c : CoreId) (e : Engine) (n : Nat) : W64 :=
  let x := s.core c
  let k := s.cluster c.cluster
  match n with
  | 0x040 => BitVec.ofNat 64 (tickOf s c)
  | 0x041 => k.slip
  | 0x042 => k.frzinfo
  | 0x043 => tmodeValue x
  | 0x044 => x.csr.wdcmp
  | 0x045 => k.frzlim.setWidth 64
  | 0x046 => x.csr.teampos
  | 0x047 => pretValue x
  | 0x048 => x.csr.tbase
  | 0x049 => x.csr.ctxbase
  | 0x04A => x.csr.tvec
  | 0x04B => x.trap.tcause
  | 0x04C => x.trap.tinfo
  | 0x04D => x.trap.ttick
  | 0x04E => prectlValue x
  | 0x050 => if e = .ap then uictlValue x else 0
  | 0x051 => if e = .ap then x.ap.uiepc else 0
  | 0x052 => if e = .ap then uirecValue x else 0
  | 0x054 => x.csr.cvtstat
  | 0x055 => x.csr.numstat.setWidth 64
  | 0x056 => x.csr.tmshape
  | 0x057 => x.csr.collid
  | 0x058 => x.csr.xlate
  | 0x05A => x.csr.ueaddr
  | 0x060 | 0x061 | 0x062 | 0x063 => vget x.sf.spcfg (n - 0x060) 0
  | 0x064 | 0x065 | 0x066 | 0x067 => vget x.sf.spcnt (n - 0x064) 0
  | 0x068 => sfpathValue x
  | _ => 0

/-- Popping UIREC (R130): the head record leaves the completion queue. -/
def popRecord (x : Core) : Core := { x with ap := { x.ap with recs := x.ap.recs.drop 1 } }

/-- UEADDR read and cleared (R438). -/
def clearUeaddr (x : Core) : Core := { x with csr := { x.csr with ueaddr := 0 } }

/-- The read side effect of a CSR (R98): the pop of UIREC in the AP, and the clearing of UEADDR. -/
def csrReadEffect (e : Engine) (n : Nat) (x : Core) : Core :=
  match n with
  | 0x052 => if e = .ap then popRecord x else x
  | 0x05A => clearUeaddr x
  | _ => x

/-! ### Writes -/

/-- How a CSR word forms the value to be written (R98). -/
inductive CsrOp where
  | write | set | clear
deriving DecidableEq, Repr

/-- The value for RW fields. -/
def rwValue (op : CsrOp) (old v : W64) : W64 :=
  match op with
  | .write => v
  | .set => old ||| v
  | .clear => old &&& ~~~v

/-- The value for W1C fields. -/
def w1cValue (op : CsrOp) (v : W64) : W64 :=
  match op with
  | .set => 0
  | _ => v

/-- The value for WO fields. -/
def woValue (op : CsrOp) (v : W64) : W64 :=
  match op with
  | .clear => 0
  | _ => v

/-- Are writes of the CSR marked privileged (R41, R125)? -/
def csrPrivileged (n : Nat) : Bool :=
  match n with
  | 0x041 | 0x044 | 0x045 | 0x04A | 0x04E => true
  | _ => false

/-- The writable bits of TMSHAPE (R339). -/
def tmshapeMask : W64 := 0xFFFF_FFFF_0000_FCFF

/-- A write of UIEN (R129): when it clears the bit, completions held for room take effect and add no record. -/
def writeUien (b : Bool) (x : Core) : Core :=
  let y := if b then x else releaseDone x
  { y with ap := { y.ap with uien := b } }

/-- NUMSTAT with written ones cleared (R221). -/
def clearNumstat (v : W64) (x : Core) : Core := { x with csr := { x.csr with numstat := x.csr.numstat &&& ~~~(v.setWidth 5) } }

/-- The part of a CSR write that sets fields. Of two cores of a cluster that write SLIP or FRZLIM at one tick the later one
composes with the earlier (log 29). -/
def csrSet (op : CsrOp) (c : CoreId) (e : Engine) (n : Nat) (v : W64) (s : State) : State :=
  let x := s.core c
  let new := rwValue op (csrValue s c e n) v
  match n with
  | 0x041 => s.modCluster c.cluster fun k => { k with slip := new }
  | 0x044 => s.modCore c fun x => { x with csr := { x.csr with wdcmp := new } }
  | 0x045 => s.modCluster c.cluster fun k => { k with frzlim := new.setWidth 32 }
  | 0x04A => s.modCore c fun x => { x with csr := { x.csr with tvec := new &&& tvecMask } }
  | 0x050 => if e = .ap then s.modCore c (writeUien (new.getLsbD 0)) else s
  | 0x054 => s.modCore c fun x => { x with csr := { x.csr with cvtstat := new } }
  | 0x055 => s.modCore c (clearNumstat (w1cValue op v))
  | 0x056 => s.setCore c { x with csr := { x.csr with tmshape := new &&& tmshapeMask } }
  | _ => s

/-- The job on a core, if a write of PRECTL asks for something: a kill, or a forced save at once (R125, R133, R135). A
kill leaves nothing to save. -/
def prectlAct (save : Nat → State → State) (c : CoreId) (v : W64) (s : State) : State :=
  if v.getLsbD 2 then killOn c s
  else if v.getLsbD 1 then
    match (s.core c).job with
    | some id => save id s
    | none => s
  else s

/-- The effect of a CSR write that follows the words of the tick. -/
def csrAfter (save : Nat → State → State) (op : CsrOp) (c : CoreId) (n : Nat) (v : W64) : State → State :=
  if n = 0x04E then prectlAct save c (woValue op v) else id

/-! ### The words -/

/-- Does the issuing stream hold privilege (R78, R122, R129)? -/
def streamPriv (k : Ctx) : Bool := inTrap k.core k.e || (k.core.csr.priv && !inIntr k.core k.e)

/-- The number of the CSR that a word names. -/
def csrNo (f : Fld) : Nat := immBits f 0 12

/-- csrr (R98). -/
def planCsrr (f : Fld) (k : Ctx) : Plan :=
  let n := csrNo f
  let p := planReg k [] f.d (csrValue k.s k.c k.e n)
  { p with act := fun s => (p.act s).modCore k.c (csrReadEffect k.e n) }

/-- csrw, csrs and csrc (R98): the old value goes to a register that d names; a set or clear of no bit writes nothing. -/
def planCsrWrite (save : Nat → State → State) (op : CsrOp) (f : Fld) (k : Ctx) : Plan :=
  let n := csrNo f
  let v := readReg k.core k.e f.a
  let writes := decide (op = .write) || decide (v ≠ 0)
  let old := csrValue k.s k.c k.e n
  if writes && csrPrivileged n && !streamPriv k then (planCause k 2 2 0).withLates (lateReg k f.a)
  else
    let p : Plan := if f.d = 0 then {} else planReg k [] f.d old
    { p with
      lates := lateReg k f.a ++ p.lates
      act := fun s =>
        let s := if writes then csrSet op k.c k.e n v s else s
        let s := if f.d = 0 then s else s.modCore k.c (csrReadEffect k.e n)
        p.act s
      after := if writes then csrAfter save op k.c n v else id }

def planCsrw (save : Nat → State → State) (f : Fld) (k : Ctx) : Plan := planCsrWrite save .write f k
def planCsrs (save : Nat → State → State) (f : Fld) (k : Ctx) : Plan := planCsrWrite save .set f k
def planCsrc (save : Nat → State → State) (f : Fld) (k : Ctx) : Plan := planCsrWrite save .clear f k

/-- UIREC_READ (R130): an AP pops the head completion record into an a register. -/
def readUirec (c : CoreId) (d : Fin 32) (s : State) : State :=
  let v := uirecValue (s.core c)
  s.modCore c fun x => popRecord (writeA (inIntr x .ap) d.val v x)

/-- UEADDR_READ (R438). -/
def readUeaddr (c : CoreId) (s : State) : State := s.modCore c clearUeaddr

end Sys2Proof.Machine
end

