-- ==== Sys2Proof/Machine/Cop.lean ====
section
/-! DEFINITION. The coprocessor form: issue of commands by LEAD and the AP, scrub words, guards at the queue heads, and
dispatch (R79-R83, R137-R139, R155-R162, R190, R392). -/

namespace Sys2Proof.Machine

/-! ### Functions and queues (R157) -/

/-- The target of a function code. -/
def targetOfFn (fn : Nat) : Target :=
  if fn ≤ 0x06 then .copy
  else match fn with
    | 0x08 => .dresser
    | 0x09 => .histogram
    | 0x0A => .binning
    | 0x0B => .collective
    | 0x0C => .rng
    | _ => .priv

/-- The commands in a queue of a core, head first. -/
def queueOf (x : Core) (src : CmdSource) (t : Target) : List Command :=
  x.cmds.filter fun k => decide (k.src = src) && decide (k.target = t)

/-- The engine that issues, as the source of commands. -/
def sourceOfEng (e : Engine) : CmdSource := if e = .ap then .ap else .lead

/-- Is the queue that a function pushes into full (R80)? -/
def queueFull (k : Ctx) (fn : Nat) : Bool :=
  decide (16 ≤ (queueOf k.core (sourceOfEng k.e) (targetOfFn fn)).length)

/-! ### Destinations (R82) -/

/-- Is a slot of the job's bank, or of the handler's, the destination of a reply that has not been written? -/
def pendingSlot (s : State) (c : CoreId) (hnd : Bool) (code : RegCode) : Bool :=
  let x := s.core c
  let mine (k : Command) : Bool := decide (k.d = code) && decide ((decide (k.src = .lead) && k.hnd) = hnd)
  let scrubs := s.scrub.list.map (fun y => y.reply) ++ s.scrub.joins.map fun y => y.2
  x.cmds.any mine || x.running.any mine || (!hnd && x.ap.heldDone.any fun y => decide (y.d = code))
    || (!hnd && scrubs.any fun r => decide (r.core = c) && decide (r.d = code) && decide (r.job = x.job))

/-- The late operand of naming a pending destination: a reply that has not been written (R37, R82), which is never a guard
that has not been (R114). -/
def lateReply (k : Ctx) (d : RegCode) : List (Nat × Nat) :=
  if d = 0 then []
  else if isSlot d then (if pendingSlot k.s k.c (inTrap k.core k.e) d then [(7, d.toNat)] else [])
  else lateReg k d

/-- A core in which a destination waits for its reply (R60, R82). -/
def markReply (e : Engine) (hnd intr : Bool) (d : RegCode) (x : Core) : Core :=
  if d = 0 then x
  else if isSlot d then voidSlot hnd (slotNo d) x
  else markPending (decide (e = .ap)) hnd intr d true x

/-! ### Ranges (R137, R138, R164, R165, R169, R190) -/

/-- A virtual range that a command may touch, with whether it writes it. -/
structure Span where
  va : Nat
  len : Nat
  wr : Bool
deriving DecidableEq, Repr

/-- The part of a command that an issue knows before its ranges are translated; `head` is the program's header or the
descriptor that its other ranges follow from. -/
structure Ask where
  fn : Nat
  a : W64
  b : W64
  imm : Nat
  geo : Vector W64 8
  head : List Byte := []
deriving DecidableEq, Repr

/-- The rows of a table that a gather or scatter touches. -/
def tableSpans (q : Ask) (wr : Bool) : List Span :=
  let t := bitsN q.imm 20 2
  match tableOf (vget q.geo (2 * t + 1) 0) with
  | none => []
  | some (rowb, bound) =>
    ((List.range 8).filter fun n => decide (indexOf q.a q.b n < bound)).map fun n =>
      { va := (vget q.geo (2 * t) 0).toNat + indexOf q.a q.b n * rowb, len := rowb, wr }

/-- The memory side of a copy. -/
def rowSpans (base t : Nat) (g : Geo) (wr : Bool) : List Span :=
  (memoryRows base t g).map fun r => { va := r.1, len := r.2, wr }

/-- The length of a copy's destination in memory: SPAN of the program in its slot, or the dense size (R165). -/
def mmSpan (s : State) (c : CoreId) (slot dt : Nat) (g : Geo) : Nat :=
  match vget (s.cluster c.cluster).slots slot none with
  | some d => if slot = 0 then denseSize dt g else dressSpan d.prog
  | none => denseSize dt g

/-- The ranges of a copy; none for one whose shape is invalid, which touches nothing. -/
def copySpans (s : State) (c : CoreId) (q : Ask) : List Span :=
  let g := geoOf (vget q.geo (bitsN q.imm 25 3) 0)
  let st := bitsN q.imm 32 4
  let dt := bitsN q.imm 28 4
  let pl := decide (bitsN q.imm 24 1 = 1)
  let out := decide (q.fn = 2)
  if badShape st dt (if out then dt else st) pl g then []
  else if out then rowSpans q.a.toNat dt g true
  else rowSpans q.a.toNat st g false
    ++ (if q.fn = 5 then [{ va := q.b.toNat, len := mmSpan s c (bitsN q.imm 16 4) dt g, wr := true }] else [])

/-- The ranges of a `dress`: the header and the words it counts (R172). -/
def dressSpans (q : Ask) : List Span :=
  let n := match dressCount (bvOfBytes 64 q.head) with
    | some n => n
    | none => 0
  [{ va := q.a.toNat, len := 8 * (n + 1), wr := false }]

/-- The ranges of a `coll`: its input, output and STATUS word (R348, R349); the descriptor's own bytes are read at
issue. -/
def collSpans (q : Ask) : List Span :=
  if descValid q.head then
    let x := descOf q.head
    [ { va := x.inp, len := tensorBytes x (localExt x MeshAxis.src), wr := false }
    , { va := x.out, len := tensorBytes x (localExt x MeshAxis.dst), wr := true }
    , { va := x.st, len := 8, wr := true } ]
  else []

/-- The ranges of a command. -/
def spansOf (s : State) (c : CoreId) (q : Ask) : List Span :=
  match q.fn with
  | 1 | 2 | 5 => copySpans s c q
  | 3 => tableSpans q false
  | 4 => tableSpans q true
  | 8 => dressSpans q
  | 0x0B => collSpans q
  | _ => []

/-- The length of what must be read at a command's address a before its ranges are known: a program's header, a
descriptor. -/
def headLen (fn : Nat) : Nat := if fn = 8 then 8 else if fn = 0x0B then 128 else 0

/-- Does the command read or write memory (R159)? A `keyslot` does but for a zeroise (R418, R419). -/
def usesMemory (q : Ask) : Bool :=
  [1, 2, 3, 4, 5, 8, 0x0B].contains q.fn || (decide (q.fn = 0x42) && decide (bitsN q.imm 16 2 ≠ 1))

/-- The access that a span asks for. -/
def spanAccess (p : Span) : Access := if p.wr then .write else .read

/-- A span put into its place in address order. -/
def spanInsert (p : Span) : List Span → List Span
  | [] => [p]
  | q :: r => if q.va ≤ p.va then q :: spanInsert p r else p :: q :: r

/-- The page parts of ranges, in address order (R190). -/
def orderedParts (l : List Span) : List Span :=
  (l.flatMap fun p => (splitPages (p.len / 0x10000 + 2) (p.va % 2 ^ 64) p.len).map fun (va, n) => { va, len := n, wr := p.wr }).foldr
    spanInsert []

/-- Every page of every range walked and checked in address order: the first fault, or the state with the TLB filled. -/
def checkSpans (c : CoreId) : List Span → State → Except WalkFault State
  | [], s => .ok s
  | p :: r, s =>
    match translateRange s c p.va p.len (spanAccess p) with
    | .error f => .error f
    | .ok (_, s) => checkSpans c r s

/-- The physical parts of ranges, in the ranges' order. -/
def spanPieces (c : CoreId) : List Span → State → List Piece × State
  | [], s => ([], s)
  | p :: r, s =>
    match translateRange s c p.va p.len (spanAccess p) with
    | .error _ => spanPieces c r s
    | .ok (ps, s) =>
      let (qs, s) := spanPieces c r s
      (ps ++ qs, s)

/-! ### Issue -/

/-- What the AP orders before a command that uses memory (R159). -/
def beforeCommand (c : CoreId) (q : Ask) (s : State) : State :=
  if usesMemory q then flushRegs (drainAll c s) else s

/-- A part of a header or descriptor as an untimed engine reads it, 0xFF for a byte that fails; none for bytes that a
request under a session must bring (R182). -/
def headPart (s : State) (c : CoreId) (p : Piece) : List (Option Byte) :=
  let w := (s.core c).csr.world
  if pieceShut s c w p.pa then List.replicate p.len (some 0xFF)
  else if inHost p.pa && sessionActive s c then List.replicate p.len none
  else (engineBytes s c.face w p.pa p.len).map fun b => some (b.getD 0xFF)

/-- The header or descriptor that a command's ranges follow from, read at issue (R139, R348). -/
def headGot (c : CoreId) (q : Ask) (s : State) : Got :=
  if headLen q.fn = 0 then .bytes [] s
  else
    match (s.core c).ap.host with
    | some w => if allAnswered w.parts then .bytes (waitBytes w) (s.modCore c clearWait) else .wait id
    | none =>
      match translateRange s c q.a.toNat (headLen q.fn) .read with
      | .error f => .fault (apWalkFault s c f f.va) (noteWalk f)
      | .ok (ps, s) =>
        let got := ps.flatMap (headPart s c)
        if got.all Option.isSome then
          .bytes (got.map fun b => b.getD 0) (if inHost (pieceAddr ps 0) then clearRequest c (ps.headD flushPiece) s else s)
        else .wait fun _ => askHost c q.a.toNat got (missingParts got ps) s

/-- The issue of an AP's command: the accesses before it have performed (R159), then its header, then the check of its ranges
(R190). It gives the header. -/
def issueGot (c : CoreId) (q : Ask) (s : State) : Got :=
  let s := beforeCommand c q s
  if usesMemory q && !storesDone s c then .wait fun _ => s
  else
    match headGot c q s with
    | .bytes l s =>
      match checkSpans c (orderedParts (spansOf s c { q with head := l })) s with
      | .error f => .fault (apWalkFault s c f f.va) fun s => noteWalk f (beforeCommand c q s)
      | .ok s => .bytes l s
    | g => g

/-- A table image that a `coll` copies at issue: the slot that TMSHAPE names (R339). -/
def shapeTable (x : Core) : List Byte :=
  if tmTb x.csr.tmshape then vget x.sf.tab (tmSlot x.csr.tmshape) [] else []

/-- The command that a word pushes, with its operands and ranges as captured at issue. -/
def makeCommand (k : Ctx) (fn : BitVec 7) (f : Fld) (q : Ask) (s : State) : Command × State :=
  let x := s.core k.c
  let ap := decide (k.e = .ap)
  let (pieces, s) := if ap then spanPieces k.c (spansOf s k.c q) s else ([], s)
  ({ id := s.nextId, src := sourceOfEng k.e, target := targetOfFn q.fn, fn, d := f.d, g := f.h.g, gs := f.h.gs, a := q.a, b := q.b
     imm := f.imm, geo := q.geo, world := x.csr.world, hnd := if ap then inIntr x .ap else inTrap x .lead, pieces
     xtra := q.head
     tmshape := x.csr.tmshape, tab := shapeTable x, ok := none, prog := none }, { s with nextId := s.nextId + 1 })

/-- The operands of a word: a field 0x00 is no operand. -/
def askOf (k : Ctx) (fn : BitVec 7) (f : Fld) : Ask :=
  { fn := fn.toNat, a := if f.a = 0 then 0 else readReg k.core k.e f.a, b := if f.b = 0 then 0 else readReg k.core k.e f.b
    imm := f.imm.toNat, geo := k.core.ap.geo }

/-- The late operands of a word's sources and destination. -/
def lateCop (k : Ctx) (f : Fld) : List (Nat × Nat) :=
  (if f.a = 0 then [] else lateReg k f.a) ++ (if f.b = 0 then [] else lateReg k f.b) ++ lateReply k f.d

/-- A command pushed onto its queue (R79, R80). -/
def pushCommand (k : Ctx) (fn : BitVec 7) (f : Fld) (q : Ask) (s : State) : State :=
  let (y, s) := makeCommand k fn f q s
  s.modCore k.c fun x =>
    let x := markReply k.e (inTrap x k.e) (inIntr x k.e) f.d x
    { x with cmds := x.cmds ++ [y] }

/-- cop (R79-R83): the word itself has no guard; privilege, then the waits, then the translation of the command's
ranges, then the push. -/
def planCop (fn : BitVec 7) (f : Fld) (k : Ctx) : Plan :=
  if decide (0x40 ≤ fn.toNat) && !streamPriv k then planCause k 2 3 0
  else
    let lates := lateCop k f ++ (if queueFull k fn.toNat then [(2, 0x200 + fn.toNat)] else [])
    let q := askOf k fn f
    if k.e = .ap then planGot k lates (issueGot k.c q) fun l s => pushCommand k fn f { q with head := l } s
    else { lates, act := pushCommand k fn f q }

/-! ### Scrub words (R391, R392, R396) -/

/-- Is the word's guard written, and does it let the word act? -/
def scrubNull (k : Ctx) (f : Fld) : Bool := !guardTrue k.core k.e f.h

/-- The world of a scrub word. -/
def scrubWorld (f : Fld) : World := BitVec.ofNat 4 (immBits f 20 4)

/-- A scrub word's effect on a state. -/
def scrubAct (k : Ctx) (kind : Nat) (f : Fld) (s : State) : State :=
  let x := s.core k.c
  let w := scrubWorld f
  let a := if f.a = 0 then 0 else readReg k.core k.e f.a
  let b := if f.b = 0 then 0 else readReg k.core k.e f.b
  let r : ScrubReply := { core := k.c, d := f.d, intr := inIntr x .ap, tag := BitVec.ofNat 16 (immBits f 0 16), job := x.job }
  let s1 := s.modCore k.c (markReply .ap false (inIntr x .ap) f.d)
  if scrubNull k f then replyScrub r 0 0 s1
  else if kind = 3 then
    (if vget s.scrub.active w.toNat false then { s1 with scrub := { s1.scrub with joins := s1.scrub.joins ++ [(w, r)] } }
     else replyScrub r 0 1 s1)
  else
    let st := scrubRefusal s w kind a b
    if st ≠ 0 then replyScrub r st 0 s1
    else recordScrub { world := w, kind := BitVec.ofNat 2 kind, a, b, steps := 0, reply := r } s1

/-- Does the word wait because the scrub list is full? -/
def scrubWaits (k : Ctx) (kind : Nat) (f : Fld) : Bool :=
  let q := askOf k 0x41 f
  decide (kind ≠ 3) && decide (scrubRefusal k.s (scrubWorld f) kind q.a q.b = 0) && decide (64 ≤ k.s.scrub.list.length)

/-- What the AP orders before a scrub word: one of memory or of L2 lines reads or writes memory (R159). -/
def beforeScrub (k : Ctx) (kind : Nat) (f : Fld) (s : State) : State :=
  if (kind = 1 ∨ kind = 2) ∧ !scrubNull k f then flushRegs (drainAll k.c s) else s

/-- A scrub word of a kind: it resolves its own guard and enters no queue. -/
def planScrub (kind : Nat) (f : Fld) (k : Ctx) : Plan :=
  if !streamPriv k then planCause k 2 3 0
  else
    let lates := (if guardLate k.core k.e f.h then [(3, 0x90 + f.h.g.toNat)] else []) ++ lateCop k f
    let s := beforeScrub k kind f k.s
    let held := (decide (kind = 1) || decide (kind = 2)) && !storesDone s k.c
    let waits := lates.isEmpty && !scrubNull k f && (held || scrubWaits { k with s } kind f)
    { lates := lates ++ (if waits then [(0, 0)] else []), act := fun s => scrubAct k kind f (beforeScrub k kind f s)
      wait := if lates.isEmpty then beforeScrub k kind f else id }

def planScrubLedge (f : Fld) (k : Ctx) : Plan := planScrub 0 f k
def planScrubMem (f : Fld) (k : Ctx) : Plan := planScrub 1 f k
def planScrubL2 (f : Fld) (k : Ctx) : Plan := planScrub 2 f k
def planScrubJoin (f : Fld) (k : Ctx) : Plan := planScrub 3 f k

/-! ### Guards at the head of a queue (R81) -/

/-- Whether a command's guard slot is written, and whether the command then performs. The slot is one of the bank that
the word was issued in. -/
def commandGuard (x : Core) (k : Command) : Option Bool :=
  let hnd := decide (k.src = .lead) && k.hnd
  if k.g = 15 then some true
  else if slotWritten x hnd k.g.toNat then some (slotVal x hnd k.g.toNat != k.gs)
  else none

/-- A core without a queued command. -/
def dropCommand (id : Nat) (x : Core) : Core := { x with cmds := x.cmds.filter fun y => decide (y.id ≠ id) }

/-- A core with a queued command's guard resolved. -/
def resolveCommand (id : Nat) (x : Core) : Core :=
  { x with cmds := x.cmds.map fun y => if y.id = id then { y with ok := some true } else y }

/-- A command whose guard is false: it leaves its queue as a null that completes at once, or whose completion is held like
any other's (R81, R129). -/
def nullCommand (k : Command) (x : Core) : Core :=
  let x := dropCommand k.id x
  completeOn k 0 0 { x with running := x.running ++ [{ k with ok := some false }] }

/-- COMMAND_HEAD_RESOLVE (R81): a true guard lets the head perform; a false one retires it as a null, with STATUS 0x00 and
the reply zero. -/
def headResolve (c : CoreId) (src : CmdSource) (t : Target) (s : State) : State :=
  match (queueOf (s.core c) src t).head? with
  | none => s
  | some k =>
    if k.ok.isSome then s
    else match commandGuard (s.core c) k with
      | none => s
      | some true => s.modCore c (resolveCommand k.id)
      | some false => s.modCore c (nullCommand k)

/-! ### Dispatch (R158, R162, R171) -/

/-- A run of bytes, with whether it is written: in the scratchpad, or in physical memory. -/
structure Extent where
  mem : Bool
  lo : Nat
  len : Nat
  wr : Bool
deriving DecidableEq, Repr

/-- The length of the scratchpad range that a program gives (R175). -/
def spanOr (p : Option DressSlot) (slot n : Nat) : Nat :=
  if slot = 0 then n else match p with
    | some d => dressSpan d.prog
    | none => n

/-- The scratchpad ranges of a command (R158, R175). -/
def spadExtents (k : Command) (prog : Option DressSlot) : List Extent :=
  let row := bitsN k.b.toNat 0 14 * 128
  let g := copyGeo k
  match k.fn.toNat with
  | 1 => [{ mem := false, lo := row, wr := true
            len := spanOr prog (cmdImm k 16 4) (streamSize (copyDt k) (decide (cmdImm k 24 1 = 1)) g) }]
  | 2 => [{ mem := false, lo := row, len := denseSize (copySt k) g, wr := false }]
  | 3 =>
    match tableOf (vget k.geo (2 * cmdImm k 20 2 + 1) 0) with
    | some (rowb, _) => [{ mem := false, lo := cmdImm k 22 14 * 128, len := spanOr prog (cmdImm k 16 4) (8 * rowb), wr := true }]
    | none => []
  | 4 =>
    match tableOf (vget k.geo (2 * cmdImm k 20 2 + 1) 0) with
    | some (rowb, _) => [{ mem := false, lo := cmdImm k 22 14 * 128, len := 8 * rowb, wr := false }]
    | none => []
  | 6 => [{ mem := false, lo := row, len := 128 * bitsN k.b.toNat 16 16, wr := true }]
  | 9 =>
    let a := k.a.toNat
    let rows := bitsN k.b.toNat 0 16
    [ { mem := false, lo := a, len := 4 * rows, wr := false }
    , { mem := false, lo := (a + 4 * rows + 127) / 128 * 128, len := 4 * (bitsN k.b.toNat 16 8 + 1), wr := true } ]
  | 0x0A => [{ mem := false, lo := 0, len := 0x200000, wr := true }]
  | _ => []

/-- A part of a command's memory ranges joined to the run of its page, with the size of that page: the smallest contiguous run
that holds both. -/
def joinRun (p : Piece) : List (Nat × Extent) → List (Nat × Extent)
  | [] => [(p.use.bits, { mem := true, lo := p.pa, len := p.len, wr := p.wr })]
  | (b, e) :: r =>
    if b = p.use.bits ∧ e.wr = p.wr ∧ e.lo / 2 ^ b = p.pa / 2 ^ b then
      let lo := min e.lo p.pa
      (b, { e with lo, len := max (e.lo + e.len) (p.pa + p.len) - lo }) :: r
    else (b, e) :: joinRun p r

/-- The memory ranges of a command: one run per page and direction (R158); a `keyslot`'s blob, at its physical address
(R418). -/
def memExtents (k : Command) : List Extent :=
  (k.pieces.foldl (fun l p => joinRun p l) []).map Prod.snd
    ++ (if k.fn = 0x42 ∧ cmdImm k 16 2 ≠ 1 then [{ mem := true, lo := k.a.toNat, len := 112, wr := decide (cmdImm k 16 2 = 2) }]
        else [])

/-- The ranges of a command. -/
def extentsOf (k : Command) (prog : Option DressSlot) : List Extent := spadExtents k prog ++ memExtents k

/-- Do two ranges meet, with a write among them? -/
def extentsMeet (a b : Extent) : Bool :=
  decide (a.mem = b.mem) && (a.wr || b.wr) && decide (a.lo < b.lo + b.len) && decide (b.lo < a.lo + a.len)

/-- The program that a command's dresser slot holds now (R171). -/
def slotProgram (s : State) (c : CoreId) (k : Command) : Option DressSlot :=
  if [1, 3, 5].contains k.fn.toNat then vget (s.cluster c.cluster).slots (cmdImm k 16 4) none else none

/-- Is the command held back by one dispatched earlier from its queue (R158; against R143's One run, log 36)? -/
def dispatchBlocked (s : State) (c : CoreId) (k : Command) : Bool :=
  let es := extentsOf k (slotProgram s c k)
  (s.core c).running.any fun y =>
    decide (y.src = k.src) && decide (y.target = k.target) && decide (y.ok = some true)
      && (extentsOf y y.prog).any fun a => es.any (extentsMeet a)

/-- The commands that the engines of a target hold: the copy engines, the dresser, the histogram, binning and random-number
units are a cluster's; the collective and privileged units have no such limit here. -/
def heldBy (s : State) (k : ClusterId) (t : Target) : List Command :=
  (k.cores.flatMap fun c => (s.core c).running).filter fun y => decide (y.target = t) && decide (y.ok = some true)

/-- The number of engines of a target in a cluster (R158); the collective unit's limit is on what it starts (R355). -/
def engineCount (t : Target) : Option Nat :=
  match t with
  | .copy => some 4
  | .collective | .priv => none
  | _ => some 1

/-- Is an engine free for a command (R158)? An engine holds one command at a time, so it has completed those of its
previous world before it starts one of another (R162). -/
def engineFree (s : State) (c : CoreId) (k : Command) : Bool :=
  match engineCount k.target with
  | none => true
  | some n => decide ((heldBy s c.cluster k.target).length < n)

/-- The number of a copy queue among the eight of its cluster. -/
def queueNo (c : CoreId) (src : CmdSource) : Nat := 2 * (c.val % 4) + (if src = .ap then 1 else 0)

/-- A cluster whose shared unit starts a command: it has cleared its working storage where the command's world is not the
previous one's (R162), and the copy queues' turn has come to this one (R158). -/
def startUnit (c : CoreId) (k : Command) (y : Cluster) : Cluster :=
  { y with
    work := if k.target = .dresser ∧ assocGet k.target y.lastWorld ≠ some k.world then DressWork.empty else y.work
    turn := if k.target = .copy then queueNo c k.src else y.turn
    lastWorld := assocPut k.target k.world y.lastWorld }

/-- A command dispatched: bound to its program, and out of its queue. -/
def dispatchTo (c : CoreId) (k : Command) (s : State) : State :=
  let k' := { k with prog := slotProgram s c k }
  let s := s.modCore c fun x => { dropCommand k.id x with running := x.running ++ [k'] }
  s.modCluster c.cluster (startUnit c k)

/-- The head of a queue, where it can be dispatched: its guard is true, nothing dispatched before it holds it back, an engine
is free, and it is no saved command whose translation is to be renewed (R158, R199). -/
def readyHead (s : State) (c : CoreId) (src : CmdSource) (t : Target) : Option Command :=
  match (queueOf (s.core c) src t).head? with
  | none => none
  | some k =>
    if decide (k.ok = some true) && !dispatchBlocked s c k && engineFree s c k && !(s.core c).ap.stale then some k else none

/-- How far a copy queue is behind the one that the copy engines took a head from last. -/
def turnsAfter (y : Cluster) (n : Nat) : Nat := (n + 7 - y.turn) % 8

/-- Does another copy queue of the cluster, whose head can be dispatched, come before this one (R158)? -/
def turnTaken (s : State) (c : CoreId) (src : CmdSource) : Bool :=
  let y := s.cluster c.cluster
  c.cluster.cores.any fun d => [CmdSource.lead, CmdSource.ap].any fun r =>
    decide (turnsAfter y (queueNo d r) < turnsAfter y (queueNo c src)) && (readyHead s d r .copy).isSome

/-- COMMAND_DISPATCH (R158): the head of a queue goes to a free engine, a copy queue's in its turn. -/
def dispatchHead (c : CoreId) (src : CmdSource) (t : Target) (s : State) : State :=
  match readyHead s c src t with
  | none => s
  | some k => if decide (t = .copy) && turnTaken s c src then s else dispatchTo c k s

end Sys2Proof.Machine
end

