-- ==== Sys2Proof/Machine/Loops.lean ====
section
/-! DEFINITION. Loops, `idle`, loop registers, rendezvous words, `tret`, and how a stream moves on after a word (R11,
R12, R30-R32, R99-R112, R116, R124). -/

namespace Sys2Proof.Machine

/-! ### Loop levels -/

/-- A stream with a level replaced. -/
def putLevel (t : Stream) (n : Nat) (l : Level) : Stream := { t with loops := vset t.loops n l }

/-- The fields of a loop word (R104). -/
def loopLv (f : Fld) : Nat := immBits f 34 2
def loopRg (f : Fld) : Bool := decide (immBits f 33 1 = 1)
def loopEnd (f : Fld) : Nat := immBits f 23 10
def loopEpi (f : Fld) : Nat := immBits f 20 3
def loopCnt (f : Fld) : Nat := immBits f 8 12
def loopPf (f : Fld) : Nat := immBits f 4 4
def loopNs (f : Fld) : Nat := immBits f 0 4

/-- The loop registers as a loop word leaves them (R105). -/
def loopRegs (k : Ctx) (f : Fld) (l : Level) : Level :=
  if loopRg f then l
  else { l with
    cnt := if f.a = 0 then BitVec.ofNat 32 (loopCnt f) else (readReg k.core k.e f.a).setWidth 32
    start := 0, lend := BitVec.ofNat 10 (loopEnd f), epi := BitVec.ofNat 3 (loopEpi f) }

/-- Does a level with number at least `n` run in the stream (R106)? -/
def runsFrom (t : Stream) (n : Nat) : Bool :=
  (List.range 4).any fun i => decide (n ≤ i) && (levelOf t i).act

/-- Does an end word lie beyond the end word of an active enclosing level (R106)? -/
def beyondOuter (t : Stream) (n last : Nat) : Bool :=
  (List.range 4).any fun i => decide (i < n) && (levelOf t i).act && decide ((levelOf t i).last < last)

/-- Does a stage range meet one that runs (R46)? -/
def stageOverlap (x : Core) (pf ns : Nat) : Bool := (List.range ns).any fun i => inStageRange x (pf + i)

/-- A loop level opened (R105). -/
def openLevel (st : Bool) (f : Fld) (off : Nat) (l : Level) : Level :=
  { l with
    idx := l.start, act := true, aCnt := l.cnt, aStart := l.start, aEnd := l.lend, aEpi := l.epi, stage := st
    pf := if st then BitVec.ofNat 4 (loopPf f) else 0, ns := if st then BitVec.ofNat 4 (loopNs f) else 0
    done := 0, first := off + 1, last := off + l.lend.toNat }

/-- The stage slots as `loop.st` sets them (R105). -/
def openSlots (pf ns : Nat) (first : Bool) (x : Core) : Core :=
  (List.range ns).foldl (fun x i => writeSlot false (pf + i) (first && decide (i = 0)) x) x

/-- The plan of `loop` and `loop.st` (R104-R106). -/
def planLoopWith (st : Bool) (f : Fld) (k : Ctx) : Plan :=
  let n := loopLv f
  let x := k.core
  let t := x.stream k.e
  let l := loopRegs k f (levelOf t n)
  let off := k.req.word
  let wc := (nextOf k.s k.c k.e).pos.wc
  let last := off + l.lend.toNat
  let lates := if f.a = 0 then [] else lateReg k f.a
  if spatial x n || decide (wc ≤ last) then planCause k 1 13 0
  else if decide (kindOf x n = 0) || runsFrom t n || decide (l.lend = 0) || beyondOuter t n last
      || (st && (decide (15 < loopPf f + loopNs f) || stageOverlap x (loopPf f) (loopNs f))) then
    (planCause k 4 7 0).withLates lates
  else if l.cnt.toNat + l.epi.toNat = 0 then
    { lates, skip := some last, act := fun s => s.modCore k.c fun x => x.modStream k.e fun t => putLevel t n l }
  else
    planCore k (if st then (List.range (loopNs f)).map fun i => .write (0x90 + loopPf f + i) 0 else [])
      (fun x =>
        let x := if st then openSlots (loopPf f) (loopNs f) (decide (l.cnt ≠ 0)) x else x
        x.modStream k.e fun t => putLevel t n (openLevel st f off l))
      |>.withLates lates

/-- loop (R105). -/
def planLoop (f : Fld) (k : Ctx) : Plan := planLoopWith false f k

/-- loop.st (R105). -/
def planLoopSt (f : Fld) (k : Ctx) : Plan := planLoopWith true f k

/-- A loop register by SEL (R109). -/
def loopReg (x : Core) (e : Engine) (n sel : Nat) : W64 :=
  let l := levelOf (x.stream e) n
  match sel with
  | 0 => l.cnt.setWidth 64
  | 1 => l.start.setWidth 64
  | 2 => l.lend.setWidth 64
  | 3 => l.epi.setWidth 64
  | 4 => BitVec.ofNat 64 (levelIdx x e n)
  | 5 => if l.act then 1 else 0
  | _ => 0

/-- A level with a loop register written by `lpw` (R110, R111): the activation's own copy stays. -/
def setLoopReg (sel : Nat) (v : W64) (l : Level) : Level :=
  match sel with
  | 0 => { l with cnt := v.setWidth 32 }
  | 1 => { l with start := v.setWidth 32 }
  | 2 => { l with lend := v.setWidth 10 }
  | 3 => { l with epi := v.setWidth 3 }
  | _ => l

/-- lpr (R110). -/
def planLpr (f : Fld) (k : Ctx) : Plan := planReg k [] f.d (loopReg k.core k.e (immBits f 4 2) (immBits f 0 3))

/-- lpw (R110). -/
def planLpw (f : Fld) (k : Ctx) : Plan :=
  let n := immBits f 4 2
  let v := readReg k.core k.e f.a
  (planCore k [] fun x => x.modStream k.e fun t => putLevel t n (setLoopReg (immBits f 0 3) v (levelOf t n))).withLates
    (lateReg k f.a)

/-- idle (R103). -/
def planIdle (f : Fld) (_ : Ctx) : Plan := { idle := f.imm.toNat }

/-! ### Rendezvous words and `tret` -/

/-- The stream's part of a rendezvous that has retired. -/
def passRdv (e : Engine) (x : Core) : Core := x.modStream e fun t => { t with rdvs := t.rdvs + 1, arrived := none }

/-- The stream stands at a rendezvous word (R26, R99). -/
def arriveAt (form : RdvForm) (e : Engine) (x : Core) : Core := x.modStream e fun t => { t with arrived := some form }

/-- An AP comes to a rendezvous word: it arrives once its earlier accesses have performed at team scope (R324). -/
def arriveAp (c : CoreId) (form : RdvForm) (s : State) : State :=
  if ((s.core c).stream .ap).arrived.isSome then s
  else
    let t := drainAll c s
    let scope := match jobOf s c with
      | some j => teamScope j.team
      | none => 3
    if storesDone t c then (fenceAp c scope true false t).modCore c (arriveAt form .ap) else t

/-- Has the job retired the rendezvous that the stream comes to next (R99, R100)? -/
def rdvPassed (s : State) (c : CoreId) (e : Engine) : Bool :=
  match jobOf s c with
  | some j => decide (((s.core c).stream e).rdvs < j.rdvs)
  | none => false

/-- rdv and rdv.flip (R99, R100): late until the rendezvous has retired; a stream that stands there has arrived. -/
def planRdvWith (form : RdvForm) (k : Ctx) : Plan :=
  { lates := if rdvPassed k.s k.c k.e then [] else [(6, 0)]
    act := fun s => s.modCore k.c (passRdv k.e)
    wait := if k.e = .ap then arriveAp k.c form else fun s => s.modCore k.c (arriveAt form k.e) }

def planRdv (_ : Fld) (k : Ctx) : Plan := planRdvWith .rdv k
def planRdvFlip (_ : Fld) (k : Ctx) : Plan := planRdvWith .flip k

/-- rdv.align (R18, R26): the stream stands at its first word until RDV_ALIGN_RETIRE; anywhere else it is no
instruction. -/
def planRdvAlign (_ : Fld) (k : Ctx) : Plan :=
  if (k.core.stream k.e).first then { lates := [(6, 0)], wait := fun s => s.modCore k.c (arriveAt .align k.e) }
  else planCause k 1 15 0

/-- The tick count at which a timed stream of a job retires `rdv.end` (R406). -/
def noteEnd (c : CoreId) (e : Engine) (s : State) : State :=
  match (s.core c).job with
  | some id =>
    if e.timed then
      { s with jobs := s.jobs.map fun j => if j.id = id then { j with maxTick := max j.maxTick (tickOf s c) } else j }
    else s
  | none => s

/-- rdv.end (R101): retires at its own issue, and the stream issues nothing more. -/
def planRdvEnd (_ : Fld) (k : Ctx) : Plan :=
  { act := fun s => noteEnd k.c k.e (s.modCore k.c fun x => x.modStream k.e fun t => { t with ended := true }) }

/-- tret (R124): outside handler state a privilege trap. -/
def planTret (_ : Fld) (k : Ctx) : Plan :=
  if inTrap k.core k.e then { leave := true, act := leaveTrap k.c } else planCause k 2 0 0

/-! ### Moving on -/

/-- One level resolved at its end word (R12): whether it takes its back-edge, and the level after. -/
def resolveLevel (l : Level) : Bool × Level :=
  if l.done + 1 = l.aCnt.toNat + l.aEpi.toNat then (false, { l with act := false })
  else (true, { l with done := l.done + 1, idx := l.idx + 1 })

/-- The stage slots shifted at a back-edge (R12): from the top down, each takes the value of the slot below. -/
def shiftSlots (pf : Nat) : Nat → Core → Core
  | 0, x => x
  | n + 1, x => shiftSlots pf n (writeSlot false (pf + n + 1) (slotVal x false (pf + n)) x)

/-- A core after a back-edge of level `l` of engine `e` (R12). -/
def backEdge (e : Engine) (l : Level) (x : Core) : Core :=
  let x := x.modStream e fun t => { t with rot := t.rot + 1 }
  if l.stage then writeSlot false l.pf.toNat (decide (l.done < l.aCnt.toNat)) (shiftSlots l.pf.toNat (l.ns.toNat - 1) x)
  else x

/-- The loop levels that end at word `off`, innermost first from level `n - 1` (R107): the core, and the word that a
back-edge goes to. -/
def resolveLoops (e : Engine) (off : Nat) : Nat → Core → Core × Option Nat
  | 0, x => (x, none)
  | n + 1, x =>
    let l := levelOf (x.stream e) n
    if l.act && decide (l.last = off) then
      let (back, l') := resolveLevel l
      let x := x.modStream e fun t => putLevel t n l'
      if back then (backEdge e l' x, some l.first) else resolveLoops e off n x
    else resolveLoops e off n x

/-- The position after a word at `p`, when a loop body that ends at word `last` is skipped. -/
def posSkip (p : Pos) (last : Nat) : Pos := posAfter { p with off := last }

/-- A core whose engine has issued the word at `p` of its job's stream (R19, R30, R31): loops resolved, the position
moved on, and the pitch retired after its last word. -/
def advanceJob (e : Engine) (p : Pos) (now : Nat) (idle : Nat) (skip : Option Nat) (x : Core) : Core :=
  let (x, back) := match skip with
    | some _ => (x, none)
    | none => resolveLoops e p.off 4 x
  let next := match back, skip with
    | some off, _ => { p with off }
    | none, some last => posSkip p last
    | none, none => posAfter p
  x.modStream e fun t => { t with
    pos := next, first := false, last := if e.timed then now else t.last, extra := idle
    ret := if next.hdr then p.pitch else t.ret }

/-- A core whose engine has issued the word at `p` of the image it reads. A handler's retirements are not counted
(R122, R129). -/
def advance (e : Engine) (p : Pos) (now : Nat) (idle : Nat) (skip : Option Nat) (x : Core) : Core :=
  if inTrap x e || inIntr x e then setPos e (posAfter p) x else advanceJob e p now idle skip x

end Sys2Proof.Machine
end

