-- ==== Sys2Proof/Machine/Perform.lean ====
section
/-! DEFINITION. The events in which a dispatched command performs (R138-R140, R155-R171, R195, R304-R306, R348, R390, R419). -/

namespace Sys2Proof.Machine

def evCopyIn (c : CoreId) (id : Nat) (s : State) : State := onCommand [1] c id (runCopyIn c) s
def evCopyOut (c : CoreId) (id : Nat) (s : State) : State := onCommand [2] c id (runCopyOut c) s
def evGather (c : CoreId) (id : Nat) (s : State) : State := onCommand [3] c id (runGather c) s
def evScatter (c : CoreId) (id : Nat) (s : State) : State := onCommand [4] c id (runScatter c) s
def evCopyMm (c : CoreId) (id : Nat) (s : State) : State := onCommand [5] c id (runCopyMm c) s
def evFill (c : CoreId) (id : Nat) (s : State) : State := onCommand [6] c id (runFill c) s
def evDress (c : CoreId) (id : Nat) (s : State) : State := onCommand [8] c id (runDress c) s
def evHist (c : CoreId) (id : Nat) (s : State) : State := onCommand [9] c id (runHist c) s
def evBinsort (c : CoreId) (id : Nat) (s : State) : State := onCommand [0xA] c id (runBinsort c) s
def evColl (c : CoreId) (id : Nat) (s : State) : State := runColl c id s
def evRngSeed (c : CoreId) (id : Nat) (s : State) : State := onCommand [0xC] c id (runRngSeed c) s
def evInval (c : CoreId) (id : Nat) (s : State) : State := runInval c id s
def evKeyslotLoad (c : CoreId) (id : Nat) (s : State) : State := onKeyslot 0 (runKeyLoad false) c id s
def evKeyslotZero (c : CoreId) (id : Nat) (s : State) : State := onKeyslot 1 runKeyZero c id s
def evKeyslotWrap (c : CoreId) (id : Nat) (s : State) : State := onKeyslot 2 runKeyWrap c id s
def evKeyslotUnwrap (c : CoreId) (id : Nat) (s : State) : State := onKeyslot 3 (runKeyLoad true) c id s

/-- The sequencer run until the invalidates that it holds have been taken, `n` of them at most. -/
def stepInvals : Nat → State → State
  | 0, s => s
  | n + 1, s => stepInvals n (stepInval s)

/-- One dispatched command run to its end, whatever its function; a collective is not one of these (R133). -/
def performCmd (c : CoreId) (id : Nat) (s : State) : State :=
  match runningCmd s c id with
  | none => s
  | some k =>
    match k.fn.toNat with
    | 1 => evCopyIn c id s
    | 2 => evCopyOut c id s
    | 3 => evGather c id s
    | 4 => evScatter c id s
    | 5 => evCopyMm c id s
    | 6 => evFill c id s
    | 8 => evDress c id s
    | 9 => evHist c id s
    | 0xA => evBinsort c id s
    | 0xC => evRngSeed c id s
    | 0x40 => let s := evInval c id s; stepInvals s.sys.invals.length s
    | 0x42 => match keyOp k with
      | 0 => evKeyslotLoad c id s
      | 1 => evKeyslotZero c id s
      | 2 => evKeyslotWrap c id s
      | _ => evKeyslotUnwrap c id s
    | _ => s

end Sys2Proof.Machine
end

