-- ==== Sys2Proof/Machine/Rendezvous.lean ====
section
/-! DEFINITION. The start of a job, and the retirement of `rdv.align`, `rdv` and `rdv.flip` (R18, R26-R28, R54, R99-R102,
R132, R408). -/

namespace Sys2Proof.Machine

/-! ### Pitch waits (R17, R33) -/

/-- Is a pitch wait satisfied (R33)? One on an absent engine is (R17). -/
def waitMet (x : Core) (w : Engine × BitVec 7) : Bool :=
  !(x.stream w.1).present || decide ((((x.stream w.1).ret.setWidth 7 : BitVec 7) - w.2).toNat < 64)

/-! ### Start (R18, R54) -/

/-- The requester of a stream's first item. -/
def firstReq (e : Engine) : Req := { eng := e, pitch := 0, word := 0 }

/-- Is a word's bits `rdv.align` with a zero delay field? -/
def isAlign (w : BitVec 96) : Bool := decide (w.extractLsb' 88 8 = 0xB1) && decide (w.extractLsb' 80 8 = 0) && decide ((unpackWord w).fn = 0)

/-- The first failed check of a stream's first item and word, as cause and detail: data that cannot be read; no header; a
header that fails its check; another word than `rdv.align`; then the word's own encoding. -/
def startCheck (s : State) (c : CoreId) (e : Engine) : Option (Nat × Nat) :=
  let t := (s.core c).stream e
  let u0 := seeUnit s c t.buf t.pos.base
  let n := nextJob s c e
  if u0.bad then some (11, 7)
  else if !isHeader u0.val then some (1, 14)
  else if n.bad then some (11, 7)
  else if n.detail ≠ 0 then some (1, n.detail)
  else if !isAlign n.bits then some (4, 9)
  else
    let d := encodingDetail { eng := e, first := true, trap := false, intr := false } (unpackWord n.bits)
    if d = 0 then none else some (1, d)

/-- Does a failed check of the start trap the core, whatever the engine? The others of an AP's are AP faults, met when its
first word is next to issue (R18, R54, R77). -/
def startTraps (e : Engine) (x : Nat × Nat) : Bool := e.timed || decide (x = (1, 14)) || decide (x = (4, 9))

/-- The causes of a present stream's first item and first word. -/
def startCauses (s : State) (c : CoreId) (e : Engine) : List TrapCause :=
  match startCheck s c e with
  | some x => if startTraps e x then [causeBy (firstReq e) x.1 x.2 0] else []
  | none => []

/-- The causes of a core's streams at the start. -/
def coreStartCauses (s : State) (c : CoreId) : List TrapCause :=
  (Engine.all.filter fun e => ((s.core c).stream e).present).flatMap (startCauses s c)

/-- Has every present stream of a core its first item and word? -/
def startFetched (s : State) (c : CoreId) : Bool :=
  (Engine.all.filter fun e => ((s.core c).stream e).present).all fun e => (nextJob s c e).fetched

/-- A core's trap at the start, if it has a cause and its cluster stands for no trap. -/
def trapAtStart (c : CoreId) (s : State) : State :=
  match coreStartCauses s c with
  | [] => s
  | a :: r => if trapValid (s.core c) then s else takeTrap c false a r s

/-- JOB_START (R18): the first items and words are checked; a job without a cause begins. -/
def startChecks (id : Nat) (s : State) : State :=
  match jobById s id with
  | none => s
  | some j =>
    if j.phase ≠ .loaded || !(j.team.all (startFetched s)) then s
    else if j.team.all fun c => (coreStartCauses s c).isEmpty then s.modJob id fun j => { j with phase := .running }
    else j.team.foldl (fun s c => trapAtStart c s) s

/-! ### `rdv.align` (R26, R102) -/

/-- A stream of a core past its `rdv.align`: ROT and loops cleared in the timed engines (R102). -/
def passAlign (clk : Nat) (p : Pos) (e : Engine) (x : Core) : Core :=
  let x := x.modStream e fun t => { t with
    loops := if e.timed then Vector.replicate 4 Level.zero else t.loops, rot := 0, rdvs := 0, arrived := none, last := clk, extra := 0 }
  advanceJob e p clk 0 none x

/-- The state of the core that `rdv.align` sets (R60, R102, R129, R153, R232, R282, R285, R296, R298). `kept` is the
exception of a swapped-in job. -/
def alignState (kept : Bool) (clk : Nat) (x : Core) : Core :=
  { x with
    scal := { x.scal with pv := 0, pw := BitVec.allOnes 15 }
    bench := if kept then { x.bench with bbuf := [] } else Bench.reset
    sf := { x.sf with
      h := Vector.replicate 256 0, rseed := Vector.replicate 16 0, spcnt := if kept then x.sf.spcnt else Vector.replicate 4 0
      path := 0xFFFF, depth := 0 }
    ap := { x.ap with geo := Vector.replicate 8 0, recs := [], heldDone := [] }
    aligned := true, tick0 := clk, tickHold := 0 }

/-- A core of the team past `rdv.align`. -/
def alignCore (kept : Bool) (s : State) (c : CoreId) : State :=
  let clk := (s.cluster c.cluster).clk
  let es := Engine.all.filter fun e => ((s.core c).stream e).present
  let ps := es.map fun e => (e, (nextJob s c e).pos)
  s.modCore c fun x => ps.foldl (fun x p => passAlign clk p.2 p.1 x) (alignState kept clk x)

/-- The waits of a member's first pitch that are not satisfied. -/
def alignWaits (s : State) (m : CoreId × Engine) : List (Engine × BitVec 7) :=
  (nextJob s m.1 m.2).waits.filter fun w => !waitMet (s.core m.1) w

/-- Does a member stand at its first word, fetched whole, with no check failed? -/
def standsFirst (s : State) (m : CoreId × Engine) : Bool :=
  ((s.core m.1).stream m.2).first && (nextJob s m.1 m.2).fetched && (startCheck s m.1 m.2).isNone

/-- Has a member reached its `rdv.align`: it stands there, and its pitch's waits are satisfied (R26, R33)? -/
def atAlign (s : State) (m : CoreId × Engine) : Bool := standsFirst s m && (alignWaits s m).isEmpty

/-- The causes of a timed member whose `rdv.align` would issue with a wait unsatisfied: one on a timed engine is a
schedule violation, one on the AP a schedule miss in strict mode (R33). In gated mode the member waits (log 26). -/
def alignCauses (s : State) (c : CoreId) (e : Engine) : List TrapCause :=
  if e.timed then
    (alignWaits s (c, e)).filterMap fun w =>
      if w.1 ≠ .ap then some (causeBy (firstReq e) 4 3 0)
      else if (s.core c).csr.strict then some (causeBy (firstReq e) 3 4 0)
      else none
  else []

/-- The trap of a core whose streams would issue `rdv.align` with waits unsatisfied. -/
def trapAtAlign (s : State) (c : CoreId) : State :=
  match (Engine.all.filter fun e => ((s.core c).stream e).present).flatMap (alignCauses s c) with
  | [] => s
  | a :: r => takeTrap c false a r s

/-- After a rendezvous has retired, the acquire of each AP of the team at team scope (R324); each has released when it arrived. -/
def orderAps (j : Job) (s : State) : State :=
  (j.team.filter fun c => ((s.core c).stream .ap).present).foldl (fun s c => fenceAp c (teamScope j.team) false true s) s

/-- RDV_ALIGN_RETIRE (R26): when every member stands at its `rdv.align`, all retire together. -/
def retireAlign (id : Nat) (s : State) : State :=
  match jobById s id with
  | none => s
  | some j =>
    if decide (j.phase = .running) && (members s j).all (standsFirst s) && j.team.all (fun c => !trapValid (s.core c)) then
      if (members s j).all (atAlign s) then
        let s := orderAps j s
        let s := j.team.foldl (alignCore j.atFlip) s
        s.modJob id fun j => { j with rdvs := 0, atFlip := false }
      else j.team.foldl trapAtAlign s
    else s

/-! ### `rdv` and `rdv.flip` (R99, R100) -/

/-- The form that a member stands at; none for one that has ended. -/
def memberForm (s : State) (m : CoreId × Engine) : Option RdvForm :=
  let t := (s.core m.1).stream m.2
  if t.ended then none else t.arrived

/-- Does a member stand at the job's next rendezvous, or has it ended? A timed member of a cluster that stands for a trap
has not arrived (R119, R136). -/
def memberThere (s : State) (j : Job) (m : CoreId × Engine) : Bool :=
  let t := (s.core m.1).stream m.2
  t.ended || (t.arrived.isSome && decide (t.rdvs = j.rdvs) && !(m.2.timed && trapPending s m.1.cluster))

/-- The trap of a rendezvous whose forms differ, in every cluster of the team (R100): which core takes it is the model's choice
(log 28). -/
def formTrap (j : Job) (r : Req) (s : State) : State :=
  (teamClusters j).foldl (fun s k =>
    match j.team.find? fun c => decide (c.cluster = k) with
    | some c => if trapPending s k then s else takeTrap c false (causeBy r 4 2 0) [] s
    | none => s) s

/-- Is everything of a core's timed side in place: no write, lane transit or result group on its way (R408)? -/
def coreSettled (x : Core) (clk : Nat) : Bool :=
  x.latches.isEmpty && x.ops.isEmpty && x.transits.isEmpty
    && x.bench.vt.toList.all fun t => match t with
      | some n => decide (n ≤ clk)
      | none => true

/-- The flip of a team to its swapped-in plane, once the running job's streams have passed the `rdv.flip`, its writes have
landed and its commands have completed (R408). -/
def flipTeam (j : Job) (s : State) : State :=
  match j.swap with
  | none => s
  | some e =>
    if ((members s j).all fun m => passedAll s j m.1 m.2)
        && j.team.all fun c => (coreSettled (s.core c) (s.cluster c.cluster).clk && (s.core c).cmds.isEmpty && (s.core c).running.isEmpty) then
      swapJobs j e s
    else s

/-- The rendezvous retires: the members' words may issue. A `rdv.flip` begins a suspension that is asked for, or else a
pending swap (R132, R408). -/
def passRendezvous (j : Job) (flip : Bool) (s : State) : State :=
  let s := orderAps j s
  let preq := j.team.any fun c => (s.core c).csr.preq
  s.modJob j.id fun j => { j with
    rdvs := j.rdvs + 1
    phase := if flip && preq then .suspending else j.phase
    atFlip := flip && !preq && j.swap.isSome }

/-- RENDEZVOUS_RETIRE (R100): every member has reached the rendezvous. -/
def retireRdv (id : Nat) (s : State) : State :=
  match jobById s id with
  | none => s
  | some j =>
    if j.phase ≠ .running then s
    else if j.atFlip then flipTeam j s
    else
      let ms := members s j
      if ms.isEmpty || !(ms.all (memberThere s j)) || ms.all (fun m => ((s.core m.1).stream m.2).ended) then s
      else
        match ms.head? with
        | none => s
        | some m0 =>
          let f0 := memberForm s m0
          match ms.find? fun m => decide (memberForm s m ≠ f0) with
          | some m => formTrap j (reqOf s m.1 m.2) s
          | none => passRendezvous j (decide (f0 = some .flip)) s

end Sys2Proof.Machine
end

