-- ==== Sys2Proof/Machine/Scalar.lean ====
section
/-! DEFINITION. The shared scalar instructions and LEAD's `gate` (R86-R97): the ALU, moves, compares, predicate logic and
select, in LEAD on s registers and in the AP on a registers. -/

namespace Sys2Proof.Machine

/-! ### Arithmetic (R91) -/

/-- Number of leading zero bits below bit `n`. -/
def clzFrom (x : W64) : Nat → Nat
  | 0 => 0
  | n + 1 => if x.getLsbD n then 0 else clzFrom x n + 1

/-- Number of trailing zero bits from bit `64 - n`. -/
def ctzFrom (x : W64) : Nat → Nat
  | 0 => 0
  | n + 1 => if x.getLsbD (63 - n) then 0 else ctzFrom x n + 1

/-- Number of one bits below bit `n`. -/
def popcFrom (x : W64) : Nat → Nat
  | 0 => 0
  | n + 1 => popcFrom x n + (if x.getLsbD n then 1 else 0)

/-- Sum modulo 2^64 (R91). -/
def aluAdd (x y : W64) : W64 := x + y

/-- Difference modulo 2^64 (R91). -/
def aluSub (x y : W64) : W64 := x - y

/-- Low half of the product (R91). -/
def aluMul (x y : W64) : W64 := x * y

/-- Signed high half of the product (R91). -/
def aluMulh (x y : W64) : W64 := BitVec.ofInt 64 (x.toInt * y.toInt / 2 ^ 64)

/-- Unsigned high half of the product (R91). -/
def aluMulhu (x y : W64) : W64 := BitVec.ofNat 64 (x.toNat * y.toNat / 2 ^ 64)

/-- Bitwise and (R91). -/
def aluAnd (x y : W64) : W64 := x &&& y

/-- Bitwise or (R91). -/
def aluOr (x y : W64) : W64 := x ||| y

/-- Bitwise xor (R91). -/
def aluXor (x y : W64) : W64 := x ^^^ y

/-- And with the complement (R91). -/
def aluAndn (x y : W64) : W64 := x &&& ~~~y

/-- Shift left by y[5:0] (R91). -/
def aluShl (x y : W64) : W64 := x <<< (y.toNat % 64)

/-- Logical shift right by y[5:0] (R91). -/
def aluShr (x y : W64) : W64 := x >>> (y.toNat % 64)

/-- Arithmetic shift right by y[5:0] (R91). -/
def aluSra (x y : W64) : W64 := x.sshiftRight (y.toNat % 64)

/-- Signed lesser (R91). -/
def aluMin (x y : W64) : W64 := if x.toInt ≤ y.toInt then x else y

/-- Signed greater (R91). -/
def aluMax (x y : W64) : W64 := if y.toInt ≤ x.toInt then x else y

/-- Unsigned lesser (R91). -/
def aluMinu (x y : W64) : W64 := if x.toNat ≤ y.toNat then x else y

/-- Unsigned greater (R91). -/
def aluMaxu (x y : W64) : W64 := if y.toNat ≤ x.toNat then x else y

/-- Leading zeros; 64 for zero (R91). -/
def aluClz (x : W64) : W64 := BitVec.ofNat 64 (clzFrom x 64)

/-- Trailing zeros; 64 for zero (R91). -/
def aluCtz (x : W64) : W64 := BitVec.ofNat 64 (ctzFrom x 64)

/-- Ones (R91). -/
def aluPopc (x : W64) : W64 := BitVec.ofNat 64 (popcFrom x 64)

/-- The register form: both sources read at issue, the result written at issue (R86, R90). -/
def planAlu (op : W64 → W64 → W64) (f : Fld) (k : Ctx) : Plan :=
  planReg k (lateReg k f.a ++ lateReg k f.b) f.d (op (readReg k.core k.e f.a) (readReg k.core k.e f.b))

/-- The immediate form: imm36 sign-extended is the second source (R90). -/
def planAluI (op : W64 → W64 → W64) (f : Fld) (k : Ctx) : Plan :=
  planReg k (lateReg k f.a) f.d (op (readReg k.core k.e f.a) (immS f))

/-- The unary form (R90). -/
def planAlu1 (op : W64 → W64) (f : Fld) (k : Ctx) : Plan :=
  planReg k (lateReg k f.a) f.d (op (readReg k.core k.e f.a))

/-- A product: written at issue in the AP and in handler state, and two ticks after issue in LEAD (R86, R88). -/
def planProduct (k : Ctx) (lates : List (Nat × Nat)) (d : RegCode) (v : W64) : Plan :=
  if k.timed then
    writePending k d { lates, act := fun s => s.modCore k.c fun x => { x with latches :=
      x.latches ++ [{ eng := k.e, code := d, q := 0, due := k.now + 2, val := v.setWidth 8192, pitch := k.req.pitch
                      word := k.req.word, at_ := k.now, work := false }] } }
  else planReg k lates d v

def planMulR (op : W64 → W64 → W64) (f : Fld) (k : Ctx) : Plan :=
  planProduct k (lateReg k f.a ++ lateReg k f.b) f.d (op (readReg k.core k.e f.a) (readReg k.core k.e f.b))

def planMulI (op : W64 → W64 → W64) (f : Fld) (k : Ctx) : Plan :=
  planProduct k (lateReg k f.a) f.d (op (readReg k.core k.e f.a) (immS f))

def planAdd (f : Fld) (k : Ctx) : Plan := planAlu aluAdd f k
def planAddI (f : Fld) (k : Ctx) : Plan := planAluI aluAdd f k
def planSub (f : Fld) (k : Ctx) : Plan := planAlu aluSub f k
def planSubI (f : Fld) (k : Ctx) : Plan := planAluI aluSub f k
def planMul (f : Fld) (k : Ctx) : Plan := planMulR aluMul f k
def planMulImm (f : Fld) (k : Ctx) : Plan := planMulI aluMul f k
def planMulh (f : Fld) (k : Ctx) : Plan := planMulR aluMulh f k
def planMulhI (f : Fld) (k : Ctx) : Plan := planMulI aluMulh f k
def planMulhu (f : Fld) (k : Ctx) : Plan := planMulR aluMulhu f k
def planMulhuI (f : Fld) (k : Ctx) : Plan := planMulI aluMulhu f k
def planAnd (f : Fld) (k : Ctx) : Plan := planAlu aluAnd f k
def planAndI (f : Fld) (k : Ctx) : Plan := planAluI aluAnd f k
def planOr (f : Fld) (k : Ctx) : Plan := planAlu aluOr f k
def planOrI (f : Fld) (k : Ctx) : Plan := planAluI aluOr f k
def planXor (f : Fld) (k : Ctx) : Plan := planAlu aluXor f k
def planXorI (f : Fld) (k : Ctx) : Plan := planAluI aluXor f k
def planAndn (f : Fld) (k : Ctx) : Plan := planAlu aluAndn f k
def planAndnI (f : Fld) (k : Ctx) : Plan := planAluI aluAndn f k
def planShl (f : Fld) (k : Ctx) : Plan := planAlu aluShl f k
def planShlI (f : Fld) (k : Ctx) : Plan := planAluI aluShl f k
def planShr (f : Fld) (k : Ctx) : Plan := planAlu aluShr f k
def planShrI (f : Fld) (k : Ctx) : Plan := planAluI aluShr f k
def planSra (f : Fld) (k : Ctx) : Plan := planAlu aluSra f k
def planSraI (f : Fld) (k : Ctx) : Plan := planAluI aluSra f k
def planMin (f : Fld) (k : Ctx) : Plan := planAlu aluMin f k
def planMinI (f : Fld) (k : Ctx) : Plan := planAluI aluMin f k
def planMax (f : Fld) (k : Ctx) : Plan := planAlu aluMax f k
def planMaxI (f : Fld) (k : Ctx) : Plan := planAluI aluMax f k
def planMinu (f : Fld) (k : Ctx) : Plan := planAlu aluMinu f k
def planMinuI (f : Fld) (k : Ctx) : Plan := planAluI aluMinu f k
def planMaxu (f : Fld) (k : Ctx) : Plan := planAlu aluMaxu f k
def planMaxuI (f : Fld) (k : Ctx) : Plan := planAluI aluMaxu f k
def planClz (f : Fld) (k : Ctx) : Plan := planAlu1 aluClz f k
def planCtz (f : Fld) (k : Ctx) : Plan := planAlu1 aluCtz f k
def planPopc (f : Fld) (k : Ctx) : Plan := planAlu1 aluPopc f k

/-- movi (R92): the sign-extended immediate. -/
def planMovi (f : Fld) (k : Ctx) : Plan := planReg k [] f.d (immS f)

/-- movhi (R92): bits [63:36] from imm36[27:0]; the destination is also a source. -/
def planMovhi (f : Fld) (k : Ctx) : Plan :=
  planReg k (lateReg k f.d) f.d (setSlice (readReg k.core k.e f.d) 36 (f.imm.extractLsb' 0 28))

/-! ### Compares (R93) -/

def relEq (x y : W64) : Bool := decide (x = y)
def relNe (x y : W64) : Bool := decide (x ≠ y)
def relLt (x y : W64) : Bool := decide (x.toInt < y.toInt)
def relLtu (x y : W64) : Bool := decide (x.toNat < y.toNat)
def relLe (x y : W64) : Bool := decide (x.toInt ≤ y.toInt)
def relLeu (x y : W64) : Bool := decide (x.toNat ≤ y.toNat)

/-- A compare of two registers into a slot. -/
def planCmp (rel : W64 → W64 → Bool) (f : Fld) (k : Ctx) : Plan :=
  planSlot k (lateReg k f.a ++ lateReg k f.b) f.d (rel (readReg k.core k.e f.a) (readReg k.core k.e f.b))

/-- A compare of a register with the immediate into a slot. -/
def planCmpI (rel : W64 → W64 → Bool) (f : Fld) (k : Ctx) : Plan :=
  planSlot k (lateReg k f.a) f.d (rel (readReg k.core k.e f.a) (immS f))

def planCeq (f : Fld) (k : Ctx) : Plan := planCmp relEq f k
def planCeqI (f : Fld) (k : Ctx) : Plan := planCmpI relEq f k
def planCne (f : Fld) (k : Ctx) : Plan := planCmp relNe f k
def planCneI (f : Fld) (k : Ctx) : Plan := planCmpI relNe f k
def planClt (f : Fld) (k : Ctx) : Plan := planCmp relLt f k
def planCltI (f : Fld) (k : Ctx) : Plan := planCmpI relLt f k
def planCltu (f : Fld) (k : Ctx) : Plan := planCmp relLtu f k
def planCltuI (f : Fld) (k : Ctx) : Plan := planCmpI relLtu f k
def planCle (f : Fld) (k : Ctx) : Plan := planCmp relLe f k
def planCleI (f : Fld) (k : Ctx) : Plan := planCmpI relLe f k
def planCleu (f : Fld) (k : Ctx) : Plan := planCmp relLeu f k
def planCleuI (f : Fld) (k : Ctx) : Plan := planCmpI relLeu f k

/-! ### Predicate logic (R94) -/

def planSlot2 (op : Bool → Bool → Bool) (f : Fld) (k : Ctx) : Plan :=
  planSlot k (lateSlot k f.a ++ lateSlot k f.b) f.d (op (slotOf k f.a) (slotOf k f.b))

def planSlot1 (op : Bool → Bool) (f : Fld) (k : Ctx) : Plan := planSlot k (lateSlot k f.a) f.d (op (slotOf k f.a))

def planPand (f : Fld) (k : Ctx) : Plan := planSlot2 (fun a b => a && b) f k
def planPor (f : Fld) (k : Ctx) : Plan := planSlot2 (fun a b => a || b) f k
def planPxor (f : Fld) (k : Ctx) : Plan := planSlot2 (fun a b => a != b) f k
def planPandn (f : Fld) (k : Ctx) : Plan := planSlot2 (fun a b => a && !b) f k
def planPnot (f : Fld) (k : Ctx) : Plan := planSlot1 (fun a => !a) f k
def planPmov (f : Fld) (k : Ctx) : Plan := planSlot1 (fun a => a) f k
def planPset (f : Fld) (k : Ctx) : Plan := planSlot k [] f.d true
def planPclr (f : Fld) (k : Ctx) : Plan := planSlot k [] f.d false

/-- pvoid (R94, R60): the slot becomes unwritten. -/
def planPvoid (f : Fld) (k : Ctx) : Plan := planSlotWith k [] f.d (voidSlot (inTrap k.core k.e) (slotNo f.d))

/-- sel (R96). -/
def planSel (f : Fld) (k : Ctx) : Plan :=
  planReg k (lateSlot k f.c ++ lateReg k f.a ++ lateReg k f.b) f.d
    (if slotOf k f.c then readReg k.core k.e f.a else readReg k.core k.e f.b)

/-- gate (R97): issues when the slot is written. -/
def planGate (f : Fld) (k : Ctx) : Plan := { lates := lateSlot k f.a }

end Sys2Proof.Machine
end

