-- ==== Sys2Proof/Machine/Flags.lean ====
section
/-! DEFINITION. The numeric event flags: NUMSTAT (R221, R228, R230). The conversion counts of CVTSTAT are added where copies
complete (R168). -/

namespace Sys2Proof.Machine

/-- NUMSTAT bits by name (R221). -/
def accSat : BitVec 5 := 1
def accJam : BitVec 5 := 2
def accNan : BitVec 5 := 4
def drnOvf : BitVec 5 := 8
def sfRangeBit : BitVec 5 := 16

/-- A core with NUMSTAT bits set: a bit that is set stays set (R221). -/
def setNumstat (b : BitVec 5) (x : Core) : Core := { x with csr := { x.csr with numstat := x.csr.numstat ||| b } }

/-- The bits of a drained cell (R221). -/
def cellFlags (c : Cell) : BitVec 5 :=
  (if c.sat then accSat else 0) ||| (if c.jam then accJam else 0) ||| (if c.nan then accNan else 0)

/-- Drain of R220: the 32-bit word of `rb` and whether the cell overflows. `bf` is BF16, `sat` the field DSAT_X. -/
def drainCell (bf sat : Bool) (c : Cell) : Nat × Bool :=
  let f := if bf then fmtBf16 else fmtF32
  let up := if bf then 2 ^ 16 else 1
  if c.nan then (fmtNan f * up, false)
  else if c.clr || decide (c.m = 0) then (0, false)
  else
    let m := c.m.toInt
    let y := rne f (decide (m < 0)) m.natAbs c.e.toInt
    if y % fmtSign f = fmtTop f then ((if sat then y - 1 else y) * up, true) else (y * up, false)

/-- The flags that a drain of a tile sets (R221). -/
def drainFlags (bf sat : Bool) (t : Tile) : BitVec 5 :=
  t.toList.foldl (fun b c => b ||| cellFlags c ||| (if (drainCell bf sat c).2 then drnOvf else 0)) 0

end Sys2Proof.Machine
end

