-- ==== Sys2Proof/Machine/Operands.lean ====
section
/-! DEFINITION. Operands of the timed pipes: names under rotation, sources bound at issue, sources read quarter by
quarter, destinations, the lane ring, and the timed ports of the ledges (R44-R50, R235, R252-R256, R268, R269, R433). -/

namespace Sys2Proof.Machine

/-! ### Names and places -/

/-- The physical code of a vector register name of an engine (R44); other codes stand for themselves. -/
def physV (x : Core) (e : Engine) (code : Nat) : Nat :=
  if 0x50 ≤ code ∧ code < 0x60 then 0x50 + (code - 0x50 + 16 - (x.stream e).rot.toNat) % 16 else code

/-- The stop of an engine on the lane ring (R47). -/
def stopOf (e : Engine) : Nat :=
  match e with
  | .va => 6 | .vb => 9 | .sf => 12 | _ => 0

/-- The stop of a ledge (R47). -/
def ledgeStop (l : Nat) : Nat := 3 * (l / 2) + l % 2 + 1

/-- The distance between two stops on a lane (R48): lanes 0-7 go clockwise. -/
def laneDist (lane x y : Nat) : Nat := if lane < 8 then (y + 24 - x) % 24 else (x + 24 - y) % 24

/-- The first lane that a lane code names, all eight of a direction (R257). -/
def laneBase (code : Nat) : Nat := if code < 0xB8 then 0 else 8

/-- LIDX(LV) of the issuing engine (R109, R235). -/
def lidx (k : Ctx) (lv : Nat) : Nat := levelIdx k.core k.e lv

/-- The scratchpad row that an address block names (R235, R268). -/
def blockRow (k : Ctx) (f : Fld) : Nat :=
  (immBits f 22 14 + (if immBits f 8 1 = 1 then lidx k (immBits f 9 2) * immBits f 11 11 else 0)) % 16384

/-! ### Requesters and outcomes -/

/-- The requester that an operation is. -/
def reqOfOp (o : Op) : Req := { eng := o.eng, pitch := o.pitch, word := o.word }

/-- What the operations of a core do at a tick: what they touch, the causes they raise, detected errors (unit and
address), new latches and rows on lanes, ledge bytes written at the tick's end, rows taken off the lanes, and the
operation's own captures. -/
structure OpOut where
  touches : List Touch := []
  causes : List TrapCause := []
  errs : List (Nat × Nat) := []
  latches : List Latch := []
  transits : List Transit := []
  cells : List (Nat × List Byte) := []
  taken : List (Nat × Nat) := []
  got : List (Nat × Quarter) := []
  codes : List Nat := []
  eff : State → State := id

/-- Two outcomes together. -/
def OpOut.join (a b : OpOut) : OpOut :=
  { touches := a.touches ++ b.touches, causes := a.causes ++ b.causes, errs := a.errs ++ b.errs
    latches := a.latches ++ b.latches, transits := a.transits ++ b.transits, cells := a.cells ++ b.cells
    taken := a.taken ++ b.taken, got := a.got ++ b.got, codes := a.codes ++ b.codes, eff := fun s => b.eff (a.eff s) }

/-! ### Sources bound at issue (R253) -/

/-- The low `n` bits of a value in every `n`-bit part of a 32-bit word. -/
def splatWord (n x : Nat) : Nat := packNat n (List.replicate (32 / n) (x % 2 ^ n))

/-- The quarter that holds a word in every element. -/
def splatQuarter (w : Nat) : Quarter := quarterOf (List.replicate 256 w)

/-- A source of an operation: the code to read quarter by quarter, 0 when its four quarters are bound at issue, and the load
queue that it pops. -/
structure Source where
  src : Nat
  bound : List Quarter
  pop : Option Nat

/-- The head entry of a load queue, once its data are whole. -/
def queueHead (x : Core) (q : Nat) : Option LqEntry :=
  match (vget x.vec.q q []).head? with
  | some e => if e.pending.isNone then some e else none
  | none => none

/-- A source field of an operation on `n`-bit parts. -/
def fieldSource (k : Ctx) (n : Nat) (code : RegCode) : Source :=
  let c := code.toNat
  match regClass c with
  | some .s =>
    let w := splatQuarter (splatWord n (readReg k.core k.e code).toNat)
    { src := 0, bound := List.replicate 4 w, pop := none }
  | some .q =>
    let img := ((queueHead k.core (c - 0x68)).map fun e => e.img).getD 0
    { src := 0, bound := (List.range 4).map (imgQuarter img), pop := some (c - 0x68) }
  | some .v => { src := physV k.core k.e c, bound := [], pop := none }
  | _ => { src := c, bound := [], pop := none }

/-- The late operand of a source field: an empty load queue (kind 1), or a pending s register (kind 7). -/
def lateSource (k : Ctx) (code : RegCode) : List (Nat × Nat) :=
  match regClass code.toNat with
  | some .s => lateReg k code
  | some .q => if (queueHead k.core (code.toNat - 0x68)).isNone then [(1, code.toNat)] else []
  | _ => []

/-- The quarters of sources that are bound at issue, keyed by 4 * source + quarter. -/
def boundQuarters : Nat → List Source → List (Nat × Quarter)
  | _, [] => []
  | i, x :: r => (x.bound.mapIdx fun q w => (4 * i + q, w)) ++ boundQuarters (i + 1) r

/-! ### Destinations -/

/-- The late operand of pushing into a full store queue (R13). -/
def latePush (k : Ctx) (code : RegCode) : List (Nat × Nat) :=
  match regClass code.toNat with
  | some .w => if 4 ≤ (vget k.core.vec.w (code.toNat - 0x70) []).length then [(2, code.toNat)] else []
  | _ => []

/-- The touch of a push. -/
def touchPush (code : RegCode) : List Touch :=
  match regClass code.toNat with
  | some .w => [.push code.toNat]
  | _ => []

/-- A core with an entry that its word will fill at the tail of a store queue (R13). -/
def pushEntry (e : Engine) (now : Nat) (code : RegCode) (x : Core) : Core :=
  match regClass code.toNat with
  | some .w =>
    let q := code.toNat - 0x70
    let l := vget x.vec.w q []
    { x with vec := { x.vec with w := vset x.vec.w q (l ++ [{ img := 0, have_ := 0, eng := e, at_ := now }]) } }
  | _ => x

/-- A core whose load queues have been popped. -/
def popQueues (qs : List Nat) (x : Core) : Core :=
  qs.foldl (fun x q => { x with vec := { x.vec with q := vset x.vec.q q ((vget x.vec.q q []).drop 1) } }) x

/-! ### Issue of an operation -/

/-- The cause of a word whose pipe is occupied (R254). -/
def pipeCause (k : Ctx) : List TrapCause :=
  if k.now < vget k.core.busy (engIdx k.e).val 0 then [ownCause k 4 16 k.e.code] else []

/-- A core whose pipe is occupied for `occ` ticks from `now`. -/
def occupy (e : Engine) (now occ : Nat) (x : Core) : Core := { x with busy := x.busy.set (engIdx e) (now + occ) }

/-- An operation as its word starts it. -/
def newOp (k : Ctx) (i : Instr) (dst : Nat) (srcs : List Source) (aux : List Nat) : Op :=
  { eng := k.e, instr := i, at_ := k.now, pitch := k.req.pitch, word := k.req.word, dst
    srcs := srcs.map fun x => x.src, aux, fe := 0, got := sputAll 0 [] (boundQuarters 0 srcs) }

/-- The plan of a word of a pipe (R253, R254): its sources, its destination, what it binds at issue, and how many ticks it
occupies the pipe. -/
def planPipe (k : Ctx) (i : Instr) (occ : Nat) (d : RegCode) (fields : List (RegCode × Nat)) (aux : List Nat) : Plan :=
  let srcs := fields.map fun x => fieldSource k x.2 x.1
  let pops := (srcs.filterMap fun x => x.pop).eraseDups
  let o := newOp k i (physV k.core k.e d.toNat) srcs aux
  { lates := (fields.flatMap fun x => lateSource k x.1) ++ latePush k d
    causes := pipeCause k
    touches := (pops.map fun q => .pop (0x68 + q)) ++ touchPush d
    act := fun s => s.modCore k.c fun x =>
      let x := occupy k.e k.now occ (pushEntry k.e k.now d (popQueues pops x))
      { x with ops := x.ops ++ [o] } }

/-! ### Lanes (R48, R269) -/

/-- The stop where a row stands at a tick; none when it is on no lane. -/
def transitStop (t : Transit) (now : Nat) : Option Nat :=
  if t.enter ≤ now ∧ now ≤ t.enter + laneDist t.lane t.from_ t.dest then
    some (if t.lane < 8 then (t.from_ + (now - t.enter)) % 24 else (t.from_ + 24 - (now - t.enter) % 24) % 24)
  else none

/-- The row that stands on a lane at a stop. -/
def rowAtStop (x : Core) (now stop lane : Nat) : Option Row :=
  (x.transits.find? fun t => decide (t.lane = lane) && decide (transitStop t now = some stop)).map fun t => t.row

/-- Eight rows as a quarter. -/
def quarterOfRows (l : List Row) : Quarter := BitVec.ofNat 8192 (packNat 1024 (l.map fun r => r.toNat))

/-- Row `i` of a quarter. -/
def quarterRow (q : Quarter) (i : Nat) : Row := q.extractLsb' (1024 * i) 1024

/-- Eight rows taken off the lanes of a direction at a stop (R269, R273): a missing one raises DETAIL 17. -/
def takeRows (x : Core) (o : Op) (now stop base : Nat) : Quarter × OpOut :=
  let rows := (List.range 8).map fun i => rowAtStop x now stop (base + i)
  match rows.findIdx? fun r => r.isNone with
  | some i => (0, { causes := [causeBy (reqOfOp o) 4 17 (stop * 32 + base + i)] })
  | none => (quarterOfRows (rows.map fun r => r.getD 0), { taken := (List.range 8).map fun i => (base + i, stop) })

/-- The rows of a quarter put on the lanes of a direction. -/
def sendRows (o : Op) (base from_ enter dest : Nat) (tap : Bool) (q : Quarter) : List Transit :=
  (List.range 8).map fun i =>
    { lane := base + i, from_, enter, dest, tap, row := quarterRow q i, eng := o.eng, pitch := o.pitch, word := o.word }

/-! ### Reads at a tick (R253, R433) -/

/-- A register quarter's parity, as the reading operation meets it. -/
def parityOfReg (x : Core) (o : Op) (code q : Nat) : OpOut :=
  if sget false x.vecBad (4 * code + q) then { causes := [causeBy (reqOfOp o) 11 5 code], errs := [(4, code)] } else {}

/-- Quarter `q` of a source that is read at its own tick. -/
def readSource (x : Core) (o : Op) (now q code : Nat) : Quarter × OpOut :=
  match regClass code with
  | some .v => (vget x.vec.v (4 * (code - 0x40) + q) 0, parityOfReg x o code q)
  | some .k => (((vget x.vec.k (code - 0x60) 0).extractLsb' (256 * q) 256).setWidth 8192, parityOfReg x o code q)
  | some .rb =>
    let g := 4 * o.aux.headD 0 + q
    let valid := match vget x.bench.vt g none with
      | some t => decide (t ≤ now)
      | none => false
    (vget x.bench.rb g 0, if valid then {} else { causes := [causeBy (reqOfOp o) 4 8 0] })
  | some .cw | some .ac => takeRows x o now (stopOf o.eng) (laneBase code)
  | _ => (0, {})

/-- Quarter `q` of every source that an operation reads at its own tick. -/
def readSources (x : Core) (o : Op) (now q : Nat) : Nat → List Nat → OpOut
  | _, [] => {}
  | i, code :: r =>
    let rest := readSources x o now q (i + 1) r
    if code = 0 then rest
    else
      let (w, out) := readSource x o now q code
      ({ out with got := [(4 * i + q, w)] } : OpOut).join rest

/-- An operation with further captures. -/
def capture (out : OpOut) (o : Op) : Op := { o with got := sputAll 0 o.got out.got, aux := o.aux ++ out.codes }

/-- Quarter `q` of source `i` as captured. -/
def gotQ (o : Op) (i q : Nat) : Quarter := sget 0 o.got (4 * i + q)

/-- A latch of an operation. -/
def latchOf (o : Op) (code q due : Nat) (work : Bool) (v : Quarter) : Latch :=
  { eng := o.eng, code := BitVec.ofNat 8 code, q, due, val := v, pitch := o.pitch, word := o.word, at_ := o.at_, work }

/-! ### Timed ports of the ledges (R49, R433) -/

/-- The first element of a scratchpad row whose parity fails. -/
def badElement (x : Core) (row : Nat) : Option Nat :=
  if x.parityBad.isEmpty then none
  else (List.range 32).find? fun i => sget false x.parityBad (32 * row + i)

/-- A timed access that reads `n` consecutive rows from row `r`, wrapping within the ledge: the rows, the touch, and a
failed parity. -/
def readRows (x : Core) (o : Op) (r n : Nat) : List Row × OpOut :=
  let rows := (List.range n).map (ledgeRow r)
  let l := r / 1024
  let bad := rows.findSome? fun y => (badElement x y).map fun i => 128 * y + 4 * i
  (rows.map (spadRow x),
   { touches := [.ledge l]
     causes := if bad.isSome then [causeBy (reqOfOp o) 11 4 l] else []
     errs := match bad with
       | some a => [(3, a)]
       | none => [] })

/-- A timed access that writes consecutive rows from row `r`. -/
def writeRows (r : Nat) (q : Quarter) : OpOut :=
  { touches := [.ledge (r / 1024)], cells := (List.range 8).map fun i => (128 * ledgeRow r i, rowBytes (quarterRow q i)) }

end Sys2Proof.Machine
end

