-- ==== Sys2Proof/Machine/Bench.lean ====
section
/-! DEFINITION. The bench: the MX words at issue, what their operations read, and what lands in tiles, halves and `rb`
(R217-R220, R231-R250, R435). -/

namespace Sys2Proof.Machine

/-- What an operation's landing at a tick does to its core: causes it raises, its effect, and the effect that remains when
a cause has stopped the tick. -/
structure Landing where
  causes : List TrapCause := []
  eff : Core → Core := id
  missed : Core → Core := id

/-! ### Format entries and names -/

/-- Fields of a format-table entry (R233). -/
def ftBt (e : W64) : Nat := bitsN e.toNat 0 4
def ftAt (e : W64) : Nat := bitsN e.toNat 4 4
def ftBbr (e : W64) : Nat := bitsN e.toNat 9 3
def ftAbr (e : W64) : Nat := bitsN e.toNat 12 3
def ftBf (e : W64) : Bool := e.getLsbD 15
def ftFix (e : W64) : Bool := e.getLsbD 16
def ftSat (e : W64) : Bool := e.getLsbD 17

/-- Is an entry valid (R233)? -/
def ftValid (e : W64) : Bool :=
  decide (10 ≤ ftAt e) && decide (ftAt e ≤ 13) && decide (11 ≤ ftBt e) && decide (ftBt e ≤ 13) && decide (ftAbr e ≤ 6)
    && decide (ftBbr e ≤ 6)

/-- The entry that a word binds at issue (R234, R235). -/
def boundEntry (k : Ctx) (f : Fld) : W64 :=
  let off := f.b.toNat - 0xA0
  let n := if immBits f 7 1 = 1 then (lidx k (immBits f 9 2) + off) % (immBits f 3 4 + 1) else off
  vget k.core.csr.ft n 0

/-- The physical tile that a z code names (R231). -/
def tileNo (x : Core) (code : RegCode) : Nat := if x.bench.zr then 1 - (code.toNat - 0x74) else code.toNat - 0x74

/-- OBJ of a bench cause (R242). -/
def benchObj (c : CoreId) (n : Nat) : Nat := c.inCluster + 16 * n

/-- Is the operation a K step? -/
def isStep (i : Instr) : Bool :=
  match i with
  | .mstep _ | .mstepN24 _ | .mstepN48 _ | .mstepN14 _ | .mgath _ => true
  | _ => false

/-- Is the operation an `mload`? -/
def isMload (i : Instr) : Bool :=
  match i with
  | .mload _ => true
  | _ => false

/-- Is the tile that of a step in progress at a tick, or one that an `mload` still writes (R246)? The fifth capture of a
step is its length. -/
def tileStepped (now : Nat) (x : Core) (z : Nat) : Bool :=
  x.ops.any fun o => isStep o.instr && decide (o.aux.headD 0 = z) && decide (now < o.at_ + o.aux.getD 4 0)
def tileLoading (now : Nat) (x : Core) (z : Nat) : Bool :=
  x.ops.any fun o => isMload o.instr && decide (o.aux.headD 0 = z) && decide (now < o.at_ + 16)

/-- The cause of a word that names a busy tile (R246). -/
def tileBusy (k : Ctx) (z : Nat) : Bool := tileStepped k.now k.core z || tileLoading k.now k.core z

/-- A core with a tile replaced. -/
def putTile (z : Nat) (t : Tile) (x : Core) : Core :=
  { x with bench := { x.bench with tiles := vset x.bench.tiles z t } }

/-- A tile of a core. -/
def getTile (x : Core) (z : Nat) : Tile := vget x.bench.tiles z (Vector.replicate 4096 Cell.clear)

/-- A plan on a tile that must not be busy. -/
def planTile (k : Ctx) (z : Nat) (p : Plan) : Plan := if tileBusy k z then planCause k 4 13 (benchObj k.c z) else p

/-! ### mclr, mscale, mswap, mfmt (R248) -/

/-- A cell under `fixed` with exponent `e`, all flags 0. -/
def Cell.fixedAt (e : BitVec 16) : Cell := { m := 0, e, jam := false, nan := false, sat := false, clr := false }

def planMclr (f : Fld) (k : Ctx) : Plan :=
  let z := tileNo k.core f.d
  let c := if immBits f 16 1 = 1 then Cell.fixedAt (f.imm.extractLsb' 0 16) else Cell.clear
  planTile k z (planCore k [] (putTile z (Vector.replicate 4096 c)))

/-- One cell scaled by 2^n. -/
def scaleCell (n : Int) (c : Cell) : Cell :=
  if c.clr || c.nan then c
  else
    let m := c.m.toInt
    if 0 ≤ n then
      let r := m * 2 ^ n.toNat
      let y := satS r 64
      { c with m := BitVec.ofInt 64 y, sat := c.sat || decide (y ≠ r) }
    else
      let (y, j) := asrJam m (-n).toNat
      { c with m := BitVec.ofInt 64 y, jam := c.jam || j }

def planMscale (f : Fld) (k : Ctx) : Plan :=
  let z := tileNo k.core f.d
  let n := sintN 7 (immBits f 0 7)
  planTile k z (planCore k [] fun x => putTile z ((getTile x z).map (scaleCell n)) x)

def planMswap (_ : Fld) (k : Ctx) : Plan := planCore k [] fun x => { x with bench := { x.bench with zr := !x.bench.zr } }

/-- The bits of a format-table entry that R233 defines. -/
def ftMask : W64 := 0x3FEFF

def planMfmt (f : Fld) (k : Ctx) : Plan :=
  let v := readReg k.core k.e f.a
  (planCore k [] fun x => { x with csr := { x.csr with ft := vset x.csr.ft (f.d.toNat - 0xA0) (v &&& ftMask) } }).withLates
    (lateReg k f.a)

/-! ### mload (R239, R248) -/

def planMload (f : Fld) (k : Ctx) : Plan :=
  let z := tileNo k.core f.d
  let o : Op := newOp k (.mload f) 0 [] [z, blockRow k f]
  planTile k z (planCore k [] fun x => { x with ops := x.ops ++ [o] })

/-- The cell that `mload` makes of an FP32 value (R248). -/
def loadCell (v : Nat) : Cell :=
  match f32 v with
  | .fin neg m e =>
    if m = 0 then Cell.clear
    else { Cell.fixedAt (BitVec.ofInt 16 e) with m := BitVec.ofInt 64 (signedOf neg m) }
  | _ => { Cell.fixedAt 0 with nan := true }

/-- What `mload` reads `dt` ticks after issue. -/
def runMload (x : Core) (o : Op) (dt : Nat) : OpOut :=
  if 16 ≤ dt then {}
  else
    let (rows, out) := readRows x o (ledgeRow (o.aux.getD 1 0) (8 * dt)) 8
    { out with got := [(dt, quarterOfRows rows)] }

/-- The tile that `mload` has read. -/
def landMload (o : Op) (dt : Nat) : Landing :=
  if dt = 16 then
    let vs := ((List.range 16).flatMap fun i => quarterElems (sget 0 o.got i)).toArray
    { eff := putTile (o.aux.headD 0) (Vector.ofFn fun i : Fin 4096 => loadCell (vs.getD i.val 0)) }
  else {}

/-! ### mbsrc (R237-R241) -/

/-- The mantissa bits, and the ticks of mantissa reads, of a B width (R237, R239). -/
def bBits (bw : Nat) : Nat := if bw = 1 then 4 else if bw = 2 then 16 else 8
def bTicks (bw : Nat) : Nat := bBits bw / 2

/-- The BT code that a B width matches (R242). -/
def bType (bw : Nat) : Nat := if bw = 1 then 11 else if bw = 2 then 13 else 12

/-- The cores whose benches a `mbsrc` feeds (R240). -/
def bReceivers (k : Ctx) (bus : Bool) : List CoreId :=
  if bus then k.c.cluster.cores.filter fun c => decide ((k.s.core c).job = k.core.job) && ((k.s.core c).stream .mx).present
  else [k.c]

/-- The ticks from the issue of a `mbsrc` to the ready tick of its step (R241). -/
def bReady (bw : Nat) : Nat := if bw = 2 then 12 else 8

/-- A core with a half of its B buffer claimed (R241). -/
def claimHalf (bus : Bool) (bw : Nat) (ready : Nat) (x : Core) : Core :=
  let h : BHalf := { slot := x.bench.bbuf.any fun y => !y.slot, bus, width := BitVec.ofNat 2 bw, ready, freeAt := none
                     mant := [], scales := [] }
  { x with bench := { x.bench with bbuf := x.bench.bbuf ++ [h] } }

def planMbsrc (f : Fld) (k : Ctx) : Plan :=
  let mst := immBits f 5 3
  let bus := decide (immBits f 2 1 = 1)
  let bw := immBits f 0 2
  let x := if mst = 0 then 0 else lidx k (immBits f 3 2)
  let mb := (immBits f 22 14 + x * mst * 16) % 16384
  let sb := (immBits f 8 14 + x) % 16384
  let ready := k.now + bReady bw
  let rs := bReceivers k bus
  let o : Op := newOp k (.mbsrc f) 0 [] [mb, sb]
  match rs.find? fun c => decide (2 ≤ (k.s.core c).bench.bbuf.length) with
  | some c => planCause k 4 12 (benchObj c 0)
  | none =>
    { touches := (if bus then [.bus] else []) ++ rs.map fun c => .claim c.inCluster
      act := fun s =>
        let s := rs.foldl (fun s c => s.modCore c (claimHalf bus bw ready)) s
        s.modCore k.c fun x => { x with ops := x.ops ++ [{ o with srcs := rs.map Fin.val }] } }

/-- A core whose claimed half has its step. -/
def fillHalf (bus : Bool) (bw ready : Nat) (mant : List Byte) (scales : List (BitVec 9)) (x : Core) : Core :=
  { x with bench := { x.bench with bbuf := x.bench.bbuf.map fun h =>
      if h.bus = bus ∧ h.width.toNat = bw ∧ h.ready = ready then { h with mant, scales } else h } }

/-- The 16-bit codes of a scale row, bits [8:0] of each. -/
def scaleCodes (r : Row) : List Nat := (unpackNat 16 64 r.toNat).map fun c => c % 512

/-- What `mbsrc` reads `dt` ticks after issue; with its last read the step is whole. -/
def runMbsrc (f : Fld) (x : Core) (o : Op) (dt : Nat) : OpOut :=
  let bw := immBits f 0 2
  if dt = 0 then
    let (rows, out) := readRows x o (o.aux.getD 1 0) 1
    { out with codes := scaleCodes (rows.headD 0) }
  else if dt ≤ bTicks bw then
    let (rows, out) := readRows x o (ledgeRow (o.aux.headD 0) (8 * (dt - 1))) 8
    let out := { out with got := [(dt, quarterOfRows rows)] }
    if dt = bTicks bw then
      let o' := capture out o
      let mant := (List.range dt).flatMap fun i => bytesOfNat 1024 (sget 0 o'.got (i + 1)).toNat
      let scales := (o'.aux.drop 2).map (BitVec.ofNat 9)
      let bus := decide (immBits f 2 1 = 1)
      let g (s : State) (c : Nat) : State := s.modCore (coreOf c) (fillHalf bus bw (o.at_ + bReady bw) mant scales)
      { out with eff := fun s => o.srcs.foldl g s }
    else out
  else {}

/-! ### K steps (R217, R243-R247, R435) -/

/-- The head of the B buffer: the half with the earliest claim (R243). -/
def headHalf (x : Core) : Option BHalf := x.bench.bbuf.head?

/-- The length of a step without the dual-issue check (R244). -/
def stepLen (e : W64) : Nat := if ftBt e = 13 then 2 * typeBits (ftAt e) else typeBits (ftAt e)

/-- A core whose head half will be free at a tick. -/
def freeHead (t : Nat) (x : Core) : Core :=
  match x.bench.bbuf with
  | h :: r => { x with bench := { x.bench with bbuf := { h with freeAt := some t } :: r } }
  | [] => x

/-- A word that performs a K step. -/
def planStep (i : Instr) (f : Fld) (k : Ctx) : Plan :=
  let x := k.core
  let z := tileNo x f.d
  let e := boundEntry k f
  let bus := decide (immBits f 2 1 = 1)
  let keep := decide (immBits f 1 1 = 1)
  let p0 := stepLen e
  let p := if x.csr.dual then 2 * p0 else p0
  let o : Op := { newOp k i 0 [] [z, blockRow k f, typeBits (ftAt e), p0, p] with
    fe := e, srcs := if f.c = 0 then [] else [physV x k.e f.c.toNat] }
  if decide (k.now < x.bench.busy) || tileLoading k.now x z then planCause k 4 13 (benchObj k.c z)
  else if !ftValid e then planCause k 4 15 (benchObj k.c z)
  else
    match headHalf x with
    | none => if bus then { lates := [(5, 0)] } else planCause k 4 14 (benchObj k.c 0)
    | some h =>
      if h.bus ≠ bus ∨ bType h.width.toNat ≠ ftBt e ∨ k.now < h.ready then planCause k 4 14 (benchObj k.c h.slot.toNat)
      else
        planCore k [] fun x =>
          let x := { x with bench := { x.bench with busy := k.now + p }, ops := x.ops ++ [o] }
          if keep then x else freeHead (k.now + p) x

def planMstep (f : Fld) (k : Ctx) : Plan := planStep (.mstep f) f k
def planMstepN24 (f : Fld) (k : Ctx) : Plan := planStep (.mstepN24 f) f k
def planMstepN48 (f : Fld) (k : Ctx) : Plan := planStep (.mstepN48 f) f k
def planMstepN14 (f : Fld) (k : Ctx) : Plan := planStep (.mstepN14 f) f k
def planMgath (f : Fld) (k : Ctx) : Plan := planStep (.mgath f) f k

/-- The parts of a step's captures: the tile, the A row, the A width, the step length, its length with the check, the
source rows, and the A scale codes. -/
def stepW (o : Op) : Nat := o.aux.getD 2 0
def stepP0 (o : Op) : Nat := o.aux.getD 3 0
def stepP (o : Op) : Nat := o.aux.getD 4 0
def stepIdx (o : Op) : List Nat := (o.aux.drop 5).take 64

/-- A scratchpad address within the ledge of the A address, wrapping modulo 128 KiB (R247). -/
def inLedge (row off : Nat) : Nat := row / 1024 * 0x20000 + (row % 1024 * 128 + off) % 0x20000

/-- The offset of the tile that holds a source row (R247). -/
def tileOff (w r : Nat) : Nat := r / 64 * (512 * w + 128)

/-- Plane `j` of the source rows: bit 64 m + k is bit k of row m (R167). -/
def bitPlane (x : Core) (row w : Nat) (idx : List Nat) (j : Nat) : Nat :=
  packNat 64 (idx.map fun r => natOfBytes (spadGet x (inLedge row (tileOff w r + 512 * j + 8 * (r % 64))) 8))

/-- The A scale codes of the source rows: for each row, one for each block of its K columns. -/
def aScales (x : Core) (row w abr : Nat) (idx : List Nat) : List Nat :=
  idx.flatMap fun r => (List.range (2 ^ abr)).map fun bj =>
    natOfBytes (spadGet x (inLedge row (tileOff w r + 512 * w + 2 * (r % 64 / 2 ^ abr * 2 ^ abr + bj))) 2) % 512

/-- A timed access of the A ledge for one plane: its touch, and a failed parity among the elements read. -/
def planeAccess (x : Core) (o : Op) (row w : Nat) (idx : List Nat) (j : Nat) : OpOut :=
  let l := row / 1024
  let bad := if x.parityBad.isEmpty then none
    else idx.findSome? fun r =>
      let a := inLedge row (tileOff w r + 512 * j + 8 * (r % 64))
      if sget false x.parityBad (a / 4) then some a else if sget false x.parityBad (a / 4 + 1) then some (a + 4) else none
  { touches := [.ledge l]
    causes := if bad.isSome then [causeBy (reqOfOp o) 11 4 l] else []
    errs := match bad with
      | some a => [(3, a)]
      | none => [] }

/-- The index vector of `mgath`: row 0 of its register (R247); the rows in order for `mstep`. -/
def stepRows (x : Core) (o : Op) : List Nat × OpOut :=
  match o.srcs with
  | [] => (List.range 64, {})
  | v :: _ =>
    let (q, out) := readSource x o o.at_ 0 v
    (((quarterElems q).take 64).map fun e => e % 65536, out)

/-- Where a step keeps a plane: those of its second pass beside those of the first (R435). -/
def passKey (second : Bool) (i : Nat) : Nat := if second then 64 + i else i

/-- Do the two passes of a step that is checked differ (R435)? -/
def passesDiffer (o : Op) : Bool :=
  decide (stepP0 o < stepP o) && (List.range 64).any fun i => decide (sget 0 o.got (passKey false i) ≠ sget 0 o.got (passKey true i))

/-- What a K step reads `dt` ticks after issue (R239, R435). -/
def runStep (x : Core) (o : Op) (dt : Nat) : OpOut :=
  let w := stepW o
  let row := o.aux.getD 1 0
  let t := dt % max 1 (stepP0 o)
  if stepP o ≤ dt then {}
  else
    let (idx, out0) := if dt = 0 then stepRows x o else (stepIdx o, {})
    let out := out0.join (planeAccess x o row w idx (t % max 1 w))
    let out := if dt = 0 then { out with codes := idx ++ aScales x row w (ftAbr o.fe) idx } else out
    { out with got := [(passKey (decide (stepP0 o ≤ dt)) (if t < w then t else 16 + (t - w)), BitVec.ofNat 8192 (bitPlane x row w idx (t % max 1 w)))] }

/-- Binomial coefficient. -/
def choose : Nat → Nat → Nat
  | _, 0 => 1
  | 0, _ + 1 => 0
  | n + 1, k + 1 => choose n k + choose n (k + 1)

/-- The `r`-th `n`-element subset of `{m - fuel, …, m - 1}`, in lexicographic order (R245). -/
def subsetAt (m : Nat) : Nat → Nat → Nat → List Nat
  | 0, _, _ => []
  | fuel + 1, n, r =>
    if n = 0 then []
    else
      let c := choose fuel (n - 1)
      if r < c then (m - (fuel + 1)) :: subsetAt m fuel (n - 1) r else subsetAt m fuel n (r - c)

/-- Pos of R245. -/
def sparsePos (m n : Nat) (seed col grp : Nat) : List Nat :=
  let x := (seed ^^^ (col * 2 ^ 16 + grp)) % 2 ^ 32
  let x := (x ^^^ (x * 2 ^ 13)) % 2 ^ 32
  let x := x ^^^ (x / 2 ^ 17)
  let x := (x ^^^ (x * 2 ^ 5)) % 2 ^ 32
  subsetAt m m n (x % choose m n)

/-- The (N, M) of a sparse reading; none for dense (R245). -/
def sparsity (i : Instr) : Option (Nat × Nat) :=
  match i with
  | .mstepN24 _ => some (2, 4)
  | .mstepN48 _ => some (4, 8)
  | .mstepN14 _ => some (1, 4)
  | _ => none

/-- The raw mantissa `e` of a block of `bits`-bit mantissas from a byte offset. -/
def rawMant (a : Array Byte) (bits off e : Nat) : Nat :=
  if bits = 4 then (a.getD (off + e / 2) 0).toNat / 16 ^ (e % 2) % 16
  else if bits = 8 then (a.getD (off + e) 0).toNat
  else (a.getD (off + 2 * e) 0).toNat + 256 * (a.getD (off + 2 * e + 1) 0).toNat

/-- BVal of R245 as a raw mantissa: K row `k`, column `n`. The header row is one scratchpad row. -/
def bRaw (i : Instr) (a : Array Byte) (bits k n : Nat) : Nat :=
  match sparsity i with
  | none => rawMant a bits 0 (64 * k + n)
  | some (nn, m) =>
    let seed := natOfBytes ((List.range 4).map fun j => a.getD j 0)
    match (sparsePos m nn seed n (k / m)).findIdx? fun p => decide (p = k % m) with
    | some j => rawMant a bits 128 (64 * (k / m * nn + j) + n)
    | none => 0

/-- mA(m, k) from the planes, 64 m + k being the bit (R244). -/
def mantA (w : Nat) (planes : Array Nat) (m k : Nat) : Int :=
  let bit (j : Nat) : Int := if (planes.getD j 0).testBit (64 * m + k) then 1 else 0
  ((List.range (w - 1)).map fun j => bit j * 2 ^ j).sum - bit (w - 1) * 2 ^ (w - 1)

/-- The operands of a whole step, read out of the captures. -/
structure StepData where
  a1 : Array Int
  a2 : Array Int
  b : Array Nat
  ca : Array Nat
  cb : Array Nat

/-- The exact sum of a partial's products over `k` in `[k0, k0 + g)` for cell (m, n) (R217, R244). -/
def partialSum (bits : Nat) (d : StepData) (m n k0 g : Nat) : Int :=
  ((List.range g).map fun i =>
    let k := k0 + i
    let b := d.b.getD (64 * k + n) 0
    if bits = 16 then 256 * (d.a1.getD (64 * m + k) 0 * sintN 8 (b / 256)) + d.a2.getD (64 * m + k) 0 * (b % 256 : Nat)
    else d.a1.getD (64 * m + k) 0 * sintN bits b).sum

/-- One partial applied to a cell (R217, R218). -/
def applyPartial (e : W64) (bits : Nat) (d : StepData) (m n g : Nat) (c : Cell) (p : Nat) : Cell :=
  let k0 := p * g
  let bca := 64 / 2 ^ ftAbr e
  let ca := d.ca.getD (m * 2 ^ ftAbr e + k0 / bca) 0
  let cb := d.cb.getD (k0 / 2 ^ ftBbr e * 2 ^ ftBbr e + n / (64 / 2 ^ ftBbr e)) 0
  if ca = 511 ∨ cb = 511 then { c with nan := true }
  else if ca = 0 ∨ cb = 0 then c
  else
    accAdd (ftFix e) c (partialSum bits d m n k0 g)
      ((ca : Int) - 256 - ((typeBits (ftAt e) : Int) - 1) + ((cb : Int) - 256) - ((bits : Int) - 1))

/-- A tile after a K step (R217). -/
def stepTile (e : W64) (bits : Nat) (d : StepData) (t : Tile) : Tile :=
  let g := min (64 / 2 ^ ftAbr e) (2 ^ ftBbr e)
  Vector.ofFn fun i : Fin 4096 =>
    (List.range (64 / g)).foldl (applyPartial e bits d (i.val / 64) (i.val % 64) g) (t[i])

/-- The operands of a step from its captures and its B half. -/
def stepData (o : Op) (h : BHalf) : StepData :=
  let w := stepW o
  let bits := bBits h.width.toNat
  let planes (base : Nat) : Array Nat := ((List.range w).map fun j => (sget 0 o.got (base + j)).toNat).toArray
  let p1 := planes 0
  let p2 := if bits = 16 then planes 16 else p1
  let cells (p : Array Nat) : Array Int := ((List.range 4096).map fun i => mantA w p (i / 64) (i % 64)).toArray
  let mant := h.mant.toArray
  { a1 := cells p1, a2 := cells p2
    b := ((List.range 4096).map fun i => bRaw o.instr mant bits (i / 64) (i % 64)).toArray
    ca := (o.aux.drop 69).toArray, cb := (h.scales.map BitVec.toNat).toArray }

/-- A core with an operation dropped. -/
def dropOp (o : Op) (x : Core) : Core :=
  { x with ops := x.ops.filter fun y => !(decide (y.eng = o.eng) && decide (y.at_ = o.at_)) }

/-- Is a half of a B buffer still claimed at a tick? -/
def halfStays (now : Nat) (h : BHalf) : Bool :=
  match h.freeAt with
  | some t => decide (now < t)
  | none => true

/-- A core without the halves that are free from a tick. -/
def freeHalves (now : Nat) (x : Core) : Core :=
  { x with bench := { x.bench with bbuf := x.bench.bbuf.filter (halfStays now) } }

/-- The end of a K step: its partials, or the mismatch of R435, after which the step counts as done. -/
def landStep (c : CoreId) (x : Core) (o : Op) (dt : Nat) : Landing :=
  if dt = stepP o then
    if (x.csr.dual && x.bench.upset) || passesDiffer o then
      { causes := [causeBy (reqOfOp o) 11 6 c.inCluster]
        missed := fun x => freeHalves (o.at_ + dt) (dropOp o { x with bench := { x.bench with upset := false } }) }
    else
      match headHalf x with
      | some h =>
        let z := o.aux.headD 0
        { eff := fun x => putTile z (stepTile o.fe (bBits h.width.toNat) (stepData o h) (getTile x z)) x }
      | none => {}
  else {}

/-! ### mdrain (R220, R221, R249) -/

/-- A cell as a drain leaves it. -/
def drained (fixed : Bool) (c : Cell) : Cell := if fixed then Cell.fixedAt c.e else Cell.clear

/-- The valid ticks that a drain at tick `d` sets (R249). -/
def drainTicks (d : Nat) : Vector (Option Nat) 16 := Vector.ofFn fun j => some (d + 24 + j.val)

def planMdrain (f : Fld) (k : Ctx) : Plan :=
  let z := tileNo k.core f.a
  let e := boundEntry k f
  if tileBusy k z then planCause k 4 13 (benchObj k.c z)
  else if !ftValid e then planCause k 4 15 (benchObj k.c z)
  else
    let t := getTile k.core z
    let words := (t.toList.map fun c => (drainCell (ftBf e) (ftSat e) c).1).toArray
    let got := (List.range 16).map fun j => (j, quarterOf ((List.range 256).map fun i => words.getD (256 * j + i) 0))
    let o : Op := { newOp k (.mdrain f) 0 [] [] with got := sputAll 0 [] got }
    { act := fun s => s.modCore k.c fun x =>
        let x := putTile z (t.map (drained (ftFix e))) x
        { x with ops := x.ops ++ [o], bench := { x.bench with vt := drainTicks k.now } }
      after := fun s => s.modCore k.c (setNumstat (drainFlags (ftBf e) (ftSat e) t)) }

/-- What a drain leaves in `rb`: the row groups. -/
def landMdrain (o : Op) (dt : Nat) : Landing :=
  if 24 ≤ dt ∧ dt < 40 then
    { eff := fun x => { x with bench := { x.bench with rb := vset x.bench.rb (dt - 24) (sget 0 o.got (dt - 24)) } } }
  else {}

end Sys2Proof.Machine
end

