-- ==== Sys2Proof/Machine/Vector.lean ====
section
/-! DEFINITION. The vector pipes VA and VB (R252-R270): for each word its plan at issue and the quarters that its operation
computes. -/

namespace Sys2Proof.Machine

/-! ### What an operation computes -/

/-- The computation of an operation: its latency, whether a result quarter needs all four source quarters, and a result
quarter from the captured sources (source, quarter). `work` marks working state that is no latch record (R287). -/
structure OpSpec where
  lat : Nat
  whole : Bool
  f : (Nat → Nat → Quarter) → Nat → Quarter
  work : Bool := false

/-- A quarter computed element by element from one, two or three sources. -/
def map1 (f : Nat → Nat) (g : Nat → Nat → Quarter) (q : Nat) : Quarter := quarterOf ((quarterElems (g 0 q)).map f)
def map2 (f : Nat → Nat → Nat) (g : Nat → Nat → Quarter) (q : Nat) : Quarter :=
  quarterOf (List.zipWith f (quarterElems (g 0 q)) (quarterElems (g 1 q)))
def map3 (f : Nat → Nat → Nat → Nat) (g : Nat → Nat → Quarter) (q : Nat) : Quarter :=
  quarterOf (List.zipWith (fun p z => f p.1 p.2 z) ((quarterElems (g 0 q)).zip (quarterElems (g 1 q))) (quarterElems (g 2 q)))

/-- A mask quarter from its 256 bits. -/
def maskQuarter (l : List Bool) : Quarter := BitVec.ofNat 8192 (packNat 1 (l.map Bool.toNat))

/-- A mask quarter's bits. -/
def maskBits (q : Quarter) : List Bool := (unpackNat 1 256 q.toNat).map fun b => decide (b = 1)

/-- An element computed part by part on `n`-bit parts (R259). -/
def onParts (n : Nat) (f : Nat → Nat → Nat) (x y : Nat) : Nat :=
  packNat n (List.zipWith f (unpackNat n (32 / n) x) (unpackNat n (32 / n) y))

/-- The part width of an integer type code of major 0x53 (R74). -/
def partBits (t : BitVec 2) : Nat := if t = 0 then 32 else if t = 1 then 16 else 8

/-- The plan of a vector word that occupies its pipe for four ticks (R254). -/
def planVec (k : Ctx) (i : Instr) (d : RegCode) (fields : List (RegCode × Nat)) (aux : List Nat) : Plan :=
  planPipe k i 4 d fields aux

/-! ### FP32 (R258) -/

/-- Words with two FP32 sources. -/
def planF2 (i : Instr) (f : Fld) (k : Ctx) : Plan := planVec k i f.d [(f.a, 32), (f.b, 32)] []
/-- Words with three FP32 sources. -/
def planF3 (i : Instr) (f : Fld) (k : Ctx) : Plan := planVec k i f.d [(f.a, 32), (f.b, 32), (f.c, 32)] []
/-- Words with one source. -/
def planF1 (i : Instr) (f : Fld) (k : Ctx) : Plan := planVec k i f.d [(f.a, 32)] []

def planVaddF32 (f : Fld) (k : Ctx) : Plan := planF2 (.vaddF32 f) f k
def planVsubF32 (f : Fld) (k : Ctx) : Plan := planF2 (.vsubF32 f) f k
def planVmulF32 (f : Fld) (k : Ctx) : Plan := planF2 (.vmulF32 f) f k
def planVminF32 (f : Fld) (k : Ctx) : Plan := planF2 (.vminF32 f) f k
def planVmaxF32 (f : Fld) (k : Ctx) : Plan := planF2 (.vmaxF32 f) f k
def planVfmaF32 (f : Fld) (k : Ctx) : Plan := planF3 (.vfmaF32 f) f k
def planVfmsF32 (f : Fld) (k : Ctx) : Plan := planF3 (.vfmsF32 f) f k
def planVfnmaF32 (f : Fld) (k : Ctx) : Plan := planF3 (.vfnmaF32 f) f k
def planVabsF32 (f : Fld) (k : Ctx) : Plan := planF1 (.vabsF32 f) f k
def planVnegF32 (f : Fld) (k : Ctx) : Plan := planF1 (.vnegF32 f) f k

/-- vabs and vneg on one element (R258). -/
def vabsElem (x : Nat) : Nat := x % 2 ^ 31
def vnegElem (x : Nat) : Nat := if x / 2 ^ 31 % 2 = 1 then x - 2 ^ 31 else x + 2 ^ 31

/-- A latency-4 element-wise computation (R255). -/
def spec1 (f : Nat → Nat) : OpSpec := { lat := 4, whole := false, f := map1 f }
def spec2 (f : Nat → Nat → Nat) : OpSpec := { lat := 4, whole := false, f := map2 f }
def spec3 (f : Nat → Nat → Nat → Nat) : OpSpec := { lat := 4, whole := false, f := map3 f }

/-! ### Integers (R259) -/

/-- Words with two sources of `n`-bit parts. -/
def planI2 (i : Instr) (t : BitVec 2) (f : Fld) (k : Ctx) : Plan :=
  planVec k i f.d [(f.a, partBits t), (f.b, partBits t)] []

def planVaddI (t : BitVec 2) (f : Fld) (k : Ctx) : Plan := planI2 (.vaddI t f) t f k
def planVsubI (t : BitVec 2) (f : Fld) (k : Ctx) : Plan := planI2 (.vsubI t f) t f k
def planVmulI (t : BitVec 2) (f : Fld) (k : Ctx) : Plan := planI2 (.vmulI t f) t f k
def planVminI (t : BitVec 2) (f : Fld) (k : Ctx) : Plan := planI2 (.vminI t f) t f k
def planVmaxI (t : BitVec 2) (f : Fld) (k : Ctx) : Plan := planI2 (.vmaxI t f) t f k
def planVand (t : BitVec 2) (f : Fld) (k : Ctx) : Plan := planI2 (.vand t f) t f k
def planVor (t : BitVec 2) (f : Fld) (k : Ctx) : Plan := planI2 (.vor t f) t f k
def planVxor (t : BitVec 2) (f : Fld) (k : Ctx) : Plan := planI2 (.vxor t f) t f k
def planVshl (t : BitVec 2) (f : Fld) (k : Ctx) : Plan := planI2 (.vshl t f) t f k
def planVshr (t : BitVec 2) (f : Fld) (k : Ctx) : Plan := planI2 (.vshr t f) t f k
def planVsra (t : BitVec 2) (f : Fld) (k : Ctx) : Plan := planI2 (.vsra t f) t f k
def planVadds (t : BitVec 2) (f : Fld) (k : Ctx) : Plan := planI2 (.vadds t f) t f k
def planVsubs (t : BitVec 2) (f : Fld) (k : Ctx) : Plan := planI2 (.vsubs t f) t f k

/-- The operations on one `n`-bit part. -/
def partAdd (n x y : Nat) : Nat := (x + y) % 2 ^ n
def partSub (n x y : Nat) : Nat := (x + 2 ^ n - y) % 2 ^ n
def partMul (n x y : Nat) : Nat := x * y % 2 ^ n
def partMin (n x y : Nat) : Nat := if sintN n x ≤ sintN n y then x else y
def partMax (n x y : Nat) : Nat := if sintN n y ≤ sintN n x then x else y
def partAnd (_ x y : Nat) : Nat := x &&& y
def partOr (_ x y : Nat) : Nat := x ||| y
def partXor (_ x y : Nat) : Nat := x ^^^ y
def partShl (n x y : Nat) : Nat := x * 2 ^ (y % n) % 2 ^ n
def partShr (n x y : Nat) : Nat := x / 2 ^ (y % n)
def partSra (n x y : Nat) : Nat := wrapN n (sintN n x / (2 ^ (y % n) : Int))
def partAdds (n x y : Nat) : Nat := wrapN n (satS (sintN n x + sintN n y) n)
def partSubs (n x y : Nat) : Nat := wrapN n (satS (sintN n x - sintN n y) n)

/-- An integer computation on the parts of a type. -/
def specI (t : BitVec 2) (f : Nat → Nat → Nat → Nat) : OpSpec :=
  spec2 (onParts (partBits t) (f (partBits t)))

/-! ### Compares and masks (R260, R261) -/

/-- The part width of a type code of major 0x54 (R74): .f32, .i32, .i16, .i8. -/
def cmpBits (t : BitVec 2) : Nat := if t = 2 then 16 else if t = 3 then 8 else 32

/-- A relation by condition code from equality and less-than. -/
def condOf (c : Nat) (eq : Bool) (lt gt : Bool) : Bool :=
  match c with
  | 0 => eq
  | 1 => !eq
  | 2 => lt
  | 3 => lt || eq
  | 4 => gt
  | _ => gt || eq

/-- The relation of R260 between two elements. -/
def vcmpElem (c : Nat) (t : BitVec 2) (x y : Nat) : Bool :=
  if t = 0 then condOf c (feq x y) (flt x y) (flt y x)
  else
    let n := cmpBits t
    ((unpackNat n (32 / n) x).zip (unpackNat n (32 / n) y)).all fun p =>
      condOf c (decide (p.1 = p.2)) (decide (sintN n p.1 < sintN n p.2)) (decide (sintN n p.2 < sintN n p.1))

def planVcmp (cond : BitVec 5) (t : BitVec 2) (f : Fld) (k : Ctx) : Plan :=
  planVec k (.vcmp cond t f) f.d [(f.a, cmpBits t), (f.b, cmpBits t)] []

/-- The computation of a compare. -/
def specCmp (cond : BitVec 5) (t : BitVec 2) : OpSpec :=
  { lat := 4, whole := false
    f := fun g q => maskQuarter (List.zipWith (vcmpElem cond.toNat t) (quarterElems (g 0 q)) (quarterElems (g 1 q))) }

/-- Mask words of two sources and of one. -/
def planK2 (i : Instr) (f : Fld) (k : Ctx) : Plan := planVec k i f.d [(f.a, 32), (f.b, 32)] []
def planK1 (i : Instr) (f : Fld) (k : Ctx) : Plan := planVec k i f.d [(f.a, 32)] []

def planKand (f : Fld) (k : Ctx) : Plan := planK2 (.kand f) f k
def planKor (f : Fld) (k : Ctx) : Plan := planK2 (.kor f) f k
def planKxor (f : Fld) (k : Ctx) : Plan := planK2 (.kxor f) f k
def planKandn (f : Fld) (k : Ctx) : Plan := planK2 (.kandn f) f k
def planKnot (f : Fld) (k : Ctx) : Plan := planK1 (.knot f) f k
def planKmov (f : Fld) (k : Ctx) : Plan := planK1 (.kmov f) f k

/-- A mask computation on whole quarters. -/
def specMask (f : Quarter → Quarter → Quarter) : OpSpec := { lat := 4, whole := false, f := fun g q => f (g 0 q) (g 1 q) }

/-- The complement of a mask quarter. -/
def maskNot (a : Quarter) : Quarter := ((~~~(a.extractLsb' 0 256)).setWidth 8192)

/-! ### Select, conversion, packing (R262-R264) -/

def planVsel (f : Fld) (k : Ctx) : Plan := planVec k (.vsel f) f.d [(f.a, 32), (f.b, 32), (f.c, 32)] []

/-- The computation of `vsel`. -/
def specSel : OpSpec :=
  { lat := 4, whole := false
    f := fun g q => quarterOf (List.zipWith (fun (b : Bool) (p : Nat × Nat) => if b then p.1 else p.2) (maskBits (g 2 q))
      ((quarterElems (g 0 q)).zip (quarterElems (g 1 q)))) }

def planVcvt (dst : BitVec 4) (f : Fld) (k : Ctx) : Plan := planF1 (.vcvt dst f) f k

/-- One element converted (R263). -/
def cvtElem (src dst x : Nat) : Nat := (convVal dst (elemVal src (x % 2 ^ typeBits src))).1

/-- The packed type and the part of a packing word (R264). -/
def packType (f : Fld) : Nat := immBits f 0 4
def packPart (f : Fld) : Nat := immBits f 4 3

def planVpack (f : Fld) (k : Ctx) : Plan := planVec k (.vpack f) f.d [(f.a, 32), (f.c, 32)] []
def planVunpack (f : Fld) (k : Ctx) : Plan := planF1 (.vunpack f) f k

/-- The four captured quarters of a source as one image. -/
def imageOfSrc (g : Nat → Nat → Quarter) (i : Nat) : BitVec 32768 := imgOf (g i 0) (g i 1) (g i 2) (g i 3)

/-- The 1,024 elements of a source. -/
def elemsOfSrc (g : Nat → Nat → Quarter) (i : Nat) : List Nat := (List.range 4).flatMap fun q => quarterElems (g i q)

/-- The computation of `vpack`. -/
def specPack (t p : Nat) : OpSpec :=
  let n := typeBits t
  { lat := 6, whole := true
    f := fun g q =>
      let packed : BitVec 32768 := BitVec.ofNat 32768 (packNat n ((elemsOfSrc g 0).map fun x => x % 2 ^ n))
      let base := n * 1024 * p
      let mask : BitVec 32768 := BitVec.ofNat 32768 ((2 ^ (n * 1024) - 1) * 2 ^ base)
      imgQuarter ((imageOfSrc g 1 &&& ~~~mask) ||| (packed <<< base)) q }

/-- One unpacked element: sign-extended for the integer types (R264). -/
def unpackElem (t x : Nat) : Nat := if 7 ≤ t ∧ t ≤ 9 then wrapN 32 (sintN (typeBits t) x) else x

/-- The computation of `vunpack`. -/
def specUnpack (t p : Nat) : OpSpec :=
  let n := typeBits t
  { lat := 6, whole := true
    f := fun g q => quarterOf ((unpackNat n 256 ((imageOfSrc g 0).toNat / 2 ^ (n * (1024 * p + 256 * q)))).map (unpackElem t)) }

/-! ### Axis words (R265, R266) -/

/-- The distance of a rotation or broadcast: the immediate, or the low bits of an s register (R265). -/
def axisN (k : Ctx) (bits : Nat) (f : Fld) : Nat :=
  if f.b = 0 then immBits f 4 6 else (readReg k.core k.e f.b).toNat % 2 ^ bits

/-- A word with one source and a distance. -/
def planAxisN (bits : Nat) (i : Instr) (f : Fld) (k : Ctx) : Plan :=
  (planVec k i f.d [(f.a, 32)] [axisN k bits f]).withLates (if f.b = 0 then [] else lateReg k f.b)

def planVrotR (f : Fld) (k : Ctx) : Plan := planAxisN 6 (.vrotR f) f k
def planVbcR (f : Fld) (k : Ctx) : Plan := planAxisN 6 (.vbcR f) f k
def planVrotC (f : Fld) (k : Ctx) : Plan := planAxisN 4 (.vrotC f) f k
def planVbcC (f : Fld) (k : Ctx) : Plan := planAxisN 4 (.vbcC f) f k
def planVraddR (f : Fld) (k : Ctx) : Plan := planF1 (.vraddR f) f k
def planVrmaxR (f : Fld) (k : Ctx) : Plan := planF1 (.vrmaxR f) f k
def planVrminR (f : Fld) (k : Ctx) : Plan := planF1 (.vrminR f) f k
def planVrmaxiR (f : Fld) (k : Ctx) : Plan := planF1 (.vrmaxiR f) f k
def planVrminiR (f : Fld) (k : Ctx) : Plan := planF1 (.vrminiR f) f k
def planVraddC (f : Fld) (k : Ctx) : Plan := planF1 (.vraddC f) f k
def planVrmaxC (f : Fld) (k : Ctx) : Plan := planF1 (.vrmaxC f) f k
def planVrminC (f : Fld) (k : Ctx) : Plan := planF1 (.vrminC f) f k
def planVrmaxiC (f : Fld) (k : Ctx) : Plan := planF1 (.vrmaxiC f) f k
def planVrminiC (f : Fld) (k : Ctx) : Plan := planF1 (.vrminiC f) f k

/-- A list cut into runs of `n`. -/
def runsOf (n : Nat) : Nat → List Nat → List (List Nat)
  | 0, _ => []
  | m + 1, l => l.take n :: runsOf n m (l.drop n)

/-- The rows of a quarter (R252). -/
def quarterRows (q : Quarter) : List (List Nat) := runsOf 64 4 (quarterElems q)

/-- A quarter from four rows. -/
def quarterOfRowsN (l : List (List Nat)) : Quarter := quarterOf l.flatten

/-- A row-axis computation: each row of a result quarter from the same row of the source (R255). -/
def specRow (lat : Nat) (f : List Nat → List Nat) : OpSpec :=
  { lat, whole := false, f := fun g q => quarterOfRowsN ((quarterRows (g 0 q)).map f) }

/-- A column-axis computation from all 16 rows (R255). -/
def specCol (lat : Nat) (f : List (List Nat) → List (List Nat)) : OpSpec :=
  { lat, whole := true
    f := fun g q => quarterOfRowsN (((f (runsOf 64 16 (elemsOfSrc g 0))).drop (4 * q)).take 4) }

/-- A list rotated left. -/
def rotList {α : Type} (n : Nat) (l : List α) : List α := l.drop n ++ l.take n

/-- Entry `n` of a list, everywhere. -/
def spread (n : Nat) (l : List Nat) : List Nat := List.replicate l.length (l.getD n 0)

/-- A value at the head of a list of zeros. -/
def headOf (vs : List Nat) (len : Nat) : List Nat := vs ++ List.replicate (len - vs.length) 0

/-- The reductions of R266 on one line: kind 0 sum, 1 greatest, 2 least, 3 and 4 with index. `lg` is log2 of the line's
length. -/
def reduceLine (kind : Nat) (ty : Nat) (lg : Nat) (l : List Nat) : List Nat :=
  let int (lt : Int → Int → Bool) : Nat × Nat :=
    let best := l.foldl (fun b x => if lt (sintN 32 b) (sintN 32 x) then x else b) (l.headD 0)
    (best, (firstIdx (fun x => decide (x = best)) 0 l).getD 0)
  match kind with
  | 0 => [if ty = 0 then treeRed fadd lg l else l.sum % 2 ^ 32]
  | 1 => [if ty = 0 then (extremeIdx true l).1 else (int fun a b => decide (a < b)).1]
  | 2 => [if ty = 0 then (extremeIdx false l).1 else (int fun a b => decide (b < a)).1]
  | 3 => let r := if ty = 0 then extremeIdx true l else int fun a b => decide (a < b); [r.1, r.2]
  | _ => let r := if ty = 0 then extremeIdx false l else int fun a b => decide (b < a); [r.1, r.2]

/-- A row-axis reduction. -/
def specRedR (kind : Nat) (f : Fld) : OpSpec := specRow 6 fun l => headOf (reduceLine kind (immBits f 0 4) 6 l) 64

/-- Column `c` of a list of rows. -/
def columnOf (rows : List (List Nat)) (c : Nat) : List Nat := rows.map fun r => r.getD c 0

/-- Rows from columns. -/
def transpose64 (rows : List (List Nat)) : List (List Nat) := (List.range 64).map (columnOf rows)

/-- A column-axis reduction. -/
def specRedC (kind : Nat) (f : Fld) : OpSpec :=
  specCol 8 fun rows =>
    let cols := (transpose64 rows).map fun l => headOf (reduceLine kind (immBits f 0 4) 4 l) 16
    (List.range 16).map fun r => cols.map fun l => l.getD r 0

/-! ### Moves (R203, R267) -/

def planVmov (f : Fld) (k : Ctx) : Plan := planVec k (.vmov f) f.d [(f.a, 32)] [immBits f 0 2]
def planVmovi (f : Fld) (k : Ctx) : Plan := planVec k (.vmovi f) f.d [] []

/-- The computation of `vmov`. -/
def specMov : OpSpec := { lat := 4, whole := false, f := fun g q => g 0 q }

/-- The computation of `vmovi`. -/
def specMovi (f : Fld) : OpSpec := { lat := 4, whole := false, f := fun _ _ => splatQuarter (f.imm.toNat % 2 ^ 32) }

/-! ### Ledges and lanes (R268, R269) -/

/-- vld: the address is bound at issue. -/
def planVld (f : Fld) (k : Ctx) : Plan := planVec k (.vld f) f.d [] [blockRow k f]

/-- vst. -/
def planVst (f : Fld) (k : Ctx) : Plan := planVec k (.vst f) 0 [(f.a, 32)] [blockRow k f]

/-- vtapr. -/
def planVtapr (f : Fld) (k : Ctx) : Plan := planVec k (.vtapr f) f.d [] []

/-- vtapw. -/
def planVtapw (f : Fld) (k : Ctx) : Plan := planVec k (.vtapw f) 0 [(f.a, 32)] []

/-- What `vld` does `dt` ticks after issue. -/
def runVld (f : Fld) (x : Core) (o : Op) (dt : Nat) : OpOut :=
  if 4 ≤ dt then {}
  else
    let row := ledgeRow (o.aux.headD 0) (8 * dt)
    let (rows, out) := readRows x o row 8
    let base := laneBase f.c.toNat
    let q := quarterOfRows rows
    let from_ := ledgeStop (row / 1024)
    let d := laneDist base from_ (stopOf o.eng)
    { out with
      latches := [latchOf o o.dst dt (o.at_ + dt + 2 + d) false q]
      transits := sendRows o base from_ (o.at_ + dt + 2) (stopOf o.eng) false q }

/-- What `vst` does `dt` ticks after issue: it reads for four ticks, and its rows are written on arrival. -/
def runVst (f : Fld) (x : Core) (o : Op) (dt : Nat) : OpOut :=
  let row := o.aux.headD 0
  let base := laneBase f.c.toNat
  let dest := ledgeStop (row / 1024)
  let d := laneDist base (stopOf o.eng) dest
  let read : OpOut := if 4 ≤ dt then {} else
    let out := readSources x o (o.at_ + dt) dt 0 o.srcs
    let q := sget 0 out.got dt
    { out with transits := sendRows o base (stopOf o.eng) (o.at_ + dt + 1) dest false q }
  let write : OpOut := if dt < d + 1 ∨ d + 5 ≤ dt then {} else
    let q := dt - (d + 1)
    writeRows (ledgeRow row (8 * q)) (gotQ o 0 q)
  read.join write

/-- What `vtapr` does at its issue tick. -/
def runVtapr (f : Fld) (x : Core) (o : Op) : OpOut :=
  let (q, out) := takeRows x o o.at_ (stopOf o.eng) (laneBase f.c.toNat)
  { out with latches := if out.causes.isEmpty then [latchOf o o.dst (immBits f 0 2) (o.at_ + 1) false q] else [] }

/-- What `vtapw` does at its issue tick. -/
def runVtapw (f : Fld) (x : Core) (o : Op) : OpOut :=
  let qn := immBits f 0 2
  let code := o.srcs.headD 0
  let (q, out) := readSource x o o.at_ qn code
  { out with transits := sendRows o (laneBase f.c.toNat) (stopOf o.eng) (o.at_ + 1) (immBits f 8 5) true q }

/-- A computed operation `dt` ticks after issue: it reads a quarter of its sources, and puts out what that completes. -/
def runSpec (p : OpSpec) (x : Core) (o : Op) (dt : Nat) : OpOut :=
  if 4 ≤ dt then {}
  else
    let out := readSources x o (o.at_ + dt) dt 0 o.srcs
    let o' := capture out o
    let put (q : Nat) : Latch := latchOf o o.dst q (o.at_ + q + p.lat) p.work (p.f (gotQ o') q)
    { out with latches := if p.whole then (if dt = 3 then (List.range 4).map put else []) else [put dt] }

end Sys2Proof.Machine
end

