-- ==== Sys2Proof/Machine/Sf.lean ====
section
/-! DEFINITION. The special-function pipe SF (R272-R287, R293-R303): special functions, the local transformed mean, bins and
spill areas, histograms, shortlists and draws. -/

namespace Sys2Proof.Machine

/-! ### Special functions (R273) -/

/-- A special-function word. -/
def planSf1 (i : Instr) (f : Fld) (k : Ctx) : Plan := planPipe k i 4 f.d [(f.a, 32)] []

def planSfExp2 (f : Fld) (k : Ctx) : Plan := planSf1 (.sfExp2 f) f k
def planSfLog2 (f : Fld) (k : Ctx) : Plan := planSf1 (.sfLog2 f) f k
def planSfRcp (f : Fld) (k : Ctx) : Plan := planSf1 (.sfRcp f) f k
def planSfRsqrt (f : Fld) (k : Ctx) : Plan := planSf1 (.sfRsqrt f) f k
def planSfSqrt (f : Fld) (k : Ctx) : Plan := planSf1 (.sfSqrt f) f k
def planSfSin (f : Fld) (k : Ctx) : Plan := planSf1 (.sfSin f) f k
def planSfCos (f : Fld) (k : Ctx) : Plan := planSf1 (.sfCos f) f k
def planSfTanh (f : Fld) (k : Ctx) : Plan := planSf1 (.sfTanh f) f k

/-- An element-wise special function of a latency. -/
def specSf (lat : Nat) (f : Nat → Nat) : OpSpec := { lat, whole := false, f := map1 f }

/-- sin and cos `dt` ticks after issue: an element out of range sets SFRANGE (R228). -/
def runTrig (f : Nat → Nat) (c : CoreId) (x : Core) (o : Op) (dt : Nat) : OpOut :=
  let out := runSpec (specSf 12 f) x o dt
  let o' := capture out o
  let far := dt < 4 && (quarterElems (gotQ o' 0 dt)).any sfRange
  { out with eff := fun s => if far then s.modCore c (setNumstat sfRangeBit) else s }

/-! ### The local transformed mean (R274-R276) -/

/-- Fields of `sf.tmx`. -/
def tmxTb (f : Fld) : Bool := decide (immBits f 27 1 = 1)
def tmxSlot (f : Fld) : Nat := immBits f 24 3
def tmxAct (f : Fld) : Nat := immBits f 22 2

def planSfTmx (f : Fld) (k : Ctx) : Plan :=
  let subst := decide (tmxAct f = 2)
  let repl := (readReg k.core k.e f.b).toNat % 2 ^ 32
  let p := planPipe k (.sfTmx f) 8 f.d [(f.a, 32)] [repl]
  let empty := tmxTb f && (vget k.core.sf.tab (tmxSlot f) []).isEmpty
  (p.withLates (if subst then lateReg k f.b else [])).withCauses (if empty then [ownCause k 4 19 (tmxSlot f)] else [])

/-- One term taken into a row's partial (R276). -/
def tmxTerm (m : Mean) (act repl : Nat) (p : Part) (x : Nat) : Part :=
  let take (y : Nat) : Part := { p with cell := termStep m p.cell y, n := p.n + 1 }
  if inDomain m x then take x
  else if act = 2 ∧ inDomain m repl then take repl
  else { p with sk := p.sk + 1 }

/-- A row's result: the mean, its terms and its skipped terms (R276). -/
def tmxRow (m : Mean) (act repl : Nat) (l : List Nat) : List Nat :=
  let p := l.foldl (tmxTerm m act repl) Part.clear
  headOf [meanExit m p, p.n, p.sk] 64

/-- The first term outside the domain in row order: row and column. -/
def tmxFault (m : Mean) (rows : List (List Nat)) : Option (Nat × Nat) :=
  (rows.flatten.findIdx? fun x => !inDomain m x).map fun i => (i / 64, i % 64)

/-- What `sf.tmx` does `dt` ticks after issue: with its last quarter it raises its domain fault or has its results. -/
def runTmx (f : Fld) (x : Core) (o : Op) (dt : Nat) : OpOut :=
  if 4 ≤ dt then {}
  else
    let out := readSources x o (o.at_ + dt) dt 0 o.srcs
    if dt = 3 then
      let m := meanOf (immBits f 28 8) (tmxTb f) (vget x.sf.tab (tmxSlot f) [])
      let rows := runsOf 64 16 (elemsOfSrc (gotQ (capture out o)) 0)
      match (if tmxAct f = 0 then tmxFault m rows else none) with
      | some (r, c) => { out with causes := out.causes ++ [causeBy (reqOfOp o) 9 r c] }
      | none =>
        let res := rows.map (tmxRow m (tmxAct f) (o.aux.headD 0))
        let put (q : Nat) : Latch := latchOf o o.dst q (o.at_ + q + 32) true (quarterOfRowsN ((res.drop (4 * q)).take 4))
        { out with latches := (List.range 4).map put }
    else out

/-! ### Bins and spill areas (R293-R298) -/

/-- The bin that a b code names. -/
def binNo (code : RegCode) : Nat := code.toNat - 0x80

/-- A bin descriptor of a core. -/
def coreBin (x : Core) (n : Nat) : Bin := vget x.sf.b n Bin.zero

/-- Is the BASE of a descriptor a scratchpad address (R293)? -/
def binInPad (b : Bin) : Bool := !b.base.getLsbD 63

/-- The first byte of a scratchpad bin, and its size in bytes. -/
def binBase (b : Bin) : Nat := b.base.toNat % 2 ^ 21
def binSize (b : Bin) : Nat := b.cap.toNat * b.rowb.toNat

/-- Is a descriptor usable by a timed word (R294)? -/
def binUsable (b : Bin) : Bool :=
  let cap := b.cap.toNat
  let rowb := b.rowb.toNat
  decide (1 ≤ cap) && decide (cap ≤ 4096) && decide (b.fill.toNat ≤ cap)
    && decide (rowb % 128 = 0) && decide (128 ≤ rowb) && decide (rowb ≤ 32768) && decide (b.rule ≠ 3)
    && (!binInPad b || (decide (b.base.toNat % 128 = 0) && decide (b.base.toNat + binSize b ≤ 0x200000)))

/-- Configuration fields of a spill area (R296). -/
def spBase (w : W64) : Nat := 128 * bitsN w.toNat 50 14
def spRbase (w : W64) : Nat := 128 * bitsN w.toNat 36 14
def spCap (w : W64) : Nat := bitsN w.toNat 23 13
def spRule (w : W64) : Nat := bitsN w.toNat 21 2
def spUp (w : W64) : Nat := bitsN w.toNat 19 2
def spLevel (w : W64) : Nat := bitsN w.toNat 17 2

/-- Count fields of a spill area (R296). -/
def cnCount (w : W64) : Nat := bitsN w.toNat 48 13
def cnFwd (w : W64) : Nat := bitsN w.toNat 24 24
def cnDrop (w : W64) : Nat := bitsN w.toNat 0 24

/-- Counts as their register image; FWD and DROP saturate. -/
def cnOf (count fwd drop : Nat) : W64 :=
  BitVec.ofNat 64 (count * 2 ^ 48 + min fwd (2 ^ 24 - 1) * 2 ^ 24 + min drop (2 ^ 24 - 1))

/-- Is loop level `n` of SF active? -/
def sfActive (x : Core) (n : Nat) : Bool := (levelOf (x.stream .sf) n).act

/-- The innermost active level of SF. -/
def sfInnermost (x : Core) : Option Nat := [3, 2, 1, 0].find? (sfActive x)

/-- Do two byte ranges meet? -/
def bytesMeet (a n b m : Nat) : Bool := decide (a < b + m) && decide (b < a + n)

/-- Does a bin stand over an area because the area's residue point laid it there (R302)? -/
def laidOver (x : Core) (n i : Nat) : Bool :=
  let w := vget x.sf.spcfg n 0
  let b := coreBin x i
  decide (vget x.sf.laid i none = some n) && decide (b.base.toNat = spBase w) && decide (b.rowb = 256) && decide (b.cap.toNat = spCap w)

/-- May the rows and records of a spill area stand where they are (R296)? A bin that the area's residue point has laid over it is
no overlap. -/
def areaPlaced (x : Core) (n : Nat) : Bool :=
  let w := vget x.sf.spcfg n 0
  let own := [(spBase w, 256 * spCap w), (spRbase w, 8 * spCap w)]
  let meets (a m : Nat) : Bool := own.any fun r => bytesMeet r.1 r.2 a m
  (own.all fun r => decide (r.1 + r.2 ≤ 0x200000))
    && !bytesMeet (spBase w) (256 * spCap w) (spRbase w) (8 * spCap w)
    && ((List.range 4).all fun j =>
      let u := vget x.sf.spcfg j 0
      j == n || spCap u == 0 || !(meets (spBase u) (256 * spCap u) || meets (spRbase u) (8 * spCap u)))
    && ((List.range 16).all fun i =>
      let b := coreBin x i
      b.cap == 0 || !binInPad b || laidOver x n i || !meets (binBase b) (binSize b))

/-- The ledges that a byte range lies in. -/
def ledgesOf (a n : Nat) : List Nat :=
  if n = 0 then [] else (List.range 16).filter fun l => decide (a / 0x20000 ≤ l) && decide (l ≤ (a + n - 1) / 0x20000)

/-- The areas that a bin's defer chain can reach (R300). -/
def chainOf (x : Core) (b : Bin) : List Nat :=
  if b.rule ≠ 1 then []
  else
    let a := b.spill.toNat
    let w := vget x.sf.spcfg a 0
    if spCap w = 0 then [] else if spRule w = 1 then [a, spUp w] else [a]

/-! ### sf.route (R278, R279, R300) -/

/-- What a route decides as it takes rows in order: the descriptors and counts, the rows kept, where each row and its record
go (0x200000 for nowhere), the causes (bin, row, code, detail), and the areas written. -/
structure RouteWork where
  bins : Vector Bin 16
  cnt : Vector W64 4
  kept : List Nat
  place : List (Nat × Nat × Nat)
  bad : List (Nat × Nat × Nat × Nat)
  areas : List Nat

/-- A row given to a spill area with room. -/
def toArea (x : Core) (a record : Nat) (w : RouteWork) : RouteWork :=
  let cfg := vget x.sf.spcfg a 0
  let n := vget w.cnt a 0
  { w with
    cnt := vset w.cnt a (cnOf (cnCount n + 1) (cnFwd n) (cnDrop n))
    place := w.place ++ [(spBase cfg + 256 * cnCount n, spRbase cfg + 8 * cnCount n, record)]
    areas := w.areas ++ [a] }

/-- A row that goes nowhere. -/
def toNowhere (w : RouteWork) : RouteWork := { w with place := w.place ++ [(0x200000, 0x200000, 0)] }

/-- A row along a defer chain (R300). -/
def deferRow (x : Core) (r bin record : Nat) (w : RouteWork) : RouteWork :=
  let a := (vget w.bins bin Bin.zero).spill.toNat
  let cfg := vget x.sf.spcfg a 0
  let n := vget w.cnt a 0
  let fail (code detail : Nat) : RouteWork := toNowhere { w with bad := w.bad ++ [(bin, r, code, detail)] }
  if spCap cfg = 0 then fail 4 19
  else if cnCount n < spCap cfg then toArea x a record w
  else
    match spRule cfg with
    | 0 => toNowhere { w with cnt := vset w.cnt a (cnOf (cnCount n) (cnFwd n) (cnDrop n + 1)) }
    | 1 =>
      let w := { w with cnt := vset w.cnt a (cnOf (cnCount n) (cnFwd n + 1) (cnDrop n)) }
      let u := spUp cfg
      let ucfg := vget x.sf.spcfg u 0
      let m := vget w.cnt u 0
      if cnCount m < spCap ucfg then toArea x u record w
      else if spRule ucfg = 2 then fail 8 3
      else toNowhere { w with cnt := vset w.cnt u (cnOf (cnCount m) (cnFwd m) (cnDrop m + 1)) }
    | 2 => fail 8 3
    | _ => fail 4 19

/-- A counter of 32 bits that saturates, one higher. -/
def satUp (x : W32) : W32 := if x = BitVec.allOnes 32 then x else x + 1

/-- One row of a route. `record` is its spill record but for the bin's nibble. -/
def routeRow (x : Core) (first nb : Nat) (record : Nat → Nat → Nat) (w : RouteWork) (ri : Nat × Nat) : RouteWork :=
  let (r, idx) := ri
  if nb ≤ idx then toNowhere w
  else
    let n := first + idx
    let b := vget w.bins n Bin.zero
    if b.fill.toNat < b.cap.toNat then
      { w with
        bins := vset w.bins n { b with fill := b.fill + 1 }
        kept := w.kept ++ [r]
        place := w.place ++ [(binBase b + 256 * b.fill.toNat, 0x200000, 0)] }
    else
      match b.rule.toNat with
      | 0 => toNowhere { w with bins := vset w.bins n { b with dropped := satUp b.dropped } }
      | 1 => deferRow x r n (record r n) { w with bins := vset w.bins n { b with deferred := satUp b.deferred } }
      | _ => toNowhere { w with bad := w.bad ++ [(n, r, 8, 1)] }

/-- The spill record of row `r` deferred from bin `b` (R297, R298). -/
def spillRecord (x : Core) (rowid r b : Nat) : Nat :=
  let iter := match sfInnermost x with
    | some n => levelIdx x .sf n % 2 ^ 16
    | none => 0
  (x.sf.path.toNat * 16 + b) % 2 ^ 16 + iter * 2 ^ 16 + (rowid + r) % 2 ^ 20 * 2 ^ 32 + min (x.sf.depth.toNat + 1) 4 * 2 ^ 52

/-- The 16 indices of a route, read whole at issue. -/
def routeIdx (x : Core) (code : Nat) : List Nat :=
  match regClass code with
  | some .k => (List.range 16).map fun r => ((vget x.vec.k (code - 0x60) 0).getLsbD (64 * r)).toNat
  | _ => (List.range 16).map fun r => ((vget x.vec.v (4 * (code - 0x40) + r / 4) 0).toNat / 2 ^ (2048 * (r % 4))) % 2 ^ 32

/-- The named bins of a route, and what it decides. -/
def routeBins (f : Fld) : List Nat := (List.range (immBits f 0 4 + 1)).map fun i => binNo f.c + i
def routeWork (x : Core) (f : Fld) (idxCode : Nat) : RouteWork :=
  ((List.range 16).zip (routeIdx x idxCode)).foldl
    (routeRow x (binNo f.c) (immBits f 0 4 + 1) (spillRecord x (immBits f 16 20)))
    { bins := x.sf.b, cnt := x.sf.spcnt, kept := [], place := [], bad := [], areas := [] }

/-- The first bad row of each named bin, in the order of the bins. -/
def routeCauses (k : Ctx) (f : Fld) (w : RouteWork) : List TrapCause :=
  (routeBins f).filterMap fun b =>
    (w.bad.find? fun y => decide (y.1 = b)).map fun y =>
      ownCause k y.2.2.1 y.2.2.2 (if y.2.2.1 = 4 then 0x80 + b else b + 16 * y.2.1)

/-- The ledges of a route: those of its bins, and those of every area that their chains can reach (R279, R300). -/
def routeLedges (x : Core) (f : Fld) : List Nat :=
  ((routeBins f).flatMap fun n =>
    let b := coreBin x n
    ledgesOf (binBase b) (binSize b) ++ (chainOf x b).flatMap fun a =>
      let w := vget x.sf.spcfg a 0
      ledgesOf (spBase w) (256 * spCap w) ++ ledgesOf (spRbase w) (8 * spCap w)).eraseDups

/-- The numbers that a route binds at issue: its index register, the rows kept, the ledges as a mask, then for each row its
place, its record's place and its record, then FILL, DROPPED and DEFERRED of the 16 bins, then the four counts. -/
def routeAux (x : Core) (f : Fld) (idxCode : Nat) (w : RouteWork) : List Nat :=
  [idxCode, (w.kept.map fun r => 2 ^ r).sum, ((routeLedges x f).map fun l => 2 ^ l).sum]
    ++ (w.place.flatMap fun p => [p.1, p.2.1, p.2.2])
    ++ (w.bins.toList.flatMap fun b => [b.fill.toNat, b.dropped.toNat, b.deferred.toNat])
    ++ w.cnt.toList.map BitVec.toNat

def planSfRoute (f : Fld) (k : Ctx) : Plan :=
  let x := k.core
  let code := physV x k.e f.b.toNat
  let unusable := (routeBins f).filter fun n =>
    let b := coreBin x n
    !(binUsable b && binInPad b && decide (b.rowb = 256))
  let p := planPipe k (.sfRoute f) 6 0 [(f.a, 32)] []
  match unusable with
  | n :: _ => p.withCauses [ownCause k 4 19 (0x80 + n)]
  | [] =>
    let w := routeWork x f code
    let misplaced := w.areas.eraseDups.filter fun a => !areaPlaced x a
    let bad := routeCauses k f w ++ (if misplaced.isEmpty then [] else [ownCause k 4 19 f.c.toNat])
    (planPipe k (.sfRoute f) 6 f.d [(f.a, 32)] (routeAux x f code w)).withCauses bad

/-- Row `r` of a captured source as its 256 bytes. -/
def rowBytesOf (o : Op) (r : Nat) : List Byte := bytesOfNat 256 ((gotQ o 0 (r / 4)).toNat / 2 ^ (2048 * (r % 4)))

/-- What a row of a route writes: the row and its record. -/
def routeCells (o : Op) (r : Nat) : List (Nat × List Byte) :=
  let a := o.aux.getD (3 + 3 * r) 0x200000
  let b := o.aux.getD (4 + 3 * r) 0x200000
  (if a < 0x200000 then [(a, rowBytesOf o r)] else [])
    ++ (if b < 0x200000 then [(b, bytesOfNat 8 (o.aux.getD (5 + 3 * r) 0))] else [])

/-- What a route does `dt` ticks after issue. -/
def runRoute (x : Core) (o : Op) (dt : Nat) : OpOut :=
  let kept := o.aux.getD 1 0
  let idx : OpOut := if dt = 0 then
      let put (q : Nat) : Latch :=
        let bits := ((List.range 4).map fun i => if kept.testBit (4 * q + i) then 2 ^ (64 * i) else 0).sum
        latchOf o o.dst q (o.at_ + q + 2) false (BitVec.ofNat 8192 bits)
      ((List.range 4).foldl (fun a q => a.join (parityOfReg x o (o.aux.headD 0) q)) { latches := (List.range 4).map put })
    else {}
  let read : OpOut := if dt < 4 then readSources x o (o.at_ + dt) dt 0 o.srcs else {}
  let write : OpOut := if 2 ≤ dt ∧ dt ≤ 5 then
      { touches := ((List.range 16).filter fun l => (o.aux.getD 2 0).testBit l).map Touch.ledge
        cells := (List.range 4).flatMap fun i => routeCells o (4 * (dt - 2) + i) }
    else {}
  (idx.join read).join write

/-- The descriptors and counts that a route leaves. -/
def landRoute (f : Fld) (o : Op) (dt : Nat) : Landing :=
  if dt = 6 then
    let put (v : Vector Bin 16) (n : Nat) : Vector Bin 16 :=
      let at_ (i : Nat) : Nat := o.aux.getD (51 + 3 * n + i) 0
      let b := vget v n Bin.zero
      vset v n { b with
        fill := BitVec.ofNat 13 (at_ 0)
        dropped := BitVec.ofNat 32 (at_ 1)
        deferred := BitVec.ofNat 32 (at_ 2) }
    { eff := fun x => { x with sf := { x.sf with
        b := (routeBins f).foldl put x.sf.b
        spcnt := Vector.ofFn fun j : Fin 4 => BitVec.ofNat 64 (o.aux.getD (99 + j.val) 0) } } }
  else {}

/-! ### sf.bopen, sf.bdrain, sf.bclose (R280, R298, R301, R302) -/

/-- Do all configured areas obey rules 2 and 3 of R301? -/
def areasComposed (x : Core) : Bool :=
  (List.range 4).all fun n =>
    let w := vget x.sf.spcfg n 0
    spCap w == 0 || (spRule w != 1 && (spLevel w != 0 || spRule w != 3)) ||
      (spRule w == 1 && let u := vget x.sf.spcfg (spUp w) 0
       spLevel w != 0 && spCap u != 0 && decide (spLevel u < spLevel w) && (spRule u == 0 || spRule u == 2))

/-- Does a bin that defers obey rule 1 of R301? -/
def binComposed (x : Core) (b : Bin) : Bool :=
  b.rule != 1 ||
    (let w := vget x.sf.spcfg b.spill.toNat 0
     spCap w != 0 && sfActive x (spLevel w) && (match sfInnermost x with
      | some n => decide (spLevel w ≤ n)
      | none => false))

/-- The plan that zero-fills a bin from its FILL (R280). `after` is the descriptor image that lands with it, as numbers. -/
def planOpen (i : Instr) (k : Ctx) (n : Nat) (b : Bin) (after : List Nat) (path : Core → Core) : Plan :=
  let size := binSize b
  let ticks := (size + 1023) / 1024
  let o : Op := newOp k i 0 [] ([binBase b, binBase b + b.fill.toNat * b.rowb.toNat, binBase b + size, ticks] ++ after)
  let start (x : Core) : Core :=
    let x := path (occupy k.e k.now (ticks + 1) x)
    { x with ops := x.ops ++ [o] }
  let p : Plan := { causes := pipeCause k, act := fun s => s.modCore k.c start }
  if !(binUsable b && binInPad b) then p.withCauses [ownCause k 4 19 (0x80 + n)]
  else if !(areasComposed k.core && binComposed k.core b) then p.withCauses [ownCause k 8 2 n]
  else p

def planSfBopen (f : Fld) (k : Ctx) : Plan := planOpen (.sfBopen f) k (binNo f.d) (coreBin k.core (binNo f.d)) [] id

/-- The bin that a residue point opens over an area (R302). -/
def drainBin (x : Core) (b : Bin) (m : Nat) : Bin :=
  let w := vget x.sf.spcfg m 0
  { b with
    base := BitVec.ofNat 64 (spBase w), rowb := 256, cap := BitVec.ofNat 13 (spCap w), rule := BitVec.ofNat 2 (spRule w)
    spill := if spRule w = 1 then BitVec.ofNat 2 (spUp w) else b.spill
    fill := BitVec.ofNat 13 (cnCount (vget x.sf.spcnt m 0)), dropped := 0, deferred := 0 }

/-- SFPATH with a bin pushed (R298). -/
def pushPath (n : Nat) (x : Core) : Core :=
  { x with sf := { x.sf with path := BitVec.ofNat 16 (x.sf.path.toNat * 16 + n), depth := if x.sf.depth.toNat < 4 then x.sf.depth + 1 else 4 } }

def planSfBdrain (f : Fld) (k : Ctx) : Plan :=
  let x := k.core
  let n := binNo f.d
  let m := immBits f 0 2
  let b := drainBin x (coreBin x n) m
  let after := [n, m, b.base.toNat, b.cap.toNat, b.rule.toNat, b.spill.toNat, b.fill.toNat]
  let p := planOpen (.sfBdrain f) k n b after (pushPath n)
  let p := if binInPad (coreBin x n) then p else p.withCauses [ownCause k 4 19 (0x80 + n)]
  if sfInnermost x = some (spLevel (vget x.sf.spcfg m 0)) then p else p.withCauses [ownCause k 8 2 n]

/-- What `sf.bopen` and `sf.bdrain` do `dt` ticks after issue: 1 KiB of the bin, zero above FILL. -/
def runOpen (o : Op) (dt : Nat) : OpOut :=
  let base := o.aux.headD 0
  let fillEnd := o.aux.getD 1 0
  let stop := o.aux.getD 2 0
  if 1 ≤ dt ∧ dt ≤ o.aux.getD 3 0 then
    let lo := base + 1024 * (dt - 1)
    let hi := min (lo + 1024) stop
    let z := max lo fillEnd
    { touches := (ledgesOf lo (hi - lo)).map Touch.ledge
      cells := if z < hi then [(z, List.replicate (hi - z) 0)] else [] }
  else {}

/-- The descriptor of a residue point, and its area's count (R302). -/
def landDrain (o : Op) (dt : Nat) : Landing :=
  if dt = o.aux.getD 3 0 + 1 then
    let n := o.aux.getD 4 0
    let m := o.aux.getD 5 0
    { eff := fun x =>
        let b := coreBin x n
        let c := vget x.sf.spcnt m 0
        let b' : Bin := { b with
          base := BitVec.ofNat 64 (o.aux.getD 6 0), rowb := 256, cap := BitVec.ofNat 13 (o.aux.getD 7 0)
          rule := BitVec.ofNat 2 (o.aux.getD 8 0), spill := BitVec.ofNat 2 (o.aux.getD 9 0)
          fill := BitVec.ofNat 13 (o.aux.getD 10 0), dropped := 0, deferred := 0 }
        { x with sf := { x.sf with b := vset x.sf.b n b', laid := vset x.sf.laid n (some m), spcnt := vset x.sf.spcnt m (cnOf 0 (cnFwd c) (cnDrop c)) } } }
  else {}

/-- SFPATH with its innermost bin popped, when that is the one closed (R298). -/
def popPath (n : Nat) (x : Core) : Core :=
  if x.sf.depth ≠ 0 ∧ x.sf.path.toNat % 16 = n then
    { x with sf := { x.sf with path := BitVec.ofNat 16 (x.sf.path.toNat / 16 + 0xF000), depth := x.sf.depth - 1 } }
  else x

/-- A word whose descriptor write lands at the next tick. -/
def planBin (i : Instr) (k : Ctx) (aux : List Nat) (now : Core → Core) : Plan :=
  let o : Op := newOp k i 0 [] aux
  { causes := pipeCause k
    act := fun s => s.modCore k.c fun x =>
      let x := now (occupy k.e k.now 1 x)
      { x with ops := x.ops ++ [o] } }

def planSfBclose (f : Fld) (k : Ctx) : Plan := planBin (.sfBclose f) k [binNo f.d] (popPath (binNo f.d))

/-- A core with a bin changed. -/
def modBin (n : Nat) (f : Bin → Bin) (x : Core) : Core := { x with sf := { x.sf with b := vset x.sf.b n (f (coreBin x n)) } }

/-- The closed descriptor. -/
def landBclose (o : Op) (dt : Nat) : Landing :=
  if dt = 1 then { eff := modBin (o.aux.headD 0) fun b => { b with fill := 0, dropped := 0, deferred := 0 } } else {}

/-! ### sf.bget and sf.bset (R281) -/

/-- The eight fields of a descriptor in the order of FLD. -/
def binFields (b : Bin) : List Nat :=
  [b.cap.toNat, b.base.toNat % 2 ^ 32, b.rowb.toNat, b.fill.toNat, b.dropped.toNat, b.deferred.toNat, b.rule.toNat, b.spill.toNat]

def planSfBget (f : Fld) (k : Ctx) : Plan := planPipe k (.sfBget f) 4 f.d [] (binFields (coreBin k.core (binNo f.a)))

/-- The computation of `sf.bget`: the fields in row 0. -/
def specBget (o : Op) : OpSpec :=
  { lat := 2, whole := false, f := fun _ q => if q = 0 then quarterOf (headOf o.aux 256) else 0 }

/-- A descriptor with a field written. -/
def setField (fld v : Nat) (b : Bin) : Bin :=
  match fld with
  | 0 => { b with cap := BitVec.ofNat 13 v }
  | 1 => { b with base := BitVec.ofNat 64 v }
  | 2 => { b with rowb := BitVec.ofNat 16 v }
  | 3 => { b with fill := BitVec.ofNat 13 v }
  | 4 => { b with dropped := BitVec.ofNat 32 v }
  | 5 => { b with deferred := BitVec.ofNat 32 v }
  | 6 => { b with rule := BitVec.ofNat 2 v }
  | _ => { b with spill := BitVec.ofNat 2 v }

def planSfBset (f : Fld) (k : Ctx) : Plan :=
  (planBin (.sfBset f) k [binNo f.d, immBits f 0 3, (readReg k.core k.e f.a).toNat] id).withLates (lateReg k f.a)

/-- The descriptor field that lands. -/
def landBset (o : Op) (dt : Nat) : Landing :=
  if dt = 1 then { eff := modBin (o.aux.headD 0) (setField (o.aux.getD 1 0) (o.aux.getD 2 0)) } else {}

/-! ### Histograms (R282) -/

/-- The ne of a histogram word. -/
def histNe (f : Fld) : Nat := immBits f 8 8 + 1

def planSfHist (f : Fld) (k : Ctx) : Plan := planPipe k (.sfHist f) 6 f.d [(f.a, 32)] []
def planSfHistZ (f : Fld) (k : Ctx) : Plan := planPipe k (.sfHistZ f) 6 f.d [(f.a, 32)] []

/-- One counted row: H, and the rows of the result so far. -/
def histRow (ne : Nat) (w : Vector W32 256 × List (List Nat)) (x : Nat) : Vector W32 256 × List (List Nat) :=
  let e := x % 256
  if e < ne then
    let n := vget w.1 e 0
    (vset w.1 e (n + 1), w.2 ++ [headOf [n.toNat, e] 64])
  else (w.1, w.2 ++ [headOf [0xFFFFFFFF, e] 64])

/-- The counts of a histogram word that has read its source. -/
def histWork (z : Bool) (f : Fld) (x : Core) (o : Op) : Vector W32 256 × List (List Nat) :=
  let rows := runsOf 64 16 (elemsOfSrc (gotQ o) 0)
  (rows.map fun l => l.headD 0).foldl (histRow (histNe f)) (if z then Vector.replicate 256 0 else x.sf.h, [])

/-- What a counting histogram does `dt` ticks after issue. -/
def runSfHist (z : Bool) (f : Fld) (x : Core) (o : Op) (dt : Nat) : OpOut :=
  if 4 ≤ dt then {}
  else
    let out := readSources x o (o.at_ + dt) dt 0 o.srcs
    if dt = 3 then
      let res := (histWork z f x (capture out o)).2
      let put (q : Nat) : Latch := latchOf o o.dst q (o.at_ + q + 6) false (quarterOfRowsN ((res.drop (4 * q)).take 4))
      { out with latches := (List.range 4).map put }
    else out

/-- The counters that a histogram word leaves. -/
def landHist (z : Bool) (f : Fld) (o : Op) (dt : Nat) : Landing :=
  if dt = 6 then { eff := fun x => { x with sf := { x.sf with h := (histWork z f x o).1 } } } else {}

/-- The descriptors as the latch form leaves them, read at its issue tick. -/
def planSfHistLatch (f : Fld) (k : Ctx) : Plan :=
  let x := k.core
  let first := binNo f.c
  let n := min (histNe f) (16 - first)
  let counts := (x.sf.h.toList.take (histNe f)).map BitVec.toNat
  let v := latchBins first counts x.sf.b
  let aux := (List.range n).flatMap fun e =>
    let b := vget v (first + e) Bin.zero
    [b.fill.toNat, b.dropped.toNat, b.base.toNat]
  let o : Op := newOp k (.sfHistLatch f) 0 [] aux
  let p : Plan :=
    { causes := pipeCause k
      act := fun s => s.modCore k.c fun x =>
        let x := occupy k.e k.now 2 x
        { x with ops := x.ops ++ [o] } }
  match (List.range n).find? fun e => !binUsable (coreBin x (first + e)) with
  | some e => p.withCauses [ownCause k 4 19 (0x80 + first + e)]
  | none => p

/-- The latched descriptors. -/
def landHistLatch (f : Fld) (o : Op) (dt : Nat) : Landing :=
  if dt = 2 then
    let first := binNo f.c
    let put (x : Core) (e : Nat) : Core :=
      modBin (first + e) (fun b => { b with
        fill := BitVec.ofNat 13 (o.aux.getD (3 * e) 0), dropped := BitVec.ofNat 32 (o.aux.getD (3 * e + 1) 0), deferred := 0
        base := BitVec.ofNat 64 (o.aux.getD (3 * e + 2) 0) }) x
    { eff := fun x => (List.range (o.aux.length / 3)).foldl put x }
  else {}

/-! ### Shortlists and the mass check (R283, R284) -/

def planSfShort (f : Fld) (k : Ctx) : Plan :=
  let aux := [(readReg k.core k.e f.b).toNat % 2 ^ 32, physV k.core k.e f.c.toNat]
  (planPipe k (.sfShort f) 64 f.d [(f.d, 32), (f.c, 32), (f.a, 32)] aux).withLates (lateReg k f.b)

/-- Does a candidate (value, index) rank before another (R283)? -/
def ranksBefore (a b : Nat × Nat) : Bool :=
  if isNan32 a.1 then isNan32 b.1 && decide (sintN 32 a.2 < sintN 32 b.2)
  else if isNan32 b.1 then true
  else if fkey b.1 < fkey a.1 then true
  else decide (fkey a.1 = fkey b.1) && decide (sintN 32 a.2 < sintN 32 b.2)

/-- A candidate put into its place in a ranked list, after those that do not rank after it. -/
def rankInsert (a : Nat × Nat) : List (Nat × Nat) → List (Nat × Nat)
  | [] => [a]
  | b :: r => if ranksBefore a b then a :: b :: r else b :: rankInsert a r

/-- The 64 best of a row's old and new candidates. -/
def shortRow (base : Nat) (vals idxs new : List Nat) : List (Nat × Nat) :=
  let fresh := new.mapIdx fun j v => (v, (base + j) % 2 ^ 32)
  ((vals.zip idxs ++ fresh).foldl (fun l a => rankInsert a l) []).take 64

/-- What `sf.short` does `dt` ticks after issue. -/
def runShort (x : Core) (o : Op) (dt : Nat) : OpOut :=
  if 4 ≤ dt then {}
  else
    let out := readSources x o (o.at_ + dt) dt 0 o.srcs
    if dt = 3 then
      let g := gotQ (capture out o)
      let rows (i : Nat) : List (List Nat) := runsOf 64 16 (elemsOfSrc g i)
      let res := ((rows 0).zip ((rows 1).zip (rows 2))).map fun p => shortRow (o.aux.headD 0) p.1 p.2.1 p.2.2
      let part (pick : Nat × Nat → Nat) (q : Nat) : Quarter := quarterOfRowsN (((res.drop (4 * q)).take 4).map fun l => l.map pick)
      let put (code : Nat) (pick : Nat × Nat → Nat) (q : Nat) : Latch := latchOf o code q (o.at_ + q + 64) true (part pick q)
      { out with latches := ((List.range 4).map (put o.dst Prod.fst)) ++ (List.range 4).map (put (o.aux.getD 1 0) Prod.snd) }
    else out

def planSfMass (f : Fld) (k : Ctx) : Plan :=
  (planPipe k (.sfMass f) 4 f.d [(f.a, 32), (f.d, 32)] [(readReg k.core k.e f.b).toNat % 2 ^ 32]).withLates (lateReg k f.b)

/-- The computation of `sf.mass` against a threshold. -/
def specMass (t : Nat) : OpSpec :=
  { lat := 8, whole := false
    f := fun g q =>
      let bits := (quarterRows (g 0 q)).mapIdx fun i l => if fle t (treeRed fadd 6 l) then 0 else 2 ^ (64 * i)
      g 1 q ||| BitVec.ofNat 8192 bits.sum }

/-! ### Random draws (R285, R308) -/

/-- A draw word. -/
def planRng (i : Instr) (f : Fld) (k : Ctx) : Plan :=
  planPipe k i 4 f.d [(f.a, 32)] [(vget k.core.sf.rseed (immBits f 4 4) 0).toNat]

def planSfRng (f : Fld) (k : Ctx) : Plan := planRng (.sfRng f) f k
def planSfRngU (f : Fld) (k : Ctx) : Plan := planRng (.sfRngU f) f k

/-- A Philox-4x32 counter. -/
structure Philox where
  c0 : W32
  c1 : W32
  c2 : W32
  c3 : W32

/-- The rounds of Philox-4x32, `n` of them. -/
def philoxRounds : Nat → W32 → W32 → Philox → Philox
  | 0, _, _, p => p
  | n + 1, k0, k1, p =>
    let p0 : W64 := 0xD2511F53 * p.c0.setWidth 64
    let p1 : W64 := 0xCD9E8D57 * p.c2.setWidth 64
    philoxRounds n (k0 + 0x9E3779B9) (k1 + 0xBB67AE85)
      { c0 := p1.extractLsb' 32 32 ^^^ p.c1 ^^^ k0, c1 := p1.extractLsb' 0 32
        c2 := p0.extractLsb' 32 32 ^^^ p.c3 ^^^ k1, c3 := p0.extractLsb' 0 32 }

/-- The four words of a draw block (R285). -/
def drawBlock (seed purp lo hi d : Nat) : List Nat :=
  let p := philoxRounds 10 (BitVec.ofNat 32 seed) (BitVec.ofNat 32 (seed / 2 ^ 32))
    { c0 := BitVec.ofNat 32 lo, c1 := BitVec.ofNat 32 hi, c2 := BitVec.ofNat 32 (purp * 2 ^ 24 + d % 2 ^ 24), c3 := 0 }
  [p.c0.toNat, p.c1.toNat, p.c2.toNat, p.c3.toNat]

/-- A draw as an FP32 value in [0, 1). -/
def unitDraw (x : Nat) : Nat := toF32 (.fin false (x / 256) (-24))

/-- The draws of a row. -/
def drawRow (u : Bool) (seed purp : Nat) (l : List Nat) : List Nat :=
  ((List.range 16).flatMap fun j => drawBlock seed purp (l.getD 0 0) (l.getD 1 0) (l.getD 2 0 + j)).map fun x =>
    if u then unitDraw x else x

/-- The computation of `sf.rng`. -/
def specRng (u : Bool) (f : Fld) (seed : Nat) : OpSpec := specRow 12 (drawRow u seed (immBits f 8 8))

end Sys2Proof.Machine
end

