-- ==== Sys2Proof/Machine/Plans.lean ====
section
/-! DEFINITION. The plan of every engine word by its instruction, and the computation of every operation by the word that
started it. -/

namespace Sys2Proof.Machine

/-- What PRECTL.FORCE does to a team (R133). -/
def forceTeam (id : Nat) (s : State) : State := forcedSaveJob performCmd id s

/-- FORCED_SAVE (R133): DRAINLIM has expired for a team whose suspension is requested, or whose save has begun and waits. -/
def drainExpired (id : Nat) (s : State) : State :=
  match jobById s id with
  | some j => if j.save || j.team.any fun c => (s.core c).csr.preq then forceTeam id s else s
  | none => s

/-- The plan of a word. The other rows of the opcode table are not words of an engine. -/
def planOf (i : Instr) (k : Ctx) : Plan :=
  match i with
  | .gate f => planGate f k
  | .add f => planAdd f k
  | .sub f => planSub f k
  | .mul f => planMul f k
  | .mulh f => planMulh f k
  | .mulhu f => planMulhu f k
  | .and f => planAnd f k
  | .or f => planOr f k
  | .xor f => planXor f k
  | .andn f => planAndn f k
  | .shl f => planShl f k
  | .shr f => planShr f k
  | .sra f => planSra f k
  | .min f => planMin f k
  | .max f => planMax f k
  | .minu f => planMinu f k
  | .maxu f => planMaxu f k
  | .clz f => planClz f k
  | .ctz f => planCtz f k
  | .popc f => planPopc f k
  | .addI f => planAddI f k
  | .subI f => planSubI f k
  | .mulI f => planMulImm f k
  | .mulhI f => planMulhI f k
  | .mulhuI f => planMulhuI f k
  | .andI f => planAndI f k
  | .orI f => planOrI f k
  | .xorI f => planXorI f k
  | .andnI f => planAndnI f k
  | .shlI f => planShlI f k
  | .shrI f => planShrI f k
  | .sraI f => planSraI f k
  | .minI f => planMinI f k
  | .maxI f => planMaxI f k
  | .minuI f => planMinuI f k
  | .maxuI f => planMaxuI f k
  | .movi f => planMovi f k
  | .movhi f => planMovhi f k
  | .ceq f => planCeq f k
  | .cne f => planCne f k
  | .clt f => planClt f k
  | .cltu f => planCltu f k
  | .cle f => planCle f k
  | .cleu f => planCleu f k
  | .ceqI f => planCeqI f k
  | .cneI f => planCneI f k
  | .cltI f => planCltI f k
  | .cltuI f => planCltuI f k
  | .cleI f => planCleI f k
  | .cleuI f => planCleuI f k
  | .pand f => planPand f k
  | .por f => planPor f k
  | .pxor f => planPxor f k
  | .pandn f => planPandn f k
  | .pnot f => planPnot f k
  | .pmov f => planPmov f k
  | .pset f => planPset f k
  | .pclr f => planPclr f k
  | .pvoid f => planPvoid f k
  | .sel f => planSel f k
  | .csrr f => planCsrr f k
  | .csrw f => planCsrw forceTeam f k
  | .csrs f => planCsrs forceTeam f k
  | .csrc f => planCsrc forceTeam f k
  | .rdvAlign f => planRdvAlign f k
  | .rdv f => planRdv f k
  | .rdvFlip f => planRdvFlip f k
  | .rdvEnd f => planRdvEnd f k
  | .idle f => planIdle f k
  | .loop f => planLoop f k
  | .loopSt f => planLoopSt f k
  | .lpr f => planLpr f k
  | .lpw f => planLpw f k
  | .tret f => planTret f k
  | .ldB f => planLdB f k
  | .ldH f => planLdH f k
  | .ldW f => planLdW f k
  | .ldD f => planLdD f k
  | .ldBs f => planLdBs f k
  | .ldHs f => planLdHs f k
  | .ldWs f => planLdWs f k
  | .stB f => planStB f k
  | .stH f => planStH f k
  | .stW f => planStW f k
  | .stD f => planStD f k
  | .qld f => planQld f k
  | .qst f => planQst f k
  | .pref f => planPref f k
  | .fence f => planFence f k
  | .fenceAcq f => planFenceAcq f k
  | .fenceRel f => planFenceRel f k
  | .afence f => planAfence f k
  | .mark f => planMark f k
  | .tok f => planTok f k
  | .uret f => planUret f k
  | .gset f => planGset f k
  | .gget f => planGget f k
  | .mclr f => planMclr f k
  | .mstep f => planMstep f k
  | .mstepN24 f => planMstepN24 f k
  | .mstepN48 f => planMstepN48 f k
  | .mstepN14 f => planMstepN14 f k
  | .mbsrc f => planMbsrc f k
  | .mload f => planMload f k
  | .mgath f => planMgath f k
  | .mfmt f => planMfmt f k
  | .mswap f => planMswap f k
  | .mscale f => planMscale f k
  | .mdrain f => planMdrain f k
  | .vaddF32 f => planVaddF32 f k
  | .vsubF32 f => planVsubF32 f k
  | .vmulF32 f => planVmulF32 f k
  | .vminF32 f => planVminF32 f k
  | .vmaxF32 f => planVmaxF32 f k
  | .vfmaF32 f => planVfmaF32 f k
  | .vfmsF32 f => planVfmsF32 f k
  | .vfnmaF32 f => planVfnmaF32 f k
  | .vabsF32 f => planVabsF32 f k
  | .vnegF32 f => planVnegF32 f k
  | .kand f => planKand f k
  | .kor f => planKor f k
  | .kxor f => planKxor f k
  | .kandn f => planKandn f k
  | .knot f => planKnot f k
  | .kmov f => planKmov f k
  | .vsel f => planVsel f k
  | .vpack f => planVpack f k
  | .vunpack f => planVunpack f k
  | .vrotR f => planVrotR f k
  | .vbcR f => planVbcR f k
  | .vraddR f => planVraddR f k
  | .vrmaxR f => planVrmaxR f k
  | .vrminR f => planVrminR f k
  | .vrmaxiR f => planVrmaxiR f k
  | .vrminiR f => planVrminiR f k
  | .vrotC f => planVrotC f k
  | .vbcC f => planVbcC f k
  | .vraddC f => planVraddC f k
  | .vrmaxC f => planVrmaxC f k
  | .vrminC f => planVrminC f k
  | .vrmaxiC f => planVrmaxiC f k
  | .vrminiC f => planVrminiC f k
  | .vmov f => planVmov f k
  | .vmovi f => planVmovi f k
  | .vld f => planVld f k
  | .vst f => planVst f k
  | .vtapr f => planVtapr f k
  | .vtapw f => planVtapw f k
  | .sfExp2 f => planSfExp2 f k
  | .sfLog2 f => planSfLog2 f k
  | .sfRcp f => planSfRcp f k
  | .sfRsqrt f => planSfRsqrt f k
  | .sfSqrt f => planSfSqrt f k
  | .sfSin f => planSfSin f k
  | .sfCos f => planSfCos f k
  | .sfTanh f => planSfTanh f k
  | .sfTmx f => planSfTmx f k
  | .sfRoute f => planSfRoute f k
  | .sfBopen f => planSfBopen f k
  | .sfBclose f => planSfBclose f k
  | .sfBdrain f => planSfBdrain f k
  | .sfHist f => planSfHist f k
  | .sfHistZ f => planSfHistZ f k
  | .sfHistLatch f => planSfHistLatch f k
  | .sfShort f => planSfShort f k
  | .sfMass f => planSfMass f k
  | .sfRng f => planSfRng f k
  | .sfRngU f => planSfRngU f k
  | .sfBget f => planSfBget f k
  | .sfBset f => planSfBset f k
  | .scrubLedge f => planScrubLedge f k
  | .scrubMem f => planScrubMem f k
  | .scrubL2 f => planScrubL2 f k
  | .scrubJoin f => planScrubJoin f k
  | .cop fn f => planCop fn f k
  | .amoAdd w ord f => planAmoAdd w ord f k
  | .amoMin w ord f => planAmoMin w ord f k
  | .amoMax w ord f => planAmoMax w ord f k
  | .amoMinu w ord f => planAmoMinu w ord f k
  | .amoMaxu w ord f => planAmoMaxu w ord f k
  | .amoAnd w ord f => planAmoAnd w ord f k
  | .amoOr w ord f => planAmoOr w ord f k
  | .amoXor w ord f => planAmoXor w ord f k
  | .amoSwap w ord f => planAmoSwap w ord f k
  | .amoCas w ord f => planAmoCas w ord f k
  | .vaddI t f => planVaddI t f k
  | .vsubI t f => planVsubI t f k
  | .vmulI t f => planVmulI t f k
  | .vminI t f => planVminI t f k
  | .vmaxI t f => planVmaxI t f k
  | .vand t f => planVand t f k
  | .vor t f => planVor t f k
  | .vxor t f => planVxor t f k
  | .vshl t f => planVshl t f k
  | .vshr t f => planVshr t f k
  | .vsra t f => planVsra t f k
  | .vadds t f => planVadds t f k
  | .vsubs t f => planVsubs t f k
  | .vcmp cond t f => planVcmp cond t f k
  | .vcvt dst f => planVcvt dst f k
  | _ => {}
/-- Does the word resolve its own guard, which belongs to its command (R79)? -/
def selfGuarded (i : Instr) : Bool :=
  match i with
  | .cop _ _ | .scrubLedge _ | .scrubMem _ | .scrubL2 _ | .scrubJoin _ => true
  | _ => false

/-- The rendezvous form of a word that counts as one (R99). -/
def rdvFormOf (i : Instr) : Option RdvForm :=
  match i with
  | .rdv _ => some .rdv
  | .rdvFlip _ => some .flip
  | _ => none

/-! ### Operations in progress -/

/-- The computation of an operation whose result quarters follow from its source quarters. -/
def specOf (o : Op) : Option OpSpec :=
  match o.instr with
  | .vaddF32 _ => some (spec2 fadd)
  | .vsubF32 _ => some (spec2 fsub)
  | .vmulF32 _ => some (spec2 fmul)
  | .vminF32 _ => some (spec2 fmin)
  | .vmaxF32 _ => some (spec2 fmax)
  | .vfmaF32 _ => some (spec3 ffma)
  | .vfmsF32 _ => some (spec3 ffms)
  | .vfnmaF32 _ => some (spec3 ffnma)
  | .vabsF32 _ => some (spec1 vabsElem)
  | .vnegF32 _ => some (spec1 vnegElem)
  | .vaddI t _ => some (specI t partAdd)
  | .vsubI t _ => some (specI t partSub)
  | .vmulI t _ => some (specI t partMul)
  | .vminI t _ => some (specI t partMin)
  | .vmaxI t _ => some (specI t partMax)
  | .vand t _ => some (specI t partAnd)
  | .vor t _ => some (specI t partOr)
  | .vxor t _ => some (specI t partXor)
  | .vshl t _ => some (specI t partShl)
  | .vshr t _ => some (specI t partShr)
  | .vsra t _ => some (specI t partSra)
  | .vadds t _ => some (specI t partAdds)
  | .vsubs t _ => some (specI t partSubs)
  | .vcmp cond t _ => some (specCmp cond t)
  | .kand _ => some (specMask fun a b => a &&& b)
  | .kor _ => some (specMask fun a b => a ||| b)
  | .kxor _ => some (specMask fun a b => a ^^^ b)
  | .kandn _ => some (specMask fun a b => a &&& maskNot b)
  | .knot _ => some (specMask fun a _ => maskNot a)
  | .kmov _ => some (specMask fun a _ => a)
  | .vsel _ => some specSel
  | .vcvt dst f => some (spec1 (cvtElem (immBits f 0 4) dst.toNat))
  | .vpack f => some (specPack (packType f) (packPart f))
  | .vunpack f => some (specUnpack (packType f) (packPart f))
  | .vrotR _ => some (specRow 4 (rotList (o.aux.headD 0)))
  | .vbcR _ => some (specRow 4 (spread (o.aux.headD 0)))
  | .vrotC _ => some (specCol 6 (rotList (o.aux.headD 0)))
  | .vbcC _ => some (specCol 6 fun rows => List.replicate rows.length (rows.getD (o.aux.headD 0) []))
  | .vraddR f => some (specRedR 0 f)
  | .vrmaxR f => some (specRedR 1 f)
  | .vrminR f => some (specRedR 2 f)
  | .vrmaxiR f => some (specRedR 3 f)
  | .vrminiR f => some (specRedR 4 f)
  | .vraddC f => some (specRedC 0 f)
  | .vrmaxC f => some (specRedC 1 f)
  | .vrminC f => some (specRedC 2 f)
  | .vrmaxiC f => some (specRedC 3 f)
  | .vrminiC f => some (specRedC 4 f)
  | .vmov _ => some specMov
  | .vmovi f => some (specMovi f)
  | .sfExp2 _ => some (specSf 8 sfExp2F)
  | .sfLog2 _ => some (specSf 8 sfLog2F)
  | .sfRcp _ => some (specSf 8 sfRcpF)
  | .sfRsqrt _ => some (specSf 8 sfRsqrtF)
  | .sfSqrt _ => some (specSf 8 sfSqrtF)
  | .sfTanh _ => some (specSf 12 sfTanhF)
  | .sfMass _ => some (specMass (o.aux.headD 0))
  | .sfRng f => some (specRng false f (o.aux.headD 0))
  | .sfRngU f => some (specRng true f (o.aux.headD 0))
  | .sfBget _ => some (specBget o)
  | _ => none

/-- What an operation does at a tick. -/
def runOp (c : CoreId) (x : Core) (now : Nat) (o : Op) : OpOut :=
  let dt := now - o.at_
  match o.instr with
  | .vld f => runVld f x o dt
  | .vst f => runVst f x o dt
  | .vtapr f => if dt = 0 then runVtapr f x o else {}
  | .vtapw f => if dt = 0 then runVtapw f x o else {}
  | .mload _ => runMload x o dt
  | .mbsrc f => runMbsrc f x o dt
  | .mstep _ | .mstepN24 _ | .mstepN48 _ | .mstepN14 _ | .mgath _ => runStep x o dt
  | .sfSin _ => runTrig sfSinF c x o dt
  | .sfCos _ => runTrig sfCosF c x o dt
  | .sfTmx f => runTmx f x o dt
  | .sfRoute _ => runRoute x o dt
  | .sfBopen _ | .sfBdrain _ => runOpen o dt
  | .sfHist f => runSfHist false f x o dt
  | .sfHistZ f => runSfHist true f x o dt
  | .sfShort _ => runShort x o dt
  | _ =>
    match specOf o with
    | some p => runSpec p x o dt
    | none => {}

/-- What an operation leaves in bench and bin state at a tick. -/
def landOp (c : CoreId) (x : Core) (now : Nat) (o : Op) : Landing :=
  let dt := now - o.at_
  match o.instr with
  | .mload _ => landMload o dt
  | .mstep _ | .mstepN24 _ | .mstepN48 _ | .mstepN14 _ | .mgath _ => landStep c x o dt
  | .mdrain _ => landMdrain o dt
  | .sfRoute f => landRoute f o dt
  | .sfBdrain _ => landDrain o dt
  | .sfBclose _ => landBclose o dt
  | .sfBset _ => landBset o dt
  | .sfHist f => landHist false f o dt
  | .sfHistZ f => landHist true f o dt
  | .sfHistLatch f => landHistLatch f o dt
  | _ => {}

/-- The last tick after its issue at which an operation does anything. -/
def opLast (o : Op) : Nat :=
  match o.instr with
  | .vst f => laneDist (laneBase f.c.toNat) (stopOf o.eng) (ledgeStop (o.aux.headD 0 / 1024)) + 4
  | .vtapr _ | .vtapw _ => 0
  | .mload _ => 16
  | .mbsrc f => bTicks (immBits f 0 2)
  | .mstep _ | .mstepN24 _ | .mstepN48 _ | .mstepN14 _ | .mgath _ => stepP o
  | .mdrain _ => 39
  | .sfRoute _ | .sfHist _ | .sfHistZ _ => 6
  | .sfBopen _ | .sfBdrain _ => o.aux.getD 3 0 + 1
  | .sfBclose _ | .sfBset _ => 1
  | .sfHistLatch _ => 2
  | _ => 3

end Sys2Proof.Machine
end

