-- ==== Sys2Proof/Machine/Tick.lean ====
section
/-! DEFINITION. The tick of a cluster (R33, R35-R42, R45, R48, R77, R119, R256), and the untimed issue of words by the AP
and by trap handlers (R14, R118, R122, R123). -/

namespace Sys2Proof.Machine

/-! ### Turns -/

/-- A word that a stream issues at a tick: where it stands, the pitch and offset that a trap of it names, what its pitch waits
for, the lowest encoding check that fails, whether its units have been fetched and are sound, and what it decodes to. -/
structure Turn where
  c : CoreId
  e : Engine
  pos : Pos
  name : BitVec 10 × Nat
  waits : List (Engine × BitVec 7)
  detail : Nat
  fetched : Bool
  bad : Bool
  instr : Option Instr
deriving DecidableEq, Repr

/-- The requester that a turn's word is. -/
def Turn.req (t : Turn) : Req := { eng := t.e, pitch := t.name.1, word := t.name.2 }

/-- The next word of a stream, decoded. -/
def turnOf (s : State) (c : CoreId) (e : Engine) : Turn :=
  let n := nextOf s c e
  let x := unpackWord n.bits
  let d := if n.detail ≠ 0 then n.detail else encodingDetail (whereOf (s.core c) e) x
  { c, e, pos := n.pos, name := n.name, waits := n.waits, detail := d, fetched := n.fetched, bad := n.bad
    instr := if d = 0 then ofFields x else none }

/-- An instruction as the next word of a stream. -/
def turnFor (s : State) (c : CoreId) (e : Engine) (i : Instr) : Turn :=
  let n := nextOf s c e
  let d := match toFields i with
    | some x => encodingDetail (whereOf (s.core c) e) x
    | none => 0
  { c, e, pos := n.pos, name := (n.pos.pitch, n.pos.off), waits := n.waits, detail := d, fetched := true, bad := false, instr := some i }

/-- Is the next word of a timed stream due (R19)? A stream whose job has not passed `rdv.align` is not. -/
def dueNow (s : State) (c : CoreId) (e : Engine) : Bool :=
  let x := s.core c
  let t := x.stream e
  e.timed && x.aligned && t.present && !t.ended && !heldAtFlip s c e && decide (dueOf s c e ≤ (s.cluster c.cluster).clk)

/-- The timed engines in the order of their codes. -/
def timedEngines : List Engine := [.lead, .mx, .va, .vb, .sf]

/-- The turns of a cluster at its present tick, in the order of cores and engines. `own` is a word that one stream issues
whatever its image holds. -/
def turnsOf (s : State) (k : ClusterId) (own : Option (CoreId × Engine × Instr)) : List Turn :=
  k.cores.flatMap fun c => timedEngines.filterMap fun e =>
    match own with
    | some (c', e', i) =>
      if c = c' ∧ e = e' then some (turnFor s c e i) else if dueNow s c e then some (turnOf s c e) else none
    | none => if dueNow s c e then some (turnOf s c e) else none

/-- The waits of a turn that are not satisfied. -/
def waitsLeft (s : State) (t : Turn) : List (Engine × BitVec 7) := t.waits.filter fun w => !waitMet (s.core t.c) w

/-! ### Rendezvous at a tick (R27) -/

/-- The rendezvous form of a turn's word. -/
def turnForm (t : Turn) : Option RdvForm := t.instr.bind rdvFormOf

/-- Does some timed member of the turn's job in the cluster not issue the same rendezvous at the tick (R27)? A member that
has ended is R100's case. -/
def rdvMismatch (s : State) (k : ClusterId) (turns : List Turn) (t : Turn) : Bool :=
  let x := s.core t.c
  x.job.isSome && (turnForm t).isSome && k.cores.any fun c => decide ((s.core c).job = x.job) && timedEngines.any fun e =>
    let m := (s.core c).stream e
    m.present && !m.ended && !(turns.any fun u =>
      decide (u.c = c) && decide (u.e = e) && (turnForm u).isSome && decide (m.rdvs = (x.stream t.e).rdvs))

/-- Does the turn arrive at its rendezvous at this tick? -/
def arrives (s : State) (k : ClusterId) (turns : List Turn) (t : Turn) : Bool :=
  (turnForm t).isSome && t.fetched && !t.bad && (waitsLeft s t).isEmpty && !rdvPassed s t.c t.e && !rdvMismatch s k turns t

/-- A stream's arrival. -/
def markArrival (s : State) (t : Turn) : State :=
  match turnForm t with
  | some form => s.modCore t.c (arriveAt form t.e)
  | none => s

/-- The arrivals of a tick, and the rendezvous that retire with them. -/
def arriveTurns (k : ClusterId) (turns : List Turn) (s : State) : State :=
  let there := turns.filter (arrives s k turns)
  let s := there.foldl markArrival s
  ((there.filterMap fun t => (s.core t.c).job).eraseDups).foldl (fun s id => retireRdv id s) s

/-! ### What lands at a tick -/

/-- The latches of a core that are due. -/
def dueLatches (now : Nat) (x : Core) : List Latch := x.latches.filter fun l => decide (l.due ≤ now)

/-- A core with the quarters that are due at a tick written. -/
def landQuarters (now : Nat) (x : Core) : Core :=
  let due := (dueLatches now x).filter fun l => !isScalarLatch l
  due.foldl (fun x l => landLatch l x) { x with latches := x.latches.filter fun l => !(decide (l.due ≤ now) && !isScalarLatch l) }

/-- The causes that a core's landings raise. -/
def landCauses (c : CoreId) (now : Nat) (x : Core) : List TrapCause :=
  let y := landQuarters now x
  y.ops.flatMap fun o => (landOp c y now o).causes

/-- The causes of results that reach an s register whose reply is pending (R82), as the words of the tick leave it. -/
def pendingCauses (now : Nat) (x y : Core) : List TrapCause :=
  ((dueLatches now x).filter fun l => decide (regClass l.code.toNat = some .s) && decide (l.code.toNat % 32 ≠ 0)
    && y.scal.pendS.getLsbD (l.code.toNat % 32)).map fun l => causeBy { eng := l.eng, pitch := l.pitch, word := l.word } 4 10 0

/-- What remains of a core's landings when a cause stops the tick. -/
def landMissed (c : CoreId) (now : Nat) (x : Core) : Core :=
  let y := landQuarters now x
  (y.ops.filter fun o => !(landOp c y now o).causes.isEmpty).foldl (fun x o => (landOp c y now o).missed x) x

/-- A core as the reads of a tick see it: quarters, tiles, `rb` and descriptors that are due have landed. -/
def landCore (c : CoreId) (now : Nat) (x : Core) : Core :=
  let y := landQuarters now x
  freeHalves now (y.ops.foldl (fun x o => (landOp c x now o).eff x) y)

/-- A state as the reads of a tick of a cluster see it. -/
def landAll (k : ClusterId) (now : Nat) (s : State) : State := k.cores.foldl (fun s c => s.modCore c (landCore c now)) s

/-! ### The plan of a turn -/

/-- A plan behind a guard (R11, R59): an unwritten slot is late, and a false guard makes a null. -/
def guarded (k : Ctx) (i : Instr) (p : Plan) : Plan :=
  match toFields i with
  | none => p
  | some x =>
    if selfGuarded i then p
    else if guardLate k.core k.e x.f.h then { lates := [(3, 0x90 + x.f.h.g.toNat)] }
    else if guardTrue k.core k.e x.f.h then p
    else {}

/-- The late operands and causes of a pitch's waits in a timed stream (R33). -/
def waitLates (l : List (Engine × BitVec 7)) : List (Nat × Nat) := (l.filter fun w => decide (w.1 = .ap)).map fun _ => (4, 0)
def waitCauses (k : Ctx) (l : List (Engine × BitVec 7)) : List TrapCause :=
  (l.filter fun w => decide (w.1 ≠ .ap)).map fun _ => ownCause k 4 3 0

/-- The context in which a turn's word is planned. -/
def Turn.ctx (t : Turn) (s : State) (now : Nat) : Ctx := { s, c := t.c, e := t.e, req := t.req, now }

/-- The plan of a turn on the state that the reads of its tick see. `mis` says that it meets a rendezvous that the other
members do not issue. -/
def turnPlan (s : State) (now : Nat) (mis : Bool) (t : Turn) : Plan :=
  let k := t.ctx s now
  if !t.fetched then { lates := [(8, 0)] }
  else if t.bad then planCause k 11 7 0
  else if t.detail ≠ 0 then planCause k 1 t.detail 0
  else
    match t.instr with
    | none => {}
    | some i =>
      let left := waitsLeft s t
      let p := (guarded k i (planOf i k)).withLates (waitLates left)
      p.withCauses (waitCauses k left ++ if mis then [ownCause k 4 1 0] else [])

/-- A turn taken: its stream moves on, and its word has its effect. -/
def takeTurn (now : Nat) (s : State) (x : Turn × Plan) : State :=
  x.2.act (s.modCore x.1.c (advance x.1.e x.1.pos now x.2.idle x.2.skip))

/-! ### Meetings (R45, R48, R49, R87, R241, R256) -/

/-- A requester put into its place. -/
def reqInsert (a : Req) : List Req → List Req
  | [] => [a]
  | b :: r => if reqLe a b then a :: b :: r else b :: reqInsert a r

/-- The first two of several requesters. -/
def firstTwo (l : List Req) : Option (Req × Req) :=
  match l.foldr reqInsert [] with
  | a :: b :: _ => some (a, b)
  | _ => none

/-- The cause of two requesters that touch one thing. -/
def touchCause (a b : Req) (t : Touch) : Option TrapCause :=
  match t with
  | .write code _ => some (causeBy2 a b 4 4 (code % 256))
  | .push code | .pop code => some (causeBy2 a b 4 4 code)
  | .ledge l => some (causeBy2 a b 5 0 l)
  | .bus | .claim _ => none

/-- The causes of a core's touches at a tick. -/
def touchCauses (l : List (Req × Touch)) : List TrapCause :=
  ((l.map Prod.snd).eraseDups).filterMap fun t =>
    match firstTwo ((l.filter fun x => decide (x.2 = t)).map Prod.fst) with
    | some (a, b) => touchCause a b t
    | none => none

/-- The cause of a second bus driver of a team, or of a claim beyond the free halves (R241): each on the claiming core. The
list holds the claimers in order. -/
def laterCauses (same : CoreId × Req → CoreId × Req → Bool) (free : Nat) (obj : CoreId → Nat) :
    List (CoreId × Req) → List (CoreId × Req) → List (CoreId × TrapCause)
  | _, [] => []
  | seen, x :: r =>
    let rest := laterCauses same free obj (x :: seen) r
    if free ≤ (seen.filter (same x)).length then (x.1, causeBy x.2 4 12 (obj x.1)) :: rest else rest

/-- The bus and claim causes of a cluster. -/
def busCauses (s : State) (k : ClusterId) (l : List (CoreId × Req × Touch)) : List (CoreId × TrapCause) :=
  let by_ (t : Touch) : List (CoreId × Req) := (l.filter fun x => decide (x.2.2 = t)).map fun x => (x.1, x.2.1)
  let team (a b : CoreId × Req) : Bool := decide ((s.core a.1).job = (s.core b.1).job)
  laterCauses team 1 (fun c => benchObj c 0) [] (by_ .bus) ++
    k.cores.flatMap fun d =>
      laterCauses (fun _ _ => true) (2 - (s.core d).bench.bbuf.length) (fun _ => benchObj d 0) [] (by_ (.claim d.inCluster))

/-- The requester that put a row on a lane. -/
def reqOfTransit (t : Transit) : Req := { eng := t.eng, pitch := t.pitch, word := t.word }

/-- The causes of rows that stand on one lane at one stop (R48). -/
def laneCauses (now : Nat) (x : Core) : List TrapCause :=
  let l := x.transits.filterMap fun t => (transitStop t now).map fun p => ((p, t.lane), reqOfTransit t)
  ((l.map Prod.fst).eraseDups).filterMap fun p =>
    (firstTwo ((l.filter fun y => decide (y.1 = p)).map Prod.snd)).map fun r => causeBy2 r.1 r.2 4 5 (p.1 * 32 + p.2)

/-- Has a row reached its destination at the tick? -/
def transitEnds (now : Nat) (t : Transit) : Bool := decide (t.enter + laneDist t.lane t.from_ t.dest ≤ now)

/-- The causes of rows that reach a tap's stop and are not taken (R269). -/
def tapCauses (now : Nat) (taken : List (Nat × Nat)) (x : Core) : List TrapCause :=
  (x.transits.filter fun t => t.tap && transitEnds now t && !taken.contains (t.lane, t.dest % 24)).map fun t =>
    causeBy (reqOfTransit t) 4 18 (t.dest % 24 * 32 + t.lane)

/-! ### The freeze (R38-R41) -/

/-- A late operand met at a tick: its turn, kind and object. -/
structure Late where
  t : Turn
  kind : Nat
  obj : Nat

/-- The late operands of turns, in order, of each turn the least kind first. -/
def latesOf (l : List (Turn × Plan)) : List Late :=
  l.flatMap fun x => match x.2.lates with
    | [] => []
    | a :: r =>
      let m := r.foldl (fun m y => if y.1 < m.1 then y else m) a
      [{ t := x.1, kind := m.1, obj := m.2 }]

/-- A count of cycles that saturates. -/
def slipUp (x : W64) : W64 := if x = BitVec.allOnes 64 then x else x + 1

/-- A cluster whose present tick has been attempted (R124). -/
def markTried (y : Cluster) : Cluster := { y with tried := true }

/-- The trap of a freeze that has reached FRZLIM (R40). -/
def limitTrap (k : ClusterId) (s : State) : Option State :=
  match (s.cluster k).freeze with
  | some f =>
    if (s.cluster k).frzlim ≠ 0 ∧ (s.cluster k).frzlim.toNat ≤ f.run then
      let r : Req := { eng := f.eng, pitch := f.pitch, word := f.word }
      some (takeTrap (k.core (Fin.ofNat 4 f.core)) false (causeBy r 12 2 f.kind) [] s)
    else none
  | none => none

/-- A frozen cycle. -/
def freezeCycle (k : ClusterId) (l : Late) (s : State) : State :=
  match limitTrap k s with
  | some s => s
  | none => s.modCluster k fun y =>
    let f := match y.freeze with
      | some f => { f with cyc := f.cyc + 1, run := f.run + 1 }
      | none => { cyc := 1, run := 1, kind := l.kind, eng := l.t.e, core := l.t.c.inCluster, pitch := l.t.name.1, word := l.t.name.2 }
    { y with tried := true, slip := slipUp y.slip, freeze := some f }

/-- A cluster whose tick has taken place: the clock advances, and a freeze ends (R41). -/
def endTick (y : Cluster) : Cluster :=
  let info := match y.freeze with
    | some f => BitVec.ofNat 64 (min f.cyc (2 ^ 32 - 1) * 2 ^ 32 + f.kind * 2 ^ 21 + f.eng.code * 2 ^ 18 + f.core * 2 ^ 16)
    | none => y.frzinfo
  { y with clk := y.clk + 1, tried := false, frzinfo := info, freeze := none }

/-! ### The tick -/

/-- What a tick comes to before it is decided: its turns and plans, the state after the turns, and the outcomes of every
core's operations. -/
structure Draft where
  now : Nat
  turns : List (Turn × Plan)
  seen : State
  after : State
  outs : List (CoreId × List (Op × OpOut))

/-- The operations of a core at a tick. -/
def coreOuts (s : State) (now : Nat) (c : CoreId) : List (Op × OpOut) :=
  (s.core c).ops.map fun o => (o, runOp c (s.core c) now o)

/-- A tick worked out, with nothing decided. -/
def draftTick (k : ClusterId) (turns : List Turn) (s : State) : Draft :=
  let now := (s.cluster k).clk
  let seen := landAll k now s
  let plans := turns.map fun t => (t, turnPlan seen now (rdvMismatch s k turns t) t)
  let after := plans.foldl (takeTurn now) seen
  { now, turns := plans, seen, after, outs := k.cores.map fun c => (c, coreOuts after now c) }

/-- The outcomes of one core, joined. -/
def Draft.out (d : Draft) (c : CoreId) : OpOut :=
  ((d.outs.filter fun x => decide (x.1 = c)).flatMap fun x => x.2.map Prod.snd).foldl OpOut.join {}

/-- What the words, landings and operations of a core touch. -/
def Draft.touches (d : Draft) (s : State) (c : CoreId) : List (Req × Touch) :=
  ((d.turns.filter fun x => decide (x.1.c = c)).flatMap fun x => x.2.touches.map fun t => (x.1.req, t))
    ++ ((dueLatches d.now (s.core c)).map fun l => ({ eng := l.eng, pitch := l.pitch, word := l.word }, touchLatch l))
    ++ ((d.outs.filter fun x => decide (x.1 = c)).flatMap fun x => x.2.flatMap fun y => y.2.touches.map fun t => (reqOfOp y.1, t))

/-- The late operands of a tick. -/
def Draft.lates (d : Draft) : List Late := latesOf d.turns

/-- Is the core in strict mode (R38)? -/
def strictCore (s : State) (c : CoreId) : Bool := (s.core c).csr.strict

/-- The cause of a context area that the resume found wrong, at the core's first tick (R128): the manual gives no DETAIL
(log 24). -/
def ctxCauses (x : Core) : List TrapCause := if x.badCtx then [{ code := 11, detail := 0, r1 := none, r2 := none, obj := 0 }] else []

/-- The causes that a core raises at a tick. Discarded AP slot writes and missed taps are for a tick that no late operand
holds. -/
def Draft.causes (d : Draft) (s : State) (k : ClusterId) (c : CoreId) : List TrapCause :=
  let out := d.out c
  let words := (d.turns.filter fun x => decide (x.1.c = c)).flatMap fun x => x.2.causes
  let strict := (d.lates.filter fun l => decide (l.t.c = c) && strictCore s c).map fun l => causeBy l.t.req 3 l.kind l.obj
  let all := k.cores.flatMap fun b => (d.touches s b).map fun x => (b, x.1, x.2)
  let bus := ((busCauses d.seen k all).filter fun x => decide (x.1 = c)).map Prod.snd
  let apart := if d.lates.isEmpty then
      ((s.core c).ap.apWrites.map fun w => causeBy { eng := .ap, pitch := w.1, word := w.2 } 4 11 0)
        ++ tapCauses d.now out.taken (d.after.core c)
    else []
  ctxCauses (s.core c) ++ words ++ landCauses c d.now (s.core c) ++ pendingCauses d.now (s.core c) (d.after.core c) ++ out.causes ++ touchCauses (d.touches s c) ++ bus ++ laneCauses d.now (d.after.core c)
    ++ strict ++ apart

/-- A core's trap at a tick, with the errors that its reads detected. -/
def trapCore (d : Draft) (k : ClusterId) (s0 : State) (s : State) (c : CoreId) : State :=
  match d.causes s0 k c with
  | [] => s
  | a :: r =>
    let s := ((d.out c).errs.eraseDups).foldl (fun s e => detectCore e.1 c e.2 s) s
    let s := if (a :: r).any fun y => decide (y.code = 11) && decide (y.detail = 6) then detectCore 5 c 0 s else s
    let s := s.modCore c fun x =>
      let x := { landMissed c d.now x with badCtx := false }
      if d.lates.isEmpty then { x with ap := { x.ap with apWrites := [] } } else x
    takeTrap c false a r s

/-- A core after its tick: operations keep what they have read and end, quarters wait to be written, rows stand on the
lanes, ledge bytes and scalar results are written. -/
def settleCore (d : Draft) (c : CoreId) (x : Core) : Core :=
  let out := d.out c
  let ops := ((d.outs.filter fun y => decide (y.1 = c)).flatMap fun y => y.2.map fun z => capture z.2 z.1).filter fun o =>
    decide (d.now < o.at_ + opLast o)
  let due := (dueLatches d.now x).filter isScalarLatch
  let x := { x with
    ops
    latches := (x.latches.filter fun l => decide (d.now < l.due)) ++ out.latches
    transits := (x.transits ++ out.transits).filter fun t => !(transitEnds d.now t || (match transitStop t d.now with
      | some p => out.taken.contains (t.lane, p)
      | none => false)) }
  let x := out.cells.foldl (fun x w => spadPut x w.1 w.2) x
  due.foldl (fun x l => landLatch l x) x

/-- A tick that takes place. -/
def commitTick (d : Draft) (k : ClusterId) : State :=
  let s := k.cores.foldl (fun s c => s.modCore c (settleCore d c)) d.after
  let s := k.cores.foldl (fun s c => (d.out c).eff s) s
  let s := s.modCluster k endTick
  d.turns.foldl (fun s x => x.2.after s) s

/-- Does some core of the cluster raise a cause at the tick? -/
def Draft.traps (d : Draft) (k : ClusterId) (s : State) : Bool := k.cores.any fun c => !(d.causes s k c).isEmpty

/-- The traps of a tick on the state before it, of which nothing takes place (R36, R119). -/
def trapTick (d : Draft) (k : ClusterId) (s : State) : State := (k.cores.foldl (trapCore d k s) s).modCluster k markTried

/-- The decision on a tick (R36, R38): traps, which leave no arrival behind (R119), or a freeze, or the tick. `s0` is the
state before the tick's arrivals at rendezvous and `s` that after them. -/
def decideTick (d : Draft) (k : ClusterId) (s0 s : State) : State :=
  if d.traps k s then trapTick d k s0
  else
    match d.lates with
    | l :: _ => freezeCycle k l s
    | [] => commitTick d k

/-- Does the clock of a cluster stand because a team suspends at a `rdv.flip` that its streams there have passed (R132)? -/
def clockHeld (s : State) (k : ClusterId) : Bool :=
  k.cores.any fun c => match jobOf s c with
    | some j => decide (j.phase = .suspending) && ((members s j).filter fun m => decide (m.1.cluster = k) && m.2.timed).all fun m =>
        passedAll s j m.1 m.2
    | none => false

/-- The cores whose watchdog compare fires at the first attempt of the present tick (R40). -/
def watchCores (s : State) (k : ClusterId) : List CoreId :=
  k.cores.filter fun c =>
    let x := s.core c
    x.aligned && decide (x.csr.wdcmp ≠ 0) && decide (x.csr.wdcmp.toNat = tickOf s c)
      && !(s.cluster k).tried && decide (x.trap.wdDone ≠ some (s.cluster k).clk)

/-- The cause of a watchdog compare (R126). -/
def watchCause : TrapCause := { code := 12, detail := 1, r1 := none, r2 := none, obj := 0 }

/-- A core whose watchdog compare fires. -/
def fireWatch (k : ClusterId) (s : State) (c : CoreId) : State :=
  let now := (s.cluster k).clk
  takeTrap c false watchCause [] (s.modCore c fun x => { x with trap := { x.trap with wdDone := some now } })

/-- The watchdog compares of a tick's first attempt. -/
def fireWatches (k : ClusterId) (l : List CoreId) (s : State) : State :=
  match l with
  | [] => s
  | c :: r => ((c :: r).foldl (fireWatch k) s).modCluster k markTried

/-- Does the clock of a cluster stand for a trap or a suspension? -/
def clockStands (s : State) (k : ClusterId) : Bool := trapPending s k || clockHeld s k

/-- A tick whose arrivals stop the clock: a rendezvous whose forms differ traps the clusters of its team (R100), unless
the tick itself raises a cause beyond the wait for that rendezvous, and then no member has arrived (R119). -/
def standTick (k : ClusterId) (turns : List Turn) (s0 s : State) : State :=
  let d := draftTick k turns s0
  if k.cores.any fun c => (d.causes s0 k c).any fun a => decide (a.code ≠ 3) then trapTick d k s0 else s

/-- The words of a tick attempted. -/
def attemptTick (k : ClusterId) (turns : List Turn) (s : State) : State :=
  let t := arriveTurns k turns s
  if clockStands t k then standTick k turns s t else decideTick (draftTick k turns t) k s t

/-- The attempt of a tick (R36). `own` is a word that one stream issues whatever its image holds. -/
def tickWith (k : ClusterId) (own : Option (CoreId × Engine × Instr)) (s : State) : State :=
  if clockStands s k then s
  else
    match watchCores s k with
    | c :: r => fireWatches k (c :: r) s
    | [] => attemptTick k (turnsOf s k own) s

/-- TICK_ATTEMPT (R36). -/
def evTickAttempt (k : ClusterId) (s : State) : State := tickWith k none s

/-- FREEZE_LIMIT (R40). -/
def evFreezeLimit (k : ClusterId) (s : State) : State := if clockStands s k then s else (limitTrap k s).getD s

/-- WATCHDOG_COMPARE (R40). -/
def evWatchdogCompare (k : ClusterId) (s : State) : State := if clockStands s k then s else fireWatches k (watchCores s k) s

/-! ### Untimed issue (R14, R118, R122, R123) -/

/-- Has the job of a core not started yet, or does it stand for the trap of its start (R18, R54)? -/
def notStarted (s : State) (c : CoreId) : Bool :=
  match jobOf s c with
  | some j => decide (j.phase = .loaded)
  | none => false

/-- May the engine issue an untimed word now: LEAD in a handler that has not stopped, or an AP that is not halted and has a
word of a job that has started? -/
def untimedReady (s : State) (c : CoreId) (e : Engine) : Bool :=
  let x := s.core c
  if inTrap x e then !x.trap.stopped
  else if e = .ap then
    x.ap.fault.isNone && (x.ap.inUi
      || ((x.stream .ap).present && !(x.stream .ap).ended && !heldAtFlip s c .ap && !notStarted s c))
  else false

/-- A cause raised by an untimed word: an AP fault, or a double trap. -/
def untimedCause (c : CoreId) (e : Engine) (code detail : Nat) (s : State) : State :=
  if e = .ap then apFault c (apFaultOf s c code detail 0 false 0) s else doubleTrap c code s

/-- A fault of a translated access. -/
def untimedFault (c : CoreId) (e : Engine) (f : ApFault) (s : State) : State :=
  if e = .ap then apFault c f s else doubleTrap c f.cause s

/-- A plan carried out untimed: it waits, or fails before it has any effect, or takes place. -/
def carryOut (t : Turn) (p : Plan) (s : State) : State :=
  match p.lates, p.causes, p.fault with
  | _ :: _, _, _ => p.wait s
  | [], a :: _, _ => untimedCause t.c t.e a.code a.detail s
  | [], [], some f => untimedFault t.c t.e f (p.wait s)
  | [], [], none => p.after (p.act (s.modCore t.c (advance t.e t.pos (s.cluster t.c.cluster).clk p.idle p.skip)))

/-- An untimed word issued. -/
def issueUntimed (t : Turn) (s : State) : State :=
  if !t.fetched then s
  else if t.bad then untimedCause t.c t.e 11 7 s
  else if t.detail ≠ 0 then untimedCause t.c t.e 1 t.detail s
  else
    match t.instr with
    | none => s
    | some i =>
      if (waitsLeft s t).isEmpty then
        let k := t.ctx s (s.cluster t.c.cluster).clk
        carryOut t (guarded k i (planOf i k)) s
      else s

/-- Does a stream stand before its opening `rdv.align`, which retires in all streams at once (R26)? -/
def beforeAlign (x : Core) (e : Engine) : Bool := e.timed && !inTrap x e && !x.aligned

/-- Is the word `rdv.align`? -/
def isRdvAlign (i : Instr) : Bool :=
  match i with
  | .rdvAlign _ => true
  | _ => false

/-- An engine's word issued, whatever its image holds: within the tick of its cluster, or untimed. -/
def issueWord (i : Instr) (s : State) : State :=
  match s.issuer with
  | .eng c e =>
    let x := s.core c
    if beforeAlign x e then (if (x.stream e).first && isRdvAlign i && !notStarted s c then issueUntimed (turnFor s c e i) s else s)
    else if e.timed && !inTrap x e then tickWith c.cluster (some (c, e, i)) s
    else if untimedReady s c e then issueUntimed (turnFor s c e i) s
    else s
  | _ => s

/-- The next word of an engine, as its image holds it, where it does not decode to an instruction or has not been
fetched. -/
def issueFailed (c : CoreId) (e : Engine) (s : State) : State :=
  if e.timed && !inTrap (s.core c) e then tickWith c.cluster none s
  else if untimedReady s c e then issueUntimed (turnOf s c e) s
  else s

/-! ### Walks (R186, R189) -/

/-- A range that a word of the AP accesses, and how. -/
abbrev Reach := Nat × Nat × Access

/-- The width of an atomic. -/
def amoWidth (w : Bool) : Nat := if w then 8 else 4

/-- The ranges of a command, with its header or descriptor, as far as they are known before its issue (R190). -/
def copReach (k : Ctx) (fn : BitVec 7) (f : Fld) : List Reach :=
  let q := askOf k fn f
  let got (l : List Byte) : List Reach :=
    (orderedParts (spansOf k.s k.c { q with head := l })).map fun p => (p.va, p.len, spanAccess p)
  if headLen q.fn = 0 then got []
  else
    (q.a.toNat, headLen q.fn, .read) :: match headGot k.c q k.s with
      | .bytes l _ => got l
      | _ => []

/-- The ranges that a word of the AP accesses. -/
def reachOf (k : Ctx) (i : Instr) : List Reach :=
  match i with
  | .ldB f | .ldBs f => [(eaOf k f, 1, .read)]
  | .ldH f | .ldHs f => [(eaOf k f, 2, .read)]
  | .ldW f | .ldWs f => [(eaOf k f, 4, .read)]
  | .ldD f => [(eaOf k f, 8, .read)]
  | .stB f => [(eaOf k f, 1, .write)]
  | .stH f => [(eaOf k f, 2, .write)]
  | .stW f => [(eaOf k f, 4, .write)]
  | .stD f => [(eaOf k f, 8, .write)]
  | .qld f => [(eaQueue k f, 4096, .read)]
  | .qst f => [(eaQueue k f, 4096, .write)]
  | .pref f => [(eaOf k f, 1, .read)]
  | .amoAdd w _ f | .amoMin w _ f | .amoMax w _ f | .amoMinu w _ f | .amoMaxu w _ f | .amoAnd w _ f | .amoOr w _ f
  | .amoXor w _ f | .amoSwap w _ f | .amoCas w _ f => [(eaAmo k (amoWidth w) f, amoWidth w, .rmw)]
  | .cop fn f => copReach k fn f
  | _ => []

/-- Does the guard of a word let it act at its issue? One that resolves its own guard later does. -/
def guardPasses (k : Ctx) (i : Instr) : Bool :=
  match toFields i with
  | some x => selfGuarded i || (!guardLate k.core k.e x.f.h && guardTrue k.core k.e x.f.h)
  | none => true

/-- The plan of the AP's next word, where it is to issue and accesses an address in a given way. -/
def walkPlan (s : State) (c : CoreId) (va : Nat) (acc : Access) : Option Plan :=
  let t := turnOf s c .ap
  if untimedReady s c .ap && t.fetched && !t.bad && decide (t.detail = 0) && (waitsLeft s t).isEmpty then
    t.instr.bind fun i =>
      let k := t.ctx s (s.cluster c.cluster).clk
      if guardPasses k i && (reachOf k i).any fun r => decide (r.2.2 = acc) && decide ((va + 2 ^ 64 - r.1) % 2 ^ 64 < r.2.1) then
        some (guarded k i (planOf i k))
      else none
  else none

/-- PAGE_WALK (R186, R189): the walk that a miss of the AP's next word starts, and the check of its leaf. A leaf fills the TLB; where
the word fails on it, the AP halts with the word's fault. -/
def walkEvent (c : CoreId) (va : Nat) (acc : Access) (s : State) : State :=
  match walkPlan s c va acc with
  | none => s
  | some p =>
    if (tlbFind (s.core c) va).isSome then s
    else
      match translate s c va 1 acc with
      | .ok (_, s) => s
      | .error f =>
        match p.fault with
        | some x => apFault c x (noteWalk f s)
        | none => s

end Sys2Proof.Machine
end

