-- ==== Sys2Proof/Machine/Events.lean ====
section
/-! DEFINITION. The events of the opcode table. -/

namespace Sys2Proof.Machine

/-- TICK_ATTEMPT (R36). -/
def execTickAttempt (k : ClusterId) (s : State) : Result := done (evTickAttempt k s)
/-- FREEZE_LIMIT (R40). -/
def execFreezeLimit (k : ClusterId) (s : State) : Result := done (evFreezeLimit k s)
/-- WATCHDOG_COMPARE (R40). -/
def execWatchdogCompare (k : ClusterId) (s : State) : Result := done (evWatchdogCompare k s)
/-- STREAM_FETCH (R55). -/
def execStreamFetch (c : CoreId) (e : Engine) (a : BitVec 52) (n : BitVec 8) (s : State) : Result := done (fetchEvent c e a n s)
/-- JOB_START (R18). -/
def execJobStart (job : Nat) (s : State) : Result := done (startChecks job s)
/-- RDV_ALIGN_RETIRE (R26). -/
def execRdvAlignRetire (job : Nat) (s : State) : Result := done (retireAlign job s)
/-- RENDEZVOUS_RETIRE (R100). -/
def execRendezvousRetire (job : Nat) (s : State) : Result := done (retireRdv job s)
/-- PAGE_WALK (R186). -/
def execPageWalk (c : CoreId) (va : W64) (acc : Access) (s : State) : Result := done (walkEvent c va.toNat acc s)
/-- FAULT_RECORD_POST (R193). -/
def execFaultRecordPost (c : CoreId) (s : State) : Result := done (postFault c s)
/-- APRES (R194). -/
def execApres (v : W64) (s : State) : Result := done (regWrite .apres v s)
/-- QLD_DATA_ARRIVE (R147). -/
def execQldDataArrive (c : CoreId) (q : Fin 8) (s : State) : Result := done (qldArrive c q s)
/-- AP_STORE_DRAIN (R314). -/
def execApStoreDrain (c : CoreId) (s : State) : Result := done (drainEvent c s)
/-- L2_EVICTION (R314). -/
def execL2Eviction (face : Fin 4) (line : BitVec 45) (s : State) : Result := done (evictEvent face line s)
/-- COMMAND_HEAD_RESOLVE (R81). -/
def execCommandHeadResolve (c : CoreId) (src : CmdSource) (t : Target) (s : State) : Result := done (headResolve c src t s)
/-- COMMAND_DISPATCH (R158). -/
def execCommandDispatch (c : CoreId) (src : CmdSource) (t : Target) (s : State) : Result := done (dispatchHead c src t s)
/-- COMPLETION_RECORD_ENQUEUE (R129). -/
def execCompletionRecordEnqueue (c : CoreId) (s : State) : Result := done (enqueueRecord c s)
/-- UIREC_READ (R130). -/
def execUirecRead (c : CoreId) (d : Fin 32) (s : State) : Result := done (readUirec c d s)
/-- UI_ENTRY (R129). -/
def execUiEntry (c : CoreId) (s : State) : Result := done (uiEnter c s)
/-- COPY_IN (R165). -/
def execCopyIn (c : CoreId) (id : Nat) (s : State) : Result := done (evCopyIn c id s)
/-- COPY_OUT (R165). -/
def execCopyOut (c : CoreId) (id : Nat) (s : State) : Result := done (evCopyOut c id s)
/-- GATHER (R138). -/
def execGather (c : CoreId) (id : Nat) (s : State) : Result := done (evGather c id s)
/-- SCATTER (R169). -/
def execScatter (c : CoreId) (id : Nat) (s : State) : Result := done (evScatter c id s)
/-- COPY_MM (R165). -/
def execCopyMm (c : CoreId) (id : Nat) (s : State) : Result := done (evCopyMm c id s)
/-- FILL (R170). -/
def execFill (c : CoreId) (id : Nat) (s : State) : Result := done (evFill c id s)
/-- DRESS (R139). -/
def execDress (c : CoreId) (id : Nat) (s : State) : Result := done (evDress c id s)
/-- HIST (R304). -/
def execHist (c : CoreId) (id : Nat) (s : State) : Result := done (evHist c id s)
/-- BINSORT (R306). -/
def execBinsort (c : CoreId) (id : Nat) (s : State) : Result := done (evBinsort c id s)
/-- COLL (R355). -/
def execColl (c : CoreId) (id : Nat) (s : State) : Result := done (evColl c id s)
/-- RNG_SEED (R285). -/
def execRngSeed (c : CoreId) (id : Nat) (s : State) : Result := done (evRngSeed c id s)
/-- INVAL (R195). -/
def execInval (c : CoreId) (id : Nat) (s : State) : Result := done (evInval c id s)
/-- KEYSLOT_LOAD (R419). -/
def execKeyslotLoad (c : CoreId) (id : Nat) (s : State) : Result := done (evKeyslotLoad c id s)
/-- KEYSLOT_ZERO (R390). -/
def execKeyslotZero (c : CoreId) (id : Nat) (s : State) : Result := done (evKeyslotZero c id s)
/-- KEYSLOT_WRAP (R419). -/
def execKeyslotWrap (c : CoreId) (id : Nat) (s : State) : Result := done (evKeyslotWrap c id s)
/-- KEYSLOT_UNWRAP (R419). -/
def execKeyslotUnwrap (c : CoreId) (id : Nat) (s : State) : Result := done (evKeyslotUnwrap c id s)
/-- INVCTL_GO (R196). -/
def execInvctlGo (v : W64) (s : State) : Result := done (regWrite .invctl v s)
/-- INVALIDATE_ACK (R197). -/
def execInvalidateAck (s : State) : Result := done (stepInval s)
/-- DRAIN_POINT_SUSPEND (R132). -/
def execDrainPointSuspend (job : Nat) (s : State) : Result := done (suspendJob job s)
/-- FORCED_SAVE (R133). -/
def execForcedSave (job : Nat) (s : State) : Result := done (drainExpired job s)
/-- PRECTL_FORCE (R133). -/
def execPrectlForce (c : CoreId) (s : State) : Result := done (prectlAct forceTeam c 2 s)
/-- PRECTL_KILL (R135). -/
def execPrectlKill (c : CoreId) (s : State) : Result := done (prectlAct forceTeam c 4 s)
/-- TEAM_RESUME (R134). -/
def execTeamResume (job : Nat) (s : State) : Result := done (resumeTeam job s)
/-- NOTIFY (R401). -/
def execNotify (v : Fin 128) (i : Fin 256) (x : W32) (s : State) : Result := done (regWrite (.notify v i) (x.setWidth 64) s)
/-- SLOTCFG_WRITE (R401). -/
def execSlotcfgWrite (i : Fin 256) (x : W64) (s : State) : Result := done (regWrite (.slot i 1) x s)
/-- SLOTCTL_KILL (R400). -/
def execSlotctlKill (i : Fin 256) (s : State) : Result := done (regWrite (.slot i 2) 4 s)
/-- SLOTCTL_RESUME (R400). -/
def execSlotctlResume (i : Fin 256) (s : State) : Result := done (regWrite (.slot i 2) 2 s)
/-- SLOTCTL_PREEMPT (R400). -/
def execSlotctlPreempt (i : Fin 256) (s : State) : Result := done (regWrite (.slot i 2) 1 s)
/-- LOTTERY_DECISION (R402). -/
def execLotteryDecision (s : State) : Result := done (lotteryStep s)
/-- LAUNCH (R407). -/
def execLaunch (i : Fin 256) (s : State) : Result := done (launchSlot i s)
/-- SWAP_ENTRY (R408). -/
def execSwapEntry (i : Fin 256) (s : State) : Result := done (swapSlot i s)
/-- REPLAY (R410). -/
def execReplay (i : Fin 256) (s : State) : Result := done (replaySlot i s)
/-- JOB_COMPLETE (R409). -/
def execJobComplete (job : Nat) (s : State) : Result := done (completeJob job s)
/-- COLL_START (R355). -/
def execCollStart (id : Nat) (s : State) : Result := done (startColl bindColl pumpColl id s)
/-- COLL_DONE_MARK (R356). -/
def execCollDoneMark (id : Nat) (rank : Nat) (s : State) : Result := done (doneMark id rank s)
/-- COLL_ABORT (R357). -/
def execCollAbort (id : Nat) (detail : BitVec 8) (rank : Nat) (s : State) : Result := done (abortColl id detail.toNat rank s)
/-- FLIT_RECEIVE (R346). -/
def execFlitReceive (p : Fin 24) (fl : Flit) (s : State) : Result := done (receiveFlit p fl s)
/-- ROPE_EGRESS_BLOCK (R363). -/
def execRopeEgressBlock (p : Fin 24) (b : BitVec 4096) (s : State) : Result := done (egressBlock p b s)
/-- FLIT_REPLAY_REQUEST (R346). -/
def execFlitReplayRequest (p : Fin 24) (seq : BitVec 24) (s : State) : Result := done (replayRequest p seq s)
/-- PORT_DOWN (R346). -/
def execPortDown (p : Fin 24) (s : State) : Result := done (takePortDown p s)
/-- ROPEERR_READ (R365). -/
def execRopeerrRead (p : Fin 24) (s : State) : Result := done (regReadEffect (.rope p 1) s)
/-- ETH_DATAGRAM_RECEIVE (R366). -/
def execEthDatagramReceive (p : Fin 4) (src : Fin 16) (fl : Flit) (s : State) : Result := done (receiveDatagram p src fl s)
/-- ETH_RETRY_TIMEOUT (R366). -/
def execEthRetryTimeout (j : Fin 16) (s : State) : Result := done (retryPeer j s)
/-- PEER_LOSS_TIMEOUT (R367). -/
def execPeerLossTimeout (j : Fin 16) (s : State) : Result := done (losePeer j s)
/-- PRIORITY_FLOW_CONTROL (R366). -/
def execPriorityFlowControl (p : Fin 4) (prio : Fin 8) (pause : Bool) (s : State) : Result := done (flowControl p prio pause s)
/-- CAIRN_RUN (R376). -/
def execCairnRun (k : Fin 64) (s : State) : Result := done (cairnRunAll k s)
/-- CAIRNPART_WRITE (R373). -/
def execCairnpartWrite (j : Fin 16) (v : W64) (s : State) : Result := done (regWrite (.part j) v s)
/-- CAIRNMASK_WRITE (R373). -/
def execCairnmaskWrite (j : Fin 16) (v : W64) (s : State) : Result := done (regWrite (.mask j) v s)
/-- CAIRN_COUNTER_READ (R375). -/
def execCairnCounterRead (j : Fin 16) (cl : Fin 8) (s : State) : Result := done (regReadEffect (.cls j cl 3) s)
/-- SCRUB_STEP (R392). -/
def execScrubStep (w : World) (s : State) : Result := done (stepScrub w s)
/-- CWREQ (R394). -/
def execCwreq (c : CoreId) (v : W64) (s : State) : Result := done (regWrite (.cwreq c) v s)
/-- CWSTAT_READ (R394). -/
def execCwstatRead (c : CoreId) (s : State) : Result := done (regReadEffect (.cwstat c) s)
/-- UEADDR_READ (R438). -/
def execUeaddrRead (c : CoreId) (s : State) : Result := done (readUeaddr c s)
/-- TETHER_PACKET_RECEIVE (R424). -/
def execTetherPacketReceive (v : Fin 128) (k : Fin 3) (p : Packet) (s : State) : Result := done (receivePacket v.val k p s)
/-- SUBSTREAM_REKEY (R422). -/
def execSubstreamRekey (v : Fin 128) (k : Fin 3) (s : State) : Result := done (rekeyDue v.val k s)
/-- NONPOSTED_TIMEOUT (R198). -/
def execNonpostedTimeout (v : Fin 128) (id : Nat) (s : State) : Result := done (timeoutRequest v.val id s)
/-- TSESS_TERM (R424). -/
def execTsessTerm (v : Fin 128) (s : State) : Result := done (if regAwake s (.tsess v 0) then endSessionOf v.val s else s)
/-- TSESS_READ (R423). -/
def execTsessRead (v : Fin 128) (s : State) : Result := done (regReadEffect (.tsess v 0) s)
/-- GET_VERSION (R427). -/
def execGetVersion (v : Fin 128) (msg : List Byte) (s : State) : Result := done (spdmRequest .getVersion noSession v.val msg s)
/-- GET_CAPABILITIES (R427). -/
def execGetCapabilities (v : Fin 128) (msg : List Byte) (s : State) : Result := done (spdmRequest .getCapabilities noSession v.val msg s)
/-- NEGOTIATE_ALGORITHMS (R427). -/
def execNegotiateAlgorithms (v : Fin 128) (msg : List Byte) (s : State) : Result := done (spdmRequest .negotiateAlgorithms noSession v.val msg s)
/-- GET_DIGESTS (R427). -/
def execGetDigests (v : Fin 128) (msg : List Byte) (s : State) : Result := done (spdmRequest .getDigests noSession v.val msg s)
/-- GET_CERTIFICATE (R427). -/
def execGetCertificate (v : Fin 128) (msg : List Byte) (s : State) : Result := done (spdmRequest .getCertificate noSession v.val msg s)
/-- CHALLENGE (R427). -/
def execChallenge (v : Fin 128) (msg : List Byte) (s : State) : Result := done (spdmRequest .challenge noSession v.val msg s)
/-- GET_MEASUREMENTS (R427). -/
def execGetMeasurements (v : Fin 128) (msg : List Byte) (s : State) : Result := done (spdmRequest .getMeasurements noSession v.val msg s)
/-- KEY_EXCHANGE (R427). -/
def execKeyExchange (v : Fin 128) (msg : List Byte) (s : State) : Result := done (spdmRequest .keyExchange openSession v.val msg s)
/-- FINISH (R421). -/
def execFinish (v : Fin 128) (msg : List Byte) (s : State) : Result := done (spdmRequest .finish activateSession v.val msg s)
/-- KEY_UPDATE (R427). -/
def execKeyUpdate (v : Fin 128) (msg : List Byte) (s : State) : Result := done (spdmRequest .keyUpdate updateKeys v.val msg s)
/-- HEARTBEAT (R427). -/
def execHeartbeat (v : Fin 128) (msg : List Byte) (s : State) : Result := done (spdmRequest .heartbeat noSession v.val msg s)
/-- END_SESSION (R427). -/
def execEndSession (v : Fin 128) (msg : List Byte) (s : State) : Result := done (spdmRequest .endSession endSessionOf v.val msg s)
/-- SLPCTL_REQ (R429). -/
def execSlpctlReq (s : State) : Result := done (if regAwake s .slpctl then enterSleep s else s)
/-- SLPCTL_WAKE (R431). -/
def execSlpctlWake (s : State) : Result := done (if regAwake s .slpctl then wakeUp s else s)
/-- WAKE_INPUT (R431). -/
def execWakeInput (s : State) : Result := done (if recovery s then s else wakeUp s)
/-- SLPCTL_READ (R428). -/
def execSlpctlRead (s : State) : Result := done (regReadEffect .slpctl s)
/-- COLD_RESET (R449). -/
def execColdReset (s : State) : Result := done (coldReset s)
/-- RSTCTL_WARM (R447). -/
def execRstctlWarm (s : State) : Result := done (if regAwake s .rstctl then warmReset s else s)
/-- RSTCTL_CGO (R447). -/
def execRstctlCgo (c : CoreId) (s : State) : Result := done (if regAwake s .rstctl then coreReset c s else s)
/-- THROTTLE_ADJUST (R444). -/
def execThrottleAdjust (s : State) : Result := done (throttle s)
/-- SELF_TEST (R439). -/
def execSelfTest (s : State) : Result := done (settlePorts s (selfTestUnit s))
/-- ERROR_RECORD_POST (R437). -/
def execErrorRecordPost (s : State) : Result := done (postError s)
/-- REGISTER_WRITE (R8). -/
def execRegisterWrite (a : BitVec 52) (v : W64) (s : State) : Result := done (registerWriteAt a.toNat v s)

end Sys2Proof.Machine
end

