-- ==== Sys2Proof/Machine/Small.lean ====
section
/-! DEFINITION. The words of cairn kernels, on the run of the issuing cairn core, and of dressing programs, on the loader of the
issuing cluster's dresser. -/

namespace Sys2Proof.Machine

/-- A dresser word on the issuing dresser's loader (R171). -/
def onDress (f : DressWork → DressWork) (s : State) : State :=
  match s.issuer with
  | .dress k => s.modCluster k fun x => { x with work := f x.work }
  | _ => s

/-- AXIS (R173). -/
def execAxis (d : BitVec 4) (n : BitVec 16) (s : State) : Result := done (onDress (dressAxis d n) s)
/-- SPLIT (R173). -/
def execSplit (c : BitVec 4) (n : BitVec 16) (s : State) : Result := done (onDress (dressSplit c n) s)
/-- JOIN (R173). -/
def execJoin (c : BitVec 4) (s : State) : Result := done (onDress (dressJoin c) s)
/-- SWAP (R173). -/
def execSwap (c j : BitVec 4) (s : State) : Result := done (onDress (dressSwap c j) s)
/-- REV (R173). -/
def execRev (c : BitVec 4) (s : State) : Result := done (onDress (dressRev c) s)
/-- PAD (R173). -/
def execPad (c : BitVec 4) (lo hi : BitVec 16) (v : BitVec 8) (s : State) : Result := done (onDress (dressPad c lo hi v) s)
/-- TILE (R173). -/
def execTile (c j : BitVec 4) (m : BitVec 4) (s : State) : Result := done (onDress (dressTile c j m) s)
/-- EMIT (R173). -/
def execEmit (c : BitVec 4) (x : BitVec 32) (s : State) : Result := done (onDress (dressEmit c x) s)
/-- C_ADD (R379). -/
def execCAdd (d a b : BitVec 4) (m : BitVec 2) (s : State) : Result := done (onCairn (actCAdd d a b m) s)
/-- C_ADD_I (R379). -/
def execCAddI (d a : BitVec 4) (m : BitVec 2) (imm : BitVec 11) (s : State) : Result := done (onCairn (actCAddI d a m imm) s)
/-- C_SUB (R379). -/
def execCSub (d a b : BitVec 4) (m : BitVec 2) (s : State) : Result := done (onCairn (actCSub d a b m) s)
/-- C_SUB_I (R379). -/
def execCSubI (d a : BitVec 4) (m : BitVec 2) (imm : BitVec 11) (s : State) : Result := done (onCairn (actCSubI d a m imm) s)
/-- C_MUL (R379). -/
def execCMul (d a b : BitVec 4) (m : BitVec 2) (s : State) : Result := done (onCairn (actCMul d a b m) s)
/-- C_MUL_I (R379). -/
def execCMulI (d a : BitVec 4) (m : BitVec 2) (imm : BitVec 11) (s : State) : Result := done (onCairn (actCMulI d a m imm) s)
/-- C_AND (R379). -/
def execCAnd (d a b : BitVec 4) (m : BitVec 2) (s : State) : Result := done (onCairn (actCAnd d a b m) s)
/-- C_AND_I (R379). -/
def execCAndI (d a : BitVec 4) (m : BitVec 2) (imm : BitVec 11) (s : State) : Result := done (onCairn (actCAndI d a m imm) s)
/-- C_OR (R379). -/
def execCOr (d a b : BitVec 4) (m : BitVec 2) (s : State) : Result := done (onCairn (actCOr d a b m) s)
/-- C_OR_I (R379). -/
def execCOrI (d a : BitVec 4) (m : BitVec 2) (imm : BitVec 11) (s : State) : Result := done (onCairn (actCOrI d a m imm) s)
/-- C_XOR (R379). -/
def execCXor (d a b : BitVec 4) (m : BitVec 2) (s : State) : Result := done (onCairn (actCXor d a b m) s)
/-- C_XOR_I (R379). -/
def execCXorI (d a : BitVec 4) (m : BitVec 2) (imm : BitVec 11) (s : State) : Result := done (onCairn (actCXorI d a m imm) s)
/-- C_SHL (R379). -/
def execCShl (d a b : BitVec 4) (m : BitVec 2) (s : State) : Result := done (onCairn (actCShl d a b m) s)
/-- C_SHL_I (R379). -/
def execCShlI (d a : BitVec 4) (m : BitVec 2) (imm : BitVec 11) (s : State) : Result := done (onCairn (actCShlI d a m imm) s)
/-- C_SHR (R379). -/
def execCShr (d a b : BitVec 4) (m : BitVec 2) (s : State) : Result := done (onCairn (actCShr d a b m) s)
/-- C_SHR_I (R379). -/
def execCShrI (d a : BitVec 4) (m : BitVec 2) (imm : BitVec 11) (s : State) : Result := done (onCairn (actCShrI d a m imm) s)
/-- C_SRA (R379). -/
def execCSra (d a b : BitVec 4) (m : BitVec 2) (s : State) : Result := done (onCairn (actCSra d a b m) s)
/-- C_SRA_I (R379). -/
def execCSraI (d a : BitVec 4) (m : BitVec 2) (imm : BitVec 11) (s : State) : Result := done (onCairn (actCSraI d a m imm) s)
/-- C_MIN (R379). -/
def execCMin (d a b : BitVec 4) (m : BitVec 2) (s : State) : Result := done (onCairn (actCMin d a b m) s)
/-- C_MIN_I (R379). -/
def execCMinI (d a : BitVec 4) (m : BitVec 2) (imm : BitVec 11) (s : State) : Result := done (onCairn (actCMinI d a m imm) s)
/-- C_MAX (R379). -/
def execCMax (d a b : BitVec 4) (m : BitVec 2) (s : State) : Result := done (onCairn (actCMax d a b m) s)
/-- C_MAX_I (R379). -/
def execCMaxI (d a : BitVec 4) (m : BitVec 2) (imm : BitVec 11) (s : State) : Result := done (onCairn (actCMaxI d a m imm) s)
/-- C_MINU (R379). -/
def execCMinu (d a b : BitVec 4) (m : BitVec 2) (s : State) : Result := done (onCairn (actCMinu d a b m) s)
/-- C_MINU_I (R379). -/
def execCMinuI (d a : BitVec 4) (m : BitVec 2) (imm : BitVec 11) (s : State) : Result := done (onCairn (actCMinuI d a m imm) s)
/-- C_MAXU (R379). -/
def execCMaxu (d a b : BitVec 4) (m : BitVec 2) (s : State) : Result := done (onCairn (actCMaxu d a b m) s)
/-- C_MAXU_I (R379). -/
def execCMaxuI (d a : BitVec 4) (m : BitVec 2) (imm : BitVec 11) (s : State) : Result := done (onCairn (actCMaxuI d a m imm) s)
/-- C_FADD (R379). -/
def execCFadd (d a b : BitVec 4) (m : BitVec 2) (s : State) : Result := done (onCairn (actCFadd d a b m) s)
/-- C_FSUB (R379). -/
def execCFsub (d a b : BitVec 4) (m : BitVec 2) (s : State) : Result := done (onCairn (actCFsub d a b m) s)
/-- C_FMUL (R379). -/
def execCFmul (d a b : BitVec 4) (m : BitVec 2) (s : State) : Result := done (onCairn (actCFmul d a b m) s)
/-- C_FMIN (R379). -/
def execCFmin (d a b : BitVec 4) (m : BitVec 2) (s : State) : Result := done (onCairn (actCFmin d a b m) s)
/-- C_FMAX (R379). -/
def execCFmax (d a b : BitVec 4) (m : BitVec 2) (s : State) : Result := done (onCairn (actCFmax d a b m) s)
/-- C_CMP_EQ (R379). -/
def execCCmpEq (d : BitVec 2) (a b : BitVec 4) (m : BitVec 2) (s : State) : Result := done (onCairn (actCCmpEq d a b m) s)
/-- C_CMP_EQ_I (R379). -/
def execCCmpEqI (d : BitVec 2) (a : BitVec 4) (m : BitVec 2) (imm : BitVec 11) (s : State) : Result := done (onCairn (actCCmpEqI d a m imm) s)
/-- C_CMP_NE (R379). -/
def execCCmpNe (d : BitVec 2) (a b : BitVec 4) (m : BitVec 2) (s : State) : Result := done (onCairn (actCCmpNe d a b m) s)
/-- C_CMP_NE_I (R379). -/
def execCCmpNeI (d : BitVec 2) (a : BitVec 4) (m : BitVec 2) (imm : BitVec 11) (s : State) : Result := done (onCairn (actCCmpNeI d a m imm) s)
/-- C_CMP_LT (R379). -/
def execCCmpLt (d : BitVec 2) (a b : BitVec 4) (m : BitVec 2) (s : State) : Result := done (onCairn (actCCmpLt d a b m) s)
/-- C_CMP_LT_I (R379). -/
def execCCmpLtI (d : BitVec 2) (a : BitVec 4) (m : BitVec 2) (imm : BitVec 11) (s : State) : Result := done (onCairn (actCCmpLtI d a m imm) s)
/-- C_CMP_LE (R379). -/
def execCCmpLe (d : BitVec 2) (a b : BitVec 4) (m : BitVec 2) (s : State) : Result := done (onCairn (actCCmpLe d a b m) s)
/-- C_CMP_LE_I (R379). -/
def execCCmpLeI (d : BitVec 2) (a : BitVec 4) (m : BitVec 2) (imm : BitVec 11) (s : State) : Result := done (onCairn (actCCmpLeI d a m imm) s)
/-- C_CMP_LTU (R379). -/
def execCCmpLtu (d : BitVec 2) (a b : BitVec 4) (m : BitVec 2) (s : State) : Result := done (onCairn (actCCmpLtu d a b m) s)
/-- C_CMP_LTU_I (R379). -/
def execCCmpLtuI (d : BitVec 2) (a : BitVec 4) (m : BitVec 2) (imm : BitVec 11) (s : State) : Result := done (onCairn (actCCmpLtuI d a m imm) s)
/-- C_CMP_LEU (R379). -/
def execCCmpLeu (d : BitVec 2) (a b : BitVec 4) (m : BitVec 2) (s : State) : Result := done (onCairn (actCCmpLeu d a b m) s)
/-- C_CMP_LEU_I (R379). -/
def execCCmpLeuI (d : BitVec 2) (a : BitVec 4) (m : BitVec 2) (imm : BitVec 11) (s : State) : Result := done (onCairn (actCCmpLeuI d a m imm) s)
/-- C_CMP_FLT (R379). -/
def execCCmpFlt (d : BitVec 2) (a b : BitVec 4) (m : BitVec 2) (s : State) : Result := done (onCairn (actCCmpFlt d a b m) s)
/-- C_CMP_FLE (R379). -/
def execCCmpFle (d : BitVec 2) (a b : BitVec 4) (m : BitVec 2) (s : State) : Result := done (onCairn (actCCmpFle d a b m) s)
/-- C_SEL (R379). -/
def execCSel (d a b : BitVec 4) (m : BitVec 2) (s : State) : Result := done (onCairn (actCSel d a b m) s)
/-- C_MAND (R379). -/
def execCMand (d a b : BitVec 2) (s : State) : Result := done (onCairn (actCMand d a b) s)
/-- C_MOR (R379). -/
def execCMor (d a b : BitVec 2) (s : State) : Result := done (onCairn (actCMor d a b) s)
/-- C_MXOR (R379). -/
def execCMxor (d a b : BitVec 2) (s : State) : Result := done (onCairn (actCMxor d a b) s)
/-- C_MNOT (R379). -/
def execCMnot (d a : BitVec 2) (s : State) : Result := done (onCairn (actCMnot d a) s)
/-- C_LI (R379). -/
def execCLi (d : BitVec 4) (v : BitVec 17) (s : State) : Result := done (onCairn (actCLi d v) s)
/-- C_LHI (R379). -/
def execCLhi (d : BitVec 4) (v : BitVec 15) (s : State) : Result := done (onCairn (actCLhi d v) s)
/-- C_LIDX (R379). -/
def execCLidx (d : BitVec 4) (s : State) : Result := done (onCairn (actCLidx d) s)
/-- C_BCAST (R379). -/
def execCBcast (d a : BitVec 4) (n : BitVec 4) (s : State) : Result := done (onCairn (actCBcast d a n) s)
/-- C_ROT (R379). -/
def execCRot (d a : BitVec 4) (n : BitVec 4) (s : State) : Result := done (onCairn (actCRot d a n) s)
/-- C_RADD (R379). -/
def execCRadd (d a : BitVec 4) (m : BitVec 2) (s : State) : Result := done (onCairn (actCRadd d a m) s)
/-- C_RMAX (R379). -/
def execCRmax (d a : BitVec 4) (m : BitVec 2) (s : State) : Result := done (onCairn (actCRmax d a m) s)
/-- C_FLD (R379). -/
def execCFld (d : BitVec 4) (m : BitVec 2) (off : BitVec 6) (s : State) : Result := done (onCairn (actCFld d m off) s)
/-- C_FST (R379). -/
def execCFst (a : BitVec 4) (m : BitVec 2) (off : BitVec 6) (s : State) : Result := done (onCairn (actCFst a m off) s)
/-- C_SLD (R380). -/
def execCSld (d : BitVec 4) (m : BitVec 2) (r : BitVec 6) (x : BitVec 5) (s : State) : Result := done (onCairn (actCSld d m r x) s)
/-- C_SST (R380). -/
def execCSst (a : BitVec 4) (m : BitVec 2) (r : BitVec 6) (x : BitVec 5) (s : State) : Result := done (onCairn (actCSst a m r x) s)
/-- C_TMRED (R384). -/
def execCTmred (d a : BitVec 4) (m : BitVec 2) (s : State) : Result := done (onCairn (actCTmred d a m) s)
/-- C_TMMRG (R384). -/
def execCTmmrg (d a b : BitVec 4) (s : State) : Result := done (onCairn (actCTmmrg d a b) s)
/-- C_TMEXT (R384). -/
def execCTmext (d a : BitVec 4) (s : State) : Result := done (onCairn (actCTmext d a) s)
/-- C_REP (R381). -/
def execCRep (n : BitVec 8) (len : BitVec 11) (s : State) : Result := done (onCairn (actCRep n len) s)
/-- C_SKIP (R382). -/
def execCSkip (m : BitVec 2) (k : BitVec 11) (s : State) : Result := done (onCairn (actCSkip m k) s)
/-- C_SKIP_NONE (R382). -/
def execCSkipNone (m : BitVec 2) (k : BitVec 11) (s : State) : Result := done (onCairn (actCSkipNone m k) s)
/-- C_RIDX (R381). -/
def execCRidx (d : BitVec 4) (lv : BitVec 1) (s : State) : Result := done (onCairn (actCRidx d lv) s)
/-- C_DROP (R379). -/
def execCDrop (s : State) : Result := done (onCairn actCDrop s)
/-- C_EV (R386). -/
def execCEv (a : BitVec 4) (s : State) : Result := done (onCairn (actCEv a) s)

end Sys2Proof.Machine
end

