-- ==== Sys2Proof/Machine/Words.lean ====
section
/-! DEFINITION. The engine words: each issues within the tick of its cluster, or untimed, under its own plan (`planOf`). -/

namespace Sys2Proof.Machine

/-- GATE (R97). -/
def execGate (f : Fld) (s : State) : Result := done (issueWord (.gate f) s)
/-- ADD (R91). -/
def execAdd (f : Fld) (s : State) : Result := done (issueWord (.add f) s)
/-- SUB (R91). -/
def execSub (f : Fld) (s : State) : Result := done (issueWord (.sub f) s)
/-- MUL (R91). -/
def execMul (f : Fld) (s : State) : Result := done (issueWord (.mul f) s)
/-- MULH (R91). -/
def execMulh (f : Fld) (s : State) : Result := done (issueWord (.mulh f) s)
/-- MULHU (R91). -/
def execMulhu (f : Fld) (s : State) : Result := done (issueWord (.mulhu f) s)
/-- AND (R91). -/
def execAnd (f : Fld) (s : State) : Result := done (issueWord (.and f) s)
/-- OR (R91). -/
def execOr (f : Fld) (s : State) : Result := done (issueWord (.or f) s)
/-- XOR (R91). -/
def execXor (f : Fld) (s : State) : Result := done (issueWord (.xor f) s)
/-- ANDN (R91). -/
def execAndn (f : Fld) (s : State) : Result := done (issueWord (.andn f) s)
/-- SHL (R91). -/
def execShl (f : Fld) (s : State) : Result := done (issueWord (.shl f) s)
/-- SHR (R91). -/
def execShr (f : Fld) (s : State) : Result := done (issueWord (.shr f) s)
/-- SRA (R91). -/
def execSra (f : Fld) (s : State) : Result := done (issueWord (.sra f) s)
/-- MIN (R91). -/
def execMin (f : Fld) (s : State) : Result := done (issueWord (.min f) s)
/-- MAX (R91). -/
def execMax (f : Fld) (s : State) : Result := done (issueWord (.max f) s)
/-- MINU (R91). -/
def execMinu (f : Fld) (s : State) : Result := done (issueWord (.minu f) s)
/-- MAXU (R91). -/
def execMaxu (f : Fld) (s : State) : Result := done (issueWord (.maxu f) s)
/-- CLZ (R91). -/
def execClz (f : Fld) (s : State) : Result := done (issueWord (.clz f) s)
/-- CTZ (R91). -/
def execCtz (f : Fld) (s : State) : Result := done (issueWord (.ctz f) s)
/-- POPC (R91). -/
def execPopc (f : Fld) (s : State) : Result := done (issueWord (.popc f) s)
/-- ADD_I (R91). -/
def execAddI (f : Fld) (s : State) : Result := done (issueWord (.addI f) s)
/-- SUB_I (R91). -/
def execSubI (f : Fld) (s : State) : Result := done (issueWord (.subI f) s)
/-- MUL_I (R91). -/
def execMulI (f : Fld) (s : State) : Result := done (issueWord (.mulI f) s)
/-- MULH_I (R91). -/
def execMulhI (f : Fld) (s : State) : Result := done (issueWord (.mulhI f) s)
/-- MULHU_I (R91). -/
def execMulhuI (f : Fld) (s : State) : Result := done (issueWord (.mulhuI f) s)
/-- AND_I (R91). -/
def execAndI (f : Fld) (s : State) : Result := done (issueWord (.andI f) s)
/-- OR_I (R91). -/
def execOrI (f : Fld) (s : State) : Result := done (issueWord (.orI f) s)
/-- XOR_I (R91). -/
def execXorI (f : Fld) (s : State) : Result := done (issueWord (.xorI f) s)
/-- ANDN_I (R91). -/
def execAndnI (f : Fld) (s : State) : Result := done (issueWord (.andnI f) s)
/-- SHL_I (R91). -/
def execShlI (f : Fld) (s : State) : Result := done (issueWord (.shlI f) s)
/-- SHR_I (R91). -/
def execShrI (f : Fld) (s : State) : Result := done (issueWord (.shrI f) s)
/-- SRA_I (R91). -/
def execSraI (f : Fld) (s : State) : Result := done (issueWord (.sraI f) s)
/-- MIN_I (R91). -/
def execMinI (f : Fld) (s : State) : Result := done (issueWord (.minI f) s)
/-- MAX_I (R91). -/
def execMaxI (f : Fld) (s : State) : Result := done (issueWord (.maxI f) s)
/-- MINU_I (R91). -/
def execMinuI (f : Fld) (s : State) : Result := done (issueWord (.minuI f) s)
/-- MAXU_I (R91). -/
def execMaxuI (f : Fld) (s : State) : Result := done (issueWord (.maxuI f) s)
/-- MOVI (R92). -/
def execMovi (f : Fld) (s : State) : Result := done (issueWord (.movi f) s)
/-- MOVHI (R92). -/
def execMovhi (f : Fld) (s : State) : Result := done (issueWord (.movhi f) s)
/-- CEQ (R93). -/
def execCeq (f : Fld) (s : State) : Result := done (issueWord (.ceq f) s)
/-- CNE (R93). -/
def execCne (f : Fld) (s : State) : Result := done (issueWord (.cne f) s)
/-- CLT (R93). -/
def execClt (f : Fld) (s : State) : Result := done (issueWord (.clt f) s)
/-- CLTU (R93). -/
def execCltu (f : Fld) (s : State) : Result := done (issueWord (.cltu f) s)
/-- CLE (R93). -/
def execCle (f : Fld) (s : State) : Result := done (issueWord (.cle f) s)
/-- CLEU (R93). -/
def execCleu (f : Fld) (s : State) : Result := done (issueWord (.cleu f) s)
/-- CEQ_I (R93). -/
def execCeqI (f : Fld) (s : State) : Result := done (issueWord (.ceqI f) s)
/-- CNE_I (R93). -/
def execCneI (f : Fld) (s : State) : Result := done (issueWord (.cneI f) s)
/-- CLT_I (R93). -/
def execCltI (f : Fld) (s : State) : Result := done (issueWord (.cltI f) s)
/-- CLTU_I (R93). -/
def execCltuI (f : Fld) (s : State) : Result := done (issueWord (.cltuI f) s)
/-- CLE_I (R93). -/
def execCleI (f : Fld) (s : State) : Result := done (issueWord (.cleI f) s)
/-- CLEU_I (R93). -/
def execCleuI (f : Fld) (s : State) : Result := done (issueWord (.cleuI f) s)
/-- PAND (R94). -/
def execPand (f : Fld) (s : State) : Result := done (issueWord (.pand f) s)
/-- POR (R94). -/
def execPor (f : Fld) (s : State) : Result := done (issueWord (.por f) s)
/-- PXOR (R94). -/
def execPxor (f : Fld) (s : State) : Result := done (issueWord (.pxor f) s)
/-- PANDN (R94). -/
def execPandn (f : Fld) (s : State) : Result := done (issueWord (.pandn f) s)
/-- PNOT (R94). -/
def execPnot (f : Fld) (s : State) : Result := done (issueWord (.pnot f) s)
/-- PMOV (R94). -/
def execPmov (f : Fld) (s : State) : Result := done (issueWord (.pmov f) s)
/-- PSET (R94). -/
def execPset (f : Fld) (s : State) : Result := done (issueWord (.pset f) s)
/-- PCLR (R94). -/
def execPclr (f : Fld) (s : State) : Result := done (issueWord (.pclr f) s)
/-- PVOID (R94). -/
def execPvoid (f : Fld) (s : State) : Result := done (issueWord (.pvoid f) s)
/-- SEL (R96). -/
def execSel (f : Fld) (s : State) : Result := done (issueWord (.sel f) s)
/-- CSRR (R98). -/
def execCsrr (f : Fld) (s : State) : Result := done (issueWord (.csrr f) s)
/-- CSRW (R98). -/
def execCsrw (f : Fld) (s : State) : Result := done (issueWord (.csrw f) s)
/-- CSRS (R98). -/
def execCsrs (f : Fld) (s : State) : Result := done (issueWord (.csrs f) s)
/-- CSRC (R98). -/
def execCsrc (f : Fld) (s : State) : Result := done (issueWord (.csrc f) s)
/-- RDV_ALIGN (R26). -/
def execRdvAlign (f : Fld) (s : State) : Result := done (issueWord (.rdvAlign f) s)
/-- RDV (R99). -/
def execRdv (f : Fld) (s : State) : Result := done (issueWord (.rdv f) s)
/-- RDV_FLIP (R99). -/
def execRdvFlip (f : Fld) (s : State) : Result := done (issueWord (.rdvFlip f) s)
/-- RDV_END (R101). -/
def execRdvEnd (f : Fld) (s : State) : Result := done (issueWord (.rdvEnd f) s)
/-- IDLE (R103). -/
def execIdle (f : Fld) (s : State) : Result := done (issueWord (.idle f) s)
/-- LOOP (R105). -/
def execLoop (f : Fld) (s : State) : Result := done (issueWord (.loop f) s)
/-- LOOP_ST (R105). -/
def execLoopSt (f : Fld) (s : State) : Result := done (issueWord (.loopSt f) s)
/-- LPR (R110). -/
def execLpr (f : Fld) (s : State) : Result := done (issueWord (.lpr f) s)
/-- LPW (R110). -/
def execLpw (f : Fld) (s : State) : Result := done (issueWord (.lpw f) s)
/-- TRET (R124). -/
def execTret (f : Fld) (s : State) : Result := done (issueWord (.tret f) s)
/-- COP (R80). -/
def execCop (fn : BitVec 7) (f : Fld) (s : State) : Result := done (issueWord (.cop fn f) s)
/-- LD_B (R146). -/
def execLdB (f : Fld) (s : State) : Result := done (issueWord (.ldB f) s)
/-- LD_H (R146). -/
def execLdH (f : Fld) (s : State) : Result := done (issueWord (.ldH f) s)
/-- LD_W (R146). -/
def execLdW (f : Fld) (s : State) : Result := done (issueWord (.ldW f) s)
/-- LD_D (R146). -/
def execLdD (f : Fld) (s : State) : Result := done (issueWord (.ldD f) s)
/-- LD_BS (R146). -/
def execLdBs (f : Fld) (s : State) : Result := done (issueWord (.ldBs f) s)
/-- LD_HS (R146). -/
def execLdHs (f : Fld) (s : State) : Result := done (issueWord (.ldHs f) s)
/-- LD_WS (R146). -/
def execLdWs (f : Fld) (s : State) : Result := done (issueWord (.ldWs f) s)
/-- ST_B (R146). -/
def execStB (f : Fld) (s : State) : Result := done (issueWord (.stB f) s)
/-- ST_H (R146). -/
def execStH (f : Fld) (s : State) : Result := done (issueWord (.stH f) s)
/-- ST_W (R146). -/
def execStW (f : Fld) (s : State) : Result := done (issueWord (.stW f) s)
/-- ST_D (R146). -/
def execStD (f : Fld) (s : State) : Result := done (issueWord (.stD f) s)
/-- QLD (R147). -/
def execQld (f : Fld) (s : State) : Result := done (issueWord (.qld f) s)
/-- QST (R147). -/
def execQst (f : Fld) (s : State) : Result := done (issueWord (.qst f) s)
/-- PREF (R148). -/
def execPref (f : Fld) (s : State) : Result := done (issueWord (.pref f) s)
/-- AMO_ADD (R149). -/
def execAmoAdd (w : Bool) (ord : BitVec 2) (f : Fld) (s : State) : Result := done (issueWord (.amoAdd w ord f) s)
/-- AMO_MIN (R149). -/
def execAmoMin (w : Bool) (ord : BitVec 2) (f : Fld) (s : State) : Result := done (issueWord (.amoMin w ord f) s)
/-- AMO_MAX (R149). -/
def execAmoMax (w : Bool) (ord : BitVec 2) (f : Fld) (s : State) : Result := done (issueWord (.amoMax w ord f) s)
/-- AMO_MINU (R149). -/
def execAmoMinu (w : Bool) (ord : BitVec 2) (f : Fld) (s : State) : Result := done (issueWord (.amoMinu w ord f) s)
/-- AMO_MAXU (R149). -/
def execAmoMaxu (w : Bool) (ord : BitVec 2) (f : Fld) (s : State) : Result := done (issueWord (.amoMaxu w ord f) s)
/-- AMO_AND (R149). -/
def execAmoAnd (w : Bool) (ord : BitVec 2) (f : Fld) (s : State) : Result := done (issueWord (.amoAnd w ord f) s)
/-- AMO_OR (R149). -/
def execAmoOr (w : Bool) (ord : BitVec 2) (f : Fld) (s : State) : Result := done (issueWord (.amoOr w ord f) s)
/-- AMO_XOR (R149). -/
def execAmoXor (w : Bool) (ord : BitVec 2) (f : Fld) (s : State) : Result := done (issueWord (.amoXor w ord f) s)
/-- AMO_SWAP (R149). -/
def execAmoSwap (w : Bool) (ord : BitVec 2) (f : Fld) (s : State) : Result := done (issueWord (.amoSwap w ord f) s)
/-- AMO_CAS (R149). -/
def execAmoCas (w : Bool) (ord : BitVec 2) (f : Fld) (s : State) : Result := done (issueWord (.amoCas w ord f) s)
/-- FENCE (R151). -/
def execFence (f : Fld) (s : State) : Result := done (issueWord (.fence f) s)
/-- FENCE_ACQ (R151). -/
def execFenceAcq (f : Fld) (s : State) : Result := done (issueWord (.fenceAcq f) s)
/-- FENCE_REL (R151). -/
def execFenceRel (f : Fld) (s : State) : Result := done (issueWord (.fenceRel f) s)
/-- AFENCE (R152). -/
def execAfence (f : Fld) (s : State) : Result := done (issueWord (.afence f) s)
/-- MARK (R151). -/
def execMark (f : Fld) (s : State) : Result := done (issueWord (.mark f) s)
/-- TOK (R154). -/
def execTok (f : Fld) (s : State) : Result := done (issueWord (.tok f) s)
/-- URET (R131). -/
def execUret (f : Fld) (s : State) : Result := done (issueWord (.uret f) s)
/-- GSET (R153). -/
def execGset (f : Fld) (s : State) : Result := done (issueWord (.gset f) s)
/-- GGET (R153). -/
def execGget (f : Fld) (s : State) : Result := done (issueWord (.gget f) s)
/-- MCLR (R248). -/
def execMclr (f : Fld) (s : State) : Result := done (issueWord (.mclr f) s)
/-- MSTEP (R244). -/
def execMstep (f : Fld) (s : State) : Result := done (issueWord (.mstep f) s)
/-- MSTEP_N24 (R245). -/
def execMstepN24 (f : Fld) (s : State) : Result := done (issueWord (.mstepN24 f) s)
/-- MSTEP_N48 (R245). -/
def execMstepN48 (f : Fld) (s : State) : Result := done (issueWord (.mstepN48 f) s)
/-- MSTEP_N14 (R245). -/
def execMstepN14 (f : Fld) (s : State) : Result := done (issueWord (.mstepN14 f) s)
/-- MBSRC (R240). -/
def execMbsrc (f : Fld) (s : State) : Result := done (issueWord (.mbsrc f) s)
/-- MLOAD (R248). -/
def execMload (f : Fld) (s : State) : Result := done (issueWord (.mload f) s)
/-- MGATH (R247). -/
def execMgath (f : Fld) (s : State) : Result := done (issueWord (.mgath f) s)
/-- MFMT (R248). -/
def execMfmt (f : Fld) (s : State) : Result := done (issueWord (.mfmt f) s)
/-- MSWAP (R248). -/
def execMswap (f : Fld) (s : State) : Result := done (issueWord (.mswap f) s)
/-- MSCALE (R248). -/
def execMscale (f : Fld) (s : State) : Result := done (issueWord (.mscale f) s)
/-- MDRAIN (R249). -/
def execMdrain (f : Fld) (s : State) : Result := done (issueWord (.mdrain f) s)
/-- VADD_F32 (R258). -/
def execVaddF32 (f : Fld) (s : State) : Result := done (issueWord (.vaddF32 f) s)
/-- VSUB_F32 (R258). -/
def execVsubF32 (f : Fld) (s : State) : Result := done (issueWord (.vsubF32 f) s)
/-- VMUL_F32 (R258). -/
def execVmulF32 (f : Fld) (s : State) : Result := done (issueWord (.vmulF32 f) s)
/-- VMIN_F32 (R223). -/
def execVminF32 (f : Fld) (s : State) : Result := done (issueWord (.vminF32 f) s)
/-- VMAX_F32 (R223). -/
def execVmaxF32 (f : Fld) (s : State) : Result := done (issueWord (.vmaxF32 f) s)
/-- VFMA_F32 (R258). -/
def execVfmaF32 (f : Fld) (s : State) : Result := done (issueWord (.vfmaF32 f) s)
/-- VFMS_F32 (R258). -/
def execVfmsF32 (f : Fld) (s : State) : Result := done (issueWord (.vfmsF32 f) s)
/-- VFNMA_F32 (R258). -/
def execVfnmaF32 (f : Fld) (s : State) : Result := done (issueWord (.vfnmaF32 f) s)
/-- VABS_F32 (R258). -/
def execVabsF32 (f : Fld) (s : State) : Result := done (issueWord (.vabsF32 f) s)
/-- VNEG_F32 (R258). -/
def execVnegF32 (f : Fld) (s : State) : Result := done (issueWord (.vnegF32 f) s)
/-- VADD_I (R259). -/
def execVaddI (t : BitVec 2) (f : Fld) (s : State) : Result := done (issueWord (.vaddI t f) s)
/-- VSUB_I (R259). -/
def execVsubI (t : BitVec 2) (f : Fld) (s : State) : Result := done (issueWord (.vsubI t f) s)
/-- VMUL_I (R259). -/
def execVmulI (t : BitVec 2) (f : Fld) (s : State) : Result := done (issueWord (.vmulI t f) s)
/-- VMIN_I (R259). -/
def execVminI (t : BitVec 2) (f : Fld) (s : State) : Result := done (issueWord (.vminI t f) s)
/-- VMAX_I (R259). -/
def execVmaxI (t : BitVec 2) (f : Fld) (s : State) : Result := done (issueWord (.vmaxI t f) s)
/-- VAND (R259). -/
def execVand (t : BitVec 2) (f : Fld) (s : State) : Result := done (issueWord (.vand t f) s)
/-- VOR (R259). -/
def execVor (t : BitVec 2) (f : Fld) (s : State) : Result := done (issueWord (.vor t f) s)
/-- VXOR (R259). -/
def execVxor (t : BitVec 2) (f : Fld) (s : State) : Result := done (issueWord (.vxor t f) s)
/-- VSHL (R259). -/
def execVshl (t : BitVec 2) (f : Fld) (s : State) : Result := done (issueWord (.vshl t f) s)
/-- VSHR (R259). -/
def execVshr (t : BitVec 2) (f : Fld) (s : State) : Result := done (issueWord (.vshr t f) s)
/-- VSRA (R259). -/
def execVsra (t : BitVec 2) (f : Fld) (s : State) : Result := done (issueWord (.vsra t f) s)
/-- VADDS (R259). -/
def execVadds (t : BitVec 2) (f : Fld) (s : State) : Result := done (issueWord (.vadds t f) s)
/-- VSUBS (R259). -/
def execVsubs (t : BitVec 2) (f : Fld) (s : State) : Result := done (issueWord (.vsubs t f) s)
/-- VCMP (R260). -/
def execVcmp (cond : BitVec 5) (t : BitVec 2) (f : Fld) (s : State) : Result := done (issueWord (.vcmp cond t f) s)
/-- KAND (R261). -/
def execKand (f : Fld) (s : State) : Result := done (issueWord (.kand f) s)
/-- KOR (R261). -/
def execKor (f : Fld) (s : State) : Result := done (issueWord (.kor f) s)
/-- KXOR (R261). -/
def execKxor (f : Fld) (s : State) : Result := done (issueWord (.kxor f) s)
/-- KANDN (R261). -/
def execKandn (f : Fld) (s : State) : Result := done (issueWord (.kandn f) s)
/-- KNOT (R261). -/
def execKnot (f : Fld) (s : State) : Result := done (issueWord (.knot f) s)
/-- KMOV (R261). -/
def execKmov (f : Fld) (s : State) : Result := done (issueWord (.kmov f) s)
/-- VSEL (R262). -/
def execVsel (f : Fld) (s : State) : Result := done (issueWord (.vsel f) s)
/-- VCVT (R263). -/
def execVcvt (dst : BitVec 4) (f : Fld) (s : State) : Result := done (issueWord (.vcvt dst f) s)
/-- VPACK (R264). -/
def execVpack (f : Fld) (s : State) : Result := done (issueWord (.vpack f) s)
/-- VUNPACK (R264). -/
def execVunpack (f : Fld) (s : State) : Result := done (issueWord (.vunpack f) s)
/-- VROT_R (R265). -/
def execVrotR (f : Fld) (s : State) : Result := done (issueWord (.vrotR f) s)
/-- VBC_R (R265). -/
def execVbcR (f : Fld) (s : State) : Result := done (issueWord (.vbcR f) s)
/-- VRADD_R (R266). -/
def execVraddR (f : Fld) (s : State) : Result := done (issueWord (.vraddR f) s)
/-- VRMAX_R (R266). -/
def execVrmaxR (f : Fld) (s : State) : Result := done (issueWord (.vrmaxR f) s)
/-- VRMIN_R (R266). -/
def execVrminR (f : Fld) (s : State) : Result := done (issueWord (.vrminR f) s)
/-- VRMAXI_R (R266). -/
def execVrmaxiR (f : Fld) (s : State) : Result := done (issueWord (.vrmaxiR f) s)
/-- VRMINI_R (R266). -/
def execVrminiR (f : Fld) (s : State) : Result := done (issueWord (.vrminiR f) s)
/-- VROT_C (R265). -/
def execVrotC (f : Fld) (s : State) : Result := done (issueWord (.vrotC f) s)
/-- VBC_C (R265). -/
def execVbcC (f : Fld) (s : State) : Result := done (issueWord (.vbcC f) s)
/-- VRADD_C (R266). -/
def execVraddC (f : Fld) (s : State) : Result := done (issueWord (.vraddC f) s)
/-- VRMAX_C (R266). -/
def execVrmaxC (f : Fld) (s : State) : Result := done (issueWord (.vrmaxC f) s)
/-- VRMIN_C (R266). -/
def execVrminC (f : Fld) (s : State) : Result := done (issueWord (.vrminC f) s)
/-- VRMAXI_C (R266). -/
def execVrmaxiC (f : Fld) (s : State) : Result := done (issueWord (.vrmaxiC f) s)
/-- VRMINI_C (R266). -/
def execVrminiC (f : Fld) (s : State) : Result := done (issueWord (.vrminiC f) s)
/-- VMOV (R267). -/
def execVmov (f : Fld) (s : State) : Result := done (issueWord (.vmov f) s)
/-- VMOVI (R267). -/
def execVmovi (f : Fld) (s : State) : Result := done (issueWord (.vmovi f) s)
/-- VLD (R268). -/
def execVld (f : Fld) (s : State) : Result := done (issueWord (.vld f) s)
/-- VST (R268). -/
def execVst (f : Fld) (s : State) : Result := done (issueWord (.vst f) s)
/-- VTAPR (R269). -/
def execVtapr (f : Fld) (s : State) : Result := done (issueWord (.vtapr f) s)
/-- VTAPW (R269). -/
def execVtapw (f : Fld) (s : State) : Result := done (issueWord (.vtapw f) s)
/-- SF_EXP2 (R226). -/
def execSfExp2 (f : Fld) (s : State) : Result := done (issueWord (.sfExp2 f) s)
/-- SF_LOG2 (R226). -/
def execSfLog2 (f : Fld) (s : State) : Result := done (issueWord (.sfLog2 f) s)
/-- SF_RCP (R226). -/
def execSfRcp (f : Fld) (s : State) : Result := done (issueWord (.sfRcp f) s)
/-- SF_RSQRT (R226). -/
def execSfRsqrt (f : Fld) (s : State) : Result := done (issueWord (.sfRsqrt f) s)
/-- SF_SQRT (R226). -/
def execSfSqrt (f : Fld) (s : State) : Result := done (issueWord (.sfSqrt f) s)
/-- SF_SIN (R228). -/
def execSfSin (f : Fld) (s : State) : Result := done (issueWord (.sfSin f) s)
/-- SF_COS (R228). -/
def execSfCos (f : Fld) (s : State) : Result := done (issueWord (.sfCos f) s)
/-- SF_TANH (R226). -/
def execSfTanh (f : Fld) (s : State) : Result := done (issueWord (.sfTanh f) s)
/-- SF_TMX (R276). -/
def execSfTmx (f : Fld) (s : State) : Result := done (issueWord (.sfTmx f) s)
/-- SF_ROUTE (R278). -/
def execSfRoute (f : Fld) (s : State) : Result := done (issueWord (.sfRoute f) s)
/-- SF_BOPEN (R280). -/
def execSfBopen (f : Fld) (s : State) : Result := done (issueWord (.sfBopen f) s)
/-- SF_BCLOSE (R280). -/
def execSfBclose (f : Fld) (s : State) : Result := done (issueWord (.sfBclose f) s)
/-- SF_BDRAIN (R302). -/
def execSfBdrain (f : Fld) (s : State) : Result := done (issueWord (.sfBdrain f) s)
/-- SF_HIST (R282). -/
def execSfHist (f : Fld) (s : State) : Result := done (issueWord (.sfHist f) s)
/-- SF_HIST_Z (R282). -/
def execSfHistZ (f : Fld) (s : State) : Result := done (issueWord (.sfHistZ f) s)
/-- SF_HIST_LATCH (R282). -/
def execSfHistLatch (f : Fld) (s : State) : Result := done (issueWord (.sfHistLatch f) s)
/-- SF_SHORT (R283). -/
def execSfShort (f : Fld) (s : State) : Result := done (issueWord (.sfShort f) s)
/-- SF_MASS (R284). -/
def execSfMass (f : Fld) (s : State) : Result := done (issueWord (.sfMass f) s)
/-- SF_RNG (R285). -/
def execSfRng (f : Fld) (s : State) : Result := done (issueWord (.sfRng f) s)
/-- SF_RNG_U (R285). -/
def execSfRngU (f : Fld) (s : State) : Result := done (issueWord (.sfRngU f) s)
/-- SF_BGET (R281). -/
def execSfBget (f : Fld) (s : State) : Result := done (issueWord (.sfBget f) s)
/-- SF_BSET (R281). -/
def execSfBset (f : Fld) (s : State) : Result := done (issueWord (.sfBset f) s)
/-- SCRUB_LEDGE (R391). -/
def execScrubLedge (f : Fld) (s : State) : Result := done (issueWord (.scrubLedge f) s)
/-- SCRUB_MEM (R391). -/
def execScrubMem (f : Fld) (s : State) : Result := done (issueWord (.scrubMem f) s)
/-- SCRUB_L2 (R391). -/
def execScrubL2 (f : Fld) (s : State) : Result := done (issueWord (.scrubL2 f) s)
/-- SCRUB_JOIN (R396). -/
def execScrubJoin (f : Fld) (s : State) : Result := done (issueWord (.scrubJoin f) s)

end Sys2Proof.Machine
end

