-- ==== Sys2Proof/Machine/Dispatch.lean ====
section
/-! DEFINITION. The meaning of every row of the opcode table. -/

namespace Sys2Proof.Machine

def exec (i : Instr) (s : State) : Host.Outcome State Fault Refusal :=
  match i with
  | .tickAttempt k => Sys2Proof.Machine.execTickAttempt k s
  | .freezeLimit k => Sys2Proof.Machine.execFreezeLimit k s
  | .watchdogCompare k => Sys2Proof.Machine.execWatchdogCompare k s
  | .streamFetch c e a n => Sys2Proof.Machine.execStreamFetch c e a n s
  | .jobStart job => Sys2Proof.Machine.execJobStart job s
  | .rdvAlignRetire job => Sys2Proof.Machine.execRdvAlignRetire job s
  | .rendezvousRetire job => Sys2Proof.Machine.execRendezvousRetire job s
  | .gate f => Sys2Proof.Machine.execGate f s
  | .add f => Sys2Proof.Machine.execAdd f s
  | .sub f => Sys2Proof.Machine.execSub f s
  | .mul f => Sys2Proof.Machine.execMul f s
  | .mulh f => Sys2Proof.Machine.execMulh f s
  | .mulhu f => Sys2Proof.Machine.execMulhu f s
  | .and f => Sys2Proof.Machine.execAnd f s
  | .or f => Sys2Proof.Machine.execOr f s
  | .xor f => Sys2Proof.Machine.execXor f s
  | .andn f => Sys2Proof.Machine.execAndn f s
  | .shl f => Sys2Proof.Machine.execShl f s
  | .shr f => Sys2Proof.Machine.execShr f s
  | .sra f => Sys2Proof.Machine.execSra f s
  | .min f => Sys2Proof.Machine.execMin f s
  | .max f => Sys2Proof.Machine.execMax f s
  | .minu f => Sys2Proof.Machine.execMinu f s
  | .maxu f => Sys2Proof.Machine.execMaxu f s
  | .clz f => Sys2Proof.Machine.execClz f s
  | .ctz f => Sys2Proof.Machine.execCtz f s
  | .popc f => Sys2Proof.Machine.execPopc f s
  | .addI f => Sys2Proof.Machine.execAddI f s
  | .subI f => Sys2Proof.Machine.execSubI f s
  | .mulI f => Sys2Proof.Machine.execMulI f s
  | .mulhI f => Sys2Proof.Machine.execMulhI f s
  | .mulhuI f => Sys2Proof.Machine.execMulhuI f s
  | .andI f => Sys2Proof.Machine.execAndI f s
  | .orI f => Sys2Proof.Machine.execOrI f s
  | .xorI f => Sys2Proof.Machine.execXorI f s
  | .andnI f => Sys2Proof.Machine.execAndnI f s
  | .shlI f => Sys2Proof.Machine.execShlI f s
  | .shrI f => Sys2Proof.Machine.execShrI f s
  | .sraI f => Sys2Proof.Machine.execSraI f s
  | .minI f => Sys2Proof.Machine.execMinI f s
  | .maxI f => Sys2Proof.Machine.execMaxI f s
  | .minuI f => Sys2Proof.Machine.execMinuI f s
  | .maxuI f => Sys2Proof.Machine.execMaxuI f s
  | .movi f => Sys2Proof.Machine.execMovi f s
  | .movhi f => Sys2Proof.Machine.execMovhi f s
  | .ceq f => Sys2Proof.Machine.execCeq f s
  | .cne f => Sys2Proof.Machine.execCne f s
  | .clt f => Sys2Proof.Machine.execClt f s
  | .cltu f => Sys2Proof.Machine.execCltu f s
  | .cle f => Sys2Proof.Machine.execCle f s
  | .cleu f => Sys2Proof.Machine.execCleu f s
  | .ceqI f => Sys2Proof.Machine.execCeqI f s
  | .cneI f => Sys2Proof.Machine.execCneI f s
  | .cltI f => Sys2Proof.Machine.execCltI f s
  | .cltuI f => Sys2Proof.Machine.execCltuI f s
  | .cleI f => Sys2Proof.Machine.execCleI f s
  | .cleuI f => Sys2Proof.Machine.execCleuI f s
  | .pand f => Sys2Proof.Machine.execPand f s
  | .por f => Sys2Proof.Machine.execPor f s
  | .pxor f => Sys2Proof.Machine.execPxor f s
  | .pandn f => Sys2Proof.Machine.execPandn f s
  | .pnot f => Sys2Proof.Machine.execPnot f s
  | .pmov f => Sys2Proof.Machine.execPmov f s
  | .pset f => Sys2Proof.Machine.execPset f s
  | .pclr f => Sys2Proof.Machine.execPclr f s
  | .pvoid f => Sys2Proof.Machine.execPvoid f s
  | .sel f => Sys2Proof.Machine.execSel f s
  | .csrr f => Sys2Proof.Machine.execCsrr f s
  | .csrw f => Sys2Proof.Machine.execCsrw f s
  | .csrs f => Sys2Proof.Machine.execCsrs f s
  | .csrc f => Sys2Proof.Machine.execCsrc f s
  | .rdvAlign f => Sys2Proof.Machine.execRdvAlign f s
  | .rdv f => Sys2Proof.Machine.execRdv f s
  | .rdvFlip f => Sys2Proof.Machine.execRdvFlip f s
  | .rdvEnd f => Sys2Proof.Machine.execRdvEnd f s
  | .idle f => Sys2Proof.Machine.execIdle f s
  | .loop f => Sys2Proof.Machine.execLoop f s
  | .loopSt f => Sys2Proof.Machine.execLoopSt f s
  | .lpr f => Sys2Proof.Machine.execLpr f s
  | .lpw f => Sys2Proof.Machine.execLpw f s
  | .tret f => Sys2Proof.Machine.execTret f s
  | .cop fn f => Sys2Proof.Machine.execCop fn f s
  | .ldB f => Sys2Proof.Machine.execLdB f s
  | .ldH f => Sys2Proof.Machine.execLdH f s
  | .ldW f => Sys2Proof.Machine.execLdW f s
  | .ldD f => Sys2Proof.Machine.execLdD f s
  | .ldBs f => Sys2Proof.Machine.execLdBs f s
  | .ldHs f => Sys2Proof.Machine.execLdHs f s
  | .ldWs f => Sys2Proof.Machine.execLdWs f s
  | .stB f => Sys2Proof.Machine.execStB f s
  | .stH f => Sys2Proof.Machine.execStH f s
  | .stW f => Sys2Proof.Machine.execStW f s
  | .stD f => Sys2Proof.Machine.execStD f s
  | .qld f => Sys2Proof.Machine.execQld f s
  | .qst f => Sys2Proof.Machine.execQst f s
  | .pref f => Sys2Proof.Machine.execPref f s
  | .amoAdd w ord f => Sys2Proof.Machine.execAmoAdd w ord f s
  | .amoMin w ord f => Sys2Proof.Machine.execAmoMin w ord f s
  | .amoMax w ord f => Sys2Proof.Machine.execAmoMax w ord f s
  | .amoMinu w ord f => Sys2Proof.Machine.execAmoMinu w ord f s
  | .amoMaxu w ord f => Sys2Proof.Machine.execAmoMaxu w ord f s
  | .amoAnd w ord f => Sys2Proof.Machine.execAmoAnd w ord f s
  | .amoOr w ord f => Sys2Proof.Machine.execAmoOr w ord f s
  | .amoXor w ord f => Sys2Proof.Machine.execAmoXor w ord f s
  | .amoSwap w ord f => Sys2Proof.Machine.execAmoSwap w ord f s
  | .amoCas w ord f => Sys2Proof.Machine.execAmoCas w ord f s
  | .fence f => Sys2Proof.Machine.execFence f s
  | .fenceAcq f => Sys2Proof.Machine.execFenceAcq f s
  | .fenceRel f => Sys2Proof.Machine.execFenceRel f s
  | .afence f => Sys2Proof.Machine.execAfence f s
  | .mark f => Sys2Proof.Machine.execMark f s
  | .tok f => Sys2Proof.Machine.execTok f s
  | .uret f => Sys2Proof.Machine.execUret f s
  | .gset f => Sys2Proof.Machine.execGset f s
  | .gget f => Sys2Proof.Machine.execGget f s
  | .pageWalk c va acc => Sys2Proof.Machine.execPageWalk c va acc s
  | .faultRecordPost c => Sys2Proof.Machine.execFaultRecordPost c s
  | .apres v => Sys2Proof.Machine.execApres v s
  | .qldDataArrive c q => Sys2Proof.Machine.execQldDataArrive c q s
  | .apStoreDrain c => Sys2Proof.Machine.execApStoreDrain c s
  | .l2Eviction face line => Sys2Proof.Machine.execL2Eviction face line s
  | .mclr f => Sys2Proof.Machine.execMclr f s
  | .mstep f => Sys2Proof.Machine.execMstep f s
  | .mstepN24 f => Sys2Proof.Machine.execMstepN24 f s
  | .mstepN48 f => Sys2Proof.Machine.execMstepN48 f s
  | .mstepN14 f => Sys2Proof.Machine.execMstepN14 f s
  | .mbsrc f => Sys2Proof.Machine.execMbsrc f s
  | .mload f => Sys2Proof.Machine.execMload f s
  | .mgath f => Sys2Proof.Machine.execMgath f s
  | .mfmt f => Sys2Proof.Machine.execMfmt f s
  | .mswap f => Sys2Proof.Machine.execMswap f s
  | .mscale f => Sys2Proof.Machine.execMscale f s
  | .mdrain f => Sys2Proof.Machine.execMdrain f s
  | .vaddF32 f => Sys2Proof.Machine.execVaddF32 f s
  | .vsubF32 f => Sys2Proof.Machine.execVsubF32 f s
  | .vmulF32 f => Sys2Proof.Machine.execVmulF32 f s
  | .vminF32 f => Sys2Proof.Machine.execVminF32 f s
  | .vmaxF32 f => Sys2Proof.Machine.execVmaxF32 f s
  | .vfmaF32 f => Sys2Proof.Machine.execVfmaF32 f s
  | .vfmsF32 f => Sys2Proof.Machine.execVfmsF32 f s
  | .vfnmaF32 f => Sys2Proof.Machine.execVfnmaF32 f s
  | .vabsF32 f => Sys2Proof.Machine.execVabsF32 f s
  | .vnegF32 f => Sys2Proof.Machine.execVnegF32 f s
  | .vaddI t f => Sys2Proof.Machine.execVaddI t f s
  | .vsubI t f => Sys2Proof.Machine.execVsubI t f s
  | .vmulI t f => Sys2Proof.Machine.execVmulI t f s
  | .vminI t f => Sys2Proof.Machine.execVminI t f s
  | .vmaxI t f => Sys2Proof.Machine.execVmaxI t f s
  | .vand t f => Sys2Proof.Machine.execVand t f s
  | .vor t f => Sys2Proof.Machine.execVor t f s
  | .vxor t f => Sys2Proof.Machine.execVxor t f s
  | .vshl t f => Sys2Proof.Machine.execVshl t f s
  | .vshr t f => Sys2Proof.Machine.execVshr t f s
  | .vsra t f => Sys2Proof.Machine.execVsra t f s
  | .vadds t f => Sys2Proof.Machine.execVadds t f s
  | .vsubs t f => Sys2Proof.Machine.execVsubs t f s
  | .vcmp cond t f => Sys2Proof.Machine.execVcmp cond t f s
  | .kand f => Sys2Proof.Machine.execKand f s
  | .kor f => Sys2Proof.Machine.execKor f s
  | .kxor f => Sys2Proof.Machine.execKxor f s
  | .kandn f => Sys2Proof.Machine.execKandn f s
  | .knot f => Sys2Proof.Machine.execKnot f s
  | .kmov f => Sys2Proof.Machine.execKmov f s
  | .vsel f => Sys2Proof.Machine.execVsel f s
  | .vcvt dst f => Sys2Proof.Machine.execVcvt dst f s
  | .vpack f => Sys2Proof.Machine.execVpack f s
  | .vunpack f => Sys2Proof.Machine.execVunpack f s
  | .vrotR f => Sys2Proof.Machine.execVrotR f s
  | .vbcR f => Sys2Proof.Machine.execVbcR f s
  | .vraddR f => Sys2Proof.Machine.execVraddR f s
  | .vrmaxR f => Sys2Proof.Machine.execVrmaxR f s
  | .vrminR f => Sys2Proof.Machine.execVrminR f s
  | .vrmaxiR f => Sys2Proof.Machine.execVrmaxiR f s
  | .vrminiR f => Sys2Proof.Machine.execVrminiR f s
  | .vrotC f => Sys2Proof.Machine.execVrotC f s
  | .vbcC f => Sys2Proof.Machine.execVbcC f s
  | .vraddC f => Sys2Proof.Machine.execVraddC f s
  | .vrmaxC f => Sys2Proof.Machine.execVrmaxC f s
  | .vrminC f => Sys2Proof.Machine.execVrminC f s
  | .vrmaxiC f => Sys2Proof.Machine.execVrmaxiC f s
  | .vrminiC f => Sys2Proof.Machine.execVrminiC f s
  | .vmov f => Sys2Proof.Machine.execVmov f s
  | .vmovi f => Sys2Proof.Machine.execVmovi f s
  | .vld f => Sys2Proof.Machine.execVld f s
  | .vst f => Sys2Proof.Machine.execVst f s
  | .vtapr f => Sys2Proof.Machine.execVtapr f s
  | .vtapw f => Sys2Proof.Machine.execVtapw f s
  | .sfExp2 f => Sys2Proof.Machine.execSfExp2 f s
  | .sfLog2 f => Sys2Proof.Machine.execSfLog2 f s
  | .sfRcp f => Sys2Proof.Machine.execSfRcp f s
  | .sfRsqrt f => Sys2Proof.Machine.execSfRsqrt f s
  | .sfSqrt f => Sys2Proof.Machine.execSfSqrt f s
  | .sfSin f => Sys2Proof.Machine.execSfSin f s
  | .sfCos f => Sys2Proof.Machine.execSfCos f s
  | .sfTanh f => Sys2Proof.Machine.execSfTanh f s
  | .sfTmx f => Sys2Proof.Machine.execSfTmx f s
  | .sfRoute f => Sys2Proof.Machine.execSfRoute f s
  | .sfBopen f => Sys2Proof.Machine.execSfBopen f s
  | .sfBclose f => Sys2Proof.Machine.execSfBclose f s
  | .sfBdrain f => Sys2Proof.Machine.execSfBdrain f s
  | .sfHist f => Sys2Proof.Machine.execSfHist f s
  | .sfHistZ f => Sys2Proof.Machine.execSfHistZ f s
  | .sfHistLatch f => Sys2Proof.Machine.execSfHistLatch f s
  | .sfShort f => Sys2Proof.Machine.execSfShort f s
  | .sfMass f => Sys2Proof.Machine.execSfMass f s
  | .sfRng f => Sys2Proof.Machine.execSfRng f s
  | .sfRngU f => Sys2Proof.Machine.execSfRngU f s
  | .sfBget f => Sys2Proof.Machine.execSfBget f s
  | .sfBset f => Sys2Proof.Machine.execSfBset f s
  | .commandHeadResolve c src t => Sys2Proof.Machine.execCommandHeadResolve c src t s
  | .commandDispatch c src t => Sys2Proof.Machine.execCommandDispatch c src t s
  | .completionRecordEnqueue c => Sys2Proof.Machine.execCompletionRecordEnqueue c s
  | .uirecRead c d => Sys2Proof.Machine.execUirecRead c d s
  | .uiEntry c => Sys2Proof.Machine.execUiEntry c s
  | .copyIn c id => Sys2Proof.Machine.execCopyIn c id s
  | .copyOut c id => Sys2Proof.Machine.execCopyOut c id s
  | .gather c id => Sys2Proof.Machine.execGather c id s
  | .scatter c id => Sys2Proof.Machine.execScatter c id s
  | .copyMm c id => Sys2Proof.Machine.execCopyMm c id s
  | .fill c id => Sys2Proof.Machine.execFill c id s
  | .dress c id => Sys2Proof.Machine.execDress c id s
  | .hist c id => Sys2Proof.Machine.execHist c id s
  | .binsort c id => Sys2Proof.Machine.execBinsort c id s
  | .coll c id => Sys2Proof.Machine.execColl c id s
  | .rngSeed c id => Sys2Proof.Machine.execRngSeed c id s
  | .inval c id => Sys2Proof.Machine.execInval c id s
  | .scrubLedge f => Sys2Proof.Machine.execScrubLedge f s
  | .scrubMem f => Sys2Proof.Machine.execScrubMem f s
  | .scrubL2 f => Sys2Proof.Machine.execScrubL2 f s
  | .scrubJoin f => Sys2Proof.Machine.execScrubJoin f s
  | .keyslotLoad c id => Sys2Proof.Machine.execKeyslotLoad c id s
  | .keyslotZero c id => Sys2Proof.Machine.execKeyslotZero c id s
  | .keyslotWrap c id => Sys2Proof.Machine.execKeyslotWrap c id s
  | .keyslotUnwrap c id => Sys2Proof.Machine.execKeyslotUnwrap c id s
  | .axis d n => Sys2Proof.Machine.execAxis d n s
  | .split c n => Sys2Proof.Machine.execSplit c n s
  | .join c => Sys2Proof.Machine.execJoin c s
  | .swap c j => Sys2Proof.Machine.execSwap c j s
  | .rev c => Sys2Proof.Machine.execRev c s
  | .pad c lo hi v => Sys2Proof.Machine.execPad c lo hi v s
  | .tile c j m => Sys2Proof.Machine.execTile c j m s
  | .emit c x => Sys2Proof.Machine.execEmit c x s
  | .invctlGo v => Sys2Proof.Machine.execInvctlGo v s
  | .invalidateAck => Sys2Proof.Machine.execInvalidateAck s
  | .drainPointSuspend job => Sys2Proof.Machine.execDrainPointSuspend job s
  | .forcedSave job => Sys2Proof.Machine.execForcedSave job s
  | .prectlForce c => Sys2Proof.Machine.execPrectlForce c s
  | .prectlKill c => Sys2Proof.Machine.execPrectlKill c s
  | .teamResume job => Sys2Proof.Machine.execTeamResume job s
  | .notify v j x => Sys2Proof.Machine.execNotify v j x s
  | .slotcfgWrite j x => Sys2Proof.Machine.execSlotcfgWrite j x s
  | .slotctlKill j => Sys2Proof.Machine.execSlotctlKill j s
  | .slotctlResume j => Sys2Proof.Machine.execSlotctlResume j s
  | .slotctlPreempt j => Sys2Proof.Machine.execSlotctlPreempt j s
  | .lotteryDecision => Sys2Proof.Machine.execLotteryDecision s
  | .launch j => Sys2Proof.Machine.execLaunch j s
  | .swapEntry j => Sys2Proof.Machine.execSwapEntry j s
  | .replay j => Sys2Proof.Machine.execReplay j s
  | .jobComplete job => Sys2Proof.Machine.execJobComplete job s
  | .collStart id => Sys2Proof.Machine.execCollStart id s
  | .collDoneMark id rank => Sys2Proof.Machine.execCollDoneMark id rank s
  | .collAbort id detail rank => Sys2Proof.Machine.execCollAbort id detail rank s
  | .flitReceive p fl => Sys2Proof.Machine.execFlitReceive p fl s
  | .ropeEgressBlock p b => Sys2Proof.Machine.execRopeEgressBlock p b s
  | .flitReplayRequest p seq => Sys2Proof.Machine.execFlitReplayRequest p seq s
  | .portDown p => Sys2Proof.Machine.execPortDown p s
  | .ropeerrRead p => Sys2Proof.Machine.execRopeerrRead p s
  | .ethDatagramReceive p src fl => Sys2Proof.Machine.execEthDatagramReceive p src fl s
  | .ethRetryTimeout j => Sys2Proof.Machine.execEthRetryTimeout j s
  | .peerLossTimeout j => Sys2Proof.Machine.execPeerLossTimeout j s
  | .priorityFlowControl p prio pause => Sys2Proof.Machine.execPriorityFlowControl p prio pause s
  | .cairnRun k => Sys2Proof.Machine.execCairnRun k s
  | .cairnpartWrite j v => Sys2Proof.Machine.execCairnpartWrite j v s
  | .cairnmaskWrite j v => Sys2Proof.Machine.execCairnmaskWrite j v s
  | .cairnCounterRead j cl => Sys2Proof.Machine.execCairnCounterRead j cl s
  | .cAdd d a b m => Sys2Proof.Machine.execCAdd d a b m s
  | .cAddI d a m imm => Sys2Proof.Machine.execCAddI d a m imm s
  | .cSub d a b m => Sys2Proof.Machine.execCSub d a b m s
  | .cSubI d a m imm => Sys2Proof.Machine.execCSubI d a m imm s
  | .cMul d a b m => Sys2Proof.Machine.execCMul d a b m s
  | .cMulI d a m imm => Sys2Proof.Machine.execCMulI d a m imm s
  | .cAnd d a b m => Sys2Proof.Machine.execCAnd d a b m s
  | .cAndI d a m imm => Sys2Proof.Machine.execCAndI d a m imm s
  | .cOr d a b m => Sys2Proof.Machine.execCOr d a b m s
  | .cOrI d a m imm => Sys2Proof.Machine.execCOrI d a m imm s
  | .cXor d a b m => Sys2Proof.Machine.execCXor d a b m s
  | .cXorI d a m imm => Sys2Proof.Machine.execCXorI d a m imm s
  | .cShl d a b m => Sys2Proof.Machine.execCShl d a b m s
  | .cShlI d a m imm => Sys2Proof.Machine.execCShlI d a m imm s
  | .cShr d a b m => Sys2Proof.Machine.execCShr d a b m s
  | .cShrI d a m imm => Sys2Proof.Machine.execCShrI d a m imm s
  | .cSra d a b m => Sys2Proof.Machine.execCSra d a b m s
  | .cSraI d a m imm => Sys2Proof.Machine.execCSraI d a m imm s
  | .cMin d a b m => Sys2Proof.Machine.execCMin d a b m s
  | .cMinI d a m imm => Sys2Proof.Machine.execCMinI d a m imm s
  | .cMax d a b m => Sys2Proof.Machine.execCMax d a b m s
  | .cMaxI d a m imm => Sys2Proof.Machine.execCMaxI d a m imm s
  | .cMinu d a b m => Sys2Proof.Machine.execCMinu d a b m s
  | .cMinuI d a m imm => Sys2Proof.Machine.execCMinuI d a m imm s
  | .cMaxu d a b m => Sys2Proof.Machine.execCMaxu d a b m s
  | .cMaxuI d a m imm => Sys2Proof.Machine.execCMaxuI d a m imm s
  | .cFadd d a b m => Sys2Proof.Machine.execCFadd d a b m s
  | .cFsub d a b m => Sys2Proof.Machine.execCFsub d a b m s
  | .cFmul d a b m => Sys2Proof.Machine.execCFmul d a b m s
  | .cFmin d a b m => Sys2Proof.Machine.execCFmin d a b m s
  | .cFmax d a b m => Sys2Proof.Machine.execCFmax d a b m s
  | .cCmpEq d a b m => Sys2Proof.Machine.execCCmpEq d a b m s
  | .cCmpEqI d a m imm => Sys2Proof.Machine.execCCmpEqI d a m imm s
  | .cCmpNe d a b m => Sys2Proof.Machine.execCCmpNe d a b m s
  | .cCmpNeI d a m imm => Sys2Proof.Machine.execCCmpNeI d a m imm s
  | .cCmpLt d a b m => Sys2Proof.Machine.execCCmpLt d a b m s
  | .cCmpLtI d a m imm => Sys2Proof.Machine.execCCmpLtI d a m imm s
  | .cCmpLe d a b m => Sys2Proof.Machine.execCCmpLe d a b m s
  | .cCmpLeI d a m imm => Sys2Proof.Machine.execCCmpLeI d a m imm s
  | .cCmpLtu d a b m => Sys2Proof.Machine.execCCmpLtu d a b m s
  | .cCmpLtuI d a m imm => Sys2Proof.Machine.execCCmpLtuI d a m imm s
  | .cCmpLeu d a b m => Sys2Proof.Machine.execCCmpLeu d a b m s
  | .cCmpLeuI d a m imm => Sys2Proof.Machine.execCCmpLeuI d a m imm s
  | .cCmpFlt d a b m => Sys2Proof.Machine.execCCmpFlt d a b m s
  | .cCmpFle d a b m => Sys2Proof.Machine.execCCmpFle d a b m s
  | .cSel d a b m => Sys2Proof.Machine.execCSel d a b m s
  | .cMand d a b => Sys2Proof.Machine.execCMand d a b s
  | .cMor d a b => Sys2Proof.Machine.execCMor d a b s
  | .cMxor d a b => Sys2Proof.Machine.execCMxor d a b s
  | .cMnot d a => Sys2Proof.Machine.execCMnot d a s
  | .cLi d v => Sys2Proof.Machine.execCLi d v s
  | .cLhi d v => Sys2Proof.Machine.execCLhi d v s
  | .cLidx d => Sys2Proof.Machine.execCLidx d s
  | .cBcast d a n => Sys2Proof.Machine.execCBcast d a n s
  | .cRot d a n => Sys2Proof.Machine.execCRot d a n s
  | .cRadd d a m => Sys2Proof.Machine.execCRadd d a m s
  | .cRmax d a m => Sys2Proof.Machine.execCRmax d a m s
  | .cFld d m off => Sys2Proof.Machine.execCFld d m off s
  | .cFst a m off => Sys2Proof.Machine.execCFst a m off s
  | .cSld d m r x => Sys2Proof.Machine.execCSld d m r x s
  | .cSst a m r x => Sys2Proof.Machine.execCSst a m r x s
  | .cTmred d a m => Sys2Proof.Machine.execCTmred d a m s
  | .cTmmrg d a b => Sys2Proof.Machine.execCTmmrg d a b s
  | .cTmext d a => Sys2Proof.Machine.execCTmext d a s
  | .cRep n len => Sys2Proof.Machine.execCRep n len s
  | .cSkip m k => Sys2Proof.Machine.execCSkip m k s
  | .cSkipNone m k => Sys2Proof.Machine.execCSkipNone m k s
  | .cRidx d lv => Sys2Proof.Machine.execCRidx d lv s
  | .cDrop => Sys2Proof.Machine.execCDrop s
  | .cEv a => Sys2Proof.Machine.execCEv a s
  | .scrubStep w => Sys2Proof.Machine.execScrubStep w s
  | .cwreq c v => Sys2Proof.Machine.execCwreq c v s
  | .cwstatRead c => Sys2Proof.Machine.execCwstatRead c s
  | .ueaddrRead c => Sys2Proof.Machine.execUeaddrRead c s
  | .tetherPacketReceive v k p => Sys2Proof.Machine.execTetherPacketReceive v k p s
  | .substreamRekey v k => Sys2Proof.Machine.execSubstreamRekey v k s
  | .nonpostedTimeout v id => Sys2Proof.Machine.execNonpostedTimeout v id s
  | .tsessTerm v => Sys2Proof.Machine.execTsessTerm v s
  | .tsessRead v => Sys2Proof.Machine.execTsessRead v s
  | .getVersion v msg => Sys2Proof.Machine.execGetVersion v msg s
  | .getCapabilities v msg => Sys2Proof.Machine.execGetCapabilities v msg s
  | .negotiateAlgorithms v msg => Sys2Proof.Machine.execNegotiateAlgorithms v msg s
  | .getDigests v msg => Sys2Proof.Machine.execGetDigests v msg s
  | .getCertificate v msg => Sys2Proof.Machine.execGetCertificate v msg s
  | .challenge v msg => Sys2Proof.Machine.execChallenge v msg s
  | .getMeasurements v msg => Sys2Proof.Machine.execGetMeasurements v msg s
  | .keyExchange v msg => Sys2Proof.Machine.execKeyExchange v msg s
  | .finish v msg => Sys2Proof.Machine.execFinish v msg s
  | .keyUpdate v msg => Sys2Proof.Machine.execKeyUpdate v msg s
  | .heartbeat v msg => Sys2Proof.Machine.execHeartbeat v msg s
  | .endSession v msg => Sys2Proof.Machine.execEndSession v msg s
  | .slpctlReq => Sys2Proof.Machine.execSlpctlReq s
  | .slpctlWake => Sys2Proof.Machine.execSlpctlWake s
  | .wakeInput => Sys2Proof.Machine.execWakeInput s
  | .slpctlRead => Sys2Proof.Machine.execSlpctlRead s
  | .coldReset => Sys2Proof.Machine.execColdReset s
  | .rstctlWarm => Sys2Proof.Machine.execRstctlWarm s
  | .rstctlCgo c => Sys2Proof.Machine.execRstctlCgo c s
  | .throttleAdjust => Sys2Proof.Machine.execThrottleAdjust s
  | .selfTest => Sys2Proof.Machine.execSelfTest s
  | .errorRecordPost => Sys2Proof.Machine.execErrorRecordPost s
  | .registerWrite a v => Sys2Proof.Machine.execRegisterWrite a v s

end Sys2Proof.Machine
end

