-- ==== Sys2Proof/Machine/Step.lean ====
section
/-! DEFINITION. One step of the machine: the next move of the schedule, its instruction fetched and decoded, and run. -/

namespace Sys2Proof.Machine

/-- Is the row an event, rather than a word of an engine, a kernel or a dressing program? -/
def isEvent (i : Instr) : Bool := (toFields i).isNone && (toCairn i).isNone && (toDress i).isNone

/-- May the engine issue its next word now? A timed stream issues at its due tick only (R19); before the opening
`rdv.align` it stands at that word (R26). -/
def wordReady (s : State) (c : CoreId) (e : Engine) : Bool :=
  let x := s.core c
  if beforeAlign x e then
    (x.stream e).present && (x.stream e).first && !notStarted s c && (match (turnOf s c e).instr with
      | some i => isRdvAlign i
      | none => false)
  else if e.timed && !inTrap x e then dueNow s c e
  else untimedReady s c e

/-- An engine's next word (R14, R15, R53-R55). -/
def stepWord (c : CoreId) (e : Engine) (s : State) : Result :=
  let s := { s with issuer := .eng c e }
  let t := turnOf s c e
  if !wordReady s c e then .next s
  else
    match t.instr with
    | some i => if t.fetched && !t.bad then exec i s else done (issueFailed c e s)
    | none => done (issueFailed c e s)

/-- The next word of the run on a cairn core, or the end of the run (R376). `cairnNext` is `exec` of the decoded word
(`step_cairn` in Laws). -/
def stepCairn (k : Fin 64) (s : State) : Result :=
  let s := { s with issuer := .cairn k }
  match runOn s k with
  | none => .next s
  | some r => if runEnded r then done (endRun k s) else done (cairnNext k s)

/-- A word of a dressing program on the loader of a cluster's dresser (R171, R172). -/
def stepDress (k : ClusterId) (w : W64) (s : State) : Result :=
  let s := { s with issuer := .dress k }
  match decodeDress w with
  | .ok i => exec i s
  | .error _ => done (onDress refuse s)

/-- One step: the next move of the schedule; with none left, nothing changes. -/
def step (s : State) : Host.Outcome State Fault Refusal :=
  match s.sched with
  | [] => .next s
  | m :: r =>
    let s := { s with sched := r }
    match m with
    | .word c e => stepWord c e s
    | .cairn k => stepCairn k s
    | .dress k w => stepDress k w s
    | .event i => if isEvent i then exec i s else .next s
    | .save job => done (forceTeam job s)
    | .ahead c va => done (readAhead c va s)
    | .guide => done (guideStep s)
    | .strike x => done (strikeAt x s)

/-! ### An instruction placed where the next step fetches it -/

/-- A fetch buffer with a word's three units at address 0. -/
def bufWith (x : BitVec 96) : Sparse (Option Unit32) :=
  sput none (sput none (sput none [] 0 (some { val := x.extractLsb' 64 32, bad := false }))
    4 (some { val := x.extractLsb' 32 32, bad := false })) 8 (some { val := x.extractLsb' 0 32, bad := false })

/-- The place of a pitch's one word at address 0. -/
def posWith : Pos := { base := 0, pitch := 0, wc := 1, off := 0, hdr := false }

/-- Core 0 with an engine word next in the place that accepts it. -/
def coreWith (p : Where) (x : BitVec 96) (last : Nat) (y : Core) : Core :=
  let y := y.modStream p.eng fun t => { t with
    present := true, pos := posWith, first := p.first, last, extra := 0, ended := false, arrived := none, buf := bufWith x }
  if p.intr then { y with ap := { y.ap with inUi := true, uiPos := posWith, uiBuf := bufWith x } }
  else { y with aligned := !p.first }

/-- A kernel of one word, run by cairn core 0 on a matched flit of no class. -/
def runWith (w : W32) : Run :=
  { m := { k := { slot := 0, cls := 0, w0 := 0, w1 := 0, w2 := 0, kernel := [w] }, coll := 0, flow := 0, fseq := 0
           flit := { seq := 0, cgrp := 0, collSeq := 0, pos := 0, len := 0, off := 0, payload := 0, ctl := false, blocks := []
                     crcOk := true }
           egress := false, dead := false }
    w := Vector.replicate 64 0, e := Vector.replicate 16 (Vector.replicate 16 0), msk := Vector.replicate 4 0, drop := false
    pc := 0, reps := [], trap := none }

/-- The state in which the next step runs the given instruction (log 12): an engine word stands fetched and due in a stream
of core 0; a kernel word is the next of a run on cairn core 0; a dresser word is the next of the schedule. -/
def State.withFetchWord (s : State) (nbits w : Nat) : State :=
  if nbits ≤ 32 then
    { s with
      cairn := { s.cairn with run := s.cairn.run.set 0 (some (runWith (BitVec.ofNat 32 w))) }
      sched := [.cairn 0] }
  else if nbits ≤ 64 then { s with sched := [.dress 0 (BitVec.ofNat 64 w)] }
  else
    let x : BitVec 96 := BitVec.ofNat 32 w ++ BitVec.ofNat 32 (w / 2 ^ 32) ++ BitVec.ofNat 32 (w / 2 ^ 64)
    let p := ((decodeAny x placesFor).map Prod.fst).getD (Where.plain .lead)
    let last := (s.cluster 0).clk
    let s := s.modCore 0 (coreWith p x last)
    let s := s.modCluster 0 fun k => { k with clk := last + dlyOf x }
    { s with sched := [.word 0 p.eng] }

end Sys2Proof.Machine
end

