-- ==== Sys2Proof/Safety.lean ====
section
/-! DEFINITION. What counts as a safe run, and the conditions and next states in whose terms the claims about engine words
are made. -/

namespace Sys2Proof.Machine

/-! ### Safe runs -/

/-- A safe step: the machine goes on. A trap, a fault of an AP and a refused command are states in which it goes on. -/
def SafeStep (s : State) : Prop := ∃ t, step s = .next t

/-- A safe run of `n` steps. -/
def SafeRun : Nat → State → Prop
  | 0, _ => True
  | n + 1, s => ∃ t, step s = .next t ∧ SafeRun n t

/-! ### When a word issues -/

/-- Is the word's guard written, and does it let the word issue (R59)? -/
def guardGo (x : Core) (e : Engine) (h : Head) : Bool := !guardLate x e h && guardTrue x e h

/-- The guard of an instruction that is a word of an engine. -/
def headOk (x : Core) (e : Engine) (i : Instr) : Bool :=
  match toFields i with
  | some w => selfGuarded i || guardGo x e w.f.h
  | none => false

/-- Does the word pass every encoding check where its engine stands (R57-R66, R76)? -/
def legalHere (s : State) (c : CoreId) (e : Engine) (i : Instr) : Bool :=
  match toFields i with
  | some w => decide (encodingDetail (whereOf (s.core c) e) w = 0)
  | none => false

/-- Has the pitch of the engine's next word nothing to wait for (R33)? -/
def waitsMet (s : State) (c : CoreId) (e : Engine) : Bool := (nextOf s c e).waits.all (waitMet (s.core c))

/-- The word `i` is a legal one, `e` of core `c` issues it, its pitch waits for nothing, and no store waits to reach a
register. -/
def wordOk (s : State) (c : CoreId) (e : Engine) (i : Instr) : Bool :=
  decide (s.issuer = .eng c e) && s.regq.isEmpty && legalHere s c e i && waitsMet s c e

/-- It is the turn of an untimed word: of an AP, or of LEAD in a trap handler (R14, R122). -/
def untimedTurn (s : State) (c : CoreId) (e : Engine) (i : Instr) : Bool := wordOk s c e i && untimedReady s c e

/-- Is nothing of a core's timed side in flight at a tick: no write due, no operation, no row on a lane, no half of a B
buffer that becomes free, no discarded AP write and no wrong context area to report? -/
def quietCore (now : Nat) (x : Core) : Bool :=
  !x.badCtx && x.latches.isEmpty && x.ops.isEmpty && x.transits.isEmpty && x.ap.apWrites.isEmpty
    && x.bench.bbuf.all (halfStays now)

/-- Does the clock of a cluster run, with nothing in flight on any of its cores? -/
def quietCluster (s : State) (k : ClusterId) : Bool :=
  !clockStands s k && (watchCores s k).isEmpty && k.cores.all fun c => quietCore (s.cluster k).clk (s.core c)

/-- A timed engine takes its turn with the word at the present tick of its cluster, and no other stream of the cluster
does (R19, R36). -/
def timedTurn (s : State) (c : CoreId) (e : Engine) (i : Instr) : Bool :=
  wordOk s c e i && e.timed && !inTrap (s.core c) e && (s.core c).aligned && quietCluster s c.cluster
    && c.cluster.cores.all fun d => timedEngines.all fun g => decide (d = c ∧ g = e) || !dueNow s d g

/-- It is the word's turn: untimed, or at the present tick. -/
def hasTurn (s : State) (c : CoreId) (e : Engine) (i : Instr) : Bool := untimedTurn s c e i || timedTurn s c e i

/-- An untimed word issues now. -/
def untimedGo (s : State) (c : CoreId) (e : Engine) (i : Instr) : Bool := untimedTurn s c e i && headOk (s.core c) e i

/-- It is the word's turn, and its guard lets it issue. -/
def issues (s : State) (c : CoreId) (e : Engine) (i : Instr) : Bool := hasTurn s c e i && headOk (s.core c) e i

/-- It is the word's turn, and its guard is written and false: the word is a null (R11, R59). -/
def issuesNull (s : State) (c : CoreId) (e : Engine) (i : Instr) : Bool :=
  hasTurn s c e i && !selfGuarded i && match toFields i with
    | some w => !guardLate (s.core c) e w.f.h && !guardTrue (s.core c) e w.f.h
    | none => false

/-! ### What a word leaves -/

/-- The engine moved past its next word; `idle` and `skip` as a plan has them (R19, R30). -/
def movedOn (s : State) (c : CoreId) (e : Engine) (idle : Nat) (skip : Option Nat) (x : Core) : Core :=
  advance e (nextOf s c e).pos (s.cluster c.cluster).clk idle skip x

/-- Is the word timed where it issues? -/
def timedAt (s : State) (c : CoreId) (e : Engine) : Bool := e.timed && !inTrap (s.core c) e

/-- A state at the end of a word: a timed one ends a tick, and the cluster's clock advances (R36). -/
def endWord (s : State) (c : CoreId) (e : Engine) (t : State) : State :=
  if timedAt s c e then t.modCluster c.cluster endTick else t

/-- The state after a word whose whole effect is `f` on the core that has moved past it. -/
def coreNext (s : State) (c : CoreId) (e : Engine) (f : Core → Core) : State :=
  endWord s c e (s.modCore c fun x => f (movedOn s c e 0 none x))

/-! ### What software sees -/

/-- The byte of device or host memory that an untimed engine of a face reads for a world; none where the read fails. -/
def seesByte (s : State) (f : Fin 4) (v : World) (pa : Nat) : Option Byte := engineByte s f v pa

/-- Memory as every reader of the package sees it is the same in two states. -/
def SameMemory (s t : State) : Prop := t.mem = s.mem ∧ t.l2 = s.l2 ∧ ∀ f v pa, seesByte t f v pa = seesByte s f v pa

/-- Memory and the faces are in canonical form: in each table the keys rise strictly, and no listed value is what an
unlisted key reads as. -/
def State.memOk (s : State) : Prop := s.mem.wf = true ∧ ∀ f : Fin 4, swf none s.l2[f] = true

/-- Every core but one is the same in two states. -/
def OthersSame (c : CoreId) (s t : State) : Prop := ∀ d, d ≠ c → t.core d = s.core d

/-! ### What a word leaves unchanged -/

/-- Everything of the package outside its cores and clusters is the same in two states, memory as every reader sees it
among it. -/
def PackageSame (s t : State) : Prop :=
  { t with cores := s.cores, clusters := s.clusters } = s ∧ SameMemory s t

/-- Every cluster but one is the same, and that one differs by at most the end of a tick. -/
def ClustersKept (k : ClusterId) (s t : State) : Prop :=
  (∀ j, j ≠ k → t.cluster j = s.cluster j) ∧ (t.cluster k = s.cluster k ∨ t.cluster k = endTick (s.cluster k))

/-- Of a core only the streams, the scalars and the positions in handler images differ: its control and trap registers,
vector registers, queues, bench, SF state, AP state, ledges and everything in flight are the same. -/
def ScalarsOnly (x y : Core) : Prop :=
  { y with
    streams := x.streams, scal := x.scal
    trap := { y.trap with hpos := x.trap.hpos }
    ap := { y.ap with uiPos := x.ap.uiPos } } = x

/-- The streams of the other engines are the same. -/
def OtherStreams (e : Engine) (x y : Core) : Prop := ∀ g, g ≠ e → y.stream g = x.stream g

/-- Every scalar register of every bank is the same but the one that a field of a word of the engine names, and no mark of
a pending reply changes. -/
def RegsExcept (e : Engine) (d : RegCode) (x y : Core) : Prop :=
  (∀ j : Fin 32, (e ≠ .ap ∧ inTrap x e = false ∧ j.val = d.toNat % 32) ∨ y.scal.s[j] = x.scal.s[j]) ∧
  (∀ j : Fin 32, (e ≠ .ap ∧ inTrap x e = true ∧ j.val = d.toNat % 32) ∨ y.scal.hs[j] = x.scal.hs[j]) ∧
  (∀ j : Fin 32, (e = .ap ∧ shadowed (inIntr x e) d.toNat = false ∧ j.val = d.toNat % 32) ∨ y.scal.a[j] = x.scal.a[j]) ∧
  (∀ j : Fin 8, (e = .ap ∧ shadowed (inIntr x e) d.toNat = true ∧ j.val + 24 = d.toNat % 32) ∨ y.scal.sh[j] = x.scal.sh[j]) ∧
  y.scal.pendS = x.scal.pendS ∧ y.scal.pendH = x.scal.pendH ∧ y.scal.pendA = x.scal.pendA ∧ y.scal.pendX = x.scal.pendX

/-- Every scalar register is the same, and no mark of a pending reply changes. -/
def RegsSame (x y : Core) : Prop :=
  y.scal.s = x.scal.s ∧ y.scal.hs = x.scal.hs ∧ y.scal.a = x.scal.a ∧ y.scal.sh = x.scal.sh ∧
  y.scal.pendS = x.scal.pendS ∧ y.scal.pendH = x.scal.pendH ∧ y.scal.pendA = x.scal.pendA ∧ y.scal.pendX = x.scal.pendX

/-- Every predicate slot of both banks keeps its value and its state. -/
def SlotsSame (x y : Core) : Prop :=
  y.scal.pv = x.scal.pv ∧ y.scal.pw = x.scal.pw ∧ y.scal.hv = x.scal.hv ∧ y.scal.hw = x.scal.hw

/-- Every predicate slot keeps its value and its state but slot `i` of one bank. -/
def SlotsExcept (hnd : Bool) (i : Nat) (x y : Core) : Prop :=
  (∀ j : Fin 15, (hnd = false ∧ j.val = i) ∨
    (y.scal.pv.getLsbD j = x.scal.pv.getLsbD j ∧ y.scal.pw.getLsbD j = x.scal.pw.getLsbD j)) ∧
  (∀ j : Fin 15, (hnd = true ∧ j.val = i) ∨
    (y.scal.hv.getLsbD j = x.scal.hv.getLsbD j ∧ y.scal.hw.getLsbD j = x.scal.hw.getLsbD j))

/-- The word at hand ends no active loop body of its stream, so no stage slot shifts (R12). -/
def endsNoLoop (s : State) (c : CoreId) (e : Engine) : Bool :=
  (List.range 4).all fun n =>
    let l := levelOf ((s.core c).stream e) n
    !(l.act && decide (l.last = (nextOf s c e).pos.off))

end Sys2Proof.Machine
end

