-- ==== Sys2Proof/WellFormed.lean ====
section
/-! DEFINITION. Which terms of `Instr` are instructions: the sub-fields that select a row stand at that row's values,
and every encoding check passes. An event is well formed for every value of its arguments. -/

namespace Sys2Proof

/-- The sub-field of imm36, or the function code, that selects the row among the words of one major holds the row's
value (R155, R282, R285, R391). -/
def selectsRow : Instr → Bool
  | .sfHist f => decide (immBits f 0 2 = 0)
  | .sfHistZ f => decide (immBits f 0 2 = 1)
  | .sfHistLatch f => decide (immBits f 0 2 = 2)
  | .sfRng f => decide (immBits f 0 2 = 0)
  | .sfRngU f => decide (immBits f 0 2 = 1)
  | .scrubLedge f => decide (immBits f 16 2 = 0)
  | .scrubMem f => decide (immBits f 16 2 = 1)
  | .scrubL2 f => decide (immBits f 16 2 = 2)
  | .scrubJoin f => decide (immBits f 16 2 = 3)
  | .cop fn _ => decide (fn ≠ 0x41)
  | _ => true

/-- The operand limits of cairn words (R378, R383). -/
def cairnInRange : Instr → Bool
  | .cFld _ _ off => decide (off.toNat % 4 = 0) && decide (off.toNat ≤ 48)
  | .cFst _ _ off => decide (off.toNat % 4 = 0) && decide (off.toNat ≤ 48)
  | .cRep _ len => decide (len ≠ 0)
  | .cSkip _ k => decide (k ≠ 0)
  | .cSkipNone _ k => decide (k ≠ 0)
  | _ => true

/-- The operand limits of dresser words (R172): an axis number of 0-5, and log2 m of 1-15. -/
def dressInRange : Instr → Bool
  | .axis d _ => decide (d.toNat ≤ 5)
  | .tile _ _ m => decide (m ≠ 0)
  | _ => true

/-- Is the term an instruction at the given place of a stream (R57-R66, R76), or a cairn or dresser instruction, or an
event? -/
def wellFormed (p : Where) (i : Instr) : Bool :=
  selectsRow i && cairnInRange i && dressInRange i &&
    match toFields i with
    | some x => decide (encodingDetail p x = 0)
    | none => true

end Sys2Proof
end

