-- ==== Sys2Proof/Certificates/Slice0/Obligations.lean ====
section
/-! DEFINITION. The statements about this model. Words are grouped by shape in lists; `issues` (in Safety) says when a word
issues, and a next state is written as the state in which the stream has moved past its word, changed by the word's effect. -/

namespace Sys2Proof.Claims

open Sys2Proof.Machine

/-! ### The words of each shape, with their results as the manual gives them -/

/-- The register ALU without the products (R91): x and y are the two source registers. -/
def aluWords : List ((Fld → Instr) × (W64 → W64 → W64)) :=
  [ (.add, fun x y => x + y), (.sub, fun x y => x - y), (.and, fun x y => x &&& y), (.or, fun x y => x ||| y)
  , (.xor, fun x y => x ^^^ y), (.andn, fun x y => x &&& ~~~y), (.shl, fun x y => x <<< (y.extractLsb' 0 6).toNat)
  , (.shr, fun x y => x >>> (y.extractLsb' 0 6).toNat), (.sra, fun x y => x.sshiftRight (y.extractLsb' 0 6).toNat)
  , (.min, fun x y => if x.toInt < y.toInt then x else y), (.max, fun x y => if x.toInt < y.toInt then y else x)
  , (.minu, fun x y => if x.toNat < y.toNat then x else y), (.maxu, fun x y => if x.toNat < y.toNat then y else x) ]

/-- The immediate ALU without the products (R91): y is imm36, sign-extended. -/
def aluImmWords : List ((Fld → Instr) × (W64 → W64 → W64)) :=
  [ (.addI, fun x y => x + y), (.subI, fun x y => x - y), (.andI, fun x y => x &&& y), (.orI, fun x y => x ||| y)
  , (.xorI, fun x y => x ^^^ y), (.andnI, fun x y => x &&& ~~~y), (.shlI, fun x y => x <<< (y.extractLsb' 0 6).toNat)
  , (.shrI, fun x y => x >>> (y.extractLsb' 0 6).toNat), (.sraI, fun x y => x.sshiftRight (y.extractLsb' 0 6).toNat)
  , (.minI, fun x y => if x.toInt < y.toInt then x else y), (.maxI, fun x y => if x.toInt < y.toInt then y else x)
  , (.minuI, fun x y => if x.toNat < y.toNat then x else y), (.maxuI, fun x y => if x.toNat < y.toNat then y else x) ]

/-- The products of registers (R91): the low half, and the signed and unsigned high halves. -/
def productWords : List ((Fld → Instr) × (W64 → W64 → W64)) :=
  [ (.mul, fun x y => x * y), (.mulh, fun x y => BitVec.ofInt 64 (x.toInt * y.toInt / 2 ^ 64))
  , (.mulhu, fun x y => BitVec.ofNat 64 (x.toNat * y.toNat / 2 ^ 64)) ]

/-- The products with the immediate (R91). -/
def productImmWords : List ((Fld → Instr) × (W64 → W64 → W64)) :=
  [ (.mulI, fun x y => x * y), (.mulhI, fun x y => BitVec.ofInt 64 (x.toInt * y.toInt / 2 ^ 64))
  , (.mulhuI, fun x y => BitVec.ofNat 64 (x.toNat * y.toNat / 2 ^ 64)) ]

/-- The counts of one register (R91): leading zeros and trailing zeros, 64 for zero, and ones. -/
def countWords : List ((Fld → Instr) × (W64 → Nat)) :=
  [ (.clz, fun x => if x = 0 then 64 else 63 - x.toNat.log2)
  , (.ctz, fun x => ((List.range 64).find? fun i => x.getLsbD i).getD 64)
  , (.popc, fun x => ((List.range 64).filter fun i => x.getLsbD i).length) ]

/-- The compares of two registers (R93). -/
def cmpWords : List ((Fld → Instr) × (W64 → W64 → Bool)) :=
  [ (.ceq, fun x y => x == y), (.cne, fun x y => x != y), (.clt, fun x y => x.slt y), (.cltu, fun x y => x.ult y)
  , (.cle, fun x y => x.sle y), (.cleu, fun x y => x.ule y) ]

/-- The compares of a register with the immediate (R93). -/
def cmpImmWords : List ((Fld → Instr) × (W64 → W64 → Bool)) :=
  [ (.ceqI, fun x y => x == y), (.cneI, fun x y => x != y), (.cltI, fun x y => x.slt y), (.cltuI, fun x y => x.ult y)
  , (.cleI, fun x y => x.sle y), (.cleuI, fun x y => x.ule y) ]

/-- Predicate logic of two slots (R94). -/
def slot2Words : List ((Fld → Instr) × (Bool → Bool → Bool)) :=
  [ (.pand, fun a b => a && b), (.por, fun a b => a || b), (.pxor, fun a b => a ^^ b), (.pandn, fun a b => a && !b) ]

/-- Predicate logic of one slot (R94). -/
def slot1Words : List ((Fld → Instr) × (Bool → Bool)) := [ (.pnot, fun a => !a), (.pmov, fun a => a) ]

/-- The constants of predicate logic (R94). -/
def slot0Words : List ((Fld → Instr) × Bool) := [ (.pset, true), (.pclr, false) ]

/-- None of the scalar registers of a list waits for a reply (R82). -/
def regsReady (s : State) (c : CoreId) (e : Engine) (l : List RegCode) : Bool := l.all fun r => !pendingReg (s.core c) e r

/-- Every predicate slot of a list is written (R60). -/
def slotsReady (s : State) (c : CoreId) (e : Engine) (l : List RegCode) : Bool :=
  l.all fun r => slotWritten (s.core c) (inTrap (s.core c) e) (slotNo r)

/-- The words that write one scalar register and nothing else, with the registers and the slots that they name. -/
def regWords : List ((Fld → Instr) × (Fld → List RegCode) × (Fld → List RegCode)) :=
  (aluWords.map fun p => (p.1, fun f => [f.a, f.b, f.d], fun _ => [])) ++
  (aluImmWords.map fun p => (p.1, fun f => [f.a, f.d], fun _ => [])) ++
  (countWords.map fun p => (p.1, fun f => [f.a, f.d], fun _ => [])) ++
  [ (.movi, fun f => [f.d], fun _ => []), (.movhi, fun f => [f.d], fun _ => [])
  , (.sel, fun f => [f.a, f.b, f.d], fun f => [f.c]), (.lpr, fun f => [f.d], fun _ => [])
  , (.gget, fun f => [f.d], fun _ => []) ]

/-- The words that change one predicate slot and nothing else, with the registers and the slots that they read. -/
def slotWords : List ((Fld → Instr) × (Fld → List RegCode) × (Fld → List RegCode)) :=
  (cmpWords.map fun p => (p.1, fun f => [f.a, f.b], fun _ => [])) ++
  (cmpImmWords.map fun p => (p.1, fun f => [f.a], fun _ => [])) ++
  (slot2Words.map fun p => (p.1, fun _ => [], fun f => [f.a, f.b])) ++
  (slot1Words.map fun p => (p.1, fun _ => [], fun f => [f.a])) ++
  (slot0Words.map fun p => (p.1, fun _ => [], fun _ => [])) ++
  [ (.pvoid, fun _ => [], fun _ => []) ]

/-- No running stage range holds the slot, or the word is one of a handler (R95). -/
def slotFree (s : State) (c : CoreId) (e : Engine) (code : RegCode) : Bool :=
  inTrap (s.core c) e || !inStageRange (s.core c) (slotNo code)

/-- A slot as the word reads it. -/
def slotIn (s : State) (c : CoreId) (e : Engine) (code : RegCode) : Bool :=
  slotVal (s.core c) (inTrap (s.core c) e) (slotNo code)

end Sys2Proof.Claims

open Sys2Proof Sys2Proof.Machine Sys2Proof.Claims


/-! ### Encodings -/

/-- R53, R56, R57, R70-R75: for every well-formed engine instruction, in every place of a stream, the bytes that memory
holds for it decode there to it, with every field at every value that the encoding admits. -/
def Obligations.EngineWordRoundTrip : Prop :=
  ∀ (p : Where) (i : Instr) (r : List Byte), wellFormed p i = true → (encodeWord i).isSome = true →
    (encode i).length = 12 ∧ decodeBytes (.stream p) (encode i ++ r) = .ok (i, r)

/-- R172, R174, R378, R383: the same of every well-formed cairn instruction and of every well-formed dresser instruction. -/
def Obligations.UnitWordRoundTrip : Prop :=
  (∀ (p : Where) (i : Instr) (r : List Byte), wellFormed p i = true → (encodeCairn i).isSome = true →
     (encode i).length = 4 ∧ decodeBytes .kernel (encode i ++ r) = .ok (i, r)) ∧
  (∀ (p : Where) (i : Instr) (r : List Byte), wellFormed p i = true → (toDress i).isSome = true →
     (encode i).length = 8 ∧ decodeBytes .dressing (encode i ++ r) = .ok (i, r))


/-- R57, R76, R378, R172: a word that the decoder accepts is the encoding of the instruction read, which is well formed; no
two words stand for one instruction, and no bit of a word is passed over. -/
def Obligations.DecodedWordIsItsEncoding : Prop :=
  (∀ (p : Where) (w : BitVec 96) (i : Instr), decodeWord p w = .ok i → encodeWord i = some w ∧ wellFormed p i = true) ∧
  (∀ (w : W32) (i : Instr), decodeCairn w = .ok i → encodeCairn i = some w) ∧
  (∀ (w : W64) (i : Instr), decodeDress w = .ok i → toDress i = some w)

/-- The words of some of the manual's examples, and a word of each kind of memory written out from its encoding. -/
def Obligations.SampleWordsDecode : Prop :=
  let lead := Where.plain .lead
  let h (dly : BitVec 8) (g : BitVec 4) (gs : Bool) : Head := { dly, g, gs }
  decodeWord lead 0x090328005060000FFFFFFFF4 = .ok (.addI { h := h 3 2 true, d := 5, a := 6, b := 0, c := 0, imm := 0xFFFFFFFF4 }) ∧
  decodeWord lead 0 = .error .wrongClass ∧
  decodeCairn 0x00A60000 = .ok (.cAdd 5 3 0 0) ∧
  decodeCairn 0xB4000000 = .ok .cDrop ∧
  decodeDress 0x7300000000000080 = .ok (.emit 3 128)

/-! ### Steps -/

/-- R53-R56, R376, R171, R172: a step runs the decoded instruction. When the schedule names an engine whose next word is whole and
decodes, the step is `exec` of that instruction, which is well formed at that place, with nothing around it; the same of a word of a run
on a cairn core and of a word of a dressing program; an event of the schedule is run as it stands, and an empty schedule changes nothing.
(The order of the schedule is the model's own: log 2.) -/
def Obligations.StepRunsInstruction : Prop :=
  (∀ (s : State) (c : CoreId) (e : Engine) (r : List Move) (i : Instr), s.sched = .word c e :: r →
     let u := { s with sched := r, issuer := .eng c e }
     wordReady u c e = true → (nextOf u c e).detail = 0 → (nextOf u c e).fetched = true → (nextOf u c e).bad = false →
     decodeWord (whereOf (u.core c) e) (nextOf u c e).bits = .ok i →
     step s = exec i u ∧ wellFormed (whereOf (u.core c) e) i = true) ∧
  ((∀ (s : State) (k : Fin 64) (r : List Move) (x : Run) (i : Instr), s.sched = .cairn k :: r →
     let u := { s with sched := r, issuer := .cairn k }
     runOn u k = some x → runEnded x = false → decodeCairn (x.m.k.kernel.getD x.pc 0) = .ok i → step s = exec i u) ∧
   (∀ (s : State) (k : ClusterId) (r : List Move) (w : W64) (i : Instr), s.sched = .dress k w :: r → decodeDress w = .ok i →
     step s = exec i { s with sched := r, issuer := .dress k }) ∧
   (∀ (s : State) (r : List Move) (i : Instr), s.sched = .event i :: r → encode i = [] →
     step s = exec i { s with sched := r }) ∧
   (∀ s : State, s.sched = [] → step s = .next s))


/-- R53-R55: the word that an engine issues next. Past its header, the bits are the three units that its fetch buffer holds
from the word's address on, the first unit the most significant. -/
def Obligations.NextWordIsFetched : Prop :=
  ∀ (s : State) (c : CoreId) (e : Engine) (a b d : Unit32),
    let p := posOf (s.core c) e
    let buf := bufOf (s.core c) e
    p.hdr = false → sget none buf (wordAddr p) = some a → sget none buf (wordAddr p + 4) = some b →
    sget none buf (wordAddr p + 8) = some d →
    nextOf s c e = { pos := p, name := (p.pitch, p.off), waits := [], detail := 0, fetched := true, bad := a.bad || b.bad || d.bad, bits := a.val ++ b.val ++ d.val }

/-! ### Reset, and what every step keeps -/

/-- A register of the device region as a read returns it. -/
def Claims.reg (s : State) (off : Nat) : W64 := regRead s (regAt (0x40000000000 + off))

/-- R41, R125, R130, R168, R183, R193, R198, R221, R339, R347, R365, R367, R400, R423, R428, R437, R438, R444, R448: the registers of
every core and of the device region read the reset values of their field maps. Memory is in canonical form at reset, with nothing
listed. That memory lists nothing is the reading of log 19, and that these values stand before bring-up that of log 12. -/
def Obligations.ResetState : Prop :=
  (∀ (c : CoreId) (e : Engine), csrValue State.reset c e 0x047 = 2 ^ 60 - 1 ∧
    ∀ n ∈ [0x040, 0x041, 0x042, 0x043, 0x044, 0x045, 0x046, 0x048, 0x049, 0x04A, 0x04B, 0x04C, 0x04D, 0x04E, 0x050, 0x051, 0x052, 0x054, 0x055, 0x056,
      0x057, 0x058, 0x05A, 0x060, 0x061, 0x062, 0x063, 0x064, 0x065, 0x066, 0x067], csrValue State.reset c e n = 0) ∧
  (∀ p ∈ [(0x1000, 4), (0x1008, 0), (0x1010, 0), (0x1020, 0), (0x1028, 0), (0x1038, 0), (0x1040, 0), (0x82000, 10000), (0xA0000, 0), (0xB0000, 4),
      (0xB0008, 0), (0xB0010, 0), (0xC0008, 0), (0xC0010, 2800)], Claims.reg State.reset p.1 = BitVec.ofNat 64 p.2) ∧
  (∀ p, p < 24 → ∀ r, r < 3 → Claims.reg State.reset (0x20000 + 0x40 * p + 8 * r) = 0) ∧
  (∀ j, j < 16 → ∀ r, r < 4 → Claims.reg State.reset (0x30000 + 32 * j + 8 * r) = 0) ∧
  (∀ i, i < 256 → Claims.reg State.reset (0x60000 + 0x20 * i) = 0 ∧ Claims.reg State.reset (0x60008 + 0x20 * i) = 4 * 2 ^ 40) ∧
  (∀ v, v < 128 → Claims.reg State.reset (0x80000 + 0x40 * v) = 32 * 2 ^ 52) ∧
  State.reset.memOk ∧ State.reset.mem = { hbm := [], lineKey := [], poison := [], host := [] }

/-- Every step keeps memory and the faces in canonical form: in each table the keys rise strictly and no listed value is what an
unlisted key reads as, so that equal memories are equal data. The canonical form is the model's own (log 19). -/
def Obligations.StepKeepsMemoryCanonical : Prop := ∀ s t : State, s.memOk → step s = .next t → t.memOk
/-! ### Scalar words -/

/-- R86, R90-R92: a register or immediate ALU word (not a product), and `movi`, reads its sources at its issue and leaves the state in
which d holds the result; at the AP, in LEAD's stream and in a trap handler. -/
def Obligations.AluResult : Prop :=
  (∀ p ∈ aluWords, ∀ (s : State) (c : CoreId) (e : Engine) (f : Fld),
     issues s c e (p.1 f) = true → regsReady s c e [f.a, f.b, f.d] = true →
     exec (p.1 f) s = .next (coreNext s c e (writeReg e f.d (p.2 (readReg (s.core c) e f.a) (readReg (s.core c) e f.b))))) ∧
  (∀ (s : State) (c : CoreId) (e : Engine) (f : Fld),
     (∀ p ∈ aluImmWords, issues s c e (p.1 f) = true → regsReady s c e [f.a, f.d] = true →
       exec (p.1 f) s = .next (coreNext s c e (writeReg e f.d (p.2 (readReg (s.core c) e f.a) (f.imm.signExtend 64))))) ∧
     (issues s c e (.movi f) = true → regsReady s c e [f.d] = true →
       exec (.movi f) s = .next (coreNext s c e (writeReg e f.d (f.imm.signExtend 64)))))


/-- R86, R88, R91: a product writes d at its issue in the AP and in a handler; in LEAD's stream it leaves d and its value as a write
that lands two ticks after issue. R91, R92, R96, R110, R153: counts, `movhi`, `sel`, `lpr` and `gget` write d at their issue. -/
def Obligations.ProductCountMoveResult : Prop :=
  (∀ (s : State) (c : CoreId) (e : Engine) (f : Fld) (i : Instr) (v : W64),
     ((∃ p ∈ productWords, i = p.1 f ∧ v = p.2 (readReg (s.core c) e f.a) (readReg (s.core c) e f.b) ∧
         regsReady s c e [f.a, f.b, f.d] = true) ∨
      (∃ p ∈ productImmWords, i = p.1 f ∧ v = p.2 (readReg (s.core c) e f.a) (f.imm.signExtend 64) ∧
         regsReady s c e [f.a, f.d] = true)) →
     issues s c e i = true →
     (timedAt s c e = false → exec i s = .next (coreNext s c e (writeReg e f.d v))) ∧
     (timedAt s c e = true → exec i s = .next (coreNext s c e fun x => { x with latches := x.latches ++
       [{ eng := e, code := f.d, q := 0, due := (s.cluster c.cluster).clk + 2, val := v.setWidth 8192
          pitch := (nextOf s c e).pos.pitch, word := (nextOf s c e).pos.off, at_ := (s.cluster c.cluster).clk, work := false }] }))) ∧
  (∀ (s : State) (c : CoreId) (e : Engine) (f : Fld), regsReady s c e [f.d] = true →
     (∀ p ∈ countWords, issues s c e (p.1 f) = true → regsReady s c e [f.a] = true →
       exec (p.1 f) s = .next (coreNext s c e (writeReg e f.d (BitVec.ofNat 64 (p.2 (readReg (s.core c) e f.a)))))) ∧
     (issues s c e (.movhi f) = true →
       exec (.movhi f) s = .next (coreNext s c e (writeReg e f.d
         (f.imm.extractLsb' 0 28 ++ (readReg (s.core c) e f.d).extractLsb' 0 36)))) ∧
     (issues s c e (.sel f) = true → regsReady s c e [f.a, f.b] = true → slotsReady s c e [f.c] = true →
       exec (.sel f) s = .next (coreNext s c e (writeReg e f.d
         (if slotIn s c e f.c then readReg (s.core c) e f.a else readReg (s.core c) e f.b)))) ∧
     (issues s c e (.lpr f) = true →
       exec (.lpr f) s = .next (coreNext s c e (writeReg e f.d
         (loopReg (s.core c) e (immBits f 4 2) (immBits f 0 3))))) ∧
     (issues s c e (.gget f) = true →
       exec (.gget f) s = .next (coreNext s c e (writeReg e f.d (vget (s.core c).ap.geo (immBits f 0 3) 0)))))


/-- R86, R93, R94: a compare writes slot d with its relation; predicate logic; `pvoid` makes slot d unwritten. -/
def Obligations.CompareAndPredicateResult : Prop :=
  (∀ (s : State) (c : CoreId) (e : Engine) (f : Fld), slotFree s c e f.d = true →
     (∀ p ∈ cmpWords, issues s c e (p.1 f) = true → regsReady s c e [f.a, f.b] = true →
       exec (p.1 f) s = .next (coreNext s c e (writeSlot (inTrap (s.core c) e) (slotNo f.d)
         (p.2 (readReg (s.core c) e f.a) (readReg (s.core c) e f.b))))) ∧
     (∀ p ∈ cmpImmWords, issues s c e (p.1 f) = true → regsReady s c e [f.a] = true →
       exec (p.1 f) s = .next (coreNext s c e (writeSlot (inTrap (s.core c) e) (slotNo f.d)
         (p.2 (readReg (s.core c) e f.a) (f.imm.signExtend 64)))))) ∧
  (∀ (s : State) (c : CoreId) (e : Engine) (f : Fld), slotFree s c e f.d = true →
     (∀ p ∈ slot2Words, issues s c e (p.1 f) = true → slotsReady s c e [f.a, f.b] = true →
       exec (p.1 f) s = .next (coreNext s c e (writeSlot (inTrap (s.core c) e) (slotNo f.d)
         (p.2 (slotIn s c e f.a) (slotIn s c e f.b))))) ∧
     (∀ p ∈ slot1Words, issues s c e (p.1 f) = true → slotsReady s c e [f.a] = true →
       exec (p.1 f) s = .next (coreNext s c e (writeSlot (inTrap (s.core c) e) (slotNo f.d) (p.2 (slotIn s c e f.a))))) ∧
     (∀ p ∈ slot0Words, issues s c e (p.1 f) = true →
       exec (p.1 f) s = .next (coreNext s c e (writeSlot (inTrap (s.core c) e) (slotNo f.d) p.2))) ∧
     (issues s c e (.pvoid f) = true →
       exec (.pvoid f) s = .next (coreNext s c e (voidSlot (inTrap (s.core c) e) (slotNo f.d)))))


/-- R60, R61, R86, R94, R129: what writes and reads of registers and slots do: a register or slot that has been written
reads back, in whichever bank the engine's state selects, but s0 reads zero whatever is written to it. -/
def Obligations.RegisterReadBack : Prop :=
  (∀ (e : Engine) (d : RegCode) (v : W64) (x : Core),
    readReg (writeReg e d v x) e d = if e ≠ .ap ∧ d.toNat % 32 = 0 then 0 else v) ∧
  (∀ (e : Engine) (d r : RegCode) (v : W64) (x : Core), r.toNat % 32 ≠ d.toNat % 32 →
    readReg (writeReg e d v x) e r = readReg x e r) ∧
  (∀ (e : Engine) (d : RegCode) (v : W64) (x : Core), e ≠ .ap → d.toNat % 32 = 0 → writeReg e d v x = x) ∧
  (∀ (hnd : Bool) (i j : Fin 15) (b : Bool) (x : Core),
    slotWritten (writeSlot hnd i b x) hnd j = (decide (j = i) || slotWritten x hnd j) ∧
    slotVal (writeSlot hnd i b x) hnd j = if j = i then b else slotVal x hnd j) ∧
  (∀ (hnd : Bool) (i j : Fin 15) (x : Core),
    slotWritten (voidSlot hnd i x) hnd j = (decide (j ≠ i) && slotWritten x hnd j))

/-- The frame of the words that write one scalar register, and of those that change one predicate slot: every other register of
every bank, every other predicate slot (unless the word ends a loop body), all other state of the core but its stream's place,
every other core and cluster, and every byte of memory are unchanged. -/
def Obligations.ScalarWordFrame : Prop :=
  (∀ w ∈ regWords, ∀ (s : State) (c : CoreId) (e : Engine) (f : Fld),
     issues s c e (w.1 f) = true → regsReady s c e (w.2.1 f) = true → slotsReady s c e (w.2.2 f) = true →
     ∃ t, exec (w.1 f) s = .next t ∧ RegsExcept e f.d (s.core c) (t.core c) ∧
       (endsNoLoop s c e = true → SlotsSame (s.core c) (t.core c)) ∧ ScalarsOnly (s.core c) (t.core c) ∧
       OtherStreams e (s.core c) (t.core c) ∧ OthersSame c s t ∧ ClustersKept c.cluster s t ∧ PackageSame s t) ∧
  (∀ w ∈ slotWords, ∀ (s : State) (c : CoreId) (e : Engine) (f : Fld),
     issues s c e (w.1 f) = true → regsReady s c e (w.2.1 f) = true → slotsReady s c e (w.2.2 f) = true →
     slotFree s c e f.d = true →
     ∃ t, exec (w.1 f) s = .next t ∧ RegsSame (s.core c) (t.core c) ∧
       (endsNoLoop s c e = true → SlotsExcept (inTrap (s.core c) e) (slotNo f.d) (s.core c) (t.core c)) ∧
       ScalarsOnly (s.core c) (t.core c) ∧ OtherStreams e (s.core c) (t.core c) ∧ OthersSame c s t ∧
       ClustersKept c.cluster s t ∧ PackageSame s t)


/-- R97, R103, R110, R153: `gate` on a written slot only moves its stream on; `idle` also delays the stream's next word by
its count; `lpw` writes the engine's own loop register and `gset` a geometry register. -/
def Obligations.StreamWordResult : Prop :=
  ∀ (s : State) (c : CoreId) (e : Engine) (f : Fld),
    (issues s c e (.gate f) = true → slotsReady s c e [f.a] = true → exec (.gate f) s = .next (coreNext s c e fun x => x)) ∧
    (issues s c e (.idle f) = true →
      exec (.idle f) s = .next (endWord s c e (s.modCore c (movedOn s c e f.imm.toNat none)))) ∧
    (issues s c e (.lpw f) = true → regsReady s c e [f.a] = true →
      exec (.lpw f) s = .next (coreNext s c e fun x => x.modStream e fun t => putLevel t (immBits f 4 2)
        (setLoopReg (immBits f 0 3) (readReg (s.core c) e f.a) (levelOf t (immBits f 4 2))))) ∧
    (issues s c e (.gset f) = true → regsReady s c e [f.a] = true →
      exec (.gset f) s = .next (coreNext s c e fun x => { x with ap := { x.ap with
        geo := vset x.ap.geo (immBits f 0 3) (readReg (s.core c) e f.a) } }))

/-! ### Streams, guards and loops -/

/-- R11, R59: a word whose guard is written and false is a null: its stream moves on past it as past any word, its loops are resolved,
and nothing else changes, whatever the word is. R12, R19, R30, R31, R103, R107, R122: what moving past a word does to its stream (every
statement about a word uses `movedOn`): the position after a word that ends no loop body, with `last` at the present tick in a
timed stream; the back-edge of a loop, with ROT, the index and the stage slots; the exit of a loop; and a handler's word, which moves the
handler's position alone. -/
def Obligations.StreamMovesOn : Prop :=
  (∀ (s : State) (c : CoreId) (e : Engine) (i : Instr), issuesNull s c e i = true → rdvFormOf i = none →
     ∃ t, exec i s = .next t ∧ t = coreNext s c e (fun x => x) ∧ RegsSame (s.core c) (t.core c) ∧
       (endsNoLoop s c e = true → SlotsSame (s.core c) (t.core c)) ∧ ScalarsOnly (s.core c) (t.core c) ∧
       OtherStreams e (s.core c) (t.core c) ∧ OthersSame c s t ∧ ClustersKept c.cluster s t ∧ PackageSame s t) ∧
  (∀ (s : State) (c : CoreId) (e : Engine) (idle : Nat),
     let x := s.core c
     let n := nextOf s c e
     let y := movedOn s c e idle none x
     (inTrap x e = false → inIntr x e = false → endsNoLoop s c e = true →
       y = x.modStream e fun t => { t with
         pos := if n.pos.off + 1 < n.pos.wc then { n.pos with off := n.pos.off + 1 }
                else { n.pos with base := n.pos.base + 12 * n.pos.wc, off := 0, hdr := true }
         first := false, last := if e.timed then (s.cluster c.cluster).clk else t.last, extra := idle
         ret := if n.pos.off + 1 < n.pos.wc ∧ n.pos.hdr = false then t.ret else n.pos.pitch }) ∧
     (∀ m : Fin 4, inTrap x e = false → inIntr x e = false →
       (∀ j : Fin 4, m.val < j.val → ¬((levelOf (x.stream e) j).act = true ∧ (levelOf (x.stream e) j).last = n.pos.off)) →
       (levelOf (x.stream e) m).act = true → (levelOf (x.stream e) m).last = n.pos.off →
       let l := levelOf (x.stream e) m
       (l.done + 1 ≠ l.aCnt.toNat + l.aEpi.toNat →
         (y.stream e).pos = { n.pos with off := l.first } ∧ (y.stream e).rot = (x.stream e).rot + 1 ∧
         levelOf (y.stream e) m = { l with done := l.done + 1, idx := l.idx + 1 } ∧
         (∀ j : Fin 4, j ≠ m → levelOf (y.stream e) j = levelOf (x.stream e) j) ∧
         (l.stage = false → SlotsSame x y) ∧
         (l.stage = true → 0 < l.ns.toNat → l.pf.toNat + l.ns.toNat ≤ 15 → ∀ i : Fin 15,
           slotVal y false i = if i.val = l.pf.toNat then decide (l.done + 1 < l.aCnt.toNat)
             else if l.pf.toNat < i.val ∧ i.val < l.pf.toNat + l.ns.toNat then slotVal x false (i.val - 1)
             else slotVal x false i)) ∧
       (l.done + 1 = l.aCnt.toNat + l.aEpi.toNat →
         (∀ j : Fin 4, j.val < m.val → ¬((levelOf (x.stream e) j).act = true ∧ (levelOf (x.stream e) j).last = n.pos.off)) →
         (y.stream e).pos = (if n.pos.off + 1 < n.pos.wc then { n.pos with off := n.pos.off + 1 }
           else { n.pos with base := n.pos.base + 12 * n.pos.wc, off := 0, hdr := true }) ∧
         (y.stream e).rot = (x.stream e).rot ∧ levelOf (y.stream e) m = { l with act := false } ∧ SlotsSame x y)) ∧
     (inTrap x e = true → y = { x with trap := { x.trap with hpos := posAfter n.pos } }) ∧
     (inTrap x e = false → inIntr x e = true → y = { x with ap := { x.ap with uiPos := posAfter n.pos } }))


/-- R104-R106, R46: a legal `loop` or `loop.st` opens its level from the word or from the level's registers, `loop.st` with the first
stage slot true if the count is not zero and the others false; a loop of no iterations at all skips its body. That a skipped loop
resolves no outer level on its end word is a reading (log 27). -/
def Obligations.LoopOpensOrSkips : Prop :=
  ∀ (s : State) (c : CoreId) (e : Engine) (f : Fld) (st : Bool),
    let i : Instr := if st then .loopSt f else .loop f
    let x := s.core c
    let n := loopLv f
    let t := x.stream e
    let off := (nextOf s c e).pos.off
    let l : Level :=
      if loopRg f then levelOf t n
      else { levelOf t n with
        cnt := if f.a = 0 then BitVec.ofNat 32 (immBits f 8 12) else (readReg x e f.a).setWidth 32
        start := 0, lend := BitVec.ofNat 10 (immBits f 23 10), epi := BitVec.ofNat 3 (immBits f 20 3) }
    let last := off + l.lend.toNat
    issues s c e i = true → (f.a = 0 ∨ regsReady s c e [f.a] = true) →
    spatial x n = false → last < (nextOf s c e).pos.wc → kindOf x n ≠ 0 → runsFrom t n = false → l.lend ≠ 0 →
    beyondOuter t n last = false →
    (st = true → immBits f 4 4 + immBits f 0 4 ≤ 15 ∧ stageOverlap x (immBits f 4 4) (immBits f 0 4) = false) →
    (l.cnt.toNat + l.epi.toNat = 0 →
      exec i s = .next (endWord s c e (s.modCore c fun x =>
        (movedOn s c e 0 (some last) x).modStream e fun t => putLevel t n l))) ∧
    (l.cnt.toNat + l.epi.toNat ≠ 0 →
      exec i s = .next (coreNext s c e fun x =>
        (if st then (List.range (immBits f 0 4)).foldl
            (fun x j => writeSlot false (immBits f 4 4 + j) (decide (l.cnt ≠ 0) && decide (j = 0)) x) x
         else x).modStream e fun t => putLevel t n { l with
          idx := l.start, act := true, aCnt := l.cnt, aStart := l.start, aEnd := l.lend, aEpi := l.epi, stage := st
          pf := if st then BitVec.ofNat 4 (immBits f 4 4) else 0, ns := if st then BitVec.ofNat 4 (immBits f 0 4) else 0
          done := 0, first := off + 1, last }))

namespace Sys2Proof.Claims

/-- The loads (R146): bytes, and whether the value is sign-extended. -/
def loadWords : List ((Fld → Instr) × Nat × Bool) :=
  [ (.ldB, 1, false), (.ldH, 2, false), (.ldW, 4, false), (.ldD, 8, false), (.ldBs, 1, true), (.ldHs, 2, true), (.ldWs, 4, true) ]

/-- The stores (R146): bytes. -/
def storeWords : List ((Fld → Instr) × Nat) := [ (.stB, 1), (.stH, 2), (.stW, 4), (.stD, 8) ]

/-- The atomics (R149): the new value from the number of bits, the old value and the operands x and y; none for no write. -/
def amoWords : List ((Bool → BitVec 2 → Fld → Instr) × (Nat → Nat → Nat → Nat → Option Nat)) :=
  [ (.amoAdd, fun b m x _ => some ((m + x) % 2 ^ b))
  , (.amoMin, fun b m x _ => some (if sintN b m ≤ sintN b x then m else x))
  , (.amoMax, fun b m x _ => some (if sintN b x ≤ sintN b m then m else x))
  , (.amoMinu, fun _ m x _ => some (min m x)), (.amoMaxu, fun _ m x _ => some (max m x))
  , (.amoAnd, fun _ m x _ => some (m &&& x)), (.amoOr, fun _ m x _ => some (m ||| x))
  , (.amoXor, fun _ m x _ => some (m ^^^ x)), (.amoSwap, fun _ _ x _ => some x)
  , (.amoCas, fun _ m x y => if m = y then some x else none) ]

/-- The effective address (R145): S(a) plus the sign-extended immediate, modulo 2^64. -/
def effAddr (s : State) (c : CoreId) (e : Engine) (f : Fld) : Nat := (readReg (s.core c) e f.a + f.imm.signExtend 64).toNat

/-- The state in which the stream has moved past its word. -/
def movedState (s : State) (c : CoreId) (e : Engine) : State := s.modCore c (movedOn s c e 0 none)

/-- The state of a core with other leaves and pointers in its TLB and walk cache. -/
def OnlyTlb (c : CoreId) (s t : State) : Prop :=
  ∃ l w, t = s.modCore c fun x => { x with ap := { x.ap with tlb := l, walks := w } }

/-- A translation and what it leaves, if it succeeds. -/
def translates (s : State) (c : CoreId) (va n : Nat) (acc : Access) (ps : List Piece) (t : State) : Prop :=
  translateRange s c va n acc = .ok (ps, t)

/-- Every byte of device and host memory outside a list of 128-byte lines reads as before, for every face and world. -/
def OtherLinesSame (lines : List Nat) (s t : State) : Prop :=
  ∀ (f : Fin 4) (v : World) (pa : Nat), pa / 128 ∉ lines → seesByte t f v pa = seesByte s f v pa

end Sys2Proof.Claims

/-! ### Memory words of an AP -/

/-- R88, R145, R146, R150, R315, R316: a load whose access brings bytes writes d with their little-endian value, zero- or sign-
extended. Bytes of the AP's own waiting stores come first, each the youngest; a load of a byte of HBM through no held line brings
what the AP's face sees under the core's world, and no other core changes. That a load takes its value at its issue, and which
line it holds afterwards, is the model's choice (log 21). -/
def Obligations.LoadResult : Prop :=
  (∀ p ∈ loadWords, ∀ (s : State) (c : CoreId) (e : Engine) (f : Fld) (l : List Byte) (t : State),
     untimedGo s c e (p.1 f) = true → regsReady s c e [f.a, f.d] = true →
     (∃ l' t', loadGot c (effAddr s c e f) p.2.1 s = .bytes l' t') →
     loadGot c (effAddr s c e f) p.2.1 (movedState s c e) = .bytes l t →
     exec (p.1 f) s = .next (flushRegs (t.modCore c (writeReg e f.d
       (if p.2.2 then (BitVec.ofNat (8 * p.2.1) (natOfBytes l)).signExtend 64 else BitVec.ofNat 64 (natOfBytes l)))))) ∧
  ((∀ (s t : State) (c : CoreId) (va n : Nat) (ps : List Piece), (s.core c).ap.host = none → va < 2 ^ 64 → translates s c va n .read ps t →
     (∀ i < n, (forwardByte (va + i) (t.core c).ap.storeQ none).isSome = true) →
     loadGot c va n s = .bytes ((List.range n).map fun i => (forwardByte (va + i) (t.core c).ap.storeQ none).getD 0) t) ∧
   (∀ (s t : State) (c : CoreId) (va : Nat) (p : Piece), (s.core c).ap.host = none → translates s c va 1 .read [p] t → p.va = va → p.len = 1 →
     forwardByte va (t.core c).ap.storeQ none = none → inHbm p.pa 1 = true → heldLine (t.core c) va = none →
     t.memOk → ∀ b, seesByte t c.face (t.core c).csr.world p.pa = some b →
     ∃ u, loadGot c va 1 s = .bytes [b] u ∧ ∀ d, d ≠ c → u.core d = t.core d))


/-- R145, R146, R314: a store whose range translates puts the low bytes of S(b) into the AP's store queue, byte i at virtual address
EA + i with the physical address of its page; d, memory and everything else are unchanged. R150, R314, R315: after an aligned
store to one page, a byte of the stored range reads back from the store queue as stored, and every other virtual address reads
from the queue as before. AP_STORE_DRAIN performs the oldest store of the queue: a store of one byte of HBM is then seen by the
AP's face under the store's world at the address that the queue holds, where that face could read the byte before; every byte of
every other line reads as before for every face and world; and no core of another face changes. That stores leave the queue whole
and in order is the model's choice (log 21). -/
def Obligations.StoreResult : Prop :=
  (∀ p ∈ storeWords, ∀ (s : State) (c : CoreId) (e : Engine) (f : Fld) (ps : List Piece) (t : State),
     untimedGo s c e (p.1 f) = true → regsReady s c e [f.a, f.b] = true →
     (∃ ps' t', translates s c (effAddr s c e f) p.2 .write ps' t') →
     translates (movedState s c e) c (effAddr s c e f) p.2 .write ps t →
     exec (p.1 f) s = .next (t.modCore c (pushStores (storeOps (t.core c) none
       (if effAddr s c e f % p.2 = 0 then ps else byteParts ps) (bytesOfNat p.2 (readReg (s.core c) e f.b).toNat)))) ∧
     OnlyTlb c (movedState s c e) t ∧ SameMemory s t) ∧
  ((∀ (x y : Core) (p : Piece) (l : List Byte), p.len = l.length → y.ap.storeQ = x.ap.storeQ →
      let z := pushStores (storeOps x none [p] l) y
      (∀ i < l.length, forwardByte (p.va + i) z.ap.storeQ none = l[i]?) ∧
      (∀ va, va < p.va ∨ p.va + l.length ≤ va → forwardByte va z.ap.storeQ none = forwardByte va x.ap.storeQ none)) ∧
   (∀ (s : State) (c : CoreId) (o : StoreOp) (r : List StoreOp) (pa : Nat) (b : Byte),
      (s.core c).ap.storeQ = o :: r → o.cells = [(pa, b)] → inHbm pa 1 = true → s.regq = [] → s.memOk →
      (∃ b', seesByte s c.face o.world pa = some b') →
      ∃ t, exec (.apStoreDrain c) s = .next t ∧ (t.core c).ap.storeQ = r ∧
        seesByte t c.face o.world pa = some b ∧ OtherLinesSame [pa / 128] s t ∧
        (∀ d, d.face ≠ c.face → t.core d = s.core d)))


/-- R149, R151, R182, R317: an atomic whose access brings the old value writes d with it; the new value that it stores is the one of
the word's function of the old value, S(b) and S(c), cut to the width. In host memory without a session the old bytes are returned
and the new value, if there is one, replaces them; every other byte of host and device memory is unchanged. That an unlisted byte
of host memory reads as zero is the model's choice (log 19). -/
def Obligations.AtomicResult : Prop :=
  (∀ p ∈ amoWords, ∀ (s : State) (c : CoreId) (e : Engine) (w : Bool) (ord : BitVec 2) (f : Fld) (l : List Byte) (t : State),
     let n := if w then 8 else 4
     let va := (readReg (s.core c) e f.a + (f.imm.extractLsb' 0 32).signExtend 64).toNat / n * n
     let new := fun old => p.2 (8 * n) old ((readReg (s.core c) e f.b).toNat % 2 ^ (8 * n)) ((readReg (s.core c) e f.c).toNat % 2 ^ (8 * n))
     let go := amoGot c (immBits f 32 4) va n (ord.getLsbD 1) (ord.getLsbD 0) new
     untimedGo s c e (p.1 w ord f) = true → regsReady s c e [f.a, f.b, f.d] = true →
     (p.1 w ord f = .amoCas w ord f → regsReady s c e [f.c] = true) →
     (∃ l' t', go s = .bytes l' t') → go (movedState s c e) = .bytes l t →
     exec (p.1 w ord f) s = .next (flushRegs (t.modCore c (writeReg e f.d (BitVec.ofNat 64 (natOfBytes l)))))) ∧
  (∀ (s : State) (c : CoreId) (scope va n : Nat) (new : Nat → Option Nat) (p : Piece) (r : List Piece),
     p.len = n → 0 < n → inHost p.pa = true → inRegs p.pa = false → sessionActive s c = false →
     let off := p.pa - 0x8_0000_0000_0000
     let old := sgets 0 s.mem.host off n
     ∃ t, amoMemory c scope va n new (p :: r) s = .bytes old t ∧
       t.mem.hbm = s.mem.hbm ∧ t.l2 = s.l2 ∧
       (new (natOfBytes old) = none → t.mem = s.mem ∧ t.cores = s.cores) ∧
       (∀ v, new (natOfBytes old) = some v →
         sgets 0 t.mem.host off n = bytesOfNat n v ∧ ∀ a, a < off ∨ off + n ≤ a → sget 0 t.mem.host a = sget 0 s.mem.host a))


/-- R151, R152, R318, R319: every fence completes once its AP waits for no completion, no store stands in its store queue and, at host
scope, no posted write of its must be flushed under a session: `fenceAcq` always; `fence`, `fenceRel`, `afence` (both orders at package
scope) and `mark` (a release at core scope) then and also with stores in the queue that can all leave it. With a release the AP's stores
have left the store queue, and at package scope and wider the dirty lines of its world in its face are written back; with an acquire at
package scope and wider its held lines are gone and the clean lines of its world are discarded. A release that must first read the host
under a session sends that read and waits. That the read goes out within the word's first attempt is the model's (log 50). -/
def Obligations.FenceResult : Prop :=
  (∀ (s : State) (c : CoreId) (e : Engine) (f : Fld),
    let u := movedState s c e
    let scope := immBits f 32 4
    let free (scope : Nat) : Prop := (s.core c).ap.host = none ∧ (s.core c).ap.storeQ = [] ∧
      (9 ≤ scope → (s.core c).ap.posted = true → sessionActive s c = false)
    let flush (scope : Nat) : State :=
      if 9 ≤ scope ∧ (s.core c).ap.posted = true then (clearRequest c flushPiece u).modCore c flushed else u
    (untimedGo s c e (.fenceAcq f) = true → exec (.fenceAcq f) s = .next (flushRegs (fenceAp c scope false true u))) ∧
    (untimedGo s c e (.fence f) = true → free scope →
      exec (.fence f) s = .next (flushRegs (fenceAp c scope true true (flush scope)))) ∧
    (untimedGo s c e (.fenceRel f) = true → free scope →
      exec (.fenceRel f) s = .next (flushRegs (fenceAp c scope true false (flush scope)))) ∧
    (untimedGo s c e (.afence f) = true → free 5 → exec (.afence f) s = .next (flushRegs (fenceAp c 5 true true u))) ∧
    (untimedGo s c e (.mark f) = true → free 2 → exec (.mark f) s = .next (flushRegs (fenceAp c 2 true false u)))) ∧
  (∀ (s : State) (c : CoreId) (e : Engine) (f : Fld),
    ∀ w ∈ [(.fence f, immBits f 32 4, true), (.fenceRel f, immBits f 32 4, false), (.afence f, 5, true), (.mark f, 2, false)],
      let (i, scope, acq) := w
      let u := movedState s c e
      untimedGo s c e i = true → (s.core c).ap.host = none →
      (scope < 9 → storesDone (drainAll c s) c = true → storesDone (drainAll c u) c = true →
        exec i s = .next (flushRegs (fenceAp c scope true acq (drainAll c u)))) ∧
      (storesDone (drainAll c s) c = false → exec i s = .next (flushRegs (drainAll c s))) ∧
      (9 ≤ scope → storesDone (drainAll c s) c = true → ((drainAll c s).core c).ap.posted = true →
        sessionActive (drainAll c s) c = true → exec i s = .next (flushRegs (askFlush c (drainAll c s))))) ∧
  (∀ (t : State) (c : CoreId) (scope : Nat) (acq : Bool), storesDone (drainAll c t) c = true →
    ((fenceAp c scope true acq t).core c).ap.storeQ = []) ∧
  (∀ (t : State) (c : CoreId) (scope : Nat) (rel : Bool), 5 ≤ scope → ((fenceAp c scope rel true t).core c).ap.held = [])

/-- R142, R147, R148, R154: the queue words and `pref`. `qld` reserves the next place of its load queue with the 4 KiB that
its range holds, which become visible with their arrival; `tok` pushes S(a) at once; `qst` puts the 4 KiB of the next
visible entry into the store queue; `pref` has its face fetch the line, and a `pref` that does not translate does nothing. -/
def Obligations.QueueWordResult : Prop :=
  ∀ (s : State) (c : CoreId) (e : Engine) (f : Fld),
    let u := movedState s c e
    let va := effAddr s c e f / 128 * 128
    (∀ l t, untimedGo s c e (.qld f) = true → regsReady s c e [f.a] = true →
      (vget (s.core c).vec.q (lqNo f.d) []).length < 4 → (∃ l' t', loadGot c va 4096 s = .bytes l' t') →
      loadGot c va 4096 u = .bytes l t →
      exec (.qld f) s = .next (flushRegs (t.modCore c (pushLq (lqNo f.d)
        { img := bvOfBytes 32768 l, pending := some (queuePieces c va s) })))) ∧
    (untimedGo s c e (.tok f) = true → regsReady s c e [f.a] = true → (vget (s.core c).vec.q (lqNo f.d) []).length < 4 →
      exec (.tok f) s = .next (coreNext s c e (pushLq (lqNo f.d)
        { img := (readReg (s.core c) e f.a).setWidth 32768, pending := none }))) ∧
    (∀ x ps t, untimedGo s c e (.qst f) = true → regsReady s c e [f.a] = true →
      visibleEntry (s.core c) (sqNo f.b) = some x → (∃ ps' t', translates s c va 4096 .write ps' t') →
      translates u c va 4096 .write ps t →
      exec (.qst f) s = .next (t.modCore c (pushStores (storeOps (t.core c) (some (Fin.ofNat 4 (sqNo f.b))) ps
        (bytesOfNat 4096 x.img.toNat))))) ∧
    (untimedGo s c e (.pref f) = true → regsReady s c e [f.a] = true →
      (∀ p r t, translates u c (effAddr s c e f) 1 .read (p :: r) t → p.len = 1 → inHbm p.pa 1 = true →
        exec (.pref f) s = .next (l2Read t c.face (t.core c).csr.world (p.pa / 128)).2.2) ∧
      (∀ x, translateRange u c (effAddr s c e f) 1 .read = .error x → exec (.pref f) s = .next u))


namespace Sys2Proof.Claims

/-- The CSR numbers that a chapter assigns (R98). -/
def csrNumbers : List Nat :=
  [ 0x040, 0x041, 0x042, 0x043, 0x044, 0x045, 0x046, 0x047, 0x048, 0x049, 0x04A, 0x04B, 0x04C, 0x04D, 0x04E, 0x050, 0x051, 0x052
  , 0x054, 0x055, 0x056, 0x057, 0x058, 0x05A, 0x060, 0x061, 0x062, 0x063, 0x064, 0x065, 0x066, 0x067, 0x068 ]

/-- The CSRs with fields that a word writes and reads back, each with its writable bits: SLIP, WDCMP, FRZLIM, TVEC, CVTSTAT
and TMSHAPE (R41, R125, R221, R339). -/
def csrFields : List (Nat × W64) :=
  [ (0x041, 0xFFFFFFFFFFFFFFFF), (0x044, 0xFFFFFFFFFFFFFFFF), (0x045, 0xFFFFFFFF), (0x04A, 0x000FFFFFFFFFFFC0)
  , (0x054, 0xFFFFFFFFFFFFFFFF), (0x056, 0xFFFFFFFF0000FCFF) ]

/-- The words that write a CSR, with how each forms the value from the old one and register a (R98). -/
def csrWords : List ((Fld → Instr) × CsrOp × (W64 → W64 → W64)) :=
  [ (.csrw, .write, fun _ v => v), (.csrs, .set, fun old v => old ||| v), (.csrc, .clear, fun old v => old &&& ~~~v) ]

/-- The scrub words by kind (R391). -/
def scrubWords : List ((Fld → Instr) × Nat) := [ (.scrubLedge, 0), (.scrubMem, 1), (.scrubL2, 2), (.scrubJoin, 3) ]

/-- None of the operands or the destination of a command waits for a reply (R82). -/
def commandReady (s : State) (c : CoreId) (e : Engine) (f : Fld) : Bool :=
  (decide (f.a = 0) || !pendingReg (s.core c) e f.a) && (decide (f.b = 0) || !pendingReg (s.core c) e f.b) &&
    (decide (f.d = 0) || if isSlot f.d then !pendingSlot s c (inTrap (s.core c) e) f.d else !pendingReg (s.core c) e f.d)

end Sys2Proof.Claims

/-! ### Control and status registers -/

/-- R41, R98, R125: `csrr` writes the register d with the CSR's value, after which the read's side effect takes place; a number that no chapter
assigns reads zero and has none. `csrw`, `csrs` and `csrc` write the CSR's fields from the old value and register a; a set or clear of no bit
writes nothing; with a register named by d, the word also writes it with the value that the CSR had, and a read's side effect takes
place. A write of a privileged CSR is one of a stream that may make it, and PRECTL is the subject of another statement. R124, R131: `tret` in
handler state clears TCAUSE.VALID and takes LEAD out of handler state, leaving everything else of the core but FRZLIM's count as it was;
`uret` takes the AP out of its interrupt handler, and its stream stands where the handler interrupted it, unless a completion
record waits, for which it enters its handler again at once. -/
def Obligations.CsrAndReturnResult : Prop :=
  ((∀ (s : State) (c : CoreId) (e : Engine) (f : Fld), issues s c e (.csrr f) = true → regsReady s c e [f.d] = true →
      let n := immBits f 0 12
      exec (.csrr f) s = .next (coreNext s c e fun x => csrReadEffect e n (writeReg e f.d (csrValue s c e n) x)) ∧
      (n ∉ csrNumbers → csrValue s c e n = 0 ∧ ∀ x, csrReadEffect e n x = x) ∧
      (n = 0x052 → e = .ap → csrValue s c e n = (s.core c).ap.recs.headD 0 ∧ ∀ x, (csrReadEffect e n x).ap.recs = x.ap.recs.drop 1) ∧
      (n = 0x05A → csrValue s c e n = (s.core c).csr.ueaddr ∧ ∀ x, (csrReadEffect e n x).csr.ueaddr = 0) ∧
      (n ≠ 0x052 → n ≠ 0x05A → ∀ x, csrReadEffect e n x = x)) ∧
   ((∀ w ∈ csrWords, ∀ (s : State) (c : CoreId) (e : Engine) (f : Fld), f.d = 0 →
       issues s c e (w.1 f) = true → regsReady s c e [f.a] = true → immBits f 0 12 ≠ 0x04E →
       let n := immBits f 0 12
       let v := readReg (s.core c) e f.a
       let writes : Bool := decide (w.2.1 = .write) || decide (v ≠ 0)
       (writes = true → csrPrivileged n = true → streamPriv (Ctx.mk s c e (reqOf s c e) (s.cluster c.cluster).clk) = true) →
       exec (w.1 f) s = .next (endWord s c e (if writes then csrSet w.2.1 c e n v (movedState s c e) else movedState s c e)) ∧
       (∀ p ∈ csrFields, p.1 = n → ∀ t : State,
         csrValue (csrSet w.2.1 c e n v t) c e n = (w.2.2 (csrValue t c e n) v &&& p.2)) ∧
       (∀ t : State, n ∉ csrFields.map Prod.fst → n ≠ 0x050 → n ≠ 0x055 → csrSet w.2.1 c e n v t = t)) ∧
    (∀ w ∈ csrWords, ∀ (s : State) (c : CoreId) (e : Engine) (f : Fld), f.d ≠ 0 →
       issues s c e (w.1 f) = true → regsReady s c e [f.a, f.d] = true → immBits f 0 12 ≠ 0x04E →
       let n := immBits f 0 12
       let v := readReg (s.core c) e f.a
       let writes : Bool := decide (w.2.1 = .write) || decide (v ≠ 0)
       (writes = true → csrPrivileged n = true → streamPriv (Ctx.mk s c e (reqOf s c e) (s.cluster c.cluster).clk) = true) →
       exec (w.1 f) s = .next (endWord s c e (((if writes then csrSet w.2.1 c e n v (movedState s c e) else movedState s c e).modCore c
         (csrReadEffect e n)).modCore c (writeReg e f.d (csrValue s c e n))))))) ∧
  (∀ (s : State) (c : CoreId) (e : Engine) (f : Fld),
     (untimedGo s c e (.tret f) = true → inTrap (s.core c) e = true →
       ∃ t, exec (.tret f) s = .next t ∧ trapValid (t.core c) = false ∧ inTrap (t.core c) .lead = false ∧
         (t.core c).trap.tcause = (s.core c).trap.tcause &&& 0x7FFFFFFFFFFFFFFF ∧
         { t.core c with trap := (s.core c).trap } = s.core c ∧ OthersSame c s t ∧
         (∀ k, k ≠ c.cluster → t.cluster k = s.cluster k) ∧ (t.cluster c.cluster).clk = (s.cluster c.cluster).clk ∧ PackageSame s t) ∧
     (untimedGo s c .ap (.uret f) = true → (s.core c).ap.inUi = true →
       ((s.core c).ap.recs = [] ∨ (s.core c).ap.uien = false →
         exec (.uret f) s = .next (s.modCore c fun x => { x with ap := { x.ap with
           inUi := false, uiBuf := [], uiPos := posAfter (nextOf s c .ap).pos } })) ∧
       ((s.core c).ap.recs ≠ [] → (s.core c).ap.uien = true → (s.core c).ap.fault = none →
         (s.core c).ap.host = none → ((s.core c).stream .ap).present = true → ((s.core c).stream .ap).ended = false →
         ((s.core c).stream .ap).first = false →
         ∃ t, exec (.uret f) s = .next t ∧ (t.core c).ap.inUi = true ∧
           (t.core c).ap.uiPos = Pos.start ((s.core c).ap.uiAddr.toNat * 64))))

/-! ### The coprocessor form -/

/-- R79, R80, R82, R129, R139, R159, R190, R348: a `cop` word pushes its command, guard and all, with the operands of its registers
and the geometry registers as they stand; its destination waits for the reply. In LEAD the word is timed or a handler's and the
command touches no memory; at the AP the accesses before a command that uses memory have performed, and every range of the command
must translate; the command keeps the header or descriptor that was read at its issue. -/
def Obligations.CommandPushed : Prop :=
  ∀ (s u : State) (c : CoreId) (e : Engine) (fn : BitVec 7) (f : Fld) (l : List Byte),
    let i : Instr := .cop fn f
    let fnn := fn.toNat
    let q := askOf (Ctx.mk s c e (reqOf s c e) (s.cluster c.cluster).clk) fn f
    issues s c e i = true → commandReady s c e f = true →
    (e = .ap → (∃ l' u', issueGot c q s = .bytes l' u') ∧ issueGot c q (movedState s c e) = .bytes l u) →
    (e ≠ .ap → u = movedState s c e ∧ l = []) → u.regq = [] →
    (0x40 ≤ fnn → streamPriv (Ctx.mk s c e (reqOf s c e) (s.cluster c.cluster).clk) = true) →
    (queueOf (s.core c) (sourceOfEng e) (targetOfFn fnn)).length < 16 →
    ∃ t k, exec i s = .next t ∧ (t.core c).cmds = (u.core c).cmds ++ [k] ∧ k.id = u.nextId ∧ t.nextId = u.nextId + 1 ∧ k.fn = fn ∧
      k.src = sourceOfEng e ∧ k.target = targetOfFn fnn ∧ k.d = f.d ∧ k.g = f.h.g ∧ k.gs = f.h.gs ∧ k.imm = f.imm ∧ k.ok = none ∧
      k.a = (if f.a = 0 then 0 else readReg (s.core c) e f.a) ∧ k.b = (if f.b = 0 then 0 else readReg (s.core c) e f.b) ∧
      k.geo = (s.core c).ap.geo ∧ k.world = (u.core c).csr.world ∧ (e ≠ .ap → k.pieces = []) ∧ k.xtra = l ∧
      (f.d ≠ 0 → isSlot f.d = false → (e = .ap ∨ f.d.toNat % 32 ≠ 0) → pendingReg (t.core c) e f.d = true) ∧
      (f.d ≠ 0 → isSlot f.d = true → slotWritten (t.core c) (inTrap (t.core c) e) (slotNo f.d) = false)

/-- R159, R391, R392, R396: a scrub word of a privileged AP, with its guard written, once the accesses before it have performed where it
reads or writes memory. A false guard replies at once; a join of a world with
no scrub on its way replies at once with a count of 1, or waits for the scrubs to end; a refused command replies with its STATUS;
any other enters the list. The order of the refusals is a reading (log 53). -/
def Obligations.ScrubWordResult : Prop :=
  ∀ w ∈ scrubWords, ∀ (s : State) (c : CoreId) (f : Fld),
    let e := Engine.ap
    let kk := Ctx.mk s c e (reqOf s c e) (s.cluster c.cluster).clk
    let s1 := beforeScrub kk w.2 f s
    let u := beforeScrub kk w.2 f (movedState s c e)
    let y := u.core c
    untimedGo s c e (w.1 f) = true → commandReady s c e f = true → streamPriv kk = true → guardLate (s.core c) e f.h = false →
    (s1.scrub.list.length < 64 ∨ w.2 = 3) → (w.2 = 1 ∨ w.2 = 2 → storesDone s1 c = true) →
    let m := u.modCore c (markReply .ap false (inIntr y .ap) f.d)
    let a := if f.a = 0 then 0 else readReg (s.core c) e f.a
    let b := if f.b = 0 then 0 else readReg (s.core c) e f.b
    let world : World := BitVec.ofNat 4 (immBits f 20 4)
    let r : ScrubReply := { core := c, d := f.d, intr := inIntr y .ap, tag := BitVec.ofNat 16 (immBits f 0 16), job := y.job }
    exec (w.1 f) s = .next (flushRegs (
      if guardTrue (s.core c) e f.h = false then replyScrub r 0 0 m
      else if w.2 = 3 then
        (if vget u.scrub.active world.toNat false then { m with scrub := { m.scrub with joins := m.scrub.joins ++ [(world, r)] } }
         else replyScrub r 0 1 m)
      else if scrubRefusal u world w.2 a b ≠ 0 then replyScrub r (scrubRefusal u world w.2 a b) 0 m
      else recordScrub { world, kind := BitVec.ofNat 2 w.2, a, b, steps := 0, reply := r } m))

/-! ### Rendezvous words -/

/-- R27, R99, R100, R324: `rdv` and `rdv.flip` of an AP stand until their rendezvous has retired: once the AP's earlier stores have all
left its queue, the word releases at the scope of its team and its stream is marked as standing there, and it then waits without further
effect; once it has retired, the word issues and the stream goes on to the next. A timed stream goes on past one
whose rendezvous has retired when every other timed stream of the job in the cluster has ended. R101: `rdv.end` issues at once,
and its stream issues nothing more. R18, R26: `rdv.align` at the first word of a stream marks it as standing there, and it stays
until RDV_ALIGN_RETIRE. That a stream waiting at `rdv.align` meets no late operand is a reading (log 28). -/
def Obligations.RendezvousWordResult : Prop :=
  (∀ (s : State) (c : CoreId) (f : Fld) (flip : Bool),
     let i : Instr := if flip then .rdvFlip f else .rdv f
     (untimedGo s c .ap i = true → rdvPassed s c .ap = false →
       (((s.core c).stream .ap).arrived = none → storesDone (drainAll c s) c = true →
         exec i s = .next (flushRegs ((fenceAp c (match jobOf s c with | some j => teamScope j.team | none => 3) true false (drainAll c s)).modCore c
           fun x => x.modStream .ap fun t => { t with arrived := some (if flip then RdvForm.flip else .rdv) }))) ∧
       (((s.core c).stream .ap).arrived = none → storesDone (drainAll c s) c = false → exec i s = .next (flushRegs (drainAll c s))) ∧
       (((s.core c).stream .ap).arrived ≠ none → exec i s = .next s)) ∧
     (untimedGo s c .ap i = true → rdvPassed s c .ap = true →
       exec i s = .next ((movedState s c .ap).modCore c fun x => x.modStream .ap fun t => { t with rdvs := t.rdvs + 1, arrived := none })) ∧
     (∀ e, issues s c e (.rdvEnd f) = true → inTrap (s.core c) e = false → inIntr (s.core c) e = false →
       ∃ t, exec (.rdvEnd f) s = .next t ∧ ((t.core c).stream e).ended = true ∧ (∀ g, g ≠ e → (t.core c).stream g = (s.core c).stream g) ∧
         RegsSame (s.core c) (t.core c) ∧ OthersSame c s t ∧ SameMemory s t)) ∧
  (∀ (s : State) (c : CoreId) (e : Engine) (f : Fld) (flip : Bool),
     let i : Instr := if flip then .rdvFlip f else .rdv f
     (timedTurn s c e i = true → rdvPassed s c e = true →
       (c.cluster.cores.all fun d => decide ((s.core d).job ≠ (s.core c).job) || timedEngines.all fun g =>
         decide (d = c ∧ g = e) || !((s.core d).stream g).present || ((s.core d).stream g).ended) = true →
       exec i s = .next (coreNext s c e fun x => x.modStream e fun t => { t with rdvs := t.rdvs + 1, arrived := none })) ∧
     (s.issuer = .eng c e → s.regq = [] → (e ≠ .ap ∨ untimedReady s c .ap = true) → inTrap (s.core c) e = false →
       notStarted s c = false → (s.core c).ap.inUi = false → (s.core c).aligned = false → ((s.core c).stream e).first = true →
       legalHere s c e (.rdvAlign f) = true → waitsMet s c e = true → f.h.g = 15 →
       exec (.rdvAlign f) s = .next (s.modCore c fun x => x.modStream e fun t => { t with arrived := some .align })))


namespace Sys2Proof.Claims

/-- The context in which an engine's next word is planned. -/
def kOf (s : State) (c : CoreId) (e : Engine) : Ctx := Ctx.mk s c e (reqOf s c e) (s.cluster c.cluster).clk

/-- A word that starts an operation of a pipe: the ticks that it occupies the pipe (R254), its destination, its source fields
with the width of a part that an s register is spread over, the scalar registers that it reads, what it binds at issue, what
else it changes at once, and what else it needs. -/
structure PipeWord where
  word : Fld → Instr
  occ : Ctx → Fld → Nat := fun _ _ => 4
  dst : Fld → RegCode := fun f => f.d
  srcs : Fld → List (RegCode × Nat)
  regs : Fld → List RegCode := fun _ => []
  aux : Ctx → Fld → List Nat := fun _ _ => []
  pre : Ctx → Fld → Core → Core := fun _ _ x => x
  ok : Ctx → Fld → Bool := fun _ _ => true

/-- Words with one, two and three sources of 32-bit elements. -/
def pipe1 (word : Fld → Instr) : PipeWord := { word, srcs := fun f => [(f.a, 32)] }
def pipe2 (word : Fld → Instr) : PipeWord := { word, srcs := fun f => [(f.a, 32), (f.b, 32)] }
def pipe3 (word : Fld → Instr) : PipeWord := { word, srcs := fun f => [(f.a, 32), (f.b, 32), (f.c, 32)] }

/-- A word with one source and a distance (R265). -/
def pipeAxis (word : Fld → Instr) (bits : Nat) : PipeWord :=
  { word, srcs := fun f => [(f.a, 32)], regs := fun f => if f.b = 0 then [] else [f.b]
    aux := fun k f => [if f.b = 0 then immBits f 4 6 else (readReg k.core k.e f.b).toNat % 2 ^ bits] }

/-- A word on two sources of parts of a width. -/
def pipeParts (word : Fld → Instr) (n : Nat) : PipeWord := { word, srcs := fun f => [(f.a, n), (f.b, n)] }

/-- The part width of a vector integer type code (R74). -/
def widthOf (t : BitVec 2) : Nat := if t = 0 then 32 else if t = 1 then 16 else 8

/-- The words of the pipes VA and VB (R257-R269). -/
def vectorWords (t : BitVec 2) (cond : BitVec 5) (dst : BitVec 4) : List PipeWord :=
  [Instr.vaddF32, .vsubF32, .vmulF32, .vminF32, .vmaxF32, .kand, .kor, .kxor, .kandn].map pipe2 ++
  [Instr.vfmaF32, .vfmsF32, .vfnmaF32, .vsel].map pipe3 ++
  [Instr.vabsF32, .vnegF32, .knot, .kmov, .vcvt dst, .vunpack, .vraddR, .vrmaxR, .vrminR, .vrmaxiR, .vrminiR, .vraddC, .vrmaxC
  , .vrminC, .vrmaxiC, .vrminiC].map pipe1 ++
  [Instr.vaddI t, .vsubI t, .vmulI t, .vminI t, .vmaxI t, .vand t, .vor t, .vxor t, .vshl t, .vshr t, .vsra t, .vadds t
  , .vsubs t].map (pipeParts · (widthOf t)) ++
  [ pipeParts (.vcmp cond t) (if t = 2 then 16 else if t = 3 then 8 else 32)
  , { word := .vpack, srcs := fun f => [(f.a, 32), (f.c, 32)] }
  , pipeAxis .vrotR 6, pipeAxis .vbcR 6, pipeAxis .vrotC 4, pipeAxis .vbcC 4
  , { word := .vmov, srcs := fun f => [(f.a, 32)], aux := fun _ f => [immBits f 0 2] }, { word := .vmovi, srcs := fun _ => [] }
  , { word := .vld, srcs := fun _ => [], aux := fun k f => [blockRow k f] }
  , { word := .vst, dst := fun _ => 0, srcs := fun f => [(f.a, 32)], aux := fun k f => [blockRow k f] }
  , { word := .vtapr, srcs := fun _ => [] }, { word := .vtapw, dst := fun _ => 0, srcs := fun f => [(f.a, 32)] } ]

/-- A word that zero-fills a bin from its FILL (R280): one tick for each KiB of the bin, and one more. -/
def openWord (word : Fld → Instr) (bin : Ctx → Fld → Bin) (after : Ctx → Fld → Bin → List Nat) (pre : Ctx → Fld → Core → Core)
    (ok : Ctx → Fld → Bool) : PipeWord :=
  let ticks := fun k f => (binSize (bin k f) + 1023) / 1024
  { word, occ := fun k f => ticks k f + 1, dst := fun _ => 0, srcs := fun _ => [], pre
    aux := fun k f =>
      let b := bin k f
      [binBase b, binBase b + b.fill.toNat * b.rowb.toNat, binBase b + binSize b, ticks k f] ++ after k f b
    ok := fun k f => ok k f && binUsable (bin k f) && binInPad (bin k f) && areasComposed k.core && binComposed k.core (bin k f) }

/-- The bins that the latch form of a histogram writes, and their FILL, DROPPED and BASE (R282). -/
def latchCount (f : Fld) : Nat := min (immBits f 8 8 + 1) (16 - (f.c.toNat - 0x80))
def latchedBins (x : Core) (f : Fld) : List Nat :=
  let first := f.c.toNat - 0x80
  let h := fun e => (vget x.sf.h e 0).toNat
  let b0 := coreBin x first
  (List.range (latchCount f)).flatMap fun e =>
    let b := coreBin x (first + e)
    let fill := min (h e) b.cap.toNat
    [fill, h e - fill, if e = 0 then b.base.toNat
      else (b0.base.toNat + b0.rowb.toNat * ((List.range e).map h).sum) % 2 ^ 64]

/-- The words of SF that are carried out quarter by quarter or from a whole register (R273-R285). -/
def sfWords : List PipeWord :=
  [Instr.sfExp2, .sfLog2, .sfRcp, .sfRsqrt, .sfSqrt, .sfSin, .sfCos, .sfTanh].map pipe1 ++
  [ { word := .sfTmx, occ := fun _ _ => 8, srcs := fun f => [(f.a, 32)], regs := fun f => if immBits f 22 2 = 2 then [f.b] else []
      aux := fun k f => [(readReg k.core k.e f.b).toNat % 2 ^ 32]
      ok := fun k f => decide (immBits f 27 1 = 0) || !(vget k.core.sf.tab (immBits f 24 3) []).isEmpty }
  , { word := .sfHist, occ := fun _ _ => 6, srcs := fun f => [(f.a, 32)] }, { word := .sfHistZ, occ := fun _ _ => 6, srcs := fun f => [(f.a, 32)] }
  , { word := .sfShort, occ := fun _ _ => 64, srcs := fun f => [(f.d, 32), (f.c, 32), (f.a, 32)], regs := fun f => [f.b]
      aux := fun k f => [(readReg k.core k.e f.b).toNat % 2 ^ 32, physV k.core k.e f.c.toNat] }
  , { word := .sfMass, srcs := fun f => [(f.a, 32), (f.d, 32)], regs := fun f => [f.b]
      aux := fun k f => [(readReg k.core k.e f.b).toNat % 2 ^ 32] }
  , { word := .sfRng, srcs := fun f => [(f.a, 32)], aux := fun k f => [(vget k.core.sf.rseed (immBits f 4 4) 0).toNat] }
  , { word := .sfRngU, srcs := fun f => [(f.a, 32)], aux := fun k f => [(vget k.core.sf.rseed (immBits f 4 4) 0).toNat] }
  , { word := .sfBget, srcs := fun _ => [], aux := fun k f =>
        let b := coreBin k.core (f.a.toNat - 0x80)
        [ b.cap.toNat, b.base.toNat % 2 ^ 32, b.rowb.toNat, b.fill.toNat, b.dropped.toNat, b.deferred.toNat, b.rule.toNat
        , b.spill.toNat ] }
  , { word := .sfRoute, occ := fun _ _ => 6, srcs := fun f => [(f.a, 32)]
      aux := fun k f => let n := physV k.core k.e f.b.toNat
        routeAux k.core f n (routeWork k.core f n)
      ok := fun k f => let w := routeWork k.core f (physV k.core k.e f.b.toNat)
        ((routeBins f).all fun n => binUsable (coreBin k.core n) && binInPad (coreBin k.core n) && decide ((coreBin k.core n).rowb = 256))
          && w.bad.isEmpty && w.areas.all (areaPlaced k.core) }
  , openWord .sfBopen (fun k f => coreBin k.core (f.d.toNat - 0x80)) (fun _ _ _ => []) (fun _ _ x => x) (fun _ _ => true)
  , openWord .sfBdrain (fun k f => drainBin k.core (coreBin k.core (f.d.toNat - 0x80)) (immBits f 0 2))
      (fun _ f b => [f.d.toNat - 0x80, immBits f 0 2, b.base.toNat, b.cap.toNat, b.rule.toNat, b.spill.toNat, b.fill.toNat])
      (fun _ f => pushPath (f.d.toNat - 0x80))
      (fun k f => decide (sfInnermost k.core = some (spLevel (vget k.core.sf.spcfg (immBits f 0 2) 0)))
        && binInPad (coreBin k.core (f.d.toNat - 0x80)))
  , { word := .sfBclose, occ := fun _ _ => 1, dst := fun _ => 0, srcs := fun _ => [], aux := fun _ f => [f.d.toNat - 0x80]
      pre := fun _ f => popPath (f.d.toNat - 0x80) }
  , { word := .sfBset, occ := fun _ _ => 1, dst := fun _ => 0, srcs := fun _ => [], regs := fun f => [f.a]
      aux := fun k f => [f.d.toNat - 0x80, immBits f 0 3, (readReg k.core k.e f.a).toNat] }
  , { word := .sfHistLatch, occ := fun _ _ => 2, dst := fun _ => 0, srcs := fun _ => []
      aux := fun k f => latchedBins k.core f
      ok := fun k f => (List.range (latchCount f)).all fun e => binUsable (coreBin k.core (f.c.toNat - 0x80 + e)) } ]

/-- The operation that a word starts, and the load queues that it pops. -/
def opStarted (w : PipeWord) (k : Ctx) (f : Fld) : Op :=
  newOp k (w.word f) (physV k.core k.e (w.dst f).toNat) ((w.srcs f).map fun x => fieldSource k x.2 x.1) (w.aux k f)
def queuesPopped (w : PipeWord) (k : Ctx) (f : Fld) : List Nat :=
  ((w.srcs f).filterMap fun x => (fieldSource k x.2 x.1).pop).eraseDups

/-- The core as the word's operation finds it at its first tick. -/
def coreStarted (w : PipeWord) (k : Ctx) (f : Fld) (x : Core) : Core :=
  let y := pushEntry k.e k.now (w.dst f) (popQueues (queuesPopped w k f) x)
  let y := w.pre k f { y with busy := y.busy.set (engIdx k.e) (k.now + w.occ k f) }
  { y with ops := y.ops ++ [opStarted w k f] }

/-- A core whose one operation has had its tick: it keeps what it has read, its results wait to land, its rows stand on the
lanes, and the ledge bytes that it writes are written. -/
def opTick (c : CoreId) (now : Nat) (o : Op) (x : Core) : Core :=
  let out := runOp c x now o
  let y := { x with
    ops := if now < o.at_ + opLast o then [capture out o] else [], latches := out.latches
    transits := (x.transits ++ out.transits).filter fun t => !(transitEnds now t || match transitStop t now with
      | some p => out.taken.contains (t.lane, p)
      | none => false) }
  out.cells.foldl (fun x w => spadPut x w.1 w.2) y

/-- Quarter `q` of source `i` as the operation has read it at its tick. -/
def srcQ (c : CoreId) (x : Core) (o : Op) (i q : Nat) : Quarter := gotQ (capture (runOp c x (o.at_ + q) o) o) i q

/-- Quarter `q` of a source that has been read whole with the operation's fourth quarter. -/
def srcW (c : CoreId) (x : Core) (o : Op) (i q : Nat) : Quarter := gotQ (capture (runOp c x (o.at_ + 3) o) o) i q

/-- Element `j` of a quarter as a number, and of a row of 64 as rows of quarters have it (R252). -/
def elemAt (q : Quarter) (j : Nat) : Nat := (q.extractLsb' (32 * j) 32).toNat

/-- What a computed operation puts out with quarter `q`: one latch, due after its latency (R255). -/
def putsQuarter (c : CoreId) (x : Core) (o : Op) (q lat : Nat) (v : Quarter) : Prop :=
  (runOp c x (o.at_ + q) o).latches = [latchOf o o.dst q (o.at_ + q + lat) false v]

/-- What an operation that needs the whole register puts out with its fourth quarter: four latches. -/
def putsWhole (c : CoreId) (x : Core) (o : Op) (lat : Nat) (work : Bool) (v : Nat → Quarter) : Prop :=
  (runOp c x (o.at_ + 3) o).latches = (List.range 4).map fun q => latchOf o o.dst q (o.at_ + q + lat) work (v q)

/-- The integer words on parts (R259). -/
def integerWords : List ((BitVec 2 → Fld → Instr) × ((n : Nat) → BitVec n → BitVec n → BitVec n)) :=
  [ (.vaddI, fun _ x y => x + y), (.vsubI, fun _ x y => x - y), (.vmulI, fun _ x y => x * y)
  , (.vminI, fun _ x y => if x.toInt ≤ y.toInt then x else y), (.vmaxI, fun _ x y => if y.toInt ≤ x.toInt then x else y)
  , (.vand, fun _ x y => x &&& y), (.vor, fun _ x y => x ||| y), (.vxor, fun _ x y => x ^^^ y)
  , (.vshl, fun n x y => x <<< (y.toNat % n)), (.vshr, fun n x y => x >>> (y.toNat % n)), (.vsra, fun n x y => x.sshiftRight (y.toNat % n))
  , (.vadds, fun n x y => BitVec.ofInt n (max (-2 ^ (n - 1)) (min (2 ^ (n - 1) - 1) (x.toInt + y.toInt))))
  , (.vsubs, fun n x y => BitVec.ofInt n (max (-2 ^ (n - 1)) (min (2 ^ (n - 1) - 1) (x.toInt - y.toInt)))) ]

/-- The FP32 words of one, two and three sources on element encodings (R222, R223, R258): computed exactly and rounded once. -/
def float1Words : List ((Fld → Instr) × (Nat → Nat)) :=
  [ (.vabsF32, fun x => x % 2 ^ 31), (.vnegF32, fun x => (x + 2 ^ 31) % 2 ^ 32) ]
def float2Words : List ((Fld → Instr) × (Nat → Nat → Nat)) :=
  [ (.vaddF32, fun x y => toF32 (vadd (f32 x) (f32 y))), (.vsubF32, fun x y => toF32 (vadd (f32 x) (vneg (f32 y))))
  , (.vmulF32, fun x y => toF32 (vmul (f32 x) (f32 y))), (.vminF32, fmin), (.vmaxF32, fmax) ]
def float3Words : List ((Fld → Instr) × (Nat → Nat → Nat → Nat)) :=
  [ (.vfmaF32, fun a b c => toF32 (vadd (vmul (f32 a) (f32 b)) (f32 c)))
  , (.vfmsF32, fun a b c => toF32 (vadd (vmul (f32 a) (f32 b)) (vneg (f32 c))))
  , (.vfnmaF32, fun a b c => toF32 (vadd (vneg (vmul (f32 a) (f32 b))) (f32 c))) ]

/-- A NaN among the binary32 encodings, and the place of an encoding that is none in the order of numbers with -0 below +0:
0 for +0, -1 for -0 (R223). -/
def isNaN (x : Nat) : Prop := 0x7F800000 < x % 2 ^ 31
def rank (x : Nat) : Int := if x < 2 ^ 31 then (x : Int) else 2 ^ 31 - 1 - (x : Int)

/-- The mask words (R261). -/
def maskWords : List ((Fld → Instr) × (Bool → Bool → Bool)) :=
  [ (.kand, fun a b => a && b), (.kor, fun a b => a || b), (.kxor, fun a b => a ^^ b), (.kandn, fun a b => a && !b)
  , (.knot, fun a _ => !a), (.kmov, fun a _ => a) ]

/-- The row and column reductions by kind (R266): sum, greatest, least, and the last two with an index. -/
def rowReductions : List ((Fld → Instr) × Nat) := [ (.vraddR, 0), (.vrmaxR, 1), (.vrminR, 2), (.vrmaxiR, 3), (.vrminiR, 4) ]
def columnReductions : List ((Fld → Instr) × Nat) := [ (.vraddC, 0), (.vrmaxC, 1), (.vrminC, 2), (.vrmaxiC, 3), (.vrminiC, 4) ]

/-- A reduction of a line of `2 ^ lg` i32 elements: the value, and for the last two kinds the least index that holds it. -/
def IsReduction (kind lg : Nat) (l : List Nat) (r : List Nat) : Prop :=
  match kind with
  | 0 => r = [l.sum % 2 ^ 32]
  | 1 => ∃ m ∈ l, r = [m] ∧ ∀ y ∈ l, sintN 32 y ≤ sintN 32 m
  | 2 => ∃ m ∈ l, r = [m] ∧ ∀ y ∈ l, sintN 32 m ≤ sintN 32 y
  | 3 => ∃ i < 2 ^ lg, ∃ m, l[i]? = some m ∧ r = [m, i] ∧ (∀ y ∈ l, sintN 32 y ≤ sintN 32 m) ∧ ∀ j < i, l[j]? ≠ some m
  | _ => ∃ i < 2 ^ lg, ∃ m, l[i]? = some m ∧ r = [m, i] ∧ (∀ y ∈ l, sintN 32 m ≤ sintN 32 y) ∧ ∀ j < i, l[j]? ≠ some m

end Sys2Proof.Claims

/-! ### Words of the vector pipes and of SF -/

/-- R252-R256: a word of VA, VB or SF whose sources have their data, whose store queue has room and whose pipe is free starts
its operation at its tick: the pipe is occupied for the word's ticks, queues are popped and an entry pushed, and the
operation has its first tick, at which it must raise no cause. Rows may stand on the core's lanes, if no two meet and none
passes its tap. Nothing else of the machine changes but the stream's place. -/
def Obligations.PipeWordStarts : Prop :=
  ∀ (t : BitVec 2) (cond : BitVec 5) (dst : BitVec 4), ∀ w ∈ vectorWords t cond dst ++ sfWords,
    ∀ (s : State) (c : CoreId) (e : Engine) (f : Fld),
      let k := kOf s c e
      let o := opStarted w k f
      let y := coreStarted w k f (movedOn s c e 0 none (s.core c))
      timedTurn (s.modCore c fun x => { x with transits := [] }) c e (w.word f) = true → headOk (s.core c) e (w.word f) = true → regsReady s c e (w.regs f) = true → w.ok k f = true →
      (w.srcs f).flatMap (fun x => lateSource k x.1) = [] → latePush k (w.dst f) = [] →
      vget (s.core c).busy (engIdx e).val 0 ≤ k.now → (runOp c y k.now o).causes = [] →
      laneCauses k.now y = [] → tapCauses k.now (runOp c y k.now o).taken y = [] →
      exec (w.word f) s = .next (endWord s c e ((runOp c y k.now o).eff (s.modCore c fun x =>
        opTick c k.now o (coreStarted w k f (movedOn s c e 0 none x)))))

/-- R253: what an operation reads: a source bound at issue is the one value of its four quarters, an s register in every part of every
element or the entry popped from a load queue; a v or k register is read quarter by quarter, each at its own tick. R86, R253: a latch that
lands writes its quarter of a v or k register, and no other quarter of any register; rotation makes a name of v16-v31 stand for
another register at every back-edge (R44). -/
def Obligations.SourcesAndLandings : Prop :=
  ((∀ (k : Ctx) (n : Nat) (code : RegCode) (q : Nat), q < 4 → n = 32 ∨ n = 16 ∨ n = 8 →
     let x := fieldSource k n code
     (regClass code.toNat = some .s → x.src = 0 ∧ x.pop = none ∧ ∃ v, x.bound[q]? = some v ∧ ∀ j < 8192 / n,
       v.extractLsb' (n * j) n = (readReg k.core k.e code).setWidth n) ∧
     (∀ y, regClass code.toNat = some .q → queueHead k.core (code.toNat - 0x68) = some y →
       x.src = 0 ∧ x.pop = some (code.toNat - 0x68) ∧ x.bound[q]? = some (y.img.extractLsb' (8192 * q) 8192)) ∧
     (regClass code.toNat = some .v → x.src = physV k.core k.e code.toNat ∧ x.bound = [] ∧ x.pop = none) ∧
     (regClass code.toNat = some .k → x.src = code.toNat ∧ x.bound = [] ∧ x.pop = none)) ∧
   (∀ (x : Core) (o : Op) (now q code : Nat), q < 4 →
     (regClass code = some .v → (readSource x o now q code).1 = vget x.vec.v (4 * (code - 0x40) + q) 0) ∧
     (regClass code = some .k → ∀ j < 256, (readSource x o now q code).1.getLsbD j = (vget x.vec.k (code - 0x60) 0).getLsbD (256 * q + j)))) ∧
  ((∀ (l : Latch) (x : Core), regClass l.code.toNat = some .v → l.q < 4 →
     vget (landLatch l x).vec.v (4 * (l.code.toNat - 0x40) + l.q) 0 = l.val ∧
     (∀ i < 128, i ≠ 4 * (l.code.toNat - 0x40) + l.q → vget (landLatch l x).vec.v i 0 = vget x.vec.v i 0) ∧
     (landLatch l x).vec.k = x.vec.k ∧ (landLatch l x).scal = x.scal) ∧
   (∀ (l : Latch) (x : Core), regClass l.code.toNat = some .k → l.q < 4 →
     (∀ j < 1024, (vget (landLatch l x).vec.k (l.code.toNat - 0x60) 0).getLsbD j =
       if j / 256 = l.q then l.val.getLsbD (j % 256) else (vget x.vec.k (l.code.toNat - 0x60) 0).getLsbD j) ∧
     (∀ i < 8, i ≠ l.code.toNat - 0x60 → vget (landLatch l x).vec.k i 0 = vget x.vec.k i 0) ∧
     (landLatch l x).vec.v = x.vec.v ∧ (landLatch l x).scal = x.scal) ∧
   (∀ (x : Core) (e : Engine) (i : Nat), i < 16 →
     physV x e (0x50 + i) = 0x50 + (i + 16 - (x.stream e).rot.toNat) % 16 ∧ physV x e (0x40 + i) = 0x40 + i))


/-- R255, R259: an integer word computes each part of each element of its quarter from the same parts of its two sources, and the quarter
lands four ticks after it was read; apart from reading its sources it does nothing else, so nothing is flagged and nothing traps. R222, R223, R255, R258, R263, R267: the FP32 words, conversion and moves, element by element. R260-R262: compares,
masks and selection: a mask quarter has one bit for each element; an integer compare holds for an element when it holds for each of
its parts. -/
def Obligations.ElementResult : Prop :=
  ((∀ p ∈ integerWords, ∀ (c : CoreId) (x : Core) (o : Op) (q : Nat) (f : Fld) (t : BitVec 2), t ≠ 3 → o.instr = p.1 t f → q < 4 →
      runOp c x (o.at_ + q) o = { readSources x o (o.at_ + q) q 0 o.srcs with latches := (runOp c x (o.at_ + q) o).latches } ∧
      ∃ v, putsQuarter c x o q 4 v ∧ ∀ j < 8192 / widthOf t, v.extractLsb' (widthOf t * j) (widthOf t) =
        p.2 (widthOf t) ((srcQ c x o 0 q).extractLsb' (widthOf t * j) (widthOf t)) ((srcQ c x o 1 q).extractLsb' (widthOf t * j) (widthOf t))) ∧
   (∀ p ∈ integerWords, ∀ (k : Ctx) (f : Fld) (t : BitVec 2),
      let o := opStarted (pipeParts (p.1 t) (widthOf t)) k f
      let a := fieldSource k (widthOf t) f.a
      let b := fieldSource k (widthOf t) f.b
      o.srcs = [a.src, b.src] ∧ ∀ q < 4, (a.bound ≠ [] → some (gotQ o 0 q) = a.bound[q]?) ∧ (b.bound ≠ [] → some (gotQ o 1 q) = b.bound[q]?)) ∧
   (∀ (c : CoreId) (x : Core) (o : Op) (q : Nat) (f : Fld), q < 4 →
      let a := fun j => elemAt (srcQ c x o 0 q) j
      let b := fun j => elemAt (srcQ c x o 1 q) j
      let d := fun j => elemAt (srcQ c x o 2 q) j
      (∀ p ∈ float1Words, o.instr = p.1 f → ∃ v, putsQuarter c x o q 4 v ∧ ∀ j < 256, elemAt v j = p.2 (a j)) ∧
      (∀ p ∈ float2Words, o.instr = p.1 f → ∃ v, putsQuarter c x o q 4 v ∧ ∀ j < 256, elemAt v j = p.2 (a j) (b j)) ∧
      (∀ p ∈ float3Words, o.instr = p.1 f → ∃ v, putsQuarter c x o q 4 v ∧ ∀ j < 256, elemAt v j = p.2 (a j) (b j) (d j)) ∧
      (∀ ty, o.instr = .vcvt ty f → ∃ v, putsQuarter c x o q 4 v ∧ ∀ j < 256,
        elemAt v j = (convVal ty.toNat (elemVal (immBits f 0 4) (a j % 2 ^ typeBits (immBits f 0 4)))).1 % 2 ^ 32) ∧
      (o.instr = .vmov f → putsQuarter c x o q 4 (srcQ c x o 0 q)) ∧
      (o.instr = .vmovi f → ∃ v, putsQuarter c x o q 4 v ∧ ∀ j < 256, elemAt v j = f.imm.toNat % 2 ^ 32))) ∧
  (∀ (c : CoreId) (x : Core) (o : Op) (q : Nat) (f : Fld), q < 4 →
     (∀ p ∈ maskWords, o.instr = p.1 f → ∃ v, putsQuarter c x o q 4 v ∧
       ∀ j < 256, v.getLsbD j = p.2 ((srcQ c x o 0 q).getLsbD j) ((srcQ c x o 1 q).getLsbD j)) ∧
     (o.instr = .vsel f → ∃ v, putsQuarter c x o q 4 v ∧ ∀ j < 256,
       elemAt v j = if (srcQ c x o 2 q).getLsbD j then elemAt (srcQ c x o 0 q) j else elemAt (srcQ c x o 1 q) j) ∧
     (∀ (cond : BitVec 5) (t : BitVec 2), cond.toNat < 6 → o.instr = .vcmp cond t f →
       let n := if t = 2 then 16 else if t = 3 then 8 else 32
       let holds := fun (eq lt gt : Bool) => [eq, !eq, lt, lt || eq, gt, gt || eq].getD cond.toNat false
       ∃ v, putsQuarter c x o q 4 v ∧ ∀ j < 256,
         let a := elemAt (srcQ c x o 0 q) j
         let b := elemAt (srcQ c x o 1 q) j
         v.getLsbD j = if t = 0 then holds (feq a b) (flt a b) (flt b a) else
           (List.range (32 / n)).all fun i => holds (decide (a / 2 ^ (n * i) % 2 ^ n = b / 2 ^ (n * i) % 2 ^ n))
             (decide (sintN n (a / 2 ^ (n * i)) < sintN n (b / 2 ^ (n * i)))) (decide (sintN n (b / 2 ^ (n * i)) < sintN n (a / 2 ^ (n * i))))))


/-- R223: `vmin.f32` and `vmax.f32`, element by element: the canonical NaN if either element is a NaN; else one of the two elements, not
above (not below) either in the order of numbers in which -0 is below +0, so that of two elements with the same bits that value is the
result. -/
def Obligations.MinMaxF32Result : Prop :=
  ∀ (c : CoreId) (x : Core) (o : Op) (q : Nat) (f : Fld), q < 4 →
    let a := fun j => elemAt (srcQ c x o 0 q) j
    let b := fun j => elemAt (srcQ c x o 1 q) j
    (o.instr = .vminF32 f → ∃ v, putsQuarter c x o q 4 v ∧ ∀ j < 256,
      (isNaN (a j) ∨ isNaN (b j) → elemAt v j = 0x7FC00000) ∧
      (¬isNaN (a j) → ¬isNaN (b j) → (elemAt v j = a j ∨ elemAt v j = b j) ∧
        rank (elemAt v j) ≤ rank (a j) ∧ rank (elemAt v j) ≤ rank (b j))) ∧
    (o.instr = .vmaxF32 f → ∃ v, putsQuarter c x o q 4 v ∧ ∀ j < 256,
      (isNaN (a j) ∨ isNaN (b j) → elemAt v j = 0x7FC00000) ∧
      (¬isNaN (a j) → ¬isNaN (b j) → (elemAt v j = a j ∨ elemAt v j = b j) ∧
        rank (a j) ≤ rank (elemAt v j) ∧ rank (b j) ≤ rank (elemAt v j)))


/-- R255, R264-R266: words along the row axis, each quarter from its own four rows of 64, and along the column axis from all 16 rows;
reductions leave their value, and the index of the last two kinds, at the head of a line of zeros. R264: `vunpack` widens the 1,024 packed values
of one part of its source's image, integers with their signs; `vpack` puts the low bits of its elements into one part of the image of its
second source and keeps that image's other bits. -/
def Obligations.AxisAndPackResult : Prop :=
  (∀ (c : CoreId) (x : Core) (o : Op) (f : Fld),
     let n := o.aux.headD 0
     let rowQ := fun q r => (List.range 64).map fun j => elemAt (srcQ c x o 0 q) (64 * r + j)
     let rowW := fun r => (List.range 64).map fun j => elemAt (srcW c x o 0 (r / 4)) (64 * (r % 4) + j)
     let colW := fun j => (List.range 16).map fun r => (rowW r).getD j 0
     (∀ q < 4, n < 64 → o.instr = .vrotR f → ∃ v, putsQuarter c x o q 4 v ∧
       ∀ r < 4, ∀ j < 64, elemAt v (64 * r + j) = (rowQ q r).getD ((j + n) % 64) 0) ∧
     (∀ q < 4, n < 64 → o.instr = .vbcR f → ∃ v, putsQuarter c x o q 4 v ∧ ∀ r < 4, ∀ j < 64, elemAt v (64 * r + j) = (rowQ q r).getD n 0) ∧
     (∀ p ∈ rowReductions, ∀ q < 4, o.instr = p.1 f → ∃ v, putsQuarter c x o q 6 v ∧ ∀ r < 4,
       ∃ l, (immBits f 0 4 = 0 → l = reduceLine p.2 0 6 (rowQ q r)) ∧ (immBits f 0 4 ≠ 0 → IsReduction p.2 6 (rowQ q r) l) ∧
         ∀ j < 64, elemAt v (64 * r + j) = l.getD j 0 % 2 ^ 32) ∧
     (n < 16 → o.instr = .vrotC f → ∃ v, putsWhole c x o 6 false v ∧
       ∀ r < 16, ∀ j < 64, elemAt (v (r / 4)) (64 * (r % 4) + j) = (rowW ((r + n) % 16)).getD j 0) ∧
     (n < 16 → o.instr = .vbcC f → ∃ v, putsWhole c x o 6 false v ∧
       ∀ r < 16, ∀ j < 64, elemAt (v (r / 4)) (64 * (r % 4) + j) = (rowW n).getD j 0) ∧
     (∀ p ∈ columnReductions, o.instr = p.1 f → ∃ v, putsWhole c x o 8 false v ∧ ∀ j < 64,
       ∃ l, (immBits f 0 4 = 0 → l = reduceLine p.2 0 4 (colW j)) ∧ (immBits f 0 4 ≠ 0 → IsReduction p.2 4 (colW j) l) ∧
         ∀ r < 16, elemAt (v (r / 4)) (64 * (r % 4) + j) = l.getD r 0 % 2 ^ 32)) ∧
  (∀ (c : CoreId) (x : Core) (o : Op) (f : Fld) (n : Nat), packWidth (immBits f 0 4) = some n → n * (1024 * (immBits f 4 3 + 1)) ≤ 32768 →
     let t := immBits f 0 4
     let p := immBits f 4 3
     let img := fun i => imgOf (srcW c x o i 0) (srcW c x o i 1) (srcW c x o i 2) (srcW c x o i 3)
     (o.instr = .vunpack f → ∃ v, putsWhole c x o 6 false v ∧ ∀ q < 4, ∀ j < 256,
       let y := (img 0).toNat / 2 ^ (n * (1024 * p + 256 * q + j)) % 2 ^ n
       elemAt (v q) j = if 7 ≤ t ∧ t ≤ 9 then (sintN n y % 2 ^ 32).toNat else y) ∧
     (o.instr = .vpack f → ∃ v, putsWhole c x o 6 false v ∧
       let r := imgOf (v 0) (v 1) (v 2) (v 3)
       (∀ j < 1024, r.toNat / 2 ^ (n * (1024 * p + j)) % 2 ^ n = elemAt (srcW c x o 0 (j / 256)) (j % 256) % 2 ^ n) ∧
       ∀ i < 32768, i < n * 1024 * p ∨ n * 1024 * (p + 1) ≤ i → r.getLsbD i = (img 1).getLsbD i))


/-- R268, R269: `vld` reads 32 rows of the scratchpad from its address, eight a tick, which reach its register after their way
on the lanes; `vst` takes its register's quarters to the ledge, where its rows are written on arrival; `vtapr` takes eight
rows off the lanes and `vtapw` puts eight on them. -/
def Obligations.LedgeWordResult : Prop :=
  ∀ (c : CoreId) (x : Core) (o : Op) (f : Fld) (q : Nat), q < 4 →
    let row := o.aux.headD 0
    let base := laneBase f.c.toNat
    let rows := fun i => (row / 1024 * 1024 + (row % 1024 + 8 * q + i) % 1024)
    (row < 16384 → o.instr = .vld f → let d := laneDist base (ledgeStop (row / 1024)) (stopOf o.eng)
      ∃ v, (runOp c x (o.at_ + q) o).latches = [latchOf o o.dst q (o.at_ + q + 2 + d) false v] ∧
        ∀ i < 8, v.extractLsb' (1024 * i) 1024 = spadRow x (rows i)) ∧
    (row < 16384 → o.instr = .vst f → let d := laneDist base (stopOf o.eng) (ledgeStop (row / 1024))
      (runOp c x (o.at_ + (d + 1) + q) o).cells = (List.range 8).map fun i => (128 * rows i, rowBytes (quarterRow (gotQ o 0 q) i))) ∧
    (o.instr = .vtapr f → (∀ i < 8, (rowAtStop x o.at_ (stopOf o.eng) (base + i)).isSome = true) →
      ∃ v, (runOp c x o.at_ o).latches = [latchOf o o.dst (immBits f 0 2) (o.at_ + 1) false v] ∧
        (runOp c x o.at_ o).taken = (List.range 8).map (fun i => (base + i, stopOf o.eng)) ∧
        ∀ i < 8, some (v.extractLsb' (1024 * i) 1024) = rowAtStop x o.at_ (stopOf o.eng) (base + i)) ∧
    (o.instr = .vtapw f → ∀ i < 8, ∃ t ∈ (runOp c x o.at_ o).transits, t.lane = base + i ∧ t.from_ = stopOf o.eng ∧
      t.enter = o.at_ + 1 ∧ t.dest = immBits f 8 5 ∧ t.row = quarterRow (readSource x o o.at_ (immBits f 0 2) (o.srcs.headD 0)).1 i)

namespace Sys2Proof.Claims

/-- The special functions with their latencies (R255, R273). -/
def specialWords : List ((Fld → Instr) × Nat × (Nat → Nat)) :=
  [ (.sfExp2, 8, sfExp2F), (.sfLog2, 8, sfLog2F), (.sfRcp, 8, sfRcpF), (.sfRsqrt, 8, sfRsqrtF), (.sfSqrt, 8, sfSqrtF)
  , (.sfSin, 12, sfSinF), (.sfCos, 12, sfCosF), (.sfTanh, 12, sfTanhF) ]

/-- R227: the results of each function on +Inf, -Inf, +0 and -0. -/
def specialLimits : List ((Nat → Nat) × List Nat) :=
  [ (sfExp2F, [0x7F800000, 0, 0x3F800000, 0x3F800000]), (sfLog2F, [0x7F800000, 0x7FC00000, 0xFF800000, 0xFF800000])
  , (sfRcpF, [0, 0x80000000, 0x7F800000, 0xFF800000]), (sfRsqrtF, [0, 0x7FC00000, 0x7F800000, 0xFF800000])
  , (sfSqrtF, [0x7F800000, 0x7FC00000, 0, 0x80000000]), (sfSinF, [0x7FC00000, 0x7FC00000, 0, 0x80000000])
  , (sfCosF, [0x7FC00000, 0x7FC00000, 0x3F800000, 0x3F800000]), (sfTanhF, [0x3F800000, 0xBF800000, 0, 0x80000000]) ]

/-- Row `r` of a register, and element (r, j) of four result quarters. -/
def rowOf (g : Nat → Quarter) (r : Nat) : List Nat := (List.range 64).map fun j => elemAt (g (r / 4)) (64 * (r % 4) + j)
def cellOf (v : Nat → Quarter) (r j : Nat) : Nat := elemAt (v (r / 4)) (64 * (r % 4) + j)

/-- How many of the first `r` rows have a number of their own equal to `n`. -/
def seenOf (e : Nat → Nat) (r n : Nat) : Nat := ((List.range r).filter fun i => e i = n).length

end Sys2Proof.Claims

/-! ### Results of SF -/

/-- R226-R228, R255, R273: a special function acts on each element; its special inputs; `sf.rcp`, `sf.sqrt` and `sf.rsqrt` of a finite
number that is not zero lie within half an ulp of the exact result, which is compared without dividing; sines and cosines out of range set
SFRANGE in the tick of their quarter. R255, R281-R285: histograms, shortlists, the mass check, draws and `sf.bget`. -/
def Obligations.SpecialFunctionResult : Prop :=
  ((∀ p ∈ specialWords, ∀ (c : CoreId) (x : Core) (o : Op) (f : Fld) (q : Nat), q < 4 → o.instr = p.1 f →
     ∃ v, putsQuarter c x o q p.2.1 v ∧ ∀ j < 256, elemAt v j = p.2.2 (elemAt (srcQ c x o 0 q) j) % 2 ^ 32) ∧
   (∀ p ∈ specialWords, ∀ x < 2 ^ 32, 0x7F800000 < x % 2 ^ 31 → p.2.2 x = 0x7FC00000) ∧
   (∀ p ∈ specialLimits, [0x7F800000, 0xFF800000, 0, 0x80000000].map p.1 = p.2) ∧
   (∀ x, (0x43000000 ≤ x → x ≤ 0x7F800000 → sfExp2F x = 0x7F800000) ∧ (0xC3160000 ≤ x → x ≤ 0xFF800000 → sfExp2F x = 0) ∧
     (0x80000000 < x → x ≤ 0xFF800000 → sfLog2F x = 0x7FC00000 ∧ sfRsqrtF x = 0x7FC00000 ∧ sfSqrtF x = 0x7FC00000)) ∧
   (∀ x < 2 ^ 32, ∀ m m' : Nat, ∀ n : Bool, ∀ e e' : Int, f32 x = .fin n m e → m ≠ 0 →
     (f32 (sfRcpF x) = .fin n m' e' → 2 * |((m * m' : Nat) : Int) - 2 ^ (-(e + e')).toNat| ≤ m) ∧
     (n = false → f32 (sfSqrtF x) = .fin false m' e' →
       (2 * m' - 1) ^ 2 ≤ m * 2 ^ (e - 2 * e' + 2).toNat ∧ m * 2 ^ (e - 2 * e' + 2).toNat ≤ (2 * m' + 1) ^ 2) ∧
     (n = false → f32 (sfRsqrtF x) = .fin false m' e' →
       (2 * m' - 1) ^ 2 * m ≤ 2 ^ (2 - 2 * e' - e).toNat ∧ 2 ^ (2 - 2 * e' - e).toNat ≤ (2 * m' + 1) ^ 2 * m)) ∧
   (∀ x < 2 ^ 32, 0x49800000 ≤ x % 2 ^ 31 → sfSinF x = 0x7FC00000 ∧ sfCosF x = 0x7FC00000) ∧
   (∀ (c : CoreId) (x : Core) (o : Op) (f : Fld) (q : Nat) (s : State), q < 4 → o.instr = .sfSin f ∨ o.instr = .sfCos f →
     (runOp c x (o.at_ + q) o).eff s =
       if ∃ j < 256, let y := elemAt (srcQ c x o 0 q) j % 2 ^ 31; 0x49800000 ≤ y ∧ y ≤ 0x7F800000 then
         s.modCore c (setNumstat sfRangeBit)
       else s)) ∧
  (∀ (c : CoreId) (x : Core) (o : Op) (f : Fld),
     let row := rowOf (srcW c x o 0)
     let rowQ := fun q r => (List.range 64).map fun j => elemAt (srcQ c x o 0 q) (64 * r + j)
     (∀ z : Bool, o.instr = (if z then .sfHistZ f else .sfHist f) →
       let ne := immBits f 8 8 + 1
       let old := fun (y : Core) n => if z then 0 else (vget y.sf.h n 0).toNat
       (let e := fun r => (row r).headD 0 % 256
        ∃ v, putsWhole c x o 6 false v ∧ ∀ r < 16, ∀ j < 64, cellOf v r j =
          if j = 0 then (if e r < ne then (old x (e r) + seenOf e r (e r)) % 2 ^ 32 else 0xFFFFFFFF) else if j = 1 then e r else 0) ∧
       (let e := fun r => elemAt (gotQ o 0 (r / 4)) (64 * (r % 4)) % 256
        ∀ y : Core, ∀ n < 256, (vget ((landOp c x (o.at_ + 6) o).eff y).sf.h n 0).toNat =
          if n < ne then (old y n + seenOf e 16 n) % 2 ^ 32 else old y n)) ∧
     (o.instr = .sfShort f →
       let old := fun r => (row r).zip (rowOf (srcW c x o 1) r)
       let new := fun r => (rowOf (srcW c x o 2) r).mapIdx fun j y => (y, (o.aux.headD 0 + j) % 2 ^ 32)
       ∃ v w, (runOp c x (o.at_ + 3) o).latches = (List.range 4).map (fun q => latchOf o o.dst q (o.at_ + q + 64) true (v q)) ++
           (List.range 4).map (fun q => latchOf o (o.aux.getD 1 0) q (o.at_ + q + 64) true (w q)) ∧
         ∀ r < 16, ∃ l : List (Nat × Nat), l.Perm (old r ++ new r) ∧ l.Pairwise (fun a b => ranksBefore b a = false) ∧
           ∀ j < 64, l[j]? = some (cellOf v r j, cellOf w r j)) ∧
     (∀ q < 4, o.instr = .sfMass f → ∃ v, putsQuarter c x o q 8 v ∧ ∀ i < 256, v.getLsbD i =
       ((srcQ c x o 1 q).getLsbD i || (decide (i % 64 = 0) && !fle (o.aux.headD 0) (treeRed fadd 6 (rowQ q (i / 64)))))) ∧
     (∀ (u : Bool) (q : Nat), q < 4 → o.instr = (if u then .sfRngU f else .sfRng f) → ∃ v, putsQuarter c x o q 12 v ∧
       ∀ r < 4, ∀ j < 64,
         let p := rowQ q r
         let w := (drawBlock (o.aux.headD 0) (immBits f 8 8) (p.getD 0 0) (p.getD 1 0) (p.getD 2 0 + j / 4)).getD (j % 4) 0
         elemAt v (64 * r + j) = if u then toF32 (.fin false (w / 256) (-24)) else w) ∧
     (∀ q < 4, o.instr = .sfBget f → o.aux.length = 8 → ∃ v, putsQuarter c x o q 2 v ∧
       ∀ j < 256, elemAt v j = if q = 0 ∧ j < 8 then o.aux.getD j 0 % 2 ^ 32 else 0))


/-- R274-R276: `sf.tmx` counts the terms in its domain and those that it leaves out; a row with no term gives the canonical NaN,
and the exact maximum its greatest term; the other means are those of the accumulated terms. With ACT trap the first term out
of the domain, in row order, raises cause 9, and nothing is written. -/
def Obligations.TransformedMeanResult : Prop :=
  ∀ (c : CoreId) (x : Core) (o : Op) (f : Fld), o.instr = .sfTmx f →
    let m := meanOf (immBits f 28 8) (decide (immBits f 27 1 = 1)) (vget x.sf.tab (immBits f 24 3) [])
    let row := rowOf (srcW c x o 0)
    let repl := o.aux.headD 0
    let used := fun r => (row r).filterMap fun y =>
      if inDomain m y then some y else if immBits f 22 2 = 2 ∧ inDomain m repl then some repl else none
    (immBits f 22 2 ≠ 0 ∨ (∀ r < 16, ∀ y ∈ row r, inDomain m y = true) →
      ∃ v, putsWhole c x o 32 true v ∧ ∀ r < 16,
        cellOf v r 1 = (used r).length ∧ cellOf v r 2 = 64 - (used r).length ∧ (∀ j < 64, 3 ≤ j → cellOf v r j = 0) ∧
        (used r = [] → cellOf v r 0 = 0x7FC00000) ∧
        (m = .top → used r ≠ [] → ∃ y ∈ used r, cellOf v r 0 = y % 2 ^ 32 ∧ ∀ z ∈ used r, fkey z ≤ fkey y) ∧
        (used r ≠ [] → cellOf v r 0 =
          meanExit m { cell := (used r).foldl (termStep m) Cell.clear, n := (used r).length, sk := 0 } % 2 ^ 32)) ∧
    (∀ r < 16, ∀ j < 64, immBits f 22 2 = 0 → (∀ i < 64 * r + j, inDomain m ((row (i / 64)).getD (i % 64) 0) = true) →
      inDomain m ((row r).getD j 0) = false →
      causeBy (reqOfOp o) 9 r j ∈ (runOp c x (o.at_ + 3) o).causes ∧ (runOp c x (o.at_ + 3) o).latches = [])

/-- R278, R279, R296, R297, R300: which rows a route keeps in a bin under drop, where they stand, and the counts that it leaves; where
a row goes that its bin defers; when each thing is written. R280-R282, R301, R302: what the other words of bins write, and when.
The checks of composed areas and the ticks of `sf.bdrain` are readings (log 40). -/
def Obligations.RouteAndBinResult : Prop :=
  (∀ (x : Core) (f : Fld) (code : Nat), 0x80 ≤ f.c.toNat → f.c.toNat - 0x80 + immBits f 0 4 < 16 →
     let w := routeWork x f code
     let idx := fun r => (routeIdx x code).getD r 0
     let bin := fun i => coreBin x (f.c.toNat - 0x80 + i)
     (∀ i ≤ immBits f 0 4, binUsable (bin i) = true →
       let n := (bin i).fill.toNat + seenOf idx 16 i
       let b := vget w.bins (f.c.toNat - 0x80 + i) Bin.zero
       b.fill.toNat = min (bin i).cap.toNat n ∧
       ((bin i).rule = 0 → b.dropped.toNat = min (2 ^ 32 - 1) ((bin i).dropped.toNat + (n - (bin i).cap.toNat)) ∧ b.deferred = (bin i).deferred) ∧
       ((bin i).rule = 1 → b.deferred.toNat = min (2 ^ 32 - 1) ((bin i).deferred.toNat + (n - (bin i).cap.toNat)) ∧ b.dropped = (bin i).dropped) ∧
       (∀ r < 16, idx r = i → (r ∈ w.kept ↔ (bin i).fill.toNat + seenOf idx r i < (bin i).cap.toNat) ∧
         (r ∈ w.kept → w.place[r]? = some (binBase (bin i) + 256 * ((bin i).fill.toNat + seenOf idx r i), 0x200000, 0)))) ∧
     (∀ r < 16, immBits f 0 4 < idx r → r ∉ w.kept ∧ w.place[r]? = some (0x200000, 0x200000, 0)) ∧
     (∀ (r b record : Nat) (u : RouteWork),
       let a := (vget u.bins b Bin.zero).spill.toNat
       let cfg := vget x.sf.spcfg a 0
       let n := vget u.cnt a 0
       let v := deferRow x r b record u
       spCap cfg ≠ 0 → cnCount n ≤ spCap cfg → spCap cfg ≤ 4096 →
       (cnCount n < spCap cfg → v.cnt = vset u.cnt a (cnOf (cnCount n + 1) (cnFwd n) (cnDrop n)) ∧ v.bad = u.bad ∧
         v.place = u.place ++ [(spBase cfg + 256 * cnCount n, spRbase cfg + 8 * cnCount n, record)]) ∧
       (cnCount n = spCap cfg → spRule cfg = 0 → v.cnt = vset u.cnt a (cnOf (cnCount n) (cnFwd n) (cnDrop n + 1)) ∧ v.bad = u.bad ∧
         v.place = u.place ++ [(0x200000, 0x200000, 0)]) ∧
       (cnCount n = spCap cfg → spRule cfg = 2 → v.bad = u.bad ++ [(b, r, 8, 3)])) ∧
     (∀ (c : CoreId) (o : Op), o.instr = .sfRoute f → o.aux = routeAux x f code w → w.bad = [] →
       (∀ y : Core, (runOp c y o.at_ o).latches = (List.range 4).map fun q => latchOf o o.dst q (o.at_ + q + 2) false
         (BitVec.ofNat 8192 ((List.range 4).map fun i => if 4 * q + i ∈ w.kept then 2 ^ (64 * i) else 0).sum)) ∧
       (∀ q < 4, ∀ y : Core, ((runOp c y (o.at_ + 2 + q) o).cells = (List.range 4).flatMap fun i => routeCells o (4 * q + i)) ∧
         ∀ l < 16, Touch.ledge l ∈ (runOp c y (o.at_ + 2 + q) o).touches ↔ l ∈ routeLedges x f ∨
           (q < 2 ∧ Touch.ledge l ∈ (readSources y o (o.at_ + 2 + q) (2 + q) 0 o.srcs).touches)) ∧
       (∀ y : Core, ∀ i ≤ immBits f 0 4, let n := f.c.toNat - 0x80 + i
         coreBin ((landOp c y (o.at_ + 6) o).eff y) n = { coreBin y n with
           fill := (vget w.bins n Bin.zero).fill, dropped := (vget w.bins n Bin.zero).dropped
           deferred := (vget w.bins n Bin.zero).deferred }))) ∧
  (∀ (c : CoreId) (x y : Core) (o : Op) (f : Fld),
     (∀ base fillEnd stop ticks : Nat, ∀ r : List Nat, (o.instr = .sfBopen f ∨ o.instr = .sfBdrain f) → o.aux = [base, fillEnd, stop, ticks] ++ r →
       ∀ dt, 1 ≤ dt → dt ≤ ticks → let out := runOp c x (o.at_ + dt) o
         (∀ p ∈ out.cells, p.2 = List.replicate p.2.length 0) ∧
         (∀ a, (∃ p ∈ out.cells, p.1 ≤ a ∧ a < p.1 + p.2.length) ↔
           base + 1024 * (dt - 1) ≤ a ∧ a < base + 1024 * dt ∧ a < stop ∧ fillEnd ≤ a) ∧
         (base < stop → stop ≤ 0x200000 → base + 1024 * (dt - 1) < stop → ∀ l < 16,
           (Touch.ledge l ∈ out.touches ↔ ∃ a, base + 1024 * (dt - 1) ≤ a ∧ a < base + 1024 * dt ∧ a < stop ∧ a / 0x20000 = l))) ∧
     (∀ base fillEnd stop ticks : Nat, ∀ n < 16, ∀ m < 4, ∀ b cap rule spill fill : Nat, o.instr = .sfBdrain f →
       o.aux = [base, fillEnd, stop, ticks, n, m, b, cap, rule, spill, fill] →
       let z := (landOp c x (o.at_ + ticks + 1) o).eff y
       coreBin z n = { coreBin y n with
         base := BitVec.ofNat 64 b, rowb := 256, cap := BitVec.ofNat 13 cap, rule := BitVec.ofNat 2 rule, spill := BitVec.ofNat 2 spill
         fill := BitVec.ofNat 13 fill, dropped := 0, deferred := 0 } ∧
       cnCount (vget z.sf.spcnt m 0) = 0 ∧ cnFwd (vget z.sf.spcnt m 0) = cnFwd (vget y.sf.spcnt m 0) ∧
       cnDrop (vget z.sf.spcnt m 0) = cnDrop (vget y.sf.spcnt m 0)) ∧
     (∀ n < 16, o.instr = .sfBclose f → o.aux = [n] →
       coreBin ((landOp c x (o.at_ + 1) o).eff y) n = { coreBin y n with fill := 0, dropped := 0, deferred := 0 }) ∧
     (∀ n < 16, ∀ fld < 8, ∀ v : Nat, o.instr = .sfBset f → o.aux = [n, fld, v] →
       let b := coreBin y n
       coreBin ((landOp c x (o.at_ + 1) o).eff y) n =
         [ { b with cap := BitVec.ofNat 13 v }, { b with base := BitVec.ofNat 64 v }, { b with rowb := BitVec.ofNat 16 v }
         , { b with fill := BitVec.ofNat 13 v }, { b with dropped := BitVec.ofNat 32 v }, { b with deferred := BitVec.ofNat 32 v }
         , { b with rule := BitVec.ofNat 2 v }, { b with spill := BitVec.ofNat 2 v } ].getD fld b) ∧
     (0x80 ≤ f.c.toNat → f.c.toNat < 0x90 → o.instr = .sfHistLatch f → o.aux = latchedBins x f →
       ∀ e < latchCount f, let n := f.c.toNat - 0x80 + e
         let h := fun i => (vget x.sf.h i 0).toNat
         let b := coreBin ((landOp c x (o.at_ + 2) o).eff y) n
         b.fill.toNat = min (h e) (coreBin x n).cap.toNat ∧ b.dropped.toNat = h e - b.fill.toNat ∧ b.deferred = 0 ∧
         (0 < e → b.base = (coreBin x (n - e)).base + BitVec.ofNat 64 ((coreBin x (n - e)).rowb.toNat * ((List.range e).map h).sum))))


namespace Sys2Proof.Claims

/-! ### Words of MX -/

/-- The physical tile of a z code (R231), and a core with each cell of a tile given. -/
def tileOf (x : Core) (code : RegCode) : Nat := if x.bench.zr then 1 - (code.toNat - 0x74) else code.toNat - 0x74
def withTile (z : Nat) (g : Cell → Cell) (x : Core) : Core :=
  { x with bench := { x.bench with tiles := vset x.bench.tiles z ((getTile x z).map g) } }

/-- `mscale` on a cell (R209, R248). -/
def scaledCell (n : Int) (c : Cell) : Cell :=
  let m := c.m.toInt
  if c.clr || c.nan then c
  else if 0 ≤ n then
    { c with m := BitVec.ofInt 64 (max (-2 ^ 63) (min (2 ^ 63 - 1) (m * 2 ^ n.toNat)))
             sat := c.sat || decide (m * 2 ^ n.toNat < -2 ^ 63) || decide (2 ^ 63 - 1 < m * 2 ^ n.toNat) }
  else
    let q := m / 2 ^ (-n).toNat
    let lost := decide (m % 2 ^ (-n).toNat ≠ 0)
    { c with m := BitVec.ofInt 64 (if lost ∧ q % 2 = 0 then q + 1 else q), jam := c.jam || lost }

/-- The MX words that act at their tick on the core alone, with the registers that they read (R248). -/
def benchWords : List ((Fld → Instr) × (Fld → List RegCode) × (Core → Engine → Fld → Core → Core)) :=
  [ (.mclr, fun _ => [], fun x _ f => withTile (tileOf x f.d) fun _ =>
      { m := 0, e := if immBits f 16 1 = 1 then f.imm.extractLsb' 0 16 else 0, jam := false, nan := false, sat := false
        clr := decide (immBits f 16 1 = 0) })
  , (.mscale, fun _ => [], fun x _ f => withTile (tileOf x f.d) (scaledCell (sintN 7 (immBits f 0 7))))
  , (.mswap, fun _ => [], fun _ _ _ y => { y with bench := { y.bench with zr := !y.bench.zr } })
  , (.mfmt, fun f => [f.a], fun x e f y => { y with csr := { y.csr with
      ft := vset y.csr.ft (f.d.toNat - 0xA0) (readReg x e f.a &&& 0x3FEFF) } }) ]

/-- An MX word that starts an operation: the operation, what else changes at once, what it needs, and what follows the tick. -/
structure BenchWord where
  word : Fld → Instr
  op : Ctx → Fld → Op
  act : Ctx → Fld → Core → Core := fun _ _ x => x
  ok : Ctx → Fld → Bool
  after : Ctx → Fld → Core → Core := fun _ _ x => x

/-- Is the head of the B buffer usable by a K step at its tick (R242, R243)? -/
def headUsable (k : Ctx) (f : Fld) : Bool :=
  match k.core.bench.bbuf.head? with
  | some h => decide (h.bus = decide (immBits f 2 1 = 1)) && decide (bType h.width.toNat = ftBt (boundEntry k f)) && decide (h.ready ≤ k.now)
  | none => false

/-- P0 of R244: the length of a step, without the check of R435. -/
def ticksOf (k : Ctx) (f : Fld) : Nat :=
  let e := boundEntry k f
  if ftBt e = 13 then 2 * typeBits (ftAt e) else typeBits (ftAt e)

/-- A K step (R243, R244, R435): the bench is occupied for its ticks, and the head half is freed after them unless KEEP is set. -/
def stepWord (word : Fld → Instr) : BenchWord :=
  let p := fun k f => if k.core.csr.dual then 2 * ticksOf k f else ticksOf k f
  { word
    op := fun k f => { newOp k (word f) 0 [] [tileOf k.core f.d, blockRow k f, typeBits (ftAt (boundEntry k f)), ticksOf k f, p k f] with
      fe := boundEntry k f, srcs := if f.c = 0 then [] else [physV k.core k.e f.c.toNat] }
    act := fun k f x => { x with bench := { x.bench with
      busy := k.now + p k f
      bbuf := if immBits f 1 1 = 1 then x.bench.bbuf else match x.bench.bbuf with
        | h :: r => { h with freeAt := some (k.now + p k f) } :: r
        | [] => [] } }
    ok := fun k f => decide (k.core.bench.busy ≤ k.now) && ftValid (boundEntry k f) && headUsable k f }

/-- The words of MX that start an operation on their own core (R236). -/
def benchOps : List BenchWord :=
  [Instr.mstep, .mstepN24, .mstepN48, .mstepN14, .mgath].map stepWord ++
  [ { word := .mload, op := fun k f => newOp k (.mload f) 0 [] [tileOf k.core f.d, blockRow k f], ok := fun _ _ => true }
  , { word := .mdrain
      op := fun k f =>
        let e := boundEntry k f
        let t := getTile k.core (tileOf k.core f.a)
        { newOp k (.mdrain f) 0 [] [] with got := sputAll 0 [] ((List.range 16).map fun j =>
            (j, quarterOf ((List.range 256).map fun i => (drainCell (ftBf e) (ftSat e) (vget t (256 * j + i) Cell.clear)).1))) }
      act := fun k f x =>
        let x := withTile (tileOf k.core f.a) (fun y =>
          { m := 0, e := if ftFix (boundEntry k f) then y.e else 0, jam := false, nan := false, sat := false
            clr := !ftFix (boundEntry k f) }) x
        { x with bench := { x.bench with vt := Vector.ofFn fun j : Fin 16 => some (k.now + 24 + j.val) } }
      ok := fun k f => ftValid (boundEntry k f)
      after := fun k f => let e := boundEntry k f
        setNumstat (drainFlags (ftBf e) (ftSat e) (getTile k.core (tileOf k.core f.a))) } ]

/-- A core with an operation started. -/
def withOp (o : Op) (x : Core) : Core := { x with ops := x.ops ++ [o] }

/-- The cores that an `mbsrc` feeds (R240), and a core with a half of its B buffer claimed (R241). -/
def fedBy (k : Ctx) (bus : Bool) : List CoreId :=
  if bus then k.c.cluster.cores.filter fun c => decide ((k.s.core c).job = k.core.job) && ((k.s.core c).stream .mx).present else [k.c]
def withClaim (bus : Bool) (bw ready : Nat) (x : Core) : Core :=
  let half : BHalf := { slot := x.bench.bbuf.any fun y => !y.slot, bus, width := BitVec.ofNat 2 bw, ready, freeAt := none
                        mant := [], scales := [] }
  { x with bench := { x.bench with bbuf := x.bench.bbuf ++ [half] } }

end Sys2Proof.Claims

/-! ### Words of MX -/

/-- R231, R233, R236, R240-R249: every word of MX completes at a tick at which its bench conditions hold, and what it changes at once;
an operation has its first tick. `mdrain` gives the row groups of `rb` their valid ticks at once. `mbsrc` claims a half on every core that
it feeds. The order of the bench checks is a reading (log 35). -/
def Obligations.BenchWordResult : Prop :=
  ∀ (s : State) (c : CoreId) (e : Engine) (f : Fld),
    let k := kOf s c e
    let moved := movedOn s c e 0 none
    (∀ w ∈ benchWords, issues s c e (w.1 f) = true → timedAt s c e = true → regsReady s c e (w.2.1 f) = true →
      exec (w.1 f) s = .next (coreNext s c e (w.2.2 (s.core c) e f))) ∧
    (∀ w ∈ benchOps, timedTurn s c e (w.word f) = true → headOk (s.core c) e (w.word f) = true → w.ok k f = true →
      let o := w.op k f
      let start := fun x => withOp o (w.act k f (moved x))
      let out := runOp c (start (s.core c)) k.now o
      out.causes = [] →
      exec (w.word f) s = .next ((endWord s c e (out.eff (s.modCore c fun x => opTick c k.now o (start x)))).modCore c (w.after k f))) ∧
    (timedTurn s c e (.mbsrc f) = true → headOk (s.core c) e (.mbsrc f) = true →
      let bus := decide (immBits f 2 1 = 1)
      let bw := immBits f 0 2
      let n := if immBits f 5 3 = 0 then 0 else lidx k (immBits f 3 2)
      let ready := k.now + (if bw = 2 then 12 else 8)
      let o : Op := { newOp k (.mbsrc f) 0 [] [(immBits f 22 14 + n * immBits f 5 3 * 16) % 16384, (immBits f 8 14 + n) % 16384] with
        srcs := (fedBy k bus).map Fin.val }
      let t := ((fedBy k bus).foldl (fun u d => u.modCore d (withClaim bus bw ready)) (s.modCore c moved)).modCore c (withOp o)
      (∀ d ∈ fedBy k bus, (s.core d).bench.bbuf.length < 2) → (runOp c (t.core c) k.now o).causes = [] →
      exec (.mbsrc f) s = .next (endWord s c e (t.modCore c (opTick c k.now o))))

/-- R217, R218, R220, R244: what a K step makes of a cell. A partial whose codes are 511 or 0, and what AccAdd does with another: as long as
no bit is shifted out and nothing saturates, the cell's value grows by exactly the partial's; a drain rounds once. R239, R244, R248, R249: what
the operations of MX read at their ticks and leave at their ends. -/
def Obligations.AccumulatorResult : Prop :=
  ((∀ (e : W64) (bits : Nat) (d : StepData) (m n g p : Nat) (c : Cell),
     let ca := d.ca.getD (m * 2 ^ ftAbr e + p * g / (64 / 2 ^ ftAbr e)) 0
     let cb := d.cb.getD (p * g / 2 ^ ftBbr e * 2 ^ ftBbr e + n / (64 / 2 ^ ftBbr e)) 0
     (ca = 511 ∨ cb = 511 → applyPartial e bits d m n g c p = { c with nan := true }) ∧
     (ca ≠ 511 → cb ≠ 511 → ca = 0 ∨ cb = 0 → applyPartial e bits d m n g c p = c) ∧
     (bits = 4 ∨ bits = 8 → ca ≠ 511 → cb ≠ 511 → ca ≠ 0 → cb ≠ 0 → applyPartial e bits d m n g c p =
       accAdd (ftFix e) c (((List.range g).map fun i => d.a1.getD (64 * m + (p * g + i)) 0 * sintN bits (d.b.getD (64 * (p * g + i) + n) 0)).sum)
         ((ca : Int) - 256 - (typeBits (ftAt e) - 1) + ((cb : Int) - 256 - (bits - 1))))) ∧
   (∀ (w : Nat) (planes : Array Nat) (m k : Nat), 0 < w → mantA w planes m k =
     sintN w (((List.range w).map fun j => if (planes.getD j 0).testBit (64 * m + k) then 2 ^ j else 0).sum)) ∧
   (∀ (fixed : Bool) (c : Cell) (s e : Int), c.nan = false → (c.clr = true → c.m = 0 ∧ c.e = 0) → -2 ^ 62 ≤ s → s < 2 ^ 62 → -600 ≤ e → e ≤ 600 →
     let r := accAdd fixed c s e
     r.clr = false ∧ (fixed = true → r.e = c.e) ∧ (fixed = false → r.e.toInt = if c.clr then e else max e c.e.toInt) ∧
     (r.jam = false → r.sat = false → (r.m.toInt : ℚ) * 2 ^ r.e.toInt = c.m.toInt * 2 ^ c.e.toInt + s * 2 ^ e)) ∧
   (∀ (bf sat : Bool) (c : Cell),
     let t := if bf then fmtBf16 else fmtF32
     let up := if bf then 2 ^ 16 else 1
     (c.nan = true → drainCell bf sat c = (0x7FC00000, false)) ∧
     (c.nan = false → c.clr = true ∨ c.m = 0 → drainCell bf sat c = (0, false)) ∧
     (c.nan = false → c.clr = false → c.m ≠ 0 →
       let y := rne t (decide (c.m.toInt < 0)) c.m.toInt.natAbs c.e.toInt
       drainCell bf sat c = if y * up % 2 ^ 31 = 0x7F800000 then (if sat then (y - 1) * up else y * up, true) else (y * up, false)))) ∧
  (∀ (c : CoreId) (x y : Core) (o : Op) (f : Fld),
     let rows := fun row n i => row / 1024 * 1024 + (row % 1024 + n + i) % 1024
     (o.instr = .mload f → ∀ row < 16384, ∀ z < 2, o.aux = [z, row] →
       (∀ q < 16, ∃ v, (runOp c x (o.at_ + q) o).got = [(q, v)] ∧ ∀ i < 8, v.extractLsb' (1024 * i) 1024 = spadRow x (rows row (8 * q) i)) ∧
       (∀ i : Fin 4096,
         let v := f32 (elemAt (sget 0 o.got (i.val / 256)) (i.val % 256))
         let r := (getTile ((landOp c x (o.at_ + 16) o).eff y) z)[i]
         (∀ n m e, v = .fin n m e → r.jam = false ∧ r.nan = false ∧ r.sat = false ∧
           (m = 0 → r.m = 0 ∧ r.e = 0 ∧ r.clr = true) ∧
           (m ≠ 0 → r.m.toInt = signedOf n m ∧ r.e.toInt = e ∧ r.clr = false)) ∧
         ((∀ n m e, v ≠ .fin n m e) → r = { m := 0, e := 0, jam := false, nan := true, sat := false, clr := false }))) ∧
     (o.instr = .mbsrc f → ∀ mb < 16384, ∀ sb < 16384, o.aux.take 2 = [mb, sb] →
       let bw := immBits f 0 2
       let ready := o.at_ + (if bw = 2 then 12 else 8)
       let n := if bw = 1 then 2 else if bw = 2 then 8 else 4
       ((runOp c x o.at_ o).codes = (List.range 64).map fun j => (spadRow x sb).toNat / 2 ^ (16 * j) % 512) ∧
       (∀ t, 1 ≤ t → t ≤ n → ∃ v, (runOp c x (o.at_ + t) o).got = [(t, v)] ∧
         ∀ i < 8, v.extractLsb' (1024 * i) 1024 = spadRow x (rows mb (8 * (t - 1)) i)) ∧
       (∃ mant, (∀ t, 1 ≤ t → t ≤ n → ∀ i < 1024, mant[1024 * (t - 1) + i]? =
           some ((sget 0 (capture (runOp c x (o.at_ + n) o) o).got t).extractLsb' (8 * i) 8)) ∧
         ∀ s, (runOp c x (o.at_ + n) o).eff s = o.srcs.foldl (fun u d => u.modCore (coreOf d)
           (fillHalf (decide (immBits f 2 1 = 1)) bw ready mant ((o.aux.drop 2).map (BitVec.ofNat 9)))) s)) ∧
     (isStep o.instr = true → ∀ h r, x.bench.bbuf = h :: r → (x.csr.dual = false ∨ x.bench.upset = false) →
       (o.aux.getD 4 0 ≤ o.aux.getD 3 0 ∨ ∀ i < 64, sget 0 o.got (64 + i) = sget 0 o.got i) →
       let p := o.aux.getD 4 0
       let z := o.aux.headD 0
       let g := min (64 / 2 ^ ftAbr o.fe) (2 ^ ftBbr o.fe)
       (landOp c x (o.at_ + p) o).causes = [] ∧ (z < 2 → ∀ i : Fin 4096,
         (getTile ((landOp c x (o.at_ + p) o).eff y) z)[i] = (List.range (64 / g)).foldl
           (applyPartial o.fe (bBits h.width.toNat) (stepData o h) (i.val / 64) (i.val % 64) g) (getTile y z)[i])) ∧
     (o.instr = .mdrain f → (∀ j < 16, ((landOp c x (o.at_ + 24 + j) o).eff y).bench.rb = vset y.bench.rb j (sget 0 o.got j))))


namespace Sys2Proof.Claims

/-! ### Words of cairn cores and of dressers -/

/-- Core `k` executes run `r`, which stands at a word. -/
def cairnAt (s : State) (k : Fin 64) (r : Run) : Prop :=
  s.issuer = .cairn k ∧ s.regq = [] ∧ runOn s k = some r ∧ r.trap = none ∧ r.pc < r.m.k.kernel.length

/-- The state in which the run of core `k` is `r`, moved past its word. -/
def runNext (k : Fin 64) (s : State) (r : Run) : State := setRun k (some (goTo (r.pc + 1) r)) s

/-- The state in which the run of core `k` has ended with a trap at its word (R385, R386). -/
def runTrapped (k : Fin 64) (s : State) (r : Run) (detail : Nat) (v : W64) : State :=
  setRun k (some { r with trap := some detail }) (cairnEvent r.m.k.slot r.m.k.cls detail r.m.flow r.m.fseq.toNat r.pc v s)

/-- Bit `i` of a mask (R376: m0 reads as all ones), and register `d` with every lane given. -/
def maskBit (r : Run) (m : BitVec 2) (i : Nat) : Bool := decide (m = 0) || (vget r.msk m.toNat 0).getLsbD i
def withLanes (d : BitVec 4) (f : Nat → W32) (r : Run) : Run := { r with e := vset r.e d.toNat (Vector.ofFn fun i : Fin 16 => f i.val) }

/-- A run with mask `d` written; a write to m0 is discarded. -/
def withMask (d : BitVec 2) (v : BitVec 16) (r : Run) : Run := if d = 0 then r else { r with msk := vset r.msk d.toNat v }

/-- Lane words of two registers, and of a register and an immediate (R379). -/
noncomputable def cairn2Words : List ((BitVec 4 → BitVec 4 → BitVec 4 → BitVec 2 → Instr) × (W32 → W32 → W32)) :=
  [ (.cAdd, fun x y => x + y), (.cSub, fun x y => x - y), (.cMul, fun x y => x * y), (.cAnd, fun x y => x &&& y)
  , (.cOr, fun x y => x ||| y), (.cXor, fun x y => x ^^^ y), (.cShl, fun x y => x <<< (y.toNat % 32))
  , (.cShr, fun x y => x >>> (y.toNat % 32)), (.cSra, fun x y => x.sshiftRight (y.toNat % 32))
  , (.cMin, fun x y => if x.toInt < y.toInt then x else y), (.cMax, fun x y => if x.toInt < y.toInt then y else x)
  , (.cMinu, fun x y => if x.toNat < y.toNat then x else y), (.cMaxu, fun x y => if x.toNat < y.toNat then y else x)
  , (.cFadd, fun x y => BitVec.ofNat 32 (toF32 (vadd (f32 x.toNat) (f32 y.toNat))))
  , (.cFsub, fun x y => BitVec.ofNat 32 (toF32 (vadd (f32 x.toNat) (vneg (f32 y.toNat)))))
  , (.cFmul, fun x y => BitVec.ofNat 32 (toF32 (vmul (f32 x.toNat) (f32 y.toNat))))
  , (.cFmin, fun x y => BitVec.ofNat 32 (fmin x.toNat y.toNat)), (.cFmax, fun x y => BitVec.ofNat 32 (fmax x.toNat y.toNat)) ]
noncomputable def cairnImmWords : List ((BitVec 4 → BitVec 4 → BitVec 2 → BitVec 11 → Instr) × (W32 → W32 → W32)) :=
  [ (.cAddI, fun x y => x + y), (.cSubI, fun x y => x - y), (.cMulI, fun x y => x * y), (.cAndI, fun x y => x &&& y)
  , (.cOrI, fun x y => x ||| y), (.cXorI, fun x y => x ^^^ y), (.cShlI, fun x y => x <<< (y.toNat % 32))
  , (.cShrI, fun x y => x >>> (y.toNat % 32)), (.cSraI, fun x y => x.sshiftRight (y.toNat % 32))
  , (.cMinI, fun x y => if x.toInt < y.toInt then x else y), (.cMaxI, fun x y => if x.toInt < y.toInt then y else x)
  , (.cMinuI, fun x y => if x.toNat < y.toNat then x else y), (.cMaxuI, fun x y => if x.toNat < y.toNat then y else x) ]

/-- Compares of two registers, and of a register and an immediate (R379). -/
noncomputable def cairnCmpWords : List ((BitVec 2 → BitVec 4 → BitVec 4 → BitVec 2 → Instr) × (W32 → W32 → Bool)) :=
  [ (.cCmpEq, fun x y => x == y), (.cCmpNe, fun x y => x != y), (.cCmpLt, fun x y => x.slt y), (.cCmpLe, fun x y => x.sle y)
  , (.cCmpLtu, fun x y => x.ult y), (.cCmpLeu, fun x y => x.ule y), (.cCmpFlt, fun x y => flt x.toNat y.toNat)
  , (.cCmpFle, fun x y => fle x.toNat y.toNat) ]
noncomputable def cairnCmpImmWords : List ((BitVec 2 → BitVec 4 → BitVec 2 → BitVec 11 → Instr) × (W32 → W32 → Bool)) :=
  [ (.cCmpEqI, fun x y => x == y), (.cCmpNeI, fun x y => x != y), (.cCmpLtI, fun x y => x.slt y), (.cCmpLeI, fun x y => x.sle y)
  , (.cCmpLtuI, fun x y => x.ult y), (.cCmpLeuI, fun x y => x.ule y) ]

/-- Mask words (R379). -/
noncomputable def cairnMaskWords : List ((BitVec 2 → BitVec 2 → BitVec 2 → Instr) × (Bool → Bool → Bool)) :=
  [ (.cMand, fun a b => a && b), (.cMor, fun a b => a || b), (.cMxor, fun a b => a ^^ b), (fun d a _ => .cMnot d a, fun a _ => !a) ]

/-- A partial as its lanes hold it (R384). -/
def lanesOfPart (p : Part) (i : Nat) : W32 :=
  [ p.cell.m.extractLsb' 0 32, p.cell.m.extractLsb' 32 32, p.cell.e.setWidth 32
  , BitVec.ofNat 32 (8 * p.cell.jam.toNat + 4 * p.cell.nan.toNat + 2 * p.cell.sat.toNat + (!p.cell.clr).toNat)
  , BitVec.ofNat 32 p.n, BitVec.ofNat 32 p.sk ].getD i 0

/-- An axis as it is made (R173). -/
def freshAxis (name ext istr : Nat) : Axis :=
  { ext, core := ext, lo := 0, padded := false, pad := 0, istr, neg := false, sw := none, ostr := none, name }

/-- An axis with no pad, reversal or swizzle, to which no swizzle refers. -/
def plainIn (w : DressWork) (a : Axis) : Bool :=
  !a.padded && !a.neg && a.sw.isNone && w.axes.all fun b => match b.sw with
    | some (n, _) => decide (n ≠ a.name)
    | none => true

end Sys2Proof.Claims

/-- R376, R379, R381: the words of a cairn run that change only its registers, masks, window or DROP; a lane whose mask bit is clear keeps
its value. R380-R382, R384-R386: records of flow state, repeats and skips, transformed means, and events; a word that would leave its record,
that meets a failed word of flow state or a term outside the domain ends its run with a trap. -/
def Obligations.CairnWordResult : Prop :=
  (∀ (s : State) (k : Fin 64) (r : Run) (d a b n : BitVec 4) (m : BitVec 2) (md ma mb : BitVec 2) (imm : BitVec 11), cairnAt s k r →
     let x := laneAt r a
     let y := laneAt r b
     let z := fun _ : Nat => (imm.signExtend 32 : W32)
     let on := maskBit r m
     let all := fun f => runNext k s (withLanes d f r)
     (∀ p ∈ cairn2Words, exec (p.1 d a b m) s = .next (all fun i => if on i then p.2 (x i) (y i) else laneAt r d i)) ∧
     (∀ p ∈ cairnImmWords, exec (p.1 d a m imm) s = .next (all fun i => if on i then p.2 (x i) (z i) else laneAt r d i)) ∧
     (∀ p ∈ cairnCmpWords, ∃ v, exec (p.1 md a b m) s = .next (runNext k s (withMask md v r)) ∧
       ∀ i < 16, v.getLsbD i = if on i then p.2 (x i) (y i) else maskBit r md i) ∧
     (∀ p ∈ cairnCmpImmWords, ∃ v, exec (p.1 md a m imm) s = .next (runNext k s (withMask md v r)) ∧
       ∀ i < 16, v.getLsbD i = if on i then p.2 (x i) (z i) else maskBit r md i) ∧
     (∀ p ∈ cairnMaskWords, ∃ v, exec (p.1 md ma mb) s = .next (runNext k s (withMask md v r)) ∧
       ∀ i < 16, v.getLsbD i = p.2 (maskBit r ma i) (maskBit r mb i)) ∧
     exec (.cSel d a b m) s = .next (all fun i => if on i then x i else y i) ∧
     (∀ v, exec (.cLi d v) s = .next (all fun _ => v.signExtend 32)) ∧
     (∀ v, exec (.cLhi d v) s = .next (all fun i => v ++ (laneAt r d i).extractLsb' 0 17)) ∧
     exec (.cLidx d) s = .next (all fun i => BitVec.ofNat 32 i) ∧
     exec (.cBcast d a n) s = .next (all fun _ => x n.toNat) ∧
     exec (.cRot d a n) s = .next (all fun i => x ((i + n.toNat) % 16)) ∧
     exec (.cRadd d a m) s = .next (all fun i => if i = 0 then
       BitVec.ofNat 32 (((List.range 16).filter on).map fun j => (x j).toNat).sum else 0) ∧
     (∃ v : W32, exec (.cRmax d a m) s = .next (all fun i => if i = 0 then v else 0) ∧
       (∀ i < 16, on i = true → (x i).toInt ≤ v.toInt) ∧ (v = 0x80000000 ∨ ∃ i < 16, on i = true ∧ v = x i)) ∧
     (∀ off : BitVec 6, exec (.cFld d m off) s = .next (all fun i => if on i then vget r.w (off.toNat + i) 0 else laneAt r d i)) ∧
     (∀ off : BitVec 6, ∃ w, exec (.cFst a m off) s = .next (runNext k s { r with w }) ∧ ∀ j < 64, vget w j 0 =
       if 4 ≤ j ∧ off.toNat ≤ j ∧ j < off.toNat + 16 ∧ on (j - off.toNat) = true then x (j - off.toNat) else vget r.w j 0) ∧
     (∀ lv : BitVec 1, exec (.cRidx d lv) s = .next (all fun _ => BitVec.ofNat 32 (((r.reps[lv.toNat]?).map fun p => p.idx).getD 0))) ∧
     exec .cDrop s = .next (runNext k s { r with drop := true })) ∧
  ((∀ (s : State) (k : Fin 64) (r : Run) (d a b : BitVec 4) (m : BitVec 2), cairnAt s k r →
     let on := maskBit r m
     let part := (cairnSlot s r.m.k.slot).part
     let c := r.m.k
     (∀ (rr : BitVec 6) (x : BitVec 5),
       let o := 64 * (rr.toNat + x.toNat * ((r.reps.head?).map fun p => p.idx).getD 0)
       let base := 64 * classCbase c.w2 + r.m.flow * classRecb c.w0
       let w := 1024 * partPbase part + (base + o) / 4
       (classRecb c.w0 < o + 64 → exec (.cSld d m rr x) s = .next (runTrapped k s r 1 (BitVec.ofNat 64 o)) ∧
         exec (.cSst a m rr x) s = .next (runTrapped k s r 1 (BitVec.ofNat 64 o))) ∧
       (o + 64 ≤ classRecb c.w0 → base + classRecb c.w0 ≤ 4096 * partPsize part →
         ((∃ i < 16, on i = true ∧ sget false s.cairn.flowBad (w + i) = true) →
           exec (.cSld d m rr x) s = .next (runTrapped k (detectFlow w s) r 3 0)) ∧
         ((∀ i < 16, on i = true → sget false s.cairn.flowBad (w + i) = false) → exec (.cSld d m rr x) s =
           .next (runNext k s (withLanes d (fun i => if on i then sget 0 s.cairn.flow (w + i) else laneAt r d i) r))) ∧
         (∃ t, exec (.cSst a m rr x) s = .next (runNext k t r) ∧
           { t with cairn := { t.cairn with flow := s.cairn.flow, flowBad := s.cairn.flowBad } } = s ∧
           ∀ j, sget 0 t.cairn.flow j =
             if w ≤ j ∧ j < w + 16 ∧ on (j - w) = true then laneAt r a (j - w) else sget 0 s.cairn.flow j))) ∧
     (let es := ((List.range 16).filter on).map fun i => tmEntry (.pow (classP c.w2)) (classAct c.w2) (classRepl c.w2) (laneAt r a i).toNat
      ((∃ e ∈ es, e.2.2 = true) → exec (.cTmred d a m) s = .next (runTrapped k s r 2 0)) ∧
      ((∀ e ∈ es, e.2.2 = false) → exec (.cTmred d a m) s =
        .next (runNext k s (withLanes d (lanesOfPart ((es.map fun e => e.1).foldl (mergeParts false) Part.clear)) r)))) ∧
     exec (.cTmmrg d a b) s = .next (runNext k s (withLanes d (lanesOfPart (mergeParts false (partOf (laneReg r a)) (partOf (laneReg r b)))) r)) ∧
     (let p := partOf (laneReg r a)
      exec (.cTmext d a) s = .next (runNext k s (withLanes d (fun i =>
        [BitVec.ofNat 32 (meanExit (.pow (classP c.w2)) p), BitVec.ofNat 32 p.n, BitVec.ofNat 32 p.sk].getD i 0) r))) ∧
     (∀ (n : BitVec 8) (len : BitVec 11), exec (.cRep n len) s =
       .next (runNext k s { r with reps := { n := n.toNat + 1, idx := 0, first := r.pc + 1, len := len.toNat } :: r.reps })) ∧
     (∀ j : BitVec 11, let any := (List.range 16).any on
       exec (.cSkip m j) s = .next (runNext k s (if any then { r with pc := r.pc + j.toNat } else r)) ∧
       exec (.cSkipNone m j) s = .next (runNext k s (if any then r else { r with pc := r.pc + j.toNat }))) ∧
     exec (.cEv a) s = .next (runNext k (cairnEvent c.slot c.cls 0 r.m.flow r.m.fseq.toNat r.pc ((laneAt r a 0).setWidth 64) s) r)) ∧
   (∀ p : Part, p.n < 2 ^ 32 → p.sk < 2 ^ 32 → partOf (Vector.ofFn fun i : Fin 16 => lanesOfPart p i.val) = p) ∧
   (∀ (pc : Nat) (r : Run),
     (r.reps = [] → goTo pc r = { r with pc }) ∧
     (∀ p l, r.reps = p :: l →
       (pc ≠ p.first + p.len → goTo pc r = { r with pc }) ∧
       (pc = p.first + p.len → p.idx + 1 < p.n → goTo pc r = { r with pc := p.first, reps := { p with idx := p.idx + 1 } :: l }) ∧
       (pc = p.first + p.len → p.n ≤ p.idx + 1 → goTo pc r = goTo pc { r with reps := l }))) ∧
   (∀ (j : Fin 16) (c : Fin 8) (detail f fseq off : Nat) (v : W64) (s : State) (id : Nat) (job : Job),
     (cairnSlot s j).job = some id → jobById s id = some job →
     (eventRoom s job = true → cairnEvent j c detail f fseq off v s = jobEvent id (if detail = 2 then 9 else 14) detail
       (BitVec.ofNat 64 (c.val + 2 ^ 8 * (f % 256) + 2 ^ 16 * (off % 4096) + 2 ^ 32 * fseq)) v s) ∧
     (eventRoom s job = false → cairnEvent j c detail f fseq off v s = s.modClass j c fun x =>
       { x with lost := if x.lost = BitVec.allOnes _ then x.lost else x.lost + 1 })))


/-- R173, R174: what each word of a dressing program does to the loader of its cluster, and the refusals. -/
def Obligations.DresserWordResult : Prop :=
  ∀ (s : State) (k : ClusterId) (c j : BitVec 4), s.issuer = .dress k → s.regq = [] →
    let w := (s.cluster k).work
    let put := fun w' => (Host.Outcome.next (s.modCluster k fun x => { x with work := w' }) : Host.Outcome State Fault Refusal)
    let sound := w.axes.length ≤ 6 ∧ w.axes.all (fun a => decide (a.ext ≤ 65536)) = true
    (∀ n : BitVec 16, let e := n.toNat + 1
      (w.closed = false → c.toNat = w.axes.length → c.toNat ≤ 5 → w.total * e ≤ 2 ^ 24 → sound →
        exec (.axis c n) s = put { w with
          axes := w.axes.map (fun a => { a with istr := a.istr * e }) ++ [freshAxis w.names e 1], total := w.total * e, names := w.names + 1 }) ∧
      (w.closed = true ∨ c.toNat ≠ w.axes.length ∨ 5 < c.toNat ∨ 2 ^ 24 < w.total * e →
        ∃ w', exec (.axis c n) s = put w' ∧ w'.refused = true)) ∧
    (∀ (n : BitVec 16) (a : Axis), let e := n.toNat + 1
      w.axes[c.toNat]? = some a →
      (w.emits = 0 → plainIn w a = true → e ∣ a.ext → w.axes.length ≤ 5 → sound →
        exec (.split c n) s = put { w with closed := true, names := w.names + 2, axes := w.axes.take c.toNat ++
          [freshAxis w.names (a.ext / e) (a.istr * e), freshAxis (w.names + 1) e a.istr] ++ w.axes.drop (c.toNat + 1) }) ∧
      (w.emits ≠ 0 ∨ plainIn w a = false ∨ ¬ e ∣ a.ext ∨ 5 < w.axes.length →
        ∃ w', exec (.split c n) s = put w' ∧ w'.refused = true)) ∧
    (∀ a b : Axis, w.axes[c.toNat]? = some a → w.axes[c.toNat + 1]? = some b →
      (w.emits = 0 → plainIn w a = true → plainIn w b = true → a.istr = b.ext * b.istr → a.ext * b.ext ≤ 65536 → sound →
        exec (.join c) s = put { w with closed := true, names := w.names + 1, axes := w.axes.take c.toNat ++
          [freshAxis w.names (a.ext * b.ext) b.istr] ++ w.axes.drop (c.toNat + 2) }) ∧
      (w.emits ≠ 0 ∨ plainIn w a = false ∨ plainIn w b = false ∨ a.istr ≠ b.ext * b.istr ∨ 65536 < a.ext * b.ext →
        ∃ w', exec (.join c) s = put w' ∧ w'.refused = true)) ∧
    (∀ a b : Axis, w.emits = 0 → w.axes[c.toNat]? = some a → w.axes[j.toNat]? = some b →
      exec (.swap c j) s = put { w with closed := true, axes := (w.axes.set c.toNat b).set j.toNat a }) ∧
    (∀ a : Axis, w.emits = 0 → w.axes[c.toNat]? = some a → sound →
      exec (.rev c) s = put { w with closed := true, axes := w.axes.set c.toNat { a with neg := !a.neg } }) ∧
    (∀ (a : Axis) (lo hi : BitVec 16) (v : BitVec 8), w.axes[c.toNat]? = some a →
      (w.emits = 0 → a.padded = false → a.ext + lo.toNat + hi.toNat ≤ 65536 → sound →
        exec (.pad c lo hi v) s = put { w with
          closed := true
          axes := w.axes.set c.toNat { a with lo := lo.toNat, ext := a.ext + lo.toNat + hi.toNat, pad := v, padded := true } }) ∧
      (w.emits ≠ 0 ∨ a.padded = true ∨ 65536 < a.ext + lo.toNat + hi.toNat →
        ∃ w', exec (.pad c lo hi v) s = put w' ∧ w'.refused = true)) ∧
    (∀ (a b : Axis) (m : BitVec 4), w.axes[c.toNat]? = some a → w.axes[j.toNat]? = some b → m ≠ 0 →
      (w.emits = 0 → j ≠ c → a.sw = none → 2 ^ m.toNat ∣ a.ext → sound →
        exec (.tile c j m) s = put { w with closed := true, axes := w.axes.set c.toNat { a with sw := some (b.name, 2 ^ m.toNat) } }) ∧
      (w.emits ≠ 0 ∨ j = c ∨ a.sw ≠ none ∨ ¬ 2 ^ m.toNat ∣ a.ext → ∃ w', exec (.tile c j m) s = put w' ∧ w'.refused = true)) ∧
    (∀ (a : Axis) (st : BitVec 32), w.axes[c.toNat]? = some a →
      (c.toNat = w.emits → sound → exec (.emit c st) s =
        put { w with closed := true, emits := w.emits + 1, axes := w.axes.set c.toNat { a with ostr := some st.toNat } }) ∧
      (c.toNat ≠ w.emits → ∃ w', exec (.emit c st) s = put w' ∧ w'.refused = true)) ∧
    (w.axes[c.toNat]? = none → ∀ i ∈ [Instr.split c 0, .join c, .swap c j, .swap j c, .rev c, .pad c 0 0 0, .tile c j 1, .tile j c 1, .emit c 0],
      ∃ w', exec i s = put w' ∧ w'.refused = true)

/-! ### Exceptions -/

/-- R119, R120, R123, R125, R126: taking a cluster trap. The core records the least code of its causes and the least detail
of that code, sets the OTHER bit of every further code, and names the requesters and the object of the recorded cause, word
numbers being those of R30; the tick goes to TTICK, and LEAD is at the first word of its handler, with nothing fetched. With
TVEC 0 it is a double trap: LEAD stops, and the management notice is posted. Nothing else of the core changes, and no other
core or cluster. R127: the trap frame holds TCAUSE, TINFO, TTICK and the predicate slots, and memory outside the frame's
lines reads as before (where no latch value is written). -/
def Obligations.TrapTaken : Prop :=
  ∀ (s : State) (c : CoreId) (fsave : Bool) (first : TrapCause) (rest : List TrapCause),
    let l := first :: rest
    (∀ o ∈ l, 1 ≤ o.code ∧ o.code ≤ 14 ∧ o.detail < 256 ∧ o.obj < 1024 ∧ (∀ r, o.r1 = some r ∨ o.r2 = some r → r.word < 1024)) →
    let t := takeTrap c fsave first rest s
    let x := s.core c
    let y := t.core c
    ∃ m ∈ l, (∀ o ∈ l, m.code < o.code ∨ (m.code = o.code ∧ m.detail ≤ o.detail)) ∧
      y.trap.tcause.getLsbD 63 = true ∧ y.trap.tcause.getLsbD 62 = decide (x.csr.tvec = 0) ∧ y.trap.tcause.getLsbD 61 = fsave ∧
      y.trap.tcause.extractLsb' 0 4 = BitVec.ofNat 4 m.code ∧ y.trap.tcause.extractLsb' 4 4 = 0 ∧
      (∀ n, 1 ≤ n → n ≤ 14 → y.trap.tcause.getLsbD (31 + n) = (decide (n ≠ m.code) && l.any fun o => decide (o.code = n))) ∧
      y.trap.tinfo.extractLsb' 56 8 = BitVec.ofNat 8 m.detail ∧ y.trap.tinfo.extractLsb' 0 10 = BitVec.ofNat 10 m.obj ∧
      (∀ r, m.r1 = some r → y.trap.tinfo.extractLsb' 53 3 = BitVec.ofNat 3 r.eng.code ∧ y.trap.tinfo.extractLsb' 43 10 = r.pitch ∧
        y.trap.tinfo.extractLsb' 33 10 = BitVec.ofNat 10 r.word) ∧
      (m.r1 = none → y.trap.tinfo.extractLsb' 33 23 = 0) ∧
      (∀ r, m.r2 = some r → y.trap.tinfo.extractLsb' 30 3 = BitVec.ofNat 3 r.eng.code ∧ y.trap.tinfo.extractLsb' 20 10 = r.pitch ∧
        y.trap.tinfo.extractLsb' 10 10 = BitVec.ofNat 10 r.word) ∧
      (m.r2 = none → y.trap.tinfo.extractLsb' 10 23 = 0) ∧
      y.trap.ttick = BitVec.ofNat 64 (tickOf s c) ∧ inTrap y .lead = true ∧
      (x.csr.tvec ≠ 0 → y.trap.stopped = false ∧ y.trap.hpos = Pos.start x.csr.tvec.toNat ∧ y.trap.hbuf = []) ∧
      (x.csr.tvec = 0 → y.trap.stopped = true ∧ t.sys.mgt.getLsbD 4 = true) ∧
      { y with trap := x.trap } = x ∧ OthersSame c s t ∧ (∀ k, t.cluster k = s.cluster k) ∧ t.jobs = s.jobs ∧
      (s.memOk → latchRecords x = [] → inHbm (frameAddr c x) 0x4000 = true →
        deviceBytes t x.csr.world (frameAddr c x) 24 =
          bytesOfNat 8 y.trap.tcause.toNat ++ bytesOfNat 8 y.trap.tinfo.toNat ++ bytesOfNat 8 y.trap.ttick.toNat ∧
        deviceBytes t x.csr.world (frameAddr c x + 0x100) 8 = bytesOfNat 8 (x.scal.pv.toNat + 2 ^ 16 * x.scal.pw.toNat) ∧
        (∀ f v pa, pa / 128 < frameAddr c x / 128 ∨ (frameAddr c x + 0x3FFF) / 128 < pa / 128 →
          seesByte t f v pa = seesByte s f v pa))

/-- The word `i` is the next of an engine whose pitch waits for nothing, and it is the engine's turn, legal or not: untimed,
or at the present tick of a cluster in which nothing is in flight and no other stream is due. -/
def Claims.atTurn (s : State) (c : CoreId) (e : Engine) : Bool :=
  decide (s.issuer = .eng c e) && s.regq.isEmpty && waitsMet s c e &&
    (untimedReady s c e || (timedAt s c e && (s.core c).aligned && quietCluster s c.cluster &&
      c.cluster.cores.all fun d => timedEngines.all fun g => decide (d = c ∧ g = e) || !dueNow s d g))

/-- Where an exception of a cause goes: a trap of the core before anything of the tick, a fault of the AP at its word, or a
double trap of a handler (R78, R118, R119, R123). -/
def Claims.raises (s : State) (c : CoreId) (e : Engine) (code detail obj : Nat) : State :=
  let r : Req := { eng := e, pitch := (nextOf s c e).pos.pitch, word := (nextOf s c e).pos.off }
  if timedAt s c e then (takeTrap c false { code, detail, r1 := some r, r2 := none, obj } [] s).modCluster c.cluster markTried
  else if e = .ap then
    let n := nextOf s c e
    let g : ApFault :=
      { cause := code, detail, level := 0, needW := false, va := 0, inUi := (s.core c).ap.inUi, addr := wordAddr n.pos
        pitch := n.name.1, word := n.name.2, posted := false }
    s.modCore c fun x => { x with ap := { x.ap with fault := some g, host := none } }
  else doubleTrap c code s

/-- R57, R76, R118, R119, R123: a word that fails an encoding check has no effect and raises cause 1 with the failed check as
DETAIL: a trap of a timed word, a fault of the AP, a double trap in a handler. R78, R98: a write of a privileged CSR, or a
`cop` with a function code of 0x40 or above, by a stream that holds no privilege raises cause 2, with DETAIL 2 or 3 in the AP and
0 in LEAD, as does `tret` outside a handler. R123: a double trap sets DOUBLE, writes DCAUSE where it held 0, stops LEAD, keeps every other bit of TCAUSE, TINFO and TTICK, and
posts its notice. R37, R38, R40: a word whose guard slot is unwritten raises cause 3 with kind 3 in strict mode; in gated mode
the cycle is frozen: SLIP counts it, no tick takes place, and no core changes. -/
def Obligations.WordRaises : Prop :=
  (∀ (s : State) (c : CoreId) (e : Engine) (i : Instr) (w : Fields), Claims.atTurn s c e = true → toFields i = some w → rdvFormOf i = none →
     encodingDetail (whereOf (s.core c) e) w ≠ 0 →
     exec i s = .next (Claims.raises s c e 1 (encodingDetail (whereOf (s.core c) e) w) 0)) ∧
  (∀ w ∈ csrWords, ∀ (s : State) (c : CoreId) (e : Engine) (f : Fld), issues s c e (w.1 f) = true → regsReady s c e [f.a, f.d] = true →
     inTrap (s.core c) e = false → ((s.core c).csr.priv = false ∨ inIntr (s.core c) e = true) →
     immBits f 0 12 ∈ [0x041, 0x044, 0x045, 0x04A, 0x04E] → (w.2.1 = .write ∨ readReg (s.core c) e f.a ≠ 0) →
     exec (w.1 f) s = .next (Claims.raises s c e 2 (if e = .ap then 2 else 0) 0)) ∧
  (∀ (s : State) (c : CoreId) (e : Engine) (fn : BitVec 7) (f : Fld), issues s c e (.cop fn f) = true → 0x40 ≤ fn.toNat →
     inTrap (s.core c) e = false → ((s.core c).csr.priv = false ∨ inIntr (s.core c) e = true) →
     exec (.cop fn f) s = .next (Claims.raises s c e 2 (if e = .ap then 3 else 0) 0)) ∧
  (∀ (s : State) (c : CoreId) (f : Fld), timedTurn s c .lead (.tret f) = true → headOk (s.core c) .lead (.tret f) = true →
     exec (.tret f) s = .next (Claims.raises s c .lead 2 0 0)) ∧
  (∀ (s : State) (c : CoreId) (code : Nat), 1 ≤ code → code ≤ 14 → (s.core c).trap.tcause.extractLsb' 4 4 = 0 →
     let t := doubleTrap c code s
     let y := t.core c
     y.trap.tcause.getLsbD 62 = true ∧ y.trap.tcause.extractLsb' 4 4 = BitVec.ofNat 4 code ∧ y.trap.stopped = true ∧
     (∀ b, b < 64 → b ≠ 62 → (b < 4 ∨ 8 ≤ b) → y.trap.tcause.getLsbD b = (s.core c).trap.tcause.getLsbD b) ∧
     y.trap.tinfo = (s.core c).trap.tinfo ∧ y.trap.ttick = (s.core c).trap.ttick ∧ { y with trap := (s.core c).trap } = s.core c ∧
     OthersSame c s t ∧ t.clusters = s.clusters ∧ t.sys.mgt.getLsbD 4 = true ∧ SameMemory s t) ∧
  (∀ (s : State) (c : CoreId) (e : Engine) (i : Instr) (w : Fields), timedTurn s c e i = true → toFields i = some w → rdvFormOf i = none →
     selfGuarded i = false → guardLate (s.core c) e w.f.h = true →
     ((s.core c).csr.strict = true →
       exec i s = .next (Claims.raises s c e 3 3 (0x90 + w.f.h.g.toNat))) ∧
     ((s.core c).csr.strict = false → (s.cluster c.cluster).frzlim = 0 →
       ∃ t, exec i s = .next t ∧ t.cores = s.cores ∧ t.mem = s.mem ∧ (t.cluster c.cluster).clk = (s.cluster c.cluster).clk ∧
         (t.cluster c.cluster).slip.toNat = min ((s.cluster c.cluster).slip.toNat + 1) (2 ^ 64 - 1) ∧
         (∀ k, k ≠ c.cluster → t.cluster k = s.cluster k) ∧
         (t.cluster c.cluster).freeze.map (fun f => (f.run, f.cyc)) = (match (s.cluster c.cluster).freeze with
           | some f => some (f.run + 1, f.cyc + 1)
           | none => some (1, 1)) ∧
         ((s.cluster c.cluster).freeze = none → ∃ f, (t.cluster c.cluster).freeze = some f ∧ f.kind = 3 ∧ f.eng = e ∧ f.core = c.inCluster)))

/-- R36: a tick takes place in a cluster with nothing due and nothing in flight: the clock goes on by one, a freeze ends, and FRZINFO
keeps its length, kind, engine and core (R41); nothing else changes. While a trap is pending in the cluster no tick takes place,
and neither the freeze limit nor a watchdog compare is examined. R40: when a freeze has reached FRZLIM cycles, the core of its
first late operand traps with cause 12 and DETAIL 2, the kind of the operand in OBJ; when the tick count of a core reaches its
nonzero WDCMP, the core traps with cause 12 and DETAIL 1 before any word issues at that tick, at TICK_ATTEMPT and at
WATCHDOG_COMPARE alike. A compare fires at the first attempt of a tick
alone (R124). That it fires before the words of its tick is a reading (log 29). -/
def Obligations.TickEvents : Prop :=
  (∀ (s : State) (k : ClusterId), s.regq = [] → quietCluster s k = true →
     (k.cores.all fun d => timedEngines.all fun g => !dueNow s d g) = true →
     ∃ t, exec (.tickAttempt k) s = .next t ∧ (t.cluster k).clk = (s.cluster k).clk + 1 ∧ (t.cluster k).freeze = none ∧
       (t.cluster k).slip = (s.cluster k).slip ∧ (t.cluster k).frzlim = (s.cluster k).frzlim ∧ (t.cluster k).slots = (s.cluster k).slots ∧
       ((s.cluster k).freeze = none → (t.cluster k).frzinfo = (s.cluster k).frzinfo) ∧
       (∀ f, (s.cluster k).freeze = some f → f.cyc < 2 ^ 32 → f.kind < 16 → f.core < 4 →
         (t.cluster k).frzinfo.extractLsb' 32 32 = BitVec.ofNat 32 f.cyc ∧ (t.cluster k).frzinfo.extractLsb' 21 4 = BitVec.ofNat 4 f.kind ∧
         (t.cluster k).frzinfo.extractLsb' 18 3 = BitVec.ofNat 3 f.eng.code ∧
         (t.cluster k).frzinfo.extractLsb' 16 2 = BitVec.ofNat 2 f.core) ∧
       t.cores = s.cores ∧ (∀ j, j ≠ k → t.cluster j = s.cluster j) ∧ { t with clusters := s.clusters } = s) ∧
  (∀ (s : State) (k : ClusterId), s.regq = [] → (∃ c ∈ k.cores, trapValid (s.core c) = true) →
     exec (.tickAttempt k) s = .next s ∧ exec (.freezeLimit k) s = .next s ∧ exec (.watchdogCompare k) s = .next s) ∧
  (∀ (s : State) (k : ClusterId) (f : Freeze), s.regq = [] → clockStands s k = false → (s.cluster k).freeze = some f →
     (((s.cluster k).frzlim ≠ 0 ∧ (s.cluster k).frzlim.toNat ≤ f.run) →
       exec (.freezeLimit k) s = .next (takeTrap (k.core (Fin.ofNat 4 f.core)) false
         { code := 12, detail := 2, r1 := some { eng := f.eng, pitch := f.pitch, word := f.word }, r2 := none, obj := f.kind } [] s)) ∧
     (((s.cluster k).frzlim = 0 ∨ f.run < (s.cluster k).frzlim.toNat) → exec (.freezeLimit k) s = .next s)) ∧
  (∀ (s : State) (k : ClusterId) (c : CoreId), s.regq = [] → clockStands s k = false → c ∈ k.cores →
     (∀ d ∈ k.cores, ((s.core d).aligned = true ∧ (s.core d).csr.wdcmp ≠ 0 ∧ (s.core d).csr.wdcmp.toNat = tickOf s d ∧
       (s.cluster k).tried = false ∧ (s.core d).trap.wdDone ≠ some (s.cluster k).clk) ↔ d = c) →
     let t := (takeTrap c false { code := 12, detail := 1, r1 := none, r2 := none, obj := 0 } []
       (s.modCore c fun x => { x with trap := { x.trap with wdDone := some (s.cluster k).clk } })).modCluster k markTried
     exec (.tickAttempt k) s = .next t ∧ exec (.watchdogCompare k) s = .next t)

/-! ### The life of a job -/

/-- The present streams of a core. -/
def Claims.presentOn (s : State) (c : CoreId) : List Engine := Engine.all.filter fun e => ((s.core c).stream e).present

/-- R55: a fetch ahead of issue puts units of the engine's image into its buffer, each as memory gives it now, and changes no
memory, no register and no other stream. R18: a job starts when the first item of each present stream is a sound header and its first word is a
legal `rdv.align` with a zero delay; a first word of another kind traps with cause 4 and DETAIL 9, and (R55) a first unit of a timed
engine that is uncorrectable with cause 11 and DETAIL 7. R26, R33, R60, R102: when every
present stream of the team stands at its `rdv.align` with its pitch's waits satisfied, all retire: every tick count reads 0, every predicate slot is written and
false, rotation bases and loop registers are 0, and the s and a registers keep their values. R100, R132: when every member stands
at the same form, the rendezvous retires and is counted; a `rdv.flip` of a team with PREQ begins its suspension; a member at
another form traps with cause 4 and DETAIL 2. R136: while a cluster of a timed member stands for a trap, nothing retires. R409: when its streams have ended and its commands have completed, or after a kill,
a job completes: its record says so, its successors' counts go down by one for each mention, its cores are free, and the job is
gone. Which member a form mismatch names is a reading (log 28). -/
def Obligations.JobEvents : Prop :=
  (∀ (s : State) (c : CoreId) (e : Engine) (a : BitVec 52) (n : BitVec 8), s.regq = [] → swf none (bufOf (s.core c) e) = true →
     hasImage (s.core c) e = true →
     ∃ t, exec (.streamFetch c e a n) s = .next t ∧ posOf (t.core c) e = posOf (s.core c) e ∧
       (∀ i, i < n.toNat → sget none (bufOf (t.core c) e) (a.toNat / 4 * 4 + 4 * i) = some (memoryUnit s c (a.toNat / 4 * 4 + 4 * i))) ∧
       (∀ b, (∀ i, i < n.toNat → b ≠ a.toNat / 4 * 4 + 4 * i) → sget none (bufOf (t.core c) e) b = sget none (bufOf (s.core c) e) b) ∧
       (∀ g, g ≠ e → (t.core c).stream g = (s.core c).stream g) ∧ (t.core c).scal = (s.core c).scal ∧
       (t.core c).vec = (s.core c).vec ∧ (t.core c).csr = (s.core c).csr ∧ OthersSame c s t ∧
       t.clusters = s.clusters ∧ SameMemory s t ∧ t.jobs = s.jobs) ∧
  (∀ (s : State) (j : Job), s.regq = [] → jobById s j.id = some j → j.phase = .loaded →
     (∀ c ∈ j.team, ∀ e ∈ Claims.presentOn s c, (nextJob s c e).fetched = true) →
     let unit (c : CoreId) (e : Engine) : Seen := seeUnit s c ((s.core c).stream e).buf ((s.core c).stream e).pos.base
     ((∀ c ∈ j.team, ∀ e ∈ Claims.presentOn s c,
         let n := nextJob s c e
         (unit c e).bad = false ∧ isHeader (unit c e).val = true ∧ n.bad = false ∧ n.detail = 0 ∧ n.bits.extractLsb' 88 8 = 0xB1 ∧
         n.bits.extractLsb' 80 8 = 0 ∧ (unpackWord n.bits).fn = 0 ∧
         encodingDetail { eng := e, first := true, trap := false, intr := false } (unpackWord n.bits) = 0) →
       exec (.jobStart j.id) s = .next (s.modJob j.id fun j => { j with phase := .running })) ∧
     (∀ c e, j.team = [c] → Claims.presentOn s c = [e] → trapValid (s.core c) = false →
       let trap (code detail : Nat) : State := takeTrap c false
         { code, detail, r1 := some { eng := e, pitch := 0, word := 0 }, r2 := none, obj := 0 } [] s
       (e.timed = true → (unit c e).bad = true → exec (.jobStart j.id) s = .next (trap 11 7)) ∧
       ((unit c e).bad = false → isHeader (unit c e).val = true → (nextJob s c e).bad = false → (nextJob s c e).detail = 0 →
         isAlign (nextJob s c e).bits = false → exec (.jobStart j.id) s = .next (trap 4 9)))) ∧
  (∀ (s : State) (j : Job), s.regq = [] → jobById s j.id = some j → j.phase = .running → j.team.Nodup → j.atFlip = false →
     (∀ c ∈ j.team, trapValid (s.core c) = false) →
     (∀ c ∈ j.team, ((s.core c).stream .ap).loops = Vector.replicate 4 Level.zero) →
     (∀ c ∈ j.team, ∀ e ∈ Claims.presentOn s c, ((s.core c).stream e).first = true ∧ (nextJob s c e).fetched = true ∧
       startCheck s c e = none ∧ ∀ w ∈ (nextJob s c e).waits, waitMet (s.core c) w = true) →
     ∃ t, exec (.rdvAlignRetire j.id) s = .next t ∧ jobById t j.id = some { j with rdvs := 0 } ∧ t.clusters = s.clusters ∧
       (∀ d, d ∉ j.team → t.core d = s.core d) ∧
       ∀ c ∈ j.team, (t.core c).aligned = true ∧ tickOf t c = 0 ∧ (t.core c).scal.s = (s.core c).scal.s ∧
         (t.core c).scal.a = (s.core c).scal.a ∧ (∀ i, i < 15 → slotWritten (t.core c) false i = true ∧ slotVal (t.core c) false i = false) ∧
         (t.core c).bench = Bench.reset ∧ (t.core c).sf.h = Vector.replicate 256 0 ∧ (t.core c).ap.geo = Vector.replicate 8 0 ∧
         ∀ e ∈ Claims.presentOn s c, ((t.core c).stream e).first = false ∧ ((t.core c).stream e).rdvs = 0 ∧
           (e.timed = true → ((t.core c).stream e).rot = 0 ∧ ((t.core c).stream e).loops = Vector.replicate 4 Level.zero)) ∧
  (∀ (s : State) (j : Job), s.regq = [] → jobById s j.id = some j → j.phase = .running → j.atFlip = false → members s j ≠ [] →
     (∀ m ∈ members s j, ((s.core m.1).stream m.2).ended = false ∧ ((s.core m.1).stream m.2).rdvs = j.rdvs) →
     ((∃ m ∈ members s j, m.2.timed = true ∧ trapPending s m.1.cluster = true) → exec (.rendezvousRetire j.id) s = .next s) ∧
     (∀ form : RdvForm, (∀ c ∈ j.team, trapPending s c.cluster = false) → (∀ m ∈ members s j, ((s.core m.1).stream m.2).arrived = some form) →
       ∃ t, exec (.rendezvousRetire j.id) s = .next t ∧
         jobById t j.id = some { j with
           rdvs := j.rdvs + 1
           phase := if form = .flip ∧ (∃ c ∈ j.team, (s.core c).csr.preq = true) then .suspending else .running
           atFlip := decide (form = .flip) && !(j.team.any fun c => (s.core c).csr.preq) && j.swap.isSome } ∧
         t.clusters = s.clusters ∧ ∀ c, (t.core c).scal = (s.core c).scal ∧ (t.core c).streams = (s.core c).streams) ∧
     (∀ c m0 m1, j.team = [c] → (members s j).head? = some m0 → m1 ∈ members s j →
       (∀ m ∈ members s j, ((s.core m.1).stream m.2).arrived.isSome = true) → trapPending s c.cluster = false →
       (members s j).find? (fun m => decide (((s.core m.1).stream m.2).arrived ≠ ((s.core m0.1).stream m0.2).arrived)) = some m1 →
       exec (.rendezvousRetire j.id) s = .next (takeTrap c false
         { code := 4, detail := 2, r1 := some { eng := m1.2, pitch := (nextOf s m1.1 m1.2).pos.pitch, word := (nextOf s m1.1 m1.2).pos.off }
           r2 := none, obj := 0 } [] s)) ∧
     (∀ m ∈ members s j, ((s.core m.1).stream m.2).arrived = none → exec (.rendezvousRetire j.id) s = .next s)) ∧
  (∀ (s : State) (j : Job), s.regq = [] → jobById s j.id = some j → j.replay = none → j.swap = none → s.memOk →
     (inHbm (j.entry + 112) 16 = true ∨ (inHost (j.entry + 112) = true ∧ inHost (j.entry + 127) = true)) →
     (∀ c ∈ j.team, (s.core c).ap.storeQ = []) →
     (j.phase = .killed ∨ (j.phase = .running ∧ (∀ m ∈ members s j, ((s.core m.1).stream m.2).ended = true) ∧
       (∀ c ∈ j.team, (s.core c).cmds = [] ∧ (s.core c).running = []))) →
     ∃ t, exec (.jobComplete j.id) s = .next t ∧ jobById t j.id = none ∧
       deviceBytes t 0 (j.entry + 112) 16 = bytesOfNat 8 ((if j.phase = .killed then 1 else 0) + 2 ^ 8 + 2 ^ 16 * j.tag.toNat) ++
         bytesOfNat 8 j.maxTick ∧
       (∀ c ∈ j.team, (s.core c).job = some j.id → (t.core c).job = none ∧ (t.core c).streams = Vector.replicate 6 Stream.absent) ∧
       (∀ c, (t.core c).scal.s = (s.core c).scal.s ∧ (t.core c).scal.a = (s.core c).scal.a ∧ (t.core c).scratch = (s.core c).scratch) ∧
       ∀ a, (assocGet a t.camp.dep).getD 0 = (assocGet a s.camp.dep).getD 0 +
         (j.succ.filter fun y => decide (y ≠ 0xFFFF) && decide (j.entry - 128 * j.index + 128 * y.toNat = a)).length) ∧
  (∀ (s : State) (j : Job), s.regq = [] → jobById s j.id = some j → j.phase ≠ .killed →
     (j.phase ≠ .running ∨ (∃ m ∈ members s j, ((s.core m.1).stream m.2).ended = false) ∨
       (∃ c ∈ j.team, (s.core c).cmds ≠ [] ∨ (s.core c).running ≠ [])) →
     exec (.jobComplete j.id) s = .next s)

/-- R132: at its drain point, once no command of the team is incomplete, a team's state is saved and its cores are freed: the scalar
registers are kept; the vector registers and the ledges read as zero on resume. R133: PRECTL.FORCE and a forced save stop a team
where it stands: TCAUSE has FSAVE and cause 12, unless a trap was pending in the cluster, and everything is kept, vector registers
among it; FORCED_SAVE does nothing where no suspension is asked for and no save waits. R135: a kill, by PRECTL.KILL, stops every
stream, discards commands and abandons handlers; no memory changes where the job's world has no dirty line. R134, R128: a
team that returns has its job running on its new core, its registers and its tick count back as its context area gives them, and a pending trap's handler starts
anew with an empty bank; a double trap stays stopped; a context area that is wrong is noted for the core's first tick. A write of PRECTL in an image kills, or forces a save, after its word; one that sets neither bit has no
effect. That VALID of a forced save is clear, that KILL wins over FORCE, and what a drain point keeps are readings (log 24, log
47). -/
def Obligations.PreemptEvents : Prop :=
  (∀ (s : State) (j : Job), s.regq = [] → jobById s j.id = some j → j.team.Nodup → (∀ c ∈ j.team, (s.core c).ap.storeQ = [] ∧ (s.core c).ap.host = none) →
     (j.phase = .suspending → (∀ m ∈ members s j, ((s.core m.1).stream m.2).rdvs = j.rdvs) →
       (∀ c ∈ j.team, (s.core c).cmds = [] ∧ (s.core c).running = []) →
       ∃ t j', exec (.drainPointSuspend j.id) s = .next t ∧ jobById t j.id = some j' ∧ j'.phase = .suspended ∧ j'.swap = j.swap ∧
         j'.saved.map (fun v => v.core.scal) = j.team.map (fun c => (s.core c).scal) ∧
         (∀ v ∈ j'.saved, v.core.vec.v = Vector.replicate 128 0 ∧ v.core.vec.k = Vector.replicate 8 0 ∧ v.core.scratch = []) ∧
         (∀ c ∈ j.team, (t.core c).job = none ∧ (t.core c).streams = Vector.replicate 6 Stream.absent) ∧
         (∀ c, c ∉ j.team → t.core c = s.core c)) ∧
     ((j.phase ≠ .suspending ∨ (∃ c ∈ j.team, (s.core c).cmds ≠ [] ∨ (s.core c).running ≠ [])) →
       exec (.drainPointSuspend j.id) s = .next s) ∧
     (j.save = false → (∀ c ∈ j.team, (s.core c).csr.preq = false) → exec (.forcedSave j.id) s = .next s) ∧
     (∀ i, (i = .forcedSave j.id ∧ (j.save = true ∨ ∃ c ∈ j.team, (s.core c).csr.preq = true)) ∨
         (∃ c, i = .prectlForce c ∧ (s.core c).job = some j.id) →
       j.phase = .running → (∀ c ∈ j.team, (s.core c).running = []) →
       ∃ t j', exec i s = .next t ∧ jobById t j.id = some j' ∧ j'.phase = .saved ∧
         j'.saved.map (fun v => (v.core.scal, v.core.vec.v, v.core.vec.k, v.core.scratch, v.core.cmds)) =
           j.team.map (fun c => ((s.core c).scal, (s.core c).vec.v, (s.core c).vec.k, (s.core c).scratch, (s.core c).cmds)) ∧
         ((∀ c ∈ j.team, trapPending s c.cluster = false) → ∀ v ∈ j'.saved,
           v.core.trap.tcause.getLsbD 61 = true ∧ v.core.trap.tcause.extractLsb' 0 4 = 12 ∧ v.core.trap.tcause.getLsbD 63 = false ∧
           v.core.trap.tinfo = 0x0300000000000000) ∧
         (∀ c ∈ j.team, trapPending s c.cluster = true →
           ∃ v ∈ j'.saved, { v.core.trap with wdDone := (s.core c).trap.wdDone } = (s.core c).trap) ∧
         (∀ c ∈ j.team, (t.core c).job = none ∧ (t.core c).streams = Vector.replicate 6 Stream.absent) ∧
         (∀ c, c ∉ j.team → t.core c = s.core c))) ∧
  (∀ (s : State) (c : CoreId), s.regq = [] →
     ((s.core c).job = none → exec (.prectlForce c) s = .next s ∧ exec (.prectlKill c) s = .next s) ∧
     (∀ j, (s.core c).job = some j.id → jobById s j.id = some j → j.resident = true →
       ∃ t, exec (.prectlKill c) s = .next t ∧ jobById t j.id = some { j with phase := .killed, saved := [] } ∧
         ((∀ f line x, l2Get s f line = some x → x.world = j.plane.world → x.dirty = 0) → t.mem = s.mem ∧ t.l2 = s.l2) ∧
         (∀ k, (t.cluster k).clk = (s.cluster k).clk ∧ ((∀ d ∈ j.team, d.cluster ≠ k) → t.cluster k = s.cluster k)) ∧
         (∀ d, d ∉ j.team → t.core d = s.core d) ∧ (∀ k ∈ t.fabric.colls, k.job ≠ j.id) ∧
         ∀ d ∈ j.team, (t.core d).streams = Vector.replicate 6 Stream.absent ∧ (t.core d).cmds = [] ∧ (t.core d).running = [] ∧
           (t.core d).ap.storeQ = [] ∧ (t.core d).trap.handler = false ∧ trapValid (t.core d) = false ∧
           (t.core d).scal.s = (s.core d).scal.s ∧ (t.core d).scal.a = (s.core d).scal.a ∧ (t.core d).vec.v = (s.core d).vec.v ∧
           (t.core d).scratch = (s.core d).scratch)) ∧
  (∀ (s : State) (j : Job) (c : CoreId) (sv : SavedCore) (ch : Channel), s.regq = [] → jobById s j.id = some j → j.saved = [sv] →
     slotChannel s j.slot = some ch → ch.resume = some j.id → s.camp.stopped = false → teamPlace s j = some [c] → sv.late = [] →
     (readContext s sv = none → sv.core.cmds = [] → ∃ t, exec (.teamResume j.id) s = .next t ∧ (t.core c).badCtx = true ∧
       (t.core c).job = some j.id) ∧
     ∀ x, readContext s sv = some x → x.cmds = [] → x.aligned = true →
     ∃ t, exec (.teamResume j.id) s = .next t ∧ (t.core c).badCtx = false ∧
       jobById t j.id = some { j with phase := .running, team := [c], saved := [], eligible := false } ∧ (t.core c).job = some j.id ∧
       (t.core c).scal.s = x.scal.s ∧ (t.core c).scal.a = x.scal.a ∧ (t.core c).scal.pv = x.scal.pv ∧
       (t.core c).vec.v = x.vec.v ∧ (t.core c).scratch = x.scratch ∧ (t.core c).csr.world = (s.core c).csr.world ∧
       tickOf t c = x.tickHold + (sv.clk - x.tick0) ∧ sv.clk ≤ (t.cluster c.cluster).clk ∧
       (trapValid x = true → inTrap (t.core c) .lead = true ∧ (t.core c).scal.hs = Vector.replicate 32 0 ∧
         (x.trap.tcause.getLsbD 62 = true → (t.core c).trap.stopped = true) ∧
         (x.trap.tcause.getLsbD 62 = false → (t.core c).trap.stopped = false ∧ (t.core c).trap.hpos = Pos.start x.csr.tvec.toNat)) ∧
       (trapValid x = false → inTrap (t.core c) .lead = false) ∧ slotChannel t j.slot = none) ∧
  (∀ w ∈ csrWords, ∀ (s : State) (c : CoreId) (e : Engine) (f : Fld), f.d = 0 → issues s c e (w.1 f) = true → regsReady s c e [f.a] = true →
     immBits f 0 12 = 0x04E → streamPriv (Ctx.mk s c e (reqOf s c e) (s.cluster c.cluster).clk) = true →
     let v := readReg (s.core c) e f.a
     let u := endWord s c e (movedState s c e)
     (w.2.1 ≠ .clear → v.getLsbD 2 = true → exec (w.1 f) s = exec (.prectlKill c) u) ∧
     (w.2.1 ≠ .clear → v.getLsbD 2 = false → v.getLsbD 1 = true → exec (w.1 f) s = exec (.prectlForce c) u) ∧
     ((w.2.1 = .clear ∨ (v.getLsbD 2 = false ∧ v.getLsbD 1 = false)) → exec (w.1 f) s = .next u))

/-! ### Events of the APs, the caches and the scrub engine -/

/-- R186, R189: the walk that the next word of an AP needs ends, for a load of one byte, with a fault of cause 6 and DETAIL 1 at level 3 where the root entry is not valid, and
with the leaf in the TLB where the root entry points to a table whose entry is a sound 1 GiB leaf; where no word of the AP
that is to issue accesses the address, or its translation is there already, there is no walk. R192, R193: the record of a halted AP goes to the ring once, while the ring is enabled and
has room. R194: APRES clears the fault, and nothing else. R147: the oldest entry of a queue that waits for its bytes has them.
R314: an evicted line's dirty bytes are in HBM, and its face holds no copy; other lines read as before. What PAGE_WALK keeps in
the walk cache is a reading (log 22). -/
def Obligations.ApEvents : Prop :=
  (∀ (s : State) (c : CoreId) (va : W64) (acc : Access), s.regq = [] →
     ((walkPlan s c va.toNat acc = none ∨ tlbFind (s.core c) va.toNat ≠ none) → exec (.pageWalk c va acc) s = .next s) ∧
     (let root := ((s.core c).csr.xlate.extractLsb' 16 32).toNat * 2 ^ 20
      let a3 := root + 8 * bitsN va.toNat 39 17
      let e3 := deviceWord s 0 a3
      walkPlan s c va.toNat acc ≠ none → tlbFind (s.core c) va.toNat = none → va.toNat < 2 ^ 56 →
      (s.core c).ap.walks = [] → inHbm root (2 ^ 20) = true → scrubMarked s a3 8 = false → poisoned s a3 8 = false →
      (∀ f : Fld, let k : Ctx := (turnOf s c .ap).ctx s (s.cluster c.cluster).clk
        e3.getLsbD 0 = false → (turnOf s c .ap).instr = some (.ldB f) → va.toNat = eaOf k f → acc = .read → (s.core c).ap.host = none →
        regsReady s c .ap [f.a, f.d] = true →
        exec (.pageWalk c va acc) s = .next (apFault c (apFaultOf s c 6 1 3 false va) s)) ∧
      (let a2 := pteAddr e3 + 8 * bitsN va.toNat 30 9
       let e2 := deviceWord s 0 a2
       let leaf : TlbEntry :=
         { va := va.toNat / 2 ^ 30 * 2 ^ 30, bits := 30, asid := (s.core c).csr.xlate.extractLsb' 48 16, g := pteG e2, w := pteW e2
           r := pteR e2, excl := pteExcl e2, world := pteWorld e2, pa := pteAddr e2 }
       e3.getLsbD 0 = true → pteZeros e3 = true → pteLeaf e3 = false → pteAddr e3 % 4096 = 0 → inHbm (pteAddr e3) 4096 = true →
       scrubMarked s a2 8 = false → poisoned s a2 8 = false → e2.getLsbD 0 = true → pteZeros e2 = true → pteLeaf e2 = true →
       pteAddr e2 % 2 ^ 30 = 0 → leafCheck s c (apPriv (s.core c)) acc leaf va.toNat 1 2 = none →
       ∃ t w, exec (.pageWalk c va acc) s = .next t ∧ tlbFind (t.core c) va.toNat = some leaf ∧
         t = s.modCore c fun x => { x with ap := { x.ap with tlb := (leaf :: x.ap.tlb).take 1024, walks := w } }))) ∧
  (∀ (s : State) (c : CoreId) (f : ApFault), s.regq = [] → (s.core c).ap.fault = some f →
     let base := bitsN s.sys.fqbase.toNat 12 40 * 4096
     let size := 2 ^ s.sys.fqsize.toNat
     ((f.posted = true ∨ base = 0 ∨ size ≤ (s.sys.fqtail - s.sys.fqhead).toNat) → exec (.faultRecordPost c) s = .next s) ∧
     (f.posted = false → base ≠ 0 → (s.sys.fqtail - s.sys.fqhead).toNat < size → s.memOk → f.cause < 16 → f.detail < 16 → f.level < 4 →
       f.word < 1024 → f.addr < 2 ^ 64 →
       let a := base + 32 * (s.sys.fqtail.toNat % size)
       inHbm a 32 = true →
       ∃ t, exec (.faultRecordPost c) s = .next t ∧ t.sys.fqtail = s.sys.fqtail + 1 ∧ t.sys.fseq = s.sys.fseq + 1 ∧
         t.sys.mgt.getLsbD 2 = true ∧ (t.core c).ap.fault = some { f with posted := true } ∧
         { t.core c with ap := (s.core c).ap } = s.core c ∧ OthersSame c s t ∧ t.clusters = s.clusters ∧
         (deviceWord t 0 a).extractLsb' 0 4 = BitVec.ofNat 4 f.cause ∧ (deviceWord t 0 a).extractLsb' 8 4 = BitVec.ofNat 4 f.detail ∧
         (deviceWord t 0 a).extractLsb' 12 7 = BitVec.ofNat 7 c.val ∧ (deviceWord t 0 a).getLsbD 19 = f.inUi ∧
         (deviceWord t 0 a).getLsbD 20 = f.needW ∧
         (deviceWord t 0 a).extractLsb' 32 16 = (s.core c).csr.xlate.extractLsb' 48 16 ∧
         (deviceWord t 0 a).extractLsb' 48 4 = (s.core c).csr.world ∧
         deviceWord t 0 (a + 8) = f.va ∧ deviceWord t 0 (a + 16) = BitVec.ofNat 64 f.addr ∧
         (deviceWord t 0 (a + 24)).extractLsb' 0 10 = f.pitch ∧ (deviceWord t 0 (a + 24)).extractLsb' 10 10 = BitVec.ofNat 10 f.word ∧
         (deviceWord t 0 (a + 24)).extractLsb' 20 2 = BitVec.ofNat 2 f.level ∧ (deviceWord t 0 (a + 24)).extractLsb' 32 32 = s.sys.fseq)) ∧
  (∀ (s : State) (v : W64), s.regq = [] → powered s = true →
     let c := coreOf (v.extractLsb' 0 7).toNat
     ((s.core c).ap.fault = none → exec (.apres v) s = .next s) ∧
     ((s.core c).ap.fault ≠ none → (s.core c).ap.stale = false →
       exec (.apres v) s = .next (s.modCore c fun x => { x with ap := { x.ap with fault := none } }))) ∧
  (∀ (s : State) (c : CoreId) (q : Fin 8) (l1 : List LqEntry) (e : LqEntry) (l2 : List LqEntry), s.regq = [] →
     (s.core c).vec.q[q] = l1 ++ e :: l2 → (∀ x ∈ l1, x.pending = none) → e.pending ≠ none →
     exec (.qldDataArrive c q) s = .next (s.modCore c fun x => { x with vec := { x.vec with
       q := x.vec.q.set q (l1 ++ { e with pending := none } :: l2) } })) ∧
  (∀ (s : State) (f : Fin 4) (line : BitVec 45), s.regq = [] → s.memOk →
     ∃ t, exec (.l2Eviction f line) s = .next t ∧ l2Get t f line.toNat = none ∧ t.cores = s.cores ∧ t.clusters = s.clusters ∧ t.memOk ∧
       (∀ g v pa, pa / 128 ≠ line.toNat → seesByte t g v pa = seesByte s g v pa) ∧
       ∀ x i, l2Get s f line.toNat = some x → x.key = keyNum s x.world → i < 128 → x.dirty.getLsbD i = true →
         sget 0 t.mem.hbm (128 * line.toNat + i) = rowByte x.data i)

/-- R129, R130: with UIEN set, the oldest held completion adds its record to a queue of fewer than 64 records, and its reply is
written then; a full queue holds it. A read of UIREC gives the head record to a register and pops it. The AP enters its handler
between two words when UIEN is set, a record waits, and it is neither halted nor in the handler already. R438: a read of UEADDR
clears it. R195-R197: an invalidate submitted through INVCTL is counted; it removes from every AP the leaves of its range, of its
ASID or global, and of the size its hint names, and no other leaf; it is acknowledged in INVDONE once no access that uses what
it removed remains. R391-R393: a scrub step does the next piece of work of its world and counts it; the last ends the world's scrubs. R394: a
core's world changes only while the core is neither blocked nor resident; its non-ledge state is then zero and its ledges are
kept. A read of CWSTAT clears REFUSED. Which uses an acknowledgement waits for is a reading (log 23). -/
def Obligations.DeviceEvents : Prop :=
  (∀ (s : State) (c : CoreId), s.regq = [] →
     ((s.core c).ap.heldDone = [] ∨ 64 ≤ (s.core c).ap.recs.length → exec (.completionRecordEnqueue c) s = .next s) ∧
     (∀ y rest, (s.core c).ap.heldDone = y :: rest → (s.core c).ap.recs.length < 64 → regClass y.d.toNat = some .a →
       ∃ t, exec (.completionRecordEnqueue c) s = .next t ∧ (t.core c).ap.recs = (s.core c).ap.recs ++ [y.record] ∧
         (t.core c).ap.heldDone = rest ∧ readA (t.core c) y.intr y.d.toNat = y.v ∧ (∀ k ∈ (t.core c).running, y.cmd ≠ some k.id) ∧
         (t.core c).scal.s = (s.core c).scal.s ∧ (t.core c).vec = (s.core c).vec ∧ OthersSame c s t ∧ t.clusters = s.clusters ∧
         SameMemory s t)) ∧
  (∀ (s : State) (c : CoreId) (d : Fin 32), s.regq = [] →
     ∃ t, exec (.uirecRead c d) s = .next t ∧ (t.core c).ap.recs = (s.core c).ap.recs.drop 1 ∧
       readA (t.core c) (s.core c).ap.inUi d.val = (s.core c).ap.recs.headD 0 ∧
       (∀ j, j % 32 ≠ d.val → readA (t.core c) (s.core c).ap.inUi j = readA (s.core c) (s.core c).ap.inUi j) ∧ OthersSame c s t ∧
       SameMemory s t ∧ t.clusters = s.clusters) ∧
  (∀ (s : State) (c : CoreId), s.regq = [] →
     let x := s.core c
     let go := x.ap.uien && !x.ap.recs.isEmpty && !x.ap.inUi && x.ap.fault.isNone && (x.stream .ap).present && !(x.stream .ap).ended
       && !(x.stream .ap).first && x.ap.host.isNone
     (go = false → exec (.uiEntry c) s = .next s) ∧
     (go = true → exec (.uiEntry c) s = .next (s.modCore c fun x => { x with ap := { x.ap with
       inUi := true, uiepc := BitVec.ofNat 64 (wordAddr (nextOf s c .ap).pos), uiPos := Pos.start (x.ap.uiAddr.toNat * 64)
       uiBuf := [] } }))) ∧
  (∀ (s : State) (c : CoreId), s.regq = [] →
     exec (.ueaddrRead c) s = .next (s.modCore c fun x => { x with csr := { x.csr with ueaddr := 0 } })) ∧
  (∀ (s : State) (v : W64), s.regq = [] → powered s = true →
     ∃ t, exec (.invctlGo v) s = .next t ∧ t.sys.invAsid = v.extractLsb' 32 16 ∧ t.sys.invHint = v.extractLsb' 0 2 ∧
       t.sys.invdone = s.sys.invdone ∧
       (v.getLsbD 63 = false → t.sys.invals = s.sys.invals ∧ t.sys.invsub = s.sys.invsub) ∧
       (v.getLsbD 63 = true → t.sys.invsub = s.sys.invsub + 1 ∧ t.sys.invals = s.sys.invals ++
         [{ va := s.sys.inva.toNat, len := s.sys.invl.toNat, asid := v.extractLsb' 32 16, hint := v.extractLsb' 0 2, from_ := none, sent := false, gen := 0 }]) ∧
       t.cores = s.cores ∧ t.clusters = s.clusters ∧ SameMemory s t) ∧
  (∀ (s : State), s.regq = [] → s.sys.invals = [] → exec .invalidateAck s = .next s) ∧
  (∀ (s : State) (v : Inval) (rest : List Inval), s.regq = [] → s.sys.invals = v :: rest → v.from_ = none → v.sent = false →
     let covers (va bits : Nat) (g : Bool) (asid : BitVec 16) : Bool :=
       (decide (v.len = 0) || (decide (va < v.va + v.len) && decide (v.va < va + 2 ^ bits)))
         && (g || decide (asid = v.asid)) && (decide (v.hint = 0) || decide (bits = [0, 16, 21, 30].getD v.hint.toNat 0))
     let removed (va : Nat) (u : Use) : Bool :=
       decide (u.gen ≤ s.sys.gen) && covers (va / 2 ^ u.bits * 2 ^ u.bits) u.bits u.g u.asid
     ∃ t, exec .invalidateAck s = .next t ∧ t.clusters = s.clusters ∧ SameMemory s t ∧
       (∀ c e, e ∈ (t.core c).ap.tlb ↔ e ∈ (s.core c).ap.tlb ∧ covers e.va e.bits e.g e.asid = false) ∧ (∀ c, (t.core c).scal = (s.core c).scal) ∧
       ((∀ c, (∀ o ∈ (s.core c).ap.storeQ, removed o.va o.use = false) ∧
           (∀ k ∈ (s.core c).cmds ++ (s.core c).running, ∀ p ∈ k.pieces, removed p.va p.use = false) ∧
           ∀ q : Fin 8, ∀ e ∈ (s.core c).vec.q[q], ∀ p ∈ e.pending.getD [], removed p.va p.use = false) →
         (∀ i : Fin 128, ∀ r ∈ s.tether.sess[i].outstanding, removed r.va r.use = false) →
         t.sys.invals = rest ∧ t.sys.invdone = s.sys.invdone + 1) ∧
       ((∃ c, (∃ o ∈ (s.core c).ap.storeQ, removed o.va o.use = true) ∨
           ∃ k ∈ (s.core c).cmds ++ (s.core c).running, ∃ p ∈ k.pieces, removed p.va p.use = true) →
         t.sys.invals = { v with sent := true, gen := s.sys.gen } :: rest ∧ t.sys.invdone = s.sys.invdone)) ∧
  (∀ (s : State) (w : World), s.regq = [] →
     ((∀ x ∈ s.scrub.list, x.world ≠ w) → exec (.scrubStep w) s = .next s) ∧
     (∀ x, s.scrub.list = [x] → s.scrub.joins = [] → x.world = w → x.steps < scrubSteps x →
       let d := vget s.scrub.done w.toNat 0 + 1
       ∃ t, exec (.scrubStep w) s = .next t ∧ vget t.scrub.done w.toNat 0 = d ∧
         (d = vget s.scrub.total w.toNat 0 → vget t.scrub.active w.toNat true = false ∧ t.scrub.list = []) ∧
         (d ≠ vget s.scrub.total w.toNat 0 → t.scrub.active = s.scrub.active ∧ t.scrub.list = [{ x with steps := x.steps + 1 }]) ∧
         (x.kind = 1 → x.a.toNat % 4096 = 0 → s.memOk →
           (∀ a, x.a.toNat + 4096 * x.steps ≤ a → a < x.a.toNat + 4096 * x.steps + 4096 →
             sget 0 t.mem.hbm a = 0 ∧ sget 0 t.mem.lineKey (a / 128) = keyNum s 0 ∧ ∀ f, l2Get t f (a / 128) = none) ∧
           (∀ a, (a < x.a.toNat + 4096 * x.steps ∨ x.a.toNat + 4096 * x.steps + 4096 ≤ a) →
             sget 0 t.mem.hbm a = sget 0 s.mem.hbm a ∧ sget 0 t.mem.lineKey (a / 128) = sget 0 s.mem.lineKey (a / 128))) ∧
         (x.kind = 0 → x.steps = 0 → d ≠ vget s.scrub.total w.toNat 0 →
           let y := t.core (coreOf x.a.toNat)
           y.scal.s = Vector.replicate 32 0 ∧ y.scal.a = Vector.replicate 32 0 ∧ y.vec.v = Vector.replicate 128 0 ∧
           y.ap.geo = Vector.replicate 8 0 ∧ y.csr.tmshape = 0 ∧ y.scratch = (s.core (coreOf x.a.toNat)).scratch) ∧
         (x.kind = 0 → x.b.extractLsb' 0 16 = 1 → x.steps = 1 → x.b.extractLsb' 16 10 = 31 →
           (∀ a, a < 4096 → sget 0 (t.core (coreOf x.a.toNat)).scratch a = 0) ∧
           (∀ a, 4096 ≤ a → sget 0 (t.core (coreOf x.a.toNat)).scratch a = sget 0 (s.core (coreOf x.a.toNat)).scratch a)))) ∧
  (∀ (s : State) (c : CoreId) (v : W64), s.regq = [] → powered s = true →
     let w : World := v.extractLsb' 0 4
     ((s.core c).job ≠ none ∨ (∃ x ∈ s.scrub.list, x.kind = 0 ∧ x.a.toNat % 128 = c.val) →
       exec (.cwreq c v) s = .next { s with scrub := { s.scrub with refused := s.scrub.refused.set c true } }) ∧
     ((s.core c).job = none → (∀ x ∈ s.scrub.list, x.kind = 0 → x.a.toNat % 128 ≠ c.val) → s.scrub.cworld[c] = w →
       exec (.cwreq c v) s = .next s) ∧
     ((s.core c).job = none → (∀ x ∈ s.scrub.list, x.kind = 0 → x.a.toNat % 128 ≠ c.val) → s.scrub.cworld[c] ≠ w →
       ∃ t, exec (.cwreq c v) s = .next t ∧ t.scrub.cworld[c] = w ∧ (t.core c).csr.world = w ∧ (t.core c).ap.tlb = [] ∧
         (t.core c).scal.s = Vector.replicate 32 0 ∧ (t.core c).scal.a = Vector.replicate 32 0 ∧
         (t.core c).vec.v = Vector.replicate 128 0 ∧ (t.core c).scratch = (s.core c).scratch ∧ OthersSame c s t ∧
         t.clusters = s.clusters ∧ SameMemory s t) ∧
     exec (.cwstatRead c) s = .next { s with scrub := { s.scrub with refused := s.scrub.refused.set c false } })

/-! ### Commands -/

/-- A command with function code `fn` is dispatched on the core, holds no completion back, waits for nothing of the host and
has no write waiting there; the key slot of its world is not empty after a zeroise, unless the command is a privileged one. -/
def Claims.performing (s : State) (c : CoreId) (k : Command) (fn : Nat) : Bool :=
  s.regq.isEmpty && decide (runningCmd s c k.id = some k) && decide (k.fn.toNat = fn) && !hostPending s c k && !writesHeld s c k.id
    && (decide (0x40 ≤ fn) || !s.keys.zeroed.getLsbD k.world.toNat)

/-- The event ends the command with a STATUS and a reply after the core has become `y`; no other core or cluster changes, nor
memory as any reader sees it. -/
def Claims.endsOn (s t : State) (c : CoreId) (k : Command) (status : Nat) (reply : W64) (y : Core) : Prop :=
  t.core c = completeOn k status reply (forgetCmd k.id y) ∧ OthersSame c s t ∧ t.clusters = s.clusters ∧ SameMemory s t

/-- Of a core only the scratchpad differs. -/
def Claims.ScratchOnly (x y : Core) : Prop := { y with scratch := x.scratch, parityBad := x.parityBad } = x

/-- R81, R158, R162: a command at the head of its queue whose guard slot is written true may perform; one whose guard is false leaves
the queue and completes as a null with STATUS 0 and a zero reply; an unwritten guard holds it. A command that may perform goes to
its engine when no other command is there; the eight copy queues of a cluster take turns. R129, R161: a completed command leaves its engine and its reply is written: to a
register as it is, to a slot as whether it is nonzero; with UIEN set the AP's completion is held with its record. R170, R390: a
command of a world whose key slot has been zeroised ends with STATUS 0x07. R170, R285, R304, R306: fill writes its pattern, rng.seed its seed; hist counts the rows of each class, and latches its bins; binsort puts a
row into the least class that takes it, in the next row of the bin, zeros after its length. R139, R171: dress loads a program into
a free slot or one of its world, and refuses a program that fails its checks, and a slot of another world. That held completions
take effect in order at COMPLETION_RECORD_ENQUEUE is a reading (log 38). -/
def Obligations.CommandEvents : Prop :=
  (∀ (s : State) (c : CoreId) (src : CmdSource) (tg : Target) (k : Command), s.regq = [] → (queueOf (s.core c) src tg).head? = some k →
     (k.ok = none → k.g = 15 ∨ (slotWritten (s.core c) (decide (src = .lead) && k.hnd) k.g.toNat = true ∧
         slotVal (s.core c) (decide (src = .lead) && k.hnd) k.g.toNat ≠ k.gs) →
       exec (.commandHeadResolve c src tg) s = .next (s.modCore c fun x => { x with
         cmds := x.cmds.map fun y => if y.id = k.id then { y with ok := some true } else y })) ∧
     (k.ok = none → k.g ≠ 15 → slotWritten (s.core c) (decide (src = .lead) && k.hnd) k.g.toNat = true →
         slotVal (s.core c) (decide (src = .lead) && k.hnd) k.g.toNat = k.gs →
       exec (.commandHeadResolve c src tg) s = .next (s.modCore c fun x => completeOn k 0 0 { x with
         cmds := x.cmds.filter (fun y => decide (y.id ≠ k.id)), running := x.running ++ [{ k with ok := some false }] })) ∧
     ((k.ok ≠ none ∨ (k.g ≠ 15 ∧ slotWritten (s.core c) (decide (src = .lead) && k.hnd) k.g.toNat = false)) →
       exec (.commandHeadResolve c src tg) s = .next s) ∧
     (k.ok ≠ some true → exec (.commandDispatch c src tg) s = .next s) ∧
     ((∀ d ∈ c.cluster.cores, (s.core d).running = []) → tg = .copy →
       (∃ d ∈ c.cluster.cores, ∃ r k', (queueOf (s.core d) r .copy).head? = some k' ∧ k'.ok = some true ∧ (s.core d).ap.stale = false ∧
         (queueNo d r + 7 - (s.cluster c.cluster).turn) % 8 < (queueNo c src + 7 - (s.cluster c.cluster).turn) % 8) →
       exec (.commandDispatch c src tg) s = .next s) ∧
     (k.ok = some true → (s.core c).ap.stale = false → (∀ d ∈ c.cluster.cores, (s.core d).running = []) →
       (tg = .copy → ∀ d ∈ c.cluster.cores, ∀ r k', (queueOf (s.core d) r .copy).head? = some k' → k'.ok = some true →
         (queueNo c src + 7 - (s.cluster c.cluster).turn) % 8 ≤ (queueNo d r + 7 - (s.cluster c.cluster).turn) % 8) →
       ∃ t, exec (.commandDispatch c src tg) s = .next t ∧
         (t.core c).running = [{ k with prog :=
           if k.fn.toNat ∈ [1, 3, 5] then vget (s.cluster c.cluster).slots (bitsN k.imm.toNat 16 4) none else none }] ∧
         (t.core c).cmds = (s.core c).cmds.filter (fun y => decide (y.id ≠ k.id)) ∧ (t.core c).scal = (s.core c).scal ∧
         OthersSame c s t ∧ (t.cluster c.cluster).clk = (s.cluster c.cluster).clk ∧ SameMemory s t ∧
         (tg = .copy → k.target = .copy → (t.cluster c.cluster).turn = queueNo c src))) ∧
  (∀ (k : Command) (status : Nat) (v : W64) (x : Core), status < 256 →
     let y := completeOn k status v x
     (k.src = .lead ∨ x.ap.uien = false → y.running = x.running.filter (fun r => decide (r.id ≠ k.id)) ∧ y.ap.recs = x.ap.recs ∧
       y.ap.heldDone = x.ap.heldDone) ∧
     (k.src = .lead → regClass k.d.toNat = some .s → k.d ≠ 0 → readS y k.hnd k.d.toNat = v) ∧
     (k.src = .lead → regClass k.d.toNat = some .p → slotWritten y k.hnd (slotNo k.d) = true ∧ slotVal y k.hnd (slotNo k.d) = decide (v ≠ 0)) ∧
     (k.src = .ap → x.ap.uien = false → regClass k.d.toNat = some .a → readA y k.hnd k.d.toNat = v) ∧
     (k.src = .ap → x.ap.uien = true → y = { x with ap := { x.ap with heldDone := x.ap.heldDone ++
       [{ record := BitVec.ofNat 64 (2 ^ 63 + k.fn.toNat * 2 ^ 48 + status * 2 ^ 40 + bitsN k.imm.toNat 0 16)
          cmd := some k.id, d := k.d, intr := k.hnd, v }] } })) ∧
  (∀ (s : State) (c : CoreId) (k : Command), Claims.performing s c k 6 = true →
     let base := bitsN k.b.toNat 0 14 * 128
     let n := 128 * bitsN k.b.toNat 16 16
     k.a.toNat < 2 ^ 32 → k.b.toNat < 2 ^ 32 → bitsN k.b.toNat 14 2 = 0 →
     (0 < n → n ≤ 16384 * 128 → base + n ≤ 0x200000 →
       ∃ t y, exec (.fill c k.id) s = .next t ∧ Claims.endsOn s t c k 0 0 y ∧ Claims.ScratchOnly (s.core c) y ∧
         (∀ i, i < n → sget 0 y.scratch (base + i) = BitVec.ofNat 8 (k.a.toNat / 2 ^ (8 * (i % 4)))) ∧
         (∀ a, (a < base ∨ base + n ≤ a) → sget 0 y.scratch a = sget 0 (s.core c).scratch a)) ∧
     (n = 0 → ∃ t, exec (.fill c k.id) s = .next t ∧ Claims.endsOn s t c k 5 0xFF (s.core c)) ∧
     (0 < n → n ≤ 16384 * 128 → 0x200000 < base + n →
       ∃ t, exec (.fill c k.id) s = .next t ∧ Claims.endsOn s t c k 4 0xFF (s.core c))) ∧
  (∀ (s : State) (c : CoreId) (k : Command), s.regq = [] → runningCmd s c k.id = some k → k.fn = 0xC → hostPending s c k = false →
     writesHeld s c k.id = false → s.keys.zeroed.getLsbD k.world.toNat = true → k.b.toNat < 16 →
     ∃ t y, exec (.rngSeed c k.id) s = .next t ∧ Claims.endsOn s t c k 7 0xFF y) ∧
  (∀ (s : State) (c : CoreId) (k : Command), Claims.performing s c k 0xC = true →
     (k.b.toNat < 16 → ∃ t, exec (.rngSeed c k.id) s = .next t ∧ Claims.endsOn s t c k 0 0
       { s.core c with sf := { (s.core c).sf with rseed := vset (s.core c).sf.rseed k.b.toNat k.a } }) ∧
     (16 ≤ k.b.toNat → ∃ t, exec (.rngSeed c k.id) s = .next t ∧ Claims.endsOn s t c k 5 0xFF (s.core c))) ∧
  (∀ (s : State) (c : CoreId) (k : Command), Claims.performing s c k 9 = true → (s.core c).parityBad = [] →
     let a := k.a.toNat
     let rows := bitsN k.b.toNat 0 16
     let ne := bitsN k.b.toNat 16 8 + 1
     let first := bitsN k.b.toNat 24 4
     let v := (a + 4 * rows + 127) / 128 * 128
     let count (e : Nat) : Nat := ((List.range rows).filter fun i => decide (natOfBytes (spadGet (s.core c) (a + 4 * i) 4) % 256 = e)).length
     a < 2 ^ 21 → a % 4 = 0 → k.b.toNat < 2 ^ 28 → 1 ≤ rows → rows ≤ 4096 → v + 4 * ne ≤ 0x200000 →
     (∀ e, e < ne → first + e < 16 → 1 ≤ (vget (s.core c).sf.b (first + e) Bin.zero).cap.toNat ∧
       (vget (s.core c).sf.b (first + e) Bin.zero).cap.toNat ≤ 4096) →
     ∃ t y, exec (.hist c k.id) s = .next t ∧ Claims.endsOn s t c k 0 (BitVec.ofNat 64 (((List.range ne).map count).sum)) y ∧
       (∀ e, e < ne → natOfBytes (spadGet y (v + 4 * e) 4) = count e) ∧
       (∀ b, (b < v ∨ v + 4 * ne ≤ b) → sget 0 y.scratch b = sget 0 (s.core c).scratch b) ∧
       (∀ e, e < ne → first + e < 16 →
         (vget y.sf.b (first + e) Bin.zero).fill.toNat = min (count e) (vget (s.core c).sf.b (first + e) Bin.zero).cap.toNat ∧
         (vget y.sf.b (first + e) Bin.zero).dropped.toNat = count e - (vget (s.core c).sf.b (first + e) Bin.zero).cap.toNat ∧
         (vget y.sf.b (first + e) Bin.zero).deferred = 0 ∧
         (0 < e → (vget y.sf.b (first + e) Bin.zero).base = (vget (s.core c).sf.b first Bin.zero).base +
           BitVec.ofNat 64 ((vget (s.core c).sf.b first Bin.zero).rowb.toNat * ((List.range e).map count).sum))) ∧
       y.scal = (s.core c).scal ∧ y.vec = (s.core c).vec ∧ y.csr = (s.core c).csr) ∧
  (∀ (s : State) (c : CoreId) (k : Command), Claims.performing s c k 0xA = true → (s.core c).parityBad = [] →
     let a := k.a.toNat
     let first := bitsN k.b.toNat 20 4
     let src := bitsN k.b.toNat 32 21
     let srb := (bitsN k.b.toNat 56 4 + 1) * 128
     let b := vget (s.core c).sf.b first Bin.zero
     let len := natOfBytes (spadGet (s.core c) a 4)
     a < 0x200000 → a % 4 = 0 → src % 128 = 0 → bitsN k.b.toNat 0 16 = 1 → bitsN k.b.toNat 16 4 = 0 → bitsN k.b.toNat 24 8 = 0 →
     bitsN k.b.toNat 53 3 = 0 → bitsN k.b.toNat 60 4 = 0 → src + srb ≤ 0x200000 → b.base.toNat + b.cap.toNat * b.rowb.toNat ≤ 0x200000 →
     (b.rule = 0 ∨ b.rule = 2) → b.rowb.toNat ≤ srb →
     (b.rowb.toNat < len → ∃ t, exec (.binsort c k.id) s = .next t ∧ Claims.endsOn s t c k 0 1 (s.core c)) ∧
     (len ≤ b.rowb.toNat → b.fill.toNat < b.cap.toNat →
       ∃ t y, exec (.binsort c k.id) s = .next t ∧ Claims.endsOn s t c k 0 0 y ∧
         vget y.sf.b first Bin.zero = { b with fill := b.fill + 1 } ∧
         let dest := b.base.toNat + b.fill.toNat * b.rowb.toNat
         (∀ i, i < len → sget 0 y.scratch (dest + i) = sget 0 (s.core c).scratch (src + i)) ∧
         (∀ i, len ≤ i → i < b.rowb.toNat → sget 0 y.scratch (dest + i) = 0) ∧
         (∀ i, (i < dest ∨ dest + b.rowb.toNat ≤ i) → sget 0 y.scratch i = sget 0 (s.core c).scratch i)) ∧
     (len ≤ b.rowb.toNat → b.fill.toNat = b.cap.toNat → b.rule = 2 →
       ∃ t, exec (.binsort c k.id) s = .next t ∧ Claims.endsOn s t c k 0x11 0xFF (s.core c)) ∧
     (len ≤ b.rowb.toNat → b.fill.toNat = b.cap.toNat → b.rule = 0 → b.dropped.toNat < 2 ^ 32 - 1 →
       ∃ t, exec (.binsort c k.id) s = .next t ∧ Claims.endsOn s t c k 0 0
         { s.core c with sf := { (s.core c).sf with b := vset (s.core c).sf.b first { b with dropped := b.dropped + 1 } } })) ∧
  (∀ (s : State) (c : CoreId) (k : Command) (l : List Byte) (words : List W64), Claims.performing s c k 8 = true →
     let slot := bitsN k.imm.toNat 16 4
     let here := vget (s.cluster c.cluster).slots slot none
     (∀ d, here = some d → d.world ≠ k.world → ∃ t, exec (.dress c k.id) s = .next t ∧ Claims.endsOn s t c k 6 0 (s.core c)) ∧
     ((∀ d, here = some d → d.world = k.world) → sourceData s c k = l.map some →
       l = bytesOfNat 8 words.length ++ words.flatMap (fun w => bytesOfNat 8 w.toNat) → 1 ≤ words.length → words.length ≤ 16 →
       (dressLoad words = none → ∃ t, exec (.dress c k.id) s = .next t ∧ Claims.endsOn s t c k 3 0 (s.core c)) ∧
       (∀ p, dressLoad words = some p → ∃ t, exec (.dress c k.id) s = .next t ∧ t.core c = completeOn k 0 1 (forgetCmd k.id (s.core c)) ∧ OthersSame c s t ∧
         SameMemory s t ∧ (t.cluster c.cluster).clk = (s.cluster c.cluster).clk ∧ (∀ j, j ≠ c.cluster → t.cluster j = s.cluster j) ∧
         vget (t.cluster c.cluster).slots slot none = some { world := k.world, prog := p } ∧
         ∀ i, i ≠ slot → vget (t.cluster c.cluster).slots i none = vget (s.cluster c.cluster).slots i none)))

/-- R138, R165, R169: a copy of a dense .i8 tensor moves its bytes as they are, into the scratchpad, out of it, or between two ranges
of memory that do not meet, and replies that nothing saturated; a gather puts the rows that it read at their places, and zeros and
a mark in its reply where an index is out of bound; a scatter writes the row of an index in bound and no other. (Memory is of the
unpoisoned kind and its face holds no copy of it.) R348, R355: a collective whose descriptor is valid is announced, waits in the
collective unit and stays a running command; an invalid one completes with STATUS 5, and one whose TMSHAPE is invalid with 0x10. R195: an inval submits its range to the sequencer, once.
R390, R419: zeroing a key slot empties it; a wrap writes the header and the wrapped key; a load under KIMP and an unwrap under
KSLP put the unwrapped key into an empty slot; STATUS 0x10 to 0x13 say why not. Blobs are memory of world 0 (log 15). -/
def Obligations.CopyAndKeyEvents : Prop :=
  (∀ (s : State) (c : CoreId) (k : Command) (l : List Byte),
     let g := geoOf (vget k.geo (bitsN k.imm.toNat 25 3) 0)
     let n := g.nrow * g.ncol
     let row := bitsN k.b.toNat 0 14 * 128
     bitsN k.imm.toNat 32 4 = 8 → bitsN k.imm.toNat 28 4 = 8 → bitsN k.imm.toNat 24 1 = 0 → bitsN k.imm.toNat 16 4 = 0 → g.nrow ≠ 0 → g.ncol ≠ 0 →
     g.stride = 0 →
     (Claims.performing s c k 1 = true → k.b.toNat < 2 ^ 14 → 0x200000 < row + n →
       ∃ t, exec (.copyIn c k.id) s = .next t ∧ Claims.endsOn s t c k 4 0xFF (s.core c)) ∧
     (Claims.performing s c k 1 = true → k.b.toNat < 2 ^ 14 → row + n ≤ 0x200000 → sourceData s c k = l.map some →
       l.length = n →
       ∃ t y, exec (.copyIn c k.id) s = .next t ∧ Claims.endsOn s t c k 0 0 y ∧ Claims.ScratchOnly (s.core c) y ∧
         (∀ i, i < n → sget 0 y.scratch (row + i) = l.getD i 0) ∧
         (∀ a, (a < row ∨ row + n ≤ a) → sget 0 y.scratch a = sget 0 (s.core c).scratch a)) ∧
     (∀ p : Piece, s.memOk → s.mem.poison = [] → (∀ line, l2Get s c.face line = none) → s.keys.zeroed.getLsbD k.world.toNat = false →
       targetOf k = [p] → p.len = n → inHbm p.pa n = true →
       (Claims.performing s c k 2 = true → k.b.toNat < 2 ^ 14 → row + n ≤ 0x200000 → (s.core c).parityBad = [] →
         ∃ t, exec (.copyOut c k.id) s = .next t ∧ t.clusters = s.clusters ∧
           (∀ d, { (t.core d).ap with held := (s.core d).ap.held } = (if d = c then (completeOn k 0 0 (s.core c)).ap else (s.core d).ap)) ∧
           (t.core c).scal = (completeOn k 0 0 (s.core c)).scal ∧
           (∀ i, i < n → seesByte t c.face k.world (p.pa + i) = some (sget 0 (s.core c).scratch (row + i))) ∧
           (∀ v pa, (pa / 128 < p.pa / 128 ∨ (p.pa + n - 1) / 128 < pa / 128) → seesByte t c.face v pa = seesByte s c.face v pa)) ∧
       (Claims.performing s c k 5 = true → piecesMeet (sourceOf k) (targetOf k) = false → sourceData s c k = l.map some →
         l.length = n →
         ∃ t, exec (.copyMm c k.id) s = .next t ∧ (t.core c).scal = (completeOn k 0 0 (s.core c)).scal ∧
           (∀ i, i < n → seesByte t c.face k.world (p.pa + i) = some (l.getD i 0))))) ∧
  (∀ (s : State) (c : CoreId) (k : Command) (l : List Byte) (rowb bound : Nat),
     let t2 := bitsN k.imm.toNat 20 2
     let at_ := bitsN k.imm.toNat 22 14 * 128
     let idx (n : Nat) : Nat := if n < 4 then bitsN k.a.toNat (16 * n) 16 else bitsN k.b.toNat (16 * (n - 4)) 16
     vget k.geo (2 * t2 + 1) 0 = BitVec.ofNat 64 (rowb * 2 ^ 16 + bound) → rowb % 128 = 0 → 128 ≤ rowb → rowb ≤ 4096 → bound < 2 ^ 16 →
     at_ + 8 * rowb ≤ 0x200000 →
     (Claims.performing s c k 3 = true → bitsN k.imm.toNat 16 4 = 0 →
       ((∀ n, n < 8 → idx n < bound) → sourceData s c k = l.map some → l.length = 8 * rowb →
         ∃ t y, exec (.gather c k.id) s = .next t ∧ Claims.endsOn s t c k 0 0 y ∧ Claims.ScratchOnly (s.core c) y ∧
           (∀ i, i < 8 * rowb → sget 0 y.scratch (at_ + i) = l.getD i 0) ∧
           (∀ a, (a < at_ ∨ at_ + 8 * rowb ≤ a) → sget 0 y.scratch a = sget 0 (s.core c).scratch a)) ∧
       ((∀ n, n < 8 → bound ≤ idx n) → sourceOf k = [] →
         ∃ t y, exec (.gather c k.id) s = .next t ∧ Claims.endsOn s t c k 1 0xFF y ∧ Claims.ScratchOnly (s.core c) y ∧
           (∀ i, i < 8 * rowb → sget 0 y.scratch (at_ + i) = 0))) ∧
     (Claims.performing s c k 4 = true → (s.core c).parityBad = [] →
       ((∀ n, n < 8 → bound ≤ idx n) → s.memOk →
         ∃ t, exec (.scatter c k.id) s = .next t ∧ Claims.endsOn s t c k 1 0xFF (s.core c)) ∧
       (∀ (p : Piece) (m : Nat), m < 8 → (∀ n, n < 8 → (idx n < bound ↔ n = m)) → s.memOk → s.mem.poison = [] →
         (∀ line, l2Get s c.face line = none) → s.keys.zeroed.getLsbD k.world.toNat = false → targetOf k = [p] → p.len = rowb →
         inHbm p.pa rowb = true →
         ∃ t, exec (.scatter c k.id) s = .next t ∧
           (t.core c).scal = (completeOn k 1 (BitVec.ofNat 64 (0xFF - 2 ^ m)) (s.core c)).scal ∧
           (∀ i, i < rowb → seesByte t c.face k.world (p.pa + i) = some (sget 0 (s.core c).scratch (at_ + m * rowb + i))) ∧
           (∀ v pa, (pa / 128 < p.pa / 128 ∨ (p.pa + rowb - 1) / 128 < pa / 128) → seesByte t c.face v pa = seesByte s c.face v pa)))) ∧
  (∀ (s : State) (c : CoreId) (k : Command), Claims.performing s c k 0xB = true → collById s k.id = none →
     (descValid k.xtra = false → ∃ t, exec (.coll c k.id) s = .next t ∧ Claims.endsOn s t c k 5 0 (s.core c)) ∧
     (descValid k.xtra = true → k.b.toNat < 2 ^ 32 → cgrpOf (s.core c).csr.collid ≠ 0 → (ranksOf (s.core c).csr.collid (descOf k.xtra)).isSome = true →
       (∀ y ∈ s.fabric.colls, collGroup s y ≠ cgrpOf (s.core c).csr.collid ∨ collSeq y ≠ k.b.setWidth 32) →
       ((descOf k.xtra).op = 4 → tmValid k.tmshape k.tab = false →
         ∃ t, exec (.coll c k.id) s = .next t ∧ Claims.endsOn s t c k 0x10 0 (s.core c)) ∧
       (((descOf k.xtra).op = 4 → tmValid k.tmshape k.tab = true) →
         ∃ t y, exec (.coll c k.id) s = .next t ∧ t.fabric.colls = s.fabric.colls ++ [y] ∧ y.id = k.id ∧
           y.core = c ∧ y.cmd = k ∧ y.running = false ∧ y.marks = [] ∧ y.cut = none ∧ y.ranks = groupSize (descOf k.xtra) ∧
           t.fabric.told.contains (cgrpOf (s.core c).csr.collid, k.b.setWidth 32) = true ∧ t.cores = s.cores ∧
           t.clusters = s.clusters ∧ SameMemory s t))) ∧
  (∀ (s : State) (c : CoreId) (k : Command), Claims.performing s c k 0x40 = true →
     ((∃ v ∈ s.sys.invals, v.from_ = some (c, k.id)) → exec (.inval c k.id) s = .next s) ∧
     ((∀ v ∈ s.sys.invals, v.from_ ≠ some (c, k.id)) →
       exec (.inval c k.id) s = .next { s with sys := { s.sys with invals := s.sys.invals ++
         [{ va := k.a.toNat, len := k.b.toNat, asid := k.imm.extractLsb' 20 16, hint := k.imm.extractLsb' 16 2
            from_ := some (c, k.id), sent := false, gen := 0 }] } })) ∧
  (∀ (s : State) (c : CoreId) (k : Command), Claims.performing s c k 0x42 = true →
     let w : World := k.imm.extractLsb' 20 4
     let op := bitsN k.imm.toNat 16 2
     let i := w.toNat
     let blob := deviceBytes s 0 (k.a.toNat + 8) 104
     let hdr := natOfBytes (deviceBytes s 0 k.a.toNat 8)
     let kek : Option (List Byte) := if op = 3 then some (bytesOfNat 32 s.keys.kslp.toNat) else (vget s.keys.kimp i none).map fun x => bytesOfNat 32 x.toNat
     (op = 1 → w ≠ 0 → (∀ d, (s.core d).job ≠ none → (s.core d).csr.world ≠ w) →
       ∃ t, exec (.keyslotZero c k.id) s = .next t ∧ t.core c = completeOn k 0 1 (forgetCmd k.id (s.core c)) ∧ vget t.keys.slots i none = none ∧
         t.keys.zeroed.getLsbD i = true ∧ (∀ j, j ≠ i → vget t.keys.slots j none = vget s.keys.slots j none) ∧ OthersSame c s t ∧ t.mem = s.mem) ∧
     (op = 1 → w ≠ 0 → (∃ d, (s.core d).job ≠ none ∧ (s.core d).csr.world = w) →
       ∃ t, exec (.keyslotZero c k.id) s = .next t ∧ Claims.endsOn s t c k 0x11 0 (s.core c) ∧ t.keys = s.keys) ∧
     (op = 2 → w ≠ 0 → k.a.toNat % 8 = 0 → inHbm k.a.toNat 112 = true → s.memOk →
       (vget s.keys.slots i none = none → ∃ t, exec (.keyslotWrap c k.id) s = .next t ∧ Claims.endsOn s t c k 5 0 (s.core c)) ∧
       (∀ x, vget s.keys.slots i none = some x →
         let l := kwWrap (bytesOfNat 32 s.keys.kslp.toNat) (bytesOfNat 64 x.xts.toNat ++ bytesOfNat 32 x.ikey.toNat)
         inHbm k.a.toNat (8 + l.length) = true →
         ∃ t, exec (.keyslotWrap c k.id) s = .next t ∧ t.core c = completeOn k 0 1 (forgetCmd k.id (s.core c)) ∧ t.keys = s.keys ∧
           deviceBytes t 0 k.a.toNat 8 = bytesOfNat 8 (i + (if x.prot then 2 ^ 8 else 0) + 2 ^ 9) ∧
           deviceBytes t 0 (k.a.toNat + 8) l.length = l)) ∧
     ((op = 0 ∨ op = 3) → w ≠ 0 → k.a.toNat % 8 = 0 → inHbm k.a.toNat 112 = true →
       bitsN hdr 0 4 = i → bitsN hdr 4 4 = 0 → bitsN hdr 10 54 = 0 → (bitsN hdr 9 1 = 1 ↔ op = 3) →
       let e : Instr := if op = 3 then .keyslotUnwrap c k.id else .keyslotLoad c k.id
       (vget s.keys.slots i none ≠ none → ∃ t, exec e s = .next t ∧ Claims.endsOn s t c k 0x10 0 (s.core c)) ∧
       (vget s.keys.slots i none = none → vget s.scrub.active i false = true →
         ∃ t, exec e s = .next t ∧ Claims.endsOn s t c k 0x11 0 (s.core c)) ∧
       (vget s.keys.slots i none = none → vget s.scrub.active i false = false → kek = none →
         ∃ t, exec e s = .next t ∧ Claims.endsOn s t c k 0x13 0 (s.core c)) ∧
       (∀ q, vget s.keys.slots i none = none → vget s.scrub.active i false = false → kek = some q →
         (kwUnwrap q blob = none → ∃ t, exec e s = .next t ∧ Claims.endsOn s t c k 0x12 0 (s.core c)) ∧
         (∀ l, kwUnwrap q blob = some l → ∃ t, exec e s = .next t ∧ t.core c = completeOn k 0 1 (forgetCmd k.id (s.core c)) ∧
           vget t.keys.slots i none = some { xts := bvOfBytes 512 (l.take 64), ikey := bvOfBytes 256 (l.drop 64), prot := decide (bitsN hdr 8 1 = 1) } ∧
           t.keys.zeroed.getLsbD i = false ∧ (∀ j, j ≠ i → vget t.keys.slots j none = vget s.keys.slots j none) ∧ t.mem = s.mem))))

/-! ### Base camp -/

/-- The channel holds an entry of a ring in HBM: entry `index` of the queue. -/
def Claims.ringEntry (ch : Channel) : Prop :=
  ch.node = none ∧ ch.resume = none ∧ ch.late = false ∧ ch.addr = ch.queue + 128 + 128 * ch.index ∧
    inHbm ch.queue (128 + 128 * (ch.index + 1)) = true

/-- The entry that a channel holds has been consumed: the head of the slot, if the slot still holds the queue, and the head in
the queue's header are past it, and the channel is free. -/
def Claims.consumed (s t : State) (ch : Channel) : Prop :=
  (bitsN (campSlot s ch.slot).qbase.toNat 12 40 * 4096 = ch.queue → (campSlot t ch.slot).head = ch.head + 1) ∧
    deviceBytes t 0 (ch.queue + 8) 4 = bytesOfNat 4 (ch.head + 1).toNat ∧ slotChannel t ch.slot = none

/-- The completion record of the entry at `a` says STATUS and TAG (R406). -/
def Claims.recorded (t : State) (a status : Nat) (tag : BitVec 16) : Prop :=
  deviceBytes t 0 (a + 112) 4 = [BitVec.ofNat 8 status, 1, tag.extractLsb' 0 8, tag.extractLsb' 8 8]

/-- R401: a notify of the function that owns the slot sets the tail of a mapped slot, goes to the shadow of the queue last held by an
unmapped one, and is discarded for another function. R400, R401: a write of SLOTCFG sets its fields, QLOG from 4 to 16 only;
setting MAPPED takes head and tail from the queue, clearing it remembers the queue and leaves the captured tail in its shadow.
SLOTCTL.KILL kills the slot's resident jobs (R135) and no other, whatever state they are in; RESUME makes its saved jobs
candidates; PREEMPT asks its resident team to suspend. R402-R404: a lottery decision takes one step of the generator;
the winner's band is the lowest aged one, else the lowest with a ready slot; in it the draw falls on the slot whose running sum of
tickets first exceeds it, or, with no tickets, on the lowest slot; the winner takes a channel with its entry as its slot then
stands, and the bands age. Queues and shadows are memory of world 0 (log 15); that the tail goes to the shadow when MAPPED is
cleared is a reading (log 41). -/
def Obligations.SlotEvents : Prop :=
  (∀ (s : State) (v : Fin 128) (i : Fin 256) (x : W32), s.regq = [] → powered s = true →
     ((campSlot s i).vf.toNat ≠ v.val → exec (.notify v i x) s = .next s) ∧
     ((campSlot s i).vf.toNat = v.val → (campSlot s i).mapped = true →
       exec (.notify v i x) s = .next (s.modSlot i fun y => { y with tail := x })) ∧
     ((campSlot s i).vf.toNat = v.val → (campSlot s i).mapped = false → (campSlot s i).lastQ = none →
       exec (.notify v i x) s = .next s) ∧
     (∀ q, (campSlot s i).vf.toNat = v.val → (campSlot s i).mapped = false → (campSlot s i).lastQ = some q → inHbm q 4 = true →
       s.memOk →
       ∃ t, exec (.notify v i x) s = .next t ∧ deviceBytes t 0 q 4 = bytesOfNat 4 x.toNat ∧ t.camp = s.camp ∧ t.cores = s.cores)) ∧
  (∀ (s : State) (i : Fin 256) (x : W64), s.regq = [] → powered s = true →
     let y := campSlot s i
     let q := bitsN y.qbase.toNat 12 40 * 4096
     ∃ t, exec (.slotcfgWrite i x) s = .next t ∧ (∀ j, j ≠ i → campSlot t j = campSlot s j) ∧ t.cores = s.cores ∧
       (x.getLsbD 63 = true ∨ y.mapped = false → t.mem = s.mem) ∧
       (x.getLsbD 63 = false → y.mapped = true → inHbm q 4 = true → s.memOk → deviceBytes t 0 q 4 = bytesOfNat 4 y.tail.toNat) ∧
       let z := campSlot t i
       z.mapped = x.getLsbD 63 ∧ z.priv = x.getLsbD 62 ∧ z.vf = x.extractLsb' 55 7 ∧ z.band = x.extractLsb' 53 2 ∧
       z.tickets = x.extractLsb' 45 8 ∧ z.qbase = y.qbase ∧ z.open_ = y.open_ ∧
       (4 ≤ bitsN x.toNat 40 5 → bitsN x.toNat 40 5 ≤ 16 → z.qlog.toNat = bitsN x.toNat 40 5) ∧
       (bitsN x.toNat 40 5 < 4 ∨ 16 < bitsN x.toNat 40 5 → z.qlog = y.qlog) ∧
       (x.getLsbD 63 = true → y.mapped = false →
         z.head.toNat = natOfBytes (deviceBytes s 0 (q + 8) 4) ∧ z.tail.toNat = natOfBytes (deviceBytes s 0 q 4)) ∧
       (x.getLsbD 63 = y.mapped → z.head = y.head ∧ z.tail = y.tail) ∧ (x.getLsbD 63 = false → y.mapped = true → z.lastQ = some q)) ∧
  (∀ (s : State) (i : Fin 256), s.regq = [] → powered s = true → (s.jobs.map fun j => j.id).Nodup →
     (∃ t, exec (.slotctlKill i) s = .next t ∧
       (∀ j ∈ s.jobs, jobById t j.id = some (if j.slot = i ∧ j.resident = true then { j with phase := .killed, saved := [] } else j)) ∧
       (∀ j ∈ s.jobs, j.slot = i → j.resident = true → (∀ k ∈ t.fabric.colls, k.job ≠ j.id) ∧
         ∀ c ∈ j.team, (t.core c).streams = Vector.replicate 6 Stream.absent ∧ (t.core c).cmds = [] ∧ (t.core c).running = []) ∧
       (∀ c, (∀ j ∈ s.jobs, j.slot = i → j.resident = true → c ∉ j.team) → t.core c = s.core c) ∧
       (∀ c, (t.core c).scal.s = (s.core c).scal.s ∧ (t.core c).scal.a = (s.core c).scal.a)) ∧
     ((∀ j ∈ s.jobs, j.slot ≠ i) → exec (.slotctlKill i) s = .next s ∧ exec (.slotctlPreempt i) s = .next s) ∧
     (∀ j : Job, s.jobs.filter (fun k => decide (k.slot = i)) = [j] → (s.core (j.team.headD 0)).job = some j.id → j.resident = true →
       exec (.slotctlKill i) s = exec (.prectlKill (j.team.headD 0)) s ∧
       ∃ t, exec (.slotctlPreempt i) s = .next t ∧ (∀ c ∈ j.team, (t.core c).csr.preq = true) ∧ (∀ c, c ∉ j.team → t.core c = s.core c) ∧
         t.sched = (if j.plane.drainlim = 0 ∧ (∃ c ∈ j.team, (s.core c).csr.preq = false) then [.save j.id] else []) ++ s.sched ∧
         t.jobs = s.jobs ∧ t.mem = s.mem ∧ ∀ c, (t.core c).scal = (s.core c).scal ∧ (t.core c).streams = (s.core c).streams) ∧
     (∃ t, exec (.slotctlResume i) s = .next t ∧ t.cores = s.cores ∧ t.mem = s.mem ∧
       t.jobs = s.jobs.map fun j => if j.slot = i ∧ (j.phase = .suspended ∨ j.phase = .saved) then { j with eligible := true } else j)) ∧
  (∀ (s : State), s.regq = [] →
     ((s.camp.ready = false ∨ s.camp.stopped = true ∨ 4 ≤ s.camp.channels.length ∨ readySlots s = []) → exec .lotteryDecision s = .next s) ∧
     (s.camp.ready = true → s.camp.stopped = false → s.camp.channels.length < 4 → readySlots s ≠ [] →
       let x1 := s.camp.seed ^^^ (s.camp.seed <<< 13)
       let x2 := x1 ^^^ (x1 >>> 17)
       let seed := x2 ^^^ (x2 <<< 5)
       let ready (b : Nat) : Bool := (readySlots s).any fun p => decide ((campSlot s p.1).band.toNat = b)
       ∃ t ch b, exec .lotteryDecision s = .next t ∧ t.camp.seed = seed ∧ t.camp.channels = s.camp.channels ++ [ch] ∧ b < 4 ∧ ready b = true ∧
         t.cores = s.cores ∧ t.mem = s.mem ∧ t.camp.slots = s.camp.slots ∧
         (∀ a, a < 4 → 1024 ≤ vget s.camp.ages a 0 → ready a = true → 1024 ≤ vget s.camp.ages b 0 ∧ b ≤ a) ∧
         (vget s.camp.ages b 0 < 1024 → ∀ a, a < b → ready a = false) ∧
         (∀ a, a < 4 → vget t.camp.ages a 0 = if a = b then 0 else if ready a then vget s.camp.ages a 0 + 1 else 0) ∧
         ∃ l1 p l2, (readySlots s).filter (fun p => decide ((campSlot s p.1).band.toNat = b)) = l1 ++ p :: l2 ∧ ch.slot = p.1 ∧
           let x := campSlot s p.1
           ch.queue = bitsN x.qbase.toNat 12 40 * 4096 ∧ ch.head = x.head ∧ ch.index = x.head.toNat % 2 ^ x.qlog.toNat ∧
           ch.addr = ch.queue + 128 + 128 * ch.index ∧
           let tickets (l : List (Fin 256 × Candidate)) : Nat := (l.map fun p => (campSlot s p.1).tickets.toNat).sum
           let total := tickets (l1 ++ p :: l2)
           (total = 0 → l1 = []) ∧ (0 < total → tickets l1 ≤ seed.toNat % total ∧ seed.toNat % total < tickets (l1 ++ [p]))))

/-- R405-R407: an entry that has won its channel is consumed: with an unknown KIND or an invalid field it is refused with STATUS 5, a
privileged plane of an unprivileged slot with 3; otherwise a job is made on the cores that the plane's loop table places, each at
its start with the s and a registers, the streams, the world's control registers and the descriptors of the image; a patch puts a
graph parameter into a register. R408: a swap entry that names a resident job of its slot, of the same world and loop table, waits
with that job; one whose job has ended is left as a launch; one that names neither is refused with STATUS 5. A package that sleeps
starts nothing (R429). R410-R412: a replay binds the slot's open bank, copies it, sets every
node's count, and writes the composition record. The order of refusals and the first count of a composition record are readings
(log 41, log 42), and entries are memory of world 0 (log 15). -/
def Obligations.EntryEvents : Prop :=
  (∀ (s : State) (i : Fin 256), s.regq = [] → (slotChannel s i = none ∨ s.camp.stopped = true) →
     exec (.launch i) s = .next s ∧ exec (.swapEntry i) s = .next s ∧ exec (.replay i) s = .next s) ∧
  (∀ (s : State) (i : Fin 256) (ch : Channel), s.regq = [] → slotChannel s i = some ch → ch.slot = i → Claims.ringEntry ch →
     s.camp.stopped = false → s.memOk →
     let x := campSlot s i
     let a := ch.addr
     let kind := natOfBytes (deviceBytes s 0 a 1)
     let tag : BitVec 16 := BitVec.ofNat 16 (natOfBytes (deviceBytes s 0 (a + 2) 2))
     let p := entryPlane s x.open_ a
     let mate := a - 128 * ch.index + 128 * natOfBytes (deviceBytes s 0 (a + 32) 2)
     (kind ≠ 1 → kind ≠ 2 → kind ≠ 3 →
       ∃ t, exec (.launch i) s = .next t ∧ Claims.consumed s t ch ∧ Claims.recorded t a 5 tag ∧ t.cores = s.cores ∧ t.jobs = s.jobs) ∧
     (kind = 1 → entryInvalid s a = false → p.priv = true → x.priv = false →
       ∃ t, exec (.launch i) s = .next t ∧ Claims.consumed s t ch ∧ Claims.recorded t a 3 tag ∧ t.cores = s.cores ∧ t.jobs = s.jobs) ∧
     (∀ team : List CoreId, kind = 1 → entryInvalid s a = false → planeRefusal s x.priv p = 0 → placeTeam s p = some team → team.Nodup →
       cgrpOf p.collid = 0 →
       ∃ t j, exec (.launch i) s = .next t ∧ Claims.consumed s t ch ∧ t.jobs = s.jobs ++ [j] ∧ j.id = s.camp.nextJob ∧ j.team = team ∧
         j.phase = .loaded ∧ j.slot = i ∧ j.entry = a ∧ j.tag = tag ∧ t.camp.nextJob = s.camp.nextJob + 1 ∧
         (∀ c, c ∉ team → t.core c = s.core c) ∧
         ∀ c ∈ team, let y := t.core c
           y.job = some j.id ∧ y.aligned = false ∧ y.scal.s = p.s ∧ y.scal.a = p.a ∧ y.csr.strict = p.strict ∧ y.csr.priv = p.priv ∧
           y.csr.looptab = p.looptab ∧ y.csr.xlate = p.xlate ∧ y.csr.tvec = p.tvec ∧ y.csr.tbase = p.tbase ∧ y.csr.ft = p.ft ∧
           y.sf.b = p.bins ∧ y.sf.tab = p.tabs ∧ y.scratch = (s.core c).scratch ∧
           (∀ e, (y.stream e).present = decide (p.starts[engIdx e] ≠ 0)) ∧
           (∀ e, p.starts[engIdx e] ≠ 0 → (y.stream e).pos = Pos.start p.starts[engIdx e]) ∧
           y.csr.teampos.extractLsb' 0 8 = BitVec.ofNat 8 (spatialExt p.looptab 3 * spatialExt p.looptab 2 - 1)) ∧
     (kind = 2 → entryInvalid s a = true →
       ∃ t, exec (.swapEntry i) s = .next t ∧ Claims.consumed s t ch ∧ Claims.recorded t a 5 tag ∧ t.cores = s.cores ∧ t.jobs = s.jobs) ∧
     (kind = 2 → entryInvalid s a = false → p.priv = false → (∀ j ∈ s.jobs, j.slot ≠ i) →
       (natOfBytes (deviceBytes s 0 (a + 32) 2) = 0xFFFF ∨ natOfBytes (deviceBytes s 0 (mate + 113) 1) % 2 = 0 →
         ∃ t, exec (.swapEntry i) s = .next t ∧ Claims.consumed s t ch ∧ Claims.recorded t a 5 tag ∧ t.cores = s.cores ∧ t.jobs = s.jobs) ∧
       (natOfBytes (deviceBytes s 0 (a + 32) 2) ≠ 0xFFFF → natOfBytes (deviceBytes s 0 (mate + 113) 1) % 2 = 1 →
         ∃ t e, exec (.swapEntry i) s = .next t ∧ Claims.consumed s t ch ∧ t.camp.late = s.camp.late ++ [(i, e)] ∧ e.plane = p ∧
           e.addr = a ∧ e.tag = tag ∧ t.cores = s.cores ∧ t.jobs = s.jobs)) ∧
     (∀ j : Job, kind = 2 → s.jobs = [j] → j.slot = i → j.resident = true → j.replay = none →
       j.entry = mate → natOfBytes (deviceBytes s 0 (a + 32) 2) ≠ 0xFFFF → entryInvalid s a = false → p.priv = false →
       p.world = j.plane.world → p.looptab = j.plane.looptab → (∀ n ∈ p.starts.toList, n % 64 = 0) → (∀ t ∈ p.tabs.toList, t = []) →
       (∀ c ∈ p.cairn, classValid c.1 = false) →
       ∃ t e, exec (.swapEntry i) s = .next t ∧ Claims.consumed s t ch ∧ t.jobs = [{ j with swap := some e }] ∧ e.plane = p ∧ e.addr = a ∧
         e.tag = tag ∧ t.cores = s.cores) ∧
     (kind = 3 → replayInvalid s a = true →
       ∃ t, exec (.replay i) s = .next t ∧ Claims.consumed s t ch ∧ Claims.recorded t a 5 tag ∧ t.cores = s.cores) ∧
     (kind = 3 → replayInvalid s a = false → entReinst s a = false →
       let rec' := entLog s a + 576 * (x.replays % 2 ^ entLoglog s a)
       inHbm rec' 576 = true → (∀ b, b < 576 → rec' + b < ch.queue ∨ ch.queue + 16 ≤ rec' + b) →
       ∃ t r, exec (.replay i) s = .next t ∧ Claims.consumed s t ch ∧ t.camp.replays = s.camp.replays ++ [r] ∧ r.bank = x.open_ ∧
         (campSlot t i).open_ = x.open_ ∧ (campSlot t i).other = x.open_ ∧ (campSlot t i).replays = x.replays + 1 ∧
         r.counts.length = natOfBytes (deviceBytes s 0 (a + 64) 2) ∧ (∀ b ∈ r.sent, b = false) ∧ r.tag = tag ∧
         (∀ n, n < r.counts.length → r.counts.getD n 0 = natOfBytes (deviceBytes s 0 (entGraph s a + 128 * n + 4) 2)) ∧
         deviceBytes t 0 rec' 8 = bytesOfNat 8 x.replays ∧ deviceBytes t 0 (rec' + 8) 2 = bytesOfNat 2 tag.toNat ∧
         (∀ n, n < 64 → deviceBytes t 0 (rec' + 64 + 8 * n) 8 = bytesOfNat 8 (vget x.open_ n 0).toNat))) ∧
  (∀ (bank : Vector W64 64) (p : Plane) (code g : Nat), code < 0x40 → g < 64 → code ≠ 0 →
     let q := patchPlane bank [64 * code + g] p
     (code < 0x20 → q = { p with s := vset p.s code (vget bank g 0) }) ∧
     (0x20 ≤ code → q = { p with a := vset p.a (code - 0x20) (vget bank g 0) })) ∧
  (∀ (l : List Byte), l.length = 33024 →
     let p := planeOf l
     let word (off : Nat) : Nat := natOfBytes ((l.drop off).take 8)
     p.world.toNat = word 0 % 16 ∧ p.strict = (word 0).testBit 4 ∧ p.priv = (word 0).testBit 5 ∧ p.dual = (word 0).testBit 6 ∧
     p.drainlim.toNat = word 0 / 2 ^ 32 ∧ (∀ e : Fin 6, p.starts[e] = word (0x40 + 8 * e.val)) ∧
     p.xlate.toNat = word 0x78 / 2 ^ 16 * 2 ^ 16 ∧ p.tbase.toNat = bitsN (word 0x80) 21 31 * 2 ^ 21 ∧
     p.ctxbase.toNat = bitsN (word 0x88) 22 30 * 2 ^ 22 ∧ p.tvec.toNat = bitsN (word 0x90) 6 46 * 2 ^ 6 ∧
     p.collid = BitVec.ofNat 64 (word 0xA0) &&& 0xFFFF_0000_0F00_0773 ∧
     (∀ n : Fin 16, p.ft[n] = BitVec.ofNat 64 (word (0x100 + 8 * n.val)) &&& 0x3_FEFF) ∧ (∀ n : Fin 32, p.s[n].toNat = word (0x380 + 8 * n.val)) ∧
     (∀ n : Fin 32, p.a[n].toNat = word (0x480 + 8 * n.val)))

/-! ### The fabric -/

/-- The Ethernet hop of no collective: no mesh axis of the collective is an Ethernet axis. -/
def Claims.noEther (k : Coll) : Prop := ∀ a ∈ (collDesc k).axes, a.axis ≠ 3

/-- The output and the status word of a collective lie in plain HBM, on different lines, with no copy in its core's face. -/
def Claims.plainTarget (s : State) (k : Coll) : Prop :=
  ∃ p q, targetOf k.cmd = [p, q] ∧ p.len = collOutBytes k ∧ q.len = 8 ∧ inHbm p.pa p.len = true ∧ inHbm q.pa 8 = true ∧
    (p.pa + p.len ≤ q.pa / 128 * 128 ∨ q.pa + 8 ≤ p.pa / 128 * 128) ∧ s.memOk ∧ s.mem.poison = [] ∧
    (∀ line, l2Get s k.core.face line = none) ∧ s.keys.zeroed.getLsbD k.cmd.world.toNat = false

/-- A collective ended with a STATUS and reply 0: it has left the unit, and its status word is not written. -/
def Claims.cutOff (s t : State) (k : Coll) (status : Nat) : Prop :=
  collById t k.id = none ∧ (t.core k.core).scal = (completeOn k.cmd status 0 (s.core k.core)).scal ∧
    (k.cmd.src = .lead → ∀ y ∈ (t.core k.core).running, y.id ≠ k.cmd.id) ∧
    ∀ q, (targetOf k.cmd).getLast? = some q → ∀ i, i < 8 →
      seesByte t k.core.face k.cmd.world (q.pa + i) = seesByte s k.core.face k.cmd.world (q.pa + i)

/-- R355: a collective in the unit starts when every other rank has announced its own, it is the first of those whose last rank has
arrived, fewer than eight run, and (R162) those are of its world; it does not before. At
the start a rank whose descriptor differs apart from IN, OUT and STATUS ends it with STATUS 0x11; a direction of a ring with every
port down ends it with 0x12. Otherwise it runs, with its input read, and what this rank has to send goes on its way. R356:
a done mark of another rank is counted once and goes on round the ring; when the marks of every rank are there and this rank has
written its outputs, the command completes with reply 1; this rank's own mark waits for all the data. R357: an abort with DETAIL 1
leaves the collective in the unit, not running and without partials or marks, and waiting for the initiating rank to announce
itself again; DETAIL 2 ends it with STATUS 0x13, DETAIL 3 with 0x12, where (R372) a run of a cairn core holds the reply back; the
abort goes on round the ring, and a job event with cause 13 names DETAIL and the initiating rank. How ranks announce themselves,
and that runs are counted so that an aborted one's flits are known, is the model's choice (log 13); the outputs of a collective
that ends with 0x12 or 0x13 are free values (log 3). -/
def Obligations.CollectiveEvents : Prop :=
  (∀ (s : State) (k : Coll), s.regq = [] → collById s k.id = some k → k.cut ≠ none →
     exec (.collStart k.id) s = .next s ∧ ∀ rank detail, exec (.collAbort k.id detail rank) s = .next s) ∧
  ∀ (s : State) (k : Coll), s.regq = [] → collById s k.id = some k → k.cut = none → writesHeld s k.core k.cmd.id = false →
    let others : Prop := s.fabric.ready.head? = some k.id ∧ (s.fabric.colls.filter fun y => y.running).length < 8 ∧
      ∀ y ∈ s.fabric.colls, y.running = true → y.cmd.world = k.cmd.world
    (k.running = true ∨ allArrived s k = false ∨ ¬ others → exec (.collStart k.id) s = .next s) ∧
    (k.running = false → allArrived s k = true → others → k.cmd.xtra.length = 128 →
      (∃ p r, p < k.ranks ∧ p ≠ k.own ∧ remoteAt s (collGroup s k) (collSeq k) p = some r ∧
        (r.ctl.drop 24).take 64 ≠ k.cmd.xtra.take 64) →
      ∃ t, exec (.collStart k.id) s = .next t ∧ Claims.endsOn s t k.core k.cmd 0x11 0 (s.core k.core) ∧ collById t k.id = none) ∧
    (k.running = false → allArrived s k = true → others → ranksAgree s k = true → s.fabric.colls = [k] → k.classes = [] →
      slotOfGroup s (collGroup s k) = none → (collDesc k).op ≠ 4 → Claims.noEther k →
      (∀ d, d < 6 → ∃ i, i < 4 ∧ (vget s.fabric.ports (4 * d + i) Port.reset).up = true) →
      hostPending s k.core k.cmd = false → (∀ p ∈ sourceOf k.cmd, inHost p.pa = false) →
      ∃ t k', exec (.collStart k.id) s = .next t ∧ collById t k.id = some k' ∧ k'.running = true ∧ k'.wrote = false ∧ k'.marks = [] ∧
        k'.cmd = k.cmd ∧ k'.input = sourceData s k.core k.cmd ∧ t.cores = s.cores ∧ t.mem = s.mem ∧ t.jobs = s.jobs ∧
        k.id ∉ t.fabric.ready ∧ (k.ranks ≤ 1 → t.fabric.ports = s.fabric.ports) ∧
        ∀ p : Fin 24, ∃ fs, t.fabric.ports[p].wait = s.fabric.ports[p].wait ++ fs ∧
          ∀ f ∈ fs, f.cgrp = collGroup s k ∧ f.collSeq = collSeq k ∧ f.pos = k.own ∧ f.run = runNo s (collGroup s k) (collSeq k) ∧
            ∃ q, f.dest = memberPlace (s.core k.core).csr.collid (collDesc k) q ∧ hopFrom s.fabric.place f.dest = .dir (p.val / 4)) ∧
    (k.running = false → allArrived s k = true → others → ranksAgree s k = true →
      (∃ a ∈ (collDesc k).axes, 1 < a.n ∧ a.axis < 3 ∧ ∃ d, (d = 2 * a.axis ∨ d = 2 * a.axis + 1) ∧
        ∀ i, i < 4 → (vget s.fabric.ports (4 * d + i) Port.reset).up = false) →
      runsPending s k.id = false → Claims.plainTarget s k →
      ∃ t, exec (.collStart k.id) s = .next t ∧ Claims.cutOff s t k 0x12) ∧
    (∀ rank, k.running = false ∨ k.ranks ≤ rank ∨ rank ∈ k.marks → exec (.collDoneMark k.id rank) s = .next s) ∧
    (∀ rank, k.running = true → rank < k.ranks → rank ∉ k.marks → rank ≠ k.own →
      let u := s.modColl k.id fun y => { y with marks := rank :: y.marks }
      let note : List RingNote := if (k.own + 1) % k.ranks = rank then []
        else [{ cgrp := collGroup s k, seq := collSeq k, rank, detail := none }]
      ((k.wrote = false ∨ (∃ p, p < k.ranks ∧ p ≠ rank ∧ p ∉ k.marks) ∨ runsPending s k.id = true) →
        exec (.collDoneMark k.id rank) s = .next { u with fabric := { u.fabric with notes := s.fabric.notes ++ note } }) ∧
      (k.wrote = true → (∀ p, p < k.ranks → p ≠ rank → p ∈ k.marks) → runsPending s k.id = false →
        ∃ t, exec (.collDoneMark k.id rank) s = .next t ∧ collById t k.id = none ∧ t.fabric.notes = s.fabric.notes ++ note ∧
          (t.core k.core).scal = (completeOn k.cmd k.status 1 (s.core k.core)).scal ∧
          (k.status ≠ 7 → Claims.endsOn s t k.core k.cmd k.status 1 (s.core k.core)))) ∧
    (k.running = true → k.own < k.ranks → k.own ∉ k.marks → dataComplete s k = false ∨ runsPending s k.id = true →
      exec (.collDoneMark k.id k.own) s = .next s) ∧
    (∀ (rank : Nat) (detail : BitVec 8), detail ≠ 2 → detail ≠ 3 → jobById s k.job = none →
      let g := collGroup s k
      ∃ t, exec (.collAbort k.id detail rank) s = .next t ∧ t.mem = s.mem ∧ OthersSame k.core s t ∧
        (∃ l, t.core k.core = { s.core k.core with hostIn := l }) ∧
        collById t k.id = some { k with running := false, wrote := false, marks := [], input := [], fseqs := [], beyond := false, msgs := 0 } ∧
        remoteAt t g (collSeq k) rank = none ∧ runNo t g (collSeq k) = runNo s g (collSeq k) + 1 ∧
        t.fabric.notes = s.fabric.notes ++ (if (k.own + 1) % max 1 k.ranks = rank then []
          else [{ cgrp := g, seq := collSeq k, rank, detail := some detail.toNat }]) ∧
        (∀ p, p ≠ rank → remoteAt t g (collSeq k) p =
          (remoteAt s g (collSeq k) p).map fun r => { r with ctl := r.ctl.take (announceLen r.ctl), data := [] }) ∧
        ∀ i : Fin 64, ∀ m ∈ t.cairn.queue[i], m.coll ≠ k.id) ∧
    (∀ (rank : Nat) (detail : BitVec 8), detail = 2 ∨ detail = 3 → jobById s k.job = none →
      (runsPending s k.id = false → Claims.plainTarget s k →
        ∃ t, exec (.collAbort k.id detail rank) s = .next t ∧ Claims.cutOff s t k (if detail = 2 then 0x13 else 0x12)) ∧
      ((∃ (i : Fin 64) (r : Run), s.cairn.run[i] = some r ∧ r.m.coll = k.id) →
        ∃ t k', exec (.collAbort k.id detail rank) s = .next t ∧ collById t k.id = some k' ∧ k'.running = false ∧
          k'.cut = some (if detail = 2 then 0x13 else 0x12) ∧ (t.core k.core).running = (s.core k.core).running)) ∧
    (∀ (rank : Nat) (detail : BitVec 8) (j : Job), detail ≠ 2 → detail ≠ 3 → jobById s k.job = some j → eventRoom s j = true → s.memOk →
      inHbm (j.evq + 32 * (j.evn % 2 ^ j.evlog)) 32 = true → rank < 2 ^ 32 →
      ∃ t, exec (.collAbort k.id detail rank) s = .next t ∧ jobById t k.job = some { j with evn := j.evn + 1 } ∧
        deviceBytes t 0 (j.evq + 32 * (j.evn % 2 ^ j.evlog)) 32 =
          bytesOfNat 8 (13 + 2 ^ 8 * detail.toNat + 2 ^ 16 * j.lead.val) ++
          bytesOfNat 8 ((collSeq k).toNat + 2 ^ 32 * (collGroup s k).toNat) ++ bytesOfNat 8 rank ++ bytesOfNat 8 (j.evn % 2 ^ 32))

/-- R353, R354, R356: a reduction whose input failed is zero for integers and the canonical NaN for floats; an .i32 add is the sum of the
terms modulo 2^32; a minimum or maximum of .i32 is a term that no term is below or above; a float add that meets an infinity or a NaN is the
canonical NaN. Chunk c of an all-reduce merges its terms from ring position c on, chunk c of a reduce-scatter from position c + 1
on and ends at c. R349, R356: the redistribution of a group of one rank writes its input to its output, and STATUS 0. -/
def Obligations.CollectiveResult : Prop :=
  (∀ (x : Desc) (tms : W64) (tab : List Byte) (l : List (Option Nat)), x.op ≤ 3 → (none ∈ l) → x.ty = 0 ∨ x.ty = 1 ∨ x.ty = 6 →
     (reduceTerms x tms tab l).bits = (if x.op = 0 ∨ x.ty = 6 then 0 else if x.ty = 1 then 0x7FC0 else 0x7FC00000)) ∧
  (∀ (x : Desc) (tms : W64) (tab : List Byte) (l : List Nat), x.op = 1 → x.ty = 6 →
     (reduceTerms x tms tab (l.map some)).bits = l.sum % 2 ^ 32) ∧
  (∀ (x : Desc) (tms : W64) (tab : List Byte) (l : List Nat), x.ty = 6 → l ≠ [] → (∀ a ∈ l, a < 2 ^ 32) →
     (x.op = 2 → (reduceTerms x tms tab (l.map some)).bits ∈ l ∧
       ∀ a ∈ l, (BitVec.ofNat 32 (reduceTerms x tms tab (l.map some)).bits).toInt ≤ (BitVec.ofNat 32 a).toInt) ∧
     (x.op = 3 → (reduceTerms x tms tab (l.map some)).bits ∈ l ∧
       ∀ a ∈ l, (BitVec.ofNat 32 a).toInt ≤ (BitVec.ofNat 32 (reduceTerms x tms tab (l.map some)).bits).toInt)) ∧
  (∀ (x : Desc) (tms : W64) (tab : List Byte) (l : List Nat), x.op = 1 → x.ty = 0 → (∀ a ∈ l, a < 2 ^ 32) →
     (∃ a ∈ l, bitsN a 23 8 = 255) → (reduceTerms x tms tab (l.map some)).bits = 0x7FC00000) ∧
  (∀ (x : Desc) (c : Nat), (∃ a, (partialAxes x).head? = some a) → 0 < ringSize x → c < ringSize x →
     (∀ a, (partialAxes x).head? = some a → a.dst = 1 →
       (mergeOrder x c).head? = some c ∧ (mergeOrder x c).getLast? = some ((c + ringSize x - 1) % ringSize x)) ∧
     (∀ a, (partialAxes x).head? = some a → 0x10 ≤ a.dst →
       (mergeOrder x c).head? = some ((c + 1) % ringSize x) ∧ (mergeOrder x c).getLast? = some c) ∧
     (∀ r, r < ringSize x → r ∈ mergeOrder x c) ∧ (mergeOrder x c).length = ringSize x) ∧
  (∀ (s : State) (k : Coll) (p q : Piece) (l : List Byte), s.regq = [] → collById s k.id = some k → k.running = true → k.wrote = false → k.marks = [] →
     k.cut = none → writesHeld s k.core k.cmd.id = false → partialAxes (collDesc k) = [] → k.ranks = 1 → k.own = 0 → k.cmd.src = .lead → groupSize (collDesc k) = 1 → (collDesc k).op = 0 → (collDesc k).ty = 0 →
     (∀ e ∈ (collDesc k).ext, 0 < e) → (∀ a ∈ (collDesc k).axes, a.n = 1) →
     runsPending s k.id = false → k.input = l.map some → l.length = 4 * volume (collDesc k).ext → targetOf k.cmd = [p, q] → p.len = l.length →
     q.len = 8 → q.va = p.va + p.len → inHbm p.pa p.len = true → inHbm q.pa 8 = true → (p.pa + p.len ≤ q.pa ∨ q.pa + 8 ≤ p.pa) → s.memOk →
     s.mem.poison = [] → (∀ line, l2Get s k.core.face line = none) → s.keys.zeroed.getLsbD k.cmd.world.toNat = false →
     ∃ t, exec (.collDoneMark k.id k.own) s = .next t ∧ collById t k.id = none ∧
       (t.core k.core).scal = (completeOn k.cmd 0 1 (s.core k.core)).scal ∧
       (∀ i, i < l.length → seesByte t k.core.face k.cmd.world (p.pa + i) = some (l.getD i 0)) ∧
       (∀ i, i < 8 → seesByte t k.core.face k.cmd.world (q.pa + i) = some 0))

/-! ### Ports, peers and the cairn cores -/

/-- The state with a flit that failed its check counted on a port: the CRC failure, the replay asked for by the sequence number that the
port waits for, and each of the `n` failed blocks. -/
def Claims.askedAgain (s t : State) (p : Fin 24) (n : Nat) : Prop :=
  let x := s.fabric.ports[p]
  t.fabric.ports[p] = { x with
    flitcrc := BitVec.ofNat 24 (min (2 ^ 24 - 1) (x.flitcrc.toNat + max 1 n)), replay := BitVec.ofNat 24 (min (2 ^ 24 - 1) (x.replay.toNat + 1))
    screecrc := BitVec.ofNat 16 (min (2 ^ 16 - 1) (x.screecrc.toNat + n)), wantReplay := some x.rxSeq } ∧
  (∀ i, i ≠ p → t.fabric.ports[i] = s.fabric.ports[i]) ∧ t.fabric.colls = s.fabric.colls ∧ t.fabric.remote = s.fabric.remote ∧
  t.cairn = s.cairn ∧ t.cores = s.cores ∧ t.mem = s.mem ∧ t.jobs = s.jobs

/-- The flit is for this package. -/
def Claims.forHere (s : State) (fl : Flit) : Prop := hopFrom s.fabric.place fl.dest = .here

/-- A flit for this package is of no use: it belongs to a run that an abort has ended, or to a collective that this rank has not
announced, and announces nothing itself. -/
def Claims.useless (s : State) (fl : Flit) : Prop :=
  ¬ (fl.ctl = true ∧ fl.off = 0) ∧ (fl.run < runNo s fl.cgrp fl.collSeq ∨ (fl.cgrp, fl.collSeq) ∉ s.fabric.told)

/-- A flit for this package that is for the collective unit now: an announcement; or counts, or data that no class takes, of the
present run. -/
def Claims.useful (s : State) (fl : Flit) : Prop :=
  (fl.ctl = true ∧ fl.off = 0) ∨
  ((fl.cgrp, fl.collSeq) ∈ s.fabric.told ∧ fl.run = runNo s fl.cgrp fl.collSeq ∧
    (fl.ctl = true ∨ ∃ k, s.fabric.colls = [k] ∧ k.running = true ∧ collGroup s k = fl.cgrp ∧ collSeq k = fl.collSeq ∧ k.classes = []))

/-- A flit for this package comes before the run that it belongs to has started here. -/
def Claims.early (s : State) (fl : Flit) : Prop :=
  ¬ (fl.ctl = true ∧ fl.off = 0) ∧ (fl.cgrp, fl.collSeq) ∈ s.fabric.told ∧
  (runNo s fl.cgrp fl.collSeq < fl.run ∨ (fl.run = runNo s fl.cgrp fl.collSeq ∧ fl.ctl = false ∧
    ∀ k ∈ s.fabric.colls, ¬ (k.running = true ∧ collGroup s k = fl.cgrp ∧ collSeq k = fl.collSeq)))

/-- A flit goes toward its place: it waits on a port of its direction that is up. -/
def Claims.goesOn (s t : State) (fl : Flit) : Prop :=
  ∀ d, hopFrom s.fabric.place fl.dest = .dir d → (∃ q : Fin 24, q.val / 4 = d ∧ s.fabric.ports[q].up = true) →
    ∃ q : Fin 24, q.val / 4 = d ∧ s.fabric.ports[q].up = true ∧ t.fabric.ports[q].wait = s.fabric.ports[q].wait ++ [fl] ∧
      ∀ r, r ≠ q → t.fabric.ports[r].wait = s.fabric.ports[r].wait

/-- A flit has been taken: it goes on; or, where it is of use here, its bytes are with what its rank has brought; or it is
discarded. -/
def Claims.flitTaken (s t : State) (fl : Flit) : Prop :=
  (¬ Claims.forHere s fl → Claims.goesOn s t fl ∧ t.fabric.remote = s.fabric.remote) ∧
  (Claims.forHere s fl → Claims.useless s fl → t.fabric.remote = s.fabric.remote) ∧
  (Claims.forHere s fl → Claims.useful s fl → ∃ r, remoteAt t fl.cgrp fl.collSeq fl.pos = some r ∧
    (fl.ctl = true → r.ctl = ((remoteAt s fl.cgrp fl.collSeq fl.pos).map fun y => y.ctl).getD [] ++ flitBytes fl) ∧
    (fl.ctl = false → r.data = ((remoteAt s fl.cgrp fl.collSeq fl.pos).map fun y => y.data).getD [] ++ flitBytes fl)) ∧
  t.cairn = s.cairn ∧ t.cores = s.cores ∧ t.mem = s.mem

/-- R346, R364: a port that is up takes the flit whose CRC and sequence number are right and whose blocks decode, and waits for the
next number; a flit or block that fails is counted and asked for again, and any other number is dropped. R345, R352: a flit for another
place goes on in its direction; R368: one of a run that an abort has ended is discarded. R361-R363: a block goes
out as its shortest encoding, or in the forced mode, at most 516 bytes, counted, in numbered flits of 16 bytes of header, CRC among
them, and 240 of payload, which the replay buffer keeps. R346: a replay sends the named flit and those after it again; after 16
replays of one flit the port goes down. R345, R346: the traffic of a port that goes down is striped over the ports of its direction
that are up, under their numbers, and is kept for their replays. R365: reading ROPEERR clears
it. The outcome of the CRC check comes with the flit, and the order of a header's fields is the model's (log 11, log 14); control
flits, and that a flit whose run has not started waits on the link, are the model's too (log 13, log 14). -/
def Obligations.RopeEvents : Prop :=
  ∀ (s : State) (p : Fin 24), s.regq = [] →
    let x := s.fabric.ports[p]
    (∀ fl : Flit, (x.up = false ∨ (fl.crcOk = true ∧ fl.seq ≠ x.rxSeq)) → exec (.flitReceive p fl) s = .next s) ∧
    (∀ fl : Flit, x.up = true → fl.crcOk = false → ∃ t, exec (.flitReceive p fl) s = .next t ∧ Claims.askedAgain s t p 0) ∧
    (∀ fl : Flit, x.up = true → fl.crcOk = true → fl.seq = x.rxSeq → (∃ b ∈ fl.blocks, screeDecode b = none) →
      ∃ t, exec (.flitReceive p fl) s = .next t ∧
        Claims.askedAgain s t p (fl.blocks.filter fun b => decide (screeDecode b = none)).length) ∧
    (∀ fl : Flit, x.up = true → fl.crcOk = true → fl.seq = x.rxSeq → fl.blocks = [] →
      (¬ Claims.forHere s fl ∨ Claims.useless s fl ∨ Claims.useful s fl →
        ∃ t, exec (.flitReceive p fl) s = .next t ∧
          { t.fabric.ports[p] with wait := x.wait } = { x with rxSeq := x.rxSeq + 1, wantReplay := none } ∧ Claims.flitTaken s t fl) ∧
      (Claims.forHere s fl → Claims.early s fl → exec (.flitReceive p fl) s = .next s)) ∧
    (∀ (fl : Flit) (force : Nat), force ≤ 4 → fl.len.toNat ≤ 240 → fl.payload.toNat < 2 ^ (8 * fl.len.toNat) → fl.blocks = [] →
      exec (.flitReceive p { fl with payload := 0, blocks := (messageBlocks (flitBytes fl)).map (screeEncode force) }) s =
        exec (.flitReceive p fl) s) ∧
    (∀ b : BitVec 4096, x.mode.toNat ≤ 4 →
      (x.up = false → exec (.ropeEgressBlock p b) s = .next s) ∧
      (x.up = true → ∃ t fs, exec (.ropeEgressBlock p b) s = .next t ∧
        let l := bytesOfNat 512 b.toNat
        let enc := screeEncode x.mode.toNat l
        let y := t.fabric.ports[p]
        (fs.flatMap fun f => f.drop 16).take enc.length = enc ∧ enc.length ≤ 516 ∧ fs.length = (enc.length + 239) / 240 ∧
        (x.mode = 0 → ∀ m, m < 4 → enc.length ≤ 4 + (screePayload m l).length) ∧
        (∀ m, m < 4 → x.mode = BitVec.ofNat 3 (m + 1) → (screePayload m l).length ≤ 512 → enc.drop 4 = screePayload m l) ∧
        (∀ i, i < fs.length → (fs.getD i []).take 3 = bytesOfNat 3 (x.txSeq + BitVec.ofNat 24 i).toNat) ∧
        (∀ f ∈ fs, f.length = 256 ∧ (f.drop 12).take 4 = bytesOfNat 4 (crc32 (f.take 12 ++ f.drop 16)).toNat) ∧
        (∀ fl r, x.wait = fl :: r → messageBlocks (flitBytes fl) = [l] → y.wait = r ∧ ∀ f ∈ fs,
          (f.drop 3).take 8 = bytesOfNat 2 fl.cgrp.toNat ++ bytesOfNat 4 fl.collSeq.toNat ++ bytesOfNat 2 (flitBytes fl).length) ∧
        ((∀ fl r, x.wait = fl :: r → messageBlocks (flitBytes fl) ≠ [l]) → y.wait = x.wait) ∧
        y.rawBytes = x.rawBytes + 512 ∧ y.encBytes = x.encBytes + enc.length ∧ y.txSeq = x.txSeq + BitVec.ofNat 24 fs.length ∧
        y.outq = x.outq ++ fs ∧ (∃ old, x.sent ++ fs = old ++ y.sent) ∧ y.sent.length = min 256 (x.sent.length + fs.length) ∧
        (∀ i, i ≠ p → t.fabric.ports[i] = s.fabric.ports[i]) ∧ t.cores = s.cores ∧ t.mem = s.mem)) ∧
    (∀ (seq : BitVec 24) (l r : List (List Byte)) (f : List Byte), x.sent = l ++ f :: r → natOfBytes (f.take 3) = seq.toNat →
      (∀ g ∈ l, natOfBytes (g.take 3) ≠ seq.toNat) →
      let tries := if x.asked = seq then x.tries else 0
      (tries < 16 → ∃ t, exec (.flitReplayRequest p seq) s = .next t ∧
        t.fabric.ports[p] = { x with outq := f :: r, asked := seq, tries := tries + 1 } ∧
        (∀ i, i ≠ p → t.fabric.ports[i] = s.fabric.ports[i]) ∧ t.cores = s.cores) ∧
      (16 ≤ tries → exec (.flitReplayRequest p seq) s = exec (.portDown p) s)) ∧
    (∀ seq : BitVec 24, (∀ g ∈ x.sent, natOfBytes (g.take 3) ≠ seq.toNat) → exec (.flitReplayRequest p seq) s = .next s) ∧
    (let ups : List (Fin 24) := (List.finRange 24).filter fun i => decide (i ≠ p) && decide (i.val / 4 = p.val / 4) && s.fabric.ports[i].up
     s.fabric.colls = [] ∨ ups ≠ [] →
      ∃ t, exec (.portDown p) s = .next t ∧ t.fabric.ports[p].up = false ∧ t.fabric.ports[p].outq = [] ∧ t.cores = s.cores ∧
        t.fabric.colls = s.fabric.colls ∧ (∀ i : Fin 24, i.val / 4 ≠ p.val / 4 → t.fabric.ports[i] = s.fabric.ports[i]) ∧
        (∀ i, i ≠ p → t.fabric.ports[i].up = s.fabric.ports[i].up) ∧
        ((∀ f ∈ x.outq, 16 ≤ f.length) → ∀ n i, ups[n]? = some i → ∃ l,
          let y := s.fabric.ports[i]
          let z := t.fabric.ports[i]
          z.outq = y.outq ++ l ∧ z.txSeq = y.txSeq + BitVec.ofNat 24 l.length ∧ (y.sent.length ≤ 256 → ∃ old, y.sent ++ l = old ++ z.sent) ∧
          (∀ m, m < l.length → (l.getD m []).take 3 = bytesOfNat 3 (y.txSeq + BitVec.ofNat 24 m).toNat) ∧
          l.map (fun f => f.drop 16) =
            ((x.outq.mapIdx fun m f => (m, f)).filter fun m => decide (m.1 % ups.length = n)).map (fun m => m.2.drop 16) ∧
          ∃ w, z.wait = y.wait ++ w ∧ ∀ fl ∈ w, fl ∈ x.wait)) ∧
    (powered s = true → regRead s (.rope p 1) = x.flitcrc ++ x.replay ++ x.screecrc ∧
      ∃ t, exec (.ropeerrRead p) s = .next t ∧ t.fabric.ports[p] = { x with flitcrc := 0, replay := 0, screecrc := 0 } ∧
        (∀ i, i ≠ p → t.fabric.ports[i] = s.fabric.ports[i]) ∧ regRead t (.rope p 1) = 0 ∧ t.cores = s.cores ∧ t.mem = s.mem) ∧
    (powered s = false → exec (.ropeerrRead p) s = .next s)

/-- R361-R364: a receiver decodes every block to the bytes that were encoded, whatever the mode, so compression never changes what is delivered.
With MODE_X 0 (`force` 0) the block is the shortest of the four, of the lower MODE on a tie; a forced mode (`force` is MODE_X, 1 to 4 for MODE 0
to 3) is used unless its payload exceeds 512 bytes, and then the block is raw. A block takes at most 516 bytes, and its header names MODE and
LEN. -/
def Obligations.ScreeRoundTrip : Prop :=
  ∀ (force : Nat) (l : List Byte), force ≤ 4 → l.length = 512 →
    let enc := screeEncode force l
    let hdr := natOfBytes (enc.take 4)
    let mode := hdr / 2 ^ 30
    let len := fun m => (screePayload m l).length
    screeDecode enc = some l ∧ mode < 4 ∧ enc.drop 4 = screePayload mode l ∧ hdr / 2 ^ 16 % 2 ^ 10 = len mode ∧ enc.length ≤ 516 ∧
      (force = 0 → ∀ m < 4, len mode ≤ len m ∧ (m < mode → len mode < len m)) ∧
      (0 < force → mode = if len (force - 1) ≤ 512 then force - 1 else 0)

/-- R366, R367: the next message of a valid peer on its port is taken, and it answers what the peer was sent; any other datagram is
lost, but for its CE mark. After a timeout what a peer has not answered goes again in order; a peer that leaves what it was sent
unanswered counts as lost. Flow control pauses and resumes one priority of one port, and what waited for a peer then goes. R373,
R389: a write of CAIRNPART or CAIRNMASK waits while runs of the slot are queued or execute; one that leaves the
memories changes nothing; a write that fits takes effect, and a changed PBASE, PSIZE or CGRP zeroes the partition. R375: the
counter read clears TRAPS and LOST. R369-R377, R385: a run of a core's next matched flit counts in its class; its flit goes on as
W holds it, with a zero payload after c.drop, or by the trap policy; that of an aborted collective goes nowhere. What answers a
message, and the priority that messages use, are the model's choice (log 14), and window words past the payload are a reading
(log 49). -/
def Obligations.LinkEvents : Prop :=
  (∀ (s : State) (p : Fin 4) (j : Fin 16) (fl : Flit), s.regq = [] →
     let x := s.fabric.peers[j]
     let held : Prop := (Fin.ofNat 4 x.port.toNat, 0) ∈ s.fabric.paused
     let counted : State := { s with fabric := { s.fabric with marked := s.fabric.marked + fl.ce.toNat } }
     ((powered s = false ∨ x.valid = false ∨ x.port.toNat ≠ p.val ∨ fl.crcOk = false) → exec (.ethDatagramReceive p j fl) s = .next s) ∧
     (powered s = true → x.valid = true → x.port.toNat = p.val → fl.crcOk = true →
       ((fl.seq ≠ x.rxSeq ∨ ∃ b ∈ fl.blocks, screeDecode b = none) → exec (.ethDatagramReceive p j fl) s = .next counted) ∧
       (fl.seq = x.rxSeq → fl.blocks = [] → ¬ Claims.forHere s fl ∨ Claims.useless s fl ∨ Claims.useful s fl →
         ∃ t, exec (.ethDatagramReceive p j fl) s = .next t ∧ t.fabric.peers[j].rxSeq = x.rxSeq + 1 ∧ t.fabric.peers[j].unacked = [] ∧
           t.fabric.peers[j].lost = false ∧ t.fabric.peers[j].valid = true ∧ t.fabric.marked = s.fabric.marked + fl.ce.toNat ∧
           Claims.flitTaken s t fl)) ∧
     (held → exec (.ethRetryTimeout j) s = .next (s.modPeer j fun x => { x with wait := x.unacked })) ∧
     (¬ held → exec (.ethRetryTimeout j) s = .next (s.modPeer j fun x => { x with sent := x.sent ++ x.unacked })) ∧
     (x.unacked = [] → exec (.peerLossTimeout j) s = .next s) ∧
     (x.unacked ≠ [] → s.fabric.colls = [] → exec (.peerLossTimeout j) s = .next (s.modPeer j fun x => { x with lost := true }))) ∧
  (∀ (s : State) (p : Fin 4) (prio : Fin 8) (pause : Bool), s.regq = [] →
     ∃ t, exec (.priorityFlowControl p prio pause) s = .next t ∧ (((p, prio) ∈ t.fabric.paused) ↔ pause = true) ∧
       (∀ y, y ≠ (p, prio) → (y ∈ t.fabric.paused ↔ y ∈ s.fabric.paused)) ∧ t.cores = s.cores ∧ t.mem = s.mem ∧
       t.fabric.ports = s.fabric.ports ∧
       ∀ j : Fin 16, let x := s.fabric.peers[j]
         t.fabric.peers[j] = if (Fin.ofNat 4 x.port.toNat, 0) ∈ t.fabric.paused then x else { x with sent := x.sent ++ x.wait, wait := [] }) ∧
  (∀ (s : State) (j : Fin 16) (v : W64), s.regq = [] → swf 0 s.cairn.flow = true →
     let x := cairnSlot s j
     (powered s = false → exec (.cairnpartWrite j v) s = .next s ∧ exec (.cairnmaskWrite j v) s = .next s) ∧
     (powered s = true → slotBusy s j = true →
       exec (.cairnpartWrite j v) s = .next { s with cairn := { s.cairn with writes := s.cairn.writes ++ [(j, false, v)] } } ∧
       exec (.cairnmaskWrite j v) s = .next { s with cairn := { s.cairn with writes := s.cairn.writes ++ [(j, true, v)] } }) ∧
     (slotBusy s j = false → 1024 < partPbase v + partPsize v ∨ 16384 < partKbase v + partKsize v →
       exec (.cairnpartWrite j v) s = .next s) ∧
     (powered s = true → slotBusy s j = false → (∀ i, i ≠ j → partPsize (cairnSlot s i).part = 0) →
       (partPbase v + partPsize v ≤ 1024 → partKbase v + partKsize v ≤ 16384 →
         ∃ t, exec (.cairnpartWrite j v) s = .next t ∧ cairnSlot t j = { x with part := v } ∧
           (∀ i, i ≠ j → cairnSlot t i = cairnSlot s i) ∧ t.cores = s.cores ∧ t.mem = s.mem ∧
           ((partPbase v ≠ partPbase x.part ∨ partPsize v ≠ partPsize x.part ∨ partCgrp v ≠ partCgrp x.part) →
             (∀ a, 1024 * partPbase v ≤ a → a < 1024 * (partPbase v + partPsize v) → sget 0 t.cairn.flow a = 0) ∧
             (∀ a, (a < 1024 * partPbase v ∨ 1024 * (partPbase v + partPsize v) ≤ a) → sget 0 t.cairn.flow a = sget 0 s.cairn.flow a)) ∧
           ((partPbase v = partPbase x.part ∧ partPsize v = partPsize x.part ∧ partCgrp v = partCgrp x.part) → t.cairn.flow = s.cairn.flow)) ∧
       (partPbase x.part + partPsize x.part ≤ 1024 → partKbase x.part + partKsize x.part ≤ 16384 →
         ∃ t, exec (.cairnmaskWrite j v) s = .next t ∧ cairnSlot t j = { x with mask := v } ∧
           (∀ i, i ≠ j → cairnSlot t i = cairnSlot s i) ∧ t.cairn.flow = s.cairn.flow ∧ t.cores = s.cores ∧ t.mem = s.mem)) ∧
     (∀ c : Fin 8,
       (powered s = false → exec (.cairnCounterRead j c) s = .next s) ∧
       (powered s = true → regRead s (.cls j c 3) = x.classes[c].runs ++ x.classes[c].traps ++ x.classes[c].lost ∧
         ∃ t, exec (.cairnCounterRead j c) s = .next t ∧
           (cairnSlot t j).classes[c] = { x.classes[c] with traps := 0, lost := 0 } ∧
           (∀ d, d ≠ c → (cairnSlot t j).classes[d] = x.classes[d]) ∧ (∀ i, i ≠ j → cairnSlot t i = cairnSlot s i) ∧
           t.cores = s.cores ∧ t.mem = s.mem))) ∧
  (∀ (s : State) (k : Fin 64) (m : Matched) (rest : List Matched), s.regq = [] → runOn s k = none →
     (s.cairn.queue[k] = [] → exec (.cairnRun k) s = .next s) ∧
     (s.cairn.queue[k] = m :: rest → s.fabric.colls = [] → s.cairn.writes = [] → m.egress = true ∨ m.dead = true →
       m.k.kernel = [] ∨ m.k.kernel = [0xB4000000] →
       ∃ t fl, exec (.cairnRun k) s = .next t ∧ runOn t k = none ∧ t.cairn.queue[k] = rest ∧
         (m.dead = false → Claims.goesOn s t fl) ∧ (m.dead = true → t.fabric = s.fabric) ∧
         fl = { m.flit with payload := fl.payload } ∧ (m.k.kernel = [] → flitBytes fl = flitBytes m.flit) ∧
         (m.k.kernel ≠ [] → fl.payload = 0) ∧
         (cairnSlot t m.k.slot).classes[m.k.cls] =
           { (cairnSlot s m.k.slot).classes[m.k.cls] with runs := (cairnSlot s m.k.slot).classes[m.k.cls].runs + 1 } ∧
         t.cairn.flow = s.cairn.flow ∧ t.cores = s.cores ∧ t.mem = s.mem)) ∧
  (∀ (r : Run) (d : Nat), r.trap = some d →
     (classTpol r.m.k.w0 = 0 → runFlit r = r.m.flit) ∧ (classTpol r.m.k.w0 = 2 → runFlit r = { r.m.flit with payload := 0 }))

/-! ### The tether, trust and the package -/

/-- Nothing differs but the tether: cores, memory, jobs, keys, and the registers of the package. -/
def Claims.onlyTether (s t : State) : Prop := { t with tether := s.tether } = s

/-- The request `id` of a core is answered with data, or with none where they count as uncorrectable: each part of the AP's word or of a
command that waits for it has the answer, and no other core changes. -/
def Claims.answered (s t : State) (c : CoreId) (id : Nat) (a : Option (List Byte)) : Prop :=
  let put (l : List HostPart) : List HostPart := l.map fun q => if q.req = id ∧ q.ans = none then { q with ans := some a } else q
  t.core c = { s.core c with
    ap := { (s.core c).ap with host := (s.core c).ap.host.map fun w => { w with parts := put w.parts } }
    hostIn := (s.core c).hostIn.map fun e => (e.1, put e.2) } ∧ OthersSame c s t ∧ t.mem = s.mem ∧ t.jobs = s.jobs

/-- No AP has a store in its queue, and no completion waits for a write before egress. -/
def Claims.noneWaits (s : State) : Prop := ∀ c, (s.core c).ap.storeQ = [] ∧ (s.core c).owed = []

/-- A session that has ended: its keys are gone, nothing is held, and no completion of its requests is accepted any more. -/
def Claims.endedSession (x : Session) : Session :=
  { x with
    opened := false, active := false, keys := Vector.replicate 6 0, salts := Vector.replicate 6 0, held := []
    outstanding := x.outstanding.map fun r => { r with live := false } }

/-- R422, R424: a packet under a session is opened with the key and the counter of its sub-stream; a failed tag is counted and ends
the session, a good one moves the counter on. R198: a completion answers its request, and its data wait for the word or the
command that asked; a request that times out leaves, and its AP's load faults with cause 11, DETAIL 3, or its command's source has
failed there. R422: a sub-stream whose counter has reached 2^RKLOG starts again at 0 under its next keys, and its held writes go; no
other does. R198, R423, R424: the end of a session zeroes its keys, drops KIMP of its world, accepts no further completion, and
discards what waits before egress: a command that waits for such a write completes with STATUS 0x07, an AP's store leaves a job
event; reading TSESS clears TAGFAIL. Secrets, derivations and sealing are free functions, and the header layout is the model's
(log 7). -/
def Obligations.SessionEvents : Prop :=
  ∀ (s : State) (v : Fin 128) (k : Fin 3), s.regq = [] →
    let x := session s v.val
    let key := vget x.keys (3 + k.val) 0
    let iv : BitVec 96 := vget x.salts (3 + k.val) 0 ^^^ (x.rctr[k]).setWidth 96
    (∀ p : Packet, linkUp s = false ∨ recovery s = true → exec (.tetherPacketReceive v k p) s = .next s) ∧
    (∀ p : Packet, linkUp s = true → recovery s = false → x.active = false → k ≠ 2 → exec (.tetherPacketReceive v k p) s = .next s) ∧
    (∀ (p : Packet) (r : Request), linkUp s = true → recovery s = false → x.active = false → x.outstanding = [r] → r.id = p.req →
      (r.live = true → ∃ t, exec (.tetherPacketReceive v 2 p) s = .next t ∧ (session t v.val).outstanding = [] ∧
        Claims.answered s t r.core p.req (some p.body)) ∧
      (r.live = false → exec (.tetherPacketReceive v 2 p) s = .next s)) ∧
    (∀ (p : Packet) (l : List Byte), linkUp s = true → recovery s = false → x.active = true → Config.gcmOpen key iv p.hdr p.body p.tag = some l →
      ∃ t, exec (.tetherPacketReceive v k p) s = .next t ∧ (session t v.val).rctr[k] = x.rctr[k] + 1 ∧
        (session t v.val).active = true ∧ (session t v.val).keys = x.keys ∧ (∀ w, w ≠ v → session t w.val = session s w.val) ∧
        (k ≠ 2 → Claims.onlyTether s t) ∧
        (k = 2 → ∀ r, x.outstanding = [r] → r.id = p.req → r.live = true →
          Claims.answered s t r.core p.req (some l) ∧ (session t v.val).outstanding = [])) ∧
    (∀ p : Packet, linkUp s = true → recovery s = false → x.active = true → Config.gcmOpen key iv p.hdr p.body p.tag = none → Claims.noneWaits s →
      ∃ t, exec (.tetherPacketReceive v k p) s = .next t ∧
        session t v.val = { Claims.endedSession x with tagfail := BitVec.ofNat 16 (min (x.tagfail.toNat + 1) (2 ^ 16 - 1)) } ∧
        (x.world ≠ 0 → vget t.keys.kimp x.world.toNat none = none) ∧ (∀ w, w ≠ v → session t w.val = session s w.val) ∧
        t.cores = s.cores ∧ t.mem = s.mem ∧ t.jobs = s.jobs) ∧
    (x.active = true → 2 ^ x.rklog.toNat ≤ (x.ctr[k]).toNat → k ≠ 0 ∨ (x.held = [] ∧ Claims.noneWaits s) →
      ∃ t, exec (.substreamRekey v k) s = .next t ∧ Claims.onlyTether s t ∧ (session t v.val).ctr[k] = 0 ∧ (session t v.val).rctr[k] = 0 ∧
        (session t v.val).rekeys = x.rekeys + 1 ∧ (session t v.val).active = true ∧
        (∀ i, i < 6 → i ≠ k.val → i ≠ 3 + k.val → vget (session t v.val).keys i 0 = vget x.keys i 0) ∧
        (∀ j, j ≠ k → (session t v.val).ctr[j] = x.ctr[j] ∧ (session t v.val).rctr[j] = x.rctr[j])) ∧
    (x.active = false ∨ (x.ctr[k]).toNat < 2 ^ x.rklog.toNat → exec (.substreamRekey v k) s = .next s) ∧
    (∀ h : HeldWrite, k = 0 → x.active = true → 2 ^ x.rklog.toNat ≤ (x.ctr[k]).toNat → x.held = [h] → Claims.noneWaits s →
      ∃ t, exec (.substreamRekey v k) s = .next t ∧ (session t v.val).held = [] ∧ (session t v.val).ctr[k] = 1 ∧
        t.mem = { s.mem with host := sputs 0 s.mem.host (natOfBytes (h.pkt.hdr.take 8) - 0x8_0000_0000_0000) h.pkt.body } ∧
        t.cores = s.cores ∧ t.jobs = s.jobs) ∧
    (∀ (id : Nat) (r : Request), x.outstanding = [r] → r.id = id →
      ∃ t, exec (.nonpostedTimeout v id) s = .next t ∧ (session t v.val).outstanding = [] ∧ t.mem = s.mem ∧ OthersSame r.core s t ∧
        (∀ w, (s.core r.core).ap.host = some w → (∃ q ∈ w.parts, q.req = id ∧ q.ans = none) → ∃ g,
          t.core r.core = { s.core r.core with ap := { (s.core r.core).ap with fault := some g, host := none } } ∧
          g.cause = 11 ∧ g.detail = 3 ∧ g.va = BitVec.ofNat 64 w.va) ∧
        ((∀ w, (s.core r.core).ap.host = some w → ∀ q ∈ w.parts, ¬ (q.req = id ∧ q.ans = none)) → Claims.answered s t r.core id none)) ∧
    (∀ id : Nat, (∀ r ∈ x.outstanding, r.id ≠ id) → exec (.nonpostedTimeout v id) s = .next s) ∧
    (∀ (c : CoreId) (j : Job), powered s = true → x.active = true → (s.core c).job = some j.id → jobById s j.id = some j →
      vfOf s c = v.val → (∀ d, d ≠ c → (s.core d).ap.storeQ = [] ∧ (s.core d).owed = []) →
      (∀ o y, (s.core c).ap.storeQ = [] → (s.core c).owed = [o] → (s.core c).running.find? (fun y => decide (y.id = o.id)) = some y →
        ∃ t, exec (.tsessTerm v) s = .next t ∧ t.core c = completeOn y 7 0xFF (forgetCmd y.id (s.core c)) ∧ OthersSame c s t ∧
          t.mem = s.mem) ∧
      (∀ o, (s.core c).owed = [] → (s.core c).ap.storeQ = [o] → hostStore o = true → eventRoom s j = true →
        ∃ t, exec (.tsessTerm v) s = .next t ∧ (t.core c).ap.storeQ = [] ∧ jobById t j.id = some { j with evn := j.evn + 1 })) ∧
    (powered s = true → Claims.noneWaits s →
      ∃ t, exec (.tsessTerm v) s = .next t ∧ session t v.val = Claims.endedSession x ∧
        (x.active = true → x.world ≠ 0 → vget t.keys.kimp x.world.toNat none = none) ∧
        (∀ i, i ≠ x.world.toNat → vget t.keys.kimp i none = vget s.keys.kimp i none) ∧ (∀ w, w ≠ v → session t w.val = session s w.val) ∧
        t.cores = s.cores ∧ t.mem = s.mem ∧ t.jobs = s.jobs) ∧
    (powered s = true → ∃ t, exec (.tsessRead v) s = .next t ∧ session t v.val = { x with tagfail := 0 } ∧
      (∀ w, w ≠ v → session t w.val = session s w.val) ∧ Claims.onlyTether s t) ∧
    (powered s = false → exec (.tsessRead v) s = .next s ∧ exec (.tsessTerm v) s = .next s)

/-- The SPDM requests that have no effect on a session. -/
noncomputable def Claims.plainSpdm : List (Fin 128 → List Byte → Instr) :=
  [.getVersion, .getCapabilities, .negotiateAlgorithms, .getDigests, .getCertificate, .challenge, .getMeasurements, .heartbeat]

/-- R427: while the package is awake each SPDM request is answered through the mailbox of its function, and one that is not is not.
R421, R427: KEY_EXCHANGE opens a session; FINISH makes an opened session active, with counters at 0, and its world's KIMP
installed; KEY_UPDATE gives every sub-stream of an active session its next keys; END_SESSION ends the session. GET_MEASUREMENTS answers with
the measurement that it names (R426). The replies' own bytes are free values (log 8). -/
def Obligations.SpdmEvents : Prop :=
  ∀ (s : State) (v : Fin 128) (msg : List Byte), s.regq = [] →
    let x := session s v.val
    (linkUp s = false → (∀ f ∈ Claims.plainSpdm, exec (f v msg) s = .next s) ∧ exec (.keyExchange v msg) s = .next s ∧
      exec (.finish v msg) s = .next s ∧ exec (.keyUpdate v msg) s = .next s ∧ exec (.endSession v msg) s = .next s) ∧
    (linkUp s = true →
      (∀ f ∈ Claims.plainSpdm, ∃ t l, exec (f v msg) s = .next t ∧ t.tether.mail = s.tether.mail ++ [(v.val, l)] ∧
        t.tether.sess = s.tether.sess ∧ t.keys = s.keys ∧ t.cores = s.cores ∧ t.mem = s.mem) ∧
      (∀ i, 1 ≤ i → i ≤ 16 → (msg.getD 3 0).toNat = i → ∃ t l, exec (.getMeasurements v msg) s = .next t ∧
        t.tether.mail = s.tether.mail ++ [(v.val, l ++ bytesOfNat 32 (vget s.tether.meas (i - 1) 0).toNat)]) ∧
      (∃ t l, exec (.keyExchange v msg) s = .next t ∧ t.tether.mail = s.tether.mail ++ [(v.val, l)] ∧ (session t v.val).opened = true ∧
        (session t v.val).active = x.active ∧ (∀ w, w ≠ v → session t w.val = session s w.val) ∧ t.keys = s.keys ∧ t.cores = s.cores ∧
        t.mem = s.mem) ∧
      (x.opened = false → ∃ t l, exec (.finish v msg) s = .next t ∧ t.tether.mail = s.tether.mail ++ [(v.val, l)] ∧
        t.tether.sess = s.tether.sess ∧ t.keys = s.keys) ∧
      (x.opened = true → ∃ t l, exec (.finish v msg) s = .next t ∧ t.tether.mail = s.tether.mail ++ [(v.val, l)] ∧
        (session t v.val).active = true ∧ (session t v.val).ctr = Vector.replicate 3 0 ∧ (session t v.val).rctr = Vector.replicate 3 0 ∧
        (session t v.val).rekeys = 0 ∧ (session t v.val).world = x.world ∧ (x.world ≠ 0 → vget t.keys.kimp x.world.toNat none ≠ none) ∧
        (∀ i, i ≠ x.world.toNat → vget t.keys.kimp i none = vget s.keys.kimp i none) ∧ t.keys.slots = s.keys.slots ∧ t.cores = s.cores ∧
        t.mem = s.mem) ∧
      (x.active = false → ∃ t l, exec (.keyUpdate v msg) s = .next t ∧ t.tether.mail = s.tether.mail ++ [(v.val, l)] ∧
        t.tether.sess = s.tether.sess ∧ t.keys = s.keys) ∧
      (x.active = true → x.held = [] → Claims.noneWaits s → ∃ t l, exec (.keyUpdate v msg) s = .next t ∧
        t.tether.mail = s.tether.mail ++ [(v.val, l)] ∧ (session t v.val).active = true ∧ (session t v.val).ctr = Vector.replicate 3 0 ∧
        (session t v.val).rctr = Vector.replicate 3 0 ∧ (session t v.val).rekeys = x.rekeys + 3 ∧ t.keys = s.keys ∧ t.mem = s.mem) ∧
      (Claims.noneWaits s → ∃ t l, exec (.endSession v msg) s = .next t ∧ t.tether.mail = s.tether.mail ++ [(v.val, l)] ∧
        (session t v.val).active = false ∧ (session t v.val).opened = false ∧ (session t v.val).keys = Vector.replicate 6 0 ∧
        (x.active = true → x.world ≠ 0 → vget t.keys.kimp x.world.toNat none = none) ∧ t.keys.slots = s.keys.slots ∧ t.cores = s.cores ∧
        t.mem = s.mem))

/-- R429: sleep is refused, with REFUSED set and nothing else changed, while a job is resident, a scrub runs, a protected world is
alive without SEALED, SEALED is set with BASE 0, or the package is not awake. Otherwise the entry begins: dispatch stops (STATE 1);
then the slots are emptied, then the sessions end, then the rope goes down and the package is asleep (STATE 3). R431: a wake by SLPCTL or by
the wake input begins the wake (STATE 2): the rope is trained, the slots are unwrapped, base camp dispatches, and STATE 0 and WOKE
end it; a wake during an entry is held until the package is asleep; one while awake or waking does nothing. R428: reading SLPCTL
clears REFUSED. R431: asleep, a write of another register than SLPCTL and MGTNOTE
is discarded, and another register reads zero. R425: in recovery neither has an effect. The steps of an entry and a wake are moves
of the guide core in the schedule; that they are separate moves, that a request while the package is not awake is refused, and that
cores and memory keep their state, are readings (log 44). -/
def Obligations.SleepEvents : Prop :=
  ∀ (s : State), s.regq = [] →
    let alive : Prop := ∃ i, i < 16 ∧ protWorld s (BitVec.ofNat 4 i) = true
    let refused : Prop := s.sleep.st ≠ 0 ∨ (∃ c, (s.core c).job ≠ none) ∨ (∃ i, i < 16 ∧ vget s.scrub.active i false = true) ∨
      (alive ∧ s.sleep.sealed = false) ∨ (s.sleep.sealed = true ∧ s.sleep.base = 0)
    (recovery s = true → exec .slpctlReq s = .next s ∧ exec .wakeInput s = .next s) ∧
    (recovery s = false → refused → exec .slpctlReq s = .next { s with sleep := { s.sleep with refused := true } }) ∧
    (recovery s = false → ¬ refused →
      exec .slpctlReq s = .next { s with
        camp := { s.camp with stopped := true }, sleep := { s.sleep with st := 1, phase := 1, wrapped := 0 } }) ∧
    (∀ r, s.sched = .guide :: r → s.sleep.st = 1 → ∃ t, step s = .next t ∧ t.camp.stopped = s.camp.stopped ∧ t.keys.kslp = s.keys.kslp ∧
      (s.sleep.phase = 1 → s.sleep.wrapped = 0 → t.sleep.st = 1 ∧ t.sleep.phase = 2 ∧ vget t.keys.slots 0 none = vget s.keys.slots 0 none ∧
        t.jobs = s.jobs ∧ ∀ w, 1 ≤ w → w < 16 →
          vget t.keys.slots w none = none ∧ (t.sleep.wrapped.getLsbD w = true ↔ vget s.keys.slots w none ≠ none)) ∧
      (s.sleep.phase = 2 → t.sleep.st = 1 ∧ t.sleep.phase = 3 ∧ ∀ v, v < 128 → (session t v).active = false ∧ (session t v).opened = false) ∧
      (s.sleep.phase = 3 → (∀ p : Fin 24, t.fabric.ports[p].up = false) ∧ t.cores = s.cores ∧ t.mem = s.mem ∧
        t.sleep.wrapped = s.sleep.wrapped ∧ t.sleep.wake = false ∧ t.sleep.st = if s.sleep.wake = true then 2 else 3)) ∧
    (∀ r, s.sched = .guide :: r → s.sleep.st = 2 → ∃ t, step s = .next t ∧ t.cores = s.cores ∧ t.mem = s.mem ∧ t.jobs = s.jobs ∧
      (s.sleep.phase < 5 → t.sleep.st = 2 ∧ t.sleep.phase = s.sleep.phase + 1 ∧ t.camp.stopped = (s.camp.stopped && decide (s.sleep.phase ≠ 4))) ∧
      (s.sleep.phase = 1 → 3 ∉ s.sys.failed → ∀ p : Fin 24,
        (s.repair.disabled.filter fun x => decide (x = ((6 : BitVec 4), BitVec.ofNat 8 p.val))).length < 8 → t.fabric.ports[p].up = true) ∧
      (s.sleep.phase = 3 → t.sleep.wrapped = 0 ∧
        ∀ w : World, w ≠ 0 → s.sleep.wrapped.getLsbD w.toNat = false → vget t.keys.slots w.toNat none = vget s.keys.slots w.toNat none) ∧
      (s.sleep.phase = 5 → t.sleep.st = 0 ∧ t.sys.mgt.getLsbD 6 = true)) ∧
    (recovery s = false → s.sleep.st = 0 ∨ s.sleep.st = 2 → exec .slpctlWake s = .next s ∧ exec .wakeInput s = .next s) ∧
    (recovery s = false → s.sleep.st = 1 →
      exec .slpctlWake s = .next { s with sleep := { s.sleep with wake := true } } ∧
      exec .wakeInput s = .next { s with sleep := { s.sleep with wake := true } }) ∧
    (recovery s = false → s.sleep.st = 3 →
      exec .slpctlWake s = .next { s with sleep := { s.sleep with st := 2, phase := 0, wake := false } } ∧
      exec .wakeInput s = .next { s with sleep := { s.sleep with st := 2, phase := 0, wake := false } }) ∧
    (recovery s = false → exec .slpctlRead s = .next { s with sleep := { s.sleep with refused := false } }) ∧
    (∀ (a : BitVec 52) (x : W64), powered s = false → inRegs a.toNat = true → a.toNat / 8 ≠ 0x400000A0000 / 8 → a.toNat / 8 ≠ 0x400000C0008 / 8 →
      exec (.registerWrite a x) s = .next s ∧ regRead s (regAt a.toNat) = 0)

/-- R447, R449: after a cold reset no job, session or key slot is left, HBM and the host's memory hold what they held (R395: HBM under keys
that no slot holds any more), every core is at its reset values, and the schedule and the repairs stand; when every image passes its checks, READY and RESET are set,
the rope is trained, and base camp dispatches. R425: a package whose guide firmware fails answers no register, and one with
another failed image does not dispatch. R447: a warm reset kills every job and resets the cores with their ledges kept,
keeps keys, scrubs, measurements, the error ring and the repairs, and sets READY and RESET; a per-core reset of a core without a
job clears it but for its ledges, and touches no other core. R404, R415: the values drawn at bring-up are free values (log 5).
What a cold reset keeps of host memory and a warm reset of the faces is a reading (log 48), and training succeeds (log 18). -/
def Obligations.ResetEvents : Prop :=
  ∀ (s : State), s.regq = [] →
    (∃ t, exec .coldReset s = .next t ∧ t.cores = State.reset.cores ∧ t.clusters = State.reset.clusters ∧ t.mem = { s.mem with poison := [] } ∧
      t.l2 = State.reset.l2 ∧ t.jobs = [] ∧ t.keys.slots = Vector.replicate 16 none ∧ t.keys.kimp = Vector.replicate 16 none ∧
      t.tether.sess = Vector.replicate 128 Session.reset ∧ t.sleep = State.reset.sleep ∧ t.scrub = State.reset.scrub ∧ t.sched = s.sched ∧
      t.repair.store = s.repair.store ∧ t.repair.disabled = s.repair.disabled ∧ t.sys.errs = [] ∧ t.sys.errbase = 0 ∧
      t.camp.slots = State.reset.camp.slots ∧
      (imageOk (Config.firmware 1) = false → recovery t = true ∧ t.camp.ready = false ∧ ∀ r, regRead t r = 0) ∧
      (∀ ty, ty ∈ [2, 3, 4, 5] → imageOk (Config.firmware ty) = false → t.camp.ready = false) ∧
      ((∀ ty, ty ∈ [1, 2, 3, 4, 5] → imageOk (Config.firmware ty) = true) → t.camp.ready = true ∧ t.sys.mgt = 3 ∧
        ∀ p : Fin 24, (s.repair.disabled.filter fun x => decide (x = ((6 : BitVec 4), BitVec.ofNat 8 p.val))).length < 8 →
          t.fabric.ports[p].up = true)) ∧
    (s.jobs = [] → s.camp.replays = [] → (∀ i, (campSlot s i).mapped = false) → (∀ x : Session, x ∈ s.tether.sess.toList → x.active = false) → s.sleep.st = 0 →
      s.sys.failed = [] →
      ∃ t, exec .rstctlWarm s = .next t ∧ t.mem = s.mem ∧ t.l2 = s.l2 ∧ t.jobs = [] ∧ t.keys = s.keys ∧ t.scrub = s.scrub ∧
        t.repair = s.repair ∧ t.clusters = State.reset.clusters ∧ t.tether.meas = s.tether.meas ∧ t.sleep = State.reset.sleep ∧
        t.sys.errbase = s.sys.errbase ∧ t.sys.errtail = s.sys.errtail ∧ t.sys.errhead = s.sys.errhead ∧ t.sys.errs = s.sys.errs ∧
        t.sys.fqbase = 0 ∧ t.sys.cap = 2800 ∧ t.sys.mgt = 3 ∧ t.camp.ready = true ∧ t.camp.channels = [] ∧
        (∀ i, (campSlot t i).mapped = false ∧ (campSlot t i).open_ = (campSlot s i).open_) ∧
        ∀ c, (t.core c).scratch = (s.core c).scratch ∧ (t.core c).scal = Core.reset.scal ∧ (t.core c).vec = Core.reset.vec ∧
          (t.core c).job = none ∧ (t.core c).trap = Core.reset.trap ∧ (t.core c).csr.world = s.scrub.cworld[c]) ∧
    (powered s = false → exec .rstctlWarm s = .next s ∧ ∀ c, exec (.rstctlCgo c) s = .next s) ∧
    (∀ c : CoreId, (s.core c).job = none → powered s = true →
      ∃ t, exec (.rstctlCgo c) s = .next t ∧ OthersSame c s t ∧ t.mem = s.mem ∧ t.jobs = s.jobs ∧ t.sys.mgt.getLsbD 1 = true ∧
        (t.core c).scratch = (s.core c).scratch ∧ (t.core c).scal.s = Vector.replicate 32 0 ∧ (t.core c).scal.a = Vector.replicate 32 0 ∧
        (t.core c).vec = Vecs.reset ∧ (t.core c).sf.h = Vector.replicate 256 0 ∧ (t.core c).csr.tmshape = 0 ∧
        (t.core c).csr.world = (s.core c).csr.world)

/-- R444: a THROTTLE_ADJUST measures the power of the last millisecond (a free value, log 9), takes the clocks one step down above CAP
and one up at 95 % of CAP or below, and THROT says whether they are down. R439: the first unit at its drain point is tested once,
and the result (a free value, log 10) is recorded as transient, repaired with a spare, or disabled: a ledge without a spare row takes the
cluster's spare core, and a port goes down with its last lane. R437: the oldest stored record
goes to an enabled ring with room, and the notice ERR rises; to no other ring. Which supply a unit takes its spares from is a reading
(log 10). -/
def Obligations.HealthEvents : Prop :=
  ∀ (s : State), s.regq = [] →
    (let w := (Config.watts s.free).toNat
     let cap := s.sys.cap.toNat
     ∃ t, exec .throttleAdjust s = .next t ∧ t.sys.wattsRead = Config.watts s.free ∧ t.sys.cap = s.sys.cap ∧
       (cap < w → t.sys.steps = s.sys.steps + 1) ∧ (w ≤ cap → cap * 95 < w * 100 → t.sys.steps = s.sys.steps) ∧
       (w * 100 ≤ cap * 95 → w ≤ cap → t.sys.steps = s.sys.steps - 1) ∧ (t.sys.throt = true ↔ 0 < t.sys.steps) ∧ t.cores = s.cores ∧
       t.clusters = s.clusters ∧ t.mem = s.mem ∧ Claims.reg t 0xC0010 = (if powered s = false then 0 else
         BitVec.ofNat 64 ((Config.watts s.free).toNat * 2 ^ 32 + t.sys.throt.toNat * 2 ^ 16 + s.sys.cap.toNat))) ∧
    ((∀ x ∈ s.repair.suspects, coreUnit x.kind = true ∧ (s.core (coreOf x.inst.toNat)).job ≠ none) → exec .selfTest s = .next s) ∧
    (∀ x : Suspect, s.repair.suspects = [x] → x.kind ≠ 15 → (coreUnit x.kind = false ∨ (s.core (coreOf x.inst.toNat)).job = none) →
      s.sys.errs.length < 64 → s.fabric.colls = [] →
      let left := sparesLeft s (spareKey x)
      let more := sparesLeft s (spareCore x.inst)
      ∃ t r, exec .selfTest s = .next t ∧ t.repair.suspects = [] ∧ t.sys.errs = s.sys.errs ++ [r] ∧
        r.extractLsb' 0 4 = x.kind ∧ r.extractLsb' 8 8 = x.inst ∧ r.getLsbD 4 = x.uncorr ∧ r.extractLsb' 64 64 = x.addr ∧
        (Config.selfTestPass s.free = true → r.extractLsb' 5 2 = 1 ∧ t.repair.store = s.repair.store ∧ t.repair.disabled = s.repair.disabled) ∧
        (Config.selfTestPass s.free = false → t.repair.store = s.repair.store ++ [x]) ∧
        (Config.selfTestPass s.free = false → x.kind = 2 → r.extractLsb' 5 2 = 2) ∧
        (Config.selfTestPass s.free = false → x.kind ≠ 2 → 0 < left → r.extractLsb' 5 2 = 2 ∧ sparesLeft t (spareKey x) = left - 1) ∧
        (Config.selfTestPass s.free = false → x.kind = 3 → left = 0 → 0 < more →
          r.extractLsb' 5 2 = 2 ∧ sparesLeft t (spareCore x.inst) = more - 1) ∧
        (Config.selfTestPass s.free = false → x.kind ≠ 2 → left = 0 → x.kind ≠ 3 ∨ more = 0 →
          r.extractLsb' 5 2 = 3 ∧ (x.kind, x.inst) ∈ t.repair.disabled ∧
          ∀ p : Fin 24, x.kind = 6 → x.inst = BitVec.ofNat 8 p.val →
            7 ≤ (s.repair.disabled.filter fun y => decide (y = ((6 : BitVec 4), x.inst))).length → t.fabric.ports[p].up = false) ∧
        (∀ c, c ≠ coreOf x.inst.toNat ∨ Config.selfTestPass s.free = true ∨ coreUnit x.kind = false → x.kind ≠ 2 → t.core c = s.core c) ∧
        (x.kind ≠ 2 → t.mem = s.mem)) ∧
    (let base := bitsN s.sys.errbase.toNat 12 40 * 4096
     let size := 2 ^ s.sys.errsize.toNat
     ((s.sys.errs = [] ∨ base = 0 ∨ 4 ∈ s.sys.failed ∨ size ≤ (s.sys.errtail - s.sys.errhead).toNat) → exec .errorRecordPost s = .next s) ∧
     (∀ (r : BitVec 256) (rest : List (BitVec 256)), s.sys.errs = r :: rest → base ≠ 0 → 4 ∉ s.sys.failed → (s.sys.errtail - s.sys.errhead).toNat < size → s.memOk →
       inHbm (base + 32 * (s.sys.errtail.toNat % size)) 32 = true → r.toNat < 2 ^ 192 →
       ∃ t, exec .errorRecordPost s = .next t ∧ t.sys.errs = rest ∧ t.sys.errtail = s.sys.errtail + 1 ∧ t.sys.errseq = s.sys.errseq + 1 ∧
         t.sys.mgt.getLsbD 3 = true ∧
         deviceBytes t 0 (base + 32 * (s.sys.errtail.toNat % size)) 32 = bytesOfNat 24 r.toNat ++ bytesOfNat 8 s.sys.errseq.toNat ∧
         t.jobs = s.jobs))

/-- R8: a write of a register of the device region while the package is awake; what it then reads is what its field map says. FQBASE, ERRBASE (R193,
R437): the base in bits [51:12], SIZE from 4 to 16 only. ROPECTL (R365): MODE of 0 to 4 only, UP kept. PWRCTL (R444): CAP from 1000
to 2800 only. MGTNOTE (R448): ones clear bits 6 to 1, READY stays. BCSEED (R404) and TTO (R198): zero is ignored. Peer entries (R367), SLOTQ (R400),
INVA, INVL (R196) and graph parameters (R411) hold what was written. A write of no register of the map does nothing. No write of these
changes a core or memory. -/
def Obligations.RegisterWriteResult : Prop :=
  ∀ (s : State) (v : W64), s.regq = [] → powered s = true →
    let put (off : Nat) : Instr := .registerWrite (BitVec.ofNat 52 (0x40000000000 + off)) v
    let size (old : W64) : Nat := if 4 ≤ bitsN v.toNat 0 5 ∧ bitsN v.toNat 0 5 ≤ 16 then bitsN v.toNat 0 5 else bitsN old.toNat 0 5
    let gives (off : Nat) (x : W64) : Prop := ∃ t, exec (put off) s = .next t ∧ Claims.reg t off = x ∧ t.cores = s.cores ∧ t.mem = s.mem ∧ t.l2 = s.l2
    gives 0x1000 (BitVec.ofNat 64 (bitsN v.toNat 12 40 * 4096 + size (Claims.reg s 0x1000))) ∧
    gives 0xB0000 (BitVec.ofNat 64 (bitsN v.toNat 12 40 * 4096 + size (Claims.reg s 0xB0000))) ∧
    gives 0x1010 (BitVec.ofNat 64 (v.toNat % 2 ^ 32)) ∧ gives 0xB0010 (BitVec.ofNat 64 (v.toNat % 2 ^ 32)) ∧
    gives 0x1020 v ∧ gives 0x1028 v ∧ gives 0x1008 (Claims.reg s 0x1008) ∧ gives 0xB0008 (Claims.reg s 0xB0008) ∧
    gives 0x1040 (Claims.reg s 0x1040) ∧ gives 0x50208 (Claims.reg s 0x50208) ∧
    gives 0x62000 (if v.toNat % 2 ^ 32 = 0 then Claims.reg s 0x62000 else BitVec.ofNat 64 (v.toNat % 2 ^ 32)) ∧
    gives 0x82000 (if v.toNat % 2 ^ 32 = 0 then Claims.reg s 0x82000 else BitVec.ofNat 64 (v.toNat % 2 ^ 32)) ∧
    gives 0xC0008 (Claims.reg s 0xC0008 &&& ~~~(v &&& 0x7E)) ∧
    gives 0xC0010 (if 1000 ≤ bitsN v.toNat 0 12 ∧ bitsN v.toNat 0 12 ≤ 2800 then
      (Claims.reg s 0xC0010 &&& ~~~0xFFF) ||| (v &&& 0xFFF) else Claims.reg s 0xC0010) ∧
    (∀ p, p < 24 → gives (0x20000 + 0x40 * p) (if bitsN v.toNat 2 3 ≤ 4 then (Claims.reg s (0x20000 + 0x40 * p) &&& 1) ||| (v &&& 0x1C)
      else Claims.reg s (0x20000 + 0x40 * p))) ∧
    (∀ j, j < 16 → gives (0x30000 + 32 * j) v ∧ gives (0x30008 + 32 * j) v ∧ gives (0x30010 + 32 * j) (v &&& 0x000CFFFFFFFFFFFF) ∧
      (s.fabric.colls = [] ∨ v.getLsbD 0 = true → gives (0x30018 + 32 * j) (v &&& 1))) ∧
    (∀ i, i < 256 → gives (0x60000 + 0x20 * i) (v &&& 0x000FFFFFFFFFF000)) ∧
    (∀ i n, i < 256 → n < 64 → gives (0x100000 + 0x200 * i + 8 * n) v) ∧
    (∀ a : BitVec 52, (inRegs a.toNat = false ∨ regAt a.toNat = .absent) → exec (.registerWrite a v) s = .next s)
end

