-- ==== Sys2Proof/Laws/Sparse.lean ====
section
/-! SUPPORT. Laws of sparse tables: what a read gives after a write, and that every operation keeps the canonical form. -/

namespace Sys2Proof.Machine

variable {α : Type}

@[simp] theorem sget_nil (d : α) (x : Nat) : sget d [] x = d := rfl

/-- Keys below the first listed one read as the default. -/
theorem sget_below [DecidableEq α] (d : α) (m : Sparse α) (lo x : Nat) (h : swfFrom d lo m = true) (hx : x < lo) :
    sget d m x = d := by
  induction m generalizing lo with
  | nil => rfl
  | cons e m ih =>
    obtain ⟨k, v⟩ := e
    simp only [swfFrom, Bool.and_eq_true, decide_eq_true_eq] at h
    have : x ≠ k := by omega
    simp only [sget, this, if_false]
    exact ih (k + 1) h.2 (by omega)

/-- A read of the written key gives the written value. -/
@[simp] theorem sget_sput_same [DecidableEq α] (d : α) (m : Sparse α) (x : Nat) (v : α) (h : swf d m = true) :
    sget d (sput d m x v) x = v := by
  have key : ∀ (m : Sparse α) (lo : Nat), swfFrom d lo m = true → sget d (sput d m x v) x = v := by
    intro m
    induction m with
    | nil => intro lo _; by_cases hv : v = d <;> simp [sput, sget, hv]
    | cons e m ih =>
      intro lo h
      obtain ⟨k, w⟩ := e
      simp only [swfFrom, Bool.and_eq_true, decide_eq_true_eq] at h
      simp only [sput]
      split
      · split
        · next hlt hv => rw [sget_below d _ (x + 1) x (by simp [swfFrom, h.1.2, h.2]; omega) (by omega), hv]
        · simp [sget]
      · split
        · next hk =>
          split
          · next hv => rw [sget_below d m (k + 1) x h.2 (by omega), hv]
          · simp [sget]
        · next hlt hk => simp only [sget, hk, if_false]; exact ih (k + 1) h.2
  exact key m 0 h

/-- A write leaves every other key alone. -/
theorem sget_sput_other [DecidableEq α] (d : α) (m : Sparse α) (x y : Nat) (v : α) (hxy : y ≠ x) :
    sget d (sput d m x v) y = sget d m y := by
  have key : ∀ (m : Sparse α), sget d (sput d m x v) y = sget d m y := by
    intro m
    induction m with
    | nil => by_cases hv : v = d <;> simp [sput, sget, hv, hxy]
    | cons e m ih =>
      obtain ⟨k, w⟩ := e
      simp only [sput]
      split
      · split <;> simp [sget, hxy]
      · split
        · next hk => split <;> simp [sget, ← hk, hxy]
        · simp only [sget]; split
          · rfl
          · exact ih
  exact key m

/-- The canonical form does not depend on the bound below its keys. -/
theorem swfFrom_mono [DecidableEq α] (d : α) (m : Sparse α) (lo lo' : Nat) (hle : lo' ≤ lo) (h : swfFrom d lo m = true) :
    swfFrom d lo' m = true := by
  cases m with
  | nil => rfl
  | cons e m =>
    simp only [swfFrom, Bool.and_eq_true, decide_eq_true_eq] at h ⊢
    exact ⟨⟨by omega, h.1.2⟩, h.2⟩

/-- A write keeps the canonical form, above a bound. -/
theorem swfFrom_sput [DecidableEq α] (d : α) (m : Sparse α) (lo x : Nat) (v : α) (hx : lo ≤ x) (h : swfFrom d lo m = true) :
    swfFrom d lo (sput d m x v) = true := by
  induction m generalizing lo with
  | nil => by_cases hv : v = d <;> simp [sput, swfFrom, hv, hx]
  | cons e m ih =>
    obtain ⟨k, w⟩ := e
    simp only [swfFrom, Bool.and_eq_true, decide_eq_true_eq] at h
    simp only [sput]
    split
    · split
      · simp [swfFrom, h.1.1, h.1.2, h.2]
      · next hlt hv => simp [swfFrom, hx, hv, h.1.2, h.2]; omega
    · split
      · next hk =>
        split
        · exact swfFrom_mono d m (k + 1) lo (by omega) h.2
        · next hv => subst hk; simp [swfFrom, hx, hv, h.2]
      · next hlt hk =>
        simp only [swfFrom, h.1.1, h.1.2, Bool.and_eq_true, decide_eq_true_eq, true_and]
        exact ih (k + 1) (by omega) h.2

/-- A write keeps the canonical form. -/
@[simp] theorem swf_sput [DecidableEq α] (d : α) (m : Sparse α) (x : Nat) (v : α) (h : swf d m = true) :
    swf d (sput d m x v) = true := swfFrom_sput d m 0 x v (Nat.zero_le x) h

/-- A part of a table in canonical form is in canonical form. -/
theorem swfFrom_filter [DecidableEq α] (d : α) (p : Nat × α → Bool) (m : Sparse α) (lo : Nat) (h : swfFrom d lo m = true) :
    swfFrom d lo (m.filter p) = true := by
  induction m generalizing lo with
  | nil => rfl
  | cons e m ih =>
    obtain ⟨k, v⟩ := e
    simp only [swfFrom, Bool.and_eq_true, decide_eq_true_eq] at h
    rw [List.filter_cons]
    split
    · simp only [swfFrom, h.1.1, h.1.2, Bool.and_eq_true, decide_eq_true_eq, true_and]
      exact ih (k + 1) h.2
    · exact swfFrom_mono d _ (k + 1) lo (by omega) (ih (k + 1) h.2)

@[simp] theorem swf_filter [DecidableEq α] (d : α) (p : Nat × α → Bool) (m : Sparse α) (h : swf d m = true) :
    swf d (m.filter p) = true := swfFrom_filter d p m 0 h

/-- Two tables in canonical form, one after the other, when a bound parts their keys. -/
theorem swfFrom_append [DecidableEq α] (d : α) (a b : Sparse α) (lo mid : Nat) (hlo : lo ≤ mid)
    (ha : swfFrom d lo a = true) (hmid : ∀ e ∈ a, e.1 < mid) (hb : swfFrom d mid b = true) :
    swfFrom d lo (a ++ b) = true := by
  induction a generalizing lo with
  | nil => exact swfFrom_mono d b mid lo hlo hb
  | cons e a ih =>
    obtain ⟨k, v⟩ := e
    simp only [swfFrom, Bool.and_eq_true, decide_eq_true_eq] at ha
    have hk : k < mid := hmid (k, v) (by simp)
    simp only [List.cons_append, swfFrom, ha.1.1, ha.1.2, Bool.and_eq_true, decide_eq_true_eq, true_and]
    exact ih (k + 1) (by omega) ha.2 (fun e he => hmid e (by simp [he]))

/-- The entries that a list of values makes are in canonical form, and their keys lie within the list. -/
theorem swfFrom_slist [DecidableEq α] (d : α) (x : Nat) (vs : List α) : swfFrom d x (slist d x vs) = true := by
  induction vs generalizing x with
  | nil => rfl
  | cons v vs ih =>
    simp only [slist]
    split
    · exact swfFrom_mono d _ (x + 1) x (by omega) (ih (x + 1))
    · next hv => simp [swfFrom, hv, ih (x + 1)]

theorem slist_bound [DecidableEq α] (d : α) (x : Nat) (vs : List α) : ∀ e ∈ slist d x vs, e.1 < x + vs.length := by
  induction vs generalizing x with
  | nil => simp [slist]
  | cons v vs ih =>
    intro e he
    simp only [slist] at he
    split at he
    · have := ih (x + 1) e he; simp; omega
    · rcases List.mem_cons.1 he with rfl | he
      · simp
      · have := ih (x + 1) e he; simp; omega

/-- The listed keys of a table in canonical form are at or above its bound. -/
theorem swfFrom_lower [DecidableEq α] (d : α) (m : Sparse α) (lo : Nat) (h : swfFrom d lo m = true) :
    ∀ e ∈ m, lo ≤ e.1 := by
  induction m generalizing lo with
  | nil => simp
  | cons e m ih =>
    obtain ⟨k, v⟩ := e
    simp only [swfFrom, Bool.and_eq_true, decide_eq_true_eq] at h
    intro e he
    rcases List.mem_cons.1 he with rfl | he
    · exact h.1.1
    · have := ih (k + 1) h.2 e he; omega

/-- The keys at or above a bound form a table in canonical form above it. -/
theorem swfFrom_above [DecidableEq α] (d : α) (m : Sparse α) (lo b : Nat) (h : swfFrom d lo m = true) :
    swfFrom d b (m.filter fun e => decide (b ≤ e.1)) = true := by
  induction m generalizing lo with
  | nil => rfl
  | cons e m ih =>
    obtain ⟨k, v⟩ := e
    simp only [swfFrom, Bool.and_eq_true, decide_eq_true_eq] at h
    rw [List.filter_cons]
    split
    · next hb =>
      have hb : b ≤ k := by simpa using hb
      simp only [swfFrom, hb, h.1.2, decide_true, Bool.true_and]
      exact swfFrom_filter d _ m (k + 1) h.2
    · exact ih (k + 1) h.2

/-- A block put between the keys below it and the keys above it keeps the canonical form. -/
theorem swf_block [DecidableEq α] (d : α) (m c : Sparse α) (x n : Nat) (h : swf d m = true)
    (hc : swfFrom d x c = true) (hb : ∀ e ∈ c, e.1 < x + n) :
    swf d ((m.filter fun e => decide (e.1 < x)) ++ c ++ m.filter fun e => decide (x + n ≤ e.1)) = true := by
  have h2 : swfFrom d x (c ++ m.filter fun e => decide (x + n ≤ e.1)) = true :=
    swfFrom_append d c _ x (x + n) (by omega) hc hb (swfFrom_above d m 0 (x + n) h)
  have h1 := swfFrom_append d (m.filter fun e => decide (e.1 < x)) _ 0 x (Nat.zero_le x)
    (swfFrom_filter d _ m 0 h) (by simp +contextual) h2
  simpa [swf, List.append_assoc] using h1

/-- A list of values stored from a key on keeps the canonical form. -/
@[simp] theorem swf_sputs [DecidableEq α] (d : α) (m : Sparse α) (x : Nat) (vs : List α) (h : swf d m = true) :
    swf d (sputs d m x vs) = true :=
  swf_block d m (slist d x vs) x vs.length h (swfFrom_slist d x vs) (slist_bound d x vs)

/-- Values moved up to another base keep the canonical form. -/
theorem swfFrom_shift [DecidableEq α] (d : α) (m : Sparse α) (lo a : Nat) (h : swfFrom d lo m = true) :
    swfFrom d (a + lo) (m.map fun e => (a + e.1, e.2)) = true := by
  induction m generalizing lo with
  | nil => rfl
  | cons e m ih =>
    obtain ⟨k, v⟩ := e
    simp only [swfFrom, Bool.and_eq_true, decide_eq_true_eq] at h
    simp only [List.map_cons, swfFrom, h.1.2, Bool.and_eq_true, decide_eq_true_eq, and_true]
    exact ⟨by omega, by simpa [Nat.add_assoc] using ih (k + 1) h.2⟩

/-- Every listed pair stored in turn keeps the canonical form. -/
@[simp] theorem swf_sputAll [DecidableEq α] (d : α) (m : Sparse α) (l : List (Nat × α)) (h : swf d m = true) :
    swf d (sputAll d m l) = true := by
  induction l generalizing m with
  | nil => exact h
  | cons e l ih => exact ih _ (swf_sput d m e.1 e.2 h)

/-! ### Reading -/

theorem sget_none {α : Type} (d : α) (m : Sparse α) (x : Nat) (h : ∀ e ∈ m, e.1 ≠ x) : sget d m x = d := by
  induction m with
  | nil => rfl
  | cons e r ih =>
    obtain ⟨k, v⟩ := e
    have hk : x ≠ k := fun he => h (k, v) (by simp) he.symm
    rw [sget, if_neg hk]
    exact ih fun e he => h e (by simp [he])

theorem sget_append_right {α : Type} (d : α) (a b : Sparse α) (x : Nat) (h : ∀ e ∈ a, e.1 ≠ x) : sget d (a ++ b) x = sget d b x := by
  induction a with
  | nil => rfl
  | cons e r ih =>
    obtain ⟨k, v⟩ := e
    have hk : x ≠ k := fun he => h (k, v) (by simp) he.symm
    rw [List.cons_append, sget, if_neg hk]
    exact ih fun e he => h e (by simp [he])

theorem sget_append_left {α : Type} (d : α) (a b : Sparse α) (x : Nat) (h : ∀ e ∈ b, e.1 ≠ x) : sget d (a ++ b) x = sget d a x := by
  induction a with
  | nil => exact sget_none d b x h
  | cons e r ih =>
    obtain ⟨k, v⟩ := e
    rw [List.cons_append, sget, sget, ih]

theorem sget_filter_keep {α : Type} (d : α) (p : Nat × α → Bool) (m : Sparse α) (x : Nat) (h : ∀ v, p (x, v) = true) :
    sget d (m.filter p) x = sget d m x := by
  induction m with
  | nil => rfl
  | cons e r ih =>
    obtain ⟨k, v⟩ := e
    by_cases hx : x = k
    · subst hx
      rw [List.filter_cons_of_pos (h v)]
      simp [sget]
    · by_cases hp : p (k, v) = true
      · rw [List.filter_cons_of_pos hp, sget, sget, if_neg hx, if_neg hx, ih]
      · rw [List.filter_cons_of_neg hp, sget, if_neg hx, ih]

/-- What a table filtered by its keys reads as. -/
theorem sget_filter_key {α : Type} (d : α) (p : Nat → Bool) (m : Sparse α) (x : Nat) :
    sget d (m.filter fun e => p e.1) x = if p x then sget d m x else d := by
  split
  · next h => exact sget_filter_keep d _ m x fun _ => h
  · next h =>
    refine sget_none d _ x fun e he hx => h ?_
    have := (List.mem_filter.mp he).2
    rwa [hx] at this

theorem slist_range {α : Type} [DecidableEq α] (d : α) (x : Nat) (vs : List α) : ∀ e ∈ slist d x vs, x ≤ e.1 ∧ e.1 < x + vs.length := by
  induction vs generalizing x with
  | nil => intro e he; cases he
  | cons v r ih =>
    intro e he
    simp only [slist] at he
    split at he
    · have := ih (x + 1) e he; simp only [List.length_cons]; omega
    · rcases List.mem_cons.mp he with rfl | he
      · simp
      · have := ih (x + 1) e he; simp only [List.length_cons]; omega

theorem sget_slist {α : Type} [DecidableEq α] (d : α) (x : Nat) (vs : List α) (i : Nat) : sget d (slist d x vs) (x + i) = vs.getD i d := by
  induction vs generalizing x i with
  | nil => simp [slist]
  | cons v r ih =>
    simp only [slist]
    cases i with
    | zero =>
      split
      · next hv =>
        rw [sget_none]
        · simp [hv]
        · intro e he
          have := slist_range d (x + 1) r e he
          omega
      · simp [sget]
    | succ i =>
      have hi := ih (x + 1) i
      rw [show x + 1 + i = x + (i + 1) by omega] at hi
      split
      · rw [hi]; simp
      · rw [sget, if_neg (by omega), hi]; simp

/-- A read outside the run of values stored. -/
theorem sget_sputs_outside {α : Type} [DecidableEq α] (d : α) (m : Sparse α) (x : Nat) (vs : List α) (y : Nat)
    (h : y < x ∨ x + vs.length ≤ y) : sget d (sputs d m x vs) y = sget d m y := by
  unfold sputs
  rcases h with h | h
  · rw [sget_append_left, sget_append_left, sget_filter_keep]
    · intro v; simpa using h
    · intro e he; have := slist_range d x vs e he; omega
    · intro e he; have := (List.mem_filter.mp he).2; simp at this; omega
  · rw [sget_append_right, sget_filter_keep]
    · intro v; simpa using h
    · intro e he
      rcases List.mem_append.mp he with he | he
      · have := (List.mem_filter.mp he).2; simp at this; omega
      · have := slist_range d x vs e he; omega

/-- A read inside the run of values stored. -/
theorem sget_sputs_inside {α : Type} [DecidableEq α] (d : α) (m : Sparse α) (x : Nat) (vs : List α) (i : Nat) (h : i < vs.length) :
    sget d (sputs d m x vs) (x + i) = vs.getD i d := by
  unfold sputs
  rw [sget_append_left, sget_append_right, sget_slist]
  · intro e he; have := (List.mem_filter.mp he).2; simp at this; omega
  · intro e he; have := (List.mem_filter.mp he).2; simp at this; omega

theorem sgetEach_eq {α : Type} (d : α) (m : Sparse α) (x n : Nat) : sgetEach d m x n = (List.range n).map fun i => sget d m (x + i) := by
  induction n generalizing x with
  | zero => rfl
  | succ n ih =>
    rw [sgetEach, ih, List.range_succ_eq_map, List.map_cons, List.map_map]
    simp only [Nat.add_zero, List.cons.injEq, true_and]
    exact List.map_congr_left fun i _ => by simp only [Function.comp]; congr 1; omega

/-- A run of values read is the values read one by one. -/
theorem sgets_eq {α : Type} (d : α) (m : Sparse α) (x n : Nat) : sgets d m x n = (List.range n).map fun i => sget d m (x + i) := by
  unfold sgets swindow
  rw [sgetEach_eq]
  refine List.map_congr_left fun i hi => sget_filter_keep _ _ _ _ fun v => ?_
  have := List.mem_range.mp hi
  simp; omega

theorem sgets_sputs {α : Type} [DecidableEq α] (d : α) (m : Sparse α) (x : Nat) (vs : List α) : sgets d (sputs d m x vs) x vs.length = vs := by
  rw [sgets_eq]
  apply List.ext_getElem
  · simp
  · intro i h1 h2
    simp only [List.getElem_map, List.getElem_range]
    rw [sget_sputs_inside d m x vs i h2]
    simp [List.getD, h2]

end Sys2Proof.Machine
end

