-- ==== Sys2Proof/Laws/State.lean ====
section
/-! SUPPORT. What each update of a record leaves alone and what it sets: one lemma per field and update, so that no later
proof unfolds a record update. -/

namespace Sys2Proof.Machine

/-! ### `State.setCore` leaves every field but `cores` alone -/

@[simp] theorem State.setCore_clusters (s : State) (c : CoreId) (x : Core) : (s.setCore c x).clusters = s.clusters := rfl
@[simp] theorem State.setCore_l2 (s : State) (c : CoreId) (x : Core) : (s.setCore c x).l2 = s.l2 := rfl
@[simp] theorem State.setCore_mem (s : State) (c : CoreId) (x : Core) : (s.setCore c x).mem = s.mem := rfl
@[simp] theorem State.setCore_jobs (s : State) (c : CoreId) (x : Core) : (s.setCore c x).jobs = s.jobs := rfl
@[simp] theorem State.setCore_camp (s : State) (c : CoreId) (x : Core) : (s.setCore c x).camp = s.camp := rfl
@[simp] theorem State.setCore_scrub (s : State) (c : CoreId) (x : Core) : (s.setCore c x).scrub = s.scrub := rfl
@[simp] theorem State.setCore_keys (s : State) (c : CoreId) (x : Core) : (s.setCore c x).keys = s.keys := rfl
@[simp] theorem State.setCore_sys (s : State) (c : CoreId) (x : Core) : (s.setCore c x).sys = s.sys := rfl
@[simp] theorem State.setCore_repair (s : State) (c : CoreId) (x : Core) : (s.setCore c x).repair = s.repair := rfl
@[simp] theorem State.setCore_tether (s : State) (c : CoreId) (x : Core) : (s.setCore c x).tether = s.tether := rfl
@[simp] theorem State.setCore_sleep (s : State) (c : CoreId) (x : Core) : (s.setCore c x).sleep = s.sleep := rfl
@[simp] theorem State.setCore_fabric (s : State) (c : CoreId) (x : Core) : (s.setCore c x).fabric = s.fabric := rfl
@[simp] theorem State.setCore_cairn (s : State) (c : CoreId) (x : Core) : (s.setCore c x).cairn = s.cairn := rfl
@[simp] theorem State.setCore_issuer (s : State) (c : CoreId) (x : Core) : (s.setCore c x).issuer = s.issuer := rfl
@[simp] theorem State.setCore_regq (s : State) (c : CoreId) (x : Core) : (s.setCore c x).regq = s.regq := rfl
@[simp] theorem State.setCore_sched (s : State) (c : CoreId) (x : Core) : (s.setCore c x).sched = s.sched := rfl
@[simp] theorem State.setCore_free (s : State) (c : CoreId) (x : Core) : (s.setCore c x).free = s.free := rfl
@[simp] theorem State.setCore_nextId (s : State) (c : CoreId) (x : Core) : (s.setCore c x).nextId = s.nextId := rfl

/-! ### `State.modCore` leaves every field but `cores` alone -/

@[simp] theorem State.modCore_clusters (s : State) (c : CoreId) (f : Core → Core) : (s.modCore c f).clusters = s.clusters := rfl
@[simp] theorem State.modCore_l2 (s : State) (c : CoreId) (f : Core → Core) : (s.modCore c f).l2 = s.l2 := rfl
@[simp] theorem State.modCore_mem (s : State) (c : CoreId) (f : Core → Core) : (s.modCore c f).mem = s.mem := rfl
@[simp] theorem State.modCore_jobs (s : State) (c : CoreId) (f : Core → Core) : (s.modCore c f).jobs = s.jobs := rfl
@[simp] theorem State.modCore_camp (s : State) (c : CoreId) (f : Core → Core) : (s.modCore c f).camp = s.camp := rfl
@[simp] theorem State.modCore_scrub (s : State) (c : CoreId) (f : Core → Core) : (s.modCore c f).scrub = s.scrub := rfl
@[simp] theorem State.modCore_keys (s : State) (c : CoreId) (f : Core → Core) : (s.modCore c f).keys = s.keys := rfl
@[simp] theorem State.modCore_sys (s : State) (c : CoreId) (f : Core → Core) : (s.modCore c f).sys = s.sys := rfl
@[simp] theorem State.modCore_repair (s : State) (c : CoreId) (f : Core → Core) : (s.modCore c f).repair = s.repair := rfl
@[simp] theorem State.modCore_tether (s : State) (c : CoreId) (f : Core → Core) : (s.modCore c f).tether = s.tether := rfl
@[simp] theorem State.modCore_sleep (s : State) (c : CoreId) (f : Core → Core) : (s.modCore c f).sleep = s.sleep := rfl
@[simp] theorem State.modCore_fabric (s : State) (c : CoreId) (f : Core → Core) : (s.modCore c f).fabric = s.fabric := rfl
@[simp] theorem State.modCore_cairn (s : State) (c : CoreId) (f : Core → Core) : (s.modCore c f).cairn = s.cairn := rfl
@[simp] theorem State.modCore_issuer (s : State) (c : CoreId) (f : Core → Core) : (s.modCore c f).issuer = s.issuer := rfl
@[simp] theorem State.modCore_regq (s : State) (c : CoreId) (f : Core → Core) : (s.modCore c f).regq = s.regq := rfl
@[simp] theorem State.modCore_sched (s : State) (c : CoreId) (f : Core → Core) : (s.modCore c f).sched = s.sched := rfl
@[simp] theorem State.modCore_free (s : State) (c : CoreId) (f : Core → Core) : (s.modCore c f).free = s.free := rfl
@[simp] theorem State.modCore_nextId (s : State) (c : CoreId) (f : Core → Core) : (s.modCore c f).nextId = s.nextId := rfl

/-! ### `State.setCluster` leaves every field but `clusters` alone -/

@[simp] theorem State.setCluster_cores (s : State) (k : ClusterId) (x : Cluster) : (s.setCluster k x).cores = s.cores := rfl
@[simp] theorem State.setCluster_l2 (s : State) (k : ClusterId) (x : Cluster) : (s.setCluster k x).l2 = s.l2 := rfl
@[simp] theorem State.setCluster_mem (s : State) (k : ClusterId) (x : Cluster) : (s.setCluster k x).mem = s.mem := rfl
@[simp] theorem State.setCluster_jobs (s : State) (k : ClusterId) (x : Cluster) : (s.setCluster k x).jobs = s.jobs := rfl
@[simp] theorem State.setCluster_camp (s : State) (k : ClusterId) (x : Cluster) : (s.setCluster k x).camp = s.camp := rfl
@[simp] theorem State.setCluster_scrub (s : State) (k : ClusterId) (x : Cluster) : (s.setCluster k x).scrub = s.scrub := rfl
@[simp] theorem State.setCluster_keys (s : State) (k : ClusterId) (x : Cluster) : (s.setCluster k x).keys = s.keys := rfl
@[simp] theorem State.setCluster_sys (s : State) (k : ClusterId) (x : Cluster) : (s.setCluster k x).sys = s.sys := rfl
@[simp] theorem State.setCluster_repair (s : State) (k : ClusterId) (x : Cluster) : (s.setCluster k x).repair = s.repair := rfl
@[simp] theorem State.setCluster_tether (s : State) (k : ClusterId) (x : Cluster) : (s.setCluster k x).tether = s.tether := rfl
@[simp] theorem State.setCluster_sleep (s : State) (k : ClusterId) (x : Cluster) : (s.setCluster k x).sleep = s.sleep := rfl
@[simp] theorem State.setCluster_fabric (s : State) (k : ClusterId) (x : Cluster) : (s.setCluster k x).fabric = s.fabric := rfl
@[simp] theorem State.setCluster_cairn (s : State) (k : ClusterId) (x : Cluster) : (s.setCluster k x).cairn = s.cairn := rfl
@[simp] theorem State.setCluster_issuer (s : State) (k : ClusterId) (x : Cluster) : (s.setCluster k x).issuer = s.issuer := rfl
@[simp] theorem State.setCluster_regq (s : State) (k : ClusterId) (x : Cluster) : (s.setCluster k x).regq = s.regq := rfl
@[simp] theorem State.setCluster_sched (s : State) (k : ClusterId) (x : Cluster) : (s.setCluster k x).sched = s.sched := rfl
@[simp] theorem State.setCluster_free (s : State) (k : ClusterId) (x : Cluster) : (s.setCluster k x).free = s.free := rfl
@[simp] theorem State.setCluster_nextId (s : State) (k : ClusterId) (x : Cluster) : (s.setCluster k x).nextId = s.nextId := rfl

/-! ### `State.modCluster` leaves every field but `clusters` alone -/

@[simp] theorem State.modCluster_cores (s : State) (k : ClusterId) (f : Cluster → Cluster) : (s.modCluster k f).cores = s.cores := rfl
@[simp] theorem State.modCluster_l2 (s : State) (k : ClusterId) (f : Cluster → Cluster) : (s.modCluster k f).l2 = s.l2 := rfl
@[simp] theorem State.modCluster_mem (s : State) (k : ClusterId) (f : Cluster → Cluster) : (s.modCluster k f).mem = s.mem := rfl
@[simp] theorem State.modCluster_jobs (s : State) (k : ClusterId) (f : Cluster → Cluster) : (s.modCluster k f).jobs = s.jobs := rfl
@[simp] theorem State.modCluster_camp (s : State) (k : ClusterId) (f : Cluster → Cluster) : (s.modCluster k f).camp = s.camp := rfl
@[simp] theorem State.modCluster_scrub (s : State) (k : ClusterId) (f : Cluster → Cluster) : (s.modCluster k f).scrub = s.scrub := rfl
@[simp] theorem State.modCluster_keys (s : State) (k : ClusterId) (f : Cluster → Cluster) : (s.modCluster k f).keys = s.keys := rfl
@[simp] theorem State.modCluster_sys (s : State) (k : ClusterId) (f : Cluster → Cluster) : (s.modCluster k f).sys = s.sys := rfl
@[simp] theorem State.modCluster_repair (s : State) (k : ClusterId) (f : Cluster → Cluster) : (s.modCluster k f).repair = s.repair := rfl
@[simp] theorem State.modCluster_tether (s : State) (k : ClusterId) (f : Cluster → Cluster) : (s.modCluster k f).tether = s.tether := rfl
@[simp] theorem State.modCluster_sleep (s : State) (k : ClusterId) (f : Cluster → Cluster) : (s.modCluster k f).sleep = s.sleep := rfl
@[simp] theorem State.modCluster_fabric (s : State) (k : ClusterId) (f : Cluster → Cluster) : (s.modCluster k f).fabric = s.fabric := rfl
@[simp] theorem State.modCluster_cairn (s : State) (k : ClusterId) (f : Cluster → Cluster) : (s.modCluster k f).cairn = s.cairn := rfl
@[simp] theorem State.modCluster_issuer (s : State) (k : ClusterId) (f : Cluster → Cluster) : (s.modCluster k f).issuer = s.issuer := rfl
@[simp] theorem State.modCluster_regq (s : State) (k : ClusterId) (f : Cluster → Cluster) : (s.modCluster k f).regq = s.regq := rfl
@[simp] theorem State.modCluster_sched (s : State) (k : ClusterId) (f : Cluster → Cluster) : (s.modCluster k f).sched = s.sched := rfl
@[simp] theorem State.modCluster_free (s : State) (k : ClusterId) (f : Cluster → Cluster) : (s.modCluster k f).free = s.free := rfl
@[simp] theorem State.modCluster_nextId (s : State) (k : ClusterId) (f : Cluster → Cluster) : (s.modCluster k f).nextId = s.nextId := rfl

/-! ### `State.modJob` leaves every field but `jobs` alone -/

@[simp] theorem State.modJob_cores (s : State) (id : Nat) (f : Job → Job) : (s.modJob id f).cores = s.cores := rfl
@[simp] theorem State.modJob_clusters (s : State) (id : Nat) (f : Job → Job) : (s.modJob id f).clusters = s.clusters := rfl
@[simp] theorem State.modJob_l2 (s : State) (id : Nat) (f : Job → Job) : (s.modJob id f).l2 = s.l2 := rfl
@[simp] theorem State.modJob_mem (s : State) (id : Nat) (f : Job → Job) : (s.modJob id f).mem = s.mem := rfl
@[simp] theorem State.modJob_camp (s : State) (id : Nat) (f : Job → Job) : (s.modJob id f).camp = s.camp := rfl
@[simp] theorem State.modJob_scrub (s : State) (id : Nat) (f : Job → Job) : (s.modJob id f).scrub = s.scrub := rfl
@[simp] theorem State.modJob_keys (s : State) (id : Nat) (f : Job → Job) : (s.modJob id f).keys = s.keys := rfl
@[simp] theorem State.modJob_sys (s : State) (id : Nat) (f : Job → Job) : (s.modJob id f).sys = s.sys := rfl
@[simp] theorem State.modJob_repair (s : State) (id : Nat) (f : Job → Job) : (s.modJob id f).repair = s.repair := rfl
@[simp] theorem State.modJob_tether (s : State) (id : Nat) (f : Job → Job) : (s.modJob id f).tether = s.tether := rfl
@[simp] theorem State.modJob_sleep (s : State) (id : Nat) (f : Job → Job) : (s.modJob id f).sleep = s.sleep := rfl
@[simp] theorem State.modJob_fabric (s : State) (id : Nat) (f : Job → Job) : (s.modJob id f).fabric = s.fabric := rfl
@[simp] theorem State.modJob_cairn (s : State) (id : Nat) (f : Job → Job) : (s.modJob id f).cairn = s.cairn := rfl
@[simp] theorem State.modJob_issuer (s : State) (id : Nat) (f : Job → Job) : (s.modJob id f).issuer = s.issuer := rfl
@[simp] theorem State.modJob_regq (s : State) (id : Nat) (f : Job → Job) : (s.modJob id f).regq = s.regq := rfl
@[simp] theorem State.modJob_sched (s : State) (id : Nat) (f : Job → Job) : (s.modJob id f).sched = s.sched := rfl
@[simp] theorem State.modJob_free (s : State) (id : Nat) (f : Job → Job) : (s.modJob id f).free = s.free := rfl
@[simp] theorem State.modJob_nextId (s : State) (id : Nat) (f : Job → Job) : (s.modJob id f).nextId = s.nextId := rfl

/-! ### `State.modSess` leaves every field but `tether` alone -/

@[simp] theorem State.modSess_cores (s : State) (v : Nat) (f : Session → Session) : (s.modSess v f).cores = s.cores := rfl
@[simp] theorem State.modSess_clusters (s : State) (v : Nat) (f : Session → Session) : (s.modSess v f).clusters = s.clusters := rfl
@[simp] theorem State.modSess_l2 (s : State) (v : Nat) (f : Session → Session) : (s.modSess v f).l2 = s.l2 := rfl
@[simp] theorem State.modSess_mem (s : State) (v : Nat) (f : Session → Session) : (s.modSess v f).mem = s.mem := rfl
@[simp] theorem State.modSess_jobs (s : State) (v : Nat) (f : Session → Session) : (s.modSess v f).jobs = s.jobs := rfl
@[simp] theorem State.modSess_camp (s : State) (v : Nat) (f : Session → Session) : (s.modSess v f).camp = s.camp := rfl
@[simp] theorem State.modSess_scrub (s : State) (v : Nat) (f : Session → Session) : (s.modSess v f).scrub = s.scrub := rfl
@[simp] theorem State.modSess_keys (s : State) (v : Nat) (f : Session → Session) : (s.modSess v f).keys = s.keys := rfl
@[simp] theorem State.modSess_sys (s : State) (v : Nat) (f : Session → Session) : (s.modSess v f).sys = s.sys := rfl
@[simp] theorem State.modSess_repair (s : State) (v : Nat) (f : Session → Session) : (s.modSess v f).repair = s.repair := rfl
@[simp] theorem State.modSess_sleep (s : State) (v : Nat) (f : Session → Session) : (s.modSess v f).sleep = s.sleep := rfl
@[simp] theorem State.modSess_fabric (s : State) (v : Nat) (f : Session → Session) : (s.modSess v f).fabric = s.fabric := rfl
@[simp] theorem State.modSess_cairn (s : State) (v : Nat) (f : Session → Session) : (s.modSess v f).cairn = s.cairn := rfl
@[simp] theorem State.modSess_issuer (s : State) (v : Nat) (f : Session → Session) : (s.modSess v f).issuer = s.issuer := rfl
@[simp] theorem State.modSess_regq (s : State) (v : Nat) (f : Session → Session) : (s.modSess v f).regq = s.regq := rfl
@[simp] theorem State.modSess_sched (s : State) (v : Nat) (f : Session → Session) : (s.modSess v f).sched = s.sched := rfl
@[simp] theorem State.modSess_free (s : State) (v : Nat) (f : Session → Session) : (s.modSess v f).free = s.free := rfl
@[simp] theorem State.modSess_nextId (s : State) (v : Nat) (f : Session → Session) : (s.modSess v f).nextId = s.nextId := rfl

/-! ### `State.modColl` leaves every field but `fabric` alone -/

@[simp] theorem State.modColl_cores (s : State) (id : Nat) (f : Coll → Coll) : (s.modColl id f).cores = s.cores := rfl
@[simp] theorem State.modColl_clusters (s : State) (id : Nat) (f : Coll → Coll) : (s.modColl id f).clusters = s.clusters := rfl
@[simp] theorem State.modColl_l2 (s : State) (id : Nat) (f : Coll → Coll) : (s.modColl id f).l2 = s.l2 := rfl
@[simp] theorem State.modColl_mem (s : State) (id : Nat) (f : Coll → Coll) : (s.modColl id f).mem = s.mem := rfl
@[simp] theorem State.modColl_jobs (s : State) (id : Nat) (f : Coll → Coll) : (s.modColl id f).jobs = s.jobs := rfl
@[simp] theorem State.modColl_camp (s : State) (id : Nat) (f : Coll → Coll) : (s.modColl id f).camp = s.camp := rfl
@[simp] theorem State.modColl_scrub (s : State) (id : Nat) (f : Coll → Coll) : (s.modColl id f).scrub = s.scrub := rfl
@[simp] theorem State.modColl_keys (s : State) (id : Nat) (f : Coll → Coll) : (s.modColl id f).keys = s.keys := rfl
@[simp] theorem State.modColl_sys (s : State) (id : Nat) (f : Coll → Coll) : (s.modColl id f).sys = s.sys := rfl
@[simp] theorem State.modColl_repair (s : State) (id : Nat) (f : Coll → Coll) : (s.modColl id f).repair = s.repair := rfl
@[simp] theorem State.modColl_tether (s : State) (id : Nat) (f : Coll → Coll) : (s.modColl id f).tether = s.tether := rfl
@[simp] theorem State.modColl_sleep (s : State) (id : Nat) (f : Coll → Coll) : (s.modColl id f).sleep = s.sleep := rfl
@[simp] theorem State.modColl_cairn (s : State) (id : Nat) (f : Coll → Coll) : (s.modColl id f).cairn = s.cairn := rfl
@[simp] theorem State.modColl_issuer (s : State) (id : Nat) (f : Coll → Coll) : (s.modColl id f).issuer = s.issuer := rfl
@[simp] theorem State.modColl_regq (s : State) (id : Nat) (f : Coll → Coll) : (s.modColl id f).regq = s.regq := rfl
@[simp] theorem State.modColl_sched (s : State) (id : Nat) (f : Coll → Coll) : (s.modColl id f).sched = s.sched := rfl
@[simp] theorem State.modColl_free (s : State) (id : Nat) (f : Coll → Coll) : (s.modColl id f).free = s.free := rfl
@[simp] theorem State.modColl_nextId (s : State) (id : Nat) (f : Coll → Coll) : (s.modColl id f).nextId = s.nextId := rfl

/-! ### `State.modPort` leaves every field but `fabric` alone -/

@[simp] theorem State.modPort_cores (s : State) (p : Fin 24) (f : Port → Port) : (s.modPort p f).cores = s.cores := rfl
@[simp] theorem State.modPort_clusters (s : State) (p : Fin 24) (f : Port → Port) : (s.modPort p f).clusters = s.clusters := rfl
@[simp] theorem State.modPort_l2 (s : State) (p : Fin 24) (f : Port → Port) : (s.modPort p f).l2 = s.l2 := rfl
@[simp] theorem State.modPort_mem (s : State) (p : Fin 24) (f : Port → Port) : (s.modPort p f).mem = s.mem := rfl
@[simp] theorem State.modPort_jobs (s : State) (p : Fin 24) (f : Port → Port) : (s.modPort p f).jobs = s.jobs := rfl
@[simp] theorem State.modPort_camp (s : State) (p : Fin 24) (f : Port → Port) : (s.modPort p f).camp = s.camp := rfl
@[simp] theorem State.modPort_scrub (s : State) (p : Fin 24) (f : Port → Port) : (s.modPort p f).scrub = s.scrub := rfl
@[simp] theorem State.modPort_keys (s : State) (p : Fin 24) (f : Port → Port) : (s.modPort p f).keys = s.keys := rfl
@[simp] theorem State.modPort_sys (s : State) (p : Fin 24) (f : Port → Port) : (s.modPort p f).sys = s.sys := rfl
@[simp] theorem State.modPort_repair (s : State) (p : Fin 24) (f : Port → Port) : (s.modPort p f).repair = s.repair := rfl
@[simp] theorem State.modPort_tether (s : State) (p : Fin 24) (f : Port → Port) : (s.modPort p f).tether = s.tether := rfl
@[simp] theorem State.modPort_sleep (s : State) (p : Fin 24) (f : Port → Port) : (s.modPort p f).sleep = s.sleep := rfl
@[simp] theorem State.modPort_cairn (s : State) (p : Fin 24) (f : Port → Port) : (s.modPort p f).cairn = s.cairn := rfl
@[simp] theorem State.modPort_issuer (s : State) (p : Fin 24) (f : Port → Port) : (s.modPort p f).issuer = s.issuer := rfl
@[simp] theorem State.modPort_regq (s : State) (p : Fin 24) (f : Port → Port) : (s.modPort p f).regq = s.regq := rfl
@[simp] theorem State.modPort_sched (s : State) (p : Fin 24) (f : Port → Port) : (s.modPort p f).sched = s.sched := rfl
@[simp] theorem State.modPort_free (s : State) (p : Fin 24) (f : Port → Port) : (s.modPort p f).free = s.free := rfl
@[simp] theorem State.modPort_nextId (s : State) (p : Fin 24) (f : Port → Port) : (s.modPort p f).nextId = s.nextId := rfl

/-! ### `State.modPeer` leaves every field but `fabric` alone -/

@[simp] theorem State.modPeer_cores (s : State) (j : Fin 16) (f : Peer → Peer) : (s.modPeer j f).cores = s.cores := rfl
@[simp] theorem State.modPeer_clusters (s : State) (j : Fin 16) (f : Peer → Peer) : (s.modPeer j f).clusters = s.clusters := rfl
@[simp] theorem State.modPeer_l2 (s : State) (j : Fin 16) (f : Peer → Peer) : (s.modPeer j f).l2 = s.l2 := rfl
@[simp] theorem State.modPeer_mem (s : State) (j : Fin 16) (f : Peer → Peer) : (s.modPeer j f).mem = s.mem := rfl
@[simp] theorem State.modPeer_jobs (s : State) (j : Fin 16) (f : Peer → Peer) : (s.modPeer j f).jobs = s.jobs := rfl
@[simp] theorem State.modPeer_camp (s : State) (j : Fin 16) (f : Peer → Peer) : (s.modPeer j f).camp = s.camp := rfl
@[simp] theorem State.modPeer_scrub (s : State) (j : Fin 16) (f : Peer → Peer) : (s.modPeer j f).scrub = s.scrub := rfl
@[simp] theorem State.modPeer_keys (s : State) (j : Fin 16) (f : Peer → Peer) : (s.modPeer j f).keys = s.keys := rfl
@[simp] theorem State.modPeer_sys (s : State) (j : Fin 16) (f : Peer → Peer) : (s.modPeer j f).sys = s.sys := rfl
@[simp] theorem State.modPeer_repair (s : State) (j : Fin 16) (f : Peer → Peer) : (s.modPeer j f).repair = s.repair := rfl
@[simp] theorem State.modPeer_tether (s : State) (j : Fin 16) (f : Peer → Peer) : (s.modPeer j f).tether = s.tether := rfl
@[simp] theorem State.modPeer_sleep (s : State) (j : Fin 16) (f : Peer → Peer) : (s.modPeer j f).sleep = s.sleep := rfl
@[simp] theorem State.modPeer_cairn (s : State) (j : Fin 16) (f : Peer → Peer) : (s.modPeer j f).cairn = s.cairn := rfl
@[simp] theorem State.modPeer_issuer (s : State) (j : Fin 16) (f : Peer → Peer) : (s.modPeer j f).issuer = s.issuer := rfl
@[simp] theorem State.modPeer_regq (s : State) (j : Fin 16) (f : Peer → Peer) : (s.modPeer j f).regq = s.regq := rfl
@[simp] theorem State.modPeer_sched (s : State) (j : Fin 16) (f : Peer → Peer) : (s.modPeer j f).sched = s.sched := rfl
@[simp] theorem State.modPeer_free (s : State) (j : Fin 16) (f : Peer → Peer) : (s.modPeer j f).free = s.free := rfl
@[simp] theorem State.modPeer_nextId (s : State) (j : Fin 16) (f : Peer → Peer) : (s.modPeer j f).nextId = s.nextId := rfl

/-! ### `State.modSlot` leaves every field but `camp` alone -/

@[simp] theorem State.modSlot_cores (s : State) (i : Fin 256) (f : Slot → Slot) : (s.modSlot i f).cores = s.cores := rfl
@[simp] theorem State.modSlot_clusters (s : State) (i : Fin 256) (f : Slot → Slot) : (s.modSlot i f).clusters = s.clusters := rfl
@[simp] theorem State.modSlot_l2 (s : State) (i : Fin 256) (f : Slot → Slot) : (s.modSlot i f).l2 = s.l2 := rfl
@[simp] theorem State.modSlot_mem (s : State) (i : Fin 256) (f : Slot → Slot) : (s.modSlot i f).mem = s.mem := rfl
@[simp] theorem State.modSlot_jobs (s : State) (i : Fin 256) (f : Slot → Slot) : (s.modSlot i f).jobs = s.jobs := rfl
@[simp] theorem State.modSlot_scrub (s : State) (i : Fin 256) (f : Slot → Slot) : (s.modSlot i f).scrub = s.scrub := rfl
@[simp] theorem State.modSlot_keys (s : State) (i : Fin 256) (f : Slot → Slot) : (s.modSlot i f).keys = s.keys := rfl
@[simp] theorem State.modSlot_sys (s : State) (i : Fin 256) (f : Slot → Slot) : (s.modSlot i f).sys = s.sys := rfl
@[simp] theorem State.modSlot_repair (s : State) (i : Fin 256) (f : Slot → Slot) : (s.modSlot i f).repair = s.repair := rfl
@[simp] theorem State.modSlot_tether (s : State) (i : Fin 256) (f : Slot → Slot) : (s.modSlot i f).tether = s.tether := rfl
@[simp] theorem State.modSlot_sleep (s : State) (i : Fin 256) (f : Slot → Slot) : (s.modSlot i f).sleep = s.sleep := rfl
@[simp] theorem State.modSlot_fabric (s : State) (i : Fin 256) (f : Slot → Slot) : (s.modSlot i f).fabric = s.fabric := rfl
@[simp] theorem State.modSlot_cairn (s : State) (i : Fin 256) (f : Slot → Slot) : (s.modSlot i f).cairn = s.cairn := rfl
@[simp] theorem State.modSlot_issuer (s : State) (i : Fin 256) (f : Slot → Slot) : (s.modSlot i f).issuer = s.issuer := rfl
@[simp] theorem State.modSlot_regq (s : State) (i : Fin 256) (f : Slot → Slot) : (s.modSlot i f).regq = s.regq := rfl
@[simp] theorem State.modSlot_sched (s : State) (i : Fin 256) (f : Slot → Slot) : (s.modSlot i f).sched = s.sched := rfl
@[simp] theorem State.modSlot_free (s : State) (i : Fin 256) (f : Slot → Slot) : (s.modSlot i f).free = s.free := rfl
@[simp] theorem State.modSlot_nextId (s : State) (i : Fin 256) (f : Slot → Slot) : (s.modSlot i f).nextId = s.nextId := rfl

/-! ### `State.modReplay` leaves every field but `camp` alone -/

@[simp] theorem State.modReplay_cores (s : State) (id : Nat) (f : Replay → Replay) : (s.modReplay id f).cores = s.cores := rfl
@[simp] theorem State.modReplay_clusters (s : State) (id : Nat) (f : Replay → Replay) : (s.modReplay id f).clusters = s.clusters := rfl
@[simp] theorem State.modReplay_l2 (s : State) (id : Nat) (f : Replay → Replay) : (s.modReplay id f).l2 = s.l2 := rfl
@[simp] theorem State.modReplay_mem (s : State) (id : Nat) (f : Replay → Replay) : (s.modReplay id f).mem = s.mem := rfl
@[simp] theorem State.modReplay_jobs (s : State) (id : Nat) (f : Replay → Replay) : (s.modReplay id f).jobs = s.jobs := rfl
@[simp] theorem State.modReplay_scrub (s : State) (id : Nat) (f : Replay → Replay) : (s.modReplay id f).scrub = s.scrub := rfl
@[simp] theorem State.modReplay_keys (s : State) (id : Nat) (f : Replay → Replay) : (s.modReplay id f).keys = s.keys := rfl
@[simp] theorem State.modReplay_sys (s : State) (id : Nat) (f : Replay → Replay) : (s.modReplay id f).sys = s.sys := rfl
@[simp] theorem State.modReplay_repair (s : State) (id : Nat) (f : Replay → Replay) : (s.modReplay id f).repair = s.repair := rfl
@[simp] theorem State.modReplay_tether (s : State) (id : Nat) (f : Replay → Replay) : (s.modReplay id f).tether = s.tether := rfl
@[simp] theorem State.modReplay_sleep (s : State) (id : Nat) (f : Replay → Replay) : (s.modReplay id f).sleep = s.sleep := rfl
@[simp] theorem State.modReplay_fabric (s : State) (id : Nat) (f : Replay → Replay) : (s.modReplay id f).fabric = s.fabric := rfl
@[simp] theorem State.modReplay_cairn (s : State) (id : Nat) (f : Replay → Replay) : (s.modReplay id f).cairn = s.cairn := rfl
@[simp] theorem State.modReplay_issuer (s : State) (id : Nat) (f : Replay → Replay) : (s.modReplay id f).issuer = s.issuer := rfl
@[simp] theorem State.modReplay_regq (s : State) (id : Nat) (f : Replay → Replay) : (s.modReplay id f).regq = s.regq := rfl
@[simp] theorem State.modReplay_sched (s : State) (id : Nat) (f : Replay → Replay) : (s.modReplay id f).sched = s.sched := rfl
@[simp] theorem State.modReplay_free (s : State) (id : Nat) (f : Replay → Replay) : (s.modReplay id f).free = s.free := rfl
@[simp] theorem State.modReplay_nextId (s : State) (id : Nat) (f : Replay → Replay) : (s.modReplay id f).nextId = s.nextId := rfl

/-! ### `State.modCairn` leaves every field but `cairn` alone -/

@[simp] theorem State.modCairn_cores (s : State) (j : Fin 16) (f : CairnSlot → CairnSlot) : (s.modCairn j f).cores = s.cores := rfl
@[simp] theorem State.modCairn_clusters (s : State) (j : Fin 16) (f : CairnSlot → CairnSlot) : (s.modCairn j f).clusters = s.clusters := rfl
@[simp] theorem State.modCairn_l2 (s : State) (j : Fin 16) (f : CairnSlot → CairnSlot) : (s.modCairn j f).l2 = s.l2 := rfl
@[simp] theorem State.modCairn_mem (s : State) (j : Fin 16) (f : CairnSlot → CairnSlot) : (s.modCairn j f).mem = s.mem := rfl
@[simp] theorem State.modCairn_jobs (s : State) (j : Fin 16) (f : CairnSlot → CairnSlot) : (s.modCairn j f).jobs = s.jobs := rfl
@[simp] theorem State.modCairn_camp (s : State) (j : Fin 16) (f : CairnSlot → CairnSlot) : (s.modCairn j f).camp = s.camp := rfl
@[simp] theorem State.modCairn_scrub (s : State) (j : Fin 16) (f : CairnSlot → CairnSlot) : (s.modCairn j f).scrub = s.scrub := rfl
@[simp] theorem State.modCairn_keys (s : State) (j : Fin 16) (f : CairnSlot → CairnSlot) : (s.modCairn j f).keys = s.keys := rfl
@[simp] theorem State.modCairn_sys (s : State) (j : Fin 16) (f : CairnSlot → CairnSlot) : (s.modCairn j f).sys = s.sys := rfl
@[simp] theorem State.modCairn_repair (s : State) (j : Fin 16) (f : CairnSlot → CairnSlot) : (s.modCairn j f).repair = s.repair := rfl
@[simp] theorem State.modCairn_tether (s : State) (j : Fin 16) (f : CairnSlot → CairnSlot) : (s.modCairn j f).tether = s.tether := rfl
@[simp] theorem State.modCairn_sleep (s : State) (j : Fin 16) (f : CairnSlot → CairnSlot) : (s.modCairn j f).sleep = s.sleep := rfl
@[simp] theorem State.modCairn_fabric (s : State) (j : Fin 16) (f : CairnSlot → CairnSlot) : (s.modCairn j f).fabric = s.fabric := rfl
@[simp] theorem State.modCairn_issuer (s : State) (j : Fin 16) (f : CairnSlot → CairnSlot) : (s.modCairn j f).issuer = s.issuer := rfl
@[simp] theorem State.modCairn_regq (s : State) (j : Fin 16) (f : CairnSlot → CairnSlot) : (s.modCairn j f).regq = s.regq := rfl
@[simp] theorem State.modCairn_sched (s : State) (j : Fin 16) (f : CairnSlot → CairnSlot) : (s.modCairn j f).sched = s.sched := rfl
@[simp] theorem State.modCairn_free (s : State) (j : Fin 16) (f : CairnSlot → CairnSlot) : (s.modCairn j f).free = s.free := rfl
@[simp] theorem State.modCairn_nextId (s : State) (j : Fin 16) (f : CairnSlot → CairnSlot) : (s.modCairn j f).nextId = s.nextId := rfl

/-! ### `State.modClass` leaves every field but `cairn` alone -/

@[simp] theorem State.modClass_cores (s : State) (j : Fin 16) (k : Fin 8) (f : CairnClass → CairnClass) : (s.modClass j k f).cores = s.cores := rfl
@[simp] theorem State.modClass_clusters (s : State) (j : Fin 16) (k : Fin 8) (f : CairnClass → CairnClass) : (s.modClass j k f).clusters = s.clusters := rfl
@[simp] theorem State.modClass_l2 (s : State) (j : Fin 16) (k : Fin 8) (f : CairnClass → CairnClass) : (s.modClass j k f).l2 = s.l2 := rfl
@[simp] theorem State.modClass_mem (s : State) (j : Fin 16) (k : Fin 8) (f : CairnClass → CairnClass) : (s.modClass j k f).mem = s.mem := rfl
@[simp] theorem State.modClass_jobs (s : State) (j : Fin 16) (k : Fin 8) (f : CairnClass → CairnClass) : (s.modClass j k f).jobs = s.jobs := rfl
@[simp] theorem State.modClass_camp (s : State) (j : Fin 16) (k : Fin 8) (f : CairnClass → CairnClass) : (s.modClass j k f).camp = s.camp := rfl
@[simp] theorem State.modClass_scrub (s : State) (j : Fin 16) (k : Fin 8) (f : CairnClass → CairnClass) : (s.modClass j k f).scrub = s.scrub := rfl
@[simp] theorem State.modClass_keys (s : State) (j : Fin 16) (k : Fin 8) (f : CairnClass → CairnClass) : (s.modClass j k f).keys = s.keys := rfl
@[simp] theorem State.modClass_sys (s : State) (j : Fin 16) (k : Fin 8) (f : CairnClass → CairnClass) : (s.modClass j k f).sys = s.sys := rfl
@[simp] theorem State.modClass_repair (s : State) (j : Fin 16) (k : Fin 8) (f : CairnClass → CairnClass) : (s.modClass j k f).repair = s.repair := rfl
@[simp] theorem State.modClass_tether (s : State) (j : Fin 16) (k : Fin 8) (f : CairnClass → CairnClass) : (s.modClass j k f).tether = s.tether := rfl
@[simp] theorem State.modClass_sleep (s : State) (j : Fin 16) (k : Fin 8) (f : CairnClass → CairnClass) : (s.modClass j k f).sleep = s.sleep := rfl
@[simp] theorem State.modClass_fabric (s : State) (j : Fin 16) (k : Fin 8) (f : CairnClass → CairnClass) : (s.modClass j k f).fabric = s.fabric := rfl
@[simp] theorem State.modClass_issuer (s : State) (j : Fin 16) (k : Fin 8) (f : CairnClass → CairnClass) : (s.modClass j k f).issuer = s.issuer := rfl
@[simp] theorem State.modClass_regq (s : State) (j : Fin 16) (k : Fin 8) (f : CairnClass → CairnClass) : (s.modClass j k f).regq = s.regq := rfl
@[simp] theorem State.modClass_sched (s : State) (j : Fin 16) (k : Fin 8) (f : CairnClass → CairnClass) : (s.modClass j k f).sched = s.sched := rfl
@[simp] theorem State.modClass_free (s : State) (j : Fin 16) (k : Fin 8) (f : CairnClass → CairnClass) : (s.modClass j k f).free = s.free := rfl
@[simp] theorem State.modClass_nextId (s : State) (j : Fin 16) (k : Fin 8) (f : CairnClass → CairnClass) : (s.modClass j k f).nextId = s.nextId := rfl

/-! ### `setSleep` leaves every field but `sleep` alone -/

@[simp] theorem setSleep_cores (st : BitVec 2) (phase : Nat) (s : State) : (setSleep st phase s).cores = s.cores := rfl
@[simp] theorem setSleep_clusters (st : BitVec 2) (phase : Nat) (s : State) : (setSleep st phase s).clusters = s.clusters := rfl
@[simp] theorem setSleep_l2 (st : BitVec 2) (phase : Nat) (s : State) : (setSleep st phase s).l2 = s.l2 := rfl
@[simp] theorem setSleep_mem (st : BitVec 2) (phase : Nat) (s : State) : (setSleep st phase s).mem = s.mem := rfl
@[simp] theorem setSleep_jobs (st : BitVec 2) (phase : Nat) (s : State) : (setSleep st phase s).jobs = s.jobs := rfl
@[simp] theorem setSleep_camp (st : BitVec 2) (phase : Nat) (s : State) : (setSleep st phase s).camp = s.camp := rfl
@[simp] theorem setSleep_scrub (st : BitVec 2) (phase : Nat) (s : State) : (setSleep st phase s).scrub = s.scrub := rfl
@[simp] theorem setSleep_keys (st : BitVec 2) (phase : Nat) (s : State) : (setSleep st phase s).keys = s.keys := rfl
@[simp] theorem setSleep_sys (st : BitVec 2) (phase : Nat) (s : State) : (setSleep st phase s).sys = s.sys := rfl
@[simp] theorem setSleep_repair (st : BitVec 2) (phase : Nat) (s : State) : (setSleep st phase s).repair = s.repair := rfl
@[simp] theorem setSleep_tether (st : BitVec 2) (phase : Nat) (s : State) : (setSleep st phase s).tether = s.tether := rfl
@[simp] theorem setSleep_fabric (st : BitVec 2) (phase : Nat) (s : State) : (setSleep st phase s).fabric = s.fabric := rfl
@[simp] theorem setSleep_cairn (st : BitVec 2) (phase : Nat) (s : State) : (setSleep st phase s).cairn = s.cairn := rfl
@[simp] theorem setSleep_issuer (st : BitVec 2) (phase : Nat) (s : State) : (setSleep st phase s).issuer = s.issuer := rfl
@[simp] theorem setSleep_regq (st : BitVec 2) (phase : Nat) (s : State) : (setSleep st phase s).regq = s.regq := rfl
@[simp] theorem setSleep_sched (st : BitVec 2) (phase : Nat) (s : State) : (setSleep st phase s).sched = s.sched := rfl
@[simp] theorem setSleep_free (st : BitVec 2) (phase : Nat) (s : State) : (setSleep st phase s).free = s.free := rfl
@[simp] theorem setSleep_nextId (st : BitVec 2) (phase : Nat) (s : State) : (setSleep st phase s).nextId = s.nextId := rfl

/-! ### `setSpares` leaves every field but `repair` alone -/

@[simp] theorem setSpares_cores (k : SpareKey) (n : Nat) (s : State) : (setSpares k n s).cores = s.cores := rfl
@[simp] theorem setSpares_clusters (k : SpareKey) (n : Nat) (s : State) : (setSpares k n s).clusters = s.clusters := rfl
@[simp] theorem setSpares_l2 (k : SpareKey) (n : Nat) (s : State) : (setSpares k n s).l2 = s.l2 := rfl
@[simp] theorem setSpares_mem (k : SpareKey) (n : Nat) (s : State) : (setSpares k n s).mem = s.mem := rfl
@[simp] theorem setSpares_jobs (k : SpareKey) (n : Nat) (s : State) : (setSpares k n s).jobs = s.jobs := rfl
@[simp] theorem setSpares_camp (k : SpareKey) (n : Nat) (s : State) : (setSpares k n s).camp = s.camp := rfl
@[simp] theorem setSpares_scrub (k : SpareKey) (n : Nat) (s : State) : (setSpares k n s).scrub = s.scrub := rfl
@[simp] theorem setSpares_keys (k : SpareKey) (n : Nat) (s : State) : (setSpares k n s).keys = s.keys := rfl
@[simp] theorem setSpares_sys (k : SpareKey) (n : Nat) (s : State) : (setSpares k n s).sys = s.sys := rfl
@[simp] theorem setSpares_tether (k : SpareKey) (n : Nat) (s : State) : (setSpares k n s).tether = s.tether := rfl
@[simp] theorem setSpares_sleep (k : SpareKey) (n : Nat) (s : State) : (setSpares k n s).sleep = s.sleep := rfl
@[simp] theorem setSpares_fabric (k : SpareKey) (n : Nat) (s : State) : (setSpares k n s).fabric = s.fabric := rfl
@[simp] theorem setSpares_cairn (k : SpareKey) (n : Nat) (s : State) : (setSpares k n s).cairn = s.cairn := rfl
@[simp] theorem setSpares_issuer (k : SpareKey) (n : Nat) (s : State) : (setSpares k n s).issuer = s.issuer := rfl
@[simp] theorem setSpares_regq (k : SpareKey) (n : Nat) (s : State) : (setSpares k n s).regq = s.regq := rfl
@[simp] theorem setSpares_sched (k : SpareKey) (n : Nat) (s : State) : (setSpares k n s).sched = s.sched := rfl
@[simp] theorem setSpares_free (k : SpareKey) (n : Nat) (s : State) : (setSpares k n s).free = s.free := rfl
@[simp] theorem setSpares_nextId (k : SpareKey) (n : Nat) (s : State) : (setSpares k n s).nextId = s.nextId := rfl

/-! ### `setRun` leaves every field but `cairn` alone -/

@[simp] theorem setRun_cores (k : Fin 64) (r : Option Run) (s : State) : (setRun k r s).cores = s.cores := rfl
@[simp] theorem setRun_clusters (k : Fin 64) (r : Option Run) (s : State) : (setRun k r s).clusters = s.clusters := rfl
@[simp] theorem setRun_l2 (k : Fin 64) (r : Option Run) (s : State) : (setRun k r s).l2 = s.l2 := rfl
@[simp] theorem setRun_mem (k : Fin 64) (r : Option Run) (s : State) : (setRun k r s).mem = s.mem := rfl
@[simp] theorem setRun_jobs (k : Fin 64) (r : Option Run) (s : State) : (setRun k r s).jobs = s.jobs := rfl
@[simp] theorem setRun_camp (k : Fin 64) (r : Option Run) (s : State) : (setRun k r s).camp = s.camp := rfl
@[simp] theorem setRun_scrub (k : Fin 64) (r : Option Run) (s : State) : (setRun k r s).scrub = s.scrub := rfl
@[simp] theorem setRun_keys (k : Fin 64) (r : Option Run) (s : State) : (setRun k r s).keys = s.keys := rfl
@[simp] theorem setRun_sys (k : Fin 64) (r : Option Run) (s : State) : (setRun k r s).sys = s.sys := rfl
@[simp] theorem setRun_repair (k : Fin 64) (r : Option Run) (s : State) : (setRun k r s).repair = s.repair := rfl
@[simp] theorem setRun_tether (k : Fin 64) (r : Option Run) (s : State) : (setRun k r s).tether = s.tether := rfl
@[simp] theorem setRun_sleep (k : Fin 64) (r : Option Run) (s : State) : (setRun k r s).sleep = s.sleep := rfl
@[simp] theorem setRun_fabric (k : Fin 64) (r : Option Run) (s : State) : (setRun k r s).fabric = s.fabric := rfl
@[simp] theorem setRun_issuer (k : Fin 64) (r : Option Run) (s : State) : (setRun k r s).issuer = s.issuer := rfl
@[simp] theorem setRun_regq (k : Fin 64) (r : Option Run) (s : State) : (setRun k r s).regq = s.regq := rfl
@[simp] theorem setRun_sched (k : Fin 64) (r : Option Run) (s : State) : (setRun k r s).sched = s.sched := rfl
@[simp] theorem setRun_free (k : Fin 64) (r : Option Run) (s : State) : (setRun k r s).free = s.free := rfl
@[simp] theorem setRun_nextId (k : Fin 64) (r : Option Run) (s : State) : (setRun k r s).nextId = s.nextId := rfl

/-! ### `Core.modStream` leaves every field but `streams` alone -/

@[simp] theorem Core.modStream_scal (x : Core) (e : Engine) (f : Stream → Stream) : (x.modStream e f).scal = x.scal := rfl
@[simp] theorem Core.modStream_vec (x : Core) (e : Engine) (f : Stream → Stream) : (x.modStream e f).vec = x.vec := rfl
@[simp] theorem Core.modStream_bench (x : Core) (e : Engine) (f : Stream → Stream) : (x.modStream e f).bench = x.bench := rfl
@[simp] theorem Core.modStream_sf (x : Core) (e : Engine) (f : Stream → Stream) : (x.modStream e f).sf = x.sf := rfl
@[simp] theorem Core.modStream_ap (x : Core) (e : Engine) (f : Stream → Stream) : (x.modStream e f).ap = x.ap := rfl
@[simp] theorem Core.modStream_trap (x : Core) (e : Engine) (f : Stream → Stream) : (x.modStream e f).trap = x.trap := rfl
@[simp] theorem Core.modStream_csr (x : Core) (e : Engine) (f : Stream → Stream) : (x.modStream e f).csr = x.csr := rfl
@[simp] theorem Core.modStream_latches (x : Core) (e : Engine) (f : Stream → Stream) : (x.modStream e f).latches = x.latches := rfl
@[simp] theorem Core.modStream_ops (x : Core) (e : Engine) (f : Stream → Stream) : (x.modStream e f).ops = x.ops := rfl
@[simp] theorem Core.modStream_transits (x : Core) (e : Engine) (f : Stream → Stream) : (x.modStream e f).transits = x.transits := rfl
@[simp] theorem Core.modStream_busy (x : Core) (e : Engine) (f : Stream → Stream) : (x.modStream e f).busy = x.busy := rfl
@[simp] theorem Core.modStream_cmds (x : Core) (e : Engine) (f : Stream → Stream) : (x.modStream e f).cmds = x.cmds := rfl
@[simp] theorem Core.modStream_running (x : Core) (e : Engine) (f : Stream → Stream) : (x.modStream e f).running = x.running := rfl
@[simp] theorem Core.modStream_hostIn (x : Core) (e : Engine) (f : Stream → Stream) : (x.modStream e f).hostIn = x.hostIn := rfl
@[simp] theorem Core.modStream_owed (x : Core) (e : Engine) (f : Stream → Stream) : (x.modStream e f).owed = x.owed := rfl
@[simp] theorem Core.modStream_scratch (x : Core) (e : Engine) (f : Stream → Stream) : (x.modStream e f).scratch = x.scratch := rfl
@[simp] theorem Core.modStream_parityBad (x : Core) (e : Engine) (f : Stream → Stream) : (x.modStream e f).parityBad = x.parityBad := rfl
@[simp] theorem Core.modStream_vecBad (x : Core) (e : Engine) (f : Stream → Stream) : (x.modStream e f).vecBad = x.vecBad := rfl
@[simp] theorem Core.modStream_aligned (x : Core) (e : Engine) (f : Stream → Stream) : (x.modStream e f).aligned = x.aligned := rfl
@[simp] theorem Core.modStream_badCtx (x : Core) (e : Engine) (f : Stream → Stream) : (x.modStream e f).badCtx = x.badCtx := rfl
@[simp] theorem Core.modStream_tick0 (x : Core) (e : Engine) (f : Stream → Stream) : (x.modStream e f).tick0 = x.tick0 := rfl
@[simp] theorem Core.modStream_tickHold (x : Core) (e : Engine) (f : Stream → Stream) : (x.modStream e f).tickHold = x.tickHold := rfl
@[simp] theorem Core.modStream_job (x : Core) (e : Engine) (f : Stream → Stream) : (x.modStream e f).job = x.job := rfl

/-! ### Places by number -/

/-- The core that an update sets reads as set. -/
@[simp] theorem State.core_setCore_same (s : State) (c : CoreId) (x : Core) : (s.setCore c x).core c = x := by
  simp [State.core, State.setCore]

/-- Every other core reads as before. -/
theorem State.core_setCore_other (s : State) (c d : CoreId) (x : Core) (h : d ≠ c) : (s.setCore c x).core d = s.core d := by
  simp only [State.core, State.setCore, Fin.getElem_fin]
  exact Vector.getElem_set_ne c.isLt d.isLt (fun h' => h (Fin.ext h'.symm))

@[simp] theorem State.core_modCore_same (s : State) (c : CoreId) (f : Core → Core) : (s.modCore c f).core c = f (s.core c) := by
  simp [State.modCore]

theorem State.core_modCore_other (s : State) (c d : CoreId) (f : Core → Core) (h : d ≠ c) :
    (s.modCore c f).core d = s.core d := State.core_setCore_other s c d _ h

@[simp] theorem State.cluster_setCore (s : State) (c : CoreId) (x : Core) (k : ClusterId) :
    (s.setCore c x).cluster k = s.cluster k := rfl

@[simp] theorem State.cluster_modCore (s : State) (c : CoreId) (f : Core → Core) (k : ClusterId) :
    (s.modCore c f).cluster k = s.cluster k := rfl

@[simp] theorem State.cluster_setCluster_same (s : State) (k : ClusterId) (x : Cluster) : (s.setCluster k x).cluster k = x := by
  simp [State.cluster, State.setCluster]

theorem State.cluster_setCluster_other (s : State) (k j : ClusterId) (x : Cluster) (h : j ≠ k) :
    (s.setCluster k x).cluster j = s.cluster j := by
  simp only [State.cluster, State.setCluster, Fin.getElem_fin]
  exact Vector.getElem_set_ne k.isLt j.isLt (fun h' => h (Fin.ext h'.symm))

@[simp] theorem State.cluster_modCluster_same (s : State) (k : ClusterId) (f : Cluster → Cluster) :
    (s.modCluster k f).cluster k = f (s.cluster k) := by simp [State.modCluster]

theorem State.cluster_modCluster_other (s : State) (k j : ClusterId) (f : Cluster → Cluster) (h : j ≠ k) :
    (s.modCluster k f).cluster j = s.cluster j := State.cluster_setCluster_other s k j _ h

@[simp] theorem State.core_setCluster (s : State) (k : ClusterId) (x : Cluster) (c : CoreId) :
    (s.setCluster k x).core c = s.core c := rfl

@[simp] theorem State.core_modCluster (s : State) (k : ClusterId) (f : Cluster → Cluster) (c : CoreId) :
    (s.modCluster k f).core c = s.core c := rfl

/-- A core set twice keeps the second value. -/
@[simp] theorem State.setCore_setCore (s : State) (c : CoreId) (x y : Core) : (s.setCore c x).setCore c y = s.setCore c y := by
  simp [State.setCore]

/-- Two changes of one core are one change. -/
@[simp] theorem State.modCore_modCore (s : State) (c : CoreId) (f g : Core → Core) :
    (s.modCore c f).modCore c g = s.modCore c fun x => g (f x) := by
  simp [State.modCore]

/-- The stream that an update changes. -/
@[simp] theorem Core.stream_modStream_same (x : Core) (e : Engine) (f : Stream → Stream) :
    (x.modStream e f).stream e = f (x.stream e) := by simp [Core.stream, Core.modStream]

/-- Every other stream is as before. -/
theorem Core.stream_modStream_other (x : Core) (e d : Engine) (f : Stream → Stream) (h : d ≠ e) :
    (x.modStream e f).stream d = x.stream d := by
  have : engIdx e ≠ engIdx d := by revert h; cases d <;> cases e <;> simp [engIdx]
  simp only [Core.stream, Core.modStream, Fin.getElem_fin]
  exact Vector.getElem_set_ne (engIdx e).isLt (engIdx d).isLt (fun h' => this (Fin.ext h'))

/-- A vector's entry after a write within its bounds. -/
theorem vget_vset_same {α : Type} {n : Nat} (v : Vector α n) (i : Nat) (x d : α) (h : i < n) : vget (vset v i x) i d = x := by
  simp [vget, vset, h]

/-- Every other entry is as before. -/
theorem vget_vset_other {α : Type} {n : Nat} (v : Vector α n) (i j : Nat) (x d : α) (h : j ≠ i) :
    vget (vset v i x) j d = vget v j d := by
  simp only [vget, vset]
  rw [Vector.getElem?_setIfInBounds_ne (Ne.symm h)]

end Sys2Proof.Machine
end

