-- ==== Sys2Proof/Laws/Memory.lean ====
section
/-! SUPPORT. Every operation that writes memory keeps its canonical form (`Memory.wf`). -/

namespace Sys2Proof.Machine

/-- The parts of the canonical form. -/
theorem Memory.wf_iff (m : Memory) :
    m.wf = true ↔ swf 0 m.hbm = true ∧ swf 0 m.lineKey = true ∧ swf false m.poison = true ∧ swf 0 m.host = true := by
  simp [Memory.wf, and_assoc]

/-- A state with the memory and the faces of one in canonical form. -/
theorem State.memOk_of_eq {s t : State} (h : t.mem = s.mem) (hl : t.l2 = s.l2) (hs : s.memOk) : t.memOk := by
  rw [State.memOk, h, hl]; exact hs

/-- A state with the faces of one in canonical form, and memory in canonical form. -/
theorem State.memOk_of_wf {s t : State} (h : t.mem.wf = true) (hl : t.l2 = s.l2) (hs : s.memOk) : t.memOk :=
  ⟨h, by rw [hl]; exact hs.2⟩

/-- Memory right after reset is in canonical form. -/
theorem memOk_reset : State.reset.memOk := ⟨rfl, by decide +kernel⟩

/-! ### The HBM controllers and the L2 levels -/

theorem memOk_foldl {β : Type} (f : State → β → State) (l : List β) (s : State)
    (hf : ∀ s b, s.memOk → (f s b).memOk) (hs : s.memOk) : (l.foldl f s).memOk := by
  induction l generalizing s with
  | nil => exact hs
  | cons b l ih => exact ih (f s b) (hf s b hs)

theorem memOk_claimLine (s : State) (v : World) (line : Nat) (h : s.memOk) : (claimLine s v line).memOk := by
  unfold claimLine
  split
  · exact h
  · have hm := (Memory.wf_iff _).mp h.1
    exact ⟨(Memory.wf_iff _).mpr ⟨swf_sputs _ _ _ _ hm.1, swf_sput _ _ _ _ hm.2.1, hm.2.2⟩, h.2⟩

theorem swf_puts_foldl {α : Type} [DecidableEq α] (d v : α) (l : List Nat) (m : Sparse α) (h : swf d m = true) :
    swf d (l.foldl (fun m u => sput d m u v) m) = true := by
  induction l generalizing m with
  | nil => exact h
  | cons u l ih => exact ih _ (swf_sput d m u v h)

theorem memOk_clearPoison (cells : List Host.Cell) (s : State) (h : s.memOk) : (clearPoison cells s).memOk := by
  have hm := (Memory.wf_iff _).mp h.1
  exact ⟨(Memory.wf_iff _).mpr ⟨hm.1, hm.2.1, swf_filter _ _ _ hm.2.2.1, hm.2.2.2⟩, h.2⟩

theorem memOk_hbmStore (v : World) (cells : List Host.Cell) (s : State) (h : s.memOk) : (hbmStore v cells s).memOk := by
  induction cells generalizing s with
  | nil => exact h
  | cons e r ih =>
    obtain ⟨a, b⟩ := e
    refine ih _ ?_
    have hc := memOk_claimLine s v (a / 128) h
    have hm := (Memory.wf_iff _).mp hc.1
    exact ⟨(Memory.wf_iff _).mpr ⟨swf_sput _ _ _ _ hm.1, hm.2⟩, hc.2⟩

theorem memOk_hbmPut (v : World) (cells : List Host.Cell) (s : State) (h : s.memOk) : (hbmPut v cells s).memOk :=
  memOk_clearPoison _ _ (memOk_hbmStore v cells s h)

@[simp] theorem l2Put_mem (s : State) (f : Fin 4) (line : Nat) (x : Option L2Line) : (l2Put s f line x).mem = s.mem := rfl

theorem memOk_l2Put (s : State) (f : Fin 4) (line : Nat) (x : Option L2Line) (h : s.memOk) : (l2Put s f line x).memOk := by
  refine ⟨h.1, fun g => ?_⟩
  simp only [l2Put, Fin.getElem_fin, Vector.getElem_set]
  split
  · exact swf_sput _ _ _ _ (h.2 f)
  · exact h.2 g

theorem memOk_writeBack (s : State) (f : Fin 4) (line : Nat) (h : s.memOk) : (writeBack s f line).memOk := by
  unfold writeBack
  split
  · exact h
  · split
    · exact h
    · split
      · exact memOk_l2Put _ _ _ _ h
      · exact memOk_l2Put _ _ _ _ (memOk_hbmPut _ _ _ h)

theorem memOk_evictLine (s : State) (f : Fin 4) (line : Nat) (h : s.memOk) : (evictLine s f line).memOk :=
  memOk_l2Put _ _ _ _ (memOk_writeBack s f line h)

theorem memOk_l2Fill (s : State) (f : Fin 4) (v : World) (line : Nat) (h : s.memOk) : (l2Fill s f v line).2.2.memOk := by
  simp only [l2Fill]
  split
  · exact h
  · exact memOk_l2Put _ _ _ _ h

theorem memOk_l2Read (s : State) (f : Fin 4) (v : World) (line : Nat) (h : s.memOk) : (l2Read s f v line).2.2.memOk := by
  unfold l2Read
  split
  · split
    · exact h
    · exact memOk_l2Fill _ _ _ _ (memOk_evictLine s f line h)
  · exact memOk_l2Fill _ _ _ _ h

theorem memOk_l2WriteByte (s : State) (f : Fin 4) (v : World) (a : Nat) (b : Byte) (h : s.memOk) :
    (l2WriteByte s f v a b).memOk := memOk_l2Put _ _ _ _ (memOk_l2Read s f v (a / 128) h)

theorem memOk_l2Write (f : Fin 4) (v : World) (cells : List Host.Cell) (s : State) (h : s.memOk) :
    (l2Write f v cells s).memOk := by
  induction cells generalizing s with
  | nil => exact h
  | cons e r ih => exact ih _ (memOk_l2WriteByte s f v e.1 e.2 h)

theorem memOk_releaseFace (f : Fin 4) (v : World) (s : State) (h : s.memOk) : (releaseFace f v s).memOk := by
  refine memOk_foldl _ _ _ (fun s line h => ?_) h
  split
  · split
    · exact memOk_writeBack s f line h
    · exact h
  · exact h

theorem memOk_refreshCopy (s : State) (f : Fin 4) (line : Nat) (x : L2Line) (h : s.memOk) : (refreshCopy s f line x).memOk := by
  unfold refreshCopy
  split
  · exact memOk_evictLine s f line h
  · exact memOk_l2Put _ _ _ _ h

theorem memOk_discardClean (f : Fin 4) (v : World) (s : State) (h : s.memOk) : (discardClean f v s).memOk := by
  refine memOk_foldl _ _ _ (fun s line h => ?_) h
  split
  · split
    · exact h
    · split
      · exact memOk_l2Put _ _ _ _ h
      · split
        · exact memOk_refreshCopy s f line _ h
        · exact h
  · exact h

theorem memOk_dropWorldLines (f : Fin 4) (v : World) (s : State) (h : s.memOk) : (dropWorldLines f v s).memOk := by
  refine memOk_foldl _ _ _ (fun s line h => ?_) h
  split
  · split
    · exact memOk_l2Put _ _ _ _ h
    · exact h
  · exact h

@[simp] theorem dropHeld_mem (f : Fin 4) (line : Nat) (s : State) : (dropHeld f line s).mem = s.mem := rfl

/-! ### Untimed engines and the units of the package -/

theorem memOk_enginePut (f : Fin 4) (v : World) (a : Nat) (b : Byte) (s : State) (h : s.memOk) :
    (enginePut f v a b s).memOk := by
  unfold enginePut
  split
  · have hm := (Memory.wf_iff _).mp h.1
    exact ⟨(Memory.wf_iff _).mpr ⟨hm.1, hm.2.1, hm.2.2.1, swf_sput _ _ _ _ hm.2.2.2⟩, h.2⟩
  · split
    · have hd : ∀ u : State, u.memOk → (dropHeld f (a / 128) u).memOk := fun u h => h
      refine hd _ ?_
      have h1 : State.memOk (match l2Get s f (a / 128) with
        | some x => if x.key = keyNum s v then s else evictLine s f (a / 128)
        | none => s) := by
        split
        · split
          · exact h
          · exact memOk_evictLine s f _ h
        · exact h
      split
      · exact memOk_l2Put _ _ _ _ (memOk_hbmPut _ _ _ h1)
      · exact memOk_hbmPut _ _ _ h1
    · exact h

theorem memOk_engineStores (f : Fin 4) (v : World) (cells : List Host.Cell) (s : State) (h : s.memOk) :
    (engineStores f v cells s).memOk := by
  induction cells generalizing s with
  | nil => exact h
  | cons e r ih => exact ih _ (memOk_enginePut f v e.1 e.2 s h)

theorem memOk_soundLine (f : Fin 4) (cells : List Host.Cell) (s : State) (line : Nat) (h : s.memOk) :
    (soundLine f cells s line).memOk := by
  unfold soundLine
  split
  · exact memOk_l2Put _ _ _ _ h
  · exact h

theorem memOk_enginePuts (f : Fin 4) (v : World) (cells : List Host.Cell) (s : State) (h : s.memOk) :
    (enginePuts f v cells s).memOk :=
  memOk_foldl _ _ _ (fun s' u h => memOk_soundLine f _ s' u h)
    (memOk_clearPoison _ _ (memOk_engineStores f v cells s h))

theorem memOk_evictLines (lo hi : Nat) (s : State) (h : s.memOk) : (evictLines lo hi s).memOk :=
  memOk_foldl _ _ _ (fun _ f h => memOk_foldl _ _ _ (fun s l h => memOk_evictLine s f l h) h) h

theorem memOk_claimLines (v : World) (lo n : Nat) (s : State) (h : s.memOk) : (claimLines v lo n s).memOk := by
  induction n generalizing lo s with
  | zero => exact h
  | succ n ih => exact ih (lo + 1) _ (memOk_claimLine s v lo h)

theorem memOk_deviceBlock (v : World) (a n : Nat) (m : Sparse Byte) (s : State) (hm : swf 0 m = true) (h : s.memOk) :
    (deviceBlock v a n m s).memOk := by
  unfold deviceBlock
  split
  · exact h
  · have hc := memOk_claimLines v (a / 128) ((a + n - 1) / 128 - a / 128 + 1) _
      (memOk_evictLines (a / 128) ((a + n - 1) / 128) s h)
    have hk := (Memory.wf_iff _).mp hc.1
    refine ⟨(Memory.wf_iff _).mpr ⟨?_, hk.2.1, swf_filter _ _ _ hk.2.2.1, hk.2.2.2⟩, hc.2⟩
    refine swf_block 0 _ _ a n hk.1 (swfFrom_shift 0 _ 0 a (swf_filter 0 _ m hm)) ?_
    intro e he
    obtain ⟨e', he', rfl⟩ := List.mem_map.1 he
    have := (List.mem_filter.1 he').2
    simp only [decide_eq_true_eq] at this
    show a + e'.1 < a + n
    omega

theorem memOk_devicePut (v : World) (a : Nat) (l : List Byte) (s : State) (h : s.memOk) : (devicePut v a l s).memOk := by
  unfold devicePut
  split
  · have hm := (Memory.wf_iff _).mp h.1
    exact ⟨(Memory.wf_iff _).mpr ⟨hm.1, hm.2.1, hm.2.2.1, swf_sputs _ _ _ _ hm.2.2.2⟩, h.2⟩
  · split
    · exact memOk_deviceBlock _ _ _ _ _ (swfFrom_slist 0 0 l) h
    · exact h

/-! ### The tether -/

@[simp] theorem sendPacket_mem (v : Nat) (k : Fin 3) (p : Packet) (s : State) : (sendPacket v k p s).mem = s.mem := by
  simp only [sendPacket]; split <;> rfl

@[simp] theorem sendPacket_l2 (v : Nat) (k : Fin 3) (p : Packet) (s : State) : (sendPacket v k p s).l2 = s.l2 := by
  simp only [sendPacket]; split <;> rfl

theorem memOk_hostPut (pa : Nat) (l : List Byte) (s : State) (h : s.memOk) : (hostPut pa l s).memOk := by
  have hm := (Memory.wf_iff _).mp h.1
  exact ⟨(Memory.wf_iff _).mpr ⟨hm.1, hm.2.1, hm.2.2.1, swf_sputs _ _ _ _ hm.2.2.2⟩, h.2⟩

theorem memOk_passPosted (v : Nat) (p : Packet) (s : State) (h : s.memOk) : (passPosted v p s).memOk :=
  memOk_hostPut _ _ _ (State.memOk_of_eq (sendPacket_mem v 0 p s) (sendPacket_l2 v 0 p s) h)

theorem memOk_postedWrite (c : CoreId) (pa : Nat) (l : List Byte) (s : State) (h : s.memOk) : (postedWrite c pa l s).memOk :=
  memOk_passPosted _ _ s h

theorem memOk_commandWrite (c : CoreId) (id pa : Nat) (l : List Byte) (s : State) (h : s.memOk) :
    (commandWrite c id pa l s).memOk := by
  simp only [commandWrite]
  split
  · exact h
  · exact memOk_passPosted _ _ s h

@[simp] theorem sendRequest_mem (c : CoreId) (cmd : Option Nat) (op : List Byte) (p : Piece) (s : State) :
    (sendRequest c cmd op p s).mem = s.mem := by simp [sendRequest]

@[simp] theorem sendRequest_l2 (c : CoreId) (cmd : Option Nat) (op : List Byte) (p : Piece) (s : State) :
    (sendRequest c cmd op p s).l2 = s.l2 := by simp [sendRequest]

/-- Requests leave memory and the faces alone. -/
theorem sendRequests_mem (c : CoreId) (cmd : Option Nat) (ps : List (Nat × Piece)) (s : State) :
    (sendRequests c cmd ps s).2.mem = s.mem ∧ (sendRequests c cmd ps s).2.l2 = s.l2 := by
  induction ps generalizing s with
  | nil => exact ⟨rfl, rfl⟩
  | cons x r ih => exact ⟨(ih _).1.trans (sendRequest_mem ..), (ih _).2.trans (sendRequest_l2 ..)⟩

/-! ### An AP's stores and orders -/

@[simp] theorem dropHeldVa_mem (f : Fin 4) (va : Nat) (asid : BitVec 16) (s : State) : (dropHeldVa f va asid s).mem = s.mem := rfl

theorem memOk_performStore (c : CoreId) (o : StoreOp) (s : State) (h : s.memOk) : (performStore c o s).memOk := by
  simp only [performStore]
  split
  · exact h
  · split
    · exact memOk_postedWrite _ _ _ s h
    · exact memOk_foldl _ _ _ (fun s x h => memOk_l2Write c.face o.world [x.2] s h) h

theorem memOk_drainStore (c : CoreId) (s : State) (h : s.memOk) : (drainStore c s).memOk := by
  unfold drainStore
  split
  · exact h
  · split
    · exact h
    · exact memOk_performStore c _ _ h

theorem memOk_drainStores (c : CoreId) (n : Nat) (s : State) (h : s.memOk) : (drainStores c n s).memOk := by
  induction n generalizing s with
  | zero => exact h
  | succ n ih => exact ih _ (memOk_drainStore c s h)

theorem memOk_drainAll (c : CoreId) (s : State) (h : s.memOk) : (drainAll c s).memOk := memOk_drainStores c _ s h

theorem memOk_releaseAp (c : CoreId) (s : State) (h : s.memOk) : (releaseAp c s).memOk :=
  memOk_releaseFace _ _ _ (memOk_drainAll c s h)

theorem memOk_acquireAp (c : CoreId) (s : State) (h : s.memOk) : (acquireAp c s).memOk := memOk_discardClean _ _ s h

theorem memOk_fenceAp (c : CoreId) (scope : Nat) (rel acq : Bool) (s : State) (h : s.memOk) :
    (fenceAp c scope rel acq s).memOk := by
  have h1 : (if rel then drainAll c s else s).memOk := by split; exacts [memOk_drainAll c s h, h]
  have h2 : (if (decide (5 ≤ scope) && rel) = true then releaseAp c (if rel then drainAll c s else s)
      else (if rel then drainAll c s else s)).memOk := by split; exacts [memOk_releaseAp c _ h1, h1]
  simp only [fenceAp]
  split
  · exact memOk_acquireAp c _ h2
  · exact h2

theorem memOk_settleAp (c : CoreId) (s : State) (h : s.memOk) : (settleAp c s).memOk := memOk_releaseAp c s h

theorem memOk_takeLine (c : CoreId) (pa : Nat) (s : State) (h : s.memOk) : (takeLine c pa s).memOk :=
  memOk_evictLine s c.face (pa / 128) h

theorem memOk_atomicWrite (c : CoreId) (scope va pa : Nat) (l : List Byte) (s : State) (h : s.memOk) :
    (atomicWrite c scope va pa l s).memOk := by
  simp only [atomicWrite]
  split
  · exact memOk_hostPut pa l s h
  · split
    · exact memOk_l2Write c.face _ _ s h
    · exact memOk_hbmPut _ _ s h

/-! ### Scrubs -/

theorem memOk_dropLines (lines : List Nat) (s : State) (h : s.memOk) :
    (lines.foldl (fun s line => (List.finRange 4).foldl (fun s f => dropHeld f line (l2Put s f line none)) s) s).memOk :=
  memOk_foldl _ _ _ (fun _ _ h => memOk_foldl _ _ _ (fun _ _ h => memOk_l2Put _ _ _ _ h) h) h

theorem memOk_zeroPage (pa : Nat) (s : State) (h : s.memOk) : (zeroPage pa s).memOk := by
  have h1 := memOk_dropLines ((List.range 32).map fun i => pa / 128 + i) s h
  unfold zeroPage
  generalize List.range 32 = l at h1 ⊢
  generalize List.finRange 4 = fs at h1 ⊢
  dsimp only
  have hm := (Memory.wf_iff _).mp h1.1
  exact ⟨(Memory.wf_iff _).mpr ⟨swf_filter _ _ _ hm.1, swf_puts_foldl _ _ _ _ hm.2.1, swf_filter _ _ _ hm.2.2.1, hm.2.2.2⟩,
    h1.2⟩

/-! ### Frames -/

theorem swf_sputs_foldl (l : List (Nat × List Byte)) (m : Sparse Byte) (h : swf 0 m = true) :
    swf 0 (l.foldl (fun m f => sputs 0 m f.1 f.2) m) = true := by
  induction l generalizing m with
  | nil => exact h
  | cons u l ih => exact ih _ (swf_sputs 0 m u.1 u.2 h)

theorem memOk_if (p : Prop) [Decidable p] (a b : State) (ha : a.memOk) (hb : b.memOk) : (if p then a else b).memOk := by
  split
  · exact ha
  · exact hb

theorem memOk_framePut (w : World) (a : Nat) (l : List Byte) (s : State) (h : s.memOk) : (framePut w a l s).memOk :=
  memOk_if _ _ _ (memOk_devicePut w a l s h) h

theorem memOk_frameBlock (w : World) (a : Nat) (fs : List (Nat × List Byte)) (s : State) (h : s.memOk) :
    (frameBlock w a fs s).memOk :=
  memOk_if _ _ _ (memOk_deviceBlock w a _ _ s (swf_sputs_foldl fs [] rfl) h) h

theorem memOk_frameValues (w : World) (a : Nat) (ls : List Latch) (s : State) (h : s.memOk) :
    (frameValues w a ls s).memOk := by
  induction ls generalizing a s with
  | nil => exact h
  | cons l r ih => exact ih _ _ (memOk_framePut w a _ s h)

theorem memOk_writeFrame (c : CoreId) (s : State) (h : s.memOk) : (writeFrame c s).memOk :=
  memOk_frameValues _ _ _ _ (memOk_frameBlock _ _ _ s h)

theorem memOk_notice (bit : Nat) (s : State) (h : s.memOk) : (notice bit s).memOk := by
  unfold notice; exact memOk_if _ _ _ h h

/-- Taking a trap keeps the canonical form of memory. -/
theorem memOk_takeTrap (c : CoreId) (fsave : Bool) (a : TrapCause) (r : List TrapCause) (s : State) (h : s.memOk) :
    (takeTrap c fsave a r s).memOk := by
  have hw : ∀ f : Core → Core, (writeFrame c (s.modCore c f)).memOk := fun f => memOk_writeFrame c _ h
  unfold takeTrap
  exact memOk_if _ _ _ (memOk_notice 4 _ (hw _)) (hw _)

end Sys2Proof.Machine
end

