-- ==== Sys2Proof/Laws/Ops.lean ====
section
/-! SUPPORT. What the shared operations do: registers and slots read after a write, the memory that a trap frame touches,
and taking and leaving a trap. -/

namespace Sys2Proof.Machine

/-! ### Registers and slots -/

/-- s0 reads zero (R61). -/
@[simp] theorem readS_zero (x : Core) (hnd : Bool) : readS x hnd 0 = 0 := by simp [readS]

/-- An s register after a write of it: the value, or zero for s0, whose write is discarded (R61). -/
theorem readS_writeS_same (x : Core) (hnd : Bool) (i : Nat) (v : W64) :
    readS (writeS hnd i v x) hnd i = if i % 32 = 0 then 0 else v := by
  by_cases h : i % 32 = 0
  · simp [readS, h]
  · cases hnd <;> simp only [readS, writeS, h, if_false, if_true, Bool.false_eq_true] <;>
      exact vget_vset_same _ _ _ _ (Nat.mod_lt i (by decide))

/-- Another s register, or one of the other bank, is as before. -/
theorem readS_writeS_other (x : Core) (hnd hnd' : Bool) (i j : Nat) (v : W64) (h : hnd ≠ hnd' ∨ i % 32 ≠ j % 32) :
    readS (writeS hnd i v x) hnd' j = readS x hnd' j := by
  by_cases hi : i % 32 = 0
  · simp [writeS, hi]
  · by_cases hj : j % 32 = 0
    · simp [readS, hj]
    · cases hnd <;> cases hnd' <;> simp_all [readS, writeS] <;> exact vget_vset_other _ _ _ _ _ (Ne.symm h)

/-- An a register after a write of it. -/
theorem readA_writeA_same (x : Core) (intr : Bool) (i : Nat) (v : W64) : readA (writeA intr i v x) intr i = v := by
  by_cases h : shadowed intr i
  · have h24 : 24 ≤ i % 32 := by simp [shadowed] at h; exact h.2
    simp only [readA, writeA, h, if_true]
    exact vget_vset_same _ _ _ _ (by omega)
  · simp only [readA, writeA, h, if_false, Bool.false_eq_true]
    exact vget_vset_same _ _ _ _ (Nat.mod_lt i (by decide))

/-- Another a register is as before. -/
theorem readA_writeA_other (x : Core) (intr : Bool) (i j : Nat) (v : W64) (h : i % 32 ≠ j % 32) :
    readA (writeA intr i v x) intr j = readA x intr j := by
  by_cases hi : shadowed intr i <;> by_cases hj : shadowed intr j <;> simp [readA, writeA, hi, hj]
  · have h1 : 24 ≤ i % 32 := by simp [shadowed] at hi; exact hi.2
    have h2 : 24 ≤ j % 32 := by simp [shadowed] at hj; exact hj.2
    exact vget_vset_other _ _ _ _ _ (by omega)
  · exact vget_vset_other _ _ _ _ _ (Ne.symm h)

@[simp] theorem writeS_trap (hnd : Bool) (i : Nat) (v : W64) (x : Core) : (writeS hnd i v x).trap = x.trap := by
  unfold writeS; split; rfl; split <;> rfl

@[simp] theorem writeS_ap (hnd : Bool) (i : Nat) (v : W64) (x : Core) : (writeS hnd i v x).ap = x.ap := by
  unfold writeS; split; rfl; split <;> rfl

@[simp] theorem writeA_trap (intr : Bool) (i : Nat) (v : W64) (x : Core) : (writeA intr i v x).trap = x.trap := by
  unfold writeA; split <;> rfl

@[simp] theorem writeA_ap (intr : Bool) (i : Nat) (v : W64) (x : Core) : (writeA intr i v x).ap = x.ap := by
  unfold writeA; split <;> rfl

/-- A write of a scalar register changes nothing but the scalar registers. -/
theorem writeReg_eq (e : Engine) (d : RegCode) (v : W64) (x : Core) :
    writeReg e d v x = { x with scal := (writeReg e d v x).scal } := by
  unfold writeReg writeA writeS
  split
  · split <;> rfl
  · split
    · rfl
    · split <;> rfl

/-- The register that a write names reads as written; s0 reads zero. -/
theorem readReg_writeReg_same (e : Engine) (d : RegCode) (v : W64) (x : Core) :
    readReg (writeReg e d v x) e d = if e ≠ .ap ∧ d.toNat % 32 = 0 then 0 else v := by
  by_cases h : e = .ap
  · subst h
    simp only [readReg, writeReg, if_true]
    simp [inIntr, readA_writeA_same]
  · simp [readReg, writeReg, h, inTrap, readS_writeS_same]

/-- Every other register of the engine reads as before. -/
theorem readReg_writeReg_other (e : Engine) (d r : RegCode) (v : W64) (x : Core) (h : d.toNat % 32 ≠ r.toNat % 32) :
    readReg (writeReg e d v x) e r = readReg x e r := by
  by_cases he : e = .ap
  · subst he
    simp only [readReg, writeReg, if_true]
    simp [inIntr, readA_writeA_other _ _ _ _ _ h]
  · simp [readReg, writeReg, he, inTrap, readS_writeS_other _ _ _ _ _ _ (Or.inr h)]

/-! ### The memory that frames and records touch -/

/-- The state `t` is the state `s` with its memory and its L2 levels as they are in `t`. -/
def OnlyMemory (s t : State) : Prop := t = { s with mem := t.mem, l2 := t.l2 }

theorem OnlyMemory.refl (s : State) : OnlyMemory s s := rfl

theorem OnlyMemory.trans {s t u : State} (h : OnlyMemory s t) (h' : OnlyMemory t u) : OnlyMemory s u := by
  unfold OnlyMemory at *; rw [h'] ; rw [h]

theorem OnlyMemory.cores {s t : State} (h : OnlyMemory s t) : t.cores = s.cores := by rw [h]
theorem OnlyMemory.clusters {s t : State} (h : OnlyMemory s t) : t.clusters = s.clusters := by rw [h]
theorem OnlyMemory.core {s t : State} (h : OnlyMemory s t) (c : CoreId) : t.core c = s.core c := by
  unfold State.core; rw [h.cores]

theorem onlyMemory_if {s a b : State} (p : Prop) [Decidable p] (ha : OnlyMemory s a) (hb : OnlyMemory s b) :
    OnlyMemory s (if p then a else b) := by split; exacts [ha, hb]

theorem onlyMemory_foldl {β : Type} (f : State → β → State) (l : List β) (s : State)
    (hf : ∀ s b, OnlyMemory s (f s b)) : OnlyMemory s (l.foldl f s) := by
  induction l generalizing s with
  | nil => exact .refl s
  | cons b l ih => exact (hf s b).trans (ih _)

theorem onlyMemory_claimLine (s : State) (v : World) (line : Nat) : OnlyMemory s (claimLine s v line) := by
  unfold claimLine; exact onlyMemory_if _ (.refl s) rfl

theorem onlyMemory_hbmStore (v : World) (cells : List Host.Cell) (s : State) : OnlyMemory s (hbmStore v cells s) := by
  induction cells generalizing s with
  | nil => exact .refl s
  | cons e r ih =>
    obtain ⟨a, b⟩ := e
    have h1 : OnlyMemory (claimLine s v (a / 128)) { claimLine s v (a / 128) with mem := { (claimLine s v (a / 128)).mem with
      hbm := sput 0 (claimLine s v (a / 128)).mem.hbm a b } } := rfl
    exact ((onlyMemory_claimLine s v (a / 128)).trans h1).trans (ih _)

theorem onlyMemory_hbmPut (v : World) (cells : List Host.Cell) (s : State) : OnlyMemory s (hbmPut v cells s) :=
  (onlyMemory_hbmStore v cells s).trans rfl

theorem onlyMemory_writeBack (s : State) (f : Fin 4) (line : Nat) : OnlyMemory s (writeBack s f line) := by
  unfold writeBack
  split
  · exact .refl s
  · exact onlyMemory_if _ (.refl s) (onlyMemory_if _ rfl ((onlyMemory_hbmPut _ _ s).trans rfl))

theorem onlyMemory_evictLine (s : State) (f : Fin 4) (line : Nat) : OnlyMemory s (evictLine s f line) :=
  (onlyMemory_writeBack s f line).trans rfl

theorem onlyMemory_claimLines (v : World) (lo n : Nat) (s : State) : OnlyMemory s (claimLines v lo n s) := by
  induction n generalizing lo s with
  | zero => exact .refl s
  | succ n ih => exact (onlyMemory_claimLine s v lo).trans (ih _ _)

theorem onlyMemory_deviceBlock (v : World) (a n : Nat) (m : Sparse Byte) (s : State) : OnlyMemory s (deviceBlock v a n m s) := by
  unfold deviceBlock
  refine onlyMemory_if _ (.refl s) ?_
  exact ((onlyMemory_foldl _ _ s fun s f => onlyMemory_foldl _ _ s fun s l => onlyMemory_evictLine s f l).trans
    (onlyMemory_claimLines v _ _ _)).trans rfl

theorem onlyMemory_devicePut (v : World) (a : Nat) (l : List Byte) (s : State) : OnlyMemory s (devicePut v a l s) := by
  unfold devicePut
  exact onlyMemory_if _ rfl (onlyMemory_if _ (onlyMemory_deviceBlock _ _ _ _ s) (.refl s))

theorem onlyMemory_frameValues (w : World) (a : Nat) (ls : List Latch) (s : State) : OnlyMemory s (frameValues w a ls s) := by
  induction ls generalizing a s with
  | nil => exact .refl s
  | cons l r ih => exact (onlyMemory_if _ (onlyMemory_devicePut _ _ _ s) (.refl s)).trans (ih _ _)

/-- A trap frame changes nothing but memory. -/
theorem onlyMemory_writeFrame (c : CoreId) (s : State) : OnlyMemory s (writeFrame c s) :=
  (onlyMemory_if _ (onlyMemory_deviceBlock _ _ _ _ s) (.refl s)).trans (onlyMemory_frameValues _ _ _ _)

/-! ### Traps -/

@[simp] theorem notice_core (bit : Nat) (s : State) (c : CoreId) : (notice bit s).core c = s.core c := by
  unfold notice; split <;> rfl

/-- Taking a trap (R119, R122, R125): TCAUSE, TINFO and TTICK of the least cause, and LEAD in handler state at the handler's
first item; with TVEC 0 the double trap of R123. -/
theorem takeTrap_core (c : CoreId) (fsave : Bool) (a : TrapCause) (r : List TrapCause) (s : State) :
    (takeTrap c fsave a r s).core c =
      (let y : Core := { s.core c with trap := { (s.core c).trap with
          tcause := tcauseOf fsave (leastCause a r) (a :: r)
            ||| (if (s.core c).csr.tvec = 0 then (1 : W64) <<< 62 else 0)
          tinfo := tinfoOf (leastCause a r), ttick := BitVec.ofNat 64 (tickOf s c) } }
       if (s.core c).csr.tvec = 0 then { y with trap := { y.trap with handler := true, stopped := true } }
       else enterHandler y) := by
  simp only [takeTrap, decide_eq_true_eq]
  have hm := fun f => (onlyMemory_writeFrame c (s.modCore c f)).core c
  have hn : ∀ (u : State) (l : List CoreId) (f : Core → Core),
      (({ u with sys := { u.sys with sysTraps := l } } : State).modCore c f).core c = f (u.core c) :=
    fun u l f => State.core_modCore_same _ c f
  split
  · rw [notice_core, hn, hm, State.core_modCore_same]
  · rw [hn, hm, State.core_modCore_same]

/-- Taking a trap leaves every other core alone (R119). -/
theorem takeTrap_other (c d : CoreId) (fsave : Bool) (a : TrapCause) (r : List TrapCause) (s : State) (h : d ≠ c) :
    (takeTrap c fsave a r s).core d = s.core d := by
  simp only [takeTrap]
  split
  · simp only [notice_core, State.core_modCore_other _ _ _ _ h]
    exact ((onlyMemory_writeFrame c _).core d).trans (State.core_modCore_other _ _ _ _ h)
  · simp only [State.core_modCore_other _ _ _ _ h]
    exact ((onlyMemory_writeFrame c _).core d).trans (State.core_modCore_other _ _ _ _ h)

/-- Leaving a trap (R124). -/
theorem leaveTrap_core (c : CoreId) (s : State) :
    (leaveTrap c s).core c = { s.core c with trap := { (s.core c).trap with
      handler := false, stopped := false, hbuf := []
      tcause := (s.core c).trap.tcause &&& ~~~((1 : W64) <<< 63) } } := by simp [leaveTrap]

/-- A double trap (R123). -/
theorem doubleTrap_core (c : CoreId) (code : Nat) (s : State) :
    (doubleTrap c code s).core c = { s.core c with trap := { (s.core c).trap with
      stopped := true
      tcause := (s.core c).trap.tcause ||| ((1 : W64) <<< 62) ||| (BitVec.ofNat 64 (code % 16) <<< 4) } } := by
  simp [doubleTrap]

end Sys2Proof.Machine
end

