-- ==== Sys2Proof/Laws/Words.lean ====
section
/-! SUPPORT. Engine words: `exec` of a word is its issue, and what the issue of an untimed word and of a tick come to. -/

namespace Sys2Proof.Machine

/-- Every engine word is executed by its issue (R14, R36). -/
theorem exec_word (i : Instr) (s : State) (h : (toFields i).isSome = true) : exec i s = done (issueWord i s) := by
  cases i <;> first | rfl | cases h

/-- A step ends at once when no store waits to reach the register region. -/
@[simp] theorem flushRegs_nil (s : State) (h : s.regq = []) : flushRegs s = s := by
  simp [flushRegs, flushRounds, h]

/-- The plan of an untimed word without late operands, causes or faults takes place. -/
theorem carryOut_go (t : Turn) (p : Plan) (s : State) (hl : p.lates = []) (hc : p.causes = []) (hf : p.fault = none) :
    carryOut t p s = p.after (p.act (s.modCore t.c (advance t.e t.pos (s.cluster t.c.cluster).clk p.idle p.skip))) := by
  simp [carryOut, hl, hc, hf]

/-- A plan with a late operand waits. -/
theorem carryOut_late (t : Turn) (p : Plan) (s : State) (hl : p.lates ≠ []) : carryOut t p s = p.wait s := by
  unfold carryOut; split <;> simp_all

/-- The plan of a word whose guard lets it issue is its own. -/
theorem guarded_go (k : Ctx) (i : Instr) (p : Plan) (x : Fields) (hx : toFields i = some x)
    (hg : selfGuarded i = true ∨ (guardLate k.core k.e x.f.h = false ∧ guardTrue k.core k.e x.f.h = true)) :
    guarded k i p = p := by
  rcases hg with hg | ⟨h1, h2⟩
  · simp [guarded, hx, hg]
  · simp only [guarded, hx, h1, h2]; simp

/-- A word with a false guard is a null. -/
theorem guarded_null (k : Ctx) (i : Instr) (p : Plan) (x : Fields) (hx : toFields i = some x) (hs : selfGuarded i = false)
    (h1 : guardLate k.core k.e x.f.h = false) (h2 : guardTrue k.core k.e x.f.h = false) : guarded k i p = {} := by
  simp [guarded, hx, hs, h1, h2]

/-- A tick in which no core raises a cause traps nobody. -/
theorem traps_false (d : Draft) (k : ClusterId) (s : State) (hc : ∀ c ∈ k.cores, d.causes s k c = []) : d.traps k s = false := by
  simp only [Draft.traps, List.any_eq_false]; intro c hcm; simp [hc c hcm]

/-- A tick in which no core raises a cause and no late operand is met takes place (R36, R38). -/
theorem decideTick_commit (d : Draft) (k : ClusterId) (s : State) (hc : ∀ c ∈ k.cores, d.causes s k c = [])
    (hl : d.lates = []) (s0 : State) : decideTick d k s0 s = commitTick d k := by
  simp [decideTick, traps_false d k s hc, hl]

/-- A tick in which no core raises a cause and a late operand is met is a frozen cycle (R38). -/
theorem decideTick_freeze (d : Draft) (k : ClusterId) (s : State) (l : Late) (r : List Late)
    (hc : ∀ c ∈ k.cores, d.causes s k c = []) (hl : d.lates = l :: r) (s0 : State) :
    decideTick d k s0 s = freezeCycle k l s := by
  simp [decideTick, traps_false d k s hc, hl]

end Sys2Proof.Machine
end

