-- ==== Sys2Proof/Laws/Tick.lean ====
section
/-! SUPPORT. A tick at which one word issues on a cluster with nothing in flight: what it lands, what it raises, and what it
leaves. -/

namespace Sys2Proof.Machine

/-! ### Cores and clusters put back -/

theorem State.modCore_self (s : State) (c : CoreId) (f : Core → Core) (h : f (s.core c) = s.core c) : s.modCore c f = s := by
  have : s.cores.set c (s.core c) = s.cores := by
    ext i hi
    by_cases hic : c.val = i
    · subst hic; simp [State.core]
    · simp [hic]
  simp [State.modCore, State.setCore, h, this]

theorem foldl_modCore_self (l : List CoreId) (s : State) (f : CoreId → Core → Core) (h : ∀ c ∈ l, f c (s.core c) = s.core c) :
    l.foldl (fun s c => s.modCore c (f c)) s = s := by
  induction l with
  | nil => rfl
  | cons c r ih =>
    simp only [List.foldl_cons, State.modCore_self s c (f c) (h c (by simp))]
    exact ih fun d hd => h d (List.mem_cons_of_mem _ hd)

theorem foldl_self {α β : Type} (l : List β) (s : α) (f : α → β → α) (h : ∀ b ∈ l, f s b = s) : l.foldl f s = s := by
  induction l with
  | nil => rfl
  | cons c r ih => rw [List.foldl_cons, h c (by simp)]; exact ih fun b hb => h b (by simp [hb])

/-- A core of its own cluster is among the cluster's cores. -/
theorem mem_cores (c : CoreId) : c ∈ c.cluster.cores := by
  revert c; decide

/-! ### Landing -/

theorem landQuarters_nil (now : Nat) (x : Core) (h : x.latches = []) : landQuarters now x = x := by
  simp [landQuarters, dueLatches, h]
  cases x; simp_all

theorem freeHalves_keep (now : Nat) (x : Core)
    (h : x.bench.bbuf.all (halfStays now) = true) :
    freeHalves now x = x := by
  simp only [freeHalves]
  rw [List.filter_eq_self.mpr (fun a ha => List.all_eq_true.mp h a ha)]

/-- What `quietCore` says. -/
theorem quietCore_iff (now : Nat) (x : Core) : quietCore now x = true ↔
    x.latches = [] ∧ x.ops = [] ∧ x.transits = [] ∧ x.ap.apWrites = [] ∧
    x.bench.bbuf.all (halfStays now) = true ∧ x.badCtx = false := by
  simp only [quietCore, Bool.and_eq_true, List.isEmpty_iff, Bool.not_eq_true']; tauto

theorem landCore_quiet (c : CoreId) (now : Nat) (x : Core) (h : quietCore now x = true) : landCore c now x = x := by
  obtain ⟨hl, ho, -, -, hb, -⟩ := (quietCore_iff now x).mp h
  simp only [landCore, landQuarters_nil now x hl, ho, List.foldl_nil]
  exact freeHalves_keep now x hb

theorem landAll_quiet (k : ClusterId) (now : Nat) (s : State) (h : ∀ c ∈ k.cores, quietCore now (s.core c) = true) :
    landAll k now s = s :=
  foldl_modCore_self _ s (fun c => landCore c now) fun c hc => landCore_quiet c now _ (h c hc)

theorem landCauses_quiet (c : CoreId) (now : Nat) (x : Core) (h : quietCore now x = true) : landCauses c now x = [] := by
  obtain ⟨hl, ho, -⟩ := (quietCore_iff now x).mp h
  simp [landCauses, landQuarters_nil now x hl, ho]

/-! ### Touches -/

/-- Touches that are all different meet nowhere. -/
theorem touchCauses_nodup (l : List (Req × Touch)) (h : (l.map Prod.snd).Nodup) : touchCauses l = [] := by
  simp only [touchCauses, List.filterMap_eq_nil_iff]
  intro t _
  have hc : (l.filter fun x => decide (x.2 = t)).length ≤ 1 := by
    have h1 := List.nodup_iff_count_le_one.mp h t
    rw [List.count_eq_length_filter, List.filter_map, List.length_map] at h1
    exact h1
  match hq : l.filter fun x => decide (x.2 = t) with
  | [] => rw [hq]; rfl
  | [a] => rw [hq]; rfl
  | a :: b :: q => rw [hq] at hc; simp at hc

/-- A touch of the cluster's bus or of a half of a B buffer. -/
def shared (t : Touch) : Bool :=
  match t with
  | .bus | .claim _ => true
  | _ => false

theorem busCauses_none (s : State) (k : ClusterId) (l : List (CoreId × Req × Touch)) (h : ∀ x ∈ l, shared x.2.2 = false) :
    busCauses s k l = [] := by
  have key : ∀ t : Touch, shared t = true → l.filter (fun x => decide (x.2.2 = t)) = [] := by
    intro t ht
    rw [List.filter_eq_nil_iff]
    intro x hx he
    rw [decide_eq_true_eq] at he
    rw [← he, h x hx] at ht; cases ht
  have hb := key .bus rfl
  have hc := fun n => key (.claim n) rfl
  simp only [busCauses, hb, hc, List.map_nil, laterCauses, List.nil_append]
  simp

/-! ### A quiet tick -/

/-- What `wordOk` says of a word. -/
theorem wordOk_iff (s : State) (c : CoreId) (e : Engine) (i : Instr) : wordOk s c e i = true ↔
    s.issuer = .eng c e ∧ s.regq = [] ∧ legalHere s c e i = true ∧ waitsMet s c e = true := by
  simp only [wordOk, Bool.and_eq_true, List.isEmpty_iff, decide_eq_true_eq]; tauto

theorem turnFor_detail (s : State) (c : CoreId) (e : Engine) (i : Instr) (h : legalHere s c e i = true) :
    (turnFor s c e i).detail = 0 := by
  unfold legalHere at h; unfold turnFor
  cases hf : toFields i <;> simp_all

theorem waitsLeft_nil (s : State) (c : CoreId) (e : Engine) (i : Instr) (h : waitsMet s c e = true) :
    waitsLeft s (turnFor s c e i) = [] := by
  simp only [waitsLeft, turnFor, List.filter_eq_nil_iff]
  intro w hw
  simp [List.all_eq_true.mp h w hw]

theorem guarded_self (s : State) (k : Ctx) (c : CoreId) (e : Engine) (i : Instr) (p : Plan) (hc : k.core = s.core c) (he : k.e = e)
    (h : headOk (s.core c) e i = true) : guarded k i p = p := by
  unfold headOk at h
  split at h
  · next w hw =>
    refine guarded_go k i p w hw ?_
    simp only [Bool.or_eq_true, guardGo, Bool.and_eq_true, Bool.not_eq_true'] at h
    rw [hc, he]; exact h
  · cases h

/-- What `timedTurn` says of a word. -/
structure TimedFacts (s : State) (c : CoreId) (e : Engine) (i : Instr) : Prop where
  word : wordOk s c e i = true
  timed : e.timed = true
  noTrap : inTrap (s.core c) e = false
  aligned : (s.core c).aligned = true
  stands : clockStands s c.cluster = false
  watch : watchCores s c.cluster = []
  quiet : ∀ d ∈ c.cluster.cores, quietCore (s.cluster c.cluster).clk (s.core d) = true
  alone : ∀ d ∈ c.cluster.cores, ∀ g ∈ timedEngines, (d = c ∧ g = e) ∨ dueNow s d g = false

theorem timedTurn_facts {s : State} {c : CoreId} {e : Engine} {i : Instr} (h : timedTurn s c e i = true) : TimedFacts s c e i := by
  simp only [timedTurn, quietCluster, Bool.and_eq_true, Bool.not_eq_true', List.isEmpty_iff, List.all_eq_true, Bool.or_eq_true,
    decide_eq_true_eq] at h
  obtain ⟨⟨⟨⟨⟨h1, h2⟩, h3⟩, h4⟩, ⟨h5, h6⟩, h7⟩, h8⟩ := h
  exact ⟨h1, h2, h3, h4, h5, h6, h7, h8⟩

theorem TimedFacts.issuer {s : State} {c : CoreId} {e : Engine} {i : Instr} (h : TimedFacts s c e i) : s.issuer = .eng c e :=
  ((wordOk_iff s c e i).mp h.word).1

theorem TimedFacts.regq {s : State} {c : CoreId} {e : Engine} {i : Instr} (h : TimedFacts s c e i) : s.regq = [] :=
  ((wordOk_iff s c e i).mp h.word).2.1

theorem filterMap_only {α β : Type} [DecidableEq α] (l : List α) (a : α) (b : β) (f : α → Option β) (hl : l.Nodup) (ha : a ∈ l)
    (hf : f a = some b) (hn : ∀ x ∈ l, x ≠ a → f x = none) : l.filterMap f = [b] := by
  induction l with
  | nil => cases ha
  | cons x r ih =>
    have hr := List.nodup_cons.mp hl
    by_cases hx : x = a
    · subst hx
      rw [List.filterMap_cons, hf]
      have : r.filterMap f = [] := List.filterMap_eq_nil_iff.mpr fun y hy =>
        hn y (List.mem_cons_of_mem _ hy) fun he => hr.1 (he ▸ hy)
      simp [this]
    · rw [List.filterMap_cons, hn x (List.mem_cons_self ..) hx]
      exact ih hr.2 ((List.mem_cons.mp ha).resolve_left (Ne.symm hx)) fun y hy => hn y (List.mem_cons_of_mem _ hy)

theorem flatMap_only {α β : Type} [DecidableEq α] (l : List α) (a : α) (b : List β) (f : α → List β) (hl : l.Nodup) (ha : a ∈ l)
    (hf : f a = b) (hn : ∀ x ∈ l, x ≠ a → f x = []) : l.flatMap f = b := by
  induction l with
  | nil => cases ha
  | cons x r ih =>
    have hr := List.nodup_cons.mp hl
    by_cases hx : x = a
    · subst hx
      rw [List.flatMap_cons, hf]
      have : r.flatMap f = [] := List.flatMap_eq_nil_iff.mpr fun y hy =>
        hn y (List.mem_cons_of_mem _ hy) fun he => hr.1 (he ▸ hy)
      simp [this]
    · rw [List.flatMap_cons, hn x (List.mem_cons_self ..) hx]
      exact ih hr.2 ((List.mem_cons.mp ha).resolve_left (Ne.symm hx)) fun y hy => hn y (List.mem_cons_of_mem _ hy)

theorem cores_nodup (k : ClusterId) : k.cores.Nodup := by
  revert k; decide

theorem timedEngines_mem (e : Engine) (h : e.timed = true) : e ∈ timedEngines := by
  cases e <;> simp_all [timedEngines, Engine.timed]

/-- The word is the one turn of its tick. -/
theorem turnsOf_alone {s : State} {c : CoreId} {e : Engine} {i : Instr} (h : TimedFacts s c e i) :
    turnsOf s c.cluster (some (c, e, i)) = [turnFor s c e i] := by
  unfold turnsOf
  refine flatMap_only _ c _ _ (cores_nodup _) (mem_cores c) ?_ ?_
  · refine filterMap_only _ e _ _ (by decide) (timedEngines_mem e h.timed) (by simp) ?_
    intro g hg hne
    have := (h.alone c (mem_cores c) g hg).resolve_left fun hh => hne hh.2
    simp [hne, this]
  · intro d hd hne
    rw [List.filterMap_eq_nil_iff]
    intro g hg
    have := (h.alone d hd g hg).resolve_left fun hh => hne hh.1
    simp [hne, this]

/-- No rendezvous is met at a tick whose one word is none. -/
theorem arriveTurns_none (k : ClusterId) (t : Turn) (s : State) (h : turnForm t = none) : arriveTurns k [t] s = s := by
  have : arrives s k [t] t = false := by simp [arrives, h]
  simp [arriveTurns, this]

theorem rdvMismatch_none (s : State) (k : ClusterId) (l : List Turn) (t : Turn) (h : turnForm t = none) :
    rdvMismatch s k l t = false := by simp [rdvMismatch, h]

/-- The plan of a word whose turn it is: its own, behind its guard. -/
theorem turnPlan_self (s : State) (c : CoreId) (e : Engine) (i : Instr) (now : Nat) (h : wordOk s c e i = true) :
    turnPlan s now false (turnFor s c e i) =
      guarded ((turnFor s c e i).ctx s now) i (planOf i ((turnFor s c e i).ctx s now)) := by
  obtain ⟨-, -, hl, hw⟩ := (wordOk_iff s c e i).mp h
  have hd := turnFor_detail s c e i hl
  have hi : (turnFor s c e i).instr = some i := rfl
  have hf : (turnFor s c e i).fetched = true := rfl
  have hb : (turnFor s c e i).bad = false := rfl
  simp only [turnPlan, hd, hi, hf, hb, waitsLeft_nil s c e i hw]
  simp [waitLates, waitCauses, Plan.withLates, Plan.withCauses]

/-- The context in which a word that issues is planned. -/
def ctxOf (s : State) (c : CoreId) (e : Engine) (i : Instr) : Ctx := (turnFor s c e i).ctx s (s.cluster c.cluster).clk

@[simp] theorem ctxOf_s (s : State) (c : CoreId) (e : Engine) (i : Instr) : (ctxOf s c e i).s = s := rfl
@[simp] theorem ctxOf_c (s : State) (c : CoreId) (e : Engine) (i : Instr) : (ctxOf s c e i).c = c := rfl
@[simp] theorem ctxOf_e (s : State) (c : CoreId) (e : Engine) (i : Instr) : (ctxOf s c e i).e = e := rfl
@[simp] theorem ctxOf_core (s : State) (c : CoreId) (e : Engine) (i : Instr) : (ctxOf s c e i).core = s.core c := rfl
@[simp] theorem ctxOf_now (s : State) (c : CoreId) (e : Engine) (i : Instr) : (ctxOf s c e i).now = (s.cluster c.cluster).clk := rfl
theorem ctxOf_timed (s : State) (c : CoreId) (e : Engine) (i : Instr) : (ctxOf s c e i).timed = timedAt s c e := rfl

/-- The outcome of the operations of one core at its tick. -/
def opsOut (c : CoreId) (x : Core) (now : Nat) : OpOut := (x.ops.map (runOp c x now)).foldl OpOut.join {}

/-- A core after its tick, from the outcome of its operations. -/
def settled (c : CoreId) (now : Nat) (x : Core) : Core :=
  let out := opsOut c x now
  let ops := (x.ops.map fun o => capture (runOp c x now o) o).filter fun o => decide (now < o.at_ + opLast o)
  let y := { x with
    ops
    latches := (x.latches.filter fun l => decide (now < l.due)) ++ out.latches
    transits := (x.transits ++ out.transits).filter fun t => !(transitEnds now t || (match transitStop t now with
      | some p => out.taken.contains (t.lane, p)
      | none => false)) }
  out.cells.foldl (fun x w => spadPut x w.1 w.2) y

theorem filter_outs {β : Type} (k : ClusterId) (d : CoreId) (hd : d ∈ k.cores) (f : CoreId → β) :
    ((k.cores.map fun c => (c, f c)).filter fun x => decide (x.1 = d)) = [(d, f d)] := by
  rw [List.filter_map]
  have : (k.cores.filter fun c => decide (c = d)) = [d] := by
    have hn := cores_nodup k
    generalize k.cores = l at hd hn
    induction l with
    | nil => cases hd
    | cons x r ih =>
      have hr := List.nodup_cons.mp hn
      by_cases hx : x = d
      · subst hx
        have : r.filter (fun c => decide (c = x)) = [] := by
          rw [List.filter_eq_nil_iff]; intro y hy he
          exact hr.1 ((decide_eq_true_eq.mp he) ▸ hy)
        simp [this]
      · simp only [List.filter_cons, hx, decide_false, Bool.false_eq_true, if_false]
        exact ih ((List.mem_cons.mp hd).resolve_left (Ne.symm hx)) hr.2
  have h2 : (fun x : CoreId × β => decide (x.1 = d)) ∘ (fun c => (c, f c)) = fun c => decide (c = d) := rfl
  rw [h2, this]; rfl

theorem draft_out (k : ClusterId) (d : CoreId) (hd : d ∈ k.cores) (x : Draft) (u : State)
    (hx : x.outs = k.cores.map fun c => (c, coreOuts u x.now c)) : x.out d = opsOut d (u.core d) x.now := by
  simp only [Draft.out, hx, filter_outs k d hd, List.flatMap_cons, List.flatMap_nil, List.append_nil, opsOut, coreOuts,
    List.map_map]
  rfl

theorem opsOut_nil (c : CoreId) (x : Core) (now : Nat) (h : x.ops = []) : opsOut c x now = {} := by simp [opsOut, h]

/-- A core after a tick: what it settles to. -/
theorem settleCore_eq (k : ClusterId) (d : CoreId) (hd : d ∈ k.cores) (x : Draft) (u : State)
    (hx : x.outs = k.cores.map fun c => (c, coreOuts u x.now c)) (hl : dueLatches x.now (u.core d) = []) :
    settleCore x d (u.core d) = settled d x.now (u.core d) := by
  have ho := draft_out k d hd x u hx
  simp only [settleCore, settled, ho, hx, filter_outs k d hd, hl, List.filter_nil, List.foldl_nil, List.flatMap_cons,
    List.flatMap_nil, List.append_nil, coreOuts, List.map_map]
  rfl

theorem settled_quiet (c : CoreId) (now : Nat) (x : Core) (ho : x.ops = []) (ht : x.transits = [])
    (hl : ∀ l ∈ x.latches, now < l.due) : settled c now x = x := by
  have h1 : (x.latches.filter fun l => decide (now < l.due)) = x.latches :=
    List.filter_eq_self.mpr fun l h => by simpa using hl l h
  simp only [settled, opsOut_nil c x now ho, ho, ht, h1]
  cases x; simp_all

theorem dueLatches_nil (now : Nat) (x : Core) (hl : ∀ l ∈ x.latches, now < l.due) : dueLatches now x = [] := by
  simp only [dueLatches, List.filter_eq_nil_iff, decide_eq_true_eq]
  intro l h; have := hl l h; omega

theorem laneCauses_nil (now : Nat) (x : Core) (h : x.transits = []) : laneCauses now x = [] := by simp [laneCauses, h]

theorem tapCauses_nil (now : Nat) (l : List (Nat × Nat)) (x : Core) (h : x.transits = []) : tapCauses now l x = [] := by
  simp [tapCauses, h]

/-- The touches of the one turn of a tick and of the operations of its core. -/
def soloTouches (c : CoreId) (r : Req) (p : Plan) (x : Core) (now : Nat) : List (Req × Touch) :=
  (p.touches.map fun t => (r, t)) ++ x.ops.flatMap fun o => (runOp c x now o).touches.map fun t => (reqOfOp o, t)

/-- The plan of a word behind its guard. -/
def planBehind (s : State) (c : CoreId) (e : Engine) (i : Instr) : Plan := guarded (ctxOf s c e i) i (planOf i (ctxOf s c e i))

theorem planBehind_go {s : State} {c : CoreId} {e : Engine} {i : Instr} (h : headOk (s.core c) e i = true) :
    planBehind s c e i = planOf i (ctxOf s c e i) := guarded_self s (ctxOf s c e i) c e i _ rfl rfl h

/-- A tick at which one word issues, with nothing in flight before it: no core raises a cause, and the tick takes place. -/
theorem tick_one {s : State} {c : CoreId} {e : Engine} {i : Instr} (h : TimedFacts s c e i) (hf : rdvFormOf i = none) (p : Plan)
    (hp : planBehind s c e i = p) (hl : p.lates = []) (hc : p.causes = []) (u : State)
    (hu : p.act (s.modCore c (movedOn s c e p.idle p.skip)) = u)
    (hoth : ∀ d ∈ c.cluster.cores, d ≠ c → quietCore (s.cluster c.cluster).clk (u.core d) = true)
    (hut : (u.core c).transits = []) (hul : ∀ l ∈ (u.core c).latches, (s.cluster c.cluster).clk < l.due)
    (hcau : (opsOut c (u.core c) (s.cluster c.cluster).clk).causes = [])
    (htou : ((soloTouches c (turnFor s c e i).req p (u.core c) (s.cluster c.cluster).clk).map Prod.snd).Nodup)
    (hbus : busCauses s c.cluster
      ((soloTouches c (turnFor s c e i).req p (u.core c) (s.cluster c.cluster).clk).map fun x => (c, x.1, x.2)) = []) :
    issueWord i s = p.after (((opsOut c (u.core c) (s.cluster c.cluster).clk).eff
      (u.modCore c (settled c (s.cluster c.cluster).clk))).modCluster c.cluster endTick) := by
  have hiss := h.issuer
  have hb : beforeAlign (s.core c) e = false := by simp [beforeAlign, h.aligned]
  have hform : turnForm (turnFor s c e i) = none := by simp [turnForm, turnFor, hf]
  simp only [issueWord, hiss, hb, h.timed, h.noTrap, Bool.false_eq_true, if_false, Bool.not_false, Bool.and_self, if_true, tickWith,
    h.stands, h.watch, turnsOf_alone h, attemptTick, arriveTurns_none _ _ _ hform]
  have hquiet := h.quiet
  generalize hnow : (s.cluster c.cluster).clk = now at *
  have hland : landAll c.cluster now s = s := landAll_quiet _ _ _ fun d hd => hquiet d hd
  have hd : draftTick c.cluster [turnFor s c e i] s =
      { now := now, turns := [(turnFor s c e i, p)], seen := s, after := u, outs := c.cluster.cores.map fun d => (d, coreOuts u now d) } := by
    have h2 : turnPlan s now false (turnFor s c e i) = p := by
      rw [turnPlan_self s c e i now h.word, ← hp, ← hnow]; rfl
    simp only [draftTick, hnow, hland, List.map_cons, List.map_nil, rdvMismatch_none _ _ _ _ hform, h2, List.foldl_cons, List.foldl_nil]
    have h3 : takeTurn now s (turnFor s c e i, p) = u := by rw [← hu, ← hnow]; rfl
    rw [h3]
  rw [hd]
  generalize hD : ({ now := now, turns := [(turnFor s c e i, p)], seen := s, after := u, outs := c.cluster.cores.map fun d => (d, coreOuts u now d) } : Draft) = D
  have hDn : D.now = now := by rw [← hD]
  have hDo : D.outs = c.cluster.cores.map fun d => (d, coreOuts u D.now d) := by rw [← hD]
  have hDt : D.turns = [(turnFor s c e i, p)] := by rw [← hD]
  have hDa : D.after = u := by rw [← hD]
  have hDs : D.seen = s := by rw [← hD]
  have hlat : D.lates = [] := by simp [Draft.lates, latesOf, hDt, hl]
  have huo : ∀ d ∈ c.cluster.cores, d ≠ c → (u.core d).ops = [] ∧ (u.core d).transits = [] ∧ (u.core d).latches = [] := by
    intro d hd hne
    obtain ⟨a, b, e', -⟩ := (quietCore_iff now _).mp (hoth d hd hne)
    exact ⟨b, e', a⟩
  have htc : D.touches s c = soloTouches c (turnFor s c e i).req p (u.core c) now := by
    have hq := ((quietCore_iff now _).mp (hquiet c (mem_cores c))).1
    simp only [Draft.touches, hDt, hDn, dueLatches, hq, List.filter_nil, List.map_nil, List.append_nil, soloTouches]
    rw [hDo, hDn, filter_outs c.cluster c (mem_cores c)]
    have : (turnFor s c e i).c = c := rfl
    simp only [this, decide_true, List.filter_cons, if_true, List.filter_nil, List.flatMap_cons, List.flatMap_nil, List.append_nil,
      coreOuts]
    congr 1
    rw [List.flatMap_map]
  have htd : ∀ d ∈ c.cluster.cores, d ≠ c → D.touches s d = [] := by
    intro d hd hne
    have hq := ((quietCore_iff now _).mp (hquiet d hd)).1
    have hcd : ¬ (turnFor s c e i).c = d := fun he => hne he.symm
    simp only [Draft.touches, hDt, hDn, dueLatches, hq, List.filter_nil, List.map_nil, List.append_nil]
    rw [hDo, hDn, filter_outs c.cluster d hd]
    simp [hcd, coreOuts, (huo d hd hne).1]
  have hall : (c.cluster.cores.flatMap fun b => (D.touches s b).map fun x => (b, x.1, x.2)) =
      (soloTouches c (turnFor s c e i).req p (u.core c) now).map fun x => (c, x.1, x.2) :=
    flatMap_only _ c _ _ (cores_nodup _) (mem_cores c) (by rw [htc]) fun d hd hne => by rw [htd d hd hne]; rfl
  have hout : ∀ d ∈ c.cluster.cores, D.out d = opsOut d (u.core d) now := fun d hd => by rw [draft_out _ d hd D u hDo, hDn]
  have hcauses : ∀ d ∈ c.cluster.cores, D.causes s c.cluster d = [] := by
    intro d hd
    have hap := ((quietCore_iff now _).mp (hquiet d hd)).2.2.2.1
    have hctx : ctxCauses (s.core d) = [] := by
      simp [ctxCauses, ((quietCore_iff now _).mp (hquiet d hd)).2.2.2.2.2]
    have hpend : pendingCauses now (s.core d) (u.core d) = [] := by
      simp [pendingCauses, dueLatches, ((quietCore_iff now _).mp (hquiet d hd)).1]
    have hwords : (D.turns.filter fun x => decide (x.1.c = d)).flatMap (fun x => x.2.causes) = [] := by
      rw [hDt]
      simp only [List.flatMap_eq_nil_iff]
      intro x hx
      have := (List.mem_filter.mp hx).1
      simp only [List.mem_singleton] at this
      rw [this]; exact hc
    have hx : D.touches s d = D.touches s d := rfl
    have htch : touchCauses (D.touches s d) = [] := by
      by_cases hdc : d = c
      · subst hdc; rw [htc]; exact touchCauses_nodup _ htou
      · rw [htd d hd hdc]; rfl
    have hoc : (D.out d).causes = [] := by
      rw [hout d hd]
      by_cases hdc : d = c
      · subst hdc; exact hcau
      · rw [opsOut_nil _ _ _ (huo d hd hdc).1]
    have htr : (u.core d).transits = [] := by
      by_cases hdc : d = c
      · subst hdc; exact hut
      · exact (huo d hd hdc).2.1
    simp only [Draft.causes, hwords, hDn, landCauses_quiet d now _ (hquiet d hd), hoc, htch, hall, hDs, hbus, hlat, hDa,
      laneCauses_nil now _ htr, tapCauses_nil now _ _ htr, hap, hctx, hpend]
    simp
  rw [decideTick_commit D c.cluster s hcauses hlat]
  have hset : ∀ d ∈ c.cluster.cores, settleCore D d (u.core d) = settled d now (u.core d) := by
    intro d hd
    have : dueLatches D.now (u.core d) = [] := by
      rw [hDn]
      by_cases hdc : d = c
      · subst hdc; exact dueLatches_nil _ _ hul
      · exact dueLatches_nil _ _ (by rw [(huo d hd hdc).2.2]; simp)
    rw [settleCore_eq c.cluster d hd D u hDo this, hDn]
  have hset' : ∀ d ∈ c.cluster.cores, d ≠ c → settleCore D d (u.core d) = u.core d := by
    intro d hd hne
    rw [hset d hd]
    obtain ⟨a, b, e'⟩ := huo d hd hne
    exact settled_quiet d now _ a b (by rw [e']; simp)
  have hfold : c.cluster.cores.foldl (fun s d => s.modCore d (settleCore D d)) u = u.modCore c (settled c now) := by
    have key : ∀ l : List CoreId, l.Nodup → (∀ d ∈ l, d ∈ c.cluster.cores) → ∀ v : State, (∀ d ∈ l, v.core d = u.core d) →
        l.foldl (fun s d => s.modCore d (settleCore D d)) v = if c ∈ l then v.modCore c (settled c now) else v := by
      intro l
      induction l with
      | nil => intros; rfl
      | cons d r ih =>
        intro hn hm v hv
        have hr := List.nodup_cons.mp hn
        rw [List.foldl_cons]
        by_cases hdc : d = c
        · subst hdc
          have h1 : v.modCore d (settleCore D d) = v.modCore d (settled d now) := by
            simp only [State.modCore, hv d (by simp), hset d (mem_cores d)]
          rw [h1, ih hr.2 (fun y hy => hm y (by simp [hy])) _ (fun y hy => ?_)]
          · simp [hr.1]
          · rw [State.core_modCore_other _ _ _ _ (fun he : y = d => hr.1 (he ▸ hy))]
            exact hv y (by simp [hy])
        · have h1 : v.modCore d (settleCore D d) = v :=
            State.modCore_self _ _ _ (by rw [hv d (by simp)]; exact hset' d (hm d (by simp)) hdc)
          rw [h1, ih hr.2 (fun y hy => hm y (by simp [hy])) v (fun y hy => hv y (by simp [hy]))]
          have : (c = d) = False := by simp [Ne.symm hdc]
          simp [this]
    rw [key _ (cores_nodup _) (fun d hd => hd) u (fun _ _ => rfl), if_pos (mem_cores c)]
  have heff : ∀ v : State, c.cluster.cores.foldl (fun s d => (D.out d).eff s) v = (opsOut c (u.core c) now).eff v := by
    have key : ∀ l : List CoreId, l.Nodup → (∀ d ∈ l, d ∈ c.cluster.cores) → ∀ v : State,
        l.foldl (fun s d => (D.out d).eff s) v = if c ∈ l then (opsOut c (u.core c) now).eff v else v := by
      intro l
      induction l with
      | nil => intros; rfl
      | cons d r ih =>
        intro hn hm v
        have hr := List.nodup_cons.mp hn
        rw [List.foldl_cons, ih hr.2 (fun y hy => hm y (by simp [hy]))]
        by_cases hdc : d = c
        · subst hdc; rw [hout d (mem_cores d)]; simp [hr.1]
        · rw [hout d (hm d (by simp)), opsOut_nil _ _ _ (huo d (hm d (by simp)) hdc).1]
          have : (c = d) = False := by simp [Ne.symm hdc]
          simp [this]
    intro v
    rw [key _ (cores_nodup _) (fun d hd => hd) v, if_pos (mem_cores c)]
  simp only [commitTick, hDa, hfold, heff, hDt, List.foldl_cons, List.foldl_nil]

/-! ### A word that issues, timed or untimed -/

/-- An untimed word whose turn it is: its plan takes place at once. -/
theorem untimed_one {s : State} {c : CoreId} {e : Engine} {i : Instr} (h : untimedTurn s c e i = true) (p : Plan)
    (hp : planBehind s c e i = p) (hl : p.lates = []) (hc : p.causes = []) (hf : p.fault = none) :
    issueWord i s = p.after (p.act (s.modCore c (movedOn s c e p.idle p.skip))) := by
  simp only [untimedTurn, Bool.and_eq_true] at h
  obtain ⟨hw, hr⟩ := h
  obtain ⟨hiss, -, hle, hwa⟩ := (wordOk_iff s c e i).mp hw
  have hnt : (e.timed && !inTrap (s.core c) e) = false := by
    by_cases hi : inTrap (s.core c) e
    · simp [hi]
    · have : e = .ap := by
        unfold untimedReady at hr
        simp only [hi, Bool.false_eq_true, if_false] at hr
        by_contra hne
        simp [hne] at hr
      subst this; rfl
  have hb : beforeAlign (s.core c) e = false := by
    simp only [beforeAlign, hnt, Bool.false_and]
  have hd := turnFor_detail s c e i hle
  have hi : (turnFor s c e i).instr = some i := rfl
  have hft : (turnFor s c e i).fetched = true := rfl
  have hbd : (turnFor s c e i).bad = false := rfl
  have hcx : (turnFor s c e i).ctx s (s.cluster (turnFor s c e i).c.cluster).clk = ctxOf s c e i := rfl
  simp only [issueWord, hiss, hb, hnt, hr, Bool.false_eq_true, if_false, if_true, issueUntimed, hft, hbd, hd, hi, waitsLeft_nil s c e i hwa,
    List.isEmpty_nil, hcx, ne_eq, not_true, Bool.not_true]
  rw [show guarded (ctxOf s c e i) i (planOf i (ctxOf s c e i)) = p from hp]
  exact carryOut_go (turnFor s c e i) p s hl hc hf

/-- A word is timed where `timedTurn` holds of it, and not where `untimedTurn` does. -/
theorem timedAt_of_timedTurn {s : State} {c : CoreId} {e : Engine} {i : Instr} (h : timedTurn s c e i = true) : timedAt s c e = true := by
  have := timedTurn_facts h; simp [timedAt, this.timed, this.noTrap]

theorem timedAt_of_untimedTurn {s : State} {c : CoreId} {e : Engine} {i : Instr} (h : untimedTurn s c e i = true) :
    timedAt s c e = false := by
  simp only [untimedTurn, Bool.and_eq_true] at h
  obtain ⟨-, hr⟩ := h
  by_cases hi : inTrap (s.core c) e
  · simp [timedAt, hi]
  · unfold untimedReady at hr
    simp only [hi, Bool.false_eq_true, if_false] at hr
    by_cases he : e = .ap
    · subst he; rfl
    · simp [he] at hr

theorem turn_cases {s : State} {c : CoreId} {e : Engine} {i : Instr} (h : hasTurn s c e i = true) :
    (untimedTurn s c e i = true ∧ timedAt s c e = false) ∨ (timedTurn s c e i = true ∧ timedAt s c e = true) := by
  simp only [hasTurn, Bool.or_eq_true] at h
  exact h.imp (fun h => ⟨h, timedAt_of_untimedTurn h⟩) fun h => ⟨h, timedAt_of_timedTurn h⟩

theorem wordOk_of_turn {s : State} {c : CoreId} {e : Engine} {i : Instr} (h : hasTurn s c e i = true) : wordOk s c e i = true := by
  simp only [hasTurn, untimedTurn, Bool.or_eq_true, Bool.and_eq_true] at h
  exact h.elim (fun h => h.1) fun h => (timedTurn_facts h).word

theorem issues_iff {s : State} {c : CoreId} {e : Engine} {i : Instr} :
    issues s c e i = true ↔ hasTurn s c e i = true ∧ headOk (s.core c) e i = true := by
  simp only [issues, Bool.and_eq_true]

theorem untimedGo_iff {s : State} {c : CoreId} {e : Engine} {i : Instr} :
    untimedGo s c e i = true ↔ untimedTurn s c e i = true ∧ headOk (s.core c) e i = true := by
  simp only [untimedGo, Bool.and_eq_true]

theorem issues_of_untimedGo {s : State} {c : CoreId} {e : Engine} {i : Instr} (h : untimedGo s c e i = true) :
    issues s c e i = true := by
  obtain ⟨h1, h2⟩ := untimedGo_iff.mp h
  simp [issues_iff, hasTurn, h1, h2]

/-- A word with a meaning as fields. -/
theorem toFields_of_turn {s : State} {c : CoreId} {e : Engine} {i : Instr} (h : hasTurn s c e i = true) : (toFields i).isSome = true := by
  obtain ⟨-, -, hleg, -⟩ := (wordOk_iff s c e i).mp (wordOk_of_turn h)
  unfold legalHere at hleg
  cases hx : toFields i <;> simp_all

/-- `y` is `x` with only streams and predicate slots changed. -/
def OnlyMoved (x y : Core) : Prop :=
  ∃ st pv pw, y = { x with streams := st, scal := { x.scal with pv := pv, pw := pw } }

theorem OnlyMoved.refl (x : Core) : OnlyMoved x x := ⟨x.streams, x.scal.pv, x.scal.pw, rfl⟩

theorem OnlyMoved.trans {x y z : Core} (h : OnlyMoved x y) (h' : OnlyMoved y z) : OnlyMoved x z := by
  obtain ⟨a, b, d, rfl⟩ := h
  obtain ⟨a', b', d', rfl⟩ := h'
  exact ⟨a', b', d', rfl⟩

theorem onlyMoved_modStream (x : Core) (e : Engine) (f : Stream → Stream) : OnlyMoved x (x.modStream e f) :=
  ⟨_, x.scal.pv, x.scal.pw, rfl⟩

theorem onlyMoved_writeSlot (i : Nat) (b : Bool) (x : Core) : OnlyMoved x (writeSlot false i b x) := ⟨x.streams, _, _, rfl⟩

theorem onlyMoved_shiftSlots (pf n : Nat) (x : Core) : OnlyMoved x (shiftSlots pf n x) := by
  induction n generalizing x with
  | zero => exact .refl x
  | succ n ih => exact (onlyMoved_writeSlot _ _ _).trans (ih _)

theorem onlyMoved_backEdge (e : Engine) (l : Level) (x : Core) : OnlyMoved x (backEdge e l x) := by
  unfold backEdge
  dsimp only
  split
  · exact ((onlyMoved_modStream x e _).trans (onlyMoved_shiftSlots _ _ _)).trans (onlyMoved_writeSlot _ _ _)
  · exact onlyMoved_modStream x e _

theorem onlyMoved_resolveLoops (e : Engine) (off n : Nat) (x : Core) : OnlyMoved x (resolveLoops e off n x).1 := by
  induction n generalizing x with
  | zero => exact .refl x
  | succ n ih =>
    unfold resolveLoops
    dsimp only
    split
    · split
      · exact (onlyMoved_modStream x e _).trans (onlyMoved_backEdge e _ _)
      · exact (onlyMoved_modStream x e _).trans (ih _)
    · exact ih x

theorem onlyMoved_advanceJob (e : Engine) (p : Pos) (now idle : Nat) (skip : Option Nat) (x : Core) :
    OnlyMoved x (advanceJob e p now idle skip x) := by
  unfold advanceJob
  cases skip with
  | none => exact (onlyMoved_resolveLoops e p.off 4 x).trans (onlyMoved_modStream _ e _)
  | some l => exact onlyMoved_modStream _ e _

/-- Moving past a word changes the stream, or the handler's position, and at a back-edge of a stage loop the slots. -/
theorem movedOn_eq (s : State) (c : CoreId) (e : Engine) (idle : Nat) (skip : Option Nat) (x : Core) :
    ∃ y, OnlyMoved x y ∧ ∃ hp up, movedOn s c e idle skip x = { y with trap := { x.trap with hpos := hp }, ap := { x.ap with uiPos := up } } := by
  unfold movedOn advance
  split
  · unfold setPos
    split
    · exact ⟨x, .refl x, _, x.ap.uiPos, rfl⟩
    · split
      · exact ⟨x, .refl x, x.trap.hpos, _, rfl⟩
      · refine ⟨_, onlyMoved_modStream x e fun t => { t with pos := posAfter (nextOf s c e).pos }, x.trap.hpos, x.ap.uiPos, rfl⟩
  · refine ⟨_, onlyMoved_advanceJob e (nextOf s c e).pos (s.cluster c.cluster).clk idle skip x, x.trap.hpos, x.ap.uiPos, ?_⟩
    obtain ⟨a, b, d, hy⟩ := onlyMoved_advanceJob e (nextOf s c e).pos (s.cluster c.cluster).clk idle skip x
    rw [hy]

/-- Moving past a word leaves what is in flight alone. -/
theorem movedOn_flight (s : State) (c : CoreId) (e : Engine) (idle : Nat) (skip : Option Nat) (x : Core) :
    (movedOn s c e idle skip x).ops = x.ops ∧ (movedOn s c e idle skip x).latches = x.latches ∧
    (movedOn s c e idle skip x).transits = x.transits := by
  obtain ⟨y, ⟨a, b, d, rfl⟩, hp, up, h⟩ := movedOn_eq s c e idle skip x
  rw [h]; exact ⟨rfl, rfl, rfl⟩

theorem soloTouches_nil (c : CoreId) (r : Req) (p : Plan) (x : Core) (now : Nat) (h : x.ops = []) :
    soloTouches c r p x now = p.touches.map fun t => (r, t) := by simp [soloTouches, h]

/-- A word whose turn it is and whose plan, behind its guard, only changes its core: `g` on the core that has moved past
it. -/
theorem exec_behind {s : State} {c : CoreId} {e : Engine} {i : Instr} (h : hasTurn s c e i = true) (hf : rdvFormOf i = none) (p : Plan)
    (g : Core → Core) (hp : planBehind s c e i = p) (hl : p.lates = []) (hc : p.causes = []) (hft : p.fault = none)
    (ha : p.act = fun s => s.modCore c g) (haf : p.after = id)
    (hg : ∀ x, (g x).ops = x.ops ∧ (g x).transits = x.transits ∧
      ((∀ l ∈ x.latches, (s.cluster c.cluster).clk < l.due) → ∀ l ∈ (g x).latches, (s.cluster c.cluster).clk < l.due))
    (htou : p.touches.Nodup) (hsh : ∀ t ∈ p.touches, shared t = false) :
    exec i s = .next (endWord s c e (s.modCore c fun x => g (movedOn s c e p.idle p.skip x))) := by
  obtain ⟨-, hq, -⟩ := (wordOk_iff s c e i).mp (wordOk_of_turn h)
  have hmm : (s.modCore c (movedOn s c e p.idle p.skip)).modCore c g = s.modCore c fun x => g (movedOn s c e p.idle p.skip x) := by
    rw [State.modCore_modCore]
  rw [exec_word i s (toFields_of_turn h)]
  rcases turn_cases h with ⟨hu, ht⟩ | ⟨hu, ht⟩
  · rw [untimed_one hu p hp hl hc hft, haf, ha]
    simp only [hmm, endWord, ht, done, Bool.false_eq_true, if_false, id_eq]
    rw [flushRegs_nil _ (by simpa using hq)]
  · have hfacts := timedTurn_facts hu
    obtain ⟨ql, qo, qt, -, -⟩ := (quietCore_iff _ _).mp (hfacts.quiet c (mem_cores c))
    have hmo := movedOn_flight s c e p.idle p.skip (s.core c)
    have hgx := hg (movedOn s c e p.idle p.skip (s.core c))
    have huc : (s.modCore c fun x => g (movedOn s c e p.idle p.skip x)).core c = g (movedOn s c e p.idle p.skip (s.core c)) := by simp
    have hops : ((s.modCore c fun x => g (movedOn s c e p.idle p.skip x)).core c).ops = [] := by rw [huc, hgx.1, hmo.1, qo]
    have htr : ((s.modCore c fun x => g (movedOn s c e p.idle p.skip x)).core c).transits = [] := by rw [huc, hgx.2.1, hmo.2.2, qt]
    have hla : ∀ l ∈ ((s.modCore c fun x => g (movedOn s c e p.idle p.skip x)).core c).latches, (s.cluster c.cluster).clk < l.due := by
      rw [huc]; exact hgx.2.2 (by rw [hmo.2.1, ql]; simp)
    have hout := opsOut_nil c _ (s.cluster c.cluster).clk hops
    rw [tick_one hfacts hf p hp hl hc (s.modCore c fun x => g (movedOn s c e p.idle p.skip x)) (by rw [ha]; exact hmm)
      (fun d hd hne => by rw [State.core_modCore_other _ _ _ _ hne]; exact hfacts.quiet d hd) htr hla (by rw [hout])
      (by rw [soloTouches_nil _ _ _ _ _ hops, List.map_map]; simpa [Function.comp_def] using htou)
      (by rw [soloTouches_nil _ _ _ _ _ hops, List.map_map]
          refine busCauses_none _ _ _ fun x hx => ?_
          obtain ⟨t, ht, rfl⟩ := List.mem_map.mp hx
          exact hsh t ht)]
    rw [hout, haf]
    have : (s.modCore c fun x => g (movedOn s c e p.idle p.skip x)).modCore c (settled c (s.cluster c.cluster).clk) =
        s.modCore c fun x => g (movedOn s c e p.idle p.skip x) :=
      State.modCore_self _ _ _ (settled_quiet _ _ _ hops htr hla)
    simp only [this, id_eq, endWord, ht, if_true, done]
    rw [flushRegs_nil _ (by simpa using hq)]

/-- A word that issues and whose plan only changes its core. -/
theorem exec_coreAt {s : State} {c : CoreId} {e : Engine} {i : Instr} (h : issues s c e i = true) (hf : rdvFormOf i = none) (p : Plan)
    (g : Core → Core) (hp : planOf i (ctxOf s c e i) = p) (hl : p.lates = []) (hc : p.causes = []) (hft : p.fault = none)
    (ha : p.act = fun s => s.modCore c g) (haf : p.after = id)
    (hg : ∀ x, (g x).ops = x.ops ∧ (g x).transits = x.transits ∧
      ((∀ l ∈ x.latches, (s.cluster c.cluster).clk < l.due) → ∀ l ∈ (g x).latches, (s.cluster c.cluster).clk < l.due))
    (htou : p.touches.Nodup) (hsh : ∀ t ∈ p.touches, shared t = false) :
    exec i s = .next (endWord s c e (s.modCore c fun x => g (movedOn s c e p.idle p.skip x))) :=
  exec_behind (issues_iff.mp h).1 hf p g ((planBehind_go (issues_iff.mp h).2).trans hp) hl hc hft ha haf hg htou hsh

/-- A word whose plan only changes its core: it leaves `coreNext`. -/
theorem exec_core {s : State} {c : CoreId} {e : Engine} {i : Instr} (h : issues s c e i = true) (hf : rdvFormOf i = none) (p : Plan)
    (g : Core → Core) (hp : planOf i (ctxOf s c e i) = p) (hl : p.lates = []) (hc : p.causes = []) (hft : p.fault = none)
    (hid : p.idle = 0) (hsk : p.skip = none) (ha : p.act = fun s => s.modCore c g) (haf : p.after = id)
    (hg : ∀ x, (g x).ops = x.ops ∧ (g x).transits = x.transits ∧
      ((∀ l ∈ x.latches, (s.cluster c.cluster).clk < l.due) → ∀ l ∈ (g x).latches, (s.cluster c.cluster).clk < l.due))
    (htou : p.touches.Nodup) (hsh : ∀ t ∈ p.touches, shared t = false) :
    exec i s = .next (coreNext s c e g) := by
  rw [exec_coreAt h hf p g hp hl hc hft ha haf hg htou hsh, hid, hsk]; rfl

/-- A null word only moves its stream on. -/
theorem exec_null {s : State} {c : CoreId} {e : Engine} {i : Instr} (h : issuesNull s c e i = true) (hf : rdvFormOf i = none) :
    exec i s = .next (coreNext s c e fun x => x) := by
  simp only [issuesNull, Bool.and_eq_true, Bool.not_eq_true'] at h
  obtain ⟨⟨h1, h2⟩, h3⟩ := h
  have hp : planBehind s c e i = {} := by
    cases hw : toFields i with
    | none => rw [hw] at h3; cases h3
    | some w =>
      rw [hw] at h3
      simp only [Bool.and_eq_true, Bool.not_eq_true'] at h3
      obtain ⟨h4, h5⟩ := h3
      simp [planBehind, guarded, hw, h2, ctxOf_core, ctxOf_e, h4, h5]
  exact exec_behind h1 hf {} (fun x => x) hp rfl rfl rfl
    (by funext t; exact (State.modCore_self t c (fun x => x) rfl).symm) rfl (fun x => ⟨rfl, rfl, fun q => q⟩) (by simp) (by simp)

end Sys2Proof.Machine
end

