-- ==== Sys2Proof/Laws/Plans.lean ====
section
/-! SUPPORT. What `exec` answers for each shape of plan: a register written, a product, a predicate slot changed, nothing
but the stream's move, and a plan of an untimed word. -/

namespace Sys2Proof.Machine

/-! ### Operands that do not wait -/

theorem lateReg_nil {k : Ctx} {code : RegCode} (h : pendingReg k.core k.e code = false) : lateReg k code = [] := by
  simp [lateReg, h]

theorem lateSlot_nil {k : Ctx} {code : RegCode} (h : slotWritten k.core (inTrap k.core k.e) (slotNo code) = true) :
    lateSlot k code = [] := by simp [lateSlot, h]

theorem writePending_go {k : Ctx} {code : RegCode} (p : Plan) (h : pendingReg k.core k.e code = false) :
    writePending k code p = p := by simp [writePending, h]

theorem touchReg_ok (k : Ctx) (d : RegCode) : (touchReg k d).Nodup ∧ ∀ t ∈ touchReg k d, shared t = false := by
  unfold touchReg
  split <;> simp [shared]

theorem touchSlot_ok (k : Ctx) (d : RegCode) : (touchSlot k d).Nodup ∧ ∀ t ∈ touchSlot k d, shared t = false := by
  unfold touchSlot
  split <;> simp [shared]

/-! ### What is in flight stays -/

theorem writeReg_flight (e : Engine) (d : RegCode) (v : W64) (x : Core) :
    (writeReg e d v x).ops = x.ops ∧ (writeReg e d v x).transits = x.transits ∧ (writeReg e d v x).latches = x.latches := by
  unfold writeReg writeA writeS
  repeat' split
  all_goals exact ⟨rfl, rfl, rfl⟩

theorem writeSlot_flight (hnd : Bool) (i : Nat) (b : Bool) (x : Core) :
    (writeSlot hnd i b x).ops = x.ops ∧ (writeSlot hnd i b x).transits = x.transits ∧ (writeSlot hnd i b x).latches = x.latches := by
  unfold writeSlot
  split <;> exact ⟨rfl, rfl, rfl⟩

theorem voidSlot_flight (hnd : Bool) (i : Nat) (x : Core) :
    (voidSlot hnd i x).ops = x.ops ∧ (voidSlot hnd i x).transits = x.transits ∧ (voidSlot hnd i x).latches = x.latches := by
  unfold voidSlot
  split <;> exact ⟨rfl, rfl, rfl⟩

/-- A change of a core that leaves what is in flight alone meets `exec_core`. -/
theorem flight_ok {now : Nat} {g : Core → Core}
    (h : ∀ x, (g x).ops = x.ops ∧ (g x).transits = x.transits ∧ (g x).latches = x.latches) :
    ∀ x, (g x).ops = x.ops ∧ (g x).transits = x.transits ∧ ((∀ l ∈ x.latches, now < l.due) → ∀ l ∈ (g x).latches, now < l.due) :=
  fun x => ⟨(h x).1, (h x).2.1, by rw [(h x).2.2]; exact fun q => q⟩

/-! ### The shapes of plans -/

/-- A word that writes a scalar register at its issue. -/
theorem exec_reg {s : State} {c : CoreId} {e : Engine} {i : Instr} (h : issues s c e i = true) (hf : rdvFormOf i = none)
    {lates : List (Nat × Nat)} {d : RegCode} {v : W64} (hp : planOf i (ctxOf s c e i) = planReg (ctxOf s c e i) lates d v)
    (hl : lates = []) (hd : pendingReg (s.core c) e d = false) : exec i s = .next (coreNext s c e (writeReg e d v)) := by
  subst hl
  rw [planReg, writePending_go (k := ctxOf s c e i) _ hd] at hp
  exact exec_core h hf _ (writeReg e d v) hp rfl rfl rfl rfl rfl rfl rfl (flight_ok (writeReg_flight e d v))
    (touchReg_ok _ _).1 (touchReg_ok _ _).2

/-- A word that changes a predicate slot outside a running stage range. -/
theorem exec_slot {s : State} {c : CoreId} {e : Engine} {i : Instr} (h : issues s c e i = true) (hf : rdvFormOf i = none)
    {lates : List (Nat × Nat)} {d : RegCode} {g : Core → Core}
    (hp : planOf i (ctxOf s c e i) = planSlotWith (ctxOf s c e i) lates d g) (hl : lates = [])
    (hg : ∀ x, (g x).ops = x.ops ∧ (g x).transits = x.transits ∧ (g x).latches = x.latches)
    (hd : (inTrap (s.core c) e || !inStageRange (s.core c) (slotNo d)) = true) : exec i s = .next (coreNext s c e g) := by
  subst hl
  have hs : stageHit (ctxOf s c e i) d = false := by
    simp only [stageHit, ctxOf_core, ctxOf_e]
    cases h1 : inTrap (s.core c) e <;> cases h2 : inStageRange (s.core c) (slotNo d) <;> simp_all
  rw [planSlotWith, hs, if_neg (by simp)] at hp
  exact exec_core h hf _ g hp rfl rfl rfl rfl rfl rfl rfl (flight_ok hg) (touchSlot_ok _ _).1 (touchSlot_ok _ _).2

/-- A word whose plan is a change of its core and touches nothing. -/
theorem exec_plain {s : State} {c : CoreId} {e : Engine} {i : Instr} (h : issues s c e i = true) (hf : rdvFormOf i = none)
    {lates : List (Nat × Nat)} {g : Core → Core}
    (hp : planOf i (ctxOf s c e i) = (planCore (ctxOf s c e i) [] g).withLates lates) (hl : lates = [])
    (hg : ∀ x, (g x).ops = x.ops ∧ (g x).transits = x.transits ∧ (g x).latches = x.latches) :
    exec i s = .next (coreNext s c e g) := by
  subst hl
  exact exec_core h hf _ g hp rfl rfl rfl rfl rfl rfl rfl (flight_ok hg) (by simp [planCore, Plan.withLates])
    (by simp [planCore, Plan.withLates])

/-- A word that only moves its stream on. -/
theorem exec_moves {s : State} {c : CoreId} {e : Engine} {i : Instr} (h : issues s c e i = true) (hf : rdvFormOf i = none)
    {n : Nat} (hp : planOf i (ctxOf s c e i) = { idle := n }) :
    exec i s = .next (endWord s c e (s.modCore c (movedOn s c e n none))) := by
  have := exec_coreAt h hf _ (fun x => x) hp rfl rfl rfl (by funext t; exact (State.modCore_self t c (fun x => x) rfl).symm) rfl
    (flight_ok fun x => ⟨rfl, rfl, rfl⟩) (by simp) (by simp)
  exact this

/-- The latch of a product in LEAD's stream (R86). -/
def productLatch (s : State) (c : CoreId) (e : Engine) (d : RegCode) (v : W64) : Latch :=
  { eng := e, code := d, q := 0, due := (s.cluster c.cluster).clk + 2, val := v.setWidth 8192
    pitch := (nextOf s c e).pos.pitch, word := (nextOf s c e).pos.off, at_ := (s.cluster c.cluster).clk, work := false }

/-- A product: at once where the word is untimed, two ticks after issue where it is timed. -/
theorem exec_product {s : State} {c : CoreId} {e : Engine} {i : Instr} (h : issues s c e i = true) (hf : rdvFormOf i = none)
    {lates : List (Nat × Nat)} {d : RegCode} {v : W64} (hp : planOf i (ctxOf s c e i) = planProduct (ctxOf s c e i) lates d v)
    (hl : lates = []) (hd : pendingReg (s.core c) e d = false) :
    exec i s = .next (coreNext s c e fun x => if timedAt s c e then { x with latches := x.latches ++ [productLatch s c e d v] }
      else writeReg e d v x) := by
  subst hl
  rcases turn_cases (issues_iff.mp h).1 with ⟨-, ht⟩ | ⟨-, ht⟩
  · rw [planProduct, show (ctxOf s c e i).timed = false from ht, if_neg (by simp)] at hp
    rw [exec_reg h hf hp rfl hd]; simp [ht]
  · rw [planProduct, show (ctxOf s c e i).timed = true from ht, if_pos rfl, writePending_go (k := ctxOf s c e i) _ hd] at hp
    simp only [ht, if_true]
    refine exec_core h hf _ _ hp rfl rfl rfl rfl rfl rfl rfl (fun x => ⟨rfl, rfl, fun q l hl => ?_⟩) List.nodup_nil (by simp)
    rcases List.mem_append.mp hl with hl | hl
    · exact q l hl
    · rw [List.mem_singleton.mp hl]; simp [productLatch]

/-! ### Untimed words -/

/-- An untimed word whose plan takes place at once. -/
theorem exec_untimed {s : State} {c : CoreId} {e : Engine} {i : Instr} (h : untimedGo s c e i = true) (p : Plan)
    (hp : planOf i (ctxOf s c e i) = p) (hl : p.lates = []) (hc : p.causes = []) (hft : p.fault = none) :
    exec i s = done (p.after (p.act (s.modCore c (movedOn s c e p.idle p.skip)))) := by
  obtain ⟨h1, h2⟩ := untimedGo_iff.mp h
  rw [exec_word i s (toFields_of_turn (issues_iff.mp (issues_of_untimedGo h)).1), untimed_one h1 p ((planBehind_go h2).trans hp) hl hc hft]

/-- An access that brings bytes: the word issues, and uses what the access brings where the word takes place. -/
theorem planGot_bytes {k : Ctx} {lates : List (Nat × Nat)} {g : State → Got} {use : List Byte → State → State} {l : List Byte}
    {t : State} (hl : lates = []) (hg : g k.s = .bytes l t) :
    (planGot k lates g use).lates = [] ∧ (planGot k lates g use).causes = [] ∧ (planGot k lates g use).fault = none ∧
    (planGot k lates g use).idle = 0 ∧ (planGot k lates g use).skip = none ∧ (planGot k lates g use).after = id ∧
    ∀ u l' u', g u = .bytes l' u' → (planGot k lates g use).act u = use l' u' := by
  subst hl
  simp only [planGot, List.isEmpty_nil, if_true, hg, true_and]
  intro u l' u' hu
  simp only [hu]

end Sys2Proof.Machine
end

