-- ==== Sys2Proof/Laws/Reads.lean ====
section
/-! SUPPORT. What memory reads as depends on memory, the faces and the keys alone. -/

namespace Sys2Proof.Machine

/-- A state with everything but memory, faces and keys taken from another. -/
def memOver (s b : State) : State := { b with mem := s.mem, l2 := s.l2, keys := s.keys }

theorem claimLine_memOver (s b : State) (v : World) (line : Nat) : claimLine (memOver s b) v line = memOver (claimLine s v line) b := by
  have hk : keyNum (memOver s b) v = keyNum s v := rfl
  have hl : (memOver s b).mem = s.mem := rfl
  have hr : hbmLineFor (memOver s b) v line = hbmLineFor s v line := rfl
  unfold claimLine
  rw [hk, hl, hr]
  split <;> rfl

theorem hbmStore_memOver (b : State) (v : World) (l : List Host.Cell) (s : State) :
    hbmStore v l (memOver s b) = memOver (hbmStore v l s) b := by
  induction l generalizing s with
  | nil => rfl
  | cons x r ih =>
    obtain ⟨a, y⟩ := x
    simp only [hbmStore, claimLine_memOver]
    generalize claimLine s v (a / 128) = u
    exact ih { u with mem := { u.mem with hbm := sput 0 u.mem.hbm a y } }

theorem hbmPut_memOver (b : State) (v : World) (l : List Host.Cell) (s : State) :
    hbmPut v l (memOver s b) = memOver (hbmPut v l s) b := by
  unfold hbmPut
  rw [hbmStore_memOver]
  rfl

theorem writeBack_memOver (s b : State) (f : Fin 4) (line : Nat) : writeBack (memOver s b) f line = memOver (writeBack s f line) b := by
  have hg : l2Get (memOver s b) f line = l2Get s f line := rfl
  unfold writeBack
  rw [hg]
  cases l2Get s f line with
  | none => rfl
  | some x =>
    have hk : keyNum (memOver s b) x.world = keyNum s x.world := rfl
    dsimp only
    rw [hk, hbmPut_memOver]
    split
    · rfl
    · split <;> rfl

theorem engineByte_memOver (s b : State) (f : Fin 4) (v : World) (pa : Nat) : engineByte (memOver s b) f v pa = engineByte s f v pa := by
  have hl : (memOver s b).mem = s.mem := rfl
  have hg : l2Get (memOver s b) f (pa / 128) = l2Get s f (pa / 128) := rfl
  have hk : keyNum (memOver s b) v = keyNum s v := rfl
  have hb : ∀ u : State, hbmLineFor (memOver u b) v (pa / 128) = hbmLineFor u v (pa / 128) := fun _ => rfl
  have hn : ∀ u : State, hbmBad (memOver u b) (pa / 128) = hbmBad u (pa / 128) := fun _ => rfl
  unfold engineByte lineForEngine
  rw [hl, hg, hk, writeBack_memOver]
  cases l2Get s f (pa / 128) with
  | none => simp only [hb, hn]
  | some x =>
    by_cases hx : x.key = keyNum s v
    · simp only [if_pos hx]
    · simp only [if_neg hx, hb, hn]

/-- Memory reads the same in two states that agree on memory, the faces and the keys. -/
theorem seesByte_congr {s t : State} (hm : t.mem = s.mem) (hl : t.l2 = s.l2) (hk : t.keys = s.keys) (f : Fin 4) (v : World) (pa : Nat) :
    seesByte t f v pa = seesByte s f v pa := by
  have : t = memOver s t := by unfold memOver; rw [← hm, ← hl, ← hk]
  unfold seesByte
  rw [this, engineByte_memOver]

theorem sameMemory_of {s t : State} (hm : t.mem = s.mem) (hl : t.l2 = s.l2) (hk : t.keys = s.keys) : SameMemory s t :=
  ⟨hm, hl, seesByte_congr hm hl hk⟩

end Sys2Proof.Machine
end

