-- ==== Sys2Proof/Laws/Frame.lean ====
section
/-! SUPPORT. What moving past a word leaves unchanged, and what a whole word leaves unchanged outside its core. -/

namespace Sys2Proof.Machine

theorem putBit_get {w : Nat} (y : BitVec w) (i j : Nat) (hi : i < w) (hj : j < w) (b : Bool) :
    (putBit y i b).getLsbD j = if j = i then b else y.getLsbD j := by
  unfold putBit
  cases b <;> simp only [if_true, Bool.false_eq_true, if_false, BitVec.getLsbD_or, BitVec.getLsbD_and, BitVec.getLsbD_not, BitVec.getLsbD_shiftLeft, BitVec.getLsbD_ofNat]
  all_goals
    by_cases h : j = i
    · subst h; simp [hj]; try omega
    · by_cases h2 : j < i
      · simp [h, hj, h2]
      · have : j - i ≠ 0 := by omega
        have : Nat.testBit 1 (j - i) = false := by
          rw [Bool.eq_false_iff]; intro hb
          exact this (Nat.testBit_one_eq_true_iff_self_eq_zero.mp hb)
        simp [h, hj, this]

theorem stream_modStream_other (x : Core) (e g : Engine) (f : Stream → Stream) (h : g ≠ e) : (x.modStream e f).stream g = x.stream g := by
  revert h; cases e <;> cases g <;> intro h <;> first | exact absurd rfl h | (simp [Core.modStream, Core.stream, engIdx])

theorem resolveLoops_none (e : Engine) (off n : Nat) (x : Core) (h : ∀ i < n, ¬ ((levelOf (x.stream e) i).act = true ∧ (levelOf (x.stream e) i).last = off)) :
    resolveLoops e off n x = (x, none) := by
  induction n with
  | zero => rfl
  | succ n ih =>
    have := h n (by omega)
    unfold resolveLoops
    dsimp only
    rw [if_neg (by simpa using this)]
    exact ih fun i hi => h i (by omega)

theorem otherStreams_trans {e x y z} (h : OtherStreams e x y) (h' : OtherStreams e y z) : OtherStreams e x z :=
  fun g hg => (h' g hg).trans (h g hg)

theorem other_modStream (x : Core) (e : Engine) (f : Stream → Stream) : OtherStreams e x (x.modStream e f) :=
  fun g hg => stream_modStream_other x e g f hg

theorem other_writeSlot (e : Engine) (i : Nat) (b : Bool) (x : Core) : OtherStreams e x (writeSlot false i b x) := fun _ _ => rfl

theorem other_shiftSlots (e : Engine) (pf n : Nat) (x : Core) : OtherStreams e x (shiftSlots pf n x) := by
  induction n generalizing x with
  | zero => exact fun _ _ => rfl
  | succ n ih => exact otherStreams_trans (other_writeSlot e _ _ _) (ih _)

theorem other_backEdge (e : Engine) (l : Level) (x : Core) : OtherStreams e x (backEdge e l x) := by
  unfold backEdge
  dsimp only
  split
  · exact otherStreams_trans (otherStreams_trans (other_modStream x e _) (other_shiftSlots e _ _ _)) (other_writeSlot e _ _ _)
  · exact other_modStream x e _

theorem other_resolveLoops (e : Engine) (off n : Nat) (x : Core) : OtherStreams e x (resolveLoops e off n x).1 := by
  induction n generalizing x with
  | zero => exact fun _ _ => rfl
  | succ n ih =>
    unfold resolveLoops
    dsimp only
    split
    · split
      · exact otherStreams_trans (other_modStream x e _) (other_backEdge e _ _)
      · exact otherStreams_trans (other_modStream x e _) (ih _)
    · exact ih x

theorem other_movedOn (s : State) (c : CoreId) (e : Engine) (n : Nat) (sk : Option Nat) (x : Core) : OtherStreams e x (movedOn s c e n sk x) := by
  unfold movedOn advance
  split
  · unfold setPos
    split
    · exact fun _ _ => rfl
    · split
      · exact fun _ _ => rfl
      · exact other_modStream _ _ _
  · unfold advanceJob
    cases sk with
    | none => exact otherStreams_trans (other_resolveLoops e _ 4 x) (other_modStream _ e _)
    | some l => exact other_modStream _ e _

theorem movedOn_scal (s : State) (c : CoreId) (e : Engine) (n : Nat) (h : endsNoLoop s c e = true) :
    (movedOn s c e n none (s.core c)).scal = (s.core c).scal := by
  unfold movedOn advance
  split
  · unfold setPos
    split
    · rfl
    · split <;> rfl
  · unfold advanceJob
    dsimp only
    rw [resolveLoops_none]
    · rfl
    · intro i hi hh
      have := List.all_eq_true.mp h i (List.mem_range.mpr hi)
      simp only [hh.1, hh.2, decide_true, Bool.and_true, Bool.not_true] at this
      cases this

/-- What `coreNext` leaves alone, and the core that it leaves. -/
theorem coreNext_frame {s : State} {c : CoreId} {e : Engine} (g : Core → Core) :
    OthersSame c s (coreNext s c e g) ∧ ClustersKept c.cluster s (coreNext s c e g) ∧ PackageSame s (coreNext s c e g) ∧
    (coreNext s c e g).core c = g (movedOn s c e 0 none (s.core c)) := by
  unfold coreNext endWord
  split
  · refine ⟨fun d hd => ?_, ⟨fun j hj => ?_, .inr ?_⟩, ⟨rfl, sameMemory_of rfl rfl rfl⟩, ?_⟩
    · rw [State.core_modCluster, State.core_modCore_other _ _ _ _ hd]
    · rw [State.cluster_modCluster_other _ _ _ _ hj]; rfl
    · rw [State.cluster_modCluster_same]; rfl
    · rw [State.core_modCluster]; simp
  · refine ⟨fun d hd => ?_, ⟨fun j hj => rfl, .inl rfl⟩, ⟨rfl, sameMemory_of rfl rfl rfl⟩, ?_⟩
    · rw [State.core_modCore_other _ _ _ _ hd]
    · simp

theorem scalarsOnly_movedOn (s : State) (c : CoreId) (e : Engine) (n : Nat) (sk : Option Nat) (x : Core) : ScalarsOnly x (movedOn s c e n sk x) := by
  obtain ⟨y, ⟨a, b, d, rfl⟩, hp, up, h⟩ := movedOn_eq s c e n sk x
  unfold ScalarsOnly; rw [h]

theorem regsSame_movedOn (s : State) (c : CoreId) (e : Engine) (n : Nat) (sk : Option Nat) (x : Core) : RegsSame x (movedOn s c e n sk x) ∧
   (movedOn s c e n sk x).scal.hv = x.scal.hv ∧ (movedOn s c e n sk x).scal.hw = x.scal.hw ∧ (movedOn s c e n sk x).trap.handler = x.trap.handler ∧ (movedOn s c e n sk x).ap.inUi = x.ap.inUi:= by
  obtain ⟨y, ⟨a, b, d, rfl⟩, hp, up, h⟩ := movedOn_eq s c e n sk x
  unfold RegsSame; rw [h]; simp

theorem vset_get {α} {n} (v : Vector α n) (i : Nat) (x : α) (j : Fin n) : (vset v i x)[j] = if j.val = i then x else v[j] := by
  unfold vset
  rw [Fin.getElem_fin, Vector.getElem_setIfInBounds]
  simp [eq_comm]

end Sys2Proof.Machine
end

