-- ==== Sys2Proof/Laws/Access.lean ====
section
/-! SUPPORT. A translation only fills the TLB and the walk cache of its AP. -/

namespace Sys2Proof.Machine

/-- A state that differs in the TLB and the walk cache of one AP. -/
def TlbFilled (c : CoreId) (s t : State) : Prop :=
  ∃ l w, t = s.modCore c fun x => { x with ap := { x.ap with tlb := l, walks := w } }

theorem TlbFilled.refl (c : CoreId) (s : State) : TlbFilled c s s :=
  ⟨(s.core c).ap.tlb, (s.core c).ap.walks, (State.modCore_self s c _ rfl).symm⟩

theorem TlbFilled.trans {c : CoreId} {s t u : State} (h : TlbFilled c s t) (h' : TlbFilled c t u) : TlbFilled c s u := by
  obtain ⟨l, w, rfl⟩ := h
  obtain ⟨l', w', rfl⟩ := h'
  exact ⟨l', w', by rw [State.modCore_modCore]⟩

theorem translate_filled {s t : State} {c : CoreId} {va n : Nat} {acc : Access} {p : Piece}
    (h : translate s c va n acc = .ok (p, t)) :
    TlbFilled c s t := by
  unfold translate at h
  dsimp only at h
  split at h
  · cases h
  · split at h
    · split at h
      · cases h
      · cases h; exact .refl c s
    · split at h
      · cases h
      · split at h
        · cases h
        · next e ws _ _ _ =>
          cases h
          exact ⟨_, _, rfl⟩

theorem translateParts_filled {c : CoreId} {acc : Access} {l : List (Nat × Nat)} {s t : State} {ps : List Piece}
    (h : translateParts c acc l s = .ok (ps, t)) : TlbFilled c s t := by
  induction l generalizing s t ps with
  | nil => simp only [translateParts] at h; cases h; exact .refl c s
  | cons a r ih =>
    obtain ⟨va, n⟩ := a
    simp only [translateParts] at h
    split at h
    · cases h
    · next pa u hu =>
      split at h
      · cases h
      · next ps' v hv =>
          cases h
          exact (translate_filled hu).trans (ih hv)

theorem translateRange_filled {s t : State} {c : CoreId} {va n : Nat} {acc : Access} {ps : List Piece}
    (h : translateRange s c va n acc = .ok (ps, t)) : TlbFilled c s t := translateParts_filled h

theorem TlbFilled.core_other {c d : CoreId} {s t : State} (h : TlbFilled c s t) (hd : d ≠ c) : t.core d = s.core d := by
  obtain ⟨l, w, rfl⟩ := h
  exact State.core_modCore_other _ _ _ _ hd

theorem TlbFilled.mem {c : CoreId} {s t : State} (h : TlbFilled c s t) :
    t.mem = s.mem ∧ t.l2 = s.l2 ∧ t.keys = s.keys ∧ t.regq = s.regq := by
  obtain ⟨l, w, rfl⟩ := h
  exact ⟨rfl, rfl, rfl, rfl⟩

end Sys2Proof.Machine
end

