-- ==== Sys2Proof/Laws/Cairn.lean ====
section
/-! SUPPORT. Cairn words: a word's effect in a run is that of the instruction it decodes to, and a step of a cairn core is
`exec` of the decoded word. -/

namespace Sys2Proof.Machine

/-- The instruction that the fields name has, as `exec` gives it, the effect that a run gives the word (R376, R379). -/
theorem exec_ofCairn (x : CairnFld) (i : Instr) (s : State) (h : ofCairn x = some i) :
    exec i s = done (onCairn (cairnAct x) s) := by
  obtain ⟨op, b, d, a, r, m, imm⟩ := x
  simp only [ofCairn, cairnAct] at h ⊢
  generalize op.toNat = n at h ⊢
  split at h
  · next h1 =>
    simp only [h1, if_true]
    cases b <;> simp only [Bool.false_eq_true, if_false, if_true] at h ⊢
    · unfold cairn3 at h; unfold act3
      split at h <;> first | (injection h with h; subst h; rfl) | contradiction
    · unfold cairnI at h; unfold actI
      split at h <;> first | (injection h with h; subst h; rfl) | contradiction
  · next h1 =>
    simp only [h1, if_false]
    split at h
    · next h2 =>
      simp only [h2, if_true]
      unfold cairn3 at h; unfold act3
      split at h <;> first | (injection h with h; subst h; rfl) | contradiction
    · next h2 =>
      simp only [h2, if_false]
      split at h
      · next h3 =>
        simp only [h3, if_true]
        cases b <;> simp only [Bool.false_eq_true, if_false, if_true] at h ⊢
        · unfold cairnCmp at h; unfold actCmp
          split at h <;> first | (injection h with h; subst h; rfl) | contradiction
        · unfold cairnCmpI at h; unfold actCmpI
          split at h <;> first | (injection h with h; subst h; rfl) | contradiction
      · next h3 =>
        simp only [h3, if_false]
        split at h
        all_goals first
          | (injection h with h; subst h; rfl)
          | (cases b <;> (injection h with h; subst h; rfl))
          | (split at h <;> first | (next hn => injection h with h; subst h; simp only [hn]; rfl) | contradiction)
          | contradiction

/-- The instruction that a word decodes to has the effect that a run gives the word. -/
theorem exec_decodeCairn (w : W32) (i : Instr) (s : State) (h : decodeCairn w = .ok i) :
    exec i s = done (onCairn (cairnAct (unpackCairn w)) s) := by
  unfold decodeCairn at h
  split at h
  · next j hj =>
    split at h
    · injection h with h; subst h; exact exec_ofCairn _ _ s hj
    · contradiction
  · contradiction

/-- A step of a cairn core whose run stands at a word that decodes is `exec` of the decoded instruction, with that core as
its issuer (R376). -/
theorem step_cairn (k : Fin 64) (s : State) (r : Run) (i : Instr) (hr : runOn s k = some r) (he : runEnded r = false)
    (hd : decodeCairn (r.m.k.kernel.getD r.pc 0) = .ok i) :
    stepCairn k s = exec i { s with issuer := .cairn k } := by
  have hr' : runOn { s with issuer := Issuer.cairn k } k = some r := hr
  rw [exec_decodeCairn _ i _ hd]
  simp only [stepCairn, hr', he, Bool.false_eq_true, if_false, cairnNext, onCairn]

end Sys2Proof.Machine
end

