-- ==== Sys2Proof/Laws/Lines.lean ====
section
/-! SUPPORT. What one line of memory reads as, and which operations leave it alone. -/

namespace Sys2Proof.Machine

/-! ### The faces -/

theorem l2Get_l2Put_same (s : State) (f : Fin 4) (line : Nat) (x : Option L2Line) (h : swf none s.l2[f] = true) :
    l2Get (l2Put s f line x) f line = x := by
  simp only [l2Get, l2Put, Fin.getElem_fin, Vector.getElem_set_self]
  exact sget_sput_same none _ line x h

theorem l2Get_l2Put_line (s : State) (f g : Fin 4) (line other : Nat) (x : Option L2Line) (h : other ≠ line) :
    l2Get (l2Put s f line x) g other = l2Get s g other := by
  simp only [l2Get, l2Put, Fin.getElem_fin, Vector.getElem_set]
  split
  · next hfg => rw [sget_sput_other none _ line other x h]; simp only [hfg]
  · rfl

theorem l2Get_l2Put_face (s : State) (f g : Fin 4) (line other : Nat) (x : Option L2Line) (h : g ≠ f) :
    l2Get (l2Put s f line x) g other = l2Get s g other := by
  simp only [l2Get, l2Put, Fin.getElem_fin, Vector.getElem_set]
  rw [if_neg fun he => h (Fin.ext he.symm)]

theorem claimLine_l2 (s : State) (v : World) (line : Nat) : (claimLine s v line).l2 = s.l2 := by
  unfold claimLine; split <;> rfl

theorem claimLine_keys (s : State) (v : World) (line : Nat) : (claimLine s v line).keys = s.keys := by
  unfold claimLine; split <;> rfl

theorem hbmStore_l2 (v : World) (cells : List Host.Cell) (s : State) :
    (hbmStore v cells s).l2 = s.l2 ∧ (hbmStore v cells s).keys = s.keys := by
  induction cells generalizing s with
  | nil => exact ⟨rfl, rfl⟩
  | cons e r ih =>
    obtain ⟨a, b⟩ := e
    simp only [hbmStore]
    exact ⟨(ih _).1.trans (claimLine_l2 s v _), (ih _).2.trans (claimLine_keys s v _)⟩

@[simp] theorem hbmPut_l2 (v : World) (cells : List Host.Cell) (s : State) : (hbmPut v cells s).l2 = s.l2 := (hbmStore_l2 v cells s).1

@[simp] theorem hbmPut_keys (v : World) (cells : List Host.Cell) (s : State) : (hbmPut v cells s).keys = s.keys :=
  (hbmStore_l2 v cells s).2

/-! ### One line -/

/-- Two states in which a line, its key, its poison and every face's copy of it are the same. -/
structure LineAgree (line : Nat) (s t : State) : Prop where
  keys : t.keys = s.keys
  bytes : ∀ a, a / 128 = line → sget 0 t.mem.hbm a = sget 0 s.mem.hbm a
  key : sget 0 t.mem.lineKey line = sget 0 s.mem.lineKey line
  poison : ∀ u, u / 2 = line → sget false t.mem.poison u = sget false s.mem.poison u
  held : ∀ f, l2Get t f line = l2Get s f line
  host : t.mem.host = s.mem.host

theorem LineAgree.refl (line : Nat) (s : State) : LineAgree line s s :=
  ⟨rfl, fun _ _ => rfl, rfl, fun _ _ => rfl, fun _ => rfl, rfl⟩

theorem LineAgree.trans {line : Nat} {s t u : State} (h : LineAgree line s t) (h' : LineAgree line t u) : LineAgree line s u :=
  ⟨h'.keys.trans h.keys, fun a ha => (h'.bytes a ha).trans (h.bytes a ha), h'.key.trans h.key,
    fun a ha => (h'.poison a ha).trans (h.poison a ha), fun f => (h'.held f).trans (h.held f), h'.host.trans h.host⟩

theorem LineAgree.keyNum {line : Nat} {s t : State} (h : LineAgree line s t) (v : World) : keyNum t v = keyNum s v := by
  unfold Machine.keyNum; rw [h.keys]

theorem LineAgree.keyAt {line : Nat} {s t : State} (h : LineAgree line s t) (n : Nat) : keyAt t n = keyAt s n := by
  unfold Machine.keyAt; rw [h.keys]

theorem LineAgree.row {line : Nat} {s t : State} (h : LineAgree line s t) : hbmRow t line = hbmRow s line := by
  unfold hbmRow
  rw [sgets_eq, sgets_eq]
  congr 1
  refine List.map_congr_left fun i hi => h.bytes _ ?_
  have := List.mem_range.mp hi
  omega

theorem LineAgree.lineFor {line : Nat} {s t : State} (h : LineAgree line s t) (v : World) :
    hbmLineFor t v line = hbmLineFor s v line := by
  unfold hbmLineFor; simp only [h.key, h.keyNum, h.row, h.keyAt, h.keys]

theorem LineAgree.bad {line : Nat} {s t : State} (h : LineAgree line s t) : hbmBad t line = hbmBad s line := by
  unfold hbmBad; rw [h.poison _ (by omega), h.poison _ (by omega)]

/-! ### Operations on other lines -/

theorem lineAgree_claimLine (line other : Nat) (v : World) (s : State) (h : other ≠ line) : LineAgree line s (claimLine s v other) := by
  unfold claimLine
  split
  · exact .refl line s
  · have hlen : (if (hbmLineFor s v other).2 then List.replicate 128 (0 : Byte) else rowBytes (hbmLineFor s v other).1).length = 128 := by
      have : ∀ n x, (bytesOfNat n x).length = n := by
        intro n
        induction n with
        | zero => intro x; rfl
        | succ n ih => intro x; simp [bytesOfNat, ih]
      split
      · simp
      · exact this 128 _
    refine ⟨rfl, fun a ha => ?_, ?_, fun _ _ => rfl, fun _ => rfl, rfl⟩
    · refine sget_sputs_outside 0 _ _ _ a ?_
      rw [hlen]; omega
    · exact sget_sput_other 0 _ other line _ (Ne.symm h)

theorem lineAgree_hbmStore (line : Nat) (v : World) (cells : List Host.Cell) (s : State) (h : ∀ c ∈ cells, c.1 / 128 ≠ line) :
    LineAgree line s (hbmStore v cells s) := by
  induction cells generalizing s with
  | nil => exact .refl line s
  | cons e r ih =>
    obtain ⟨a, b⟩ := e
    have ha : a / 128 ≠ line := h (a, b) (by simp)
    simp only [hbmStore]
    refine (lineAgree_claimLine line (a / 128) v s ha).trans ?_
    generalize claimLine s v (a / 128) = u
    have hu : LineAgree line u { u with mem := { u.mem with hbm := sput 0 u.mem.hbm a b } } :=
      ⟨rfl, fun x hx => sget_sput_other 0 _ a x b fun he => ha (he ▸ hx), rfl, fun _ _ => rfl, fun _ => rfl, rfl⟩
    exact hu.trans (ih _ fun c hc => h c (by simp [hc]))

/-- Cells of other lines cover no unit of a line. -/
theorem coversUnit_other (cells : List Host.Cell) (u line : Nat) (hu : u / 2 = line) (h : ∀ c ∈ cells, c.1 / 128 ≠ line) :
    coversUnit cells u = false := by
  refine List.all_eq_false.mpr ⟨0, by simp, ?_⟩
  simp only [List.any_eq_true, decide_eq_true_eq, not_exists, not_and]
  intro c hc he
  exact h c hc (by omega)

theorem lineAgree_hbmPut (line : Nat) (v : World) (cells : List Host.Cell) (s : State) (h : ∀ c ∈ cells, c.1 / 128 ≠ line) :
    LineAgree line s (hbmPut v cells s) := by
  refine (lineAgree_hbmStore line v cells s h).trans ⟨rfl, fun _ _ => rfl, rfl, fun u hu => ?_, fun _ => rfl, rfl⟩
  refine sget_filter_keep false _ _ u fun v => ?_
  simp [coversUnit_other cells u line hu h]

theorem lineAgree_l2Put (line other : Nat) (s : State) (f : Fin 4) (x : Option L2Line) (h : other ≠ line) :
    LineAgree line s (l2Put s f other x) :=
  ⟨rfl, fun _ _ => rfl, rfl, fun _ _ => rfl, fun g => l2Get_l2Put_line s f g other line x (Ne.symm h), rfl⟩

theorem dirtyCells_line (line : Nat) (x : L2Line) : ∀ c ∈ dirtyCells line x, c.1 / 128 = line := by
  intro c hc
  obtain ⟨i, hi, he⟩ := List.mem_filterMap.mp hc
  have := List.mem_range.mp hi
  split at he
  · cases he; show (128 * line + i) / 128 = line; omega
  · cases he

theorem lineAgree_writeBack (line other : Nat) (s : State) (f : Fin 4) (h : other ≠ line) : LineAgree line s (writeBack s f other) := by
  unfold writeBack
  split
  · exact .refl line s
  · split
    · exact .refl line s
    · split
      · exact lineAgree_l2Put line other s f none h
      · refine (lineAgree_hbmPut line _ _ s fun c hc => ?_).trans (lineAgree_l2Put line other _ f _ h)
        rw [dirtyCells_line other _ c hc]; exact h

theorem lineAgree_evictLine (line other : Nat) (s : State) (f : Fin 4) (h : other ≠ line) : LineAgree line s (evictLine s f other) :=
  (lineAgree_writeBack line other s f h).trans (lineAgree_l2Put line other _ f none h)

theorem lineAgree_l2Fill (line other : Nat) (s : State) (f : Fin 4) (v : World) (h : other ≠ line) :
    LineAgree line s (l2Fill s f v other).2.2 := by
  simp only [l2Fill]
  split
  · exact .refl line s
  · exact lineAgree_l2Put line other s f _ h

theorem lineAgree_l2Read (line other : Nat) (s : State) (f : Fin 4) (v : World) (h : other ≠ line) :
    LineAgree line s (l2Read s f v other).2.2 := by
  unfold l2Read
  split
  · split
    · exact .refl line s
    · exact (lineAgree_evictLine line other s f h).trans (lineAgree_l2Fill line other _ f v h)
  · exact lineAgree_l2Fill line other s f v h

theorem lineAgree_l2WriteByte (line : Nat) (s : State) (f : Fin 4) (v : World) (a : Nat) (b : Byte) (h : a / 128 ≠ line) :
    LineAgree line s (l2WriteByte s f v a b) :=
  (lineAgree_l2Read line (a / 128) s f v h).trans (lineAgree_l2Put line (a / 128) _ f _ h)

/-! ### Reading a line in two states that agree on it -/

theorem LineAgree.store {line : Nat} (v : World) (cells : List Host.Cell) (hc : ∀ c ∈ cells, c.1 / 128 = line) {s t : State}
    (h : LineAgree line s t) (hs : s.memOk) (ht : t.memOk) : LineAgree line (hbmStore v cells s) (hbmStore v cells t) := by
  induction cells generalizing s t with
  | nil => exact h
  | cons e r ih =>
    obtain ⟨a, b⟩ := e
    have ha : a / 128 = line := hc (a, b) (by simp)
    simp only [hbmStore, ha]
    have hcs := memOk_claimLine s v line hs
    have hct := memOk_claimLine t v line ht
    have hcl : LineAgree line (claimLine s v line) (claimLine t v line) := by
      unfold claimLine
      rw [h.key, h.keyNum, h.lineFor]
      split
      · exact h
      · have hlen : (if (hbmLineFor s v line).2 then List.replicate 128 (0 : Byte) else rowBytes (hbmLineFor s v line).1).length = 128 := by
          have : ∀ n x, (bytesOfNat n x).length = n := by
            intro n
            induction n with
            | zero => intro x; rfl
            | succ n ih => intro x; simp [bytesOfNat, ih]
          split
          · simp
          · exact this 128 _
        refine ⟨h.keys, fun x hx => ?_, ?_, h.poison, h.held, h.host⟩
        · have hx2 : 128 * line + (x - 128 * line) = x := by omega
          have := fun m : Sparse Byte => sget_sputs_inside 0 m (128 * line)
            (if (hbmLineFor s v line).2 then List.replicate 128 (0 : Byte) else rowBytes (hbmLineFor s v line).1) (x - 128 * line)
            (by rw [hlen]; omega)
          rw [hx2] at this
          exact (this _).trans (this _).symm
        · have h1 := sget_sput_same 0 t.mem.lineKey line (Machine.keyNum s v) ((Memory.wf_iff _).mp ht.1).2.1
          have h2 := sget_sput_same 0 s.mem.lineKey line (Machine.keyNum s v) ((Memory.wf_iff _).mp hs.1).2.1
          exact h1.trans h2.symm
    refine ih (fun c hc' => hc c (by simp [hc'])) ⟨hcl.keys, fun x hx => ?_, hcl.key, hcl.poison, hcl.held, hcl.host⟩ ?_ ?_
    · by_cases hxa : x = a
      · subst hxa
        have h1 := sget_sput_same 0 _ x b ((Memory.wf_iff _).mp hct.1).1
        have h2 := sget_sput_same 0 _ x b ((Memory.wf_iff _).mp hcs.1).1
        exact h1.trans h2.symm
      · have h1 := sget_sput_other 0 (claimLine t v line).mem.hbm a x b hxa
        have h2 := sget_sput_other 0 (claimLine s v line).mem.hbm a x b hxa
        exact h1.trans ((hcl.bytes x hx).trans h2.symm)
    · have hm := (Memory.wf_iff _).mp hcs.1
      exact ⟨(Memory.wf_iff _).mpr ⟨swf_sput _ _ _ _ hm.1, hm.2⟩, hcs.2⟩
    · have hm := (Memory.wf_iff _).mp hct.1
      exact ⟨(Memory.wf_iff _).mpr ⟨swf_sput _ _ _ _ hm.1, hm.2⟩, hct.2⟩

theorem LineAgree.put {line : Nat} (v : World) (cells : List Host.Cell) (hc : ∀ c ∈ cells, c.1 / 128 = line) {s t : State}
    (h : LineAgree line s t) (hs : s.memOk) (ht : t.memOk) : LineAgree line (hbmPut v cells s) (hbmPut v cells t) := by
  have h1 := h.store v cells hc hs ht
  refine ⟨h1.keys, h1.bytes, h1.key, fun u hu => ?_, h1.held, h1.host⟩
  have hf := fun m : Sparse Bool => sget_filter_key false (fun x => !coversUnit cells x) m u
  refine (hf _).trans ?_
  rw [h1.poison u hu]
  exact (hf _).symm

theorem LineAgree.back {line : Nat} {s t : State} (h : LineAgree line s t) (hs : s.memOk) (ht : t.memOk) (f : Fin 4) :
    LineAgree line (writeBack s f line) (writeBack t f line) := by
  have hput : ∀ {a b : State} (x : Option L2Line), LineAgree line a b → a.memOk → b.memOk →
      LineAgree line (l2Put a f line x) (l2Put b f line x) := by
    intro a b x hab ha hb
    refine ⟨hab.keys, hab.bytes, hab.key, hab.poison, fun g => ?_, hab.host⟩
    by_cases hg : g = f
    · subst hg; rw [l2Get_l2Put_same _ _ _ _ (ha.2 g), l2Get_l2Put_same _ _ _ _ (hb.2 g)]
    · rw [l2Get_l2Put_face _ _ _ _ _ _ hg, l2Get_l2Put_face _ _ _ _ _ _ hg, hab.held g]
  unfold writeBack
  rw [h.held f]
  cases l2Get s f line with
  | none => exact h
  | some x =>
    dsimp only
    rw [h.keyNum]
    split
    · exact h
    · split
      · exact hput none h hs ht
      · exact hput _ (h.put x.world _ (dirtyCells_line line x) hs ht) (memOk_hbmPut _ _ _ hs) (memOk_hbmPut _ _ _ ht)

/-- A byte of a line reads the same in two states that agree on the line. -/
theorem LineAgree.sees {s t : State} {pa : Nat} (h : LineAgree (pa / 128) s t) (hs : s.memOk) (ht : t.memOk) (f : Fin 4) (v : World) :
    seesByte t f v pa = seesByte s f v pa := by
  have hb := h.back hs ht f
  unfold seesByte engineByte lineForEngine
  rw [h.host, h.held f, h.keyNum]
  cases l2Get s f (pa / 128) with
  | none => simp only [h.lineFor, h.bad]
  | some x =>
    dsimp only
    by_cases hx : x.key = Machine.keyNum s v
    · simp only [if_pos hx]
    · simp only [if_neg hx, hb.lineFor, hb.bad]

end Sys2Proof.Machine
end

