-- ==== Sys2Proof/Tests/Slice0.lean ====
section
/-! SUPPORT. Tests: words written out from the manual's encodings and examples, ill-formed terms that each check of
WellFormed refuses, steps on small states, and for every statement a state that meets its hypotheses. -/

set_option Elab.async false

namespace Sys2Proof.Tests

open Sys2Proof Sys2Proof.Machine Sys2Proof.Claims

/-! ### Small states -/

/-- The fields of a word without a guard. -/
def fld (dly : BitVec 8) (d a b c : RegCode) (imm : BitVec 36) : Fld := { h := { dly, g := 15, gs := false }, d, a, b, c, imm }

/-- The places of the engines, and of the two handlers. -/
def pLead : Where := Where.plain .lead
def pAp : Where := Where.plain .ap
def pTrap : Where := { eng := .lead, first := false, trap := true, intr := false }
def pIntr : Where := { eng := .ap, first := false, trap := false, intr := true }
def pFirst (e : Engine) : Where := { eng := e, first := true, trap := false, intr := false }

/-- The reset state with a word next in a place of core 0, its turn come, and the core changed. -/
def stateAt (p : Where) (i : Instr) (f : Core → Core) : State :=
  let x := (encodeWord i).getD 0
  let s := State.reset.modCore 0 fun y =>
    let y := f (coreWith p x 0 y)
    if p.trap then { y with trap := { y.trap with handler := true, hpos := posWith, hbuf := bufWith x } } else y
  let s := s.modCluster 0 fun k => { k with clk := dlyOf x }
  { s with issuer := .eng 0 p.eng, sched := [.word 0 p.eng] }

/-- The word issues in its place, and the registers and slots it names are ready. -/
def issuesAt (p : Where) (i : Instr) (regs slots : List RegCode) : Bool :=
  let s := stateAt p i fun y => y
  issues s 0 p.eng i && regsReady s 0 p.eng regs && slotsReady s 0 p.eng slots

/-- An untimed word goes in its place, on a core that has been changed. -/
def goesAt (p : Where) (i : Instr) (f : Core → Core) : Bool := untimedGo (stateAt p i f) 0 p.eng i

/-- What a step leads to, read by a function. -/
def after {α : Type} (r : Result) (f : State → α) : Option α :=
  match r with
  | .next t => some (f t)
  | _ => none


/-! ### Hypotheses of the statements: scalar words and streams -/

/-- The word of R92's example. -/
def addWord : Instr := .addI { h := { dly := 3, g := 2, gs := true }, d := 5, a := 6, b := 0, c := 0, imm := 0xFFFFFFFF4 }

theorem test_meets_EngineWordRoundTrip : wellFormed pLead addWord = true ∧ (encodeWord addWord).isSome = true := by decide +kernel

theorem test_meets_UnitWordRoundTrip : wellFormed pLead (.cAdd 5 3 0 0) = true ∧ (encodeCairn (.cAdd 5 3 0 0)).isSome = true ∧
    wellFormed pLead (.emit 3 128) = true ∧ (toDress (.emit 3 128)).isSome = true := by decide +kernel

theorem test_meets_DecodedWordIsItsEncoding : decodeWord pLead 0x090328005060000FFFFFFFF4 = .ok addWord ∧
    decodeCairn 0xB4000000 = .ok .cDrop ∧ decodeDress 0x7300000000000080 = .ok (.emit 3 128) := by decide +kernel

/-- A state whose schedule names an engine with a word of its own. -/
def leadState : State := stateAt pLead (.movi (fld 1 5 0 0 0 42)) fun y => y

theorem test_meets_StepRunsInstruction :
    (let s := leadState
     let u := { s with sched := [], issuer := .eng 0 .lead }
     s.sched = .word 0 .lead :: [] ∧ wordReady u 0 .lead = true ∧ (nextOf u 0 .lead).detail = 0 ∧ (nextOf u 0 .lead).fetched = true ∧
       (nextOf u 0 .lead).bad = false ∧
       decodeWord (whereOf (u.core 0) .lead) (nextOf u 0 .lead).bits = .ok (.movi (fld 1 5 0 0 0 42))) ∧
    (let s := State.reset.withFetchWord 32 0xB4000000
     runOn s 0 = some (runWith 0xB4000000) ∧ runEnded (runWith 0xB4000000) = false ∧ decodeCairn 0xB4000000 = .ok .cDrop) ∧
    decodeDress 0x7300000000000080 = .ok (.emit 3 128) ∧ encode (.slpctlRead) = [] := by decide +kernel

theorem test_meets_NextWordIsFetched : (posOf (leadState.core 0) .lead).hdr = false ∧
    (List.range 3).all (fun i => (sget none (bufOf (leadState.core 0) .lead) (4 * i)).isSome) = true := by decide +kernel

theorem test_meets_StepKeepsMemoryCanonical : (leadState.mem.wf = true ∧ ∀ f : Fin 4, swf none leadState.l2[f] = true) ∧
    (after (step leadState) fun t => (t.core 0).scal.s[5]) = some 42 := by
  decide +kernel

theorem test_meets_AluResult :
    (∀ p ∈ aluWords, issuesAt pLead (p.1 (fld 1 5 6 7 0 0)) [5, 6, 7] [] = true ∧
      issuesAt pAp (p.1 (fld 0 0x25 0x26 0x3F 0 0)) [0x25, 0x26, 0x3F] [] = true ∧
      issuesAt pTrap (p.1 (fld 0 0 6 7 0 0)) [0, 6, 7] [] = true) ∧
    (∀ p ∈ aluImmWords, issuesAt pLead (p.1 (fld 255 31 6 0 0 0x800000000)) [31, 6] [] = true) ∧
    issuesAt pLead (.movi (fld 1 5 0 0 0 0xFFFFFFFFF)) [5] [] = true := by decide +kernel

theorem test_meets_ProductCountMoveResult :
    (∀ p ∈ productWords, issuesAt pLead (p.1 (fld 1 5 6 7 0 0)) [5, 6, 7] [] = true ∧
      issuesAt pAp (p.1 (fld 0 0x25 0x26 0x27 0 0)) [0x25, 0x26, 0x27] [] = true) ∧
    (∀ p ∈ productImmWords, issuesAt pLead (p.1 (fld 1 5 6 0 0 7)) [5, 6] [] = true) ∧
    (∀ p ∈ countWords, issuesAt pLead (p.1 (fld 1 5 6 0 0 0)) [5, 6] [] = true) ∧
    issuesAt pLead (.movhi (fld 1 5 0 0 0 1)) [5] [] = true ∧ issuesAt pLead (.sel (fld 1 5 6 7 0x93 0)) [5, 6, 7] [0x93] = true ∧
    issuesAt pLead (.lpr (fld 1 5 0 0 0 0x13)) [5] [] = true ∧ issuesAt pAp (.gget (fld 0 0x25 0 0 0 7)) [0x25] [] = true := by
  decide +kernel

theorem test_meets_CompareAndPredicateResult :
    slotFree (stateAt pLead .slpctlWake fun y => y) 0 .lead 0x9E = true ∧
    (∀ p ∈ cmpWords, issuesAt pLead (p.1 (fld 1 0x9E 6 7 0 0)) [6, 7] [] = true) ∧
    (∀ p ∈ cmpImmWords, issuesAt pLead (p.1 (fld 1 0x90 6 0 0 1)) [6] [] = true) ∧
    (∀ p ∈ slot2Words, issuesAt pAp (p.1 (fld 0 0x92 0x90 0x91 0 0)) [] [0x90, 0x91] = true) ∧
    (∀ p ∈ slot1Words, issuesAt pLead (p.1 (fld 1 0x92 0x90 0 0 0)) [] [0x90] = true) ∧
    (∀ p ∈ slot0Words, issuesAt pLead (p.1 (fld 1 0x92 0 0 0 0)) [] [] = true) ∧
    issuesAt pLead (.pvoid (fld 1 0x92 0 0 0 0)) [] [] = true := by decide +kernel

theorem test_meets_ScalarWordFrame :
    (∀ w ∈ regWords, let f := fld 1 5 6 7 0x90 0
      (∃ f' ∈ [f, fld 1 5 6 0 0 0, fld 1 5 0 0 0 0], issuesAt pLead (w.1 f') (w.2.1 f') (w.2.2 f') = true) ∨
      issuesAt pAp (w.1 (fld 0 0x25 0 0 0 0)) [0x25] [] = true) ∧
    (∀ w ∈ slotWords, ∃ f ∈ [fld 1 0x92 6 7 0 0, fld 1 0x92 6 0 0 0, fld 1 0x92 0x90 0x91 0 0, fld 1 0x92 0x90 0 0 0, fld 1 0x92 0 0 0 0],
      issuesAt pLead (w.1 f) (w.2.1 f) (w.2.2 f) = true) ∧
    endsNoLoop leadState 0 .lead = true := by decide +kernel

theorem test_meets_StreamWordResult :
    issuesAt pLead (.gate (fld 1 0 0x90 0 0 0)) [] [0x90] = true ∧ issuesAt pLead (.idle (fld 1 0 0 0 0 500)) [] [] = true ∧
    issuesAt pLead (.lpw (fld 1 0 6 0 0 0x10)) [6] [] = true ∧ issuesAt pAp (.gset (fld 0 0 0x26 0 0 7)) [0x26] [] = true := by
  decide +kernel

/-- A core whose LEAD runs an active level whose last word is the next one. -/
def looping (stage : Bool) (cnt : W32) (y : Core) : Core :=
  y.modStream .lead fun t => putLevel t 1 { Level.zero with act := true, aCnt := cnt, stage, ns := 2, pf := 3, last := 0 }

theorem test_meets_StreamMovesOn :
    (let i : Instr := .movi { h := { dly := 1, g := 2, gs := true }, d := 5, a := 0, b := 0, c := 0, imm := 42 }
     issuesNull (stateAt pLead i fun y => { y with scal := { y.scal with pv := 4 } }) 0 .lead i = true ∧ rdvFormOf i = none) ∧
    (let x := leadState.core 0
     inTrap x .lead = false ∧ inIntr x .lead = false ∧ endsNoLoop leadState 0 .lead = true) ∧
    (let l := levelOf ((looping true 3 (leadState.core 0)).stream .lead) 1
     l.act = true ∧ l.last = (nextOf leadState 0 .lead).pos.off ∧ l.done + 1 ≠ l.aCnt.toNat + l.aEpi.toNat ∧ 0 < l.ns.toNat ∧
       l.pf.toNat + l.ns.toNat ≤ 15) ∧
    (let l := levelOf ((looping false 1 (leadState.core 0)).stream .lead) 1
     l.act = true ∧ l.last = (nextOf leadState 0 .lead).pos.off ∧ l.done + 1 = l.aCnt.toNat + l.aEpi.toNat) ∧
    inTrap ((stateAt pTrap (.movi (fld 0 5 0 0 0 1)) fun y => y).core 0) .lead = true ∧
    inIntr ((stateAt pIntr (.movi (fld 0 0x25 0 0 0 1)) fun y => y).core 0) .ap = true := by decide +kernel

/-- A temporal level 1, with stage slots free, for a loop of one word. -/
def loopCore (y : Core) : Core :=
  let y := y.modStream .lead fun t => { t with pos := { posWith with wc := 3 } }
  { y with csr := { y.csr with looptab := vset y.csr.looptab 1 0x100 } }

/-- The word `loop` or `loop.st` of level 1, of `n` iterations, with the body of one word; two stage slots from p3. -/
def loopWord (st : Bool) (n : Nat) : Fld := fld 1 0 0 0 0 (BitVec.ofNat 36 (2 ^ 34 + 2 ^ 23 + 2 ^ 8 * n + if st then 0x32 else 0))

theorem test_meets_LoopOpensOrSkips : ∀ st : Bool, ∀ n ∈ [0, 4],
    let f := loopWord st n
    let i : Instr := if st then .loopSt f else .loop f
    let s := stateAt pLead i loopCore
    let x := s.core 0
    issues s 0 .lead i = true ∧ loopLv f = 1 ∧ loopRg f = false ∧ spatial x 1 = false ∧ kindOf x 1 ≠ 0 ∧ immBits f 8 12 = n ∧
      runsFrom (x.stream .lead) 1 = false ∧ immBits f 23 10 = 1 ∧ 1 < (nextOf s 0 .lead).pos.wc ∧ beyondOuter (x.stream .lead) 1 1 = false ∧
      stageOverlap x (immBits f 4 4) (immBits f 0 4) = false ∧ immBits f 4 4 + immBits f 0 4 ≤ 15 := by decide +kernel


/-! ### Hypotheses of the statements: memory and system words -/

/-- Did an access bring bytes? -/
def hasBytes (g : Got) : Bool := match g with
  | .bytes _ _ => true
  | _ => false

theorem hasBytes_spec {g : Got} (h : hasBytes g = true) : ∃ l t, g = .bytes l t := by
  cases g with
  | bytes l t => exact ⟨l, t, rfl⟩
  | wait f => cases h
  | fault x f => cases h

/-- Did a translation succeed? -/
def isOk {α β : Type} (x : Except α β) : Bool := match x with
  | .ok _ => true
  | .error _ => false

theorem isOk_spec {α β : Type} {x : Except α β} (h : isOk x = true) : ∃ y, x = .ok y := by
  cases x with
  | error e => cases h
  | ok y => exact ⟨y, rfl⟩

/-- A page of 2 MiB that maps address 0 to physical 0 and may be read and written. -/
def page : TlbEntry := { va := 0, bits := 21, asid := 0, g := true, w := true, r := true, excl := false, world := 0, pa := 0 }

/-- A core whose TLB holds the page. -/
def mapped (y : Core) : Core := { y with ap := { y.ap with tlb := [page] } }

/-- A word of the AP of core 0 with the page mapped. -/
def apState (i : Instr) : State := stateAt pAp i mapped

/-- A memory word: address register a6 = 0x26 (zero), a small offset. -/
def memFld (imm : BitVec 36) : Fld := fld 0 0x25 0x26 0 0 imm
def stFld (imm : BitVec 36) : Fld := fld 0 0 0x26 0x27 0 imm

theorem meets_load : ∀ p ∈ loadWords, let s := apState (p.1 (memFld 0x1001))
    untimedGo s 0 .ap (p.1 (memFld 0x1001)) = true ∧ regsReady s 0 .ap [0x26, 0x25] = true ∧
    hasBytes (loadGot 0 (effAddr s 0 .ap (memFld 0x1001)) p.2.1 s) = true ∧
    hasBytes (loadGot 0 (effAddr s 0 .ap (memFld 0x1001)) p.2.1 (movedState s 0 .ap)) = true := by decide +kernel

theorem test_meets_LoadResult : ∀ p ∈ loadWords, let s := apState (p.1 (memFld 0x1001))
    untimedGo s 0 .ap (p.1 (memFld 0x1001)) = true ∧ regsReady s 0 .ap [0x26, 0x25] = true ∧
    (∃ l t, loadGot 0 (effAddr s 0 .ap (memFld 0x1001)) p.2.1 s = .bytes l t) ∧
    ∃ l t, loadGot 0 (effAddr s 0 .ap (memFld 0x1001)) p.2.1 (movedState s 0 .ap) = .bytes l t := fun p hp =>
  have h := meets_load p hp
  ⟨h.1, h.2.1, hasBytes_spec h.2.2.1, hasBytes_spec h.2.2.2⟩

/-- A state with one byte of HBM's address 0x1000 in the AP's store queue. -/
def queued : State := (apState (.ldB (memFld 0))).modCore 0 (pushStores [{ va := 0x1000, asid := 0, world := 0, wq := none, cells := [(0x1000, 7)] }])

theorem test_meets_LoadResult_bytes :
    (queued.core 0).ap.host = none ∧ isOk (translateRange queued 0 0x1000 1 .read) = true ∧ (forwardByte 0x1000 (queued.core 0).ap.storeQ none).isSome = true ∧
    forwardByte 0x1001 (queued.core 0).ap.storeQ none = none ∧ inHbm 0x1001 1 = true ∧ heldLine (queued.core 0) 0x1001 = none ∧
    (queued.mem.wf = true ∧ ∀ f : Fin 4, swf none queued.l2[f] = true) ∧
    seesByte queued (0 : CoreId).face (queued.core 0).csr.world 0x1001 = some 0 := by decide +kernel

theorem test_meets_StoreResult : ∀ p ∈ storeWords, ∀ n ∈ [0x1000, 0x1001], let a : BitVec 36 := BitVec.ofNat 36 n
    let s := apState (p.1 (stFld a))
    untimedGo s 0 .ap (p.1 (stFld a)) = true ∧ regsReady s 0 .ap [0x26, 0x27] = true ∧
    isOk (translateRange s 0 (effAddr s 0 .ap (stFld a)) p.2 .write) = true ∧
    isOk (translateRange (movedState s 0 .ap) 0 (effAddr s 0 .ap (stFld a)) p.2 .write) = true := by decide +kernel

theorem test_meets_StoreResult_drain :
    (queued.core 0).ap.storeQ = { va := 0x1000, asid := 0, world := 0, wq := none, cells := [(0x1000, 7)] } :: [] ∧ queued.regq = [] ∧
    seesByte queued (0 : CoreId).face 0 0x1000 = some 0 ∧
    (after (exec (.apStoreDrain 0) queued) fun t => (seesByte t (0 : CoreId).face 0 0x1000, (t.core 0).ap.storeQ)) = some (some 7, []) := by
  decide +kernel

/-- A core scope atomic at address 0x1000. -/
def amoFld : Fld := fld 0 0x25 0x26 0x27 0x28 0x200001000
def amoFld2 : Fld := fld 0 0x25 0x26 0x27 0 0x200001000

theorem test_meets_AtomicResult : ∀ p ∈ amoWords, ∃ f ∈ [amoFld, amoFld2], let s := apState (p.1 true 3 f)
    untimedGo s 0 .ap (p.1 true 3 f) = true ∧ regsReady s 0 .ap [0x26, 0x27, 0x25, 0x28] = true ∧
    hasBytes (amoGot 0 (immBits f 32 4) 0x1000 8 true true (fun x => p.2 64 x 1 2) s) = true ∧
    hasBytes (amoGot 0 (immBits f 32 4) 0x1000 8 true true (fun x => p.2 64 x 1 2) (movedState s 0 .ap)) = true := by decide +kernel

theorem test_meets_AtomicResult_host : inHost 0x8000000000000 = true ∧ inHost 0xFFFFFFFFFFFFF = true ∧ inRegs 0x8000000000000 = false ∧
    sessionActive queued 0 = false := by decide +kernel

/-- A core with one byte for host memory in its AP's store queue. -/
def hostQueued (y : Core) : Core := pushStores [{ va := 0, asid := 0, world := 0, wq := none, cells := [(0x8000000000000, 7)] }] y

/-- The state under an active session, whose posted writes wait for a rekey or not. -/
def underSession (rekey : Bool) (s : State) : State :=
  s.modSess 0 fun x => { x with active := true, ctr := vset x.ctr 0 (if rekey then 2 ^ 32 else 0) }

theorem test_meets_FenceResult :
    (∀ w ∈ ([.fence, .fenceAcq, .fenceRel] : List (Fld → Instr)), ∀ p ∈ [pAp, pIntr], goesAt p (w (fld 0 0 0 0 0 0x500000000)) (fun y => y) = true) ∧
    goesAt pAp (.afence (fld 0 0 0 0 0 0)) (fun y => y) = true ∧ goesAt pAp (.mark (fld 0 0 0 0 0 0)) (fun y => y) = true ∧
    (let s := apState (.mark (fld 0 0 0 0 0 0))
     (s.core 0).ap.host = none ∧ (s.core 0).ap.storeQ = [] ∧ sessionActive s 0 = false) := by decide +kernel

theorem test_meets_FenceResult_stores :
    (∀ i ∈ [Instr.fence (fld 0 0 0 0 0 0x500000000), .fenceRel (fld 0 0 0 0 0 0x200000000), .afence (fld 0 0 0 0 0 0), .mark (fld 0 0 0 0 0 0)],
      let s := queued
      let t := stateAt pAp i hostQueued
      untimedGo (stateAt pAp i mapped) 0 .ap i = true ∧ untimedGo t 0 .ap i = true ∧
      storesDone (drainAll 0 s) 0 = true ∧ storesDone (drainAll 0 (movedState s 0 .ap)) 0 = true ∧
      storesDone (drainAll 0 t) 0 = true ∧ storesDone (drainAll 0 (underSession true t)) 0 = false) ∧
    (let i : Instr := .fenceRel (fld 0 0 0 0 0 0x900000000)
     let s := underSession false (stateAt pAp i hostQueued)
     untimedGo s 0 .ap i = true ∧ storesDone (drainAll 0 s) 0 = true ∧ ((drainAll 0 s).core 0).ap.posted = true ∧
       sessionActive (drainAll 0 s) 0 = true) := by decide +kernel

/-- A core with a visible entry in its store queue w1. -/
def storing (y : Core) : Core :=
  { mapped y with vec := { y.vec with w := vset y.vec.w 1 [{ img := 9, have_ := 0xF, eng := .va, at_ := 0 }] } }

theorem test_meets_QueueWordResult :
    (let f := fld 0 0x69 0x26 0 0 0x1000
     let s := apState (.qld f)
     untimedGo s 0 .ap (.qld f) = true ∧ regsReady s 0 .ap [0x26] = true ∧ (vget (s.core 0).vec.q (lqNo f.d) []).length < 4) ∧
    goesAt pAp (.tok (fld 0 0x6F 0x26 0 0 0)) mapped = true ∧
    (let f := fld 0 0 0x26 0x71 0 0x1000
     let s := stateAt pAp (.qst f) storing
     untimedGo s 0 .ap (.qst f) = true ∧ (visibleEntry (s.core 0) (sqNo f.b)).isSome = true ∧
       isOk (translateRange s 0 0x1000 4096 .write) = true ∧ isOk (translateRange (movedState s 0 .ap) 0 0x1000 4096 .write) = true) ∧
    goesAt pAp (.pref (fld 0 0 0x26 0 0 0x1000)) mapped = true ∧ isOk (translateRange queued 0 0x1000 1 .read) = true ∧
    isOk (translateRange (stateAt pAp (.pref (fld 0 0 0x26 0 0 0x1000)) fun y => y) 0 0x1000 1 .read) = false := by decide +kernel

set_option maxRecDepth 100000 in
theorem test_meets_QueueWordResult_load : let s := apState (.qld (fld 0 0x69 0x26 0 0 0x1000))
    hasBytes (loadGot 0 0x1000 4096 s) = true ∧ hasBytes (loadGot 0 0x1000 4096 (movedState s 0 .ap)) = true := by decide +kernel

/-- A privileged core. -/
def trusted (y : Core) : Core := { y with csr := { y.csr with priv := true } }

theorem test_meets_CsrAndReturnResult :
    (∀ n ∈ csrNumbers ++ [0x05B, 0xFFF], issuesAt pLead (.csrr (fld 1 5 0 0 0 (BitVec.ofNat 36 n))) [5] [] = true) ∧
    (∀ w ∈ csrWords, ∀ d ∈ [(0 : RegCode), 5], let i := w.1 (fld 1 d 6 0 0 0x041)
      let s := stateAt pLead i trusted
      issues s 0 .lead i = true ∧ regsReady s 0 .lead [6, d] = true ∧
      streamPriv (Ctx.mk s 0 .lead (reqOf s 0 .lead) (s.cluster 0).clk) = true) ∧
    (let i : Instr := .tret (fld 0 0 0 0 0 0)
     let s := stateAt pTrap i fun y => { y with trap := { y.trap with tcause := 0x8000000000000001 } }
     untimedGo s 0 .lead i = true ∧ inTrap (s.core 0) .lead = true) ∧
    (let i : Instr := .uret (fld 0 0 0 0 0 0)
     let s := stateAt pIntr i fun y => y
     let u := stateAt pIntr i fun y => { y with ap := { y.ap with recs := [1], uien := true } }
     untimedGo s 0 .ap i = true ∧ (s.core 0).ap.inUi = true ∧ (s.core 0).ap.recs = [] ∧
       untimedGo u 0 .ap i = true ∧ (u.core 0).ap.inUi = true ∧ (u.core 0).ap.recs ≠ [] ∧ (u.core 0).ap.uien = true ∧
       (u.core 0).ap.fault = none ∧ (u.core 0).ap.host = none ∧ ((u.core 0).stream .ap).present = true ∧
       ((u.core 0).stream .ap).ended = false ∧ ((u.core 0).stream .ap).first = false) := by decide +kernel

/-- The request that a `cop` word makes. -/
def askAt (s : State) (e : Engine) (fn : BitVec 7) (f : Fld) : Ask := askOf (Ctx.mk s 0 e (reqOf s 0 e) (s.cluster 0).clk) fn f

/-- The translated ranges of a `cop` word leave no store of a register behind. -/
def issueQuiet (g : Got) : Bool := match g with
  | .bytes _ t => t.regq.isEmpty
  | _ => false

theorem test_meets_CommandPushed :
    (let f := fld 1 0x9E 6 7 0 0
     let s := stateAt pLead (.cop 6 f) fun y => y
     issues s 0 .lead (.cop 6 f) = true ∧ commandReady s 0 .lead f = true ∧ (movedState s 0 .lead).regq = [] ∧
       (queueOf (s.core 0) .lead (targetOfFn 6)).length < 16) ∧
    (let f := fld 0 0x25 0x26 0x27 0 0
     let s := stateAt pAp (.cop 0x40 f) trusted
     issues s 0 .ap (.cop 0x40 f) = true ∧ commandReady s 0 .ap f = true ∧
       streamPriv (Ctx.mk s 0 .ap (reqOf s 0 .ap) (s.cluster 0).clk) = true ∧ (queueOf (s.core 0) .ap (targetOfFn 0x40)).length < 16 ∧
       issueQuiet (issueGot 0 (askAt s .ap 0x40 f) s) = true ∧ issueQuiet (issueGot 0 (askAt s .ap 0x40 f) (movedState s 0 .ap)) = true) := by
  decide +kernel

/-- A copy from address 0x1000 of a mapped page. -/
theorem test_meets_CommandPushed_ranges :
    (let f := fld 0 0x25 0x26 0x27 0 0
     let s := stateAt pAp (.cop 1 f) fun y => { mapped y with scal := { y.scal with a := vset y.scal.a 6 0x1000 } }
     issues s 0 .ap (.cop 1 f) = true ∧ commandReady s 0 .ap f = true ∧ (queueOf (s.core 0) .ap (targetOfFn 1)).length < 16 ∧
       issueQuiet (issueGot 0 (askAt s .ap 1 f) s) = true ∧ issueQuiet (issueGot 0 (askAt s .ap 1 f) (movedState s 0 .ap)) = true) := by
  decide +kernel

theorem test_meets_ScrubWordResult : ∀ w ∈ scrubWords, ∃ f ∈ [fld 0 0x25 0x26 0x27 0 (BitVec.ofNat 36 (2 ^ 20 + 2 ^ 16 * w.2)),
      fld 0 0x25 0 0 0 (BitVec.ofNat 36 (2 ^ 20 + 2 ^ 16 * w.2))],
    let s := stateAt pAp (w.1 f) trusted
    untimedGo s 0 .ap (w.1 f) = true ∧ commandReady s 0 .ap f = true ∧
      streamPriv (Ctx.mk s 0 .ap (reqOf s 0 .ap) (s.cluster 0).clk) = true ∧ guardLate (s.core 0) .ap f.h = false ∧
      (beforeScrub (Ctx.mk s 0 .ap (reqOf s 0 .ap) (s.cluster 0).clk) w.2 f s).scrub.list.length < 64 ∧
      storesDone (beforeScrub (Ctx.mk s 0 .ap (reqOf s 0 .ap) (s.cluster 0).clk) w.2 f s) 0 = true := by
  decide +kernel

/-- A plane of world 0 with nothing in it. -/
def plane0 : Plane :=
  { world := 0, strict := false, priv := false, dual := false, drainlim := 0, starts := Vector.replicate 6 0, looptab := Vector.replicate 4 0
    xlate := 0, tbase := 0, ctxbase := 0, tvec := 0, uiAddr := 0, collid := 0, spcfg := Vector.replicate 4 0, ft := Vector.replicate 16 0
    bins := Vector.replicate 16 Bin.zero, s := Vector.replicate 32 0, a := Vector.replicate 32 0, cairn := [], tabs := Vector.replicate 8 []
    kernel := [] }

/-- Job 0 of slot 0 on core 0. -/
def job0 : Job :=
  { id := 0, slot := 0, entry := 0x10000, index := 0, replay := none, plane := plane0, team := [0], phase := .running, rdvs := 0
    evq := 0x20000, evlog := 4, evn := 0, tag := 7, succ := [], swap := none, saved := [], maxTick := 0, eligible := false, atFlip := false, save := false }

/-- The state with a job on core 0. -/
def withJob (j : Job) (s : State) : State := ({ s with jobs := [j] }).modCore 0 fun y => { y with job := some j.id }

theorem test_meets_RendezvousWordResult :
    (∀ flip : Bool, let i : Instr := if flip then .rdvFlip (fld 0 0 0 0 0 0) else .rdv (fld 0 0 0 0 0 0)
      let s := stateAt pAp i fun y => y
      untimedGo s 0 .ap i = true ∧ rdvPassed s 0 .ap = false ∧ ((s.core 0).stream .ap).arrived = none ∧
      storesDone (drainAll 0 s) 0 = true ∧
      (let u := underSession true (stateAt pAp i hostQueued)
       untimedGo u 0 .ap i = true ∧ rdvPassed u 0 .ap = false ∧ storesDone (drainAll 0 u) 0 = false) ∧
      (let u := stateAt pAp i fun y => y.modStream .ap fun t => { t with arrived := some .rdv }
       untimedGo u 0 .ap i = true ∧ rdvPassed u 0 .ap = false) ∧
      untimedGo (withJob { job0 with rdvs := 1 } s) 0 .ap i = true ∧ rdvPassed (withJob { job0 with rdvs := 1 } s) 0 .ap = true) ∧
    issuesAt pLead (.rdvEnd (fld 1 0 0 0 0 0)) [] [] = true ∧
    (let i : Instr := .rdv (fld 1 0 0 0 0 0)
     let s := withJob { job0 with rdvs := 1 } (stateAt pLead i fun y => y)
     timedTurn s 0 .lead i = true ∧ rdvPassed s 0 .lead = true ∧
       ((0 : CoreId).cluster.cores.all fun d => decide ((s.core d).job ≠ (s.core 0).job) || timedEngines.all fun g =>
         decide (d = 0 ∧ g = .lead) || !((s.core d).stream g).present || ((s.core d).stream g).ended) = true) ∧
    (let i : Instr := .rdvAlign (fld 0 0 0 0 0 0)
     let s := stateAt (pFirst .mx) i fun y => y
     let u := stateAt (pFirst .ap) i fun y => y
     s.regq = [] ∧ (s.core 0).aligned = false ∧ ((s.core 0).stream .mx).first = true ∧ legalHere s 0 .mx i = true ∧
       waitsMet s 0 .mx = true ∧ inTrap (s.core 0) .mx = false ∧ notStarted s 0 = false ∧ (s.core 0).ap.inUi = false ∧
       untimedReady u 0 .ap = true ∧ (u.core 0).aligned = false ∧ notStarted u 0 = false ∧ legalHere u 0 .ap i = true ∧
       waitsMet u 0 .ap = true) := by decide +kernel


/-! ### Hypotheses of the statements: words of the pipes -/

/-- A word of a pipe starts its operation on a core that has been changed. -/
def pipeStarts (e : Engine) (w : PipeWord) (f : Fld) (g : Core → Core) : Bool :=
  let s := stateAt (Where.plain e) (w.word f) g
  let k := kOf s 0 e
  let o := opStarted w k f
  let y := coreStarted w k f (movedOn s 0 e 0 none (s.core 0))
  timedTurn (s.modCore 0 fun x => { x with transits := [] }) 0 e (w.word f) && headOk (s.core 0) e (w.word f) &&
  regsReady s 0 e (w.regs f) && w.ok k f && ((w.srcs f).flatMap (fun x => lateSource k x.1)).isEmpty &&
  (latePush k (w.dst f)).isEmpty && decide (vget (s.core 0).busy (engIdx e).val 0 ≤ k.now) &&
  (runOp 0 y k.now o).causes.isEmpty && (laneCauses k.now y).isEmpty && (tapCauses k.now (runOp 0 y k.now o).taken y).isEmpty

/-- The forms of pipe words by the registers that they name. -/
def vForms : List Fld :=
  [ fld 1 0x40 0x5F 0x42 0 0, fld 1 0x40 0x41 0x42 0x43 0, fld 1 0x60 0x61 0x67 0 0, fld 1 0x40 0x41 0 0 0, fld 1 0x60 0x61 0 0 0
  , fld 1 0x40 0x41 0x42 0x63 0, fld 1 0x60 0x41 7 0 0, fld 1 0x40 0x41 0 0 1, fld 1 0x40 0x41 0 0x43 1, fld 1 0x40 0 0 0 0x3F800000
  , fld 1 0x40 0 0 0xB8 0x000400000, fld 1 0 0x41 0 0xB0 0x000400000, fld 1 0 0x41 0 0xB0 0x902, fld 1 0x40 0x41 0 0 7 ]

theorem test_meets_PipeWordStarts_vector : ∀ w ∈ (vectorWords 1 2 1).filter (fun w => !(toFields (w.word (fld 0 0 0 0 0 0))).any fun x => decide (x.op = 0x5d)),
    ∃ f ∈ vForms, wellFormed (Where.plain .va) (w.word f) = true ∧ pipeStarts .va w f (fun x => x) = true := by decide +kernel

/-- A core with rows on lanes 8-15 at VB's stop at tick 1. -/
def rowsOn (x : Core) : Core :=
  { x with transits := (List.range 8).map fun i =>
      { lane := 8 + i, from_ := 10, enter := 0, dest := 9, tap := true, row := BitVec.ofNat 1024 i, eng := .va, pitch := 0, word := 0 } }

/-- The words of taps. -/
def tapr : PipeWord := { word := .vtapr, srcs := fun _ => [] }
def tapw : PipeWord := { word := .vtapw, dst := fun _ => 0, srcs := fun f => [(f.a, 32)] }

theorem test_meets_PipeWordStarts_taps : pipeStarts .vb tapr (fld 1 0x40 0 0 0xB8 3) rowsOn = true ∧
    pipeStarts .va tapw (fld 1 0 0x41 0 0xB0 0x902) (fun x => x) = true := by decide +kernel

/-- A core whose SF has bins of four rows, a spill area that drops, a table, and a running level 1. -/
def sfCore (x : Core) : Core :=
  let b : Bin := { Bin.zero with rowb := 256, cap := 4, fill := 1 }
  let x := x.modStream .sf fun t => putLevel t 1 { Level.zero with act := true, aCnt := 3, last := 9 }
  { x with sf := { x.sf with
      b := Vector.replicate 16 b
      tab := vset x.sf.tab 2 [1]
      spcfg := vset x.sf.spcfg 3 (BitVec.ofNat 64 (0x100 * 2 ^ 50 + 0x300 * 2 ^ 36 + 5 * 2 ^ 23 + 2 ^ 17)) } }

def sForms : List Fld :=
  [ fld 1 0x40 0x41 0 0 0, fld 1 0x40 0x41 0 0 1, fld 1 0x40 0x41 5 0x43 0, fld 1 0x60 0x41 6 0 0, fld 1 0x40 0x8F 0 0 0
  , fld 1 0x60 0x41 0x42 0x84 3, fld 1 0x83 0 0 0 0, fld 1 0x83 0 0 0 3, fld 1 0x83 5 0 0 7, fld 1 0 0 0 0x8E 0x902 ]

theorem test_meets_PipeWordStarts_sf : ∀ w ∈ sfWords, ∃ f ∈ sForms,
    wellFormed (Where.plain .sf) (w.word f) = true ∧ pipeStarts .sf w f sfCore = true := by decide +kernel

/-- An operation of tick 10 that has read nothing yet. -/
def opOf (e : Engine) (i : Instr) (dst : Nat) (srcs aux : List Nat) : Op :=
  { eng := e, instr := i, at_ := 10, pitch := 0, word := 0, dst, srcs, aux, fe := 0, got := [] }

/-- A core whose quarter `q` of vector register `n` is given. -/
def vCore (n q : Nat) (v : Quarter) (x : Core) : Core := { x with vec := { x.vec with v := vset x.vec.v (4 * n + q) v } }

/-- The core of the tests, with quarters of v1 and v2 of two elements. -/
def vTwo (a b : Nat) : Core := vCore 2 1 (BitVec.ofNat 8192 b) (vCore 1 1 (BitVec.ofNat 8192 a) (State.reset.core 0))

/-- The low bits of the quarter that an operation's one latch holds. -/
def lowOf (o : Op) (x : Core) (q n : Nat) : List (Nat × Nat × Nat) :=
  (runOp 0 x (o.at_ + q) o).latches.map fun l => (l.q, l.due, l.val.toNat % 2 ^ n)

theorem test_meets_SourcesAndLandings :
    regClass 5 = some .s ∧ regClass 0x69 = some .q ∧ regClass 0x5F = some .v ∧ regClass 0x67 = some .k ∧
    (let x := storing (State.reset.core 0)
     let y := { x with vec := { x.vec with q := vset x.vec.q 1 [{ img := 9, pending := none }] } }
     (queueHead y (0x69 - 0x68)).isSome = true) ∧
    (let l : Latch := latchOf (opOf .va (.vmov (fld 1 0x41 0x42 0 0 0)) 0x41 [0x42] []) 0x41 3 14 false 9
     l.q < 4 ∧ vget (landLatch l (State.reset.core 0)).vec.v 7 0 = 9) := by decide +kernel

/-- R259: parts wrap on their own; saturating parts stop at their ends. -/
theorem test_meets_ElementResult_integer :
    lowOf (opOf .va (.vaddI 1 (fld 1 0x43 0x41 0x42 0 0)) 0x43 [0x41, 0x42] []) (vTwo 0xFFFF0001FFFF 0x000180000001) 1 64 = [(1, 15, 0x000080010000)] ∧
    lowOf (opOf .va (.vadds 2 (fld 1 0x43 0x41 0x42 0 0)) 0x43 [0x41, 0x42] []) (vTwo 0x7F80 0x0180) 1 32 = [(1, 15, 0x7F80)] := by decide +kernel

/-- R222, R258: a float sum rounded to even, and the product of two numbers. -/
theorem test_meets_ElementResult_float :
    lowOf (opOf .va (.vaddF32 (fld 1 0x43 0x41 0x42 0 0)) 0x43 [0x41, 0x42] []) (vTwo 0x3F800000 0x33800000) 1 32 = [(1, 15, 0x3F800000)] ∧
    lowOf (opOf .va (.vmulF32 (fld 1 0x43 0x41 0x42 0 0)) 0x43 [0x41, 0x42] []) (vTwo 0x40400000 0xBF000000) 1 32 = [(1, 15, 0xBFC00000)] := by
  decide +kernel

/-- R223: -0 is below +0, and a NaN gives the canonical NaN. -/
theorem test_meets_MinMaxF32Result :
    lowOf (opOf .va (.vminF32 (fld 1 0x43 0x41 0x42 0 0)) 0x43 [0x41, 0x42] []) (vTwo 0 0x80000000) 1 32 = [(1, 15, 0x80000000)] ∧
    lowOf (opOf .va (.vmaxF32 (fld 1 0x43 0x41 0x42 0 0)) 0x43 [0x41, 0x42] []) (vTwo 0xFF800001 5) 1 32 = [(1, 15, 0x7FC00000)] ∧
    1 < 4 ∧ isNaN 0xFF800001 ∧ ¬isNaN 0x80000000 ∧ rank 0x80000000 < rank 0 := by
  refine ⟨by decide +kernel, by decide +kernel, by decide, by unfold isNaN; decide, by unfold isNaN; decide, by unfold rank; decide⟩

/-- R260: a compare of 16-bit parts holds where it holds for both parts. -/
theorem test_meets_ElementResult_mask :
    lowOf (opOf .va (.vcmp 2 2 (fld 1 0x60 0x41 0x42 0 0)) 0x60 [0x41, 0x42] []) (vTwo 0x0001000100010005 0x0002000200020004) 1 256 = [(1, 15, 2)] ∧
    lowOf (opOf .va (.vsel (fld 1 0x43 0x41 0x42 0x60 0)) 0x43 [0x41, 0x42, 0x60] []) (vTwo 7 8) 1 32 = [(1, 15, 8)] := by decide +kernel

/-- R266: a maximum with its index, and a rotation. -/
theorem test_meets_AxisAndPackResult :
    lowOf (opOf .va (.vrmaxiR (fld 1 0x43 0x41 0 0 7)) 0x43 [0x41] []) (vTwo 0x00000005FFFFFFFF00000005 0) 1 64 = [(1, 17, 0x0000000000000005)] ∧
    lowOf (opOf .va (.vrotR (fld 1 0x43 0x41 0 0 0x10)) 0x43 [0x41] [1]) (vTwo 0x0000000600000005 0) 1 64 = [(1, 15, 6)] ∧
    packWidth 1 = some 16 ∧ 16 * (1024 * (1 + 1)) ≤ 32768 := by decide +kernel

/-- R268: the example's distances: from the ledge of row 1024 (stop 2) to VA (stop 6) clockwise is 4. -/
theorem test_meets_LedgeWordResult :
    lowOf (opOf .va (.vld (fld 1 0x43 0 0 0xB0 0)) 0x43 [] [1024]) (spadPut (State.reset.core 0) 131072 [7]) 0 8 = [(0, 16, 7)] ∧
    (runOp 0 (vTwo 7 0) 11 (opOf .va (.vst (fld 1 0 0x41 0 0xB0 0)) 0 [0x41] [1024])).causes = [] ∧
    (runOp 0 (rowsOn (State.reset.core 0)) 1 { opOf .vb (.vtapr (fld 1 0x43 0 0 0xB8 3)) 0x43 [] [] with at_ := 1 }).taken.length = 8 ∧
    ((runOp 0 (vTwo 7 0) 10 (opOf .va (.vtapw (fld 1 0 0x41 0 0xB0 0x901)) 0 [0x41] [])).transits.map fun t => (t.lane, t.enter, t.dest, t.row.toNat)).take 1 =
      [(0, 11, 9, 7)] := by decide +kernel

/-- R226, R227: the limits of each function; results of numbers, which are finite. -/
theorem test_meets_SpecialFunctionResult :
    f32 0x40800000 = .fin false (2 ^ 23) (-21) ∧ f32 (sfRcpF 0x40800000) = .fin false (2 ^ 23) (-25) ∧
    f32 (sfSqrtF 0x40800000) = .fin false (2 ^ 23) (-22) ∧ f32 (sfRsqrtF 0x40800000) = .fin false (2 ^ 23) (-24) ∧
    (∀ p ∈ specialLimits, [0x7F800000, 0xFF800000, 0, 0x80000000].map p.1 = p.2) ∧
    (∀ p ∈ specialWords, p.2.2 0x7FC00001 = 0x7FC00000) ∧ sfSinF 0x49800000 = 0x7FC00000 := by decide +kernel

/-- R282: rows of one number; the first of equal rows is counted first. -/
theorem test_meets_SpecialFunctionResult_hist :
    lowOf { opOf .sf (.sfHist (fld 1 0x43 0x41 0 0 0x300)) 0x43 [0x41] [] with got := sputAll 0 [] [(1, 1)] } (vTwo 1 0) 3 64 =
      [(0, 16, 0), (1, 17, 0x100000000), (2, 18, 7), (3, 19, 11)] := by decide +kernel

theorem test_meets_TransformedMeanResult :
    inDomain (meanOf 1 false []) 0 = true ∧ inDomain (meanOf 0xFF false []) 0 = false ∧ inDomain (meanOf 0x7F false []) 0x7F800000 = true ∧
    (runOp 0 (vTwo 7 0) 13 (opOf .sf (.sfTmx (fld 1 0x43 0x41 0 0 0xFF0000000)) 0x43 [0x41] [])).causes.length = 1 := by decide +kernel

/-- R278: sixteen rows of one bin with four places, one of them taken, keep three; the bin drops thirteen. -/
theorem test_meets_RouteAndBinResult_route :
    (let f := fld 1 0x60 0x41 0x42 0x84 3
     let x := sfCore (State.reset.core 0)
     let w := routeWork x f 0x42
     0x80 ≤ f.c.toNat ∧ f.c.toNat - 0x80 + immBits f 0 4 < 16 ∧ binUsable (coreBin x 4) = true ∧ w.kept = [0, 1, 2] ∧ w.bad = [] ∧
       (vget w.bins 4 Bin.zero).dropped = 13) := by decide +kernel

/-- R296, R300: areas with room, full under drop, and full under trap. -/
def areaCore (rule : Nat) (x : Core) : Core :=
  let x := sfCore x
  { x with sf := { x.sf with spcfg := vset x.sf.spcfg 0 (BitVec.ofNat 64 (5 * 2 ^ 23 + rule * 2 ^ 21)) } }

theorem test_meets_RouteAndBinResult_defer : ∀ rule ∈ [0, 2], ∀ n ∈ [4, 5],
    let x := areaCore rule (State.reset.core 0)
    let u : RouteWork := { bins := x.sf.b, cnt := vset x.sf.spcnt 0 (cnOf n 0 0), kept := [], place := [], bad := [], areas := [] }
    spCap (vget x.sf.spcfg 0 0) = 5 ∧ cnCount (vget u.cnt 0 0) = n ∧ spRule (vget x.sf.spcfg 0 0) = rule ∧
      (deferRow x 3 4 9 u).bad.length = (if n = 5 ∧ rule = 2 then 1 else 0) := by decide +kernel

theorem test_meets_RouteAndBinResult_bins :
    (let x := State.reset.core 0
     (runOp 0 x 11 (opOf .sf (.sfBopen (fld 1 0x83 0 0 0 0)) 0 [] [256, 512, 1280, 1])).cells.map (fun p => (p.1, p.2.length)) ≠ [] ∧
     (coreBin ((landOp 0 x 11 (opOf .sf (.sfBset (fld 1 0x83 5 0 0 0)) 0 [] [3, 0, 5])).eff x) 3).cap = 5) ∧
    0x80 ≤ (fld 1 0 0 0 0x8E 0x902).c.toNat ∧ (latchCount (fld 1 0 0 0 0x8E 0x902)) = 2 := by decide +kernel

/-! ### Hypotheses of the statements: words of MX -/

/-- A core whose B buffer holds a local half of 8-bit mantissas, ready, and whose format entry 0 is of 8-bit operands. -/
def mxCore (x : Core) : Core :=
  let h : BHalf := { slot := false, bus := false, width := 0, ready := 0, freeAt := none, mant := List.replicate 4096 0
                     scales := List.replicate 64 256 }
  { x with bench := { x.bench with bbuf := [h] }, csr := { x.csr with ft := vset x.csr.ft 0 0xCC } }

/-- A word of MX that starts an operation does so. -/
def benchStarts (w : BenchWord) (f : Fld) : Bool :=
  let s := stateAt (Where.plain .mx) (w.word f) mxCore
  let k := kOf s 0 .mx
  let o := w.op k f
  timedTurn s 0 .mx (w.word f) && headOk (s.core 0) .mx (w.word f) && w.ok k f &&
    (runOp 0 (withOp o (w.act k f (movedOn s 0 .mx 0 none (s.core 0)))) k.now o).causes.isEmpty

theorem test_meets_BenchWordResult_ops : ∀ w ∈ benchOps,
    ∃ f ∈ [fld 1 0x74 0 0xA0 0 0, fld 1 0x74 0 0xA0 0x43 0, fld 1 0x75 0 0 0 0, fld 1 0x76 0x74 0xA0 0 0], benchStarts w f = true := by decide +kernel

theorem test_meets_BenchWordResult_now :
    (∀ w ∈ benchWords, ∃ f ∈ [fld 1 0x74 0 0 0 0, fld 1 0x75 0 0 0 0, fld 1 0xAF 5 0 0 0, fld 1 0 0 0 0 0],
      issuesAt (Where.plain .mx) (w.1 f) (w.2.1 f) [] = true) ∧
    (∀ f ∈ [fld 1 0 0 0 0 0x100000800, fld 1 0 0 0 0 0x100000804],
     let s := stateAt (Where.plain .mx) (.mbsrc f) fun x => x
     timedTurn s 0 .mx (.mbsrc f) = true ∧ headOk (s.core 0) .mx (.mbsrc f) = true ∧ ((fedBy (kOf s 0 .mx) true).length = 1) ∧
       (s.core 0).bench.bbuf.length < 2) := by decide +kernel

/-- R220: a sum of two numbers of one exponent, and of a cleared cell; a drain of 3. -/
theorem test_meets_AccumulatorResult :
    accAdd false { Cell.clear with m := 5, e := -4, clr := false } 3 (-4) = { Cell.clear with m := 8, e := -4, clr := false } ∧
    (accAdd false Cell.clear 3 (-4)).m = 3 ∧ drainCell false false { Cell.clear with m := 3, clr := false } = (0x40400000, false) ∧
    drainCell false true { Cell.clear with m := 1, e := 128, clr := false } = (0x7F7FFFFF, true) ∧
    isStep (.mstep (fld 1 0x74 0 0xA0 0 0)) = true ∧ (mxCore (State.reset.core 0)).bench.bbuf.length = 1 ∧
    (mxCore (State.reset.core 0)).csr.dual = false ∧ mantA 8 #[1, 0, 0, 0, 0, 0, 0, 1] 0 0 = -127 := by decide +kernel

/-! ### Hypotheses of the statements: cairn cores and dressers -/

/-- A state whose cairn core 0 executes a run of one word, of a slot with a page of flow state and the given job. -/
def cairnState (job : Option Nat) : State :=
  let s := State.reset.modCairn 0 fun x => { x with part := 0x400, job }
  { setRun 0 (some (runWith 0xB4000000)) s with issuer := .cairn 0, jobs := [job0] }

theorem test_meets_CairnWordResult :
    (let s := cairnState none
     let r := runWith 0xB4000000
     s.issuer = .cairn 0 ∧ s.regq = [] ∧ runOn s 0 = some r ∧ r.trap = none ∧ r.pc < r.m.k.kernel.length ∧ maskBit r 0 15 = true ∧
       maskBit r 1 0 = false) ∧
    (∀ rr ∈ [0, 1],
      let c := (runWith 0).m.k
      let o := 64 * rr
      (rr = 0 ↔ o + 64 ≤ classRecb c.w0) ∧ (rr = 1 ↔ classRecb c.w0 < o + 64) ∧
        64 * classCbase c.w2 + 0 * classRecb c.w0 + classRecb c.w0 ≤ 4096 * partPsize (cairnSlot (cairnState none) 0).part) ∧
    (tmEntry (.pow 1) 0 0 0x3F800000).2.2 = false ∧ (tmEntry (.pow 1) 0 0 0xBF800000).2.2 = true ∧
    (jobById (cairnState (some 0)) 0).isSome = true ∧ eventRoom (cairnState (some 0)) job0 = true ∧
    eventRoom (cairnState (some 0)) { job0 with evn := 16 } = false ∧
    partOf (Vector.ofFn fun i : Fin 16 => lanesOfPart { cell := { m := 5, e := 0xFFF0, jam := true, nan := false, sat := true, clr := false }, n := 3, sk := 2 } i.val) =
      { cell := { m := 5, e := 0xFFF0, jam := true, nan := false, sat := true, clr := false }, n := 3, sk := 2 } := by decide +kernel

theorem test_meets_CairnWordResult_repeat :
    (goTo 2 { runWith 0 with pc := 1, reps := [{ n := 2, idx := 0, first := 1, len := 1 }] }).pc = 1 ∧
    (goTo 2 { runWith 0 with pc := 1, reps := [{ n := 2, idx := 1, first := 1, len := 1 }] }).reps = [] := by decide +kernel

/-- A state whose loader of cluster 0 has axes of 8 and 4. -/
def dressState (closed : Bool) (emits : Nat) : State :=
  let w : DressWork := { axes := [freshAxis 0 8 4, freshAxis 1 4 1], total := 32, closed, emits, names := 2, refused := false }
  { State.reset.modCluster 0 fun x => { x with work := w } with issuer := .dress 0 }

theorem test_meets_DresserWordResult : ∀ b : Bool, ∀ n ∈ [0, 1],
    let s := dressState b n
    let w := (s.cluster 0).work
    s.issuer = .dress 0 ∧ s.regq = [] ∧ w.axes.length ≤ 6 ∧ w.axes.all (fun a => decide (a.ext ≤ 65536)) = true ∧
      w.axes[0]? = some (freshAxis 0 8 4) ∧ w.axes[1]? = some (freshAxis 1 4 1) ∧ plainIn w (freshAxis 0 8 4) = true ∧
      (freshAxis 0 8 4).istr = (freshAxis 1 4 1).ext * (freshAxis 1 4 1).istr ∧ 2 ∣ (freshAxis 0 8 4).ext ∧ ¬ 3 ∣ (freshAxis 0 8 4).ext ∧
      w.axes[2]? = none ∧ w.total * 2 ≤ 2 ^ 24 := by decide +kernel

/-! ### Hypotheses of the statements: exceptions, ticks, jobs and preemption -/

theorem test_meets_TrapTaken :
    (let o : TrapCause := { code := 4, detail := 2, r1 := none, r2 := none, obj := 7 }
     let l := [o, { o with code := 2, detail := 0 }]
     ∀ o ∈ l, 1 ≤ o.code ∧ o.code ≤ 14 ∧ o.detail < 256 ∧ o.obj < 1024 ∧ (∀ r, o.r1 = some r ∨ o.r2 = some r → r.word < 1024)) ∧
    latchRecords (State.reset.core 0) = [] ∧ inHbm (frameAddr 0 (State.reset.core 0)) 0x4000 = true := by
  refine ⟨fun o ho => ?_, by decide +kernel, by decide +kernel⟩
  fin_cases ho <;> exact ⟨by decide, by decide, by decide, by decide, fun r h => by simp at h⟩

/-- R126: the manual's worked report. -/
theorem test_trap_report_R126 :
    let o : TrapCause := { code := 5, detail := 0, r1 := some { eng := .va, pitch := 3, word := 17 }, r2 := some { eng := .vb, pitch := 3, word := 9 }, obj := 4 }
    let s := State.reset.modCluster 0 fun k => { k with clk := 200 }
    let y := (takeTrap 2 false o [] (s.modCore 2 fun x => { x with aligned := true })).core 2
    y.trap.tinfo = 0x0060182300302404 ∧ y.trap.ttick = 200 ∧ y.trap.tcause.getLsbD 63 = true ∧ y.trap.tcause.extractLsb' 0 4 = 5 := by decide +kernel

/-- R92's word with an s register where an a register is asked for. -/
def badWord : Instr := .add (fld 1 5 0x26 6 0 0)

/-- A core with the guard slot p2 unwritten. -/
def unwritten (strict : Bool) (x : Core) : Core :=
  { x with scal := { x.scal with pw := 0 }, csr := { x.csr with strict } }

def guarded : Instr := .movi { h := { dly := 1, g := 2, gs := true }, d := 5, a := 0, b := 0, c := 0, imm := 42 }

theorem test_meets_WordRaises :
    (let s := stateAt pLead badWord fun x => x
     Claims.atTurn s 0 .lead = true ∧ rdvFormOf badWord = none ∧ (toFields badWord).any (fun w => decide (encodingDetail (whereOf (s.core 0) .lead) w ≠ 0)) = true) ∧
    (∀ n ∈ [0x041, 0x04E], ∀ w ∈ csrWords,
      let i := w.1 (fld 1 5 6 0 0 (BitVec.ofNat 36 n))
      let s := stateAt pLead i fun x => { x with scal := { x.scal with s := vset x.scal.s 6 9 } }
      issues s 0 .lead i = true ∧ regsReady s 0 .lead [6, 5] = true ∧ inTrap (s.core 0) .lead = false ∧ (s.core 0).csr.priv = false ∧
        readReg (s.core 0) .lead 6 ≠ 0) ∧
    issuesAt pAp (.cop 0x40 (fld 0 0x25 0x26 0x27 0 0)) [] [] = true ∧
    (let s := stateAt pLead (.tret (fld 1 0 0 0 0 0)) fun x => x
     timedTurn s 0 .lead (.tret (fld 1 0 0 0 0 0)) = true ∧ headOk (s.core 0) .lead (.tret (fld 1 0 0 0 0 0)) = true) ∧
    (State.reset.core 0).trap.tcause.extractLsb' 4 4 = 0 ∧
    (∀ b : Bool, let s := stateAt pLead guarded (unwritten b)
      timedTurn s 0 .lead guarded = true ∧ selfGuarded guarded = false ∧ guardLate (s.core 0) .lead { dly := 1, g := 2, gs := true } = true ∧
        (s.core 0).csr.strict = b ∧ (s.cluster 0).frzlim = 0 ∧ rdvFormOf guarded = none) := by decide +kernel

/-- A cluster in a freeze of five cycles whose limit is given. -/
def frozen (lim : Nat) : State := State.reset.modCluster 0 fun k => { k with
  frzlim := BitVec.ofNat _ lim, freeze := some { cyc := 5, run := 5, kind := 3, eng := .va, core := 1, pitch := 2, word := 3 } }

/-- Core 0 at its watchdog's tick. -/
def watched : State := (State.reset.modCore 0 fun x => { x with aligned := true, csr := { x.csr with wdcmp := 7 } }).modCluster 0 fun k => { k with clk := 7 }

theorem test_meets_TickEvents :
    (quietCluster State.reset 0 = true ∧ ((0 : ClusterId).cores.all fun d => timedEngines.all fun g => !dueNow State.reset d g) = true) ∧
    trapValid ((stateAt pTrap (.tret (fld 0 0 0 0 0 0)) fun x => { x with trap := { x.trap with tcause := 0x8000000000000001 } }).core 0) = true ∧
    (∀ n ∈ [0, 5, 6], clockStands (frozen n) 0 = false ∧ ((frozen n).cluster 0).freeze.isSome = true ∧
      (((frozen n).cluster 0).frzlim.toNat ≤ 5 ↔ n ≤ 5)) ∧
    clockStands watched 0 = false ∧
    (∀ d ∈ (0 : ClusterId).cores, (((watched.core d).aligned = true ∧ (watched.core d).csr.wdcmp ≠ 0 ∧ (watched.core d).csr.wdcmp.toNat = tickOf watched d ∧
       (watched.cluster 0).tried = false ∧ (watched.core d).trap.wdDone ≠ some (watched.cluster 0).clk) ↔ d = 0)) := by decide +kernel

/-- Core 0 with one member, an engine whose word is given, of a job. -/
def jobState (e : Engine) (first : Bool) (i : Instr) (j : Job) (f : Core → Core) : State :=
  let s := stateAt (if first then pFirst e else Where.plain e) i f
  withJob j (s.modCore 0 fun x => { x with streams := (Vector.replicate 6 Stream.absent).set (engIdx e) (x.stream e) })

/-- A state with one member of a job, at the start of an image of the given units, of which the first is uncorrectable or not. -/
def imageState (phase : JobPhase) (units : List Nat) (bad : Bool) : State :=
  jobState .mx true (.rdvAlign (fld 0 0 0 0 0 0)) { job0 with phase } fun x => x.modStream .mx fun t => { t with
    pos := Pos.start 0
    buf := sputAll none [] (units.zipIdx.map fun p => (4 * p.2, some { val := BitVec.ofNat 32 p.1, bad := bad && decide (p.2 = 0) })) }

/-- A pitch header of one word, and `rdv.align` without a guard; then another word in its place. -/
theorem test_meets_JobEvents_start :
    (swf none (bufOf (leadState.core 0) .lead) = true ∧ hasImage (leadState.core 0) .lead = true) ∧
    (∀ u ∈ [0xB100F000, 0xB000F000], ∀ bad : Bool,
     let s := imageState .loaded [0xF0040000, 0, u, 0, 0] bad
     let n := nextJob s 0 .mx
     let unit := seeUnit s 0 ((s.core 0).stream .mx).buf ((s.core 0).stream .mx).pos.base
     jobById s 0 = some { job0 with phase := .loaded } ∧ Claims.presentOn s 0 = [.mx] ∧ n.fetched = true ∧
       unit.bad = bad ∧ isHeader unit.val = true ∧ (bad = false → n.bad = false) ∧ n.detail = 0 ∧ isAlign n.bits = decide (u = 0xB100F000) ∧
       trapValid (s.core 0) = false ∧
       (u = 0xB100F000 → n.bits.extractLsb' 88 8 = 0xB1 ∧ n.bits.extractLsb' 80 8 = 0 ∧ (unpackWord n.bits).fn = 0 ∧
         encodingDetail { eng := .mx, first := true, trap := false, intr := false } (unpackWord n.bits) = 0)) := by decide +kernel

/-- A job's member at a form, or not there yet. -/
def formState (i : Instr) (arr : List (Option RdvForm)) (preq : Bool) : State :=
  let s := jobState .mx false i { job0 with swap := none } fun x => { x with csr := { x.csr with preq } }
  s.modCore 0 fun x => arr.zipIdx.foldl (fun x p => x.modStream ((Engine.all[p.2]?).getD .lead) fun t => { t with present := true, arrived := p.1 })
    { x with streams := Vector.replicate 6 Stream.absent }

theorem test_meets_JobEvents_rendezvous :
    (let s := imageState .running [0xF0040000, 0, 0xB100F000, 0, 0] false
     jobById s 0 = some job0 ∧ job0.team.Nodup ∧ job0.atFlip = false ∧ (s.core 0).ap.storeQ = [] ∧
       ((s.core 0).stream .ap).loops = Vector.replicate 4 Level.zero ∧ Claims.presentOn s 0 = [.mx] ∧ ((s.core 0).stream .mx).first = true ∧
       (nextJob s 0 .mx).fetched = true ∧ trapValid (s.core 0) = false ∧ startCheck s 0 .mx = none ∧ (nextJob s 0 .mx).waits = []) ∧
    (∀ arr ∈ [[some RdvForm.rdv, some .rdv], [some .rdv, some .flip], [some .rdv, none], [some .flip, some .flip]],
     let s := formState (.movi (fld 1 5 0 0 0 1)) arr true
     members s job0 ≠ [] ∧ (∀ m ∈ members s job0, ((s.core m.1).stream m.2).ended = false ∧ ((s.core m.1).stream m.2).rdvs = job0.rdvs) ∧
       (members s job0).map (fun m => ((s.core m.1).stream m.2).arrived) = arr ∧ trapPending s 0 = false) ∧
    (let s := (formState (.movi (fld 1 5 0 0 0 1)) [some .rdv, some .rdv] true).modCore 0 fun x => { x with trap := { x.trap with tcause := 0x8000000000000001 } }
     (∃ m ∈ members s job0, m.2.timed = true ∧ trapPending s m.1.cluster = true) ∧
       ∀ m ∈ members s job0, ((s.core m.1).stream m.2).ended = false ∧ ((s.core m.1).stream m.2).rdvs = job0.rdvs) := by decide +kernel

theorem test_meets_JobEvents_complete :
    (let s := withJob job0 State.reset
     inHbm (job0.entry + 112) 16 = true ∧ (s.core 0).ap.storeQ = [] ∧ members s job0 = [] ∧ (s.core 0).cmds = [] ∧ (s.core 0).running = [] ∧
       (s.core 0).job = some 0 ∧ job0.replay = none ∧ job0.swap = none) ∧
    (let s := formState (.movi (fld 1 5 0 0 0 1)) [none] false
     ∃ m ∈ members s job0, ((s.core m.1).stream m.2).ended = false) := by decide +kernel

/-- A job with its team of core 0 saved there, its context area at the given address. -/
def saved0 (ctx : W64) : Job :=
  let x := State.reset.core 0
  { job0 with phase := .suspended
              saved := [{ core := { x with aligned := true, csr := { x.csr with ctxbase := ctx } }
                          from_ := 0, whole := false, late := [], clk := 5, slots := [] }]
              plane := { plane0 with starts := vset plane0.starts 1 0x40 } }

theorem test_meets_PreemptEvents :
    (∀ p ∈ [JobPhase.suspending, .running], ∀ preq : Bool, ∀ save : Bool,
     let j := { job0 with phase := p, save }
     let s := (withJob j State.reset).modCore 0 fun x => { x with csr := { x.csr with preq } }
     jobById s 0 = some j ∧ job0.team.Nodup ∧ (s.core 0).ap.storeQ = [] ∧ (s.core 0).ap.host = none ∧ members s job0 = [] ∧
       (s.core 0).cmds = [] ∧ (s.core 0).running = [] ∧ trapPending s 0 = false ∧ Job.resident j = true ∧ (s.core 0).csr.preq = preq ∧
       (s.core 0).job = some job0.id) ∧
    (∀ f : Fin 4, (withJob job0 State.reset).l2[f] = []) := by decide +kernel

theorem test_meets_PreemptEvents_trap :
    (let s := (withJob job0 State.reset).modCore 0 fun x => { x with trap := { x.trap with tcause := 0x8000000000000001 } }
     trapPending s 0 = true) := by decide +kernel

/-- A decision of base camp for slot 0: its entry is the first of a ring at the given address. -/
def won (queue : Nat) : Channel :=
  { slot := 0, node := none, resume := none, late := false, queue, head := 0, index := 0, addr := queue + 128 }

/-- The team back on core 0, with the channel that its slot has won. -/
def backState (ctx : W64) : State :=
  let s := { withJob (saved0 ctx) State.reset with camp := { State.reset.camp with channels := [{ won 0 with resume := some 0 }] } }
  { s.modCore 0 fun x => { x with job := none } with mem := { s.mem with poison := [(0x244000 / 64, true)] } }

/-- An area outside HBM is kept in the device; one with an uncorrectable state block is wrong. -/
theorem test_meets_PreemptEvents_resume : slotChannel (backState 0) 0 = some { won 0 with resume := some 0 } ∧
    ∀ v ∈ (saved0 0).saved, v.late = [] ∧ v.core.cmds = [] ∧ v.core.aligned = true ∧ v.core.tick0 ≤ v.clk := by decide +kernel

theorem test_meets_PreemptEvents_found (ctx : W64) : jobById (backState ctx) 0 = some (saved0 ctx) ∧
    slotChannel (backState ctx) 0 = some { won 0 with resume := some 0 } ∧ (backState ctx).camp.stopped = false := ⟨rfl, rfl, rfl⟩

theorem test_meets_PreemptEvents_lost : ∀ v ∈ (saved0 0).saved, (readContext (backState 0) v).isNone = true := by decide +kernel

theorem test_meets_PreemptEvents_kept (s : State) (v : SavedCore) (h : inHbm (contextAddr v.from_ v.core) 0x400000 = false) :
    readContext s v = some v.core := by simp only [readContext, h, Bool.not_false, if_true]

theorem test_meets_PreemptEvents_outside :
    (∀ v ∈ (saved0 0x100000000000).saved, inHbm (contextAddr v.from_ v.core) 0x400000 = false) := by decide +kernel

theorem test_meets_PreemptEvents_place : (teamPlace (backState 0) (saved0 0)).map (fun l => l.map Fin.val) = some [0] := by decide +kernel

theorem test_meets_PreemptEvents_prectl :
    (∀ w ∈ csrWords, ∀ v ∈ [0, 2, 4, 6], let i := w.1 (fld 1 0 6 0 0 0x04E)
     let s := stateAt pLead i fun x => { trusted x with scal := { x.scal with s := vset x.scal.s 6 (BitVec.ofNat 64 v) } }
     issues s 0 .lead i = true ∧ regsReady s 0 .lead [6] = true ∧ (readReg (s.core 0) .lead 6).toNat = v ∧
       streamPriv (Ctx.mk s 0 .lead (reqOf s 0 .lead) (s.cluster 0).clk) = true) := by decide +kernel

/-! ### Hypotheses of the statements: events of the APs, devices and base camp -/

/-- HBM with 64-bit words at the given addresses. -/
def hbmWords (l : List (Nat × Nat)) (s : State) : State :=
  { s with mem := { s.mem with hbm := sputAll 0 s.mem.hbm (l.flatMap fun p => (bytesOfNat 8 p.2).zipIdx.map fun q => (p.1 + q.2, q.1)) } }

/-- A root table at 0 whose first entry is missing, or points to a table at 0x1000 with a 1 GiB leaf of world 0; the AP of core 0 is
to load a byte from 0x12345. -/
def tables (z : Bool) : State :=
  hbmWords (if z then [] else [(0, 0x1001), (0x1000, 0xF)]) (stateAt pAp (.ldB (memFld 0x12345)) fun y => { y with job := some 0 })

/-- A leaf of 1 GiB at 0 that may be read and written. -/
def leaf0 : TlbEntry := { va := 0, bits := 30, asid := 0, g := false, w := true, r := true, excl := false, world := 0, pa := 0 }

theorem test_meets_ApEvents_walk :
    (∀ z : Bool, let s := tables z
     let k : Ctx := (turnOf s 0 .ap).ctx s (s.cluster 0).clk
     (walkPlan s 0 0x12345 .read).isSome = true ∧ (walkPlan s 0 0x12346 .read).isNone = true ∧ (walkPlan s 0 0x12345 .write).isNone = true ∧
       (turnOf s 0 .ap).instr = some (.ldB (memFld 0x12345)) ∧ eaOf k (memFld 0x12345) = 0x12345 ∧ regsReady s 0 .ap [0x26, 0x25] = true ∧
       (s.core 0).ap.host.isNone = true ∧ tlbFind (s.core 0) 0x12345 = none ∧ (s.core 0).ap.walks = [] ∧
       inHbm 0 (2 ^ 20) = true ∧ scrubMarked s 0 8 = false ∧ poisoned s 0 8 = false ∧ (deviceWord s 0 0).getLsbD 0 = !z) ∧
    (let s := tables false
     let e3 := deviceWord s 0 0
     let e2 := deviceWord s 0 0x1000
     pteZeros e3 = true ∧ pteLeaf e3 = false ∧ pteAddr e3 = 0x1000 ∧ scrubMarked s 0x1000 8 = false ∧ poisoned s 0x1000 8 = false ∧
       e2.getLsbD 0 = true ∧ pteZeros e2 = true ∧ pteLeaf e2 = true ∧ pteAddr e2 % 2 ^ 30 = 0 ∧
       (leafCheck s 0 (apPriv (s.core 0)) .read leaf0 0x12345 1 2).isNone = true) := by decide +kernel

/-- A fault of the AP of core 0, posted or not. -/
def halted (posted : Bool) : State :=
  let f : ApFault :=
    { cause := 6, detail := 3, level := 2, needW := true, va := 0x123, inUi := false, addr := 0x40, pitch := 5, word := 6, posted }
  State.reset.modCore 0 fun x => { x with ap := { x.ap with fault := some f } }

theorem test_meets_ApEvents_fault :
    (∀ b : Bool, let s := { halted b with sys := { State.reset.sys with fqbase := 0x10000, fqsize := 2 } }
     (s.core 0).ap.fault.isSome = true ∧ bitsN s.sys.fqbase.toNat 12 40 * 4096 ≠ 0 ∧ (s.sys.fqtail - s.sys.fqhead).toNat < 2 ^ s.sys.fqsize.toNat ∧
       inHbm (bitsN s.sys.fqbase.toNat 12 40 * 4096) 32 = true ∧ powered s = true ∧ (s.core (coreOf 0)).ap.fault ≠ none ∧
       (s.core (coreOf 0)).ap.stale = false) ∧
    (let x : LqEntry := { img := 1, pending := none }
     let e : LqEntry := { img := 2, pending := some [] }
     [x, e, e] = [x] ++ e :: [e] ∧ x.pending = none ∧ e.pending ≠ none) ∧
    State.reset.mem.wf = true ∧ (∀ f : Fin 4, swf none State.reset.l2[f] = true) ∧
    (let s := apState (.movi (fld 0 0x25 0 0 0 1))
     let d : L2Line := { world := 0, key := keyNum s 0, data := 5, bad := 0, dirty := 1 }
     l2Get { s with l2 := s.l2.set 0 (sput none s.l2[0] 3 (some d)) } 0 3 = some d) := by decide +kernel

/-- A core whose AP takes completions, with held and enqueued records. -/
def noted (recs : Nat) (x : Core) : Core :=
  { x with ap := { x.ap with uien := true, recs := List.replicate recs 1
                             heldDone := [{ record := 5, cmd := none, d := 0x25, intr := false, v := 9 }] } }

theorem test_meets_DeviceEvents_core :
    (∀ n ∈ [0, 63, 64], let s := stateAt pAp (.movi (fld 0 0x25 0 0 0 1)) (noted n)
     (s.core 0).ap.heldDone ≠ [] ∧ ((s.core 0).ap.recs.length < 64 ↔ n ≠ 64) ∧
       (let x := s.core 0
        (x.ap.uien && !x.ap.recs.isEmpty && !x.ap.inUi && x.ap.fault.isNone && (x.stream .ap).present && !(x.stream .ap).ended
          && !(x.stream .ap).first && x.ap.host.isNone) = decide (n ≠ 0))) ∧
    regClass 0x25 = some .a := by decide +kernel

/-- An invalidate of one page at the head, and a store of core 0 that it covers or does not. -/
def invalState (va : Nat) : State :=
  let v : Inval := { va := 0x1000, len := 0x1000, asid := 0, hint := 0, from_ := none, sent := false, gen := 0 }
  (apState (.movi (fld 0 0x25 0 0 0 1))).modCore 0 (pushStores [{ va, asid := 0, world := 0, wq := none, cells := [(va, 7)] }]) |> fun s =>
    { s with sys := { s.sys with invals := [v] } }

theorem test_meets_DeviceEvents_inval :
    (invalState 0x1800).sys.invals.length = 1 ∧ ((invalState 0x1800).core 0).ap.storeQ.any (fun o => decide (o.va < 0x2000) && decide (0x1000 < o.va + o.cells.length)) = true ∧
    (let s := apState (.movi (fld 0 0x25 0 0 0 1))
     (s.cores.all fun x => x.ap.storeQ.isEmpty && x.cmds.isEmpty && x.running.isEmpty && decide (x.vec.q = Vector.replicate 8 [])) = true ∧
       (s.tether.sess.all fun z => z.outstanding.isEmpty && z.held.isEmpty) = true) := by decide +kernel

/-- A scrub of world 3 at its first step. -/
def scrubState (kind : Nat) (a b : Nat) (steps total : Nat) : State :=
  let x : Scrub := { world := 3, kind := BitVec.ofNat 2 kind, a := BitVec.ofNat 64 a, b := BitVec.ofNat 64 b, steps
                     reply := { core := 0, d := 0, intr := false, tag := 0, job := none } }
  let s := State.reset
  { s with scrub := { s.scrub with list := [x], active := vset s.scrub.active 3 true, total := vset s.scrub.total 3 (BitVec.ofNat 28 total) } }

theorem test_meets_DeviceEvents_scrub :
    (∀ k ∈ [0, 1, 2], ∀ n ∈ [1, 2], let s := scrubState k 0x4000 0x2000 0 n
     s.scrub.joins = [] ∧ s.scrub.list.all (fun x => decide (x.world = 3) && decide (x.steps < scrubSteps x) && decide (x.a.toNat % 4096 = 0)) = true ∧
       (vget s.scrub.done 3 0 + 1 = vget s.scrub.total 3 0 ↔ n = 1)) ∧
    (scrubState 0 0 (1 + 31 * 2 ^ 16) 1 9).scrub.list.all (fun x => decide (x.b.extractLsb' 0 16 = 1) && decide (x.b.extractLsb' 16 10 = 31) &&
      decide (x.steps < scrubSteps x)) = true ∧
    (∀ c : Fin 2, (State.reset.core (coreOf c)).job = none ∧ (∀ x ∈ State.reset.scrub.list, x.kind = 0 → x.a.toNat % 128 ≠ c.val) ∧
      State.reset.scrub.cworld[(coreOf c : CoreId)] = 0) ∧
    ((withJob job0 State.reset).core 0).job ≠ none := by decide +kernel

/-- A camp with slot 0 mapped to a ring at 0x100000 whose head entry has the given words, and its channel won. -/
def campState (words : List (Nat × Nat)) (jobs : List Job) : State :=
  let x : Slot := { Slot.reset with mapped := true, qbase := 0x100000, tail := 1, vf := 5 }
  let s := hbmWords (words.map fun p => (0x100080 + p.1, p.2)) State.reset
  { s with jobs, camp := { s.camp with slots := s.camp.slots.set 0 x, channels := [won 0x100000] } }

theorem test_meets_SlotEvents_registers :
    (let s := campState [] []
     powered s = true ∧ (campSlot s 0).vf = 5 ∧ (campSlot s 0).mapped = true ∧ (campSlot s 1).vf = 0 ∧ (campSlot s 1).mapped = false ∧
       campSlot (s.modSlot 1 fun x => { x with lastQ := some 0x200000 }) 1 = { Slot.reset with lastQ := some 0x200000 } ∧ inHbm 0x200000 4 = true) ∧
    (let s := withJob job0 (campState [] [])
     s.jobs.filter (fun k => decide (k.slot = 0)) = [job0] ∧ (s.core (job0.team.headD 0)).job = some job0.id ∧ job0.resident = true ∧
       (s.jobs.map fun j => j.id).Nodup) := by decide +kernel

/-- The slots of R404's example: 3, 7 and 9 of band 0 offer an entry that is refused at once, with tickets 4, 0 and 6. -/
def drawState (age : Nat) : State :=
  let s := hbmWords [(0x100080, 1)] State.reset
  let x : Slot := { Slot.reset with mapped := true, qbase := 0x100000, tail := 1 }
  let slots := ((s.camp.slots.set 3 { x with tickets := 4 }).set 7 x).set 9 { x with tickets := 6 }
  { s with camp := { s.camp with slots, ready := true, stopped := false, seed := 1, ages := vset s.camp.ages 0 age } }

/-- R404: the example's two decisions. -/
theorem test_lottery_R404 :
    (readySlots (drawState 0)).map (fun p => p.1.val) = [3, 7, 9] ∧
    (lotteryStep (drawState 0)).camp.seed = 0x00042021 ∧ (lotteryStep (drawState 0)).camp.channels.map (fun c => c.slot.val) = [9] ∧
    (lotteryStep (lotteryStep (drawState 0))).camp.seed = 0x04080601 ∧
    (lotteryStep (lotteryStep (drawState 0))).camp.channels.map (fun c => c.slot.val) = [9, 3] := by decide +kernel

theorem test_meets_SlotEvents_lottery : ∀ age ∈ [1023, 1024], (drawState age).camp.ready = true ∧ (drawState age).camp.stopped = false ∧
    (drawState age).camp.channels.length < 4 ∧ (readySlots (drawState age)).isEmpty = false ∧ (vget (drawState age).camp.ages 0 0 < 1024 ↔ age = 1023) := by
  decide +kernel

theorem test_meets_EntryEvents :
    (∀ kind ∈ [0, 1, 2, 3, 255], let s := campState [(0, kind + 0x70000), (24, 4)] []
     slotChannel s 0 = some (won 0x100000) ∧ natOfBytes (deviceBytes s 0 0x100080 1) = kind ∧
       bitsN (campSlot s 0).qbase.toNat 12 40 * 4096 + 128 + 128 * ((campSlot s 0).head.toNat % 2 ^ (campSlot s 0).qlog.toNat) = 0x100080 ∧
       inHbm (bitsN (campSlot s 0).qbase.toNat 12 40 * 4096) (128 + 128 * 2 ^ (campSlot s 0).qlog.toNat) = true ∧
       slotChannel s 1 = none ∧ s.camp.late = [] ∧ entryInvalid s 0x100080 = false ∧ replayInvalid s 0x100080 = true) ∧
    (let s := campState [(0, 3), (64, 2), (56, 0x300000), (72, 0x400000)] []
     replayInvalid s 0x100080 = false ∧ entReinst s 0x100080 = false ∧ inHbm (entLog s 0x100080) 576 = true ∧ 0x100010 ≤ entLog s 0x100080) := by
  decide +kernel

/-- The plane image with the privilege bit set at 0. -/
theorem test_meets_EntryEvents_privilege :
    (let s := hbmWords [(0, 0x20)] (campState [(0, 1), (24, 4)] [])
     (entryPlane s (campSlot s 0).open_ 0x100080).priv = true ∧ (campSlot s 0).priv = false) := by decide +kernel

theorem natOfBytes_zeros (n : Nat) : natOfBytes (List.replicate n (0#8)) = 0 := by
  induction n with
  | zero => rfl
  | succ n ih => simp [List.replicate_succ, natOfBytes, ih]

theorem bvOfBytes_zeros (w n : Nat) : bvOfBytes w (List.replicate n (0#8)) = 0#w := by simp [bvOfBytes, natOfBytes_zeros]

/-- The plane of an image of zeros. -/
def planeZ : Plane := { plane0 with cairn := List.replicate 8 (0, 0, 0), kernel := List.replicate 4096 0 }

theorem planeOf_zeros (n : Nat) : planeOf (List.replicate n (0#8)) = planeZ := by
  have hw (off : Nat) : wordOf (List.replicate n (0#8)) off = 0 := by simp [wordOf, List.drop_replicate, List.take_replicate, bvOfBytes_zeros]
  have hb (off m k : Nat) : bvOfBytes k (List.take m (List.drop off (List.replicate n (0#8)))) = 0 := by
    simp [List.drop_replicate, List.take_replicate, bvOfBytes_zeros]
  have ht (k : Nat) : tabOf (List.replicate n (0#8)) k = [] := by
    simp [tabOf, List.drop_replicate, List.take_replicate, List.all_replicate]
  have hd (off k : Nat) : wordOf (List.drop off (List.replicate n (0#8))) k = 0 := by
    simp [wordOf, List.drop_replicate, List.take_replicate, bvOfBytes_zeros]
  unfold planeOf
  simp only [hw, hb, ht, wordsOf, binOf, hd]
  have hc : (List.range 8).map (fun _ => ((0 : W64) &&& class0Mask, (0 : W64), (0 : W64) &&& class2Mask)) = List.replicate 8 (0, 0, 0) := by decide
  have hk : (List.range 4096).map (fun _ => (0 : W32)) = List.replicate 4096 0 := by simp [List.map_const']
  rw [hc, hk]
  have hv (α : Type) (m : Nat) (x : α) : Vector.ofFn (fun _ : Fin m => x) = Vector.replicate m x := by
    ext i hi; simp
  simp only [hv, Vector.map_replicate]
  rfl

/-- Memory of the host that nothing has written reads as zeros. -/
theorem deviceBytes_host (s : State) (v : World) (n : Nat) : s.mem.host = [] → ∀ a, 0x8000000000000 ≤ a → a + n ≤ 0x8000000000000 + 0x10000 →
    deviceBytes s v a n = List.replicate n (0#8) := by
  intro h
  induction n with
  | zero => intro a _ _; rfl
  | succ n ih =>
    intro a ha hb
    have hh : inHost a = true := by simp [inHost]; omega
    simp only [deviceBytes, hh, if_true, h, List.replicate_succ]
    rw [ih (a + 1) (by omega) (by omega)]
    rfl

/-- An entry of a kind whose plane is an image of zeros in host memory. -/
def entryState (kind : Nat) (jobs : List Job) : State := campState [(0, kind), (8, 0x8000000000000), (24, 4)] jobs

theorem entryState_plane (kind : Nat) (jobs : List Job) (h : entPlane (entryState kind jobs) 0x100080 = 0x8000000000000)
    (hp : entPatch (entryState kind jobs) 0x100080 = List.replicate 8 0) :
    entryPlane (entryState kind jobs) (campSlot (entryState kind jobs) 0).open_ 0x100080 = planeZ := by
  unfold entryPlane planeBytes
  rw [h, hp, deviceBytes_host _ _ _ rfl _ (by omega) (by omega), planeOf_zeros]
  rfl

theorem test_meets_EntryEvents_launch :
    (let s := entryState 1 []
     let p := entryPlane s (campSlot s 0).open_ 0x100080
     entryInvalid s 0x100080 = false ∧ planeRefusal s (campSlot s 0).priv p = 0 ∧ (placeTeam s p).map (fun l => l.map Fin.val) = some [0] ∧
       cgrpOf p.collid = 0) := by
  have h := entryState_plane 1 [] (by decide +kernel) (by decide +kernel)
  simp only [h]
  decide +kernel

/-- A resident job of the entry's slot that the swap names. -/
theorem test_meets_EntryEvents_swap :
    (let s := entryState 2 [job0]
     let p := entryPlane s (campSlot s 0).open_ 0x100080
     s.jobs = [job0] ∧ job0.resident = true ∧ job0.index = natOfBytes (deviceBytes s 0 (0x100080 + 32) 2) ∧ p.priv = false ∧
       p.world = job0.plane.world ∧ p.looptab = job0.plane.looptab ∧ (∀ n ∈ p.starts.toList, n % 64 = 0) ∧ (∀ t ∈ p.tabs.toList, t = []) ∧
       (p.cairn.all fun c => !classValid c.1) = true) := by
  have h := entryState_plane 2 [job0] (by decide +kernel) (by decide +kernel)
  simp only [h]
  decide +kernel

/-- A swap entry that names the second entry of the ring, ended or not, or none; the package asleep or awake. -/
theorem test_meets_EntryEvents_left : (∀ n ∈ [1, 0xFFFF], ∀ d ∈ [0, 0x100],
    let s := campState [(0, 2), (8, 0x8000000000000), (24, 4), (32, n), (240, d)] []
    let mate := 0x100080 + 128 * natOfBytes (deviceBytes s 0 (0x100080 + 32) 2)
    entryInvalid s 0x100080 = false ∧ natOfBytes (deviceBytes s 0 (0x100080 + 32) 2) = n ∧
      (n = 1 → natOfBytes (deviceBytes s 0 (mate + 113) 1) % 2 = d / 0x100)) ∧
    (let s := campState [] []
     { s with camp := { s.camp with stopped := true } }.camp.stopped = true ∧ Claims.ringEntry (won 0x100000)) :=
  ⟨by decide +kernel, rfl, rfl, rfl, rfl, rfl, rfl⟩

theorem test_meets_EntryEvents_images : (List.replicate 33024 (0 : Byte)).length = 33024 ∧ 64 * 5 + 3 = 323 ∧ (5 : Nat) < 0x40 :=
  ⟨List.length_replicate, by decide, by decide⟩

/-! ### Hypotheses of the statements: commands -/

/-- A command of LEAD of core 0. -/
def cmd0 (fn : Nat) (a b imm : Nat) : Command :=
  { id := 7, src := .lead, target := targetOfFn fn, fn := BitVec.ofNat 7 fn, d := 5, g := 15, gs := false, a := BitVec.ofNat 64 a
    b := BitVec.ofNat 64 b, imm := BitVec.ofNat 36 imm, geo := Vector.replicate 8 0, world := 0, hnd := false, pieces := [], xtra := []
    tmshape := 0, tab := [], ok := some true, prog := none }

/-- The state with a command running on core 0. -/
def runs (k : Command) (s : State) : State := s.modCore 0 fun x => { x with running := [k] }

/-- The command performs in its engine. -/
def performs (k : Command) (s : State) : Bool := Claims.performing (runs k s) 0 k k.fn.toNat

theorem test_meets_CommandEvents_head :
    (∀ ok ∈ [none, some true, some false], ∀ gs : Bool, ∀ w : Bool, ∀ g ∈ [2, 15],
      let k := { cmd0 6 0 0 0 with ok, g := BitVec.ofNat 4 g, gs }
      let s := State.reset.modCore 0 fun x => { x with cmds := [k], scal := { x.scal with pw := if w then 4 else 0 } }
      (queueOf (s.core 0) .lead (targetOfFn 6)).head? = some k ∧ slotWritten (s.core 0) false 2 = w ∧ slotVal (s.core 0) false 2 = false ∧
        (s.core 0).ap.stale = false ∧ (∀ d ∈ CoreId.cluster 0 |>.cores, (s.core d).running = [])) ∧
    regClass 5 = some .s ∧ regClass 0x90 = some .p ∧ regClass 0x25 = some .a := by decide +kernel

theorem test_meets_CommandEvents_fill :
    (∀ p ∈ [(0, 1), (0x3FF0, 16), (0, 0), (0x3FF0, 17)],
      let k := cmd0 6 0xDDCCBBAA (p.1 + 2 ^ 16 * p.2) 0
      performs k State.reset = true ∧ k.a.toNat < 2 ^ 32 ∧ k.b.toNat < 2 ^ 32 ∧ bitsN k.b.toNat 14 2 = 0 ∧
        (0x200000 < bitsN k.b.toNat 0 14 * 128 + 128 * bitsN k.b.toNat 16 16 ↔ p.2 = 17)) ∧
    (∀ n ∈ [15, 16], performs (cmd0 0xC 1 n 0) State.reset = true ∧ ((cmd0 0xC 1 n 0).b.toNat < 16 ↔ n = 15)) := by decide +kernel

theorem test_meets_CommandEvents_bins :
    (let k := cmd0 9 0x1000 (1 + 2 ^ 16 * 1 + 2 ^ 24 * 15) 0
     let s := State.reset.modCore 0 sfCore
     performs k s = true ∧ (s.core 0).parityBad = [] ∧ k.a.toNat % 4 = 0 ∧ 1 ≤ bitsN k.b.toNat 0 16 ∧
       (k.a.toNat + 4 * bitsN k.b.toNat 0 16 + 127) / 128 * 128 + 4 * (bitsN k.b.toNat 16 8 + 1) ≤ 0x200000 ∧
       (∀ e ∈ List.range 2, 15 + e < 16 → 1 ≤ (vget (s.core 0).sf.b (15 + e) Bin.zero).cap.toNat ∧ (vget (s.core 0).sf.b (15 + e) Bin.zero).cap.toNat ≤ 4096)) ∧
    (∀ fill ∈ [1, 4], ∀ rule ∈ [0, 2], ∀ len ∈ [256, 257],
      let k := cmd0 0xA 0x1000 (1 + 2 ^ 20 * 3 + 2 ^ 32 * 0x2000 + 2 ^ 56 * 1) 0
      let b : Bin := { Bin.zero with rowb := 256, cap := 4, fill := BitVec.ofNat 13 fill, rule := BitVec.ofNat 2 rule }
      let s := State.reset.modCore 0 fun x => spadPut { x with sf := { x.sf with b := vset x.sf.b 3 b } } 0x1000 (bytesOfNat 4 len)
      performs k s = true ∧ (s.core 0).parityBad = [] ∧ natOfBytes (spadGet (s.core 0) 0x1000 4) = len ∧ vget (s.core 0).sf.b 3 Bin.zero = b ∧
        bitsN k.b.toNat 20 4 = 3 ∧ bitsN k.b.toNat 0 16 = 1 ∧ bitsN k.b.toNat 16 4 = 0 ∧ bitsN k.b.toNat 24 8 = 0 ∧
        bitsN k.b.toNat 32 21 = 0x2000 ∧ bitsN k.b.toNat 53 3 = 0 ∧ bitsN k.b.toNat 60 4 = 0 ∧ (bitsN k.b.toNat 56 4 + 1) * 128 = 256) := by decide +kernel

/-- The piece of memory at 0x10000 that a command reads or writes. -/
def piece (len : Nat) (wr : Bool) : Piece := { va := 0x10000, pa := 0x10000, len, wr }

/-- R173, R175: `axis 0, 8`, `emit 0, 1`; and an `emit` of an axis that is not there. -/
theorem test_meets_CommandEvents_dress : ∀ p ∈ [([0x0000000000000007, 0x7000000000000001], true), ([0x7300000000000001, 0x0], false)],
    let k := { cmd0 8 0 0 0x20000 with pieces := [piece 24 false] }
    let words : List W64 := p.1.map (BitVec.ofNat 64)
    let s := hbmWords [(0x10000, 2), (0x10008, p.1.headD 0), (0x10010, p.1.getD 1 0)] State.reset
    performs k s = true ∧ vget (s.cluster 0).slots 2 none = none ∧
      sourceData s 0 k = (bytesOfNat 8 words.length ++ words.flatMap (fun w => bytesOfNat 8 w.toNat)).map some ∧
      (dressLoad words).isSome = p.2 := by decide +kernel

theorem test_meets_CopyAndKeyEvents_copy :
    (∀ fn ∈ [1, 2, 5], ∀ cols ∈ [64, 65],
      let k := { cmd0 fn 0 0x3FFF (8 * 2 ^ 32 + 8 * 2 ^ 28) with
        geo := vset (Vector.replicate 8 0) 0 (BitVec.ofNat 64 (2 * 2 ^ 48 + cols * 2 ^ 32)), pieces := [piece 128 (decide (fn = 2))] ++
          if fn = 5 then [{ piece 128 true with pa := 0x20000, va := 0x20000 }] else [] }
      let g := geoOf (vget k.geo (bitsN k.imm.toNat 25 3) 0)
      performs k State.reset = true ∧ bitsN k.imm.toNat 32 4 = 8 ∧ bitsN k.imm.toNat 28 4 = 8 ∧ bitsN k.imm.toNat 24 1 = 0 ∧ g.nrow * g.ncol = 2 * cols ∧
        g.stride = 0 ∧ (bitsN k.b.toNat 0 14 * 128 + g.nrow * g.ncol ≤ 0x200000 ↔ cols = 64) ∧
        (fn ≠ 2 → sourceOf k = [piece 128 false]) ∧ (fn ≠ 1 → ∀ p ∈ targetOf k, p.len = 128 ∧ inHbm p.pa 128 = true) ∧ (fn = 5 → piecesMeet (sourceOf k) (targetOf k) = false)) ∧
    State.reset.mem.poison = [] ∧ State.reset.keys.zeroed.getLsbD 0 = false ∧ (State.reset.core 0).parityBad = [] := by decide +kernel

theorem test_meets_CopyAndKeyEvents_cache (line : Nat) : l2Get State.reset (0 : CoreId).face line = none := rfl

theorem test_meets_CopyAndKeyEvents_rows :
    (∀ fn ∈ [3, 4], ∀ bound ∈ [0, 4, 5],
      let k := { cmd0 fn 0x0004000400040004 0x0004000400040004 (1 * 2 ^ 22) with
        geo := vset (Vector.replicate 8 0) 1 (BitVec.ofNat 64 (128 * 2 ^ 16 + bound))
        pieces := if bound = 5 ∧ fn = 3 then [piece 1024 false] else [] }
      let idx (n : Nat) : Nat := if n < 4 then bitsN k.a.toNat (16 * n) 16 else bitsN k.b.toNat (16 * (n - 4)) 16
      performs k State.reset = true ∧ bitsN k.imm.toNat 20 2 = 0 ∧ bitsN k.imm.toNat 22 14 = 1 ∧ bitsN k.imm.toNat 16 4 = 0 ∧
        (List.range 8).all (fun n => decide (idx n < bound) == decide (bound = 5)) = true) ∧
    (let k := { cmd0 4 0x0004000400030004 0x0004000400040004 (1 * 2 ^ 22) with
        geo := vset (Vector.replicate 8 0) 1 (BitVec.ofNat 64 (128 * 2 ^ 16 + 4)), pieces := [piece 128 true] }
     let idx (n : Nat) : Nat := if n < 4 then bitsN k.a.toNat (16 * n) 16 else bitsN k.b.toNat (16 * (n - 4)) 16
     performs k State.reset = true ∧ (List.range 8).all (fun n => decide (idx n < 4) == decide (n = 1)) = true ∧ targetOf k = [piece 128 true]) := by
  decide +kernel

/-! HBM that nothing has written. -/

theorem reset_row (line : Nat) : hbmRow State.reset line = 0 := by
  have h : sgets 0 State.reset.mem.hbm (128 * line) 128 = List.replicate 128 (0 : Byte) := rfl
  unfold hbmRow
  rw [h]
  decide +kernel

theorem reset_engineByte (pa : Nat) (hp : inHbm pa 1 = true) (hh : inHost pa = false) : engineByte State.reset 0 0 pa = some 0 := by
  have h1 : l2Get State.reset 0 (pa / 128) = none := rfl
  have hk : keyNum State.reset 0 = 0 := by decide +kernel
  have h2 : sget 0 State.reset.mem.lineKey (pa / 128) = 0 := rfl
  have h3 : hbmBad State.reset (pa / 128) = 0 := by
    have (u : Nat) : sget false State.reset.mem.poison u = false := rfl
    simp [hbmBad, this]
  have h4 : ∀ i, rowByte 0 i = 0 := by intro i; simp [rowByte]
  simp only [engineByte, hh, hp, lineForEngine, h1, hbmLineFor, h2, hk, if_true, h3, reset_row, h4]
  simp

theorem reset_engineBytes (n : Nat) : ∀ pa, pa + n ≤ 0x100000 → engineBytes State.reset 0 0 pa n = List.replicate n (some 0) := by
  induction n with
  | zero => intro pa _; rfl
  | succ n ih =>
    intro pa h
    have hp : inHbm pa 1 = true := by simp [inHbm]; omega
    have hh : inHost pa = false := by simp [inHost]; omega
    simp only [engineBytes, reset_engineByte pa hp hh, ih (pa + 1) (by omega), List.replicate_succ]

theorem test_meets_CopyAndKeyEvents_gather :
    let k := { cmd0 3 0 0 0 with pieces := [piece 1024 false] }
    sourceData State.reset 0 k = (List.replicate 1024 0).map some := by
  have h : pieceShut State.reset 0 0 0x10000 = false := by decide +kernel
  have e : engineBytes State.reset (0 : CoreId).face 0 0x10000 1024 = List.replicate 1024 (some 0) := reset_engineBytes 1024 0x10000 (by omega)
  have hb : broughtBy (State.reset.core 0) 7 = none := rfl
  simp only [sourceData, sourcePart, pieceOffsets, sourceOf, piece, cmd0, hb, h, e, List.filter, Bool.not_false, List.flatMap_cons,
    List.flatMap_nil, Option.getD_none, List.isEmpty_nil, Bool.not_true, Bool.false_and, Bool.false_eq_true, if_false, List.append_nil, List.map_replicate]

/-- R348: the descriptor of an operation on 64 numbers over four ranks of axis x. -/
def opDesc (op : Nat) : List Byte :=
  bytesOfNat 8 (1 + 2 ^ 8 + 2 ^ 12 + op * 2 ^ 20) ++ bytesOfNat 8 12 ++ bytesOfNat 8 2 ++ bytesOfNat 8 1 ++ bytesOfNat 32 64 ++ bytesOfNat 8 0 ++
    bytesOfNat 8 0x1000 ++ bytesOfNat 8 0x2000 ++ bytesOfNat 40 0

/-- A sum over four ranks. -/
def sumDesc : List Byte := opDesc 1

theorem test_meets_CopyAndKeyEvents_mean : ∀ n ∈ [0, 65],
    let k := { cmd0 0xB 0 5 0 with xtra := opDesc 4, tmshape := BitVec.ofNat 64 n }
    let s := State.reset.modCore 0 fun x => { x with csr := { x.csr with collid := 0x1000000000000 } }
    performs k s = true ∧ descValid k.xtra = true ∧ (ranksOf (s.core 0).csr.collid (descOf k.xtra)).isSome = true ∧ (descOf k.xtra).op = 4 ∧
      tmValid k.tmshape k.tab = decide (n = 0) := by decide +kernel

/-- Two copies wait in a cluster whose copy queues were served up to a given one. -/
theorem test_meets_CommandEvents_turn : ∀ turn ∈ [0, 2],
    let s := (State.reset.modCore 0 fun x => { x with cmds := [cmd0 1 0 0 0] }).modCore 1 fun x => { x with cmds := [cmd0 1 0 0 0] }
    let s := s.modCluster 0 fun k => { k with turn }
    (queueOf (s.core 1) .lead .copy).head? = some (cmd0 1 0 0 0) ∧ (queueOf (s.core 0) .lead .copy).head? = some (cmd0 1 0 0 0) ∧
      (∀ d ∈ (0 : ClusterId).cores, (s.core d).running = []) ∧
      ((queueNo 1 .lead + 7 - (s.cluster 0).turn) % 8 < (queueNo 0 .lead + 7 - (s.cluster 0).turn) % 8 ↔ turn = 0) := by decide +kernel

theorem test_meets_CopyAndKeyEvents_coll :
    (∀ z : Bool, let k := { cmd0 0xB 0 5 0 with xtra := if z then sumDesc else [] }
     let s := State.reset.modCore 0 fun x => { x with csr := { x.csr with collid := 0x1000000000000 } }
     performs k s = true ∧ descValid k.xtra = z ∧ collById s k.id = none ∧ cgrpOf (s.core 0).csr.collid ≠ 0 ∧ s.fabric.colls = [] ∧
       (z = true → (ranksOf (s.core 0).csr.collid (descOf k.xtra)).isSome = true ∧ (descOf k.xtra).op ≠ 4)) ∧
    (∀ z : Bool, let k := cmd0 0x40 0x1000 0x1000 0
     let s := { State.reset with sys := { State.reset.sys with invals := if z then
       [{ va := 0x1000, len := 0x1000, asid := 0, hint := 0, from_ := some (0, 7), sent := false, gen := 0 }] else [] } }
     performs k s = true ∧ s.sys.invals.any (fun v => decide (v.from_ = some (0, k.id))) = z) := by decide +kernel

theorem test_meets_CopyAndKeyEvents_key :
    (∀ op ∈ [0, 1, 2, 3], ∀ full : Bool, ∀ imp : Bool,
      let k := cmd0 0x42 0x10000 0 (3 * 2 ^ 20 + op * 2 ^ 16)
      let key : KeySlot := { xts := 5, ikey := 6, prot := true }
      let s := hbmWords [(0x10000, 3 + if op = 3 then 0x200 else 0)] State.reset
      let s := { s with keys := { s.keys with slots := vset s.keys.slots 3 (if full then some key else none), kimp := vset s.keys.kimp 3 (if imp then some 9 else none) } }
      performs k s = true ∧ k.imm.extractLsb' 20 4 = 3 ∧ bitsN k.imm.toNat 16 2 = op ∧ (vget s.keys.slots 3 none).isSome = full ∧
        (vget s.keys.kimp 3 none).isSome = imp ∧ inHbm 0x10000 112 = true ∧ vget s.scrub.active 3 false = false ∧
        (let h := natOfBytes (deviceBytes s 0 k.a.toNat 8)
         bitsN h 0 4 = 3 ∧ bitsN h 4 4 = 0 ∧ bitsN h 10 54 = 0 ∧ (bitsN h 9 1 = 1 ↔ op = 3))) ∧
    (withJob job0 (State.reset.modCore 0 fun x => { x with csr := { x.csr with world := 3 } })).cores.any (fun x => x.job.isSome && decide (x.csr.world = 3)) = true ∧
    (State.reset.cores.all fun x => x.job.isNone) = true := by decide +kernel

theorem test_meets_CopyAndKeyEvents_unwrap (q blob : List Byte) : kwUnwrap q blob = none ∨ ∃ l, kwUnwrap q blob = some l := by
  cases kwUnwrap q blob <;> simp

/-! ### Hypotheses of the statements: the fabric -/

/-- A collective of LEAD of core 0 with a descriptor, its output at 0x20000 and its status word at 0x30000. -/
def coll0 (desc : List Byte) (ranks : Nat) : Coll :=
  { id := 7, core := 0
    cmd := { cmd0 0xB 0 5 0 with xtra := desc, pieces := [{ piece 256 true with pa := 0x20000 }, { va := 0x10100, pa := 0x30000, len := 8, wr := true }] }
    job := 0, running := false, wrote := false, marks := [], ranks, own := 0, status := 0, input := [], classes := [], fseqs := [], beyond := false
    msgs := 0, cut := none }

/-- What a rank announces with a descriptor: its COLLID with its place on axis x, TMSHAPE 0, and the descriptor. -/
def heard (desc : List Byte) (pos : Nat) : RemoteRank :=
  { cgrp := 1, seq := 5, pos, ctl := bytesOfNat 8 (0x1000000000000 + 2 ^ 8 * pos) ++ List.replicate 16 0 ++ desc, data := [] }

/-- The state with the collective in the unit and announcements of the other three ranks; direction 0 down on request. -/
def collState (k : Coll) (desc : List Byte) (up : Bool) : State :=
  let s := State.reset.modCore 0 fun x => { x with csr := { x.csr with collid := 0x1000000000000 } }
  let s := withJob job0 s
  { s with fabric := { s.fabric with
      colls := [k], remote := [heard desc 1, heard desc 2, heard desc 3], ready := [k.id], told := [(1, 5)]
      ports := Vector.ofFn fun i : Fin 24 => { Port.reset with up := up || decide (4 ≤ i.val) } } }

theorem test_meets_CollectiveEvents_start :
    (∀ up : Bool, let k := coll0 sumDesc 4
      let s := collState k sumDesc up
      collById s k.id = some k ∧ k.cut = none ∧ writesHeld s k.core k.cmd.id = false ∧ s.fabric.ready.head? = some k.id ∧ allArrived s k = true ∧ ranksAgree s k = true ∧ (s.fabric.colls.filter fun y => y.running).length < 8 ∧
        slotOfGroup s (collGroup s k) = none ∧ k.classes = [] ∧ hostPending s k.core k.cmd = false ∧ (∀ p ∈ sourceOf k.cmd, inHost p.pa = false) ∧
        runsPending s k.id = false ∧ (collDesc k).op ≠ 4 ∧ (∀ a ∈ (collDesc k).axes, a.axis = 0 ∧ a.axis ≠ 3 ∧ 1 < a.n) ∧
        (List.range 6).all (fun d => (List.range 4).any fun i => (vget s.fabric.ports (4 * d + i) Port.reset).up) = up ∧
        (List.range 4).all (fun i => !(vget s.fabric.ports i Port.reset).up) = !up) ∧
    (∀ c ∈ [none, some 0x13], ∀ running : Bool, ∀ ready ∈ [[7], [8, 7]], let k := { coll0 sumDesc 4 with cut := c, running }
     let s := collState k sumDesc true
     let s := { s with fabric := { s.fabric with ready } }
     collById s k.id = some k ∧ (s.fabric.ready.head? = some k.id ↔ ready = [7])) ∧
    (let k := coll0 sumDesc 4
     let s := collState k (sumDesc.set 32 65) true
     allArrived s k = true ∧ k.cmd.xtra.length = 128 ∧ (remoteAt s (collGroup s k) (collSeq k) 1).any (fun r => decide ((r.ctl.drop 24).take 64 ≠ k.cmd.xtra.take 64)) = true) ∧
    allArrived { collState (coll0 sumDesc 4) sumDesc true with fabric := { State.reset.fabric with colls := [coll0 sumDesc 4] } } (coll0 sumDesc 4) = false := by
  decide +kernel

theorem test_meets_CollectiveEvents_target : Claims.plainTarget (collState (coll0 sumDesc 4) sumDesc true) (coll0 sumDesc 4) := by
  refine ⟨{ piece 256 true with pa := 0x20000 }, { va := 0x10100, pa := 0x30000, len := 8, wr := true }, by decide +kernel, by decide +kernel, rfl,
    by decide +kernel, by decide +kernel, by decide +kernel, ⟨by decide +kernel, ?_⟩, rfl, fun _ => rfl, by decide +kernel⟩
  have h : ∀ f : Fin 4, swf none (collState (coll0 sumDesc 4) sumDesc true).l2[f] = true := by decide +kernel
  exact h

theorem test_meets_CollectiveEvents_marks :
    (∀ marks ∈ [[1, 2], [0, 1, 2]], ∀ wrote : Bool, let k := { coll0 sumDesc 4 with running := true, marks, wrote }
      let s := collState k sumDesc true
      3 < k.ranks ∧ 3 ∉ k.marks ∧ 3 ≠ k.own ∧ 0 = k.own ∧ collById s k.id = some k ∧ k.cut = none ∧ runsPending s k.id = false ∧ ((∀ p ∈ List.range 4, p ≠ 3 → p ∈ k.marks) ↔ marks = [0, 1, 2]) ∧
        dataComplete s k = false ∧ jobById s k.job = some job0 ∧ eventRoom s job0 = true ∧ inHbm (job0.evq + 32 * (job0.evn % 2 ^ job0.evlog)) 32 = true) ∧
    jobById { collState (coll0 sumDesc 4) sumDesc true with jobs := [] } 0 = none := by decide +kernel

/-- A run of cairn core 4 on a flit of the collective. -/
theorem test_meets_CollectiveEvents_run :
    let r : Run := { runWith 0xB4000000 with m := { (runWith 0).m with coll := 7 } }
    let s := setRun 4 (some r) { collState (coll0 sumDesc 4) sumDesc true with jobs := [] }
    (s.cairn.run[(4 : Fin 64)]).any (fun r => decide (r.m.coll = 7)) = true ∧ runsPending s 7 = true ∧ collById s 7 = some (coll0 sumDesc 4) ∧
      jobById s 0 = none := by decide +kernel

/-- R348: the descriptor that moves 64 numbers within a group of one rank. -/
def oneDesc : List Byte :=
  bytesOfNat 8 (1 + 2 ^ 8 + 2 ^ 12) ++ bytesOfNat 8 0 ++ bytesOfNat 8 1 ++ bytesOfNat 8 1 ++ bytesOfNat 32 64 ++ bytesOfNat 64 0

theorem test_meets_CollectiveResult :
    (let k := { coll0 oneDesc 1 with running := true, input := (List.replicate 256 5).map some }
     let s := collState k oneDesc true
     collById s 7 = some k ∧ k.cut = none ∧ k.own = 0 ∧ k.ranks = 1 ∧ k.cmd.src = .lead ∧ partialAxes (collDesc k) = [] ∧ k.marks = [] ∧ k.wrote = false ∧
       writesHeld s k.core k.cmd.id = false ∧ groupSize (collDesc k) = 1 ∧ (collDesc k).op = 0 ∧ (collDesc k).ty = 0 ∧ (∀ e ∈ (collDesc k).ext, 0 < e) ∧
       (∀ a ∈ (collDesc k).axes, a.n = 1) ∧ runsPending s k.id = false ∧ 256 = 4 * volume (collDesc k).ext ∧
       (targetOf k.cmd).map (fun p => (p.va, p.pa, p.len)) = [(0x10000, 0x20000, 256), (0x10100, 0x30000, 8)] ∧ s.keys.zeroed.getLsbD 0 = false) ∧
    (let x := { descOf sumDesc with ty := 6 }
     x.op = 1 ∧ (reduceTerms x 0 [] ([0xFFFFFFFF, 2].map some)).bits = 1 ∧ ((partialAxes x).head?).isSome = true ∧ ringSize x = 4 ∧
       mergeOrder x 3 = [3, 0, 1, 2] ∧ (reduceTerms { x with op := 2 } 0 [] ([0xFFFFFFFF, 2].map some)).bits = 0xFFFFFFFF) ∧
    bitsN 0x7F800000 23 8 = 255 := by decide +kernel

/-! The rope and Ethernet. -/

/-- A flit of another group with the given number and blocks. -/
def flit0 (seq : Nat) (ok : Bool) (blocks : List (List Byte)) : Flit :=
  { seq := BitVec.ofNat 24 seq, cgrp := 9, collSeq := 0, pos := 0, len := 0, off := 0, payload := 0, ctl := false, blocks, crcOk := ok, dest := 0, run := 0 }

/-- R364: the block of the example. -/
def block364 : List Byte := bytesOfNat 512 0x3F8000003F800000

set_option maxRecDepth 100000 in
/-- R364: what the example's block is on the link. -/
theorem test_scree_link_R364 : (screeEncode 2 block364).drop 4 = [1, 0, 0, 0, 0, 0, 0, 0, 0, 0, 0x80, 0x3F, 0, 0, 0x80, 0x3F] ∧
    natOfBytes ((screeEncode 2 block364).take 4) / 2 ^ 16 = 0x4010 := by decide +kernel

set_option maxRecDepth 100000 in
/-- R363, R364: the example's block, forced to zero-map, comes back. -/
theorem test_meets_ScreeRoundTrip : 2 ≤ 4 ∧ block364.length = 512 ∧
    screeDecode (screeEncode 2 block364) = some block364 := by decide +kernel

/-- A flit of 16 bytes of header and 240 of payload, with a number. -/
def wire (n : Nat) : List Byte := bytesOfNat 3 n ++ List.replicate 253 0

/-- A message of the eight bytes 1 to 8. -/
def message8 : Flit := { flit0 0 true [] with len := 8, payload := 0x0807060504030201 }

/-- Port 0 up, with a flit of number 4 in its replay buffer and a message waiting; port 2 of its direction up too. -/
def ropeState (tries : Nat) : State :=
  { State.reset with fabric := { State.reset.fabric with
      ports := (State.reset.fabric.ports.set 0 { Port.reset with
        up := true, rxSeq := 5, sent := [wire 3, wire 4], outq := [wire 4], asked := 4, tries, wait := [message8] }).set 2 { Port.reset with up := true } } }

theorem test_meets_RopeEvents :
    (∀ n ∈ [15, 16], let x := (ropeState n).fabric.ports[(0 : Fin 24)]
      x.up = true ∧ x.mode.toNat ≤ 4 ∧ x.sent = [wire 3] ++ wire 4 :: [] ∧ natOfBytes ((wire 4).take 3) = (4 : BitVec 24).toNat ∧
        natOfBytes ((wire 3).take 3) ≠ 4 ∧ ((if x.asked = 4 then x.tries else 0) < 16 ↔ n = 15) ∧ (flit0 5 true []).seq = x.rxSeq ∧
        (∀ f ∈ x.outq, 16 ≤ f.length)) ∧
    screeDecode [1] = none ∧ (ropeState 0).fabric.colls = [] ∧
    ((List.finRange 24).filter fun i : Fin 24 => decide (i ≠ 0) && decide (i.val / 4 = 0) && (ropeState 0).fabric.ports[i].up) = [2] ∧
    (flit0 5 true []).len.toNat ≤ 240 ∧ (flit0 5 true []).payload.toNat < 2 ^ 0 := by decide +kernel

set_option maxRecDepth 100000 in
theorem test_meets_RopeEvents_egress :
    messageBlocks (flitBytes message8) = [bytesOfNat 512 0x0807060504030201] ∧ messageBlocks (flitBytes message8) ≠ [bytesOfNat 512 5] := by decide +kernel

/-- A state whose rank has announced collective 0 of group 9, whose second run there is; it runs or does not. -/
def toldState (running : Bool) : State :=
  let k : Coll := { coll0 sumDesc 4 with cmd := { cmd0 0xB 0 0 0 with xtra := sumDesc }, running }
  let s := ropeState 0
  { s.modCore 0 fun x => { x with csr := { x.csr with collid := 0x9000000000000 } } with
    fabric := { s.fabric with told := [(9, 0)], aborts := [((9, 0), 1)], colls := [k] } }

/-- A flit for another place goes on; one for this place may be of no use, of use, or early. -/
theorem test_meets_RopeEvents_takes :
    (hopFrom (toldState true).fabric.place 0x100 = .dir 0 ∧ hopFrom (toldState true).fabric.place (flit0 5 true []).dest = .here) ∧
    (∀ b : Bool, let s := toldState b
     runNo s 9 0 = 1 ∧ (9, 0) ∈ s.fabric.told ∧ (8, 0) ∉ s.fabric.told ∧
       ∀ k ∈ s.fabric.colls, k.running = b ∧ collGroup s k = 9 ∧ collSeq k = 0 ∧ k.classes = []) := by decide +kernel

theorem test_meets_RopeEvents_forHere : Claims.forHere (toldState true) (flit0 5 true []) ∧ ¬ Claims.forHere (toldState true) { flit0 5 true [] with dest := 0x100 } := by
  simp only [Claims.forHere]
  decide +kernel

theorem test_meets_RopeEvents_kinds :
    Claims.useless (toldState true) (flit0 5 true []) ∧ Claims.useless (toldState true) { flit0 5 true [] with cgrp := 8 } ∧
    Claims.early (toldState true) { flit0 5 true [] with run := 2 } ∧ Claims.early (toldState false) { flit0 5 true [] with run := 1 } := by
  simp only [Claims.useless, Claims.early]
  decide +kernel

theorem test_meets_RopeEvents_announces : Claims.useful (toldState false) { flit0 5 true [] with ctl := true } := .inl ⟨rfl, rfl⟩

theorem test_meets_RopeEvents_data : Claims.useful (toldState true) { flit0 5 true [] with run := 1 } :=
  .inr ⟨by decide +kernel, by decide +kernel, .inr ⟨_, rfl, by decide +kernel, by decide +kernel, by decide +kernel, by decide +kernel⟩⟩

theorem test_meets_LinkEvents :
    (∀ held : Bool, let s := State.reset.modPeer 2 fun x => { x with valid := true, port := 1, rxSeq := 5, unacked := if held then [] else [message8] }
     let s := { s with fabric := { s.fabric with paused := if held then [(1, 0)] else [] } }
     let x := s.fabric.peers[(2 : Fin 16)]
     powered s = true ∧ x.valid = true ∧ x.port.toNat = 1 ∧ (flit0 5 true []).seq = x.rxSeq ∧ s.fabric.colls = [] ∧
       (x.unacked = [] ↔ held = true) ∧ ((Fin.ofNat 4 x.port.toNat, 0) ∈ s.fabric.paused ↔ held = true) ∧
       hopFrom s.fabric.place (flit0 5 true []).dest = .here ∧ s.fabric.told = []) ∧
    (∀ v ∈ [0x400, 0x400 + 1, 2 ^ 10 * 1024, 2 ^ 10 * 1024 + 1], let x : W64 := BitVec.ofNat 64 v
      slotBusy State.reset 3 = false ∧ (State.reset.cairn.slots.all fun y => decide (partPsize y.part = 0)) = true ∧
        (partPbase x + partPsize x ≤ 1024 ↔ v ≠ 2 ^ 10 * 1024 + 1) ∧ partKbase x + partKsize x ≤ 16384) ∧
    (∀ l ∈ [[], [0xB4000000]], ∀ dead : Bool,
      let m : Matched := { (runWith 0).m with k := { (runWith 0).m.k with kernel := l.map (BitVec.ofNat 32) }, egress := true, flit := flit0 5 true [], dead }
      let s := { State.reset with cairn := { State.reset.cairn with queue := State.reset.cairn.queue.set 4 [m] } }
      runOn s 4 = none ∧ s.cairn.queue[(4 : Fin 64)] = [m] ∧ s.fabric.colls = [] ∧ s.cairn.writes = [] ∧ m.dead = dead ∧
        slotBusy s m.k.slot = true) ∧
    (∀ p ∈ [0, 2], classTpol (BitVec.ofNat 64 (p * 2 ^ 61)) = p) := by decide +kernel

/-! ### Hypotheses of the statements: the tether, sleep, resets, health and registers -/

/-- The package asleep, with its guide firmware failed where `n` is 1. -/
def asleep (n : Nat) : State :=
  { State.reset with
    sleep := { State.reset.sleep with st := 3 }, sys := { State.reset.sys with failed := if n = 1 then [1] else [] } }

/-- R431, R425: asleep only SLPCTL and MGTNOTE answer; in recovery no register does. -/
theorem test_asleep_R431 : regAwake (asleep 0) .slpctl = true ∧ regAwake (asleep 0) .fqbase = false ∧
    regAwake (asleep 1) .slpctl = false := by decide +kernel

/-- Function 5 with a session of world 3 in the given state, one request of core 0 outstanding, whose completion is accepted or not. -/
def sessState (opened active : Bool) (ctr : Nat) (live : Bool) (held : List HeldWrite) : State :=
  State.reset.modSess 5 fun x => { x with
    opened, active, world := 3, rklog := 4, ctr := Vector.replicate 3 (BitVec.ofNat 64 ctr), held
    outstanding := [{ id := 9, core := 0, cmd := none, va := 0x1000, len := 8, use := {}, live }] }

/-- A write of a command of core 0 that waits before egress. -/
def heldWrite : HeldWrite := { core := 0, cmd := 7, pkt := { hdr := bytesOfNat 8 0x8000000000000, body := [5], tag := 0, req := 0 } }

theorem test_meets_SessionEvents :
    (∀ o : Bool, ∀ a : Bool, ∀ n ∈ [15, 16], ∀ live : Bool, ∀ held ∈ [[], [heldWrite]], let s := sessState o a n live held
      let x := session s 5
      linkUp s = true ∧ recovery s = false ∧ x.active = a ∧ x.outstanding.map (fun r => (r.id, r.live)) = [(9, live)] ∧ x.held = held ∧ x.world ≠ 0 ∧
        (2 ^ x.rklog.toNat ≤ (x.ctr[(1 : Fin 3)]).toNat ↔ n = 16) ∧ (∀ r ∈ x.outstanding, r.id ≠ 8)) ∧
    powered (sessState true true 0 true []) = true ∧ powered (asleep 0) = false ∧ linkUp (asleep 0) = false ∧ recovery (asleep 1) = true := by
  decide +kernel

theorem test_meets_SessionEvents_none (o a live : Bool) (n : Nat) (held : List HeldWrite) : Claims.noneWaits (sessState o a n live held) := fun c => by
  have h : ∀ d : CoreId, (State.reset.core d).ap.storeQ = [] ∧ (State.reset.core d).owed = [] := by decide +kernel
  have e (s : State) (f : Session → Session) : (s.modSess 5 f).core c = s.core c := rfl
  simp only [sessState, e]
  exact h c

/-- Core 0's AP waits for the request, or for another. -/
theorem test_meets_SessionEvents_waits : ∀ n ∈ [8, 9],
    let s := (sessState true true 0 true []).modCore 0 fun x => { x with ap := { x.ap with
      host := some { va := 0x1000, needW := false, flush := false, got := [], parts := [{ off := 0, len := 8, req := n, ans := none }] } } }
    (s.core 0).ap.host.any (fun w => w.parts.any fun q => decide (q.req = 9) && decide (q.ans = none)) = decide (n = 9) := by decide +kernel

/-- What waits for egress at the end of the session of slot 0's function: a command's completion, or a store. -/
theorem test_meets_SessionEvents_discards :
    let s := withJob job0 State.reset
    let s := s.modSlot 0 fun x => { x with vf := 5 }
    let s := s.modSess 5 fun x => { x with active := true }
    powered s = true ∧ (session s 5).active = true ∧ vfOf s 0 = 5 ∧ eventRoom s job0 = true ∧
      (∀ b : Bool, let t := s.modCore 0 fun x => if b then hostQueued x else
          { x with running := [cmd0 2 0 0 0], owed := [{ id := 7, status := 0, reply := 0, failed := none, ledge := none }] }
        (t.core 0).ap.storeQ.any hostStore = b ∧ (t.core 0).owed.map (fun o => o.id) = (if b then [] else [7]) ∧
          ((t.core 0).running.find? fun y => decide (y.id = 7)).isSome = !b) := by decide +kernel

/-- Either outcome of a tag check is the free function's. -/
theorem test_meets_SessionEvents_tag (k : BitVec 256) (iv : BitVec 96) (h b : List Byte) (t : BitVec 128) :
    Config.gcmOpen k iv h b t = none ∨ ∃ l, Config.gcmOpen k iv h b t = some l := by
  cases Config.gcmOpen k iv h b t <;> simp

theorem test_meets_SpdmEvents :
    (∀ o : Bool, ∀ a : Bool, (session (sessState o a 0 true []) 5).opened = o ∧ (session (sessState o a 0 true []) 5).active = a ∧ (session (sessState o a 0 true []) 5).held = []) ∧
    ∀ i ∈ [1, 16], ([0, 0, 0, BitVec.ofNat 8 i].getD 3 0 : Byte).toNat = i := by decide +kernel

/-- A package in a state of sleep at a step, with one more of them next. -/
def sleepy (st phase : Nat) (wake : Bool) : State :=
  { State.reset with sched := [.guide], sleep := { State.reset.sleep with base := 0x10, st := BitVec.ofNat 2 st, phase, wake } }

theorem test_meets_SleepEvents :
    (let s := sleepy 0 0 false
     recovery s = false ∧ s.sleep.st = 0 ∧ (s.cores.all fun x => x.job.isNone) = true ∧ (s.scrub.active.all fun b => !b) = true ∧
       ((List.range 16).all fun i => !protWorld s (BitVec.ofNat 4 i)) = true ∧ s.sleep.sealed = false ∧ s.sleep.base ≠ 0) ∧
    (∀ p ∈ [1, 2, 3], ∀ wake : Bool, let s := sleepy 1 p wake
     s.sched = .guide :: [] ∧ s.sleep.st = 1 ∧ s.sleep.phase = p ∧ s.sleep.wake = wake ∧ s.sleep.wrapped = 0 ∧ recovery s = false) ∧
    (∀ p ∈ [0, 1, 3, 4, 5], let s := sleepy 2 p false
     s.sched = .guide :: [] ∧ s.sleep.st = 2 ∧ s.sleep.phase = p ∧ 3 ∉ s.sys.failed ∧ s.repair.disabled = []) ∧
    (asleep 0).sleep.st = 3 ∧ recovery (asleep 0) = false ∧ recovery (asleep 1) = true ∧ powered (asleep 0) = false ∧
    inRegs 0x40000001000 = true ∧ 0x40000001000 / 8 ≠ 0x400000A0000 / 8 ∧ 0x40000001000 / 8 ≠ 0x400000C0008 / 8 := by decide +kernel

theorem test_meets_ResetEvents : State.reset.regq = [] ∧ State.reset.jobs = [] ∧ State.reset.camp.replays = [] ∧
    (State.reset.tether.sess.toList.all fun x => !x.active) = true ∧ State.reset.sleep.st = 0 ∧ State.reset.sys.failed = [] ∧
    powered State.reset = true ∧ powered (asleep 0) = false ∧ (State.reset.core 127).job = none ∧ (State.reset.camp.slots.all fun x => !x.mapped) = true := by decide +kernel

/-- A suspect ledge of core 0. -/
def suspect0 (kind : Nat) : Suspect := { kind := BitVec.ofNat 4 kind, inst := 0, addr := 0, world := 0, uncorr := false }

theorem test_meets_HealthEvents :
    (∀ k ∈ [2, 3, 4, 6], ∀ n ∈ [0, 1], ∀ m ∈ [0, 1], let x := suspect0 k
     let s := { State.reset with repair := { State.reset.repair with
       suspects := [x], spares := [(spareCore x.inst, m), (spareKey x, n)], disabled := List.replicate 7 (6, 0) } }
     s.repair.suspects = [x] ∧ x.kind ≠ 15 ∧ (s.core (coreOf 0)).job = none ∧ s.sys.errs.length < 64 ∧ s.fabric.colls = [] ∧
       (spareKey x ≠ spareCore x.inst → sparesLeft s (spareKey x) = n) ∧ sparesLeft s (spareCore x.inst) = m ∧
       7 ≤ (s.repair.disabled.filter fun y => decide (y = ((6 : BitVec 4), x.inst))).length) ∧
    coreUnit 3 = true ∧ coreUnit 6 = false ∧
    (let s := { State.reset with sys := { State.reset.sys with errbase := 0x10004, errsize := 4, errs := [5] } }
     bitsN s.sys.errbase.toNat 12 40 * 4096 ≠ 0 ∧ (s.sys.errtail - s.sys.errhead).toNat < 2 ^ s.sys.errsize.toNat ∧ 4 ∉ s.sys.failed ∧
       inHbm (bitsN s.sys.errbase.toNat 12 40 * 4096) 32 = true) := by decide +kernel

theorem test_meets_RegisterWriteResult : powered State.reset = true ∧ inRegs 0x40000001018 = true ∧ regAt 0x40000000FF8 = .absent ∧ inRegs 0x1000 = false ∧
    (∀ n ∈ [3, 4, 16, 17], (4 ≤ bitsN n 0 5 ∧ bitsN n 0 5 ≤ 16) ↔ n = 4 ∨ n = 16) := by decide +kernel

/-! ### Decoding

Every constructor's word, written out from the encoding tables: major and fn from R70-R75 (and R155, R282, R285, R391 for the sub-fields that
select a row), the fields at their places of R56; cairn words from R378, R379 and R383; dresser words from R172. -/

/-- Does each word decode, in a place, to its instruction? -/
def decodes (p : Where) (l : List (Nat × Instr)) : Bool :=
  l.all fun x => match decodeWord p (BitVec.ofNat 96 x.1) with
    | .ok i => decide (i = x.2)
    | .error _ => false

/-- R84, R92, R105, R124, R131, R72, R237: words that the manual writes out. -/
theorem test_words_of_the_manual :
    decodes pLead [(0x090328005060000FFFFFFFF4, addWord), (0xB401F0100070000000000010, .lpw (fld 1 0 7 0 0 0x10))
    , (0xB201F0000000000002800200, .loop (fld 1 0 0 0 0 0x2800200)), (0xB201F0000000000600000000, .loop (fld 1 0 0 0 0 0x600000000))
    , (0xB001F0908050600000000003, .cop 9 (fld 1 8 5 6 0 3))] = true ∧
    decodes pAp [(0x2000F0325270000000000008, .ldD (fld 0 0x25 0x27 0 0 8)), (0x2300F0000287000000001000, .qst (fld 0 0 0x28 0x70 0 0x1000))
    , (0x2B00F0000210000000000000, .gset (fld 0 0 0x21 0 0 0)), (0x2500F0524222500500000040, .amoAdd true 1 (fld 0 0x24 0x22 0x25 0 0x500000040))
    , (0xB000F012C2A2B00BB5000005, .cop 1 (fld 0 0x2C 0x2A 0x2B 0 0xBB5000005)), (0x2600F0200000000500000000, .fenceRel (fld 0 0 0 0 0 0x500000000))
    , (0x2500F4924222 * 2 ^ 48 + 0x92A500000000, .amoCas false 1 (fld 0 0x24 0x22 0x29 0x2A 0x500000000))
    , (0xB000F412624250000050 * 2 ^ 16 + 2, .scrubLedge (fld 0 0x26 0x24 0x25 0 0x500002))] = true ∧
    decodes pTrap [(0xB600F0000000000000000000, .tret (fld 0 0 0 0 0 0))] = true ∧
    decodes pIntr [(0x2A00F0000000000000000000, .uret (fld 0 0 0 0 0 0))] = true ∧
    decodes (Where.plain .mx) [(0x4001F0074000000000000000, .mclr (fld 1 0x74 0 0 0 0)), (0x4108F007400A000400008B84, .mstep (fld 8 0x74 0 0xA0 0 0x400008B84))
    , (0x4804F007674A000000000000, .mdrain (fld 4 0x76 0x74 0xA0 0 0))] = true ∧
    decodes (Where.plain .va) [(0x5B01F014000000003F000000, .vmovi (fld 1 0x40 0 0 0 0x3F000000)), (0x5909F0342410000000000000, .vrmaxR (fld 9 0x42 0x41 0 0 0))
    , (0x5304F2442410100000000000, .vshr 0 (fld 4 0x42 0x41 1 0 0))] = true ∧
    decodes (Where.plain .sf) [(0x9018F0045440000000000000, .sfExp2 (fld 24 0x45 0x44 0 0 0)), (0x9201F0061414480000000001, .sfRoute (fld 1 0x61 0x41 0x44 0x80 1))
    , (0x9201F0383000000000000001, .sfBdrain (fld 1 0x83 0 0 0 1))] = true ∧
    decodeCairn 0x78A00000 = .ok (.cLidx 5) ∧ decodeCairn 0x4A2A0000 = .ok (.cCmpEqI 1 5 0 0) ∧ decodeCairn 0x90080804 = .ok (.cFst 4 1 4) ∧
    decodeDress 0x3010000000000000 = .ok (.swap 0 1) ∧ decodeDress 0x7000000000020000 = .ok (.emit 0 0x20000) := by decide +kernel

/-- R56, R69-R75: timed scalar words of LEAD. -/
theorem test_decode_lead : decodes pLead [
    (0xB301F0000000000500000000, .idle (fld 1 0x0 0x0 0x0 0x0 0x500000000)), (0xB201F0000060000500000000, .loop (fld 1 0x0 0x6 0x0 0x0 0x500000000))
    , (0xB201F0100060000500000008, .loopSt (fld 1 0x0 0x6 0x0 0x0 0x500000008)), (0xB401F0005000000000000000, .lpr (fld 1 0x5 0x0 0x0 0x0 0x0))
    , (0xB401F0100060000000000000, .lpw (fld 1 0x0 0x6 0x0 0x0 0x0)) ] = true := by decide +kernel

/-- R56, R69-R75: words of the AP, and the scalar words that it shares. -/
theorem test_decode_ap_1 : decodes pAp [
    (0x800F0025262700000000000, .add (fld 0 0x25 0x26 0x27 0x0 0x0)), (0x800F0125262700000000000, .sub (fld 0 0x25 0x26 0x27 0x0 0x0))
    , (0x800F0225262700000000000, .mul (fld 0 0x25 0x26 0x27 0x0 0x0)), (0x800F0325262700000000000, .mulh (fld 0 0x25 0x26 0x27 0x0 0x0))
    , (0x800F0425262700000000000, .mulhu (fld 0 0x25 0x26 0x27 0x0 0x0)), (0x800F0525262700000000000, .and (fld 0 0x25 0x26 0x27 0x0 0x0))
    , (0x800F0625262700000000000, .or (fld 0 0x25 0x26 0x27 0x0 0x0)), (0x800F0725262700000000000, .xor (fld 0 0x25 0x26 0x27 0x0 0x0))
    , (0x800F0825262700000000000, .andn (fld 0 0x25 0x26 0x27 0x0 0x0)), (0x800F0925262700000000000, .shl (fld 0 0x25 0x26 0x27 0x0 0x0))
    , (0x800F0A25262700000000000, .shr (fld 0 0x25 0x26 0x27 0x0 0x0)), (0x800F0B25262700000000000, .sra (fld 0 0x25 0x26 0x27 0x0 0x0))
    , (0x800F0C25262700000000000, .min (fld 0 0x25 0x26 0x27 0x0 0x0)), (0x800F0D25262700000000000, .max (fld 0 0x25 0x26 0x27 0x0 0x0))
    , (0x800F0E25262700000000000, .minu (fld 0 0x25 0x26 0x27 0x0 0x0)), (0x800F0F25262700000000000, .maxu (fld 0 0x25 0x26 0x27 0x0 0x0))
    , (0x800F1025260000000000000, .clz (fld 0 0x25 0x26 0x0 0x0 0x0)), (0x800F1125260000000000000, .ctz (fld 0 0x25 0x26 0x0 0x0 0x0))
    , (0x800F1225260000000000000, .popc (fld 0 0x25 0x26 0x0 0x0 0x0)), (0x900F0025260000500000000, .addI (fld 0 0x25 0x26 0x0 0x0 0x500000000))
    , (0x900F0125260000500000000, .subI (fld 0 0x25 0x26 0x0 0x0 0x500000000))
    , (0x900F0225260000500000000, .mulI (fld 0 0x25 0x26 0x0 0x0 0x500000000))
    , (0x900F0325260000500000000, .mulhI (fld 0 0x25 0x26 0x0 0x0 0x500000000))
    , (0x900F0425260000500000000, .mulhuI (fld 0 0x25 0x26 0x0 0x0 0x500000000))
    , (0x900F0525260000500000000, .andI (fld 0 0x25 0x26 0x0 0x0 0x500000000))
    , (0x900F0625260000500000000, .orI (fld 0 0x25 0x26 0x0 0x0 0x500000000))
    , (0x900F0725260000500000000, .xorI (fld 0 0x25 0x26 0x0 0x0 0x500000000))
    , (0x900F0825260000500000000, .andnI (fld 0 0x25 0x26 0x0 0x0 0x500000000))
    , (0x900F0925260000500000000, .shlI (fld 0 0x25 0x26 0x0 0x0 0x500000000))
    , (0x900F0A25260000500000000, .shrI (fld 0 0x25 0x26 0x0 0x0 0x500000000))
    , (0x900F0B25260000500000000, .sraI (fld 0 0x25 0x26 0x0 0x0 0x500000000))
    , (0x900F0C25260000500000000, .minI (fld 0 0x25 0x26 0x0 0x0 0x500000000))
    , (0x900F0D25260000500000000, .maxI (fld 0 0x25 0x26 0x0 0x0 0x500000000))
    , (0x900F0E25260000500000000, .minuI (fld 0 0x25 0x26 0x0 0x0 0x500000000))
    , (0x900F0F25260000500000000, .maxuI (fld 0 0x25 0x26 0x0 0x0 0x500000000))
    , (0xA00F0025000000500000000, .movi (fld 0 0x25 0x0 0x0 0x0 0x500000000)), (0xA00F0125000000000000000, .movhi (fld 0 0x25 0x0 0x0 0x0 0x0))
    , (0xD00F0093919200000000000, .pand (fld 0 0x93 0x91 0x92 0x0 0x0)), (0xD00F0193919200000000000, .por (fld 0 0x93 0x91 0x92 0x0 0x0))
    , (0xD00F0293919200000000000, .pxor (fld 0 0x93 0x91 0x92 0x0 0x0)) ] = true := by decide +kernel

/-- R56, R69-R75: words of the AP, and the scalar words that it shares. -/
theorem test_decode_ap_2 : decodes pAp [
    (0xD00F0393919200000000000, .pandn (fld 0 0x93 0x91 0x92 0x0 0x0)), (0xD00F0493910000000000000, .pnot (fld 0 0x93 0x91 0x0 0x0 0x0))
    , (0xD00F0593910000000000000, .pmov (fld 0 0x93 0x91 0x0 0x0 0x0)), (0xD00F0693000000000000000, .pset (fld 0 0x93 0x0 0x0 0x0 0x0))
    , (0xD00F0793000000000000000, .pclr (fld 0 0x93 0x0 0x0 0x0 0x0)), (0xD00F0893000000000000000, .pvoid (fld 0 0x93 0x0 0x0 0x0 0x0))
    , (0xE00F0025262794000000000, .sel (fld 0 0x25 0x26 0x27 0x94 0x0)), (0xB500F0025000000000000000, .csrr (fld 0 0x25 0x0 0x0 0x0 0x0))
    , (0xB500F0125260000000000000, .csrw (fld 0 0x25 0x26 0x0 0x0 0x0)), (0xB500F0225260000000000000, .csrs (fld 0 0x25 0x26 0x0 0x0 0x0))
    , (0xB500F0325260000000000000, .csrc (fld 0 0x25 0x26 0x0 0x0 0x0)), (0xB100F0100000000000000000, .rdv (fld 0 0x0 0x0 0x0 0x0 0x0))
    , (0xB100F0200000000000000000, .rdvFlip (fld 0 0x0 0x0 0x0 0x0 0x0)), (0xB100F0300000000000000000, .rdvEnd (fld 0 0x0 0x0 0x0 0x0 0x0))
    , (0xB000F0B25262700000000000, .cop 11 (fld 0 0x25 0x26 0x27 0x0 0x0)), (0x2000F0025260000500000000, .ldB (fld 0 0x25 0x26 0x0 0x0 0x500000000))
    , (0x2000F0125260000500000000, .ldH (fld 0 0x25 0x26 0x0 0x0 0x500000000))
    , (0x2000F0225260000500000000, .ldW (fld 0 0x25 0x26 0x0 0x0 0x500000000))
    , (0x2000F0325260000500000000, .ldD (fld 0 0x25 0x26 0x0 0x0 0x500000000))
    , (0x2000F0425260000500000000, .ldBs (fld 0 0x25 0x26 0x0 0x0 0x500000000))
    , (0x2000F0525260000500000000, .ldHs (fld 0 0x25 0x26 0x0 0x0 0x500000000))
    , (0x2000F0625260000500000000, .ldWs (fld 0 0x25 0x26 0x0 0x0 0x500000000))
    , (0x2100F0000262700500000000, .stB (fld 0 0x0 0x26 0x27 0x0 0x500000000))
    , (0x2100F0100262700500000000, .stH (fld 0 0x0 0x26 0x27 0x0 0x500000000))
    , (0x2100F0200262700500000000, .stW (fld 0 0x0 0x26 0x27 0x0 0x500000000))
    , (0x2100F0300262700500000000, .stD (fld 0 0x0 0x26 0x27 0x0 0x500000000))
    , (0x2200F0069260000500000000, .qld (fld 0 0x69 0x26 0x0 0x0 0x500000000))
    , (0x2300F0000267100500000000, .qst (fld 0 0x0 0x26 0x71 0x0 0x500000000))
    , (0x2400F0000260000500000000, .pref (fld 0 0x0 0x26 0x0 0x0 0x500000000))
    , (0x2500F0525262700500000000, .amoAdd true 1 (fld 0 0x25 0x26 0x27 0x0 0x500000000))
    , (0x2500F0D25262700500000000, .amoMin true 1 (fld 0 0x25 0x26 0x27 0x0 0x500000000))
    , (0x2500F1525262700500000000, .amoMax true 1 (fld 0 0x25 0x26 0x27 0x0 0x500000000))
    , (0x2500F1D25262700500000000, .amoMinu true 1 (fld 0 0x25 0x26 0x27 0x0 0x500000000))
    , (0x2500F2525262700500000000, .amoMaxu true 1 (fld 0 0x25 0x26 0x27 0x0 0x500000000))
    , (0x2500F2D25262700500000000, .amoAnd true 1 (fld 0 0x25 0x26 0x27 0x0 0x500000000))
    , (0x2500F3525262700500000000, .amoOr true 1 (fld 0 0x25 0x26 0x27 0x0 0x500000000))
    , (0x2500F3D25262700500000000, .amoXor true 1 (fld 0 0x25 0x26 0x27 0x0 0x500000000))
    , (0x2500F4525262700500000000, .amoSwap true 1 (fld 0 0x25 0x26 0x27 0x0 0x500000000))
    , (0x2500F4D25262728500000000, .amoCas true 1 (fld 0 0x25 0x26 0x27 0x28 0x500000000))
    , (0x2600F0000000000500000000, .fence (fld 0 0x0 0x0 0x0 0x0 0x500000000)) ] = true := by decide +kernel

/-- R56, R69-R75: words of the AP, and the scalar words that it shares. -/
theorem test_decode_ap_3 : decodes pAp [
    (0x2600F0100000000500000000, .fenceAcq (fld 0 0x0 0x0 0x0 0x0 0x500000000))
    , (0x2600F0200000000500000000, .fenceRel (fld 0 0x0 0x0 0x0 0x0 0x500000000)), (0x2700F0000000000000000000, .afence (fld 0 0x0 0x0 0x0 0x0 0x0))
    , (0x2800F0000000000000000000, .mark (fld 0 0x0 0x0 0x0 0x0 0x0)), (0x2900F0069260000000000000, .tok (fld 0 0x69 0x26 0x0 0x0 0x0))
    , (0x2B00F0000260000000000000, .gset (fld 0 0x0 0x26 0x0 0x0 0x0)), (0x2B00F0125000000000000000, .gget (fld 0 0x25 0x0 0x0 0x0 0x0))
    , (0xB000F4125262700000000000, .scrubLedge (fld 0 0x25 0x26 0x27 0x0 0x0))
    , (0xB000F4125262700000010000, .scrubMem (fld 0 0x25 0x26 0x27 0x0 0x10000))
    , (0xB000F4125000000000020000, .scrubL2 (fld 0 0x25 0x0 0x0 0x0 0x20000))
    , (0xB000F4125000000000030000, .scrubJoin (fld 0 0x25 0x0 0x0 0x0 0x30000)) ] = true := by decide +kernel

/-- R56, R69-R75: words of MX. -/
theorem test_decode_mx : decodes (Where.plain .mx) [
    (0x4001F0074000000000000000, .mclr (fld 1 0x74 0x0 0x0 0x0 0x0)), (0x4101F007400A000500000000, .mstep (fld 1 0x74 0x0 0xA0 0x0 0x500000000))
    , (0x4101F017400A000500000000, .mstepN24 (fld 1 0x74 0x0 0xA0 0x0 0x500000000))
    , (0x4101F027400A000500000000, .mstepN48 (fld 1 0x74 0x0 0xA0 0x0 0x500000000))
    , (0x4101F037400A000500000000, .mstepN14 (fld 1 0x74 0x0 0xA0 0x0 0x500000000))
    , (0x4201F0000000000500000000, .mbsrc (fld 1 0x0 0x0 0x0 0x0 0x500000000))
    , (0x4301F0074000000500000000, .mload (fld 1 0x74 0x0 0x0 0x0 0x500000000))
    , (0x4401F007400A048500000000, .mgath (fld 1 0x74 0x0 0xA0 0x48 0x500000000)), (0x4501F00A3060000000000000, .mfmt (fld 1 0xA3 0x6 0x0 0x0 0x0))
    , (0x4601F0000000000000000000, .mswap (fld 1 0x0 0x0 0x0 0x0 0x0)), (0x4701F0074000000000000000, .mscale (fld 1 0x74 0x0 0x0 0x0 0x0))
    , (0x4801F007674A000000000000, .mdrain (fld 1 0x76 0x74 0xA0 0x0 0x0)) ] = true := by decide +kernel

/-- R56, R69-R75: words of VA and VB. -/
theorem test_decode_vector_1 : decodes (Where.plain .va) [
    (0x5001F0045464700000000000, .vaddF32 (fld 1 0x45 0x46 0x47 0x0 0x0)), (0x5001F0145464700000000000, .vsubF32 (fld 1 0x45 0x46 0x47 0x0 0x0))
    , (0x5001F0245464700000000000, .vmulF32 (fld 1 0x45 0x46 0x47 0x0 0x0)), (0x5001F0345464700000000000, .vminF32 (fld 1 0x45 0x46 0x47 0x0 0x0))
    , (0x5001F0445464700000000000, .vmaxF32 (fld 1 0x45 0x46 0x47 0x0 0x0)), (0x5101F0045464748000000000, .vfmaF32 (fld 1 0x45 0x46 0x47 0x48 0x0))
    , (0x5101F0145464748000000000, .vfmsF32 (fld 1 0x45 0x46 0x47 0x48 0x0)), (0x5101F0245464748000000000, .vfnmaF32 (fld 1 0x45 0x46 0x47 0x48 0x0))
    , (0x5201F0045460000000000000, .vabsF32 (fld 1 0x45 0x46 0x0 0x0 0x0)), (0x5201F0145460000000000000, .vnegF32 (fld 1 0x45 0x46 0x0 0x0 0x0))
    , (0x5301F0145464700000000000, .vaddI 1 (fld 1 0x45 0x46 0x47 0x0 0x0)), (0x5301F0545464700000000000, .vsubI 1 (fld 1 0x45 0x46 0x47 0x0 0x0))
    , (0x5301F0945464700000000000, .vmulI 1 (fld 1 0x45 0x46 0x47 0x0 0x0)), (0x5301F0D45464700000000000, .vminI 1 (fld 1 0x45 0x46 0x47 0x0 0x0))
    , (0x5301F1145464700000000000, .vmaxI 1 (fld 1 0x45 0x46 0x47 0x0 0x0)), (0x5301F1545464700000000000, .vand 1 (fld 1 0x45 0x46 0x47 0x0 0x0))
    , (0x5301F1945464700000000000, .vor 1 (fld 1 0x45 0x46 0x47 0x0 0x0)), (0x5301F1D45464700000000000, .vxor 1 (fld 1 0x45 0x46 0x47 0x0 0x0))
    , (0x5301F2145464700000000000, .vshl 1 (fld 1 0x45 0x46 0x47 0x0 0x0)), (0x5301F2545464700000000000, .vshr 1 (fld 1 0x45 0x46 0x47 0x0 0x0))
    , (0x5301F2945464700000000000, .vsra 1 (fld 1 0x45 0x46 0x47 0x0 0x0)), (0x5301F2D45464700000000000, .vadds 1 (fld 1 0x45 0x46 0x47 0x0 0x0))
    , (0x5301F3145464700000000000, .vsubs 1 (fld 1 0x45 0x46 0x47 0x0 0x0)), (0x5401F0965464700000000000, .vcmp 2 1 (fld 1 0x65 0x46 0x47 0x0 0x0))
    , (0x5501F0065666700000000000, .kand (fld 1 0x65 0x66 0x67 0x0 0x0)), (0x5501F0165666700000000000, .kor (fld 1 0x65 0x66 0x67 0x0 0x0))
    , (0x5501F0265666700000000000, .kxor (fld 1 0x65 0x66 0x67 0x0 0x0)), (0x5501F0365666700000000000, .kandn (fld 1 0x65 0x66 0x67 0x0 0x0))
    , (0x5501F0465660000000000000, .knot (fld 1 0x65 0x66 0x0 0x0 0x0)), (0x5501F0565660000000000000, .kmov (fld 1 0x65 0x66 0x0 0x0 0x0))
    , (0x5601F0045464763000000000, .vsel (fld 1 0x45 0x46 0x47 0x63 0x0)), (0x5701F0145460000000000000, .vcvt 1 (fld 1 0x45 0x46 0x0 0x0 0x0))
    , (0x5801F0045460048000000001, .vpack (fld 1 0x45 0x46 0x0 0x48 0x1)), (0x5801F0145460000000000001, .vunpack (fld 1 0x45 0x46 0x0 0x0 0x1))
    , (0x5901F0045460700000000000, .vrotR (fld 1 0x45 0x46 0x7 0x0 0x0)), (0x5901F0145460700000000000, .vbcR (fld 1 0x45 0x46 0x7 0x0 0x0))
    , (0x5901F0245460000000000000, .vraddR (fld 1 0x45 0x46 0x0 0x0 0x0)), (0x5901F0345460000000000000, .vrmaxR (fld 1 0x45 0x46 0x0 0x0 0x0))
    , (0x5901F0445460000000000000, .vrminR (fld 1 0x45 0x46 0x0 0x0 0x0)), (0x5901F0545460000000000000, .vrmaxiR (fld 1 0x45 0x46 0x0 0x0 0x0)) ] = true := by decide +kernel

/-- R56, R69-R75: words of VA and VB. -/
theorem test_decode_vector_2 : decodes (Where.plain .va) [
    (0x5901F0645460000000000000, .vrminiR (fld 1 0x45 0x46 0x0 0x0 0x0)), (0x5A01F0045460700000000000, .vrotC (fld 1 0x45 0x46 0x7 0x0 0x0))
    , (0x5A01F0145460700000000000, .vbcC (fld 1 0x45 0x46 0x7 0x0 0x0)), (0x5A01F0245460000000000000, .vraddC (fld 1 0x45 0x46 0x0 0x0 0x0))
    , (0x5A01F0345460000000000000, .vrmaxC (fld 1 0x45 0x46 0x0 0x0 0x0)), (0x5A01F0445460000000000000, .vrminC (fld 1 0x45 0x46 0x0 0x0 0x0))
    , (0x5A01F0545460000000000000, .vrmaxiC (fld 1 0x45 0x46 0x0 0x0 0x0)), (0x5A01F0645460000000000000, .vrminiC (fld 1 0x45 0x46 0x0 0x0 0x0))
    , (0x5B01F0045460000000000000, .vmov (fld 1 0x45 0x46 0x0 0x0 0x0)), (0x5B01F0145000000000000000, .vmovi (fld 1 0x45 0x0 0x0 0x0 0x0))
    , (0x5C01F00450000B0500000000, .vld (fld 1 0x45 0x0 0x0 0xB0 0x500000000))
    , (0x5C01F01004600B0500000000, .vst (fld 1 0x0 0x46 0x0 0xB0 0x500000000)), (0x5D01F00450000B0000000000, .vtapr (fld 1 0x45 0x0 0x0 0xB0 0x0))
    , (0x5D01F01004600B0000000902, .vtapw (fld 1 0x0 0x46 0x0 0xB0 0x902)) ] = true := by decide +kernel

/-- R56, R69-R75: words of SF. -/
theorem test_decode_sf : decodes (Where.plain .sf) [
    (0x9001F0045460000000000000, .sfExp2 (fld 1 0x45 0x46 0x0 0x0 0x0)), (0x9001F0145460000000000000, .sfLog2 (fld 1 0x45 0x46 0x0 0x0 0x0))
    , (0x9001F0245460000000000000, .sfRcp (fld 1 0x45 0x46 0x0 0x0 0x0)), (0x9001F0345460000000000000, .sfRsqrt (fld 1 0x45 0x46 0x0 0x0 0x0))
    , (0x9001F0445460000000000000, .sfSqrt (fld 1 0x45 0x46 0x0 0x0 0x0)), (0x9001F0545460000000000000, .sfSin (fld 1 0x45 0x46 0x0 0x0 0x0))
    , (0x9001F0645460000000000000, .sfCos (fld 1 0x45 0x46 0x0 0x0 0x0)), (0x9001F0745460000000000000, .sfTanh (fld 1 0x45 0x46 0x0 0x0 0x0))
    , (0x9101F0045460000000000000, .sfTmx (fld 1 0x45 0x46 0x0 0x0 0x0))
    , (0x9201F0065464784500000000, .sfRoute (fld 1 0x65 0x46 0x47 0x84 0x500000000))
    , (0x9201F0185000000000000000, .sfBopen (fld 1 0x85 0x0 0x0 0x0 0x0)), (0x9201F0285000000000000000, .sfBclose (fld 1 0x85 0x0 0x0 0x0 0x0))
    , (0x9201F0385000000000000000, .sfBdrain (fld 1 0x85 0x0 0x0 0x0 0x0)), (0x9301F0045460000000000000, .sfHist (fld 1 0x45 0x46 0x0 0x0 0x0))
    , (0x9301F0045460000000000001, .sfHistZ (fld 1 0x45 0x46 0x0 0x0 0x1)), (0x9301F0000000084000000002, .sfHistLatch (fld 1 0x0 0x0 0x0 0x84 0x2))
    , (0x9401F0045460748000000000, .sfShort (fld 1 0x45 0x46 0x7 0x48 0x0)), (0x9401F0165460700000000000, .sfMass (fld 1 0x65 0x46 0x7 0x0 0x0))
    , (0x9501F0045460000000000000, .sfRng (fld 1 0x45 0x46 0x0 0x0 0x0)), (0x9501F0045460000000000001, .sfRngU (fld 1 0x45 0x46 0x0 0x0 0x1))
    , (0x9601F0045860000000000000, .sfBget (fld 1 0x45 0x86 0x0 0x0 0x0)), (0x9601F0185060000000000000, .sfBset (fld 1 0x85 0x6 0x0 0x0 0x0)) ] = true := by decide +kernel

/-- R56, R69-R75: words of a trap handler. -/
theorem test_decode_handler : decodes pTrap [
    (0xF0000910000000000000, .gate (fld 0 0x0 0x91 0x0 0x0 0x0)), (0xB00F0093060700000000000, .ceq (fld 0 0x93 0x6 0x7 0x0 0x0))
    , (0xB00F0193060700000000000, .cne (fld 0 0x93 0x6 0x7 0x0 0x0)), (0xB00F0293060700000000000, .clt (fld 0 0x93 0x6 0x7 0x0 0x0))
    , (0xB00F0393060700000000000, .cltu (fld 0 0x93 0x6 0x7 0x0 0x0)), (0xB00F0493060700000000000, .cle (fld 0 0x93 0x6 0x7 0x0 0x0))
    , (0xB00F0593060700000000000, .cleu (fld 0 0x93 0x6 0x7 0x0 0x0)), (0xC00F0093060000500000000, .ceqI (fld 0 0x93 0x6 0x0 0x0 0x500000000))
    , (0xC00F0193060000500000000, .cneI (fld 0 0x93 0x6 0x0 0x0 0x500000000)), (0xC00F0293060000500000000, .cltI (fld 0 0x93 0x6 0x0 0x0 0x500000000))
    , (0xC00F0393060000500000000, .cltuI (fld 0 0x93 0x6 0x0 0x0 0x500000000))
    , (0xC00F0493060000500000000, .cleI (fld 0 0x93 0x6 0x0 0x0 0x500000000))
    , (0xC00F0593060000500000000, .cleuI (fld 0 0x93 0x6 0x0 0x0 0x500000000)), (0xB600F0000000000000000000, .tret (fld 0 0x0 0x0 0x0 0x0 0x0)) ] = true := by decide +kernel

/-- R56, R69-R75: words of the AP's handler. -/
theorem test_decode_interrupt : decodes pIntr [
    (0x2A00F0000000000000000000, .uret (fld 0 0x0 0x0 0x0 0x0 0x0)) ] = true := by decide +kernel

/-- R56, R69-R75: the opening word. -/
theorem test_decode_first : decodes (pFirst .lead) [
    (0xB100F0000000000000000000, .rdvAlign (fld 0 0x0 0x0 0x0 0x0 0x0)) ] = true := by decide +kernel

/-- Does each word of a cairn kernel decode to its instruction? -/
noncomputable def decodesCairn (l : List (Nat × Instr)) : Bool :=
  l.all fun x => match decodeCairn (BitVec.ofNat 32 x.1) with
    | .ok i => decide (i = x.2)
    | .error _ => false

/-- R378, R379, R383: words of cairn kernels. -/
theorem test_decode_cairn_1 : decodesCairn [
    (0xB3D000, .cAdd 0x5 0x9 0xE 0x2), (0x2B215A3, .cAddI 0x5 0x9 0x2 0x5A3), (0x4B3D000, .cSub 0x5 0x9 0xE 0x2)
    , (0x6B215A3, .cSubI 0x5 0x9 0x2 0x5A3), (0x8B3D000, .cMul 0x5 0x9 0xE 0x2), (0xAB215A3, .cMulI 0x5 0x9 0x2 0x5A3)
    , (0xCB3D000, .cAnd 0x5 0x9 0xE 0x2), (0xEB215A3, .cAndI 0x5 0x9 0x2 0x5A3), (0x10B3D000, .cOr 0x5 0x9 0xE 0x2)
    , (0x12B215A3, .cOrI 0x5 0x9 0x2 0x5A3), (0x14B3D000, .cXor 0x5 0x9 0xE 0x2), (0x16B215A3, .cXorI 0x5 0x9 0x2 0x5A3)
    , (0x18B3D000, .cShl 0x5 0x9 0xE 0x2), (0x1AB215A3, .cShlI 0x5 0x9 0x2 0x5A3), (0x1CB3D000, .cShr 0x5 0x9 0xE 0x2)
    , (0x1EB215A3, .cShrI 0x5 0x9 0x2 0x5A3), (0x20B3D000, .cSra 0x5 0x9 0xE 0x2), (0x22B215A3, .cSraI 0x5 0x9 0x2 0x5A3)
    , (0x24B3D000, .cMin 0x5 0x9 0xE 0x2), (0x26B215A3, .cMinI 0x5 0x9 0x2 0x5A3), (0x28B3D000, .cMax 0x5 0x9 0xE 0x2)
    , (0x2AB215A3, .cMaxI 0x5 0x9 0x2 0x5A3), (0x2CB3D000, .cMinu 0x5 0x9 0xE 0x2), (0x2EB215A3, .cMinuI 0x5 0x9 0x2 0x5A3)
    , (0x30B3D000, .cMaxu 0x5 0x9 0xE 0x2), (0x32B215A3, .cMaxuI 0x5 0x9 0x2 0x5A3), (0x34B3D000, .cFadd 0x5 0x9 0xE 0x2)
    , (0x38B3D000, .cFsub 0x5 0x9 0xE 0x2), (0x3CB3D000, .cFmul 0x5 0x9 0xE 0x2), (0x40B3D000, .cFmin 0x5 0x9 0xE 0x2)
    , (0x44B3D000, .cFmax 0x5 0x9 0xE 0x2), (0x4833D000, .cCmpEq 0x1 0x9 0xE 0x2), (0x4A3215A3, .cCmpEqI 0x1 0x9 0x2 0x5A3)
    , (0x4C33D000, .cCmpNe 0x1 0x9 0xE 0x2), (0x4E3215A3, .cCmpNeI 0x1 0x9 0x2 0x5A3) ] = true := by decide +kernel

/-- R378, R379, R383: words of cairn kernels. -/
theorem test_decode_cairn_2 : decodesCairn [
    (0x5033D000, .cCmpLt 0x1 0x9 0xE 0x2), (0x523215A3, .cCmpLtI 0x1 0x9 0x2 0x5A3), (0x5433D000, .cCmpLe 0x1 0x9 0xE 0x2)
    , (0x563215A3, .cCmpLeI 0x1 0x9 0x2 0x5A3), (0x5833D000, .cCmpLtu 0x1 0x9 0xE 0x2), (0x5A3215A3, .cCmpLtuI 0x1 0x9 0x2 0x5A3)
    , (0x5C33D000, .cCmpLeu 0x1 0x9 0xE 0x2), (0x5E3215A3, .cCmpLeuI 0x1 0x9 0x2 0x5A3), (0x6033D000, .cCmpFlt 0x1 0x9 0xE 0x2)
    , (0x6433D000, .cCmpFle 0x1 0x9 0xE 0x2), (0x68B3D000, .cSel 0x5 0x9 0xE 0x2), (0x6C224000, .cMand 0x1 0x1 0x2), (0x6C224001, .cMor 0x1 0x1 0x2)
    , (0x6C224002, .cMxor 0x1 0x1 0x2), (0x6C220003, .cMnot 0x1 0x1), (0x70A15A3C, .cLi 0x5 0x15A3C), (0x74A05A3C, .cLhi 0x5 0x5A3C)
    , (0x78A00000, .cLidx 0x5), (0x7CB2000B, .cBcast 0x5 0x9 0xB), (0x80B2000B, .cRot 0x5 0x9 0xB), (0x84B21000, .cRadd 0x5 0x9 0x2)
    , (0x88B21000, .cRmax 0x5 0x9 0x2), (0x8CA01014, .cFld 0x5 0x2 0x14), (0x90121014, .cFst 0x9 0x2 0x14), (0x94A014E5, .cSld 0x5 0x2 0x25 0x13)
    , (0x981214E5, .cSst 0x9 0x2 0x25 0x13), (0x9CB21000, .cTmred 0x5 0x9 0x2), (0xA0B3C000, .cTmmrg 0x5 0x9 0xE), (0xA4B20000, .cTmext 0x5 0x9)
    , (0xA814C2C5, .cRep 0xA6 0x2C5), (0xAC0013C5, .cSkip 0x2 0x3C5), (0xAE0013C5, .cSkipNone 0x2 0x3C5), (0xB0A00001, .cRidx 0x5 0x1)
    , (0xB4000000, .cDrop), (0xB8120000, .cEv 0x9) ] = true := by decide +kernel

/-- R172: words of dressing programs. -/
theorem test_decode_dresser : decodeDress 0x0500000000000FFF = .ok (.axis 5 0xFFF) ∧ decodeDress 0x1400000000000003 = .ok (.split 4 3) ∧
    decodeDress 0x2300000000000000 = .ok (.join 3) ∧ decodeDress 0x3120000000000000 = .ok (.swap 1 2) ∧
    decodeDress 0x4200000000000000 = .ok (.rev 2) ∧ decodeDress 0x5100000200030044 = .ok (.pad 1 2 3 0x44) ∧
    decodeDress 0x6120000000000007 = .ok (.tile 1 2 7) ∧ decodeDress 0x7300000000000080 = .ok (.emit 3 0x80) := by decide +kernel

/-! ### Ill-formed terms, and words that the decoder refuses by name -/

/-- R57-R66, R76, R172, R378, R383: one term for each check of WellFormed. -/
theorem test_ill_formed :
    wellFormed (Where.plain .sf) (.sfHistZ (fld 1 0x45 0x46 0 0 0)) = false ∧ wellFormed pAp (.cop 0x41 (fld 0 0x25 0x26 0x27 0 0)) = false ∧
    wellFormed pLead (.cFld 1 0 5) = false ∧ wellFormed pLead (.cFst 1 0 52) = false ∧ wellFormed pLead (.cRep 3 0) = false ∧
    wellFormed pLead (.cSkip 0 0) = false ∧ wellFormed pLead (.axis 6 0) = false ∧ wellFormed pLead (.tile 0 1 0) = false ∧
    wellFormed pLead badWord = false ∧ wellFormed pLead (.add (fld 0 5 6 7 0 0)) = false ∧ wellFormed pLead (.add (fld 1 5 6 7 1 0)) = false ∧
    wellFormed pAp (.add (fld 1 0x25 0x26 0x27 0 0)) = false ∧ wellFormed (Where.plain .mx) (.add (fld 1 5 6 7 0 0)) = false := by decide +kernel

/-- R76, R174, R383: the failed check of a word, by name. -/
def refusedBy (p : Where) (n : Nat) : Option Reject := match decodeWord p (BitVec.ofNat 96 n) with
  | .ok _ => none
  | .error e => some e

theorem test_refused_by_name :
    refusedBy pLead 0xF001F0000000000000000000 = some .marker ∧ refusedBy pLead 0x1001F0000000000000000000 = some .reservedMajor ∧
    refusedBy pLead 0x4001F0074000000000000000 = some .wrongStream ∧ refusedBy pLead 0x0801F1305060700000000000 = some .badFn ∧
    refusedBy pLead 0x0801F00FF060700000000000 = some .reservedReg ∧ refusedBy pLead 0x0801F0045060700000000000 = some .wrongClass ∧
    refusedBy pAp 0x2600F0000000000F00000000 = some .badType ∧ refusedBy pLead 0x0801F8005060700000000000 = some .notZero ∧
    refusedBy pLead 0x0800F0005060700000000000 = some .delay ∧ refusedBy pLead 0xB101F0000000000000000000 = some .notOpening ∧
    decodeCairn 0xBC000000 = .error .badCairn ∧ decodeCairn 0x78A00001 = .error .badCairn ∧ decodeDress 0x8000000000000000 = .error .badDress ∧
    decodeDress 0x2300000000000001 = .error .badDress := by decide +kernel

end Sys2Proof.Tests
end

section
/-! PROOFS. A write of a register of the device region (R8): where each register stands, the bits that its field map keeps, and what
it then reads. -/

namespace Sys2Proof.Proofs.Registers

open Sys2Proof Sys2Proof.Machine

/-! ### Bits of a word in place -/

/-- Ones in the `len` bits from bit `lo` on. -/
def fieldMask (w lo len : Nat) : BitVec w := (BitVec.allOnes len).setWidth w <<< lo

@[simp] theorem getElem_fieldMask (w lo len i : Nat) (h : i < w) :
    (fieldMask w lo len)[i] = (decide (lo ≤ i) && decide (i < lo + len)) := by
  simp only [fieldMask, BitVec.getElem_shiftLeft, BitVec.getElem_setWidth, BitVec.getLsbD_allOnes]
  by_cases hl : lo ≤ i
  · simp [hl, show ¬ i < lo by omega, show i - lo < len ↔ i < lo + len by omega]
  · simp [hl, show i < lo by omega]

/-! The masks of the field maps, by the bits that they keep. -/

theorem mask_base : (0x000FFFFFFFFFF000 : W64) = fieldMask 64 12 40 := by decide
theorem mask_mode : (0x1C : W64) = fieldMask 64 2 3 := by decide
theorem mask_cap : (0xFFF : W64) = fieldMask 64 0 12 := by decide
theorem mask_notes : (0x7E : W64) = fieldMask 64 1 6 := by decide
theorem mask_notes7 : (0x7E : BitVec 7) = fieldMask 7 1 6 := by decide
theorem mask_first : (1 : W64) = fieldMask 64 0 1 := by decide
theorem mask_peer : (0x000CFFFFFFFFFFFF : W64) = fieldMask 64 50 2 ||| fieldMask 64 0 48 := by decide

/-- A field read as a number is the bits extracted. -/
theorem ofNat_bitsN (v : W64) (lo len : Nat) : BitVec.ofNat len (bitsN v.toNat lo len) = v.extractLsb' lo len := by
  apply BitVec.eq_of_toNat_eq
  simp [bitsN, Nat.shiftRight_eq_div_pow]

theorem bitsN_eq_extract (v : W64) (lo len : Nat) : bitsN v.toNat lo len = (v.extractLsb' lo len).toNat := by
  simp [bitsN, Nat.shiftRight_eq_div_pow]

/-- The word of a number and, in the `k` bits below it, a field. -/
theorem ofNat_above_field (a k n : Nat) (b : BitVec n) (h : n ≤ k) :
    BitVec.ofNat 64 (a * 2 ^ k + b.toNat) = BitVec.ofNat 64 a <<< k ||| b.setWidth 64 := by
  have hb : b.toNat < 2 ^ k := Nat.lt_of_lt_of_le b.isLt (Nat.pow_le_pow_right (by decide) h)
  apply BitVec.eq_of_getElem_eq
  intro i hi
  rw [BitVec.getElem_eq_testBit_toNat, BitVec.toNat_ofNat, Nat.testBit_mod_two_pow, Nat.mul_comm,
    Nat.testBit_two_pow_mul_add _ hb, BitVec.testBit_toNat]
  by_cases hk : i < k
  · simp [hk, hi]
  · have ha : (BitVec.ofNat 64 a)[i - k] = a.testBit (i - k) := by
      rw [BitVec.getElem_eq_testBit_toNat, BitVec.toNat_ofNat, Nat.testBit_mod_two_pow]
      simp [show i - k < 64 by omega]
    simp [hk, hi, ha, BitVec.getLsbD_of_ge b i (by omega)]

theorem baseBits_eq_and_mask (v : W64) : baseBits v = v &&& fieldMask 64 12 40 := by rw [← mask_base]; rfl

/-- A write of a base register keeps bits [51:12]; its size stands below them. -/
theorem baseBits_or_size (v : W64) (z : BitVec 5) :
    baseBits (baseBits v) ||| z.setWidth 64 = BitVec.ofNat 64 (bitsN v.toNat 12 40 * 4096 + z.toNat) := by
  rw [show (4096 : Nat) = 2 ^ 12 from rfl, ofNat_above_field _ _ _ _ (by decide), bitsN_eq_extract, BitVec.ofNat_toNat]
  congr 1
  apply BitVec.eq_of_getElem_eq
  intro i hi
  by_cases h : i < 12
  · simp [baseBits_eq_and_mask, h]
  · simp [baseBits_eq_and_mask, h, show 12 ≤ i by omega, show i - 12 < 40 ↔ i < 52 by omega, BitVec.getLsbD_eq_getElem hi, Bool.and_comm]

/-- The size of a base register as it reads. -/
theorem bitsN_baseBits_or_size (b : W64) (z : BitVec 5) : bitsN (baseBits b ||| z.setWidth 64).toNat 0 5 = z.toNat := by
  rw [bitsN_eq_extract]
  congr 1
  apply BitVec.eq_of_getElem_eq
  intro i hi
  rw [BitVec.getElem_extractLsb', Nat.zero_add, BitVec.getLsbD_eq_getElem (by omega)]
  simp [baseBits_eq_and_mask, hi, show ¬ 12 ≤ i by omega]

/-- What a base register reads after a write: the base in place, and the size as written where it is one that the field takes. -/
theorem base_read_after_write (b : W64) (z : BitVec 5) (v : W64) :
    baseBits (baseBits v) ||| (sizeField z v).setWidth 64 = BitVec.ofNat 64 (bitsN v.toNat 12 40 * 4096 +
      if 4 ≤ bitsN v.toNat 0 5 ∧ bitsN v.toNat 0 5 ≤ 16 then bitsN v.toNat 0 5
      else bitsN (baseBits b ||| z.setWidth 64).toNat 0 5) := by
  rw [baseBits_or_size, bitsN_baseBits_or_size, sizeField, apply_ite BitVec.toNat, ofNat_bitsN, ← bitsN_eq_extract]

theorem setWidth32_setWidth64 (v : W64) : (v.setWidth 32).setWidth 64 = BitVec.ofNat 64 (v.toNat % 2 ^ 32) := by
  apply BitVec.eq_of_toNat_eq
  simp

theorem setWidth32_eq_zero_iff (v : W64) : v.setWidth 32 = (0 : W32) ↔ v.toNat % 2 ^ 32 = 0 := by
  simp [← BitVec.toNat_inj]

/-- Ones written to MGTNOTE clear bits 6 to 1 of what it reads. -/
theorem notes_cleared (m : BitVec 7) (v : W64) :
    (m &&& ~~~(v.setWidth 7 &&& 0x7E)).setWidth 64 = m.setWidth 64 &&& ~~~(v &&& 0x7E) := by
  rw [mask_notes, mask_notes7]
  apply BitVec.eq_of_getElem_eq
  intro i hi
  by_cases h : i < 7
  · simp [hi, h]
  · simp [BitVec.getLsbD_of_ge m i (by omega)]

/-- CAP of PWRCTL as written, below what stands above it. -/
theorem cap_below (a : Nat) (old : BitVec 12) (v : W64) :
    BitVec.ofNat 64 (a * 2 ^ 16 + (v.extractLsb' 0 12).toNat) =
      (BitVec.ofNat 64 (a * 2 ^ 16 + old.toNat) &&& ~~~0xFFF) ||| (v &&& 0xFFF) := by
  rw [ofNat_above_field _ _ _ _ (by decide), ofNat_above_field _ _ _ _ (by decide), mask_cap]
  apply BitVec.eq_of_getElem_eq
  intro i hi
  by_cases h : i < 12
  · simp [h, hi, show i < 16 by omega]
  · simp [h, BitVec.getLsbD_of_ge old i (by omega)]

/-- MODE of ROPECTL as written, beside UP as it was. -/
theorem mode_beside_up (old : BitVec 3) (up : Bool) (v : W64) :
    BitVec.ofNat 64 (4 * (v.extractLsb' 2 3).toNat + up.toNat) =
      (BitVec.ofNat 64 (4 * old.toNat + up.toNat) &&& 1) ||| (v &&& 0x1C) := by
  rw [← BitVec.toNat_ofBool, Nat.mul_comm, Nat.mul_comm 4 old.toNat, show (4 : Nat) = 2 ^ 2 from rfl,
    ofNat_above_field _ _ _ _ (by decide), ofNat_above_field _ _ _ _ (by decide), mask_first, mask_mode, BitVec.ofNat_toNat,
    BitVec.ofNat_toNat]
  apply BitVec.eq_of_getElem_eq
  intro i hi
  by_cases h0 : i = 0
  · simp [h0]
  · by_cases h : i < 2
    · simp [h, h0, show ¬ 2 ≤ i by omega]
    · simp [h, h0, show 2 ≤ i by omega, show i - 2 < 3 ↔ i < 5 by omega, BitVec.getLsbD_eq_getElem hi, Bool.and_comm]

/-- PORT and the address of a peer entry, in their places. -/
theorem port_and_mac (v : W64) :
    BitVec.ofNat 64 ((v.extractLsb' 50 2).toNat * 2 ^ 50 + (v.extractLsb' 0 48).toNat) = v &&& 0x000CFFFFFFFFFFFF := by
  rw [ofNat_above_field _ 50 _ _ (by decide), mask_peer, BitVec.ofNat_toNat]
  apply BitVec.eq_of_getElem_eq
  intro i hi
  by_cases h : i < 50
  · simp [h, hi, show ¬ 50 ≤ i by omega, Bool.and_comm]
  · simp [h, hi, show 50 ≤ i by omega, show i - 50 < 2 ↔ i < 52 by omega, show ¬ i < 48 by omega, Bool.and_comm]

theorem valid_bit (v : W64) : (if v.getLsbD 0 then 1 else 0 : W64) = v &&& 1 := by
  rw [mask_first]
  apply BitVec.eq_of_getElem_eq
  intro i hi
  by_cases h0 : i = 0
  · subst h0; cases h : v.getLsbD 0 <;> simp_all
  · cases h : v.getLsbD 0 <;> simp [h0]

/-! ### Where the registers of the files stand (R8) -/

/-- An offset within element `i` of a file. -/
theorem fileAt_element (base stride count i r : Nat) (hi : i < count) (hr : r < stride) :
    fileAt (base + stride * i + r) base stride count = some (i, r) := by
  have hle : stride * i + stride ≤ stride * count := by rw [← Nat.mul_succ]; exact Nat.mul_le_mul_left _ hi
  have hsub : base + stride * i + r - base = r + stride * i := by omega
  rw [fileAt, if_pos (by omega), hsub, Nat.add_mul_div_left _ _ (by omega), Nat.add_mul_mod_self_left, Nat.div_eq_of_lt hr,
    Nat.mod_eq_of_lt hr, Nat.zero_add]

/-- An offset outside a file. -/
theorem fileAt_outside (off base stride count : Nat) (h : off < base ∨ base + stride * count ≤ off) : fileAt off base stride count = none :=
  if_neg (by omega)

/-- The offsets at which no register stands alone. -/
theorem regSingle_none (off : Nat) (h : 0x1040 < off ∧ off < 0x62000 ∨ 0xC0010 < off) : regSingle off = none := by
  unfold regSingle
  split <;> simp only [reduceCtorEq] <;> omega

/-- The register at an offset of whole words. -/
theorem regAt_offset (off : Nat) (h : 8 ∣ off) : regAt (0x40000000000 + off) = (regSingle off <|> regFile off).getD .absent := by
  have : (0x40000000000 + off - 0x40000000000) / 8 * 8 = off := by omega
  simp only [regAt, this]

theorem regAt_rope (p : Fin 24) : regAt (0x40000000000 + (0x20000 + 0x40 * p.val)) = .rope p 0 := by
  have h : fileAt (0x20000 + 0x40 * p.val) 0x20000 0x40 24 = some (p.val, 0) := fileAt_element 0x20000 0x40 24 p 0 p.isLt (by decide)
  rw [regAt_offset _ (by omega), regSingle_none _ (by omega)]
  simp [regFile, h]

theorem regAt_peer (j : Fin 16) (w : Nat) (hw : w < 4) : regAt (0x40000000000 + (0x30000 + 8 * w + 32 * j.val)) = .peer j w := by
  have h := fileAt_element 0x30000 32 16 j (8 * w) j.isLt (by omega)
  rw [Nat.add_right_comm, regAt_offset _ (by omega), regSingle_none _ (by omega)]
  simp (disch := omega) [regFile, h, fileAt_outside]

theorem regAt_slotq (i : Fin 256) : regAt (0x40000000000 + (0x60000 + 0x20 * i.val)) = .slot i 0 := by
  have h : fileAt (0x60000 + 0x20 * i.val) 0x60000 0x20 256 = some (i.val, 0) := fileAt_element 0x60000 0x20 256 i 0 i.isLt (by decide)
  rw [regAt_offset _ (by omega), regSingle_none _ (by omega)]
  simp (disch := omega) [regFile, h, fileAt_outside]

theorem regAt_gp (i : Fin 256) (n : Nat) (hn : n < 64) :
    regAt (0x40000000000 + (0x100000 + 0x200 * i.val + 8 * n)) = .gpw none i n := by
  have h := fileAt_element 0x100000 0x200 256 i (8 * n) i.isLt (by omega)
  rw [regAt_offset _ (by omega), regSingle_none _ (by omega)]
  simp (disch := omega) [regFile, h, fileAt_outside]

/-! ### Entries read after a change of them -/

theorem modPort_port_same (s : State) (p : Fin 24) (f : Port → Port) : (s.modPort p f).fabric.ports[p] = f s.fabric.ports[p] := by
  simp [State.modPort]

theorem modPeer_peer_same (s : State) (j : Fin 16) (f : Peer → Peer) : (s.modPeer j f).fabric.peers[j] = f s.fabric.peers[j] := by
  simp [State.modPeer]

theorem campSlot_modSlot_same (s : State) (i : Fin 256) (f : Slot → Slot) : campSlot (s.modSlot i f) i = f (campSlot s i) := by
  simp [State.modSlot, campSlot]

/-- Without a collective a lost peer entry cuts nothing. -/
theorem cutUnreached_no_colls (j : Nat) (s : State) (h : s.fabric.colls = []) : cutUnreached j s = s := by
  simp [cutUnreached, h]

/-! ### What a write of the region does and leaves -/

/-- The change from `s` to `t` leaves no store waiting for the region, the package as awake as it was, and the cores and memory alone. -/
structure RegFrame (s t : State) : Prop where
  regq : t.regq = s.regq
  awake : powered t = powered s
  cores : t.cores = s.cores
  mem : t.mem = s.mem
  l2 : t.l2 = s.l2

theorem RegFrame.refl (s : State) : RegFrame s s := ⟨rfl, rfl, rfl, rfl, rfl⟩

/-- A write of a register after which it reads `x` and the frame holds. -/
structure RegWriteGives (s : State) (v : W64) (r : Reg) (x : W64) : Prop where
  frame : RegFrame s (regWrite r v s)
  value : regValue (regWrite r v s) r = x

theorem regRead_powered {s : State} (r : Reg) (hp : powered s = true) : regRead s r = regValue s r := by
  simp [regRead, regAwake, hp]

/-- A read at an offset of the region is the read of the register there. -/
theorem claimsReg_eq {off : Nat} {r : Reg} (h : regAt (0x40000000000 + off) = r) (s : State) : Claims.reg s off = regRead s r := by
  rw [Claims.reg, h]

/-- REGISTER_WRITE at an offset of the region is the write of the register there. -/
theorem exec_registerWrite (off : Nat) (v : W64) (s : State) (h : off < 2 ^ 32) :
    exec (.registerWrite (BitVec.ofNat 52 (0x40000000000 + off)) v) s = done (regWrite (regAt (0x40000000000 + off)) v s) := by
  have ha : (BitVec.ofNat 52 (0x40000000000 + off)).toNat = 0x40000000000 + off := by
    rw [BitVec.toNat_ofNat, Nat.mod_eq_of_lt (by omega)]
  have hr : inRegs (0x40000000000 + off) = true := by
    simp [inRegs]; omega
  change done (registerWriteAt (BitVec.ofNat 52 (0x40000000000 + off)).toNat v s) = _
  rw [ha, registerWriteAt, if_pos hr]

/-- What REGISTER_WRITE comes to, from what the write of the register gives. -/
theorem RegWriteGives.exec_gives {s : State} {v x : W64} {r : Reg} {off : Nat} (h : RegWriteGives s v r x) (hq : s.regq = [])
    (hp : powered s = true) (hr : regAt (0x40000000000 + off) = r) (hoff : off < 2 ^ 32) :
    ∃ t, exec (.registerWrite (BitVec.ofNat 52 (0x40000000000 + off)) v) s = .next t ∧ Claims.reg t off = x ∧ t.cores = s.cores ∧
      t.mem = s.mem ∧ t.l2 = s.l2 := by
  obtain ⟨hf, hv⟩ := h
  refine ⟨regWrite r v s, ?_, ?_, hf.cores, hf.mem, hf.l2⟩
  · rw [exec_registerWrite off v s hoff, hr, done, flushRegs_nil _ (hf.regq.trans hq)]
  · rw [claimsReg_eq hr, regRead_powered r (hf.awake.trans hp), hv]

/-- The write of a register, by the state that it leaves. -/
theorem RegWriteGives.of_eq {s t : State} {v x : W64} {r : Reg} (h : regWrite r v s = t) (hf : RegFrame s t) (hv : regValue t r = x) :
    RegWriteGives s v r x := by
  subst h
  exact ⟨hf, hv⟩

section
variable {s : State} (hp : powered s = true) (v : W64)
include hp

/-- While the package is awake no register goes unanswered: the test with which `regWrite` begins fails. -/
theorem not_unanswered (r : Reg) : ¬ (!regAwake s r) = true := by simp [regAwake, hp]

/-- The write of a register that keeps what it holds. -/
theorem RegWriteGives.of_ignored {r : Reg} (h : regWrite r v s = s) : RegWriteGives s v r (regRead s r) :=
  .of_eq h (.refl s) (regRead_powered r hp).symm

/-- The write of a register of 32 bits that ignores zero. -/
theorem RegWriteGives.of_nonzero {t : State} {r : Reg} (hw : regWrite r v s = if v.setWidth 32 = (0 : W32) then s else t)
    (hf : RegFrame s t) (hv : regValue t r = (v.setWidth 32).setWidth 64) :
    RegWriteGives s v r (if v.toNat % 2 ^ 32 = 0 then regRead s r else BitVec.ofNat 64 (v.toNat % 2 ^ 32)) := by
  by_cases h : v.toNat % 2 ^ 32 = 0
  · rw [if_pos h]
    exact .of_ignored hp v (hw.trans (if_pos ((setWidth32_eq_zero_iff v).mpr h)))
  · rw [if_neg h]
    exact .of_eq (hw.trans (if_neg (mt (setWidth32_eq_zero_iff v).mp h))) hf (hv.trans (setWidth32_setWidth64 v))

/-! ### One register at a time -/

/-- FQBASE (R193). -/
theorem write_fqbase : RegWriteGives s v .fqbase (BitVec.ofNat 64 (bitsN v.toNat 12 40 * 4096 +
    if 4 ≤ bitsN v.toNat 0 5 ∧ bitsN v.toNat 0 5 ≤ 16 then bitsN v.toNat 0 5 else bitsN (regRead s .fqbase).toNat 0 5)) := by
  refine .of_eq (if_neg (not_unanswered hp _)) ⟨rfl, rfl, rfl, rfl, rfl⟩ ?_
  rw [regRead_powered _ hp]
  exact base_read_after_write _ _ v

/-- ERRBASE (R437). -/
theorem write_errbase : RegWriteGives s v .errbase (BitVec.ofNat 64 (bitsN v.toNat 12 40 * 4096 +
    if 4 ≤ bitsN v.toNat 0 5 ∧ bitsN v.toNat 0 5 ≤ 16 then bitsN v.toNat 0 5 else bitsN (regRead s .errbase).toNat 0 5)) := by
  refine .of_eq (if_neg (not_unanswered hp _)) ⟨rfl, rfl, rfl, rfl, rfl⟩ ?_
  rw [regRead_powered _ hp]
  exact base_read_after_write _ _ v

/-- FQHEAD (R193). -/
theorem write_fqhead : RegWriteGives s v .fqhead (BitVec.ofNat 64 (v.toNat % 2 ^ 32)) :=
  .of_eq (if_neg (not_unanswered hp _)) ⟨rfl, rfl, rfl, rfl, rfl⟩ (setWidth32_setWidth64 v)

/-- ERRHEAD (R437). -/
theorem write_errhead : RegWriteGives s v .errhead (BitVec.ofNat 64 (v.toNat % 2 ^ 32)) :=
  .of_eq (if_neg (not_unanswered hp _)) ⟨rfl, rfl, rfl, rfl, rfl⟩ (setWidth32_setWidth64 v)

/-- FQTAIL (R193), which is only read. -/
theorem write_fqtail : RegWriteGives s v .fqtail (regRead s .fqtail) := .of_ignored hp v (if_neg (not_unanswered hp _))

/-- ERRTAIL (R437), which is only read. -/
theorem write_errtail : RegWriteGives s v .errtail (regRead s .errtail) := .of_ignored hp v (if_neg (not_unanswered hp _))

/-- INVDONE (R196), which is only read. -/
theorem write_invdone : RegWriteGives s v .invdone (regRead s .invdone) := .of_ignored hp v (if_neg (not_unanswered hp _))

/-- CWSTAT (R394), which is only read. -/
theorem write_cwstat (c : CoreId) : RegWriteGives s v (.cwstat c) (regRead s (.cwstat c)) :=
  .of_ignored hp v (if_neg (not_unanswered hp _))

/-- INVA (R196). -/
theorem write_inva : RegWriteGives s v .inva v :=
  .of_eq (if_neg (not_unanswered hp _)) ⟨rfl, rfl, rfl, rfl, rfl⟩ rfl

/-- INVL (R196). -/
theorem write_invl : RegWriteGives s v .invl v :=
  .of_eq (if_neg (not_unanswered hp _)) ⟨rfl, rfl, rfl, rfl, rfl⟩ rfl

/-- BCSEED (R404): zero is ignored. -/
theorem write_bcseed : RegWriteGives s v .bcseed
    (if v.toNat % 2 ^ 32 = 0 then regRead s .bcseed else BitVec.ofNat 64 (v.toNat % 2 ^ 32)) :=
  .of_nonzero hp v (if_neg (not_unanswered hp _)) ⟨rfl, rfl, rfl, rfl, rfl⟩ rfl

/-- TTO (R198): zero is ignored. -/
theorem write_tto : RegWriteGives s v .tto
    (if v.toNat % 2 ^ 32 = 0 then regRead s .tto else BitVec.ofNat 64 (v.toNat % 2 ^ 32)) :=
  .of_nonzero hp v (if_neg (not_unanswered hp _)) ⟨rfl, rfl, rfl, rfl, rfl⟩ rfl

/-- MGTNOTE (R448): ones clear bits 6 to 1. -/
theorem write_mgtnote : RegWriteGives s v .mgtnote (regRead s .mgtnote &&& ~~~(v &&& 0x7E)) := by
  refine .of_eq (if_neg (not_unanswered hp _)) ⟨rfl, rfl, rfl, rfl, rfl⟩ ?_
  rw [regRead_powered _ hp]
  exact notes_cleared s.sys.mgt v

/-- PWRCTL (R444): CAP from 1000 to 2800 only. -/
theorem write_pwrctl : RegWriteGives s v .pwrctl (if 1000 ≤ bitsN v.toNat 0 12 ∧ bitsN v.toNat 0 12 ≤ 2800 then
    (regRead s .pwrctl &&& ~~~0xFFF) ||| (v &&& 0xFFF) else regRead s .pwrctl) := by
  have hw : regWrite .pwrctl v s = writePwrctl v s := if_neg (not_unanswered hp _)
  by_cases h : 1000 ≤ bitsN v.toNat 0 12 ∧ bitsN v.toNat 0 12 ≤ 2800
  · rw [if_pos h]
    refine .of_eq (hw.trans (if_pos h)) ⟨rfl, rfl, rfl, rfl, rfl⟩ ?_
    have hsum (cap : BitVec 12) : s.sys.wattsRead.toNat * 2 ^ 32 + s.sys.throt.toNat * 2 ^ 16 + cap.toNat =
        (s.sys.wattsRead.toNat * 2 ^ 16 + s.sys.throt.toNat) * 2 ^ 16 + cap.toNat := by omega
    rw [regRead_powered _ hp]
    simp only [regValue, pwrctlValue, ofNat_bitsN, hsum]
    exact cap_below _ s.sys.cap v
  · rw [if_neg h]
    exact .of_ignored hp v (hw.trans (if_neg h))

/-- ROPECTL (R365): MODE of 0 to 4 only, UP kept. -/
theorem write_ropectl (p : Fin 24) : RegWriteGives s v (.rope p 0) (if bitsN v.toNat 2 3 ≤ 4 then
    (regRead s (.rope p 0) &&& 1) ||| (v &&& 0x1C) else regRead s (.rope p 0)) := by
  have hw : regWrite (.rope p 0) v s = writeRopectl p v s := if_neg (not_unanswered hp _)
  by_cases h : bitsN v.toNat 2 3 ≤ 4
  · rw [if_pos h]
    refine .of_eq (hw.trans (if_pos h)) ⟨rfl, rfl, rfl, rfl, rfl⟩ ?_
    rw [regRead_powered _ hp]
    simp only [regValue, ropeValue, ofNat_bitsN, modPort_port_same]
    exact mode_beside_up _ _ v
  · rw [if_neg h]
    exact .of_ignored hp v (hw.trans (if_neg h))

/-- The address words of a peer entry (R367). -/
theorem write_peer_addr0 (j : Fin 16) : RegWriteGives s v (.peer j 0) v :=
  .of_eq (if_neg (not_unanswered hp _)) ⟨rfl, rfl, rfl, rfl, rfl⟩ (by simp only [regValue, peerValue, writePeer, modPeer_peer_same])

theorem write_peer_addr1 (j : Fin 16) : RegWriteGives s v (.peer j 1) v :=
  .of_eq (if_neg (not_unanswered hp _)) ⟨rfl, rfl, rfl, rfl, rfl⟩ (by simp only [regValue, peerValue, writePeer, modPeer_peer_same])

/-- PORT and the address of a peer entry (R367). -/
theorem write_peer_port (j : Fin 16) : RegWriteGives s v (.peer j 2) (v &&& 0x000CFFFFFFFFFFFF) := by
  refine .of_eq (if_neg (not_unanswered hp _)) ⟨rfl, rfl, rfl, rfl, rfl⟩ ?_
  simp only [regValue, peerValue, writePeer, modPeer_peer_same]
  exact port_and_mac v

/-- VALID of a peer entry (R367): without a collective, or when the entry stays valid, nothing is cut. -/
theorem write_peer_valid (j : Fin 16) (h : s.fabric.colls = [] ∨ v.getLsbD 0 = true) : RegWriteGives s v (.peer j 3) (v &&& 1) := by
  have hw : regWrite (.peer j 3) v s = s.modPeer j fun x => { x with valid := v.getLsbD 0 } := by
    refine (if_neg (not_unanswered hp _)).trans ?_
    obtain hc | hv := h
    · exact ite_eq_left_iff.mpr fun _ => cutUnreached_no_colls _ _ hc
    · exact if_pos hv
  refine .of_eq hw ⟨rfl, rfl, rfl, rfl, rfl⟩ ?_
  simp only [regValue, peerValue, modPeer_peer_same]
  exact valid_bit v

/-- SLOTQ (R400). -/
theorem write_slotq (i : Fin 256) : RegWriteGives s v (.slot i 0) (v &&& 0x000FFFFFFFFFF000) :=
  .of_eq (if_neg (not_unanswered hp _)) ⟨rfl, rfl, rfl, rfl, rfl⟩ (congrArg Slot.qbase (campSlot_modSlot_same s i _))

/-- A graph parameter through the guide's own window (R411). -/
theorem write_gp (i : Fin 256) (n : Nat) (hn : n < 64) : RegWriteGives s v (.gpw none i n) v :=
  .of_eq (if_neg (not_unanswered hp _)) ⟨rfl, rfl, rfl, rfl, rfl⟩
    (by simp only [regValue, writeGp, if_true, campSlot_modSlot_same]; exact vget_vset_same _ _ _ _ hn)

/-- A write at an address where no register stands (R8). -/
theorem exec_registerWrite_absent (hq : s.regq = []) (a : BitVec 52) (h : inRegs a.toNat = false ∨ regAt a.toNat = .absent) :
    exec (.registerWrite a v) s = .next s := by
  have hw : registerWriteAt a.toNat v s = s := by
    obtain hout | habs := h
    · rw [registerWriteAt, if_neg (by simp [hout])]
    · rw [registerWriteAt, habs]
      exact ite_eq_right_iff.mpr fun _ => if_neg (not_unanswered hp _)
  change done (registerWriteAt a.toNat v s) = .next s
  rw [hw, done, flushRegs_nil s hq]

end

/-- Settles O60: every register of the list stands where the map says, and its write gives what its field map says. -/
theorem registerWriteResult : Obligations.RegisterWriteResult := by
  unfold Obligations.RegisterWriteResult
  intro s v hq hp put size gives
  have ha {off : Nat} {r : Reg} {x : W64} (hr : regAt (0x40000000000 + off) = r) (h : RegWriteGives s v r x)
      (hoff : off < 2 ^ 32) : gives off x := h.exec_gives hq hp hr hoff
  refine ⟨ha rfl (write_fqbase hp v) (by decide), ha rfl (write_errbase hp v) (by decide), ha rfl (write_fqhead hp v) (by decide),
    ha rfl (write_errhead hp v) (by decide), ha rfl (write_inva hp v) (by decide), ha rfl (write_invl hp v) (by decide),
    ha rfl (write_fqtail hp v) (by decide), ha rfl (write_errtail hp v) (by decide), ha rfl (write_invdone hp v) (by decide),
    ha rfl (write_cwstat hp v _) (by decide),
    ha rfl (write_bcseed hp v) (by decide), ha rfl (write_tto hp v) (by decide), ha rfl (write_mgtnote hp v) (by decide),
    ha rfl (write_pwrctl hp v) (by decide), ?rope, ?peer, ?slotq, ?gp, ?absent⟩
  case rope =>
    intro p hlt
    rw [claimsReg_eq (regAt_rope ⟨p, hlt⟩)]
    exact ha (regAt_rope ⟨p, hlt⟩) (write_ropectl hp v _) (by omega)
  case peer =>
    intro j hlt
    exact ⟨ha (regAt_peer ⟨j, hlt⟩ 0 (by decide)) (write_peer_addr0 hp v _) (by omega),
      ha (regAt_peer ⟨j, hlt⟩ 1 (by decide)) (write_peer_addr1 hp v _) (by omega),
      ha (regAt_peer ⟨j, hlt⟩ 2 (by decide)) (write_peer_port hp v _) (by omega),
      fun h => ha (regAt_peer ⟨j, hlt⟩ 3 (by decide)) (write_peer_valid hp v _ h) (by omega)⟩
  case slotq => exact fun i hlt => ha (regAt_slotq ⟨i, hlt⟩) (write_slotq hp v _) (by omega)
  case gp => exact fun i n hlt hn => ha (regAt_gp ⟨i, hlt⟩ n hn) (write_gp hp v _ n hn) (by omega)
  case absent => exact fun a h => exec_registerWrite_absent hp v hq a h

end Sys2Proof.Proofs.Registers
end

section
/-! PROOFS. Where a stream stands after a word (R11, R12, R19, R31, R107, R122): a null, a word that ends no loop body, the back-edge
of a loop with its stage slots, the exit of a loop, and a handler's word. -/

namespace Sys2Proof.Proofs.Streams

open Sys2Proof Sys2Proof.Machine

/-! ### Stage slots at a back-edge (R12) -/

/-- A slot of the job's bank after a write of one. -/
theorem slotVal_writeSlot {i j : Nat} (hi : i < 15) (hj : j < 15) (b : Bool) (x : Core) :
    slotVal (writeSlot false i b x) false j = if j = i then b else slotVal x false j :=
  putBit_get x.scal.pv i j hi hj b

@[simp] theorem slotVal_modStream (x : Core) (e : Engine) (f : Stream → Stream) (hnd : Bool) (i : Nat) :
    slotVal (x.modStream e f) hnd i = slotVal x hnd i := rfl

/-- The slots above the first take the value of the slot below; every other slot keeps its own. -/
theorem slotVal_shiftSlots (pf n : Nat) (hn : pf + n < 15) {i : Nat} (hi : i < 15) (x : Core) :
    slotVal (shiftSlots pf n x) false i = if pf < i ∧ i ≤ pf + n then slotVal x false (i - 1) else slotVal x false i := by
  induction n generalizing x with
  | zero => rw [shiftSlots, if_neg (by omega)]
  | succ n ih =>
    have hlt : pf + n + 1 < 15 := hn
    rw [shiftSlots, ih (by omega), slotVal_writeSlot hlt hi, slotVal_writeSlot hlt (by omega)]
    by_cases htop : i = pf + n + 1
    · simp [htop]
    · by_cases hin : pf < i ∧ i ≤ pf + n
      · rw [if_pos hin, if_neg (by omega), if_pos (by omega)]
      · rw [if_neg hin, if_neg htop, if_neg (by omega)]

@[simp] theorem shiftSlots_streams (pf n : Nat) (x : Core) : (shiftSlots pf n x).streams = x.streams := by
  induction n generalizing x with
  | zero => rfl
  | succ n ih => exact ih _

/-- A back-edge counts ROT up and leaves the rest of the stream. -/
theorem stream_backEdge (e : Engine) (l : Level) (x : Core) :
    (backEdge e l x).stream e = { x.stream e with rot := (x.stream e).rot + 1 } := by
  unfold backEdge
  dsimp only
  split
  · exact (congrArg (·[engIdx e]) (shiftSlots_streams _ _ _)).trans (Core.stream_modStream_same _ _ _)
  · exact Core.stream_modStream_same _ _ _

/-- The back-edge of a loop without stage slots changes no scalar state. -/
theorem backEdge_scal_plain (e : Engine) (l : Level) (x : Core) (h : l.stage = false) : (backEdge e l x).scal = x.scal := by
  simp [backEdge, h]

/-- The back-edge of a stage loop: the first slot says whether the iteration count is not yet reached, the others shift. -/
theorem slotVal_backEdge_stage (e : Engine) (l : Level) (x : Core) (h : l.stage = true) (hns : 0 < l.ns.toNat)
    (hfit : l.pf.toNat + l.ns.toNat ≤ 15) {i : Nat} (hi : i < 15) :
    slotVal (backEdge e l x) false i = if i = l.pf.toNat then decide (l.done < l.aCnt.toNat)
      else if l.pf.toNat < i ∧ i < l.pf.toNat + l.ns.toNat then slotVal x false (i - 1) else slotVal x false i := by
  have hrange : (l.pf.toNat < i ∧ i ≤ l.pf.toNat + (l.ns.toNat - 1)) ↔ (l.pf.toNat < i ∧ i < l.pf.toNat + l.ns.toNat) := by omega
  simp only [backEdge, h, if_true]
  rw [slotVal_writeSlot (by omega) hi, slotVal_shiftSlots _ _ (by omega) hi]
  simp only [hrange]
  rfl

/-! ### Levels that end at a word (R12, R107) -/

/-- A level after its back-edge: its iteration counted and its index on by one. -/
def nextIteration (l : Level) : Level := { l with done := l.done + 1, idx := l.idx + 1 }

/-- Level `m` of a stream is active and its body ends at word `off`. -/
def EndsAt (t : Stream) (off m : Nat) : Prop := (levelOf t m).act = true ∧ (levelOf t m).last = off

theorem levelOf_putLevel_same (t : Stream) {m : Nat} (hm : m < 4) (l : Level) : levelOf (putLevel t m l) m = l :=
  vget_vset_same _ _ _ _ hm

theorem levelOf_putLevel_other (t : Stream) {m j : Nat} (h : j ≠ m) (l : Level) : levelOf (putLevel t m l) j = levelOf t j :=
  vget_vset_other _ _ _ _ _ h

section Resolve

variable {e : Engine} {off n m : Nat} {x : Core}

/-- Levels that do not end at the word are passed over. -/
theorem resolveLoops_descend (hle : m ≤ n) (h : ∀ j, m ≤ j → j < n → ¬EndsAt (x.stream e) off j) :
    resolveLoops e off n x = resolveLoops e off m x := by
  induction n, hle using Nat.le_induction with
  | base => rfl
  | succ n hmn ih =>
    have hskip : ¬((levelOf (x.stream e) n).act && decide ((levelOf (x.stream e) n).last = off)) = true := by
      simpa [EndsAt] using h n hmn (Nat.lt_succ_self n)
    rw [resolveLoops]
    exact (if_neg hskip).trans (ih fun j hj hlt => h j hj (by omega))

/-- The innermost level that ends at the word is resolved there. -/
theorem resolveLoops_at (hlt : m < n) (habove : ∀ j, m < j → j < n → ¬EndsAt (x.stream e) off j) (hm : EndsAt (x.stream e) off m) :
    resolveLoops e off n x =
      (let r := resolveLevel (levelOf (x.stream e) m)
       let z := x.modStream e fun t => putLevel t m r.2
       if r.1 then (backEdge e r.2 z, some (levelOf (x.stream e) m).first) else resolveLoops e off m z) := by
  have hends : ((levelOf (x.stream e) m).act && decide ((levelOf (x.stream e) m).last = off)) = true := by
    simpa [EndsAt] using hm
  rw [resolveLoops_descend (m := m + 1) hlt fun j hj => habove j hj, resolveLoops]
  exact if_pos hends

end Resolve

/-! ### Moving past a word of a job's stream (R19, R31) -/

/-- A stream that has issued its word at `p` and goes on at `next`. -/
def leaveWord (e : Engine) (p next : Pos) (now idle : Nat) (t : Stream) : Stream :=
  { t with
    pos := next, first := false, last := if e.timed then now else t.last, extra := idle
    ret := if next.hdr then p.pitch else t.ret }

@[simp] theorem leaveWord_pos (e : Engine) (p next : Pos) (now idle : Nat) (t : Stream) :
    (leaveWord e p next now idle t).pos = next := rfl

@[simp] theorem levelOf_leaveWord (e : Engine) (p next : Pos) (now idle : Nat) (t : Stream) (n : Nat) :
    levelOf (leaveWord e p next now idle t) n = levelOf t n := rfl

/-- A pitch retires after its last word, or where the position stood before a header already. -/
theorem leaveWord_posAfter_ret (e : Engine) (p : Pos) (now idle : Nat) (t : Stream) :
    (leaveWord e p (posAfter p) now idle t).ret = if p.off + 1 < p.wc ∧ p.hdr = false then t.ret else p.pitch := by
  unfold leaveWord posAfter
  by_cases hin : p.off + 1 < p.wc
  · cases p.hdr <;> simp [hin]
  · simp [hin]

/-- Every slot of both banks is as before where the scalar state is. -/
theorem slotsSame_of_scal {x y : Core} (h : y.scal = x.scal) : SlotsSame x y := by
  simp [SlotsSame, h]

section Job

variable {s : State} {c : CoreId} {e : Engine} {idle : Nat} {x : Core} (ht : inTrap x e = false) (hi : inIntr x e = false)
include ht hi

/-- Moving past a word of a job's stream: its loops resolved, then on to the back-edge's word or the word after. -/
theorem movedOn_of_resolveLoops {z : Core} {back : Option Nat}
    (h : resolveLoops e (nextOf s c e).pos.off 4 x = (z, back)) :
    movedOn s c e idle none x = z.modStream e (leaveWord e (nextOf s c e).pos
      (back.elim (posAfter (nextOf s c e).pos) fun off => { (nextOf s c e).pos with off }) (s.cluster c.cluster).clk idle) := by
  simp only [movedOn, advance, ht, hi, Bool.or_self, Bool.false_eq_true, if_false, advanceJob, h]
  cases back <;> rfl

/-- Moving past a word that ends no loop body. -/
theorem movedOn_endsNone (h : ∀ j < 4, ¬EndsAt (x.stream e) (nextOf s c e).pos.off j) :
    movedOn s c e idle none x = x.modStream e
      (leaveWord e (nextOf s c e).pos (posAfter (nextOf s c e).pos) (s.cluster c.cluster).clk idle) :=
  movedOn_of_resolveLoops ht hi (resolveLoops_none e _ 4 x h)

variable {m : Fin 4}
  (habove : ∀ j : Fin 4, m.val < j.val → ¬EndsAt (x.stream e) (nextOf s c e).pos.off j)
  (hm : EndsAt (x.stream e) (nextOf s c e).pos.off m)
include habove hm

/-- A level with iterations or epilogue left takes its back-edge. -/
theorem movedOn_backEdge
    (hmore : (levelOf (x.stream e) m).done + 1 ≠ (levelOf (x.stream e) m).aCnt.toNat + (levelOf (x.stream e) m).aEpi.toNat) :
    movedOn s c e idle none x =
      (backEdge e (nextIteration (levelOf (x.stream e) m))
        (x.modStream e fun t => putLevel t m (nextIteration (levelOf (x.stream e) m)))).modStream e
        (leaveWord e (nextOf s c e).pos { (nextOf s c e).pos with off := (levelOf (x.stream e) m).first }
          (s.cluster c.cluster).clk idle) := by
  refine movedOn_of_resolveLoops ht hi (back := some _) ?_
  rw [resolveLoops_at m.isLt (fun j hj hlt => habove ⟨j, hlt⟩ hj) hm, resolveLevel, if_neg hmore]
  rfl

/-- A level that has run its count and its epilogue ends, and the stream goes on where no outer level ends there. -/
theorem movedOn_exit
    (hdone : (levelOf (x.stream e) m).done + 1 = (levelOf (x.stream e) m).aCnt.toNat + (levelOf (x.stream e) m).aEpi.toNat)
    (hbelow : ∀ j : Fin 4, j.val < m.val → ¬EndsAt (x.stream e) (nextOf s c e).pos.off j) :
    movedOn s c e idle none x =
      (x.modStream e fun t => putLevel t m { levelOf (x.stream e) m with act := false }).modStream e
        (leaveWord e (nextOf s c e).pos (posAfter (nextOf s c e).pos) (s.cluster c.cluster).clk idle) := by
  refine movedOn_of_resolveLoops ht hi (back := none) ?_
  rw [resolveLoops_at m.isLt (fun j hj hlt => habove ⟨j, hlt⟩ hj) hm, resolveLevel, if_pos hdone]
  refine resolveLoops_none e _ m _ fun j hj => ?_
  rw [Core.stream_modStream_same, levelOf_putLevel_other _ (Nat.ne_of_lt hj)]
  exact hbelow ⟨j, by omega⟩ hj

end Job

/-! ### The obligation -/

/-- A null moves its stream on and leaves the registers, the slots and every other part of the package (R11, R59). -/
theorem null_frame {s : State} {c : CoreId} {e : Engine} {i : Instr} (h : issuesNull s c e i = true) (hf : rdvFormOf i = none) :
    ∃ t, exec i s = .next t ∧ t = coreNext s c e (fun x => x) ∧ RegsSame (s.core c) (t.core c) ∧
      (endsNoLoop s c e = true → SlotsSame (s.core c) (t.core c)) ∧ ScalarsOnly (s.core c) (t.core c) ∧
      OtherStreams e (s.core c) (t.core c) ∧ OthersSame c s t ∧ ClustersKept c.cluster s t ∧ PackageSame s t := by
  obtain ⟨hothers, hclusters, hpackage, hcore⟩ := coreNext_frame (s := s) (c := c) (e := e) fun x => x
  refine ⟨_, exec_null h hf, rfl, ?_⟩
  rw [hcore]
  exact ⟨(regsSame_movedOn s c e 0 none _).1, fun hn => slotsSame_of_scal (movedOn_scal s c e 0 hn),
    scalarsOnly_movedOn s c e 0 none _, other_movedOn s c e 0 none _, hothers, hclusters, hpackage⟩

/-- No level ends at the next word. -/
theorem not_endsAt_of_endsNoLoop {s : State} {c : CoreId} {e : Engine} (h : endsNoLoop s c e = true) :
    ∀ j < 4, ¬EndsAt ((s.core c).stream e) (nextOf s c e).pos.off j := by
  intro j hj hends
  have := List.all_eq_true.mp h j (List.mem_range.mpr hj)
  simp [hends.1, hends.2] at this

/-- Settles O15, by resolving the levels from the innermost: none ends at the word, or the innermost that does takes its back-edge or
ends. -/
theorem streamMovesOn : Obligations.StreamMovesOn := by
  unfold Obligations.StreamMovesOn
  refine ⟨fun s c e i h hf => null_frame h hf, fun s c e idle => ?_⟩
  intro x n y
  refine ⟨fun ht hi hn => ?plain, fun m ht hi habove hact hlast => ⟨fun hmore => ?back, fun hdone hbelow => ?exit⟩,
    fun ht => ?trap, fun ht hi => ?intr⟩
  case plain =>
    refine (movedOn_endsNone ht hi (not_endsAt_of_endsNoLoop hn)).trans (congrArg (x.modStream e) (funext fun t => ?_))
    rw [← leaveWord_posAfter_ret e n.pos (s.cluster c.cluster).clk idle t]
    rfl
  case back =>
    have hy : y = _ := movedOn_backEdge (idle := idle) ht hi habove ⟨hact, hlast⟩ hmore
    have hstream : y.stream e = _ := congrArg (·.stream e) hy
    simp only [Core.stream_modStream_same, stream_backEdge] at hstream
    refine ⟨?_, ?_, ?_, fun j hj => ?_, fun hst => ?_, fun hst hns hfit i => ?_⟩
    · rw [hstream, leaveWord_pos]
    · rw [hstream]; rfl
    · rw [hstream, levelOf_leaveWord]
      exact levelOf_putLevel_same (x.stream e) m.isLt _
    · rw [hstream, levelOf_leaveWord]
      exact levelOf_putLevel_other (x.stream e) (fun h => hj (Fin.ext h)) _
    · rw [hy]
      exact slotsSame_of_scal (backEdge_scal_plain e (nextIteration _) _ hst)
    · rw [hy, slotVal_modStream, slotVal_backEdge_stage e (nextIteration _) _ hst hns hfit i.isLt]
      rfl
  case exit =>
    have hy : y = _ := movedOn_exit (idle := idle) ht hi habove ⟨hact, hlast⟩ hdone hbelow
    have hstream : y.stream e = _ := congrArg (·.stream e) hy
    simp only [Core.stream_modStream_same] at hstream
    refine ⟨?_, ?_, ?_, ?_⟩
    · rw [hstream, leaveWord_pos, posAfter]
    · rw [hstream]; rfl
    · rw [hstream, levelOf_leaveWord, levelOf_putLevel_same _ m.isLt]
    · rw [hy]
      exact slotsSame_of_scal rfl
  case trap => simp [y, movedOn, advance, setPos, ht, n]
  case intr => simp [y, movedOn, advance, setPos, ht, hi, n]

end Sys2Proof.Proofs.Streams
end

section
/-! PROOFS. A loop word (R46, R104-R106): the plan of a legal one, which opens its level or skips its body. -/

namespace Sys2Proof.Proofs.Loops

open Sys2Proof Sys2Proof.Machine Sys2Proof.Claims

/-- Setting the stage slots leaves what is in flight alone. -/
theorem openSlots_flight (pf ns : Nat) (b : Bool) (x : Core) :
    (openSlots pf ns b x).ops = x.ops ∧ (openSlots pf ns b x).transits = x.transits ∧ (openSlots pf ns b x).latches = x.latches := by
  unfold openSlots
  induction List.range ns generalizing x with
  | nil => exact ⟨rfl, rfl, rfl⟩
  | cons i r ih =>
    obtain ⟨ho, ht, hl⟩ := writeSlot_flight false (pf + i) (b && decide (i = 0)) x
    obtain ⟨ho', ht', hl'⟩ := ih (writeSlot false (pf + i) (b && decide (i = 0)) x)
    exact ⟨ho'.trans ho, ht'.trans ht, hl'.trans hl⟩

/-- The touches of `loop.st`: each stage slot is written once. -/
theorem stageTouches_ok (pf ns : Nat) :
    ((List.range ns).map fun i => Touch.write (0x90 + pf + i) 0).Nodup ∧
    ∀ t ∈ (List.range ns).map fun i => Touch.write (0x90 + pf + i) 0, shared t = false := by
  refine ⟨List.Nodup.map (fun i j hij => ?_) List.nodup_range, fun t ht => ?_⟩
  · simpa using hij
  · obtain ⟨i, -, rfl⟩ := List.mem_map.mp ht
    rfl

section Legal

variable {s : State} {c : CoreId} {e : Engine} {f : Fld} {st : Bool}

/-- The level that a loop word opens, with its registers as the word leaves them (R105). -/
def loopLevel (s : State) (c : CoreId) (e : Engine) (f : Fld) : Level :=
  loopRegs (kOf s c e) f (levelOf ((s.core c).stream e) (loopLv f))

/-- A loop word that passes every check of its issue (R46, R106). -/
structure LegalLoop (s : State) (c : CoreId) (e : Engine) (f : Fld) (st : Bool) : Prop where
  ready : f.a = 0 ∨ regsReady s c e [f.a] = true
  temporal : spatial (s.core c) (loopLv f) = false
  inPitch : (nextOf s c e).pos.off + (loopLevel s c e f).lend.toNat < (nextOf s c e).pos.wc
  kind : kindOf (s.core c) (loopLv f) ≠ 0
  idle : runsFrom ((s.core c).stream e) (loopLv f) = false
  body : (loopLevel s c e f).lend ≠ 0
  inner : beyondOuter ((s.core c).stream e) (loopLv f) ((nextOf s c e).pos.off + (loopLevel s c e f).lend.toNat) = false
  stage : st = true → loopPf f + loopNs f ≤ 15 ∧ stageOverlap (s.core c) (loopPf f) (loopNs f) = false

theorem LegalLoop.lates (h : LegalLoop s c e f st) {i : Instr} :
    (if f.a = 0 then [] else lateReg (ctxOf s c e i) f.a) = [] := by
  obtain ha | ha := h.ready
  · exact if_pos ha
  · rw [lateReg_nil (by simpa [regsReady] using ha), ite_self]

/-- What a loop word does that skips its body. -/
def skipPlan (s : State) (c : CoreId) (e : Engine) (f : Fld) : Plan :=
  { skip := some ((nextOf s c e).pos.off + (loopLevel s c e f).lend.toNat)
    act := fun t => t.modCore c fun x => x.modStream e fun t => putLevel t (loopLv f) (loopLevel s c e f) }

/-- The core of a loop word that opens its level, past the word. -/
def openOn (s : State) (c : CoreId) (e : Engine) (f : Fld) (st : Bool) (x : Core) : Core :=
  (if st then openSlots (loopPf f) (loopNs f) (decide ((loopLevel s c e f).cnt ≠ 0)) x else x).modStream e fun t =>
    putLevel t (loopLv f) (openLevel st f (nextOf s c e).pos.off (loopLevel s c e f))

/-- What a loop word does that opens its level. -/
def openPlan (s : State) (c : CoreId) (e : Engine) (f : Fld) (st : Bool) (k : Ctx) : Plan :=
  planCore k (if st then (List.range (loopNs f)).map fun i => .write (0x90 + loopPf f + i) 0 else []) (openOn s c e f st)

theorem openOn_flight (x : Core) : (openOn s c e f st x).ops = x.ops ∧ (openOn s c e f st x).transits = x.transits ∧
    (openOn s c e f st x).latches = x.latches := by
  cases st
  · exact ⟨rfl, rfl, rfl⟩
  · exact openSlots_flight _ _ _ x

/-- The plan of a legal loop word is not one of a cause. -/
theorem LegalLoop.plan (h : LegalLoop s c e f st) (i : Instr) :
    planLoopWith st f (ctxOf s c e i) =
      if (loopLevel s c e f).cnt.toNat + (loopLevel s c e f).epi.toNat = 0 then skipPlan s c e f
      else openPlan s c e f st (ctxOf s c e i) := by
  have hcheck : (spatial (s.core c) (loopLv f) ||
      decide ((nextOf s c e).pos.wc ≤ (nextOf s c e).pos.off + (loopLevel s c e f).lend.toNat)) = false := by
    simp [h.temporal, h.inPitch]
  have hstage : (st && (decide (15 < loopPf f + loopNs f) || stageOverlap (s.core c) (loopPf f) (loopNs f))) = false := by
    cases hst : st
    · rfl
    · obtain ⟨hfit, hover⟩ := h.stage hst
      simp [hover, hfit]
  have hlegal : (decide (kindOf (s.core c) (loopLv f) = 0) || runsFrom ((s.core c).stream e) (loopLv f) ||
      decide ((loopLevel s c e f).lend = 0) ||
      beyondOuter ((s.core c).stream e) (loopLv f) ((nextOf s c e).pos.off + (loopLevel s c e f).lend.toNat) ||
      (st && (decide (15 < loopPf f + loopNs f) || stageOverlap (s.core c) (loopPf f) (loopNs f)))) = false := by
    rw [hstage, decide_eq_false h.body]
    simp [h.kind, h.idle, h.inner]
  unfold planLoopWith
  rw [h.lates]
  exact (if_neg (ne_true_of_eq_false hcheck)).trans (if_neg (ne_true_of_eq_false hlegal))

/-- A legal loop of no iterations skips its body (R105, log 27). -/
theorem exec_loop_skips (h : LegalLoop s c e f st) {i : Instr} (hi : issues s c e i = true) (hf : rdvFormOf i = none)
    (hp : planOf i = planLoopWith st f) (hn : (loopLevel s c e f).cnt.toNat + (loopLevel s c e f).epi.toNat = 0) :
    exec i s = .next (endWord s c e (s.modCore c fun x =>
      (movedOn s c e 0 (some ((nextOf s c e).pos.off + (loopLevel s c e f).lend.toNat)) x).modStream e fun t =>
        putLevel t (loopLv f) (loopLevel s c e f))) := by
  have hplan : planOf i (ctxOf s c e i) = skipPlan s c e f := by rw [hp, h.plan, if_pos hn]
  exact exec_coreAt hi hf (skipPlan s c e f) (fun x => x.modStream e fun t => putLevel t (loopLv f) (loopLevel s c e f)) hplan
    rfl rfl rfl rfl rfl (flight_ok fun _ => ⟨rfl, rfl, rfl⟩) List.nodup_nil (fun _ ht => absurd ht (List.not_mem_nil))

/-- A legal loop with iterations or an epilogue opens its level (R105). -/
theorem exec_loop_opens (h : LegalLoop s c e f st) {i : Instr} (hi : issues s c e i = true) (hf : rdvFormOf i = none)
    (hp : planOf i = planLoopWith st f) (hn : (loopLevel s c e f).cnt.toNat + (loopLevel s c e f).epi.toNat ≠ 0) :
    exec i s = .next (coreNext s c e (openOn s c e f st)) := by
  have hplan : planOf i (ctxOf s c e i) = openPlan s c e f st (ctxOf s c e i) := by rw [hp, h.plan, if_neg hn]
  have htouch : (openPlan s c e f st (ctxOf s c e i)).touches.Nodup ∧
      ∀ t ∈ (openPlan s c e f st (ctxOf s c e i)).touches, shared t = false := by
    cases st
    · exact ⟨List.nodup_nil, fun _ ht => absurd ht List.not_mem_nil⟩
    · exact stageTouches_ok _ _
  exact exec_core hi hf _ _ hplan rfl rfl rfl rfl rfl rfl rfl (flight_ok openOn_flight) htouch.1 htouch.2

end Legal

/-- Settles O16: a legal loop word's plan is the one of the two that its count and epilogue choose. -/
theorem loopOpensOrSkips : Obligations.LoopOpensOrSkips := by
  unfold Obligations.LoopOpensOrSkips
  intro s c e f st i x n t off l last hi hready htemporal hpitch hkind hidle hbody hinner hstage
  have hlegal : LegalLoop s c e f st := ⟨hready, htemporal, hpitch, hkind, hidle, hbody, hinner, hstage⟩
  have hform : rdvFormOf i = none := by cases st <;> rfl
  have hplan : planOf i = planLoopWith st f := by cases st <;> rfl
  exact ⟨exec_loop_skips hlegal hi hform hplan, exec_loop_opens hlegal hi hform hplan⟩

end Sys2Proof.Proofs.Loops
end

section
/-! PROOFS. A word whose plan, behind its guard, has an effect beyond its core: what `exec` answers. -/

namespace Sys2Proof.Proofs.Acts

open Sys2Proof Sys2Proof.Machine

/-- A core with the same operations, rows and quarter writes in flight. -/
def SameFlight (x y : Core) : Prop := y.ops = x.ops ∧ y.transits = x.transits ∧ y.latches = x.latches

theorem SameFlight.refl (x : Core) : SameFlight x x := ⟨rfl, rfl, rfl⟩

theorem SameFlight.trans {x y z : Core} (h : SameFlight x y) (h' : SameFlight y z) : SameFlight x z :=
  ⟨h'.1.trans h.1, h'.2.1.trans h.2.1, h'.2.2.trans h.2.2⟩

theorem sameFlight_movedOn (s : State) (c : CoreId) (e : Engine) (idle : Nat) (skip : Option Nat) (x : Core) :
    SameFlight x (movedOn s c e idle skip x) := by
  obtain ⟨ho, hl, ht⟩ := movedOn_flight s c e idle skip x
  exact ⟨ho, ht, hl⟩

/-- A word that issues, whose effect `u` leaves the other cores and what is in flight on its own: a timed one ends its tick, and what
follows the words of a tick comes after. -/
theorem exec_act {s u : State} {c : CoreId} {e : Engine} {i : Instr} (h : issues s c e i = true) (hf : rdvFormOf i = none) (p : Plan)
    (hp : planOf i (ctxOf s c e i) = p) (hl : p.lates = []) (hc : p.causes = []) (hft : p.fault = none)
    (htou : p.touches.Nodup) (hsh : ∀ t ∈ p.touches, shared t = false)
    (hu : p.act (s.modCore c (movedOn s c e p.idle p.skip)) = u)
    (hother : OthersSame c s u) (hflight : SameFlight (s.core c) (u.core c)) :
    exec i s = done (p.after (endWord s c e u)) := by
  obtain ⟨hturn, hhead⟩ := issues_iff.mp h
  have hbehind : planBehind s c e i = p := (planBehind_go hhead).trans hp
  rw [exec_word i s (toFields_of_turn hturn)]
  obtain ⟨ho, htr, hla⟩ := hflight
  rcases turn_cases hturn with ⟨hun, ht⟩ | ⟨hti, ht⟩
  · rw [untimed_one hun p hbehind hl hc hft, hu]
    simp [endWord, ht]
  · have hfacts := timedTurn_facts hti
    obtain ⟨ql, qo, qt, -, -⟩ := (quietCore_iff _ _).mp (hfacts.quiet c (mem_cores c))
    have hops : (u.core c).ops = [] := ho.trans qo
    have hrows : (u.core c).transits = [] := htr.trans qt
    have hlatches : ∀ l ∈ (u.core c).latches, (s.cluster c.cluster).clk < l.due := by simp [hla, ql]
    have hout := opsOut_nil c _ (s.cluster c.cluster).clk hops
    rw [tick_one hfacts hf p hbehind hl hc u hu (fun d hd hne => by rw [hother d hne]; exact hfacts.quiet d hd) hrows hlatches
      (by rw [hout])
      (by rw [soloTouches_nil _ _ _ _ _ hops, List.map_map]; simpa [Function.comp_def] using htou)
      (by rw [soloTouches_nil _ _ _ _ _ hops, List.map_map]
          refine busCauses_none _ _ _ fun x hx => ?_
          obtain ⟨t, ht, rfl⟩ := List.mem_map.mp hx
          exact hsh t ht)]
    have hset : u.modCore c (settled c (s.cluster c.cluster).clk) = u :=
      State.modCore_self _ _ _ (settled_quiet _ _ _ hops hrows hlatches)
    rw [hout, hset, endWord, if_pos ht]
    rfl

/-- A step that has left no store on its way to a register ends there. -/
theorem done_of_regq {u : State} (h : u.regq = []) : done u = .next u := by rw [done, flushRegs_nil u h]

theorem regq_of_issues {s : State} {c : CoreId} {e : Engine} {i : Instr} (h : issues s c e i = true) : s.regq = [] :=
  ((wordOk_iff s c e i).mp (wordOk_of_turn (issues_iff.mp h).1)).2.1

@[simp] theorem endWord_regq (s : State) (c : CoreId) (e : Engine) (u : State) : (endWord s c e u).regq = u.regq := by
  unfold endWord; split <;> rfl

/-- `exec_act` for a word after which no store is on its way to a register. -/
theorem exec_act_next {s u : State} {c : CoreId} {e : Engine} {i : Instr} (h : issues s c e i = true) (hf : rdvFormOf i = none)
    (p : Plan) (hp : planOf i (ctxOf s c e i) = p) (hl : p.lates = []) (hc : p.causes = []) (hft : p.fault = none)
    (htou : p.touches.Nodup) (hsh : ∀ t ∈ p.touches, shared t = false)
    (hu : p.act (s.modCore c (movedOn s c e p.idle p.skip)) = u) (hafter : p.after = id)
    (hother : OthersSame c s u) (hflight : SameFlight (s.core c) (u.core c)) (hregq : u.regq = s.regq) :
    exec i s = .next (endWord s c e u) := by
  rw [exec_act h hf p hp hl hc hft htou hsh hu hother hflight, hafter]
  exact done_of_regq (by rw [id, endWord_regq, hregq, regq_of_issues h])

end Sys2Proof.Proofs.Acts
end

section
/-! PROOFS. CSR words (R41, R98, R125), `tret` (R124) and `uret` (R131). -/

namespace Sys2Proof.Proofs.Csr

open Sys2Proof Sys2Proof.Machine Sys2Proof.Claims Sys2Proof.Proofs.Acts

/-! ### Reads (R98) -/

/-- A number that no chapter assigns reads zero. -/
theorem csrValue_unassigned {n : Nat} (h : n ∉ csrNumbers) (s : State) (c : CoreId) (e : Engine) : csrValue s c e n = 0 := by
  unfold csrValue
  split <;> first | rfl | exact absurd (by decide) h

/-- Only UIREC and UEADDR have a read side effect. -/
theorem csrReadEffect_none {n : Nat} (hrec : n ≠ 0x052) (hue : n ≠ 0x05A) (e : Engine) (x : Core) : csrReadEffect e n x = x := by
  unfold csrReadEffect
  split <;> first | rfl | contradiction

theorem sameFlight_csrReadEffect (e : Engine) (n : Nat) (x : Core) : SameFlight x (csrReadEffect e n x) := by
  unfold csrReadEffect
  split
  · split <;> exact .refl x
  · exact .refl x
  · exact .refl x

theorem sameFlight_writeReg (e : Engine) (d : RegCode) (v : W64) (x : Core) : SameFlight x (writeReg e d v x) :=
  writeReg_flight e d v x

section Words

variable {s : State} {c : CoreId} {e : Engine} {f : Fld}

/-- `csrr`: the register takes the value, and then the read's side effect takes place. -/
theorem exec_csrr (h : issues s c e (.csrr f) = true) (hd : pendingReg (s.core c) e f.d = false) :
    exec (.csrr f) s = .next (coreNext s c e fun x =>
      csrReadEffect e (immBits f 0 12) (writeReg e f.d (csrValue s c e (immBits f 0 12)) x)) := by
  have hreg : planReg (ctxOf s c e (.csrr f)) [] f.d (csrValue s c e (immBits f 0 12)) = _ :=
    writePending_go (k := ctxOf s c e (.csrr f)) _ hd
  have hplan : planOf (.csrr f) (ctxOf s c e (.csrr f)) =
      { touches := touchReg (ctxOf s c e (.csrr f)) f.d
        act := fun t => t.modCore c fun x =>
          csrReadEffect e (immBits f 0 12) (writeReg e f.d (csrValue s c e (immBits f 0 12)) x) } := by
    change planCsrr f (ctxOf s c e (.csrr f)) = _
    simp only [planCsrr, csrNo, ctxOf_s, ctxOf_c, ctxOf_e, hreg, State.modCore_modCore]
  exact exec_core h rfl _ _ hplan rfl rfl rfl rfl rfl rfl rfl
    (flight_ok fun x => (sameFlight_writeReg e f.d _ x).trans (sameFlight_csrReadEffect e _ _))
    (touchReg_ok _ _).1 (touchReg_ok _ _).2

/-! ### Writes (R41, R98) -/

theorem sameFlight_markPending (ap hnd intr : Bool) (d : RegCode) (b : Bool) (x : Core) : SameFlight x (markPending ap hnd intr d b x) := by
  unfold markPending
  dsimp only
  split
  · split <;> exact .refl x
  · split
    · exact .refl x
    · split <;> exact .refl x

theorem sameFlight_writeReply (ap hnd intr : Bool) (d : RegCode) (v : W64) (x : Core) : SameFlight x (writeReply ap hnd intr d v x) := by
  unfold writeReply
  split
  · exact .refl x
  · split
    · exact writeSlot_flight hnd _ _ x
    · refine (sameFlight_markPending ap hnd intr d false x).trans ?_
      unfold writeA writeS
      repeat' split
      all_goals exact .refl _

theorem sameFlight_takeDone (y : HeldDone) (x : Core) : SameFlight x (takeDone y x) := by
  unfold takeDone
  refine SameFlight.trans (?_ : SameFlight x _) (sameFlight_writeReply _ _ _ _ _ _)
  split <;> exact .refl x

theorem sameFlight_takeDones (l : List HeldDone) (x : Core) : SameFlight x (l.foldl (fun x y => takeDone y x) x) := by
  induction l generalizing x with
  | nil => exact .refl x
  | cons y r ih => exact (sameFlight_takeDone y x).trans (ih _)

theorem sameFlight_writeUien (b : Bool) (x : Core) : SameFlight x (writeUien b x) := by
  unfold writeUien
  cases b
  · exact sameFlight_takeDones x.ap.heldDone x
  · exact .refl x

/-- A state that differs from another outside memory in one core, which has the same in flight, and in its cluster. -/
structure CoreEffect (c : CoreId) (s t : State) : Prop where
  others : OthersSame c s t
  flight : SameFlight (s.core c) (t.core c)
  regq : t.regq = s.regq

theorem CoreEffect.refl (c : CoreId) (s : State) : CoreEffect c s s := ⟨fun _ _ => rfl, .refl _, rfl⟩

theorem CoreEffect.trans {c : CoreId} {s t u : State} (h : CoreEffect c s t) (h' : CoreEffect c t u) : CoreEffect c s u :=
  ⟨fun d hd => (h'.others d hd).trans (h.others d hd), h.flight.trans h'.flight, h'.regq.trans h.regq⟩

theorem CoreEffect.modCluster (c : CoreId) (s : State) (k : ClusterId) (g : Cluster → Cluster) : CoreEffect c s (s.modCluster k g) :=
  ⟨fun _ _ => rfl, .refl _, rfl⟩

theorem CoreEffect.modCore {c : CoreId} (s : State) {g : Core → Core} (hg : ∀ x, SameFlight x (g x)) : CoreEffect c s (s.modCore c g) :=
  ⟨fun d hd => State.core_modCore_other s c d g hd, by rw [State.core_modCore_same]; exact hg _, rfl⟩

/-- The fields of a CSR are in its core or its cluster. -/
theorem coreEffect_csrSet (op : CsrOp) (c : CoreId) (e : Engine) (n : Nat) (v : W64) (s : State) : CoreEffect c s (csrSet op c e n v s) := by
  unfold csrSet
  dsimp only
  split
  · exact .modCluster c s _ _
  · exact .modCore s fun x => .refl x
  · exact .modCluster c s _ _
  · exact .modCore s fun x => .refl x
  · split
    · exact .modCore s (sameFlight_writeUien _)
    · exact .refl c s
  · exact .modCore s fun x => .refl x
  · exact .modCore s fun x => .refl x
  · exact .modCore (g := fun x => { x with csr := { x.csr with tmshape := _ } }) s fun x => .refl x
  · exact .refl c s

theorem and_allOnes64 (x : W64) : x &&& 0xFFFFFFFFFFFFFFFF = x := BitVec.and_allOnes

theorem low32_eq_and (x : W64) : (x.setWidth 32).setWidth 64 = x &&& 0xFFFFFFFF := by
  refine BitVec.eq_of_toNat_eq ?_
  rw [BitVec.toNat_and]
  refine Eq.trans ?_ (Nat.and_two_pow_sub_one_eq_mod x.toNat 32).symm
  simp only [BitVec.toNat_setWidth]
  omega

/-- A field written reads back with its writable bits. -/
theorem csrValue_csrSet (op : CsrOp) (c : CoreId) (e : Engine) (v : W64) (t : State) :
    ∀ p ∈ csrFields, csrValue (csrSet op c e p.1 v t) c e p.1 = rwValue op (csrValue t c e p.1) v &&& p.2 := by
  intro p hp
  simp only [csrFields, List.mem_cons, List.not_mem_nil, or_false] at hp
  obtain rfl | rfl | rfl | rfl | rfl | rfl := hp
  · simpa [csrSet, csrValue] using (and_allOnes64 _).symm
  · simpa [csrSet, csrValue] using (and_allOnes64 _).symm
  · simp [csrSet, csrValue, low32_eq_and]
  · simp [csrSet, csrValue, tvecMask]
  · simpa [csrSet, csrValue] using (and_allOnes64 _).symm
  · simp [csrSet, csrValue, tmshapeMask]

/-- A number without writable fields keeps what it holds. -/
theorem csrSet_none (op : CsrOp) (c : CoreId) (e : Engine) {n : Nat} (v : W64) (t : State) (hf : n ∉ csrFields.map Prod.fst)
    (hui : n ≠ 0x050) (hnum : n ≠ 0x055) : csrSet op c e n v t = t := by
  unfold csrSet
  dsimp only
  split <;> first | rfl | contradiction

/-- Does a CSR word write its CSR (R98)? -/
def csrWrites (s : State) (c : CoreId) (e : Engine) (f : Fld) (op : CsrOp) : Bool :=
  decide (op = .write) || decide (readReg (s.core c) e f.a ≠ 0)

/-- The state after the write of a CSR word. -/
def csrWritten (s : State) (c : CoreId) (e : Engine) (f : Fld) (op : CsrOp) (t : State) : State :=
  if csrWrites s c e f op then csrSet op c e (immBits f 0 12) (readReg (s.core c) e f.a) t else t

theorem coreEffect_csrWritten (op : CsrOp) (t : State) : CoreEffect c t (csrWritten s c e f op t) := by
  unfold csrWritten
  split
  · exact coreEffect_csrSet op c e _ _ t
  · exact .refl c t

theorem coreEffect_movedState (s : State) (c : CoreId) (e : Engine) : CoreEffect c s (movedState s c e) :=
  .modCore s (sameFlight_movedOn s c e 0 none)

/-- May the stream make the write that the word asks for (R78)? -/
def csrAllowed (s : State) (c : CoreId) (e : Engine) (f : Fld) (op : CsrOp) : Prop :=
  csrWrites s c e f op = true → csrPrivileged (immBits f 0 12) = true →
    streamPriv (Ctx.mk s c e (reqOf s c e) (s.cluster c.cluster).clk) = true

section Write

variable {op : CsrOp} {i : Instr} (h : issues s c e i = true) (hform : rdvFormOf i = none) (hi : planOf i = planCsrWrite forceTeam op f)
  (ha : pendingReg (s.core c) e f.a = false) (hn : immBits f 0 12 ≠ 0x04E) (hpriv : csrAllowed s c e f op)
include h hform hi ha hn hpriv

omit h hform in
/-- The plan of a CSR write that its stream may make. -/
theorem planCsrWrite_go {p : Plan} (hp : (if f.d = 0 then {} else planReg (ctxOf s c e i) [] f.d (csrValue s c e (immBits f 0 12))) = p) :
    planOf i (ctxOf s c e i) = { p with
      act := fun t => p.act (if f.d = 0 then csrWritten s c e f op t
        else (csrWritten s c e f op t).modCore c (csrReadEffect e (immBits f 0 12)))
      after := id } := by
  have hgo : ¬(csrWrites s c e f op && csrPrivileged (immBits f 0 12) && !streamPriv (ctxOf s c e i)) = true := by
    intro hbad
    simp only [Bool.and_eq_true, Bool.not_eq_true'] at hbad
    obtain ⟨⟨hw, hc⟩, hs⟩ := hbad
    exact absurd ((show streamPriv (ctxOf s c e i) = true from hpriv hw hc).symm.trans hs) (by decide)
  have hafter : csrAfter forceTeam op c (immBits f 0 12) (readReg (s.core c) e f.a) = id := if_neg hn
  have hlate : lateReg (ctxOf s c e i) f.a = [] := lateReg_nil ha
  rw [hi]
  refine (if_neg hgo).trans ?_
  simp only [csrNo, ctxOf_s, ctxOf_c, ctxOf_e, ctxOf_core, hlate, hafter, ite_self, List.nil_append]
  rw [hp]
  rfl

/-- A CSR write with no destination. -/
theorem exec_csrWrite_alone (hd : f.d = 0) : exec i s = .next (endWord s c e (csrWritten s c e f op (movedState s c e))) := by
  have heff := (coreEffect_movedState s c e).trans (coreEffect_csrWritten (s := s) (e := e) (f := f) op (movedState s c e))
  exact exec_act_next h hform _ (planCsrWrite_go hi ha hn hpriv (if_pos hd)) rfl rfl rfl List.nodup_nil
    (fun _ ht => absurd ht List.not_mem_nil) (if_pos hd) rfl heff.others heff.flight heff.regq

/-- A CSR write that also brings the old value to a register. -/
theorem exec_csrWrite_swap (hd : f.d ≠ 0) (hready : pendingReg (s.core c) e f.d = false) :
    exec i s = .next (endWord s c e (((csrWritten s c e f op (movedState s c e)).modCore c (csrReadEffect e (immBits f 0 12))).modCore c
      (writeReg e f.d (csrValue s c e (immBits f 0 12))))) := by
  have hplan := planCsrWrite_go hi ha hn hpriv ((if_neg hd).trans (writePending_go (k := ctxOf s c e i) _ hready))
  have heff := ((coreEffect_movedState s c e).trans (coreEffect_csrWritten (s := s) (e := e) (f := f) op (movedState s c e))).trans
    ((CoreEffect.modCore _ (sameFlight_csrReadEffect e (immBits f 0 12))).trans
      (CoreEffect.modCore _ (sameFlight_writeReg e f.d (csrValue s c e (immBits f 0 12)))))
  exact exec_act_next h hform _ hplan rfl rfl rfl (touchReg_ok _ _).1 (touchReg_ok _ _).2
    (congrArg (State.modCore · c _) (if_neg hd)) rfl heff.others heff.flight heff.regq

end Write

/-! ### Returns (R124, R131) -/

/-- `tret` in handler state. -/
theorem exec_tret (h : untimedGo s c e (.tret f) = true) (ht : inTrap (s.core c) e = true) :
    exec (.tret f) s = .next (leaveTrap c (movedState s c e)) := by
  have hplan : planOf (.tret f) (ctxOf s c e (.tret f)) = { leave := true, act := leaveTrap c } := if_pos ht
  rw [exec_untimed h _ hplan rfl rfl rfl]
  exact done_of_regq (u := leaveTrap c (movedState s c e)) (regq_of_issues (s := s) (issues_of_untimedGo h))

/-- In handler state a word moves the handler's position alone. -/
theorem movedOn_inTrap {x : Core} (ht : inTrap x e = true) :
    movedOn s c e 0 none x = { x with trap := { x.trap with hpos := posAfter (nextOf s c e).pos } } := by
  simp [movedOn, advance, setPos, ht]

/-- A core whose AP has left its interrupt handler at a position (R131). -/
def outOfIntr (p : Pos) (x : Core) : Core := { x with ap := { x.ap with inUi := false, uiBuf := [], uiPos := p } }

theorem uiEnter_regq (t : State) : (uiEnter c t).regq = t.regq := by unfold uiEnter; split <;> rfl

/-- `uret` in the interrupt handler, before a waiting record brings the AP back to it. -/
theorem exec_uret (h : untimedGo s c .ap (.uret f) = true) (hu : (s.core c).ap.inUi = true) :
    exec (.uret f) s = .next (uiEnter c (s.modCore c (outOfIntr (posAfter (nextOf s c .ap).pos)))) := by
  have hx : movedOn s c .ap 0 none (s.core c) = { s.core c with ap := { (s.core c).ap with uiPos := posAfter (nextOf s c .ap).pos } } := by
    simp [movedOn, advance, setPos, inTrap, inIntr, hu]
  have hmove : (s.modCore c (movedOn s c .ap 0 none)).modCore c (fun x => { x with ap := { x.ap with inUi := false, uiBuf := [] } }) =
      s.modCore c (outOfIntr (posAfter (nextOf s c .ap).pos)) := by
    rw [State.modCore_modCore]
    simp only [State.modCore, hx]
    rfl
  rw [exec_untimed h _ rfl rfl rfl rfl]
  refine (congrArg (fun u => done (uiEnter c u)) hmove).trans (done_of_regq ?_)
  rw [uiEnter_regq]
  exact regq_of_issues (s := s) (issues_of_untimedGo h)

end Words

/-! ### The obligation -/

/-- The words that write a CSR, as cases of one operation. -/
theorem csrWords_cases {w : (Fld → Instr) × CsrOp × (W64 → W64 → W64)} (hw : w ∈ csrWords) (f : Fld) :
    rdvFormOf (w.1 f) = none ∧ planOf (w.1 f) = planCsrWrite forceTeam w.2.1 f ∧ w.2.2 = rwValue w.2.1 := by
  simp only [csrWords, List.mem_cons, List.not_mem_nil, or_false] at hw
  obtain rfl | rfl | rfl := hw <;> exact ⟨rfl, rfl, rfl⟩

theorem pending_of_regsReady {s : State} {c : CoreId} {e : Engine} {l : List RegCode} {r : RegCode}
    (h : regsReady s c e l = true) (hr : r ∈ l) : pendingReg (s.core c) e r = false := by
  simpa using List.all_eq_true.mp h r hr

/-- `tret` leaves everything of its core but the trap state, and everything of the package but FRZLIM's count. -/
theorem leaveTrap_frame {s : State} {c : CoreId} {e : Engine} (ht : inTrap (s.core c) e = true) :
    let t := leaveTrap c (movedState s c e)
    trapValid (t.core c) = false ∧ inTrap (t.core c) .lead = false ∧
      (t.core c).trap.tcause = (s.core c).trap.tcause &&& 0x7FFFFFFFFFFFFFFF ∧
      { t.core c with trap := (s.core c).trap } = s.core c ∧ OthersSame c s t ∧
      (∀ k, k ≠ c.cluster → t.cluster k = s.cluster k) ∧ (t.cluster c.cluster).clk = (s.cluster c.cluster).clk ∧ PackageSame s t := by
  have hcore := leaveTrap_core c (movedState s c e)
  rw [movedState, State.core_modCore_same, movedOn_inTrap ht] at hcore
  refine ⟨?valid, ?handler, ?tcause, ?rest, fun d hd => ?others, fun k hk => ?clusters, ?clk, rfl, sameMemory_of rfl rfl rfl⟩
  case valid => simp [movedState, hcore, trapValid]
  case handler => simp [movedState, hcore, inTrap]
  case tcause => exact congrArg (fun x : Core => x.trap.tcause) hcore
  case rest => rw [movedState, hcore]
  case others =>
    rw [leaveTrap, State.core_modCluster, State.core_modCore_other _ _ _ _ hd]
    exact State.core_modCore_other _ _ _ _ hd
  case clusters => exact State.cluster_modCluster_other _ _ _ _ hk
  case clk =>
    rw [leaveTrap, State.cluster_modCluster_same]
    rfl

/-- Settles O22: each CSR word by its plan, and the two returns by theirs. -/
theorem csrAndReturnResult : Obligations.CsrAndReturnResult := by
  unfold Obligations.CsrAndReturnResult
  refine ⟨⟨fun s c e f h hd => ?read, fun w hw s c e f hd h ha hn => ?alone, fun w hw s c e f hd h hready hn => ?swap⟩,
    fun s c e f => ⟨fun h ht => ?tret, fun h hu => ⟨fun hnone => ?uret, fun hrecs hen hfault hhost hpres hended hfirst => ?again⟩⟩⟩
  case read =>
    refine ⟨exec_csrr h (pending_of_regsReady hd (by simp)), fun hn => ⟨csrValue_unassigned hn s c e, ?_⟩, ?_, ?_,
      fun hrec hue => csrReadEffect_none hrec hue e⟩
    · refine csrReadEffect_none (fun hrec => hn ?_) (fun hue => hn ?_) e
      · rw [hrec]; decide
      · rw [hue]; decide
    · intro hrec he
      subst he
      simp [hrec, csrValue, uirecValue, csrReadEffect, popRecord]
    · intro hue
      simp [hue, csrValue, csrReadEffect, clearUeaddr]
  case alone =>
    intro n v writes hpriv
    obtain ⟨hform, hplan, hval⟩ := csrWords_cases hw f
    refine ⟨exec_csrWrite_alone h hform hplan (pending_of_regsReady ha (by simp)) hn hpriv hd, fun p hp hpn t => ?_,
      fun t hf hui hnum => csrSet_none _ c e v t hf hui hnum⟩
    rw [hval, ← hpn]
    exact csrValue_csrSet w.2.1 c e v t p hp
  case swap =>
    intro n v writes hpriv
    obtain ⟨hform, hplan, -⟩ := csrWords_cases hw f
    exact exec_csrWrite_swap h hform hplan (pending_of_regsReady hready (by simp)) hn hpriv hd (pending_of_regsReady hready (by simp))
  case tret => exact ⟨_, exec_tret h ht, leaveTrap_frame ht⟩
  case uret =>
    have hready : intrReady (s.modCore c (outOfIntr (posAfter (nextOf s c .ap).pos))) c = false := by
      obtain hrecs | hen := hnone
      · simp [intrReady, outOfIntr, hrecs]
      · simp [intrReady, outOfIntr, hen]
    rw [exec_uret h hu, uiEnter, if_neg (ne_true_of_eq_false hready)]
    rfl
  case again =>
    have hready : intrReady (s.modCore c (outOfIntr (posAfter (nextOf s c .ap).pos))) c = true := by
      have hstream (p : Pos) : (outOfIntr p (s.core c)).stream .ap = (s.core c).stream .ap := rfl
      simp only [intrReady, State.core_modCore_same, hstream, hpres, hended, hfirst]
      simp [outOfIntr, hrecs, hen, hfault, hhost]
    refine ⟨_, exec_uret h hu, ?_⟩
    rw [uiEnter, if_pos hready, enterIntr, State.core_modCore_same, State.core_modCore_same]
    exact ⟨rfl, rfl⟩

end Sys2Proof.Proofs.Csr
end

section
/-! PROOFS. Ticks of a cluster with nothing in flight, whatever its one word comes to, and untimed words that do not take place
(R14, R36, R38, R119). -/

namespace Sys2Proof.Proofs.Ticks

open Sys2Proof Sys2Proof.Machine Sys2Proof.Claims Sys2Proof.Proofs.Acts

/-! ### Drafts with nothing in flight -/

/-- A tick worked out on a cluster with nothing in flight, whose words touch nothing and start nothing. -/
structure QuietDraft (D : Draft) (k : ClusterId) (s : State) : Prop where
  seen : D.seen = s
  outs : D.outs = k.cores.map fun c => (c, coreOuts D.after D.now c)
  quiet : ∀ c ∈ k.cores, quietCore D.now (s.core c) = true
  still : ∀ c ∈ k.cores, SameFlight (s.core c) (D.after.core c)
  untouched : ∀ x ∈ D.turns, x.2.touches = []

section Quiet

variable {D : Draft} {k : ClusterId} {s : State} (h : QuietDraft D k s) {c : CoreId} (hc : c ∈ k.cores)
include h hc

/-- Nothing is in flight on a core after the words of the tick. -/
theorem QuietDraft.idle : (D.after.core c).ops = [] ∧ (D.after.core c).transits = [] ∧ (D.after.core c).latches = [] := by
  obtain ⟨hl, ho, ht, -⟩ := (quietCore_iff _ _).mp (h.quiet c hc)
  obtain ⟨ho', ht', hl'⟩ := h.still c hc
  exact ⟨ho'.trans ho, ht'.trans ht, hl'.trans hl⟩

theorem QuietDraft.out : D.out c = {} := by
  rw [draft_out k c hc D D.after h.outs, opsOut_nil _ _ _ (h.idle hc).1]

theorem QuietDraft.touches : D.touches s c = [] := by
  have hl := ((quietCore_iff _ _).mp (h.quiet c hc)).1
  have hwords : ((D.turns.filter fun x => decide (x.1.c = c)).flatMap fun x => x.2.touches.map fun t => (x.1.req, t)) = [] := by
    simp only [List.flatMap_eq_nil_iff, List.map_eq_nil_iff]
    exact fun x hx => h.untouched x (List.mem_of_mem_filter hx)
  simp only [Draft.touches, hwords, dueLatches, hl, h.outs, filter_outs k c hc]
  simp [coreOuts, (h.idle hc).1]

/-- The causes of a core: those of its words, and the late operands of a core in strict mode (R38). -/
theorem QuietDraft.causes :
    D.causes s k c = ((D.turns.filter fun x => decide (x.1.c = c)).flatMap fun x => x.2.causes) ++
      (D.lates.filter fun l => decide (l.t.c = c) && strictCore s c).map fun l => causeBy l.t.req 3 l.kind l.obj := by
  obtain ⟨hl, -, -, hap, -, hctx⟩ := (quietCore_iff _ _).mp (h.quiet c hc)
  obtain ⟨-, htr, -⟩ := h.idle hc
  have hall : (k.cores.flatMap fun b => (D.touches s b).map fun x => (b, x.1, x.2)) = [] := by
    simp only [List.flatMap_eq_nil_iff, List.map_eq_nil_iff]
    exact fun b hb => h.touches hb
  have hbus : busCauses D.seen k [] = [] := busCauses_none _ _ _ fun _ hx => absurd hx List.not_mem_nil
  simp only [Draft.causes, h.out hc, h.touches hc, hall, hbus, landCauses_quiet c D.now _ (h.quiet c hc), laneCauses_nil _ _ htr,
    tapCauses_nil _ _ _ htr, hap, ctxCauses, hctx, pendingCauses, dueLatches, hl, touchCauses]
  simp

omit hc in
/-- A tick that takes place with nothing in flight: the clock goes on, and what follows the words comes after (R36). -/
theorem QuietDraft.commit : commitTick D k = D.turns.foldl (fun s x => x.2.after s) (D.after.modCluster k endTick) := by
  have hset : ∀ c ∈ k.cores, settleCore D c (D.after.core c) = D.after.core c := by
    intro c hc
    obtain ⟨ho, ht, hl⟩ := h.idle hc
    rw [settleCore_eq k c hc D D.after h.outs (dueLatches_nil _ _ (by simp [hl]))]
    exact settled_quiet c D.now _ ho ht (by simp [hl])
  have heff : k.cores.foldl (fun s c => (D.out c).eff s) D.after = D.after :=
    foldl_self _ _ _ fun c hc => by rw [h.out hc]; rfl
  rw [commitTick, foldl_modCore_self _ D.after (settleCore D) hset, heff]

end Quiet

/-! ### The one word of a tick -/

/-- A timed engine takes its turn, legal word or not, at the present tick of a cluster with nothing in flight. -/
structure TickFacts (s : State) (c : CoreId) (e : Engine) : Prop where
  issuer : s.issuer = .eng c e
  timed : e.timed = true
  noTrap : inTrap (s.core c) e = false
  aligned : (s.core c).aligned = true
  stands : clockStands s c.cluster = false
  watch : watchCores s c.cluster = []
  quiet : ∀ d ∈ c.cluster.cores, quietCore (s.cluster c.cluster).clk (s.core d) = true
  alone : ∀ d ∈ c.cluster.cores, ∀ g ∈ timedEngines, (d = c ∧ g = e) ∨ dueNow s d g = false

theorem tickFacts_of_timed {s : State} {c : CoreId} {e : Engine} {i : Instr} (h : timedTurn s c e i = true) : TickFacts s c e := by
  have hf := timedTurn_facts h
  exact ⟨hf.issuer, hf.timed, hf.noTrap, hf.aligned, hf.stands, hf.watch, hf.quiet, hf.alone⟩

/-- A tick worked out with one word. -/
def soloDraft (s : State) (c : CoreId) (e : Engine) (i : Instr) (p : Plan) : Draft :=
  let after := p.act (s.modCore c (movedOn s c e p.idle p.skip))
  { now := (s.cluster c.cluster).clk, turns := [(turnFor s c e i, p)], seen := s, after
    outs := c.cluster.cores.map fun d => (d, coreOuts after (s.cluster c.cluster).clk d) }

section Solo

variable {s : State} {c : CoreId} {e : Engine} {i : Instr} (h : TickFacts s c e)
include h

/-- The word is the one turn of its tick. -/
theorem TickFacts.turns : turnsOf s c.cluster (some (c, e, i)) = [turnFor s c e i] := by
  unfold turnsOf
  refine flatMap_only _ c _ _ (cores_nodup _) (mem_cores c) ?_ fun d hd hne => ?_
  · refine filterMap_only _ e _ _ (by decide) (timedEngines_mem e h.timed) (by simp) fun g hg hne => ?_
    have hdue := (h.alone c (mem_cores c) g hg).resolve_left fun hh => hne hh.2
    simp [hne, hdue]
  · refine List.filterMap_eq_nil_iff.mpr fun g hg => ?_
    have hdue := (h.alone d hd g hg).resolve_left fun hh => hne hh.1
    simp [hne, hdue]

/-- A word that arrives at no rendezvous: its issue is the decision on the tick that its plan makes. -/
theorem TickFacts.issueWord_eq (harr : arrives s c.cluster [turnFor s c e i] (turnFor s c e i) = false) {p : Plan}
    (hp : turnPlan s (s.cluster c.cluster).clk (rdvMismatch s c.cluster [turnFor s c e i] (turnFor s c e i)) (turnFor s c e i) = p) :
    issueWord i s = decideTick (soloDraft s c e i p) c.cluster s s := by
  have hbefore : beforeAlign (s.core c) e = false := by simp [beforeAlign, h.aligned]
  have harrive : arriveTurns c.cluster [turnFor s c e i] s = s := by simp [arriveTurns, harr]
  have hland : landAll c.cluster (s.cluster c.cluster).clk s = s := landAll_quiet _ _ _ h.quiet
  simp only [issueWord, h.issuer, hbefore, h.timed, h.noTrap, Bool.false_eq_true, if_false, Bool.not_false, Bool.and_self, if_true,
    tickWith, h.stands, h.watch, h.turns, attemptTick, harrive, draftTick, hland, List.map_cons, List.map_nil, hp]
  rfl

/-- The draft of a word that touches nothing, and whose effect leaves what is in flight alone. -/
theorem TickFacts.quietDraft {p : Plan} (htou : p.touches = [])
    (hact : ∀ d ∈ c.cluster.cores, SameFlight (s.core d) ((p.act (s.modCore c (movedOn s c e p.idle p.skip))).core d)) :
    QuietDraft (soloDraft s c e i p) c.cluster s :=
  ⟨rfl, rfl, h.quiet, hact, fun x hx => by rw [List.mem_singleton.mp hx]; exact htou⟩

omit h in
theorem sameFlight_moved (d : CoreId) (idle : Nat) (skip : Option Nat) :
    SameFlight (s.core d) ((s.modCore c (movedOn s c e idle skip)).core d) := by
  by_cases hd : d = c
  · subst hd
    rw [State.core_modCore_same]
    exact sameFlight_movedOn s d e idle skip _
  · rw [State.core_modCore_other _ _ _ _ hd]
    exact .refl _

/-- The draft of a word that only stops. -/
theorem TickFacts.quietDraft_id {p : Plan} (htou : p.touches = []) (hact : p.act = id) : QuietDraft (soloDraft s c e i p) c.cluster s :=
  h.quietDraft htou fun d _ => by rw [hact]; exact sameFlight_moved d p.idle p.skip

/-! ### The trap of a tick -/

omit h in
/-- A core that raises nothing is left as it is. -/
theorem trapCore_none {D : Draft} {k : ClusterId} {s0 t : State} {d : CoreId} (hd : D.causes s0 k d = []) : trapCore D k s0 t d = t := by
  simp [trapCore, hd]

omit h in
theorem core_badCtx_self {x : Core} (hx : x.badCtx = false) : { x with badCtx := false } = x := by rw [← hx]

omit h in
theorem core_apWrites_self {x : Core} (hx : x.ap.apWrites = []) : { x with ap := { x.ap with apWrites := [] } } = x := by rw [← hx]

omit h in
/-- The trap of a core with nothing in flight. -/
theorem QuietDraft.trapCore_one {D : Draft} {k : ClusterId} (hq : QuietDraft D k s) (hc : c ∈ k.cores) {a : TrapCause}
    (ha : D.causes s k c = [a]) (hcode : a.code ≠ 11) : trapCore D k s s c = takeTrap c false a [] s := by
  obtain ⟨hl, ho, -, hap, -, hctx⟩ := (quietCore_iff _ _).mp (hq.quiet c hc)
  have hcore : (let x := { landMissed c D.now (s.core c) with badCtx := false }
      if D.lates.isEmpty then { x with ap := { x.ap with apWrites := [] } } else x) = s.core c := by
    have hmiss : landMissed c D.now (s.core c) = s.core c := by simp [landMissed, landQuarters_nil _ _ hl, ho]
    have hctx' : { landMissed c D.now (s.core c) with badCtx := false } = s.core c := by rw [hmiss]; exact core_badCtx_self hctx
    change (fun x : Core => if D.lates.isEmpty then { x with ap := { x.ap with apWrites := [] } } else x) _ = _
    rw [hctx']
    exact (congrArg (ite _ · _) (core_apWrites_self hap)).trans (ite_self _)
  simp only [trapCore, ha, hq.out hc, List.eraseDups_nil, List.foldl_nil, List.any_cons, List.any_nil, hcode, decide_false,
    Bool.false_and, Bool.or_false, Bool.false_eq_true, if_false]
  exact congrArg (takeTrap c false a []) (State.modCore_self s c _ hcore)

omit h in
/-- A tick at which one core raises one cause: it traps, and nothing else of the tick takes place (R36, R119). -/
theorem QuietDraft.trap_one {D : Draft} {k : ClusterId} (hq : QuietDraft D k s) (hc : c ∈ k.cores) {a : TrapCause}
    (ha : D.causes s k c = [a]) (hcode : a.code ≠ 11) (hother : ∀ d ∈ k.cores, d ≠ c → D.causes s k d = []) :
    decideTick D k s s = (takeTrap c false a [] s).modCluster k markTried := by
  have htraps : D.traps k s = true := List.any_eq_true.mpr ⟨c, hc, by simp [ha]⟩
  have hfold : ∀ l : List CoreId, l.Nodup → (∀ d ∈ l, d ∈ k.cores) →
      l.foldl (trapCore D k s) s = if c ∈ l then takeTrap c false a [] s else s := by
    intro l
    induction l with
    | nil => intros; rfl
    | cons d r ih =>
      intro hn hm
      obtain ⟨hdr, hr⟩ := List.nodup_cons.mp hn
      have hmr : ∀ x ∈ r, x ∈ k.cores := fun x hx => hm x (List.mem_cons_of_mem _ hx)
      by_cases hdc : d = c
      · subst hdc
        have hrest : ∀ u : State, r.foldl (trapCore D k s) u = u := fun u =>
          foldl_self r u _ fun x hx => trapCore_none (hother x (hmr x hx) fun he => hdr (he ▸ hx))
        rw [List.foldl_cons, hq.trapCore_one hc ha hcode, hrest, if_pos List.mem_cons_self]
      · rw [List.foldl_cons, trapCore_none (hother d (hm d List.mem_cons_self) hdc), ih hr hmr]
        simp [Ne.symm hdc]
  rw [decideTick, if_pos htraps, trapTick, hfold _ (cores_nodup k) fun _ hd => hd, if_pos hc]

omit h in
/-- The causes of the one word of a tick are its core's. -/
theorem soloDraft_causes_own {p : Plan} (hq : QuietDraft (soloDraft s c e i p) c.cluster s) :
    (soloDraft s c e i p).causes s c.cluster c = p.causes ++
      ((soloDraft s c e i p).lates.filter fun _ => strictCore s c).map fun l => causeBy l.t.req 3 l.kind l.obj := by
  rw [hq.causes (mem_cores c)]
  have hturn : (turnFor s c e i).c = c := rfl
  congr 1
  · simp [soloDraft, hturn]
  · congr 1
    refine List.filter_congr fun l hl => ?_
    have hlc : l.t = turnFor s c e i := by
      simp only [Draft.lates, latesOf, soloDraft, List.flatMap_cons, List.flatMap_nil, List.append_nil] at hl
      split at hl
      · exact absurd hl List.not_mem_nil
      · rw [List.mem_singleton.mp hl]
    simp [hlc, hturn]

omit h in
/-- No other core of the cluster raises anything. -/
theorem soloDraft_causes_other {p : Plan} (hq : QuietDraft (soloDraft s c e i p) c.cluster s) {d : CoreId} (hd : d ∈ c.cluster.cores)
    (hne : d ≠ c) : (soloDraft s c e i p).causes s c.cluster d = [] := by
  rw [hq.causes hd]
  have hturn : (turnFor s c e i).c ≠ d := fun he => hne (he.symm.trans rfl)
  have hlate : ∀ l ∈ (soloDraft s c e i p).lates, l.t.c ≠ d := by
    intro l hl
    simp only [Draft.lates, latesOf, soloDraft, List.flatMap_cons, List.flatMap_nil, List.append_nil] at hl
    split at hl
    · exact absurd hl List.not_mem_nil
    · rw [List.mem_singleton.mp hl]
      exact hturn
  simp only [List.append_eq_nil_iff, List.flatMap_eq_nil_iff, List.map_eq_nil_iff, List.filter_eq_nil_iff]
  refine ⟨fun x hx => ?_, fun l hl => by simp [hlate l hl]⟩
  have hmem := List.mem_filter.mp hx
  simp only [soloDraft, List.mem_singleton] at hmem
  obtain ⟨rfl, hxd⟩ := hmem
  exact absurd (of_decide_eq_true hxd) hturn

/-- The one word of a tick raises one cause. -/
theorem TickFacts.traps {p : Plan} (harr : arrives s c.cluster [turnFor s c e i] (turnFor s c e i) = false)
    (hp : turnPlan s (s.cluster c.cluster).clk (rdvMismatch s c.cluster [turnFor s c e i] (turnFor s c e i)) (turnFor s c e i) = p)
    (htou : p.touches = []) (hact : p.act = id) {a : TrapCause}
    (ha : (p.causes ++ ((soloDraft s c e i p).lates.filter fun _ => strictCore s c).map fun l => causeBy l.t.req 3 l.kind l.obj) = [a])
    (hcode : a.code ≠ 11) :
    issueWord i s = (takeTrap c false a [] s).modCluster c.cluster markTried := by
  have hq : QuietDraft (soloDraft s c e i p) c.cluster s := h.quietDraft_id htou hact
  rw [h.issueWord_eq harr hp]
  exact hq.trap_one (mem_cores c) ((soloDraft_causes_own hq).trans ha) hcode fun d hd hne => soloDraft_causes_other hq hd hne

/-- The one word of a tick takes place, and touches nothing. -/
theorem TickFacts.commits {p : Plan} (harr : arrives s c.cluster [turnFor s c e i] (turnFor s c e i) = false)
    (hp : turnPlan s (s.cluster c.cluster).clk (rdvMismatch s c.cluster [turnFor s c e i] (turnFor s c e i)) (turnFor s c e i) = p)
    (htou : p.touches = []) (hl : p.lates = []) (hca : p.causes = [])
    (hact : ∀ d ∈ c.cluster.cores, SameFlight (s.core d) ((p.act (s.modCore c (movedOn s c e p.idle p.skip))).core d)) :
    issueWord i s = p.after ((p.act (s.modCore c (movedOn s c e p.idle p.skip))).modCluster c.cluster endTick) := by
  have hq : QuietDraft (soloDraft s c e i p) c.cluster s := h.quietDraft htou hact
  have hlates : (soloDraft s c e i p).lates = [] := by simp [Draft.lates, latesOf, soloDraft, hl]
  have hnone : ∀ d ∈ c.cluster.cores, (soloDraft s c e i p).causes s c.cluster d = [] := by
    intro d hd
    by_cases hne : d = c
    · subst hne
      rw [soloDraft_causes_own hq, hca, hlates]
      rfl
    · exact soloDraft_causes_other hq hd hne
  rw [h.issueWord_eq harr hp, decideTick_commit _ _ _ hnone hlates, hq.commit]
  rfl

end Solo

/-- A word that is no rendezvous arrives at none, and meets none. -/
theorem arrives_of_form_none {s : State} {c : CoreId} {e : Engine} {i : Instr} (hf : rdvFormOf i = none) :
    arrives s c.cluster [turnFor s c e i] (turnFor s c e i) = false ∧
    rdvMismatch s c.cluster [turnFor s c e i] (turnFor s c e i) = false := by
  have hform : turnForm (turnFor s c e i) = none := by simp [turnForm, turnFor, hf]
  exact ⟨by simp [arrives, hform], rdvMismatch_none s _ _ _ hform⟩

/-! ### Untimed words -/

/-- The issue of an untimed word carries its plan out. -/
theorem issueWord_untimed {s : State} {c : CoreId} {e : Engine} {i : Instr} (hiss : s.issuer = .eng c e)
    (hr : untimedReady s c e = true) : issueWord i s = issueUntimed (turnFor s c e i) s := by
  have hnt : (e.timed && !inTrap (s.core c) e) = false := by
    by_cases hi : inTrap (s.core c) e
    · simp [hi]
    · have hap : e = .ap := by
        by_contra hne
        simp [untimedReady, hi, hne] at hr
      simp [hap, Engine.timed]
  have hb : beforeAlign (s.core c) e = false := by simp only [beforeAlign, hnt, Bool.false_and]
  simp only [issueWord, hiss, hb, hnt, hr, Bool.false_eq_true, if_false, if_true]

/-- A legal word whose pitch waits for nothing. -/
theorem issueUntimed_legal {s : State} {c : CoreId} {e : Engine} {i : Instr} (hle : legalHere s c e i = true)
    (hwa : waitsMet s c e = true) : issueUntimed (turnFor s c e i) s = carryOut (turnFor s c e i) (planBehind s c e i) s := by
  have hd := turnFor_detail s c e i hle
  have hi : (turnFor s c e i).instr = some i := rfl
  have hft : (turnFor s c e i).fetched = true := rfl
  have hbd : (turnFor s c e i).bad = false := rfl
  simp only [issueUntimed, hft, hbd, hd, hi, waitsLeft_nil s c e i hwa, List.isEmpty_nil]
  rfl

theorem issueWord_untimedTurn {s : State} {c : CoreId} {e : Engine} {i : Instr} (h : untimedTurn s c e i = true) :
    issueWord i s = carryOut (turnFor s c e i) (planBehind s c e i) s := by
  simp only [untimedTurn, Bool.and_eq_true] at h
  obtain ⟨hw, hr⟩ := h
  obtain ⟨hiss, -, hle, hwa⟩ := (wordOk_iff s c e i).mp hw
  rw [issueWord_untimed hiss hr, issueUntimed_legal hle hwa]

end Sys2Proof.Proofs.Ticks
end

section
/-! PROOFS. Rendezvous words (R18, R26, R27, R99-R101, R324): how a stream stands at one, goes on past one, and ends. -/

namespace Sys2Proof.Proofs.Rendezvous

open Sys2Proof Sys2Proof.Machine Sys2Proof.Claims Sys2Proof.Proofs.Acts Sys2Proof.Proofs.Ticks

/-! ### The guard of a rendezvous word (R89, R99) -/

theorem minDetail_eq_zero {a b : Nat} : minDetail a b = 0 ↔ a = 0 ∧ b = 0 := by
  unfold minDetail
  split
  · omega
  · split <;> omega

theorem detailIf_eq_zero {p : Bool} {d : Nat} (hd : d ≠ 0) : detailIf p d = 0 ↔ p = false := by
  cases p <;> simp [detailIf, hd]

/-- A word of the rendezvous major that passes its encoding checks has no guard. -/
theorem unguarded_of_legal {p : Where} {fn : BitVec 7} {f : Fld} (hfn : fn.toNat ≤ 3)
    (h : encodingDetail p { op := 0xb1, fn, f } = 0) : f.h.g = 15 := by
  have hengine : (Engine.all.contains p.eng) = true := by cases p.eng <;> rfl
  have hshape : shapeOf p.eng { op := 0xb1, fn, f } = some { guard := false } := if_pos hfn
  simp only [encodingDetail, hshape] at h
  simp only [show majorEngines (BitVec.toNat (0xb1 : BitVec 8)) = some Engine.all from rfl, hengine] at h
  simp [minDetail_eq_zero, detailIf_eq_zero] at h
  obtain ⟨-, -, -, -, -, hg, -⟩ := h
  exact hg

/-- The instruction of a rendezvous word. -/
def rdvWord (flip : Bool) (f : Fld) : Instr := if flip then .rdvFlip f else .rdv f

/-- The form of a rendezvous word. -/
def rdvForm (flip : Bool) : RdvForm := if flip then .flip else .rdv

theorem rdvFormOf_rdvWord (flip : Bool) (f : Fld) : rdvFormOf (rdvWord flip f) = some (rdvForm flip) := by cases flip <;> rfl

theorem planOf_rdvWord (flip : Bool) (f : Fld) (k : Ctx) : planOf (rdvWord flip f) k = planRdvWith (rdvForm flip) k := by
  cases flip <;> rfl

theorem headOk_of_unguarded {x : Core} {e : Engine} {i : Instr} {w : Fields} (hw : toFields i = some w) (hg : w.f.h.g = 15) :
    headOk x e i = true := by simp [headOk, hw, guardGo, guardLate, guardTrue, hg]

theorem headOk_rdvWord {s : State} {c : CoreId} {e : Engine} {flip : Bool} {f : Fld} (h : legalHere s c e (rdvWord flip f) = true) :
    headOk (s.core c) e (rdvWord flip f) = true := by
  cases flip
  · exact headOk_of_unguarded (w := ⟨0xb1, 1, f⟩) rfl (unguarded_of_legal (by decide) (of_decide_eq_true h))
  · exact headOk_of_unguarded (w := ⟨0xb1, 2, f⟩) rfl (unguarded_of_legal (by decide) (of_decide_eq_true h))

/-! ### Standing at a rendezvous (R99, R324) -/

section Ap

variable {s : State} {c : CoreId} {f : Fld} {flip : Bool} (h : untimedGo s c .ap (rdvWord flip f) = true)
include h

theorem exec_rdvWord_ap : exec (rdvWord flip f) s =
    done (carryOut (turnFor s c .ap (rdvWord flip f)) (planRdvWith (rdvForm flip) (ctxOf s c .ap (rdvWord flip f))) s) := by
  obtain ⟨hturn, hhead⟩ := untimedGo_iff.mp h
  rw [exec_word _ s (toFields_of_turn (issues_iff.mp (issues_of_untimedGo h)).1), issueWord_untimedTurn hturn, planBehind_go hhead,
    planOf_rdvWord]

/-- An AP whose rendezvous has not retired stands there. -/
theorem exec_rdvWord_stands (hp : rdvPassed s c .ap = false) : exec (rdvWord flip f) s = done (arriveAp c (rdvForm flip) s) := by
  have hlate : (planRdvWith (rdvForm flip) (ctxOf s c .ap (rdvWord flip f))).lates ≠ [] := by
    have hlates : (planRdvWith (rdvForm flip) (ctxOf s c .ap (rdvWord flip f))).lates = [(6, 0)] := if_neg (by simp [hp])
    simp [hlates]
  rw [exec_rdvWord_ap h, carryOut_late _ _ s hlate]
  rfl

/-- An AP goes on past a rendezvous that has retired. -/
theorem exec_rdvWord_passes (hp : rdvPassed s c .ap = true) :
    exec (rdvWord flip f) s = .next ((movedState s c .ap).modCore c (passRdv .ap)) := by
  have hlates : (planRdvWith (rdvForm flip) (ctxOf s c .ap (rdvWord flip f))).lates = [] := if_pos hp
  rw [exec_rdvWord_ap h, carryOut_go _ _ s hlates rfl rfl]
  exact done_of_regq (u := (movedState s c .ap).modCore c (passRdv .ap)) (regq_of_issues (s := s) (issues_of_untimedGo h))

end Ap

/-- What an AP does at a rendezvous where it does not yet stand. -/
theorem arriveAp_first {s : State} {c : CoreId} {form : RdvForm} (h : ((s.core c).stream .ap).arrived = none) :
    arriveAp c form s = if storesDone (drainAll c s) c then
      (fenceAp c (match jobOf s c with | some j => teamScope j.team | none => 3) true false (drainAll c s)).modCore c (arriveAt form .ap)
    else drainAll c s := if_neg (by simp [h])

/-- An AP that stands at its rendezvous waits. -/
theorem arriveAp_again {s : State} {c : CoreId} {form : RdvForm} (h : ((s.core c).stream .ap).arrived ≠ none) :
    arriveAp c form s = s := if_pos (Option.isSome_iff_ne_none.mpr h)

/-! ### Passing a rendezvous at a tick (R27) -/

/-- Every other timed stream of the job in the cluster is absent or has ended. -/
def othersEnded (s : State) (c : CoreId) (e : Engine) : Bool :=
  c.cluster.cores.all fun d => decide ((s.core d).job ≠ (s.core c).job) || timedEngines.all fun g =>
    decide (d = c ∧ g = e) || !((s.core d).stream g).present || ((s.core d).stream g).ended

section Timed

variable {s : State} {c : CoreId} {e : Engine} {f : Fld} {flip : Bool}

/-- A stream whose rendezvous has retired does not arrive there again. -/
theorem arrives_of_passed {i : Instr} (hp : rdvPassed s c e = true) :
    arrives s c.cluster [turnFor s c e i] (turnFor s c e i) = false := by
  have hpassed : rdvPassed s (turnFor s c e i).c (turnFor s c e i).e = true := hp
  simp [arrives, hpassed]

/-- A stream alone at its rendezvous misses no member that is still to come. -/
theorem rdvMismatch_alone (ho : othersEnded s c e = true) :
    rdvMismatch s c.cluster [turnFor s c e (rdvWord flip f)] (turnFor s c e (rdvWord flip f)) = false := by
  have hform : turnForm (turnFor s c e (rdvWord flip f)) = some (rdvForm flip) := rdvFormOf_rdvWord flip f
  have hc : (turnFor s c e (rdvWord flip f)).c = c := rfl
  have he : (turnFor s c e (rdvWord flip f)).e = e := rfl
  have hnone : (c.cluster.cores.any fun d => decide ((s.core d).job = (s.core c).job) && timedEngines.any fun g =>
      ((s.core d).stream g).present && !((s.core d).stream g).ended && !([turnFor s c e (rdvWord flip f)].any fun u =>
        decide (u.c = d) && decide (u.e = g) && (turnForm u).isSome &&
          decide (((s.core d).stream g).rdvs = ((s.core c).stream e).rdvs))) = false := by
    refine List.any_eq_false.mpr fun d hd => ?_
    simp only [Bool.and_eq_true, decide_eq_true_eq, List.any_eq_true, Bool.not_eq_true', not_and, not_exists, List.any_cons, List.any_nil,
      Bool.or_false, hc, he, hform, Option.isSome_some, Bool.and_true]
    intro hjob g hg ⟨hpres, hgoes⟩ hended
    have hall := (Bool.or_eq_true_iff.mp (List.all_eq_true.mp ho d hd)).resolve_left (by simp [hjob])
    have hg' := List.all_eq_true.mp hall g hg
    simp only [hpres, hgoes, Bool.not_true, Bool.or_false, decide_eq_true_eq] at hg'
    obtain ⟨rfl, rfl⟩ := hg'
    simp at hended
  simp only [rdvMismatch, hc, he, hnone, Bool.and_false]

/-- A timed stream goes on past a rendezvous that has retired, once the others have ended. -/
theorem exec_rdvWord_timed (h : timedTurn s c e (rdvWord flip f) = true) (hp : rdvPassed s c e = true) (ho : othersEnded s c e = true) :
    exec (rdvWord flip f) s = .next (coreNext s c e (passRdv e)) := by
  have hfacts := tickFacts_of_timed h
  have hword := (timedTurn_facts h).word
  obtain ⟨-, hregq, hlegal, -⟩ := (wordOk_iff s c e _).mp hword
  have hmis := rdvMismatch_alone (f := f) (flip := flip) ho
  have hlates : (planRdvWith (rdvForm flip) (ctxOf s c e (rdvWord flip f))).lates = [] := if_pos hp
  have hplan : turnPlan s (s.cluster c.cluster).clk (rdvMismatch s c.cluster [turnFor s c e (rdvWord flip f)] (turnFor s c e (rdvWord flip f)))
      (turnFor s c e (rdvWord flip f)) = planRdvWith (rdvForm flip) (ctxOf s c e (rdvWord flip f)) := by
    rw [hmis, turnPlan_self s c e _ _ hword]
    exact (planBehind_go (headOk_rdvWord hlegal)).trans (planOf_rdvWord flip f _)
  have hact (d : CoreId) (_ : d ∈ c.cluster.cores) :
      SameFlight (s.core d) (((s.modCore c (movedOn s c e 0 none)).modCore c (passRdv e)).core d) := by
    refine (sameFlight_moved (s := s) (c := c) (e := e) d 0 none).trans ?_
    generalize s.modCore c (movedOn s c e 0 none) = t
    by_cases hd : d = c
    · subst hd
      rw [State.core_modCore_same]
      exact ⟨rfl, rfl, rfl⟩
    · rw [State.core_modCore_other _ _ _ _ hd]
      exact .refl _
  have hissue := hfacts.commits (arrives_of_passed hp) hplan rfl hlates rfl hact
  have hfields : (toFields (rdvWord flip f)).isSome = true := by cases flip <;> rfl
  rw [exec_word _ s hfields, hissue, coreNext, endWord, if_pos (timedAt_of_timedTurn h)]
  refine (congrArg (fun u => done (u.modCluster c.cluster endTick)) (State.modCore_modCore s c _ _)).trans ?_
  exact done_of_regq hregq

end Timed

/-! ### `rdv.end` and `rdv.align` (R18, R26, R101) -/

/-- A stream that issues nothing more. -/
def endStream (e : Engine) (x : Core) : Core := x.modStream e fun t => { t with ended := true }

theorem noteEnd_core (c d : CoreId) (e : Engine) (s : State) : (noteEnd c e s).core d = s.core d := by
  unfold noteEnd
  split
  · split <;> rfl
  · rfl

theorem noteEnd_rest (c : CoreId) (e : Engine) (s : State) : (noteEnd c e s).mem = s.mem ∧ (noteEnd c e s).l2 = s.l2 ∧
    (noteEnd c e s).keys = s.keys ∧ (noteEnd c e s).regq = s.regq := by
  unfold noteEnd
  split
  · split <;> exact ⟨rfl, rfl, rfl, rfl⟩
  · exact ⟨rfl, rfl, rfl, rfl⟩

/-- `rdv.end` issues at once. -/
theorem exec_rdvEnd {s : State} {c : CoreId} {e : Engine} {f : Fld} (h : issues s c e (.rdvEnd f) = true) :
    exec (.rdvEnd f) s = .next (endWord s c e (noteEnd c e ((movedState s c e).modCore c (endStream e)))) := by
  refine exec_act_next h rfl _ rfl rfl rfl rfl List.nodup_nil (fun _ ht => absurd ht List.not_mem_nil) rfl rfl (fun d hd => ?_) ?_
    (noteEnd_rest c e _).2.2.2
  · exact (noteEnd_core c d e _).trans ((State.core_modCore_other _ _ _ _ hd).trans (State.core_modCore_other _ _ _ _ hd))
  · have hcore := noteEnd_core c c e ((movedState s c e).modCore c (endStream e))
    rw [State.core_modCore_same, movedState, State.core_modCore_same] at hcore
    exact (sameFlight_movedOn s c e 0 none (s.core c)).trans (hcore ▸ ⟨rfl, rfl, rfl⟩)

@[simp] theorem endWord_core (s : State) (c d : CoreId) (e : Engine) (u : State) : (endWord s c e u).core d = u.core d := by
  unfold endWord; split <;> rfl

theorem endWord_sameMemory {s t u : State} (c : CoreId) (e : Engine) (hm : u.mem = s.mem) (hl : u.l2 = s.l2) (hk : u.keys = s.keys) :
    SameMemory s (endWord t c e u) := by
  unfold endWord
  split <;> exact sameMemory_of hm hl hk

/-- `rdv.align` at the first word of a stream marks the stream as standing there. -/
theorem exec_rdvAlign {s : State} {c : CoreId} {e : Engine} {f : Fld} (hiss : s.issuer = .eng c e) (hregq : s.regq = [])
    (hready : e ≠ .ap ∨ untimedReady s c .ap = true) (htrap : inTrap (s.core c) e = false) (hstart : notStarted s c = false)
    (hal : (s.core c).aligned = false) (hfirst : ((s.core c).stream e).first = true) (hle : legalHere s c e (.rdvAlign f) = true)
    (hwa : waitsMet s c e = true) (hg : f.h.g = 15) :
    exec (.rdvAlign f) s = .next (s.modCore c (arriveAt .align e)) := by
  have hissue : issueWord (.rdvAlign f) s = issueUntimed (turnFor s c e (.rdvAlign f)) s := by
    by_cases he : e = .ap
    · subst he
      exact issueWord_untimed hiss (hready.resolve_left (· rfl))
    · have htimed : e.timed = true := by cases e <;> simp_all [Engine.timed]
      have hbefore : beforeAlign (s.core c) e = true := by simp [beforeAlign, htimed, htrap, hal]
      simp [issueWord, hiss, hbefore, hfirst, hstart, isRdvAlign]
  have hplan : planBehind s c e (.rdvAlign f) = { lates := [(6, 0)], wait := fun s => s.modCore c (arriveAt .align e) } :=
    (planBehind_go (headOk_of_unguarded (w := ⟨0xb1, 0, f⟩) rfl hg)).trans (if_pos hfirst)
  rw [exec_word _ s rfl, hissue, issueUntimed_legal hle hwa, carryOut_late _ _ s (by simp [hplan]), hplan]
  exact done_of_regq (u := s.modCore c (arriveAt .align e)) hregq

/-! ### The obligation -/

/-- Settles O25: the AP's word by whether its rendezvous has retired and its stores have left, the timed word by its tick. -/
theorem rendezvousWordResult : Obligations.RendezvousWordResult := by
  unfold Obligations.RendezvousWordResult
  refine ⟨fun s c f flip => ⟨fun h hp => ⟨fun harr hdone => ?stand, fun harr hdone => ?drain, fun harr => ?wait⟩,
    fun h hp => exec_rdvWord_passes h hp, fun e h ht hi => ?ended⟩,
    fun s c e f flip => ⟨fun h hp ho => exec_rdvWord_timed h hp ho,
      fun hiss hregq hready htrap hstart _ hal hfirst hle hwa hg => exec_rdvAlign hiss hregq hready htrap hstart hal hfirst hle hwa hg⟩⟩
  case stand =>
    refine (exec_rdvWord_stands h hp).trans ?_
    rw [arriveAp_first harr, if_pos hdone]
    rfl
  case drain =>
    refine (exec_rdvWord_stands h hp).trans ?_
    rw [arriveAp_first harr, if_neg (by simp [hdone])]
    rfl
  case wait =>
    refine (exec_rdvWord_stands h hp).trans ?_
    rw [arriveAp_again harr]
    exact done_of_regq (regq_of_issues (issues_of_untimedGo h))
  case ended =>
    have hcore : (noteEnd c e ((movedState s c e).modCore c (endStream e))).core c = endStream e (movedOn s c e 0 none (s.core c)) := by
      rw [noteEnd_core, State.core_modCore_same, movedState, State.core_modCore_same]
    obtain ⟨hmem, hl2, hkeys, -⟩ := noteEnd_rest c e ((movedState s c e).modCore c (endStream e))
    refine ⟨_, exec_rdvEnd h, ?_, fun g hg => ?_, ?_, fun d hd => ?_, endWord_sameMemory c e hmem hl2 hkeys⟩
    · rw [endWord_core, hcore, endStream, Core.stream_modStream_same]
    · rw [endWord_core, hcore, endStream, Core.stream_modStream_other _ _ _ _ hg]
      exact other_movedOn s c e 0 none _ g hg
    · rw [endWord_core, hcore]
      exact (regsSame_movedOn s c e 0 none (s.core c)).1
    · rw [endWord_core, noteEnd_core, State.core_modCore_other _ _ _ _ hd]
      exact State.core_modCore_other _ _ _ _ hd

end Sys2Proof.Proofs.Rendezvous
end

section
/-! PROOFS. What a trap leaves as it was (R119, R120, R123). -/

namespace Sys2Proof.Proofs.Traps

open Sys2Proof Sys2Proof.Machine Sys2Proof.Claims

/-! ### Notices -/

@[simp] theorem notice_cores (bit : Nat) (s : State) : (notice bit s).cores = s.cores := by unfold notice; split <;> rfl
@[simp] theorem notice_clusters (bit : Nat) (s : State) : (notice bit s).clusters = s.clusters := by unfold notice; split <;> rfl
@[simp] theorem notice_jobs (bit : Nat) (s : State) : (notice bit s).jobs = s.jobs := by unfold notice; split <;> rfl
@[simp] theorem notice_regq (bit : Nat) (s : State) : (notice bit s).regq = s.regq := by unfold notice; split <;> rfl
@[simp] theorem notice_mem (bit : Nat) (s : State) : (notice bit s).mem = s.mem := by unfold notice; split <;> rfl
@[simp] theorem notice_l2 (bit : Nat) (s : State) : (notice bit s).l2 = s.l2 := by unfold notice; split <;> rfl
@[simp] theorem notice_keys (bit : Nat) (s : State) : (notice bit s).keys = s.keys := by unfold notice; split <;> rfl

theorem getLsbD_putBit_same {n : Nat} (v : BitVec n) {bit : Nat} (h : bit < n) : (putBit v bit true).getLsbD bit = true := by
  simp [putBit, h]

/-- A posted notice stands in MGTNOTE. -/
theorem notice_mgt {bit : Nat} (s : State) (h : bit < 7) : (notice bit s).sys.mgt.getLsbD bit = true := by
  unfold notice
  split
  · assumption
  · exact getLsbD_putBit_same _ h

/-! ### Cluster traps -/

section Take

variable (c : CoreId) (fsave : Bool) (a : TrapCause) (r : List TrapCause) (s : State)

@[simp] theorem takeTrap_clusters : (takeTrap c fsave a r s).clusters = s.clusters := by
  simp only [takeTrap]
  split <;> simp [(onlyMemory_writeFrame c _).clusters]

@[simp] theorem takeTrap_cluster (k : ClusterId) : (takeTrap c fsave a r s).cluster k = s.cluster k := by
  simp [State.cluster]

@[simp] theorem takeTrap_jobs : (takeTrap c fsave a r s).jobs = s.jobs := by
  have hm := fun f => congrArg State.jobs (onlyMemory_writeFrame c (s.modCore c f))
  simp only [takeTrap]
  split <;> simp [hm]

@[simp] theorem takeTrap_regq : (takeTrap c fsave a r s).regq = s.regq := by
  have hm := fun f => congrArg State.regq (onlyMemory_writeFrame c (s.modCore c f))
  simp only [takeTrap]
  split <;> simp [hm]

end Take

/-! ### Double traps -/

@[simp] theorem doubleTrap_regq (c : CoreId) (code : Nat) (s : State) : (doubleTrap c code s).regq = s.regq := by simp [doubleTrap]
@[simp] theorem doubleTrap_clusters (c : CoreId) (code : Nat) (s : State) : (doubleTrap c code s).clusters = s.clusters := by
  simp [doubleTrap]

theorem doubleTrap_other {c d : CoreId} (code : Nat) (s : State) (h : d ≠ c) : (doubleTrap c code s).core d = s.core d := by
  simp [doubleTrap, State.core_modCore_other _ _ _ _ h]

end Sys2Proof.Proofs.Traps
end

section
/-! PROOFS. The events of a cluster's clock (R36, R40, R41, R124). -/

namespace Sys2Proof.Proofs.Clock

open Sys2Proof Sys2Proof.Machine Sys2Proof.Claims Sys2Proof.Proofs.Acts Sys2Proof.Proofs.Ticks Sys2Proof.Proofs.Traps

theorem exec_tickAttempt (k : ClusterId) (s : State) : exec (.tickAttempt k) s = done (tickWith k none s) := rfl
theorem exec_freezeLimit (k : ClusterId) (s : State) : exec (.freezeLimit k) s = done (evFreezeLimit k s) := rfl
theorem exec_watchdogCompare (k : ClusterId) (s : State) : exec (.watchdogCompare k) s = done (evWatchdogCompare k s) := rfl

/-! ### A tick with nothing to do -/

section Idle

variable {s : State} {k : ClusterId}

/-- No stream is due, so that the tick has no turns. -/
theorem turnsOf_none (h : (k.cores.all fun d => timedEngines.all fun g => !dueNow s d g) = true) : turnsOf s k none = [] := by
  unfold turnsOf
  refine List.flatMap_eq_nil_iff.mpr fun d hd => List.filterMap_eq_nil_iff.mpr fun g hg => ?_
  have hdue := List.all_eq_true.mp (List.all_eq_true.mp h d hd) g hg
  simp only [Bool.not_eq_true'] at hdue
  simp [hdue]

/-- The draft of a tick with no turns. -/
def idleDraft (s : State) (k : ClusterId) : Draft :=
  { now := (s.cluster k).clk, turns := [], seen := s, after := s, outs := k.cores.map fun c => (c, coreOuts s (s.cluster k).clk c) }

theorem quietDraft_idle (hq : ∀ d ∈ k.cores, quietCore (s.cluster k).clk (s.core d) = true) : QuietDraft (idleDraft s k) k s :=
  ⟨rfl, rfl, hq, fun _ _ => .refl _, fun _ hx => absurd hx List.not_mem_nil⟩

/-- A tick of a cluster with nothing due and nothing in flight moves the clock and nothing else (R36). -/
theorem tickWith_idle (hq : quietCluster s k = true) (hdue : (k.cores.all fun d => timedEngines.all fun g => !dueNow s d g) = true) :
    tickWith k none s = s.modCluster k endTick := by
  simp only [quietCluster, Bool.and_eq_true, Bool.not_eq_true', List.isEmpty_iff] at hq
  obtain ⟨⟨hstands, hwatch⟩, hquiet⟩ := hq
  have hquiet := List.all_eq_true.mp hquiet
  have hland : landAll k (s.cluster k).clk s = s := landAll_quiet _ _ _ hquiet
  have hdraft : draftTick k [] s = idleDraft s k := by simp only [draftTick, hland, List.map_nil]; rfl
  have hQ := quietDraft_idle hquiet
  have hnone (d) (hd : d ∈ k.cores) : (idleDraft s k).causes s k d = [] := by rw [hQ.causes hd]; rfl
  have harrive : arriveTurns k [] s = s := rfl
  simp only [tickWith, hstands, hwatch, turnsOf_none hdue, attemptTick, harrive, hdraft, Bool.false_eq_true, if_false]
  rw [decideTick_commit _ _ _ hnone rfl, hQ.commit]
  rfl

end Idle

/-! ### FRZINFO (R41) -/

theorem extractLsb'_ofNat_div {n lo len : Nat} (x : Nat) (h : lo + len ≤ n) :
    (BitVec.ofNat n x).extractLsb' lo len = BitVec.ofNat len (x / 2 ^ lo) := by
  ext i hi
  simp [← BitVec.getLsbD_eq_getElem, BitVec.getLsbD_ofNat, hi, Nat.testBit_div_two_pow, show lo + i < n by omega, Nat.add_comm]

/-- FRZINFO of a freeze that ends: its length, kind, engine and core. -/
theorem frzinfo_fields {y : Cluster} {f : Freeze} (h : y.freeze = some f) (hcyc : f.cyc < 2 ^ 32) (hkind : f.kind < 16) (hcore : f.core < 4) :
    (endTick y).frzinfo.extractLsb' 32 32 = BitVec.ofNat 32 f.cyc ∧ (endTick y).frzinfo.extractLsb' 21 4 = BitVec.ofNat 4 f.kind ∧
    (endTick y).frzinfo.extractLsb' 18 3 = BitVec.ofNat 3 f.eng.code ∧ (endTick y).frzinfo.extractLsb' 16 2 = BitVec.ofNat 2 f.core := by
  have hcode : f.eng.code < 8 := by cases f.eng <;> decide
  have hinfo : (endTick y).frzinfo = BitVec.ofNat 64 (f.cyc * 2 ^ 32 + f.kind * 2 ^ 21 + f.eng.code * 2 ^ 18 + f.core * 2 ^ 16) := by
    simp only [endTick, h]
    rw [Nat.min_eq_left (by omega)]
  rw [hinfo]
  refine ⟨?_, ?_, ?_, ?_⟩ <;> rw [extractLsb'_ofNat_div _ (by decide)] <;> apply BitVec.eq_of_toNat_eq <;>
    simp only [BitVec.toNat_ofNat] <;> omega

/-! ### A pending trap, the freeze limit and the watchdog -/

theorem clockStands_of_trap {s : State} {k : ClusterId} (h : ∃ c ∈ k.cores, trapValid (s.core c) = true) : clockStands s k = true := by
  obtain ⟨c, hc, hv⟩ := h
  have hpending : trapPending s k = true := List.any_eq_true.mpr ⟨c, hc, hv⟩
  simp [clockStands, hpending]

/-- While the clock stands, no event of it does anything. -/
theorem clock_stands {s : State} {k : ClusterId} (h : clockStands s k = true) :
    tickWith k none s = s ∧ evFreezeLimit k s = s ∧ evWatchdogCompare k s = s := ⟨if_pos h, if_pos h, if_pos h⟩

/-- A freeze that has reached FRZLIM, and one that has not. -/
theorem limitTrap_frozen {s : State} {k : ClusterId} {f : Freeze} (h : (s.cluster k).freeze = some f) :
    limitTrap k s = if (s.cluster k).frzlim ≠ 0 ∧ (s.cluster k).frzlim.toNat ≤ f.run then
      some (takeTrap (k.core (Fin.ofNat 4 f.core)) false (causeBy { eng := f.eng, pitch := f.pitch, word := f.word } 12 2 f.kind) [] s)
    else none := by simp only [limitTrap, h]

/-- The one core of a cluster whose compare fires. -/
theorem watchCores_only {s : State} {k : ClusterId} {c : CoreId} (hc : c ∈ k.cores)
    (h : ∀ d ∈ k.cores, ((s.core d).aligned = true ∧ (s.core d).csr.wdcmp ≠ 0 ∧ (s.core d).csr.wdcmp.toNat = tickOf s d ∧
      (s.cluster k).tried = false ∧ (s.core d).trap.wdDone ≠ some (s.cluster k).clk) ↔ d = c) : watchCores s k = [c] := by
  have hfilter : watchCores s k = k.cores.filter fun d => decide (d = c) := by
    refine List.filter_congr fun d hd => ?_
    rw [Bool.eq_iff_iff, decide_eq_true_iff, ← h d hd]
    simp only [Bool.and_eq_true, decide_eq_true_eq, Bool.not_eq_true']
    tauto
  rw [hfilter, List.filter_eq, List.count_eq_one_of_mem (cores_nodup k) hc]
  rfl

/-- A compare that fires traps its core before any word of the tick. -/
theorem fireWatches_one {s : State} {k : ClusterId} {c : CoreId} :
    fireWatches k [c] s = (takeTrap c false { code := 12, detail := 1, r1 := none, r2 := none, obj := 0 } []
      (s.modCore c fun x => { x with trap := { x.trap with wdDone := some (s.cluster k).clk } })).modCluster k markTried := rfl

/-- Settles O41: the events of a cluster's clock. -/
theorem tickEvents : Obligations.TickEvents := by
  refine ⟨fun s k hregq hq hdue => ?_, fun s k hregq htrap => ?_, fun s k f hregq hstands hf => ⟨fun hlim => ?_, fun hlim => ?_⟩,
    fun s k c hregq hstands hc hwatch => ?_⟩
  · refine ⟨s.modCluster k endTick, ?_, ?_⟩
    · rw [exec_tickAttempt, tickWith_idle hq hdue]
      exact done_of_regq hregq
    · rw [State.cluster_modCluster_same]
      exact ⟨rfl, rfl, rfl, rfl, rfl, fun h => by simp only [endTick, h], fun f hf h1 h2 h3 => frzinfo_fields hf h1 h2 h3, rfl,
        fun j hj => State.cluster_modCluster_other _ _ _ _ hj, rfl⟩
  · obtain ⟨htick, hlimit, hcompare⟩ := clock_stands (clockStands_of_trap htrap)
    rw [exec_tickAttempt, exec_freezeLimit, exec_watchdogCompare, htick, hlimit, hcompare]
    exact ⟨done_of_regq hregq, done_of_regq hregq, done_of_regq hregq⟩
  · have hev : evFreezeLimit k s = takeTrap (k.core (Fin.ofNat 4 f.core)) false
        (causeBy { eng := f.eng, pitch := f.pitch, word := f.word } 12 2 f.kind) [] s := by
      simp only [evFreezeLimit, hstands, limitTrap_frozen hf, if_pos hlim, Bool.false_eq_true, if_false, Option.getD_some]
    rw [exec_freezeLimit, hev]
    exact done_of_regq ((takeTrap_regq _ _ _ _ s).trans hregq)
  · have hev : evFreezeLimit k s = s := by
      have hnot : ¬ ((s.cluster k).frzlim ≠ 0 ∧ (s.cluster k).frzlim.toNat ≤ f.run) := fun h => by
        obtain hzero | hrun := hlim
        · exact h.1 hzero
        · exact absurd h.2 (by omega)
      simp only [evFreezeLimit, hstands, limitTrap_frozen hf, if_neg hnot, Bool.false_eq_true, if_false, Option.getD_none]
    rw [exec_freezeLimit, hev]
    exact done_of_regq hregq
  · have hcores := watchCores_only hc hwatch
    have hdone : ∀ u : State, u.regq = s.regq → done u = .next u := fun u hu => done_of_regq (hu.trans hregq)
    constructor
    · rw [exec_tickAttempt]
      simp only [tickWith, hstands, hcores, Bool.false_eq_true, if_false, fireWatches_one]
      exact hdone _ (by simp)
    · rw [exec_watchdogCompare]
      simp only [evWatchdogCompare, hstands, hcores, Bool.false_eq_true, if_false, fireWatches_one]
      exact hdone _ (by simp)

end Sys2Proof.Proofs.Clock
end

section
/-! PROOFS. Words that raise an exception, and words that wait for their guard (R37, R38, R40, R57, R76, R78, R118, R119, R123). -/

namespace Sys2Proof.Proofs.Raises

open Sys2Proof Sys2Proof.Machine Sys2Proof.Claims Sys2Proof.Proofs.Acts Sys2Proof.Proofs.Ticks Sys2Proof.Proofs.Traps
  Sys2Proof.Proofs.Csr

/-! ### Where an exception goes -/

section Raise

variable {s : State} {c : CoreId} {e : Engine} {i : Instr}

/-- The exception of a timed word. -/
theorem raises_timed (h : timedAt s c e = true) (code detail obj : Nat) :
    Claims.raises s c e code detail obj = (takeTrap c false (causeBy (turnFor s c e i).req code detail obj) [] s).modCluster c.cluster markTried :=
  if_pos h

/-- The exception of an untimed word. -/
theorem raises_untimed (h : timedAt s c e = false) (code detail : Nat) : Claims.raises s c e code detail 0 = untimedCause c e code detail s := by
  have hif : Claims.raises s c e code detail 0 = if e = .ap then apFault c (apFaultOf s c code detail 0 false 0) s else doubleTrap c code s := by
    by_cases he : e = .ap
    · subst he
      rfl
    · simp only [Claims.raises, h, he, Bool.false_eq_true, if_false]
  exact hif

theorem raises_regq (code detail obj : Nat) : (Claims.raises s c e code detail obj).regq = s.regq := by
  cases h : timedAt s c e
  · by_cases he : e = .ap
    · subst he
      rfl
    · simp [Claims.raises, h, he]
  · simp [Claims.raises, h]

theorem timedAt_of_untimedReady (h : untimedReady s c e = true) : timedAt s c e = false := by
  cases ht : timedAt s c e
  · rfl
  · simp only [timedAt, Bool.and_eq_true, Bool.not_eq_true'] at ht
    have hne : e ≠ .ap := fun he => by simp [he, Engine.timed] at ht
    simp [untimedReady, ht.2, hne] at h

/-! ### Encoding faults (R57, R76) -/

/-- A word whose turn it is, legal or not: untimed, or the one word of a tick. -/
theorem atTurn_cases (h : Claims.atTurn s c e = true) : s.issuer = .eng c e ∧ s.regq = [] ∧
    ((untimedReady s c e = true ∧ timedAt s c e = false) ∨ (timedAt s c e = true ∧ TickFacts s c e)) := by
  simp only [Claims.atTurn, Bool.and_eq_true, Bool.or_eq_true, decide_eq_true_eq, List.isEmpty_iff, List.all_eq_true] at h
  obtain ⟨⟨⟨hiss, hregq⟩, -⟩, hready | ⟨⟨⟨ht, hal⟩, hq⟩, halone⟩⟩ := h
  · exact ⟨hiss, hregq, .inl ⟨hready, timedAt_of_untimedReady hready⟩⟩
  · simp only [quietCluster, Bool.and_eq_true, Bool.not_eq_true', List.isEmpty_iff, List.all_eq_true] at hq
    obtain ⟨⟨hstands, hwatch⟩, hquiet⟩ := hq
    simp only [timedAt, Bool.and_eq_true, Bool.not_eq_true'] at ht
    refine ⟨hiss, hregq, .inr ⟨by simp [timedAt, ht], hiss, ht.1, ht.2, hal, hstands, hwatch, hquiet, fun d hd g hg => ?_⟩⟩
    simpa using halone d hd g hg

/-- A word that fails an encoding check has no effect and raises cause 1. -/
theorem exec_illegal {w : Fields} (h : Claims.atTurn s c e = true) (hw : toFields i = some w) (hform : rdvFormOf i = none)
    (hd : encodingDetail (whereOf (s.core c) e) w ≠ 0) :
    exec i s = .next (Claims.raises s c e 1 (encodingDetail (whereOf (s.core c) e) w) 0) := by
  have hdetail : (turnFor s c e i).detail = encodingDetail (whereOf (s.core c) e) w := by simp only [turnFor, hw]
  have hfetched : (turnFor s c e i).fetched = true := rfl
  have hbad : (turnFor s c e i).bad = false := rfl
  obtain ⟨hiss, hregq, hturn⟩ := atTurn_cases h
  have hissue : issueWord i s = Claims.raises s c e 1 (encodingDetail (whereOf (s.core c) e) w) 0 := by
    obtain ⟨hready, hnt⟩ | ⟨ht, hfacts⟩ := hturn
    · rw [issueWord_untimed hiss hready, raises_untimed hnt]
      have hown : (turnFor s c e i).c = c ∧ (turnFor s c e i).e = e := ⟨rfl, rfl⟩
      simp [issueUntimed, hfetched, hbad, hdetail, hd, hown]
    · have hplan : turnPlan s (s.cluster c.cluster).clk (rdvMismatch s c.cluster [turnFor s c e i] (turnFor s c e i)) (turnFor s c e i) =
          planCause ((turnFor s c e i).ctx s (s.cluster c.cluster).clk) 1 (encodingDetail (whereOf (s.core c) e) w) 0 := by
        simp [turnPlan, hfetched, hbad, hdetail, hd]
      rw [raises_timed (i := i) ht]
      exact hfacts.traps (arrives_of_form_none hform).1 hplan rfl rfl rfl (show (1 : Nat) ≠ 11 by decide)
  rw [exec_word i s (by simp [hw]), hissue]
  exact done_of_regq ((raises_regq _ _ _).trans hregq)

/-! ### Causes of a word's own plan (R78, R98) -/

/-- A word whose plan is one cause raises it. -/
theorem exec_planCause {code detail : Nat} (h : issues s c e i = true) (hform : rdvFormOf i = none)
    (hp : planOf i (ctxOf s c e i) = planCause (ctxOf s c e i) code detail 0) (hcode : code ≠ 11) :
    exec i s = .next (Claims.raises s c e code (if code = 2 ∧ e ≠ .ap then 0 else detail) 0) := by
  obtain ⟨hturn, hhead⟩ := issues_iff.mp h
  have hbehind : planBehind s c e i = planCause (ctxOf s c e i) code detail 0 := (planBehind_go hhead).trans hp
  have hissue : issueWord i s = Claims.raises s c e code (if code = 2 ∧ e ≠ .ap then 0 else detail) 0 := by
    obtain ⟨hun, hnt⟩ | ⟨hti, ht⟩ := turn_cases hturn
    · rw [issueWord_untimedTurn hun, raises_untimed hnt, hbehind]
      rfl
    · have hfacts := tickFacts_of_timed hti
      obtain ⟨harr, hmis⟩ := arrives_of_form_none (s := s) (c := c) (e := e) hform
      rw [raises_timed (i := i) ht]
      refine hfacts.traps harr (p := planCause (ctxOf s c e i) code detail 0) ?_ rfl rfl rfl hcode
      rw [hmis, turnPlan_self s c e i _ (timedTurn_facts hti).word]
      exact hbehind
  rw [exec_word i s (toFields_of_turn hturn), hissue]
  exact done_of_regq ((raises_regq _ _ _).trans (regq_of_issues h))

/-- A stream that holds no privilege (R78). -/
theorem streamPriv_false (ht : inTrap (s.core c) e = false) (hp : (s.core c).csr.priv = false ∨ inIntr (s.core c) e = true) :
    streamPriv (ctxOf s c e i) = false := by
  simp only [streamPriv, ctxOf_core, ctxOf_e, ht, Bool.false_or]
  obtain hp | hp := hp <;> simp [hp]

theorem csrPrivileged_of_mem {n : Nat} (h : n ∈ [0x041, 0x044, 0x045, 0x04A, 0x04E]) : csrPrivileged n = true := by
  simp only [List.mem_cons, List.not_mem_nil, or_false] at h
  obtain rfl | rfl | rfl | rfl | rfl := h <;> rfl

/-- A write of a privileged CSR by a stream that holds no privilege is one cause. -/
theorem planCsrWrite_unprivileged {op : CsrOp} {f : Fld} {save : Nat → State → State} (ha : pendingReg (s.core c) e f.a = false)
    (hw : csrWrites s c e f op = true) (hn : csrPrivileged (immBits f 0 12) = true) (hs : streamPriv (ctxOf s c e i) = false) :
    planCsrWrite save op f (ctxOf s c e i) = planCause (ctxOf s c e i) 2 2 0 := by
  have hlate : lateReg (ctxOf s c e i) f.a = [] := lateReg_nil ha
  have hif : (csrWrites s c e f op && csrPrivileged (immBits f 0 12) && !streamPriv (ctxOf s c e i)) = true := by simp [hw, hn, hs]
  refine (if_pos hif).trans ?_
  rw [hlate]
  rfl

end Raise

/-! ### Double traps (R123) -/

/-- The bits of TCAUSE at a double trap. -/
theorem tcause_doubleTrap (c : CoreId) (code : Nat) (s : State) (b : Nat) (hb : b < 64) :
    ((doubleTrap c code s).core c).trap.tcause.getLsbD b =
      ((s.core c).trap.tcause.getLsbD b || decide (b = 62) || (decide (4 ≤ b) && decide (b < 8) && code.testBit (b - 4))) := by
  have hone : (1 : W64).getLsbD (b - 62) = decide (b - 62 = 0) := by simp
  have hbit : (BitVec.ofNat 64 (code % 16)).getLsbD (b - 4) = (decide (b - 4 < 4) && code.testBit (b - 4)) := by
    rw [show 16 = 2 ^ 4 from rfl, BitVec.getLsbD_ofNat, Nat.testBit_mod_two_pow, decide_eq_true (show b - 4 < 64 by omega), Bool.true_and]
  rw [doubleTrap_core]
  simp only [BitVec.getLsbD_or, BitVec.getLsbD_shiftLeft, hone, hbit, hb, decide_true, Bool.true_and]
  congr 1
  · congr 1
    rw [Bool.eq_iff_iff]
    simp only [Bool.and_eq_true, Bool.not_eq_true', decide_eq_false_iff_not, decide_eq_true_eq]
    omega
  · rw [← Bool.and_assoc]
    congr 1
    rw [Bool.eq_iff_iff]
    simp only [Bool.and_eq_true, Bool.not_eq_true', decide_eq_false_iff_not, decide_eq_true_eq]
    omega

/-- DCAUSE takes the code of a double trap where it held 0. -/
theorem dcause_doubleTrap {c : CoreId} {code : Nat} {s : State} (h0 : (s.core c).trap.tcause.extractLsb' 4 4 = 0) :
    ((doubleTrap c code s).core c).trap.tcause.extractLsb' 4 4 = BitVec.ofNat 4 code := by
  refine BitVec.eq_of_getLsbD_eq fun j hj => ?_
  have hbit := congrArg (BitVec.getLsbD · j) h0
  simp only [BitVec.getLsbD_extractLsb', hj, decide_true, Bool.true_and] at hbit
  have h62 : decide (4 + j = 62) = false := decide_eq_false (by omega)
  rw [BitVec.getLsbD_extractLsb', tcause_doubleTrap c code s _ (by omega), hbit, h62, BitVec.getLsbD_ofNat]
  simp [hj, show 4 + j < 8 by omega]

/-! ### Late guards (R37, R38, R40) -/

/-- A count of cycles goes on by one until it is full. -/
theorem slipUp_toNat (x : W64) : (slipUp x).toNat = min (x.toNat + 1) (2 ^ 64 - 1) := by
  unfold slipUp
  split
  · next h => subst h; rfl
  · next h =>
    have hlt : x.toNat ≠ 2 ^ 64 - 1 := fun he => h (BitVec.eq_of_toNat_eq he)
    have hx := x.isLt
    rw [BitVec.toNat_add, Nat.mod_eq_of_lt (by simp; omega)]
    simp
    omega

/-- A cluster at the end of a cycle frozen by a late operand. -/
def frozenBy (l : Late) (y : Cluster) : Cluster :=
  { y with
    tried := true, slip := slipUp y.slip
    freeze := some (match y.freeze with
      | some f => { f with cyc := f.cyc + 1, run := f.run + 1 }
      | none => { cyc := 1, run := 1, kind := l.kind, eng := l.t.e, core := l.t.c.inCluster, pitch := l.t.name.1, word := l.t.name.2 }) }

/-- With no limit to the length of a freeze, a frozen cycle is counted and no more. -/
theorem freezeCycle_unlimited {s : State} {k : ClusterId} (h : (s.cluster k).frzlim = 0) (l : Late) :
    freezeCycle k l s = s.modCluster k (frozenBy l) := by
  have hlimit : limitTrap k s = none := by
    unfold limitTrap
    split
    · exact if_neg fun hh => hh.1 h
    · rfl
  simp only [freezeCycle, hlimit]
  rfl

section LateGuard

variable {s : State} {c : CoreId} {e : Engine} {i : Instr} {w : Fields} (h : timedTurn s c e i = true) (hw : toFields i = some w)
  (hform : rdvFormOf i = none) (hself : selfGuarded i = false) (hlate : guardLate (s.core c) e w.f.h = true)
include h hw hform hself hlate

/-- The plan of a word whose guard is not written. -/
theorem turnPlan_lateGuard : turnPlan s (s.cluster c.cluster).clk
    (rdvMismatch s c.cluster [turnFor s c e i] (turnFor s c e i)) (turnFor s c e i) = { lates := [(3, 0x90 + w.f.h.g.toNat)] } := by
  have hlate' : guardLate ((turnFor s c e i).ctx s (s.cluster c.cluster).clk).core ((turnFor s c e i).ctx s (s.cluster c.cluster).clk).e
      w.f.h = true := hlate
  rw [(arrives_of_form_none hform).2, turnPlan_self s c e i _ (timedTurn_facts h).word]
  simp only [guarded, hw, hself, hlate', Bool.false_eq_true, if_false, if_true]

/-- In strict mode an unwritten guard is a cause (R38). -/
theorem exec_lateGuard_strict (hstrict : (s.core c).csr.strict = true) :
    exec i s = .next (Claims.raises s c e 3 3 (0x90 + w.f.h.g.toNat)) := by
  have hissue : issueWord i s = Claims.raises s c e 3 3 (0x90 + w.f.h.g.toNat) := by
    rw [raises_timed (i := i) (timedAt_of_timedTurn h)]
    refine (tickFacts_of_timed h).traps (arrives_of_form_none hform).1 (turnPlan_lateGuard h hw hform hself hlate) rfl rfl ?_ (show (3 : Nat) ≠ 11 by decide)
    have hall : strictCore s c = true := hstrict
    simp only [hall]
    rfl
  rw [exec_word i s (by simp [hw]), hissue]
  exact done_of_regq ((raises_regq _ _ _).trans (timedTurn_facts h).regq)

/-- In gated mode an unwritten guard freezes the cycle (R37, R40). -/
theorem exec_lateGuard_gated (hgated : (s.core c).csr.strict = false) (hlim : (s.cluster c.cluster).frzlim = 0) :
    exec i s = .next (s.modCluster c.cluster (frozenBy { t := turnFor s c e i, kind := 3, obj := 0x90 + w.f.h.g.toNat })) := by
  have hfacts := tickFacts_of_timed h
  have hq : QuietDraft (soloDraft s c e i { lates := [(3, 0x90 + w.f.h.g.toNat)] }) c.cluster s := hfacts.quietDraft_id rfl rfl
  have hlist : strictCore s c = false := hgated
  have hnone (d) (hd : d ∈ c.cluster.cores) : (soloDraft s c e i { lates := [(3, 0x90 + w.f.h.g.toNat)] }).causes s c.cluster d = [] := by
    by_cases hdc : d = c
    · subst hdc
      rw [soloDraft_causes_own hq]
      simp [hlist]
    · exact soloDraft_causes_other hq hd hdc
  rw [exec_word i s (by simp [hw]),
    hfacts.issueWord_eq (arrives_of_form_none hform).1 (turnPlan_lateGuard h hw hform hself hlate),
    decideTick_freeze _ _ _ _ _ hnone rfl, freezeCycle_unlimited hlim]
  exact done_of_regq (timedTurn_facts h).regq

end LateGuard

/-- Settles O40: where the exceptions of words go, and what a late guard does in each mode. -/
theorem wordRaises : Obligations.WordRaises := by
  refine ⟨fun s c e i w h hw hform hd => exec_illegal h hw hform hd, fun w hw s c e f h hready ht hp hn hwr => ?csr,
    fun s c e fn f h hfn ht hp => ?cop, fun s c f h hhead => ?tret, fun s c code hlo hhi h0 => ?double,
    fun s c e i w h hw hform hself hlate => ⟨exec_lateGuard_strict h hw hform hself hlate, fun hgated hlim => ?gated⟩⟩
  case csr =>
    obtain ⟨hform, hplan, -⟩ := csrWords_cases hw f
    have hwrites : csrWrites s c e f w.2.1 = true := by simpa [csrWrites] using hwr
    have hcause : planOf (w.1 f) (ctxOf s c e (w.1 f)) = planCause (ctxOf s c e (w.1 f)) 2 2 0 := by
      rw [hplan]
      exact planCsrWrite_unprivileged (pending_of_regsReady hready (by simp)) hwrites (csrPrivileged_of_mem hn) (streamPriv_false ht hp)
    rw [exec_planCause h hform hcause (by decide)]
    by_cases he : e = .ap <;> simp [he]
  case cop =>
    have hcause : planOf (.cop fn f) (ctxOf s c e (.cop fn f)) = planCause (ctxOf s c e (.cop fn f)) 2 3 0 :=
      if_pos (by simp [hfn, streamPriv_false ht hp])
    rw [exec_planCause h rfl hcause (by decide)]
    by_cases he : e = .ap <;> simp [he]
  case tret =>
    have hissues : issues s c .lead (.tret f) = true := issues_iff.mpr ⟨by simp [hasTurn, h], hhead⟩
    have hout : inTrap (s.core c) .lead = false := (timedTurn_facts h).noTrap
    have hcause : planOf (.tret f) (ctxOf s c .lead (.tret f)) = planCause (ctxOf s c .lead (.tret f)) 2 0 0 := by
      refine if_neg ?_
      simp [hout]
    exact (exec_planCause hissues rfl hcause (by decide)).trans (by simp)
  case double =>
    have hcore := doubleTrap_core c code s
    refine ⟨?_, dcause_doubleTrap h0, by rw [hcore], fun b hb hne hout => ?_, by rw [hcore], by rw [hcore], by rw [hcore],
      fun d hd => doubleTrap_other code s hd, doubleTrap_clusters c code s, notice_mgt _ (by decide), sameMemory_of ?_ ?_ ?_⟩
    · rw [tcause_doubleTrap c code s 62 (by decide)]
      simp
    · rw [tcause_doubleTrap c code s b hb]
      have hfield : (decide (4 ≤ b) && decide (b < 8)) = false := by
        simp
        omega
      simp [hne, hfield]
    · exact notice_mem _ _
    · exact notice_l2 _ _
    · exact notice_keys _ _
  case gated =>
    refine ⟨_, exec_lateGuard_gated h hw hform hself hlate hgated hlim, rfl, rfl, ?_, ?_, fun k hk =>
      State.cluster_modCluster_other _ _ _ _ hk, ?_, fun hnone => ?_⟩
    · rw [State.cluster_modCluster_same]
      rfl
    · rw [State.cluster_modCluster_same]
      exact slipUp_toNat _
    · rw [State.cluster_modCluster_same]
      cases hf : (s.cluster c.cluster).freeze <;> simp [frozenBy, hf]
    · rw [State.cluster_modCluster_same, frozenBy, hnone]
      exact ⟨_, rfl, rfl, rfl, rfl⟩

end Sys2Proof.Proofs.Raises
end

section
/-! PROOFS. The registers at reset (R41, R125, R130, R183, R193, R365, R367, R400, R423, R448). -/

namespace Sys2Proof.Proofs.ResetValues

open Sys2Proof Sys2Proof.Machine Sys2Proof.Claims Sys2Proof.Proofs.Registers

/-- An entry of a vector whose entries are all the same, or beyond its end. -/
theorem vget_replicate {α : Type} (n i : Nat) (a : α) : vget (Vector.replicate n a) i a = a := by
  unfold vget
  by_cases h : i < n <;> simp [h]

/-! ### The CSRs of a core -/

theorem core_reset (c : CoreId) : State.reset.core c = Core.reset := Vector.getElem_replicate c.isLt

theorem cluster_reset (k : ClusterId) : State.reset.cluster k = Cluster.reset := Vector.getElem_replicate k.isLt

theorem tickOf_reset (c : CoreId) : tickOf State.reset c = 0 := by
  simp only [tickOf, core_reset]
  rfl

/-- Every CSR of every core but PRET and SFPATH reads zero at reset, in every engine. -/
theorem csrValue_reset (c : CoreId) (e : Engine) {n : Nat} (h : n ≠ 0x047) (hpath : n ≠ 0x068) : csrValue State.reset c e n = 0 := by
  unfold csrValue
  simp only [core_reset, cluster_reset, tickOf_reset]
  split
  case h_8 => exact absurd rfl h
  case h_33 => exact absurd rfl hpath
  case h_16 | h_17 | h_18 => exact ite_self 0
  all_goals rfl

theorem csrValue_reset_pret (c : CoreId) (e : Engine) : csrValue State.reset c e 0x047 = 2 ^ 60 - 1 := by
  simp only [csrValue, core_reset]
  decide +kernel

/-! ### The device region -/

theorem reg_reset {off : Nat} {r : Reg} (h : regAt (0x40000000000 + off) = r) : Claims.reg State.reset off = regValue State.reset r := by
  rw [claimsReg_eq h, regRead_powered r rfl]

/-- The word `w` of a port's registers. -/
theorem regAt_ropeWord (p : Fin 24) (w : Nat) (hw : w < 3) : regAt (0x40000000000 + (0x20000 + 0x40 * p.val + 8 * w)) = .rope p w := by
  have h := fileAt_element 0x20000 0x40 24 p (8 * w) p.isLt (by omega)
  rw [regAt_offset _ (by omega), regSingle_none _ (by omega)]
  simp [regFile, h, show 8 * w < 24 by omega]

/-- The word `w` of a slot's registers. -/
theorem regAt_slotWord (i : Fin 256) (w : Nat) (hw : w < 3) : regAt (0x40000000000 + (0x60000 + 0x20 * i.val + 8 * w)) = .slot i w := by
  have h := fileAt_element 0x60000 0x20 256 i (8 * w) i.isLt (by omega)
  rw [regAt_offset _ (by omega), regSingle_none _ (by omega)]
  simp (disch := omega) [regFile, h, fileAt_outside, show 8 * w < 24 by omega]

/-- No register stands alone among the registers of the functions. -/
theorem regSingle_sessions {off : Nat} (h : 0x62000 < off ∧ off < 0x82000) : regSingle off = none := by
  unfold regSingle
  split <;> simp only [reduceCtorEq] <;> omega

/-- TSESS of a function. -/
theorem regAt_tsess (v : Fin 128) : regAt (0x40000000000 + (0x80000 + 0x40 * v.val)) = .tsess v 0 := by
  have h : fileAt (0x80000 + 0x40 * v.val) 0x80000 0x40 128 = some (v.val, 0) := fileAt_element 0x80000 0x40 128 v 0 v.isLt (by decide)
  rw [regAt_offset _ (by omega), regSingle_sessions (by omega)]
  simp (disch := omega) [regFile, h, fileAt_outside]

theorem port_reset (p : Fin 24) : State.reset.fabric.ports[p] = Port.reset := Vector.getElem_replicate p.isLt
theorem peer_reset (j : Fin 16) : State.reset.fabric.peers[j] = Peer.reset := Vector.getElem_replicate j.isLt
theorem campSlot_reset (i : Fin 256) : campSlot State.reset i = Slot.reset := Vector.getElem_replicate i.isLt

/-- ROPECTL, ROPEERR and ROPECNT of every port read zero. -/
theorem ropeValue_reset (p : Fin 24) (w : Nat) : regValue State.reset (.rope p w) = 0 := by
  have h : regValue State.reset (.rope p w) = ropeValue Port.reset w := congrArg (ropeValue · w) (port_reset p)
  rw [h]
  unfold ropeValue
  split <;> decide

/-- Every peer entry reads zero. -/
theorem peerValue_reset (j : Fin 16) (w : Nat) : regValue State.reset (.peer j w) = 0 := by
  have h : regValue State.reset (.peer j w) = peerValue Peer.reset w := congrArg (peerValue · w) (peer_reset j)
  rw [h]
  unfold peerValue
  split <;> decide

theorem slotValue_reset (i : Fin 256) (w : Nat) : regValue State.reset (.slot i w) = slotValue Slot.reset w :=
  congrArg (slotValue · w) (campSlot_reset i)

/-- TSESS of every function holds the rekeying count 32 and no session. -/
theorem tsessValue_reset (v : Fin 128) : regValue State.reset (.tsess v 0) = 32 * 2 ^ 52 := by
  have h : regValue State.reset (.tsess v 0) = tsessValue State.reset v.val := rfl
  rw [h, tsessValue, session, show State.reset.tether.sess = Vector.replicate 128 Session.reset from rfl, vget_replicate]
  decide

/-- Settles O7: the registers at reset, file by file. -/
theorem resetState : Obligations.ResetState := by
  refine ⟨fun c e => ⟨csrValue_reset_pret c e, fun n hn => csrValue_reset c e (fun h => ?_) fun h => ?_⟩, ?_, fun p hp r hr => ?_, fun j hj r hr => ?_,
    fun i hi => ⟨?_, ?_⟩, fun v hv => ?_, memOk_reset, rfl⟩
  · subst h
    exact absurd hn (by decide)
  · subst h
    exact absurd hn (by decide)
  · decide
  · rw [reg_reset (regAt_ropeWord ⟨p, hp⟩ r hr), ropeValue_reset]
  · rw [Nat.add_right_comm, reg_reset (regAt_peer ⟨j, hj⟩ r hr), peerValue_reset]
  · rw [reg_reset (regAt_slotq ⟨i, hi⟩), slotValue_reset]
    decide
  · rw [show 0x60008 + 0x20 * i = 0x60000 + 0x20 * i + 8 * 1 by omega, reg_reset (regAt_slotWord ⟨i, hi⟩ 1 (by decide)), slotValue_reset]
    decide
  · rw [reg_reset (regAt_tsess ⟨v, hv⟩), tsessValue_reset]

end Sys2Proof.Proofs.ResetValues
end

section
/-! PROOFS. What operations read and what latches write (R44, R86, R252, R253). -/

namespace Sys2Proof.Proofs.Sources

open Sys2Proof Sys2Proof.Machine Sys2Proof.Claims

/-! ### Classes of register codes -/

theorem regClass_v : ∀ {code : RegCode}, regClass code.toNat = some .v → 0x40 ≤ code.toNat ∧ code.toNat < 0x60 := by decide +kernel

theorem regClass_k : ∀ {code : RegCode}, regClass code.toNat = some .k → 0x60 ≤ code.toNat ∧ code.toNat < 0x68 := by decide +kernel

/-! ### Packed elements (R252) -/

/-- A bit of packed elements is a bit of one of them. -/
theorem testBit_packNat {n : Nat} (hn : 0 < n) (l : List Nat) (k : Nat) : (packNat n l).testBit k = (l.getD (k / n) 0).testBit (k % n) := by
  induction l generalizing k with
  | nil => simp [packNat]
  | cons x r ih =>
    rw [packNat, Nat.add_comm, Nat.testBit_two_pow_mul_add _ (Nat.mod_lt _ (Nat.two_pow_pos n))]
    split
    next hk => simp [Nat.div_eq_of_lt hk, Nat.mod_eq_of_lt hk, hk]
    next hk =>
      have hle : n ≤ k := Nat.le_of_not_lt hk
      have hdiv : k / n = (k - n) / n + 1 := by rw [Nat.div_eq_sub_div hn hle]
      rw [ih, hdiv, List.getD_cons_succ, Nat.mod_eq_sub_mod hle]

/-- A bit of a word repeated. -/
theorem testBit_packNat_replicate {n : Nat} (hn : 0 < n) (m x : Nat) {k : Nat} (hk : k < n * m) :
    (packNat n (List.replicate m x)).testBit k = x.testBit (k % n) := by
  have hlt : k / n < m := Nat.div_lt_of_lt_mul hk
  rw [testBit_packNat hn]
  simp [List.getD_eq_getElem?_getD, hlt]

/-- A splat holds the low part of its value in every part of every element. -/
theorem splat_part {n : Nat} (hn : n = 32 ∨ n = 16 ∨ n = 8) (v : W64) {j : Nat} (hj : j < 8192 / n) :
    (splatQuarter (splatWord n v.toNat)).extractLsb' (n * j) n = v.setWidth n := by
  have hpos : 0 < n := by omega
  have hdvd : n ∣ 32 := by obtain rfl | rfl | rfl := hn <;> decide
  have hfull : n * (32 / n) = 32 := Nat.mul_div_cancel' hdvd
  refine BitVec.eq_of_getLsbD_eq fun i hi => ?_
  have hk : n * j + i < 8192 := by
    obtain rfl | rfl | rfl := hn <;> omega
  have hmod : (n * j + i) % 32 % n = i := by
    rw [Nat.mod_mod_of_dvd _ hdvd, Nat.mul_add_mod, Nat.mod_eq_of_lt hi]
  simp only [BitVec.getLsbD_extractLsb', splatQuarter, quarterOf, BitVec.getLsbD_ofNat, hi, hk, decide_true, Bool.true_and]
  rw [testBit_packNat_replicate (by decide) 256 _ hk, splatWord,
    testBit_packNat_replicate hpos _ _ (Nat.lt_of_lt_of_eq (Nat.mod_lt _ (by decide)) hfull.symm), hmod, BitVec.getLsbD_setWidth,
    Nat.testBit_mod_two_pow]
  rfl

/-! ### Sources (R253) -/

theorem fieldSource_s {k : Ctx} {n : Nat} {code : RegCode} (h : regClass code.toNat = some .s) : fieldSource k n code =
    { src := 0, bound := List.replicate 4 (splatQuarter (splatWord n (readReg k.core k.e code).toNat)), pop := none } := by
  simp only [fieldSource, h]

theorem fieldSource_q {k : Ctx} {n : Nat} {code : RegCode} (h : regClass code.toNat = some .q) {y : LqEntry}
    (hy : queueHead k.core (code.toNat - 0x68) = some y) : fieldSource k n code =
    { src := 0, bound := (List.range 4).map (imgQuarter y.img), pop := some (code.toNat - 0x68) } := by
  simp only [fieldSource, h, hy, Option.map_some, Option.getD_some]

theorem fieldSource_v {k : Ctx} {n : Nat} {code : RegCode} (h : regClass code.toNat = some .v) :
    fieldSource k n code = { src := physV k.core k.e code.toNat, bound := [], pop := none } := by
  simp only [fieldSource, h]

theorem fieldSource_k {k : Ctx} {n : Nat} {code : RegCode} (h : regClass code.toNat = some .k) :
    fieldSource k n code = { src := code.toNat, bound := [], pop := none } := by
  simp only [fieldSource, h]

/-! ### Landings (R86, R253) -/

/-- A bit of a word with a slice replaced. -/
theorem getLsbD_setSlice {w n : Nat} (x : BitVec w) (lo : Nat) (v : BitVec n) (hn : lo + n ≤ w) {j : Nat} (hj : j < w) :
    (setSlice x lo v).getLsbD j = if lo ≤ j ∧ j < lo + n then v.getLsbD (j - lo) else x.getLsbD j := by
  have hmask : ((BitVec.allOnes n).setWidth w <<< lo).getLsbD j = decide (lo ≤ j ∧ j < lo + n) := by
    rw [Bool.eq_iff_iff]
    simp only [BitVec.getLsbD_shiftLeft, BitVec.getLsbD_setWidth, BitVec.getLsbD_allOnes, Bool.and_eq_true, Bool.not_eq_true',
      decide_eq_false_iff_not, decide_eq_true_eq]
    omega
  have hput : (v.setWidth w <<< lo).getLsbD j = (decide (lo ≤ j) && v.getLsbD (j - lo)) := by
    rw [BitVec.getLsbD_shiftLeft, BitVec.getLsbD_setWidth]
    by_cases h : lo ≤ j <;> simp [h, hj, show j - lo < w by omega]
  rw [setSlice, BitVec.getLsbD_or, BitVec.getLsbD_and, BitVec.getLsbD_not, hmask, hput]
  split
  next h => simp [h, hj]
  next h =>
    by_cases hlo : lo ≤ j
    · have hout : v.getLsbD (j - lo) = false := BitVec.getLsbD_of_ge _ _ (by omega)
      simp [h, hj, hout]
    · simp [hlo, hj]

/-- A latch of a v register writes its quarter. -/
theorem landLatch_v {l : Latch} (x : Core) (h : regClass l.code.toNat = some .v) : landLatch l x = { x with
    vec := { x.vec with v := vset x.vec.v (4 * (l.code.toNat - 0x40) + l.q) l.val }
    vecBad := sput false x.vecBad (4 * l.code.toNat + l.q) false } := by
  simp only [landLatch, h]

/-- A latch of a k register writes its quarter. -/
theorem landLatch_k {l : Latch} (x : Core) (h : regClass l.code.toNat = some .k) : landLatch l x = { x with
    vec := { x.vec with
      k := vset x.vec.k (l.code.toNat - 0x60) (setSlice (vget x.vec.k (l.code.toNat - 0x60) 0) (256 * l.q) (l.val.setWidth 256)) }
    vecBad := sput false x.vecBad (4 * l.code.toNat + l.q) false } := by
  simp only [landLatch, h]

/-- Settles O27: sources by class, landings by class, and renaming. -/
theorem sourcesAndLandings : Obligations.SourcesAndLandings := by
  refine ⟨⟨fun k n code q hq hn => ⟨fun h => ?s, fun y h hy => ?q, fun h => ?v, fun h => ?k⟩,
    fun x o now q code hq => ⟨fun h => ?readV, fun h j hj => ?readK⟩⟩,
    fun l x h hq => ?landV, fun l x h hq => ?landK, fun x e i hi => ?rename⟩
  case s =>
    rw [fieldSource_s h]
    exact ⟨rfl, rfl, _, List.getElem?_replicate_of_lt hq, fun j hj => splat_part hn _ hj⟩
  case q =>
    rw [fieldSource_q h hy]
    exact ⟨rfl, rfl, by simp [hq, imgQuarter]⟩
  case v =>
    rw [fieldSource_v h]
    exact ⟨rfl, rfl, rfl⟩
  case k =>
    rw [fieldSource_k h]
    exact ⟨rfl, rfl, rfl⟩
  case readV => simp only [readSource, h]
  case readK =>
    simp only [readSource, h, BitVec.getLsbD_setWidth, BitVec.getLsbD_extractLsb']
    simp [hj, show j < 8192 by omega]
  case landV =>
    obtain ⟨hlo, hhi⟩ := regClass_v h
    rw [landLatch_v x h]
    exact ⟨vget_vset_same _ _ _ _ (by omega), fun i _ hne => vget_vset_other _ _ _ _ _ hne, rfl, rfl⟩
  case landK =>
    obtain ⟨hlo, hhi⟩ := regClass_k h
    rw [landLatch_k x h]
    refine ⟨fun j hj => ?_, fun i _ hne => vget_vset_other _ _ _ _ _ hne, rfl, rfl⟩
    rw [vget_vset_same _ _ _ _ (by omega), getLsbD_setSlice _ _ _ (by omega) hj, BitVec.getLsbD_setWidth]
    by_cases hj' : j / 256 = l.q
    · rw [if_pos hj', if_pos (by omega)]
      simp [show j - 256 * l.q = j % 256 by omega, Nat.mod_lt]
    · rw [if_neg hj', if_neg (by omega)]
  case rename =>
    constructor
    · rw [physV, if_pos (by omega)]
      simp
    · rw [physV, if_neg (by omega)]

end Sys2Proof.Proofs.Sources
end

section
/-! PROOFS. Records that a unit of the package writes to memory, and what reads of memory give after them (R120, R127, R441). -/

namespace Sys2Proof.Proofs.Device

open Sys2Proof Sys2Proof.Machine

/-! ### Bytes -/

@[simp] theorem length_bytesOfNat (n x : Nat) : (bytesOfNat n x).length = n := by
  induction n generalizing x with
  | zero => rfl
  | succ n ih => simp [bytesOfNat, ih]

/-- The bytes of a number of two parts, the low one first. -/
theorem bytesOfNat_append (m n x y : Nat) (hx : x < 256 ^ m) : bytesOfNat (m + n) (x + 256 ^ m * y) = bytesOfNat m x ++ bytesOfNat n y := by
  induction m generalizing x with
  | zero =>
    have h0 : x = 0 := by simpa using hx
    simp [h0, bytesOfNat]
  | succ m ih =>
    have hsplit : x + 256 ^ (m + 1) * y = x + 256 * (256 ^ m * y) := by rw [Nat.pow_succ]; ring
    have hlow : BitVec.ofNat 8 (x + 256 * (256 ^ m * y)) = BitVec.ofNat 8 x := by
      refine BitVec.eq_of_toNat_eq ?_
      simp only [BitVec.toNat_ofNat]
      omega
    have hhigh : (x + 256 * (256 ^ m * y)) / 256 = x / 256 + 256 ^ m * y := by omega
    have hdiv : x / 256 < 256 ^ m := Nat.div_lt_of_lt_mul (by rw [Nat.mul_comm]; exact hx)
    rw [Nat.add_right_comm, bytesOfNat, hsplit, hlow, hhigh, ih _ hdiv]
    rfl

theorem testBit_natOfBytes (l : List Byte) (k : Nat) : (natOfBytes l).testBit k = (l.getD (k / 8) 0).getLsbD (k % 8) := by
  induction l generalizing k with
  | nil => simp [natOfBytes]
  | cons b r ih =>
    have hb : b.toNat < 2 ^ 8 := b.isLt
    rw [natOfBytes, Nat.add_comm, show 256 = 2 ^ 8 from rfl, Nat.testBit_two_pow_mul_add _ hb]
    split
    next hk => simp [Nat.div_eq_of_lt hk, Nat.mod_eq_of_lt hk, BitVec.testBit_toNat]
    next hk =>
      have hdiv : k / 8 = (k - 8) / 8 + 1 := by omega
      have hmod : k % 8 = (k - 8) % 8 := by omega
      rw [ih, hdiv, List.getD_cons_succ, hmod]

/-- Byte `i` of a line made of bytes. -/
theorem rowByte_rowOf (l : List Byte) {i : Nat} (hi : i < 128) : rowByte (rowOf l) i = l.getD i 0 := by
  refine BitVec.eq_of_getLsbD_eq fun j hj => ?_
  have hdiv : (8 * i + j) / 8 = i := by omega
  have hmod : (8 * i + j) % 8 = j := by omega
  simp only [rowByte, rowOf, bvOfBytes, BitVec.getLsbD_extractLsb', BitVec.getLsbD_ofNat, hj, show 8 * i + j < 1024 by omega,
    decide_true, Bool.true_and, testBit_natOfBytes, hdiv, hmod]

/-- A byte of a line at its HBM controller. -/
theorem rowByte_hbmRow (s : State) (a : Nat) : rowByte (hbmRow s (a / 128)) (a % 128) = sget 0 s.mem.hbm a := by
  have hlt : a % 128 < 128 := Nat.mod_lt _ (by decide)
  rw [hbmRow, rowByte_rowOf _ hlt, sgets_eq]
  simp [List.getD_eq_getElem?_getD, hlt, Nat.div_add_mod]

/-! ### Reads of a unit of the package -/

theorem deviceBytes_append (s : State) (v : World) (a m n : Nat) :
    deviceBytes s v a (m + n) = deviceBytes s v a m ++ deviceBytes s v (a + m) n := by
  induction m generalizing a with
  | zero => simp [deviceBytes]
  | succ m ih =>
    rw [Nat.add_right_comm, deviceBytes, deviceBytes, ih (a + 1), Nat.add_assoc, Nat.add_comm 1 m]
    rfl

theorem deviceBytes_congr {s t : State} (hm : t.mem = s.mem) (hk : t.keys = s.keys) (v : World) (a n : Nat) :
    deviceBytes t v a n = deviceBytes s v a n := by
  have hline : ∀ line, hbmLineFor t v line = hbmLineFor s v line := by
    intro line
    simp only [hbmLineFor, hbmRow, keyNum, keyAt, hm, hk]
    rfl
  induction n generalizing a with
  | zero => rfl
  | succ n ih => simp only [deviceBytes, hline, hm, ih]

/-- Bytes of HBM lines that stand under the reader's key. -/
theorem deviceBytes_hbm {s : State} {v : World} {a : Nat} {l : List Byte} (hin : ∀ i < l.length, inHost (a + i) = false)
    (hkey : ∀ i < l.length, sget 0 s.mem.lineKey ((a + i) / 128) = keyNum s v) (hb : ∀ i < l.length, sget 0 s.mem.hbm (a + i) = l.getD i 0) :
    deviceBytes s v a l.length = l := by
  induction l generalizing a with
  | nil => rfl
  | cons b r ih =>
    have h0 : 0 < (b :: r).length := Nat.succ_pos _
    have hline : hbmLineFor s v (a / 128) = (hbmRow s (a / 128), false) := if_pos (hkey 0 h0)
    have hshift : ∀ i, a + (i + 1) = a + 1 + i := fun i => by omega
    have hrest := ih (a := a + 1) (fun i hi => by rw [← hshift]; exact hin _ (Nat.succ_lt_succ hi))
      (fun i hi => by rw [← hshift]; exact hkey _ (Nat.succ_lt_succ hi))
      (fun i hi => by rw [← hshift]; exact (hb _ (Nat.succ_lt_succ hi)).trans List.getD_cons_succ)
    rw [List.length_cons, deviceBytes, hrest, show inHost a = false from hin 0 h0, hline]
    exact congrArg (· :: r) ((rowByte_hbmRow s a).trans (hb 0 h0))

/-- Bytes of host memory. -/
theorem deviceBytes_inHost {s : State} {v : World} {a : Nat} {l : List Byte} (hin : ∀ i < l.length, inHost (a + i) = true)
    (hb : ∀ i < l.length, sget 0 s.mem.host (a - 0x8_0000_0000_0000 + i) = l.getD i 0) : deviceBytes s v a l.length = l := by
  induction l generalizing a with
  | nil => rfl
  | cons b r ih =>
    have h0 : 0 < (b :: r).length := Nat.succ_pos _
    have ha : inHost a = true := hin 0 h0
    have hlo : 0x8_0000_0000_0000 ≤ a := by
      simp only [inHost, Bool.and_eq_true, decide_eq_true_eq] at ha
      exact ha.1
    have hrest := ih (a := a + 1) (fun i hi => by rw [Nat.add_assoc, Nat.add_comm 1 i]; exact hin _ (Nat.succ_lt_succ hi))
      (fun i hi => by
        rw [show a + 1 - 0x8_0000_0000_0000 + i = a - 0x8_0000_0000_0000 + (i + 1) by omega]
        exact (hb _ (Nat.succ_lt_succ hi)).trans List.getD_cons_succ)
    have hfirst := hb 0 h0
    rw [Nat.add_zero, List.getD_cons_zero] at hfirst
    rw [List.length_cons, deviceBytes, hrest, if_pos ha, hfirst]

/-! ### Lines claimed and evicted -/

theorem onlyMemory_evictLines (lo hi : Nat) (s : State) : OnlyMemory s (evictLines lo hi s) :=
  onlyMemory_foldl _ _ s fun s f => onlyMemory_foldl _ _ s fun s l => onlyMemory_evictLine s f l

theorem onlyMemory_keys {s t : State} (h : OnlyMemory s t) : t.keys = s.keys := by rw [h]

/-- The key of a line claimed for a world. -/
theorem claimLine_key (s : State) (v : World) (line : Nat) (h : s.memOk) :
    sget 0 (claimLine s v line).mem.lineKey line = keyNum s v := by
  unfold claimLine
  split
  · assumption
  · exact sget_sput_same 0 _ line _ ((Memory.wf_iff _).mp h.1).2.1

theorem claimLines_key {v : World} {n lo line : Nat} {s : State} (h : s.memOk) (hlo : lo ≤ line) (hhi : line < lo + n) :
    sget 0 (claimLines v lo n s).mem.lineKey line = keyNum s v := by
  induction n generalizing lo s with
  | zero => omega
  | succ n ih =>
    have hok := memOk_claimLine s v lo h
    have hnum : keyNum (claimLine s v lo) v = keyNum s v := by simp only [keyNum, claimLine_keys]
    rw [claimLines]
    by_cases hl : line = lo
    · subst hl
      have hrest : ∀ (m l : Nat) (u : State), line < l → sget 0 (claimLines v l m u).mem.lineKey line = sget 0 u.mem.lineKey line := by
        intro m
        induction m with
        | zero => intros; rfl
        | succ m ihm =>
          intro l u hlt
          rw [claimLines, ihm (l + 1) _ (by omega)]
          exact (lineAgree_claimLine line l v u (by omega)).key
      rw [hrest n (line + 1) _ (by omega), claimLine_key s v line h]
    · rw [ih hok (by omega) (by omega), hnum]

theorem lineAgree_claimLines (line : Nat) (v : World) (n : Nat) {lo : Nat} (s : State) (h : line < lo ∨ lo + n ≤ line) :
    LineAgree line s (claimLines v lo n s) := by
  induction n generalizing lo s with
  | zero => exact .refl line s
  | succ n ih => exact (lineAgree_claimLine line lo v s (by omega)).trans (ih _ (by omega))

theorem lineAgree_foldl {β : Type} (line : Nat) (f : State → β → State) (l : List β) (s : State)
    (hf : ∀ s, ∀ b ∈ l, LineAgree line s (f s b)) : LineAgree line s (l.foldl f s) := by
  induction l generalizing s with
  | nil => exact .refl line s
  | cons b r ih => exact (hf s b List.mem_cons_self).trans (ih _ fun s c hc => hf s c (List.mem_cons_of_mem _ hc))

theorem lineAgree_evictLines (line lo hi : Nat) (s : State) (h : line < lo ∨ hi < line) : LineAgree line s (evictLines lo hi s) := by
  refine lineAgree_foldl line _ _ s fun s f _ => lineAgree_foldl line _ _ s fun s l hl => lineAgree_evictLine line l s f ?_
  have hrange := (List.mem_filter.mp hl).2
  simp only [Bool.and_eq_true, decide_eq_true_eq] at hrange
  omega

/-! ### A block written (R127) -/

theorem sget_shift {α : Type} (d : α) (m : Sparse α) (a i : Nat) : sget d (m.map fun e => (a + e.1, e.2)) (a + i) = sget d m i := by
  induction m with
  | nil => rfl
  | cons e r ih =>
    obtain ⟨k, v⟩ := e
    simp only [List.map_cons, sget, Nat.add_left_cancel_iff, ih]

/-- The lines of a block made the writer's, before its bytes are put. -/
def blockClaimed (v : World) (a n : Nat) (s : State) : State :=
  claimLines v (a / 128) ((a + n - 1) / 128 - a / 128 + 1) (evictLines (a / 128) ((a + n - 1) / 128) s)

section Block

variable {v : World} {a n : Nat} (m : Sparse Byte) {s : State} (hn : n ≠ 0)
include hn

theorem deviceBlock_mem : (deviceBlock v a n m s).mem = { (blockClaimed v a n s).mem with
    hbm := ((blockClaimed v a n s).mem.hbm.filter fun e => decide (e.1 < a)) ++
      (m.filter fun e => decide (e.1 < n)).map (fun e => (a + e.1, e.2)) ++
      (blockClaimed v a n s).mem.hbm.filter fun e => decide (a + n ≤ e.1)
    poison := (blockClaimed v a n s).mem.poison.filter fun e => !(decide (a ≤ 64 * e.1) && decide (64 * e.1 + 64 ≤ a + n)) } := by
  rw [deviceBlock, if_neg hn]
  rfl

/-- The bytes of a block. -/
theorem deviceBlock_byte {i : Nat} (hi : i < n) : sget 0 (deviceBlock v a n m s).mem.hbm (a + i) = sget 0 m i := by
  rw [deviceBlock_mem m hn, sget_append_left, sget_append_right, sget_shift]
  · exact sget_filter_keep 0 _ m i fun _ => decide_eq_true hi
  · intro e he
    have hlt := of_decide_eq_true (List.mem_filter.mp he).2
    omega
  · intro e he
    have hge := of_decide_eq_true (List.mem_filter.mp he).2
    omega

/-- The bytes outside a block. -/
theorem deviceBlock_outside {x : Nat} (hx : x < a ∨ a + n ≤ x) :
    sget 0 (deviceBlock v a n m s).mem.hbm x = sget 0 (blockClaimed v a n s).mem.hbm x := by
  have hmid : ∀ e ∈ (m.filter fun e => decide (e.1 < n)).map fun e => (a + e.1, e.2), a ≤ e.1 ∧ e.1 < a + n := by
    intro e he
    obtain ⟨e', he', rfl⟩ := List.mem_map.mp he
    have hlt := of_decide_eq_true (List.mem_filter.mp he').2
    exact ⟨Nat.le_add_right _ _, Nat.add_lt_add_left hlt a⟩
  rw [deviceBlock_mem m hn]
  obtain hx | hx := hx
  · rw [sget_append_left, sget_append_left]
    · exact sget_filter_keep 0 _ _ x fun _ => decide_eq_true hx
    · intro e he
      have := hmid e he
      omega
    · intro e he
      have hge := of_decide_eq_true (List.mem_filter.mp he).2
      omega
  · rw [sget_append_right]
    · exact sget_filter_keep 0 _ _ x fun _ => decide_eq_true hx
    · intro e he
      obtain he | he := List.mem_append.mp he
      · have hlt := of_decide_eq_true (List.mem_filter.mp he).2
        omega
      · have := hmid e he
        omega

omit hn in
theorem deviceBlock_keys : (deviceBlock v a n m s).keys = s.keys := onlyMemory_keys (onlyMemory_deviceBlock v a n m s)

/-- The lines of a block stand under the writer's key. -/
theorem deviceBlock_key (h : s.memOk) {i : Nat} (hi : i < n) :
    sget 0 (deviceBlock v a n m s).mem.lineKey ((a + i) / 128) = keyNum (deviceBlock v a n m s) v := by
  have hnum : keyNum (deviceBlock v a n m s) v = keyNum (evictLines (a / 128) ((a + n - 1) / 128) s) v := by
    simp only [keyNum, deviceBlock_keys, onlyMemory_keys (onlyMemory_evictLines _ _ s)]
  rw [hnum, deviceBlock_mem m hn]
  exact claimLines_key (memOk_evictLines _ _ s h) (by omega) (by omega)

/-- What a unit of the package reads of a block it has written. -/
theorem deviceBytes_deviceBlock (h : s.memOk) (hin : inHbm a n = true) {o : Nat} {l : List Byte} (ho : o + l.length ≤ n)
    (hb : ∀ i < l.length, sget 0 m (o + i) = l.getD i 0) : deviceBytes (deviceBlock v a n m s) v (a + o) l.length = l := by
  have hbound : a + n ≤ 0xC0_0000_0000 := of_decide_eq_true hin
  refine deviceBytes_hbm (fun i hi => ?_) (fun i hi => ?_) fun i hi => ?_
  · simp [inHost]
    omega
  · rw [Nat.add_assoc]
    exact deviceBlock_key m hn h (by omega)
  · rw [Nat.add_assoc, deviceBlock_byte m hn (by omega)]
    exact hb i hi

/-- The lines outside a block are as they were. -/
theorem lineAgree_deviceBlock {line : Nat} (hl : line < a / 128 ∨ (a + n - 1) / 128 < line) : LineAgree line s (deviceBlock v a n m s) := by
  have hle : a / 128 ≤ (a + n - 1) / 128 := Nat.div_le_div_right (by omega)
  have hclaim : LineAgree line s (blockClaimed v a n s) :=
    (lineAgree_evictLines line _ _ s hl).trans (lineAgree_claimLines line v _ _ (by omega))
  have hl2 : (deviceBlock v a n m s).l2 = (blockClaimed v a n s).l2 := by
    rw [deviceBlock, if_neg hn]
    rfl
  refine hclaim.trans ⟨?_, fun x hx => deviceBlock_outside m hn (by omega), ?_, fun u hu => ?_, fun f => ?_, ?_⟩
  · rw [deviceBlock, if_neg hn]
    rfl
  · rw [deviceBlock_mem m hn]
  · rw [deviceBlock_mem m hn]
    refine sget_filter_keep false _ _ u fun _ => ?_
    simp
    omega
  · simp only [l2Get, hl2]
  · rw [deviceBlock_mem m hn]

end Block

end Sys2Proof.Proofs.Device
end

section
/-! PROOFS. Cluster traps: what TCAUSE, TINFO and the trap frame hold (R119, R120, R123, R125, R126, R127). -/

namespace Sys2Proof.Proofs.TrapRecord

open Sys2Proof Sys2Proof.Machine Sys2Proof.Proofs.Traps Sys2Proof.Proofs.Device

/-! ### The recorded cause (R119) -/

/-- A cause of a lower code, or of the same code and no greater detail. -/
def NoLater (a b : TrapCause) : Prop := a.code < b.code ∨ (a.code = b.code ∧ a.detail ≤ b.detail)

theorem NoLater.refl (a : TrapCause) : NoLater a a := .inr ⟨rfl, Nat.le_refl _⟩

theorem NoLater.trans {a b c : TrapCause} (h : NoLater a b) (h' : NoLater b c) : NoLater a c := by
  unfold NoLater at *
  omega

theorem noLater_of_causeLe {a b : TrapCause} (h : causeLe a b = true) : NoLater a b := by
  unfold causeLe at h
  unfold NoLater
  split at h
  · simp only [decide_eq_true_eq] at h
    omega
  · split at h
    · simp only [decide_eq_true_eq] at h
      omega
    · omega

theorem noLater_of_not_causeLe {a b : TrapCause} (h : causeLe a b = false) : NoLater b a := by
  unfold causeLe at h
  unfold NoLater
  split at h
  · simp only [decide_eq_false_iff_not] at h
    omega
  · split at h
    · simp only [decide_eq_false_iff_not] at h
      omega
    · omega

/-- The recorded cause is one of the causes. -/
theorem leastCause_mem (a : TrapCause) (r : List TrapCause) : leastCause a r ∈ a :: r := by
  induction r generalizing a with
  | nil => exact List.mem_singleton_self a
  | cons b r ih =>
    obtain h | h := List.mem_cons.mp (ih (if causeLe a b then a else b))
    · rw [leastCause, h]
      split <;> simp
    · exact List.mem_cons_of_mem _ (List.mem_cons_of_mem _ h)

/-- The recorded cause comes no later than any other. -/
theorem leastCause_noLater (a : TrapCause) (r : List TrapCause) : ∀ o ∈ a :: r, NoLater (leastCause a r) o := by
  induction r generalizing a with
  | nil =>
    intro o ho
    rw [List.mem_singleton.mp ho]
    exact .refl a
  | cons b r ih =>
    have hfirst := ih (if causeLe a b then a else b) _ List.mem_cons_self
    have hboth : NoLater (if causeLe a b then a else b) a ∧ NoLater (if causeLe a b then a else b) b := by
      cases h : causeLe a b
      · exact ⟨noLater_of_not_causeLe h, .refl b⟩
      · exact ⟨.refl a, noLater_of_causeLe h⟩
    intro o ho
    obtain rfl | ho := List.mem_cons.mp ho
    · exact hfirst.trans hboth.1
    · obtain rfl | ho := List.mem_cons.mp ho
      · exact hfirst.trans hboth.2
      · exact ih _ o (List.mem_cons_of_mem _ ho)

/-! ### TCAUSE (R125) -/

theorem getLsbD_one_shiftLeft {k b : Nat} (hk : k < 64) : ((1 : W64) <<< k).getLsbD b = decide (b = k) := by
  rw [Bool.eq_iff_iff]
  simp only [BitVec.getLsbD_shiftLeft, BitVec.ofNat_eq_ofNat, BitVec.getLsbD_one, Bool.and_eq_true, Bool.not_eq_true',
    decide_eq_false_iff_not, decide_eq_true_eq]
  omega

/-- The OTHER bits name the codes beside the recorded one. -/
theorem getLsbD_otherBits (code : Nat) (l : List TrapCause) (h : ∀ o ∈ l, o.code - 1 < 64) (k : Nat) :
    (otherBits code l).getLsbD k = l.any fun o => decide (o.code ≠ code) && decide (k = o.code - 1) := by
  have hgen : ∀ (l : List TrapCause) (x : W64), (∀ o ∈ l, o.code - 1 < 64) →
      (l.foldl (fun x c => if c.code = code then x else x ||| ((1 : W64) <<< (c.code - 1))) x).getLsbD k =
        (x.getLsbD k || l.any fun o => decide (o.code ≠ code) && decide (k = o.code - 1)) := by
    intro l
    induction l with
    | nil => simp
    | cons o r ih =>
      intro x hl
      rw [List.foldl_cons, ih _ fun o' ho => hl o' (List.mem_cons_of_mem _ ho), List.any_cons, ← Bool.or_assoc]
      congr 1
      by_cases hc : o.code = code
      · simp [hc]
      · rw [if_neg hc, BitVec.getLsbD_or, getLsbD_one_shiftLeft (hl o List.mem_cons_self)]
        simp [hc]
  rw [otherBits, hgen l 0 h]
  simp

section Tcause

variable {fsave : Bool} {m : TrapCause} {l : List TrapCause} (hm : m.code < 16) (hl : ∀ o ∈ l, o.code ≤ 14) (dbl : Prop) [Decidable dbl]

/-- TCAUSE as a trap leaves it, DOUBLE where the handler is missing. -/
def tcauseWith (fsave : Bool) (m : TrapCause) (l : List TrapCause) (dbl : Prop) [Decidable dbl] : W64 :=
  tcauseOf fsave m l ||| (if dbl then (1 : W64) <<< 62 else 0)

include hm in
/-- The bits of TCAUSE. -/
theorem getLsbD_tcauseWith {b : Nat} (hb : b < 64) : (tcauseWith fsave m l dbl).getLsbD b =
    (decide (b = 63) || (fsave && decide (b = 61)) || (decide (32 ≤ b) && (otherBits m.code l).getLsbD (b - 32)) ||
      (decide (b < 4) && m.code.testBit b) || (decide dbl && decide (b = 62))) := by
  have hflag : ∀ (p : Prop) [Decidable p] (k : Nat), k < 64 →
      (if p then (1 : W64) <<< k else 0).getLsbD b = (decide p && decide (b = k)) := by
    intro p _ k hk
    split
    next h => rw [getLsbD_one_shiftLeft hk, decide_eq_true h, Bool.true_and]
    next h => simp [h]
  have hcode : (BitVec.ofNat 64 m.code).getLsbD b = (decide (b < 4) && m.code.testBit b) := by
    rw [BitVec.getLsbD_ofNat, decide_eq_true hb, Bool.true_and]
    by_cases hb4 : b < 4
    · simp [hb4]
    · have hzero : m.code.testBit b = false := 
        Nat.testBit_lt_two_pow (Nat.lt_of_lt_of_le hm (Nat.pow_le_pow_right (n := 2) (by decide) (Nat.le_of_not_lt hb4)))
      simp [hb4, hzero]
  have hother : (otherBits m.code l <<< 32).getLsbD b = (decide (32 ≤ b) && (otherBits m.code l).getLsbD (b - 32)) := by
    rw [BitVec.getLsbD_shiftLeft]
    by_cases h : 32 ≤ b <;> simp [h, hb, Nat.not_le.mp]
  simp only [tcauseWith, tcauseOf, BitVec.getLsbD_or, getLsbD_one_shiftLeft (show 63 < 64 by decide), hflag fsave 61 (by decide),
    hflag dbl 62 (by decide), hcode, hother, Bool.decide_eq_true]

include hl in
/-- No code has an OTHER bit above bit 45. -/
theorem otherBits_high {k : Nat} (hk : 14 ≤ k) : (otherBits m.code l).getLsbD k = false := by
  rw [getLsbD_otherBits _ _ fun o ho => by have := hl o ho; omega]
  refine List.any_eq_false.mpr fun o ho => ?_
  have := hl o ho
  have hne : k ≠ o.code - 1 := by omega
  simp [hne]

/-- The OTHER bit of a code. -/
theorem otherBits_code (hl1 : ∀ o ∈ l, 1 ≤ o.code ∧ o.code ≤ 14) {n : Nat} (hn : 1 ≤ n) :
    (otherBits m.code l).getLsbD (n - 1) = (decide (n ≠ m.code) && l.any fun o => decide (o.code = n)) := by
  rw [getLsbD_otherBits _ _ fun o ho => by have := hl1 o ho; omega, Bool.eq_iff_iff]
  simp only [List.any_eq_true, Bool.and_eq_true, decide_eq_true_eq]
  constructor
  · rintro ⟨o, ho, hne, heq⟩
    have hcode : o.code = n := by have := hl1 o ho; omega
    exact ⟨hcode ▸ hne, o, ho, hcode⟩
  · rintro ⟨hne, o, ho, rfl⟩
    exact ⟨o, ho, hne, rfl⟩

end Tcause

/-! ### TINFO (R125, R126) -/

theorem toNat_or_low {x y : W64} (k : Nat) (hx : 2 ^ k ∣ x.toNat) (hy : y.toNat < 2 ^ k) : (x ||| y).toNat = x.toNat + y.toNat := by
  obtain ⟨q, hq⟩ := hx
  rw [BitVec.toNat_or, hq, Nat.two_pow_add_eq_or_of_lt hy]

theorem toNat_shift {x : W64} {k j : Nat} (hx : x.toNat < 2 ^ j) (hkj : j + k ≤ 64) : (x <<< k).toNat = x.toNat * 2 ^ k := by
  rw [BitVec.toNat_shiftLeft, Nat.shiftLeft_eq]
  refine Nat.mod_eq_of_lt (Nat.lt_of_lt_of_le (Nat.mul_lt_mul_of_pos_right hx (Nat.two_pow_pos k)) ?_)
  rw [← Nat.pow_add]
  exact Nat.pow_le_pow_right (by decide) hkj

/-- The value of a requester's 23 bits. -/
def reqNum (r : Option Req) : Nat :=
  match r with
  | some r => r.eng.code * 2 ^ 20 + r.pitch.toNat * 2 ^ 10 + r.word % 1024
  | none => 0

theorem reqBits_toNat (r : Option Req) : (reqBits r).toNat = reqNum r ∧ reqNum r < 2 ^ 23 := by
  cases r with
  | none => exact ⟨rfl, by decide⟩
  | some r =>
    have hcode : r.eng.code < 8 := by cases r.eng <;> decide
    have hpitch := r.pitch.isLt
    have he : (BitVec.ofNat 64 r.eng.code).toNat = r.eng.code := by
      rw [BitVec.toNat_ofNat]
      omega
    have hp : (r.pitch.setWidth 64).toNat = r.pitch.toNat := by
      rw [BitVec.toNat_setWidth]
      omega
    have hw : (BitVec.ofNat 64 (r.word % 1024)).toNat = r.word % 1024 := by
      rw [BitVec.toNat_ofNat]
      omega
    have hes : (BitVec.ofNat 64 r.eng.code <<< 20).toNat = r.eng.code * 2 ^ 20 := by
      rw [toNat_shift (j := 3) (by omega) (by decide), he]
    have hps : (r.pitch.setWidth 64 <<< 10).toNat = r.pitch.toNat * 2 ^ 10 := by
      rw [toNat_shift (j := 10) (by omega) (by decide), hp]
    have hep : (BitVec.ofNat 64 r.eng.code <<< 20 ||| r.pitch.setWidth 64 <<< 10).toNat = r.eng.code * 2 ^ 20 + r.pitch.toNat * 2 ^ 10 := by
      rw [toNat_or_low 20 (by omega) (by omega), hes, hps]
    simp only [reqBits, reqNum]
    rw [toNat_or_low 10 (by omega) (by omega), hep, hw]
    exact ⟨rfl, by omega⟩

/-- TINFO as a number of its fields. -/
theorem tinfoOf_toNat (m : TrapCause) : (tinfoOf m).toNat =
    m.detail % 256 * 2 ^ 56 + reqNum m.r1 * 2 ^ 33 + reqNum m.r2 * 2 ^ 10 + m.obj % 1024 := by
  obtain ⟨h1, h1lt⟩ := reqBits_toNat m.r1
  obtain ⟨h2, h2lt⟩ := reqBits_toNat m.r2
  have hd : (BitVec.ofNat 64 (m.detail % 256)).toNat = m.detail % 256 := by
    rw [BitVec.toNat_ofNat]
    omega
  have ho : (BitVec.ofNat 64 (m.obj % 1024)).toNat = m.obj % 1024 := by
    rw [BitVec.toNat_ofNat]
    omega
  have hds : (BitVec.ofNat 64 (m.detail % 256) <<< 56).toNat = m.detail % 256 * 2 ^ 56 := by
    rw [toNat_shift (j := 8) (by omega) (by decide), hd]
  have h1s : (reqBits m.r1 <<< 33).toNat = reqNum m.r1 * 2 ^ 33 := by rw [toNat_shift (j := 23) (by omega) (by decide), h1]
  have h2s : (reqBits m.r2 <<< 10).toNat = reqNum m.r2 * 2 ^ 10 := by rw [toNat_shift (j := 23) (by omega) (by decide), h2]
  have hd1 : (BitVec.ofNat 64 (m.detail % 256) <<< 56 ||| reqBits m.r1 <<< 33).toNat = m.detail % 256 * 2 ^ 56 + reqNum m.r1 * 2 ^ 33 := by
    rw [toNat_or_low 56 (by omega) (by omega), hds, h1s]
  have hd2 : (BitVec.ofNat 64 (m.detail % 256) <<< 56 ||| reqBits m.r1 <<< 33 ||| reqBits m.r2 <<< 10).toNat =
      m.detail % 256 * 2 ^ 56 + reqNum m.r1 * 2 ^ 33 + reqNum m.r2 * 2 ^ 10 := by rw [toNat_or_low 33 (by omega) (by omega), hd1, h2s]
  rw [tinfoOf, toNat_or_low 10 (by omega) (by omega), hd2, ho]

/-- A field of TINFO as its number gives it. -/
theorem tinfo_field (m : TrapCause) (lo len : Nat) : (tinfoOf m).extractLsb' lo len = BitVec.ofNat len
    ((m.detail % 256 * 2 ^ 56 + reqNum m.r1 * 2 ^ 33 + reqNum m.r2 * 2 ^ 10 + m.obj % 1024) / 2 ^ lo) := by
  refine BitVec.eq_of_toNat_eq ?_
  rw [BitVec.extractLsb'_toNat, tinfoOf_toNat, Nat.shiftRight_eq_div_pow, BitVec.toNat_ofNat]

section Fields

variable (m : TrapCause) {r : Req}

theorem tinfo_detail : (tinfoOf m).extractLsb' 56 8 = BitVec.ofNat 8 m.detail := by
  obtain ⟨-, h1⟩ := reqBits_toNat m.r1
  obtain ⟨-, h2⟩ := reqBits_toNat m.r2
  rw [tinfo_field]
  refine BitVec.eq_of_toNat_eq ?_
  simp only [BitVec.toNat_ofNat]
  omega

theorem tinfo_obj : (tinfoOf m).extractLsb' 0 10 = BitVec.ofNat 10 m.obj := by
  rw [tinfo_field]
  refine BitVec.eq_of_toNat_eq ?_
  simp only [BitVec.toNat_ofNat]
  omega

variable {m}

/-- The fields of a requester's 23 bits. -/
theorem reqNum_fields (r : Req) : reqNum (some r) / 2 ^ 20 = r.eng.code ∧ reqNum (some r) / 2 ^ 10 % 2 ^ 10 = r.pitch.toNat ∧
    reqNum (some r) % 2 ^ 10 = r.word % 2 ^ 10 := by
  have hcode : r.eng.code < 8 := by cases r.eng <;> decide
  have hpitch := r.pitch.isLt
  simp only [reqNum]
  omega

theorem tinfo_div_first : (tinfoOf m).toNat / 2 ^ 33 = m.detail % 256 * 2 ^ 23 + reqNum m.r1 := by
  obtain ⟨-, h2⟩ := reqBits_toNat m.r2
  rw [tinfoOf_toNat]
  omega

theorem tinfo_div_second : (tinfoOf m).toNat / 2 ^ 10 = (m.detail % 256 * 2 ^ 23 + reqNum m.r1) * 2 ^ 23 + reqNum m.r2 := by
  rw [tinfoOf_toNat]
  omega

/-- The fields of a requester that stands at a bit of a word. -/
theorem extract_req {x : W64} {base q : Nat} {o : Option Req} (hx : x.toNat / 2 ^ base = q * 2 ^ 23 + reqNum o) (h : o = some r) :
    x.extractLsb' (base + 20) 3 = BitVec.ofNat 3 r.eng.code ∧ x.extractLsb' (base + 10) 10 = r.pitch ∧
      x.extractLsb' base 10 = BitVec.ofNat 10 r.word := by
  obtain ⟨heng, hpitch, hword⟩ := reqNum_fields r
  rw [← h] at heng hpitch hword
  refine ⟨BitVec.eq_of_toNat_eq ?_, BitVec.eq_of_toNat_eq ?_, BitVec.eq_of_toNat_eq ?_⟩
  · rw [BitVec.extractLsb'_toNat, Nat.shiftRight_eq_div_pow, Nat.pow_add, ← Nat.div_div_eq_div_mul, hx, BitVec.toNat_ofNat]
    omega
  · rw [BitVec.extractLsb'_toNat, Nat.shiftRight_eq_div_pow, Nat.pow_add, ← Nat.div_div_eq_div_mul, hx]
    omega
  · rw [BitVec.extractLsb'_toNat, Nat.shiftRight_eq_div_pow, hx, BitVec.toNat_ofNat]
    omega

/-- TINFO names the first requester. -/
theorem tinfo_first (h : m.r1 = some r) : (tinfoOf m).extractLsb' 53 3 = BitVec.ofNat 3 r.eng.code ∧
    (tinfoOf m).extractLsb' 43 10 = r.pitch ∧ (tinfoOf m).extractLsb' 33 10 = BitVec.ofNat 10 r.word := extract_req tinfo_div_first h

/-- TINFO names the second requester. -/
theorem tinfo_second (h : m.r2 = some r) : (tinfoOf m).extractLsb' 30 3 = BitVec.ofNat 3 r.eng.code ∧
    (tinfoOf m).extractLsb' 20 10 = r.pitch ∧ (tinfoOf m).extractLsb' 10 10 = BitVec.ofNat 10 r.word := extract_req tinfo_div_second h

/-- Without a first requester its bits are zero. -/
theorem tinfo_first_none (h : m.r1 = none) : (tinfoOf m).extractLsb' 33 23 = 0 := by
  obtain ⟨-, h2⟩ := reqBits_toNat m.r2
  have h1 : reqNum m.r1 = 0 := by rw [h]; rfl
  rw [tinfo_field, h1]
  refine BitVec.eq_of_toNat_eq ?_
  rw [BitVec.toNat_ofNat, show (0 : BitVec 23).toNat = 0 from rfl]
  omega

/-- Without a second requester its bits are zero. -/
theorem tinfo_second_none (h : m.r2 = none) : (tinfoOf m).extractLsb' 10 23 = 0 := by
  have h2 : reqNum m.r2 = 0 := by rw [h]; rfl
  rw [tinfo_field, h2]
  refine BitVec.eq_of_toNat_eq ?_
  rw [BitVec.toNat_ofNat, show (0 : BitVec 23).toNat = 0 from rfl]
  omega

end Fields

/-! ### The trap frame (R127) -/

theorem sget_fields_outside (fs : List (Nat × List Byte)) (m : Sparse Byte) (y : Nat)
    (h : ∀ f ∈ fs, y < f.1 ∨ f.1 + f.2.length ≤ y) : sget 0 (fs.foldl (fun m f => sputs 0 m f.1 f.2) m) y = sget 0 m y := by
  induction fs generalizing m with
  | nil => rfl
  | cons f r ih =>
    rw [List.foldl_cons, ih _ fun g hg => h g (List.mem_cons_of_mem _ hg)]
    exact sget_sputs_outside 0 m f.1 f.2 y (h f List.mem_cons_self)

/-- The bytes of a frame with the given fields. -/
def fieldBytes (fs : List (Nat × List Byte)) : Sparse Byte := fs.foldl (fun m f => sputs 0 m f.1 f.2) []

/-- A field of a frame that no later field overlaps. -/
theorem sget_field (pre post : List (Nat × List Byte)) (f : Nat × List Byte) {i : Nat} (hi : i < f.2.length)
    (h : ∀ g ∈ post, f.1 + f.2.length ≤ g.1) : sget 0 (fieldBytes (pre ++ f :: post)) (f.1 + i) = f.2.getD i 0 := by
  rw [fieldBytes, List.foldl_append, List.foldl_cons, sget_fields_outside _ _ _ fun g hg => .inl (by have := h g hg; omega)]
  exact sget_sputs_inside 0 _ f.1 f.2 i hi

/-- The records of the loop levels in a frame. -/
def frameLevels (x : Core) : List (Nat × List Byte) :=
  ((([Engine.lead, .mx, .va, .vb, .sf].map fun e => (x.stream e).loops.toList.map fun l => (e, l)).flatten).mapIdx (frameLevel x)).flatten

theorem frameFields_eq {s : State} {c : CoreId} (h : latchRecords (s.core c) = []) : frameFields s c =
    [fieldAt 0 8 (s.core c).trap.tcause.toNat, fieldAt 8 8 (s.core c).trap.tinfo.toNat, fieldAt 16 8 (s.core c).trap.ttick.toNat,
      fieldAt 24 8 0] ++ (Engine.all.map (frameEngine s c)).flatten ++
    [fieldAt 0x100 8 ((s.core c).scal.pv.toNat + 2 ^ 16 * (s.core c).scal.pw.toNat), fieldAt 0x108 8 (s.core c).scal.pendS.toNat] ++
    frameLevels (s.core c) := by
  simp only [frameFields, h, List.mapIdx_nil, List.append_nil]
  rfl

theorem frameEngine_offset (s : State) (c : CoreId) {f : Nat × List Byte} (h : f ∈ (Engine.all.map (frameEngine s c)).flatten) : 0x40 ≤ f.1 := by
  obtain ⟨l, hl, hf⟩ := List.mem_flatten.mp h
  obtain ⟨e, -, rfl⟩ := List.mem_map.mp hl
  simp only [frameEngine, fieldAt, List.mem_cons, List.not_mem_nil, or_false] at hf
  obtain rfl | rfl | rfl | rfl := hf <;> simp only <;> omega

theorem frameLevels_offset {x : Core} {f : Nat × List Byte} (h : f ∈ frameLevels x) : 0x200 ≤ f.1 := by
  obtain ⟨l, hl, hf⟩ := List.mem_flatten.mp h
  obtain ⟨i, hi, rfl⟩ := List.mem_mapIdx.mp hl
  simp only [frameLevel, fieldAt, List.mem_cons, List.not_mem_nil, or_false] at hf
  obtain rfl | rfl | rfl | rfl | rfl | rfl := hf <;> simp only <;> omega

section Frame

variable {s : State} {c : CoreId} (hl : latchRecords (s.core c) = []) (hin : inHbm (frameAddr c (s.core c)) 0x4000 = true)
include hl hin

theorem writeFrame_eq : writeFrame c s = deviceBlock (s.core c).csr.world (frameAddr c (s.core c)) 0x4000
    (fieldBytes (frameFields s c)) s := by
  simp only [writeFrame, hl, frameValues, frameBlock, hin, if_true, fieldBytes]

/-- A field of the frame as a unit of the package reads it. -/
theorem frame_field (h : s.memOk) {pre post : List (Nat × List Byte)} {off v : Nat} (hf : frameFields s c = pre ++ fieldAt off 8 v :: post)
    (hoff : off + 8 ≤ 0x4000) (hpost : ∀ g ∈ post, off + 8 ≤ g.1) :
    deviceBytes (writeFrame c s) (s.core c).csr.world (frameAddr c (s.core c) + off) 8 = bytesOfNat 8 v := by
  have hlen : (bytesOfNat 8 v).length = 8 := length_bytesOfNat 8 v
  have hget : ∀ i < (bytesOfNat 8 v).length, sget 0 (fieldBytes (frameFields s c)) (off + i) =
      (bytesOfNat 8 v).getD i 0 := by
    intro i hi
    rw [hf]
    exact sget_field pre post (fieldAt off 8 v) hi fun g hg => by
      have := hpost g hg
      simpa [fieldAt] using this
  have hread := deviceBytes_deviceBlock (v := (s.core c).csr.world) (n := 0x4000) (fieldBytes (frameFields s c)) (by decide) h hin (o := off) (l := bytesOfNat 8 v) (by rw [hlen]; exact hoff) hget
  rw [hlen] at hread
  rw [writeFrame_eq hl hin]
  exact hread

/-- What a frame holds of the trap registers and the predicate slots. -/
theorem frame_reads (h : s.memOk) :
    deviceBytes (writeFrame c s) (s.core c).csr.world (frameAddr c (s.core c)) 24 =
      bytesOfNat 8 (s.core c).trap.tcause.toNat ++ bytesOfNat 8 (s.core c).trap.tinfo.toNat ++ bytesOfNat 8 (s.core c).trap.ttick.toNat ∧
    deviceBytes (writeFrame c s) (s.core c).csr.world (frameAddr c (s.core c) + 0x100) 8 =
      bytesOfNat 8 ((s.core c).scal.pv.toNat + 2 ^ 16 * (s.core c).scal.pw.toNat) := by
  have heq := frameFields_eq hl
  have hrest : ∀ g ∈ [fieldAt 24 8 0] ++ (Engine.all.map (frameEngine s c)).flatten ++
      [fieldAt 0x100 8 ((s.core c).scal.pv.toNat + 2 ^ 16 * (s.core c).scal.pw.toNat), fieldAt 0x108 8 (s.core c).scal.pendS.toNat] ++
      frameLevels (s.core c), 24 ≤ g.1 := by
    intro g hg
    simp only [List.mem_append, List.mem_cons, List.not_mem_nil, or_false] at hg
    obtain ((rfl | hg) | rfl | rfl) | hg := hg
    · exact Nat.le_refl 24
    · exact Nat.le_trans (by decide) (frameEngine_offset s c hg)
    · simp [fieldAt]
    · simp [fieldAt]
    · exact Nat.le_trans (by decide) (frameLevels_offset hg)
  have h0 := frame_field hl hin h (pre := []) (off := 0) heq (by decide) fun g hg => by
    obtain rfl | hg := List.mem_cons.mp hg
    · exact Nat.le_refl 8
    obtain rfl | hg := List.mem_cons.mp hg
    · simp [fieldAt]
    exact Nat.le_trans (by decide) (hrest g hg)
  have h1 := frame_field hl hin h (pre := [_]) (off := 8) heq (by decide) fun g hg => by
    obtain rfl | hg := List.mem_cons.mp hg
    · exact Nat.le_refl 16
    exact Nat.le_trans (by decide) (hrest g hg)
  have h2 := frame_field hl hin h (pre := [_, _]) (off := 16) heq (by decide) hrest
  have hslots := heq
  rw [List.append_assoc, List.cons_append] at hslots
  have h3 := frame_field hl hin h hslots (by decide) fun g hg => by
    obtain rfl | hg := List.mem_cons.mp hg
    · simp [fieldAt]
    · exact Nat.le_trans (by decide) (frameLevels_offset hg)
  refine ⟨?_, h3⟩
  rw [show 24 = 8 + 8 + 8 from rfl, deviceBytes_append, deviceBytes_append, h1, ← h2]
  rw [show deviceBytes (writeFrame c s) (s.core c).csr.world (frameAddr c (s.core c)) 8 = _ from h0]

/-- Memory outside the lines of a frame. -/
theorem frame_elsewhere (h : s.memOk) (f : Fin 4) (v : World) {pa : Nat}
    (hpa : pa / 128 < frameAddr c (s.core c) / 128 ∨ (frameAddr c (s.core c) + 0x3FFF) / 128 < pa / 128) :
    seesByte (writeFrame c s) f v pa = seesByte s f v pa := by
  have hok : (writeFrame c s).memOk := memOk_writeFrame c s h
  rw [writeFrame_eq hl hin] at hok ⊢
  exact (lineAgree_deviceBlock _ (by decide) hpa).sees h hok f v

end Frame

/-! ### The trap (R119, R120) -/

section Trap

variable (c : CoreId) (fsave : Bool) (a : TrapCause) (r : List TrapCause) (s : State)

/-- The state in which the trap's frame is written: its cause is recorded, and nothing else. -/
def trapRecorded : State := s.modCore c fun x => { x with trap := { x.trap with
  tcause := tcauseWith fsave (leastCause a r) (a :: r) ((s.core c).csr.tvec = 0), tinfo := tinfoOf (leastCause a r)
  ttick := BitVec.ofNat 64 (tickOf s c) } }

theorem trapRecorded_core : (trapRecorded c fsave a r s).core c = { s.core c with trap := { (s.core c).trap with
    tcause := tcauseWith fsave (leastCause a r) (a :: r) ((s.core c).csr.tvec = 0), tinfo := tinfoOf (leastCause a r)
    ttick := BitVec.ofNat 64 (tickOf s c) } } := State.core_modCore_same _ _ _

/-- After the frame a trap writes no memory. -/
theorem takeTrap_memory : (takeTrap c fsave a r s).mem = (writeFrame c (trapRecorded c fsave a r s)).mem ∧
    (takeTrap c fsave a r s).l2 = (writeFrame c (trapRecorded c fsave a r s)).l2 ∧
    (takeTrap c fsave a r s).keys = (writeFrame c (trapRecorded c fsave a r s)).keys := by
  simp only [takeTrap, trapRecorded, tcauseWith, decide_eq_true_eq]
  split
  · exact ⟨notice_mem _ _, notice_l2 _ _, notice_keys _ _⟩
  · exact ⟨rfl, rfl, rfl⟩

/-- The trap registers of a trapped core, and what else of it a trap changes. -/
theorem takeTrap_regs : ((takeTrap c fsave a r s).core c).trap.tcause = tcauseWith fsave (leastCause a r) (a :: r) ((s.core c).csr.tvec = 0) ∧
    ((takeTrap c fsave a r s).core c).trap.tinfo = tinfoOf (leastCause a r) ∧
    ((takeTrap c fsave a r s).core c).trap.ttick = BitVec.ofNat 64 (tickOf s c) ∧
    inTrap ((takeTrap c fsave a r s).core c) .lead = true ∧
    { (takeTrap c fsave a r s).core c with trap := (s.core c).trap } = s.core c := by
  rw [takeTrap_core]
  unfold tcauseWith
  dsimp only
  split <;> exact ⟨rfl, rfl, rfl, rfl, rfl⟩

/-- LEAD at the first word of its handler. -/
theorem takeTrap_handler (h : (s.core c).csr.tvec ≠ 0) : ((takeTrap c fsave a r s).core c).trap.stopped = false ∧
    ((takeTrap c fsave a r s).core c).trap.hpos = Pos.start (s.core c).csr.tvec.toNat ∧
    ((takeTrap c fsave a r s).core c).trap.hbuf = [] := by
  rw [takeTrap_core]
  dsimp only
  rw [if_neg h]
  exact ⟨rfl, rfl, rfl⟩

/-- A trap without a handler stops LEAD, and the management notice stands. -/
theorem takeTrap_double (h : (s.core c).csr.tvec = 0) : ((takeTrap c fsave a r s).core c).trap.stopped = true ∧
    (takeTrap c fsave a r s).sys.mgt.getLsbD 4 = true := by
  refine ⟨?_, ?_⟩
  · rw [takeTrap_core]
    dsimp only
    rw [if_pos h]
  · simp only [takeTrap, h, decide_true, if_true]
    exact notice_mgt _ (by decide)

/-- The frame of a trap, and the memory around it. -/
theorem takeTrap_frame (hok : s.memOk) (hl : latchRecords (s.core c) = []) (hin : inHbm (frameAddr c (s.core c)) 0x4000 = true) :
    let t := takeTrap c fsave a r s
    deviceBytes t (s.core c).csr.world (frameAddr c (s.core c)) 24 = bytesOfNat 8 (t.core c).trap.tcause.toNat ++
        bytesOfNat 8 (t.core c).trap.tinfo.toNat ++ bytesOfNat 8 (t.core c).trap.ttick.toNat ∧
      deviceBytes t (s.core c).csr.world (frameAddr c (s.core c) + 0x100) 8 =
        bytesOfNat 8 ((s.core c).scal.pv.toNat + 2 ^ 16 * (s.core c).scal.pw.toNat) ∧
      ∀ f v pa, pa / 128 < frameAddr c (s.core c) / 128 ∨ (frameAddr c (s.core c) + 0x3FFF) / 128 < pa / 128 →
        seesByte t f v pa = seesByte s f v pa := by
  obtain ⟨hm, hl2, hk⟩ := takeTrap_memory c fsave a r s
  obtain ⟨htc, hti, htt, -⟩ := takeTrap_regs c fsave a r s
  have hcore := trapRecorded_core c fsave a r s
  have hok' : (trapRecorded c fsave a r s).memOk := hok
  have hl' : latchRecords ((trapRecorded c fsave a r s).core c) = [] := by
    rw [hcore]
    exact hl
  have hin' : inHbm (frameAddr c ((trapRecorded c fsave a r s).core c)) 0x4000 = true := by
    rw [hcore]
    exact hin
  obtain ⟨hregs, hslots⟩ := frame_reads hl' hin' hok'
  have hother := fun (f : Fin 4) (v : World) (pa : Nat) => frame_elsewhere hl' hin' hok' f v (pa := pa)
  rw [hcore] at hregs hslots hother
  refine ⟨?_, (deviceBytes_congr hm hk _ _ _).trans hslots, fun f v pa hpa => ?_⟩
  · rw [htc, hti, htt]
    exact (deviceBytes_congr hm hk _ _ _).trans hregs
  · exact ((seesByte_congr hm hl2 hk f v pa).trans (hother f v pa hpa)).trans
      (seesByte_congr (s := s) (t := trapRecorded c fsave a r s) rfl rfl rfl f v pa)

end Trap

/-- Settles O39: the recorded cause, the trap registers and the frame. -/
theorem trapTaken : Obligations.TrapTaken := by
  intro s c fsave first rest l hl t x y
  have hmem := leastCause_mem first rest
  obtain ⟨hcode1, hcode14, hdetail, hobj, hword⟩ := hl _ hmem
  obtain ⟨htc, hti, htt, hin, hrest⟩ := takeTrap_regs c fsave first rest s
  have htop : ∀ o ∈ first :: rest, o.code ≤ 14 := fun o ho => (hl o ho).2.1
  have hbits {b : Nat} (hb : b < 64) := getLsbD_tcauseWith (fsave := fsave) (l := first :: rest)
    (show (leastCause first rest).code < 16 by omega) ((s.core c).csr.tvec = 0) hb
  have hother {k : Nat} (hk : 14 ≤ k) := otherBits_high (m := leastCause first rest) htop hk
  refine ⟨leastCause first rest, hmem, leastCause_noLater first rest, ?valid, ?double, ?fsave, ?cause, ?dcause, fun n h1 h14 => ?others,
    ?detail, ?obj, fun r hr => ?req1, fun hr => ?noReq1, fun r hr => ?req2, fun hr => ?noReq2, htt, hin, takeTrap_handler c fsave first rest s,
    takeTrap_double c fsave first rest s, hrest, fun d hd => takeTrap_other c d fsave first rest s hd, takeTrap_cluster c fsave first rest s,
    takeTrap_jobs c fsave first rest s, takeTrap_frame c fsave first rest s⟩
  case valid =>
    rw [htc, hbits (by decide)]
    simp
  case double =>
    rw [htc, hbits (by decide), hother (by decide)]
    simp [x]
  case fsave =>
    rw [htc, hbits (by decide), hother (by decide)]
    simp
  case cause =>
    refine BitVec.eq_of_getLsbD_eq fun j hj => ?_
    rw [htc, BitVec.getLsbD_extractLsb', hbits (by omega), BitVec.getLsbD_ofNat]
    simp [hj, show ¬ 32 ≤ j by omega, show j ≠ 63 by omega, show j ≠ 61 by omega, show j ≠ 62 by omega]
  case dcause =>
    refine BitVec.eq_of_getLsbD_eq fun j hj => ?_
    rw [htc, BitVec.getLsbD_extractLsb', hbits (by omega)]
    simp [show ¬ 32 ≤ 4 + j by omega, show 4 + j ≠ 63 by omega, show 4 + j ≠ 61 by omega, show 4 + j ≠ 62 by omega]
  case others =>
    rw [htc, hbits (by omega), show 31 + n - 32 = n - 1 by omega, otherBits_code (fun o ho => ⟨(hl o ho).1, (hl o ho).2.1⟩) h1]
    simp [l, show 32 ≤ 31 + n by omega, show 31 + n ≠ 63 by omega, show 31 + n ≠ 61 by omega, show 31 + n ≠ 62 by omega, show ¬ 31 + n < 4 by omega]
  case detail =>
    rw [hti]
    exact tinfo_detail _
  case obj =>
    rw [hti]
    exact tinfo_obj _
  case req1 =>
    rw [hti]
    exact tinfo_first hr
  case noReq1 =>
    rw [hti]
    exact tinfo_first_none hr
  case req2 =>
    rw [hti]
    exact tinfo_second hr
  case noReq2 =>
    rw [hti]
    exact tinfo_second_none hr

end Sys2Proof.Proofs.TrapRecord
end

section
/-! PROOFS. Fetches ahead of issue, and the start of a job (R18, R54, R55, R409). -/

namespace Sys2Proof.Proofs.Start

open Sys2Proof Sys2Proof.Machine Sys2Proof.Proofs.Acts Sys2Proof.Proofs.Traps

/-! ### Jobs by number -/

/-- The number of a job that is found. -/
theorem id_of_jobById {s : State} {id : Nat} {j : Job} (h : jobById s id = some j) : j.id = id := by
  simpa using List.find?_some h

/-- A job changed is found as changed. -/
theorem jobById_modJob {s : State} {id : Nat} {f : Job → Job} (hf : ∀ j, (f j).id = j.id) :
    jobById (s.modJob id f) id = (jobById s id).map f := by
  unfold jobById State.modJob
  generalize s.jobs = l
  induction l with
  | nil => rfl
  | cons j r ih =>
    by_cases hj : j.id = id
    · simp [hj, hf]
    · simp [hj, ih]

/-! ### The fetch buffer (R55) -/

/-- A core with the buffer of the image that an engine reads replaced. -/
def withBuf (e : Engine) (b : Sparse (Option Unit32)) (x : Core) : Core :=
  if inTrap x e then { x with trap := { x.trap with hbuf := b } }
  else if inIntr x e then { x with ap := { x.ap with uiBuf := b } }
  else x.modStream e fun t => { t with buf := b }

theorem modStream_modStream (x : Core) (e : Engine) (f g : Stream → Stream) :
    (x.modStream e f).modStream e g = x.modStream e fun t => g (f t) := by
  have hown := Core.stream_modStream_same x e f
  rw [Core.modStream, hown]
  simp [Core.modStream]

section Buf

variable (e : Engine) (b : Sparse (Option Unit32)) (x : Core)

@[simp] theorem inTrap_withBuf : inTrap (withBuf e b x) e = inTrap x e := by
  unfold withBuf
  split
  · rfl
  · split <;> rfl

@[simp] theorem inIntr_withBuf : inIntr (withBuf e b x) e = inIntr x e := by
  unfold withBuf
  split
  · rfl
  · split <;> rfl

@[simp] theorem bufOf_withBuf : bufOf (withBuf e b x) e = b := by
  unfold bufOf
  rw [inTrap_withBuf, inIntr_withBuf]
  unfold withBuf
  split
  · rfl
  · split
    · rfl
    · simp

@[simp] theorem posOf_withBuf : posOf (withBuf e b x) e = posOf x e := by
  unfold posOf
  rw [inTrap_withBuf, inIntr_withBuf]
  unfold withBuf
  split
  · rfl
  · split
    · rfl
    · simp

theorem withBuf_withBuf (b' : Sparse (Option Unit32)) : withBuf e b' (withBuf e b x) = withBuf e b' x := by
  rw [withBuf, inTrap_withBuf, inIntr_withBuf]
  unfold withBuf
  split
  · rfl
  · split
    · rfl
    · exact modStream_modStream x e _ _

theorem stream_withBuf_other {g : Engine} (h : g ≠ e) : (withBuf e b x).stream g = x.stream g := by
  unfold withBuf
  split
  · rfl
  · split
    · rfl
    · exact Core.stream_modStream_other _ _ _ _ h

theorem withBuf_rest : (withBuf e b x).scal = x.scal ∧ (withBuf e b x).vec = x.vec ∧ (withBuf e b x).csr = x.csr := by
  unfold withBuf
  split
  · exact ⟨rfl, rfl, rfl⟩
  · split <;> exact ⟨rfl, rfl, rfl⟩

end Buf

theorem modStream_self (x : Core) (e : Engine) : x.modStream e id = x := by
  have hset : x.streams.set (engIdx e) (x.stream e) = x.streams := Vector.set_getElem_self _
  rw [Core.modStream, id, hset]

theorem withBuf_self (e : Engine) (x : Core) : withBuf e (bufOf x e) x = x := by
  unfold withBuf bufOf
  split
  · rfl
  · split
    · rfl
    · exact modStream_self x e

/-- A buffer with units from an address on as memory gives them. -/
def fetchedBuf (s : State) (c : CoreId) : Nat → Nat → Sparse (Option Unit32) → Sparse (Option Unit32)
  | 0, _, b => b
  | n + 1, a, b => fetchedBuf s c n (a + 4) (sput none b a (some (memoryUnit s c a)))

theorem memoryUnit_congr {s t : State} {c : CoreId} (hm : t.mem = s.mem) (hl : t.l2 = s.l2) (hk : t.keys = s.keys)
    (hw : (t.core c).csr.world = (s.core c).csr.world) (a : Nat) : memoryUnit t c a = memoryUnit s c a := by
  have hbytes : ∀ n a, engineBytes t c.face (s.core c).csr.world a n = engineBytes s c.face (s.core c).csr.world a n := by
    intro n
    induction n with
    | zero => intro a; rfl
    | succ n ih =>
      intro a
      rw [engineBytes, engineBytes, ih]
      exact congrArg (· :: _) (seesByte_congr hm hl hk _ _ a)
  simp only [memoryUnit, hw, hbytes]

theorem fetchedBuf_congr {s t : State} {c : CoreId} (h : ∀ a, memoryUnit t c a = memoryUnit s c a) (n a : Nat) (b : Sparse (Option Unit32)) :
    fetchedBuf t c n a b = fetchedBuf s c n a b := by
  induction n generalizing a b with
  | zero => rfl
  | succ n ih => rw [fetchedBuf, fetchedBuf, h, ih]

theorem fetchUnits_succ (c : CoreId) (e : Engine) (n a : Nat) (s : State) : fetchUnits c e (n + 1) a s =
    fetchUnits c e n (a + 4) (s.modCore c (withBuf e (sput none (bufOf (s.core c) e) a (some (memoryUnit s c a))))) := by
  rw [fetchUnits]
  unfold State.modCore withBuf bufOf
  cases ht : inTrap (s.core c) e
  · cases hu : inIntr (s.core c) e
    · simp only [ht, hu, Bool.false_eq_true, if_false]
      rfl
    · simp only [ht, hu, Bool.false_eq_true, if_true, if_false]
  · simp only [ht, if_true]

/-- A fetch changes the buffer of its image, and nothing else. -/
theorem fetchUnits_eq (c : CoreId) (e : Engine) (n a : Nat) (s : State) :
    fetchUnits c e n a s = s.modCore c (withBuf e (fetchedBuf s c n a (bufOf (s.core c) e))) := by
  induction n generalizing a s with
  | zero => exact (State.modCore_self s c _ (withBuf_self e _)).symm
  | succ n ih =>
    have hcsr (b) : (withBuf e b (s.core c)).csr = (s.core c).csr := (withBuf_rest e b _).2.2
    have hunit (b) (a' : Nat) : memoryUnit (s.modCore c (withBuf e b)) c a' = memoryUnit s c a' :=
      memoryUnit_congr (s := s) (t := s.modCore c (withBuf e b)) rfl rfl rfl
        ((congrArg (·.csr.world) (State.core_modCore_same s c _)).trans (congrArg (·.world) (hcsr b))) a'
    rw [fetchUnits_succ, ih, State.modCore_modCore, fetchedBuf_congr (hunit _), State.core_modCore_same, bufOf_withBuf]
    exact congrArg (s.modCore c) (funext fun x => withBuf_withBuf e _ x _)

/-- The units that a fetch brings. -/
theorem sget_fetchedBuf {s : State} {c : CoreId} {n a : Nat} {b : Sparse (Option Unit32)} (hb : swf none b = true) {i : Nat} (hi : i < n) :
    sget none (fetchedBuf s c n a b) (a + 4 * i) = some (memoryUnit s c (a + 4 * i)) := by
  have hkeep : ∀ (n a : Nat) (b : Sparse (Option Unit32)) (y : Nat), y < a → sget none (fetchedBuf s c n a b) y = sget none b y := by
    intro n
    induction n with
    | zero => intros; rfl
    | succ n ih =>
      intro a b y hy
      rw [fetchedBuf, ih (a + 4) _ y (by omega)]
      exact sget_sput_other none b a y _ (by omega)
  induction n generalizing a b i with
  | zero => omega
  | succ n ih =>
    rw [fetchedBuf]
    cases i with
    | zero =>
      exact (hkeep n (a + 4) _ a (by omega)).trans <| sget_sput_same none b a _ hb
    | succ i =>
      rw [show a + 4 * (i + 1) = a + 4 + 4 * i by omega]
      exact ih (swf_sput none b a _ hb) (by omega)

/-- The units that a fetch leaves alone. -/
theorem sget_fetchedBuf_other {s : State} {c : CoreId} {n a : Nat} {b : Sparse (Option Unit32)} {y : Nat}
    (hy : ∀ i, i < n → y ≠ a + 4 * i) : sget none (fetchedBuf s c n a b) y = sget none b y := by
  induction n generalizing a b with
  | zero => rfl
  | succ n ih =>
    rw [fetchedBuf, ih fun i hi => by have := hy (i + 1) (by omega); omega]
    exact sget_sput_other none b a y _ (hy 0 (by omega))

/-- A state with error records and suspects of its own. -/
def OnlyErrors (s t : State) : Prop := t = { s with sys := t.sys, repair := t.repair }

section

variable {s t : State} (h : OnlyErrors s t)

include h

theorem OnlyErrors.cores : t.cores = s.cores := (congrArg State.cores h).trans rfl
theorem OnlyErrors.clusters : t.clusters = s.clusters := (congrArg State.clusters h).trans rfl
theorem OnlyErrors.mem : t.mem = s.mem := (congrArg State.mem h).trans rfl
theorem OnlyErrors.l2 : t.l2 = s.l2 := (congrArg State.l2 h).trans rfl
theorem OnlyErrors.keys : t.keys = s.keys := (congrArg State.keys h).trans rfl
theorem OnlyErrors.jobs : t.jobs = s.jobs := (congrArg State.jobs h).trans rfl
theorem OnlyErrors.regq : t.regq = s.regq := (congrArg State.regq h).trans rfl

end

theorem onlyErrors_detectHbm (pa : Nat) (w : World) (s : State) : OnlyErrors s (detectHbm pa w s) := by
  unfold detectHbm detectError
  split
  · rfl
  · rfl

theorem onlyErrors_noteUnsound (c : CoreId) (ps : List Piece) (n : Nat) (s : State) : OnlyErrors s (noteUnsound c ps n s) := by
  unfold noteUnsound
  split
  · exact onlyErrors_detectHbm _ _ s
  · rfl

/-- STREAM_FETCH of an engine with an image. -/
theorem exec_streamFetch {s : State} {c : CoreId} {e : Engine} (hregq : s.regq = []) (hi : hasImage (s.core c) e = true)
    (a : BitVec 52) (n : BitVec 8) : ∃ t, exec (.streamFetch c e a n) s = .next t ∧
      OnlyErrors (s.modCore c (withBuf e (fetchedBuf s c n.toNat (a.toNat / 4 * 4) (bufOf (s.core c) e)))) t := by
  have hnote := onlyErrors_noteUnsound c
    [{ va := a.toNat / 4 * 4, pa := a.toNat / 4 * 4, len := 4 * n.toNat, wr := false }] (4 * n.toNat)
    (s.modCore c (withBuf e (fetchedBuf s c n.toNat (a.toNat / 4 * 4) (bufOf (s.core c) e))))
  refine ⟨_, ?_, hnote⟩
  have hexec : exec (.streamFetch c e a n) s = done (fetchEvent c e a n s) := rfl
  rw [hexec, fetchEvent, if_pos hi, fetchUnits_eq]
  exact done_of_regq (hnote.regq.trans hregq)

/-- What a fetch ahead of issue does. -/
theorem streamFetch_result {s : State} {c : CoreId} {e : Engine} {a : BitVec 52} {n : BitVec 8} (hregq : s.regq = [])
    (hwf : swf none (bufOf (s.core c) e) = true) (hi : hasImage (s.core c) e = true) :
    ∃ t, exec (.streamFetch c e a n) s = .next t ∧ posOf (t.core c) e = posOf (s.core c) e ∧
       (∀ i, i < n.toNat → sget none (bufOf (t.core c) e) (a.toNat / 4 * 4 + 4 * i) = some (memoryUnit s c (a.toNat / 4 * 4 + 4 * i))) ∧
       (∀ b, (∀ i, i < n.toNat → b ≠ a.toNat / 4 * 4 + 4 * i) → sget none (bufOf (t.core c) e) b = sget none (bufOf (s.core c) e) b) ∧
       (∀ g, g ≠ e → (t.core c).stream g = (s.core c).stream g) ∧ (t.core c).scal = (s.core c).scal ∧
       (t.core c).vec = (s.core c).vec ∧ (t.core c).csr = (s.core c).csr ∧ OthersSame c s t ∧
       t.clusters = s.clusters ∧ SameMemory s t ∧ t.jobs = s.jobs := by
  obtain ⟨t, hexec, ht⟩ := exec_streamFetch hregq hi a n
  have hcores : t.cores = (s.modCore c (withBuf e (fetchedBuf s c n.toNat (a.toNat / 4 * 4) (bufOf (s.core c) e)))).cores :=
    ht.cores
  have hcore (d : CoreId) : t.core d = (s.modCore c (withBuf e (fetchedBuf s c n.toNat (a.toNat / 4 * 4) (bufOf (s.core c) e)))).core d := by
    simp only [State.core, hcores]
  have hown := (hcore c).trans (State.core_modCore_same _ _ _)
  obtain ⟨hscal, hvec, hcsr⟩ := withBuf_rest e (fetchedBuf s c n.toNat (a.toNat / 4 * 4) (bufOf (s.core c) e)) (s.core c)
  refine ⟨t, hexec, ?_, fun i hlt => ?_, fun b hb => ?_, fun g hg => ?_, ?_, ?_, ?_, fun d hd => ?_, ht.clusters,
    sameMemory_of ht.mem ht.l2 ht.keys, ht.jobs⟩
  · rw [hown, posOf_withBuf]
  · rw [hown, bufOf_withBuf, sget_fetchedBuf hwf hlt]
  · rw [hown, bufOf_withBuf, sget_fetchedBuf_other hb]
  · rw [hown, stream_withBuf_other _ _ _ hg]
  · rw [hown, hscal]
  · rw [hown, hvec]
  · rw [hown, hcsr]
  · exact (hcore d).trans (State.core_modCore_other _ _ _ _ hd)

/-! ### JOB_START (R18, R54) -/

section JobStart

variable {s : State} {j : Job} (hj : jobById s j.id = some j)

theorem exec_jobStart (id : Nat) (s : State) : exec (.jobStart id) s = done (startChecks id s) := rfl

/-- A stream whose first item and word are sound. -/
theorem startCheck_none {c : CoreId} {e : Engine}
    (hbad : (seeUnit s c ((s.core c).stream e).buf ((s.core c).stream e).pos.base).bad = false)
    (hhdr : isHeader (seeUnit s c ((s.core c).stream e).buf ((s.core c).stream e).pos.base).val = true)
    (hword : (nextJob s c e).bad = false) (hdetail : (nextJob s c e).detail = 0) (halign : isAlign (nextJob s c e).bits = true)
    (henc : encodingDetail { eng := e, first := true, trap := false, intr := false } (unpackWord (nextJob s c e).bits) = 0) :
    startCheck s c e = none := by
  simp [startCheck, hbad, hhdr, hword, hdetail, halign, henc]

/-- A stream whose first unit cannot be read. -/
theorem startCheck_bad {c : CoreId} {e : Engine}
    (hbad : (seeUnit s c ((s.core c).stream e).buf ((s.core c).stream e).pos.base).bad = true) : startCheck s c e = some (11, 7) := if_pos hbad

/-- A stream whose first word is another than `rdv.align`. -/
theorem startCheck_other {c : CoreId} {e : Engine}
    (hbad : (seeUnit s c ((s.core c).stream e).buf ((s.core c).stream e).pos.base).bad = false)
    (hhdr : isHeader (seeUnit s c ((s.core c).stream e).buf ((s.core c).stream e).pos.base).val = true)
    (hword : (nextJob s c e).bad = false) (hdetail : (nextJob s c e).detail = 0) (halign : isAlign (nextJob s c e).bits = false) :
    startCheck s c e = some (4, 9) := by
  simp [startCheck, hbad, hhdr, hword, hdetail, halign]

include hj

/-- A job begins when no stream of it has a cause. -/
theorem startChecks_begins (hp : j.phase = .loaded) (hf : j.team.all (startFetched s) = true)
    (hc : ∀ c ∈ j.team, coreStartCauses s c = []) : startChecks j.id s = s.modJob j.id fun j => { j with phase := .running } := by
  have hclean : (j.team.all fun c => (coreStartCauses s c).isEmpty) = true := List.all_eq_true.mpr fun c h => by simp [hc c h]
  simp [startChecks, hj, hp, hf, hclean]

/-- A job of one core that has one cause traps it. -/
theorem startChecks_traps {c : CoreId} {a : TrapCause} (hp : j.phase = .loaded) (hf : j.team.all (startFetched s) = true) (ht : j.team = [c])
    (hc : coreStartCauses s c = [a]) (hv : trapValid (s.core c) = false) : startChecks j.id s = takeTrap c false a [] s := by
  have hteam : startFetched s c = true := by simpa [ht] using hf
  simp [startChecks, hj, hp, ht, hteam, hc, trapAtStart, hv]

end JobStart

theorem startFetched_of {s : State} {c : CoreId} (h : ∀ e ∈ Claims.presentOn s c, (nextJob s c e).fetched = true) :
    startFetched s c = true := List.all_eq_true.mpr h

/-- A core without a stream that fails its first check has no cause. -/
theorem coreStartCauses_nil {s : State} {c : CoreId} (h : ∀ e ∈ Claims.presentOn s c, startCheck s c e = none) : coreStartCauses s c = [] :=
  List.flatMap_eq_nil_iff.mpr fun e he => by rw [startCauses, h e he]

/-- A core of one stream has the cause of that stream. -/
theorem coreStartCauses_single {s : State} {c : CoreId} {e : Engine} {x : Nat × Nat} (hp : Claims.presentOn s c = [e])
    (hx : startCheck s c e = some x) (ht : startTraps e x = true) : coreStartCauses s c = [causeBy (firstReq e) x.1 x.2 0] := by
  have hcore : coreStartCauses s c = (Claims.presentOn s c).flatMap (startCauses s c) := rfl
  rw [hcore, hp, List.flatMap_singleton, startCauses, hx]
  exact if_pos ht

/-- What the start of a job does. -/
theorem jobStart_result {s : State} {j : Job} (hregq : s.regq = []) (hj : jobById s j.id = some j) (hp : j.phase = .loaded)
    (hf : ∀ c ∈ j.team, ∀ e ∈ Claims.presentOn s c, (nextJob s c e).fetched = true) :
    let unit (c : CoreId) (e : Engine) : Seen := seeUnit s c ((s.core c).stream e).buf ((s.core c).stream e).pos.base
    ((∀ c ∈ j.team, ∀ e ∈ Claims.presentOn s c,
        let n := nextJob s c e
        (unit c e).bad = false ∧ isHeader (unit c e).val = true ∧ n.bad = false ∧ n.detail = 0 ∧ n.bits.extractLsb' 88 8 = 0xB1 ∧
        n.bits.extractLsb' 80 8 = 0 ∧ (unpackWord n.bits).fn = 0 ∧
        encodingDetail { eng := e, first := true, trap := false, intr := false } (unpackWord n.bits) = 0) →
      exec (.jobStart j.id) s = .next (s.modJob j.id fun j => { j with phase := .running })) ∧
    (∀ c e, j.team = [c] → Claims.presentOn s c = [e] → trapValid (s.core c) = false →
      let trap (code detail : Nat) : State := takeTrap c false
        { code, detail, r1 := some { eng := e, pitch := 0, word := 0 }, r2 := none, obj := 0 } [] s
      (e.timed = true → (unit c e).bad = true → exec (.jobStart j.id) s = .next (trap 11 7)) ∧
      ((unit c e).bad = false → isHeader (unit c e).val = true → (nextJob s c e).bad = false → (nextJob s c e).detail = 0 →
        isAlign (nextJob s c e).bits = false → exec (.jobStart j.id) s = .next (trap 4 9))) := by
  intro unit
  have hteam : j.team.all (startFetched s) = true := List.all_eq_true.mpr fun c hc => startFetched_of (hf c hc)
  refine ⟨fun h => ?_, fun c e ht he hv => ?_⟩
  · have hnone (c) (hc : c ∈ j.team) : coreStartCauses s c = [] := coreStartCauses_nil fun e he => by
      obtain ⟨hbad, hhdr, hword, hdetail, hop, hdelay, hfn, henc⟩ := h c hc e he
      exact startCheck_none hbad hhdr hword hdetail (by simp [isAlign, hop, hdelay, hfn]) henc
    rw [exec_jobStart, startChecks_begins hj hp hteam hnone]
    exact done_of_regq hregq
  · have htrap (x : Nat × Nat) (hx : startCheck s c e = some x) (hs : startTraps e x = true) :
        exec (.jobStart j.id) s = .next (takeTrap c false (causeBy (firstReq e) x.1 x.2 0) [] s) := by
      rw [exec_jobStart, startChecks_traps hj hp hteam ht (coreStartCauses_single he hx hs) hv]
      exact done_of_regq ((takeTrap_regq c false _ [] s).trans hregq)
    exact ⟨fun hte hbad => htrap (11, 7) (startCheck_bad hbad) (by simp [startTraps, hte]),
      fun hbad hhdr hword hdetail halign => htrap (4, 9) (startCheck_other hbad hhdr hword hdetail halign) (by simp [startTraps])⟩

end Sys2Proof.Proofs.Start
end

section
/-! PROOFS. The retirements of `rdv.align` and of a rendezvous (R26, R100, R102, R132, R136). -/

namespace Sys2Proof.Proofs.Retire

open Sys2Proof Sys2Proof.Machine Sys2Proof.Proofs.Acts Sys2Proof.Proofs.Traps Sys2Proof.Proofs.Start

/-! ### The members of a job -/

theorem mem_members {s : State} {j : Job} {m : CoreId × Engine} : m ∈ members s j ↔ m.1 ∈ j.team ∧ m.2 ∈ Claims.presentOn s m.1 := by
  simp only [members, Claims.presentOn, List.mem_flatten, List.mem_map]
  constructor
  · rintro ⟨l, ⟨c, hc, rfl⟩, hm⟩
    obtain ⟨e, he, rfl⟩ := List.mem_map.mp hm
    exact ⟨hc, he⟩
  · rintro ⟨hc, he⟩
    exact ⟨_, ⟨m.1, hc, rfl⟩, List.mem_map.mpr ⟨m.2, he, rfl⟩⟩

/-! ### What an acquire leaves as it was (R318, R324) -/

theorem onlyMemory_jobs {s t : State} (h : OnlyMemory s t) : t.jobs = s.jobs := by rw [h]
theorem onlyMemory_regq {s t : State} (h : OnlyMemory s t) : t.regq = s.regq := by rw [h]

theorem onlyMemory_refreshCopy (s : State) (f : Fin 4) (line : Nat) (x : L2Line) : OnlyMemory s (refreshCopy s f line x) :=
  onlyMemory_if _ (onlyMemory_evictLine s f line) rfl

theorem onlyMemory_discardClean (f : Fin 4) (v : World) (s : State) : OnlyMemory s (discardClean f v s) := by
  refine onlyMemory_foldl _ _ s fun s line => ?_
  split
  · exact onlyMemory_if _ (.refl s) (onlyMemory_if _ rfl (onlyMemory_if _ (onlyMemory_refreshCopy s f line _) (.refl s)))
  · exact .refl s

/-- Two states that differ in memory and in the lines that the APs of some cores hold, and in nothing else that a job is made of. -/
structure OnlyHeld (team : List CoreId) (s t : State) : Prop where
  jobs : t.jobs = s.jobs
  clusters : t.clusters = s.clusters
  regq : t.regq = s.regq
  other : ∀ d, d ∉ team → t.core d = s.core d
  core : ∀ d, dropHeldLines (t.core d) = dropHeldLines (s.core d)

section Held

variable {team : List CoreId} {s t u : State}

theorem OnlyHeld.refl (team : List CoreId) (s : State) : OnlyHeld team s s := ⟨rfl, rfl, rfl, fun _ _ => rfl, fun _ => rfl⟩

theorem OnlyHeld.trans (h : OnlyHeld team s t) (h' : OnlyHeld team t u) : OnlyHeld team s u :=
  ⟨h'.jobs.trans h.jobs, h'.clusters.trans h.clusters, h'.regq.trans h.regq, fun d hd => (h'.other d hd).trans (h.other d hd),
    fun d => (h'.core d).trans (h.core d)⟩

section Core

variable (h : OnlyHeld team s t) (d : CoreId)
include h

theorem OnlyHeld.scal : (t.core d).scal = (s.core d).scal := (congrArg Core.scal (h.core d) :)
theorem OnlyHeld.streams : (t.core d).streams = (s.core d).streams := (congrArg Core.streams (h.core d) :)
theorem OnlyHeld.csr : (t.core d).csr = (s.core d).csr := (congrArg Core.csr (h.core d) :)

theorem OnlyHeld.jobById (id : Nat) : jobById t id = jobById s id := congrArg (·.find? fun x => decide (x.id = id)) h.jobs

theorem OnlyHeld.stream (e : Engine) : (t.core d).stream e = (s.core d).stream e := by
  simp only [Core.stream, h.streams]

end Core

theorem onlyHeld_acquireAp {c : CoreId} (hc : c ∈ team) (s : State) : OnlyHeld team s (acquireAp c s) := by
  have hm := onlyMemory_discardClean c.face (s.core c).csr.world s
  refine ⟨(onlyMemory_jobs hm :), hm.clusters, (onlyMemory_regq hm :), fun d hd => ?_, fun d => ?_⟩
  · have hne : d ≠ c := fun h => hd (h.symm ▸ hc)
    exact (State.core_modCore_other _ _ _ _ hne).trans (hm.core d)
  · rw [acquireAp]
    by_cases hd : d = c
    · subst hd
      rw [State.core_modCore_same, hm.core]
      rfl
    · rw [State.core_modCore_other _ _ _ _ hd, hm.core]

theorem onlyHeld_acquire {c : CoreId} (hc : c ∈ team) (scope : Nat) (s : State) : OnlyHeld team s (fenceAp c scope false true s) := by
  simp only [fenceAp, Bool.and_false, Bool.and_true, Bool.false_eq_true, if_false]
  split
  · exact onlyHeld_acquireAp hc s
  · exact .refl team s

theorem onlyHeld_foldl {f : State → CoreId → State} {l : List CoreId} (hf : ∀ s, ∀ c ∈ l, OnlyHeld team s (f s c)) (s : State) :
    OnlyHeld team s (l.foldl f s) := by
  induction l generalizing s with
  | nil => exact .refl team s
  | cons c r ih => exact (hf s c List.mem_cons_self).trans (ih (fun s d hd => hf s d (List.mem_cons_of_mem _ hd)) _)

theorem onlyHeld_orderAps (j : Job) (s : State) : OnlyHeld j.team s (orderAps j s) :=
  onlyHeld_foldl (fun s _ hc => onlyHeld_acquire (List.mem_filter.mp hc).1 _ s) s

end Held

/-! ### A core past `rdv.align` (R26, R102) -/

/-- A stream past its `rdv.align`. -/
def passedStream (clk : Nat) (p : Pos) (e : Engine) (t : Stream) : Stream :=
  { t with
    loops := if e.timed then Vector.replicate 4 Level.zero else t.loops, rot := 0, rdvs := 0, arrived := none, last := clk, extra := 0
    pos := posAfter p, first := false, ret := if (posAfter p).hdr then p.pitch else t.ret }

theorem levelOf_zero {t : Stream} (h : t.loops = Vector.replicate 4 Level.zero) (i : Nat) : (levelOf t i).act = false := by
  have hget : vget (Vector.replicate 4 Level.zero) i Level.zero = Level.zero := by
    by_cases hi : i < 4
    · simp [vget, hi]
    · simp [vget, hi]
  rw [levelOf, h, hget]
  rfl

/-- `rdv.align` resolves no loop level. -/
theorem passAlign_eq {clk : Nat} {p : Pos} {e : Engine} {x : Core} (h : e.timed = true ∨ (x.stream e).loops = Vector.replicate 4 Level.zero) :
    passAlign clk p e x = x.modStream e (passedStream clk p e) := by
  have hloops : (if e.timed then Vector.replicate 4 Level.zero else (x.stream e).loops) = Vector.replicate 4 Level.zero := by
    obtain h | h := h
    · exact if_pos h
    · rw [h, ite_self]
  rw [passAlign, advanceJob]
  simp only
  rw [resolveLoops_none _ _ _ _ fun i _ hact => ?_]
  · rw [modStream_modStream]
    refine congrArg (x.modStream e) (funext fun t => ?_)
    simp [passedStream]
  · rw [Core.stream_modStream_same, levelOf_zero hloops] at hact
    exact absurd hact.1 Bool.false_ne_true

/-- What `rdv.align` leaves of a stream (R102). -/
def Aligned (e : Engine) (t : Stream) : Prop :=
  t.first = false ∧ t.rdvs = 0 ∧ (e.timed = true → t.rot = 0 ∧ t.loops = Vector.replicate 4 Level.zero)

theorem aligned_passedStream (clk : Nat) (p : Pos) (e : Engine) (t : Stream) : Aligned e (passedStream clk p e t) :=
  ⟨rfl, rfl, fun h => ⟨rfl, if_pos h⟩⟩

/-- Two cores that differ in their streams alone. -/
def OnlyStreams (x y : Core) : Prop := y = { x with streams := y.streams }

theorem OnlyStreams.trans {x y z : Core} (h : OnlyStreams x y) (h' : OnlyStreams y z) : OnlyStreams x z := by
  unfold OnlyStreams at *; rw [h']; rw [h]

/-- The streams of a core past their `rdv.align`. -/
theorem passAligns {clk : Nat} {ps : List (Engine × Pos)} {x : Core} (h : (x.stream .ap).loops = Vector.replicate 4 Level.zero) :
    let y := ps.foldl (fun x p => passAlign clk p.2 p.1 x) x
    OnlyStreams x y ∧ ∀ e, e ∈ ps.map Prod.fst ∨ Aligned e (x.stream e) → Aligned e (y.stream e) := by
  induction ps generalizing x with
  | nil => exact ⟨rfl, fun e he => he.resolve_left (by simp)⟩
  | cons p r ih =>
    have hp : passAlign clk p.2 p.1 x = x.modStream p.1 (passedStream clk p.2 p.1) := passAlign_eq (by
      cases hp : p.1 with
      | ap => exact .inr h
      | lead | mx | va | vb | sf => exact .inl rfl)
    have hap : ((passAlign clk p.2 p.1 x).stream .ap).loops = Vector.replicate 4 Level.zero := by
      rw [hp]
      by_cases hap : Engine.ap = p.1
      · rw [← hap, Core.stream_modStream_same]
        exact h
      · rw [Core.stream_modStream_other _ _ _ _ hap, h]
    obtain ⟨hrest, hstreams⟩ := ih hap
    have hstep : OnlyStreams x (passAlign clk p.2 p.1 x) := by rw [hp]; rfl
    refine ⟨hstep.trans hrest, fun e he => hstreams e ?_⟩
    by_cases hep : e = p.1
    · rw [hep, hp, Core.stream_modStream_same]
      exact .inr (aligned_passedStream _ _ _ _)
    · rw [hp, Core.stream_modStream_other _ _ _ _ hep]
      exact he.imp (fun hmem => (List.mem_cons.mp hmem).resolve_left hep) id

/-- A core past `rdv.align`, and what it leaves of the core (R26, R60, R102). -/
theorem alignCore_core {s : State} {c : CoreId} (h : ((s.core c).stream .ap).loops = Vector.replicate 4 Level.zero) :
    OnlyStreams (alignState false (s.cluster c.cluster).clk (s.core c)) ((alignCore false s c).core c) ∧
      ∀ e ∈ Claims.presentOn s c, Aligned e (((alignCore false s c).core c).stream e) := by
  rw [alignCore, State.core_modCore_same]
  obtain ⟨hrest, hstreams⟩ := passAligns (clk := (s.cluster c.cluster).clk)
    (ps := (Claims.presentOn s c).map fun e => (e, (nextJob s c e).pos)) (x := alignState false (s.cluster c.cluster).clk (s.core c)) h
  exact ⟨hrest, fun e he => hstreams e (.inl (by simpa [Function.comp_def] using he))⟩

/-! ### Changes of the cores of a team alone -/

/-- Two states that differ in some cores alone. -/
def OnlyCores (team : List CoreId) (s t : State) : Prop := t = { s with cores := t.cores } ∧ ∀ d, d ∉ team → t.core d = s.core d

theorem OnlyCores.trans {team : List CoreId} {s t u : State} (h : OnlyCores team s t) (h' : OnlyCores team t u) : OnlyCores team s u := by
  obtain ⟨hs, hd⟩ := h
  obtain ⟨hs', hd'⟩ := h'
  exact ⟨by rw [hs']; rw [hs], fun d h => (hd' d h).trans (hd d h)⟩

theorem onlyCores_modCore {team : List CoreId} {c : CoreId} (hc : c ∈ team) (s : State) (f : Core → Core) : OnlyCores team s (s.modCore c f) :=
  ⟨rfl, fun d hd => State.core_modCore_other s c d f fun h => hd (h.symm ▸ hc)⟩

section Fold

variable {F : State → CoreId → Core → Core}

/-- The cores of a list changed one by one. -/
theorem onlyCores_foldl {team l : List CoreId} (hl : ∀ c ∈ l, c ∈ team) (s : State) :
    OnlyCores team s (l.foldl (fun s c => s.modCore c (F s c)) s) := by
  induction l generalizing s with
  | nil => exact ⟨rfl, fun _ _ => rfl⟩
  | cons c r ih => exact (onlyCores_modCore (hl c List.mem_cons_self) s _).trans (ih (fun d hd => hl d (List.mem_cons_of_mem _ hd)) _)

/-- A core of a list without repetitions is changed once, from what it was. -/
theorem core_foldl_modCore {l : List CoreId} (hnd : l.Nodup) {c : CoreId} (hc : c ∈ l) (s : State) :
    ∃ u : State, u = { s with cores := u.cores } ∧ u.core c = s.core c ∧
      (l.foldl (fun s c => s.modCore c (F s c)) s).core c = (u.modCore c (F u c)).core c := by
  induction l generalizing s with
  | nil => exact absurd hc List.not_mem_nil
  | cons d r ih =>
    obtain ⟨hdr, hnr⟩ := List.nodup_cons.mp hnd
    by_cases hcd : c = d
    · subst hcd
      exact ⟨s, rfl, rfl, (onlyCores_foldl (fun _ h => h) _).2 c hdr⟩
    · obtain ⟨u, hu, hcore, hfold⟩ := ih hnr ((List.mem_cons.mp hc).resolve_left hcd) (s.modCore d (F s d))
      exact ⟨u, hu, hcore.trans (State.core_modCore_other s d c _ hcd), hfold⟩

end Fold

/-! ### RDV_ALIGN_RETIRE -/

/-- What `rdv.align` makes of a core. -/
def alignedCore (kept : Bool) (s : State) (c : CoreId) (x : Core) : Core :=
  ((Claims.presentOn s c).map fun e => (e, (nextJob s c e).pos)).foldl (fun x p => passAlign (s.cluster c.cluster).clk p.2 p.1 x)
    (alignState kept (s.cluster c.cluster).clk x)

theorem slotWritten_of_pw {x : Core} (h : x.scal.pw = BitVec.allOnes 15) {i : Nat} (hi : i < 15) : slotWritten x false i = true := by
  rw [slotWritten, if_neg Bool.false_ne_true, h]
  exact BitVec.getLsbD_allOnes.trans (decide_eq_true hi)

theorem slotVal_of_pv {x : Core} (h : x.scal.pv = 0) (i : Nat) : slotVal x false i = false := by
  rw [slotVal, if_neg Bool.false_ne_true, h]
  exact BitVec.getLsbD_zero

theorem alignCore_eq (kept : Bool) : alignCore kept = fun s c => s.modCore c (alignedCore kept s c) := rfl

theorem onlyCores_alignTeam (kept : Bool) (team : List CoreId) (s : State) : OnlyCores team s (team.foldl (alignCore kept) s) :=
  onlyCores_foldl (F := alignedCore kept) (fun _ h => h) s

/-- A core of a team whose `rdv.align` has retired. -/
theorem core_alignTeam {team : List CoreId} {s : State} {c : CoreId} (hnd : team.Nodup) (hc : c ∈ team)
    (h : ((s.core c).stream .ap).loops = Vector.replicate 4 Level.zero) :
    OnlyStreams (alignState false (s.cluster c.cluster).clk (s.core c)) ((team.foldl (alignCore false) s).core c) ∧
      ∀ e ∈ Claims.presentOn s c, Aligned e (((team.foldl (alignCore false) s).core c).stream e) := by
  obtain ⟨u, hu, hcore, hfold⟩ := core_foldl_modCore (F := alignedCore false) hnd hc s
  have hclk : u.cluster = s.cluster := by rw [hu]; rfl
  have hcu := alignCore_core (s := u) (c := c) (by rw [hcore]; exact h)
  rw [hclk, hcore, Claims.presentOn, hcore] at hcu
  rw [alignCore_eq, hfold]
  exact hcu

section Align

variable {s : State} {j : Job} (hj : jobById s j.id = some j) (hp : j.phase = .running) (ht : ∀ c ∈ j.team, trapValid (s.core c) = false)
  (hst : ∀ c ∈ j.team, ∀ e ∈ Claims.presentOn s c, ((s.core c).stream e).first = true ∧ (nextJob s c e).fetched = true ∧
    startCheck s c e = none ∧ ∀ w ∈ (nextJob s c e).waits, waitMet (s.core c) w = true)
include hj hp ht hst

/-- A team whose members all stand at their `rdv.align` retires. -/
theorem retireAlign_eq : retireAlign j.id s =
    (j.team.foldl (alignCore j.atFlip) (orderAps j s)).modJob j.id fun j => { j with rdvs := 0, atFlip := false } := by
  have hfirst : (members s j).all (standsFirst s) = true := List.all_eq_true.mpr fun m hm => by
    obtain ⟨hc, he⟩ := mem_members.mp hm
    obtain ⟨hf, hfetched, hcheck, -⟩ := hst m.1 hc m.2 he
    simp [standsFirst, hf, hfetched, hcheck]
  have halign : (members s j).all (atAlign s) = true := List.all_eq_true.mpr fun m hm => by
    obtain ⟨hc, he⟩ := mem_members.mp hm
    obtain ⟨-, -, -, hw⟩ := hst m.1 hc m.2 he
    have hwaits : alignWaits s m = [] := List.filter_eq_nil_iff.mpr fun w hmem => by simp [hw w hmem]
    rw [atAlign, List.all_eq_true.mp hfirst m hm, hwaits]
    rfl
  have htrap : (j.team.all fun c => !trapValid (s.core c)) = true := List.all_eq_true.mpr fun c hc => by simp [ht c hc]
  simp [retireAlign, hj, hp, hfirst, htrap, halign]

end Align

/-- What RDV_ALIGN_RETIRE does when every member stands at its `rdv.align`. -/
theorem rdvAlignRetire_result {s : State} {j : Job} (hregq : s.regq = []) (hj : jobById s j.id = some j) (hp : j.phase = .running)
    (hnd : j.team.Nodup) (hflip : j.atFlip = false) (ht : ∀ c ∈ j.team, trapValid (s.core c) = false)
    (hloops : ∀ c ∈ j.team, ((s.core c).stream .ap).loops = Vector.replicate 4 Level.zero)
    (hst : ∀ c ∈ j.team, ∀ e ∈ Claims.presentOn s c, ((s.core c).stream e).first = true ∧ (nextJob s c e).fetched = true ∧
       startCheck s c e = none ∧ ∀ w ∈ (nextJob s c e).waits, waitMet (s.core c) w = true) :
    ∃ t, exec (.rdvAlignRetire j.id) s = .next t ∧ jobById t j.id = some { j with rdvs := 0 } ∧ t.clusters = s.clusters ∧
       (∀ d, d ∉ j.team → t.core d = s.core d) ∧
       ∀ c ∈ j.team, (t.core c).aligned = true ∧ tickOf t c = 0 ∧ (t.core c).scal.s = (s.core c).scal.s ∧
         (t.core c).scal.a = (s.core c).scal.a ∧ (∀ i, i < 15 → slotWritten (t.core c) false i = true ∧ slotVal (t.core c) false i = false) ∧
         (t.core c).bench = Bench.reset ∧ (t.core c).sf.h = Vector.replicate 256 0 ∧ (t.core c).ap.geo = Vector.replicate 8 0 ∧
         ∀ e ∈ Claims.presentOn s c, ((t.core c).stream e).first = false ∧ ((t.core c).stream e).rdvs = 0 ∧
           (e.timed = true → ((t.core c).stream e).rot = 0 ∧ ((t.core c).stream e).loops = Vector.replicate 4 Level.zero) := by
  have ho := onlyHeld_orderAps j s
  obtain ⟨hrest, hother⟩ := onlyCores_alignTeam false j.team (orderAps j s)
  have hexec : exec (.rdvAlignRetire j.id) s = done (retireAlign j.id s) := rfl
  rw [hexec, retireAlign_eq hj hp ht hst, hflip]
  have hcores (c) (hc : c ∈ j.team) := core_alignTeam (s := orderAps j s) hnd hc (by rw [ho.stream]; exact hloops c hc)
  generalize j.team.foldl (alignCore false) (orderAps j s) = T at hrest hother hcores
  have hjobs : jobById T j.id = some j := by
    rw [hrest]
    exact (ho.jobById j.id).trans hj
  have hclusters : T.clusters = s.clusters := by rw [hrest]; exact ho.clusters
  refine ⟨T.modJob j.id fun j => { j with rdvs := 0, atFlip := false }, done_of_regq ?_, ?_, hclusters,
    fun d hd => (hother d hd).trans (ho.other d hd), fun c hc => ?_⟩
  · rw [hrest]
    exact ho.regq.trans hregq
  · refine (jobById_modJob (by intro; rfl)).trans ?_
    rw [hjobs, Option.map_some, ← hflip]
  · obtain ⟨hcore, hstreams⟩ := hcores c hc
    have hscal : (T.core c).scal = { (s.core c).scal with pv := 0, pw := BitVec.allOnes 15 } := by
      rw [hcore, ← ho.scal]
      rfl
    have htick : tickOf T c = 0 := by
      have hclk : (T.cluster c.cluster).clk = ((orderAps j s).cluster c.cluster).clk := by rw [hrest]; rfl
      rw [tickOf, hclk, hcore]
      simp [alignState]
    have hpresent : Claims.presentOn (orderAps j s) c = Claims.presentOn s c := by simp only [Claims.presentOn, ho.stream]
    refine ⟨(congrArg Core.aligned hcore :), htick, (congrArg Scal.s hscal :), (congrArg Scal.a hscal :), 
      fun i hi => ⟨slotWritten_of_pw (congrArg Scal.pw hscal :) hi, slotVal_of_pv (congrArg Scal.pv hscal :) i⟩,
      (congrArg Core.bench hcore :), (congrArg (·.sf.h) hcore :), (congrArg (·.ap.geo) hcore :), fun e he => hstreams e (hpresent ▸ he)⟩

/-! ### RENDEZVOUS_RETIRE (R100, R132, R136) -/

theorem exec_rendezvousRetire (id : Nat) (s : State) : exec (.rendezvousRetire id) s = done (retireRdv id s) := rfl

theorem members_isEmpty_of_head {s : State} {j : Job} {m : CoreId × Engine} (h : (members s j).head? = some m) :
    (members s j).isEmpty = false := by
  cases hl : members s j with
  | nil => rw [hl] at h; exact absurd h (Option.some_ne_none m).symm
  | cons _ _ => rfl

theorem not_all_ended_of_head {s : State} {j : Job} {m : CoreId × Engine} (h : (members s j).head? = some m)
    (he : ∀ m ∈ members s j, ((s.core m.1).stream m.2).ended = false) :
    ((members s j).all fun m => ((s.core m.1).stream m.2).ended) = false :=
  List.all_eq_false.mpr ⟨m, List.mem_of_mem_head? h, by simp [he m (List.mem_of_mem_head? h)]⟩

section Rendezvous

variable {s : State} {j : Job} (hj : jobById s j.id = some j) (hp : j.phase = .running) (hflip : j.atFlip = false)
include hj hp hflip

/-- Nothing retires before every member stands there. -/
theorem retireRdv_waits {m : CoreId × Engine} (hm : m ∈ members s j) (hthere : memberThere s j m = false) : retireRdv j.id s = s := by
  have hall : (members s j).all (memberThere s j) = false := List.all_eq_false.mpr ⟨m, hm, by simp [hthere]⟩
  simp [retireRdv, hj, hp, hflip, hall]

variable {m0 : CoreId × Engine} (hhead : (members s j).head? = some m0)
  (hmem : ∀ m ∈ members s j, ((s.core m.1).stream m.2).ended = false ∧ memberThere s j m = true)
include hhead hmem

/-- A rendezvous that every member stands at retires if they stand at one form. -/
theorem retireRdv_passes (hfind : ((members s j).find? fun m => decide (memberForm s m ≠ memberForm s m0)) = none) :
    retireRdv j.id s = passRendezvous j (decide (memberForm s m0 = some .flip)) s := by
  have hall : (members s j).all (memberThere s j) = true := List.all_eq_true.mpr fun m hm => (hmem m hm).2
  have hempty : (members s j).isEmpty = false := members_isEmpty_of_head hhead
  have hended := not_all_ended_of_head hhead fun m hm => (hmem m hm).1
  simp only [retireRdv, hj, hp, hflip, hempty, hall, hended, hhead, hfind]
  rfl

/-- A rendezvous that every member stands at traps if they stand at different forms. -/
theorem retireRdv_formTrap {m : CoreId × Engine} (hfind : ((members s j).find? fun m => decide (memberForm s m ≠ memberForm s m0)) = some m) :
    retireRdv j.id s = formTrap j (reqOf s m.1 m.2) s := by
  have hall : (members s j).all (memberThere s j) = true := List.all_eq_true.mpr fun m hm => (hmem m hm).2
  have hempty : (members s j).isEmpty = false := members_isEmpty_of_head hhead
  have hended := not_all_ended_of_head hhead fun m hm => (hmem m hm).1
  simp only [retireRdv, hj, hp, hflip, hempty, hall, hended, hhead, hfind]
  rfl

end Rendezvous

/-- A member that stands for a trap has not arrived. -/
theorem memberThere_trapPending {s : State} {j : Job} {m : CoreId × Engine} (he : ((s.core m.1).stream m.2).ended = false)
    (ht : m.2.timed = true) (hp : trapPending s m.1.cluster = true) : memberThere s j m = false := by simp [memberThere, he, ht, hp]

theorem memberThere_none {s : State} {j : Job} {m : CoreId × Engine} (he : ((s.core m.1).stream m.2).ended = false)
    (ha : ((s.core m.1).stream m.2).arrived = none) : memberThere s j m = false := by simp [memberThere, he, ha]

theorem memberThere_some {s : State} {j : Job} {m : CoreId × Engine} (ha : ((s.core m.1).stream m.2).arrived.isSome = true)
    (hr : ((s.core m.1).stream m.2).rdvs = j.rdvs) (hp : trapPending s m.1.cluster = false) : memberThere s j m = true := by
  simp [memberThere, ha, hr, hp]

theorem memberForm_eq {s : State} {m : CoreId × Engine} (he : ((s.core m.1).stream m.2).ended = false) :
    memberForm s m = ((s.core m.1).stream m.2).arrived := by simp [memberForm, he]

/-- A rendezvous whose forms differ traps the core of a team of one. -/
theorem formTrap_single {s : State} {j : Job} {c : CoreId} (ht : j.team = [c]) (r : Req) (hp : trapPending s c.cluster = false) :
    formTrap j r s = takeTrap c false (causeBy r 4 2 0) [] s := by
  have hk : teamClusters j = [c.cluster] := by rw [teamClusters, ht]; rfl
  simp [formTrap, hk, ht, hp]

/-- The job of a rendezvous that has retired. -/
theorem jobById_passRendezvous {s : State} {j : Job} (hj : jobById s j.id = some j) (flip : Bool) :
    jobById (passRendezvous j flip s) j.id = some { j with
      rdvs := j.rdvs + 1
      phase := if flip && j.team.any fun c => (s.core c).csr.preq then .suspending else j.phase
      atFlip := flip && !(j.team.any fun c => (s.core c).csr.preq) && j.swap.isSome } := by
  have ho := onlyHeld_orderAps j s
  have hpreq : (j.team.any fun c => ((orderAps j s).core c).csr.preq) = j.team.any fun c => (s.core c).csr.preq := by simp only [ho.csr]
  refine (jobById_modJob (by intro; rfl)).trans ?_
  rw [ho.jobById, hj, Option.map_some, hpreq]

/-- What RENDEZVOUS_RETIRE does while the job runs. -/
theorem rendezvousRetire_result {s : State} {j : Job} (hregq : s.regq = []) (hj : jobById s j.id = some j) (hp : j.phase = .running)
    (hflip : j.atFlip = false) (hne : members s j ≠ [])
    (hmem : ∀ m ∈ members s j, ((s.core m.1).stream m.2).ended = false ∧ ((s.core m.1).stream m.2).rdvs = j.rdvs) :
    ((∃ m ∈ members s j, m.2.timed = true ∧ trapPending s m.1.cluster = true) → exec (.rendezvousRetire j.id) s = .next s) ∧
    (∀ form : RdvForm, (∀ c ∈ j.team, trapPending s c.cluster = false) → (∀ m ∈ members s j, ((s.core m.1).stream m.2).arrived = some form) →
      ∃ t, exec (.rendezvousRetire j.id) s = .next t ∧
        jobById t j.id = some { j with
          rdvs := j.rdvs + 1
          phase := if form = .flip ∧ (∃ c ∈ j.team, (s.core c).csr.preq = true) then .suspending else .running
          atFlip := decide (form = .flip) && !(j.team.any fun c => (s.core c).csr.preq) && j.swap.isSome } ∧
        t.clusters = s.clusters ∧ ∀ c, (t.core c).scal = (s.core c).scal ∧ (t.core c).streams = (s.core c).streams) ∧
    (∀ c m0 m1, j.team = [c] → (members s j).head? = some m0 → m1 ∈ members s j →
      (∀ m ∈ members s j, ((s.core m.1).stream m.2).arrived.isSome = true) → trapPending s c.cluster = false →
      (members s j).find? (fun m => decide (((s.core m.1).stream m.2).arrived ≠ ((s.core m0.1).stream m0.2).arrived)) = some m1 →
      exec (.rendezvousRetire j.id) s = .next (takeTrap c false
        { code := 4, detail := 2, r1 := some { eng := m1.2, pitch := (nextOf s m1.1 m1.2).pos.pitch, word := (nextOf s m1.1 m1.2).pos.off }
          r2 := none, obj := 0 } [] s)) ∧
    (∀ m ∈ members s j, ((s.core m.1).stream m.2).arrived = none → exec (.rendezvousRetire j.id) s = .next s) := by
  simp only [exec_rendezvousRetire]
  refine ⟨?_, fun form hpend harr => ?_, fun c m0 m1 ht hhead _ harr hpend hfind => ?_, fun m hm harr => ?_⟩
  · rintro ⟨m, hm, ht, hpend⟩
    rw [retireRdv_waits hj hp hflip hm (memberThere_trapPending (hmem m hm).1 ht hpend)]
    exact done_of_regq hregq
  · obtain ⟨m0, r, hl⟩ := List.exists_cons_of_ne_nil hne
    have hhead : (members s j).head? = some m0 := by rw [hl]; rfl
    have hform (m) (hm : m ∈ members s j) : memberForm s m = some form := (memberForm_eq (hmem m hm).1).trans (harr m hm)
    have hf0 : memberForm s m0 = some form := hform m0 (List.mem_of_mem_head? hhead)
    have hnone : ((members s j).find? fun m => decide (memberForm s m ≠ memberForm s m0)) = none :=
      List.find?_eq_none.mpr fun m hm => by simp [hform m hm, hf0]
    have hthere (m) (hm : m ∈ members s j) : ((s.core m.1).stream m.2).ended = false ∧ memberThere s j m = true :=
      ⟨(hmem m hm).1, memberThere_some (by rw [harr m hm]; rfl) (hmem m hm).2 (hpend m.1 (mem_members.mp hm).1)⟩
    have ho := onlyHeld_orderAps j s
    refine ⟨passRendezvous j (decide (form = .flip)) s, ?_, ?_, ho.clusters, fun c => ⟨ho.scal c, ho.streams c⟩⟩
    · rw [retireRdv_passes hj hp hflip hhead hthere hnone, hf0]
      simp only [Option.some.injEq]
      exact done_of_regq (ho.regq.trans hregq)
    · rw [jobById_passRendezvous hj, hp]
      simp
  · have hform (m) (hm : m ∈ members s j) : memberForm s m = ((s.core m.1).stream m.2).arrived := memberForm_eq (hmem m hm).1
    have hfind' : ((members s j).find? fun m => decide (memberForm s m ≠ memberForm s m0)) = some m1 := by
      rw [← hfind]
      refine List.find?_congr fun m hm => ?_
      rw [hform m hm, hform m0 (List.mem_of_mem_head? hhead)]
    have hthere (m) (hm : m ∈ members s j) : ((s.core m.1).stream m.2).ended = false ∧ memberThere s j m = true := by
      have hc : m.1 = c := by simpa [ht] using (mem_members.mp hm).1
      exact ⟨(hmem m hm).1, memberThere_some (harr m hm) (hmem m hm).2 (hc ▸ hpend)⟩
    rw [retireRdv_formTrap hj hp hflip hhead hthere hfind', formTrap_single ht _ hpend]
    exact done_of_regq ((takeTrap_regq c false _ [] s).trans hregq)
  · rw [retireRdv_waits hj hp hflip hm (memberThere_none (hmem m hm).1 harr)]
    exact done_of_regq hregq

end Sys2Proof.Proofs.Retire
end

section
/-! PROOFS. The completion of a job (R409), and the events that move jobs on: fetch, start, retirement and completion (O42). -/

namespace Sys2Proof.Proofs.Complete

open Sys2Proof Sys2Proof.Machine Sys2Proof.Proofs.Acts Sys2Proof.Proofs.Device Sys2Proof.Proofs.Start Sys2Proof.Proofs.Retire

/-! ### Completion records -/

/-- The bytes of a number do not tell what stands above them. -/
theorem bytesOfNat_mod (n x : Nat) : bytesOfNat n (x % 256 ^ n) = bytesOfNat n x := by
  have h := bytesOfNat_append n 0 (x % 256 ^ n) (x / 256 ^ n) (Nat.mod_lt _ (by positivity))
  rw [Nat.mod_add_div, Nat.add_zero] at h
  rw [h]
  exact (List.append_nil _).symm

/-- What a unit of the package reads of a record that it has written. -/
theorem deviceBytes_devicePut {v : World} {a : Nat} {l : List Byte} {s : State} (h : s.memOk) (hl : l ≠ [])
    (ha : inHbm a l.length = true ∨ (inHost a = true ∧ inHost (a + (l.length - 1)) = true)) :
    deviceBytes (devicePut v a l s) v a l.length = l := by
  have hlen : l.length ≠ 0 := fun h => hl (List.length_eq_zero_iff.mp h)
  obtain ha | ⟨hlo, hhi⟩ := ha
  · have hnot : inHost a = false := by
      have hbound : a + l.length ≤ 0xC0_0000_0000 := of_decide_eq_true ha
      simp only [inHost, Bool.and_eq_false_iff, decide_eq_false_iff_not]
      omega
    have hbyte (i : Nat) (_ : i < l.length) : sget 0 (slist 0 0 l) (0 + i) = l.getD i 0 := sget_slist 0 0 l i
    rw [devicePut, if_neg (by simp [hnot]), if_pos ha]
    exact deviceBytes_deviceBlock (o := 0) _ hlen h ha (by omega) hbyte
  · rw [devicePut, if_pos hlo]
    refine deviceBytes_inHost (fun i hi => ?_) fun i hi => sget_sputs_inside 0 _ _ l i hi
    simp only [inHost, Bool.and_eq_true, decide_eq_true_eq] at hlo hhi ⊢
    omega

/-- The completion record of an entry, as a unit of the package reads it. -/
theorem deviceBytes_putCompletion {a status tick : Nat} {tag : BitVec 16} {s : State} (h : s.memOk) (hs : status < 256)
    (ha : inHbm (a + 112) 16 = true ∨ (inHost (a + 112) = true ∧ inHost (a + 127) = true)) :
    deviceBytes (putCompletion a status tag tick s) 0 (a + 112) 16 =
      bytesOfNat 8 (status + 2 ^ 8 + 2 ^ 16 * tag.toNat) ++ bytesOfNat 8 tick := by
  have htag : tag.toNat < 2 ^ 16 := tag.isLt
  have hbytes : bytesOfNat 16 (status % 256 + 2 ^ 8 + 2 ^ 16 * tag.toNat + 2 ^ 64 * (tick % 2 ^ 64)) =
      bytesOfNat 8 (status + 2 ^ 8 + 2 ^ 16 * tag.toNat) ++ bytesOfNat 8 tick := by
    have hparts := bytesOfNat_append 8 8 (status + 2 ^ 8 + 2 ^ 16 * tag.toNat) (tick % 256 ^ 8) (by omega)
    rw [bytesOfNat_mod] at hparts
    rw [Nat.mod_eq_of_lt hs]
    exact hparts
  have hread := deviceBytes_devicePut (v := 0) (a := a + 112)
    (l := bytesOfNat 16 (status % 256 + 2 ^ 8 + 2 ^ 16 * tag.toNat + 2 ^ 64 * (tick % 2 ^ 64))) h (by simp [bytesOfNat])
    (by rw [length_bytesOfNat]; exact ha)
  rw [length_bytesOfNat] at hread
  exact hread.trans hbytes

/-! ### Dependence counts (R409) -/

theorem assocGet_assocPut {κ α : Type} [DecidableEq κ] (k a : κ) (v : α) (l : List (κ × α)) :
    assocGet a (assocPut k v l) = if a = k then some v else assocGet a l := by
  induction l with
  | nil =>
    by_cases h : a = k
    · simp [assocPut, assocGet, h]
    · simp [assocPut, assocGet, h, Ne.symm h]
  | cons p r ih =>
    obtain ⟨k', w⟩ := p
    by_cases hk : k' = k
    · by_cases h : a = k
      · simp [assocPut, assocGet, hk, h]
      · simp [assocPut, assocGet, hk, h, Ne.symm h]
    · by_cases h : k' = a
      · have hak : a ≠ k := h ▸ hk
        simp [assocPut, assocGet, h, hak]
      · simp [assocPut, assocGet, hk, h, ih]

/-- The completions noted against the entry at an address. -/
def depAt (s : State) (a : Nat) : Nat := (assocGet a s.camp.dep).getD 0

theorem depAt_lowerCount (b a : Nat) (s : State) : depAt (lowerCount b s) a = depAt s a + if b = a then 1 else 0 := by
  simp only [depAt, lowerCount, assocGet_assocPut]
  by_cases h : a = b
  · simp [h]
  · simp [h, Ne.symm h]

/-- Two states that differ in the dependence counts alone. -/
def OnlyDep (s t : State) : Prop := t = { s with camp := { s.camp with dep := t.camp.dep } }

theorem OnlyDep.trans {s t u : State} (h : OnlyDep s t) (h' : OnlyDep t u) : OnlyDep s u := by
  unfold OnlyDep at *; rw [h']; rw [h]

theorem OnlyDep.mem {s t : State} (h : OnlyDep s t) : t.mem = s.mem := by rw [h]
theorem OnlyDep.keys {s t : State} (h : OnlyDep s t) : t.keys = s.keys := by rw [h]
theorem OnlyDep.regq {s t : State} (h : OnlyDep s t) : t.regq = s.regq := by rw [h]

theorem onlyDep_releaseRing (addr index : Nat) (succ : List (BitVec 16)) (s : State) : OnlyDep s (releaseRing addr index succ s) := by
  unfold releaseRing
  generalize succ.filter (fun x => decide (x ≠ 0xFFFF)) = l
  induction l generalizing s with
  | nil => rfl
  | cons x r ih => exact OnlyDep.trans (t := lowerCount (ringMate addr index x.toNat) s) rfl (ih _)

/-- Each mention of a successor is noted once. -/
theorem depAt_releaseRing (addr index : Nat) (succ : List (BitVec 16)) (s : State) (a : Nat) : depAt (releaseRing addr index succ s) a =
    depAt s a + (succ.filter fun x => decide (x ≠ 0xFFFF) && decide (ringMate addr index x.toNat = a)).length := by
  have hfold (l : List (BitVec 16)) (s : State) : depAt (l.foldl (fun s x => lowerCount (ringMate addr index x.toNat) s) s) a =
      depAt s a + (l.filter fun x => decide (ringMate addr index x.toNat = a)).length := by
    induction l generalizing s with
    | nil => rfl
    | cons x r ih =>
      rw [List.foldl_cons, ih, depAt_lowerCount, List.filter_cons]
      by_cases h : ringMate addr index x.toNat = a
      · simp [h]
        omega
      · simp [h]
  rw [releaseRing, hfold, List.filter_filter]
  simp only [Bool.and_comm]

/-! ### A team settled (R330) -/

/-- What a job's completion needs of a state in which the accesses of its APs have performed. -/
structure Settled (s t : State) : Prop where
  jobs : t.jobs = s.jobs
  camp : t.camp = s.camp
  regq : t.regq = s.regq
  memOk : s.memOk → t.memOk
  scal : ∀ c, (t.core c).scal = (s.core c).scal
  scratch : ∀ c, (t.core c).scratch = (s.core c).scratch
  job : ∀ c, (t.core c).job = (s.core c).job
  storeQ : ∀ c, (t.core c).ap.storeQ = (s.core c).ap.storeQ

theorem Settled.refl (s : State) : Settled s s := ⟨rfl, rfl, rfl, id, fun _ => rfl, fun _ => rfl, fun _ => rfl, fun _ => rfl⟩

theorem Settled.trans {s t u : State} (h : Settled s t) (h' : Settled t u) : Settled s u :=
  ⟨h'.jobs.trans h.jobs, h'.camp.trans h.camp, h'.regq.trans h.regq, h'.memOk ∘ h.memOk, fun c => (h'.scal c).trans (h.scal c),
    fun c => (h'.scratch c).trans (h.scratch c), fun c => (h'.job c).trans (h.job c), fun c => (h'.storeQ c).trans (h.storeQ c)⟩

/-- An AP without stores has none to drain. -/
theorem drainAll_nil {s : State} {c : CoreId} (h : (s.core c).ap.storeQ = []) : drainAll c s = s := by
  rw [drainAll, h]
  rfl

theorem onlyMemory_releaseFace (f : Fin 4) (v : World) (s : State) : OnlyMemory s (releaseFace f v s) := by
  refine onlyMemory_foldl _ _ s fun s line => ?_
  split
  · exact onlyMemory_if _ (onlyMemory_writeBack s f line) (.refl s)
  · exact .refl s

theorem onlyMemory_camp {s t : State} (h : OnlyMemory s t) : t.camp = s.camp := by rw [h]

theorem settled_settleAp {s : State} {c : CoreId} (h : (s.core c).ap.storeQ = []) : Settled s (settleAp c s) := by
  have hm := onlyMemory_releaseFace c.face (s.core c).csr.world s
  have hrelease : releaseAp c s = releaseFace c.face (s.core c).csr.world s := by simp only [releaseAp, drainAll_nil h]
  have hcore {α : Type} (f : Core → α) (hf : ∀ x, f (arriveAll (dropHeldLines x)) = f x) (d : CoreId) : f ((settleAp c s).core d) = f (s.core d) := by
    rw [settleAp, hrelease]
    by_cases hd : d = c
    · rw [hd, State.core_modCore_same, hf, hm.core]
    · rw [State.core_modCore_other _ _ _ _ hd, hm.core]
  have hrest : (settleAp c s).jobs = (releaseAp c s).jobs ∧ (settleAp c s).camp = (releaseAp c s).camp ∧ (settleAp c s).regq = (releaseAp c s).regq :=
    ⟨rfl, rfl, rfl⟩
  rw [hrelease] at hrest
  obtain ⟨hjobs, hcamp, hregq⟩ := hrest
  exact ⟨hjobs.trans (onlyMemory_jobs hm), hcamp.trans (onlyMemory_camp hm), hregq.trans (onlyMemory_regq hm), memOk_settleAp c s,
    hcore Core.scal fun _ => rfl, hcore Core.scratch fun _ => rfl, hcore Core.job fun _ => rfl, hcore (·.ap.storeQ) fun _ => rfl⟩

/-- A team whose stores have all left their queues settles. -/
theorem settled_team {l : List CoreId} {s : State} (h : ∀ c ∈ l, (s.core c).ap.storeQ = []) : Settled s (l.foldl (fun s c => settleAp c s) s) := by
  induction l generalizing s with
  | nil => exact .refl s
  | cons c r ih =>
    have hc := settled_settleAp (h c List.mem_cons_self)
    exact hc.trans (ih fun d hd => (hc.storeQ d).trans (h d (List.mem_cons_of_mem _ hd)))

theorem drainTeam_nil {j : Job} {s : State} (h : ∀ c ∈ j.team, (s.core c).ap.storeQ = []) : drainTeam j s = s := by
  have hfold (l : List CoreId) (hl : ∀ c ∈ l, (s.core c).ap.storeQ = []) : l.foldl (fun s c => drainAll c s) s = s := by
    induction l with
    | nil => rfl
    | cons c r ih =>
      rw [List.foldl_cons, drainAll_nil (hl c List.mem_cons_self)]
      exact ih fun d hd => hl d (List.mem_cons_of_mem _ hd)
  exact hfold j.team h

/-! ### The cores freed -/

/-- A core after its job has gone from it. -/
theorem core_freeTeam (j : Job) (s : State) (c : CoreId) :
    (freeTeam j s).core c = if c ∈ j.team ∧ (s.core c).job = some j.id then endCore (s.core c) else s.core c := by
  have hfold (l : List CoreId) (s : State) : (l.foldl (fun s c => s.modCore c fun x => if x.job = some j.id then endCore x else x) s).core c =
      if c ∈ l ∧ (s.core c).job = some j.id then endCore (s.core c) else s.core c := by
    induction l generalizing s with
    | nil => simp
    | cons d r ih =>
      rw [List.foldl_cons, ih]
      by_cases hd : c = d
      · subst hd
        by_cases hjob : (s.core c).job = some j.id
        · simp [hjob, endCore, freeCore]
        · simp [hjob]
      · simp [State.core_modCore_other _ _ _ _ hd, hd]
  exact hfold j.team s

theorem jobById_dropJobRecord (id : Nat) (s : State) : jobById (dropJobRecord id s) id = none :=
  List.find?_eq_none.mpr fun j hj => by simpa using (List.mem_filter.mp hj).2

/-! ### JOB_COMPLETE (R409) -/

theorem exec_jobComplete (id : Nat) (s : State) : exec (.jobComplete id) s = done (completeJob id s) := rfl

/-- What a job that ends with a STATUS leaves, when its team has settled: its record, its successors' counts, its cores free. -/
def endedJob (j : Job) (status : Nat) (s : State) : State :=
  dropJobRecord j.id (freeTeam j (releaseRing j.entry j.index j.succ (putCompletion j.entry status j.tag j.maxTick s)))

section Ended

variable (j : Job) (status : Nat) (s : State)

theorem onlyMemory_putCompletion (a : Nat) (tag : BitVec 16) (tick : Nat) : OnlyMemory s (putCompletion a status tag tick s) :=
  onlyMemory_devicePut _ _ _ s

theorem onlyCores_freeTeam : OnlyCores j.team s (freeTeam j s) :=
  onlyCores_foldl (F := fun _ _ x => if x.job = some j.id then endCore x else x) (fun _ h => h) s

theorem endedJob_core (c : CoreId) : (endedJob j status s).core c =
    if c ∈ j.team ∧ (s.core c).job = some j.id then endCore (s.core c) else s.core c := by
  have hm := onlyMemory_putCompletion status s j.entry j.tag j.maxTick
  have hd : (releaseRing j.entry j.index j.succ (putCompletion j.entry status j.tag j.maxTick s)).core c = s.core c := by
    rw [onlyDep_releaseRing]
    exact hm.core c
  rw [← hd, ← core_freeTeam]
  rfl

theorem endedJob_rest : (endedJob j status s).regq = s.regq ∧
    (endedJob j status s).mem = (putCompletion j.entry status j.tag j.maxTick s).mem ∧
    (endedJob j status s).keys = (putCompletion j.entry status j.tag j.maxTick s).keys ∧
    (endedJob j status s).camp = (releaseRing j.entry j.index j.succ (putCompletion j.entry status j.tag j.maxTick s)).camp := by
  have hm := onlyMemory_putCompletion status s j.entry j.tag j.maxTick
  have hd := onlyDep_releaseRing j.entry j.index j.succ (putCompletion j.entry status j.tag j.maxTick s)
  have hf := (onlyCores_freeTeam j (releaseRing j.entry j.index j.succ (putCompletion j.entry status j.tag j.maxTick s))).1
  simp only [endedJob, dropJobRecord]
  rw [hf]
  exact ⟨hd.regq.trans (onlyMemory_regq hm), hd.mem, hd.keys, rfl⟩

end Ended

section Completion

variable {s : State} {j : Job} (hj : jobById s j.id = some j)
include hj

/-- A job that has neither been killed nor ended does not complete. -/
theorem completeJob_runs (hp : j.phase ≠ .killed) (h : jobEnded s j = false) : completeJob j.id s = s := by
  simp [completeJob, hj, hp, h]

variable (hr : j.replay = none) (hs : j.swap = none)
include hr hs

theorem completeJob_killed (hp : j.phase = .killed) : completeJob j.id s = endedJob j 1 s := by
  simp [completeJob, hj, hp, hr, hs, endedJob, endEntry]

theorem completeJob_ended (hp : j.phase ≠ .killed) (h : jobEnded s j = true) (hq : ∀ c ∈ j.team, (s.core c).ap.storeQ = []) :
    completeJob j.id s = endedJob j 0 (j.team.foldl (fun s c => settleAp c s) s) := by
  have hstores : j.team.all (storesDone s) = true := List.all_eq_true.mpr fun c hc => by simp [storesDone, hq c hc]
  simp [completeJob, hj, hp, hr, hs, h, drainTeam_nil hq, hstores, endedJob, endEntry]

end Completion

/-- A job whose streams have ended and whose commands have completed has ended. -/
theorem jobEnded_iff {s : State} {j : Job} : jobEnded s j = true ↔ j.phase = .running ∧
    (∀ m ∈ members s j, ((s.core m.1).stream m.2).ended = true) ∧ ∀ c ∈ j.team, (s.core c).cmds = [] ∧ (s.core c).running = [] := by
  simp [jobEnded, and_assoc]

/-- What JOB_COMPLETE does when the job has ended or was killed. -/
theorem jobComplete_result {s : State} {j : Job} (hregq : s.regq = []) (hj : jobById s j.id = some j) (hr : j.replay = none)
    (hs : j.swap = none) (hok : s.memOk)
    (ha : inHbm (j.entry + 112) 16 = true ∨ (inHost (j.entry + 112) = true ∧ inHost (j.entry + 127) = true))
    (hq : ∀ c ∈ j.team, (s.core c).ap.storeQ = [])
    (hend : j.phase = .killed ∨ (j.phase = .running ∧ (∀ m ∈ members s j, ((s.core m.1).stream m.2).ended = true) ∧
      (∀ c ∈ j.team, (s.core c).cmds = [] ∧ (s.core c).running = []))) :
    ∃ t, exec (.jobComplete j.id) s = .next t ∧ jobById t j.id = none ∧
      deviceBytes t 0 (j.entry + 112) 16 = bytesOfNat 8 ((if j.phase = .killed then 1 else 0) + 2 ^ 8 + 2 ^ 16 * j.tag.toNat) ++
        bytesOfNat 8 j.maxTick ∧
      (∀ c ∈ j.team, (s.core c).job = some j.id → (t.core c).job = none ∧ (t.core c).streams = Vector.replicate 6 Stream.absent) ∧
      (∀ c, (t.core c).scal.s = (s.core c).scal.s ∧ (t.core c).scal.a = (s.core c).scal.a ∧ (t.core c).scratch = (s.core c).scratch) ∧
      ∀ a, (assocGet a t.camp.dep).getD 0 = (assocGet a s.camp.dep).getD 0 +
        (j.succ.filter fun y => decide (y ≠ 0xFFFF) && decide (j.entry - 128 * j.index + 128 * y.toNat = a)).length := by
  obtain ⟨u, hu, hcomplete⟩ : ∃ u, Settled s u ∧ completeJob j.id s = endedJob j (if j.phase = .killed then 1 else 0) u := by
    obtain hk | hend := hend
    · exact ⟨s, .refl s, by rw [completeJob_killed hj hr hs hk, if_pos hk]⟩
    · have hk : j.phase ≠ .killed := by simp [hend.1]
      exact ⟨_, settled_team hq, by rw [completeJob_ended hj hr hs hk (jobEnded_iff.mpr hend) hq, if_neg hk]⟩
  generalize hstatus : (if j.phase = .killed then 1 else 0) = status at hcomplete
  have hlt : status < 256 := by rw [← hstatus]; split <;> decide
  obtain ⟨hqueue, hmem, hkeys, hcamp⟩ := endedJob_rest j status u
  refine ⟨endedJob j status u, ?_, jobById_dropJobRecord _ _, ?_, fun c hc hjob => ?_, fun c => ?_, fun a => ?_⟩
  · rw [exec_jobComplete, hcomplete]
    exact done_of_regq (hqueue.trans (hu.regq.trans hregq))
  · rw [deviceBytes_congr hmem hkeys]
    exact deviceBytes_putCompletion (hu.memOk hok) hlt ha
  · rw [endedJob_core, if_pos ⟨hc, (hu.job c).trans hjob⟩]
    exact ⟨rfl, rfl⟩
  · rw [← hu.scal, ← hu.scratch, endedJob_core]
    split <;> exact ⟨rfl, rfl, rfl⟩
  · have hdep : depAt (endedJob j status u) a = depAt s a +
        (j.succ.filter fun x => decide (x ≠ 0xFFFF) && decide (ringMate j.entry j.index x.toNat = a)).length := by
      have hbefore : depAt (putCompletion j.entry status j.tag j.maxTick u) a = depAt s a := by
        simp only [depAt, onlyMemory_camp (onlyMemory_putCompletion status u j.entry j.tag j.maxTick), hu.camp]
      rw [← hbefore, ← depAt_releaseRing, depAt, hcamp, depAt]
    exact hdep

/-- A job that runs on does not complete. -/
theorem jobComplete_runs {s : State} {j : Job} (hregq : s.regq = []) (hj : jobById s j.id = some j) (hp : j.phase ≠ .killed)
    (h : j.phase ≠ .running ∨ (∃ m ∈ members s j, ((s.core m.1).stream m.2).ended = false) ∨
      (∃ c ∈ j.team, (s.core c).cmds ≠ [] ∨ (s.core c).running ≠ [])) : exec (.jobComplete j.id) s = .next s := by
  have hends : jobEnded s j = false := by
    refine Bool.eq_false_iff.mpr fun hend => ?_
    obtain ⟨hrun, hmem, hcmds⟩ := jobEnded_iff.mp hend
    obtain h | ⟨m, hm, hended⟩ | ⟨c, hc, hleft⟩ := h
    · exact h hrun
    · exact Bool.false_ne_true (hended.symm.trans (hmem m hm))
    · exact hleft.elim (absurd (hcmds c hc).1) (absurd (hcmds c hc).2)
  rw [exec_jobComplete, completeJob_runs hj hp hends]
  exact done_of_regq hregq

/-- Settles O42, event by event: what each does to the streams, the team and the job's record. -/
theorem jobEvents : Obligations.JobEvents := by
  unfold Obligations.JobEvents
  exact ⟨fun _ _ _ _ _ => streamFetch_result, fun _ _ => jobStart_result, fun _ _ => rdvAlignRetire_result,
    fun _ _ => rendezvousRetire_result, fun _ _ => jobComplete_result, fun _ _ => jobComplete_runs⟩

end Sys2Proof.Proofs.Complete
end

section
/-! PROOFS. Encodings of engine words (R53, R56, R57, R70-R76): packing and cutting undo each other, the opcode map and the encoder name
the same instructions, and a word decodes exactly to the well-formed instruction that it encodes; cairn and dresser words read
(R172, R378). -/

namespace Sys2Proof.Proofs.Encoding

open Sys2Proof

/-! ### Fields cut from a word (R56) -/

/-- A bit is a field of one bit. -/
theorem extractLsb'_one {n : Nat} (x : BitVec n) (i : Nat) : x.extractLsb' i 1 = BitVec.ofBool (x.getLsbD i) := by
  ext j hj
  simp [show j = 0 by omega]

theorem eq_ofNat_of_toNat {n k : Nat} {x : BitVec n} (h : x.toNat = k) : x = BitVec.ofNat n k := by simp [← h]

theorem extractLsb'_append_self {n m : Nat} (x : BitVec (n + m)) : x.extractLsb' m n ++ x.extractLsb' 0 m = x := by
  rw [BitVec.extractLsb'_append_extractLsb'_eq_extractLsb' (by simp)]
  exact BitVec.extractLsb'_eq_self

/-- A part of a packed word, with the word's width written as the sum of the widths of its fields. -/
theorem extractLsb'_packWord (x : Fields) (start len : Nat) :
    (packWord x).extractLsb' start len = BitVec.extractLsb' (n := 8 + 8 + 4 + 1 + 7 + 8 + 8 + 8 + 8 + 36) start len
      (x.op ++ x.f.h.dly ++ x.f.h.g ++ BitVec.ofBool x.f.h.gs ++ x.fn ++ x.f.d ++ x.f.a ++ x.f.b ++ x.f.c ++ x.f.imm) := rfl

theorem unpackWord_packWord (x : Fields) : unpackWord (packWord x) = x := by
  have hgs : BitVec.ofBool ((packWord x).getLsbD 75) = BitVec.ofBool x.f.h.gs := by
    simp (disch := decide) only [← extractLsb'_one, extractLsb'_packWord, BitVec.extractLsb'_append_eq_of_add_le,
      BitVec.extractLsb'_append_eq_of_le, Nat.reduceSub, BitVec.extractLsb'_eq_self]
  simp (disch := decide) only [unpackWord, BitVec.ofBool_eq_iff_eq.mp hgs, extractLsb'_packWord,
    BitVec.extractLsb'_append_eq_of_add_le, BitVec.extractLsb'_append_eq_of_le, Nat.reduceSub, BitVec.extractLsb'_eq_self]

theorem packWord_unpackWord (w : BitVec 96) : packWord (unpackWord w) = w := by
  simp only [packWord, unpackWord, ← extractLsb'_one]
  iterate 9 rw [BitVec.extractLsb'_append_extractLsb'_eq_extractLsb' (by rfl)]
  exact BitVec.extractLsb'_eq_self

theorem packCairn_unpackCairn (w : W32) : packCairn (unpackCairn w) = w := by
  simp only [packCairn, unpackCairn, ← extractLsb'_one]
  iterate 6 rw [BitVec.extractLsb'_append_extractLsb'_eq_extractLsb' (by rfl)]
  exact BitVec.extractLsb'_eq_self

theorem toNat_extractLsb'_imm (f : Fld) (lo len : Nat) : (f.imm.extractLsb' lo len).toNat = immBits f lo len := by
  simp [immBits, Nat.shiftRight_eq_div_pow]

/-! ### Function codes with sub-fields (R72, R74) -/

theorem amoFn_fields (o : Nat) (w : Bool) (ord : BitVec 2) :
    (amoFn o w ord).getLsbD 2 = w ∧ (amoFn o w ord).extractLsb' 0 2 = ord ∧
      (amoFn o w ord).extractLsb' 3 4 = BitVec.ofNat 4 o := by
  have h (start len : Nat) : (amoFn o w ord).extractLsb' start len =
    BitVec.extractLsb' (n := 4 + 1 + 2) start len (BitVec.ofNat 4 o ++ BitVec.ofBool w ++ ord) := rfl
  rw [← BitVec.ofBool_eq_iff_eq, ← extractLsb'_one]
  simp (disch := decide) only [h, BitVec.extractLsb'_append_eq_of_add_le, BitVec.extractLsb'_append_eq_of_le, Nat.reduceSub,
    BitVec.extractLsb'_eq_self, true_and]

theorem amoFn_of_fields (fn : BitVec 7) {o : Nat} (h : (fn.extractLsb' 3 4).toNat = o) :
    amoFn o (fn.getLsbD 2) (fn.extractLsb' 0 2) = fn := by
  rw [amoFn, ← eq_ofNat_of_toNat h, ← extractLsb'_one, BitVec.extractLsb'_append_extractLsb'_eq_extractLsb' (by rfl)]
  exact extractLsb'_append_self (n := 5) (m := 2) fn

theorem opFn_fields (o : BitVec 5) (t : BitVec 2) :
    BitVec.extractLsb' (n := 7) 0 2 (o ++ t) = t ∧ BitVec.extractLsb' (n := 7) 2 5 (o ++ t) = o :=
  ⟨BitVec.extractLsb'_append_eq_right, BitVec.extractLsb'_append_eq_left⟩

/-! ### The opcode map names what the encoder encodes (R70-R75) -/

/-- The fields are those of the instruction, and the instruction's own sub-fields stand at values that its row admits. -/
def Names (x : Fields) (i : Instr) : Prop :=
  toFields i = some x ∧ (selectsRow i && cairnInRange i && dressInRange i) = true

theorem names_of25 {fn : BitVec 7} {f : Fld} {i : Instr} (h : of25 fn f = some i) : Names ⟨0x25, fn, f⟩ i := by
  simp only [of25] at h
  split at h
  case h_11 => cases h
  all_goals
    rename_i ho
    cases h
    exact ⟨congrArg (fun n => some (Fields.mk 0x25 n f)) (amoFn_of_fields fn ho), rfl⟩

theorem names_of53 {fn : BitVec 7} {f : Fld} {i : Instr} (h : of53 fn f = some i) : Names ⟨0x53, fn, f⟩ i := by
  have hfn := extractLsb'_append_self (n := 5) (m := 2) fn
  simp only [of53] at h
  split at h
  case h_14 => cases h
  all_goals
    rename_i ho
    cases h
    rw [eq_ofNat_of_toNat ho] at hfn
    exact ⟨congrArg (fun n => some (Fields.mk 0x53 n f)) hfn, rfl⟩

theorem names_vcmp (fn : BitVec 7) (f : Fld) : Names ⟨0x54, fn, f⟩ (.vcmp (fn.extractLsb' 2 5) (fn.extractLsb' 0 2) f) :=
  ⟨congrArg (fun n => some (Fields.mk 0x54 n f)) (extractLsb'_append_self (n := 5) (m := 2) fn), rfl⟩

theorem names_vcvt {fn : BitVec 7} (f : Fld) (h : fn.toNat < 16) : Names ⟨0x57, fn, f⟩ (.vcvt (fn.extractLsb' 0 4) f) := by
  have hhigh : (fn.extractLsb' 4 3).toNat = 0 := by
    simp only [BitVec.extractLsb'_toNat, Nat.shiftRight_eq_div_pow]
    omega
  have hfn := extractLsb'_append_self (n := 3) (m := 4) fn
  rw [eq_ofNat_of_toNat hhigh] at hfn
  exact ⟨congrArg (fun n => some (Fields.mk 0x57 n f)) hfn, rfl⟩

theorem names_of93 {f : Fld} {i : Instr} (h : of93 f = some i) : Names ⟨0x93, 0, f⟩ i := by
  simp only [of93, toNat_extractLsb'_imm] at h
  split at h
  case h_4 => cases h
  all_goals
    rename_i hmode
    cases h
    exact ⟨rfl, by simpa [selectsRow, cairnInRange, dressInRange] using hmode⟩

theorem names_of95 {f : Fld} {i : Instr} (h : of95 f = some i) : Names ⟨0x95, 0, f⟩ i := by
  simp only [of95, toNat_extractLsb'_imm] at h
  split at h
  case h_3 => cases h
  all_goals
    rename_i hmode
    cases h
    exact ⟨rfl, by simpa [selectsRow, cairnInRange, dressInRange] using hmode⟩

theorem names_ofScrub (f : Fld) : Names ⟨0xB0, 0x41, f⟩ (ofScrub f) := by
  have hlt : immBits f 16 2 < 4 := Nat.mod_lt _ (by decide)
  have hkind : immBits f 16 2 = 0 ∨ immBits f 16 2 = 1 ∨ immBits f 16 2 = 2 ∨ immBits f 16 2 = 3 := by omega
  simp only [ofScrub, toNat_extractLsb'_imm]
  rcases hkind with hk | hk | hk | hk
  all_goals
    rw [hk]
    exact ⟨rfl, by simpa [selectsRow, cairnInRange, dressInRange] using hk⟩

theorem names_cop {fn : BitVec 7} (f : Fld) (h : fn.toNat ≠ 0x41) : Names ⟨0xB0, fn, f⟩ (.cop fn f) :=
  ⟨rfl, by simpa [selectsRow, cairnInRange, dressInRange, ← BitVec.toNat_inj] using h⟩

/-- The instruction that the opcode map reads is one that the encoder packs into the same fields: major by major, the majors whose
words carry sub-fields of fn or imm36 first, then those with one row for each fn. -/
theorem names_of_ofFields {x : Fields} {i : Instr} (h : ofFields x = some i) : Names x i := by
  obtain ⟨op, fn, f⟩ := x
  unfold ofFields at h
  dsimp only at h
  split at h
  case h_58 => cases h
  all_goals
    rename_i hop
    rw [eq_ofNat_of_toNat hop]
  case h_14 => exact names_of25 h
  case h_33 => exact names_of53 h
  case h_34 => cases h; exact names_vcmp fn f
  case h_37 =>
    obtain ⟨hfn, h⟩ := Option.ite_none_right_eq_some.mp h
    cases h
    exact names_vcvt f hfn
  case h_47 =>
    obtain ⟨hfn, h⟩ := Option.ite_none_right_eq_some.mp h
    rw [eq_ofNat_of_toNat hfn]
    exact names_of93 h
  case h_49 =>
    obtain ⟨hfn, h⟩ := Option.ite_none_right_eq_some.mp h
    rw [eq_ofNat_of_toNat hfn]
    exact names_of95 h
  case h_51 =>
    split at h
    · next hfn =>
      cases h
      rw [eq_ofNat_of_toNat hfn]
      exact names_ofScrub f
    · next hfn =>
      cases h
      exact names_cop f hfn
  all_goals
    try simp only [of08, of09, of0A, of0B, of0C, of0D, of20, of21, of26, of2B, of41, of50, of51, of52, of55, of58, of59, of5A, of5B,
      of5C, of5D, of90, of92, of94, of96, ofB1, ofB2, ofB4, ofB5] at h
    split at h
    all_goals
      rename_i hfn
      cases h <;> (rw [eq_ofNat_of_toNat hfn]; exact ⟨rfl, rfl⟩)

/-- The opcode map reads the fields that the encoder packs. -/
theorem ofFields_of_toFields {x : Fields} {i : Instr} (h : toFields i = some x) (hs : selectsRow i = true) : ofFields x = some i := by
  cases i with
  | amoAdd w o f | amoMin w o f | amoMax w o f | amoMinu w o f | amoMaxu w o f | amoAnd w o f | amoOr w o f | amoXor w o f
  | amoSwap w o f | amoCas w o f =>
    cases h
    change of25 _ _ = _
    simp only [of25, amoFn_fields]
    rfl
  | vaddI t f | vsubI t f | vmulI t f | vminI t f | vmaxI t f | vand t f | vor t f | vxor t f | vshl t f | vshr t f | vsra t f
  | vadds t f | vsubs t f =>
    cases h
    change of53 _ _ = _
    simp only [of53, opFn_fields]
    rfl
  | vcmp r t f =>
    cases h
    change some (Instr.vcmp _ _ _) = _
    simp only [opFn_fields]
  | vcvt t f =>
    cases h
    have hlt : BitVec.toNat (w := 7) (0#3 ++ t) < 16 := by
      rw [BitVec.toNat_append]
      simpa using t.isLt
    change (if _ then some (Instr.vcvt _ _) else _) = _
    rw [if_pos hlt, BitVec.extractLsb'_append_eq_right]
  | sfHist f | sfHistZ f | sfHistLatch f =>
    cases h
    change of93 _ = _
    simp only [of93, toNat_extractLsb'_imm, of_decide_eq_true hs]
  | sfRng f | sfRngU f =>
    cases h
    change of95 _ = _
    simp only [of95, toNat_extractLsb'_imm, of_decide_eq_true hs]
  | scrubLedge f | scrubMem f | scrubL2 f | scrubJoin f =>
    cases h
    change some (ofScrub _) = _
    simp only [ofScrub, toNat_extractLsb'_imm, of_decide_eq_true hs]
  | cop fn f =>
    cases h
    have hfn := of_decide_eq_true hs
    exact if_neg fun h0 => hfn (BitVec.eq_of_toNat_eq h0)
  | _ => cases h <;> rfl

theorem ofFields_eq_some {x : Fields} {i : Instr} : ofFields x = some i ↔ Names x i := by
  refine ⟨names_of_ofFields, fun ⟨hx, hr⟩ => ofFields_of_toFields hx ?_⟩
  simp only [Bool.and_eq_true] at hr
  exact hr.1.1

/-! ### Words of 96 bits (R56, R57, R76) -/

theorem decodeWord_eq_ok {p : Where} {w : BitVec 96} {i : Instr} :
    decodeWord p w = .ok i ↔ encodingDetail p (unpackWord w) = 0 ∧ ofFields (unpackWord w) = some i := by
  rw [decodeWord]
  split
  · next hd => cases hx : ofFields (unpackWord w) <;> simp [hd]
  · next hd => exact ⟨nofun, fun h => absurd h.1 hd⟩

theorem encodeWord_eq_some {i : Instr} {w : BitVec 96} : encodeWord i = some w ↔ toFields i = some (unpackWord w) := by
  rw [encodeWord, Option.map_eq_some_iff]
  constructor
  · rintro ⟨x, hx, rfl⟩
    rw [hx, unpackWord_packWord]
  · exact fun hx => ⟨_, hx, packWord_unpackWord w⟩

/-- A word decodes at a place to the well-formed instruction that it is the encoding of, and to nothing else. -/
theorem decodeWord_iff {p : Where} {w : BitVec 96} {i : Instr} :
    decodeWord p w = .ok i ↔ encodeWord i = some w ∧ wellFormed p i = true := by
  rw [decodeWord_eq_ok, encodeWord_eq_some, ofFields_eq_some, Names, wellFormed]
  constructor
  · rintro ⟨hd, hx, hr⟩
    simp [hx, hr, hd]
  · rintro ⟨hx, hw⟩
    simp only [hx, Bool.and_eq_true, decide_eq_true_eq] at hw ⊢
    exact ⟨hw.2, trivial, hw.1⟩

/-! ### Words as bytes (R6, R53) -/

theorem unitOf_bytes (u : W32) :
    unitOf (u.extractLsb' 0 8) (u.extractLsb' 8 8) (u.extractLsb' 16 8) (u.extractLsb' 24 8) = u := by
  rw [unitOf]
  iterate 3 rw [BitVec.extractLsb'_append_extractLsb'_eq_extractLsb' (by rfl)]
  exact BitVec.extractLsb'_eq_self

theorem units_append (w : BitVec 96) : w.extractLsb' 64 32 ++ w.extractLsb' 32 32 ++ w.extractLsb' 0 32 = w := by
  iterate 2 rw [BitVec.extractLsb'_append_extractLsb'_eq_extractLsb' (by rfl)]
  exact BitVec.extractLsb'_eq_self

/-- The bytes of an engine word: its three units, the most significant first. -/
def wordBytes (w : BitVec 96) : List Byte :=
  unitBytes (w.extractLsb' 64 32) ++ unitBytes (w.extractLsb' 32 32) ++ unitBytes (w.extractLsb' 0 32)

theorem encode_of_encodeWord {i : Instr} {w : BitVec 96} (h : encodeWord i = some w) : encode i = wordBytes w := by
  rw [encode, h, wordBytes]

theorem decodeBytes_wordBytes (p : Where) (w : BitVec 96) (r : List Byte) :
    decodeBytes (.stream p) (wordBytes w ++ r) = (decodeWord p w).map fun i => (i, r) := by
  simp only [wordBytes, unitBytes, List.cons_append, List.nil_append, decodeBytes, unitOf_bytes, units_append]

/-- Settles O1: the instruction's bytes are those of one word, and that word decodes to it. -/
theorem engineWordRoundTrip : Obligations.EngineWordRoundTrip := by
  unfold Obligations.EngineWordRoundTrip
  intro p i r hwf hsome
  obtain ⟨w, hw⟩ := Option.isSome_iff_exists.mp hsome
  rw [encode_of_encodeWord hw, decodeBytes_wordBytes, decodeWord_iff.mpr ⟨hw, hwf⟩]
  exact ⟨rfl, rfl⟩

/-! ### Cairn and dresser words (R172, R378) -/

theorem encodeCairn_of_decodeCairn {w : W32} {i : Instr} (h : decodeCairn w = .ok i) : encodeCairn i = some w := by
  rw [decodeCairn] at h
  split at h
  · split at h
    · next hfields =>
      cases h
      rw [encodeCairn, hfields, Option.map_some, packCairn_unpackCairn]
    · cases h
  · cases h

theorem toDress_of_decodeDress {w : W64} {i : Instr} (h : decodeDress w = .ok i) : toDress i = some w := by
  rw [decodeDress] at h
  split at h
  · split at h
    · next hword => cases h; exact hword
    · cases h
  · cases h

/-- Settles O3: the opcode map passes over no field of an engine word, and the decoders of cairn and dresser words compare the whole
word with the encoding of what they read. -/
theorem decodedWordIsItsEncoding : Obligations.DecodedWordIsItsEncoding := by
  unfold Obligations.DecodedWordIsItsEncoding
  exact ⟨fun _ _ _ => decodeWord_iff.mp, fun _ _ => encodeCairn_of_decodeCairn, fun _ _ => toDress_of_decodeDress⟩

end Sys2Proof.Proofs.Encoding
end

section
/-! PROOFS. Registers and slots read after a write (R60, R61, R86, R94, R129). -/

namespace Sys2Proof.Proofs.ReadBack

open Sys2Proof Sys2Proof.Machine

theorem writeReg_s0 {e : Engine} {d : RegCode} (v : W64) (x : Core) (he : e ≠ .ap) (hd : d.toNat % 32 = 0) : writeReg e d v x = x := by
  rw [writeReg, if_neg he, writeS, if_pos hd]

section Slots

variable (hnd : Bool) (i j : Fin 15) (b : Bool) (x : Core)

theorem getLsbD_putBit (y : BitVec 15) : (putBit y i b).getLsbD j = if j = i then b else y.getLsbD j := by
  rw [putBit_get y i j i.isLt j.isLt]
  simp only [Fin.ext_iff]

theorem slotWritten_writeSlot : slotWritten (writeSlot hnd i b x) hnd j = (decide (j = i) || slotWritten x hnd j) := by
  have hset (y : BitVec 15) : (putBit y i true).getLsbD j = (decide (j = i) || y.getLsbD j) := by
    rw [getLsbD_putBit]
    by_cases h : j = i <;> simp [h]
  cases hnd <;> exact hset _

theorem slotVal_writeSlot : slotVal (writeSlot hnd i b x) hnd j = if j = i then b else slotVal x hnd j := by
  cases hnd <;> exact getLsbD_putBit i j b _

theorem slotWritten_voidSlot : slotWritten (voidSlot hnd i x) hnd j = (decide (j ≠ i) && slotWritten x hnd j) := by
  have hclear (y : BitVec 15) : (putBit y i false).getLsbD j = (decide (j ≠ i) && y.getLsbD j) := by
    rw [getLsbD_putBit]
    by_cases h : j = i <;> simp [h]
  cases hnd <;> exact hclear _

end Slots

/-- Settles O12: registers by their banks, slots by the bits of the bank that holds them. -/
theorem registerReadBack : Obligations.RegisterReadBack := by
  unfold Obligations.RegisterReadBack
  exact ⟨readReg_writeReg_same, fun e d r v x h => readReg_writeReg_other e d r v x (Ne.symm h), fun _ _ v x => writeReg_s0 v x,
    fun hnd i j b x => ⟨slotWritten_writeSlot hnd i j b x, slotVal_writeSlot hnd i j b x⟩, slotWritten_voidSlot⟩

end Sys2Proof.Proofs.ReadBack
end

section
/-! PROOFS. What a step runs: the next word of an engine as its fetch buffer holds it (R53-R55), and the instruction that the head
of the schedule decodes to (R56, R171, R172, R376). -/

namespace Sys2Proof.Proofs.StepRuns

open Sys2Proof Sys2Proof.Machine Sys2Proof.Proofs.Encoding

/-! ### The next word (R53-R55) -/

theorem seeUnit_of_fetched {s : State} {c : CoreId} {buf : Sparse (Option Unit32)} {a : Nat} {u : Unit32}
    (h : sget none buf a = some u) : seeUnit s c buf a = { val := u.val, fetched := true, bad := u.bad } := by
  rw [seeUnit, h]

/-- Settles O6: past its header a position reads the word at its own address, unit by unit from the buffer. -/
theorem nextWordIsFetched : Obligations.NextWordIsFetched := by
  unfold Obligations.NextWordIsFetched
  intro s c e a b d p buf hhdr ha hb hd
  have haddr : wordAddr p = p.base + 12 * p.off := by rw [wordAddr, hhdr]; rfl
  rw [haddr] at ha hb hd
  have hword : wordAt s c buf p = (true, a.bad || b.bad || d.bad, a.val ++ b.val ++ d.val) := by
    simp only [wordAt, seeUnit_of_fetched ha, seeUnit_of_fetched hb, seeUnit_of_fetched hd, Bool.and_self]
  change nextIn s c e buf p = _
  simp only [nextIn, hhdr, hword, Bool.false_eq_true, if_false]

/-! ### Steps -/

/-- The turn of an engine whose next word decodes. -/
theorem turnOf_decoded {s : State} {c : CoreId} {e : Engine} {i : Instr} (hdet : (nextOf s c e).detail = 0)
    (hi : decodeWord (whereOf (s.core c) e) (nextOf s c e).bits = .ok i) :
    (turnOf s c e).instr = some i := by
  obtain ⟨henc, hof⟩ := decodeWord_eq_ok.mp hi
  simp only [turnOf, hdet, henc, hof, ne_eq, not_true_eq_false, if_false, if_true]

theorem stepWord_decoded {s u : State} {c : CoreId} {e : Engine} {i : Instr} (hu : u = { s with issuer := .eng c e })
    (hready : wordReady u c e = true) (hdet : (nextOf u c e).detail = 0) (hf : (nextOf u c e).fetched = true)
    (hb : (nextOf u c e).bad = false) (hi : decodeWord (whereOf (u.core c) e) (nextOf u c e).bits = .ok i) :
    stepWord c e s = exec i u := by
  have hfetched : (turnOf u c e).fetched = true := hf
  have hsound : (turnOf u c e).bad = false := hb
  rw [stepWord, ← hu]
  simp only [hready, turnOf_decoded hdet hi, hfetched, hsound, Bool.not_true, Bool.not_false, Bool.and_true, Bool.false_eq_true,
    if_false, if_true]

theorem stepDress_decoded {s : State} {k : ClusterId} {w : W64} {i : Instr} (h : decodeDress w = .ok i) :
    stepDress k w s = exec i { s with issuer := .dress k } := by
  simp only [stepDress, h]

/-- A row that no memory holds a word for is an event. -/
theorem isEvent_of_encode_nil {i : Instr} (h : encode i = []) : isEvent i = true := by
  rw [encode] at h
  split at h
  · cases h
  · cases h
  · cases h
  · next hw hc hd =>
    rw [encodeWord, Option.map_eq_none_iff] at hw
    rw [encodeCairn, Option.map_eq_none_iff] at hc
    rw [isEvent, hw, hc, hd]
    rfl

/-- Settles O5, by the move at the head of the schedule. -/
theorem stepRunsInstruction : Obligations.StepRunsInstruction := by
  unfold Obligations.StepRunsInstruction
  refine ⟨?word, ?cairn, ?dress, ?event, ?empty⟩
  case word =>
    intro s c e r i hsched u hready hdet hf hb hi
    refine ⟨?_, (decodeWord_iff.mp hi).2⟩
    rw [step, hsched]
    exact stepWord_decoded rfl hready hdet hf hb hi
  case cairn =>
    intro s k r x i hsched u hrun hend hi
    rw [step, hsched]
    exact step_cairn k { s with sched := r } x i hrun hend hi
  case dress =>
    intro s k r w i hsched hi
    rw [step, hsched]
    exact stepDress_decoded (s := { s with sched := r }) hi
  case event =>
    intro s r i hsched henc
    rw [step, hsched]
    exact if_pos (isEvent_of_encode_nil henc)
  case empty =>
    intro s hsched
    rw [step, hsched]

end Sys2Proof.Proofs.StepRuns
end

section
/-! PROOFS. The coprocessor form (R79, R80, R82, R129, R139, R159, R190, R348): what a `cop` word pushes, and its destination. -/

namespace Sys2Proof.Proofs.Cop

open Sys2Proof Sys2Proof.Machine Sys2Proof.Claims Sys2Proof.Proofs.Acts Sys2Proof.Proofs.Rendezvous

/-! ### Late operands (R37, R82) -/

theorem queueFull_false {k : Ctx} {fn : Nat} (h : (queueOf k.core (sourceOfEng k.e) (targetOfFn fn)).length < 16) :
    queueFull k fn = false := decide_eq_false (by omega)

/-- A command whose operands and destination wait for nothing is not late. -/
theorem lateCop_nil {s : State} {c : CoreId} {e : Engine} {i : Instr} {f : Fld} (h : commandReady s c e f = true) :
    lateCop (ctxOf s c e i) f = [] := by
  simp only [commandReady, Bool.and_eq_true, Bool.or_eq_true, decide_eq_true_eq, Bool.not_eq_true'] at h
  obtain ⟨⟨ha, hb⟩, hd⟩ := h
  have hreg {r : RegCode} (hr : r = 0 ∨ pendingReg (s.core c) e r = false) :
      (if r = 0 then [] else lateReg (ctxOf s c e i) r) = [] :=
    ite_eq_left_iff.mpr fun h0 => lateReg_nil (hr.resolve_left h0)
  have hdest : lateReply (ctxOf s c e i) f.d = [] := by
    rw [lateReply]
    split
    · rfl
    · next h0 =>
      have hd := hd.resolve_left h0
      split at hd
      · next hslot =>
        rw [if_pos hslot]
        exact if_neg (by simpa using hd)
      · next hslot =>
        rw [if_neg hslot]
        exact lateReg_nil (by simpa using hd)
  rw [lateCop, hreg ha, hreg hb, hdest]
  rfl

/-- What an AP's command does with the header that its issue read. -/
def pushWith (k : Ctx) (fn : BitVec 7) (f : Fld) (l : List Byte) (s : State) : State :=
  pushCommand k fn f { askOf k fn f with head := l } s

section Ready

variable {s : State} {c : CoreId} {e : Engine} {fn : BitVec 7} {f : Fld} (hready : commandReady s c e f = true)
  (hpriv : 0x40 ≤ fn.toNat → streamPriv (ctxOf s c e (.cop fn f)) = true)
  (hroom : (queueOf (s.core c) (sourceOfEng e) (targetOfFn fn.toNat)).length < 16)
include hready hpriv hroom

/-- The plan of a word that may be issued and finds room in its queue. -/
theorem planCop_ready : planOf (.cop fn f) (ctxOf s c e (.cop fn f)) =
    let k := ctxOf s c e (.cop fn f)
    if e = .ap then planGot k [] (issueGot c (askOf k fn f)) (pushWith k fn f) else { act := pushCommand k fn f (askOf k fn f) } := by
  have hgo : (decide (0x40 ≤ fn.toNat) && !streamPriv (ctxOf s c e (.cop fn f))) = false := by
    by_cases h : 0x40 ≤ fn.toNat
    · simp [hpriv h]
    · simp [h]
  change planCop fn f _ = _
  simp only [planCop, hgo, lateCop_nil hready, queueFull_false (k := ctxOf s c e (.cop fn f)) hroom, Bool.false_eq_true, if_false,
    List.append_nil, ctxOf_e, ctxOf_c]
  rfl

end Ready

/-! ### The destination of a reply (R60, R82) -/

theorem markReply_eq (e : Engine) (hnd intr : Bool) (d : RegCode) (x : Core) :
    markReply e hnd intr d x = { x with scal := (markReply e hnd intr d x).scal } := by
  unfold markReply voidSlot markPending
  dsimp only
  repeat' split
  all_goals rfl

@[simp] theorem inTrap_markReply (e g : Engine) (hnd intr : Bool) (d : RegCode) (x : Core) :
    inTrap (markReply e hnd intr d x) g = inTrap x g := by rw [markReply_eq]; rfl

@[simp] theorem inIntr_markReply (e g : Engine) (hnd intr : Bool) (d : RegCode) (x : Core) :
    inIntr (markReply e hnd intr d x) g = inIntr x g := by rw [markReply_eq]; rfl

theorem getLsbD_putBit_true {w i : Nat} (y : BitVec w) (hi : i < w) : (putBit y i true).getLsbD i = true := by
  rw [putBit_get y i i hi hi, if_pos rfl]

theorem pendingReg_markReply {e : Engine} {d : RegCode} (x : Core) (h0 : d ≠ 0) (hs : isSlot d = false)
    (hz : e = .ap ∨ d.toNat % 32 ≠ 0) : pendingReg (markReply e (inTrap x e) (inIntr x e) d x) e d = true := by
  have hlt : d.toNat % 32 < 32 := Nat.mod_lt _ (by decide)
  have hmark : markReply e (inTrap x e) (inIntr x e) d x = markPending (decide (e = .ap)) (inTrap x e) (inIntr x e) d true x := by
    rw [markReply, if_neg h0, if_neg (by simp [hs])]
  rw [pendingReg, inTrap_markReply, inIntr_markReply, hmark]
  split
  · next hap =>
    subst hap
    cases hsh : shadowed (inIntr x .ap) (d.toNat % 32)
    case true => simpa [markPending, hsh] using getLsbD_putBit_true x.scal.pendX (i := d.toNat % 32 - 24) (by omega)
    case false => simpa [markPending, hsh] using getLsbD_putBit_true x.scal.pendA hlt
  · next hap =>
    have hz := hz.resolve_left hap
    cases hh : inTrap x e
    case false => simpa [markPending, hap, hz, hh] using getLsbD_putBit_true x.scal.pendS hlt
    case true => simpa [markPending, hap, hz, hh] using getLsbD_putBit_true x.scal.pendH hlt

theorem slotNo_lt {d : RegCode} (hs : isSlot d = true) : slotNo d < 15 := by
  rw [isSlot, Bool.and_eq_true, decide_eq_true_eq, decide_eq_true_eq] at hs
  have hno : slotNo d = d.toNat - 0x90 := rfl
  omega

theorem slotWritten_markReply {e : Engine} {d : RegCode} {hnd intr : Bool} (x : Core) (h0 : d ≠ 0) (hs : isSlot d = true) :
    slotWritten (markReply e hnd intr d x) hnd (slotNo d) = false := by
  have hlt := slotNo_lt hs
  rw [markReply, if_neg h0, if_pos hs]
  generalize slotNo d = n at hlt
  have hclear (y : BitVec 15) : (putBit y n false).getLsbD n = false := by rw [putBit_get y n n hlt hlt, if_pos rfl]
  cases hnd <;> exact hclear _

/-! ### The push (R79, R80, R190) -/

theorem spanPieces_filled (c : CoreId) (l : List Span) (s : State) : TlbFilled c s (spanPieces c l s).2 := by
  induction l generalizing s with
  | nil => exact .refl c s
  | cons p r ih =>
    rw [spanPieces]
    split
    · exact ih s
    · next ps t ht => exact (translateRange_filled ht).trans (ih t)

/-- The command of a `cop` word: its operands as captured at issue, the core as it then stands, and the parts of its ranges. -/
def commandOf (k : Ctx) (fn : BitVec 7) (f : Fld) (q : Ask) (u : State) (ps : List Piece) : Command :=
  { id := u.nextId, src := sourceOfEng k.e, target := targetOfFn q.fn, fn, d := f.d, g := f.h.g, gs := f.h.gs, a := q.a, b := q.b
    imm := f.imm, geo := q.geo, world := (u.core k.c).csr.world, hnd := if k.e = .ap then inIntr (u.core k.c) .ap else inTrap (u.core k.c) .lead
    pieces := ps, xtra := q.head, tmshape := (u.core k.c).csr.tmshape, tab := shapeTable (u.core k.c), ok := none, prog := none }

/-- A core with a command pushed, whose destination waits for the reply. -/
def withCommand (e : Engine) (d : RegCode) (y : Command) (x : Core) : Core :=
  let x := markReply e (inTrap x e) (inIntr x e) d x
  { x with cmds := x.cmds ++ [y] }

/-- A push fills the TLB with the translations of the command's ranges, and adds the command. -/
theorem pushCommand_eq (k : Ctx) (fn : BitVec 7) (f : Fld) (q : Ask) (u : State) :
    ∃ ps v, TlbFilled k.c u v ∧ (k.e ≠ .ap → ps = [] ∧ v = u) ∧
      pushCommand k fn f q u = { v with nextId := v.nextId + 1 }.modCore k.c (withCommand k.e f.d (commandOf k fn f q u ps)) := by
  by_cases hap : k.e = .ap
  · have hfill := spanPieces_filled k.c (spansOf u k.c q) u
    refine ⟨(spanPieces k.c (spansOf u k.c q) u).1, (spanPieces k.c (spansOf u k.c q) u).2, hfill, fun h => absurd hap h, ?_⟩
    have hid : (spanPieces k.c (spansOf u k.c q) u).2.nextId = u.nextId := by
      obtain ⟨l, w, h⟩ := hfill
      rw [h]; rfl
    simp only [pushCommand, makeCommand, hap, commandOf, hid, decide_true, if_true]
    rfl
  · refine ⟨[], u, .refl _ u, fun _ => ⟨rfl, rfl⟩, ?_⟩
    simp only [pushCommand, makeCommand, hap, commandOf, decide_false, Bool.false_eq_true, if_false]
    rfl


theorem withCommand_eq (e : Engine) (d : RegCode) (y : Command) (x : Core) :
    withCommand e d y x = { x with scal := (markReply e (inTrap x e) (inIntr x e) d x).scal, cmds := x.cmds ++ [y] } := by
  rw [withCommand, markReply_eq]

theorem filled_queues {u v : State} {c : CoreId} (h : TlbFilled c u v) : (v.core c).cmds = (u.core c).cmds ∧ v.nextId = u.nextId := by
  obtain ⟨l, w, rfl⟩ := h
  exact ⟨by rw [State.core_modCore_same], rfl⟩

theorem pendingReg_withCommand {e : Engine} {d : RegCode} (y : Command) (x : Core) (h0 : d ≠ 0) (hs : isSlot d = false)
    (hz : e = .ap ∨ d.toNat % 32 ≠ 0) : pendingReg (withCommand e d y x) e d = true :=
  (show pendingReg (withCommand e d y x) e d = _ from rfl).trans (pendingReg_markReply x h0 hs hz)

theorem slotWritten_withCommand {e : Engine} {d : RegCode} (y : Command) (x : Core) (h0 : d ≠ 0) (hs : isSlot d = true) :
    slotWritten (withCommand e d y x) (inTrap (withCommand e d y x) e) (slotNo d) = false := by
  have hbank : inTrap (withCommand e d y x) e = inTrap x e := inTrap_markReply e e _ _ d x
  rw [hbank]
  generalize hn : slotNo d = n
  change slotWritten (markReply e (inTrap x e) (inIntr x e) d x) (inTrap x e) n = false
  rw [← hn]
  exact slotWritten_markReply x h0 hs

/-- What the push leaves: the command at the end of its queue, its number taken, and its destination pending. -/
theorem pushed_facts {u v : State} {c : CoreId} (h : TlbFilled c u v) (e : Engine) (d : RegCode) (y : Command) :
    let t := { v with nextId := v.nextId + 1 }.modCore c (withCommand e d y)
    (t.core c).cmds = (u.core c).cmds ++ [y] ∧ t.nextId = u.nextId + 1 ∧ t.regq = u.regq ∧
    (d ≠ 0 → isSlot d = false → (e = .ap ∨ d.toNat % 32 ≠ 0) → pendingReg (t.core c) e d = true) ∧
    (d ≠ 0 → isSlot d = true → slotWritten (t.core c) (inTrap (t.core c) e) (slotNo d) = false) := by
  intro t
  have hcore : t.core c = withCommand e d y (v.core c) := State.core_modCore_same _ c _
  obtain ⟨hcmds, hid⟩ := filled_queues h
  obtain ⟨-, -, -, hregq⟩ := h.mem
  refine ⟨?_, congrArg (· + 1) hid, hregq, fun h0 hs hz => ?_, fun h0 hs => ?_⟩
  · rw [hcore, withCommand_eq, ← hcmds]
  · rw [hcore]
    exact pendingReg_withCommand y _ h0 hs hz
  · rw [hcore]
    exact slotWritten_withCommand y _ h0 hs

/-! ### The obligation -/

section Exec

variable {s u : State} {c : CoreId} {e : Engine} {fn : BitVec 7} {f : Fld} (hissues : issues s c e (.cop fn f) = true)
  (hready : commandReady s c e f = true) (hpriv : 0x40 ≤ fn.toNat → streamPriv (ctxOf s c e (.cop fn f)) = true)
  (hroom : (queueOf (s.core c) (sourceOfEng e) (targetOfFn fn.toNat)).length < 16)
include hissues hready hpriv hroom

/-- The AP's word: its accesses, its header and its ranges first (R159, R190), then the push. -/
theorem exec_cop_ap (he : e = .ap) {l l' : List Byte} {u' : State}
    (hgot : issueGot c (askOf (ctxOf s c e (.cop fn f)) fn f) s = .bytes l' u')
    (hbytes : issueGot c (askOf (ctxOf s c e (.cop fn f)) fn f) (movedState s c e) = .bytes l u) :
    exec (.cop fn f) s = done (pushWith (ctxOf s c e (.cop fn f)) fn f l u) := by
  have hgo : untimedGo s c e (.cop fn f) = true := by
    obtain ⟨hturn, hhead⟩ := issues_iff.mp hissues
    rcases turn_cases hturn with ⟨hun, -⟩ | ⟨-, ht⟩
    · exact untimedGo_iff.mpr ⟨hun, hhead⟩
    · rw [he] at ht
      cases ht
  have hplan := planCop_ready hready hpriv hroom
  rw [if_pos he] at hplan
  obtain ⟨hl, hc, hft, hid, hsk, haf, hact⟩ :=
    planGot_bytes (k := ctxOf s c e (.cop fn f)) (use := pushWith (ctxOf s c e (.cop fn f)) fn f) rfl hgot
  rw [exec_untimed hgo _ hplan hl hc hft, haf, hid, hsk]
  exact congrArg done (hact _ _ _ hbytes)

/-- LEAD's word, timed or a handler's: the push alone. -/
theorem exec_cop_lead (he : e ≠ .ap) : exec (.cop fn f) s = .next (endWord s c e
    (pushCommand (ctxOf s c e (.cop fn f)) fn f (askOf (ctxOf s c e (.cop fn f)) fn f) (movedState s c e))) := by
  have hplan := planCop_ready hready hpriv hroom
  rw [if_neg he] at hplan
  obtain ⟨ps, v, -, hsame, hpush⟩ := pushCommand_eq (ctxOf s c e (.cop fn f)) fn f (askOf (ctxOf s c e (.cop fn f)) fn f) (movedState s c e)
  obtain ⟨-, rfl⟩ := hsame he
  refine exec_act_next hissues rfl _ hplan rfl rfl rfl List.nodup_nil (fun _ ht => absurd ht List.not_mem_nil) rfl rfl ?_ ?_ ?_
  · intro d hd
    rw [hpush, ctxOf_c, State.core_modCore_other _ _ _ _ hd]
    exact State.core_modCore_other _ _ _ _ hd
  · rw [hpush, ctxOf_c, State.core_modCore_same, withCommand_eq]
    have hcore : (movedState s c e).core c = movedOn s c e 0 none (s.core c) := State.core_modCore_same s c _
    exact hcore ▸ sameFlight_movedOn s c e 0 none (s.core c)
  · rw [hpush]
    rfl

end Exec

theorem endWord_nextId (s : State) (c : CoreId) (e : Engine) (u : State) : (endWord s c e u).nextId = u.nextId := by
  unfold endWord
  split <;> rfl

/-- Settles O23: the AP's word and LEAD's push the same command, the AP's with the parts of its ranges. -/
theorem commandPushed : Obligations.CommandPushed := by
  unfold Obligations.CommandPushed
  intro s u c e fn f l i fnn q hissues hready hap hother hregq hpriv hroom
  by_cases he : e = .ap
  · obtain ⟨⟨l', u', hgot⟩, hbytes⟩ := hap he
    obtain ⟨ps, v, hfill, -, hpush⟩ := pushCommand_eq (ctxOf s c e i) fn f { q with head := l } u
    obtain ⟨hcmds, hid, hq, hreg, hslot⟩ := pushed_facts hfill e f.d (commandOf (ctxOf s c e i) fn f { q with head := l } u ps)
    have hpushed : pushWith (ctxOf s c e i) fn f l u = _ := hpush
    have hnone : (pushWith (ctxOf s c e i) fn f l u).regq = [] := by rw [hpushed]; exact hq.trans hregq
    refine ⟨_, commandOf (ctxOf s c e i) fn f { q with head := l } u ps,
      (exec_cop_ap hissues hready hpriv hroom he hgot hbytes).trans (done_of_regq hnone), ?_⟩
    rw [hpushed]
    exact ⟨hcmds, rfl, hid, rfl, rfl, rfl, rfl, rfl, rfl, rfl, rfl, rfl, rfl, rfl, rfl, fun h => absurd he h, rfl, hreg, hslot⟩
  · obtain ⟨rfl, rfl⟩ := hother he
    obtain ⟨ps, v, hfill, hsame, hpush⟩ := pushCommand_eq (ctxOf s c e i) fn f q (movedState s c e)
    obtain ⟨rfl, rfl⟩ := hsame he
    obtain ⟨hcmds, hid, -, hreg, hslot⟩ := pushed_facts hfill e f.d (commandOf (ctxOf s c e i) fn f q (movedState s c e) [])
    have hpushed : pushCommand (ctxOf s c e i) fn f (askOf (ctxOf s c e i) fn f) (movedState s c e) = _ := hpush
    refine ⟨_, commandOf (ctxOf s c e i) fn f q (movedState s c e) [], exec_cop_lead hissues hready hpriv hroom he, ?_⟩
    rw [hpushed, endWord_core, endWord_nextId]
    exact ⟨hcmds, rfl, hid, rfl, rfl, rfl, rfl, rfl, rfl, rfl, rfl, rfl, rfl, rfl, rfl, fun _ => rfl, rfl, hreg, hslot⟩

end Sys2Proof.Proofs.Cop
end

section
/-! PROOFS. Guards at the head of a queue and dispatch (R81, R158, R162). -/

namespace Sys2Proof.Proofs.Dispatch

open Sys2Proof Sys2Proof.Machine
open Sys2Proof.Proofs.Acts (done_of_regq)

section Head

variable {s : State} {c : CoreId} {src : CmdSource} {tg : Target} {k : Command}

/-- A command at the head of a queue is one of the queue's source and target. -/
theorem head_queue (h : (queueOf (s.core c) src tg).head? = some k) : k.src = src ∧ k.target = tg := by
  simpa using (List.mem_filter.mp (List.mem_of_mem_head? h)).2

theorem commandGuard_of_head (h : (queueOf (s.core c) src tg).head? = some k) : commandGuard (s.core c) k =
    if k.g = 15 then some true
    else if slotWritten (s.core c) (decide (src = .lead) && k.hnd) k.g.toNat then
      some (slotVal (s.core c) (decide (src = .lead) && k.hnd) k.g.toNat != k.gs)
    else none := by
  rw [← (head_queue h).1]; rfl

section Guard

variable (h : (queueOf (s.core c) src tg).head? = some k)
include h

theorem commandGuard_true (hg : k.g = 15 ∨ (slotWritten (s.core c) (decide (src = .lead) && k.hnd) k.g.toNat = true ∧
    slotVal (s.core c) (decide (src = .lead) && k.hnd) k.g.toNat ≠ k.gs)) : commandGuard (s.core c) k = some true := by
  rw [commandGuard_of_head h]
  by_cases h15 : k.g = 15
  · rw [if_pos h15]
  · obtain ⟨hw, hv⟩ := hg.resolve_left h15
    rw [if_neg h15, if_pos hw, bne_iff_ne.mpr hv]

theorem commandGuard_false (h15 : k.g ≠ 15) (hw : slotWritten (s.core c) (decide (src = .lead) && k.hnd) k.g.toNat = true)
    (hv : slotVal (s.core c) (decide (src = .lead) && k.hnd) k.g.toNat = k.gs) : commandGuard (s.core c) k = some false := by
  rw [commandGuard_of_head h, if_neg h15, if_pos hw, hv, bne_self_eq_false]

theorem commandGuard_unwritten (h15 : k.g ≠ 15) (hw : slotWritten (s.core c) (decide (src = .lead) && k.hnd) k.g.toNat = false) :
    commandGuard (s.core c) k = none := by
  rw [commandGuard_of_head h, if_neg h15, hw, if_neg (by simp)]

end Guard

theorem headResolve_resolved (h : (queueOf (s.core c) src tg).head? = some k) (hok : k.ok ≠ none) : headResolve c src tg s = s := by
  simp [headResolve, h, Option.isSome_iff_ne_none.mpr hok]

theorem headResolve_late (h : (queueOf (s.core c) src tg).head? = some k) (hg : commandGuard (s.core c) k = none) :
    headResolve c src tg s = s := by
  simp [headResolve, h, hg]

theorem headResolve_true (h : (queueOf (s.core c) src tg).head? = some k) (hok : k.ok = none)
    (hg : commandGuard (s.core c) k = some true) : headResolve c src tg s = s.modCore c (resolveCommand k.id) := by
  simp [headResolve, h, hok, hg]

theorem headResolve_false (h : (queueOf (s.core c) src tg).head? = some k) (hok : k.ok = none)
    (hg : commandGuard (s.core c) k = some false) : headResolve c src tg s = s.modCore c (nullCommand k) := by
  simp [headResolve, h, hok, hg]

end Head

section Turns

variable {s : State} {c d : CoreId} {src : CmdSource} {tg : Target} {k : Command}

/-- Nothing that runs on the cores of the cluster holds a command of it back. -/
def ClusterIdle (s : State) (j : ClusterId) : Prop := ∀ d ∈ j.cores, (s.core d).running = []

theorem heldBy_of_idle {j : ClusterId} (h : ClusterIdle s j) (t : Target) : heldBy s j t = [] := by
  have hnil : (j.cores.flatMap fun d => (s.core d).running) = [] := List.flatMap_eq_nil_iff.mpr h
  simp [heldBy, hnil]

theorem engineFree_of_idle (h : ClusterIdle s d.cluster) (k : Command) : engineFree s d k = true := by
  rw [engineFree, heldBy_of_idle h]
  cases k.target <;> rfl

theorem readyHead_of_idle (h : ClusterIdle s d.cluster) : readyHead s d src tg =
    (queueOf (s.core d) src tg).head?.filter fun k => decide (k.ok = some true) && !(s.core d).ap.stale := by
  have hblocked (k : Command) : dispatchBlocked s d k = false := by simp [dispatchBlocked, h d (mem_cores d)]
  unfold readyHead
  cases (queueOf (s.core d) src tg).head? with
  | none => rfl
  | some k => simp [hblocked, engineFree_of_idle h, Option.filter]

theorem cluster_of_mem_cores {j : ClusterId} (h : d ∈ j.cores) : d.cluster = j := by
  simp only [ClusterId.cores, List.mem_cons, List.not_mem_nil, or_false] at h
  rcases h with rfl | rfl | rfl | rfl <;> exact Fin.ext (by simp only [CoreId.cluster, ClusterId.core]; omega)

/-- With nothing running in the cluster, the turn is taken where a copy queue whose head may perform stands before this one. -/
theorem turnTaken_of_idle (h : ClusterIdle s c.cluster) : turnTaken s c src = true ↔
    ∃ d ∈ c.cluster.cores, ∃ r k', (queueOf (s.core d) r .copy).head? = some k' ∧ k'.ok = some true ∧ (s.core d).ap.stale = false ∧
      (queueNo d r + 7 - (s.cluster c.cluster).turn) % 8 < (queueNo c src + 7 - (s.cluster c.cluster).turn) % 8 := by
  have hsources (r : CmdSource) : r ∈ [CmdSource.lead, CmdSource.ap] := by cases r <;> simp
  constructor
  · intro ht
    simp only [turnTaken, List.any_eq_true, Bool.and_eq_true, decide_eq_true_eq] at ht
    obtain ⟨d, hd, r, -, hlt, hready⟩ := ht
    rw [readyHead_of_idle (by rwa [cluster_of_mem_cores hd])] at hready
    obtain ⟨k', hk'⟩ := Option.isSome_iff_exists.mp hready
    obtain ⟨hhead, hok⟩ := Option.filter_eq_some_iff.mp hk'
    simp only [Bool.and_eq_true, decide_eq_true_eq, Bool.not_eq_true'] at hok
    exact ⟨d, hd, r, k', hhead, hok.1, hok.2, hlt⟩
  · rintro ⟨d, hd, r, k', hhead, hok, hstale, hlt⟩
    simp only [turnTaken, List.any_eq_true, Bool.and_eq_true, decide_eq_true_eq]
    refine ⟨d, hd, r, hsources r, hlt, ?_⟩
    rw [readyHead_of_idle (by rwa [cluster_of_mem_cores hd]), hhead]
    simp [Option.filter, hok, hstale]

theorem dispatchHead_unready (h : readyHead s c src tg = none) : dispatchHead c src tg s = s := by simp [dispatchHead, h]

theorem dispatchHead_turn (h : tg = .copy) (ht : turnTaken s c src = true) : dispatchHead c src tg s = s := by
  unfold dispatchHead
  split
  · rfl
  · simp [h, ht]

theorem dispatchHead_ready (h : readyHead s c src tg = some k) (ht : tg = .copy → turnTaken s c src = false) :
    dispatchHead c src tg s = dispatchTo c k s := by
  by_cases hc : tg = .copy <;> simp_all [dispatchHead]

/-- The head of a queue that may perform goes to its engine where nothing runs in the cluster and, for a copy, its turn has come. -/
theorem dispatchHead_of_turn (hhead : (queueOf (s.core c) src tg).head? = some k) (hok : k.ok = some true)
    (hstale : (s.core c).ap.stale = false) (hidle : ClusterIdle s c.cluster)
    (hfirst : tg = .copy → ∀ d ∈ c.cluster.cores, ∀ r k', (queueOf (s.core d) r .copy).head? = some k' → k'.ok = some true →
      (queueNo c src + 7 - (s.cluster c.cluster).turn) % 8 ≤ (queueNo d r + 7 - (s.cluster c.cluster).turn) % 8) :
    dispatchHead c src tg s = dispatchTo c k s := by
  refine dispatchHead_ready ?_ fun hcopy => ?_
  · rw [readyHead_of_idle hidle, hhead]
    simp [Option.filter, hok, hstale]
  · rw [← Bool.not_eq_true, turnTaken_of_idle hidle]
    rintro ⟨d, hd, r, k', hk', hok', -, hlt⟩
    exact absurd (hfirst hcopy d hd r k' hk' hok') (by omega)

end Turns

section Events

variable {s : State} {c : CoreId} {src : CmdSource} {tg : Target} {k : Command}

theorem exec_commandHeadResolve (hq : s.regq = []) {t : State} (h : headResolve c src tg s = t) (ht : t.regq = s.regq) :
    exec (.commandHeadResolve c src tg) s = .next t :=
  (congrArg done h).trans (done_of_regq (ht.trans hq))

theorem exec_commandDispatch (hq : s.regq = []) {t : State} (h : dispatchHead c src tg s = t) (ht : t.regq = s.regq) :
    exec (.commandDispatch c src tg) s = .next t :=
  (congrArg done h).trans (done_of_regq (ht.trans hq))

theorem dispatchTo_facts (c : CoreId) (k : Command) (s : State) (hidle : (s.core c).running = []) :
    let t := dispatchTo c k s
    (t.core c).running = [{ k with prog :=
      if k.fn.toNat ∈ [1, 3, 5] then vget (s.cluster c.cluster).slots (bitsN k.imm.toNat 16 4) none else none }] ∧
    (t.core c).cmds = (s.core c).cmds.filter (fun y => decide (y.id ≠ k.id)) ∧ (t.core c).scal = (s.core c).scal ∧
    OthersSame c s t ∧ (t.cluster c.cluster).clk = (s.cluster c.cluster).clk ∧ SameMemory s t ∧
    (k.target = .copy → (t.cluster c.cluster).turn = queueNo c k.src) := by
  have hprog : slotProgram s c k = if k.fn.toNat ∈ [1, 3, 5] then vget (s.cluster c.cluster).slots (bitsN k.imm.toNat 16 4) none else none := by
    simp [slotProgram, cmdImm]
  refine ⟨?_, ?_, ?_, fun d hd => ?_, ?_, sameMemory_of rfl rfl rfl, fun hcopy => ?_⟩
  · simp [dispatchTo, hidle, hprog]
  · simp [dispatchTo, dropCommand]
  · simp [dispatchTo, dropCommand]
  · simp [dispatchTo, State.core_modCore_other _ _ _ _ hd]
  · simp [dispatchTo, startUnit]
  · simp [dispatchTo, startUnit, hcopy]

end Events

end Sys2Proof.Proofs.Dispatch
end

section
/-! PROOFS. How a command ends: the reply and the completion record (R81, R82, R129, R161), and what every event on a dispatched
command does before and after its effect (R140, R182, R390). -/

namespace Sys2Proof.Proofs.CommandEnds

open Sys2Proof Sys2Proof.Machine
open Sys2Proof.Proofs.Acts (done_of_regq)
open Sys2Proof.Proofs.Cop (slotNo_lt)
open Sys2Proof.Proofs.ReadBack (slotWritten_writeSlot slotVal_writeSlot)

/-! ### Replies -/

/-- The same commands run, and the AP is as it was. -/
def SameUnits (x y : Core) : Prop := y.running = x.running ∧ y.ap = x.ap

theorem SameUnits.refl (x : Core) : SameUnits x x := ⟨rfl, rfl⟩

theorem SameUnits.trans {x y z : Core} (h : SameUnits x y) (h' : SameUnits y z) : SameUnits x z := ⟨h'.1.trans h.1, h'.2.trans h.2⟩

theorem sameUnits_writeS (hnd : Bool) (i : Nat) (v : W64) (x : Core) : SameUnits x (writeS hnd i v x) := by
  unfold writeS
  split
  · exact .refl x
  · split <;> exact .refl x

theorem sameUnits_writeA (intr : Bool) (i : Nat) (v : W64) (x : Core) : SameUnits x (writeA intr i v x) := by
  unfold writeA
  split <;> exact .refl x

theorem sameUnits_writeSlot (hnd : Bool) (i : Nat) (b : Bool) (x : Core) : SameUnits x (writeSlot hnd i b x) := by
  unfold writeSlot
  split <;> exact .refl x

theorem sameUnits_markPending (ap hnd intr : Bool) (d : RegCode) (b : Bool) (x : Core) : SameUnits x (markPending ap hnd intr d b x) := by
  unfold markPending
  dsimp only
  split
  · split <;> exact .refl x
  · split
    · exact .refl x
    · split <;> exact .refl x

/-- A reply changes registers and slots only. -/
theorem sameUnits_writeReply (ap hnd intr : Bool) (d : RegCode) (v : W64) (x : Core) : SameUnits x (writeReply ap hnd intr d v x) := by
  unfold writeReply
  split
  · exact .refl x
  · split
    · exact sameUnits_writeSlot hnd _ _ x
    · refine (sameUnits_markPending ap hnd intr d false x).trans ?_
      cases ap
      · exact sameUnits_writeS hnd _ v _
      · exact sameUnits_writeA intr _ v _

theorem code_of_regClass_nibbles : ∀ i < 16, ∀ j < 16, (regClass (16 * i + j) = some .s → 16 * i + j < 0x20) ∧
    (regClass (16 * i + j) = some .a → 0x20 ≤ 16 * i + j ∧ 16 * i + j < 0x40) ∧
    (regClass (16 * i + j) = some .p → 0x90 ≤ 16 * i + j ∧ 16 * i + j ≤ 0x9E) := by decide
/-- The codes of the classes that a reply may go to (R61). -/
theorem code_of_regClass (d : RegCode) : (regClass d.toNat = some .s → d.toNat < 0x20) ∧
    (regClass d.toNat = some .a → 0x20 ≤ d.toNat ∧ d.toNat < 0x40) ∧ (regClass d.toNat = some .p → 0x90 ≤ d.toNat ∧ d.toNat ≤ 0x9E) := by
  have h := code_of_regClass_nibbles (d.toNat / 16) (by omega) (d.toNat % 16) (by omega)
  rwa [Nat.div_add_mod] at h

section Reply

variable {d : RegCode} (hnd intr : Bool) (v : W64) (x : Core)

theorem isSlot_iff : isSlot d = true ↔ 0x90 ≤ d.toNat ∧ d.toNat ≤ 0x9E := by
  rw [isSlot, Bool.and_eq_true, decide_eq_true_eq, decide_eq_true_eq]

theorem ne_zero_of_code (h : 0 < d.toNat) : d ≠ 0 := fun h0 => by rw [h0] at h; exact absurd h (by decide)

theorem writeReply_reg (ap : Bool) (h : 0 < d.toNat) (h' : d.toNat < 0x90) : writeReply ap hnd intr d v x =
    if ap then writeA intr d.toNat v (markPending ap hnd intr d false x) else writeS hnd d.toNat v (markPending ap hnd intr d false x) := by
  rw [writeReply, if_neg (ne_zero_of_code h), if_neg (by rw [isSlot_iff]; omega)]

theorem readS_writeReply (h : regClass d.toNat = some .s) (h0 : d ≠ 0) : readS (writeReply false hnd intr d v x) hnd d.toNat = v := by
  have hd : d.toNat < 0x20 := (code_of_regClass d).1 h
  have hz : d.toNat ≠ 0 := fun hz => h0 (BitVec.eq_of_toNat_eq hz)
  rw [writeReply_reg hnd intr v x false (by omega) (by omega), if_neg (by simp), readS_writeS_same, if_neg (by omega)]

theorem readA_writeReply (h : regClass d.toNat = some .a) : readA (writeReply true hnd intr d v x) intr d.toNat = v := by
  have hd := (code_of_regClass d).2.1 h
  rw [writeReply_reg hnd intr v x true (by omega) (by omega), if_pos rfl, readA_writeA_same]

/-- A reply to a slot writes whether it is nonzero (R82). -/
theorem slot_writeReply (ap : Bool) (h : regClass d.toNat = some .p) :
    slotWritten (writeReply ap hnd intr d v x) hnd (slotNo d) = true ∧
    slotVal (writeReply ap hnd intr d v x) hnd (slotNo d) = decide (v ≠ 0) := by
  have hd := (code_of_regClass d).2.2 h
  have hs : isSlot d = true := isSlot_iff.mpr hd
  rw [writeReply, if_neg (ne_zero_of_code (by omega)), if_pos hs]
  have hw := slotWritten_writeSlot hnd ⟨slotNo d, slotNo_lt hs⟩ ⟨slotNo d, slotNo_lt hs⟩ (decide (v ≠ 0)) x
  have hv := slotVal_writeSlot hnd ⟨slotNo d, slotNo_lt hs⟩ ⟨slotNo d, slotNo_lt hs⟩ (decide (v ≠ 0)) x
  exact ⟨by simpa using hw, by simpa using hv⟩

end Reply

/-! ### Completions -/

section Completion

variable {k : Command} (status : Nat) (v : W64) (x : Core)

theorem completeOn_lead (h : k.src = .lead) : completeOn k status v x =
    writeReply false k.hnd false k.d v { x with running := x.running.filter fun y => decide (y.id ≠ k.id) } := by
  simp [completeOn, h]

theorem completeOn_ap_open (h : k.src = .ap) (hu : x.ap.uien = false) : completeOn k status v x =
    writeReply true false k.hnd k.d v { x with running := x.running.filter fun y => decide (y.id ≠ k.id) } := by
  simp [completeOn, h, holdDone, hu, takeDone]

theorem completeOn_ap_held (h : k.src = .ap) (hu : x.ap.uien = true) (hst : status < 256) : completeOn k status v x =
    { x with ap := { x.ap with heldDone := x.ap.heldDone ++
      [{ record := BitVec.ofNat 64 (2 ^ 63 + k.fn.toNat * 2 ^ 48 + status * 2 ^ 40 + bitsN k.imm.toNat 0 16)
         cmd := some k.id, d := k.d, intr := k.hnd, v }] } } := by
  have hfn : k.fn.toNat % 256 = k.fn.toNat := Nat.mod_eq_of_lt (by omega)
  simp [completeOn, h, holdDone, hu, recordWord, hfn, Nat.mod_eq_of_lt hst, bitsN]

/-- A completion that is not held takes the command out of its engine. -/
theorem completeOn_running (h : k.src = .lead ∨ x.ap.uien = false) :
    (completeOn k status v x).running = x.running.filter (fun r => decide (r.id ≠ k.id)) ∧ (completeOn k status v x).ap.recs = x.ap.recs ∧
    (completeOn k status v x).ap.heldDone = x.ap.heldDone := by
  have hreply (ap hnd intr : Bool) (y : Core) : (writeReply ap hnd intr k.d v y).running = y.running ∧
      (writeReply ap hnd intr k.d v y).ap.recs = y.ap.recs ∧ (writeReply ap hnd intr k.d v y).ap.heldDone = y.ap.heldDone := by
    obtain ⟨hrun, hap⟩ := sameUnits_writeReply ap hnd intr k.d v y
    exact ⟨hrun, by rw [hap], by rw [hap]⟩
  cases hsrc : k.src with
  | lead => rw [completeOn_lead status v x hsrc]; exact hreply _ _ _ _
  | ap => rw [completeOn_ap_open status v x hsrc (h.resolve_left (by simp [hsrc]))]; exact hreply _ _ _ _

end Completion

/-! ### An event on a dispatched command -/

/-- The state with other packets on their way out of the link. -/
def withOut (out : List (Nat × Nat × Packet)) (s : State) : State := { s with tether := { s.tether with out } }

theorem clearRequest_eq {s : State} {c : CoreId} (h : sessionActive s c = false) (p : Piece) :
    ∃ out, clearRequest c p s = withOut out s := by
  have hx : (session s (vfOf s c)).active = false := h
  exact ⟨_, by simp only [clearRequest, sendPacket, hx, Bool.false_eq_true, if_false]; rfl⟩

/-- What a command asks of the host in the clear changes nothing but the link's packets. -/
theorem clearSource_eq (s : State) (c : CoreId) (k : Command) : ∃ out, clearSource c k s = withOut out s := by
  unfold clearSource
  split
  · exact ⟨s.tether.out, rfl⟩
  · next h =>
    have hinactive : sessionActive s c = false := by simpa using h
    clear h
    generalize (sourceOf k).filter _ = ps
    suffices hfold : ∀ out, ∃ out', ps.foldl (fun s p => clearRequest c p s) (withOut out s) = withOut out' s from hfold s.tether.out
    induction ps with
    | nil => exact fun out => ⟨out, rfl⟩
    | cons p ps ih =>
      intro out
      obtain ⟨out', h'⟩ := clearRequest_eq (s := withOut out s) (c := c) hinactive p
      rw [List.foldl_cons, h']
      exact ih out'

section Performing

variable {s : State} {c : CoreId} {k : Command} {fn : Nat}

/-- What `Claims.performing` says, taken apart; the key slot's part is apart, since a command also performs on a zeroised one. -/
structure Performs (s : State) (c : CoreId) (k : Command) (fn : Nat) : Prop where
  regq : s.regq = []
  running : runningCmd s c k.id = some k
  code : k.fn.toNat = fn
  answered : hostPending s c k = false
  unheld : writesHeld s c k.id = false

theorem performing_iff : Claims.performing s c k fn = true ↔
    Performs s c k fn ∧ (0x40 ≤ fn ∨ s.keys.zeroed.getLsbD k.world.toNat = false) := by
  simp only [Claims.performing, Bool.and_eq_true, List.isEmpty_iff, decide_eq_true_eq, Bool.not_eq_true', Bool.or_eq_true]
  constructor
  · rintro ⟨⟨⟨⟨⟨h1, h2⟩, h3⟩, h4⟩, h5⟩, h6⟩
    exact ⟨⟨h1, h2, h3, h4, h5⟩, h6⟩
  · rintro ⟨⟨h1, h2, h3, h4, h5⟩, h6⟩
    exact ⟨⟨⟨⟨⟨h1, h2⟩, h3⟩, h4⟩, h5⟩, h6⟩

theorem zeroEnd_eq (h : 0x40 ≤ k.fn.toNat ∨ s.keys.zeroed.getLsbD k.world.toNat = false) (o : Outcome7) : zeroEnd s k o = o := by
  unfold zeroEnd
  rw [if_neg]
  rintro ⟨hfn, hz, -⟩
  rcases h with h | h
  · omega
  · simp [h] at hz

theorem zeroEnd_zeroised (hfn : k.fn.toNat < 0x40) (hz : s.keys.zeroed.getLsbD k.world.toNat = true) (reply : W64) {status : Nat}
    (hst : status ≤ 1) : zeroEnd s k (ends status reply) = ends 7 0xFF := by
  rw [zeroEnd, if_pos ⟨hfn, hz, hst⟩]; rfl

/-- A command that performs runs its effect on a state that differs in the link's packets, and completes at once. -/
theorem onCommand_performs (h : Performs s c k fn) {run : Command → State → State × Outcome7} {status : Nat} {reply : W64} {u : State}
    {out : List (Nat × Nat × Packet)} (hout : clearSource c k s = withOut out s)
    {status' : Nat} {reply' : W64} (hrun : run k (withOut out s) = (u, ends status' reply'))
    (hend : zeroEnd u k (ends status' reply') = ends status reply) (hheld : writesHeld u c k.id = false) :
    onCommand [fn] c k.id run s = u.modCore c fun x => completeOn k status reply (forgetCmd k.id x) := by
  have hfn : [fn].contains k.fn.toNat = true := by simp [h.code]
  simp only [onCommand, h.running, hfn, h.answered, hout, hrun, hend]
  simp [ends, finishCmd, hheld, payCmd, detectFailed]

theorem writesHeld_congr {u : State} (htether : u.tether.sess = s.tether.sess) (hjobs : u.jobs = s.jobs) (hcamp : u.camp = s.camp)
    (hjob : (u.core c).job = (s.core c).job) (id : Nat) : writesHeld u c id = writesHeld s c id := by
  have hvf : vfOf u c = vfOf s c := by simp only [vfOf, jobOf, hjob, hjobs, hcamp]
  simp only [writesHeld, session, hvf, htether]

/-- An event whose effect on the core is `f` ends its command there, and leaves the rest as it was. -/
theorem event_ends_as {f : Core → Core} {run : Command → State → State × Outcome7} {status status' : Nat} {reply reply' : W64}
    (h : Performs s c k fn) (hjob : (f (s.core c)).job = (s.core c).job)
    (hrun : ∀ out, run k (withOut out s) = ((withOut out s).modCore c f, ends status' reply'))
    (hend : ∀ u : State, u.keys = s.keys → zeroEnd u k (ends status' reply') = ends status reply) :
    ∃ t, done (onCommand [fn] c k.id run s) = .next t ∧ Claims.endsOn s t c k status reply (f (s.core c)) := by
  obtain ⟨out, hout⟩ := clearSource_eq s c k
  have hcore : ((withOut out s).modCore c f).core c = f (s.core c) := State.core_modCore_same _ _ _
  have hheld : writesHeld ((withOut out s).modCore c f) c k.id = writesHeld s c k.id :=
    writesHeld_congr (s := s) (u := (withOut out s).modCore c f) rfl rfl rfl (by rw [hcore, hjob]) k.id
  have hevent := onCommand_performs h hout (hrun out) (hend _ rfl) (hheld.trans h.unheld)
  refine ⟨_, done_of_regq (by rw [hevent]; exact h.regq), ?_⟩
  rw [hevent]
  refine ⟨by rw [State.core_modCore_same, hcore], fun d hd => ?_, rfl, sameMemory_of rfl rfl rfl⟩
  rw [State.core_modCore_other _ _ _ _ hd, State.core_modCore_other _ _ _ _ hd]; rfl

section Plain

variable {run : Command → State → State × Outcome7} {status : Nat} {reply : W64} (h : Claims.performing s c k fn = true)
include h

theorem event_ends {f : Core → Core} (hjob : (f (s.core c)).job = (s.core c).job)
    (hrun : ∀ out, run k (withOut out s) = ((withOut out s).modCore c f, ends status reply)) :
    ∃ t, done (onCommand [fn] c k.id run s) = .next t ∧ Claims.endsOn s t c k status reply (f (s.core c)) := by
  obtain ⟨hp, hz⟩ := performing_iff.mp h
  exact event_ends_as hp hjob hrun fun u hu => zeroEnd_eq (by rwa [hp.code, hu]) _

/-- An event without an effect. -/
theorem event_ends_id (hrun : ∀ out, run k (withOut out s) = (withOut out s, ends status reply)) :
    ∃ t, done (onCommand [fn] c k.id run s) = .next t ∧ Claims.endsOn s t c k status reply (s.core c) :=
  event_ends h (f := id) rfl fun out => by rw [hrun, State.modCore_self _ _ _ rfl]

end Plain

end Performing

end Sys2Proof.Proofs.CommandEnds
end

section
/-! PROOFS. What fill, rng.seed, hist, binsort and dress do to the core or the cluster (R139, R170, R171, R285, R304-R306). -/

namespace Sys2Proof.Proofs.CommandEffects

open Sys2Proof Sys2Proof.Machine
open Sys2Proof.Proofs.Acts (done_of_regq)
open Sys2Proof.Proofs.Device (length_bytesOfNat)
open Sys2Proof.Proofs.CommandEnds

/-! ### Lists of bytes in chunks of one size -/

section Chunks

variable {α : Type} {n : Nat}

theorem take_drop_chunk (L : List (List α)) (h : ∀ l ∈ L, l.length = n) {e : Nat} (he : e < L.length) :
    (L.flatten.drop (n * e)).take n = L.getD e [] := by
  induction L generalizing e with
  | nil => simp at he
  | cons l L ih =>
    have hl : l.length = n := h l List.mem_cons_self
    cases e with
    | zero => simp [← hl]
    | succ e =>
      have hdrop : (l ++ L.flatten).drop (n * (e + 1)) = L.flatten.drop (n * e) := by
        rw [Nat.mul_succ, Nat.add_comm, ← List.drop_drop, ← hl, List.drop_left]
      rw [List.flatten_cons, hdrop, ih (fun m hm => h m (List.mem_cons_of_mem _ hm)) (by simpa using he), List.getD_cons_succ]

theorem getD_chunk (L : List (List α)) (h : ∀ l ∈ L, l.length = n) {i : Nat} (hn : 0 < n) (hi : i / n < L.length) (d : α) :
    L.flatten.getD i d = (L.getD (i / n) []).getD (i % n) d := by
  have hmod : i % n < n := Nat.mod_lt i hn
  rw [← take_drop_chunk L h hi]
  simp [List.getD_eq_getElem?_getD, hmod, Nat.div_add_mod]

theorem length_chunks (L : List (List α)) (h : ∀ l ∈ L, l.length = n) : L.flatten.length = n * L.length := by
  induction L with
  | nil => rfl
  | cons l L ih =>
    rw [List.flatten_cons, List.length_append, h l List.mem_cons_self, ih fun m hm => h m (List.mem_cons_of_mem _ hm), List.length_cons,
      Nat.mul_succ, Nat.add_comm]

end Chunks

theorem getD_bytesOfNat (n x : Nat) {i : Nat} (hi : i < n) : (bytesOfNat n x).getD i 0 = BitVec.ofNat 8 (x / 2 ^ (8 * i)) := by
  induction n generalizing x i with
  | zero => omega
  | succ n ih =>
    cases i with
    | zero => simp [bytesOfNat]
    | succ i =>
      rw [bytesOfNat, List.getD_cons_succ, ih (x / 256) (by omega), Nat.div_div_eq_div_mul, Nat.mul_succ, Nat.pow_add, Nat.mul_comm (2 ^ _)]

theorem natOfBytes_bytesOfNat (n x : Nat) : natOfBytes (bytesOfNat n x) = x % 256 ^ n := by
  induction n generalizing x with
  | zero => simp [bytesOfNat, natOfBytes, Nat.mod_one]
  | succ n ih =>
    have hb : (BitVec.ofNat 8 x).toNat = x % 256 := BitVec.toNat_ofNat x 8
    rw [bytesOfNat, natOfBytes, ih, hb, Nat.pow_succ', Nat.mod_mul]

/-- A part of the run of values just stored. -/
theorem sgets_sputs_part {α : Type} [DecidableEq α] (d : α) (m : Sparse α) (x : Nat) (l : List α) {i n : Nat} (h : i + n ≤ l.length) :
    sgets d (sputs d m x l) (x + i) n = (l.drop i).take n := by
  rw [sgets_eq]
  refine List.ext_getElem (by simp; omega) fun j hj hj' => ?_
  have hlt : i + j < l.length := by simp at hj; omega
  rw [List.getElem_map, List.getElem_range, Nat.add_assoc, sget_sputs_inside d m x l _ hlt]
  simp [List.getD_eq_getElem?_getD, hlt]

/-! ### fill and rng.seed (R170, R285) -/

/-- The bytes that `fill` stores: a four-byte pattern over and over (R170). -/
def fillBytes (a n : Nat) : List Byte := (List.replicate (n / 4) (bytesOfNat 4 a)).flatten

theorem length_fillBytes (a m : Nat) : (fillBytes a (128 * m)).length = 128 * m := by
  rw [fillBytes, length_chunks (n := 4) _ fun l hl => by rw [List.eq_of_mem_replicate hl, length_bytesOfNat], List.length_replicate]
  omega

theorem getD_fillBytes (a m : Nat) {i : Nat} (hi : i < 128 * m) :
    (fillBytes a (128 * m)).getD i 0 = BitVec.ofNat 8 (a / 2 ^ (8 * (i % 4))) := by
  have hchunk : i / 4 < (List.replicate (128 * m / 4) (bytesOfNat 4 a)).length := by rw [List.length_replicate]; omega
  rw [fillBytes, getD_chunk (n := 4) _ (fun l hl => by rw [List.eq_of_mem_replicate hl, length_bytesOfNat]) (by decide) hchunk,
    List.getD_eq_getElem _ _ hchunk, List.getElem_replicate, getD_bytesOfNat _ _ (Nat.mod_lt i (by decide))]

section Fill

variable {s : State} {c : CoreId} {k : Command}

theorem runFill_refused (s : State) (hn : 128 * bitsN k.b.toNat 16 16 = 0) : runFill c k s = (s, ends 5 0xFF) := by
  dsimp only [runFill]
  rw [if_pos (by omega)]

section Formed

variable (s) (ha : k.a.toNat < 2 ^ 32) (hb : k.b.toNat < 2 ^ 32) (hz : bitsN k.b.toNat 14 2 = 0) (hn : 0 < 128 * bitsN k.b.toNat 16 16)
  (hmax : 128 * bitsN k.b.toNat 16 16 ≤ 16384 * 128)
include ha hb hz hn hmax

theorem runFill_outside (hout : 0x200000 < bitsN k.b.toNat 0 14 * 128 + 128 * bitsN k.b.toNat 16 16) :
    runFill c k s = (s, ends 4 0xFF) := by
  dsimp only [runFill]
  rw [if_neg (by omega), if_pos hout]

theorem runFill_inside (hin : bitsN k.b.toNat 0 14 * 128 + 128 * bitsN k.b.toNat 16 16 ≤ 0x200000) :
    runFill c k s = (s.modCore c fun x => spadPut x (bitsN k.b.toNat 0 14 * 128) (fillBytes k.a.toNat (128 * bitsN k.b.toNat 16 16)), ends 0 0) := by
  dsimp only [runFill]
  rw [if_neg (by omega), if_neg (by omega)]
  rfl

end Formed

theorem runRngSeed_ok (s : State) (h : k.b.toNat < 16) : runRngSeed c k s =
    (s.modCore c fun x => { x with sf := { x.sf with rseed := vset x.sf.rseed k.b.toNat k.a } }, ends 0 0) := by
  rw [runRngSeed, if_neg (by omega)]

theorem runRngSeed_refused (s : State) (h : 16 ≤ k.b.toNat) : runRngSeed c k s = (s, ends 5 0xFF) := by
  rw [runRngSeed, if_pos h]

end Fill

/-! ### Reads of a scratchpad whose parity holds (R433) -/

section Clean

variable {x : Core} (h : x.parityBad = [])
include h

theorem spadSeen_clean (a n : Nat) : spadSeen x a n = (spadGet x a n).map some := by simp [spadSeen, h, spadGet]

theorem spadSeen_any_none (a n : Nat) : (spadSeen x a n).any Option.isNone = false := by simp [spadSeen_clean h]

theorem badLedge_clean (a n : Nat) : badLedge x a n = none := by simp [badLedge, h]

end Clean

/-! ### hist (R304) -/

/-- The bins after a pass that gives each of a run of bins a new value. -/
theorem vget_foldl_vset {α : Type} {n : Nat} (d : α) (g : Nat → α → α) (first : Nat) (v : Vector α n) {m : Nat} (hm : first + m ≤ n) (j : Nat) :
    vget ((List.range m).foldl (fun w e => vset w (first + e) (g e (vget w (first + e) d))) v) j d =
      if first ≤ j ∧ j < first + m then g (j - first) (vget v j d) else vget v j d := by
  induction m with
  | zero => rw [if_neg (by omega)]; rfl
  | succ m ih =>
    rw [List.range_succ, List.foldl_append, List.foldl_cons, List.foldl_nil]
    by_cases hj : j = first + m
    · subst hj
      rw [vget_vset_same _ _ _ _ (by omega)]
      generalize hw : List.foldl _ v (List.range m) = w at ih ⊢
      have hsame := ih (by omega)
      rw [if_neg (by omega)] at hsame
      rw [hsame, if_pos (by omega), Nat.add_sub_cancel_left]
    · rw [vget_vset_other _ _ _ _ _ hj, ih (by omega)]
      by_cases hin : first ≤ j ∧ j < first + m
      · rw [if_pos hin, if_pos (by omega)]
      · rw [if_neg hin, if_neg (by omega)]

/-- A bin as a histogram latches it (R282, R304): class `e` of the counts, behind the first bin `b0`. -/
def latched (b0 : Bin) (counts : List Nat) (e : Nat) (b : Bin) : Bin :=
  { b with
    fill := BitVec.ofNat 13 (min (counts.getD e 0) b.cap.toNat)
    dropped := BitVec.ofNat 32 (counts.getD e 0 - min (counts.getD e 0) b.cap.toNat), deferred := 0
    base := if e = 0 then b.base else b0.base + BitVec.ofNat 64 (b0.rowb.toNat * (counts.take e).sum) }

theorem vget_latchBins (first : Nat) (counts : List Nat) (v : Vector Bin 16) {e : Nat} (he : e < counts.length) (hfirst : first + e < 16) :
    vget (latchBins first counts v) (first + e) Bin.zero = latched (vget v first Bin.zero) counts e (vget v (first + e) Bin.zero) := by
  have hfold := vget_foldl_vset Bin.zero (latched (vget v first Bin.zero) counts) first v (m := min counts.length (16 - first)) (by omega) (first + e)
  rw [if_pos (by omega), Nat.add_sub_cancel_left] at hfold
  exact hfold

theorem badLatch_false {first n : Nat} {v : Vector Bin 16}
    (h : ∀ e, e < n → first + e < 16 → 1 ≤ (vget v (first + e) Bin.zero).cap.toNat ∧ (vget v (first + e) Bin.zero).cap.toNat ≤ 4096) :
    badLatch first n v = false := by
  rw [badLatch, List.any_eq_false]
  intro e he
  have hlt := List.mem_range.mp he
  obtain ⟨hlo, hhi⟩ := h e (by omega) (by omega)
  simp only [Bool.or_eq_true, decide_eq_true_eq]
  omega

/-- How many rows of a histogram's table are of class `e`. -/
def classCount (x : Core) (a rows e : Nat) : Nat :=
  ((List.range rows).filter fun i => decide (natOfBytes (spadGet x (a + 4 * i) 4) % 256 = e)).length

theorem classCount_le (x : Core) (a rows e : Nat) : classCount x a rows e ≤ rows := by
  have h := List.length_filter_le (fun i => decide (natOfBytes (spadGet x (a + 4 * i) 4) % 256 = e)) (List.range rows)
  rwa [List.length_range] at h

/-- A core with a histogram's counts stored and its bins latched. -/
def histCore (v first : Nat) (counts : List Nat) (x : Core) : Core :=
  { spadPut x v (counts.flatMap fun n => bytesOfNat 4 n) with sf := { x.sf with b := latchBins first counts x.sf.b } }

theorem runHist_ok {s : State} {c : CoreId} {k : Command} {counts : List Nat}
    (hc : counts = (List.range (bitsN k.b.toNat 16 8 + 1)).map (classCount (s.core c) k.a.toNat (bitsN k.b.toNat 0 16)))
    (hclean : (s.core c).parityBad = [])
    (ha : k.a.toNat < 2 ^ 21) (ha4 : k.a.toNat % 4 = 0) (hb : k.b.toNat < 2 ^ 28) (hlo : 1 ≤ bitsN k.b.toNat 0 16)
    (hhi : bitsN k.b.toNat 0 16 ≤ 4096)
    (hend : (k.a.toNat + 4 * bitsN k.b.toNat 0 16 + 127) / 128 * 128 + 4 * (bitsN k.b.toNat 16 8 + 1) ≤ 0x200000)
    (hcap : badLatch (bitsN k.b.toNat 24 4) (bitsN k.b.toNat 16 8 + 1) (s.core c).sf.b = false) :
    runHist c k s = (s.modCore c (histCore ((k.a.toNat + 4 * bitsN k.b.toNat 0 16 + 127) / 128 * 128) (bitsN k.b.toNat 24 4) counts),
      ends 0 (BitVec.ofNat 64 counts.sum)) := by
  have hcounts (rows : Nat) (e : Nat) : (((List.range rows).map fun i => spadWord (s.core c) (k.a.toNat + 4 * i) % 256).filter
      fun y => decide (y = e)).length = classCount (s.core c) k.a.toNat rows e := by
    rw [List.filter_map, List.length_map]; rfl
  dsimp only [runHist]
  rw [if_neg (by omega), if_neg (by omega), if_neg (by simp [hcap]), spadSeen_any_none hclean, if_neg (by simp), hc]
  simp only [hcounts]
  rfl

theorem length_counts (counts : List Nat) : (counts.flatMap fun n => bytesOfNat 4 n).length = 4 * counts.length := by
  rw [List.flatMap_def, length_chunks (n := 4), List.length_map]
  intro l hl
  obtain ⟨n, -, rfl⟩ := List.mem_map.mp hl
  exact length_bytesOfNat 4 n

/-- The count of a class read back from the scratchpad. -/
theorem natOfBytes_histCore (v first : Nat) (counts : List Nat) (x : Core) {e : Nat} (he : e < counts.length)
    (hlt : counts.getD e 0 < 2 ^ 32) : natOfBytes (spadGet (histCore v first counts x) (v + 4 * e) 4) = counts.getD e 0 := by
  have hlen := length_counts counts
  have hbytes : spadGet (histCore v first counts x) (v + 4 * e) 4 = bytesOfNat 4 (counts.getD e 0) := by
    refine (sgets_sputs_part 0 x.scratch v _ (by omega)).trans ?_
    rw [List.flatMap_def, take_drop_chunk (n := 4) _ _ (by simpa using he)]
    · simp [List.getD_eq_getElem?_getD, he]
    · intro l hl
      obtain ⟨n, -, rfl⟩ := List.mem_map.mp hl
      exact length_bytesOfNat 4 n
  rw [hbytes, natOfBytes_bytesOfNat]
  exact Nat.mod_eq_of_lt hlt

theorem sget_histCore_outside (v first : Nat) (counts : List Nat) (x : Core) {b : Nat} (h : b < v ∨ v + 4 * counts.length ≤ b) :
    sget 0 (histCore v first counts x).scratch b = sget 0 x.scratch b :=
  sget_sputs_outside 0 _ _ _ _ (by rwa [length_counts])

section Latched

variable (b0 : Bin) (counts : List Nat) {e n : Nat} (b : Bin) (he : counts.getD e 0 = n)
include he

theorem latched_fill : (latched b0 counts e b).fill.toNat = min n b.cap.toNat := by
  have hcap := b.cap.isLt
  rw [latched, he]
  exact BitVec.toNat_ofNat .. |>.trans (Nat.mod_eq_of_lt (by omega))

theorem latched_dropped (hn : n < 2 ^ 32) : (latched b0 counts e b).dropped.toNat = n - b.cap.toNat := by
  rw [latched, he]
  exact BitVec.toNat_ofNat .. |>.trans ((Nat.mod_eq_of_lt (by omega)).trans (by omega))

end Latched

/-- The bins after a histogram: each that a class is latched in, by what its class and the classes before it count. -/
theorem histCore_bin (v first : Nat) {ne : Nat} (count : Nat → Nat) (hcount : ∀ e, count e < 2 ^ 32) (x : Core) {e : Nat} (he : e < ne)
    (hfirst : first + e < 16) :
    let b := vget (histCore v first ((List.range ne).map count) x).sf.b (first + e) Bin.zero
    let old := vget x.sf.b (first + e) Bin.zero
    let b0 := vget x.sf.b first Bin.zero
    b.fill.toNat = min (count e) old.cap.toNat ∧ b.dropped.toNat = count e - old.cap.toNat ∧ b.deferred = 0 ∧
    (0 < e → b.base = b0.base + BitVec.ofNat 64 (b0.rowb.toNat * ((List.range e).map count).sum)) := by
  have hget : ((List.range ne).map count).getD e 0 = count e := by simp [List.getD_eq_getElem?_getD, he]
  have hbin : vget (histCore v first ((List.range ne).map count) x).sf.b (first + e) Bin.zero = _ :=
    vget_latchBins first _ _ (by simpa using he) hfirst
  have htake : (List.range ne).take e = List.range e := by rw [List.take_range, Nat.min_eq_left (by omega)]
  dsimp only
  rw [hbin]
  refine ⟨latched_fill _ _ _ hget, latched_dropped _ _ _ hget (hcount e), rfl, fun hpos => ?_⟩
  simp only [latched, if_neg (Nat.ne_of_gt hpos), ← List.map_take, htake]


/-! ### binsort (R306) -/

/-- One class only: it takes a row that is no longer than its bin rows. -/
theorem sortRow_one (first len : Nat) (v : Vector Bin 16) : sortRow first 1 len v =
    if len ≤ (vget v first Bin.zero).rowb.toNat then
      some (first, decide ((vget v first Bin.zero).fill.toNat < (vget v first Bin.zero).cap.toNat))
    else none := by
  by_cases h : len ≤ (vget v first Bin.zero).rowb.toNat <;> simp [sortRow, h]

theorem read_clean {w : SortWork} (h : w.x.parityBad = []) (a n : Nat) : w.read a n = w := by
  simp [SortWork.read, spadSeen_any_none h, badLedge_clean h]

/-- The core after a row of one class has been kept. -/
def keptCore (first src len : Nat) (x : Core) : Core :=
  { keepRow (vget x.sf.b first Bin.zero) src len x with sf := { x.sf with b := sortBin first true x.sf.b } }

/-- The core after a row of one class has found its bin full. -/
def droppedCore (first : Nat) (x : Core) : Core := { x with sf := { x.sf with b := sortBin first false x.sf.b } }

section One

variable {x : Core} (hclean : x.parityBad = []) (first at_ src : Nat)
include hclean

theorem sortNext_beyond (h : (vget x.sf.b first Bin.zero).rowb.toNat < spadWord x at_) :
    sortNext first 1 at_ src (SortWork.start x) = { SortWork.start x with beyond := 1 } := by
  have hread : (SortWork.start x).read at_ 4 = SortWork.start x := read_clean hclean at_ 4
  have hrow : sortRow first 1 (spadWord x at_) x.sf.b = none := by rw [sortRow_one, if_neg (by omega)]
  simp only [sortNext, hread]
  simp [SortWork.start, hrow]

variable (h : spadWord x at_ ≤ (vget x.sf.b first Bin.zero).rowb.toNat)
include h

theorem sortNext_kept (hroom : (vget x.sf.b first Bin.zero).fill.toNat < (vget x.sf.b first Bin.zero).cap.toNat) :
    sortNext first 1 at_ src (SortWork.start x) = SortWork.start (keptCore first src (spadWord x at_) x) := by
  have hread (a n : Nat) : (SortWork.start x).read a n = SortWork.start x := read_clean hclean a n
  have hrow : sortRow first 1 (spadWord x at_) x.sf.b = some (first, true) := by rw [sortRow_one, if_pos h, decide_eq_true hroom]
  simp only [sortNext, hread]
  simp [SortWork.start, hrow, keptCore, keepRow, spadPut]

theorem sortNext_full (hfull : (vget x.sf.b first Bin.zero).fill.toNat = (vget x.sf.b first Bin.zero).cap.toNat) :
    sortNext first 1 at_ src (SortWork.start x) = SortWork.start (droppedCore first x) := by
  have hread : (SortWork.start x).read at_ 4 = SortWork.start x := read_clean hclean at_ 4
  have hrow : sortRow first 1 (spadWord x at_) x.sf.b = some (first, false) := by
    rw [sortRow_one, if_pos h, decide_eq_false (by omega)]
  simp only [sortNext, hread]
  simp [SortWork.start, hrow, droppedCore]

end One

/-- A binsort of one row into one class whose operands and bin are usable: the row at `src`, with its length at `k.a`. -/
structure OneRow (x : Core) (k : Command) : Prop where
  clean : x.parityBad = []
  addr : k.a.toNat < 0x200000
  aligned : k.a.toNat % 4 = 0
  source : bitsN k.b.toNat 32 21 % 128 = 0
  rows : bitsN k.b.toNat 0 16 = 1
  classes : bitsN k.b.toNat 16 4 = 0
  zero24 : bitsN k.b.toNat 24 8 = 0
  zero53 : bitsN k.b.toNat 53 3 = 0
  zero60 : bitsN k.b.toNat 60 4 = 0
  inside : bitsN k.b.toNat 32 21 + (bitsN k.b.toNat 56 4 + 1) * 128 ≤ 0x200000
  region : (vget x.sf.b (bitsN k.b.toNat 20 4) Bin.zero).base.toNat + (vget x.sf.b (bitsN k.b.toNat 20 4) Bin.zero).cap.toNat *
    (vget x.sf.b (bitsN k.b.toNat 20 4) Bin.zero).rowb.toNat ≤ 0x200000
  rule : (vget x.sf.b (bitsN k.b.toNat 20 4) Bin.zero).rule = 0 ∨ (vget x.sf.b (bitsN k.b.toNat 20 4) Bin.zero).rule = 2
  narrow : (vget x.sf.b (bitsN k.b.toNat 20 4) Bin.zero).rowb.toNat ≤ (bitsN k.b.toNat 56 4 + 1) * 128

theorem sortRows_one (first len : Nat) (v : Vector Bin 16) : (sortRows first 1 [len] v).2 = true ↔
    len ≤ (vget v first Bin.zero).rowb.toNat ∧ (vget v first Bin.zero).cap.toNat ≤ (vget v first Bin.zero).fill.toNat ∧
    (vget v first Bin.zero).rule = 2 := by
  by_cases h : len ≤ (vget v first Bin.zero).rowb.toNat <;> simp [sortRows, sortRow_one, h]

theorem badClasses_one {first srb : Nat} {v : Vector Bin 16} (hbase : (vget v first Bin.zero).base.toNat ≤ 0x200000)
    (hrule : (vget v first Bin.zero).rule = 0 ∨ (vget v first Bin.zero).rule = 2)
    (hrowb : (vget v first Bin.zero).rowb.toNat ≤ srb) : badClasses first 1 srb v = false := by
  have hbit : (vget v first Bin.zero).base.getLsbD 63 = false := Nat.testBit_lt_two_pow (by omega)
  have hrules : (decide ((vget v first Bin.zero).rule = 0) || decide ((vget v first Bin.zero).rule = 2)) = true := by simpa using hrule
  simp only [badClasses, List.range_one, List.any_cons, List.any_nil, Nat.add_zero, hbit, hrules]
  simp [hrowb]

/-- Binsort of one row into one class (R306). -/
theorem runBinsort_one {s : State} {c : CoreId} {k : Command} (h : OneRow (s.core c) k) :
    let first := bitsN k.b.toNat 20 4
    let w := sortNext first 1 k.a.toNat (bitsN k.b.toNat 32 21) (SortWork.start (s.core c))
    runBinsort c k s =
      if (sortRows first 1 [spadWord (s.core c) k.a.toNat] (s.core c).sf.b).2 then (s, ends 0x11 0xFF)
      else (s.modCore c fun _ => w.x, if w.failed then { ends 7 0xFF with ledge := w.ledge } else ends 0 (BitVec.ofNat 64 w.beyond)) := by
  have hnc : bitsN k.b.toNat 16 3 = 0 ∧ bitsN k.b.toNat 19 1 = 0 := by
    have hclasses := h.classes
    simp only [bitsN] at hclasses ⊢
    omega
  have hfirst : bitsN k.b.toNat 20 4 < 16 := Nat.mod_lt _ (by decide)
  have hrows := h.rows
  have hregion := h.region
  have hbad := badClasses_one (v := (s.core c).sf.b) (Nat.le_trans (Nat.le_add_right _ _) hregion) h.rule h.narrow
  obtain ⟨_, haddr, halign, hsrc, -, -, h24, h53, h60, hin, -, -, -⟩ := h
  dsimp only [runBinsort]
  rw [hrows, hnc.1, Nat.zero_add, if_neg (by omega), if_neg, if_neg (by simp [hbad])]
  · simp [List.range_one]
  · simp only [List.range_one, List.any_cons, List.any_nil, Nat.add_zero, Bool.or_false, Bool.and_eq_true, decide_eq_true_eq]
    omega

section Outcome

variable {s : State} {c : CoreId} {k : Command} (h : OneRow (s.core c) k)
include h

/-- A row that no class takes is counted in the reply. -/
theorem runBinsort_beyond (hlen : (vget (s.core c).sf.b (bitsN k.b.toNat 20 4) Bin.zero).rowb.toNat < spadWord (s.core c) k.a.toNat) :
    runBinsort c k s = (s, ends 0 1) := by
  have htrap := (sortRows_one (bitsN k.b.toNat 20 4) (spadWord (s.core c) k.a.toNat) (s.core c).sf.b).not.mpr fun ⟨hle, _⟩ => by omega
  have hself : (s.modCore c fun _ => s.core c) = s := State.modCore_self _ _ _ rfl
  rw [runBinsort_one h, if_neg htrap, sortNext_beyond h.clean _ _ _ hlen]
  simp [SortWork.start, hself]

variable (hlen : spadWord (s.core c) k.a.toNat ≤ (vget (s.core c).sf.b (bitsN k.b.toNat 20 4) Bin.zero).rowb.toNat)
include hlen

theorem runBinsort_kept (hroom : (vget (s.core c).sf.b (bitsN k.b.toNat 20 4) Bin.zero).fill.toNat <
    (vget (s.core c).sf.b (bitsN k.b.toNat 20 4) Bin.zero).cap.toNat) : runBinsort c k s =
      (s.modCore c (keptCore (bitsN k.b.toNat 20 4) (bitsN k.b.toNat 32 21) (spadWord (s.core c) k.a.toNat)), ends 0 0) := by
  have htrap := (sortRows_one (bitsN k.b.toNat 20 4) (spadWord (s.core c) k.a.toNat) (s.core c).sf.b).not.mpr fun ⟨_, hle, _⟩ => by omega
  rw [runBinsort_one h, if_neg htrap, sortNext_kept h.clean _ _ _ hlen hroom]
  rfl

variable (hfull : (vget (s.core c).sf.b (bitsN k.b.toNat 20 4) Bin.zero).fill.toNat =
  (vget (s.core c).sf.b (bitsN k.b.toNat 20 4) Bin.zero).cap.toNat)
include hfull

theorem runBinsort_trap (hrule : (vget (s.core c).sf.b (bitsN k.b.toNat 20 4) Bin.zero).rule = 2) : runBinsort c k s = (s, ends 0x11 0xFF) := by
  rw [runBinsort_one h, if_pos ((sortRows_one _ _ _).mpr ⟨hlen, by omega, hrule⟩)]

theorem runBinsort_dropped (hrule : (vget (s.core c).sf.b (bitsN k.b.toNat 20 4) Bin.zero).rule = 0) : runBinsort c k s =
    (s.modCore c (droppedCore (bitsN k.b.toNat 20 4)), ends 0 0) := by
  have htrap := (sortRows_one (bitsN k.b.toNat 20 4) (spadWord (s.core c) k.a.toNat) (s.core c).sf.b).not.mpr fun ⟨_, _, h2⟩ => by
    rw [hrule] at h2
    exact absurd h2 (by decide)
  rw [runBinsort_one h, if_neg htrap, sortNext_full h.clean _ _ _ hlen hfull]
  rfl

end Outcome

section Kept

variable {x : Core} (hclean : x.parityBad = []) {first src len : Nat}

/-- The bin that a kept row has come to (R306). -/
theorem vget_keptCore (hfirst : first < 16) : vget (keptCore first src len x).sf.b first Bin.zero =
    { vget x.sf.b first Bin.zero with fill := (vget x.sf.b first Bin.zero).fill + 1 } :=
  vget_vset_same _ _ _ _ hfirst

theorem droppedCore_eq (h : (vget x.sf.b first Bin.zero).dropped.toNat < 2 ^ 32 - 1) : droppedCore first x =
    let b := vget x.sf.b first Bin.zero
    { x with sf := { x.sf with b := vset x.sf.b first { b with dropped := b.dropped + 1 } } } := by
  have hone (d : W32) (hd : d.toNat < 2 ^ 32 - 1) : BitVec.ofNat 32 (cap32 (d.toNat + 1)) = d + 1 := by
    rw [cap32, Nat.min_eq_left (by omega)]
    exact BitVec.eq_of_toNat_eq (by simp)
  simp only [droppedCore, sortBin, Bool.false_eq_true, if_false, hone _ h]

/-- The place of the next row of a bin. -/
def nextRow (b : Bin) : Nat := b.base.toNat + b.fill.toNat * b.rowb.toNat

/-- A bin row that keeps a row of `len` bytes. -/
def keptBytes (b : Bin) (src len : Nat) (x : Core) : List Byte := spadGet x src len ++ List.replicate (b.rowb.toNat - len) 0

include hclean in
theorem scratch_keptCore : (keptCore first src len x).scratch =
    sputs 0 x.scratch (nextRow (vget x.sf.b first Bin.zero)) (keptBytes (vget x.sf.b first Bin.zero) src len x) := by
  simp [keptCore, keepRow, spadPut, nextRow, keptBytes, spadSeen_clean hclean]

theorem length_keptBytes {b : Bin} (hlen : len ≤ b.rowb.toNat) : (keptBytes b src len x).length = b.rowb.toNat := by
  simp [keptBytes, spadGet, sgets_eq]
  omega

theorem getD_keptBytes (b : Bin) (i : Nat) :
    (keptBytes b src len x).getD i 0 = if i < len then sget 0 x.scratch (src + i) else 0 := by
  have hget : (spadGet x src len).length = len := by simp [spadGet, sgets_eq]
  by_cases h : i < len
  · rw [keptBytes, List.getD_append _ _ _ _ (by omega), if_pos h, spadGet, sgets_eq]
    simp [List.getD_eq_getElem?_getD, h]
  · rw [keptBytes, List.getD_append_right _ _ _ _ (by omega), if_neg h]
    simp only [List.getD_eq_getElem?_getD, List.getElem?_replicate]
    split <;> rfl

section Scratch

variable (hlen : len ≤ (vget x.sf.b first Bin.zero).rowb.toNat)
include hclean hlen

/-- A kept row's bytes in its bin row, and zeros behind them (R306). -/
theorem sget_keptCore_row {i : Nat} (hi : i < (vget x.sf.b first Bin.zero).rowb.toNat) :
    sget 0 (keptCore first src len x).scratch (nextRow (vget x.sf.b first Bin.zero) + i) =
      if i < len then sget 0 x.scratch (src + i) else 0 := by
  rw [scratch_keptCore hclean, sget_sputs_inside 0 _ _ _ i (by rwa [length_keptBytes hlen]), getD_keptBytes]

theorem sget_keptCore_outside {i : Nat} (hi : i < nextRow (vget x.sf.b first Bin.zero) ∨
    nextRow (vget x.sf.b first Bin.zero) + (vget x.sf.b first Bin.zero).rowb.toNat ≤ i) :
    sget 0 (keptCore first src len x).scratch i = sget 0 x.scratch i := by
  rw [scratch_keptCore hclean, sget_sputs_outside 0 _ _ _ _ (by rwa [length_keptBytes hlen])]

end Scratch

end Kept

/-! ### dress (R139, R171) -/

section Dress

theorem failedVa_some (ps : List Piece) (l : List Byte) : failedVa ps (l.map some) = none := by
  induction ps generalizing l with
  | nil => rfl
  | cons p ps ih =>
    have hnone : ((l.map some).take p.len).findIdx? (fun b => b.isNone) = none := by
      rw [List.findIdx?_eq_none_iff, ← List.map_take]
      intro b hb
      obtain ⟨y, -, rfl⟩ := List.mem_map.mp hb
      rfl
    rw [failedVa, hnone, ← List.map_drop]
    exact ih _

theorem bvOfBytes_bytesOfNat (n : Nat) : (bvOfBytes 64 (bytesOfNat 8 n) : W64) = BitVec.ofNat 64 n := by
  rw [bvOfBytes, natOfBytes_bytesOfNat]
  exact BitVec.eq_of_toNat_eq (by simp)

/-- The bytes of a program in memory: its header, which counts the words, and the words. -/
def programBytes (words : List W64) : List Byte := bytesOfNat 8 words.length ++ words.flatMap fun w => bytesOfNat 8 w.toNat

theorem word_programBytes (words : List W64) {e : Nat} (he : e < words.length + 1) :
    ((programBytes words).drop (8 * e)).take 8 = (bytesOfNat 8 words.length :: words.map fun w => bytesOfNat 8 w.toNat).getD e [] := by
  rw [← take_drop_chunk (n := 8) _ _ (by simpa using he)]
  · rw [programBytes, List.flatten_cons, List.flatMap_def]
  · intro l hl
    rcases List.mem_cons.mp hl with rfl | hl
    · exact length_bytesOfNat _ _
    · obtain ⟨w, -, rfl⟩ := List.mem_map.mp hl
      exact length_bytesOfNat _ _

theorem header_programBytes {words : List W64} (hlo : 1 ≤ words.length) (hhi : words.length ≤ 16) :
    dressCount (bvOfBytes 64 ((programBytes words).take 8)) = some words.length := by
  have hhead := word_programBytes words (e := 0) (by omega)
  rw [Nat.mul_zero, List.drop_zero, List.getD_cons_zero] at hhead
  have hn : (BitVec.ofNat 64 words.length).toNat = words.length := by
    rw [BitVec.toNat_ofNat, Nat.mod_eq_of_lt (by omega)]
  rw [hhead, bvOfBytes_bytesOfNat, dressCount, hn, if_pos ⟨hlo, hhi⟩]

theorem words_programBytes (words : List W64) :
    ((List.range words.length).map fun i => (bvOfBytes 64 (((programBytes words).drop (8 * (i + 1))).take 8) : W64)) = words := by
  refine List.ext_getElem (by simp) fun i hi hi' => ?_
  rw [List.getElem_map, List.getElem_range, word_programBytes words (by omega), List.getD_cons_succ]
  simp [List.getD_eq_getElem?_getD, hi', bvOfBytes_bytesOfNat]

variable {s : State} {c : CoreId} {k : Command}

theorem runDress_other {d : DressSlot} (hd : vget (s.cluster c.cluster).slots (cmdImm k 16 4) none = some d)
    (hw : d.world ≠ k.world) : runDress c k s = (s, ends 6 0) := by
  simp [runDress, hd, hw]

section Read

variable {words : List W64}
  (hown : ∀ d, vget (s.cluster c.cluster).slots (cmdImm k 16 4) none = some d → d.world = k.world)
  (hdata : sourceData s c k = (programBytes words).map some) (hlo : 1 ≤ words.length) (hhi : words.length ≤ 16)
include hown hdata hlo hhi

/-- A program that has been read whole comes to what its words load to. -/
theorem runDress_read : runDress c k s = (dressLoad words).elim (s, ends 3 0) fun p =>
    (s.modCluster c.cluster fun y => { y with slots := vset y.slots (cmdImm k 16 4) (some { world := k.world, prog := p }) }, ends 0 1) := by
  have hplain : ((programBytes words).map some).map (fun b => b.getD 0) = programBytes words := by simp
  dsimp only [runDress]
  rw [hdata, failedVa_some, hplain, header_programBytes hlo hhi, if_neg]
  · simp only [words_programBytes]
    cases dressLoad words <;> rfl
  · cases hslot : vget (s.cluster c.cluster).slots (cmdImm k 16 4) none with
    | none => simp
    | some d => simp [hown d hslot]

end Read

end Dress

end Sys2Proof.Proofs.CommandEffects
end

section
/-! PROOFS. Commands from the head of their queue to their end (R81, R129, R158, R161, R162, R170, R285, R304, R306, R139, R171). -/

namespace Sys2Proof.Proofs.CommandRuns

open Sys2Proof Sys2Proof.Machine
open Sys2Proof.Proofs.Acts (done_of_regq)
open Sys2Proof.Proofs.Dispatch Sys2Proof.Proofs.CommandEnds Sys2Proof.Proofs.CommandEffects

section Dress

variable {s : State} {c : CoreId} {k : Command}

/-- The packets of the link do not tell what a command's source gives. -/
theorem sourceData_withOut (out : List (Nat × Nat × Packet)) : sourceData (withOut out s) c k = sourceData s c k := by
  have hbyte (f : Fin 4) (v : World) (pa : Nat) : engineByte (withOut out s) f v pa = engineByte s f v pa := by
    obtain ⟨-, -, hsees⟩ := sameMemory_of (s := s) (t := withOut out s) rfl rfl rfl
    exact hsees f v pa
  have hbytes (f : Fin 4) (v : World) (pa n : Nat) : engineBytes (withOut out s) f v pa n = engineBytes s f v pa n := by
    induction n generalizing pa with
    | zero => rfl
    | succ n ih => rw [engineBytes, engineBytes, hbyte, ih]
  have hshut (pa : Nat) : pieceShut (withOut out s) c k.world pa = pieceShut s c k.world pa := rfl
  have hpart (i : Nat) (p : Piece) : sourcePart (withOut out s) c k i p = sourcePart s c k i p := by
    simp only [sourcePart, hshut, hbytes]; rfl
  simp only [sourceData, hpart]

/-- A dress that loads a program ends with its cluster changed. -/
theorem dress_ends (h : Claims.performing s c k 8 = true) {f : Cluster → Cluster}
    (hrun : ∀ out, runDress c k (withOut out s) = ((withOut out s).modCluster c.cluster f, ends 0 1)) :
    ∃ t, exec (.dress c k.id) s = .next t ∧ t.core c = completeOn k 0 1 (forgetCmd k.id (s.core c)) ∧ OthersSame c s t ∧ SameMemory s t ∧
      t.cluster c.cluster = f (s.cluster c.cluster) ∧ ∀ j, j ≠ c.cluster → t.cluster j = s.cluster j := by
  obtain ⟨hp, hz⟩ := performing_iff.mp h
  obtain ⟨out, hout⟩ := clearSource_eq s c k
  have hheld : writesHeld ((withOut out s).modCluster c.cluster f) c k.id = writesHeld s c k.id :=
    writesHeld_congr (s := s) (u := (withOut out s).modCluster c.cluster f) rfl rfl rfl rfl k.id
  have hend : zeroEnd ((withOut out s).modCluster c.cluster f) k (ends 0 1) = ends 0 1 :=
    zeroEnd_eq (by rw [hp.code]; exact hz) _
  have hevent := onCommand_performs hp hout (hrun out) hend (hheld.trans hp.unheld)
  refine ⟨_, (congrArg done hevent).trans (done_of_regq hp.regq), ?_, fun d hd => ?_, sameMemory_of rfl rfl rfl, ?_, fun j hj => ?_⟩
  · rw [State.core_modCore_same]; rfl
  · rw [State.core_modCore_other _ _ _ _ hd]; rfl
  · rw [State.cluster_modCore, State.cluster_modCluster_same]; rfl
  · rw [State.cluster_modCore, State.cluster_modCluster_other _ _ _ _ hj]; rfl

end Dress

/-- Settles O46, event by event. -/
theorem commandEvents : Obligations.CommandEvents := by
  unfold Obligations.CommandEvents
  refine ⟨fun s c src tg k hq hhead => ⟨?gTrue, ?gFalse, ?gStays, ?notOk, ?turn, ?dispatched⟩, fun k status v x hst => ⟨?taken, ?toS, ?toP, ?toA, ?heldDone⟩,
    fun s c k h => ?fill, fun s c k hq hrun hfn hpend hheld hz hb => ?seedZeroised, fun s c k h => ⟨?seeded, ?seedRefused⟩, fun s c k h hclean => ?hist,
    fun s c k h hclean => ?binsort, fun s c k l words h => ?dress⟩
  case gTrue => exact fun hok hg => exec_commandHeadResolve hq (headResolve_true hhead hok (commandGuard_true hhead hg)) rfl
  case gFalse =>
    exact fun hok h15 hw hv => exec_commandHeadResolve hq (headResolve_false hhead hok (commandGuard_false hhead h15 hw hv)) rfl
  case gStays =>
    rintro (hok | ⟨h15, hw⟩)
    · exact exec_commandHeadResolve hq (headResolve_resolved hhead hok) rfl
    · exact exec_commandHeadResolve hq (headResolve_late hhead (commandGuard_unwritten hhead h15 hw)) rfl
  case notOk => exact fun hok => exec_commandDispatch hq (dispatchHead_unready (by simp [readyHead, hhead, hok])) rfl
  case turn =>
    exact fun hidle hcopy hother => exec_commandDispatch hq (dispatchHead_turn hcopy ((turnTaken_of_idle hidle).mpr hother)) rfl
  case dispatched =>
    intro hok hstale hidle hfirst
    obtain ⟨hrun, hcmds, hscal, hothers, hclk, hmem, hto⟩ := dispatchTo_facts c k s (hidle c (mem_cores c))
    refine ⟨_, exec_commandDispatch hq (dispatchHead_of_turn hhead hok hstale hidle hfirst) rfl, hrun, hcmds, hscal, hothers, hclk, hmem,
      fun _ hcopy => ?_⟩
    rw [← (head_queue hhead).1]
    exact hto hcopy
  case taken => exact completeOn_running status v x
  case toS =>
    intro hsrc hd h0
    rw [completeOn_lead status v x hsrc]
    exact readS_writeReply _ _ _ _ hd h0
  case toP =>
    intro hsrc hd
    rw [completeOn_lead status v x hsrc]
    exact slot_writeReply _ _ _ _ _ hd
  case toA =>
    intro hsrc hu hd
    rw [completeOn_ap_open status v x hsrc hu]
    exact readA_writeReply _ _ _ _ hd
  case heldDone => exact fun hsrc hu => completeOn_ap_held status v x hsrc hu hst
  case fill =>
    intro base n ha hb hz
    refine ⟨fun hn hmax hin => ?_, fun hn => event_ends_id h fun out => runFill_refused _ hn,
      fun hn hmax hout => event_ends_id h fun out => runFill_outside _ ha hb hz hn hmax hout⟩
    obtain ⟨t, ht, hends⟩ := event_ends h (f := fun x => spadPut x base (fillBytes k.a.toNat n)) rfl fun out =>
      runFill_inside _ ha hb hz hn hmax hin
    have hlen : (fillBytes k.a.toNat n).length = n := length_fillBytes _ _
    refine ⟨t, _, ht, hends, rfl, fun i hi => ?_, fun a hout => sget_sputs_outside 0 _ _ _ _ (by rwa [hlen])⟩
    exact (sget_sputs_inside 0 _ _ _ i (by rwa [hlen])).trans (getD_fillBytes _ _ hi)
  case seedZeroised =>
    have hcode : k.fn.toNat = 0xC := by rw [hfn]; rfl
    have hp : Performs s c k 0xC := ⟨hq, hrun, hcode, hpend, hheld⟩
    obtain ⟨t, ht, hends⟩ := event_ends_as hp (status := 7) (reply := 0xFF)
      (f := fun x => { x with sf := { x.sf with rseed := vset x.sf.rseed k.b.toNat k.a } }) rfl (fun out => runRngSeed_ok _ hb)
      fun u hu => zeroEnd_zeroised (by omega) (by rw [hu]; exact hz) 0 (by decide)
    exact ⟨t, _, ht, hends⟩
  case seeded =>
    exact fun hb => event_ends h (f := fun x => { x with sf := { x.sf with rseed := vset x.sf.rseed k.b.toNat k.a } }) rfl
      fun out => runRngSeed_ok _ hb
  case seedRefused => exact fun hb => event_ends_id h fun out => runRngSeed_refused _ hb
  case hist =>
    intro a rows ne first v count ha ha4 hb hlo hhi hend hcap
    obtain ⟨t, ht, hends⟩ := event_ends h (f := histCore v first ((List.range ne).map count)) rfl fun out =>
      runHist_ok (s := withOut out s) rfl hclean ha ha4 hb hlo hhi hend (badLatch_false hcap)
    have hlen : ((List.range ne).map count).length = ne := by simp
    have hget {e : Nat} (he : e < ne) : ((List.range ne).map count).getD e 0 = count e := by simp [List.getD_eq_getElem?_getD, he]
    have hcount (e : Nat) : count e < 2 ^ 32 := by
      have hle : count e ≤ rows := classCount_le _ _ _ _
      omega
    refine ⟨t, _, ht, hends, fun e he => ?_, fun b hout => sget_histCore_outside v first _ _ (by rwa [hlen]),
      fun e he hfirst => histCore_bin v first count hcount (s.core c) he hfirst, rfl, rfl, rfl⟩
    rw [natOfBytes_histCore v first _ _ (by rwa [hlen]) (by rw [hget he]; exact hcount e), hget he]
  case binsort =>
    intro a first src srb b len ha ha4 hsrc hrows hclasses h24 h53 h60 hin hregion hrule hnarrow
    have hone : OneRow (s.core c) k := ⟨hclean, ha, ha4, hsrc, hrows, hclasses, h24, h53, h60, hin, hregion, hrule, hnarrow⟩
    have hfirst : first < 16 := Nat.mod_lt _ (by decide)
    refine ⟨fun hlen => event_ends_id h fun out => runBinsort_beyond (s := withOut out s) hone hlen, fun hlen hroom => ?_,
      fun hlen hfull htrap => event_ends_id h fun out => runBinsort_trap (s := withOut out s) hone hlen hfull htrap,
      fun hlen hfull hdrop hmax => ?_⟩
    · obtain ⟨t, ht, hends⟩ := event_ends h (f := keptCore first src len) rfl fun out =>
        runBinsort_kept (s := withOut out s) hone hlen hroom
      exact ⟨t, _, ht, hends, vget_keptCore hfirst,
        fun i hi => (sget_keptCore_row hclean hlen (Nat.lt_of_lt_of_le hi hlen)).trans (if_pos hi),
        fun i hi hlt => (sget_keptCore_row hclean hlen hlt).trans (if_neg (Nat.not_lt.mpr hi)),
        fun i hout => sget_keptCore_outside hclean hlen hout⟩
    · have hends := event_ends h (f := droppedCore first) rfl fun out => runBinsort_dropped (s := withOut out s) hone hlen hfull hdrop
      rwa [droppedCore_eq hmax] at hends
  case dress =>
    intro slot here
    refine ⟨fun d hd hw => event_ends_id h fun out => runDress_other (s := withOut out s) hd hw, fun hown hdata hl hlo hhi => ?_⟩
    have hwords : l = programBytes words := hl
    have hread (out : List (Nat × Nat × Packet)) := runDress_read (s := withOut out s) (k := k) (words := words) hown
      (by rw [sourceData_withOut, hdata, hwords]) hlo hhi
    refine ⟨fun hload => event_ends_id h fun out => by rw [hread, hload]; rfl, fun p hload => ?_⟩
    obtain ⟨t, ht, hcore, hothers, hmem, hcl, hclusters⟩ := dress_ends h fun out => by rw [hread, hload]; rfl
    have hslot : slot < 16 := Nat.mod_lt _ (by decide)
    refine ⟨t, ht, hcore, hothers, hmem, by rw [hcl], hclusters, ?_, fun i hi => ?_⟩
    · rw [hcl]; exact vget_vset_same _ _ _ _ hslot
    · rw [hcl]; exact vget_vset_other _ _ _ _ _ hi

end Sys2Proof.Proofs.CommandRuns
end

section
/-! PROOFS. The results of the shared scalar operations (R91-R94): each operation of the model as the manual writes it. -/

namespace Sys2Proof.Proofs.ScalarOps

open Sys2Proof Sys2Proof.Machine Sys2Proof.Claims Sys2Proof.Proofs.Sources

/-! ### Shifts and extrema (R91) -/

theorem shiftCount_eq (y : W64) : (y.extractLsb' 0 6).toNat = y.toNat % 64 := by
  simp [BitVec.extractLsb'_toNat]

theorem aluShl_eq : aluShl = fun x y => x <<< (y.extractLsb' 0 6).toNat := by
  funext x y
  rw [shiftCount_eq, aluShl]

theorem aluShr_eq : aluShr = fun x y => x >>> (y.extractLsb' 0 6).toNat := by
  funext x y
  rw [shiftCount_eq, aluShr]

theorem aluSra_eq : aluSra = fun x y => x.sshiftRight (y.extractLsb' 0 6).toNat := by
  funext x y
  rw [shiftCount_eq, aluSra]

/-- Of two words that compare equal either may be chosen: they are one word. -/
theorem choose_lt_eq_choose_le {α : Type} [LinearOrder α] {key : W64 → α} (hkey : ∀ x y, key x = key y → x = y) (x y : W64) :
    (if key x < key y then x else y) = (if key x ≤ key y then x else y) ∧
    (if key x < key y then y else x) = (if key y ≤ key x then x else y) := by
  rcases lt_trichotomy (key x) (key y) with h | h | h
  · simp [h, h.le, not_le.mpr h]
  · simp [hkey x y h]
  · simp [h.le, not_lt.mpr h.le, not_le.mpr h]

theorem aluMin_eq : aluMin = fun x y => if x.toInt < y.toInt then x else y := by
  funext x y
  exact (choose_lt_eq_choose_le (fun _ _ => BitVec.eq_of_toInt_eq) x y).1.symm

theorem aluMax_eq : aluMax = fun x y => if x.toInt < y.toInt then y else x := by
  funext x y
  exact (choose_lt_eq_choose_le (fun _ _ => BitVec.eq_of_toInt_eq) x y).2.symm

theorem aluMinu_eq : aluMinu = fun x y => if x.toNat < y.toNat then x else y := by
  funext x y
  exact (choose_lt_eq_choose_le (fun _ _ => BitVec.eq_of_toNat_eq) x y).1.symm

theorem aluMaxu_eq : aluMaxu = fun x y => if x.toNat < y.toNat then y else x := by
  funext x y
  exact (choose_lt_eq_choose_le (fun _ _ => BitVec.eq_of_toNat_eq) x y).2.symm

/-! ### Counts (R91) -/

/-- Below bit `n`, the zeros above the highest one bit `m`. -/
theorem clzFrom_highest (x : W64) {n m : Nat} (hm : x.getLsbD m = true) (habove : ∀ j, m < j → x.getLsbD j = false) (hlt : m < n) :
    clzFrom x n = n - 1 - m := by
  induction n with
  | zero => omega
  | succ n ih =>
    by_cases hn : n = m
    · subst hn
      simp [clzFrom, hm]
    · rw [clzFrom, habove n (by omega), ih (by omega)]
      simp only [Bool.false_eq_true, if_false]
      omega

theorem clzFrom_zero (n : Nat) : clzFrom 0 n = n := by
  induction n with
  | zero => rfl
  | succ n ih => rw [clzFrom, ih, if_neg (by simp)]

theorem clzFrom_eq (x : W64) : clzFrom x 64 = if x = 0 then 64 else 63 - x.toNat.log2 := by
  split
  · next h => rw [h, clzFrom_zero]
  · next h =>
    have hne : x.toNat ≠ 0 := fun h0 => h (BitVec.eq_of_toNat_eq h0)
    refine clzFrom_highest x (Nat.testBit_log2 hne) (fun j hj => ?_) ((Nat.log2_lt hne).mpr x.isLt)
    exact Nat.testBit_lt_two_pow ((Nat.log2_lt hne).mp hj)

/-- The bits from `64 - n` up to the lowest one bit. -/
theorem find_lowest (x : W64) {n : Nat} (hn : n ≤ 64) :
    ((List.range' (64 - n) n).find? fun i => x.getLsbD i).getD 64 = 64 - n + ctzFrom x n := by
  induction n with
  | zero => rfl
  | succ n ih =>
    have hnext : 64 - (n + 1) + 1 = 64 - n := by omega
    have hbit : 63 - n = 64 - (n + 1) := by omega
    rw [List.range'_succ, List.find?_cons, hnext, ctzFrom, hbit]
    cases x.getLsbD (64 - (n + 1))
    · simp only [Bool.false_eq_true, if_false, ih (by omega)]
      omega
    · rfl

theorem ctzFrom_eq (x : W64) : ctzFrom x 64 = ((List.range 64).find? fun i => x.getLsbD i).getD 64 := by
  rw [List.range_eq_range', find_lowest x (le_refl 64), Nat.sub_self, Nat.zero_add]

theorem popcFrom_eq (x : W64) (n : Nat) : popcFrom x n = ((List.range n).filter fun i => x.getLsbD i).length := by
  induction n with
  | zero => rfl
  | succ n ih =>
    rw [List.range_succ, List.filter_append, List.length_append, ← ih, popcFrom]
    cases h : x.getLsbD n <;> simp [h]

/-! ### The high part of a word (R92) -/

theorem setSlice_high (x : W64) (v : BitVec 28) : setSlice x 36 v = v ++ x.extractLsb' 0 36 := by
  refine BitVec.eq_of_getLsbD_eq fun i hi => ?_
  rw [getLsbD_setSlice x 36 v (by decide) hi, BitVec.getLsbD_append]
  by_cases h : i < 36
  · simp [h, show ¬36 ≤ i by omega]
  · simp [h, show 36 ≤ i by omega, show i < 36 + 28 by omega]

/-! ### Relations (R93) -/

theorem relEq_eq : relEq = fun x y => x == y := rfl

theorem relNe_eq : relNe = fun x y => x != y := by
  funext x y
  exact decide_not

end Sys2Proof.Proofs.ScalarOps
end

section
/-! PROOFS. Words that write one scalar register or one predicate slot (R86, R88, R90-R96, R110, R153): the plan of each, and the state
that it leaves. -/

namespace Sys2Proof.Proofs.ScalarWords

open Sys2Proof Sys2Proof.Machine Sys2Proof.Claims Sys2Proof.Proofs.Csr Sys2Proof.Proofs.ScalarOps

/-! ### The lists of words, and their plans -/

section Lists

variable {f : Fld}

theorem aluWords_plan {p : (Fld → Instr) × (W64 → W64 → W64)} (hp : p ∈ aluWords) :
    rdvFormOf (p.1 f) = none ∧ planOf (p.1 f) = planAlu p.2 f := by
  simp only [aluWords, ← aluShl_eq, ← aluShr_eq, ← aluSra_eq, ← aluMin_eq, ← aluMax_eq, ← aluMinu_eq, ← aluMaxu_eq, List.mem_cons,
    List.not_mem_nil, or_false] at hp
  obtain rfl | rfl | rfl | rfl | rfl | rfl | rfl | rfl | rfl | rfl | rfl | rfl | rfl := hp <;> exact ⟨rfl, rfl⟩

theorem aluImmWords_plan {p : (Fld → Instr) × (W64 → W64 → W64)} (hp : p ∈ aluImmWords) :
    rdvFormOf (p.1 f) = none ∧ planOf (p.1 f) = planAluI p.2 f := by
  simp only [aluImmWords, ← aluShl_eq, ← aluShr_eq, ← aluSra_eq, ← aluMin_eq, ← aluMax_eq, ← aluMinu_eq, ← aluMaxu_eq, List.mem_cons,
    List.not_mem_nil, or_false] at hp
  obtain rfl | rfl | rfl | rfl | rfl | rfl | rfl | rfl | rfl | rfl | rfl | rfl | rfl := hp <;> exact ⟨rfl, rfl⟩

theorem productWords_plan {p : (Fld → Instr) × (W64 → W64 → W64)} (hp : p ∈ productWords) :
    rdvFormOf (p.1 f) = none ∧ planOf (p.1 f) = planMulR p.2 f := by
  simp only [productWords, List.mem_cons, List.not_mem_nil, or_false] at hp
  obtain rfl | rfl | rfl := hp <;> exact ⟨rfl, rfl⟩

theorem productImmWords_plan {p : (Fld → Instr) × (W64 → W64 → W64)} (hp : p ∈ productImmWords) :
    rdvFormOf (p.1 f) = none ∧ planOf (p.1 f) = planMulI p.2 f := by
  simp only [productImmWords, List.mem_cons, List.not_mem_nil, or_false] at hp
  obtain rfl | rfl | rfl := hp <;> exact ⟨rfl, rfl⟩

theorem countWords_plan {p : (Fld → Instr) × (W64 → Nat)} (hp : p ∈ countWords) :
    rdvFormOf (p.1 f) = none ∧ planOf (p.1 f) = planAlu1 (fun x => BitVec.ofNat 64 (p.2 x)) f := by
  simp only [countWords, ← clzFrom_eq, ← ctzFrom_eq, ← popcFrom_eq, List.mem_cons, List.not_mem_nil, or_false] at hp
  obtain rfl | rfl | rfl := hp <;> exact ⟨rfl, rfl⟩

theorem cmpWords_plan {p : (Fld → Instr) × (W64 → W64 → Bool)} (hp : p ∈ cmpWords) :
    rdvFormOf (p.1 f) = none ∧ planOf (p.1 f) = planCmp p.2 f := by
  simp only [cmpWords, ← relNe_eq, List.mem_cons, List.not_mem_nil, or_false] at hp
  obtain rfl | rfl | rfl | rfl | rfl | rfl := hp <;> exact ⟨rfl, rfl⟩

theorem cmpImmWords_plan {p : (Fld → Instr) × (W64 → W64 → Bool)} (hp : p ∈ cmpImmWords) :
    rdvFormOf (p.1 f) = none ∧ planOf (p.1 f) = planCmpI p.2 f := by
  simp only [cmpImmWords, ← relNe_eq, List.mem_cons, List.not_mem_nil, or_false] at hp
  obtain rfl | rfl | rfl | rfl | rfl | rfl := hp <;> exact ⟨rfl, rfl⟩

theorem slot2Words_plan {p : (Fld → Instr) × (Bool → Bool → Bool)} (hp : p ∈ slot2Words) :
    rdvFormOf (p.1 f) = none ∧ planOf (p.1 f) = planSlot2 p.2 f := by
  simp only [slot2Words, List.mem_cons, List.not_mem_nil, or_false] at hp
  obtain rfl | rfl | rfl | rfl := hp <;> exact ⟨rfl, rfl⟩

theorem slot1Words_plan {p : (Fld → Instr) × (Bool → Bool)} (hp : p ∈ slot1Words) :
    rdvFormOf (p.1 f) = none ∧ planOf (p.1 f) = planSlot1 p.2 f := by
  simp only [slot1Words, List.mem_cons, List.not_mem_nil, or_false] at hp
  obtain rfl | rfl := hp <;> exact ⟨rfl, rfl⟩

theorem slot0Words_plan {p : (Fld → Instr) × Bool} (hp : p ∈ slot0Words) :
    rdvFormOf (p.1 f) = none ∧ planOf (p.1 f) = fun k => planSlot k [] f.d p.2 := by
  simp only [slot0Words, List.mem_cons, List.not_mem_nil, or_false] at hp
  obtain rfl | rfl := hp <;> exact ⟨rfl, rfl⟩

end Lists

/-! ### Operands that are there -/

section Operands

variable {s : State} {c : CoreId} {e : Engine} {i : Instr} {l l' : List RegCode} {r : RegCode}

theorem regsReady_subset (h : regsReady s c e l = true) (hsub : l' ⊆ l) : regsReady s c e l' = true :=
  List.all_eq_true.mpr fun r hr => List.all_eq_true.mp h r (hsub hr)

theorem lateReg_ready (h : regsReady s c e l = true) (hr : r ∈ l) : lateReg (ctxOf s c e i) r = [] :=
  lateReg_nil (k := ctxOf s c e i) (pending_of_regsReady h hr)

theorem lateSlot_ready (h : slotsReady s c e l = true) (hr : r ∈ l) : lateSlot (ctxOf s c e i) r = [] :=
  lateSlot_nil (k := ctxOf s c e i) (List.all_eq_true.mp h r hr)

end Operands

/-! ### Words that write a register (R86, R91, R92, R96, R110, R153) -/

section Registers

variable {s : State} {c : CoreId} {e : Engine} {f : Fld}

theorem exec_aluWord {p : (Fld → Instr) × (W64 → W64 → W64)} (hp : p ∈ aluWords) (h : issues s c e (p.1 f) = true)
    (hr : regsReady s c e [f.a, f.b, f.d] = true) :
    exec (p.1 f) s = .next (coreNext s c e (writeReg e f.d (p.2 (readReg (s.core c) e f.a) (readReg (s.core c) e f.b)))) := by
  obtain ⟨hform, hplan⟩ := aluWords_plan hp (f := f)
  exact exec_reg h hform (congrFun hplan _) (by rw [lateReg_ready hr (by simp), lateReg_ready hr (by simp)]; rfl)
    (pending_of_regsReady hr (by simp))

theorem exec_aluImmWord {p : (Fld → Instr) × (W64 → W64 → W64)} (hp : p ∈ aluImmWords) (h : issues s c e (p.1 f) = true)
    (hr : regsReady s c e [f.a, f.d] = true) :
    exec (p.1 f) s = .next (coreNext s c e (writeReg e f.d (p.2 (readReg (s.core c) e f.a) (f.imm.signExtend 64)))) := by
  obtain ⟨hform, hplan⟩ := aluImmWords_plan hp (f := f)
  exact exec_reg h hform (congrFun hplan _) (lateReg_ready hr (by simp)) (pending_of_regsReady hr (by simp))

theorem exec_countWord {p : (Fld → Instr) × (W64 → Nat)} (hp : p ∈ countWords) (h : issues s c e (p.1 f) = true)
    (ha : regsReady s c e [f.a] = true) (hd : regsReady s c e [f.d] = true) :
    exec (p.1 f) s = .next (coreNext s c e (writeReg e f.d (BitVec.ofNat 64 (p.2 (readReg (s.core c) e f.a))))) := by
  obtain ⟨hform, hplan⟩ := countWords_plan hp (f := f)
  exact exec_reg h hform (congrFun hplan _) (lateReg_ready ha (by simp)) (pending_of_regsReady hd (by simp))

theorem exec_movi (h : issues s c e (.movi f) = true) (hd : regsReady s c e [f.d] = true) :
    exec (.movi f) s = .next (coreNext s c e (writeReg e f.d (f.imm.signExtend 64))) :=
  exec_reg h rfl (lates := []) rfl rfl (pending_of_regsReady hd (by simp))

theorem exec_movhi (h : issues s c e (.movhi f) = true) (hd : regsReady s c e [f.d] = true) :
    exec (.movhi f) s = .next (coreNext s c e (writeReg e f.d
      (f.imm.extractLsb' 0 28 ++ (readReg (s.core c) e f.d).extractLsb' 0 36))) := by
  rw [← setSlice_high]
  exact exec_reg h rfl rfl (lateReg_ready hd (by simp)) (pending_of_regsReady hd (by simp))

theorem exec_sel (h : issues s c e (.sel f) = true) (hr : regsReady s c e [f.a, f.b] = true) (hd : regsReady s c e [f.d] = true)
    (hs : slotsReady s c e [f.c] = true) :
    exec (.sel f) s = .next (coreNext s c e (writeReg e f.d
      (if slotIn s c e f.c then readReg (s.core c) e f.a else readReg (s.core c) e f.b))) :=
  exec_reg h rfl rfl
    (by rw [lateSlot_ready hs (by simp), lateReg_ready hr (by simp), lateReg_ready hr (by simp)]; rfl)
    (pending_of_regsReady hd (by simp))

theorem exec_lpr (h : issues s c e (.lpr f) = true) (hd : regsReady s c e [f.d] = true) :
    exec (.lpr f) s = .next (coreNext s c e (writeReg e f.d (loopReg (s.core c) e (immBits f 4 2) (immBits f 0 3)))) :=
  exec_reg h rfl (lates := []) rfl rfl (pending_of_regsReady hd (by simp))

theorem exec_gget (h : issues s c e (.gget f) = true) (hd : regsReady s c e [f.d] = true) :
    exec (.gget f) s = .next (coreNext s c e (writeReg e f.d (vget (s.core c).ap.geo (immBits f 0 3) 0))) :=
  exec_reg h rfl (lates := []) rfl rfl (pending_of_regsReady hd (by simp))

/-- What a product with its operands there leaves (R86, R88): the register written, or a write that lands two ticks later. -/
theorem exec_product_word {i : Instr} {lates : List (Nat × Nat)} {v : W64} (h : issues s c e i = true) (hform : rdvFormOf i = none)
    (hplan : planOf i (ctxOf s c e i) = planProduct (ctxOf s c e i) lates f.d v) (hl : lates = [])
    (hd : pendingReg (s.core c) e f.d = false) :
    (timedAt s c e = false → exec i s = .next (coreNext s c e (writeReg e f.d v))) ∧
    (timedAt s c e = true → exec i s = .next (coreNext s c e fun x => { x with latches := x.latches ++ [productLatch s c e f.d v] })) := by
  have hexec := exec_product h hform hplan hl hd
  constructor
  · intro ht
    simpa only [ht, Bool.false_eq_true, if_false] using hexec
  · intro ht
    simpa only [ht, if_true] using hexec

/-- The words that write one scalar register do so, whatever their value. -/
theorem exec_regWord {w : (Fld → Instr) × (Fld → List RegCode) × (Fld → List RegCode)} (hw : w ∈ regWords)
    (h : issues s c e (w.1 f) = true) (hr : regsReady s c e (w.2.1 f) = true) (hs : slotsReady s c e (w.2.2 f) = true) :
    ∃ v, exec (w.1 f) s = .next (coreNext s c e (writeReg e f.d v)) := by
  simp only [regWords, List.mem_append, List.mem_map, List.mem_cons, List.not_mem_nil, or_false] at hw
  obtain ((⟨p, hp, rfl⟩ | ⟨p, hp, rfl⟩) | ⟨p, hp, rfl⟩) | rfl | rfl | rfl | rfl | rfl := hw
  · exact ⟨_, exec_aluWord hp h hr⟩
  · exact ⟨_, exec_aluImmWord hp h hr⟩
  · exact ⟨_, exec_countWord hp h (regsReady_subset hr (by simp)) (regsReady_subset hr (by simp))⟩
  · exact ⟨_, exec_movi h hr⟩
  · exact ⟨_, exec_movhi h hr⟩
  · exact ⟨_, exec_sel h (regsReady_subset hr (by simp)) (regsReady_subset hr (by simp)) hs⟩
  · exact ⟨_, exec_lpr h hr⟩
  · exact ⟨_, exec_gget h hr⟩

end Registers

/-! ### Words that change a predicate slot (R93, R94) -/

section Slots

variable {s : State} {c : CoreId} {e : Engine} {f : Fld} (hfree : slotFree s c e f.d = true)
include hfree

/-- A word that writes slot d, with its operands there. -/
theorem exec_writesSlot {i : Instr} {lates : List (Nat × Nat)} {b : Bool} (h : issues s c e i = true) (hform : rdvFormOf i = none)
    (hplan : planOf i (ctxOf s c e i) = planSlot (ctxOf s c e i) lates f.d b) (hl : lates = []) :
    exec i s = .next (coreNext s c e (writeSlot (inTrap (s.core c) e) (slotNo f.d) b)) :=
  exec_slot h hform hplan hl (writeSlot_flight _ _ _) hfree

theorem exec_cmpWord {p : (Fld → Instr) × (W64 → W64 → Bool)} (hp : p ∈ cmpWords) (h : issues s c e (p.1 f) = true)
    (hr : regsReady s c e [f.a, f.b] = true) :
    exec (p.1 f) s = .next (coreNext s c e (writeSlot (inTrap (s.core c) e) (slotNo f.d)
      (p.2 (readReg (s.core c) e f.a) (readReg (s.core c) e f.b)))) := by
  obtain ⟨hform, hplan⟩ := cmpWords_plan hp (f := f)
  exact exec_writesSlot hfree h hform (congrFun hplan _) (by rw [lateReg_ready hr (by simp), lateReg_ready hr (by simp)]; rfl)

theorem exec_cmpImmWord {p : (Fld → Instr) × (W64 → W64 → Bool)} (hp : p ∈ cmpImmWords) (h : issues s c e (p.1 f) = true)
    (hr : regsReady s c e [f.a] = true) :
    exec (p.1 f) s = .next (coreNext s c e (writeSlot (inTrap (s.core c) e) (slotNo f.d)
      (p.2 (readReg (s.core c) e f.a) (f.imm.signExtend 64)))) := by
  obtain ⟨hform, hplan⟩ := cmpImmWords_plan hp (f := f)
  exact exec_writesSlot hfree h hform (congrFun hplan _) (lateReg_ready hr (by simp))

theorem exec_slot2Word {p : (Fld → Instr) × (Bool → Bool → Bool)} (hp : p ∈ slot2Words) (h : issues s c e (p.1 f) = true)
    (hs : slotsReady s c e [f.a, f.b] = true) :
    exec (p.1 f) s = .next (coreNext s c e (writeSlot (inTrap (s.core c) e) (slotNo f.d)
      (p.2 (slotIn s c e f.a) (slotIn s c e f.b)))) := by
  obtain ⟨hform, hplan⟩ := slot2Words_plan hp (f := f)
  exact exec_writesSlot hfree h hform (congrFun hplan _) (by rw [lateSlot_ready hs (by simp), lateSlot_ready hs (by simp)]; rfl)

theorem exec_slot1Word {p : (Fld → Instr) × (Bool → Bool)} (hp : p ∈ slot1Words) (h : issues s c e (p.1 f) = true)
    (hs : slotsReady s c e [f.a] = true) :
    exec (p.1 f) s = .next (coreNext s c e (writeSlot (inTrap (s.core c) e) (slotNo f.d) (p.2 (slotIn s c e f.a)))) := by
  obtain ⟨hform, hplan⟩ := slot1Words_plan hp (f := f)
  exact exec_writesSlot hfree h hform (congrFun hplan _) (lateSlot_ready hs (by simp))

theorem exec_slot0Word {p : (Fld → Instr) × Bool} (hp : p ∈ slot0Words) (h : issues s c e (p.1 f) = true) :
    exec (p.1 f) s = .next (coreNext s c e (writeSlot (inTrap (s.core c) e) (slotNo f.d) p.2)) := by
  obtain ⟨hform, hplan⟩ := slot0Words_plan hp (f := f)
  exact exec_writesSlot hfree h hform (congrFun hplan _) rfl

theorem exec_pvoid (h : issues s c e (.pvoid f) = true) :
    exec (.pvoid f) s = .next (coreNext s c e (voidSlot (inTrap (s.core c) e) (slotNo f.d))) :=
  exec_slot h rfl (lates := []) rfl rfl (voidSlot_flight _ _) hfree

/-- The words that change one predicate slot write it or make it unwritten. -/
theorem exec_slotWord {w : (Fld → Instr) × (Fld → List RegCode) × (Fld → List RegCode)} (hw : w ∈ slotWords)
    (h : issues s c e (w.1 f) = true) (hr : regsReady s c e (w.2.1 f) = true) (hs : slotsReady s c e (w.2.2 f) = true) :
    (∃ b, exec (w.1 f) s = .next (coreNext s c e (writeSlot (inTrap (s.core c) e) (slotNo f.d) b))) ∨
    exec (w.1 f) s = .next (coreNext s c e (voidSlot (inTrap (s.core c) e) (slotNo f.d))) := by
  simp only [slotWords, List.mem_append, List.mem_map, List.mem_cons, List.not_mem_nil, or_false] at hw
  obtain ((((⟨p, hp, rfl⟩ | ⟨p, hp, rfl⟩) | ⟨p, hp, rfl⟩) | ⟨p, hp, rfl⟩) | ⟨p, hp, rfl⟩) | rfl := hw
  · exact .inl ⟨_, exec_cmpWord hfree hp h hr⟩
  · exact .inl ⟨_, exec_cmpImmWord hfree hp h hr⟩
  · exact .inl ⟨_, exec_slot2Word hfree hp h hs⟩
  · exact .inl ⟨_, exec_slot1Word hfree hp h hs⟩
  · exact .inl ⟨_, exec_slot0Word hfree hp h⟩
  · exact .inr (exec_pvoid hfree h)

end Slots

/-! ### The results -/

/-- Settles O9: each word's plan writes d with the operation's result, and its operands are there. -/
theorem aluResult : Obligations.AluResult := by
  unfold Obligations.AluResult
  exact ⟨fun p hp s c e f => exec_aluWord hp, fun s c e f => ⟨fun p hp => exec_aluImmWord hp, exec_movi⟩⟩

/-- Settles O10: products by where they are timed, the other words by their one write. -/
theorem productCountMoveResult : Obligations.ProductCountMoveResult := by
  unfold Obligations.ProductCountMoveResult
  refine ⟨fun s c e f i v hi h => ?product, fun s c e f hd => ⟨fun p hp h ha => exec_countWord hp h ha hd, fun h => exec_movhi h hd,
    fun h hr hs => exec_sel h hr hd hs, fun h => exec_lpr h hd, fun h => exec_gget h hd⟩⟩
  obtain ⟨p, hp, rfl, rfl, hr⟩ | ⟨p, hp, rfl, rfl, hr⟩ := hi
  · obtain ⟨hform, hplan⟩ := productWords_plan hp (f := f)
    exact exec_product_word h hform (congrFun hplan _) (by rw [lateReg_ready hr (by simp), lateReg_ready hr (by simp)]; rfl)
      (pending_of_regsReady hr (by simp))
  · obtain ⟨hform, hplan⟩ := productImmWords_plan hp (f := f)
    exact exec_product_word h hform (congrFun hplan _) (lateReg_ready hr (by simp)) (pending_of_regsReady hr (by simp))

/-- Settles O11: each word's plan changes slot d alone, which no running stage range holds. -/
theorem compareAndPredicateResult : Obligations.CompareAndPredicateResult := by
  unfold Obligations.CompareAndPredicateResult
  exact ⟨fun s c e f hfree => ⟨fun p hp => exec_cmpWord hfree hp, fun p hp => exec_cmpImmWord hfree hp⟩,
    fun s c e f hfree => ⟨fun p hp => exec_slot2Word hfree hp, fun p hp => exec_slot1Word hfree hp, fun p hp => exec_slot0Word hfree hp,
      exec_pvoid hfree⟩⟩

end Sys2Proof.Proofs.ScalarWords
end

section
/-! PROOFS. What a scalar word leaves unchanged (R60, R61, R86): its core but for one register or one slot, and the rest of the package. -/

namespace Sys2Proof.Proofs.ScalarFrame

open Sys2Proof Sys2Proof.Machine Sys2Proof.Claims Sys2Proof.Proofs.Streams Sys2Proof.Proofs.ScalarWords

/-! ### One change of the scalar state -/

/-- A change of a core that leaves everything but its scalar registers and predicate slots. -/
def OnlyScal (g : Core → Core) : Prop := ∀ x, g x = { x with scal := (g x).scal }

theorem onlyScal_writeReg (e : Engine) (d : RegCode) (v : W64) : OnlyScal (writeReg e d v) := writeReg_eq e d v

theorem onlyScal_writeSlot (hnd : Bool) (i : Nat) (b : Bool) : OnlyScal (writeSlot hnd i b) := by
  intro x
  cases hnd <;> rfl

theorem onlyScal_voidSlot (hnd : Bool) (i : Nat) : OnlyScal (voidSlot hnd i) := by
  intro x
  cases hnd <;> rfl

/-- What a word leaves outside the scalar state of its core when that state is all that it changes. -/
theorem coreNext_outside_scal {s : State} {c : CoreId} {e : Engine} {g : Core → Core} (hg : OnlyScal g) :
    let t := coreNext s c e g
    ScalarsOnly (s.core c) (t.core c) ∧ OtherStreams e (s.core c) (t.core c) ∧ OthersSame c s t ∧ ClustersKept c.cluster s t ∧
      PackageSame s t := by
  obtain ⟨hothers, hclusters, hpackage, hcore⟩ := coreNext_frame (s := s) (c := c) (e := e) g
  intro t
  rw [hcore, hg]
  exact ⟨scalarsOnly_movedOn s c e 0 none _, other_movedOn s c e 0 none _, hothers, hclusters, hpackage⟩

/-! ### Registers -/

/-- A write of a register leaves the other registers of its bank, and every register of the other banks. -/
theorem regsExcept_writeReg (e : Engine) (d : RegCode) (v : W64) (x : Core) : RegsExcept e d x (writeReg e d v x) := by
  by_cases he : e = .ap
  · subst he
    rw [writeReg, if_pos rfl, writeA]
    by_cases hs : shadowed (inIntr x .ap) d.toNat = true
    · rw [if_pos hs]
      have h24 : 24 ≤ d.toNat % 32 := by
        simp only [shadowed, Bool.and_eq_true, decide_eq_true_eq] at hs
        exact hs.2
      refine ⟨fun j => .inr rfl, fun j => .inr rfl, fun j => .inr rfl, fun j => ?_, rfl, rfl, rfl, rfl⟩
      by_cases hj : j.val + 24 = d.toNat % 32
      · exact .inl ⟨rfl, hs, hj⟩
      · exact .inr ((vset_get _ _ _ j).trans (if_neg (by omega)))
    · rw [if_neg hs]
      refine ⟨fun j => .inr rfl, fun j => .inr rfl, fun j => ?_, fun j => .inr rfl, rfl, rfl, rfl, rfl⟩
      by_cases hj : j.val = d.toNat % 32
      · exact .inl ⟨rfl, eq_false_of_ne_true hs, hj⟩
      · exact .inr ((vset_get _ _ _ j).trans (if_neg hj))
  · rw [writeReg, if_neg he, writeS]
    split
    · exact ⟨fun j => .inr rfl, fun j => .inr rfl, fun j => .inr rfl, fun j => .inr rfl, rfl, rfl, rfl, rfl⟩
    · cases ht : inTrap x e
      · refine ⟨fun j => ?_, fun j => .inr rfl, fun j => .inr rfl, fun j => .inr rfl, rfl, rfl, rfl, rfl⟩
        by_cases hj : j.val = d.toNat % 32
        · exact .inl ⟨he, ht, hj⟩
        · exact .inr ((vset_get _ _ _ j).trans (if_neg hj))
      · refine ⟨fun j => .inr rfl, fun j => ?_, fun j => .inr rfl, fun j => .inr rfl, rfl, rfl, rfl, rfl⟩
        by_cases hj : j.val = d.toNat % 32
        · exact .inl ⟨he, ht, hj⟩
        · exact .inr ((vset_get _ _ _ j).trans (if_neg hj))

/-- A register is the same in a core that moves past its word, and the state that selects its bank. -/
theorem regsExcept_of_regsSame {e : Engine} {d : RegCode} {x y z : Core} (hregs : RegsSame x y) (ht : inTrap y e = inTrap x e)
    (hi : inIntr y e = inIntr x e) (h : RegsExcept e d y z) : RegsExcept e d x z := by
  obtain ⟨hs, hhs, ha, hsh, hpS, hpH, hpA, hpX⟩ := hregs
  unfold RegsExcept at h ⊢
  rwa [ht, hi, hs, hhs, ha, hsh, hpS, hpH, hpA, hpX] at h

theorem slotsSame_writeReg (e : Engine) (d : RegCode) (v : W64) (x : Core) : SlotsSame x (writeReg e d v x) := by
  unfold writeReg writeA writeS
  repeat' split
  all_goals exact ⟨rfl, rfl, rfl, rfl⟩

/-! ### Slots -/

/-- A bit set or cleared leaves the other bits, even where it lies beyond the end of the word. -/
theorem putBit_other {w i j : Nat} (y : BitVec w) (b : Bool) (h : j ≠ i) : (putBit y i b).getLsbD j = y.getLsbD j := by
  have hbit : (BitVec.ofNat w 1 <<< i).getLsbD j = false := by
    rw [BitVec.getLsbD_shiftLeft, BitVec.getLsbD_ofNat]
    by_cases hlt : j < i
    · simp [hlt]
    · have hone : Nat.testBit 1 (j - i) = false :=
        eq_false_of_ne_true fun ht => absurd (Nat.testBit_one_eq_true_iff_self_eq_zero.mp ht) (by omega)
      simp [hone]
  cases b
  · rw [putBit, if_neg (by decide), BitVec.getLsbD_and, BitVec.getLsbD_not, hbit]
    by_cases hj : j < w
    · simp [hj]
    · simp [BitVec.getLsbD_of_ge y j (not_lt.mp hj)]
  · rw [putBit, if_pos rfl, BitVec.getLsbD_or, hbit, Bool.or_false]

theorem slotsExcept_writeSlot (hnd : Bool) (i : Nat) (b : Bool) (x : Core) : SlotsExcept hnd i x (writeSlot hnd i b x) := by
  have hset (v w : BitVec 15) (j : Fin 15) :
      j.val = i ∨ ((putBit v i b).getLsbD j = v.getLsbD j ∧ (putBit w i true).getLsbD j = w.getLsbD j) :=
    or_iff_not_imp_left.mpr fun h => ⟨putBit_other v b h, putBit_other w true h⟩
  cases hnd
  · exact ⟨fun j => (hset _ _ j).imp_left fun h => ⟨rfl, h⟩, fun j => .inr ⟨rfl, rfl⟩⟩
  · exact ⟨fun j => .inr ⟨rfl, rfl⟩, fun j => (hset _ _ j).imp_left fun h => ⟨rfl, h⟩⟩

theorem slotsExcept_voidSlot (hnd : Bool) (i : Nat) (x : Core) : SlotsExcept hnd i x (voidSlot hnd i x) := by
  have hclear (v w : BitVec 15) (j : Fin 15) :
      j.val = i ∨ (v.getLsbD j = v.getLsbD j ∧ (putBit w i false).getLsbD j = w.getLsbD j) :=
    or_iff_not_imp_left.mpr fun h => ⟨rfl, putBit_other w false h⟩
  cases hnd
  · exact ⟨fun j => (hclear _ _ j).imp_left fun h => ⟨rfl, h⟩, fun j => .inr ⟨rfl, rfl⟩⟩
  · exact ⟨fun j => .inr ⟨rfl, rfl⟩, fun j => (hclear _ _ j).imp_left fun h => ⟨rfl, h⟩⟩

theorem regsSame_writeSlot (hnd : Bool) (i : Nat) (b : Bool) (x : Core) : RegsSame x (writeSlot hnd i b x) := by
  cases hnd <;> exact ⟨rfl, rfl, rfl, rfl, rfl, rfl, rfl, rfl⟩

theorem regsSame_voidSlot (hnd : Bool) (i : Nat) (x : Core) : RegsSame x (voidSlot hnd i x) := by
  cases hnd <;> exact ⟨rfl, rfl, rfl, rfl, rfl, rfl, rfl, rfl⟩

theorem regsSame_trans {x y z : Core} (h : RegsSame x y) (h' : RegsSame y z) : RegsSame x z := by
  obtain ⟨a, b, c, d, e, f, g, i⟩ := h
  obtain ⟨a', b', c', d', e', f', g', i'⟩ := h'
  exact ⟨a'.trans a, b'.trans b, c'.trans c, d'.trans d, e'.trans e, f'.trans f, g'.trans g, i'.trans i⟩

theorem slotsSame_trans {x y z : Core} (h : SlotsSame x y) (h' : SlotsSame y z) : SlotsSame x z := by
  obtain ⟨a, b, c, d⟩ := h
  obtain ⟨a', b', c', d'⟩ := h'
  exact ⟨a'.trans a, b'.trans b, c'.trans c, d'.trans d⟩

theorem slotsExcept_of_slotsSame {hnd : Bool} {i : Nat} {x y z : Core} (h : SlotsSame x y) (h' : SlotsExcept hnd i y z) :
    SlotsExcept hnd i x z := by
  obtain ⟨hpv, hpw, hhv, hhw⟩ := h
  unfold SlotsExcept at h' ⊢
  rwa [hpv, hpw, hhv, hhw] at h'

/-! ### The frames -/

section Frames

variable {s : State} {c : CoreId} {e : Engine}

theorem slotsSame_movedOn (h : endsNoLoop s c e = true) : SlotsSame (s.core c) (movedOn s c e 0 none (s.core c)) :=
  slotsSame_of_scal (movedOn_scal s c e 0 h)

/-- The frame of a word that writes register d. -/
theorem writeReg_frame (d : RegCode) (v : W64) :
    let t := coreNext s c e (writeReg e d v)
    RegsExcept e d (s.core c) (t.core c) ∧ (endsNoLoop s c e = true → SlotsSame (s.core c) (t.core c)) := by
  obtain ⟨hregs, -, -, hhandler, hui⟩ := regsSame_movedOn s c e 0 none (s.core c)
  obtain ⟨-, -, -, hcore⟩ := coreNext_frame (s := s) (c := c) (e := e) (writeReg e d v)
  intro t
  rw [hcore]
  refine ⟨regsExcept_of_regsSame hregs ?_ ?_ (regsExcept_writeReg e d v _),
    fun h => slotsSame_trans (slotsSame_movedOn h) (slotsSame_writeReg e d v _)⟩
  · rw [inTrap, hhandler, inTrap]
  · rw [inIntr, hui, inIntr]

/-- The frame of a word that changes slot `i` of one bank. -/
theorem slot_frame {hnd : Bool} {i : Nat} {g : Core → Core} (hregs : ∀ x, RegsSame x (g x)) (hslots : ∀ x, SlotsExcept hnd i x (g x)) :
    let t := coreNext s c e g
    RegsSame (s.core c) (t.core c) ∧ (endsNoLoop s c e = true → SlotsExcept hnd i (s.core c) (t.core c)) := by
  obtain ⟨-, -, -, hcore⟩ := coreNext_frame (s := s) (c := c) (e := e) g
  intro t
  rw [hcore]
  exact ⟨regsSame_trans (regsSame_movedOn s c e 0 none _).1 (hregs _),
    fun h => slotsExcept_of_slotsSame (slotsSame_movedOn h) (hslots _)⟩

end Frames

/-- Settles O13: a word of the first list writes d, one of the second changes slot d, and neither does anything else. -/
theorem scalarWordFrame : Obligations.ScalarWordFrame := by
  unfold Obligations.ScalarWordFrame
  refine ⟨fun w hw s c e f h hr hs => ?reg, fun w hw s c e f h hr hs hfree => ?slot⟩
  case reg =>
    obtain ⟨v, hexec⟩ := exec_regWord hw h hr hs
    obtain ⟨hregs, hslots⟩ := writeReg_frame (s := s) (c := c) (e := e) f.d v
    exact ⟨_, hexec, hregs, hslots, coreNext_outside_scal (onlyScal_writeReg e f.d v)⟩
  case slot =>
    obtain ⟨b, hexec⟩ | hexec := exec_slotWord hfree hw h hr hs
    · obtain ⟨hregs, hslots⟩ := slot_frame (s := s) (c := c) (e := e)
        (regsSame_writeSlot (inTrap (s.core c) e) (slotNo f.d) b) (slotsExcept_writeSlot _ _ b)
      exact ⟨_, hexec, hregs, hslots, coreNext_outside_scal (onlyScal_writeSlot _ _ b)⟩
    · obtain ⟨hregs, hslots⟩ := slot_frame (s := s) (c := c) (e := e)
        (regsSame_voidSlot (inTrap (s.core c) e) (slotNo f.d)) (slotsExcept_voidSlot _ _)
      exact ⟨_, hexec, hregs, hslots, coreNext_outside_scal (onlyScal_voidSlot _ _)⟩

end Sys2Proof.Proofs.ScalarFrame
end

section
/-! PROOFS. `gate`, `idle`, `lpw` and `gset` (R97, R103, R110, R153). -/

namespace Sys2Proof.Proofs.StreamWords

open Sys2Proof Sys2Proof.Machine Sys2Proof.Claims Sys2Proof.Proofs.ScalarWords

section Words

variable {s : State} {c : CoreId} {e : Engine} {f : Fld}

theorem exec_gate (h : issues s c e (.gate f) = true) (hs : slotsReady s c e [f.a] = true) :
    exec (.gate f) s = .next (coreNext s c e fun x => x) := by
  have hplan : planOf (.gate f) (ctxOf s c e (.gate f)) = { idle := 0 } := by
    change planGate f _ = _
    rw [planGate, lateSlot_ready hs (by simp)]
  exact exec_moves h rfl hplan

theorem exec_idle (h : issues s c e (.idle f) = true) :
    exec (.idle f) s = .next (endWord s c e (s.modCore c (movedOn s c e f.imm.toNat none))) := exec_moves h rfl rfl

theorem exec_lpw (h : issues s c e (.lpw f) = true) (hr : regsReady s c e [f.a] = true) :
    exec (.lpw f) s = .next (coreNext s c e fun x => x.modStream e fun t => putLevel t (immBits f 4 2)
      (setLoopReg (immBits f 0 3) (readReg (s.core c) e f.a) (levelOf t (immBits f 4 2)))) :=
  exec_plain h rfl rfl (lateReg_ready hr (by simp)) fun _ => ⟨rfl, rfl, rfl⟩

theorem exec_gset (h : issues s c e (.gset f) = true) (hr : regsReady s c e [f.a] = true) :
    exec (.gset f) s = .next (coreNext s c e fun x => { x with ap := { x.ap with
      geo := vset x.ap.geo (immBits f 0 3) (readReg (s.core c) e f.a) } }) :=
  exec_plain h rfl rfl (lateReg_ready hr (by simp)) fun _ => ⟨rfl, rfl, rfl⟩

end Words

/-- Settles O14: `gate` and `idle` move their stream alone, the other two change their core. -/
theorem streamWordResult : Obligations.StreamWordResult := by
  unfold Obligations.StreamWordResult
  exact fun s c e f => ⟨exec_gate, exec_idle, exec_lpw, exec_gset⟩

end Sys2Proof.Proofs.StreamWords
end

section
/-! PROOFS. Loads of an AP (R88, R145, R146, R150, R315, R316): the parts of a translated range, the bytes of the store queue, and a byte
that comes from the face. -/

namespace Sys2Proof.Proofs.Loads

open Sys2Proof Sys2Proof.Machine Sys2Proof.Claims Sys2Proof.Proofs.Csr Sys2Proof.Proofs.ScalarWords

/-! ### The parts of a range (R145, R146, R190) -/

/-- The virtual addresses of the bytes of a run. -/
def runVas (va n : Nat) : List Nat := (List.range n).map (va + ·)

theorem runVas_append (va m n : Nat) : runVas va (m + n) = runVas va m ++ runVas (va + m) n := by
  rw [runVas, List.range_add, List.map_append, List.map_map]
  exact congrArg (runVas va m ++ ·) (List.map_congr_left fun i _ => (Nat.add_assoc va m i).symm)

/-- The virtual addresses of the bytes of translated parts, in their order. -/
def pieceVas (ps : List Piece) : List Nat := ps.flatMap fun p => runVas p.va p.len

theorem translate_run {s t : State} {c : CoreId} {va n : Nat} {acc : Access} {p : Piece} (h : Machine.translate s c va n acc = .ok (p, t)) :
    p.va = va ∧ p.len = n := by
  unfold Machine.translate at h
  dsimp only at h
  split at h
  · cases h
  · split at h
    · split at h
      · cases h
      · cases h; exact ⟨rfl, rfl⟩
    · split at h
      · cases h
      · split at h
        · cases h
        · cases h; exact ⟨rfl, rfl⟩

theorem translateParts_vas {c : CoreId} {acc : Access} {l : List (Nat × Nat)} {s t : State} {ps : List Piece}
    (h : translateParts c acc l s = .ok (ps, t)) : pieceVas ps = l.flatMap fun x => runVas x.1 x.2 := by
  induction l generalizing s ps with
  | nil => cases h; rfl
  | cons a r ih =>
    obtain ⟨va, n⟩ := a
    simp only [translateParts] at h
    split at h
    · cases h
    · next p u hp =>
      split at h
      · cases h
      · next ps' v hps =>
        cases h
        obtain ⟨hva, hlen⟩ := translate_run hp
        simp only [pieceVas, List.flatMap_cons, hva, hlen]
        exact congrArg (runVas va n ++ ·) (ih hps)

/-- Cut at page ends, with a part for every page that the range meets, a range keeps its bytes. -/
theorem splitPages_vas {fuel va n : Nat} (h : n = 0 ∨ va % 0x10000 + n ≤ fuel * 0x10000) :
    (splitPages fuel va n).flatMap (fun x => runVas x.1 x.2) = runVas va n := by
  induction fuel generalizing va n with
  | zero =>
    obtain rfl : n = 0 := by omega
    rfl
  | succ fuel ih =>
    rw [splitPages]
    split
    · next h0 => rw [h0]; rfl
    · rw [List.flatMap_cons]
      rcases le_total n (0x10000 - va % 0x10000) with hlast | hmore
      · rw [min_eq_left hlast, ih (.inl (Nat.sub_self n)), ← runVas_append, Nat.sub_self, Nat.add_zero]
      · rw [min_eq_right hmore, ih (.inr (by omega)), ← runVas_append, Nat.add_sub_cancel' hmore]

theorem translateRange_vas {s t : State} {c : CoreId} {va n : Nat} {acc : Access} {ps : List Piece} (hva : va < 2 ^ 64)
    (h : translateRange s c va n acc = .ok (ps, t)) : pieceVas ps = runVas va n := by
  rw [translateParts_vas h, Nat.mod_eq_of_lt hva]
  exact splitPages_vas (.inr (by omega))

/-- An access that is not aligned has the same bytes, one by one. -/
theorem pieceVas_byteParts (ps : List Piece) : pieceVas (byteParts ps) = pieceVas ps := by
  have hbytes (p : Piece) : ((List.range p.len).flatMap fun i => runVas (p.va + i) 1) = runVas p.va p.len :=
    List.flatMap_pure_eq_map (p.va + ·) (List.range p.len)
  simp only [pieceVas, byteParts, List.flatMap_assoc, List.flatMap_map, hbytes]

/-! ### Bytes of the AP's own stores (R150, R315) -/

section Forward

variable {s : State} {c : CoreId}

theorem all_isSome_map {α : Type} {l : List Nat} {g : Nat → Option α} (h : ∀ a ∈ l, (g a).isSome = true) :
    (l.map g).all Option.isSome = true := by
  rw [List.all_map]
  exact List.all_eq_true.mpr h

/-- A byte of the store queue of an AP. -/
def queuedByte (s : State) (c : CoreId) (va : Nat) : Option Byte := forwardByte va (s.core c).ap.storeQ none

theorem loadPart_queued {p : Piece} (h : ∀ va ∈ runVas p.va p.len, (queuedByte s c va).isSome = true) :
    loadPart c p s = .ok ((runVas p.va p.len).map (queuedByte s c), s) := by
  have hfwd : ((List.range p.len).map fun i => forwardByte (p.va + i) (s.core c).ap.storeQ none) =
      (runVas p.va p.len).map (queuedByte s c) := by
    rw [runVas, List.map_map]
    rfl
  simp only [loadPart, hfwd, all_isSome_map h, if_true]

theorem loadParts_queued {ps : List Piece} (h : ∀ va ∈ pieceVas ps, (queuedByte s c va).isSome = true) :
    loadParts c ps s = .ok ((pieceVas ps).map (queuedByte s c), s) := by
  induction ps with
  | nil => rfl
  | cons p r ih =>
    have hp : ∀ va ∈ runVas p.va p.len, (queuedByte s c va).isSome = true := fun va hva =>
      h va (List.mem_flatMap.mpr ⟨p, List.mem_cons_self .., hva⟩)
    have hr : ∀ va ∈ pieceVas r, (queuedByte s c va).isSome = true := fun va hva =>
      h va (List.mem_append_right (runVas p.va p.len) hva)
    simp only [loadParts, loadPart_queued hp, ih hr]
    rw [← List.map_append]
    rfl

/-- The bytes that `loadGot` brings from the parts of a translated range. -/
theorem loadGot_translated {t u : State} {va n : Nat} {ps : List Piece} {got : List (Option Byte)} (hhost : (s.core c).ap.host = none)
    (htr : translates s c va n .read ps t)
    (hgot : loadParts c (if decide (n ≤ 8) && decide (va % n ≠ 0) then byteParts ps else ps) t = .ok (got, u))
    (hall : got.all Option.isSome = true) : loadGot c va n s = .bytes (got.map fun b => b.getD 0) u := by
  unfold translates at htr
  simp only [loadGot, hhost, htr, hgot, hall, if_true]

theorem loadGot_queued {t : State} {va n : Nat} {ps : List Piece} (hhost : (s.core c).ap.host = none) (hva : va < 2 ^ 64)
    (htr : translates s c va n .read ps t) (h : ∀ i < n, (queuedByte t c (va + i)).isSome = true) :
    loadGot c va n s = .bytes ((List.range n).map fun i => (queuedByte t c (va + i)).getD 0) t := by
  have hvas : pieceVas (if decide (n ≤ 8) && decide (va % n ≠ 0) then byteParts ps else ps) = runVas va n := by
    rw [← translateRange_vas hva htr]
    split
    · exact pieceVas_byteParts ps
    · rfl
  have hq : ∀ v ∈ runVas va n, (queuedByte t c v).isSome = true := by
    intro v hv
    obtain ⟨i, hi, rfl⟩ := List.mem_map.mp hv
    exact h i (List.mem_range.mp hi)
  have hgot := loadParts_queued (hvas ▸ hq)
  rw [hvas] at hgot
  rw [loadGot_translated hhost htr hgot (all_isSome_map hq), runVas, List.map_map, List.map_map]
  rfl

end Forward

/-! ### A byte from the face (R181, R315) -/

section Face

variable {s : State} {f : Fin 4} {v : World} {line : Nat}

theorem onlyMemory_l2Fill : OnlyMemory s (l2Fill s f v line).2.2 := onlyMemory_if _ (.refl s) rfl

/-- A read of a face's line changes nothing but the faces and memory. -/
theorem onlyMemory_l2Read : OnlyMemory s (l2Read s f v line).2.2 := by
  unfold l2Read
  split
  · split
    · exact .refl s
    · exact (onlyMemory_evictLine s f line).trans onlyMemory_l2Fill
  · exact onlyMemory_l2Fill

/-- Poison shows in the clean copy of a line as it does at the HBM controller. -/
theorem copyBad_cleanCopy (r : Row) : copyBad (cleanCopy s v line r) = hbmBad s line := by
  have hmask : ~~~wholeMask 0 = BitVec.allOnes 2 := by decide
  simp only [copyBad, cleanCopy, hmask, BitVec.and_allOnes]

/-- A byte of HBM lies neither in the register region nor in the host window (R179). -/
theorem outside_of_inHbm {pa : Nat} (h : inHbm pa 1 = true) : inRegs pa = false ∧ inHost pa = false := by
  simp only [inHbm, inRegs, inHost, decide_eq_true_eq, Bool.and_eq_false_iff, decide_eq_false_iff_not] at h ⊢
  omega

/-- The part of `engineByte` that speaks of a byte of HBM. -/
theorem seesByte_hbm {pa : Nat} (hin : inHbm pa 1 = true) {b : Byte} : seesByte s f v pa = some b ↔
    (lineForEngine s f v (pa / 128)).2.1 = false ∧ (lineForEngine s f v (pa / 128)).2.2.getLsbD (pa / 64 % 2) = false ∧
      rowByte (lineForEngine s f v (pa / 128)).1 (pa % 128) = b := by
  obtain ⟨-, hhost⟩ := outside_of_inHbm hin
  simp only [seesByte, engineByte, hhost, hin, Bool.false_eq_true, if_false, if_true]
  cases (lineForEngine s f v (pa / 128)).2.1 <;> cases (lineForEngine s f v (pa / 128)).2.2.getLsbD (pa / 64 % 2) <;> simp

/-- A line filled from the HBM controller: its bytes, and its poison as the face then shows it. -/
theorem l2Fill_sound (hok : s.memOk) {pa : Nat} (hbad : (hbmLineFor s v (pa / 128)).2 = false) :
    (l2Fill s f v (pa / 128)).1 = (hbmLineFor s v (pa / 128)).1 ∧ (l2Fill s f v (pa / 128)).2.1 = false ∧
      poisonSeen (l2Fill s f v (pa / 128)).2.2 f pa = (hbmBad s (pa / 128)).getLsbD (pa / 64 % 2) := by
  simp only [l2Fill, hbad, Bool.false_eq_true, if_false, poisonSeen, l2Get_l2Put_same _ _ _ _ (hok.2 f), copyBad_cleanCopy, and_self]

/-- A byte of HBM that an untimed engine of a face reads is what a load through the face's line finds, sound. -/
theorem l2Read_sees (hok : s.memOk) {pa : Nat} (hin : inHbm pa 1 = true) {b : Byte} (h : seesByte s f v pa = some b) :
    (l2Read s f v (pa / 128)).2.1 = false ∧ poisonSeen (l2Read s f v (pa / 128)).2.2 f pa = false ∧
      rowByte (l2Read s f v (pa / 128)).1 (pa % 128) = b := by
  obtain ⟨hbad, hpoison, hbyte⟩ := (seesByte_hbm hin).mp h
  have hfill (u : State) (hu : u.memOk) (hbad : (hbmLineFor u v (pa / 128)).2 = false)
      (hpoison : (hbmBad u (pa / 128)).getLsbD (pa / 64 % 2) = false) (hbyte : rowByte (hbmLineFor u v (pa / 128)).1 (pa % 128) = b) :
      (l2Fill u f v (pa / 128)).2.1 = false ∧ poisonSeen (l2Fill u f v (pa / 128)).2.2 f pa = false ∧
        rowByte (l2Fill u f v (pa / 128)).1 (pa % 128) = b := by
    obtain ⟨hrow, hsound, hseen⟩ := l2Fill_sound (f := f) hu hbad
    exact ⟨hsound, hseen.trans hpoison, hrow ▸ hbyte⟩
  unfold lineForEngine at hbad hpoison hbyte
  cases hget : l2Get s f (pa / 128) with
  | none =>
    rw [hget] at hbad hpoison hbyte
    simp only [l2Read, hget]
    exact hfill s hok hbad hpoison hbyte
  | some x =>
    rw [hget] at hbad hpoison hbyte
    by_cases hkey : x.key = keyNum s v
    · simp only [if_pos hkey] at hpoison hbyte
      simp only [l2Read, hget, if_pos hkey, poisonSeen]
      exact ⟨trivial, hpoison, hbyte⟩
    · simp only [if_neg hkey] at hbad hpoison hbyte
      simp only [l2Read, hget, if_neg hkey]
      exact hfill _ (memOk_evictLine s f _ hok) hbad hpoison hbyte

end Face

section Byte

variable {s : State} {c : CoreId} {va pa : Nat} {b : Byte}

/-- A byte that no held line covers comes from the face (R315), and only the loading core changes. -/
theorem loadDevice_sees (hok : s.memOk) (hheld : heldLine (s.core c) va = none) (hin : inHbm pa 1 = true)
    (h : seesByte s c.face (s.core c).csr.world pa = some b) :
    ∃ u, loadDevice s c va pa = .ok (b, u) ∧ OthersSame c s u := by
  obtain ⟨hbad, hpoison, hbyte⟩ := l2Read_sees hok hin h
  simp only [loadDevice, hheld, hbad, hpoison, Bool.false_eq_true, if_false, hbyte]
  exact ⟨_, rfl, fun d hd => (State.core_modCore_other _ _ _ _ hd).trans (onlyMemory_l2Read.core d)⟩

theorem loadPart_sees (hok : s.memOk) {p : Piece} (hlen : p.len = 1) (hqueue : queuedByte s c p.va = none)
    (hheld : heldLine (s.core c) p.va = none) (hin : inHbm p.pa 1 = true)
    (h : seesByte s c.face (s.core c).csr.world p.pa = some b) :
    ∃ u, loadPart c p s = .ok ([some b], u) ∧ OthersSame c s u := by
  obtain ⟨u, hload, hothers⟩ := loadDevice_sees hok hheld hin h
  obtain ⟨hregs, hhost⟩ := outside_of_inHbm hin
  have hfwd : ((List.range p.len).map fun i => forwardByte (p.va + i) (s.core c).ap.storeQ none) = [none] := by
    rw [hlen]
    exact congrArg ([·]) hqueue
  refine ⟨u, ?_, hothers⟩
  simp only [loadPart, hfwd, hregs, hhost, List.all_cons, Option.isSome_none, Bool.false_and, Bool.false_eq_true, if_false, loadBytes,
    hload]

end Byte

/-! ### Load words (R146) -/

theorem loadWords_plan {p : (Fld → Instr) × Nat × Bool} (hp : p ∈ loadWords) (f : Fld) : planOf (p.1 f) = planLd p.2.1 p.2.2 f := by
  simp only [loadWords, List.mem_cons, List.not_mem_nil, or_false] at hp
  obtain rfl | rfl | rfl | rfl | rfl | rfl | rfl := hp <;> rfl

/-- The two's complement reading of the low bits of a number. -/
theorem sintN_eq_toInt (n m : Nat) : sintN n m = (BitVec.ofNat n m).toInt := by
  rw [sintN, BitVec.toInt_eq_toNat_cond, BitVec.toNat_ofNat]
  have hsplit : n = 0 ∨ 2 ^ n = 2 * 2 ^ (n - 1) := by
    cases n with
    | zero => exact .inl rfl
    | succ k => exact .inr (by rw [Nat.pow_succ, Nat.succ_sub_one]; omega)
  obtain rfl | hpow := hsplit
  · simp [Nat.mod_one]
  · generalize m % 2 ^ n = y
    by_cases h : 2 ^ (n - 1) ≤ y
    · simp [h, show ¬2 * y < 2 ^ n by omega]
    · simp [h, show 2 * y < 2 ^ n by omega]

section Word

variable {s t : State} {c : CoreId} {e : Engine} {f : Fld} {l l' : List Byte} {t' : State}

/-- What a load of `n` bytes does with them: d takes their value, zero- or sign-extended. -/
def loadInto (c : CoreId) (e : Engine) (d : RegCode) (n : Nat) (signed : Bool) (l : List Byte) (t : State) : State :=
  t.modCore c (writeReg e d (if signed then BitVec.ofInt 64 (sintN (8 * n) (natOfBytes l)) else BitVec.ofNat 64 (natOfBytes l)))

/-- A load that takes place: what it brings where its stream has moved on goes to d. -/
theorem exec_loadWord {p : (Fld → Instr) × Nat × Bool} (hp : p ∈ loadWords) (h : untimedGo s c e (p.1 f) = true)
    (hr : regsReady s c e [f.a, f.d] = true) (hnow : loadGot c (effAddr s c e f) p.2.1 s = .bytes l' t')
    (hmoved : loadGot c (effAddr s c e f) p.2.1 (movedState s c e) = .bytes l t) :
    exec (p.1 f) s = .next (flushRegs (t.modCore c (writeReg e f.d
      (if p.2.2 then (BitVec.ofNat (8 * p.2.1) (natOfBytes l)).signExtend 64 else BitVec.ofNat 64 (natOfBytes l))))) := by
  have hlates : lateReg (ctxOf s c e (p.1 f)) f.a ++ lateReg (ctxOf s c e (p.1 f)) f.d = [] := by
    rw [lateReg_ready hr (by simp), lateReg_ready hr (by simp)]
    rfl
  have hplan : planOf (p.1 f) (ctxOf s c e (p.1 f)) = planGot (ctxOf s c e (p.1 f))
      (lateReg (ctxOf s c e (p.1 f)) f.a ++ lateReg (ctxOf s c e (p.1 f)) f.d) (loadGot c (effAddr s c e f) p.2.1)
      (loadInto c e f.d p.2.1 p.2.2) := congrFun (loadWords_plan hp f) _
  obtain ⟨hl, hc, hft, hidle, hskip, hafter, hact⟩ := planGot_bytes (k := ctxOf s c e (p.1 f))
    (g := loadGot c (effAddr s c e f) p.2.1) (use := loadInto c e f.d p.2.1 p.2.2) hlates hnow
  rw [exec_untimed h _ hplan hl hc hft, hidle, hskip, hafter, id, ← movedState, hact _ _ _ hmoved, loadInto, sintN_eq_toInt]
  rfl

end Word

/-- Settles O17: the word by its plan, its bytes from the store queue or from the face. -/
theorem loadResult : Obligations.LoadResult := by
  unfold Obligations.LoadResult
  refine ⟨fun p hp s c e f l t h hr hnow hmoved => ?word, fun s t c va n ps hhost hva htr hq => loadGot_queued hhost hva htr hq,
    fun s t c va p hhost htr hpva hlen hqueue hin hheld hok b hsees => ?byte⟩
  case word =>
    obtain ⟨l', t', hnow⟩ := hnow
    exact exec_loadWord hp h hr hnow hmoved
  case byte =>
    subst hpva
    obtain ⟨u, hpart, hothers⟩ := loadPart_sees hok hlen hqueue hheld hin hsees
    have hparts : loadParts c [p] t = .ok ([some b], u) := by
      simp only [loadParts, hpart, List.append_nil]
    exact ⟨u, loadGot_translated (got := [some b]) hhost htr (by simpa [Nat.mod_one] using hparts) rfl, hothers⟩

end Sys2Proof.Proofs.Loads
end

section
/-! PROOFS. Words that the manual prints (R56, R76, R92, R172, R378). -/

namespace Sys2Proof.Proofs.Samples

open Sys2Proof Sys2Proof.Machine

/-- Settles O4, by decoding each word. -/
theorem sampleWordsDecode : Obligations.SampleWordsDecode := by
  unfold Obligations.SampleWordsDecode
  refine ⟨?addI, ?zero, ?drop, ?emit⟩ <;> decide +kernel

end Sys2Proof.Proofs.Samples
end

section
/-! PROOFS. A kill (R135): what it discards, and what it leaves of the package. -/

namespace Sys2Proof.Proofs.Kill

open Sys2Proof Sys2Proof.Machine
open Sys2Proof.Proofs.Start (jobById_modJob)
open Sys2Proof.Proofs.Retire (onlyMemory_regq onlyMemory_jobs)
open Sys2Proof.Proofs.Complete (onlyMemory_releaseFace)

/-! ### The switch (R373, R389) -/

/-- Two states that differ in the cairn cores and their slots alone. -/
def OnlyCairn (s t : State) : Prop := t = { s with cairn := t.cairn }

theorem OnlyCairn.refl (s : State) : OnlyCairn s s := rfl

theorem OnlyCairn.trans {s t u : State} (h : OnlyCairn s t) (h' : OnlyCairn t u) : OnlyCairn s u := by
  unfold OnlyCairn at *; rw [h']; rw [h]

theorem onlyCairn_if {s a b : State} (p : Prop) [Decidable p] (ha : OnlyCairn s a) (hb : OnlyCairn s b) :
    OnlyCairn s (if p then a else b) := by
  split <;> assumption

theorem onlyCairn_foldl {β : Type} {f : State → β → State} (hf : ∀ s b, OnlyCairn s (f s b)) (l : List β) (s : State) :
    OnlyCairn s (l.foldl f s) := by
  induction l generalizing s with
  | nil => exact .refl s
  | cons b r ih => exact (hf s b).trans (ih _)

theorem onlyCairn_putSlotReg (s : State) (w : Fin 16 × Bool × W64) : OnlyCairn s (putSlotReg w s) :=
  onlyCairn_if _ (onlyCairn_if _ rfl rfl) (onlyCairn_if _ (onlyCairn_if _ rfl rfl) rfl)

theorem onlyCairn_settleSlots (s : State) : OnlyCairn s (settleSlots s) :=
  OnlyCairn.trans (t := { s with cairn := { s.cairn with writes := s.cairn.writes.filter fun w => slotBusy s w.1 } }) rfl
    (onlyCairn_foldl onlyCairn_putSlotReg _ _)

theorem onlyCairn_dropMatched (id : Nat) (s : State) : OnlyCairn s (dropMatched id s) :=
  OnlyCairn.trans (t := { s with cairn := { s.cairn with
    queue := s.cairn.queue.map fun q => q.filter fun m => decide (m.coll ≠ id)
    run := s.cairn.run.map fun r => r.map fun r => if r.m.coll = id then { r with m := { r.m with dead := true } } else r } }) rfl
    (onlyCairn_settleSlots _)

/-! ### A collective that leaves (R135, R357) -/

/-- Two states that differ in the fabric and the switch alone. -/
def OnlyFabric (s t : State) : Prop := t = { s with fabric := t.fabric, cairn := t.cairn }

section Fabric

variable {s t u : State}

theorem OnlyFabric.trans (h : OnlyFabric s t) (h' : OnlyFabric t u) : OnlyFabric s u := by
  unfold OnlyFabric at *; rw [h']; rw [h]

variable (h : OnlyFabric s t)
include h

theorem OnlyFabric.core (c : CoreId) : t.core c = s.core c := by rw [h]; rfl
theorem OnlyFabric.cluster (k : ClusterId) : t.cluster k = s.cluster k := by rw [h]; rfl
theorem OnlyFabric.mem : t.mem = s.mem := by rw [h]
theorem OnlyFabric.l2 : t.l2 = s.l2 := by rw [h]
theorem OnlyFabric.jobs : t.jobs = s.jobs := by rw [h]
theorem OnlyFabric.regq : t.regq = s.regq := by rw [h]

end Fabric

theorem onlyFabric_discardPartials (k : Coll) (gone : Option Nat) (s : State) :
    OnlyFabric s (discardPartials k gone s) ∧ (discardPartials k gone s).fabric.colls = s.fabric.colls := by
  have h := onlyCairn_dropMatched k.id s
  have ht : OnlyFabric s (dropMatched k.id s) := by unfold OnlyFabric; rw [h]
  exact ⟨ht.trans rfl, (congrArg (·.fabric.colls) h :)⟩

/-- A collective that leaves is gone, and nothing comes in its place. -/
theorem leaveColl_only (detail : Nat) (k : Coll) (s : State) :
    OnlyFabric s (leaveColl detail k s) ∧ (leaveColl detail k s).fabric.colls = s.fabric.colls.filter fun y => decide (y.id ≠ k.id) := by
  obtain ⟨honly, hcolls⟩ := onlyFabric_discardPartials k none s
  unfold leaveColl
  dsimp only
  split
  · exact ⟨honly.trans rfl, by rw [← hcolls]; rfl⟩
  · exact ⟨rfl, rfl⟩

theorem leaveColls_only (detail : Nat) (l : List Coll) (s : State) :
    OnlyFabric s (l.foldl (fun s k => leaveColl detail k s) s) ∧
      ∀ y ∈ (l.foldl (fun s k => leaveColl detail k s) s).fabric.colls, y ∈ s.fabric.colls ∧ ∀ k ∈ l, y.id ≠ k.id := by
  induction l generalizing s with
  | nil => exact ⟨rfl, fun y hy => ⟨hy, fun k hk => absurd hk List.not_mem_nil⟩⟩
  | cons k r ih =>
    obtain ⟨honly, hcolls⟩ := leaveColl_only detail k s
    obtain ⟨hrest, hgone⟩ := ih (leaveColl detail k s)
    refine ⟨honly.trans hrest, fun y hy => ?_⟩
    obtain ⟨hy, hr⟩ := hgone y hy
    rw [hcolls] at hy
    obtain ⟨hy, hk⟩ := List.mem_filter.mp hy
    exact ⟨hy, List.forall_mem_cons.mpr ⟨of_decide_eq_true hk, hr⟩⟩

/-! ### A team stopped (R135, R336) -/

/-- A core that has lost its job has none to lose. -/
@[simp] theorem dropJob_dropJob (x : Core) : dropJob (dropJob x) = dropJob x := by
  simp only [dropJob, BitVec.and_assoc, BitVec.and_self]

@[simp] theorem restartFreeze_restartFreeze (k : Cluster) : restartFreeze (restartFreeze k) = restartFreeze k := by
  simp [restartFreeze, Option.map_map, Function.comp_def]

/-- The cores of a list without their job, and the posted writes of their commands. -/
def dropTeam (l : List CoreId) (s : State) : State := l.foldl (fun s c => (dropWrites c s).modCore c dropJob) s

theorem dropTeam_only (l : List CoreId) (s : State) : dropTeam l s = { s with cores := (dropTeam l s).cores, tether := (dropTeam l s).tether } := by
  unfold dropTeam
  induction l generalizing s with
  | nil => rfl
  | cons c r ih => rw [List.foldl_cons, ih]; rfl

theorem dropTeam_core (l : List CoreId) (s : State) (c : CoreId) : (dropTeam l s).core c = if c ∈ l then dropJob (s.core c) else s.core c := by
  unfold dropTeam
  induction l generalizing s with
  | nil => rfl
  | cons d r ih =>
    rw [List.foldl_cons, ih]
    by_cases hcd : c = d
    · rw [hcd, State.core_modCore_same]
      simp [dropWrites, State.modSess, State.core]
    · rw [State.core_modCore_other _ _ _ _ hcd]
      simp [dropWrites, State.modSess, State.core, hcd]

/-- The dirty lines of a world in some faces written back. -/
def releaseFaces (l : List (Fin 4)) (w : World) (s : State) : State := l.foldl (fun s f => releaseFace f w s) s

theorem onlyMemory_releaseFaces (l : List (Fin 4)) (w : World) (s : State) : OnlyMemory s (releaseFaces l w s) :=
  onlyMemory_foldl _ _ s fun s f => onlyMemory_releaseFace f w s

/-- No dirty line of the world stands in a face. -/
def NoDirty (w : World) (s : State) : Prop := ∀ f line x, l2Get s f line = some x → x.world = w → x.dirty = 0

theorem releaseFace_noDirty {w : World} {s : State} (h : NoDirty w s) (f : Fin 4) : releaseFace f w s = s := by
  refine foldl_self _ s _ fun line _ => ?_
  cases hx : l2Get s f line with
  | none => rfl
  | some x =>
    dsimp only
    split
    · next hw => simp [writeBack, hx, h f line x hx hw]
    · rfl

theorem releaseFaces_noDirty {w : World} {s : State} (h : NoDirty w s) (l : List (Fin 4)) : releaseFaces l w s = s :=
  foldl_self l s _ fun f _ => releaseFace_noDirty h f

/-- Clusters whose freezes count afresh. -/
def restartAll (l : List ClusterId) (s : State) : State := l.foldl (fun s k => s.modCluster k restartFreeze) s

theorem restartAll_only (l : List ClusterId) (s : State) : restartAll l s = { s with clusters := (restartAll l s).clusters } := by
  unfold restartAll
  induction l generalizing s with
  | nil => rfl
  | cons k r ih => rw [List.foldl_cons, ih]; rfl

theorem restartAll_cluster (l : List ClusterId) (s : State) (k : ClusterId) :
    (restartAll l s).cluster k = if k ∈ l then restartFreeze (s.cluster k) else s.cluster k := by
  unfold restartAll
  induction l generalizing s with
  | nil => rfl
  | cons d r ih =>
    rw [List.foldl_cons, ih]
    by_cases hkd : k = d
    · simp [hkd]
    · simp [State.cluster_modCluster_other _ _ _ _ hkd, hkd]

/-- The clusters of a team in which a trap was pending, and is no more. -/
def releasedClusters (j : Job) (s t : State) : List ClusterId :=
  ((teamClusters j).filter fun k => trapPending s k).filter fun k => !trapPending t k

theorem stopTeam_eq (j : Job) (s : State) :
    let t := releaseFaces (j.team.map CoreId.face).eraseDups j.plane.world (dropTeam j.team s)
    stopTeam j s = restartAll (releasedClusters j s t) t := rfl

/-- What the stop of a job's team, if the job is resident, leaves. -/
structure Stopped (j : Job) (s t : State) : Prop where
  core : ∀ c, t.core c = if j.resident = true ∧ c ∈ j.team then dropJob (s.core c) else s.core c
  clk : ∀ k, (t.cluster k).clk = (s.cluster k).clk
  cluster : ∀ k, (∀ d ∈ j.team, d.cluster ≠ k) → t.cluster k = s.cluster k
  memory : NoDirty j.plane.world s → t.mem = s.mem ∧ t.l2 = s.l2
  jobs : t.jobs = s.jobs
  fabric : t.fabric = s.fabric
  regq : t.regq = s.regq

theorem stopTeam_stopped {j : Job} (s : State) (hres : j.resident = true) : Stopped j s (stopTeam j s) := by
  have hdrop := dropTeam_only j.team s
  have hrelease := onlyMemory_releaseFaces (j.team.map CoreId.face).eraseDups j.plane.world (dropTeam j.team s)
  rw [stopTeam_eq]
  generalize ht : releaseFaces (j.team.map CoreId.face).eraseDups j.plane.world (dropTeam j.team s) = t at hrelease
  generalize hl : releasedClusters j s t = l
  have hteam (k : ClusterId) (hk : k ∈ l) : ∃ d ∈ j.team, d.cluster = k := by
    rw [← hl] at hk
    have := (List.mem_filter.mp (List.mem_filter.mp hk).1).1
    rw [teamClusters, List.mem_eraseDups] at this
    simpa using this
  have hrestart := restartAll_only l t
  have hcluster (k : ClusterId) : t.cluster k = s.cluster k := by
    rw [State.cluster, State.cluster, hrelease.clusters, hdrop]
  have hother (k : ClusterId) : (restartAll l t).cluster k = if k ∈ l then restartFreeze (s.cluster k) else s.cluster k := by
    rw [restartAll_cluster, hcluster]
  refine ⟨fun c => ?_, fun k => ?_, fun k hk => ?_, fun hclean => ?_, ?_, ?_, ?_⟩
  · simp only [hres, true_and]
    rw [← dropTeam_core, ← hrelease.core, hrestart]
    rfl
  · rw [hother]
    split <;> rfl
  · rw [hother, if_neg fun hmem => ?_]
    obtain ⟨d, hd, hdk⟩ := hteam k hmem
    exact hk d hd hdk
  · have hsame : t = dropTeam j.team s := by
      rw [← ht]
      exact releaseFaces_noDirty (w := j.plane.world) (s := dropTeam j.team s)
        (by unfold NoDirty l2Get at *; rw [hdrop]; exact hclean) _
    rw [hrestart, hsame, hdrop]
    exact ⟨rfl, rfl⟩
  · rw [hrestart, onlyMemory_jobs (t := { t with clusters := _ }) hrelease, hdrop]
  · rw [hrestart]
    rw [hrelease, hdrop]
  · rw [hrestart, onlyMemory_regq (t := { t with clusters := _ }) hrelease, hdrop]

/-! ### The job killed (R135) -/

/-- A job that has been killed. -/
def killedJob (j : Job) : Job := { j with phase := .killed, saved := [] }

/-- What a kill leaves of a state in which the job is `j`. -/
structure Killed (j : Job) (s t : State) : Prop where
  core : ∀ c, t.core c = if j.resident = true ∧ c ∈ j.team then dropJob (s.core c) else s.core c
  clk : ∀ k, (t.cluster k).clk = (s.cluster k).clk
  cluster : ∀ k, (∀ d ∈ j.team, d.cluster ≠ k) → t.cluster k = s.cluster k
  memory : NoDirty j.plane.world s → t.mem = s.mem ∧ t.l2 = s.l2
  job : ∀ id, jobById t id = if id = j.id then some (killedJob j) else jobById s id
  colls : ∀ k ∈ t.fabric.colls, k ∈ s.fabric.colls ∧ k.job ≠ j.id
  regq : t.regq = s.regq

/-- A change of a job is not seen under another number. -/
theorem jobById_modJob_other {s : State} {id id' : Nat} {f : Job → Job} (hf : ∀ j, (f j).id = j.id) (h : id' ≠ id) :
    jobById (s.modJob id f) id' = jobById s id' := by
  unfold jobById State.modJob
  dsimp only
  generalize s.jobs = l
  induction l with
  | nil => rfl
  | cons x r ih =>
    by_cases hx : x.id = id
    · simp [hx, hf, h.symm, ih]
    · by_cases hx' : x.id = id'
      · simp [hx', h]
      · simp [hx, hx', ih]

theorem stopResident_stopped (j : Job) (s : State) : Stopped j s (if j.resident then stopTeam j s else s) := by
  split
  · next h => exact stopTeam_stopped s h
  · next h => exact ⟨fun c => by simp [h], fun _ => rfl, fun _ _ => rfl, fun _ => ⟨rfl, rfl⟩, rfl, rfl, rfl⟩

theorem killJob_killed {s : State} {j : Job} (hj : jobById s j.id = some j) : Killed j s (killJob j.id s) := by
  have hstop := stopResident_stopped j s
  have hkill : ∀ u, (if j.resident then stopTeam j s else s) = u → killJob j.id s =
      ((u.fabric.colls.filter fun k => decide (k.job = j.id)).foldl (fun s k => leaveColl 2 k s) u).modJob j.id killedJob := by
    rintro u rfl
    simp only [killJob, hj]
    rfl
  generalize (if j.resident then stopTeam j s else s) = u at hstop hkill
  obtain ⟨hcore, hclk, hcluster, hmemory, hjobs, hfabric, hregq⟩ := hstop
  obtain ⟨honly, hgone⟩ := leaveColls_only 2 (u.fabric.colls.filter fun k => decide (k.job = j.id)) u
  specialize hkill u rfl
  generalize (u.fabric.colls.filter fun k => decide (k.job = j.id)).foldl (fun s k => leaveColl 2 k s) u = v at *
  have hbefore (id : Nat) : jobById v id = jobById s id := by simp only [jobById, honly.jobs, hjobs]
  rw [hkill]
  refine ⟨fun c => (honly.core c).trans (hcore c), fun k => ?_, fun k hk => (honly.cluster k).trans (hcluster k hk), fun h => ?_,
    fun id => ?_, fun k hk => ?_, honly.regq.trans hregq⟩
  · rw [← hclk, ← honly.cluster]
    rfl
  · exact ⟨honly.mem.trans (hmemory h).1, honly.l2.trans (hmemory h).2⟩
  · split
    · next h =>
      rw [h, jobById_modJob (f := killedJob) (fun _ => rfl), hbefore, hj]
      rfl
    · next h => rw [jobById_modJob_other (f := killedJob) (fun _ => rfl) h, hbefore]
  · obtain ⟨hmem, hleft⟩ := hgone k hk
    rw [hfabric] at hmem hleft
    exact ⟨hmem, fun hjob => hleft k (List.mem_filter.mpr ⟨hmem, decide_eq_true hjob⟩) rfl⟩

end Sys2Proof.Proofs.Kill
end

section
/-! PROOFS. The slots of base camp (R399-R404): notifies, SLOTCFG, SLOTCTL and the lottery. -/

namespace Sys2Proof.Proofs.Slots

open Sys2Proof Sys2Proof.Machine
open Sys2Proof.Proofs.Acts (done_of_regq)
open Sys2Proof.Proofs.Device (length_bytesOfNat deviceBytes_congr onlyMemory_keys)
open Sys2Proof.Proofs.Registers (campSlot_modSlot_same not_unanswered)
open Sys2Proof.Proofs.Retire (onlyMemory_regq OnlyCores onlyCores_foldl)
open Sys2Proof.Proofs.Complete (onlyMemory_camp deviceBytes_devicePut)
open Sys2Proof.Proofs.Kill

theorem campSlot_modSlot_other {s : State} {i j : Fin 256} (h : j ≠ i) (f : Slot → Slot) : campSlot (s.modSlot i f) j = campSlot s j :=
  Vector.getElem_set_ne i.isLt j.isLt fun hv => h (Fin.ext hv.symm)

/-! ### Shadows of queues (R401, log 15) -/

theorem onlyMemory_putShadow (q : Option Nat) (x : W32) (s : State) : OnlyMemory s (putShadow q x s) := by
  cases q with
  | none => rfl
  | some q => exact onlyMemory_devicePut _ _ _ s

/-- What a unit of the package reads of a shadow that has been written. -/
theorem deviceBytes_putShadow {s : State} {q : Nat} (x : W32) (hin : inHbm q 4 = true) (hok : s.memOk) :
    deviceBytes (putShadow (some q) x s) 0 q 4 = bytesOfNat 4 x.toNat := by
  have h := deviceBytes_devicePut (v := 0) (a := q) (l := bytesOfNat 4 x.toNat) hok (by simp [bytesOfNat]) (.inl (by rwa [length_bytesOfNat]))
  rwa [length_bytesOfNat] at h

theorem onlyMemory_campSlot {s t : State} (h : OnlyMemory s t) (i : Fin 256) : campSlot t i = campSlot s i := by
  rw [campSlot, onlyMemory_camp h]; rfl

/-! ### NOTIFY (R401) -/

section Notify

variable {s : State} {v : Fin 128} {i : Fin 256} {x : W32} (hregq : s.regq = []) (hp : powered s = true)
include hp

theorem exec_notify : exec (.notify v i x) s = done (notifySlot v i x s) := by
  have hx : (x.setWidth 64).setWidth 32 = x := by
    rw [BitVec.setWidth_setWidth_of_le _ (by omega)]
    exact BitVec.setWidth_eq x
  have hw : regWrite (.notify v i) (x.setWidth 64) s = notifySlot v i ((x.setWidth 64).setWidth 32) s := if_neg (not_unanswered hp _)
  rw [hx] at hw
  exact congrArg done hw

include hregq

theorem notify_stranger (h : (campSlot s i).vf.toNat ≠ v.val) : exec (.notify v i x) s = .next s := by
  rw [exec_notify hp, notifySlot, if_pos h]
  exact done_of_regq hregq

variable (h : (campSlot s i).vf.toNat = v.val)
include h

theorem notify_mapped (hm : (campSlot s i).mapped = true) : exec (.notify v i x) s = .next (s.modSlot i fun y => { y with tail := x }) := by
  rw [exec_notify hp, notifySlot, if_neg (by simp [h]), if_pos hm]
  exact done_of_regq hregq

theorem notify_unmapped (hm : (campSlot s i).mapped = false) :
    exec (.notify v i x) s = .next (putShadow (campSlot s i).lastQ x s) := by
  rw [exec_notify hp, notifySlot, if_neg (by simp [h]), if_neg (by simp [hm])]
  exact done_of_regq ((onlyMemory_regq (onlyMemory_putShadow _ x s)).trans hregq)

end Notify

/-! ### SLOTCFG (R400, R401) -/

/-- The fields that a write of SLOTCFG sets. -/
def setSlotcfg (v : W64) (y : Slot) : Slot :=
  { y with
    mapped := v.getLsbD 63, priv := v.getLsbD 62, vf := v.extractLsb' 55 7, band := v.extractLsb' 53 2, tickets := v.extractLsb' 45 8
    qlog := if 4 ≤ bitsN v.toNat 40 5 ∧ bitsN v.toNat 40 5 ≤ 16 then BitVec.ofNat 5 (bitsN v.toNat 40 5) else y.qlog }

/-- The slot takes head and tail from its queue. -/
def takeQueue (s : State) (q : Nat) (y : Slot) : Slot :=
  { y with head := BitVec.ofNat 32 (campWord s (q + 8) 4), tail := BitVec.ofNat 32 (campWord s q 4), lastQ := some q }

/-- The slot remembers the queue that it held. -/
def leaveQueue (q : Nat) (y : Slot) : Slot := { y with lastQ := some q }

theorem campWord_modSlot (s : State) (i : Fin 256) (f : Slot → Slot) (a n : Nat) : campWord (s.modSlot i f) a n = campWord s a n :=
  congrArg natOfBytes (deviceBytes_congr (s := s) (t := s.modSlot i f) rfl rfl 0 a n)

section Slotcfg

variable {s : State} {i : Fin 256} {v : W64}

theorem modSlot_modSlot (f g : Slot → Slot) : (s.modSlot i f).modSlot i g = s.modSlot i fun y => g (f y) := by
  rw [State.modSlot, campSlot_modSlot_same]
  simp [State.modSlot, Vector.set_set]

/-- A write that leaves MAPPED as it is sets the other fields. -/
theorem writeSlotcfg_keeps (h : v.getLsbD 63 = (campSlot s i).mapped) : writeSlotcfg i v s = s.modSlot i (setSlotcfg v) := by
  unfold writeSlotcfg
  dsimp only
  rw [if_neg (by rw [h]; simp), if_neg (by rw [h]; simp)]
  rfl

theorem writeSlotcfg_maps (hv : v.getLsbD 63 = true) (h : (campSlot s i).mapped = false) :
    writeSlotcfg i v s = s.modSlot i fun y => takeQueue s (slotQueue (campSlot s i)) (setSlotcfg v y) := by
  unfold writeSlotcfg
  simp only [hv, h, Bool.not_false, Bool.and_true, if_true, modSlot_modSlot, campWord_modSlot]
  rw [← hv]
  rfl

theorem writeSlotcfg_unmaps (hv : v.getLsbD 63 = false) (h : (campSlot s i).mapped = true) :
    writeSlotcfg i v s = putShadow (some (slotQueue (campSlot s i))) (campSlot s i).tail
      (s.modSlot i fun y => leaveQueue (slotQueue (campSlot s i)) (setSlotcfg v y)) := by
  unfold writeSlotcfg
  simp only [hv, h, Bool.not_false, Bool.not_true, Bool.false_eq_true, Bool.and_self, if_true, if_false, modSlot_modSlot]
  rw [← hv]
  rfl

/-- The slot after a write of SLOTCFG (R401). -/
def slotAfter (s : State) (v : W64) (y : Slot) : Slot :=
  if v.getLsbD 63 = y.mapped then setSlotcfg v y
  else if v.getLsbD 63 = true then takeQueue s (slotQueue y) (setSlotcfg v y) else leaveQueue (slotQueue y) (setSlotcfg v y)

/-- Two slots that differ in what they hold of a queue alone. -/
def OnlyQueue (y z : Slot) : Prop := z = { y with head := z.head, tail := z.tail, lastQ := z.lastQ }

theorem onlyQueue_slotAfter (y : Slot) : OnlyQueue (setSlotcfg v y) (slotAfter s v y) := by
  unfold slotAfter
  split
  · rfl
  · split <;> rfl

/-- What a write of SLOTCFG makes of the slot, and what it leaves alone. -/
structure SlotWritten (i : Fin 256) (v : W64) (s t : State) : Prop where
  regq : t.regq = s.regq
  cores : t.cores = s.cores
  other : ∀ j, j ≠ i → campSlot t j = campSlot s j
  slot : campSlot t i = slotAfter s v (campSlot s i)
  mem : v.getLsbD 63 = true ∨ (campSlot s i).mapped = false → t.mem = s.mem
  shadow : v.getLsbD 63 = false → (campSlot s i).mapped = true → inHbm (slotQueue (campSlot s i)) 4 = true → s.memOk →
    deviceBytes t 0 (slotQueue (campSlot s i)) 4 = bytesOfNat 4 (campSlot s i).tail.toNat

theorem slotWritten_writeSlotcfg : SlotWritten i v s (writeSlotcfg i v s) := by
  by_cases hkeep : v.getLsbD 63 = (campSlot s i).mapped
  · rw [writeSlotcfg_keeps hkeep]
    refine ⟨rfl, rfl, fun j hj => campSlot_modSlot_other hj _, ?_, fun _ => rfl, fun hv hm => ?_⟩
    · rw [campSlot_modSlot_same, slotAfter, if_pos hkeep]
    · rw [hv, hm] at hkeep
      cases hkeep
  · cases hv : v.getLsbD 63 with
    | true =>
      have hm : (campSlot s i).mapped = false := Bool.eq_false_iff.mpr fun hm => hkeep (hv.trans hm.symm)
      rw [writeSlotcfg_maps hv hm]
      refine ⟨rfl, rfl, fun j hj => campSlot_modSlot_other hj _, ?_, fun _ => rfl, fun hv' => ?_⟩
      · rw [campSlot_modSlot_same, slotAfter, if_neg hkeep, if_pos hv]
      · rw [hv] at hv'
        cases hv'
    | false =>
      have hm : (campSlot s i).mapped = true := Bool.eq_true_of_not_eq_false fun hm => hkeep (hv.trans hm.symm)
      rw [writeSlotcfg_unmaps hv hm]
      have honly := onlyMemory_putShadow (some (slotQueue (campSlot s i))) (campSlot s i).tail
        (s.modSlot i fun y => leaveQueue (slotQueue (campSlot s i)) (setSlotcfg v y))
      refine ⟨(onlyMemory_regq honly :), (honly.cores :), fun j hj => ?_, ?_, fun h => ?_, fun _ _ hin hok => ?_⟩
      · rw [onlyMemory_campSlot honly, campSlot_modSlot_other hj]
      · rw [onlyMemory_campSlot honly, campSlot_modSlot_same, slotAfter, if_neg hkeep, if_neg (by rw [hv]; exact Bool.false_ne_true)]
      · rw [hv, hm] at h
        exact h.elim (absurd · Bool.false_ne_true) (absurd · (by decide))
      · exact deviceBytes_putShadow _ hin hok

theorem exec_slotcfgWrite (hp : powered s = true) : exec (.slotcfgWrite i v) s = done (writeSlotcfg i v s) :=
  congrArg done (if_neg (not_unanswered hp _))

theorem natOfBytes_lt (l : List Byte) : natOfBytes l < 256 ^ l.length := by
  induction l with
  | nil => simp [natOfBytes]
  | cons b r ih =>
    have hb : b.toNat < 256 := b.isLt
    rw [natOfBytes, List.length_cons, pow_succ]
    omega

theorem length_deviceBytes (s : State) (w : World) (a n : Nat) : (deviceBytes s w a n).length = n := by
  induction n generalizing a with
  | zero => rfl
  | succ n ih => simp [deviceBytes, ih]

/-- A word of four bytes of the queue is what the slot takes. -/
theorem campWord_toNat (s : State) (a : Nat) : (BitVec.ofNat 32 (campWord s a 4)).toNat = natOfBytes (deviceBytes s 0 a 4) := by
  have h := natOfBytes_lt (deviceBytes s 0 a 4)
  rw [length_deviceBytes] at h
  exact Nat.mod_eq_of_lt h

end Slotcfg

/-- What SLOTCFG_WRITE does. -/
theorem slotcfgWrite_result {s : State} {i : Fin 256} {x : W64} (hregq : s.regq = []) (hp : powered s = true) :
    let y := campSlot s i
    let q := bitsN y.qbase.toNat 12 40 * 4096
    ∃ t, exec (.slotcfgWrite i x) s = .next t ∧ (∀ j, j ≠ i → campSlot t j = campSlot s j) ∧ t.cores = s.cores ∧
       (x.getLsbD 63 = true ∨ y.mapped = false → t.mem = s.mem) ∧
       (x.getLsbD 63 = false → y.mapped = true → inHbm q 4 = true → s.memOk → deviceBytes t 0 q 4 = bytesOfNat 4 y.tail.toNat) ∧
       let z := campSlot t i
       z.mapped = x.getLsbD 63 ∧ z.priv = x.getLsbD 62 ∧ z.vf = x.extractLsb' 55 7 ∧ z.band = x.extractLsb' 53 2 ∧
       z.tickets = x.extractLsb' 45 8 ∧ z.qbase = y.qbase ∧ z.open_ = y.open_ ∧
       (4 ≤ bitsN x.toNat 40 5 → bitsN x.toNat 40 5 ≤ 16 → z.qlog.toNat = bitsN x.toNat 40 5) ∧
       (bitsN x.toNat 40 5 < 4 ∨ 16 < bitsN x.toNat 40 5 → z.qlog = y.qlog) ∧
       (x.getLsbD 63 = true → y.mapped = false →
         z.head.toNat = natOfBytes (deviceBytes s 0 (q + 8) 4) ∧ z.tail.toNat = natOfBytes (deviceBytes s 0 q 4)) ∧
       (x.getLsbD 63 = y.mapped → z.head = y.head ∧ z.tail = y.tail) ∧ (x.getLsbD 63 = false → y.mapped = true → z.lastQ = some q) := by
  have h := slotWritten_writeSlotcfg (s := s) (i := i) (v := x)
  refine ⟨writeSlotcfg i x s, (exec_slotcfgWrite hp).trans (done_of_regq (h.regq.trans hregq)), h.other, h.cores, h.mem, h.shadow, ?_⟩
  have hfields := onlyQueue_slotAfter (s := s) (v := x) (campSlot s i)
  have hqlog : (slotAfter s x (campSlot s i)).qlog =
      if 4 ≤ bitsN x.toNat 40 5 ∧ bitsN x.toNat 40 5 ≤ 16 then BitVec.ofNat 5 (bitsN x.toNat 40 5) else (campSlot s i).qlog :=
    congrArg Slot.qlog hfields
  rw [h.slot]
  refine ⟨(congrArg Slot.mapped hfields :), (congrArg Slot.priv hfields :), (congrArg Slot.vf hfields :), (congrArg Slot.band hfields :),
    (congrArg Slot.tickets hfields :), (congrArg Slot.qbase hfields :), (congrArg Slot.open_ hfields :), fun hlo hhi => ?_, fun hout => ?_,
    fun hv hm => ?_, fun hv => ?_, fun hv hm => ?_⟩
  · rw [hqlog, if_pos ⟨hlo, hhi⟩]
    exact Nat.mod_eq_of_lt (by omega)
  · rw [hqlog, if_neg (by omega)]
  · rw [slotAfter, if_neg (by rw [hv, hm]; decide), if_pos hv]
    exact ⟨campWord_toNat s _, campWord_toNat s _⟩
  · rw [slotAfter, if_pos hv]
    exact ⟨rfl, rfl⟩
  · rw [slotAfter, if_neg (by rw [hv, hm]; decide), if_neg (by rw [hv]; decide)]
    rfl

/-! ### SLOTCTL (R400) -/

theorem jobById_of_mem {s : State} {j : Job} (hnd : (s.jobs.map fun j => j.id).Nodup) (hj : j ∈ s.jobs) : jobById s j.id = some j := by
  unfold jobById
  generalize s.jobs = l at *
  induction l with
  | nil => exact absurd hj List.not_mem_nil
  | cons x r ih =>
    obtain ⟨hx, hr⟩ := List.nodup_cons.mp hnd
    obtain rfl | hj := List.mem_cons.mp hj
    · simp
    · have hne : x.id ≠ j.id := fun h => hx (List.mem_map.mpr ⟨j, hj, h.symm⟩)
      rw [List.find?_cons_of_neg (by simpa using hne), ih hr hj]

/-- What the kills of some jobs leave of a state. -/
structure AllKilled (l : List Job) (s t : State) : Prop where
  core : ∀ c, t.core c = if ∃ j ∈ l, c ∈ j.team then dropJob (s.core c) else s.core c
  killed : ∀ j ∈ l, jobById t j.id = some (killedJob j)
  other : ∀ id, (∀ j ∈ l, j.id ≠ id) → jobById t id = jobById s id
  colls : ∀ k ∈ t.fabric.colls, ∀ j ∈ l, k.job ≠ j.id
  regq : t.regq = s.regq

theorem allKilled_foldl {l : List Job} {s : State} (hnd : (l.map fun j => j.id).Nodup) (hl : ∀ j ∈ l, jobById s j.id = some j)
    (hres : ∀ j ∈ l, j.resident = true) : AllKilled l s (l.foldl (fun s j => killJob j.id s) s) := by
  suffices h : AllKilled l s (l.foldl (fun s j => killJob j.id s) s) ∧
      ∀ k ∈ (l.foldl (fun s j => killJob j.id s) s).fabric.colls, k ∈ s.fabric.colls from h.1
  induction l generalizing s with
  | nil => exact ⟨⟨fun c => by simp, by simp, fun _ _ => rfl, by simp, rfl⟩, fun _ hk => hk⟩
  | cons j r ih =>
    obtain ⟨hj, hr⟩ := List.nodup_cons.mp hnd
    have hne : ∀ x ∈ r, x.id ≠ j.id := fun x hx h => hj (List.mem_map.mpr ⟨x, hx, h⟩)
    have hkill := killJob_killed (hl j List.mem_cons_self)
    obtain ⟨hrest, hcolls⟩ := ih hr (s := killJob j.id s)
      (fun x hx => by rw [hkill.job, if_neg (hne x hx), hl x (List.mem_cons_of_mem _ hx)])
      (fun x hx => hres x (List.mem_cons_of_mem _ hx))
    refine ⟨⟨fun c => ?_, fun x hx => ?_, fun id hid => ?_, fun k hk x hx => ?_, hrest.regq.trans hkill.regq⟩,
      fun k hk => (hkill.colls k (hcolls k hk)).1⟩
    · rw [List.foldl_cons, hrest.core, hkill.core]
      by_cases hc : c ∈ j.team <;> simp [hc, hres j List.mem_cons_self]
    · obtain rfl | hx := List.mem_cons.mp hx
      · rw [List.foldl_cons, hrest.other _ hne, hkill.job, if_pos rfl]
      · exact hrest.killed x hx
    · rw [List.foldl_cons, hrest.other id fun x hx => hid x (List.mem_cons_of_mem _ hx), hkill.job,
        if_neg (hid j List.mem_cons_self).symm]
    · obtain rfl | hx := List.mem_cons.mp hx
      · exact (hkill.colls k (hcolls k hk)).2
      · exact hrest.colls k hk x hx

section Slotctl

variable {s : State} {i : Fin 256} (hregq : s.regq = []) (hp : powered s = true)

theorem exec_slotctlKill (hp : powered s = true) : exec (.slotctlKill i) s = done (slotKill i s) := congrArg done (if_neg (not_unanswered hp _))

theorem exec_slotctlResume (hp : powered s = true) : exec (.slotctlResume i) s = done (slotResume i s) :=
  congrArg done (if_neg (not_unanswered hp _))

theorem exec_slotctlPreempt (hp : powered s = true) : exec (.slotctlPreempt i) s = done (slotPreempt i s) :=
  congrArg done (if_neg (not_unanswered hp _))

/-- The resident jobs of a slot. -/
theorem mem_residents {j : Job} : j ∈ (slotJobs s i).filter Job.resident ↔ j ∈ s.jobs ∧ j.slot = i ∧ j.resident = true := by
  simp [slotJobs, and_comm (a := j.resident = true)]

theorem allKilled_slotKill (hnd : (s.jobs.map fun j => j.id).Nodup) : AllKilled ((slotJobs s i).filter Job.resident) s (slotKill i s) := by
  have hsub : ((slotJobs s i).filter Job.resident).Sublist s.jobs := List.filter_sublist.trans List.filter_sublist
  exact allKilled_foldl (hnd.sublist (hsub.map _)) (fun j hj => jobById_of_mem hnd (mem_residents.mp hj).1) fun j hj => (mem_residents.mp hj).2.2

include hregq hp

/-- What SLOTCTL_KILL does. -/
theorem slotctlKill_result (hnd : (s.jobs.map fun j => j.id).Nodup) :
    ∃ t, exec (.slotctlKill i) s = .next t ∧
      (∀ j ∈ s.jobs, jobById t j.id = some (if j.slot = i ∧ j.resident = true then { j with phase := .killed, saved := [] } else j)) ∧
      (∀ j ∈ s.jobs, j.slot = i → j.resident = true → (∀ k ∈ t.fabric.colls, k.job ≠ j.id) ∧
        ∀ c ∈ j.team, (t.core c).streams = Vector.replicate 6 Stream.absent ∧ (t.core c).cmds = [] ∧ (t.core c).running = []) ∧
      (∀ c, (∀ j ∈ s.jobs, j.slot = i → j.resident = true → c ∉ j.team) → t.core c = s.core c) ∧
      (∀ c, (t.core c).scal.s = (s.core c).scal.s ∧ (t.core c).scal.a = (s.core c).scal.a) := by
  have h := allKilled_slotKill (i := i) hnd
  refine ⟨slotKill i s, (exec_slotctlKill hp).trans (done_of_regq (h.regq.trans hregq)), fun j hj => ?_, fun j hj hslot hres => ?_,
    fun c hc => ?_, fun c => ?_⟩
  · split
    · next hkill => exact h.killed j (mem_residents.mpr ⟨hj, hkill⟩)
    · next hkeep =>
      rw [h.other, jobById_of_mem hnd hj]
      intro x hx hid
      obtain ⟨hmem, hx⟩ := mem_residents.mp hx
      have heq : x = j := Option.some.inj ((jobById_of_mem hnd hmem).symm.trans (hid ▸ jobById_of_mem hnd hj))
      exact hkeep (heq ▸ hx)
  · have hmem := mem_residents.mpr ⟨hj, hslot, hres⟩
    refine ⟨fun k hk => h.colls k hk j hmem, fun c hc => ?_⟩
    rw [h.core, if_pos ⟨j, hmem, hc⟩]
    exact ⟨rfl, rfl, rfl⟩
  · rw [h.core, if_neg]
    rintro ⟨j, hj, hmem⟩
    obtain ⟨hj, hslot, hres⟩ := mem_residents.mp hj
    exact hc j hj hslot hres hmem
  · rw [h.core]
    split <;> exact ⟨rfl, rfl⟩

/-- A slot without jobs has none to kill or to pre-empt. -/
theorem slotctl_none (h : ∀ j ∈ s.jobs, j.slot ≠ i) : exec (.slotctlKill i) s = .next s ∧ exec (.slotctlPreempt i) s = .next s := by
  have hjobs : slotJobs s i = [] := List.filter_eq_nil_iff.mpr fun j hj => by simpa using h j hj
  rw [exec_slotctlKill hp, exec_slotctlPreempt hp, slotKill, slotPreempt, hjobs]
  exact ⟨done_of_regq hregq, done_of_regq hregq⟩

omit hregq in
/-- SLOTCTL.KILL of a slot with one job on a core is PRECTL.KILL there. -/
theorem slotctlKill_sole {j : Job} (hj : slotJobs s i = [j]) (hcore : (s.core j.lead).job = some j.id) (hres : j.resident = true) :
    exec (.slotctlKill i) s = exec (.prectlKill j.lead) s := by
  have hkill : slotKill i s = killJob j.id s := by simp [slotKill, hj, hres]
  have hact : prectlAct forceTeam j.lead 4 s = killJob j.id s := by
    rw [prectlAct, if_pos (by decide), killOn, hcore]
  rw [exec_slotctlKill hp, hkill, ← hact]
  rfl

end Slotctl

/-! ### A team asked to suspend (R132) -/

/-- A core whose team is asked to suspend. -/
def askCore (x : Core) : Core := { x with csr := { x.csr with preq := true } }

/-- A change of cores that does nothing the second time, made on a list of them. -/
theorem core_foldl_idem {g : Core → Core} (hg : ∀ x, g (g x) = g x) (l : List CoreId) (s : State) (c : CoreId) :
    (l.foldl (fun s c => s.modCore c g) s).core c = if c ∈ l then g (s.core c) else s.core c := by
  induction l generalizing s with
  | nil => rfl
  | cons d r ih =>
    rw [List.foldl_cons, ih]
    by_cases hcd : c = d
    · simp [hcd, hg]
    · simp [State.core_modCore_other _ _ _ _ hcd, hcd]

/-- The cores of a team asked to suspend. -/
def askTeam (l : List CoreId) (s : State) : State := l.foldl (fun s c => s.modCore c askCore) s

theorem onlyCores_askTeam (l : List CoreId) (s : State) : OnlyCores l s (askTeam l s) :=
  onlyCores_foldl (F := fun _ _ => askCore) (fun _ h => h) s

theorem core_askTeam (l : List CoreId) (s : State) (c : CoreId) : (askTeam l s).core c = if c ∈ l then askCore (s.core c) else s.core c :=
  core_foldl_idem (g := askCore) (fun _ => rfl) l s c

theorem requestPreempt_eq {s : State} {c : CoreId} {j : Job} (hj : jobOf s c = some j) : requestPreempt c s =
    { askTeam j.team s with
      sched := (if j.plane.drainlim = 0 ∧ (∃ c ∈ j.team, (s.core c).csr.preq = false) then [.save j.id] else []) ++ s.sched } := by
  have honly := (onlyCores_askTeam j.team s).1
  have hall : (decide (j.plane.drainlim = 0) && !j.team.all fun d => (s.core d).csr.preq) = true ↔
      j.plane.drainlim = 0 ∧ ∃ c ∈ j.team, (s.core c).csr.preq = false := by simp
  simp only [requestPreempt, hj, hall]
  change (if _ then { askTeam j.team s with sched := .save j.id :: (askTeam j.team s).sched } else askTeam j.team s) = _
  split
  · rw [honly]; rfl
  · rw [honly]; rfl

/-! ### Candidates (R400) -/

/-- Jobs made candidates. -/
theorem resumed_foldl (l : List Job) (s : State) :
    l.foldl (fun s j => s.modJob j.id fun j => { j with eligible := true }) s =
      { s with jobs := s.jobs.map fun j => if ∃ k ∈ l, k.id = j.id then { j with eligible := true } else j } := by
  induction l generalizing s with
  | nil => simp
  | cons k r ih =>
    rw [List.foldl_cons, ih]
    simp only [State.modJob, List.map_map]
    congr 1
    refine List.map_congr_left fun j _ => ?_
    by_cases hk : k.id = j.id
    · simp [hk]
    · simp [hk, Ne.symm hk]

theorem not_resident_iff {j : Job} : j.resident = false ↔ j.phase = .suspended ∨ j.phase = .saved := by
  unfold Job.resident
  cases j.phase <;> simp

section Slotctl

variable {s : State} {i : Fin 256} (hregq : s.regq = []) (hp : powered s = true)
include hregq hp

/-- What SLOTCTL_PREEMPT does for a slot's one resident job. -/
theorem slotctlPreempt_sole {j : Job} (hnd : (s.jobs.map fun j => j.id).Nodup) (hj : slotJobs s i = [j])
    (hcore : (s.core j.lead).job = some j.id) (hres : j.resident = true) :
    ∃ t, exec (.slotctlPreempt i) s = .next t ∧ (∀ c ∈ j.team, (t.core c).csr.preq = true) ∧ (∀ c, c ∉ j.team → t.core c = s.core c) ∧
      t.sched = (if j.plane.drainlim = 0 ∧ (∃ c ∈ j.team, (s.core c).csr.preq = false) then [.save j.id] else []) ++ s.sched ∧
      t.jobs = s.jobs ∧ t.mem = s.mem ∧ ∀ c, (t.core c).scal = (s.core c).scal ∧ (t.core c).streams = (s.core c).streams := by
  have hmem : j ∈ s.jobs := (List.mem_filter.mp (hj ▸ List.mem_singleton_self j : j ∈ slotJobs s i)).1
  have hfound : jobOf s j.lead = some j := by
    rw [jobOf, hcore]
    exact jobById_of_mem hnd hmem
  have hpre : slotPreempt i s = requestPreempt j.lead s := by simp [slotPreempt, hj, hres]
  have honly := (onlyCores_askTeam j.team s).1
  refine ⟨requestPreempt j.lead s, ?_, ?_⟩
  · rw [exec_slotctlPreempt hp, hpre, requestPreempt_eq hfound]
    exact done_of_regq (by rw [honly]; exact hregq)
  · rw [requestPreempt_eq hfound]
    refine ⟨fun c hc => ?_, fun c hc => ?_, rfl, by rw [honly], by rw [honly], fun c => ?_⟩
    · change ((askTeam j.team s).core c).csr.preq = true
      rw [core_askTeam, if_pos hc]
      rfl
    · exact (core_askTeam j.team s c).trans (if_neg hc)
    · change ((askTeam j.team s).core c).scal = _ ∧ ((askTeam j.team s).core c).streams = _
      rw [core_askTeam]
      split <;> exact ⟨rfl, rfl⟩

/-- What SLOTCTL_RESUME does. -/
theorem slotctlResume_result (hnd : (s.jobs.map fun j => j.id).Nodup) :
    ∃ t, exec (.slotctlResume i) s = .next t ∧ t.cores = s.cores ∧ t.mem = s.mem ∧
      t.jobs = s.jobs.map fun j => if j.slot = i ∧ (j.phase = .suspended ∨ j.phase = .saved) then { j with eligible := true } else j := by
  have heq := resumed_foldl ((slotJobs s i).filter fun j => !j.resident) s
  refine ⟨slotResume i s, (exec_slotctlResume hp).trans (done_of_regq ?_), ?_⟩
  · rw [slotResume, heq]
    exact hregq
  · rw [slotResume, heq]
    refine ⟨rfl, rfl, List.map_congr_left fun j hj => if_congr ?_ rfl rfl⟩
    rw [← not_resident_iff]
    constructor
    · rintro ⟨k, hk, hid⟩
      obtain ⟨hk, hres⟩ := List.mem_filter.mp hk
      obtain ⟨hmem, hslot⟩ := List.mem_filter.mp hk
      have heq : k = j := Option.some.inj ((jobById_of_mem hnd hmem).symm.trans (hid ▸ jobById_of_mem hnd hj))
      subst heq
      exact ⟨of_decide_eq_true hslot, by simpa using hres⟩
    · intro h
      exact ⟨j, by simp [slotJobs, hj, h], rfl⟩

end Slotctl

/-! ### The lottery (R402-R404) -/

/-- The ready slots of a band. -/
def inBand (s : State) (b : Nat) : List (Fin 256 × Candidate) := (readySlots s).filter fun p => decide ((campSlot s p.1).band.toNat = b)

/-- Has a band a ready slot? -/
def bandReady (s : State) (b : Nat) : Bool := !(inBand s b).isEmpty

theorem bandReady_eq (s : State) (b : Nat) : bandReady s b = (readySlots s).any fun p => decide ((campSlot s p.1).band.toNat = b) := by
  unfold bandReady inBand
  induction readySlots s with
  | nil => rfl
  | cons p r ih =>
    by_cases h : (campSlot s p.1).band.toNat = b
    · simp [h]
    · simpa [h] using ih

/-- The tickets of some slots. -/
def ticketSum (s : State) (l : List (Fin 256 × Candidate)) : Nat := (l.map fun p => (campSlot s p.1).tickets.toNat).sum

/-- The band that wins: the lowest aged one with a ready slot, else the lowest with one (R402). -/
def winBand (s : State) : Nat :=
  (((List.range 4).find? fun b => decide (1024 ≤ vget s.camp.ages b 0) && bandReady s b).or ((List.range 4).find? (bandReady s))).getD 0

/-- The slot that wins in a band (R403). -/
def winSlot (s : State) (x : Nat) (l : List (Fin 256 × Candidate)) : Option (Fin 256 × Candidate) :=
  if ticketSum s l = 0 then l.head? else drawSlot s (x % ticketSum s l) 0 l

/-- Does base camp take a decision? -/
def decides (s : State) : Prop := s.camp.ready = true ∧ s.camp.stopped = false ∧ s.camp.channels.length < 4 ∧ readySlots s ≠ []

theorem lotteryStep_idle {s : State} (h : s.camp.ready = false ∨ s.camp.stopped = true ∨ 4 ≤ s.camp.channels.length ∨ readySlots s = []) :
    lotteryStep s = s := by
  unfold lotteryStep
  dsimp only
  rw [if_pos (by simpa [or_assoc] using h)]

theorem lotteryStep_decides {s : State} (h : decides s) {p : Fin 256 × Candidate}
    (hp : winSlot s (seedStep s.camp.seed).toNat (inBand s (winBand s)) = some p) : lotteryStep s = { s with camp := { s.camp with
      seed := seedStep s.camp.seed, channels := s.camp.channels ++ [channelOf (campSlot s p.1) p.1 p.2]
      ages := nextAges (bandReady s) (winBand s) s.camp.ages } } := by
  obtain ⟨hready, hstopped, hfree, hslots⟩ := h
  have hgo : ¬(!s.camp.ready || s.camp.stopped || decide (4 ≤ s.camp.channels.length) || (readySlots s).isEmpty) = true := by
    simp [hready, hstopped, hslots]
    omega
  unfold lotteryStep
  dsimp only
  rw [if_neg hgo]
  change (match winSlot s (seedStep s.camp.seed).toNat (inBand s (winBand s)) with
    | none => s
    | some (i, c) => { s with camp := { s.camp with
      seed := seedStep s.camp.seed, channels := s.camp.channels ++ [channelOf (campSlot s i) i c]
      ages := nextAges (bandReady s) (winBand s) s.camp.ages } }) = _
  rw [hp]

/-- The draw falls on the slot whose running sum first exceeds it. -/
theorem drawSlot_spec {s : State} {d : Nat} {l : List (Fin 256 × Candidate)} {sum : Nat} (hlo : sum ≤ d) (hhi : d < sum + ticketSum s l) :
    ∃ l1 p l2, l = l1 ++ p :: l2 ∧ drawSlot s d sum l = some p ∧ sum + ticketSum s l1 ≤ d ∧ d < sum + ticketSum s (l1 ++ [p]) := by
  induction l generalizing sum with
  | nil => simp [ticketSum] at hhi; omega
  | cons p r ih =>
    by_cases h : d < sum + (campSlot s p.1).tickets.toNat
    · exact ⟨[], p, r, rfl, by simp [drawSlot, h], by simpa [ticketSum] using hlo, by simpa [ticketSum] using h⟩
    · obtain ⟨l1, q, l2, hr, hdraw, hle, hlt⟩ := ih (sum := sum + (campSlot s p.1).tickets.toNat) (by omega)
        (by simpa [ticketSum, Nat.add_assoc] using hhi)
      exact ⟨p :: l1, q, l2, by rw [hr]; rfl, by rw [drawSlot]; simpa [h] using hdraw, by simpa [ticketSum, Nat.add_assoc] using hle,
        by simpa [ticketSum, Nat.add_assoc] using hlt⟩

theorem winSlot_spec (s : State) (x : Nat) {l : List (Fin 256 × Candidate)} (hl : l ≠ []) :
    ∃ l1 p l2, l = l1 ++ p :: l2 ∧ winSlot s x l = some p ∧ (ticketSum s l = 0 → l1 = []) ∧
      (0 < ticketSum s l → ticketSum s l1 ≤ x % ticketSum s l ∧ x % ticketSum s l < ticketSum s (l1 ++ [p])) := by
  by_cases h : ticketSum s l = 0
  · obtain ⟨p, r, rfl⟩ := List.exists_cons_of_ne_nil hl
    exact ⟨[], p, r, rfl, by rw [winSlot, if_pos h]; rfl, fun _ => rfl, fun hpos => absurd h (by omega)⟩
  · obtain ⟨l1, p, l2, heq, hdraw, hle, hlt⟩ := drawSlot_spec (s := s) (d := x % ticketSum s l) (l := l) (sum := 0) (Nat.zero_le _)
      (by rw [Nat.zero_add]; exact Nat.mod_lt _ (by omega))
    exact ⟨l1, p, l2, heq, by rw [winSlot, if_neg h, hdraw], fun h0 => absurd h0 h, fun _ => ⟨by omega, by omega⟩⟩

/-- The band that wins is ready, the lowest aged one if any is aged, else the lowest. -/
theorem winBand_spec {s : State} (h : ∃ b, b < 4 ∧ bandReady s b = true) : winBand s < 4 ∧ bandReady s (winBand s) = true ∧
    (∀ a, a < 4 → 1024 ≤ vget s.camp.ages a 0 → bandReady s a = true → 1024 ≤ vget s.camp.ages (winBand s) 0 ∧ winBand s ≤ a) ∧
    (vget s.camp.ages (winBand s) 0 < 1024 → ∀ a, a < winBand s → bandReady s a = false) := by
  unfold winBand
  cases haged : (List.range 4).find? fun b => decide (1024 ≤ vget s.camp.ages b 0) && bandReady s b with
  | some b =>
    obtain ⟨hb, hmem, hfirst⟩ := List.find?_range_eq_some.mp haged
    simp only [Bool.and_eq_true, decide_eq_true_eq] at hb
    simp only [Option.some_or, Option.getD_some]
    refine ⟨List.mem_range.mp hmem, hb.2, fun a _ hage hready => ⟨hb.1, ?_⟩, fun hlt => absurd hb.1 (by omega)⟩
    by_contra hlt
    simpa [hage, hready] using hfirst a (by omega)
  | none =>
    cases hlow : (List.range 4).find? (bandReady s) with
    | some b =>
      obtain ⟨hb, hmem, hfirst⟩ := List.find?_range_eq_some.mp hlow
      simp only [Option.none_or, Option.getD_some]
      refine ⟨List.mem_range.mp hmem, hb, fun a ha hage hready => ?_, fun _ a ha => by simpa using hfirst a ha⟩
      have := List.find?_eq_none.mp haged a (List.mem_range.mpr ha)
      simp [hage, hready] at this
    | none =>
      obtain ⟨b, hb, hready⟩ := h
      exact absurd hready (List.find?_eq_none.mp hlow b (List.mem_range.mpr hb))

theorem exists_ready {s : State} (h : readySlots s ≠ []) : ∃ b, b < 4 ∧ bandReady s b = true := by
  obtain ⟨p, r, hp⟩ := List.exists_cons_of_ne_nil h
  refine ⟨(campSlot s p.1).band.toNat, (campSlot s p.1).band.isLt, ?_⟩
  rw [bandReady_eq, hp]
  simp

theorem vget_nextAges (ready : Nat → Bool) (b : Nat) (v : Vector Nat 4) {a : Nat} (ha : a < 4) :
    vget (nextAges ready b v) a 0 = if a = b then 0 else if ready a = true then vget v a 0 + 1 else 0 := by
  simp [vget, nextAges, ha]

/-- What a decision of base camp leaves, and how its winner is found. -/
theorem lotteryDecision_result {s : State} (hregq : s.regq = []) (h : decides s) :
    let seed := seedStep s.camp.seed
    let ready (b : Nat) : Bool := (readySlots s).any fun p => decide ((campSlot s p.1).band.toNat = b)
    ∃ t ch b, exec .lotteryDecision s = .next t ∧ t.camp.seed = seed ∧ t.camp.channels = s.camp.channels ++ [ch] ∧ b < 4 ∧ ready b = true ∧
      t.cores = s.cores ∧ t.mem = s.mem ∧ t.camp.slots = s.camp.slots ∧
      (∀ a, a < 4 → 1024 ≤ vget s.camp.ages a 0 → ready a = true → 1024 ≤ vget s.camp.ages b 0 ∧ b ≤ a) ∧
      (vget s.camp.ages b 0 < 1024 → ∀ a, a < b → ready a = false) ∧
      (∀ a, a < 4 → vget t.camp.ages a 0 = if a = b then 0 else if ready a then vget s.camp.ages a 0 + 1 else 0) ∧
      ∃ l1 p l2, inBand s b = l1 ++ p :: l2 ∧ ch = channelOf (campSlot s p.1) p.1 p.2 ∧
        (ticketSum s (l1 ++ p :: l2) = 0 → l1 = []) ∧
        (0 < ticketSum s (l1 ++ p :: l2) → ticketSum s l1 ≤ seed.toNat % ticketSum s (l1 ++ p :: l2) ∧
          seed.toNat % ticketSum s (l1 ++ p :: l2) < ticketSum s (l1 ++ [p])) := by
  intro seed ready
  have hr : bandReady s = ready := funext (bandReady_eq s)
  obtain ⟨hlt, hready, haged, hlow⟩ := winBand_spec (exists_ready h.2.2.2)
  have hband : inBand s (winBand s) ≠ [] := by simpa [bandReady] using hready
  obtain ⟨l1, p, l2, heq, hwin, hnone, hdraw⟩ := winSlot_spec s seed.toNat hband
  have hstep := lotteryStep_decides h hwin
  rw [hr] at hready haged hlow hstep
  rw [heq] at hnone hdraw
  exact ⟨_, _, winBand s, (congrArg done hstep).trans (done_of_regq hregq), rfl, rfl, hlt, hready, rfl, rfl, rfl, haged, hlow,
    fun _ => vget_nextAges ready (winBand s) s.camp.ages, l1, p, l2, heq, rfl, hnone, hdraw⟩

/-- Settles O48, event by event: notifies, SLOTCFG, SLOTCTL and the lottery. -/
theorem slotEvents : Obligations.SlotEvents := by
  unfold Obligations.SlotEvents
  refine ⟨fun s v i x hregq hp => ⟨notify_stranger hregq hp, notify_mapped hregq hp, fun hv hm hq => ?_, fun q hv hm hq hin hok => ?_⟩,
    fun s i x hregq hp => slotcfgWrite_result hregq hp,
    fun s i hregq hp hnd => ⟨slotctlKill_result hregq hp hnd, slotctl_none hregq hp, fun j hj hcore hres => ?_, slotctlResume_result hregq hp hnd⟩,
    fun s hregq => ⟨fun h => ?_, fun hready hstopped hfree hslots => ?_⟩⟩
  · rw [notify_unmapped hregq hp hv hm, hq]
    rfl
  · have honly := onlyMemory_putShadow (some q) x s
    refine ⟨_, (notify_unmapped hregq hp hv hm).trans (by rw [hq]), deviceBytes_putShadow x hin hok, onlyMemory_camp honly, honly.cores⟩
  · exact ⟨slotctlKill_sole hp hj hcore hres, slotctlPreempt_sole hregq hp hnd hj hcore hres⟩
  · exact (congrArg done (lotteryStep_idle h)).trans (done_of_regq hregq)
  · obtain ⟨t, ch, b, hexec, hseed, hchannels, hlt, hb, hcores, hmem, hkept, haged, hlow, hages, l1, p, l2, hband, rfl, hnone, hdraw⟩ :=
      lotteryDecision_result hregq ⟨hready, hstopped, hfree, hslots⟩
    exact ⟨t, _, b, hexec, hseed, hchannels, hlt, hb, hcores, hmem, hkept, haged, hlow, hages, l1, p, l2, hband, rfl, rfl, rfl, rfl, rfl, hnone, hdraw⟩

end Sys2Proof.Proofs.Slots
end

section
/-! PROOFS. A team saved (R128, R132, R133): its accesses performed, its frames and context areas written, its cores freed. -/

namespace Sys2Proof.Proofs.Saving

open Sys2Proof Sys2Proof.Machine
open Sys2Proof.Proofs.Start (jobById_modJob)
open Sys2Proof.Proofs.Retire (onlyMemory_regq onlyMemory_jobs onlyCores_foldl)
open Sys2Proof.Proofs.Complete (drainAll_nil drainTeam_nil onlyMemory_releaseFace)
open Sys2Proof.Proofs.Slots (core_foldl_idem)

/-! ### Accesses that perform (R330) -/

/-- A core whose AP's accesses have all performed. -/
def settledCore (x : Core) : Core := arriveAll (dropHeldLines x)

@[simp] theorem settledCore_settledCore (x : Core) : settledCore (settledCore x) = settledCore x := by
  simp [settledCore, arriveAll, dropHeldLines, Vector.map_map, Function.comp_def]

theorem settleAp_eq {s : State} {c : CoreId} (h : (s.core c).ap.storeQ = []) :
    settleAp c s = (releaseFace c.face (s.core c).csr.world s).modCore c settledCore := by
  rw [settleAp, releaseAp, drainAll_nil h]
  rfl

/-- What a change of memory, and of some cores by `g`, leaves of a state. -/
structure CoresBy (g : Core → Core) (l : List CoreId) (s t : State) : Prop where
  core : ∀ c, t.core c = if c ∈ l then g (s.core c) else s.core c
  clusters : t.clusters = s.clusters
  jobs : t.jobs = s.jobs
  regq : t.regq = s.regq

theorem coresBy_settle {l : List CoreId} {s : State} (h : ∀ c ∈ l, (s.core c).ap.storeQ = []) :
    CoresBy settledCore l s (l.foldl (fun s c => settleAp c s) s) := by
  induction l generalizing s with
  | nil => exact ⟨fun c => by simp, rfl, rfl, rfl⟩
  | cons d r ih =>
    have hm := onlyMemory_releaseFace d.face (s.core d).csr.world s
    have hd := settleAp_eq (h d List.mem_cons_self)
    have hcore (c : CoreId) : (settleAp d s).core c = if c = d then settledCore (s.core c) else s.core c := by
      rw [hd]
      split
      · next hc => rw [hc, State.core_modCore_same, hm.core]
      · next hc => rw [State.core_modCore_other _ _ _ _ hc, hm.core]
    have hrest := ih (s := settleAp d s) fun c hc => by
      rw [hcore]
      split
      · exact h c (List.mem_cons_of_mem _ hc)
      · exact h c (List.mem_cons_of_mem _ hc)
    refine ⟨fun c => ?_, ?_, ?_, ?_⟩
    · rw [List.foldl_cons, hrest.core, hcore]
      by_cases hcd : c = d <;> simp [hcd]
    · rw [List.foldl_cons, hrest.clusters, hd]
      exact hm.clusters
    · rw [List.foldl_cons, hrest.jobs, hd]
      exact (State.modCore_jobs _ _ _).trans (onlyMemory_jobs hm)
    · rw [List.foldl_cons, hrest.regq, hd]
      exact (State.modCore_regq _ _ _).trans (onlyMemory_regq hm)

theorem onlyMemory_writeContext (whole : Bool) (c : CoreId) (s : State) : OnlyMemory s (writeContext whole c s) := by
  unfold writeContext
  dsimp only
  split
  · exact onlyMemory_foldl _ _ s fun s _ => onlyMemory_deviceBlock _ _ _ _ s
  · exact .refl s

/-- The frames and the context areas of a team written. -/
def writeTeam (whole : Bool) (l : List CoreId) (s : State) : State :=
  l.foldl (fun s c => writeContext whole c s) (l.foldl (fun s c => writeFrame c s) s)

theorem onlyMemory_writeTeam (whole : Bool) (l : List CoreId) (s : State) : OnlyMemory s (writeTeam whole l s) :=
  (onlyMemory_foldl _ _ s fun s c => onlyMemory_writeFrame c s).trans (onlyMemory_foldl _ _ _ fun s c => onlyMemory_writeContext whole c s)

/-! ### Cores kept and freed -/

/-- The core that a save keeps. -/
def keepCore (drain : Bool) (k : Cluster) (y : Core) : Core :=
  let x := { y with trap := { y.trap with wdDone := if k.tried then some k.clk else y.trap.wdDone } }
  if drain then drainedCore k.clk x else { x with ap := { x.ap with held := [], tlb := [], walks := [] } }

theorem saveCore_core (drain : Bool) (j : Job) (s : State) (c : CoreId) :
    (saveCore drain j s c).core = keepCore drain (s.cluster c.cluster) (s.core c) := rfl

theorem keepCore_scal (drain : Bool) (k : Cluster) (y : Core) : (keepCore drain k y).scal = y.scal := by cases drain <;> rfl

theorem freeCore_freeCore (x : Core) : freeCore (freeCore x) = freeCore x := by
  simp only [freeCore, dropJob, BitVec.and_assoc, BitVec.and_self]

/-- The cores of a team freed. -/
def freeCores (l : List CoreId) (s : State) : State := l.foldl (fun s c => s.modCore c freeCore) s

theorem freeCores_only (l : List CoreId) (s : State) : freeCores l s = { s with cores := (freeCores l s).cores } :=
  (onlyCores_foldl (F := fun _ _ => freeCore) (fun _ h => h) s).1

theorem freeCores_core (l : List CoreId) (s : State) (c : CoreId) : (freeCores l s).core c = if c ∈ l then freeCore (s.core c) else s.core c :=
  core_foldl_idem freeCore_freeCore l s c

/-- A job that has been saved. -/
def savedJob (drain : Bool) (saved : List SavedCore) (j : Job) : Job :=
  { j with phase := if drain then .suspended else .saved, saved, eligible := false, atFlip := false, save := false }

/-- What the save of a job's team leaves. -/
structure TeamSaved (drain : Bool) (j : Job) (s t : State) : Prop where
  job : ∃ j', jobById t j.id = some j' ∧ j'.phase = (if drain then .suspended else .saved) ∧ j'.swap = j.swap ∧
    j'.saved.map SavedCore.core = j.team.map fun c => keepCore drain (s.cluster c.cluster) (settledCore (s.core c))
  core : ∀ c, t.core c = if c ∈ j.team then freeCore (settledCore (s.core c)) else s.core c
  regq : t.regq = s.regq

theorem saveTeam_saved {s : State} {j : Job} (drain : Bool) (hj : jobById s j.id = some j) (hq : ∀ c ∈ j.team, (s.core c).ap.storeQ = []) :
    TeamSaved drain j s (saveTeam drain j.id s) := by
  have hsettle := coresBy_settle hq
  have hwrite := onlyMemory_writeTeam (!drain) j.team (j.team.foldl (fun s c => settleAp c s) s)
  have hsave : ∀ u, writeTeam (!drain) j.team (j.team.foldl (fun s c => settleAp c s) s) = u → saveTeam drain j.id s =
      (freeCores j.team u).modJob j.id (savedJob drain (j.team.map (saveCore drain j u))) := by
    rintro u rfl
    rw [saveTeam, hj]
    rfl
  generalize writeTeam (!drain) j.team (j.team.foldl (fun s c => settleAp c s) s) = u at hwrite hsave
  have hcore (c : CoreId) : u.core c = if c ∈ j.team then settledCore (s.core c) else s.core c :=
    (hwrite.core c).trans (hsettle.core c)
  have hcluster (k : ClusterId) : u.cluster k = s.cluster k := by
    rw [State.cluster, State.cluster, hwrite.clusters, hsettle.clusters]
  have hfree := freeCores_only j.team u
  have hjobs : (freeCores j.team u).jobs = s.jobs := by
    rw [hfree]
    exact (onlyMemory_jobs hwrite).trans hsettle.jobs
  have hregq : (freeCores j.team u).regq = s.regq := by
    rw [hfree]
    exact (onlyMemory_regq hwrite).trans hsettle.regq
  rw [hsave u rfl]
  refine ⟨⟨savedJob drain (j.team.map (saveCore drain j u)) j, ?_, rfl, rfl, ?_⟩, fun c => ?_, hregq⟩
  · rw [jobById_modJob (f := savedJob drain _) (fun _ => rfl), jobById, hjobs, ← jobById, hj]
    rfl
  · simp only [savedJob, List.map_map]
    refine List.map_congr_left fun c hc => ?_
    rw [Function.comp_apply, saveCore_core, hcluster, hcore, if_pos hc]
  · change (freeCores j.team u).core c = _
    rw [freeCores_core, hcore]
    split <;> rfl

/-! ### A team stopped where it stands (R133) -/

/-- A core stopped by a forced save at a tick. -/
def stopCore (tick : Nat) (x : Core) : Core :=
  { x with trap := { x.trap with
    tcause := tcauseOf true forcedCause [] &&& ~~~((1 : W64) <<< 63), tinfo := tinfoOf forcedCause, ttick := BitVec.ofNat 64 tick } }

theorem forceStop_eq (s : State) (c : CoreId) :
    forceStop s c = if trapPending s c.cluster = true then s else s.modCore c (stopCore (tickOf s c)) := rfl

theorem trapValid_stopCore (tick : Nat) (x : Core) : trapValid (stopCore tick x) = false := by
  exact (by decide : (tcauseOf true forcedCause [] &&& ~~~((1 : W64) <<< 63)).getLsbD 63 = false)

theorem trapValid_forceStop (s : State) (c d : CoreId) : trapValid ((forceStop s c).core d) = trapValid (s.core d) := by
  rw [forceStop_eq]
  split
  · rfl
  · next h =>
    by_cases hdc : d = c
    · rw [hdc, State.core_modCore_same, trapValid_stopCore]
      have hnone := h
      simp only [trapPending, List.any_eq_true, not_exists, not_and, Bool.not_eq_true] at hnone
      exact (hnone c (mem_cores c)).symm
    · rw [State.core_modCore_other _ _ _ _ hdc]

theorem trapPending_forceStop (s : State) (c : CoreId) (k : ClusterId) : trapPending (forceStop s c) k = trapPending s k := by
  simp only [trapPending, trapValid_forceStop]

theorem tickOf_forceStop (s : State) (c d : CoreId) : tickOf (forceStop s c) d = tickOf s d := by
  rw [forceStop_eq]
  split
  · rfl
  · by_cases hdc : d = c
    · rw [hdc, tickOf, tickOf, State.core_modCore_same]
      rfl
    · rw [tickOf, tickOf, State.core_modCore_other _ _ _ _ hdc]
      rfl

/-- A team stopped. -/
def forceStops (l : List CoreId) (s : State) : State := l.foldl forceStop s

theorem forceStops_only (l : List CoreId) (s : State) : forceStops l s = { s with cores := (forceStops l s).cores } := by
  unfold forceStops
  induction l generalizing s with
  | nil => rfl
  | cons c r ih =>
    rw [List.foldl_cons, ih, forceStop_eq]
    split <;> rfl

theorem forceStops_core (l : List CoreId) (s : State) (c : CoreId) : (forceStops l s).core c =
    if c ∈ l ∧ trapPending s c.cluster = false then stopCore (tickOf s c) (s.core c) else s.core c := by
  unfold forceStops
  induction l generalizing s with
  | nil => simp
  | cons d r ih =>
    rw [List.foldl_cons, ih, trapPending_forceStop, tickOf_forceStop]
    have hd : (forceStop s d).core c = if c = d ∧ trapPending s c.cluster = false then stopCore (tickOf s c) (s.core c) else s.core c := by
      rw [forceStop_eq]
      by_cases hcd : c = d
      · subst hcd
        cases h : trapPending s c.cluster <;> simp
      · cases h : trapPending s d.cluster <;> simp [hcd, State.core_modCore_other _ _ _ _ hcd]
    rw [hd]
    by_cases hcd : c = d
    · subst hcd
      cases h : trapPending s c.cluster
      · simp [stopCore]
      · simp
    · simp [hcd]

/-- A job whose save has begun. -/
def beginSave (j : Job) : Job := { j with save := true }

/-- A core as a forced save stops it: as it stands where a trap is pending in its cluster. -/
def haltedCore (s : State) (c : CoreId) : Core := if trapPending s c.cluster = false then stopCore (tickOf s c) (s.core c) else s.core c

/-- What a forced save of a job's team leaves. -/
structure ForceSaved (j : Job) (s t : State) : Prop where
  job : ∃ j', jobById t j.id = some j' ∧ j'.phase = .saved ∧
    j'.saved.map SavedCore.core = j.team.map fun c => keepCore false (s.cluster c.cluster)
      (settledCore (haltedCore s c))
  core : ∀ c, t.core c = if c ∈ j.team then
    freeCore (settledCore (haltedCore s c)) else s.core c
  regq : t.regq = s.regq

theorem finishCommands_none {perform : CoreId → Nat → State → State} {c : CoreId} {s : State} (h : (s.core c).running = []) :
    finishCommands perform c s = s := by
  rw [finishCommands, h]
  rfl

theorem cancelColls_none {c : CoreId} {s : State} (h : (s.core c).running = []) : cancelColls c s = s := by
  simp only [cancelColls, h, List.filter_nil, List.any_nil, Bool.and_false, List.filter_false, List.foldl_nil]
  refine State.modCore_self s c _ ?_
  simp only [h, List.map_nil, List.nil_append, List.filter_nil, Bool.not_false, List.filter_true]
  rw [← h]

theorem forceTeam_eq {s : State} {j : Job} (hj : jobById s j.id = some j) (hres : (j.resident && decide (j.phase ≠ .killed)) = true)
    (u v : State) (hu : s.modJob j.id beginSave = u) (hv : drainTeam j (j.team.foldl (fun s c => finishCommands performCmd c s) u) = v) :
    forceTeam j.id s = if j.team.any (markedColl u) then u
      else if j.team.all fun c => accessesDone v c && commandsDone v c then
        saveTeam false j.id (forceStops j.team (j.team.foldl (fun s c => cancelColls c s) v))
      else v := by
  subst hu hv
  simp only [forceTeam, forcedSaveJob, hj, hres, if_true]
  rfl

theorem forceTeam_saved {s : State} {j : Job} (hj : jobById s j.id = some j) (hph : j.phase = .running)
    (hap : ∀ c ∈ j.team, (s.core c).ap.storeQ = [] ∧ (s.core c).ap.host = none) (hrun : ∀ c ∈ j.team, (s.core c).running = []) :
    ForceSaved j s (forceTeam j.id s) := by
  have hres : (j.resident && decide (j.phase ≠ .killed)) = true := by simp [Job.resident, hph]
  generalize hu : s.modJob j.id beginSave = u
  have hcore : u.core = s.core := by subst hu; rfl
  have hfinish : j.team.foldl (fun s c => finishCommands performCmd c s) u = u :=
    foldl_self _ u _ fun c hc => finishCommands_none (by rw [hcore]; exact hrun c hc)
  have hcancel : j.team.foldl (fun s c => cancelColls c s) u = u :=
    foldl_self _ u _ fun c hc => cancelColls_none (by rw [hcore]; exact hrun c hc)
  have hdrain : drainTeam j u = u := drainTeam_nil fun c hc => by rw [hcore]; exact (hap c hc).1
  have hmarked : j.team.any (markedColl u) = false := List.any_eq_false.mpr fun c hc => by
    simp [markedColl, hcore, hrun c hc]
  have hdone : (j.team.all fun c => accessesDone u c && commandsDone u c) = true := List.all_eq_true.mpr fun c hc => by
    simp [accessesDone, storesDone, commandsDone, hcore, hrun c hc, hap c hc]
  have hforce : forceTeam j.id s = saveTeam false (beginSave j).id (forceStops j.team u) := by
    rw [forceTeam_eq hj hres u u hu (by rw [hfinish, hdrain]), hmarked, if_neg Bool.false_ne_true, if_pos hdone, hcancel]
    rfl
  have honly := forceStops_only j.team u
  have hjob : jobById (forceStops j.team u) j.id = some (beginSave j) := by
    rw [honly]
    change jobById u j.id = _
    rw [← hu, jobById_modJob (f := beginSave) (fun _ => rfl), hj]
    rfl
  have hstop (c : CoreId) (hc : c ∈ j.team) : (forceStops j.team u).core c =
      haltedCore s c := by
    subst hu
    rw [forceStops_core]
    simp only [hc, true_and]
    rfl
  have hother (c : CoreId) (hc : c ∉ j.team) : (forceStops j.team u).core c = s.core c := by
    rw [forceStops_core, if_neg fun h => hc h.1, hcore]
  obtain ⟨⟨j', hj', hphase, -, hcores⟩, hfreed, hregq⟩ := saveTeam_saved (j := beginSave j) false hjob fun c hc => by
    rw [hstop c hc, haltedCore]
    split <;> exact (hap c hc).1
  rw [hforce]
  refine ⟨⟨j', hj', hphase, hcores.trans (List.map_congr_left fun c hc => ?_)⟩, fun c => ?_, ?_⟩
  · rw [hstop c hc, honly, ← hu]
    rfl
  · refine (hfreed c).trans ?_
    change (if c ∈ j.team then _ else _) = _
    split
    · next hc => rw [hstop c hc]
    · next hc => exact hother c hc
  · rw [hregq, honly, ← hu]
    rfl

end Sys2Proof.Proofs.Saving
end

section
/-! PROOFS. A team that returns (R134): its clock, its core and its trap state. -/

namespace Sys2Proof.Proofs.Return

open Sys2Proof Sys2Proof.Machine
open Sys2Proof.Proofs.Start (jobById_modJob)
open Sys2Proof.Proofs.Retire (onlyMemory_regq onlyMemory_jobs onlyMemory_discardClean onlyCores_foldl)
open Sys2Proof.Proofs.Device (deviceBytes_congr)
open Sys2Proof.Proofs.Complete (onlyMemory_camp)

/-! ### The clock of the cluster (R134) -/

/-- Two states that differ in cores, clusters and memory alone. -/
structure SameDevice (s t : State) : Prop where
  jobs : t.jobs = s.jobs
  camp : t.camp = s.camp
  regq : t.regq = s.regq

theorem SameDevice.trans {s t u : State} (h : SameDevice s t) (h' : SameDevice t u) : SameDevice s u :=
  ⟨h'.jobs.trans h.jobs, h'.camp.trans h.camp, h'.regq.trans h.regq⟩

/-- What a raise of a cluster's clock to `clk` or later leaves. -/
structure Raised (k : ClusterId) (clk : Nat) (s t : State) : Prop where
  only : t = { s with cores := t.cores, clusters := t.clusters }
  clk : clk ≤ (t.cluster k).clk
  world : ∀ c, (t.core c).csr.world = (s.core c).csr.world

theorem world_foldl_shift (l : List CoreId) (d : Nat) (s : State) (c : CoreId) :
    ((l.foldl (fun s c => s.modCore c (shiftCore d)) s).core c).csr.world = (s.core c).csr.world := by
  induction l generalizing s with
  | nil => rfl
  | cons b r ih =>
    rw [List.foldl_cons, ih]
    by_cases hcb : c = b
    · rw [hcb, State.core_modCore_same]
      rfl
    · rw [State.core_modCore_other _ _ _ _ hcb]

theorem raiseClock_raised (k : ClusterId) (clk : Nat) (s : State) : Raised k clk s (raiseClock k clk s) := by
  unfold raiseClock
  dsimp only
  split
  · next h => exact ⟨rfl, Nat.le_of_sub_eq_zero h, fun _ => rfl⟩
  · have honly := (onlyCores_foldl (F := fun _ _ => shiftCore (clk - (s.cluster k).clk)) (team := k.cores) (l := k.cores) (fun _ h => h) s).1
    have hworld := world_foldl_shift k.cores (clk - (s.cluster k).clk) s
    generalize k.cores.foldl (fun s c => s.modCore c (shiftCore (clk - (s.cluster k).clk))) s = u at *
    refine ⟨?_, ?_, hworld⟩
    · rw [honly]
      rfl
    · rw [State.cluster_modCluster_same]
      rw [honly]
      change clk ≤ (s.cluster k).clk + (clk - (s.cluster k).clk)
      omega

theorem hbmLineFor_congr {s t : State} (hm : t.mem = s.mem) (hk : t.keys = s.keys) (v : World) (line : Nat) :
    hbmLineFor t v line = hbmLineFor s v line := by
  simp only [hbmLineFor, hbmRow, keyNum, keyAt, hm, hk]
  rfl

/-- A context area stands in memory: cores and clocks have no part in it. -/
theorem readBlock_congr {s t : State} (hm : t.mem = s.mem) (hk : t.keys = s.keys) (v : World) (a n : Nat) :
    readBlock t v a n = readBlock s v a n := by
  simp only [readBlock, poisoned, keyNum, hbmLineFor_congr hm hk, deviceBytes_congr hm hk, hm, hk]
  rfl

theorem readContext_congr {s t : State} (hm : t.mem = s.mem) (hk : t.keys = s.keys) (sv : SavedCore) :
    readContext t sv = readContext s sv := by
  simp only [readContext, readBlock_congr hm hk]

/-! ### The core (R134, R194) -/

/-- A saved core as it returns to a core `y`, its ticks moved on by `d`, with what its context area gave. -/
def returnedCore (place : Nat → Nat) (d : Nat) (sv : SavedCore) (got : Option Core) (y : Core) : Core :=
  dropHeldLines { onCore y (restoreTrap (moveOps place (shiftCore d (got.getD sv.core)))) with badCtx := got.isNone }

/-- What the acquire of an AP leaves. -/
theorem acquireAp_acquired (c : CoreId) (s : State) : SameDevice s (acquireAp c s) ∧ (∀ k, (acquireAp c s).cluster k = s.cluster k) ∧
    (acquireAp c s).core c = dropHeldLines (s.core c) := by
  have hm := onlyMemory_discardClean c.face (s.core c).csr.world s
  unfold acquireAp
  generalize discardClean c.face (s.core c).csr.world s = t at hm
  refine ⟨⟨(onlyMemory_jobs hm :), (onlyMemory_camp hm :), (onlyMemory_regq hm :)⟩, fun k => ?_, ?_⟩
  · rw [State.cluster, State.cluster, ← hm.clusters]
    rfl
  · rw [State.core_modCore_same, hm.core]

/-- What the return of one saved core leaves. -/
structure Restored (place : Nat → Nat) (c : CoreId) (sv : SavedCore) (s t : State) : Prop where
  device : SameDevice s t
  clk : sv.clk ≤ (t.cluster c.cluster).clk
  core : ∃ y : Core, y.csr.world = (s.core c).csr.world ∧
    t.core c = returnedCore place ((t.cluster c.cluster).clk - sv.clk) sv (readContext s sv) y

theorem restoreCore_restored (place : Nat → Nat) (c : CoreId) (sv : SavedCore) (s : State) (hlate : sv.late = []) :
    Restored place c sv s (restoreCore place c sv s) := by
  have hraised := raiseClock_raised c.cluster sv.clk s
  have hrestore : ∀ u, raiseClock c.cluster sv.clk s = u → ∃ v : State,
      restoreCore place c sv s = acquireAp c v ∧ SameDevice u v ∧ (v.cluster c.cluster).clk = (u.cluster c.cluster).clk ∧
      v.core c = { onCore (u.core c) (restoreTrap (moveOps place (shiftCore ((u.cluster c.cluster).clk - sv.clk)
        ((readContext u sv).getD sv.core)))) with badCtx := (readContext u sv).isNone } := by
    rintro u rfl
    refine ⟨_, rfl, ⟨rfl, rfl, rfl⟩, ?_, ?_⟩
    · rw [State.cluster_modCluster_same]
      rfl
    · rw [hlate]
      exact State.core_setCore_same _ _ _
  generalize raiseClock c.cluster sv.clk s = u at hraised hrestore
  obtain ⟨honly, hclk, hworld⟩ := hraised
  obtain ⟨v, hv, hdevice, hclk', hcore⟩ := hrestore u rfl
  obtain ⟨hmoved, hcluster, hheld⟩ := acquireAp_acquired c v
  have hraise : SameDevice s u := ⟨(congrArg State.jobs honly :), (congrArg State.camp honly :), (congrArg State.regq honly :)⟩
  have hmem : u.mem = s.mem := (congrArg State.mem honly :)
  have hkeys : u.keys = s.keys := (congrArg State.keys honly :)
  have hread := readContext_congr hmem hkeys sv
  rw [hv]
  refine ⟨hraise.trans (hdevice.trans hmoved), ?_, u.core c, hworld c, ?_⟩
  · rw [hcluster, hclk']
    exact hclk
  · rw [hcluster, hclk', hheld, hcore, hread, returnedCore]

/-! ### The team (R134) -/

/-- What the return of a team of one core leaves. -/
structure Returned (j : Job) (c : CoreId) (sv : SavedCore) (s t : State) : Prop where
  job : jobById t j.id = some { j with phase := .running, team := [c], saved := [], eligible := false }
  channel : slotChannel t j.slot = none
  regq : t.regq = s.regq
  clk : sv.clk ≤ (t.cluster c.cluster).clk
  core : ∃ place, ∃ y : Core, y.csr.world = (s.core c).csr.world ∧
    t.core c = { returnedCore place ((t.cluster c.cluster).clk - sv.clk) sv (readContext s sv) y with job := some j.id }

/-- A job whose team has returned. -/
def runningJob (team : List CoreId) (j : Job) : Job := { j with phase := .running, team, saved := [], eligible := false }

/-- The place of a core in the new team of a job saved on one core. -/
def placeOf (c : CoreId) (sv : SavedCore) (n : Nat) : Nat :=
  match ([c].zip [sv]).find? fun p => decide (p.2.from_.val = n) with
  | some p => p.1.val
  | none => n

theorem cmds_returnedCore (place : Nat → Nat) (d : Nat) (sv : SavedCore) (got : Option Core) (y : Core) :
    (returnedCore place d sv got y).cmds = (got.getD sv.core).cmds := by
  unfold returnedCore restoreTrap
  dsimp only
  split
  · rfl
  · split <;> rfl

theorem resumeTeam_returned {s : State} {j : Job} {c : CoreId} {sv : SavedCore} {ch : Channel} (hj : jobById s j.id = some j)
    (hsaved : j.saved = [sv]) (hch : slotChannel s j.slot = some ch) (hres : ch.resume = some j.id) (hstop : s.camp.stopped = false)
    (hplace : teamPlace s j = some [c]) (hlate : sv.late = []) (hcmds : ((readContext s sv).getD sv.core).cmds = []) :
    Returned j c sv s (resumeTeam j.id s) := by
  obtain ⟨hdevice, hclk, y, hworld, hcore⟩ := restoreCore_restored (placeOf c sv) c sv s hlate
  have hteam : ∀ u, restoreCore (placeOf c sv) c sv s = u → ∃ v : State,
      v.jobs = u.jobs ∧ v.camp = u.camp ∧ v.regq = u.regq ∧ v.clusters = u.clusters ∧
      v.core c = { u.core c with job := some j.id } ∧ restoreTeam j.id [c] s = v.modJob j.id (runningJob [c]) := by
    rintro u rfl
    refine ⟨(moveReplies j.id (placeOf c sv) (restoreCore (placeOf c sv) c sv s)).modCore c fun x => { x with job := some j.id },
      rfl, rfl, rfl, rfl, ?_, ?_⟩
    · rw [State.core_modCore_same]
      rfl
    · simp only [restoreTeam, hj, hsaved]
      rfl
  obtain ⟨v, hjobs, hcamp, hregq, hclusters, hcv, hteam⟩ := hteam _ rfl
  have hempty : (v.core c).cmds = [] := by
    rw [hcv]
    change ((restoreCore (placeOf c sv) c sv s).core c).cmds = []
    rw [hcore, cmds_returnedCore, hcmds]
  have hresume : resumeTeam j.id s = freeChannel j.slot (v.modJob j.id (runningJob [c])) := by
    simp only [resumeTeam, hj, hch, hres, hstop, hplace, hteam, Bool.false_or, ne_eq, not_true_eq_false, decide_false,
      Bool.false_eq_true, if_false, List.foldl_cons, List.foldl_nil]
    rw [if_pos]
    exact List.isEmpty_iff.mpr hempty
  have hcluster : v.cluster c.cluster = (restoreCore (placeOf c sv) c sv s).cluster c.cluster := by
    rw [State.cluster, State.cluster, hclusters]
  rw [hresume]
  refine ⟨?_, ?_, hregq.trans hdevice.regq, ?_, placeOf c sv, y, hworld, ?_⟩
  · change jobById (v.modJob j.id (runningJob [c])) j.id = _
    rw [jobById_modJob (f := runningJob [c]) (fun _ => rfl), jobById, hjobs, hdevice.jobs, ← jobById, hj]
    rfl
  · simp [slotChannel, freeChannel]
  · change sv.clk ≤ (v.cluster c.cluster).clk
    rw [hcluster]
    exact hclk
  · change v.core c = { returnedCore _ ((v.cluster c.cluster).clk - sv.clk) _ _ _ with job := some j.id }
    rw [hcluster, hcv, hcore]

end Sys2Proof.Proofs.Return
end

section
/-! PROOFS. Preemption (R128, R132-R135): saves, kills and returns of a team, and writes of PRECTL. -/

namespace Sys2Proof.Proofs.Preempt

open Sys2Proof Sys2Proof.Machine Sys2Proof.Claims
open Sys2Proof.Proofs.Acts (done_of_regq regq_of_issues endWord_regq exec_act)
open Sys2Proof.Proofs.Csr (csrWords_cases pending_of_regsReady coreEffect_movedState)
open Sys2Proof.Proofs.Complete (drainTeam_nil)
open Sys2Proof.Proofs.Kill
open Sys2Proof.Proofs.Saving
open Sys2Proof.Proofs.Return

/-! ### The drain point (R132) -/

theorem suspendJob_eq {s : State} {j : Job} (hj : jobById s j.id = some j) (hq : ∀ c ∈ j.team, (s.core c).ap.storeQ = [] ∧ (s.core c).ap.host = none) :
    suspendJob j.id s =
      if j.phase = .suspending ∧ (∀ m ∈ members s j, ((s.core m.1).stream m.2).rdvs = j.rdvs) ∧
        (∀ c ∈ j.team, (s.core c).cmds = [] ∧ (s.core c).running = []) then saveTeam true j.id s
      else s := by
  have hdone : j.team.all (accessesDone s) = true := List.all_eq_true.mpr fun c hc => by
    simp [accessesDone, storesDone, hq c hc]
  simp only [suspendJob, hj, drainTeam_nil fun c hc => (hq c hc).1, hdone, if_true]
  exact if_congr (by simp [passedAll, and_assoc]) rfl rfl

theorem drained_of_saved {j j' : Job} {s : State} (hcores : j'.saved.map SavedCore.core =
    j.team.map fun c => keepCore true (s.cluster c.cluster) (settledCore (s.core c))) :
    j'.saved.map (fun v => v.core.scal) = j.team.map (fun c => (s.core c).scal) ∧
      ∀ v ∈ j'.saved, v.core.vec.v = Vector.replicate 128 0 ∧ v.core.vec.k = Vector.replicate 8 0 ∧ v.core.scratch = [] := by
  refine ⟨?_, fun v hv => ?_⟩
  · have := congrArg (List.map Core.scal) hcores
    rw [List.map_map, List.map_map] at this
    exact this.trans (List.map_congr_left fun c _ => keepCore_scal true (s.cluster c.cluster) (settledCore (s.core c)))
  · obtain ⟨c, -, hc⟩ := List.mem_map.mp (hcores ▸ List.mem_map_of_mem hv)
    rw [← hc]
    exact ⟨rfl, rfl, rfl⟩

theorem drainPointSuspend_saves {s : State} {j : Job} (hregq : s.regq = []) (hj : jobById s j.id = some j)
    (hq : ∀ c ∈ j.team, (s.core c).ap.storeQ = [] ∧ (s.core c).ap.host = none) (hph : j.phase = .suspending)
    (hpass : ∀ m ∈ members s j, ((s.core m.1).stream m.2).rdvs = j.rdvs)
    (hidle : ∀ c ∈ j.team, (s.core c).cmds = [] ∧ (s.core c).running = []) :
    ∃ t j', exec (.drainPointSuspend j.id) s = .next t ∧ jobById t j.id = some j' ∧ j'.phase = .suspended ∧ j'.swap = j.swap ∧
      j'.saved.map (fun v => v.core.scal) = j.team.map (fun c => (s.core c).scal) ∧
      (∀ v ∈ j'.saved, v.core.vec.v = Vector.replicate 128 0 ∧ v.core.vec.k = Vector.replicate 8 0 ∧ v.core.scratch = []) ∧
      (∀ c ∈ j.team, (t.core c).job = none ∧ (t.core c).streams = Vector.replicate 6 Stream.absent) ∧
      (∀ c, c ∉ j.team → t.core c = s.core c) := by
  obtain ⟨⟨j', hj', hphase, hswap, hcores⟩, hcore, hq'⟩ := saveTeam_saved true hj fun c hc => (hq c hc).1
  obtain ⟨hscal, hzero⟩ := drained_of_saved hcores
  have hexec : exec (.drainPointSuspend j.id) s = .next (saveTeam true j.id s) := by
    refine Eq.trans (b := done (suspendJob j.id s)) rfl ?_
    rw [suspendJob_eq hj hq, if_pos ⟨hph, hpass, hidle⟩]
    exact done_of_regq (hq'.trans hregq)
  refine ⟨_, j', hexec, hj', hphase, hswap, hscal, hzero, fun c hc => ?_, fun c hc => ?_⟩
  · rw [hcore, if_pos hc]
    exact ⟨rfl, rfl⟩
  · rw [hcore, if_neg hc]

theorem drainPointSuspend_waits {s : State} {j : Job} (hregq : s.regq = []) (hj : jobById s j.id = some j)
    (hq : ∀ c ∈ j.team, (s.core c).ap.storeQ = [] ∧ (s.core c).ap.host = none)
    (h : j.phase ≠ .suspending ∨ ∃ c ∈ j.team, (s.core c).cmds ≠ [] ∨ (s.core c).running ≠ []) :
    exec (.drainPointSuspend j.id) s = .next s := by
  refine Eq.trans (b := done (suspendJob j.id s)) rfl ?_
  rw [suspendJob_eq hj hq, if_neg]
  · exact done_of_regq hregq
  · rintro ⟨hph, -, hidle⟩
    obtain hne | ⟨c, hc, hne⟩ := h
    · exact hne hph
    · obtain ⟨hcmds, hrun⟩ := hidle c hc
      exact hne.elim (fun h => h hcmds) (fun h => h hrun)

/-! ### A forced save (R133) -/

/-- The save of the job on a core, if it has one. -/
def forceOn (save : Nat → State → State) (c : CoreId) (s : State) : State :=
  match (s.core c).job with
  | some id => save id s
  | none => s

theorem prectlAct_force (save : Nat → State → State) (c : CoreId) (s : State) : prectlAct save c 2 s = forceOn save c s := by
  have hkill : ((2 : W64)).getLsbD 2 = false := by decide
  have hforce : ((2 : W64)).getLsbD 1 = true := by decide
  rw [prectlAct, hkill, hforce, if_neg Bool.false_ne_true, if_pos rfl]
  rfl

theorem exec_prectlForce (c : CoreId) (s : State) : exec (.prectlForce c) s = done (prectlAct forceTeam c 2 s) := rfl
theorem exec_prectlKill (c : CoreId) (s : State) : exec (.prectlKill c) s = done (prectlAct forceTeam c 4 s) := rfl
theorem exec_forcedSave (id : Nat) (s : State) : exec (.forcedSave id) s = done (drainExpired id s) := rfl

theorem forcedSave_idle {s : State} {j : Job} (hregq : s.regq = []) (hj : jobById s j.id = some j) (hsave : j.save = false)
    (hpreq : ∀ c ∈ j.team, (s.core c).csr.preq = false) : exec (.forcedSave j.id) s = .next s := by
  have hnone : (j.save || j.team.any fun c => (s.core c).csr.preq) = false := by simpa [hsave] using hpreq
  rw [exec_forcedSave]
  simp only [drainExpired, hj, hnone, Bool.false_eq_true, if_false]
  exact done_of_regq hregq

/-- The events that force the save of a job's team. -/
def Forces (s : State) (j : Job) (i : Instr) : Prop :=
  (i = .forcedSave j.id ∧ (j.save = true ∨ ∃ c ∈ j.team, (s.core c).csr.preq = true)) ∨ ∃ c, i = .prectlForce c ∧ (s.core c).job = some j.id

theorem exec_forces {s : State} {j : Job} {i : Instr} (hj : jobById s j.id = some j) (h : Forces s j i) :
    exec i s = done (forceTeam j.id s) := by
  obtain ⟨rfl, hask⟩ | ⟨c, rfl, hjob⟩ := h
  · have hany : (j.save || j.team.any fun c => (s.core c).csr.preq) = true := by simpa using hask
    rw [exec_forcedSave]
    simp only [drainExpired, hj, hany, if_true]
  · rw [exec_prectlForce, prectlAct_force, forceOn, hjob]

/-- TCAUSE of a forced save: FSAVE and cause 12, and VALID clear (log 24). -/
theorem forcedTrap (tick : Nat) (x : Core) :
    (stopCore tick x).trap.tcause.getLsbD 61 = true ∧ (stopCore tick x).trap.tcause.extractLsb' 0 4 = 12 ∧
      (stopCore tick x).trap.tcause.getLsbD 63 = false ∧ (stopCore tick x).trap.tinfo = 0x0300000000000000 := by
  have hcause : tcauseOf true forcedCause [] &&& ~~~((1 : W64) <<< 63) = 0x200000000000000C := by decide
  have hinfo : tinfoOf forcedCause = 0x0300000000000000 := by decide
  simp only [stopCore, hcause, hinfo]
  decide

theorem force_saves {s : State} {j : Job} {i : Instr} (hregq : s.regq = []) (hj : jobById s j.id = some j)
    (hq : ∀ c ∈ j.team, (s.core c).ap.storeQ = [] ∧ (s.core c).ap.host = none) (hi : Forces s j i) (hph : j.phase = .running)
    (hrun : ∀ c ∈ j.team, (s.core c).running = []) :
    ∃ t j', exec i s = .next t ∧ jobById t j.id = some j' ∧ j'.phase = .saved ∧
      j'.saved.map (fun v => (v.core.scal, v.core.vec.v, v.core.vec.k, v.core.scratch, v.core.cmds)) =
        j.team.map (fun c => ((s.core c).scal, (s.core c).vec.v, (s.core c).vec.k, (s.core c).scratch, (s.core c).cmds)) ∧
      ((∀ c ∈ j.team, trapPending s c.cluster = false) → ∀ v ∈ j'.saved,
        v.core.trap.tcause.getLsbD 61 = true ∧ v.core.trap.tcause.extractLsb' 0 4 = 12 ∧ v.core.trap.tcause.getLsbD 63 = false ∧
        v.core.trap.tinfo = 0x0300000000000000) ∧
      (∀ c ∈ j.team, trapPending s c.cluster = true →
        ∃ v ∈ j'.saved, { v.core.trap with wdDone := (s.core c).trap.wdDone } = (s.core c).trap) ∧
      (∀ c ∈ j.team, (t.core c).job = none ∧ (t.core c).streams = Vector.replicate 6 Stream.absent) ∧
      (∀ c, c ∉ j.team → t.core c = s.core c) := by
  obtain ⟨⟨j', hj', hphase, hcores⟩, hcore, hq'⟩ := forceTeam_saved hj hph hq hrun
  refine ⟨_, j', (exec_forces hj hi).trans (done_of_regq (hq'.trans hregq)), hj', hphase, ?_, fun hfree v hv => ?_, fun c hc hpend => ?_,
    fun c hc => ?_, fun c hc => ?_⟩
  · have := congrArg (List.map fun x : Core => (x.scal, x.vec.v, x.vec.k, x.scratch, x.cmds)) hcores
    rw [List.map_map, List.map_map] at this
    refine this.trans (List.map_congr_left fun c _ => ?_)
    simp only [Function.comp_apply, haltedCore]
    split <;> rfl
  · obtain ⟨c, hc, hv⟩ := List.mem_map.mp (hcores ▸ List.mem_map_of_mem hv)
    rw [← hv, haltedCore, if_pos (hfree c hc)]
    exact forcedTrap (tickOf s c) (s.core c)
  · have hmem := List.mem_map_of_mem (f := fun c => keepCore false (s.cluster c.cluster)
      (settledCore (haltedCore s c))) hc
    rw [← hcores] at hmem
    obtain ⟨v, hv, hkept⟩ := List.mem_map.mp hmem
    rw [haltedCore, hpend, if_neg (by decide)] at hkept
    exact ⟨v, hv, by rw [hkept]; rfl⟩
  · rw [hcore, if_pos hc]
    exact ⟨rfl, rfl⟩
  · rw [hcore, if_neg hc]

/-! ### A kill (R135) -/

theorem prectlAct_kill (save : Nat → State → State) (c : CoreId) (s : State) : prectlAct save c 4 s = killOn c s := by
  rw [prectlAct, if_pos (by decide)]

theorem prectl_jobless {s : State} {c : CoreId} (hregq : s.regq = []) (h : (s.core c).job = none) :
    exec (.prectlForce c) s = .next s ∧ exec (.prectlKill c) s = .next s := by
  refine ⟨?_, ?_⟩
  · rw [exec_prectlForce, prectlAct_force, forceOn, h]
    exact done_of_regq hregq
  · rw [exec_prectlKill, prectlAct_kill, killOn, h]
    exact done_of_regq hregq

theorem prectlKill_kills {s : State} {c : CoreId} {j : Job} (hregq : s.regq = []) (hjob : (s.core c).job = some j.id)
    (hj : jobById s j.id = some j) (hres : j.resident = true) :
    ∃ t, exec (.prectlKill c) s = .next t ∧ jobById t j.id = some { j with phase := .killed, saved := [] } ∧
      ((∀ f line x, l2Get s f line = some x → x.world = j.plane.world → x.dirty = 0) → t.mem = s.mem ∧ t.l2 = s.l2) ∧
      (∀ k, (t.cluster k).clk = (s.cluster k).clk ∧ ((∀ d ∈ j.team, d.cluster ≠ k) → t.cluster k = s.cluster k)) ∧
      (∀ d, d ∉ j.team → t.core d = s.core d) ∧ (∀ k ∈ t.fabric.colls, k.job ≠ j.id) ∧
      ∀ d ∈ j.team, (t.core d).streams = Vector.replicate 6 Stream.absent ∧ (t.core d).cmds = [] ∧ (t.core d).running = [] ∧
        (t.core d).ap.storeQ = [] ∧ (t.core d).trap.handler = false ∧ trapValid (t.core d) = false ∧
        (t.core d).scal.s = (s.core d).scal.s ∧ (t.core d).scal.a = (s.core d).scal.a ∧ (t.core d).vec.v = (s.core d).vec.v ∧
        (t.core d).scratch = (s.core d).scratch := by
  have hkilled := killJob_killed hj
  refine ⟨killJob j.id s, ?_, ?_, hkilled.memory, fun k => ⟨hkilled.clk k, hkilled.cluster k⟩, fun d hd => ?_,
    fun k hk => (hkilled.colls k hk).2, fun d hd => ?_⟩
  · rw [exec_prectlKill, prectlAct_kill, killOn, hjob]
    exact done_of_regq (hkilled.regq.trans hregq)
  · rw [hkilled.job, if_pos rfl]
    rfl
  · rw [hkilled.core, if_neg fun h => hd h.2]
  · rw [hkilled.core, if_pos ⟨hres, hd⟩]
    refine ⟨rfl, rfl, rfl, rfl, rfl, ?_, rfl, rfl, rfl, rfl⟩
    simp [trapValid, dropJob]

/-! ### The return of a team (R134, R128) -/

/-- The trap state of a restored core is the one thing, with its handler's bank, that its restore sets. -/
theorem restoreTrap_only (x : Core) : restoreTrap x = { x with
    trap := (restoreTrap x).trap
    scal := { x.scal with hs := (restoreTrap x).scal.hs, hv := (restoreTrap x).scal.hv, hw := (restoreTrap x).scal.hw
                          pendH := (restoreTrap x).scal.pendH } } := by
  unfold restoreTrap
  split
  · rfl
  · split <;> rfl

theorem restoreTrap_idle {x : Core} (h : trapValid x = false) : (restoreTrap x).trap.handler = false := by
  rw [restoreTrap, h]
  rfl

theorem restoreTrap_handler {x : Core} (h : trapValid x = true) :
    (restoreTrap x).trap.handler = true ∧ (restoreTrap x).scal.hs = Vector.replicate 32 0 ∧
      (x.trap.tcause.getLsbD 62 = true → (restoreTrap x).trap.stopped = true) ∧
      (x.trap.tcause.getLsbD 62 = false → (restoreTrap x).trap.stopped = false ∧ (restoreTrap x).trap.hpos = Pos.start x.csr.tvec.toNat) := by
  rw [restoreTrap, h]
  cases hd : x.trap.tcause.getLsbD 62
  · exact ⟨rfl, rfl, fun h => absurd h Bool.false_ne_true, fun _ => ⟨rfl, rfl⟩⟩
  · exact ⟨rfl, rfl, fun _ => rfl, fun h => absurd h.symm Bool.false_ne_true⟩

theorem inTrap_lead (x : Core) : inTrap x .lead = x.trap.handler := by simp [inTrap]

section Resume

variable {s : State} {j : Job} {c : CoreId} {sv : SavedCore} {ch : Channel} (hregq : s.regq = []) (hj : jobById s j.id = some j)
  (hsaved : j.saved = [sv]) (hch : slotChannel s j.slot = some ch) (hres : ch.resume = some j.id) (hstop : s.camp.stopped = false)
  (hplace : teamPlace s j = some [c]) (hlate : sv.late = [])
include hregq hj hsaved hch hres hstop hplace hlate

theorem teamResume_badContext (hread : readContext s sv = none) (hcmds : sv.core.cmds = []) :
    ∃ t, exec (.teamResume j.id) s = .next t ∧ (t.core c).badCtx = true ∧ (t.core c).job = some j.id := by
  obtain ⟨-, -, hq, -, place, y, -, hcore⟩ := resumeTeam_returned hj hsaved hch hres hstop hplace hlate (by rw [hread]; exact hcmds)
  refine ⟨resumeTeam j.id s, done_of_regq (hq.trans hregq), ?_, ?_⟩
  · rw [hcore, hread]
    rfl
  · rw [hcore]

theorem teamResume_returns {x : Core} (hread : readContext s sv = some x) (hcmds : x.cmds = []) (haligned : x.aligned = true) :
    ∃ t, exec (.teamResume j.id) s = .next t ∧ (t.core c).badCtx = false ∧
      jobById t j.id = some { j with phase := .running, team := [c], saved := [], eligible := false } ∧ (t.core c).job = some j.id ∧
      (t.core c).scal.s = x.scal.s ∧ (t.core c).scal.a = x.scal.a ∧ (t.core c).scal.pv = x.scal.pv ∧
      (t.core c).vec.v = x.vec.v ∧ (t.core c).scratch = x.scratch ∧ (t.core c).csr.world = (s.core c).csr.world ∧
      tickOf t c = x.tickHold + (sv.clk - x.tick0) ∧ sv.clk ≤ (t.cluster c.cluster).clk ∧
      (trapValid x = true → inTrap (t.core c) .lead = true ∧ (t.core c).scal.hs = Vector.replicate 32 0 ∧
        (x.trap.tcause.getLsbD 62 = true → (t.core c).trap.stopped = true) ∧
        (x.trap.tcause.getLsbD 62 = false → (t.core c).trap.stopped = false ∧ (t.core c).trap.hpos = Pos.start x.csr.tvec.toNat)) ∧
      (trapValid x = false → inTrap (t.core c) .lead = false) ∧ slotChannel t j.slot = none := by
  obtain ⟨hjob, hchannel, hq, hclk, place, y, hworld, hcore⟩ :=
    resumeTeam_returned hj hsaved hch hres hstop hplace hlate (by rw [hread]; exact hcmds)
  refine ⟨resumeTeam j.id s, done_of_regq (hq.trans hregq), ?_⟩
  generalize resumeTeam j.id s = t at *
  generalize hd : (t.cluster c.cluster).clk - sv.clk = d at hcore
  rw [hread] at hcore
  have hmoved := restoreTrap_only (moveOps place (shiftCore d x))
  have hidle := @restoreTrap_idle (moveOps place (shiftCore d x))
  have hhandler := @restoreTrap_handler (moveOps place (shiftCore d x))
  have hrestored : t.core c = { dropHeldLines { onCore y (restoreTrap (moveOps place (shiftCore d x))) with badCtx := false } with job := some j.id } := hcore
  generalize restoreTrap (moveOps place (shiftCore d x)) = z at *
  have htick : tickOf t c = x.tickHold + (sv.clk - x.tick0) := by
    have haligned' : (t.core c).aligned = true := by rw [hrestored, hmoved]; exact haligned
    have hhold : (t.core c).tickHold = x.tickHold := by rw [hrestored, hmoved]; rfl
    have htick0 : (t.core c).tick0 = x.tick0 + d := by rw [hrestored, hmoved]; rfl
    rw [tickOf, haligned', hhold, htick0, if_pos rfl]
    omega
  rw [hrestored]
  refine ⟨rfl, hjob, rfl, ?_, ?_, ?_, ?_, ?_, hworld, htick, hclk, fun h => ?_, fun h => ?_, hchannel⟩
  · rw [hmoved]; rfl
  · rw [hmoved]; rfl
  · rw [hmoved]; rfl
  · rw [hmoved]; rfl
  · rw [hmoved]; rfl
  · obtain ⟨hin, hbank, hdouble, hsingle⟩ := hhandler h
    exact ⟨(inTrap_lead _).trans hin, hbank, hdouble, hsingle⟩
  · exact (inTrap_lead _).trans (hidle h)

end Resume

/-! ### Writes of PRECTL in an image (R133, R135) -/

section Prectl

variable (save : Nat → State → State) (c : CoreId) {v : W64} (s : State)

theorem prectlAct_of_kill (hk : v.getLsbD 2 = true) : prectlAct save c v s = prectlAct save c 4 s := by
  rw [prectlAct_kill, prectlAct, if_pos hk]

theorem prectlAct_of_force (hk : v.getLsbD 2 = false) (hf : v.getLsbD 1 = true) : prectlAct save c v s = prectlAct save c 2 s := by
  rw [prectlAct_force, prectlAct, hk, hf, if_neg Bool.false_ne_true, if_pos rfl]
  rfl

theorem prectlAct_of_neither (hk : v.getLsbD 2 = false) (hf : v.getLsbD 1 = false) : prectlAct save c v s = s := by
  rw [prectlAct, hk, hf, if_neg Bool.false_ne_true, if_neg Bool.false_ne_true]

end Prectl

section Write

variable {s : State} {c : CoreId} {e : Engine} {f : Fld} {op : CsrOp} {i : Instr}
  (hn : immBits f 0 12 = 0x04E) (hpriv : streamPriv (Ctx.mk s c e (reqOf s c e) (s.cluster c.cluster).clk) = true) (hd : f.d = 0)
include hn hpriv hd

/-- What a write of PRECTL does after its word. -/
def prectlAfter (s : State) (c : CoreId) (e : Engine) (f : Fld) (op : CsrOp) (t : State) : State :=
  prectlAct forceTeam c (woValue op (readReg (s.core c) e f.a)) t

/-- The plan of a write of PRECTL: no field is set, and what it asks for follows the words of the tick. -/
theorem planCsrWrite_prectl (hi : planOf i = planCsrWrite forceTeam op f) (ha : pendingReg (s.core c) e f.a = false) :
    planOf i (ctxOf s c e i) = { act := id, after := prectlAfter s c e f op } := by
  have hgo : ¬((decide (op = .write) || decide (readReg (s.core c) e f.a ≠ 0)) && csrPrivileged (csrNo f) && !streamPriv (ctxOf s c e i)) = true := by
    rw [show streamPriv (ctxOf s c e i) = true from hpriv]
    simp
  have hset (t : State) : csrSet op c e (csrNo f) (readReg (s.core c) e f.a) t = t := by
    rw [csrNo, hn]
    rfl
  have hafter : (if (decide (op = .write) || decide (readReg (s.core c) e f.a ≠ 0)) = true then
      csrAfter forceTeam op c (csrNo f) (readReg (s.core c) e f.a) else id) = prectlAfter s c e f op := by
    split
    · exact if_pos hn
    · next hno =>
      have hv : readReg (s.core c) e f.a = 0 := (by simpa using hno : ¬op = .write ∧ _).2
      funext t
      refine (prectlAct_of_neither _ _ _ ?_ ?_).symm
      · rw [hv]; cases op <;> decide
      · rw [hv]; cases op <;> decide
  have hlate : lateReg (ctxOf s c e i) f.a = [] := lateReg_nil ha
  rw [hi]
  refine (if_neg hgo).trans ?_
  simp only [ctxOf_s, ctxOf_c, ctxOf_e, ctxOf_core, hlate, hd, if_true, hset, ite_self, List.nil_append]
  exact congrArg (fun g => ({ act := id, after := g } : Plan)) hafter

theorem exec_prectlWrite (h : issues s c e i = true) (hform : rdvFormOf i = none) (hi : planOf i = planCsrWrite forceTeam op f)
    (ha : pendingReg (s.core c) e f.a = false) :
    exec i s = done (prectlAfter s c e f op (endWord s c e (movedState s c e))) := by
  have heff := coreEffect_movedState s c e
  exact exec_act h hform _ (planCsrWrite_prectl hn hpriv hd hi ha) rfl rfl rfl List.nodup_nil
    (fun _ ht => absurd ht List.not_mem_nil) rfl heff.others heff.flight

end Write

/-- What a write of PRECTL asks for, by its bits: a kill goes before a force (log 47), and a clear asks for nothing. -/
theorem prectlWrite_cases (op : CsrOp) (v : W64) (c : CoreId) {u : State} (hregq : u.regq = []) :
    (op ≠ .clear → v.getLsbD 2 = true → done (prectlAct forceTeam c (woValue op v) u) = exec (.prectlKill c) u) ∧
      (op ≠ .clear → v.getLsbD 2 = false → v.getLsbD 1 = true →
        done (prectlAct forceTeam c (woValue op v) u) = exec (.prectlForce c) u) ∧
      ((op = .clear ∨ (v.getLsbD 2 = false ∧ v.getLsbD 1 = false)) →
        done (prectlAct forceTeam c (woValue op v) u) = .next u) := by
  rw [exec_prectlKill, exec_prectlForce, ← done_of_regq hregq]
  have hzero : prectlAct forceTeam c 0 u = u := prectlAct_of_neither _ _ _ rfl rfl
  have hvalue (hop : op ≠ .clear) : woValue op v = v := by
    cases op with
    | write => rfl
    | set => rfl
    | clear => exact absurd rfl hop
  refine ⟨fun hop hk => ?_, fun hop hk hf => ?_, fun hnone => congrArg done ?_⟩
  · rw [hvalue hop, prectlAct_of_kill _ _ _ hk]
  · rw [hvalue hop, prectlAct_of_force _ _ _ hk hf]
  · by_cases hop : op = .clear
    · rw [hop]
      exact hzero
    · obtain ⟨hk, hf⟩ := hnone.resolve_left hop
      rw [hvalue hop, prectlAct_of_neither _ _ _ hk hf]

/-! ### The obligation -/

/-- Settles O43: saves and kills by what they leave of the team, returns by the restored core, and PRECTL by the plan of its words. -/
theorem preemptEvents : Obligations.PreemptEvents := by
  unfold Obligations.PreemptEvents
  refine ⟨fun s j hregq hj _ hq => ⟨?suspend, ?waits, ?idle, ?force⟩, fun s c hregq => ⟨prectl_jobless hregq, ?kill⟩,
    fun s j c sv ch hregq hj hsaved hch hres hstop hplace hlate => ⟨?bad, ?back⟩, fun w hw s c e f hd h hready hn hpriv => ?prectl⟩
  case suspend => exact drainPointSuspend_saves hregq hj hq
  case waits => exact drainPointSuspend_waits hregq hj hq
  case idle => exact forcedSave_idle hregq hj
  case force => exact fun i hi => force_saves hregq hj hq hi
  case kill => exact fun j => prectlKill_kills hregq
  case bad => exact teamResume_badContext hregq hj hsaved hch hres hstop hplace hlate
  case back => exact fun x => teamResume_returns hregq hj hsaved hch hres hstop hplace hlate
  case prectl =>
    obtain ⟨hform, hplan, -⟩ := csrWords_cases hw f
    have hexec := exec_prectlWrite hn hpriv hd h hform hplan (pending_of_regsReady hready List.mem_cons_self)
    have hregq : (endWord s c e (movedState s c e)).regq = [] := by
      rw [endWord_regq]
      exact regq_of_issues (s := s) h
    rw [hexec]
    exact prectlWrite_cases w.2.1 (readReg (s.core c) e f.a) c hregq

end Sys2Proof.Proofs.Preempt
end

section
/-! PROOFS. Completion records (R129, R130), UEADDR (R438), submitted invalidates (R196), and changes of a core's world (R394). -/

namespace Sys2Proof.Proofs.Records

open Sys2Proof Sys2Proof.Machine
open Sys2Proof.Proofs.Acts (done_of_regq)
open Sys2Proof.Proofs.Registers (not_unanswered)
open Sys2Proof.Proofs.CommandEnds

/-! ### Completion records (R129, R130) -/

/-- The s registers and the vector registers are as they were. -/
def SameFiles (x y : Core) : Prop := y.scal.s = x.scal.s ∧ y.vec = x.vec

theorem sameFiles_writeA (intr : Bool) (i : Nat) (v : W64) (x : Core) : SameFiles x (writeA intr i v x) := by
  unfold writeA
  split <;> exact ⟨rfl, rfl⟩

theorem sameFiles_markPending (hnd intr : Bool) (d : RegCode) (b : Bool) (x : Core) : SameFiles x (markPending true hnd intr d b x) := by
  unfold markPending
  rw [if_pos rfl]
  split <;> exact ⟨rfl, rfl⟩

/-- A reply to an a register leaves the other files as they were. -/
theorem sameFiles_writeReply {d : RegCode} (h : regClass d.toNat = some .a) (hnd intr : Bool) (v : W64) (x : Core) :
    SameFiles x (writeReply true hnd intr d v x) := by
  have hd := (code_of_regClass d).2.1 h
  rw [writeReply_reg hnd intr v x true (by omega) (by omega), if_pos rfl]
  obtain ⟨hs, hv⟩ := sameFiles_markPending hnd intr d false x
  obtain ⟨hs', hv'⟩ := sameFiles_writeA intr d.toNat v (markPending true hnd intr d false x)
  exact ⟨hs'.trans hs, hv'.trans hv⟩

/-- The commands of a core that a held completion leaves running. -/
def leftRunning (y : HeldDone) (x : Core) : List Command :=
  match y.cmd with
  | some id => x.running.filter fun k => decide (k.id ≠ id)
  | none => x.running

/-- A core from whose engine the command of a held completion has gone. -/
def finishedCore (y : HeldDone) (x : Core) : Core := { x with running := leftRunning y x }

theorem takeDone_eq (y : HeldDone) (x : Core) : takeDone y x = writeReply true false y.intr y.d y.v (finishedCore y x) := by
  unfold takeDone finishedCore leftRunning
  cases y.cmd <;> rfl

theorem not_left {y : HeldDone} {x : Core} {k : Command} (hk : k ∈ leftRunning y x) : y.cmd ≠ some k.id := by
  intro hy
  rw [leftRunning, hy] at hk
  exact of_decide_eq_true (List.mem_filter.mp hk).2 rfl

/-- A core with a record added to its queue and one held completion fewer. -/
def queueRecord (y : HeldDone) (rest : List HeldDone) (x : Core) : Core :=
  { x with ap := { x.ap with recs := x.ap.recs ++ [y.record], heldDone := rest } }

section Enqueue

variable {s : State} {c : CoreId} (hregq : s.regq = [])
include hregq

theorem completionRecordEnqueue_waits (h : (s.core c).ap.heldDone = [] ∨ 64 ≤ (s.core c).ap.recs.length) :
    exec (.completionRecordEnqueue c) s = .next s := by
  refine Eq.trans (congrArg done (State.modCore_self s c _ ?_)) (done_of_regq hregq)
  cases hheld : (s.core c).ap.heldDone with
  | nil => rfl
  | cons y rest =>
    have hlen := h.resolve_left (by rw [hheld]; exact List.cons_ne_nil _ _)
    exact if_neg (by omega)

theorem completionRecordEnqueue_adds {y : HeldDone} {rest : List HeldDone} (hheld : (s.core c).ap.heldDone = y :: rest)
    (hlen : (s.core c).ap.recs.length < 64) (hclass : regClass y.d.toNat = some .a) :
    ∃ t, exec (.completionRecordEnqueue c) s = .next t ∧ (t.core c).ap.recs = (s.core c).ap.recs ++ [y.record] ∧
      (t.core c).ap.heldDone = rest ∧ readA (t.core c) y.intr y.d.toNat = y.v ∧ (∀ k ∈ (t.core c).running, y.cmd ≠ some k.id) ∧
      (t.core c).scal.s = (s.core c).scal.s ∧ (t.core c).vec = (s.core c).vec ∧ OthersSame c s t ∧ t.clusters = s.clusters ∧
      SameMemory s t := by
  have hcore : (enqueueRecord c s).core c = takeDone y (queueRecord y rest (s.core c)) := by
    rw [enqueueRecord, State.core_modCore_same, hheld]
    exact if_pos hlen
  rw [takeDone_eq] at hcore
  obtain ⟨hrunning, hap⟩ := sameUnits_writeReply true false y.intr y.d y.v (finishedCore y (queueRecord y rest (s.core c)))
  obtain ⟨hscal, hvec⟩ := sameFiles_writeReply hclass false y.intr y.v (finishedCore y (queueRecord y rest (s.core c)))
  rw [← hcore] at hscal hvec hrunning hap
  refine ⟨enqueueRecord c s, done_of_regq hregq, by rw [hap]; rfl, by rw [hap]; rfl, ?_, fun k hk => ?_, hscal, hvec,
    fun d hd => State.core_modCore_other _ _ _ _ hd, rfl, sameMemory_of rfl rfl rfl⟩
  · rw [hcore]
    exact readA_writeReply false y.intr y.v _ hclass
  · rw [hrunning] at hk
    exact not_left hk

theorem uirecRead_pops (d : Fin 32) :
    ∃ t, exec (.uirecRead c d) s = .next t ∧ (t.core c).ap.recs = (s.core c).ap.recs.drop 1 ∧
      readA (t.core c) (s.core c).ap.inUi d.val = (s.core c).ap.recs.headD 0 ∧
      (∀ j, j % 32 ≠ d.val → readA (t.core c) (s.core c).ap.inUi j = readA (s.core c) (s.core c).ap.inUi j) ∧ OthersSame c s t ∧
      SameMemory s t ∧ t.clusters = s.clusters := by
  have hcore : (readUirec c d s).core c = popRecord (writeA (s.core c).ap.inUi d.val (uirecValue (s.core c)) (s.core c)) := by
    rw [readUirec, State.core_modCore_same, inIntr, decide_eq_true rfl, Bool.and_true]
  have hd : d.val % 32 = d.val := Nat.mod_eq_of_lt d.isLt
  refine ⟨readUirec c d s, done_of_regq hregq, ?_, ?_, fun j hj => ?_, fun d hd => State.core_modCore_other _ _ _ _ hd,
    sameMemory_of rfl rfl rfl, rfl⟩
  · rw [hcore, popRecord, writeA_ap]
  · rw [hcore]
    exact readA_writeA_same _ _ _ _
  · rw [hcore]
    exact readA_writeA_other _ _ _ _ _ (by rw [hd]; exact fun h => hj h.symm)

theorem uiEntry_by_readiness :
    (intrReady s c = false → exec (.uiEntry c) s = .next s) ∧
      (intrReady s c = true → exec (.uiEntry c) s = .next (enterIntr c s)) := by
  refine ⟨fun h => ?_, fun h => ?_⟩
  · refine Eq.trans (congrArg done (if_neg ?_)) (done_of_regq hregq)
    rw [h]
    exact Bool.false_ne_true
  · exact Eq.trans (congrArg done (if_pos h)) (done_of_regq hregq)

end Enqueue

/-! ### INVCTL (R196) -/

theorem invctlGo_sets {s : State} (v : W64) (hregq : s.regq = []) (hp : powered s = true) :
    ∃ t, exec (.invctlGo v) s = .next t ∧ t.sys.invAsid = v.extractLsb' 32 16 ∧ t.sys.invHint = v.extractLsb' 0 2 ∧
      t.sys.invdone = s.sys.invdone ∧
      (v.getLsbD 63 = false → t.sys.invals = s.sys.invals ∧ t.sys.invsub = s.sys.invsub) ∧
      (v.getLsbD 63 = true → t.sys.invsub = s.sys.invsub + 1 ∧ t.sys.invals = s.sys.invals ++
        [{ va := s.sys.inva.toNat, len := s.sys.invl.toNat, asid := v.extractLsb' 32 16, hint := v.extractLsb' 0 2
           from_ := none, sent := false, gen := 0 }]) ∧
      t.cores = s.cores ∧ t.clusters = s.clusters ∧ SameMemory s t := by
  have hexec : exec (.invctlGo v) s = done (writeInvctl v s) := congrArg done (if_neg (not_unanswered hp _))
  cases hgo : v.getLsbD 63
  · have hwrite : writeInvctl v s = { s with sys := { s.sys with invAsid := v.extractLsb' 32 16, invHint := v.extractLsb' 0 2 } } := by
      rw [writeInvctl, hgo]; rfl
    rw [hexec, hwrite]
    exact ⟨_, done_of_regq hregq, rfl, rfl, rfl, fun _ => ⟨rfl, rfl⟩, fun h => absurd h.symm Bool.noConfusion, rfl, rfl, sameMemory_of rfl rfl rfl⟩
  · rw [hexec, writeInvctl, hgo, if_pos rfl]
    exact ⟨_, done_of_regq hregq, rfl, rfl, rfl, fun h => absurd h.symm Bool.noConfusion, fun _ => ⟨rfl, rfl⟩, rfl, rfl, sameMemory_of rfl rfl rfl⟩

/-! ### A core's world (R394) -/

theorem coreBlocked_iff (s : State) (c : CoreId) : coreBlocked s c = true ↔ ∃ x ∈ s.scrub.list, x.kind = 0 ∧ x.a.toNat % 128 = c.val := by
  simp [coreBlocked]

/-- A core that has changed to a world. -/
def newWorld (w : World) (x : Core) : Core := { emptyTlb (clearNonLedge x) with csr := { (clearNonLedge x).csr with world := w } }

/-- The package with a core in a new world. -/
def moveWorld (c : CoreId) (w : World) (s : State) : State :=
  { s.modCore c (newWorld w) with scrub := { s.scrub with cworld := s.scrub.cworld.set c w } }

theorem core_moveWorld (c : CoreId) (w : World) (s : State) :
    (moveWorld c w s).core c = newWorld w (s.core c) ∧ OthersSame c s (moveWorld c w s) :=
  ⟨(State.core_modCore_same s c (newWorld w) :), fun d hd => (State.core_modCore_other s c d (newWorld w) hd :)⟩

section World

variable {s : State} {c : CoreId} (v : W64) (hregq : s.regq = []) (hp : powered s = true)
include hp

theorem exec_cwreq : exec (.cwreq c v) s = done (requestWorld c v s) := congrArg done (if_neg (not_unanswered hp _))

include hregq

theorem cwreq_refused (h : (s.core c).job ≠ none ∨ ∃ x ∈ s.scrub.list, x.kind = 0 ∧ x.a.toNat % 128 = c.val) :
    exec (.cwreq c v) s = .next { s with scrub := { s.scrub with refused := s.scrub.refused.set c true } } := by
  have hbusy : (coreBlocked s c || (s.core c).job.isSome) = true := by
    rw [Bool.or_eq_true, coreBlocked_iff, ← Option.ne_none_iff_isSome]
    exact h.symm
  rw [exec_cwreq v hp, requestWorld, if_pos hbusy]
  exact done_of_regq hregq

variable (hjob : (s.core c).job = none) (hfree : ∀ x ∈ s.scrub.list, x.kind = 0 → x.a.toNat % 128 ≠ c.val)
include hjob hfree

omit hp hregq in
theorem not_busy : ¬ (coreBlocked s c || (s.core c).job.isSome) = true := by
  rw [Bool.or_eq_true, coreBlocked_iff, hjob]
  rintro (⟨x, hx, hkind, hcore⟩ | h)
  · exact hfree x hx hkind hcore
  · exact Bool.false_ne_true h

theorem cwreq_same (hw : s.scrub.cworld[c] = v.extractLsb' 0 4) : exec (.cwreq c v) s = .next s := by
  rw [exec_cwreq v hp, requestWorld, if_neg (not_busy hjob hfree)]
  exact Eq.trans (congrArg done (if_pos hw)) (done_of_regq hregq)

theorem cwreq_moves (hw : s.scrub.cworld[c] ≠ v.extractLsb' 0 4) :
    ∃ t, exec (.cwreq c v) s = .next t ∧ t.scrub.cworld[c] = v.extractLsb' 0 4 ∧ (t.core c).csr.world = v.extractLsb' 0 4 ∧ (t.core c).ap.tlb = [] ∧
      (t.core c).scal.s = Vector.replicate 32 0 ∧ (t.core c).scal.a = Vector.replicate 32 0 ∧
      (t.core c).vec.v = Vector.replicate 128 0 ∧ (t.core c).scratch = (s.core c).scratch ∧ OthersSame c s t ∧
      t.clusters = s.clusters ∧ SameMemory s t := by
  obtain ⟨hcore, hothers⟩ := core_moveWorld c (v.extractLsb' 0 4) s
  have hmove : requestWorld c v s = moveWorld c (v.extractLsb' 0 4) s := by
    rw [requestWorld, if_neg (not_busy hjob hfree)]
    exact if_neg hw
  refine ⟨moveWorld c (v.extractLsb' 0 4) s, ?_, ?_, by rw [hcore]; rfl, by rw [hcore]; rfl, by rw [hcore]; rfl, by rw [hcore]; rfl,
    by rw [hcore]; rfl, by rw [hcore]; rfl, hothers, rfl, sameMemory_of rfl rfl rfl⟩
  · rw [exec_cwreq v hp, hmove]
    exact done_of_regq hregq
  · simp [moveWorld]

omit hjob hfree in
theorem cwstatRead_clears : exec (.cwstatRead c) s = .next { s with scrub := { s.scrub with refused := s.scrub.refused.set c false } } :=
  Eq.trans (congrArg done (if_neg (not_unanswered hp _))) (done_of_regq hregq)

end World

end Sys2Proof.Proofs.Records
end

section
/-! PROOFS. An invalidate reaches the APs and is acknowledged (R195-R197). -/

namespace Sys2Proof.Proofs.Invalidates

open Sys2Proof Sys2Proof.Machine
open Sys2Proof.Proofs.Acts (done_of_regq)

/-- Does an invalidate select a translation: by its range, its ASID or a global leaf, and the size that its hint names (R195)? -/
def covers (v : Inval) (va bits : Nat) (g : Bool) (asid : BitVec 16) : Bool :=
  (decide (v.len = 0) || (decide (va < v.va + v.len) && decide (v.va < va + 2 ^ bits)))
    && (g || decide (asid = v.asid)) && (decide (v.hint = 0) || decide (bits = [0, 16, 21, 30].getD v.hint.toNat 0))

/-- Was a use translated by what an invalidate removes, up to a generation of translations (R197)? -/
def removed (v : Inval) (gen va : Nat) (u : Use) : Bool :=
  decide (u.gen ≤ gen) && covers v (va / 2 ^ u.bits * 2 ^ u.bits) u.bits u.g u.asid

/-- The size that a hint names, as R195 lists it. -/
theorem hint_selects (hint : BitVec 2) (bits : Nat) :
    (decide (hint = 0) || decide (hintBits hint.toNat = bits)) = (decide (hint = 0) || decide (bits = [0, 16, 21, 30].getD hint.toNat 0)) := by
  have hcases : hint = 0 ∨ hint = 1 ∨ hint = 2 ∨ hint = 3 := by revert hint; decide
  obtain rfl | rfl | rfl | rfl := hcases
  · rfl
  · simp [hintBits, eq_comm]
  · simp [hintBits, eq_comm]
  · simp [hintBits, eq_comm]

theorem removesLeaf_eq (v : Inval) (e : TlbEntry) : removesLeaf v e = covers v e.va e.bits e.g e.asid := by
  rw [removesLeaf, hint_selects]
  rfl

theorem removedUse_eq (v : Inval) (va : Nat) (u : Use) : removedUse v va u = removed v v.gen va u := by
  rw [removedUse, hint_selects, removed, covers, invalMeets, Bool.and_assoc, Bool.and_assoc, Bool.and_assoc]

theorem any_toList_eq_false {α : Type} {n : Nat} (xs : Vector α n) (p : α → Bool) : xs.toList.any p = false ↔ ∀ i : Fin n, p xs[i] = false := by
  simp only [List.any_eq_false, Bool.not_eq_true, Vector.mem_toList_iff, Vector.mem_iff_getElem]
  exact ⟨fun h i => h _ ⟨i.val, i.isLt, rfl⟩, fun h x ⟨i, hi, hx⟩ => hx ▸ h ⟨i, hi⟩⟩

theorem any_eq_false_iff {α : Type} (l : List α) (p : α → Bool) : l.any p = false ↔ ∀ x ∈ l, p x = false := by
  simp only [List.any_eq_false, Bool.not_eq_true]

/-- The uses of a core that the invalidate waits for: stores, parts of commands, and loads in flight. -/
theorem coreUses_eq_false (v : Inval) (x : Core) : coreUses v x = false ↔
    (∀ o ∈ x.ap.storeQ, removed v v.gen o.va o.use = false) ∧
      (∀ k ∈ x.cmds ++ x.running, ∀ p ∈ k.pieces, removed v v.gen p.va p.use = false) ∧
      ∀ q : Fin 8, ∀ e ∈ x.vec.q[q], ∀ p ∈ e.pending.getD [], removed v v.gen p.va p.use = false := by
  rw [coreUses, Bool.or_eq_false_iff, Bool.or_eq_false_iff, any_toList_eq_false]
  simp only [removedUse_eq, any_eq_false_iff]
  exact ⟨fun ⟨⟨hstore, hload⟩, hcmd⟩ => ⟨hstore, hcmd, hload⟩, fun ⟨hstore, hcmd, hload⟩ => ⟨⟨hstore, hload⟩, hcmd⟩⟩

theorem tetherUses_eq_false (v : Inval) (x : Session) : tetherUses v x = false ↔ ∀ r ∈ x.outstanding, removed v v.gen r.va r.use = false := by
  simp only [tetherUses, removedUse_eq, any_eq_false_iff]

theorem invalDrained_iff (s : State) (v : Inval) :
    invalDrained s v = true ↔ (∀ c, coreUses v (s.core c) = false) ∧ ∀ i : Fin 128, tetherUses v s.tether.sess[i] = false := by
  simp only [invalDrained, Bool.and_eq_true, Bool.not_eq_true', any_toList_eq_false]
  rfl

/-- An invalidate as it stands once the APs have received it. -/
def sentInval (v : Inval) (s : State) : Inval := { v with sent := true, gen := s.sys.gen }

/-- The package in which the APs have received an invalidate. -/
def received (v : Inval) (rest : List Inval) (s : State) : State :=
  { s with cores := s.cores.map (receiveInval v), sys := { s.sys with invals := sentInval v s :: rest, gen := s.sys.gen + 1 } }

theorem core_received (v : Inval) (rest : List Inval) (s : State) (c : CoreId) : (received v rest s).core c = receiveInval v (s.core c) := by
  simp [received, State.core]

/-- The package in which the invalidate is acknowledged too. -/
def acknowledged (v : Inval) (rest : List Inval) (s : State) : State :=
  { received v rest s with sys := { (received v rest s).sys with invals := rest, invdone := s.sys.invdone + 1 } }

theorem invalDrained_received (v : Inval) (rest : List Inval) (s : State) : invalDrained (received v rest s) (sentInval v s) = true ↔
    (∀ c, coreUses (sentInval v s) (s.core c) = false) ∧ ∀ i : Fin 128, tetherUses (sentInval v s) s.tether.sess[i] = false := by
  simp only [invalDrained_iff, core_received]
  rfl

theorem stepInval_eq {s : State} {v : Inval} {rest : List Inval} (hv : s.sys.invals = v :: rest) (hfrom : v.from_ = none) (hsent : v.sent = false) :
    stepInval s = if invalDrained (received v rest s) (sentInval v s) = true then acknowledged v rest s else received v rest s := by
  have hack (u : State) : ackInval (sentInval v s) u = { u with sys := { u.sys with invdone := u.sys.invdone + 1 } } := by
    rw [ackInval, sentInval, hfrom]
  simp only [stepInval, hv, hsent, Bool.false_eq_true, if_false, List.headD_cons]
  exact if_congr Iff.rfl (hack _) rfl

section Ack

variable {s : State} {v : Inval} {rest : List Inval} (hregq : s.regq = []) (hv : s.sys.invals = v :: rest) (hfrom : v.from_ = none)
  (hsent : v.sent = false)
include hregq hv hfrom hsent

theorem exec_invalidateAck : ∃ t, exec .invalidateAck s = .next t ∧ (∀ c, t.core c = receiveInval v (s.core c)) ∧
    t.clusters = s.clusters ∧ SameMemory s t ∧
    (invalDrained (received v rest s) (sentInval v s) = true → t = acknowledged v rest s) ∧
    (invalDrained (received v rest s) (sentInval v s) = false → t = received v rest s) := by
  have hexec : exec .invalidateAck s = done (stepInval s) := rfl
  rw [hexec, stepInval_eq hv hfrom hsent]
  cases hd : invalDrained (received v rest s) (sentInval v s)
  · rw [if_neg Bool.false_ne_true]
    exact ⟨_, done_of_regq hregq, core_received v rest s, rfl, sameMemory_of rfl rfl rfl, fun h => absurd h.symm Bool.noConfusion, fun _ => rfl⟩
  · rw [if_pos rfl]
    exact ⟨_, done_of_regq hregq, core_received v rest s, rfl, sameMemory_of rfl rfl rfl, fun _ => rfl, fun h => absurd h.symm Bool.noConfusion⟩

theorem invalidateAck_acts :
    ∃ t, exec .invalidateAck s = .next t ∧ t.clusters = s.clusters ∧ SameMemory s t ∧
      (∀ c e, e ∈ (t.core c).ap.tlb ↔ e ∈ (s.core c).ap.tlb ∧ covers v e.va e.bits e.g e.asid = false) ∧
      (∀ c, (t.core c).scal = (s.core c).scal) ∧
      ((∀ c, (∀ o ∈ (s.core c).ap.storeQ, removed v s.sys.gen o.va o.use = false) ∧
          (∀ k ∈ (s.core c).cmds ++ (s.core c).running, ∀ p ∈ k.pieces, removed v s.sys.gen p.va p.use = false) ∧
          ∀ q : Fin 8, ∀ e ∈ (s.core c).vec.q[q], ∀ p ∈ e.pending.getD [], removed v s.sys.gen p.va p.use = false) →
        (∀ i : Fin 128, ∀ r ∈ s.tether.sess[i].outstanding, removed v s.sys.gen r.va r.use = false) →
        t.sys.invals = rest ∧ t.sys.invdone = s.sys.invdone + 1) ∧
      ((∃ c, (∃ o ∈ (s.core c).ap.storeQ, removed v s.sys.gen o.va o.use = true) ∨
          ∃ k ∈ (s.core c).cmds ++ (s.core c).running, ∃ p ∈ k.pieces, removed v s.sys.gen p.va p.use = true) →
        t.sys.invals = sentInval v s :: rest ∧ t.sys.invdone = s.sys.invdone) := by
  obtain ⟨t, hexec, hcore, hclusters, hmem, hdrained, hwaits⟩ := exec_invalidateAck hregq hv hfrom hsent
  refine ⟨t, hexec, hclusters, hmem, fun c e => ?_, fun c => ?_, fun hcores htether => ?_, fun ⟨c, huse⟩ => ?_⟩
  · rw [hcore, receiveInval, List.mem_filter, removesLeaf_eq, Bool.not_eq_true']
  · rw [hcore]
    rfl
  · rw [hdrained ((invalDrained_received v rest s).mpr ⟨fun c => (coreUses_eq_false _ _).mpr (hcores c),
      fun i => (tetherUses_eq_false _ _).mpr (htether i)⟩)]
    exact ⟨rfl, rfl⟩
  · rw [hwaits (Bool.eq_false_iff.mpr fun hd => ?_)]
    · exact ⟨rfl, rfl⟩
    · obtain ⟨hstore, hcmd, -⟩ := (coreUses_eq_false _ _).mp (((invalDrained_received v rest s).mp hd).1 c)
      obtain ⟨o, ho, hused⟩ | ⟨k, hk, p, hp, hused⟩ := huse
      · exact Bool.false_ne_true ((hstore o ho).symm.trans hused)
      · exact Bool.false_ne_true ((hcmd k hk p hp).symm.trans hused)

end Ack

end Sys2Proof.Proofs.Invalidates
end

section
/-! PROOFS. Scrub steps (R391-R393): the piece of work of a step, and the end of a world's scrubs. -/

namespace Sys2Proof.Proofs.Scrubs

open Sys2Proof Sys2Proof.Machine
open Sys2Proof.Proofs.Acts (done_of_regq)
open Sys2Proof.Proofs.Kill
open Sys2Proof.Proofs.Registers (bitsN_eq_extract)
open Sys2Proof.Proofs.Records (takeDone_eq)

/-! ### Folds -/

section Fold

variable {β : Type} {f : State → β → State} {Ok Q : State → Prop} (hok : ∀ s b, Ok s → Ok (f s b)) (hkeep : ∀ s b, Ok s → Q s → Q (f s b))
include hok hkeep

/-- What every step of a fold keeps holds after it. -/
theorem foldl_keeps (l : List β) {s : State} (hs : Ok s) (hq : Q s) : Q (l.foldl f s) := by
  induction l generalizing s with
  | nil => exact hq
  | cons b r ih => exact ih (hok s b hs) (hkeep s b hs hq)

/-- What one step of a fold brings about, and no step undoes, holds after it. -/
theorem foldl_brings {b : β} (hset : ∀ s, Ok s → Q (f s b)) {l : List β} (hb : b ∈ l) {s : State} (hs : Ok s) : Q (l.foldl f s) := by
  induction l generalizing s with
  | nil => exact absurd hb List.not_mem_nil
  | cons d r ih =>
    by_cases hd : b = d
    · exact foldl_keeps hok hkeep r (hok s d hs) (hd ▸ hset s hs)
    · exact ih ((List.mem_cons.mp hb).resolve_left hd) (hok s d hs)

end Fold

/-! ### A page (R391) -/

/-- Two states that differ in the lines of the faces and what the APs hold of them, and in nothing else but cores. -/
def OnlyLines (s t : State) : Prop := t = { s with l2 := t.l2, cores := t.cores }

theorem OnlyLines.trans {s t u : State} (h : OnlyLines s t) (h' : OnlyLines t u) : OnlyLines s u := by
  unfold OnlyLines at *; rw [h']; rw [h]

theorem onlyLines_foldl {β : Type} {f : State → β → State} (hf : ∀ s b, OnlyLines s (f s b)) (l : List β) (s : State) :
    OnlyLines s (l.foldl f s) := by
  induction l generalizing s with
  | nil => exact rfl
  | cons b r ih => exact (hf s b).trans (ih _)

/-- A line out of every face, and of what its APs hold. -/
def dropLine (s : State) (line : Nat) : State := (List.finRange 4).foldl (fun s f => dropHeld f line (l2Put s f line none)) s

theorem onlyLines_dropLine (s : State) (line : Nat) : OnlyLines s (dropLine s line) :=
  onlyLines_foldl (f := fun s f => dropHeld f line (l2Put s f line none)) (fun _ _ => rfl) _ s

theorem memOk_dropHeld_l2Put (s : State) (f : Fin 4) (line : Nat) (h : s.memOk) : (dropHeld f line (l2Put s f line none)).memOk :=
  memOk_l2Put s f line none h

theorem memOk_dropLine (s : State) (line : Nat) (h : s.memOk) : (dropLine s line).memOk :=
  foldl_keeps (Ok := State.memOk) (Q := State.memOk) (fun s f => memOk_dropHeld_l2Put s f line) (fun s f _ => memOk_dropHeld_l2Put s f line) _ h h

theorem l2Get_drop_none {s : State} (h : s.memOk) {f : Fin 4} {line : Nat} (hn : l2Get s f line = none) (g : Fin 4) (other : Nat) :
    l2Get (l2Put s g other none) f line = none := by
  by_cases hl : line = other
  · by_cases hf : f = g
    · rw [hl, hf]
      exact l2Get_l2Put_same s g other none (h.2 g)
    · rw [l2Get_l2Put_face s g f other line none hf, hn]
  · rw [l2Get_l2Put_line s g f other line none hl, hn]

/-- A line dropped is in no face. -/
theorem l2Get_dropLine_same {s : State} (h : s.memOk) (f : Fin 4) (line : Nat) : l2Get (dropLine s line) f line = none :=
  foldl_brings (Ok := State.memOk) (Q := fun u => l2Get u f line = none) (fun s g => memOk_dropHeld_l2Put s g line)
    (fun _ g hs hn => l2Get_drop_none hs hn g line) (fun s hs => l2Get_l2Put_same s f line none (hs.2 f)) (List.mem_finRange f) h

theorem l2Get_dropLine_none {s : State} (h : s.memOk) {f : Fin 4} {line : Nat} (hn : l2Get s f line = none) (other : Nat) :
    l2Get (dropLine s other) f line = none :=
  foldl_keeps (Ok := State.memOk) (Q := fun u => l2Get u f line = none) (fun s g => memOk_dropHeld_l2Put s g other)
    (fun _ g hs hn => l2Get_drop_none hs hn g other) _ h hn

/-- The lines of a page. -/
def pageLines (pa : Nat) : List Nat := (List.range 32).map fun i => pa / 128 + i

theorem mem_pageLines {pa : Nat} (hpa : pa % 4096 = 0) (a : Nat) : a / 128 ∈ pageLines pa ↔ pa ≤ a ∧ a < pa + 4096 := by
  simp only [pageLines, List.mem_map, List.mem_range]
  constructor
  · rintro ⟨i, hi, h⟩
    omega
  · rintro ⟨hlo, hhi⟩
    exact ⟨a / 128 - pa / 128, by omega, by omega⟩

theorem sget_foldl_sput {n : Nat} (l : List Nat) {m : Sparse Nat} (h : swf 0 m = true) (x : Nat) :
    sget 0 (l.foldl (fun m line => sput 0 m line n) m) x = if x ∈ l then n else sget 0 m x := by
  induction l generalizing m with
  | nil => simp
  | cons d r ih =>
    rw [List.foldl_cons, ih (swf_sput 0 m d n h)]
    by_cases hd : x = d
    · simp [hd, sget_sput_same 0 m d n h]
    · simp [hd, sget_sput_other 0 m d x n hd]

/-- What a page zeroed leaves. -/
structure PageZeroed (pa : Nat) (s t : State) : Prop where
  zero : ∀ a, pa ≤ a → a < pa + 4096 → sget 0 t.mem.hbm a = 0 ∧ sget 0 t.mem.lineKey (a / 128) = keyNum s 0 ∧ ∀ f, l2Get t f (a / 128) = none
  other : ∀ a, (a < pa ∨ pa + 4096 ≤ a) → sget 0 t.mem.hbm a = sget 0 s.mem.hbm a ∧ sget 0 t.mem.lineKey (a / 128) = sget 0 s.mem.lineKey (a / 128)

/-- The keys of lines with the lines of a page written under one key. -/
def claimPage (pa n : Nat) (m : Sparse Nat) : Sparse Nat := (pageLines pa).foldl (fun m line => sput 0 m line n) m

theorem sget_claimPage (pa n : Nat) {m : Sparse Nat} (h : swf 0 m = true) (line : Nat) :
    sget 0 (claimPage pa n m) line = if line ∈ pageLines pa then n else sget 0 m line :=
  sget_foldl_sput (pageLines pa) h line

/-- A page zeroed at the HBM controller under world 0's key. -/
def zeroBytes (pa : Nat) (u : State) : State :=
  { u with mem := { u.mem with
      hbm := u.mem.hbm.filter fun p => decide (p.1 < pa) || decide (pa + 4096 ≤ p.1)
      lineKey := claimPage pa (keyNum u 0) u.mem.lineKey
      poison := u.mem.poison.filter fun p => decide (p.1 < pa / 64) || decide (pa / 64 + 64 ≤ p.1) } }

theorem zeroBytes_lineKey (pa : Nat) (u : State) : (zeroBytes pa u).mem.lineKey = claimPage pa (keyNum u 0) u.mem.lineKey := by
  rw [zeroBytes]

theorem zeroBytes_hbm (pa : Nat) (u : State) :
    (zeroBytes pa u).mem.hbm = u.mem.hbm.filter fun p => decide (p.1 < pa) || decide (pa + 4096 ≤ p.1) := by
  rw [zeroBytes]

theorem l2Get_zeroBytes (pa : Nat) (u : State) (f : Fin 4) (line : Nat) : l2Get (zeroBytes pa u) f line = l2Get u f line := by
  rw [l2Get, l2Get, zeroBytes]

theorem frame_zeroBytes (pa : Nat) (u : State) : (zeroBytes pa u).scrub = u.scrub ∧ (zeroBytes pa u).regq = u.regq := by
  rw [zeroBytes]
  exact ⟨rfl, rfl⟩

theorem zeroPage_eq (pa : Nat) (s : State) : zeroPage pa s = zeroBytes pa ((pageLines pa).foldl dropLine s) := rfl

theorem sget_outPage (pa a : Nat) (m : Sparse Byte) : sget 0 (m.filter fun p => decide (p.1 < pa) || decide (pa + 4096 ≤ p.1)) a =
    if a < pa ∨ pa + 4096 ≤ a then sget 0 m a else 0 := by
  rw [sget_filter_key 0 (fun k => decide (k < pa) || decide (pa + 4096 ≤ k))]
  exact if_congr (by simp) rfl rfl

theorem zeroPage_zeroed {pa : Nat} (hpa : pa % 4096 = 0) {s : State} (h : s.memOk) : PageZeroed pa s (zeroPage pa s) := by
  have honly : OnlyLines s ((pageLines pa).foldl dropLine s) := onlyLines_foldl onlyLines_dropLine _ s
  have hgone (f : Fin 4) {line : Nat} (hl : line ∈ pageLines pa) : l2Get ((pageLines pa).foldl dropLine s) f line = none :=
    foldl_brings (Ok := State.memOk) (Q := fun u => l2Get u f line = none) memOk_dropLine (fun _ other hs hn => l2Get_dropLine_none hs hn other)
      (fun _ hs => l2Get_dropLine_same hs f line) hl h
  rw [zeroPage_eq]
  generalize (pageLines pa).foldl dropLine s = u at honly hgone
  have hmem : u.mem = s.mem := (congrArg State.mem honly :)
  have hkeys : u.keys = s.keys := (congrArg State.keys honly :)
  obtain ⟨-, hwf, -⟩ := (Memory.wf_iff _).mp h.1
  have hbyte (a : Nat) : sget 0 (zeroBytes pa u).mem.hbm a = if a < pa ∨ pa + 4096 ≤ a then sget 0 s.mem.hbm a else 0 := by
    rw [zeroBytes_hbm, hmem, sget_outPage]
  have hkey (line : Nat) : sget 0 (zeroBytes pa u).mem.lineKey line = if line ∈ pageLines pa then keyNum s 0 else sget 0 s.mem.lineKey line := by
    have hnum : keyNum u 0 = keyNum s 0 := by rw [keyNum, keyNum, hkeys]
    rw [zeroBytes_lineKey, hmem, sget_claimPage pa _ hwf, hnum]
  refine ⟨fun a hlo hhi => ⟨?_, ?_, fun f => ?_⟩, fun a ha => ⟨?_, ?_⟩⟩
  · rw [hbyte, if_neg (by omega)]
  · rw [hkey, if_pos ((mem_pageLines hpa a).mpr ⟨hlo, hhi⟩)]
  · rw [l2Get_zeroBytes, hgone f ((mem_pageLines hpa a).mpr ⟨hlo, hhi⟩)]
  · rw [hbyte, if_pos ha]
  · rw [hkey, if_neg (by rw [mem_pageLines hpa a]; omega)]

/-! ### The work of a step (R391) -/

theorem scrub_zeroPage (pa : Nat) (s : State) : (zeroPage pa s).scrub = s.scrub ∧ (zeroPage pa s).regq = s.regq := by
  have honly : OnlyLines s ((pageLines pa).foldl dropLine s) := onlyLines_foldl onlyLines_dropLine _ s
  rw [zeroPage_eq]
  generalize (pageLines pa).foldl dropLine s = u at honly
  obtain ⟨hscrub, hregq⟩ := frame_zeroBytes pa u
  exact ⟨hscrub.trans (congrArg State.scrub honly :), hregq.trans (congrArg State.regq honly :)⟩

theorem onlyLines_dropWorldLines (f : Fin 4) (w : World) (s : State) : OnlyLines s (dropWorldLines f w s) := by
  refine onlyLines_foldl (fun s line => ?_) _ s
  split
  · split <;> rfl
  · rfl

theorem scrubWork_core {x : Scrub} (h : x.kind = 0) (s : State) : scrubWork x 0 s = s.modCore (coreOf x.a.toNat) clearNonLedge := by
  rw [scrubWork, h]
  rfl

/-- The rows that a later step of a kind-0 scrub zeroes. -/
def stepRows (x : Scrub) (i : Nat) : Nat × Nat :=
  let row := 32 * ((i - 1) % ledgeSteps x.b)
  (1024 * (maskLedges x.b).getD ((i - 1) / ledgeSteps x.b) 0 + row, min 32 (scrubRows x.b - row))

theorem scrubWork_rows {x : Scrub} (h : x.kind = 0) {i : Nat} (hi : i ≠ 0) (s : State) :
    scrubWork x i s = zeroRows (coreOf x.a.toNat) (stepRows x i).1 (stepRows x i).2 s := by
  rw [scrubWork, h]
  exact if_neg hi

theorem scrubWork_page {x : Scrub} (h : x.kind = 1) (i : Nat) (s : State) : scrubWork x i s = zeroPage (x.a.toNat + 4096 * i) s := by
  rw [scrubWork, h]
  rfl

/-- No step of a scrub touches the scrub engine's own record. -/
theorem scrubWork_frame (x : Scrub) (i : Nat) (s : State) : (scrubWork x i s).scrub = s.scrub ∧ (scrubWork x i s).regq = s.regq := by
  unfold scrubWork
  split
  · dsimp only
    split <;> exact ⟨rfl, rfl⟩
  · exact scrub_zeroPage _ s
  · have honly := onlyLines_dropWorldLines (ClusterId.face (Fin.ofNat 32 i)) x.world s
    exact ⟨(congrArg State.scrub honly :), (congrArg State.regq honly :)⟩

/-! ### The end of a world's scrubs (R393) -/

/-- Memory, the faces, the ledges and the scrub engine are as they were. -/
structure SameStores (s t : State) : Prop where
  mem : t.mem = s.mem
  l2 : t.l2 = s.l2
  scratch : ∀ c, (t.core c).scratch = (s.core c).scratch
  scrub : t.scrub = s.scrub
  regq : t.regq = s.regq

theorem SameStores.refl (s : State) : SameStores s s := ⟨rfl, rfl, fun _ => rfl, rfl, rfl⟩

theorem SameStores.trans {s t u : State} (h : SameStores s t) (h' : SameStores t u) : SameStores s u :=
  ⟨h'.mem.trans h.mem, h'.l2.trans h.l2, fun c => (h'.scratch c).trans (h.scratch c), h'.scrub.trans h.scrub, h'.regq.trans h.regq⟩

theorem scratch_writeS (hnd : Bool) (i : Nat) (v : W64) (x : Core) : (writeS hnd i v x).scratch = x.scratch := by
  unfold writeS
  split
  · rfl
  · split <;> rfl

theorem scratch_writeA (intr : Bool) (i : Nat) (v : W64) (x : Core) : (writeA intr i v x).scratch = x.scratch := by
  unfold writeA
  split <;> rfl

theorem scratch_writeSlot (hnd : Bool) (i : Nat) (b : Bool) (x : Core) : (writeSlot hnd i b x).scratch = x.scratch := by
  unfold writeSlot
  split <;> rfl

theorem scratch_markPending (ap hnd intr : Bool) (d : RegCode) (b : Bool) (x : Core) : (markPending ap hnd intr d b x).scratch = x.scratch := by
  unfold markPending
  dsimp only
  split
  · split <;> rfl
  · split
    · rfl
    · split <;> rfl

theorem scratch_writeReply (ap hnd intr : Bool) (d : RegCode) (v : W64) (x : Core) : (writeReply ap hnd intr d v x).scratch = x.scratch := by
  unfold writeReply
  split
  · rfl
  · split
    · exact scratch_writeSlot hnd _ _ x
    · cases ap
      · exact (scratch_writeS hnd _ v _).trans (scratch_markPending false hnd intr d false x)
      · exact (scratch_writeA intr _ v _).trans (scratch_markPending true hnd intr d false x)

theorem scratch_holdDone (y : HeldDone) (x : Core) : (holdDone y x).scratch = x.scratch := by
  unfold holdDone
  split
  · rfl
  · rw [takeDone_eq, scratch_writeReply]
    rfl

theorem sameStores_replyScrub (r : ScrubReply) (status : Nat) (v : W64) (s : State) : SameStores s (replyScrub r status v s) := by
  unfold replyScrub
  dsimp only
  split
  · refine ⟨rfl, rfl, fun c => ?_, rfl, rfl⟩
    by_cases hc : c = r.core
    · rw [hc, State.core_modCore_same, scratch_holdDone]
    · rw [State.core_modCore_other _ _ _ _ hc]
  · exact ⟨rfl, rfl, fun _ => rfl, rfl, rfl⟩

theorem sameStores_foldl {β : Type} {f : State → β → State} (hf : ∀ s b, SameStores s (f s b)) (l : List β) (s : State) :
    SameStores s (l.foldl f s) := by
  induction l generalizing s with
  | nil => exact .refl s
  | cons b r ih => exact (hf s b).trans (ih _)

theorem onlyCairn_scrubPartitions (w : World) (s : State) : OnlyCairn s (scrubPartitions w s) :=
  onlyCairn_foldl (fun s j => (rfl : OnlyCairn s ((zeroPartition j s).modCairn j fun x => { x with world := 0 }))) _ s

/-- The record of the scrub engine once the scrubs of a world have ended. -/
def endedScrub (w : World) (x : ScrubState) : ScrubState :=
  { x with
    active := vset x.active w.toNat false
    list := x.list.filter fun y => decide (y.world ≠ w)
    joins := x.joins.filter fun y => decide (y.1 ≠ w) }

theorem endScrubs_sameStores (w : World) (s : State) : SameStores { s with scrub := endedScrub w s.scrub } (endScrubs w s) := by
  have hcairn := onlyCairn_scrubPartitions w s
  unfold endScrubs
  generalize scrubPartitions w s = u at hcairn
  have hscrub : u.scrub = s.scrub := (congrArg State.scrub hcairn :)
  have hstart : SameStores { s with scrub := endedScrub w s.scrub } { u with scrub := endedScrub w u.scrub } :=
    ⟨(congrArg State.mem hcairn :), (congrArg State.l2 hcairn :), fun c => by rw [hcairn]; rfl, by rw [hscrub], (congrArg State.regq hcairn :)⟩
  exact hstart.trans (sameStores_foldl (fun s r => sameStores_replyScrub r 0 1 s) _ _)

/-! ### A step (R392, R393) -/

/-- The count of a world's steps, one further. -/
def nextDone (s : State) (w : World) : BitVec 28 := vget s.scrub.done w.toNat 0 + 1

/-- The record of the scrub engine with one more step of its one scrub counted. -/
def countedScrub (x : Scrub) (w : World) (s : State) : ScrubState :=
  { s.scrub with list := [{ x with steps := x.steps + 1 }], done := vset s.scrub.done w.toNat (nextDone s w) }

section Step

variable {s : State} {w : World} {x : Scrub} (hregq : s.regq = []) (hlist : s.scrub.list = [x]) (hw : x.world = w) (hlt : x.steps < scrubSteps x)

theorem scrubStep_other (hregq : s.regq = []) (h : ∀ x ∈ s.scrub.list, x.world ≠ w) : exec (.scrubStep w) s = .next s := by
  have hnone : (s.scrub.list.find? fun x => decide (x.world = w) && decide (x.steps < scrubSteps x)) = none :=
    List.find?_eq_none.mpr fun x hx => by simp [h x hx]
  have hstep : stepScrub w s = s := by simp only [stepScrub, hnone]
  exact (congrArg done hstep).trans (done_of_regq hregq)

include hlist hw hlt

theorem stepScrub_eq : stepScrub w s =
    if nextDone s w = vget s.scrub.total w.toNat 0 then endScrubs w { scrubWork x x.steps s with scrub := countedScrub x w s }
    else { scrubWork x x.steps s with scrub := countedScrub x w s } := by
  obtain ⟨hscrub, -⟩ := scrubWork_frame x x.steps s
  have hfind : (s.scrub.list.find? fun x => decide (x.world = w) && decide (x.steps < scrubSteps x)) = some x := by
    simp [hlist, hw, hlt]
  have hcount : { (scrubWork x x.steps s).scrub with
      list := bumpScrub w (scrubWork x x.steps s).scrub.list
      done := vset (scrubWork x x.steps s).scrub.done w.toNat (vget (scrubWork x x.steps s).scrub.done w.toNat 0 + 1) } = countedScrub x w s := by
    rw [hscrub, hlist, bumpScrub, if_pos ⟨hw, hlt⟩]
    rfl
  simp only [stepScrub, hfind, hcount]
  rw [hscrub, vget_vset_same _ _ _ _ w.isLt]
  rfl

/-- What a step of a world's only scrub leaves: its count, its piece of work, and the end of the world's scrubs when it was the last. -/
structure Stepped (x : Scrub) (w : World) (s t : State) : Prop where
  done : vget t.scrub.done w.toNat 0 = nextDone s w
  last : nextDone s w = vget s.scrub.total w.toNat 0 → vget t.scrub.active w.toNat true = false ∧ t.scrub.list = []
  more : nextDone s w ≠ vget s.scrub.total w.toNat 0 → t.scrub.active = s.scrub.active ∧ t.scrub.list = [{ x with steps := x.steps + 1 }] ∧
    t.cores = (scrubWork x x.steps s).cores
  mem : t.mem = (scrubWork x x.steps s).mem
  l2 : t.l2 = (scrubWork x x.steps s).l2
  scratch : ∀ c, (t.core c).scratch = ((scrubWork x x.steps s).core c).scratch
  regq : t.regq = s.regq

theorem stepScrub_stepped : Stepped x w s (stepScrub w s) := by
  obtain ⟨-, hq⟩ := scrubWork_frame x x.steps s
  have hdone : vget (countedScrub x w s).done w.toNat 0 = nextDone s w := vget_vset_same _ _ _ _ w.isLt
  rw [stepScrub_eq hlist hw hlt]
  by_cases hlast : nextDone s w = vget s.scrub.total w.toNat 0
  · obtain ⟨hmem, hl2, hscratch, hscrub, hregq⟩ := endScrubs_sameStores w { scrubWork x x.steps s with scrub := countedScrub x w s }
    rw [if_pos hlast]
    refine ⟨by rw [hscrub]; exact hdone, fun _ => ?_, fun h => absurd hlast h, hmem, hl2, hscratch, hregq.trans hq⟩
    rw [hscrub]
    exact ⟨vget_vset_same _ _ _ _ w.isLt, by simp [endedScrub, countedScrub, hw]⟩
  · rw [if_neg hlast]
    exact ⟨hdone, fun h => absurd h hlast, fun _ => ⟨rfl, rfl, rfl⟩, rfl, rfl, fun _ => rfl, hq⟩

omit hlist hw hlt in
/-- The first rows of a kind-0 scrub of ledge 0 in whole: its 4,096 bytes (R391). -/
theorem stepRows_first (hmask : x.b.extractLsb' 0 16 = 1) (hrows : x.b.extractLsb' 16 10 = 31) : stepRows x 1 = (0, 32) := by
  have hledges : maskLedges x.b = [0] := by
    have hbits (i : Nat) (hi : i ∈ List.range 16) : x.b.getLsbD i = (1 : BitVec 16).getLsbD i := by
      rw [← hmask, BitVec.getLsbD_extractLsb', Nat.zero_add, decide_eq_true (List.mem_range.mp hi), Bool.true_and]
    rw [maskLedges, List.filter_congr hbits]
    decide
  have hnr : scrubRows x.b = 32 := by
    rw [scrubRows, bitsN_eq_extract, hrows]
    rfl
  simp [stepRows, ledgeSteps, hledges, hnr]

end Step

theorem scratch_zeroRows (c : CoreId) (n : Nat) (s : State) :
    ((zeroRows c 0 n s).core c).scratch = sputs 0 (s.core c).scratch 0 (List.replicate (128 * n) 0) := by
  rw [zeroRows, State.core_modCore_same]
  rfl

theorem sget_zeroRows (c : CoreId) (n : Nat) (s : State) (a : Nat) :
    sget 0 ((zeroRows c 0 n s).core c).scratch a = if a < 128 * n then 0 else sget 0 (s.core c).scratch a := by
  have hlen : (List.replicate (128 * n) (0 : Byte)).length = 128 * n := List.length_replicate
  rw [scratch_zeroRows]
  split
  · next h =>
    have hin := sget_sputs_inside 0 (s.core c).scratch 0 (List.replicate (128 * n) 0) a (by rw [hlen]; exact h)
    rw [Nat.zero_add] at hin
    rw [hin, List.getD_replicate _ h]
  · next h => rw [sget_sputs_outside _ _ _ _ _ (Or.inr (by rw [hlen]; omega))]

section Kinds

variable {s t : State} {w : World} {x : Scrub} (h : Stepped x w s t)
include h

theorem Stepped.page (hkind : x.kind = 1) (ha : x.a.toNat % 4096 = 0) (hs : s.memOk) : PageZeroed (x.a.toNat + 4096 * x.steps) s t := by
  obtain ⟨hzero, hother⟩ := zeroPage_zeroed (pa := x.a.toNat + 4096 * x.steps) (by omega) hs
  have hmem := h.mem
  have hl2 := h.l2
  rw [scrubWork_page hkind] at hmem hl2
  refine ⟨?_, ?_⟩
  · unfold l2Get at *
    rw [hmem, hl2]
    exact hzero
  · rw [hmem]
    exact hother

theorem Stepped.cleared (hkind : x.kind = 0) (hsteps : x.steps = 0) (hmore : nextDone s w ≠ vget s.scrub.total w.toNat 0) :
    t.core (coreOf x.a.toNat) = clearNonLedge (s.core (coreOf x.a.toNat)) := by
  obtain ⟨-, -, hcores⟩ := h.more hmore
  rw [hsteps, scrubWork_core hkind] at hcores
  rw [State.core, hcores, ← State.core, State.core_modCore_same]

theorem Stepped.rows (hkind : x.kind = 0) (hmask : x.b.extractLsb' 0 16 = 1) (hsteps : x.steps = 1) (hrows : x.b.extractLsb' 16 10 = 31) (a : Nat) :
    sget 0 (t.core (coreOf x.a.toNat)).scratch a = if a < 4096 then 0 else sget 0 (s.core (coreOf x.a.toNat)).scratch a := by
  rw [h.scratch, hsteps, scrubWork_rows hkind Nat.one_ne_zero, stepRows_first hmask hrows]
  exact sget_zeroRows _ 32 s a

end Kinds

end Sys2Proof.Proofs.Scrubs
end

section
/-! PROOFS. The events of APs, invalidates, scrubs and worlds (O45). -/

namespace Sys2Proof.Proofs.DeviceEvents

open Sys2Proof Sys2Proof.Machine
open Sys2Proof.Proofs.Acts (done_of_regq)
open Sys2Proof.Proofs.Records
open Sys2Proof.Proofs.Invalidates
open Sys2Proof.Proofs.Scrubs

/-- A step of a world whose one scrub is not finished, by the kind of the scrub. -/
theorem scrubStep_steps {s : State} {w : World} {x : Scrub} (hregq : s.regq = []) (hlist : s.scrub.list = [x]) (hw : x.world = w)
    (hlt : x.steps < scrubSteps x) : Stepped x w s (stepScrub w s) ∧ exec (.scrubStep w) s = .next (stepScrub w s) := by
  have h := stepScrub_stepped hlist hw hlt
  exact ⟨h, done_of_regq (h.regq.trans hregq)⟩

/-- Settles O45: each event by what it leaves of the AP, of the invalidate list, of the scrub engine or of the core. -/
theorem deviceEvents : Obligations.DeviceEvents := by
  unfold Obligations.DeviceEvents
  refine ⟨fun s c hregq => ⟨completionRecordEnqueue_waits hregq, fun y rest => completionRecordEnqueue_adds hregq⟩,
    fun s c d hregq => uirecRead_pops hregq d, fun s c hregq => uiEntry_by_readiness hregq, fun s c hregq => ?ueaddr,
    fun s v hregq hp => invctlGo_sets v hregq hp, fun s hregq hnone => ?noInval, fun s v rest hregq hv hfrom hsent => ?inval,
    fun s w hregq => ⟨scrubStep_other hregq, fun x hlist _ hw hlt => ?scrub⟩,
    fun s c v hregq hp => ⟨cwreq_refused v hregq hp, cwreq_same v hregq hp, cwreq_moves v hregq hp, cwstatRead_clears hregq hp⟩⟩
  case ueaddr => exact done_of_regq hregq
  case noInval =>
    have hstep : stepInval s = s := by simp only [stepInval, hnone]
    exact (congrArg done hstep).trans (done_of_regq hregq)
  case inval => exact invalidateAck_acts hregq hv hfrom hsent
  case scrub =>
    obtain ⟨h, hexec⟩ := scrubStep_steps hregq hlist hw hlt
    refine ⟨stepScrub w s, hexec, h.done, h.last, fun hmore => ?_, fun hkind ha hs => ?_, fun hkind hsteps hmore => ?_,
      fun hkind hmask hsteps hrows => ⟨fun a ha => ?_, fun a ha => ?_⟩⟩
    · obtain ⟨hactive, hlist', -⟩ := h.more hmore
      exact ⟨hactive, hlist'⟩
    · obtain ⟨hzero, hother⟩ := h.page hkind ha hs
      exact ⟨hzero, hother⟩
    · rw [h.cleared hkind hsteps hmore]
      exact ⟨rfl, rfl, rfl, rfl, rfl, rfl⟩
    · rw [h.rows hkind hmask hsteps hrows, if_pos ha]
    · rw [h.rows hkind hmask hsteps hrows, if_neg (by omega)]

end Sys2Proof.Proofs.DeviceEvents
end

section
/-! PROOFS. The queue words and `pref` (R142, R147, R148, R154): a place of a load queue, an entry of a store queue on its way to
memory, and a line that a face fetches. -/

namespace Sys2Proof.Proofs.QueueWords

open Sys2Proof Sys2Proof.Machine Sys2Proof.Claims
open Sys2Proof.Proofs.Acts (done_of_regq regq_of_issues)
open Sys2Proof.Proofs.Retire (onlyMemory_regq)
open Sys2Proof.Proofs.ScalarWords (lateReg_ready)
open Sys2Proof.Proofs.Device (length_bytesOfNat)
open Sys2Proof.Proofs.Loads (onlyMemory_l2Read)

section Words

variable {s : State} {c : CoreId} {e : Engine} {f : Fld}

/-- An untimed word whose plan is an access that brings bytes, here and where its stream has moved on. -/
theorem exec_got {i : Instr} {lates : List (Nat × Nat)} {g : State → Got} {use : List Byte → State → State} {l l' : List Byte}
    {t t' : State} (h : untimedGo s c e i = true) (hplan : planOf i (ctxOf s c e i) = planGot (ctxOf s c e i) lates g use)
    (hlates : lates = []) (hnow : g s = .bytes l' t') (hmoved : g (movedState s c e) = .bytes l t) :
    exec i s = .next (flushRegs (use l t)) := by
  obtain ⟨hl, hc, hft, hidle, hskip, hafter, hact⟩ := planGot_bytes (k := ctxOf s c e i) (use := use) hlates hnow
  rw [exec_untimed h _ hplan hl hc hft, hidle, hskip, hafter, id, ← movedState, hact _ _ _ hmoved]
  rfl

/-- The end of an untimed word that leaves no store on its way to a register. -/
theorem done_of_untimed {i : Instr} {t : State} (h : untimedGo s c e i = true) (ht : t.regq = s.regq) : done t = .next t :=
  done_of_regq (ht.trans (regq_of_issues (issues_of_untimedGo h)))

theorem lateFull_room {q : Nat} {i : Instr} (h : (vget (s.core c).vec.q q []).length < 4) : lateFull (ctxOf s c e i) q = [] :=
  if_neg (Nat.not_le.mpr h)

/-- Operands of a queue word that are there: its address register and a place in its load queue. -/
theorem lates_ready {i : Instr} (hr : regsReady s c e [f.a] = true) (hroom : (vget (s.core c).vec.q (lqNo f.d) []).length < 4) :
    lateReg (ctxOf s c e i) f.a ++ lateFull (ctxOf s c e i) (lqNo f.d) = [] := by
  rw [lateReg_ready hr (by simp), lateFull_room hroom]
  rfl

theorem exec_qld {l l' : List Byte} {t t' : State} (h : untimedGo s c e (.qld f) = true) (hr : regsReady s c e [f.a] = true)
    (hroom : (vget (s.core c).vec.q (lqNo f.d) []).length < 4) (hnow : loadGot c (effAddr s c e f / 128 * 128) 4096 s = .bytes l' t')
    (hmoved : loadGot c (effAddr s c e f / 128 * 128) 4096 (movedState s c e) = .bytes l t) :
    exec (.qld f) s = .next (flushRegs (t.modCore c (pushLq (lqNo f.d)
      { img := bvOfBytes 32768 l, pending := some (queuePieces c (effAddr s c e f / 128 * 128) s) }))) :=
  exec_got h rfl (lates_ready hr hroom) hnow hmoved

theorem exec_tok (h : untimedGo s c e (.tok f) = true) (hr : regsReady s c e [f.a] = true)
    (hroom : (vget (s.core c).vec.q (lqNo f.d) []).length < 4) :
    exec (.tok f) s = .next (coreNext s c e (pushLq (lqNo f.d) { img := (readReg (s.core c) e f.a).setWidth 32768, pending := none })) :=
  exec_plain (issues_of_untimedGo h) rfl rfl (lates_ready hr hroom) fun _ => ⟨rfl, rfl, rfl⟩

/-! ### Stores of 4 KiB (R147) -/

/-- A range that translates takes no fault. -/
theorem rangeFault_none {k : Ctx} {va n : Nat} {acc : Access} {ps : List Piece} {t : State} (h : translates k.s k.c va n acc ps t) :
    rangeFault k va n acc = none := by
  unfold translates at h
  rw [rangeFault, h]

theorem issueStore_translated {va n : Nat} {wq : Option (Fin 4)} {l : List Byte} {ps : List Piece} {t : State} (hl : l.length = n)
    (h : translates s c va n .write ps t) :
    issueStore c va false wq l s = t.modCore c (pushStores (storeOps (t.core c) wq ps l)) := by
  unfold translates at h
  simp only [issueStore, hl, h, Bool.false_eq_true, if_false]
  rfl

/-- The plan of a `qst` of a visible entry whose range translates. -/
theorem planQst_ready {x : SqEntry} {l : List Byte} {ps : List Piece} {t : State} (hr : regsReady s c e [f.a] = true)
    (hx : visibleEntry (s.core c) (sqNo f.b) = some x) (hl : bytesOfNat 4096 x.img.toNat = l)
    (htr : translates s c (effAddr s c e f / 128 * 128) 4096 .write ps t) :
    planOf (.qst f) (ctxOf s c e (.qst f)) =
      { wait := rangeNote (ctxOf s c e (.qst f)) (effAddr s c e f / 128 * 128) 4096 .write
        act := issueStore c (effAddr s c e f / 128 * 128) false (some (Fin.ofNat 4 (sqNo f.b))) l } := by
  have hentry : visibleEntry (ctxOf s c e (.qst f)).core (sqNo f.b) = some x := hx
  have haddr : eaQueue (ctxOf s c e (.qst f)) f = effAddr s c e f / 128 * 128 := rfl
  have hfault : rangeFault (ctxOf s c e (.qst f)) (effAddr s c e f / 128 * 128) 4096 .write = none := rangeFault_none htr
  have hlate : lateReg (ctxOf s c e (.qst f)) f.a = [] := lateReg_ready hr (by simp)
  change planQst f _ = _
  unfold planQst
  dsimp only
  rw [hentry, hlate, haddr, hfault]
  dsimp only
  rw [hl, if_pos (by simp)]
  rfl

theorem exec_qst {x : SqEntry} {ps ps' : List Piece} {t t' : State} (h : untimedGo s c e (.qst f) = true)
    (hr : regsReady s c e [f.a] = true) (hx : visibleEntry (s.core c) (sqNo f.b) = some x)
    (hnow : translates s c (effAddr s c e f / 128 * 128) 4096 .write ps' t')
    (hmoved : translates (movedState s c e) c (effAddr s c e f / 128 * 128) 4096 .write ps t) :
    exec (.qst f) s = .next (t.modCore c (pushStores (storeOps (t.core c) (some (Fin.ofNat 4 (sqNo f.b))) ps
      (bytesOfNat 4096 x.img.toNat)))) := by
  obtain ⟨-, -, -, hregq⟩ := (translateRange_filled hmoved).mem
  have hlen := length_bytesOfNat 4096 x.img.toNat
  generalize hl : bytesOfNat 4096 x.img.toNat = l at hlen ⊢
  rw [exec_untimed h _ (planQst_ready hr hx hl hnow) rfl rfl rfl]
  refine (congrArg done (issueStore_translated hlen hmoved)).trans ?_
  exact done_of_untimed h hregq

/-! ### Prefetches (R148) -/

theorem exec_pref (h : untimedGo s c e (.pref f) = true) (hr : regsReady s c e [f.a] = true) :
    exec (.pref f) s = done (prefetch c (effAddr s c e f) (movedState s c e)) := by
  have hplan : planOf (.pref f) (ctxOf s c e (.pref f)) = { act := prefetch c (effAddr s c e f) } := by
    change planPref f _ = _
    rw [planPref, lateReg_ready hr (List.mem_singleton.mpr rfl)]
    rfl
  exact exec_untimed h _ hplan rfl rfl rfl

theorem prefetch_line {va : Nat} {p : Piece} {r : List Piece} {t : State} (htr : translates s c va 1 .read (p :: r) t) (hlen : p.len = 1)
    (hin : inHbm p.pa 1 = true) : prefetch c va s = (l2Read t c.face (t.core c).csr.world (p.pa / 128)).2.2 := by
  have hpa : pieceAddr (p :: r) 0 = p.pa := by simp [pieceAddr, hlen]
  unfold translates at htr
  simp only [prefetch, htr, hpa, hin, if_true]

theorem prefetch_untranslated {va : Nat} {x : WalkFault} (h : translateRange s c va 1 .read = .error x) : prefetch c va s = s := by
  simp only [prefetch, h]

end Words

/-- Settles O21: `qld` by the bytes that its load brings, `tok` by its one push, `qst` and `pref` by their translations. -/
theorem queueWordResult : Obligations.QueueWordResult := by
  unfold Obligations.QueueWordResult
  refine fun s c e f => ⟨fun l t h hr hroom ⟨l', t', hnow⟩ hmoved => exec_qld h hr hroom hnow hmoved, exec_tok,
    fun x ps t h hr hx ⟨ps', t', hnow⟩ hmoved => exec_qst h hr hx hnow hmoved,
    fun h hr => ⟨fun p r t htr hlen hin => ?fetched, fun x hx => ?untranslated⟩⟩
  case fetched =>
    obtain ⟨-, -, -, hregq⟩ := (translateRange_filled htr).mem
    rw [exec_pref h hr, prefetch_line htr hlen hin]
    exact done_of_untimed h ((onlyMemory_regq onlyMemory_l2Read).trans hregq)
  case untranslated =>
    rw [exec_pref h hr, prefetch_untranslated hx]
    exact done_of_untimed h rfl

end Sys2Proof.Proofs.QueueWords
end

section
/-! PROOFS. The stream of a dense .i8 tensor that is copied without conversion is its bytes (R163-R165, R212, R215). -/

namespace Sys2Proof.Proofs.DenseCopies

open Sys2Proof Sys2Proof.Machine
open Sys2Proof.Proofs.Device (length_bytesOfNat)

/-! ### Bytes and their number -/

theorem bytesOfNat_natOfBytes (l : List Byte) : bytesOfNat l.length (natOfBytes l) = l := by
  induction l with
  | nil => rfl
  | cons b r ih =>
    have hlow : BitVec.ofNat 8 (b.toNat + 256 * natOfBytes r) = b := BitVec.eq_of_toNat_eq (by simp; omega)
    have hhigh : (b.toNat + 256 * natOfBytes r) / 256 = natOfBytes r := by omega
    rw [List.length_cons, natOfBytes, bytesOfNat, hlow, hhigh, ih]

theorem unpackNat_natOfBytes (l : List Byte) : unpackNat 8 l.length (natOfBytes l) = l.map BitVec.toNat := by
  induction l with
  | nil => rfl
  | cons b r ih =>
    have hlow : (b.toNat + 256 * natOfBytes r) % 2 ^ 8 = b.toNat := by omega
    have hhigh : (b.toNat + 256 * natOfBytes r) / 2 ^ 8 = natOfBytes r := by omega
    rw [List.length_cons, natOfBytes, unpackNat, hlow, hhigh, ih, List.map_cons]

theorem packNat_toNat (l : List Byte) : packNat 8 (l.map BitVec.toNat) = natOfBytes l := by
  induction l with
  | nil => rfl
  | cons b r ih =>
    rw [List.map_cons, packNat, ih, natOfBytes, Nat.mod_eq_of_lt b.isLt]
    rfl

/-! ### Conversion of .i8 to itself (R212, R215) -/

/-- The code of the type .i8 (R65). -/
def i8 : Nat := 8

/-- An .i8 element converts to itself, unsaturated. -/
theorem convVal_i8 : ∀ x < 256, convVal i8 (elemVal i8 x) = (x, 0) := by decide +kernel

section Tensor

variable {g : Geo} {l : List Byte}

theorem readTensor_codes (hl : l.length = g.nrow * g.ncol) : (readTensor i8 g (l.map some)).codes = (l.map BitVec.toNat).toArray := by
  have hplain : (l.map some).map (fun b => b.getD 0) = l := by simp
  have hbits : typeBits i8 = 8 := rfl
  simp only [readTensor, hplain, hbits, ← hl, unpackNat_natOfBytes]

/-- No element comes from a failed byte. -/
theorem readTensor_bad (i : Nat) : (readTensor i8 g (l.map some)).bad.getD i false = false := by
  have hashlar : isAshlar i8 = false := rfl
  simp only [readTensor, hashlar]
  by_cases hi : i < g.nrow * g.ncol <;> simp [hi]

/-- The tensor that whole bytes hold, converted to its own type. -/
theorem convert_i8 (hl : l.length = g.nrow * g.ncol) :
    convertTensor i8 i8 g (readTensor i8 g (l.map some)) = { codes := (l.map BitVec.toNat).toArray, scales := #[], sat := 0, spread := 0 } := by
  have hashlar : isAshlar i8 = false := rfl
  have helem (i : Nat) (hi : i < l.length) : convVal i8 (elemVal i8 ((l.map BitVec.toNat).toArray.getD i 0)) = (l[i].toNat, 0) := by
    have hget : (l.map BitVec.toNat).toArray.getD i 0 = l[i].toNat := by simp [hi]
    rw [hget, convVal_i8 _ l[i].isLt]
  have hall : ((List.range l.length).map fun i => convVal i8 (elemVal i8 ((l.map BitVec.toNat).toArray.getD i 0))) =
      l.map fun b => (b.toNat, 0) :=
    List.ext_getElem (by simp) fun i hi hi' => by rw [List.getElem_map, List.getElem_map, List.getElem_range, helem]
  simp only [convertTensor, convertPlain, tensorVal, hashlar, readTensor_codes hl, readTensor_bad, Bool.false_eq_true, if_false, ← hl, hall]
  simp [Function.comp_def]

/-- The stream that a copy of whole bytes writes is those bytes. -/
theorem copyStream_i8 (hl : l.length = g.nrow * g.ncol) :
    copyStream i8 false g (convertTensor i8 i8 g (readTensor i8 g (l.map some))) = l := by
  have hashlar : isAshlar i8 = false := rfl
  have hbits : typeBits i8 = 8 := rfl
  have hmant : mantBytes i8 g = l.length := by rw [mantBytes, hbits, ← hl]; omega
  rw [convert_i8 hl]
  simp only [copyStream, elementMajor, hashlar, hmant, hbits, packNat_toNat, bytesOfNat_natOfBytes, Bool.false_eq_true, if_false]

end Tensor

theorem denseSize_i8 (g : Geo) : denseSize i8 g = g.nrow * g.ncol := by
  have hashlar : isAshlar i8 = false := rfl
  have hbits : typeBits i8 = 8 := rfl
  rw [denseSize, hashlar, if_neg (by decide), mantBytes, hbits]
  omega

theorem badShape_i8 {g : Geo} (hrow : g.nrow ≠ 0) (hcol : g.ncol ≠ 0) (hstride : g.stride = 0) : badShape i8 i8 i8 false g = false := by
  have hashlar : isAshlar i8 = false := rfl
  have hbits : typeBits i8 = 8 := rfl
  have hlayout : badLayout i8 g = false := by simp [badLayout, hashlar, hbits]
  simp [badShape, hrow, hcol, hstride, hlayout]

/-! ### Copies of such tensors (R163, R165) -/

/-- A copy of a dense .i8 tensor to the same type, through no program and not to planes. -/
structure PlainCopy (k : Command) : Prop where
  src : copySt k = i8
  dst : copyDt k = i8
  planes : cmdImm k 24 1 = 0
  unbound : cmdImm k 16 4 = 0
  rows : (copyGeo k).nrow ≠ 0
  cols : (copyGeo k).ncol ≠ 0
  dense : (copyGeo k).stride = 0

/-- The length of the stream of a dense .i8 copy. -/
def copyLen (k : Command) : Nat := (copyGeo k).nrow * (copyGeo k).ncol

/-- The counts of a copy that saturates nothing leave CVTSTAT as it is. -/
theorem addCvt_zero (x : Core) : addCvt 0 0 x = x := by
  have hhi : bitsN x.csr.cvtstat.toNat 32 32 < 2 ^ 32 := Nat.mod_lt _ (by decide)
  have hlo : bitsN x.csr.cvtstat.toNat 0 32 < 2 ^ 32 := Nat.mod_lt _ (by decide)
  have hsplit : bitsN x.csr.cvtstat.toNat 0 32 + 2 ^ 32 * bitsN x.csr.cvtstat.toNat 32 32 = x.csr.cvtstat.toNat := by
    have hlt := x.csr.cvtstat.isLt
    simp only [bitsN] at *
    omega
  simp only [addCvt, cap32, Nat.add_zero]
  rw [Nat.min_eq_left (by omega), Nat.min_eq_left (by omega), hsplit, BitVec.ofNat_toNat, BitVec.setWidth_eq]

theorem boundProgram_none (k : Command) (size : Nat) : boundProgram k 0 size = .ok none := rfl

/-- A copy whose bytes are all sound and of which nothing is discarded. -/
theorem copyEnd_sound (k : Command) {x : Converted} (hsat : x.sat = 0) (hspread : x.spread = 0) (l : List Byte) :
    copyEnd k x (l.map some) false = ends 0 0 := by
  have hfind : (l.map some).findIdx? (fun b => b.isNone) = none := by simp
  simp [copyEnd, hfind, hsat, hspread, cap32]

end Sys2Proof.Proofs.DenseCopies
end

section
/-! PROOFS. Bytes that an untimed engine writes to HBM, where its face holds no line and nothing is poisoned (R181, R182, R316). -/

namespace Sys2Proof.Proofs.EngineWrites

open Sys2Proof Sys2Proof.Machine
open Sys2Proof.Proofs.Device (onlyMemory_keys claimLine_key rowByte_hbmRow)
open Sys2Proof.Proofs.Loads (outside_of_inHbm seesByte_hbm)

/-- A face that holds no line, over memory in canonical form without poison. -/
structure Bare (f : Fin 4) (s : State) : Prop where
  noCopy : ∀ line, l2Get s f line = none
  noPoison : s.mem.poison = []
  ok : s.memOk

/-- Two states that differ in memory, the faces and the lines that APs hold. -/
structure HeldFrame (s t : State) : Prop where
  rest : t = { s with mem := t.mem, l2 := t.l2, cores := t.cores }
  core : ∀ d, dropHeldLines (t.core d) = dropHeldLines (s.core d)

theorem HeldFrame.refl (s : State) : HeldFrame s s := ⟨rfl, fun _ => rfl⟩

theorem HeldFrame.trans {s t u : State} (h : HeldFrame s t) (h' : HeldFrame t u) : HeldFrame s u :=
  ⟨by rw [h'.rest, h.rest], fun d => (h'.core d).trans (h.core d)⟩

theorem HeldFrame.of_onlyMemory {s t : State} (h : OnlyMemory s t) : HeldFrame s t :=
  ⟨by rw [h], fun d => by rw [h.core]⟩

theorem heldFrame_dropHeld (f : Fin 4) (line : Nat) (s : State) : HeldFrame s (dropHeld f line s) := by
  refine ⟨rfl, fun d => ?_⟩
  simp only [dropHeld, State.core, Fin.getElem_fin, Vector.getElem_mapFinIdx]
  split <;> rfl

/-! ### One byte -/

section Byte

variable {f : Fin 4} {v : World} {s : State} (h : Bare f s) {a : Nat} (b : Byte) (hin : inHbm a 1 = true)
include h hin

/-- A byte written where the face holds no copy goes to the HBM controller, and out of the lines that the APs hold. -/
theorem enginePut_bare : enginePut f v a b s = dropHeld f (a / 128) (hbmPut v [(a, b)] s) := by
  obtain ⟨-, hhost⟩ := outside_of_inHbm hin
  have hput : l2Get (hbmPut v [(a, b)] s) f (a / 128) = none := by
    rw [l2Get, hbmPut_l2]
    exact h.noCopy _
  simp only [enginePut, hhost, hin, h.noCopy, hput, Bool.false_eq_true, if_false, if_true]

theorem heldFrame_enginePut : HeldFrame s (enginePut f v a b s) := by
  rw [enginePut_bare h b hin]
  exact (HeldFrame.of_onlyMemory (onlyMemory_hbmPut v _ s)).trans (heldFrame_dropHeld f _ _)

theorem bare_enginePut : Bare f (enginePut f v a b s) := by
  have hstore : (hbmStore v [(a, b)] s).mem.poison = s.mem.poison := by
    simp only [hbmStore, claimLine]
    split <;> rfl
  refine ⟨fun line => ?_, ?_, memOk_enginePut f v a b s h.ok⟩
  · rw [enginePut_bare h b hin]
    exact (congrArg (fun y : Vector (Sparse (Option L2Line)) 4 => sget none y[f] line) (hbmPut_l2 v [(a, b)] s)).trans (h.noCopy line)
  · rw [enginePut_bare h b hin]
    exact (congrArg (List.filter _) (hstore.trans h.noPoison)).trans rfl

theorem lineAgree_enginePut {line : Nat} (hline : a / 128 ≠ line) : LineAgree line s (enginePut f v a b s) := by
  have hput : LineAgree line s (hbmPut v [(a, b)] s) := lineAgree_hbmPut line v _ s (by simpa using hline)
  rw [enginePut_bare h b hin]
  exact ⟨hput.keys, hput.bytes, hput.key, hput.poison, hput.held, hput.host⟩

end Byte

/-- A byte of HBM that stands under the keys of a world. -/
structure HbmByte (v : World) (s : State) (x : Nat) (b : Byte) : Prop where
  key : sget 0 s.mem.lineKey (x / 128) = keyNum s v
  byte : sget 0 s.mem.hbm x = b

section Holds

variable {f : Fin 4} {v : World} {s : State} (h : Bare f s) {a : Nat} {b : Byte} (hin : inHbm a 1 = true)
include h

/-- Such a byte is what the engines of the face read for that world. -/
theorem HbmByte.sees (hb : HbmByte v s a b) (hin : inHbm a 1 = true) : seesByte s f v a = some b := by
  have hline : hbmLineFor s v (a / 128) = (hbmRow s (a / 128), false) := if_pos hb.key
  have hsound : hbmBad s (a / 128) = 0 := by simp [hbmBad, h.noPoison]
  refine (seesByte_hbm hin).mpr ?_
  simp only [lineForEngine, h.noCopy, hline, hsound, rowByte_hbmRow, hb.byte]
  simp

include hin

theorem enginePut_mem : (enginePut f v a b s).mem.hbm = sput 0 (claimLine s v (a / 128)).mem.hbm a b ∧
    (enginePut f v a b s).mem.lineKey = (claimLine s v (a / 128)).mem.lineKey ∧ (enginePut f v a b s).keys = s.keys := by
  rw [enginePut_bare h b hin]
  exact ⟨rfl, rfl, hbmPut_keys v [(a, b)] s⟩

/-- The byte that has just been written. -/
theorem hbmByte_enginePut_same : HbmByte v (enginePut f v a b s) a b := by
  obtain ⟨hhbm, hkey, hkeys⟩ := enginePut_mem (v := v) (b := b) h hin
  refine ⟨?_, ?_⟩
  · rw [hkey, claimLine_key s v _ h.ok, keyNum, keyNum, hkeys]
  · rw [hhbm]
    exact sget_sput_same 0 _ a b ((Memory.wf_iff _).mp (memOk_claimLine s v _ h.ok).1).1

/-- Another byte that stands under the same keys already. -/
theorem hbmByte_enginePut_other {x : Nat} {y : Byte} (hx : HbmByte v s x y) (hne : x ≠ a) : HbmByte v (enginePut f v a b s) x y := by
  obtain ⟨hhbm, hkey, hkeys⟩ := enginePut_mem (v := v) (b := b) h hin
  have hclaim : sget 0 (claimLine s v (a / 128)).mem.lineKey (x / 128) = sget 0 s.mem.lineKey (x / 128) ∧
      sget 0 (claimLine s v (a / 128)).mem.hbm x = sget 0 s.mem.hbm x := by
    by_cases hline : a / 128 = x / 128
    · rw [hline, claimLine, if_pos hx.key]
      exact ⟨rfl, rfl⟩
    · have hagree := lineAgree_claimLine (x / 128) (a / 128) v s hline
      exact ⟨hagree.key, hagree.bytes x rfl⟩
  obtain ⟨hkey', hbyte'⟩ := hclaim
  refine ⟨?_, ?_⟩
  · rw [hkey, hkey', hx.key, keyNum, keyNum, hkeys]
  · rw [hhbm, sget_sput_other 0 _ a x b hne, hbyte', hx.byte]

end Holds

/-! ### A run of bytes -/

/-- Every cell of a list lies in HBM. -/
def CellsInHbm (cells : List Host.Cell) : Prop := ∀ x ∈ cells, inHbm x.1 1 = true

section Stores

variable {f : Fin 4} {v : World}

theorem engineStores_cons (a : Nat) (b : Byte) (r : List Host.Cell) (s : State) :
    engineStores f v ((a, b) :: r) s = engineStores f v r (enginePut f v a b s) := rfl

theorem bare_engineStores {cells : List Host.Cell} (hc : CellsInHbm cells) {s : State} (h : Bare f s) : Bare f (engineStores f v cells s) := by
  induction cells generalizing s with
  | nil => exact h
  | cons x r ih => exact ih (fun y hy => hc y (List.mem_cons_of_mem _ hy)) (bare_enginePut h x.2 (hc x List.mem_cons_self))

theorem heldFrame_engineStores {cells : List Host.Cell} (hc : CellsInHbm cells) {s : State} (h : Bare f s) :
    HeldFrame s (engineStores f v cells s) := by
  induction cells generalizing s with
  | nil => exact .refl s
  | cons x r ih =>
    have hin := hc x List.mem_cons_self
    exact (heldFrame_enginePut h x.2 hin).trans (ih (fun y hy => hc y (List.mem_cons_of_mem _ hy)) (bare_enginePut h x.2 hin))

theorem lineAgree_engineStores {cells : List Host.Cell} (hc : CellsInHbm cells) {line : Nat} (hline : ∀ x ∈ cells, x.1 / 128 ≠ line)
    {s : State} (h : Bare f s) : LineAgree line s (engineStores f v cells s) := by
  induction cells generalizing s with
  | nil => exact .refl line s
  | cons x r ih =>
    have hin := hc x List.mem_cons_self
    exact (lineAgree_enginePut h x.2 hin (hline x List.mem_cons_self)).trans
      (ih (fun y hy => hc y (List.mem_cons_of_mem _ hy)) (fun y hy => hline y (List.mem_cons_of_mem _ hy)) (bare_enginePut h x.2 hin))

theorem hbmByte_engineStores_other {cells : List Host.Cell} (hc : CellsInHbm cells) {x : Nat} {y : Byte} (hne : ∀ z ∈ cells, x ≠ z.1)
    {s : State} (h : Bare f s) (hx : HbmByte v s x y) : HbmByte v (engineStores f v cells s) x y := by
  induction cells generalizing s with
  | nil => exact hx
  | cons z r ih =>
    have hin := hc z List.mem_cons_self
    exact ih (fun w hw => hc w (List.mem_cons_of_mem _ hw)) (fun w hw => hne w (List.mem_cons_of_mem _ hw)) (bare_enginePut h z.2 hin)
      (hbmByte_enginePut_other h hin hx (hne z List.mem_cons_self))

theorem cellsAt_cons (a : Nat) (b : Byte) (r : List Byte) : cellsAt a (b :: r) = (a, b) :: cellsAt (a + 1) r := by
  have hshift : ((a + ·) ∘ Nat.succ) = (a + 1 + ·) := by
    funext i
    simp only [Function.comp_apply]
    omega
  rw [cellsAt, List.length_cons, List.range_succ_eq_map, List.map_cons, List.map_map, hshift]
  rfl

theorem mem_cellsAt {a : Nat} {l : List Byte} {x : Host.Cell} (hx : x ∈ cellsAt a l) : a ≤ x.1 ∧ x.1 < a + l.length := by
  obtain ⟨i, hi, he⟩ := List.mem_map.mp (List.of_mem_zip (a := x.1) (b := x.2) hx).1
  have hlt := List.mem_range.mp hi
  omega

theorem cellsInHbm_cellsAt {a : Nat} {l : List Byte} (h : inHbm a l.length = true) : CellsInHbm (cellsAt a l) := by
  intro x hx
  have hbound := mem_cellsAt hx
  have hend := of_decide_eq_true h
  exact decide_eq_true (by omega)

theorem hbmByte_engineStores {a : Nat} {l : List Byte} (hc : CellsInHbm (cellsAt a l)) {s : State} (h : Bare f s) {i : Nat}
    (hi : i < l.length) : HbmByte v (engineStores f v (cellsAt a l) s) (a + i) (l.getD i 0) := by
  induction l generalizing a s i with
  | nil => exact absurd hi (Nat.not_lt_zero i)
  | cons b r ih =>
    rw [cellsAt_cons] at hc ⊢
    have hin : inHbm a 1 = true := hc (a, b) List.mem_cons_self
    have hc' : CellsInHbm (cellsAt (a + 1) r) := fun y hy => hc y (List.mem_cons_of_mem _ hy)
    have hbare : Bare f (enginePut f v a b s) := bare_enginePut h b hin
    rw [engineStores_cons]
    cases i with
    | zero =>
      refine hbmByte_engineStores_other hc' (fun z hz => ?_) hbare (hbmByte_enginePut_same h hin)
      have hlo := (mem_cellsAt hz).1
      omega
    | succ i =>
      have hnext := ih hc' hbare (i := i) (by simpa using hi)
      rw [List.getD_cons_succ, show a + (i + 1) = a + 1 + i by omega]
      exact hnext

/-! ### A write of a command's engine (R316, R441) -/

theorem clearPoison_bare {s : State} (h : Bare f s) (cells : List Host.Cell) : clearPoison cells s = s := by
  have hp : s.mem.poison.filter (fun e => !coversUnit cells e.1) = s.mem.poison := by rw [h.noPoison]; rfl
  rw [clearPoison, hp]

/-- Where the face holds nothing, no copy has to be made sound. -/
theorem enginePuts_bare {cells : List Host.Cell} (hc : CellsInHbm cells) {s : State} (h : Bare f s) :
    enginePuts f v cells s = engineStores f v cells s := by
  have hbare : Bare f (engineStores f v cells s) := bare_engineStores hc h
  have hsound (line : Nat) (dev : List Host.Cell) : soundLine f dev (engineStores f v cells s) line = engineStores f v cells s := by
    simp only [soundLine, hbare.noCopy]
  simp only [enginePuts, clearPoison_bare hbare]
  exact List.foldl_fixed' (fun line => hsound line _) _

end Stores

/-! ### Writing nothing -/

/-- A table in canonical form is not changed by what it holds already. -/
theorem sput_sget {α : Type} [DecidableEq α] (d : α) {m : Sparse α} {lo : Nat} (h : swfFrom d lo m = true) (x : Nat) :
    sput d m x (sget d m x) = m := by
  induction m generalizing lo with
  | nil => simp [sput]
  | cons e r ih =>
    obtain ⟨k, w⟩ := e
    simp only [swfFrom, Bool.and_eq_true, decide_eq_true_eq, Bool.not_eq_true', decide_eq_false_iff_not] at h
    obtain ⟨⟨hlo, hw⟩, hr⟩ := h
    rcases lt_trichotomy x k with hlt | heq | hgt
    · have hget : sget d ((k, w) :: r) x = d := by
        rw [sget, if_neg (by omega)]
        exact sget_below d r (k + 1) x hr (by omega)
      rw [hget, sput, if_pos hlt, if_pos rfl]
    · subst heq
      rw [sget, if_pos rfl, sput, if_neg (lt_irrefl x), if_pos rfl, if_neg hw]
    · rw [sget, if_neg (by omega), sput, if_neg (by omega), if_neg (by omega), ih hr]

theorem l2Put_l2Get {s : State} (h : s.memOk) (f : Fin 4) (line : Nat) : l2Put s f line (l2Get s f line) = s := by
  have hself : sput none s.l2[f] line (l2Get s f line) = s.l2[f] := sput_sget none (h.2 f) line
  rw [l2Put, hself]
  simp

theorem coversUnit_nil (u : Nat) : coversUnit [] u = false := rfl

theorem soundLine_nil {s : State} (h : s.memOk) (f : Fin 4) (line : Nat) : soundLine f [] s line = s := by
  cases hget : l2Get s f line with
  | none => simp only [soundLine, hget]
  | some x =>
    have hbad : x.bad &&& ~~~(BitVec.ofBool (coversUnit [] (2 * line + 1)) ++ BitVec.ofBool (coversUnit [] (2 * line))) = x.bad := by
      rw [coversUnit_nil, coversUnit_nil]
      exact BitVec.and_allOnes
    simp only [soundLine, hget, hbad]
    rw [← hget]
    exact l2Put_l2Get h f line

/-- A write of no bytes changes nothing. -/
theorem enginePuts_nil {s : State} (h : s.memOk) (f : Fin 4) (v : World) : enginePuts f v [] s = s := by
  have hclear : clearPoison [] s = s := by
    have hp : s.mem.poison.filter (fun e => !coversUnit [] e.1) = s.mem.poison :=
      List.filter_eq_self.mpr fun e _ => by rw [coversUnit_nil]; rfl
    rw [clearPoison, hp]
  simp only [enginePuts, List.filter_nil, engineStores, hclear]
  exact List.foldl_fixed' (fun line => soundLine_nil h f line) _

/-! ### The target of a command -/

section Target

variable {c : CoreId} {k : Command} {s : State} {p : Piece} {l : List Byte}

theorem pieceShut_hbm {pa : Nat} (hz : s.keys.zeroed.getLsbD k.world.toNat = false) (hin : inHbm pa 1 = true) :
    pieceShut s c k.world pa = false := by
  obtain ⟨-, hhost⟩ := outside_of_inHbm hin
  rw [pieceShut, hz, hhost]
  rfl

/-- The bytes of a stream at their places in a target of one part. -/
theorem map_placed (hp : p.len = l.length) : (placed none l).map (fun x => (pieceAddr [p] x.1, x.2)) = cellsAt p.pa l := by
  have haddr : (List.range l.length).map (pieceAddr [p]) = (List.range l.length).map (p.pa + ·) :=
    List.map_congr_left fun i hi => if_pos (by rw [hp]; exact List.mem_range.mp hi)
  rw [cellsAt, ← haddr]
  exact (List.zip_map_left (l₁ := List.range l.length) (l₂ := l) (f := pieceAddr [p])).symm

/-- A stream written to a target of one part in HBM. -/
theorem writeTarget_one (ht : targetOf k = [p]) (hp : p.len = l.length) (hz : s.keys.zeroed.getLsbD k.world.toNat = false)
    (hin : inHbm p.pa l.length = true) :
    writeTarget c k (placed none l) s = (enginePuts c.face k.world (cellsAt p.pa l) s, false) := by
  have hc : CellsInHbm (cellsAt p.pa l) := cellsInHbm_cellsAt hin
  have hhost (x : Host.Cell) (hx : x ∈ cellsAt p.pa l) : inHost x.1 = false := (outside_of_inHbm (hc x hx)).2
  have hkeep : (cellsAt p.pa l).filter (fun x => !pieceShut s c k.world x.1) = cellsAt p.pa l :=
    List.filter_eq_self.mpr fun x hx => by rw [pieceShut_hbm hz (hc x hx)]; rfl
  have hdevice : (cellsAt p.pa l).filter (fun x => !inHost x.1) = cellsAt p.pa l :=
    List.filter_eq_self.mpr fun x hx => by rw [hhost x hx]; rfl
  have hnone : (cellsAt p.pa l).filter (fun x => inHost x.1) = [] :=
    List.filter_eq_nil_iff.mpr fun x hx => by rw [hhost x hx]; exact Bool.false_ne_true
  simp only [writeTarget, ht, map_placed hp, hkeep, hdevice, hnone, cellRuns, List.foldl_nil]
  simp

/-- An empty stream is written nowhere. -/
theorem writeTarget_nil (h : s.memOk) : writeTarget c k (placed none []) s = (s, false) := by
  simp only [writeTarget, placed, List.length_nil, List.range_zero, List.zip_nil_left, List.map_nil, List.filter_nil, cellRuns,
    List.foldl_nil, enginePuts_nil h]
  simp

end Target

end Sys2Proof.Proofs.EngineWrites
end

section
/-! PROOFS. Copies, gathers and scatters from their dispatch to their end (R138, R161, R163-R165, R169). -/

namespace Sys2Proof.Proofs.CopyRuns

open Sys2Proof Sys2Proof.Machine
open Sys2Proof.Proofs.Acts (done_of_regq)
open Sys2Proof.Proofs.CommandEnds
open Sys2Proof.Proofs.CommandEffects (badLedge_clean spadSeen_clean)
open Sys2Proof.Proofs.CommandRuns (sourceData_withOut)
open Sys2Proof.Proofs.DenseCopies Sys2Proof.Proofs.EngineWrites

/-! ### What a completion depends on (R161) -/

/-- An operation on the scalar state of a core, by the scalar state alone. -/
def ScalOp (g : Core → Core) : Prop := ∀ x y : Core, g { y with scal := x.scal } = { y with scal := (g x).scal }

theorem ScalOp.comp {g h : Core → Core} (hg : ScalOp g) (hh : ScalOp h) : ScalOp fun x => h (g x) := fun x y =>
  (congrArg h (hg x y)).trans (hh (g x) y)

theorem ScalOp.congr {g : Core → Core} (hg : ScalOp g) {x y : Core} (h : y.scal = x.scal) : (g y).scal = (g x).scal := by
  have hy : g y = { y with scal := (g x).scal } := by rw [← hg x y, ← h]
  exact (congrArg Core.scal hy :)

theorem scalOp_markPending (ap hnd intr : Bool) (d : RegCode) (b : Bool) : ScalOp (markPending ap hnd intr d b) := by
  intro x y
  unfold markPending
  dsimp only
  split
  · split <;> rfl
  · split
    · rfl
    · split <;> rfl

theorem scalOp_writeS (hnd : Bool) (i : Nat) (v : W64) : ScalOp (writeS hnd i v) := by
  intro x y
  unfold writeS
  split
  · rfl
  · split <;> rfl

theorem scalOp_writeA (intr : Bool) (i : Nat) (v : W64) : ScalOp (writeA intr i v) := by
  intro x y
  unfold writeA
  split <;> rfl

theorem scalOp_writeSlot (hnd : Bool) (i : Nat) (b : Bool) : ScalOp (writeSlot hnd i b) := by
  intro x y
  unfold writeSlot
  split <;> rfl

theorem scalOp_writeReply (ap hnd intr : Bool) (d : RegCode) (v : W64) : ScalOp (writeReply ap hnd intr d v) := by
  intro x y
  unfold writeReply
  split
  · rfl
  · split
    · exact scalOp_writeSlot hnd _ _ x y
    · cases ap
      · exact (scalOp_markPending false hnd intr d false).comp (scalOp_writeS hnd _ v) x y
      · exact (scalOp_markPending true hnd intr d false).comp (scalOp_writeA intr _ v) x y

/-- Two cores with the same scalar state, and the same AP but for the lines that it holds. -/
structure SameDone (x y : Core) : Prop where
  scal : y.scal = x.scal
  ap : { y.ap with held := [] } = { x.ap with held := [] }

/-- A completion does to such cores the same. -/
theorem SameDone.completeOn {x y : Core} (h : SameDone x y) (k : Command) {status : Nat} (hst : status < 256) (v : W64) :
    SameDone (completeOn k status v x) (completeOn k status v y) := by
  have huien : y.ap.uien = x.ap.uien := (congrArg ApState.uien h.ap :)
  have hdone : y.ap.heldDone = x.ap.heldDone := (congrArg ApState.heldDone h.ap :)
  have hreply (ap hnd intr : Bool) {x' y' : Core} (hx : x'.scal = x.scal ∧ x'.ap = x.ap) (hy : y'.scal = y.scal ∧ y'.ap = y.ap) :
      SameDone (writeReply ap hnd intr k.d v x') (writeReply ap hnd intr k.d v y') := by
    refine ⟨(scalOp_writeReply ap hnd intr k.d v).congr (by rw [hy.1, hx.1, h.scal]), ?_⟩
    rw [(sameUnits_writeReply ap hnd intr k.d v x').2, (sameUnits_writeReply ap hnd intr k.d v y').2, hx.2, hy.2, h.ap]
  cases hsrc : k.src with
  | lead =>
    rw [completeOn_lead status v x hsrc, completeOn_lead status v y hsrc]
    exact hreply _ _ _ ⟨rfl, rfl⟩ ⟨rfl, rfl⟩
  | ap =>
    cases hu : x.ap.uien with
    | false =>
      rw [completeOn_ap_open status v x hsrc hu, completeOn_ap_open status v y hsrc (huien.trans hu)]
      exact hreply _ _ _ ⟨rfl, rfl⟩ ⟨rfl, rfl⟩
    | true =>
      rw [completeOn_ap_held status v x hsrc hu hst, completeOn_ap_held status v y hsrc (huien.trans hu) hst, hdone]
      generalize x.ap.heldDone ++ _ = later
      exact ⟨h.scal, (congrArg (fun a : ApState => { a with heldDone := later }) h.ap :)⟩

/-- A completion leaves the lines that the AP holds. -/
theorem completeOn_held (k : Command) {status : Nat} (hst : status < 256) (v : W64) (x : Core) :
    (completeOn k status v x).ap.held = x.ap.held := by
  have hreply (ap hnd intr : Bool) (y : Core) : (writeReply ap hnd intr k.d v y).ap.held = y.ap.held :=
    congrArg ApState.held (sameUnits_writeReply ap hnd intr k.d v y).2
  cases hsrc : k.src with
  | lead => rw [completeOn_lead status v x hsrc, hreply]
  | ap =>
    cases hu : x.ap.uien with
    | false => rw [completeOn_ap_open status v x hsrc hu, hreply]
    | true => rw [completeOn_ap_held status v x hsrc hu hst]

theorem sameDone_of_dropHeldLines {x y : Core} (h : dropHeldLines y = dropHeldLines x) : SameDone x y :=
  ⟨(congrArg Core.scal h :), (congrArg Core.ap h :)⟩

theorem sameDone_forgetCmd {x y : Core} (h : SameDone x y) (id : Nat) : SameDone x (forgetCmd id y) := ⟨h.scal, h.ap⟩

/-! ### A command that writes one part of memory -/

/-- The command ends with its bytes written at an address; the lines that these do not meet are read as before, and no core but its own
changes, but for the lines that APs hold. -/
structure EndsWriting (s t : State) (c : CoreId) (k : Command) (status : Nat) (reply : W64) (a : Nat) (l : List Byte) : Prop where
  clusters : t.clusters = s.clusters
  own : SameDone (completeOn k status reply (s.core c)) (t.core c)
  other : ∀ d, d ≠ c → SameDone (s.core d) (t.core d)
  bytes : ∀ i, i < l.length → seesByte t c.face k.world (a + i) = some (l.getD i 0)
  outside : ∀ v pa, (pa / 128 < a / 128 ∨ (a + l.length - 1) / 128 < pa / 128) → seesByte t c.face v pa = seesByte s c.face v pa

/-- Of the APs only the lines that they hold, and the completion, differ. -/
theorem EndsWriting.ap {s t : State} {c : CoreId} {k : Command} {status : Nat} {reply : W64} {a : Nat} {l : List Byte}
    (h : EndsWriting s t c k status reply a l) (hst : status < 256) (d : CoreId) :
    { (t.core d).ap with held := (s.core d).ap.held } =
      if d = c then (completeOn k status reply (s.core c)).ap else (s.core d).ap := by
  by_cases hd : d = c
  · subst hd
    have hown := congrArg (fun x : ApState => { x with held := (s.core d).ap.held }) h.own.ap
    rw [if_pos rfl]
    refine Eq.trans hown ?_
    rw [← completeOn_held k hst reply (s.core d)]
  · have hother := congrArg (fun x : ApState => { x with held := (s.core d).ap.held }) (h.other d hd).ap
    rw [if_neg hd]
    exact hother

section Writing

variable {s : State} {c : CoreId} {k : Command} {fn : Nat} {run : Command → State → State × Outcome7} {status : Nat} {reply : W64}
  {a : Nat} {l : List Byte}

theorem bare_withOut {f : Fin 4} (h : Bare f s) (out : List (Nat × Nat × Packet)) : Bare f (withOut out s) := ⟨h.noCopy, h.noPoison, h.ok⟩

theorem event_writes (h : Claims.performing s c k fn = true) (hbare : Bare c.face s) (hin : inHbm a l.length = true) (hst : status < 256)
    (hrun : ∀ out, run k (withOut out s) = (enginePuts c.face k.world (cellsAt a l) (withOut out s), ends status reply)) :
    ∃ t, done (onCommand [fn] c k.id run s) = .next t ∧ EndsWriting s t c k status reply a l := by
  obtain ⟨hp, hz⟩ := performing_iff.mp h
  obtain ⟨out, hout⟩ := clearSource_eq s c k
  have hc : CellsInHbm (cellsAt a l) := cellsInHbm_cellsAt hin
  have hbare' : Bare c.face (withOut out s) := bare_withOut hbare out
  have hput := enginePuts_bare (v := k.world) hc hbare'
  have hframe := heldFrame_engineStores (v := k.world) hc hbare'
  have hbytes (i : Nat) (hi : i < l.length) := hbmByte_engineStores (v := k.world) hc hbare' hi
  have hagree (line : Nat) (hl : ∀ x ∈ cellsAt a l, x.1 / 128 ≠ line) := lineAgree_engineStores (v := k.world) hc hl hbare'
  have hbareU := bare_engineStores (v := k.world) hc hbare'
  have hrun' := (hrun out).trans (congrArg (·, ends status reply) hput)
  generalize engineStores c.face k.world (cellsAt a l) (withOut out s) = u at hframe hbytes hagree hbareU hrun'
  have hrest := hframe.rest
  have hcore (d : CoreId) : dropHeldLines (u.core d) = dropHeldLines (s.core d) := hframe.core d
  have htether : u.tether.sess = s.tether.sess := by rw [hrest]; rfl
  have hheld : writesHeld u c k.id = writesHeld s c k.id :=
    writesHeld_congr htether (by rw [hrest]; rfl) (by rw [hrest]; rfl) (congrArg Core.job (hcore c) :) k.id
  have hend : zeroEnd u k (ends status reply) = ends status reply := zeroEnd_eq (by rw [hp.code, hrest]; exact hz) _
  have hevent := onCommand_performs hp hout hrun' hend (hheld.trans hp.unheld)
  have hregq : u.regq = s.regq := by rw [hrest]; rfl
  have hread (v : World) (pa : Nat) : seesByte (u.modCore c fun x => completeOn k status reply (forgetCmd k.id x)) c.face v pa =
      seesByte u c.face v pa :=
    seesByte_congr (s := u) (t := u.modCore c _) rfl rfl rfl _ _ _
  refine ⟨_, (congrArg done hevent).trans (done_of_regq (hregq.trans hp.regq)), ?_, ?_, fun d hd => ?_, fun i hi => ?_, fun v pa hout => ?_⟩
  · rw [State.modCore_clusters, hrest]; rfl
  · rw [State.core_modCore_same]
    exact ((sameDone_forgetCmd (sameDone_of_dropHeldLines (hcore c)) k.id).completeOn k hst reply)
  · rw [State.core_modCore_other _ _ _ _ hd]
    exact sameDone_of_dropHeldLines (hcore d)
  · rw [hread]
    exact HbmByte.sees hbareU (hbytes i hi) (decide_eq_true (by have := of_decide_eq_true hin; omega))
  · have hline : ∀ x ∈ cellsAt a l, x.1 / 128 ≠ pa / 128 := fun x hx => by
      have hbound := mem_cellsAt hx
      omega
    rw [hread, (hagree _ hline).sees hbare'.ok hbareU.ok]
    exact seesByte_congr (s := s) (t := withOut out s) rfl rfl rfl _ _ _

end Writing

end Sys2Proof.Proofs.CopyRuns
end

section
/-! PROOFS. What copies, gathers and scatters of sound bytes do (R138, R163-R165, R169). -/

namespace Sys2Proof.Proofs.CopyEffects

open Sys2Proof Sys2Proof.Machine
open Sys2Proof.Proofs.CommandEnds
open Sys2Proof.Proofs.CommandEffects (badLedge_clean spadSeen_clean)
open Sys2Proof.Proofs.CommandRuns (sourceData_withOut)
open Sys2Proof.Proofs.DenseCopies Sys2Proof.Proofs.EngineWrites Sys2Proof.Proofs.CopyRuns

/-! ### A stream placed in the scratchpad (R50, R165) -/

section Fill

variable (base : Nat) (l : List Byte) (x : Core)

/-- One byte never makes the parity of an element good. -/
theorem spadPut_byte (a : Nat) (b : Byte) : spadPut x a [b] = { x with scratch := sputs 0 x.scratch a [b] } := by
  have hpart (e : Nat × Bool) : (!(decide (a ≤ 4 * e.1) && decide (4 * e.1 + 4 ≤ a + [b].length))) = true := by
    simp only [List.length_singleton, Bool.not_eq_true', Bool.and_eq_false_iff, decide_eq_false_iff_not]
    omega
  have hbad : (if x.parityBad.isEmpty then [] else x.parityBad.filter fun e => !(decide (a ≤ 4 * e.1) && decide (4 * e.1 + 4 ≤ a + [b].length)))
      = x.parityBad := by
    split
    · next h => exact (List.isEmpty_iff.mp h).symm
    · exact List.filter_eq_self.mpr fun e _ => hpart e
  exact congrArg (fun p => { x with scratch := sputs 0 x.scratch a [b], parityBad := p }) hbad

/-- The scratchpad after a stream has been placed in it. -/
def scratchWith (base : Nat) (cells : List (Nat × Byte)) (m : Sparse Byte) : Sparse Byte :=
  cells.foldl (fun m p => sputs 0 m (base + p.1) [p.2]) m

theorem fillCells_eq (cells : List (Nat × Byte)) : fillCells base cells x = { x with scratch := scratchWith base cells x.scratch } := by
  induction cells generalizing x with
  | nil => rfl
  | cons p r ih =>
    rw [fillCells, List.foldl_cons, spadPut_byte]
    exact ih _

theorem scratchOnly_fillCells (cells : List (Nat × Byte)) : Claims.ScratchOnly x (fillCells base cells x) := by
  rw [fillCells_eq]
  rfl

theorem fillCells_job (cells : List (Nat × Byte)) : (fillCells base cells x).job = x.job := by rw [fillCells_eq]

theorem placed_concat (b : Byte) : placed none (l ++ [b]) = placed none l ++ [(l.length, b)] := by
  simp only [placed, List.length_append, List.length_singleton, List.range_succ]
  exact List.zip_append List.length_range

theorem sget_scratchWith (m : Sparse Byte) (a : Nat) : sget 0 (scratchWith base (placed none l) m) a =
    if base ≤ a ∧ a < base + l.length then l.getD (a - base) 0 else sget 0 m a := by
  induction l using List.reverseRecOn with
  | nil => exact (if_neg (by simp)).symm
  | append_singleton l b ih =>
    have hlast : scratchWith base (placed none (l ++ [b])) m =
        sputs 0 (scratchWith base (placed none l) m) (base + l.length) [b] := by
      rw [placed_concat, scratchWith, List.foldl_append]
      rfl
    rw [hlast]
    by_cases ha : a = base + l.length
    · subst ha
      have hput := sget_sputs_inside 0 (scratchWith base (placed none l) m) (base + l.length) [b] 0 (by simp)
      rw [if_pos (by simp), Nat.add_sub_cancel_left]
      simpa using hput
    · have hout : a < base + l.length ∨ base + l.length + [b].length ≤ a := by simp; omega
      rw [sget_sputs_outside 0 _ _ _ _ hout, ih]
      by_cases hin : base ≤ a ∧ a < base + l.length
      · rw [if_pos hin, if_pos (by simp; omega), List.getD_append _ _ _ _ (by omega)]
      · rw [if_neg hin, if_neg (by simp; omega)]

theorem sget_fillCells_inside {i : Nat} (hi : i < l.length) :
    sget 0 (fillCells base (placed none l) x).scratch (base + i) = l.getD i 0 := by
  rw [fillCells_eq]
  exact (sget_scratchWith base l x.scratch (base + i)).trans ((if_pos (by omega)).trans (by rw [Nat.add_sub_cancel_left]))

theorem sget_fillCells_outside {a : Nat} (ha : a < base ∨ base + l.length ≤ a) :
    sget 0 (fillCells base (placed none l) x).scratch a = sget 0 x.scratch a := by
  rw [fillCells_eq]
  exact (sget_scratchWith base l x.scratch a).trans (if_neg (by omega))

end Fill

theorem getD_spadGet (x : Core) (a n : Nat) {i : Nat} (hi : i < n) : (spadGet x a n).getD i 0 = sget 0 x.scratch (a + i) := by
  simp [spadGet, sgets_eq, List.getD_eq_getElem?_getD, hi]

theorem length_spadGet (x : Core) (a n : Nat) : (spadGet x a n).length = n := by simp [spadGet, sgets_eq]

/-! ### Copies (R163, R165) -/

theorem denseSize_copyLen (k : Command) : denseSize i8 (copyGeo k) = copyLen k := by rw [denseSize_i8, copyLen]

theorem streamSize_copyLen (k : Command) : streamSize i8 false (copyGeo k) = copyLen k := by
  rw [streamSize, if_neg Bool.false_ne_true, denseSize_copyLen]

section Copies

variable {s : State} {c : CoreId} {k : Command} {l : List Byte} {p : Piece} (h : PlainCopy k)
include h

theorem copyIn_outside (hb : k.b.toNat < 2 ^ 14) (hout : 0x200000 < bitsN k.b.toNat 0 14 * 128 + copyLen k) :
    runCopyIn c k s = (s, ends 4 0xFF) := by
  have hshape := badShape_i8 h.rows h.cols h.dense
  have hplanes : decide (cmdImm k 24 1 = 1) = false := by rw [h.planes]; rfl
  have hsize := streamSize_copyLen k
  simp only [runCopyIn, h.src, h.dst, hplanes, hshape, h.unbound, boundProgram_none, placedSpan, hsize, if_pos hout]
  rw [if_neg (by simpa using hb)]

theorem copyIn_inside (hb : k.b.toNat < 2 ^ 14) (hin : bitsN k.b.toNat 0 14 * 128 + copyLen k ≤ 0x200000)
    (hdata : sourceData s c k = l.map some) (hl : l.length = copyLen k) :
    runCopyIn c k s = (s.modCore c (fillCells (bitsN k.b.toNat 0 14 * 128) (placed none l)), ends 0 0) := by
  have hshape := badShape_i8 h.rows h.cols h.dense
  have hplanes : decide (cmdImm k 24 1 = 1) = false := by rw [h.planes]; rfl
  have hsize := streamSize_copyLen k
  have hstream := copyStream_i8 hl
  simp only [runCopyIn, h.src, h.dst, hplanes, hshape, h.unbound, boundProgram_none, placedSpan, hsize, if_neg (Nat.not_lt.mpr hin), hdata, hstream]
  rw [if_neg (by simpa using hb), convert_i8 hl, copyEnd_sound k rfl rfl]
  simp only [addCvt_zero]

theorem copyOut_writes (hb : k.b.toNat < 2 ^ 14) (hin : bitsN k.b.toNat 0 14 * 128 + copyLen k ≤ 0x200000) (hclean : (s.core c).parityBad = [])
    {t : State} (hwrite : writeTarget c k (placed none (spadGet (s.core c) (bitsN k.b.toNat 0 14 * 128) (copyLen k))) s = (t, false)) :
    runCopyOut c k s = (t, ends 0 0) := by
  have hshape := badShape_i8 h.rows h.cols h.dense
  have hsize := denseSize_copyLen k
  have hl := length_spadGet (s.core c) (bitsN k.b.toNat 0 14 * 128) (copyLen k)
  have hstream := copyStream_i8 (g := copyGeo k) hl
  simp only [runCopyOut, h.src, h.dst, hshape, hsize, if_neg (Nat.not_lt.mpr hin), spadSeen_clean hclean, badLedge_clean hclean, hstream, hwrite]
  rw [if_neg (by simpa using hb), convert_i8 (g := copyGeo k) hl, copyEnd_sound k rfl rfl]
  rw [State.modCore_self _ _ _ (addCvt_zero _)]
  rfl

theorem copyMm_writes (hmeet : piecesMeet (sourceOf k) (targetOf k) = false) (hone : targetOf k = [p]) (hp : p.len = copyLen k)
    (hdata : sourceData s c k = l.map some) (hl : l.length = copyLen k) {t : State} (hwrite : writeTarget c k (placed none l) s = (t, false)) :
    runCopyMm c k s = (t, ends 0 0) := by
  have hshape := badShape_i8 h.rows h.cols h.dense
  have hsize := streamSize_copyLen k
  have hroom : ¬((targetOf k).map fun q => q.len).sum < copyLen k := by
    rw [hone, ← hp]
    simp
  have hstream := copyStream_i8 hl
  simp only [runCopyMm, h.src, h.dst, hshape, hmeet, h.unbound, boundProgram_none, placedSpan, hsize, if_neg hroom, hdata, hstream, hwrite]
  rw [convert_i8 hl, copyEnd_sound k rfl rfl, State.modCore_self _ _ _ (addCvt_zero _)]
  rfl

end Copies

end Sys2Proof.Proofs.CopyEffects
end

section
/-! PROOFS. Gathers and scatters by a table of rows (R137, R138, R169). -/

namespace Sys2Proof.Proofs.RowTables

open Sys2Proof Sys2Proof.Machine
open Sys2Proof.Proofs.CommandEffects (spadSeen_clean)
open Sys2Proof.Proofs.DenseCopies Sys2Proof.Proofs.EngineWrites Sys2Proof.Proofs.CopyEffects

/-- The table that a gather or a scatter names has rows of `rowb` bytes and `bound` of them, and eight rows fit where the command's part of
the scratchpad begins. -/
structure RowTable (k : Command) (rowb bound : Nat) : Prop where
  geo : vget k.geo (2 * cmdImm k 20 2 + 1) 0 = BitVec.ofNat 64 (rowb * 2 ^ 16 + bound)
  whole : rowb % 128 = 0
  least : 128 ≤ rowb
  most : rowb ≤ 4096
  bound : bound < 2 ^ 16
  fits : cmdImm k 22 14 * 128 + 8 * rowb ≤ 0x200000

section Table

variable {k : Command} {rowb bound : Nat}

theorem RowTable.tableOf (h : RowTable k rowb bound) : tableOf (vget k.geo (2 * cmdImm k 20 2 + 1) 0) = some (rowb, bound) := by
  have hwhole := h.whole
  have hleast := h.least
  have hmost := h.most
  have hbound := h.bound
  have hword : (BitVec.ofNat 64 (rowb * 2 ^ 16 + bound)).toNat = rowb * 2 ^ 16 + bound := by
    rw [BitVec.toNat_ofNat]
    omega
  have hrowb : bitsN (rowb * 2 ^ 16 + bound) 16 16 = rowb := by simp only [bitsN]; omega
  have hlow : bitsN (rowb * 2 ^ 16 + bound) 0 16 = bound := by simp only [bitsN]; omega
  have hhigh : bitsN (rowb * 2 ^ 16 + bound) 32 32 = 0 := by simp only [bitsN]; omega
  simp only [Machine.tableOf, h.geo, hword, hrowb, hlow, hhigh]
  rw [if_neg (by omega)]

/-! ### Which indices miss (R138) -/

/-- The mask of misses is the sum over what misses. -/
theorem missMask_eq {miss : Nat → Prop} [DecidablePred miss] (hmiss : ∀ n, n < 8 → (indexOf k.a k.b n < bound ↔ ¬miss n)) :
    missMask k bound = ((List.range 8).map fun n => if miss n then 2 ^ n else 0).sum := by
  refine congrArg List.sum (List.map_congr_left fun n hn => ?_)
  have hn' := hmiss n (List.mem_range.mp hn)
  by_cases hm : miss n
  · rw [if_neg fun h => hn'.mp h hm, if_pos hm]
  · rw [if_pos (hn'.mpr hm), if_neg hm]

theorem missMask_none (h : ∀ n, n < 8 → indexOf k.a k.b n < bound) : missMask k bound = 0 :=
  missMask_eq (miss := fun _ => False) fun n hn => iff_of_true (h n hn) not_false

theorem missMask_all (h : ∀ n, n < 8 → bound ≤ indexOf k.a k.b n) : missMask k bound = 0xFF :=
  missMask_eq (miss := fun _ => True) fun n hn => iff_of_false (Nat.not_lt.mpr (h n hn)) (not_not_intro trivial)

theorem missMask_other {m : Nat} (hm : m < 8) (h : ∀ n, n < 8 → (indexOf k.a k.b n < bound ↔ n = m)) : missMask k bound = 0xFF - 2 ^ m := by
  have hsum : ∀ m < 8, ((List.range 8).map fun n => if n ≠ m then 2 ^ n else 0).sum = 0xFF - 2 ^ m := by decide
  exact (missMask_eq (miss := fun n => n ≠ m) fun n hn => by rw [h n hn, not_not]).trans (hsum m hm)

/-! ### The rows of a gather (R138) -/

/-- A row taken from the bytes read. -/
def rowTaken (rowb : Nat) (acc : List (Option Byte) × List (Option Byte)) : List (Option Byte) × List (Option Byte) :=
  (acc.1 ++ acc.2.take rowb, acc.2.drop rowb)

/-- A row of zeros for an index out of bound. -/
def rowZero (rowb : Nat) (acc : List (Option Byte) × List (Option Byte)) : List (Option Byte) × List (Option Byte) :=
  (acc.1 ++ List.replicate rowb (some 0), acc.2)

theorem rowsTaken (rowb m : Nat) (bytes : List (Option Byte)) :
    (List.range m).foldl (fun acc _ => rowTaken rowb acc) ([], bytes) = (bytes.take (m * rowb), bytes.drop (m * rowb)) := by
  induction m with
  | zero => simp
  | succ m ih =>
    rw [List.range_succ, List.foldl_append, ih, Nat.succ_mul, List.take_add, ← List.drop_drop]
    rfl

theorem rowsZero (rowb m : Nat) (bytes : List (Option Byte)) :
    (List.range m).foldl (fun acc _ => rowZero rowb acc) ([], bytes) = (List.replicate (m * rowb) (some 0), bytes) := by
  induction m with
  | zero => simp
  | succ m ih =>
    rw [List.range_succ, List.foldl_append, ih, Nat.succ_mul, ← List.replicate_append_replicate]
    rfl

theorem gatherRows_eq (bytes : List (Option Byte)) : gatherRows k rowb bound bytes =
    ((List.range 8).foldl (fun acc n => if indexOf k.a k.b n < bound then rowTaken rowb acc else rowZero rowb acc) ([], bytes)).1 := rfl

theorem gatherRows_inBound {bytes : List (Option Byte)} (h : ∀ n, n < 8 → indexOf k.a k.b n < bound) (hl : bytes.length = 8 * rowb) :
    gatherRows k rowb bound bytes = bytes := by
  rw [gatherRows_eq, List.foldl_ext _ (fun acc _ => rowTaken rowb acc) _ fun acc n hn => if_pos (h n (List.mem_range.mp hn)), rowsTaken]
  exact List.take_of_length_le (by omega)

theorem gatherRows_outOfBound {bytes : List (Option Byte)} (h : ∀ n, n < 8 → bound ≤ indexOf k.a k.b n) :
    gatherRows k rowb bound bytes = List.replicate (8 * rowb) (some 0) := by
  rw [gatherRows_eq, List.foldl_ext _ (fun acc _ => rowZero rowb acc) _ fun acc n hn => if_neg (Nat.not_lt.mpr (h n (List.mem_range.mp hn))),
    rowsZero]

end Table

section Events

variable {s : State} {c : CoreId} {k : Command} {rowb bound : Nat} (h : RowTable k rowb bound)
include h

/-- A gather whose sources are sound, and which binds no program, places its rows. -/
theorem runGather_places (hslot : cmdImm k 16 4 = 0) {l rows : List Byte} (hdata : sourceData s c k = l.map some)
    (hrows : gatherRows k rowb bound (l.map some) = rows.map some) :
    runGather c k s = (s.modCore c (fillCells (cmdImm k 22 14 * 128) (placed none rows)),
      ends (if missMask k bound = 0 then 0 else 1) (BitVec.ofNat 64 (missMask k bound))) := by
  have hfind : (l.map some).findIdx? (fun b => b.isNone) = none := by simp
  have hplain : (rows.map some).map (fun b => b.getD 0) = rows := by simp
  simp only [runGather, h.tableOf, hslot, boundProgram_none, placedSpan, if_neg (Nat.not_lt.mpr h.fits), hdata, hrows, hplain, hfind]

/-- A scatter from a scratchpad whose parity holds writes the rows of the indices that are in bound. -/
theorem runScatter_writes (hclean : (s.core c).parityBad = []) {rows : List Nat}
    (hrows : (List.range 8).filter (fun n => decide (indexOf k.a k.b n < bound)) = rows) {t : State}
    (hwrite : writeTarget c k (placed none (rows.flatMap fun n => spadGet (s.core c) (cmdImm k 22 14 * 128 + n * rowb) rowb)) s = (t, false)) :
    runScatter c k s = (t, ends (if missMask k bound = 0 then 0 else 1) (BitVec.ofNat 64 (missMask k bound))) := by
  have hbytes : (rows.flatMap fun n => spadSeen (s.core c) (cmdImm k 22 14 * 128 + n * rowb) rowb) =
      (rows.flatMap fun n => spadGet (s.core c) (cmdImm k 22 14 * 128 + n * rowb) rowb).map some := by
    simp only [spadSeen_clean hclean, List.map_flatMap]
  have hsound (l : List Byte) : (l.map some).any (fun b => b.isNone) = false := by simp
  have hplain (l : List Byte) : (l.map some).map (fun b => b.getD 0) = l := by simp
  simp only [runScatter, h.tableOf, if_neg (Nat.not_lt.mpr h.fits), hrows, hbytes, hplain, hwrite, hsound, Bool.or_self, Bool.false_eq_true, if_false]

end Events

/-- The rows of a scatter of which one index alone is in bound. -/
theorem filter_one {m : Nat} (hm : m < 8) {p : Nat → Bool} (h : ∀ n, n < 8 → (p n = true ↔ n = m)) : (List.range 8).filter p = [m] := by
  have hone : ∀ m < 8, (List.range 8).filter (fun n => decide (n = m)) = [m] := by decide
  rw [← hone m hm]
  refine List.filter_congr fun n hn => ?_
  rw [Bool.eq_iff_iff, h n (List.mem_range.mp hn), decide_eq_true_eq]

end Sys2Proof.Proofs.RowTables
end

section
/-! PROOFS. The issue of coll (R348, R352, R355) and inval (R195): commands that stay in their units. -/

namespace Sys2Proof.Proofs.UnitCommands

open Sys2Proof Sys2Proof.Machine
open Sys2Proof.Proofs.Acts (done_of_regq)
open Sys2Proof.Proofs.CommandEnds

/-! ### What an announcement changes (R352, R366) -/

/-- Two states that differ in what waits at the ports and the peers, and in what has been announced. -/
def LinksOnly (s t : State) : Prop :=
  t = { s with fabric := { s.fabric with ports := t.fabric.ports, peers := t.fabric.peers, told := t.fabric.told } }

theorem LinksOnly.refl (s : State) : LinksOnly s s := rfl

theorem LinksOnly.trans {s t u : State} (h : LinksOnly s t) (h' : LinksOnly t u) : LinksOnly s u := by
  unfold LinksOnly at *
  rw [h', h]

theorem linksOnly_sendFlit (fl : Flit) (s : State) : LinksOnly s (sendFlit fl s) := by
  unfold sendFlit
  split
  · unfold sendRope
    split <;> rfl
  · rfl
  · rfl

theorem linksOnly_sendFlits (fls : List Flit) (s : State) : LinksOnly s (fls.foldl (fun s fl => sendFlit fl s) s) := by
  induction fls generalizing s with
  | nil => exact .refl s
  | cons fl r ih => exact (linksOnly_sendFlit fl s).trans (ih _)

theorem linksOnly_announce (c : CoreId) (k : Command) (bad : Bool) (s : State) : LinksOnly s (announce c k bad s) := by
  unfold announce
  dsimp only
  split
  · exact .refl s
  · generalize (otherPositions _ _).flatMap _ = fls
    have hsent := linksOnly_sendFlits fls s
    cases bad with
    | false => exact hsent.trans rfl
    | true => exact hsent

theorem told_announce (c : CoreId) (k : Command) (s : State) :
    (announce c k false s).fabric.told.contains (cgrpOf (s.core c).csr.collid, k.b.setWidth 32) = true := by
  unfold announce
  dsimp only
  split
  · next h => exact h
  · exact List.contains_iff_mem.mpr List.mem_cons_self

section Coll

variable {s : State} {c : CoreId} {k : Command} {fn : Nat}

/-- A command whose unit changed nothing but the links ends. -/
theorem finish_ends (h : Performs s c k fn) {u : State} (hu : LinksOnly s u) (status : Nat) (reply : W64) :
    ∃ t, done (finishCmd c k (ends status reply) u) = .next t ∧ Claims.endsOn s t c k status reply (s.core c) := by
  have hcore (d : CoreId) : u.core d = s.core d := by rw [hu]; rfl
  have hheld : writesHeld u c k.id = false :=
    (writesHeld_congr (s := s) (by rw [hu]) (by rw [hu]) (by rw [hu]) (by rw [hcore]) k.id).trans h.unheld
  have hfinish : finishCmd c k (ends status reply) u = u.modCore c fun x => completeOn k status reply (forgetCmd k.id x) := by
    rw [finishCmd, hheld]
    rfl
  have hregq : u.regq = [] := by rw [hu]; exact h.regq
  refine ⟨_, done_of_regq (by rw [hfinish]; exact hregq), ?_⟩
  rw [hfinish]
  refine ⟨by rw [State.core_modCore_same, hcore], fun d hd => by rw [State.core_modCore_other _ _ _ _ hd, hcore], ?_, ?_⟩
  · rw [State.modCore_clusters, hu]
  · exact sameMemory_of (by rw [State.modCore_mem, hu]) (by rw [State.modCore_l2, hu]) (by rw [State.modCore_keys, hu])

/-- What the collective unit checks before a collective may join it (R348, R355). -/
def joins (s : State) (c : CoreId) (k : Command) : Bool :=
  !(decide (k.b.toNat / 2 ^ 32 ≠ 0) || !descValid k.xtra || decide (cgrpOf (s.core c).csr.collid = 0)
    || (ranksOf (s.core c).csr.collid (descOf k.xtra)).isNone
    || s.fabric.colls.any fun y => decide (collGroup s y = cgrpOf (s.core c).csr.collid) && decide (collSeq y = k.b.setWidth 32))

/-- A collective as it joins the unit (R355). -/
def collOf (s : State) (c : CoreId) (k : Command) : Coll :=
  { id := k.id, core := c, cmd := k, job := (s.core c).job.getD 0, running := false, wrote := false, marks := []
    ranks := groupSize (descOf k.xtra), own := ownPos (s.core c).csr.collid (descOf k.xtra), status := 0, input := [], classes := [], fseqs := []
    beyond := false, msgs := 0, cut := none }

/-- The state after a collective has joined the unit. -/
def joined (y : Coll) (s : State) : State :=
  noteArrived { s with fabric := { s.fabric with colls := s.fabric.colls ++ [y] } }

theorem runColl_cases (hp : Performs s c k 0xB) (hnew : collById s k.id = none) : runColl c k.id s =
    if joins s c k = false then finishCmd c k (ends 5 0) s
    else if (decide ((descOf k.xtra).op = 4) && !tmValid k.tmshape k.tab) = true then finishCmd c k (ends 0x10 0) (announce c k true s)
    else joined (collOf s c k) (announce c k false s) := by
  have hgo : ¬(k.fn.toNat ≠ 0x0B ∨ (collById s k.id).isSome = true) := by simp [hp.code, hnew]
  simp only [runColl, hp.running, if_neg hgo]
  simp only [joins, Bool.not_eq_false']
  rfl

theorem coll_refused (hp : Performs s c k 0xB) (hnew : collById s k.id = none) (h : joins s c k = false) :
    ∃ t, exec (.coll c k.id) s = .next t ∧ Claims.endsOn s t c k 5 0 (s.core c) := by
  have hrun := (runColl_cases hp hnew).trans (if_pos h)
  obtain ⟨t, ht, hends⟩ := finish_ends hp (.refl s) 5 0
  exact ⟨t, (congrArg done hrun).trans ht, hends⟩

section Joins

variable (hp : Performs s c k 0xB) (hnew : collById s k.id = none) (h : joins s c k = true)
include hp hnew h

theorem coll_tmInvalid (hop : (descOf k.xtra).op = 4) (htm : tmValid k.tmshape k.tab = false) :
    ∃ t, exec (.coll c k.id) s = .next t ∧ Claims.endsOn s t c k 0x10 0 (s.core c) := by
  have hrun := (runColl_cases hp hnew).trans ((if_neg (by simp [h])).trans (if_pos (by simp [hop, htm])))
  obtain ⟨t, ht, hends⟩ := finish_ends hp (linksOnly_announce c k true s) 0x10 0
  exact ⟨t, (congrArg done hrun).trans ht, hends⟩

theorem coll_joined (htm : (descOf k.xtra).op = 4 → tmValid k.tmshape k.tab = true) :
    ∃ t, exec (.coll c k.id) s = .next t ∧ t.fabric.colls = s.fabric.colls ++ [collOf s c k] ∧
      t.fabric.told.contains (cgrpOf (s.core c).csr.collid, k.b.setWidth 32) = true ∧ t.cores = s.cores ∧ t.clusters = s.clusters ∧
      SameMemory s t := by
  have hvalid : ¬(decide ((descOf k.xtra).op = 4) && !tmValid k.tmshape k.tab) = true := by
    simpa using htm
  have hrun := (runColl_cases hp hnew).trans ((if_neg (by simp [h])).trans (if_neg hvalid))
  have hlinks := linksOnly_announce c k false s
  have htold := told_announce c k s
  generalize announce c k false s = u at hrun hlinks htold
  have hregq : u.regq = [] := by rw [hlinks]; exact hp.regq
  refine ⟨joined (collOf s c k) u, (congrArg done hrun).trans (done_of_regq hregq), ?_, htold, ?_, ?_, ?_⟩
  · exact congrArg (· ++ [collOf s c k]) (by rw [hlinks] : u.fabric.colls = s.fabric.colls)
  · exact (by rw [hlinks] : u.cores = s.cores)
  · exact (by rw [hlinks] : u.clusters = s.clusters)
  · exact sameMemory_of (t := joined (collOf s c k) u) (by rw [hlinks] : u.mem = s.mem) (by rw [hlinks] : u.l2 = s.l2)
      (by rw [hlinks] : u.keys = s.keys)

end Joins

theorem joins_invalid (h : descValid k.xtra = false) : joins s c k = false := by simp [joins, h]

theorem joins_valid (h : descValid k.xtra = true) (hb : k.b.toNat < 2 ^ 32) (hg : cgrpOf (s.core c).csr.collid ≠ 0)
    (hranks : (ranksOf (s.core c).csr.collid (descOf k.xtra)).isSome = true)
    (hother : ∀ y ∈ s.fabric.colls, collGroup s y ≠ cgrpOf (s.core c).csr.collid ∨ collSeq y ≠ k.b.setWidth 32) : joins s c k = true := by
  have hword : k.b.toNat / 2 ^ 32 = 0 := Nat.div_eq_of_lt hb
  have hnone : (ranksOf (s.core c).csr.collid (descOf k.xtra)).isNone = false := by
    rw [Option.isNone_eq_false_iff]
    exact hranks
  have htwice : (s.fabric.colls.any fun y => decide (collGroup s y = cgrpOf (s.core c).csr.collid) && decide (collSeq y = k.b.setWidth 32)) = false := by
    rw [List.any_eq_false]
    intro y hy
    rcases hother y hy with hne | hne <;> simp [hne]
  simp only [joins, h, hword, hg, hnone, htwice]
  rfl

/-! ### inval (R195) -/

/-- The invalidate of an inval command. -/
def invalOf (c : CoreId) (k : Command) : Inval :=
  { va := k.a.toNat, len := k.b.toNat, asid := k.imm.extractLsb' 20 16, hint := k.imm.extractLsb' 16 2
    from_ := some (c, k.id), sent := false, gen := 0 }

theorem inval_submitted (hp : Performs s c k 0x40) (h : ∃ v ∈ s.sys.invals, v.from_ = some (c, k.id)) : exec (.inval c k.id) s = .next s := by
  have hany : (s.sys.invals.any fun v => decide (v.from_ = some (c, k.id))) = true := by
    simpa only [List.any_eq_true, decide_eq_true_eq] using h
  have hrun : runInval c k.id s = s := by
    simp only [runInval, hp.running]
    exact if_pos (.inr hany)
  exact (congrArg done hrun).trans (done_of_regq hp.regq)

theorem inval_submits (hp : Performs s c k 0x40) (h : ∀ v ∈ s.sys.invals, v.from_ ≠ some (c, k.id)) :
    exec (.inval c k.id) s = .next (submitInval (invalOf c k) s) := by
  have hnone : ¬(k.fn.toNat ≠ 0x40 ∨ (s.sys.invals.any fun v => decide (v.from_ = some (c, k.id))) = true) := by
    rintro (hfn | hany)
    · exact hfn hp.code
    · obtain ⟨v, hv, hfrom⟩ := List.any_eq_true.mp hany
      exact h v hv (of_decide_eq_true hfrom)
  have hrun : runInval c k.id s = submitInval (invalOf c k) s := by
    simp only [runInval, hp.running, if_neg hnone]
    rfl
  exact (congrArg done hrun).trans (done_of_regq hp.regq)

end Coll

end Sys2Proof.Proofs.UnitCommands
end

section
/-! PROOFS. The key-slot commands (R390, R417-R419). -/

namespace Sys2Proof.Proofs.KeySlots

open Sys2Proof Sys2Proof.Machine
open Sys2Proof.Proofs.Acts (done_of_regq)
open Sys2Proof.Proofs.Complete (deviceBytes_devicePut)
open Sys2Proof.Proofs.Device (length_bytesOfNat onlyMemory_keys deviceBytes_congr deviceBytes_append)
open Sys2Proof.Proofs.Slots (length_deviceBytes)
open Sys2Proof.Proofs.CommandEnds

/-! ### The end of a command that changes keys or memory -/

/-- Two states that differ in keys, memory and the faces. -/
def KeyFrame (s t : State) : Prop := t = { s with keys := t.keys, mem := t.mem, l2 := t.l2 }

/-- A command has ended, with keys, memory and the faces as in `u`. -/
structure EndsIn (s t : State) (c : CoreId) (k : Command) (status : Nat) (reply : W64) (u : State) : Prop where
  core : t.core c = completeOn k status reply (forgetCmd k.id (s.core c))
  others : OthersSame c s t
  clusters : t.clusters = s.clusters
  keys : t.keys = u.keys
  mem : t.mem = u.mem
  l2 : t.l2 = u.l2

/-- A slot command of an operation, at its event. -/
structure SlotCommand (s : State) (c : CoreId) (k : Command) (op : Nat) : Prop where
  performs : Performs s c k 0x42
  op : keyOp k = op

section Events

variable {s : State} {c : CoreId} {k : Command} {op : Nat} (h : SlotCommand s c k op) {run : Command → State → State × Outcome7}
  {status : Nat} {reply : W64}
include h

theorem onKeyslot_eq : onKeyslot op run c k.id s = onCommand [0x42] c k.id run s := by
  simp only [onKeyslot, h.performs.running, if_pos h.op]

theorem keyslot_ends {u : List (Nat × Nat × Packet) → State} (hu : ∀ out, KeyFrame (withOut out s) (u out))
    (hrun : ∀ out, run k (withOut out s) = (u out, ends status reply)) :
    ∃ t out, done (onKeyslot op run c k.id s) = .next t ∧ EndsIn s t c k status reply (u out) := by
  obtain ⟨out, hout⟩ := clearSource_eq s c k
  have hframe := hu out
  have hrun' := hrun out
  have hcore (d : CoreId) : (u out).core d = s.core d := by rw [hframe]; rfl
  have hheld : writesHeld (u out) c k.id = writesHeld s c k.id :=
    writesHeld_congr (by rw [hframe]; rfl) (by rw [hframe]; rfl) (by rw [hframe]; rfl) (by rw [hcore]) k.id
  have hend : zeroEnd (u out) k (ends status reply) = ends status reply := zeroEnd_eq (.inl (by rw [h.performs.code]; decide)) _
  have hevent := onCommand_performs h.performs hout hrun' hend (hheld.trans h.performs.unheld)
  have hregq : (u out).regq = [] := by rw [hframe]; exact h.performs.regq
  refine ⟨_, out, (congrArg done ((onKeyslot_eq h).trans hevent)).trans (done_of_regq hregq), ?_⟩
  refine ⟨by rw [State.core_modCore_same, hcore], fun d hd => by rw [State.core_modCore_other _ _ _ _ hd, hcore], ?_, rfl, rfl, rfl⟩
  rw [State.modCore_clusters, hframe]
  rfl

/-- A slot command that changes nothing. -/
theorem keyslot_ends_id (hrun : ∀ out, run k (withOut out s) = (withOut out s, ends status reply)) :
    ∃ t, done (onKeyslot op run c k.id s) = .next t ∧ Claims.endsOn s t c k status reply (s.core c) ∧ t.keys = s.keys := by
  obtain ⟨t, out, ht, hend⟩ := keyslot_ends h (u := fun out => withOut out s) (fun _ => rfl) hrun
  exact ⟨t, ht, ⟨hend.core, hend.others, hend.clusters, sameMemory_of hend.mem hend.l2 hend.keys⟩, hend.keys⟩

end Events

/-- The world that a slot command names. -/
theorem keyWorld_eq (k : Command) : keyWorld k = k.imm.extractLsb' 20 4 := by
  apply BitVec.eq_of_toNat_eq
  simp [keyWorld, cmdImm, bitsN, BitVec.extractLsb'_toNat, Nat.shiftRight_eq_div_pow]

/-! ### Zeroing (R390) -/

section Zero

variable {s : State} {w : World}

theorem worldResident_iff : worldResident s w = true ↔ ∃ d, (s.core d).job ≠ none ∧ (s.core d).csr.world = w := by
  simp only [worldResident, List.any_eq_true, Vector.mem_toList_iff, Vector.mem_iff_getElem, Bool.and_eq_true, decide_eq_true_eq,
    Option.isSome_iff_ne_none]
  constructor
  · rintro ⟨_, ⟨i, hi, rfl⟩, hjob, hw⟩
    exact ⟨⟨i, hi⟩, hjob, hw⟩
  · rintro ⟨d, hjob, hw⟩
    exact ⟨_, ⟨d.val, d.isLt, rfl⟩, hjob, hw⟩

theorem runKeyZero_empties {k : Command} (hw : keyWorld k ≠ 0) (h : worldResident s (keyWorld k) = false) :
    runKeyZero k s = (emptySlot (keyWorld k) s, ends 0 1) := by
  simp only [runKeyZero, if_neg hw, h, Bool.false_eq_true, if_false]
  rfl

theorem runKeyZero_resident {k : Command} (hw : keyWorld k ≠ 0) (h : worldResident s (keyWorld k) = true) :
    runKeyZero k s = (s, ends 0x11 0) := by
  simp only [runKeyZero, if_neg hw, h, if_true]
  rfl

end Zero

/-! ### Blobs (R418, R419) -/

section Blobs

variable {s : State} {k : Command}

theorem blobBad_false (hw : keyWorld k ≠ 0) (ha : k.a.toNat % 8 = 0) (hin : inHbm k.a.toNat 112 = true) : blobBad k = false := by
  rw [blobBad, decide_eq_false hw, hin, ha]
  rfl

/-- The header and the wrapped key of a slot (R418). -/
def blobHeader (w : World) (x : KeySlot) : List Byte := bytesOfNat 8 (w.toNat + (if x.prot then 2 ^ 8 else 0) + 2 ^ 9)

def wrapped (s : State) (x : KeySlot) : List Byte := kwWrap (sleepKey s) (slotBytes x)

theorem runKeyWrap_empty (h : vget s.keys.slots (keyWorld k).toNat none = none) : runKeyWrap k s = (s, ends 5 0) := by
  simp only [runKeyWrap, h]
  rfl

theorem runKeyWrap_writes {x : KeySlot} (hx : vget s.keys.slots (keyWorld k).toNat none = some x) (hok : blobBad k = false) :
    runKeyWrap k s = (writeBlob k.a.toNat (keyWorld k) x s, ends 0 1) := by
  simp only [runKeyWrap, hx, hok, Bool.false_eq_true, if_false]
  rfl

/-- Two runs of bytes written one after the other are read as they are. -/
theorem deviceBytes_devicePut_append {v : World} {a : Nat} {head tail : List Byte} (h : s.memOk) (hne : head ≠ [])
    (hin : inHbm a (head.length + tail.length) = true) :
    deviceBytes (devicePut v a (head ++ tail) s) v a head.length = head ∧
    deviceBytes (devicePut v a (head ++ tail) s) v (a + head.length) tail.length = tail := by
  have hput := deviceBytes_devicePut (v := v) (a := a) (l := head ++ tail) h (List.append_ne_nil_of_left_ne_nil hne _)
    (.inl (by rwa [List.length_append]))
  rw [List.length_append, deviceBytes_append] at hput
  exact List.append_inj hput (length_deviceBytes _ _ _ _)

/-- A blob just written is its header and the wrapped key. -/
theorem deviceBytes_writeBlob {a : Nat} {w : World} {x : KeySlot} (h : s.memOk) (hin : inHbm a (8 + (wrapped s x).length) = true) :
    deviceBytes (writeBlob a w x s) 0 a 8 = blobHeader w x ∧
    deviceBytes (writeBlob a w x s) 0 (a + 8) (wrapped s x).length = wrapped s x := by
  have hhead : (blobHeader w x).length = 8 := length_bytesOfNat _ _
  have hne : blobHeader w x ≠ [] := List.ne_nil_of_length_pos (hhead ▸ Nat.succ_pos 7)
  have hput := deviceBytes_devicePut_append (v := 0) h hne (tail := wrapped s x) (hhead.symm ▸ hin)
  rwa [hhead] at hput

theorem onlyMemory_writeBlob (a : Nat) (w : World) (x : KeySlot) (s : State) : OnlyMemory s (writeBlob a w x s) :=
  onlyMemory_devicePut _ _ _ s

/-- The key under which a blob is wrapped. -/
def blobKey (sleep : Bool) (s : State) (w : World) : Option (List Byte) :=
  if sleep then some (sleepKey s) else (vget s.keys.kimp w.toNat none).map fun x => bytesOfNat 32 x.toNat

theorem runKeyLoad_refused {sleep : Bool} (hok : blobBad k = false) {e : Nat}
    (h : readBlob s k.a.toNat (keyWorld k) sleep (blobKey sleep s (keyWorld k)) = .error e) :
    runKeyLoad sleep k s = (s, keyEnd e) := by
  simp only [runKeyLoad, hok, Bool.false_eq_true, if_false]
  rw [← blobKey, h]

theorem runKeyLoad_loads {sleep : Bool} (hok : blobBad k = false) {x : KeySlot}
    (h : readBlob s k.a.toNat (keyWorld k) sleep (blobKey sleep s (keyWorld k)) = .ok x) :
    runKeyLoad sleep k s = (putSlot (keyWorld k) x s, ends 0 1) := by
  simp only [runKeyLoad, hok, Bool.false_eq_true, if_false]
  rw [← blobKey, h]
  rfl

theorem readBlob_withOut (out : List (Nat × Nat × Packet)) (a : Nat) (w : World) (sleep : Bool) (kek : Option (List Byte)) :
    readBlob (withOut out s) a w sleep kek = readBlob s a w sleep kek := by
  have hbytes (b n : Nat) : deviceBytes (withOut out s) 0 b n = deviceBytes s 0 b n :=
    deviceBytes_congr (s := s) (t := withOut out s) rfl rfl 0 b n
  simp only [readBlob, hbytes]
  rfl

/-- The header of a blob is one of a world, wrapped under the sleep key or not (R418). -/
structure HeaderFits (hdr : Nat) (w : World) (sleep : Bool) : Prop where
  world : bitsN hdr 0 4 = w.toNat
  low : bitsN hdr 4 4 = 0
  high : bitsN hdr 10 54 = 0
  kind : decide (bitsN hdr 9 1 = 1) = sleep

section Fits

variable {a : Nat} {w : World} {sleep : Bool} {kek : Option (List Byte)} (h : HeaderFits (natOfBytes (deviceBytes s 0 a 8)) w sleep)
include h

theorem readBlob_fits : readBlob s a w sleep kek =
    if slotLoaded s w then .error 0x10
    else if vget s.scrub.active w.toNat false then .error 0x11
    else match kek with
      | none => .error 0x13
      | some key =>
        match kwUnwrap key (deviceBytes s 0 (a + 8) 104) with
        | none => .error 0x12
        | some l => .ok { xts := bvOfBytes 512 (l.take 64), ikey := bvOfBytes 256 (l.drop 64)
                          prot := decide (bitsN (natOfBytes (deviceBytes s 0 a 8)) 8 1 = 1) } := by
  refine (if_neg ?_).trans rfl
  rintro (hne | hne | hne | hne)
  · exact hne h.world
  · exact hne h.low
  · exact hne h.high
  · exact hne h.kind

theorem readBlob_loaded (hslot : vget s.keys.slots w.toNat none ≠ none) : readBlob s a w sleep kek = .error 0x10 := by
  rw [readBlob_fits h, if_pos]
  exact Option.isSome_iff_ne_none.mpr hslot

variable (hslot : vget s.keys.slots w.toNat none = none)
include hslot

theorem readBlob_scrubbing (hscrub : vget s.scrub.active w.toNat false = true) : readBlob s a w sleep kek = .error 0x11 := by
  rw [readBlob_fits h, slotLoaded, hslot, hscrub]
  rfl

variable (hscrub : vget s.scrub.active w.toNat false = false)
include hscrub

theorem readBlob_keyless : readBlob s a w sleep none = .error 0x13 := by
  rw [readBlob_fits h, slotLoaded, hslot, hscrub]
  rfl

theorem readBlob_broken {q : List Byte} (hq : kwUnwrap q (deviceBytes s 0 (a + 8) 104) = none) :
    readBlob s a w sleep (some q) = .error 0x12 := by
  rw [readBlob_fits h, slotLoaded, hslot, hscrub]
  simp only [hq]
  rfl

theorem readBlob_unwrapped {q l : List Byte} (hq : kwUnwrap q (deviceBytes s 0 (a + 8) 104) = some l) :
    readBlob s a w sleep (some q) = .ok { xts := bvOfBytes 512 (l.take 64), ikey := bvOfBytes 256 (l.drop 64)
                                          prot := decide (bitsN (natOfBytes (deviceBytes s 0 a 8)) 8 1 = 1) } := by
  rw [readBlob_fits h, slotLoaded, hslot, hscrub]
  simp only [hq]
  rfl

end Fits

end Blobs

/-! ### The commands, from their event to their end -/

section Commands

variable {s : State} {c : CoreId} {k : Command} {op : Nat} (h : SlotCommand s c k op)
include h

/-- Zeroing empties the slot of a world of which no job holds a core. -/
theorem keyslotZero_empties (hw : keyWorld k ≠ 0) (hfree : worldResident s (keyWorld k) = false) :
    ∃ t, done (onKeyslot op runKeyZero c k.id s) = .next t ∧ t.core c = completeOn k 0 1 (forgetCmd k.id (s.core c)) ∧
      vget t.keys.slots (keyWorld k).toNat none = none ∧ t.keys.zeroed.getLsbD (keyWorld k).toNat = true ∧
      (∀ j, j ≠ (keyWorld k).toNat → vget t.keys.slots j none = vget s.keys.slots j none) ∧ OthersSame c s t ∧ t.mem = s.mem := by
  obtain ⟨t, out, ht, hend⟩ := keyslot_ends h (u := fun out => emptySlot (keyWorld k) (withOut out s)) (fun _ => rfl)
    fun out => runKeyZero_empties (s := withOut out s) hw hfree
  refine ⟨t, ht, hend.core, ?_, ?_, fun j hj => ?_, hend.others, hend.mem⟩
  · rw [hend.keys]
    exact vget_vset_same _ _ _ _ (keyWorld k).isLt
  · rw [hend.keys]
    exact (putBit_get _ _ _ (keyWorld k).isLt (keyWorld k).isLt _).trans (if_pos rfl)
  · rw [hend.keys]
    exact vget_vset_other _ _ _ _ _ hj

/-- A wrap writes the header and the wrapped key. -/
theorem keyslotWrap_writes {x : KeySlot} (hx : vget s.keys.slots (keyWorld k).toNat none = some x) (hok : blobBad k = false) (hmem : s.memOk)
    (hin : inHbm k.a.toNat (8 + (wrapped s x).length) = true) :
    ∃ t, done (onKeyslot op runKeyWrap c k.id s) = .next t ∧ t.core c = completeOn k 0 1 (forgetCmd k.id (s.core c)) ∧ t.keys = s.keys ∧
      deviceBytes t 0 k.a.toNat 8 = blobHeader (keyWorld k) x ∧
      deviceBytes t 0 (k.a.toNat + 8) (wrapped s x).length = wrapped s x := by
  obtain ⟨t, out, ht, hend⟩ := keyslot_ends h (u := fun out => writeBlob k.a.toNat (keyWorld k) x (withOut out s))
    (fun out => by
      have hframe := onlyMemory_writeBlob k.a.toNat (keyWorld k) x (withOut out s)
      unfold KeyFrame
      rw [hframe])
    fun out => runKeyWrap_writes (s := withOut out s) hx hok
  have hbytes := deviceBytes_writeBlob (s := withOut out s) (a := k.a.toNat) (w := keyWorld k) (State.memOk_of_eq rfl rfl hmem) hin
  have hread (b n : Nat) := deviceBytes_congr hend.mem hend.keys 0 b n
  refine ⟨t, ht, hend.core, ?_, (hread _ _).trans hbytes.1, (hread _ _).trans hbytes.2⟩
  rw [hend.keys, onlyMemory_keys (onlyMemory_writeBlob _ _ _ _)]
  rfl

section Load

variable {sleep : Bool} (hok : blobBad k = false)
include hok

theorem keyslotLoad_refused {e : Nat} (he : e ≠ 0)
    (hread : readBlob s k.a.toNat (keyWorld k) sleep (blobKey sleep s (keyWorld k)) = .error e) :
    ∃ t, done (onKeyslot op (runKeyLoad sleep) c k.id s) = .next t ∧ Claims.endsOn s t c k e 0 (s.core c) := by
  have hstatus : keyEnd e = ends e 0 := by rw [keyEnd, if_neg he]
  obtain ⟨t, ht, hends, -⟩ := keyslot_ends_id h fun out => hstatus ▸ runKeyLoad_refused (s := withOut out s) hok
    ((readBlob_withOut out _ _ _ _).trans hread)
  exact ⟨t, ht, hends⟩

theorem keyslotLoad_loads {x : KeySlot} (hread : readBlob s k.a.toNat (keyWorld k) sleep (blobKey sleep s (keyWorld k)) = .ok x) :
    ∃ t, done (onKeyslot op (runKeyLoad sleep) c k.id s) = .next t ∧ t.core c = completeOn k 0 1 (forgetCmd k.id (s.core c)) ∧
      vget t.keys.slots (keyWorld k).toNat none = some x ∧ t.keys.zeroed.getLsbD (keyWorld k).toNat = false ∧
      (∀ j, j ≠ (keyWorld k).toNat → vget t.keys.slots j none = vget s.keys.slots j none) ∧ t.mem = s.mem := by
  obtain ⟨t, out, ht, hend⟩ := keyslot_ends h (u := fun out => putSlot (keyWorld k) x (withOut out s)) (fun _ => rfl)
    fun out => runKeyLoad_loads (s := withOut out s) hok ((readBlob_withOut out _ _ _ _).trans hread)
  refine ⟨t, ht, hend.core, ?_, ?_, fun j hj => ?_, hend.mem⟩
  · rw [hend.keys]
    exact vget_vset_same _ _ _ _ (keyWorld k).isLt
  · rw [hend.keys]
    exact (putBit_get _ _ _ (keyWorld k).isLt (keyWorld k).isLt _).trans (if_pos rfl)
  · rw [hend.keys]
    exact vget_vset_other _ _ _ _ _ hj

end Load

end Commands

end Sys2Proof.Proofs.KeySlots
end

section
/-! PROOFS. Copies, gather, scatter, coll, inval and the key-slot commands from their events to their ends (R138, R165, R169, R195, R348,
R355, R390, R419). -/

namespace Sys2Proof.Proofs.CopyAndKey

open Sys2Proof Sys2Proof.Machine
open Sys2Proof.Proofs.CommandEnds Sys2Proof.Proofs.DenseCopies Sys2Proof.Proofs.EngineWrites Sys2Proof.Proofs.CopyRuns
open Sys2Proof.Proofs.CopyEffects Sys2Proof.Proofs.RowTables Sys2Proof.Proofs.UnitCommands Sys2Proof.Proofs.KeySlots
open Sys2Proof.Proofs.CommandRuns (sourceData_withOut)

section Writes

variable {s : State} {c : CoreId} {k : Command} {p : Piece} {n : Nat} {l : List Byte}

/-- The target of a command is one part of HBM, of which its face holds nothing and where nothing is poisoned. -/
structure BareTarget (s : State) (c : CoreId) (k : Command) (p : Piece) (n : Nat) : Prop where
  bare : Bare c.face s
  open_ : s.keys.zeroed.getLsbD k.world.toNat = false
  one : targetOf k = [p]
  len : p.len = n
  inHbm : inHbm p.pa n = true

theorem BareTarget.write (h : BareTarget s c k p l.length) (out : List (Nat × Nat × Packet)) :
    writeTarget c k (placed none l) (withOut out s) = (enginePuts c.face k.world (cellsAt p.pa l) (withOut out s), false) :=
  writeTarget_one (s := withOut out s) h.one h.len h.open_ h.inHbm

theorem BareTarget.congr (h : BareTarget s c k p n) (hl : l.length = n) : BareTarget s c k p l.length := hl ▸ h

end Writes

section Copies

variable {s : State} {c : CoreId} {k : Command} {p : Piece} {l : List Byte} (hplain : PlainCopy k)
include hplain

theorem copyIn_ends (h : Claims.performing s c k 1 = true) (hb : k.b.toNat < 2 ^ 14)
    (hin : bitsN k.b.toNat 0 14 * 128 + copyLen k ≤ 0x200000) (hdata : sourceData s c k = l.map some) (hl : l.length = copyLen k) :
    ∃ t, exec (.copyIn c k.id) s = .next t ∧
      Claims.endsOn s t c k 0 0 (fillCells (bitsN k.b.toNat 0 14 * 128) (placed none l) (s.core c)) :=
  event_ends h (fillCells_job _ _ _) fun out =>
    copyIn_inside (s := withOut out s) hplain hb hin ((sourceData_withOut out).trans hdata) hl

theorem copyOut_ends (h : Claims.performing s c k 2 = true) (hb : k.b.toNat < 2 ^ 14)
    (hin : bitsN k.b.toNat 0 14 * 128 + copyLen k ≤ 0x200000) (hclean : (s.core c).parityBad = [])
    (htarget : BareTarget s c k p (copyLen k)) :
    ∃ t, exec (.copyOut c k.id) s = .next t ∧
      EndsWriting s t c k 0 0 p.pa (spadGet (s.core c) (bitsN k.b.toNat 0 14 * 128) (copyLen k)) := by
  have hw := htarget.congr (length_spadGet (s.core c) (bitsN k.b.toNat 0 14 * 128) (copyLen k))
  exact event_writes h htarget.bare hw.inHbm (by decide) fun out =>
    copyOut_writes (s := withOut out s) hplain hb hin hclean (hw.write out)

theorem copyMm_ends (h : Claims.performing s c k 5 = true) (hmeet : piecesMeet (sourceOf k) (targetOf k) = false)
    (hdata : sourceData s c k = l.map some) (hl : l.length = copyLen k) (htarget : BareTarget s c k p (copyLen k)) :
    ∃ t, exec (.copyMm c k.id) s = .next t ∧ EndsWriting s t c k 0 0 p.pa l := by
  have hw := htarget.congr hl
  exact event_writes h htarget.bare hw.inHbm (by decide) fun out =>
    copyMm_writes (s := withOut out s) hplain hmeet htarget.one htarget.len ((sourceData_withOut out).trans hdata) hl (hw.write out)

end Copies

section Rows

variable {s : State} {c : CoreId} {k : Command} {rowb bound : Nat} {p : Piece} (htable : RowTable k rowb bound)
include htable

/-- A gather of which every index is in bound. -/
theorem gather_ends_all {l : List Byte} (h : Claims.performing s c k 3 = true) (hslot : cmdImm k 16 4 = 0)
    (hin : ∀ n, n < 8 → indexOf k.a k.b n < bound) (hdata : sourceData s c k = l.map some) (hl : l.length = 8 * rowb) :
    ∃ t, exec (.gather c k.id) s = .next t ∧
      Claims.endsOn s t c k 0 0 (fillCells (cmdImm k 22 14 * 128) (placed none l) (s.core c)) := by
  refine event_ends h (fillCells_job _ _ _) fun out => ?_
  have hrun := runGather_places (s := withOut out s) (c := c) htable hslot ((sourceData_withOut out).trans hdata)
    (gatherRows_inBound hin (by rwa [List.length_map]))
  rwa [missMask_none hin] at hrun

/-- A gather of which no index is in bound. -/
theorem gather_ends_none (h : Claims.performing s c k 3 = true) (hslot : cmdImm k 16 4 = 0)
    (hout : ∀ n, n < 8 → bound ≤ indexOf k.a k.b n) (hsource : sourceOf k = []) :
    ∃ t, exec (.gather c k.id) s = .next t ∧
      Claims.endsOn s t c k 1 0xFF (fillCells (cmdImm k 22 14 * 128) (placed none (List.replicate (8 * rowb) 0)) (s.core c)) := by
  have hdata : sourceData s c k = ([] : List Byte).map some := by rw [sourceData, hsource]; rfl
  refine event_ends h (fillCells_job _ _ _) fun out => ?_
  have hrun := runGather_places (s := withOut out s) (c := c) (rows := List.replicate (8 * rowb) 0) htable hslot
    ((sourceData_withOut out).trans hdata) ((gatherRows_outOfBound hout).trans List.map_replicate.symm)
  rwa [missMask_all hout] at hrun

/-- A scatter of which no index is in bound. -/
theorem scatter_ends_none (h : Claims.performing s c k 4 = true) (hclean : (s.core c).parityBad = [])
    (hout : ∀ n, n < 8 → bound ≤ indexOf k.a k.b n) (hok : s.memOk) :
    ∃ t, exec (.scatter c k.id) s = .next t ∧ Claims.endsOn s t c k 1 0xFF (s.core c) := by
  have hrows : (List.range 8).filter (fun n => decide (indexOf k.a k.b n < bound)) = [] :=
    List.filter_eq_nil_iff.mpr fun n hn => by simpa using hout n (List.mem_range.mp hn)
  refine event_ends_id h fun out => ?_
  have hrun := runScatter_writes (s := withOut out s) htable hclean hrows (writeTarget_nil (State.memOk_of_eq rfl rfl hok))
  rwa [missMask_all hout] at hrun

/-- A scatter of which one index is in bound. -/
theorem scatter_ends_one {m : Nat} (h : Claims.performing s c k 4 = true) (hclean : (s.core c).parityBad = []) (hm : m < 8)
    (hone : ∀ n, n < 8 → (indexOf k.a k.b n < bound ↔ n = m)) (htarget : BareTarget s c k p rowb) :
    ∃ t, exec (.scatter c k.id) s = .next t ∧
      EndsWriting s t c k 1 (BitVec.ofNat 64 (0xFF - 2 ^ m)) p.pa (spadGet (s.core c) (cmdImm k 22 14 * 128 + m * rowb) rowb) := by
  have hrows : (List.range 8).filter (fun n => decide (indexOf k.a k.b n < bound)) = [m] :=
    filter_one hm fun n hn => by rw [decide_eq_true_eq, hone n hn]
  have hsome : ∀ m < 8, 0xFF - 2 ^ m ≠ 0 := by decide
  have hw := htarget.congr (length_spadGet (s.core c) (cmdImm k 22 14 * 128 + m * rowb) rowb)
  refine event_writes h htarget.bare hw.inHbm (by decide) fun out => ?_
  have hrun := runScatter_writes (s := withOut out s) htable hclean hrows (by rw [List.flatMap_singleton]; exact hw.write out)
  rwa [missMask_other hm hone, if_neg (hsome m hm)] at hrun

end Rows

/-- The event of a load or an unwrap. -/
theorem exec_keyLoad {op : Nat} (c : CoreId) (id : Nat) (s : State) (hop : op = 0 ∨ op = 3) :
    exec (if op = 3 then .keyslotUnwrap c id else .keyslotLoad c id) s = done (onKeyslot op (runKeyLoad (decide (op = 3))) c id s) := by
  rcases hop with rfl | rfl <;> rfl

/-- Settles O47, event by event. -/
theorem copyAndKeyEvents : Obligations.CopyAndKeyEvents := by
  unfold Obligations.CopyAndKeyEvents
  refine ⟨fun s c k l => ?copies, fun s c k l rowb bound => ?rows, fun s c k h hnew => ?coll, fun s c k h => ?inval, fun s c k h => ?keyslot⟩
  case copies =>
    intro g n row hsrc hdst hplanes hslot hrow hcol hdense
    have hplain : PlainCopy k := ⟨hsrc, hdst, hplanes, hslot, hrow, hcol, hdense⟩
    refine ⟨fun h hb hout => event_ends_id h fun out => copyIn_outside (s := withOut out s) hplain hb hout,
      fun h hb hin hdata hl => ?copyIn, fun p hok hpoison hcopy hopen hone hlen hinHbm => ?target⟩
    case copyIn =>
      obtain ⟨t, ht, hends⟩ := copyIn_ends hplain h hb hin hdata hl
      exact ⟨t, _, ht, hends, scratchOnly_fillCells _ _ _, fun i hi => sget_fillCells_inside _ _ _ (hl ▸ hi),
        fun a ha => sget_fillCells_outside _ _ _ (hl ▸ ha)⟩
    case target =>
      have htarget : BareTarget s c k p (copyLen k) := ⟨⟨hcopy, hpoison, hok⟩, hopen, hone, hlen, hinHbm⟩
      refine ⟨fun h hb hin hclean => ?copyOut, fun h hmeet hdata hl => ?copyMm⟩
      case copyOut =>
        obtain ⟨t, ht, hends⟩ := copyOut_ends hplain h hb hin hclean htarget
        have hlen := length_spadGet (s.core c) row n
        refine ⟨t, ht, hends.clusters, hends.ap (by decide), hends.own.scal, fun i hi => ?_, fun v pa hpa => hends.outside v pa (hlen.symm ▸ hpa)⟩
        exact (hends.bytes i (hlen.symm ▸ hi)).trans (congrArg some (getD_spadGet _ _ _ hi))
      case copyMm =>
        obtain ⟨t, ht, hends⟩ := copyMm_ends hplain h hmeet hdata hl htarget
        exact ⟨t, ht, hends.own.scal, fun i hi => hends.bytes i (hl ▸ hi)⟩
  case rows =>
    intro t2 at_ idx hgeo hwhole hleast hmost hbound hfits
    have htable : RowTable k rowb bound := ⟨hgeo, hwhole, hleast, hmost, hbound, hfits⟩
    refine ⟨fun h hslot => ⟨fun hin hdata hl => ?gatherAll, fun hout hsource => ?gatherNone⟩,
      fun h hclean => ⟨scatter_ends_none htable h hclean,
        fun p m hm hidx hok hpoison hcopy hopen hone hlen hinHbm => ?scatterOne⟩⟩
    case gatherAll =>
      obtain ⟨t, ht, hends⟩ := gather_ends_all htable h hslot hin hdata hl
      exact ⟨t, _, ht, hends, scratchOnly_fillCells _ _ _, fun i hi => sget_fillCells_inside _ _ _ (hl ▸ hi),
        fun a ha => sget_fillCells_outside _ _ _ (hl ▸ ha)⟩
    case gatherNone =>
      obtain ⟨t, ht, hends⟩ := gather_ends_none htable h hslot hout hsource
      refine ⟨t, _, ht, hends, scratchOnly_fillCells _ _ _, fun i hi => ?_⟩
      exact (sget_fillCells_inside _ _ _ (by rwa [List.length_replicate])).trans (List.getD_replicate 0 hi)
    case scatterOne =>
      have htarget : BareTarget s c k p rowb := ⟨⟨hcopy, hpoison, hok⟩, hopen, hone, hlen, hinHbm⟩
      obtain ⟨t, ht, hends⟩ := scatter_ends_one htable h hclean hm hidx htarget
      have hrow := length_spadGet (s.core c) (at_ + m * rowb) rowb
      refine ⟨t, ht, hends.own.scal, fun i hi => ?_, fun v pa hpa => hends.outside v pa (hrow.symm ▸ hpa)⟩
      exact (hends.bytes i (hrow.symm ▸ hi)).trans (congrArg some (getD_spadGet _ _ _ hi))
  case coll =>
    obtain ⟨hp, -⟩ := performing_iff.mp h
    refine ⟨fun hbad => coll_refused hp hnew (joins_invalid hbad), fun hvalid hb hgroup hranks hother => ?_⟩
    have hjoins := joins_valid hvalid hb hgroup hranks hother
    refine ⟨coll_tmInvalid hp hnew hjoins, fun htm => ?_⟩
    obtain ⟨t, ht, hcolls, htold, hcores, hclusters, hmem⟩ := coll_joined hp hnew hjoins htm
    exact ⟨t, collOf s c k, ht, hcolls, rfl, rfl, rfl, rfl, rfl, rfl, rfl, htold, hcores, hclusters, hmem⟩
  case inval =>
    obtain ⟨hp, -⟩ := performing_iff.mp h
    exact ⟨inval_submitted hp, inval_submits hp⟩
  case keyslot =>
    intro w op i blob hdr kek
    obtain ⟨hp, -⟩ := performing_iff.mp h
    have hslot {o : Nat} (ho : op = o) : SlotCommand s c k o := ⟨hp, ho⟩
    have hworld : w = keyWorld k := (keyWorld_eq k).symm
    clear_value w
    subst hworld
    refine ⟨fun hop hw hfree => ?zeroed, fun hop hw hheld => ?resident, fun hop hw ha hin hok => ⟨fun hnone => ?wrapNone, fun x hx => ?wrap⟩,
      fun hop hw ha hin hworld hlow hhigh hkind => ?load⟩
    case zeroed =>
      refine keyslotZero_empties (hslot hop) hw (Bool.eq_false_iff.mpr fun hres => ?_)
      obtain ⟨d, hjob, hd⟩ := worldResident_iff.mp hres
      exact hfree d hjob hd
    case resident =>
      exact keyslot_ends_id (hslot hop) fun out => runKeyZero_resident (s := withOut out s) hw (worldResident_iff.mpr hheld)
    case wrapNone =>
      obtain ⟨t, ht, hends, -⟩ := keyslot_ends_id (hslot hop) fun out => runKeyWrap_empty (s := withOut out s) hnone
      exact ⟨t, ht, hends⟩
    case wrap => exact fun hlong => keyslotWrap_writes (hslot hop) hx (blobBad_false hw ha hin) hok hlong
    case load =>
      intro e
      have hgood := blobBad_false hw ha hin
      have hfits : HeaderFits (natOfBytes (deviceBytes s 0 k.a.toNat 8)) (keyWorld k) (decide (op = 3)) :=
        ⟨hworld, hlow, hhigh, decide_eq_decide.mpr hkind⟩
      have hevent : exec e s = done (onKeyslot op (runKeyLoad (decide (op = 3))) c k.id s) := exec_keyLoad c k.id s hop
      have hkek : blobKey (decide (op = 3)) s (keyWorld k) = kek := by
        unfold blobKey
        rcases hop with hop | hop <;> simp only [kek, hop] <;> rfl
      rw [hevent]
      refine ⟨fun hloaded => keyslotLoad_refused (hslot rfl) hgood (by decide) (readBlob_loaded hfits hloaded),
        fun hnone hscrub => keyslotLoad_refused (hslot rfl) hgood (by decide) (readBlob_scrubbing hfits hnone hscrub),
        fun hnone hscrub hkeyless => keyslotLoad_refused (hslot rfl) hgood (by decide) ?keyless, fun q hnone hscrub hq => ⟨fun hbroken => ?broken,
          fun l hl => ?loaded⟩⟩
      case keyless =>
        rw [hkek, hkeyless]
        exact readBlob_keyless hfits hnone hscrub
      case broken =>
        refine keyslotLoad_refused (hslot rfl) hgood (e := 0x12) (by decide) ?_
        rw [hkek, hq]
        exact readBlob_broken hfits hnone hscrub hbroken
      case loaded =>
        refine keyslotLoad_loads (hslot rfl) hgood ?_
        rw [hkek, hq]
        exact readBlob_unwrapped hfits hnone hscrub hl

end Sys2Proof.Proofs.CopyAndKey
end

section
/-! PROOFS. Encodings of cairn and dresser words (R172, R378): packing and cutting a cairn word undo each other, each unit's decoder
reads back the fields that its encoder writes, and the bytes of a word are those of its one unit or two. -/

namespace Sys2Proof.Proofs.UnitEncoding

open Sys2Proof Sys2Proof.Proofs.Encoding

/-! ### Fields of a cairn word (R378) -/

/-- A part of a packed cairn word, with the word's width written as the sum of the widths of its fields. -/
theorem extractLsb'_packCairn (x : CairnFld) (start len : Nat) :
    (packCairn x).extractLsb' start len = BitVec.extractLsb' (n := 6 + 1 + 4 + 4 + 4 + 2 + 11) start len
      (x.op ++ BitVec.ofBool x.i ++ x.d ++ x.a ++ x.b ++ x.m ++ x.imm) := rfl

theorem unpackCairn_packCairn (x : CairnFld) : unpackCairn (packCairn x) = x := by
  have hi : BitVec.ofBool ((packCairn x).getLsbD 25) = BitVec.ofBool x.i := by
    simp (disch := decide) only [← extractLsb'_one, extractLsb'_packCairn, BitVec.extractLsb'_append_eq_of_add_le,
      BitVec.extractLsb'_append_eq_of_le, Nat.reduceSub, BitVec.extractLsb'_eq_self]
  simp (disch := decide) only [unpackCairn, BitVec.ofBool_eq_iff_eq.mp hi, extractLsb'_packCairn,
    BitVec.extractLsb'_append_eq_of_add_le, BitVec.extractLsb'_append_eq_of_le, Nat.reduceSub, BitVec.extractLsb'_eq_self]

/-! ### The opcode map of cairn words -/

theorem append_parts17 (v : BitVec 17) : v.extractLsb' 13 4 ++ v.extractLsb' 11 2 ++ v.extractLsb' 0 11 = v := by
  iterate 2 rw [BitVec.extractLsb'_append_extractLsb'_eq_extractLsb' (by rfl)]
  exact BitVec.extractLsb'_eq_self

theorem append_parts15 (v : BitVec 15) : v.extractLsb' 13 2 ++ v.extractLsb' 11 2 ++ v.extractLsb' 0 11 = v := by
  iterate 2 rw [BitVec.extractLsb'_append_extractLsb'_eq_extractLsb' (by rfl)]
  exact BitVec.extractLsb'_eq_self

/-- The opcode map of cairn words reads the fields that the encoder writes: in most rows each operand is a whole field; in the others
it is the low part of one, or two or three of them together. -/
theorem ofCairn_of_toCairn {i : Instr} {x : CairnFld} (h : toCairn i = some x) : ofCairn x = some i := by
  cases i with
  | cCmpEq d a b m | cCmpNe d a b m | cCmpLt d a b m | cCmpLe d a b m | cCmpLtu d a b m | cCmpLeu d a b m | cCmpFlt d a b m
  | cCmpFle d a b m | cCmpEqI d a m v | cCmpNeI d a m v | cCmpLtI d a m v | cCmpLeI d a m v | cCmpLtuI d a m v | cCmpLeuI d a m v
  | cMand d a b | cMor d a b | cMxor d a b | cMnot d a | cBcast d a n | cRot d a n | cFld d m n | cFst a m n | cRidx d n =>
    cases h
    simp only [ofCairn, BitVec.extractLsb'_append_eq_right]
    rfl
  | cSld d m n x | cSst a m n x =>
    cases h
    simp only [ofCairn, BitVec.extractLsb'_append_eq_right, BitVec.extractLsb'_append_eq_left]
    rfl
  | cLi d v =>
    cases h
    exact congrArg (fun n => some (Instr.cLi d n)) (append_parts17 v)
  | cLhi d v =>
    cases h
    simp only [ofCairn, BitVec.extractLsb'_append_eq_right]
    exact congrArg (fun n => some (Instr.cLhi d n)) (append_parts15 v)
  | cRep n len =>
    cases h
    exact congrArg (fun n => some (Instr.cRep n len)) (extractLsb'_append_self (n := 4) (m := 4) n)
  | _ => cases h <;> rfl

/-- A word whose fields are those of a cairn instruction decodes to it. -/
theorem decodeCairn_of_toCairn {i : Instr} {x : CairnFld} (h : toCairn i = some x) : decodeCairn (packCairn x) = .ok i := by
  simp only [decodeCairn, unpackCairn_packCairn, ofCairn_of_toCairn h, h, if_true]

/-! ### The opcode map of dresser words (R172) -/

/-- The opcode map of dresser words reads the fields that the encoder writes. -/
theorem ofDress_of_toDress {i : Instr} {w : W64} (h : toDress i = some w) : ofDress w = some i := by
  cases i with
  | axis c n | split c n | join c | swap c j | rev c | pad c lo hi v | tile c j m | emit c st =>
    cases h
    simp (disch := decide) only [ofDress, BitVec.extractLsb'_append_eq_of_add_le,
      BitVec.extractLsb'_append_eq_of_le, Nat.reduceSub, BitVec.extractLsb'_eq_self]
    rfl
  | _ => cases h

/-- The word of a dresser instruction decodes to it. -/
theorem decodeDress_of_toDress {i : Instr} {w : W64} (h : toDress i = some w) : decodeDress w = .ok i := by
  simp only [decodeDress, ofDress_of_toDress h, h, if_true]

/-! ### Words as bytes (R6, R172, R378) -/

theorem toFields_of_toCairn {i : Instr} {x : CairnFld} (h : toCairn i = some x) : toFields i = none := by
  cases i <;> cases h <;> rfl

theorem toFields_of_toDress {i : Instr} {w : W64} (h : toDress i = some w) : toFields i = none := by
  cases i <;> cases h <;> rfl

theorem toCairn_of_toDress {i : Instr} {w : W64} (h : toDress i = some w) : toCairn i = none := by
  cases i <;> cases h <;> rfl

theorem encode_of_toCairn {i : Instr} {x : CairnFld} (h : toCairn i = some x) : encode i = unitBytes (packCairn x) := by
  simp only [encode, encodeWord, encodeCairn, toFields_of_toCairn h, h, Option.map_none, Option.map_some]

theorem encode_of_toDress {i : Instr} {w : W64} (h : toDress i = some w) :
    encode i = unitBytes (w.extractLsb' 0 32) ++ unitBytes (w.extractLsb' 32 32) := by
  simp only [encode, encodeWord, encodeCairn, toFields_of_toDress h, toCairn_of_toDress h, h, Option.map_none]

theorem decodeBytes_kernel (u : W32) (r : List Byte) :
    decodeBytes .kernel (unitBytes u ++ r) = (decodeCairn u).map fun i => (i, r) := by
  simp only [unitBytes, List.cons_append, List.nil_append, decodeBytes, unitOf_bytes]

theorem decodeBytes_dressing (w : W64) (r : List Byte) :
    decodeBytes .dressing (unitBytes (w.extractLsb' 0 32) ++ unitBytes (w.extractLsb' 32 32) ++ r) =
      (decodeDress w).map fun i => (i, r) := by
  simp only [unitBytes, List.cons_append, List.nil_append, decodeBytes, unitOf_bytes, extractLsb'_append_self (n := 32) (m := 32) w]

/-- Settles O2: the instruction's bytes are those of its one unit or two, and the decoder reads the fields that the encoder writes. -/
theorem unitWordRoundTrip : Obligations.UnitWordRoundTrip := by
  unfold Obligations.UnitWordRoundTrip
  refine ⟨fun p i r _ hsome => ?cairn, fun p i r _ hsome => ?dresser⟩
  case cairn =>
    rw [encodeCairn, Option.isSome_map] at hsome
    obtain ⟨x, hx⟩ := Option.isSome_iff_exists.mp hsome
    rw [encode_of_toCairn hx, decodeBytes_kernel, decodeCairn_of_toCairn hx]
    exact ⟨rfl, rfl⟩
  case dresser =>
    obtain ⟨w, hw⟩ := Option.isSome_iff_exists.mp hsome
    rw [encode_of_toDress hw, decodeBytes_dressing, decodeDress_of_toDress hw]
    exact ⟨rfl, rfl⟩

end Sys2Proof.Proofs.UnitEncoding
end

section
/-! PROOFS. Words of dressing programs (R173, R174): each word's effect on the loader as an equation over the axis that it names, with
the checks that refuse it. -/

namespace Sys2Proof.Proofs.DresserWords

open Sys2Proof Sys2Proof.Machine Sys2Proof.Claims Sys2Proof.Proofs

/-! ### The checks of the loader (R174) -/

/-- The list of axes passes the refusals that hold at every point. -/
def AxesFit (l : List Axis) : Prop := l.length ≤ 6 ∧ ∀ a ∈ l, a.ext ≤ 65536

theorem axesFit_iff {l : List Axis} : AxesFit l ↔ l.length ≤ 6 ∧ l.all (fun a => decide (a.ext ≤ 65536)) = true := by
  simp [AxesFit]

theorem checkAxes_of_fit {w : DressWork} (h : AxesFit w.axes) : checkAxes w = w := by
  refine if_neg ?_
  simp only [Bool.or_eq_true, List.any_eq_true, decide_eq_true_eq, not_or, not_exists, not_and, Nat.not_lt]
  exact h

theorem checkAxes_refused_of_not_fit {w : DressWork} (h : ¬ AxesFit w.axes) : (checkAxes w).refused = true := by
  unfold checkAxes
  split
  · rfl
  · next hc =>
    simp only [Bool.or_eq_true, List.any_eq_true, decide_eq_true_eq, not_or, not_exists, not_and, Nat.not_lt] at hc
    exact absurd hc h

/-- A check keeps a refusal. -/
theorem checkAxes_refused {w : DressWork} (h : w.refused = true) : (checkAxes w).refused = true := by
  unfold checkAxes
  split
  · rfl
  · exact h

@[simp] theorem closeAxes_axes (w : DressWork) : (closeAxes w).axes = w.axes := by unfold closeAxes; split <;> rfl
@[simp] theorem closeAxes_names (w : DressWork) : (closeAxes w).names = w.names := by unfold closeAxes; split <;> rfl

theorem closeAxes_of_no_emit {w : DressWork} (h : w.emits = 0) : closeAxes w = { w with closed := true } := if_neg (not_not.mpr h)

theorem closeAxes_refused {w : DressWork} (h : w.emits ≠ 0) : (closeAxes w).refused = true := by
  rw [closeAxes, if_pos h]
  rfl

/-- A plain axis to which no swizzle refers, as the loader checks it. -/
theorem plainAxis_and_not_referred (w : DressWork) (a : Axis) : (plainAxis a && !referred (closeAxes w) a.name) = plainIn w a := by
  unfold plainAxis referred plainIn
  rw [closeAxes_axes, List.not_any_eq_all_not]
  congr 2
  funext b
  cases b.sw <;> simp

/-! ### Lists of axes -/

theorem mem_spliceAt {α : Type} {l r : List α} {i n : Nat} {x : α} (h : x ∈ spliceAt l i n r) : x ∈ l ∨ x ∈ r := by
  simp only [spliceAt, List.mem_append] at h
  rcases h with (h | h) | h
  · exact .inl (List.mem_of_mem_take h)
  · exact .inr h
  · exact .inl (List.mem_of_mem_drop h)

theorem mem_spliceAt_of_mem {α : Type} {l r : List α} (i n : Nat) {x : α} (h : x ∈ r) : x ∈ spliceAt l i n r := by
  simp [spliceAt, h]

theorem length_spliceAt {α : Type} {l r : List α} {i n : Nat} (h : i + n ≤ l.length) :
    (spliceAt l i n r).length = l.length - n + r.length := by
  simp only [spliceAt, List.length_append, List.length_take, List.length_drop]
  omega

theorem axesFit_spliceAt {l r : List Axis} {i n : Nat} (hi : i + n ≤ l.length) (hl : AxesFit l) (hlen : l.length - n + r.length ≤ 6)
    (hr : ∀ a ∈ r, a.ext ≤ 65536) : AxesFit (spliceAt l i n r) :=
  ⟨(length_spliceAt hi).trans_le hlen, fun a ha => (mem_spliceAt ha).elim (hl.2 a) (hr a)⟩

theorem axesFit_set {l : List Axis} {i : Nat} {a : Axis} (hl : AxesFit l) (ha : a.ext ≤ 65536) : AxesFit (l.set i a) :=
  ⟨List.length_set.trans_le hl.1, fun b hb => (List.mem_or_eq_of_mem_set hb).elim (hl.2 b) fun h => h ▸ ha⟩

/-! ### The axis at a position changed -/

section OnAxis

variable {c : BitVec 4} {ok : Axis → Bool} {f : Axis → Axis} {w : DressWork} {a : Axis}

/-- The change is refused in a loader that has refused its program already. -/
theorem onAxis_refused (h : w.refused = true) : (onAxis c ok f w).refused = true := by
  unfold onAxis
  split
  · split
    · exact checkAxes_refused h
    · rfl
  · rfl

theorem onAxis_none (h : w.axes[c.toNat]? = none) : (onAxis c ok f w).refused = true := by
  rw [onAxis, h]
  rfl

theorem onAxis_not_ok (h : w.axes[c.toNat]? = some a) (hok : ok a = false) : (onAxis c ok f w).refused = true := by
  simp only [onAxis, h, hok, Bool.false_eq_true, if_false]
  rfl

theorem onAxis_of_fit (h : w.axes[c.toNat]? = some a) (hok : ok a = true) (hl : AxesFit w.axes) (hext : (f a).ext ≤ 65536) :
    onAxis c ok f w = { w with axes := w.axes.set c.toNat (f a) } := by
  simp only [onAxis, h, hok, if_true]
  exact checkAxes_of_fit (axesFit_set hl hext)

theorem onAxis_too_long (h : w.axes[c.toNat]? = some a) (hext : 65536 < (f a).ext) : (onAxis c ok f w).refused = true := by
  obtain ⟨hc, -⟩ := List.getElem?_eq_some_iff.mp h
  simp only [onAxis, h]
  split
  · exact checkAxes_refused_of_not_fit fun hfit => Nat.not_lt.mpr (hfit.2 _ (List.mem_set hc _)) hext
  · rfl

end OnAxis

/-! ### The words (R173) -/

section Words

variable {c j : BitVec 4} {w : DressWork} {a b : Axis}

/-- The axes that stand before a declared axis, with their strides grown by its extent. -/
def grown (l : List Axis) (ext : Nat) : List Axis := l.map fun a => { a with istr := a.istr * ext }

theorem axesFit_declared {l : List Axis} {name ext : Nat} (hl : AxesFit l) (hlen : l.length ≤ 5) (hext : ext ≤ 65536) :
    AxesFit (grown l ext ++ [freshAxis name ext 1]) := by
  refine ⟨by simpa [grown] using Nat.lt_succ_of_le hlen, fun a ha => ?_⟩
  rcases List.mem_append.mp ha with ha | ha
  · obtain ⟨b, hb, rfl⟩ := List.mem_map.mp ha
    exact hl.2 b hb
  · rw [List.mem_singleton.mp ha]
    exact hext

theorem dressAxis_declares {n : BitVec 16} (hw : w.closed = false) (hc : c.toNat = w.axes.length) (h5 : c.toNat ≤ 5)
    (htotal : w.total * (n.toNat + 1) ≤ 2 ^ 24) (hfit : AxesFit w.axes) :
    dressAxis c n w = { w with
      axes := grown w.axes (n.toNat + 1) ++ [freshAxis w.names (n.toNat + 1) 1]
      total := w.total * (n.toNat + 1), names := w.names + 1 } := by
  simp only [dressAxis, hw, hc, ne_eq, not_true, decide_false, Bool.or_false, Nat.not_lt.mpr (hc ▸ h5), Nat.not_lt.mpr htotal, if_false]
  exact checkAxes_of_fit (axesFit_declared hfit (hc ▸ h5) n.isLt)

theorem dressAxis_refused {n : BitVec 16}
    (h : w.closed = true ∨ c.toNat ≠ w.axes.length ∨ 5 < c.toNat ∨ 2 ^ 24 < w.total * (n.toNat + 1)) :
    (dressAxis c n w).refused = true := by
  unfold dressAxis
  split
  · rfl
  · next hplace =>
    simp only [Bool.or_eq_true, decide_eq_true_eq, not_or] at hplace
    obtain ⟨⟨hopen, hc⟩, h5⟩ := hplace
    have htotal : 2 ^ 24 < w.total * (n.toNat + 1) := by
      rcases h with h | h | h | h
      exacts [absurd h hopen, absurd h hc, absurd h h5, h]
    dsimp only
    rw [if_pos htotal]
    exact checkAxes_refused rfl

theorem dressSplit_eq {n : BitVec 16} (h : w.axes[c.toNat]? = some a) : dressSplit c n w =
    if plainIn w a && decide (a.ext % (n.toNat + 1) = 0) then checkAxes { closeAxes w with
      axes := spliceAt w.axes c.toNat 1
        [freshAxis w.names (a.ext / (n.toNat + 1)) (a.istr * (n.toNat + 1)), freshAxis (w.names + 1) (n.toNat + 1) a.istr]
      names := w.names + 2 } else refuse (closeAxes w) := by
  simp only [dressSplit, closeAxes_axes, closeAxes_names, h, ← plainAxis_and_not_referred]
  rw [Bool.and_right_comm]
  rfl

theorem dressSplit_splits {n : BitVec 16} (h : w.axes[c.toNat]? = some a) (hw : w.emits = 0) (hp : plainIn w a = true)
    (hdvd : (n.toNat + 1) ∣ a.ext) (hlen : w.axes.length ≤ 5) (hfit : AxesFit w.axes) :
    dressSplit c n w = { w with
      closed := true, names := w.names + 2
      axes := spliceAt w.axes c.toNat 1
        [freshAxis w.names (a.ext / (n.toNat + 1)) (a.istr * (n.toNat + 1)), freshAxis (w.names + 1) (n.toNat + 1) a.istr] } := by
  obtain ⟨hc, ha⟩ := List.getElem?_eq_some_iff.mp h
  rw [dressSplit_eq h, hp, decide_eq_true (Nat.mod_eq_zero_of_dvd hdvd), closeAxes_of_no_emit hw]
  refine checkAxes_of_fit (axesFit_spliceAt hc hfit ?_ ?_)
  · simp only [List.length_cons, List.length_nil]
    omega
  · have hext : a.ext ≤ 65536 := hfit.2 a (List.mem_of_getElem? h)
    simp only [List.mem_cons, List.not_mem_nil, or_false, forall_eq_or_imp, forall_eq, freshAxis]
    exact ⟨(Nat.div_le_self _ _).trans hext, n.isLt⟩

theorem dressSplit_refused {n : BitVec 16} (ha : w.axes[c.toNat]? = some a)
    (h : w.emits ≠ 0 ∨ plainIn w a = false ∨ ¬ (n.toNat + 1) ∣ a.ext ∨ 5 < w.axes.length) : (dressSplit c n w).refused = true := by
  obtain ⟨hc, -⟩ := List.getElem?_eq_some_iff.mp ha
  rw [dressSplit_eq ha]
  split
  · next hok =>
    rw [Bool.and_eq_true, decide_eq_true_eq] at hok
    obtain ⟨hp, hmod⟩ := hok
    rcases h with h | h | h | h
    · exact checkAxes_refused (closeAxes_refused h)
    · exact absurd (hp.symm.trans h) (by decide)
    · exact absurd (Nat.dvd_of_mod_eq_zero hmod) h
    · refine checkAxes_refused_of_not_fit fun hfit => ?_
      have hlen := hfit.1
      dsimp only at hlen
      rw [length_spliceAt hc] at hlen
      simp only [List.length_cons, List.length_nil] at hlen
      omega
  · rfl

theorem dressJoin_eq (ha : w.axes[c.toNat]? = some a) (hb : w.axes[c.toNat + 1]? = some b) : dressJoin c w =
    if plainIn w a && plainIn w b && decide (a.istr = b.ext * b.istr) then checkAxes { closeAxes w with
      axes := spliceAt w.axes c.toNat 2 [freshAxis w.names (a.ext * b.ext) b.istr], names := w.names + 1 }
    else refuse (closeAxes w) := by
  simp only [dressJoin, closeAxes_axes, closeAxes_names, ha, hb, ← plainAxis_and_not_referred]
  congr 2
  ac_rfl

theorem dressJoin_joins (ha : w.axes[c.toNat]? = some a) (hb : w.axes[c.toNat + 1]? = some b) (hw : w.emits = 0)
    (hpa : plainIn w a = true) (hpb : plainIn w b = true) (hstr : a.istr = b.ext * b.istr) (hext : a.ext * b.ext ≤ 65536)
    (hfit : AxesFit w.axes) :
    dressJoin c w = { w with
      closed := true, names := w.names + 1, axes := spliceAt w.axes c.toNat 2 [freshAxis w.names (a.ext * b.ext) b.istr] } := by
  obtain ⟨hc, -⟩ := List.getElem?_eq_some_iff.mp hb
  rw [dressJoin_eq ha hb, hpa, hpb, decide_eq_true hstr, closeAxes_of_no_emit hw]
  refine checkAxes_of_fit (axesFit_spliceAt hc hfit ?_ ?_)
  · have hlen := hfit.1
    simp only [List.length_cons, List.length_nil]
    omega
  · intro x hx
    rw [List.mem_singleton.mp hx]
    exact hext

theorem dressJoin_refused (ha : w.axes[c.toNat]? = some a) (hb : w.axes[c.toNat + 1]? = some b)
    (h : w.emits ≠ 0 ∨ plainIn w a = false ∨ plainIn w b = false ∨ a.istr ≠ b.ext * b.istr ∨ 65536 < a.ext * b.ext) :
    (dressJoin c w).refused = true := by
  rw [dressJoin_eq ha hb]
  split
  · next hok =>
    simp only [Bool.and_eq_true, decide_eq_true_eq] at hok
    obtain ⟨⟨hpa, hpb⟩, hstr⟩ := hok
    rcases h with h | h | h | h | h
    · exact checkAxes_refused (closeAxes_refused h)
    · exact absurd (hpa.symm.trans h) (by decide)
    · exact absurd (hpb.symm.trans h) (by decide)
    · exact absurd hstr h
    · exact checkAxes_refused_of_not_fit fun hfit =>
        Nat.not_lt.mpr (hfit.2 _ (mem_spliceAt_of_mem _ _ (List.mem_singleton_self _))) h
  · rfl

theorem dressSwap_swaps (ha : w.axes[c.toNat]? = some a) (hb : w.axes[j.toNat]? = some b) (hw : w.emits = 0) :
    dressSwap c j w = { w with closed := true, axes := (w.axes.set c.toNat b).set j.toNat a } := by
  simp only [dressSwap, closeAxes_of_no_emit hw, ha, hb]

theorem dressRev_reverses (ha : w.axes[c.toNat]? = some a) (hw : w.emits = 0) (hfit : AxesFit w.axes) :
    dressRev c w = { w with closed := true, axes := w.axes.set c.toNat { a with neg := !a.neg } } := by
  rw [dressRev, closeAxes_of_no_emit hw]
  exact onAxis_of_fit ha rfl hfit (hfit.2 a (List.mem_of_getElem? ha))

theorem dressPad_pads {lo hi : BitVec 16} {v : BitVec 8} (ha : w.axes[c.toNat]? = some a) (hw : w.emits = 0) (hp : a.padded = false)
    (hext : a.ext + lo.toNat + hi.toNat ≤ 65536) (hfit : AxesFit w.axes) :
    dressPad c lo hi v w = { w with
      closed := true
      axes := w.axes.set c.toNat { a with lo := lo.toNat, ext := a.ext + lo.toNat + hi.toNat, pad := v, padded := true } } := by
  rw [dressPad, closeAxes_of_no_emit hw]
  exact onAxis_of_fit ha (congrArg not hp) hfit hext

theorem dressPad_refused {lo hi : BitVec 16} {v : BitVec 8} (ha : w.axes[c.toNat]? = some a)
    (h : w.emits ≠ 0 ∨ a.padded = true ∨ 65536 < a.ext + lo.toNat + hi.toNat) : (dressPad c lo hi v w).refused = true := by
  have hx : (closeAxes w).axes[c.toNat]? = some a := (congrArg (·[c.toNat]?) (closeAxes_axes w)).trans ha
  rcases h with h | h | h
  · exact onAxis_refused (closeAxes_refused h)
  · exact onAxis_not_ok hx (congrArg not h)
  · exact onAxis_too_long hx h

theorem dressTile_eq {m : BitVec 4} (hb : w.axes[j.toNat]? = some b) : dressTile c j m w =
    onAxis c (fun a => decide (j ≠ c) && a.sw.isNone && decide (m ≠ 0) && decide (a.ext % 2 ^ m.toNat = 0))
      (fun a => { a with sw := some (b.name, 2 ^ m.toNat) }) (closeAxes w) := by
  simp only [dressTile, closeAxes_axes, hb]

theorem dressTile_tiles {m : BitVec 4} (ha : w.axes[c.toNat]? = some a) (hb : w.axes[j.toNat]? = some b) (hm : m ≠ 0)
    (hw : w.emits = 0) (hj : j ≠ c) (hsw : a.sw = none) (hdvd : 2 ^ m.toNat ∣ a.ext) (hfit : AxesFit w.axes) :
    dressTile c j m w = { w with closed := true, axes := w.axes.set c.toNat { a with sw := some (b.name, 2 ^ m.toNat) } } := by
  rw [dressTile_eq hb, closeAxes_of_no_emit hw]
  refine onAxis_of_fit ha ?_ hfit (hfit.2 a (List.mem_of_getElem? ha))
  simp [show ¬ m = 0#4 from hm, hj, hsw, Nat.mod_eq_zero_of_dvd hdvd]

theorem dressTile_refused {m : BitVec 4} (ha : w.axes[c.toNat]? = some a) (hb : w.axes[j.toNat]? = some b)
    (h : w.emits ≠ 0 ∨ j = c ∨ a.sw ≠ none ∨ ¬ 2 ^ m.toNat ∣ a.ext) : (dressTile c j m w).refused = true := by
  have hx : (closeAxes w).axes[c.toNat]? = some a := (congrArg (·[c.toNat]?) (closeAxes_axes w)).trans ha
  rw [dressTile_eq hb]
  rcases h with h | h | h | h
  · exact onAxis_refused (closeAxes_refused h)
  · exact onAxis_not_ok hx (by simp [h])
  · exact onAxis_not_ok hx (by simp [h])
  · exact onAxis_not_ok hx (by simp [mt Nat.dvd_of_mod_eq_zero h])

theorem dressEmit_emits {st : BitVec 32} (ha : w.axes[c.toNat]? = some a) (hc : c.toNat = w.emits) (hfit : AxesFit w.axes) :
    dressEmit c st w =
      { w with closed := true, emits := w.emits + 1, axes := w.axes.set c.toNat { a with ostr := some st.toNat } } := by
  rw [dressEmit, if_neg (not_not.mpr hc)]
  exact onAxis_of_fit ha rfl hfit (hfit.2 a (List.mem_of_getElem? ha))

theorem dressEmit_refused {st : BitVec 32} (hc : c.toNat ≠ w.emits) : (dressEmit c st w).refused = true := by
  rw [dressEmit, if_pos hc]
  rfl

end Words

/-! ### A word that names no axis -/

section Absent

variable {c j : BitVec 4} {w : DressWork}

theorem closed_absent (h : w.axes[c.toNat]? = none) : (closeAxes w).axes[c.toNat]? = none :=
  (congrArg (·[c.toNat]?) (closeAxes_axes w)).trans h

theorem dressSplit_absent (h : w.axes[c.toNat]? = none) (n : BitVec 16) : (dressSplit c n w).refused = true := by
  rw [dressSplit, closed_absent h]
  rfl

theorem dressJoin_absent (h : w.axes[c.toNat]? = none) : (dressJoin c w).refused = true := by
  rw [dressJoin, closed_absent h]
  rfl

theorem dressSwap_absent (h : w.axes[c.toNat]? = none) (j : BitVec 4) :
    (dressSwap c j w).refused = true ∧ (dressSwap j c w).refused = true := by
  rw [dressSwap, dressSwap, closed_absent h]
  cases (closeAxes w).axes[j.toNat]? <;> exact ⟨rfl, rfl⟩

theorem dressTile_absent (h : w.axes[c.toNat]? = none) (j m : BitVec 4) :
    (dressTile c j m w).refused = true ∧ (dressTile j c m w).refused = true := by
  rw [dressTile, dressTile, closed_absent h]
  refine ⟨?_, rfl⟩
  cases (closeAxes w).axes[j.toNat]?
  · rfl
  · exact onAxis_none (closed_absent h)

theorem dressEmit_absent (h : w.axes[c.toNat]? = none) (st : BitVec 32) : (dressEmit c st w).refused = true := by
  by_cases hc : c.toNat = w.emits
  · rw [dressEmit, if_neg (not_not.mpr hc)]
    exact onAxis_none h
  · exact dressEmit_refused hc

end Absent

/-! ### The words as they issue -/

/-- A word of the loader, as its dresser issues it (R171). -/
theorem done_onDress {s : State} {k : ClusterId} {f : DressWork → DressWork} {w : DressWork} (hi : s.issuer = .dress k) (hq : s.regq = [])
    (hf : f (s.cluster k).work = w) : done (onDress f s) = .next (s.modCluster k fun x => { x with work := w }) := by
  simp only [onDress, hi, ← hf]
  exact Acts.done_of_regq hq

/-- Settles O38, word by word: the axis that the word names, and the checks that it passes or fails. -/
theorem dresserWordResult : Obligations.DresserWordResult := by
  unfold Obligations.DresserWordResult
  intro s k c j hi hq w put sound
  have fit (h : sound) : AxesFit w.axes := axesFit_iff.mpr h
  have ends {f : DressWork → DressWork} {w' : DressWork} (h : f w = w') : done (onDress f s) = put w' := done_onDress hi hq h
  have refuses {f : DressWork → DressWork} (h : (f w).refused = true) : ∃ w', done (onDress f s) = put w' ∧ w'.refused = true :=
    ⟨f w, ends rfl, h⟩
  refine ⟨fun n => ⟨?_, ?_⟩, fun n a ha => ⟨?_, ?_⟩, fun a b ha hb => ⟨?_, ?_⟩, ?_, ?_, fun a lo hi v ha => ⟨?_, ?_⟩,
    fun a b m ha hb hm => ⟨?_, ?_⟩, fun a st ha => ⟨?_, ?_⟩, fun h i hmem => ?_⟩
  · exact fun hw hc h5 ht hs => ends (dressAxis_declares hw hc h5 ht (fit hs))
  · exact fun h => refuses (dressAxis_refused h)
  · exact fun hw hp hd hl hs => ends (dressSplit_splits ha hw hp hd hl (fit hs))
  · exact fun h => refuses (dressSplit_refused ha h)
  · exact fun hw hpa hpb hstr hext hs => ends (dressJoin_joins ha hb hw hpa hpb hstr hext (fit hs))
  · exact fun h => refuses (dressJoin_refused ha hb h)
  · exact fun a b hw ha hb => ends (dressSwap_swaps ha hb hw)
  · exact fun a hw ha hs => ends (dressRev_reverses ha hw (fit hs))
  · exact fun hw hp hext hs => ends (dressPad_pads ha hw hp hext (fit hs))
  · exact fun h => refuses (dressPad_refused ha h)
  · exact fun hw hj hsw hd hs => ends (dressTile_tiles ha hb hm hw hj hsw hd (fit hs))
  · exact fun h => refuses (dressTile_refused ha hb h)
  · exact fun hc hs => ends (dressEmit_emits ha hc (fit hs))
  · exact fun h => refuses (dressEmit_refused h)
  · simp only [List.mem_cons, List.not_mem_nil, or_false] at hmem
    rcases hmem with rfl | rfl | rfl | rfl | rfl | rfl | rfl | rfl | rfl
    · exact refuses (dressSplit_absent h 0)
    · exact refuses (dressJoin_absent h)
    · exact refuses (dressSwap_absent h j).1
    · exact refuses (dressSwap_absent h j).2
    · exact refuses (onAxis_none (closed_absent h))
    · exact refuses (onAxis_none (closed_absent h))
    · exact refuses (dressTile_absent h j 1).1
    · exact refuses (dressTile_absent h j 1).2
    · exact refuses (dressEmit_absent h 0)

end Sys2Proof.Proofs.DresserWords
end

section
/-! PROOFS. Scrub words (R159, R391, R392, R396): when a scrub word takes place, and its one outcome. -/

namespace Sys2Proof.Proofs.ScrubWords

open Sys2Proof Sys2Proof.Machine Sys2Proof.Claims Sys2Proof.Proofs.Cop

/-- A scrub word that issues by itself. -/
structure ScrubIssues (k : Ctx) (kind : Nat) (f : Fld) : Prop where
  priv : streamPriv k = true
  guard : guardLate k.core k.e f.h = false
  ready : lateCop k f = []
  room : (beforeScrub k kind f k.s).scrub.list.length < 64 ∨ kind = 3
  performed : kind = 1 ∨ kind = 2 → storesDone (beforeScrub k kind f k.s) k.c = true

theorem scrubWaits_false {k : Ctx} {kind : Nat} {f : Fld} (h : k.s.scrub.list.length < 64 ∨ kind = 3) : scrubWaits k kind f = false := by
  rcases h with h | h
  · simp [scrubWaits, h]
  · simp [scrubWaits, h]

/-- The plan of a scrub word that waits for nothing: the stores before it leave, then its effect. -/
theorem planScrub_ready {k : Ctx} {kind : Nat} {f : Fld} (h : ScrubIssues k kind f) : planScrub kind f k =
    { act := fun s => scrubAct k kind f (beforeScrub k kind f s), wait := beforeScrub k kind f } := by
  have hheld : ((decide (kind = 1) || decide (kind = 2)) && !storesDone (beforeScrub k kind f k.s) k.c) = false := by
    by_cases hk : kind = 1 ∨ kind = 2
    · simp [h.performed hk]
    · simp [not_or.mp hk]
  have hroom : scrubWaits { k with s := beforeScrub k kind f k.s } kind f = false := scrubWaits_false h.room
  simp [planScrub, h.priv, h.guard, h.ready, hheld, hroom]

/-- The scrub words and their plans. -/
theorem scrubWords_plan {w : (Fld → Instr) × Nat} (hw : w ∈ scrubWords) (f : Fld) : planOf (w.1 f) = planScrub w.2 f := by
  simp only [scrubWords, List.mem_cons, List.not_mem_nil, or_false] at hw
  obtain rfl | rfl | rfl | rfl := hw <;> rfl

/-- Settles O24: the word's plan takes place at once, and its effect is the one outcome that its guard, its kind and the refusals pick. -/
theorem scrubWordResult : Obligations.ScrubWordResult := by
  unfold Obligations.ScrubWordResult
  intro w hw s c f e kk s1 u y hgo hready hpriv hguard hroom hperformed m a b world r
  have hissues : ScrubIssues (ctxOf s c e (w.1 f)) w.2 f := ⟨hpriv, hguard, lateCop_nil hready, hroom, hperformed⟩
  have hplan := (congrFun (scrubWords_plan hw f) (ctxOf s c e (w.1 f))).trans (planScrub_ready hissues)
  rw [exec_untimed hgo _ hplan rfl rfl rfl]
  refine congrArg (fun t => Host.Outcome.next (flushRegs t)) ?_
  change scrubAct kk w.2 f u = _
  have hnull : scrubNull kk f = !guardTrue (s.core c) e f.h := rfl
  unfold scrubAct
  cases hg : guardTrue (s.core c) e f.h <;> simp only [hnull, hg] <;> rfl

end Sys2Proof.Proofs.ScrubWords
end

section
/-! PROOFS. Stores of an AP (R145, R146, R150, R314, R315): what a store puts into the store queue, what reads back from it, and the byte
that a store leaves in its face when it drains. -/

namespace Sys2Proof.Proofs.Stores

open Sys2Proof Sys2Proof.Machine Sys2Proof.Claims
open Sys2Proof.Proofs.ScalarWords (lateReg_ready)
open Sys2Proof.Proofs.Device (length_bytesOfNat onlyMemory_keys)
open Sys2Proof.Proofs.Sources (getLsbD_setSlice)
open Sys2Proof.Proofs.Loads (outside_of_inHbm seesByte_hbm l2Read_sees onlyMemory_l2Read)
open Sys2Proof.Proofs.QueueWords (rangeFault_none done_of_untimed)
open Sys2Proof.Proofs.Acts (done_of_regq)
open Sys2Proof.Proofs.Retire (onlyMemory_regq)

/-! ### The store queue (R146, R150) -/

section Word

variable {s t : State} {c : CoreId} {e : Engine} {f : Fld}

/-- What a store whose range translates puts into the queue: its parts, or its bytes one by one where it is not aligned. -/
theorem issueStore_parts {va : Nat} (split : Bool) {l : List Byte} {ps : List Piece} (h : translates s c va l.length .write ps t) :
    issueStore c va split none l s = t.modCore c (pushStores (storeOps (t.core c) none (if split then byteParts ps else ps) l)) := by
  unfold translates at h
  simp only [issueStore, h]
  rfl

theorem storeWords_plan {p : (Fld → Instr) × Nat} (hp : p ∈ storeWords) (f : Fld) : planOf (p.1 f) = planSt p.2 f := by
  simp only [storeWords, List.mem_cons, List.not_mem_nil, or_false] at hp
  obtain rfl | rfl | rfl | rfl := hp <;> rfl

/-- The plan of a store whose operands are there and whose range translates. -/
theorem planSt_ready {n : Nat} {i : Instr} {ps : List Piece} (hr : regsReady s c e [f.a, f.b] = true)
    (h : translates s c (effAddr s c e f) n .write ps t) :
    planSt n f (ctxOf s c e i) =
      { wait := rangeNote (ctxOf s c e i) (effAddr s c e f) n .write
        act := issueStore c (effAddr s c e f) (decide (effAddr s c e f % n ≠ 0)) none (bytesOfNat n (readReg (s.core c) e f.b).toNat) } := by
  have hfault : rangeFault (ctxOf s c e i) (effAddr s c e f) n .write = none := rangeFault_none h
  have haddr : eaOf (ctxOf s c e i) f = effAddr s c e f := rfl
  simp only [planSt, haddr, lateReg_ready hr (by simp : f.a ∈ [f.a, f.b]), lateReg_ready hr (by simp : f.b ∈ [f.a, f.b]), hfault,
    List.append_nil, List.isEmpty_nil, if_true]
  rfl

theorem exec_store {p : (Fld → Instr) × Nat} (hp : p ∈ storeWords) (h : untimedGo s c e (p.1 f) = true)
    (hr : regsReady s c e [f.a, f.b] = true) {ps ps' : List Piece} {t' : State}
    (hnow : translates s c (effAddr s c e f) p.2 .write ps' t')
    (hmoved : translates (movedState s c e) c (effAddr s c e f) p.2 .write ps t) :
    exec (p.1 f) s = .next (t.modCore c (pushStores (storeOps (t.core c) none
      (if effAddr s c e f % p.2 = 0 then ps else byteParts ps) (bytesOfNat p.2 (readReg (s.core c) e f.b).toNat)))) := by
  obtain ⟨-, -, -, hregq⟩ := (translateRange_filled hmoved).mem
  have hlen := length_bytesOfNat p.2 (readReg (s.core c) e f.b).toNat
  have hplan := (congrFun (storeWords_plan hp f) _).trans (planSt_ready (i := p.1 f) hr hnow)
  generalize bytesOfNat p.2 (readReg (s.core c) e f.b).toNat = l at hlen hplan ⊢
  have hstore := issueStore_parts (decide (effAddr s c e f % p.2 ≠ 0)) (l := l) (hlen.symm ▸ hmoved)
  simp only [ne_eq, decide_not, Bool.not_eq_true', decide_eq_false_iff_not, ite_not] at hstore
  rw [exec_untimed h _ hplan rfl rfl rfl]
  refine (congrArg done ((congrArg (issueStore c _ · none l _) (by simp)).trans hstore)).trans ?_
  exact done_of_untimed h hregq

end Word

/-! ### What reads back from the queue (R150, R315) -/

theorem length_cellsAt (a : Nat) (l : List Byte) : (cellsAt a l).length = l.length := by simp [cellsAt]

theorem getElem?_cellsAt_snd (a : Nat) (l : List Byte) (i : Nat) : ((cellsAt a l)[i]?).map Prod.snd = l[i]? := by
  rw [cellsAt, ← List.getElem?_map, List.map_snd_zip (by simp)]

/-- The youngest store of a queue comes first. -/
theorem forwardByte_append (va : Nat) (q : List StoreOp) (o : StoreOp) (best : Option Byte) :
    forwardByte va (q ++ [o]) best =
      if o.va ≤ va ∧ va < o.va + o.cells.length then ((o.cells[va - o.va]?).map Prod.snd).or (forwardByte va q best)
      else forwardByte va q best := by
  induction q generalizing best with
  | nil => rfl
  | cons p r ih => exact ih _

/-- The queue after a store of one part, as a load reads it. -/
theorem forwardByte_stored {x y : Core} {p : Piece} {l : List Byte} (hlen : p.len = l.length) (hq : y.ap.storeQ = x.ap.storeQ) (va : Nat) :
    forwardByte va (pushStores (storeOps x none [p] l) y).ap.storeQ none =
      if p.va ≤ va ∧ va < p.va + l.length then (l[va - p.va]?).or (forwardByte va x.ap.storeQ none)
      else forwardByte va x.ap.storeQ none := by
  have htake : l.take p.len = l := List.take_of_length_le hlen.ge
  simp only [pushStores, storeOps, htake, hq, forwardByte_append, length_cellsAt, getElem?_cellsAt_snd]

/-! ### A byte written to a face (R181, R314) -/

/-- A unit that a mask of bytes covers whole. -/
theorem wholeMask_getLsbD (m : BitVec 128) {u : Nat} (hu : u < 2) :
    (wholeMask m).getLsbD u = true ↔ ∀ i, i < 64 → m.getLsbD (64 * u + i) = true := by
  have hall (lo : Nat) : m.extractLsb' lo 64 = BitVec.allOnes 64 ↔ ∀ i, i < 64 → m.getLsbD (lo + i) = true := by
    rw [BitVec.eq_of_getLsbD_eq_iff]
    refine forall_congr' fun i => imp_congr_right fun hi => ?_
    rw [BitVec.getLsbD_extractLsb', BitVec.getLsbD_allOnes, decide_eq_true hi, Bool.true_and]
  have hcases : u = 0 ∨ u = 1 := by omega
  rw [wholeMask, BitVec.getLsbD_append]
  rcases hcases with rfl | rfl
  · rw [if_pos (by decide), BitVec.getLsbD_ofBool, decide_eq_true rfl, Bool.true_and, decide_eq_true_eq, hall]
  · rw [if_neg (by decide), BitVec.getLsbD_ofBool, decide_eq_true rfl, Bool.true_and, decide_eq_true_eq, hall]

/-- A unit that reads sound stays so when more of its bytes are written. -/
theorem copyBad_of_more {x y : L2Line} {u : Nat} (hu : u < 2) (hbad : y.bad = x.bad)
    (hdirty : ∀ i, x.dirty.getLsbD i = true → y.dirty.getLsbD i = true) (h : (copyBad x).getLsbD u = false) :
    (copyBad y).getLsbD u = false := by
  simp only [copyBad, BitVec.getLsbD_and, BitVec.getLsbD_not, hu, decide_true, Bool.true_and, Bool.and_eq_false_iff, Bool.not_eq_false',
    hbad] at h ⊢
  refine h.imp_right fun hw => ?_
  rw [wholeMask_getLsbD _ hu] at hw ⊢
  exact fun i hi => hdirty _ (hw i hi)

theorem rowByte_setSlice (r : Row) {i : Nat} (hi : i < 128) (b : Byte) : rowByte (setSlice r (8 * i) b) i = b := by
  ext j hj
  have hget := getLsbD_setSlice r (8 * i) b (by omega) (j := 8 * i + j) (by omega)
  rw [if_pos (by omega), Nat.add_sub_cancel_left] at hget
  simpa [rowByte, hj, ← BitVec.getLsbD_eq_getElem] using hget

section Face

variable {s : State} {f : Fin 4} {v : World}

/-- The copy of a line that its face holds for a world once it has been read. -/
structure HoldsFor (s : State) (f : Fin 4) (v : World) (line : Nat) (r : Row) (x : L2Line) : Prop where
  held : l2Get s f line = some x
  key : x.key = keyNum s v
  data : x.data = r

theorem keyNum_congr {s t : State} (h : t.keys = s.keys) (v : World) : keyNum t v = keyNum s v := by
  simp only [keyNum, h]

theorem holdsFor_l2Fill {line : Nat} (hok : s.memOk) (hbad : (l2Fill s f v line).2.1 = false) :
    ∃ x, HoldsFor (l2Fill s f v line).2.2 f v line (l2Fill s f v line).1 x ∧ x.dirty = 0 := by
  have hbad : (hbmLineFor s v line).2 = false := hbad
  refine ⟨cleanCopy s v line (hbmLineFor s v line).1, ⟨?_, ?_, rfl⟩, rfl⟩
  · simp only [l2Fill, hbad, Bool.false_eq_true, if_false]
    exact l2Get_l2Put_same _ _ _ _ (hok.2 f)
  · exact (keyNum_congr (onlyMemory_keys Loads.onlyMemory_l2Fill) v).symm

/-- A face that has read a line for a world without a failed check holds it: as before, or as a clean copy. -/
theorem holdsFor_l2Read {line : Nat} (hok : s.memOk) (hbad : (l2Read s f v line).2.1 = false) :
    ∃ x, HoldsFor (l2Read s f v line).2.2 f v line (l2Read s f v line).1 x ∧
      ((l2Get s f line).map (fun y => y.key) = some (keyNum s v) ∨ x.dirty = 0) := by
  unfold l2Read at hbad ⊢
  cases hget : l2Get s f line with
  | none =>
    simp only [hget] at hbad ⊢
    obtain ⟨x, hx, hclean⟩ := holdsFor_l2Fill hok hbad
    exact ⟨x, hx, .inr hclean⟩
  | some y =>
    by_cases hkey : y.key = keyNum s v
    · simp only [if_pos hkey]
      exact ⟨y, ⟨hget, hkey, rfl⟩, .inl (congrArg some hkey)⟩
    · simp only [hget, if_neg hkey] at hbad ⊢
      obtain ⟨x, hx, hclean⟩ := holdsFor_l2Fill (memOk_evictLine s f line hok) hbad
      exact ⟨x, hx, .inr hclean⟩

theorem onlyMemory_l2WriteByte (s : State) (f : Fin 4) (v : World) (a : Nat) (b : Byte) : OnlyMemory s (l2WriteByte s f v a b) :=
  onlyMemory_l2Read.trans rfl

/-- The copy of a line with a byte written; every byte of a line taken over from another key is dirty (R181). -/
def withByte (taken : Bool) (i : Nat) (b : Byte) (x : L2Line) : L2Line :=
  { x with data := setSlice x.data (8 * i) b, dirty := (if taken then soundBytes x.bad else x.dirty) ||| (1 <<< i) }

/-- Is a line of HBM, of which the face holds no copy for the world, another key's? -/
def takenOver (s : State) (f : Fin 4) (v : World) (line : Nat) : Bool :=
  decide (sget 0 s.mem.lineKey line ≠ keyNum s v) && decide (((l2Get s f line).map fun x => x.key) ≠ some (keyNum s v))

theorem l2WriteByte_held {pa : Nat} {x : L2Line} (hheld : l2Get (l2Read s f v (pa / 128)).2.2 f (pa / 128) = some x)
    (hbad : (l2Read s f v (pa / 128)).2.1 = false) (b : Byte) : l2WriteByte s f v pa b =
      l2Put (l2Read s f v (pa / 128)).2.2 f (pa / 128) (some (withByte (takenOver s f v (pa / 128)) (pa % 128) b x)) := by
  simp only [l2WriteByte, hheld, hbad, Option.getD_some, Bool.false_eq_true, if_false]
  rfl

/-- Where the face held the world's copy before, or holds a clean one, a unit that it reads sound stays so when a byte is written. -/
theorem copyBad_withByte {line u i : Nat} {x : L2Line} (hu : u < 2) (b : Byte)
    (hfresh : (l2Get s f line).map (fun y => y.key) = some (keyNum s v) ∨ x.dirty = 0) (h : (copyBad x).getLsbD u = false) :
    (copyBad (withByte (takenOver s f v line) i b x)).getLsbD u = false := by
  refine copyBad_of_more (x := x) hu rfl (fun j hj => ?_) h
  rcases hfresh with hmine | hclean
  · have htaken : takenOver s f v line = false := by simp [takenOver, hmine]
    simp only [withByte, htaken, Bool.false_eq_true, if_false, BitVec.getLsbD_or, hj, Bool.true_or]
  · rw [hclean, BitVec.ofNat_eq_ofNat, BitVec.getLsbD_zero] at hj
    cases hj

/-- What a face reads of a line that it holds for a world. -/
theorem seesByte_held {pa : Nat} (hin : inHbm pa 1 = true) {x : L2Line} (hget : l2Get s f (pa / 128) = some x) (hkey : x.key = keyNum s v)
    (hsound : (copyBad x).getLsbD (pa / 64 % 2) = false) : seesByte s f v pa = some (rowByte x.data (pa % 128)) := by
  rw [seesByte_hbm hin]
  simp only [lineForEngine, hget, if_pos hkey]
  exact ⟨trivial, hsound, trivial⟩

/-- A byte that a face can read for a world, written there, is what the face then reads. -/
theorem seesByte_l2WriteByte (hok : s.memOk) {pa : Nat} (hin : inHbm pa 1 = true) {b' : Byte} (h : seesByte s f v pa = some b') (b : Byte) :
    seesByte (l2WriteByte s f v pa b) f v pa = some b := by
  obtain ⟨hbad, hpoison, -⟩ := l2Read_sees hok hin h
  obtain ⟨x, ⟨hheld, hkey, -⟩, hfresh⟩ := holdsFor_l2Read hok hbad
  have hcopy : (copyBad x).getLsbD (pa / 64 % 2) = false := by simpa only [poisonSeen, hheld] using hpoison
  rw [l2WriteByte_held hheld hbad]
  have hget := l2Get_l2Put_same (l2Read s f v (pa / 128)).2.2 f (pa / 128)
    (some (withByte (takenOver s f v (pa / 128)) (pa % 128) b x)) ((memOk_l2Read s f v _ hok).2 f)
  rw [seesByte_held hin hget hkey (copyBad_withByte (Nat.mod_lt _ (by decide)) b hfresh hcopy)]
  exact congrArg some (rowByte_setSlice _ (Nat.mod_lt _ (by decide)) b)

end Face

/-! ### A store that drains (R314) -/

section Drain

variable {s : State} {c : CoreId} {o : StoreOp} {r : List StoreOp} {pa : Nat} {b : Byte}

/-- The core whose oldest store has left its queue. -/
def popStore (o : StoreOp) (r : List StoreOp) (x : Core) : Core := freePlace o.wq { x with ap := { x.ap with storeQ := r } }

theorem popStore_storeQ (o : StoreOp) (r : List StoreOp) (x : Core) : (popStore o r x).ap.storeQ = r := by
  unfold popStore freePlace
  split <;> rfl

/-- The oldest store of a queue, of one byte of HBM, drains: it leaves the queue, and its byte is written to the face. -/
theorem drainStore_byte (hq : (s.core c).ap.storeQ = o :: r) (hcells : o.cells = [(pa, b)]) (hin : inHbm pa 1 = true) :
    drainStore c s = dropHeldVa c.face o.va o.asid (l2WriteByte (s.modCore c (popStore o r)) c.face o.world pa b) := by
  obtain ⟨hregs, hhost⟩ := outside_of_inHbm hin
  have hblocked : storeBlocked s c = false := by
    simp [storeBlocked, hq, hcells, hhost]
  have hperform (u : State) : performStore c o u = dropHeldVa c.face o.va o.asid (l2WriteByte u c.face o.world pa b) := by
    simp [performStore, hcells, hregs, hhost, performByte, l2Write]
  simp only [drainStore, hq, hblocked, Bool.false_eq_true, if_false, hperform]
  rfl

theorem core_dropHeldVa (f : Fin 4) (va : Nat) (asid : BitVec 16) (u : State) (d : CoreId) :
    ((dropHeldVa f va asid u).core d).ap.storeQ = (u.core d).ap.storeQ ∧
      (d.face ≠ f → (dropHeldVa f va asid u).core d = u.core d) := by
  simp only [dropHeldVa, State.core, Fin.getElem_fin, Vector.getElem_mapFinIdx]
  split
  · next hf => exact ⟨rfl, fun h => absurd (Fin.ext hf) h⟩
  · exact ⟨rfl, fun _ => rfl⟩

/-- Memory reads as in the state with the byte written to the face, and its other lines as before. -/
theorem drained (hq : (s.core c).ap.storeQ = o :: r) (hcells : o.cells = [(pa, b)]) (hin : inHbm pa 1 = true) (hregq : s.regq = [])
    (hok : s.memOk) (h : ∃ b', seesByte s c.face o.world pa = some b') :
    ∃ t, exec (.apStoreDrain c) s = .next t ∧ (t.core c).ap.storeQ = r ∧ seesByte t c.face o.world pa = some b ∧
      OtherLinesSame [pa / 128] s t ∧ ∀ d, d.face ≠ c.face → t.core d = s.core d := by
  obtain ⟨b', hb'⟩ := h
  have hw := onlyMemory_l2WriteByte (s.modCore c (popStore o r)) c.face o.world pa b
  refine ⟨drainStore c s, done_of_regq ?_, ?_⟩
  · rw [drainEvent, drainStore_byte hq hcells hin]
    exact (onlyMemory_regq hw).trans hregq
  rw [drainStore_byte hq hcells hin]
  have hpop : (s.modCore c (popStore o r)).memOk := hok
  have hsees (f : Fin 4) (v : World) (a : Nat) : seesByte (s.modCore c (popStore o r)) f v a = seesByte s f v a :=
    seesByte_congr (s := s) (t := s.modCore c (popStore o r)) rfl rfl rfl f v a
  have hdrop (u : State) (f : Fin 4) (v : World) (a : Nat) : seesByte (dropHeldVa c.face o.va o.asid u) f v a = seesByte u f v a :=
    seesByte_congr (s := u) (t := dropHeldVa c.face o.va o.asid u) rfl rfl rfl f v a
  refine ⟨?_, ?_, fun f v a ha => ?_, fun d hd => ?_⟩
  · rw [(core_dropHeldVa _ _ _ _ c).1, hw.core, State.core_modCore_same, popStore_storeQ]
  · rw [hdrop]
    exact seesByte_l2WriteByte hpop hin ((hsees _ _ _).trans hb') b
  · have hline : pa / 128 ≠ a / 128 := fun he => ha (List.mem_singleton.mpr he.symm)
    rw [hdrop, (lineAgree_l2WriteByte (a / 128) _ c.face o.world pa b hline).sees hpop (memOk_l2WriteByte _ _ _ _ _ hpop), hsees]
  · have hne : d ≠ c := fun he => hd (he ▸ rfl)
    rw [(core_dropHeldVa _ _ _ _ d).2 hd, hw.core, State.core_modCore_other _ _ _ _ hne]

end Drain

/-- Settles O18: the word by its plan, the queue as a load reads it, and the drain of a byte by the line that its face then holds. -/
theorem storeResult : Obligations.StoreResult := by
  unfold Obligations.StoreResult
  refine ⟨fun p hp s c e f ps t h hr ⟨ps', t', hnow⟩ hmoved => ⟨exec_store hp h hr hnow hmoved, translateRange_filled hmoved, ?memory⟩,
    fun x y p l hlen hq => ⟨fun i hi => ?inside, fun va hva => ?outside⟩,
    fun s c o r pa b hq hcells hin hregq hok hsees => drained hq hcells hin hregq hok hsees⟩
  case memory =>
    obtain ⟨hmem, hl2, hkeys, -⟩ := (translateRange_filled hmoved).mem
    exact sameMemory_of hmem hl2 hkeys
  case inside =>
    rw [forwardByte_stored hlen hq, if_pos (by omega), Nat.add_sub_cancel_left, List.getElem?_eq_getElem hi, Option.some_or]
  case outside => rw [forwardByte_stored hlen hq, if_neg (by omega)]

end Sys2Proof.Proofs.Stores
end

section
/-! PROOFS. Atomics (R149, R151, R182, R317): the word with what its access brings, and the access itself in host memory without a
session. -/

namespace Sys2Proof.Proofs.Atomics

open Sys2Proof Sys2Proof.Machine Sys2Proof.Claims
open Sys2Proof.Proofs.ScalarWords (lateReg_ready)
open Sys2Proof.Proofs.Device (length_bytesOfNat)
open Sys2Proof.Proofs.CommandEnds (clearRequest_eq withOut)
open Sys2Proof.Proofs.QueueWords (exec_got)

/-! ### The word (R149) -/

/-- Each atomic's plan is that of its function; `amoCas` alone reads a third operand. -/
theorem amoWords_plan {p : (Bool → BitVec 2 → Fld → Instr) × (Nat → Nat → Nat → Nat → Option Nat)} (hp : p ∈ amoWords) (w : Bool)
    (ord : BitVec 2) (f : Fld) :
    ∃ cas, planOf (p.1 w ord f) = planAmo p.2 w ord cas f ∧ (cas = true → p.1 w ord f = .amoCas w ord f) := by
  simp only [amoWords, List.mem_cons, List.not_mem_nil, or_false] at hp
  obtain rfl | rfl | rfl | rfl | rfl | rfl | rfl | rfl | rfl | rfl := hp
  case inr.inr.inr.inr.inr.inr.inr.inr.inr => exact ⟨true, rfl, fun _ => rfl⟩
  all_goals exact ⟨false, rfl, nofun⟩

section Word

variable {s : State} {c : CoreId} {e : Engine} {f : Fld}

/-- The operands of an atomic that are there, the third only where it is one. -/
theorem lates_ready {i : Instr} {cas : Bool} (hr : regsReady s c e [f.a, f.b, f.d] = true) (hcas : cas = true → regsReady s c e [f.c] = true) :
    lateReg (ctxOf s c e i) f.a ++ lateReg (ctxOf s c e i) f.b ++ (if cas then lateReg (ctxOf s c e i) f.c else []) ++
      lateDest (ctxOf s c e i) f.d = [] := by
  have hc : (if cas then lateReg (ctxOf s c e i) f.c else []) = [] :=
    ite_eq_right_iff.mpr fun h => lateReg_ready (hcas h) (List.mem_singleton_self _)
  rw [hc, lateDest, lateReg_ready hr (by simp : f.a ∈ _), lateReg_ready hr (by simp : f.b ∈ _), lateReg_ready hr (by simp : f.d ∈ _)]
  rfl

end Word

/-! ### Host memory without a session (R182, R317) -/

section Host

variable {s : State} {c : CoreId} {scope va n : Nat} {new : Nat → Option Nat} {p : Piece} {r : List Piece}

/-- The old bytes of host memory at an address. -/
def oldBytes (s : State) (pa n : Nat) : List Byte := sgets 0 s.mem.host (pa - 0x8_0000_0000_0000) n

/-- An atomic of host memory without a session: its request goes out, and what it writes stands in host memory. -/
theorem amoMemory_host (hlen : p.len = n) (hn : 0 < n) (hhost : inHost p.pa = true) (hregs : inRegs p.pa = false)
    (hsess : sessionActive s c = false) :
    ∃ out, amoMemory c scope va n new (p :: r) s = .bytes (oldBytes s p.pa n) (match new (natOfBytes (oldBytes s p.pa n)) with
      | some v => hostPut p.pa (bytesOfNat n v) (withOut out s)
      | none => withOut out s) := by
  obtain ⟨out, hout⟩ := clearRequest_eq hsess p
  have hpa : pieceAddr (p :: r) 0 = p.pa := if_pos (hlen.symm ▸ hn)
  refine ⟨out, ?_⟩
  simp only [amoMemory, hpa, hregs, hhost, hsess, atomicRead, atomicWrite, hostBytes, Bool.false_eq_true, Bool.and_false, if_false, if_true,
    List.headD_cons, hout]
  cases hv : new (natOfBytes (oldBytes s p.pa n)) <;> simp only [oldBytes] at hv <;> simp only [oldBytes, hv] <;> rfl

/-- Bytes of host memory after a write: those written, and the others as before. -/
theorem hostPut_reads (pa n v : Nat) (u : State) :
    sgets 0 (hostPut pa (bytesOfNat n v) u).mem.host (pa - 0x8_0000_0000_0000) n = bytesOfNat n v ∧
      ∀ a, a < pa - 0x8_0000_0000_0000 ∨ pa - 0x8_0000_0000_0000 + n ≤ a →
        sget 0 (hostPut pa (bytesOfNat n v) u).mem.host a = sget 0 u.mem.host a := by
  have hlen := length_bytesOfNat n v
  refine ⟨?_, fun a ha => sget_sputs_outside _ _ _ _ _ (by rwa [hlen])⟩
  have hread := sgets_sputs (0 : Byte) u.mem.host (pa - 0x8_0000_0000_0000) (bytesOfNat n v)
  rwa [hlen] at hread

end Host

/-- Settles O19: the word by what its access brings, and the access of host memory by the write that its function asks for. -/
theorem atomicResult : Obligations.AtomicResult := by
  unfold Obligations.AtomicResult
  refine ⟨?word, ?host⟩
  case word =>
    intro p hp s c e w ord f l t n va new go h hr hcas ⟨l', t', hnow⟩ hmoved
    obtain ⟨cas, hplan, hthird⟩ := amoWords_plan hp w ord f
    exact exec_got h (congrFun hplan _) (lates_ready hr fun hc => hcas (hthird hc)) hnow hmoved
  case host =>
    intro s c scope va n new p r hlen hn hhost hregs hsess off old
    obtain ⟨out, hgot⟩ := amoMemory_host (scope := scope) (va := va) (new := new) (r := r) hlen hn hhost hregs hsess
    rw [hgot]
    refine ⟨_, rfl, ?_⟩
    cases hnew : new (natOfBytes (oldBytes s p.pa n)) with
    | none => exact ⟨rfl, rfl, fun _ => ⟨rfl, rfl⟩, fun v hv => absurd (hnew.symm.trans hv) nofun⟩
    | some v =>
      refine ⟨rfl, rfl, fun hnone => absurd (hnew.symm.trans hnone) nofun, fun v' hv => ?_⟩
      obtain rfl : v = v' := Option.some.inj (hnew.symm.trans hv)
      exact hostPut_reads p.pa n v (withOut out s)

end Sys2Proof.Proofs.Atomics
end

section
/-! PROOFS. Fences (R151, R152, R318, R319): what a release finds, when a fence completes or waits, and what it leaves in its AP. -/

namespace Sys2Proof.Proofs.Fences

open Sys2Proof Sys2Proof.Machine Sys2Proof.Claims
open Sys2Proof.Proofs.Ticks (issueWord_untimedTurn)
open Sys2Proof.Proofs.Complete (drainAll_nil onlyMemory_releaseFace)
open Sys2Proof.Proofs.Retire (onlyMemory_discardClean)
open Sys2Proof.Proofs.Stores (popStore core_dropHeldVa onlyMemory_l2WriteByte)

/-- An untimed word whose plan meets a late operand only waits. -/
theorem exec_untimed_waits {s : State} {c : CoreId} {e : Engine} {i : Instr} (h : untimedGo s c e i = true) {p : Plan}
    (hp : planOf i (ctxOf s c e i) = p) (hl : p.lates ≠ []) : exec i s = done (p.wait s) := by
  obtain ⟨hturn, hhead⟩ := untimedGo_iff.mp h
  rw [exec_word i s (toFields_of_turn (issues_iff.mp (issues_of_untimedGo h)).1), issueWord_untimedTurn hturn, planBehind_go hhead, hp,
    carryOut_late _ _ s hl]

/-! ### What an AP waits for (R182, R314) -/

section Drain

variable {s : State} {c : CoreId}

theorem onlyMemory_l2Write (f : Fin 4) (v : World) (l : List Host.Cell) (s : State) : OnlyMemory s (l2Write f v l s) := by
  induction l generalizing s with
  | nil => exact .refl s
  | cons a r ih => exact (onlyMemory_l2WriteByte s f v a.1 a.2).trans (ih _)

theorem host_dropHeldVa (f : Fin 4) (va : Nat) (asid : BitVec 16) (u : State) (d : CoreId) :
    ((dropHeldVa f va asid u).core d).ap.host = (u.core d).ap.host := by
  simp only [dropHeldVa, State.core, Fin.getElem_fin, Vector.getElem_mapFinIdx]
  split <;> rfl

theorem host_performByte (f : Fin 4) (o : StoreOp) (i : Nat) (cell : Host.Cell) (u : State) (d : CoreId) :
    ((performByte f o i cell u).core d).ap.host = (u.core d).ap.host := by
  rw [performByte, host_dropHeldVa, (onlyMemory_l2Write f o.world [cell] u).core]

theorem core_sendPacket (v : Nat) (k : Fin 3) (p : Packet) (u : State) (d : CoreId) : (sendPacket v k p u).core d = u.core d := by
  simp only [sendPacket]
  split <;> rfl

/-- A store that performs leaves what its AP waits for alone. -/
theorem host_performStore (o : StoreOp) (u : State) : ((performStore c o u).core c).ap.host = (u.core c).ap.host := by
  have hfold (l : List (Nat × Host.Cell)) (v : State) :
      ((l.foldl (fun s x => performByte c.face o x.1 x.2 s) v).core c).ap.host = (v.core c).ap.host := by
    induction l generalizing v with
    | nil => rfl
    | cons x r ih => exact (ih _).trans (host_performByte _ _ _ _ _ _)
  unfold performStore
  dsimp only
  split
  · rfl
  · split
    · have hpost (v : Nat) (p : Packet) : (passPosted v p u).core c = u.core c := core_sendPacket v 0 p u c
      rw [postedWrite, State.core_modCore_same, hpost]
    · exact hfold _ u

theorem host_drainStore (s : State) : ((drainStore c s).core c).ap.host = (s.core c).ap.host := by
  unfold drainStore
  split
  · rfl
  · next o r _ =>
    split
    · rfl
    · rw [host_performStore, State.core_modCore_same]
      unfold freePlace
      split <;> rfl

/-- Draining an AP's stores leaves what the AP waits for alone. -/
theorem host_drainAll (s : State) : ((drainAll c s).core c).ap.host = (s.core c).ap.host := by
  have hstores (n : Nat) (u : State) : ((drainStores c n u).core c).ap.host = (u.core c).ap.host := by
    induction n generalizing u with
    | zero => rfl
    | succ n ih => exact (ih _).trans (host_drainStore u)
  exact hstores _ s

theorem storesDone_iff : storesDone s c = true ↔ (s.core c).ap.storeQ = [] := List.isEmpty_iff

end Drain

/-! ### What a release finds (R151, R318, R319) -/

section Release

variable {s : State} {c : CoreId} {scope : Nat}

/-- An AP that waits for no completion and has no store in its queue, and whose posted writes need no flush under a session. -/
structure Free (s : State) (c : CoreId) (scope : Nat) : Prop where
  host : (s.core c).ap.host = none
  stores : (s.core c).ap.storeQ = []
  clear : 9 ≤ scope → (s.core c).ap.posted = true → sessionActive s c = false

/-- The state after the flush read of a release in the clear, where one is due. -/
def flushedState (s : State) (c : CoreId) (scope : Nat) (u : State) : State :=
  if 9 ≤ scope ∧ (s.core c).ap.posted = true then (clearRequest c flushPiece u).modCore c flushed else u

theorem releaseGo_free (h : Free s c scope) : releaseGo c scope (drainAll c s) = .go (flushedState s c scope s) := by
  rw [drainAll_nil h.stores]
  simp only [releaseGo, h.host, storesDone_iff.mpr h.stores, flushedState, Bool.not_true, Bool.false_eq_true, if_false]
  split
  · next hflush => rw [h.clear hflush.1 hflush.2]; rfl
  · rfl

/-- Every store has left, and the scope is narrower than the host's. -/
theorem releaseGo_drained (hhost : (s.core c).ap.host = none) (hscope : scope < 9) (hdone : storesDone (drainAll c s) c = true) :
    releaseGo c scope (drainAll c s) = .go (drainAll c s) := by
  simp only [releaseGo, host_drainAll, hhost, hdone, Bool.not_true, Bool.false_eq_true, if_false]
  exact if_neg fun h => absurd h.1 (Nat.not_le.mpr hscope)

/-- Stores remain that cannot leave. -/
theorem releaseGo_stuck (hhost : (s.core c).ap.host = none) (hdone : storesDone (drainAll c s) c = false) :
    releaseGo c scope (drainAll c s) = .wait fun _ => drainAll c s := by
  simp only [releaseGo, host_drainAll, hhost, hdone, Bool.not_false, if_true]

/-- A flush read is due under a session. -/
theorem releaseGo_flush (hhost : (s.core c).ap.host = none) (hscope : 9 ≤ scope) (hdone : storesDone (drainAll c s) c = true)
    (hposted : ((drainAll c s).core c).ap.posted = true) (hsess : sessionActive (drainAll c s) c = true) :
    releaseGo c scope (drainAll c s) = .wait fun _ => askFlush c (drainAll c s) := by
  simp only [releaseGo, host_drainAll, hhost, hdone, hscope, hposted, hsess, and_self, Bool.not_true, Bool.false_eq_true, if_false, if_true]

end Release

/-! ### Fences that issue (R151, R152) -/

section Word

variable {s : State} {c : CoreId} {e : Engine} {i : Instr} {scope : Nat} {acq : Bool}

/-- A fence without a release completes at once. -/
theorem exec_acquire (h : untimedGo s c e i = true) (hplan : planOf i (ctxOf s c e i) = planFenceAt scope false acq (ctxOf s c e i)) :
    exec i s = .next (flushRegs (fenceAp c scope false acq (movedState s c e))) :=
  exec_untimed h { act := fenceAp c scope false acq } hplan rfl rfl rfl

/-- A fence whose release goes on, here and where its stream has moved on, orders what it then finds. -/
theorem exec_release (h : untimedGo s c e i = true) (hplan : planOf i (ctxOf s c e i) = planFenceAt scope true acq (ctxOf s c e i))
    {v w : State} (hnow : releaseGo c scope (drainAll c s) = .go v)
    (hmoved : releaseGo c scope (drainAll c (movedState s c e)) = .go w) :
    exec i s = .next (flushRegs (fenceAp c scope true acq w)) := by
  simp only [planFenceAt, if_true, ctxOf_c, ctxOf_s, hnow] at hplan
  rw [exec_untimed h _ hplan rfl rfl rfl]
  refine congrArg done ?_
  change (match releaseGo c scope (drainAll c (movedState s c e)) with | .go s => fenceAp c scope true acq s | .wait _ => movedState s c e) = _
  rw [hmoved]

/-- A fence whose release waits. -/
theorem exec_release_waits (h : untimedGo s c e i = true) (hplan : planOf i (ctxOf s c e i) = planFenceAt scope true acq (ctxOf s c e i))
    {f : State → State} (hnow : releaseGo c scope (drainAll c s) = .wait f) : exec i s = .next (flushRegs (f s)) := by
  simp only [planFenceAt, if_true, ctxOf_c, ctxOf_s, hnow] at hplan
  exact exec_untimed_waits h hplan (List.cons_ne_nil _ _)

/-! ### The AP of a stream that has moved on -/

theorem moved_ap : ((movedState s c e).core c).ap.host = (s.core c).ap.host ∧ ((movedState s c e).core c).ap.storeQ = (s.core c).ap.storeQ ∧
    ((movedState s c e).core c).ap.posted = (s.core c).ap.posted ∧ ((movedState s c e).core c).job = (s.core c).job := by
  obtain ⟨y, ⟨st, pv, pw, rfl⟩, hp, up, hmoved⟩ := movedOn_eq s c e 0 none (s.core c)
  rw [movedState, State.core_modCore_same, hmoved]
  exact ⟨rfl, rfl, rfl, rfl⟩

theorem sessionActive_moved : sessionActive (movedState s c e) c = sessionActive s c := by
  obtain ⟨-, -, -, hjob⟩ := moved_ap (s := s) (c := c) (e := e)
  have hvf : vfOf (movedState s c e) c = vfOf s c := by
    simp only [vfOf, jobOf, hjob]
    rfl
  simp only [sessionActive, hvf]
  rfl

theorem Free.moved (h : Free s c scope) : Free (movedState s c e) c scope := by
  obtain ⟨hhost, hstores, hposted, -⟩ := moved_ap (s := s) (c := c) (e := e)
  exact ⟨hhost.trans h.host, hstores.trans h.stores, fun hs hp => sessionActive_moved.trans (h.clear hs (hposted ▸ hp))⟩

/-- A fence of a free AP, after its flush read in the clear where one is due. -/
theorem exec_free (h : untimedGo s c e i = true) (hplan : planOf i (ctxOf s c e i) = planFenceAt scope true acq (ctxOf s c e i))
    (hfree : Free s c scope) : exec i s = .next (flushRegs (fenceAp c scope true acq (flushedState s c scope (movedState s c e)))) := by
  obtain ⟨-, -, hposted, -⟩ := moved_ap (s := s) (c := c) (e := e)
  have hmoved := releaseGo_free (hfree.moved (e := e))
  have hflush : flushedState (movedState s c e) c scope (movedState s c e) = flushedState s c scope (movedState s c e) := by
    simp only [flushedState, hposted]
  rw [hflush] at hmoved
  exact exec_release h hplan (releaseGo_free hfree) hmoved

/-- A fence whose AP has stores: it completes once they can all leave, and waits while they cannot or while a flush read is due. -/
theorem exec_with_stores (h : untimedGo s c e i = true) (hplan : planOf i (ctxOf s c e i) = planFenceAt scope true acq (ctxOf s c e i))
    (hhost : (s.core c).ap.host = none) :
    (scope < 9 → storesDone (drainAll c s) c = true → storesDone (drainAll c (movedState s c e)) c = true →
      exec i s = .next (flushRegs (fenceAp c scope true acq (drainAll c (movedState s c e))))) ∧
    (storesDone (drainAll c s) c = false → exec i s = .next (flushRegs (drainAll c s))) ∧
    (9 ≤ scope → storesDone (drainAll c s) c = true → ((drainAll c s).core c).ap.posted = true →
      sessionActive (drainAll c s) c = true → exec i s = .next (flushRegs (askFlush c (drainAll c s)))) := by
  obtain ⟨hmoved, -⟩ := moved_ap (s := s) (c := c) (e := e)
  exact ⟨fun hs hd hd' => exec_release h hplan (releaseGo_drained hhost hs hd) (releaseGo_drained (hmoved.trans hhost) hs hd'),
    fun hd => exec_release_waits (f := fun _ => drainAll c s) h hplan (releaseGo_stuck hhost hd),
    fun hs hd hp ha => exec_release_waits (f := fun _ => askFlush c (drainAll c s)) h hplan (releaseGo_flush hhost hs hd hp ha)⟩

end Word

/-! ### What a fence leaves (R318) -/

section Orders

variable {t : State} {c : CoreId} {scope : Nat}

theorem storeQ_acquireAp (s : State) : ((acquireAp c s).core c).ap.storeQ = (s.core c).ap.storeQ := by
  rw [acquireAp, State.core_modCore_same, (onlyMemory_discardClean _ _ s).core]
  rfl

theorem held_acquireAp (s : State) : ((acquireAp c s).core c).ap.held = [] := by
  rw [acquireAp, State.core_modCore_same]
  rfl

theorem storeQ_releaseAp {s : State} (h : (s.core c).ap.storeQ = []) : ((releaseAp c s).core c).ap.storeQ = [] := by
  rw [releaseAp, drainAll_nil h, (onlyMemory_releaseFace _ _ s).core, h]

theorem fenceAp_stores (acq : Bool) (h : storesDone (drainAll c t) c = true) : ((fenceAp c scope true acq t).core c).ap.storeQ = [] := by
  have hq := storesDone_iff.mp h
  have hrel : ((if (decide (5 ≤ scope) && true) = true then releaseAp c (drainAll c t) else drainAll c t).core c).ap.storeQ = [] := by
    split
    · exact storeQ_releaseAp hq
    · exact hq
  simp only [fenceAp, if_true]
  split
  · exact (storeQ_acquireAp _).trans hrel
  · exact hrel

theorem fenceAp_held (rel : Bool) (h : 5 ≤ scope) : ((fenceAp c scope rel true t).core c).ap.held = [] := by
  simp only [fenceAp, decide_eq_true h, Bool.and_self, if_true]
  exact held_acquireAp _

end Orders

/-- Settles O20: each fence by what its release finds, and the orders by the operations that they are made of. -/
theorem fenceResult : Obligations.FenceResult := by
  unfold Obligations.FenceResult
  refine ⟨?completes, ?stores, fun t c scope acq h => fenceAp_stores acq h, fun t c scope rel h => fenceAp_held rel h⟩
  case completes =>
    intro s c e f u scope free flush
    have isFree {n : Nat} (h : free n) : Free s c n := ⟨h.1, h.2.1, h.2.2⟩
    refine ⟨fun h => exec_acquire h rfl, fun h hf => exec_free h rfl (isFree hf), fun h hf => exec_free h rfl (isFree hf),
      fun h hf => ?_, fun h hf => ?_⟩
    · exact exec_free (scope := 5) h rfl (isFree hf)
    · exact exec_free (scope := 2) h rfl (isFree hf)
  case stores =>
    intro s c e f w hw
    simp only [List.mem_cons, List.not_mem_nil, or_false] at hw
    obtain rfl | rfl | rfl | rfl := hw
    all_goals exact fun h hhost => exec_with_stores h rfl hhost

end Sys2Proof.Proofs.Fences
end

section
/-! PROOFS. Page walks of an AP (R184-R189): what PAGE_WALK does, a walk that ends at its root, and one that ends at a 1 GiB leaf. -/

namespace Sys2Proof.Proofs.Walks

open Sys2Proof Sys2Proof.Machine Sys2Proof.Claims
open Sys2Proof.Proofs.ScalarWords (lateReg_ready)

section Event

variable {s : State} {c : CoreId} {va : Nat} {acc : Access}

/-! ### The event (R189) -/

/-- No walk where no word is to issue that needs one, or where the translation is there. -/
theorem walkEvent_none (h : walkPlan s c va acc = none ∨ tlbFind (s.core c) va ≠ none) : walkEvent c va acc s = s := by
  unfold walkEvent
  split
  · rfl
  · next p hp => exact if_pos (Option.isSome_iff_ne_none.mpr (h.resolve_left (by simp [hp])))

/-- A walk that finds a leaf: what the translation leaves. -/
theorem walkEvent_ok {t : State} {q : Piece} (hplan : walkPlan s c va acc ≠ none) (hmiss : tlbFind (s.core c) va = none)
    (h : translate s c va 1 acc = .ok (q, t)) : walkEvent c va acc s = t := by
  obtain ⟨p, hp⟩ := Option.ne_none_iff_exists'.mp hplan
  simp only [walkEvent, hp, hmiss, h, Option.isSome_none, Bool.false_eq_true, if_false]

/-- A walk that fails where its word then halts. -/
theorem walkEvent_fault {x : WalkFault} {p : Plan} {y : ApFault} (hplan : walkPlan s c va acc = some p) (hmiss : tlbFind (s.core c) va = none)
    (h : translate s c va 1 acc = .error x) (hy : p.fault = some y) (hc : x.cause ≠ 11) : walkEvent c va acc s = apFault c y s := by
  simp only [walkEvent, hplan, hmiss, h, hy, noteWalk, hc, Option.isSome_none, Bool.false_eq_true, if_false]

/-- The plan that a walk is for: the word's own. -/
theorem walkPlan_eq {i : Instr} {w : Fields} (hi : (turnOf s c .ap).instr = some i) (hw : toFields i = some w)
    (h : walkPlan s c va acc ≠ none) :
    walkPlan s c va acc = some (planOf i ((turnOf s c .ap).ctx s (s.cluster c.cluster).clk)) := by
  unfold walkPlan at h ⊢
  simp only [hi, Option.bind_some] at h ⊢
  split at h
  · next hready =>
    split at h
    · next hgo =>
      rw [if_pos hready, if_pos hgo]
      refine congrArg some (guarded_go _ i _ w hw ?_)
      have hguard := (Bool.and_eq_true_iff.mp hgo).1
      simpa [guardPasses, hw] using hguard
    · exact absurd rfl h
  · exact absurd rfl h

/-! ### The walk (R184, R186) -/

/-- The address of the entry of a walk's first table. -/
def rootEntry (s : State) (c : CoreId) (va : Nat) : Nat := ((s.core c).csr.xlate.extractLsb' 16 32).toNat * 2 ^ 20 + 8 * bitsN va 39 17

/-- A walk starts at its root table: the address is one of 56 bits, and no table of it is cached. -/
structure FromRoot (s : State) (c : CoreId) (va : Nat) : Prop where
  low : va < 2 ^ 56
  fresh : (s.core c).ap.walks = []
  root : inHbm (((s.core c).csr.xlate.extractLsb' 16 32).toNat * 2 ^ 20) (2 ^ 20) = true

/-- An entry of a table that the walk reads. -/
structure EntryRead (s : State) (a : Nat) : Prop where
  unmarked : scrubMarked s a 8 = false
  sound : poisoned s a 8 = false

theorem pageWalkAt_root (h : FromRoot s c va) : pageWalkAt s c va acc =
    walkFrom s c va (needsW acc) 4 (((s.core c).csr.xlate.extractLsb' 16 32).toNat * 2 ^ 20) [] := by
  have hcached : walkCached (s.core c) va = none := by
    rw [walkCached, h.fresh]
    rfl
  simp only [pageWalkAt, Nat.div_eq_of_lt h.low, h.root, hcached, ne_eq, not_true, if_false, Bool.not_true, Bool.false_eq_true]

/-- A walk whose root entry is not valid. -/
theorem pageWalkAt_invalid (h : FromRoot s c va) (hread : EntryRead s (rootEntry s c va))
    (hv : (deviceWord s 0 (rootEntry s c va)).getLsbD 0 = false) :
    pageWalkAt s c va acc = .error { cause := 6, detail := 1, lvl := 3, needW := needsW acc, va } := by
  have hu : scrubMarked s (((s.core c).csr.xlate.extractLsb' 16 32).toNat * 2 ^ 20 + 8 * lvlIndex 3 va) 8 = false := hread.unmarked
  have hs : poisoned s (((s.core c).csr.xlate.extractLsb' 16 32).toNat * 2 ^ 20 + 8 * lvlIndex 3 va) 8 = false := hread.sound
  have he : pteV (deviceWord s 0 (((s.core c).csr.xlate.extractLsb' 16 32).toNat * 2 ^ 20 + 8 * lvlIndex 3 va)) = false := hv
  rw [pageWalkAt_root h]
  simp only [walkFrom, hu, hs, he, Bool.not_false, Bool.false_eq_true, if_false, if_true]

/-- The entry `e` of a table points to a table of 4 KiB. -/
structure Points (e : W64) : Prop where
  valid : e.getLsbD 0 = true
  zeros : pteZeros e = true
  pointer : pteLeaf e = false
  aligned : pteAddr e % 4096 = 0
  inside : inHbm (pteAddr e) 4096 = true

/-- The entry `e` of a table is a leaf of 1 GiB. -/
structure Gigabyte (e : W64) : Prop where
  valid : e.getLsbD 0 = true
  zeros : pteZeros e = true
  leaf : pteLeaf e = true
  aligned : pteAddr e % 2 ^ 30 = 0

/-- The leaf of 1 GiB that an entry gives for an address. -/
def gigabyteLeaf (s : State) (c : CoreId) (va : Nat) (e : W64) : TlbEntry :=
  { va := va / 2 ^ 30 * 2 ^ 30, bits := 30, asid := (s.core c).csr.xlate.extractLsb' 48 16, g := pteG e, w := pteW e
    r := pteR e, excl := pteExcl e, world := pteWorld e, pa := pteAddr e }

/-- The pointer that a walk passes at its root. -/
def rootPointer (s : State) (c : CoreId) (va : Nat) (e : W64) : WalkEntry :=
  { root := ((s.core c).csr.xlate.extractLsb' 16 32).toNat, asid := (s.core c).csr.xlate.extractLsb' 48 16, lvl := 3
    va := va / 2 ^ 39, base := pteAddr e }

theorem walkFrom_root {needW : Bool} {e3 : W64} (hread : EntryRead s (rootEntry s c va)) (he : deviceWord s 0 (rootEntry s c va) = e3)
    (hp : Points e3) : walkFrom s c va needW 4 (((s.core c).csr.xlate.extractLsb' 16 32).toNat * 2 ^ 20) [] =
      walkFrom s c va needW 3 (pteAddr e3) [rootPointer s c va e3] := by
  have hu : scrubMarked s (((s.core c).csr.xlate.extractLsb' 16 32).toNat * 2 ^ 20 + 8 * lvlIndex 3 va) 8 = false := hread.unmarked
  have hs : poisoned s (((s.core c).csr.xlate.extractLsb' 16 32).toNat * 2 ^ 20 + 8 * lvlIndex 3 va) 8 = false := hread.sound
  have he : deviceWord s 0 (((s.core c).csr.xlate.extractLsb' 16 32).toNat * 2 ^ 20 + 8 * lvlIndex 3 va) = e3 := he
  have hv : pteV e3 = true := hp.valid
  have hnext : (decide (pteAddr e3 % nextTable 3 ≠ 0) || !inHbm (pteAddr e3) (nextTable 3)) = false := by
    simp [nextTable, hp.aligned, hp.inside]
  rw [walkFrom]
  simp only [hu, hs, he, hv, hp.zeros, hp.pointer, hnext, Bool.not_true, Bool.false_eq_true, if_false, OfNat.ofNat_ne_zero]
  rfl

theorem walkFrom_leaf {needW : Bool} {base : Nat} {seen : List WalkEntry} {e2 : W64} (hread : EntryRead s (base + 8 * bitsN va 30 9))
    (he : deviceWord s 0 (base + 8 * bitsN va 30 9) = e2) (hl : Gigabyte e2) :
    walkFrom s c va needW 3 base seen = .ok (gigabyteLeaf s c va e2, seen) := by
  have hu : scrubMarked s (base + 8 * lvlIndex 2 va) 8 = false := hread.unmarked
  have hs : poisoned s (base + 8 * lvlIndex 2 va) 8 = false := hread.sound
  have he : deviceWord s 0 (base + 8 * lvlIndex 2 va) = e2 := he
  have hv : pteV e2 = true := hl.valid
  have hbits : lvlShift 2 = 30 := rfl
  rw [walkFrom]
  simp only [hu, hs, he, hv, hbits, hl.zeros, hl.leaf, hl.aligned, Bool.not_true, Bool.false_eq_true, if_false, if_true, ne_eq, not_true,
    Nat.reduceEqDiff]
  rfl

/-! ### Translation by a walk (R186-R189) -/

theorem translate_walks_error (hlow : va < 2 ^ 56) {n : Nat} {x : WalkFault} (hmiss : tlbFind (s.core c) va = none)
    (h : pageWalkAt s c va acc = .error x) : translate s c va n acc = .error x := by
  simp only [Machine.translate, Nat.div_eq_of_lt hlow, hmiss, h, ne_eq, not_true, if_false]

theorem translate_walks (hlow : va < 2 ^ 56) {n : Nat} {e : TlbEntry} {ws : List WalkEntry} (hmiss : tlbFind (s.core c) va = none)
    (h : pageWalkAt s c va acc = .ok (e, ws)) (hcheck : leafCheck s c (apPriv (s.core c)) acc e va n (lvlOfBits e.bits) = none) :
    translate s c va n acc = .ok (pieceOf s e va n acc, s.modCore c (tlbInsert e ws)) := by
  simp only [Machine.translate, Nat.div_eq_of_lt hlow, hmiss, h, hcheck, ne_eq, not_true, if_false]

theorem splitPages_byte (va : Nat) : splitPages (1 / 0x10000 + 2) va 1 = [(va, 1)] := by
  have hmin : min 1 (0x10000 - va % 0x10000) = 1 := by omega
  simp [splitPages, hmin]

/-- A byte's range fails as its translation does. -/
theorem translateRange_byte_error {x : WalkFault} (hva : va < 2 ^ 64) (h : translate s c va 1 acc = .error x) :
    translateRange s c va 1 acc = .error x := by
  rw [translateRange, Nat.mod_eq_of_lt hva, splitPages_byte]
  simp only [translateParts, h]

/-- The fault of a load of one byte whose translation fails. -/
theorem planLdB_fault {f : Fld} {k : Ctx} {x : WalkFault} (hlate : lateReg k f.a ++ lateDest k f.d = []) (hhost : (k.s.core k.c).ap.host = none)
    (h : translateRange k.s k.c (eaOf k f) 1 .read = .error x) : (planOf (.ldB f) k).fault = some (apWalkFault k.s k.c x (eaOf k f)) := by
  change (planLd 1 false f k).fault = _
  have hgot : loadGot k.c (eaOf k f) 1 k.s = .fault (apWalkFault k.s k.c x (eaOf k f)) (noteWalk x) := by
    simp only [loadGot, hhost, h]
  simp only [planLd, planGot, hlate, hgot, List.isEmpty_nil, if_true]

/-- A leaf put into a TLB is what the TLB then finds for the address. -/
theorem tlbFind_insert (x : Core) (va : Nat) (e : TlbEntry) (ws : List WalkEntry) (hva : va / 2 ^ e.bits = e.va / 2 ^ e.bits)
    (hasid : e.asid = x.csr.xlate.extractLsb' 48 16) : tlbFind (tlbInsert e ws x) va = some e := by
  simp only [tlbFind, tlbInsert, List.take_succ_cons, List.find?_cons, hva, hasid, decide_true, Bool.or_true, Bool.and_self]

end Event

section Obligation

variable {s : State} {c : CoreId} {va : W64} {acc : Access}

/-- The walk for a load of one byte whose root entry is not valid: the AP halts. -/
theorem walk_invalid {f : Fld} (hplan : walkPlan s c va.toNat acc ≠ none) (hmiss : tlbFind (s.core c) va.toNat = none)
    (h : FromRoot s c va.toNat) (hread : EntryRead s (rootEntry s c va.toNat))
    (hv : (deviceWord s 0 (rootEntry s c va.toNat)).getLsbD 0 = false) (hi : (turnOf s c .ap).instr = some (.ldB f))
    (hva : va.toNat = eaOf ((turnOf s c .ap).ctx s (s.cluster c.cluster).clk) f) (hacc : acc = .read) (hhost : (s.core c).ap.host = none)
    (hr : regsReady s c .ap [f.a, f.d] = true) :
    walkEvent c va.toNat acc s = apFault c (apFaultOf s c 6 1 3 false va) s := by
  subst hacc
  let k := (turnOf s c .ap).ctx s (s.cluster c.cluster).clk
  have hlate : lateReg k f.a ++ lateDest k f.d = [] := by
    simp only [regsReady, List.all_cons, List.all_nil, Bool.and_true, Bool.and_eq_true, Bool.not_eq_true'] at hr
    obtain ⟨ha, hd⟩ := hr
    rw [lateDest, lateReg_nil (k := k) ha, lateReg_nil (k := k) hd]
    rfl
  have htr := translate_walks_error (n := 1) h.low hmiss (pageWalkAt_invalid (acc := .read) h hread hv)
  have hfault : (planOf (.ldB f) k).fault = some (apWalkFault s c _ (eaOf k f)) :=
    planLdB_fault hlate hhost (hva ▸ translateRange_byte_error va.isLt htr)
  have haddr : BitVec.ofNat 64 (eaOf k f) = va := (congrArg (BitVec.ofNat 64) hva.symm).trans (by simp)
  rw [walkEvent_fault (walkPlan_eq hi rfl hplan) hmiss htr hfault (show (6 : Nat) ≠ 11 by decide)]
  simp only [apWalkFault, needsW, haddr]
  rfl

/-- The walk that ends at a leaf of 1 GiB which passes its check: the leaf is in the TLB. -/
theorem walk_leaf {e3 e2 : W64} (hplan : walkPlan s c va.toNat acc ≠ none) (hmiss : tlbFind (s.core c) va.toNat = none)
    (h : FromRoot s c va.toNat) (hread3 : EntryRead s (rootEntry s c va.toNat)) (he3 : deviceWord s 0 (rootEntry s c va.toNat) = e3)
    (hp : Points e3) (hread2 : EntryRead s (pteAddr e3 + 8 * bitsN va.toNat 30 9))
    (he2 : deviceWord s 0 (pteAddr e3 + 8 * bitsN va.toNat 30 9) = e2) (hl : Gigabyte e2)
    (hcheck : leafCheck s c (apPriv (s.core c)) acc (gigabyteLeaf s c va.toNat e2) va.toNat 1 2 = none) :
    walkEvent c va.toNat acc s = s.modCore c (tlbInsert (gigabyteLeaf s c va.toNat e2) [rootPointer s c va.toNat e3]) := by
  have hwalk : pageWalkAt s c va.toNat acc = .ok (gigabyteLeaf s c va.toNat e2, [rootPointer s c va.toNat e3]) := by
    rw [pageWalkAt_root h, walkFrom_root hread3 he3 hp, walkFrom_leaf hread2 he2 hl]
  exact walkEvent_ok hplan hmiss (translate_walks h.low hmiss hwalk hcheck)

end Obligation

end Sys2Proof.Proofs.Walks
end

section
/-! PROOFS. Events of the APs and the faces (R147, R192-R194, R314): the record of a halted AP, APRES, the arrival of a queue's bytes, and
evictions. -/

namespace Sys2Proof.Proofs.ApEvents

open Sys2Proof Sys2Proof.Machine Sys2Proof.Claims
open Sys2Proof.Proofs.Acts (done_of_regq)
open Sys2Proof.Proofs.Device
open Sys2Proof.Proofs.Traps
open Sys2Proof.Proofs.CommandEffects (bvOfBytes_bytesOfNat)
open Sys2Proof.Proofs.Stores (keyNum_congr)
open Sys2Proof.Proofs.Walks

/-! ### Fields of a number (R6) -/

/-- A field of a word given by its number. -/
theorem extractLsb'_ofNat (n : Nat) {lo len : Nat} (h : lo + len ≤ 64) :
    (BitVec.ofNat 64 n).extractLsb' lo len = BitVec.ofNat len (n / 2 ^ lo) := by
  refine BitVec.eq_of_getLsbD_eq fun i hi => ?_
  have hlt : lo + i < 64 := by omega
  simp only [BitVec.getLsbD_extractLsb', BitVec.getLsbD_ofNat, hi, hlt, Nat.testBit_div_two_pow, Nat.add_comm, decide_true, Bool.true_and]

theorem getLsbD_ofNat_eq (n : Nat) {i : Nat} (h : i < 64) {b : Bool} (hb : n / 2 ^ i % 2 = b.toNat) : (BitVec.ofNat 64 n).getLsbD i = b := by
  rw [BitVec.getLsbD_ofNat, decide_eq_true h, Bool.true_and, Nat.testBit_eq_decide_div_mod_eq, hb]
  cases b <;> rfl

/-! ### Fault records (R192, R193) -/

section Record

variable {s : State} {c : CoreId} {f : ApFault}

/-- The first and the last word of a fault record, as numbers. -/
def recordHead (s : State) (c : CoreId) (f : ApFault) : Nat :=
  f.cause % 16 + 2 ^ 8 * (f.detail % 16) + 2 ^ 12 * c.val + 2 ^ 19 * f.inUi.toNat + 2 ^ 20 * f.needW.toNat
    + 2 ^ 32 * (asidOf (s.core c)).toNat + 2 ^ 48 * (s.core c).csr.world.toNat

def recordTail (s : State) (f : ApFault) : Nat :=
  f.pitch.toNat + 2 ^ 10 * (f.word % 1024) + 2 ^ 20 * (f.level % 4) + 2 ^ 32 * s.sys.fseq.toNat

theorem faultBytes_eq : faultBytes s c f = bytesOfNat 8 (recordHead s c f) ++ bytesOfNat 8 f.va.toNat ++ bytesOfNat 8 f.addr ++
    bytesOfNat 8 (recordTail s f) := rfl

/-- The fields of the first word. -/
theorem recordHead_fields (hcause : f.cause < 16) (hdetail : f.detail < 16) :
    let w : W64 := BitVec.ofNat 64 (recordHead s c f)
    w.extractLsb' 0 4 = BitVec.ofNat 4 f.cause ∧ w.extractLsb' 8 4 = BitVec.ofNat 4 f.detail ∧ w.extractLsb' 12 7 = BitVec.ofNat 7 c.val ∧
      w.getLsbD 19 = f.inUi ∧ w.getLsbD 20 = f.needW ∧ w.extractLsb' 32 16 = (s.core c).csr.xlate.extractLsb' 48 16 ∧
      w.extractLsb' 48 4 = (s.core c).csr.world := by
  have hc := c.isLt
  have hui : f.inUi.toNat < 2 := Bool.toNat_lt _
  have hneed : f.needW.toNat < 2 := Bool.toNat_lt _
  have hasid : (asidOf (s.core c)).toNat < 2 ^ 16 := (asidOf (s.core c)).isLt
  have hworld : (s.core c).csr.world.toNat < 2 ^ 4 := (s.core c).csr.world.isLt
  have field {lo len m : Nat} (hle : lo + len ≤ 64) (hm : recordHead s c f / 2 ^ lo % 2 ^ len = m % 2 ^ len) :
      (BitVec.ofNat 64 (recordHead s c f)).extractLsb' lo len = BitVec.ofNat len m :=
    (extractLsb'_ofNat _ hle).trans (BitVec.eq_of_toNat_eq (by rwa [BitVec.toNat_ofNat, BitVec.toNat_ofNat]))
  unfold recordHead at field ⊢
  refine ⟨field (by decide) (by omega), field (by decide) (by omega), field (by decide) (by omega), getLsbD_ofNat_eq _ (by decide) (by omega),
    getLsbD_ofNat_eq _ (by decide) (by omega), ?_, ?_⟩
  · exact (field (m := (asidOf (s.core c)).toNat) (by decide) (by omega)).trans (BitVec.ofNat_toNat _ _ |>.trans (BitVec.setWidth_eq _))
  · exact (field (m := (s.core c).csr.world.toNat) (by decide) (by omega)).trans (BitVec.ofNat_toNat _ _ |>.trans (BitVec.setWidth_eq _))

/-- The fields of the last word. -/
theorem recordTail_fields (hword : f.word < 1024) :
    let w : W64 := BitVec.ofNat 64 (recordTail s f)
    w.extractLsb' 0 10 = f.pitch ∧ w.extractLsb' 10 10 = BitVec.ofNat 10 f.word ∧ w.extractLsb' 20 2 = BitVec.ofNat 2 f.level ∧
      w.extractLsb' 32 32 = s.sys.fseq := by
  have hpitch := f.pitch.isLt
  have hseq : s.sys.fseq.toNat < 2 ^ 32 := s.sys.fseq.isLt
  have field {lo len m : Nat} (hle : lo + len ≤ 64) (hm : recordTail s f / 2 ^ lo % 2 ^ len = m % 2 ^ len) :
      (BitVec.ofNat 64 (recordTail s f)).extractLsb' lo len = BitVec.ofNat len m :=
    (extractLsb'_ofNat _ hle).trans (BitVec.eq_of_toNat_eq (by rwa [BitVec.toNat_ofNat, BitVec.toNat_ofNat]))
  unfold recordTail at field ⊢
  refine ⟨?_, field (by decide) (by omega), field (by decide) (by omega), ?_⟩
  · exact (field (m := f.pitch.toNat) (by decide) (by omega)).trans (BitVec.ofNat_toNat _ _ |>.trans (BitVec.setWidth_eq _))
  · exact (field (m := s.sys.fseq.toNat) (by decide) (by omega)).trans (BitVec.ofNat_toNat _ _ |>.trans (BitVec.setWidth_eq _))

/-- A number of 64 bits in a record that a unit of the package writes reads back. -/
theorem deviceWord_devicePut {v : World} {a : Nat} {l p r : List Byte} {n : Nat} (h : s.memOk) (hl : l = p ++ (bytesOfNat 8 n ++ r))
    (hin : inHbm a l.length = true) : deviceWord (devicePut v a l s) v (a + p.length) = BitVec.ofNat 64 n := by
  have hhost : ¬ inHost a = true := by
    have hbound : a + l.length ≤ 0xC0_0000_0000 := of_decide_eq_true hin
    have hn : a < 0x8_0000_0000_0000 := by omega
    simp [inHost, hn]
  have hlen : p.length + 8 ≤ l.length := by subst hl; simp [length_bytesOfNat]
  have hread := deviceBytes_deviceBlock (v := v) (slist 0 0 l) (o := p.length) (l := bytesOfNat 8 n) (by omega : l.length ≠ 0) h hin
    (by rwa [length_bytesOfNat]) fun i hi => by
      have := sget_slist (0 : Byte) 0 l (p.length + i)
      rw [Nat.zero_add] at this
      rw [this, hl, List.getD_append_right _ _ _ _ (Nat.le_add_right _ _), Nat.add_sub_cancel_left, List.getD_append _ _ _ _ hi]
  rw [length_bytesOfNat] at hread
  rw [deviceWord, devicePut, if_neg hhost, if_pos hin, hread, bvOfBytes_bytesOfNat]

theorem length_faultBytes : (faultBytes s c f).length = 32 := by simp [faultBytes_eq, length_bytesOfNat]

/-- The four words of a fault record in memory. -/
theorem deviceWord_record {a : Nat} (h : s.memOk) (hin : inHbm a 32 = true) :
    let t := devicePut 0 a (faultBytes s c f) s
    deviceWord t 0 a = BitVec.ofNat 64 (recordHead s c f) ∧ deviceWord t 0 (a + 8) = f.va ∧ deviceWord t 0 (a + 16) = BitVec.ofNat 64 f.addr ∧
      deviceWord t 0 (a + 24) = BitVec.ofNat 64 (recordTail s f) := by
  have hin' : inHbm a (faultBytes s c f).length = true := by rwa [length_faultBytes]
  refine ⟨?_, ?_, ?_, ?_⟩
  · exact deviceWord_devicePut (p := []) h (by rw [faultBytes_eq, List.append_assoc, List.append_assoc]; rfl) hin'
  · refine (deviceWord_devicePut (p := bytesOfNat 8 (recordHead s c f)) h (by rw [faultBytes_eq, List.append_assoc, List.append_assoc]) hin').trans ?_
    exact BitVec.ofNat_toNat _ _ |>.trans (BitVec.setWidth_eq _)
  · exact deviceWord_devicePut (p := bytesOfNat 8 (recordHead s c f) ++ bytesOfNat 8 f.va.toNat) h
      (by rw [faultBytes_eq, List.append_assoc (_ ++ _)]) hin'
  · exact deviceWord_devicePut (p := bytesOfNat 8 (recordHead s c f) ++ bytesOfNat 8 f.va.toNat ++ bytesOfNat 8 f.addr) (r := []) h
      (by rw [faultBytes_eq, List.append_nil]) hin'

/-- No record goes to the ring twice, nor to one that is disabled or full. -/
theorem postFault_rests (hf : (s.core c).ap.fault = some f) (h : f.posted = true ∨ bitsN s.sys.fqbase.toNat 12 40 * 4096 = 0 ∨
    2 ^ s.sys.fqsize.toNat ≤ (s.sys.fqtail - s.sys.fqhead).toNat) : postFault c s = s := by
  unfold postFault
  rw [hf]
  exact if_pos (by simpa only [Bool.or_eq_true, decide_eq_true_eq, or_assoc] using h)

/-- Where the ring takes its next record. -/
def ringAddr (s : State) : Nat := bitsN s.sys.fqbase.toNat 12 40 * 4096 + 32 * (s.sys.fqtail.toNat % 2 ^ s.sys.fqsize.toNat)

/-- The bytes of a record in the ring, and the fault posted. -/
def recordPosted (s : State) (c : CoreId) (f : ApFault) : State :=
  apFault c { f with posted := true } (devicePut 0 (ringAddr s) (faultBytes s c f) s)

/-- The ring moved on past a record, with a notice. -/
def ringMoved (s : State) : State := notice 2 { s with sys := { s.sys with fqtail := s.sys.fqtail + 1, fseq := s.sys.fseq + 1 } }

theorem postFault_posts (hf : (s.core c).ap.fault = some f) (hp : f.posted = false) (hb : bitsN s.sys.fqbase.toNat 12 40 * 4096 ≠ 0)
    (hroom : (s.sys.fqtail - s.sys.fqhead).toNat < 2 ^ s.sys.fqsize.toNat) : postFault c s = ringMoved (recordPosted s c f) := by
  unfold postFault
  rw [hf]
  exact if_neg (by simp only [hp, Bool.false_or, Bool.or_eq_true, decide_eq_true_eq, not_or, not_le]; exact ⟨hb, hroom⟩)

theorem recordPosted_sys : (recordPosted s c f).sys = s.sys :=
  (congrArg State.sys (onlyMemory_devicePut 0 (ringAddr s) (faultBytes s c f) s) :)

theorem recordPosted_clusters : (recordPosted s c f).clusters = s.clusters :=
  (onlyMemory_devicePut 0 _ (faultBytes s c f) s).clusters

theorem recordPosted_keys : (recordPosted s c f).keys = s.keys :=
  (congrArg State.keys (onlyMemory_devicePut 0 (ringAddr s) (faultBytes s c f) s) :)

theorem recordPosted_core : (recordPosted s c f).core c =
    { s.core c with ap := { (s.core c).ap with fault := some { f with posted := true }, host := none } } := by
  rw [recordPosted, apFault, State.core_modCore_same, (onlyMemory_devicePut 0 _ (faultBytes s c f) s).core c]

theorem recordPosted_core_other {d : CoreId} (h : d ≠ c) : (recordPosted s c f).core d = s.core d := by
  rw [recordPosted, apFault, State.core_modCore_other _ _ _ _ h, (onlyMemory_devicePut 0 _ (faultBytes s c f) s).core d]

theorem ringMoved_sys : (ringMoved s).sys.fqtail = s.sys.fqtail + 1 ∧ (ringMoved s).sys.fseq = s.sys.fseq + 1 := by
  unfold ringMoved notice
  split <;> exact ⟨rfl, rfl⟩

theorem deviceWord_ringMoved (v : World) (a : Nat) : deviceWord (ringMoved s) v a = deviceWord s v a :=
  congrArg (bvOfBytes 64) (deviceBytes_congr (notice_mem _ _) (notice_keys _ _) v a 8)

theorem deviceWord_recordPosted (v : World) (a : Nat) :
    deviceWord (recordPosted s c f) v a = deviceWord (devicePut 0 (ringAddr s) (faultBytes s c f) s) v a :=
  congrArg (bvOfBytes 64) (deviceBytes_congr rfl rfl v a 8)

end Record

/-! ### Evictions (R314) -/

section Evict

variable {v : World} {line : Nat}

/-- A byte stored at the HBM controller, its line claimed for the world that stores. -/
def storeCell (v : World) (a : Nat) (b : Byte) (s : State) : State :=
  { claimLine s v (a / 128) with mem := { (claimLine s v (a / 128)).mem with hbm := sput 0 (claimLine s v (a / 128)).mem.hbm a b } }

theorem hbmStore_cons (a : Nat) (b : Byte) (r : List Host.Cell) (s : State) : hbmStore v ((a, b) :: r) s = hbmStore v r (storeCell v a b s) :=
  rfl

theorem memOk_storeCell {s : State} (h : s.memOk) (a : Nat) (b : Byte) : (storeCell v a b s).memOk := memOk_hbmStore v [(a, b)] s h

/-- The line of a byte stored is its world's. -/
theorem storeCell_key {s : State} (h : s.memOk) {a : Nat} {b : Byte} (ha : a / 128 = line) :
    sget 0 (storeCell v a b s).mem.lineKey line = keyNum (storeCell v a b s) v := by
  have hkeys : (storeCell v a b s).keys = s.keys := (congrArg State.keys (onlyMemory_claimLine s v (a / 128)) :)
  rw [keyNum_congr hkeys]
  exact ha ▸ claimLine_key s v (a / 128) h

theorem storeCell_same {s : State} (h : s.memOk) (a : Nat) (b : Byte) : sget 0 (storeCell v a b s).mem.hbm a = b :=
  sget_sput_same 0 _ a b ((Memory.wf_iff _).mp (memOk_claimLine s v _ h).1).1

/-- A byte stored in a line that is the world's already leaves the others. -/
theorem storeCell_other {s : State} {x a : Nat} {b : Byte} (hx : x ≠ a) (hk : sget 0 s.mem.lineKey (a / 128) = keyNum s v) :
    sget 0 (storeCell v a b s).mem.hbm x = sget 0 s.mem.hbm x := by
  have hc : claimLine s v (a / 128) = s := if_pos hk
  simp only [storeCell, hc]
  exact sget_sput_other 0 _ a x b hx

/-- Bytes stored in a line of their world leave the bytes they do not name. -/
theorem hbmStore_keeps {cells : List Host.Cell} {s : State} {x : Nat} (h : s.memOk) (hk : sget 0 s.mem.lineKey line = keyNum s v)
    (hc : ∀ e ∈ cells, e.1 / 128 = line ∧ x ≠ e.1) : sget 0 (hbmStore v cells s).mem.hbm x = sget 0 s.mem.hbm x := by
  induction cells generalizing s with
  | nil => rfl
  | cons e r ih =>
    obtain ⟨a, b⟩ := e
    obtain ⟨ha, hx⟩ := hc (a, b) List.mem_cons_self
    rw [hbmStore_cons, ih (memOk_storeCell h a b) (storeCell_key h ha) fun e he => hc e (List.mem_cons_of_mem _ he)]
    exact storeCell_other hx (ha ▸ hk)

/-- Bytes of one line stored at distinct addresses are in HBM. -/
theorem hbmStore_puts {cells : List Host.Cell} {s : State} {x : Nat} {y : Byte} (h : s.memOk) (hc : ∀ e ∈ cells, e.1 / 128 = line)
    (hd : (cells.map Prod.fst).Nodup) (hx : (x, y) ∈ cells) : sget 0 (hbmStore v cells s).mem.hbm x = y := by
  induction cells generalizing s with
  | nil => simp at hx
  | cons e r ih =>
    obtain ⟨a, b⟩ := e
    obtain ⟨hout, hd'⟩ := List.nodup_cons.mp hd
    have hr : ∀ e ∈ r, e.1 / 128 = line := fun e he => hc e (List.mem_cons_of_mem _ he)
    rw [hbmStore_cons]
    rcases List.mem_cons.mp hx with heq | htail
    · obtain ⟨rfl, rfl⟩ := Prod.mk.inj heq
      have hline := hc (x, y) List.mem_cons_self
      rw [hbmStore_keeps (memOk_storeCell h x y) (storeCell_key h hline) fun e he => ⟨hr e he, fun hxe => hout (List.mem_map.mpr ⟨e, he, hxe.symm⟩)⟩]
      exact storeCell_same h x y
    · exact ih (memOk_storeCell h a b) hr hd' htail

theorem mem_dirtyCells {x : L2Line} {e : Host.Cell} : e ∈ dirtyCells line x ↔
    ∃ i < 128, x.dirty.getLsbD i = true ∧ e = (128 * line + i, rowByte x.data i) := by
  simp only [dirtyCells, List.mem_filterMap, List.mem_range, Option.ite_none_right_eq_some, Option.some.injEq]
  exact ⟨fun ⟨i, hi, hd, h⟩ => ⟨i, hi, hd, h.symm⟩, fun ⟨i, hi, hd, h⟩ => ⟨i, hi, hd, h.symm⟩⟩

theorem dirtyCells_nodup (line : Nat) (x : L2Line) : ((dirtyCells line x).map Prod.fst).Nodup := by
  rw [dirtyCells, List.map_filterMap]
  refine List.nodup_range.filterMap fun i j a hi hj => ?_
  simp only [Option.mem_def, Option.map_eq_some_iff, Option.ite_none_right_eq_some, Option.some.injEq] at hi hj
  obtain ⟨_, ⟨-, rfl⟩, hi⟩ := hi
  obtain ⟨_, ⟨-, rfl⟩, hj⟩ := hj
  have : 128 * line + i = 128 * line + j := hi.trans hj.symm
  omega

/-- The dirty bytes of an evicted line are in HBM. -/
theorem evictLine_hbm {s : State} {f : Fin 4} {x : L2Line} {i : Nat} (h : s.memOk) (hx : l2Get s f line = some x)
    (hkey : x.key = keyNum s x.world) (hi : i < 128) (hd : x.dirty.getLsbD i = true) :
    sget 0 (evictLine s f line).mem.hbm (128 * line + i) = rowByte x.data i := by
  have hdirty : x.dirty ≠ 0 := fun h0 => by simp [h0] at hd
  have hback : writeBack s f line = l2Put (hbmPut x.world (dirtyCells line x) s) f line (some { x with dirty := 0, bad := copyBad x }) := by
    rw [writeBack, hx]
    exact (if_neg hdirty).trans (if_neg (not_not_intro hkey))
  rw [evictLine, hback]
  refine hbmStore_puts (line := line) h (fun e he => ?_) (dirtyCells_nodup line x) (mem_dirtyCells.mpr ⟨i, hi, hd, rfl⟩)
  obtain ⟨j, hj, -, rfl⟩ := mem_dirtyCells.mp he
  change (128 * line + j) / 128 = line
  omega

end Evict

/-! ### Queues and APRES (R147, R194) -/

theorem arriveEntry_oldest {l1 l2 : List LqEntry} {e : LqEntry} (h : ∀ x ∈ l1, x.pending = none) (he : e.pending ≠ none) :
    arriveEntry (l1 ++ e :: l2) = l1 ++ { e with pending := none } :: l2 := by
  induction l1 with
  | nil => exact if_pos (Option.isSome_iff_ne_none.mpr he)
  | cons x r ih =>
    have hx : x.pending = none := h x List.mem_cons_self
    rw [List.cons_append, arriveEntry, if_neg (by simp [hx]), ih fun y hy => h y (List.mem_cons_of_mem _ hy)]
    rfl

theorem qldArrive_oldest {s : State} {c : CoreId} {q : Fin 8} {l1 l2 : List LqEntry} {e : LqEntry} (hq : (s.core c).vec.q[q] = l1 ++ e :: l2)
    (h : ∀ x ∈ l1, x.pending = none) (he : e.pending ≠ none) : qldArrive c q s = s.modCore c fun x => { x with vec := { x.vec with
      q := x.vec.q.set q (l1 ++ { e with pending := none } :: l2) } } := by
  refine congrArg (s.setCore c) ?_
  rw [← arriveEntry_oldest h he, ← hq]

theorem apresCore (v : W64) : coreOf (bitsN v.toNat 0 7) = coreOf (v.extractLsb' 0 7).toNat := by
  simp [bitsN, BitVec.extractLsb'_toNat]

theorem resumeAp_none {s : State} {c : CoreId} (h : (s.core c).ap.fault = none) : resumeAp c s = s := if_pos (by rw [h]; rfl)

theorem resumeAp_clears {s : State} {c : CoreId} (h : (s.core c).ap.fault ≠ none) (hs : (s.core c).ap.stale = false) :
    resumeAp c s = s.modCore c fun x => { x with ap := { x.ap with fault := none } } :=
  (if_neg (by simpa using h)).trans (if_neg (by simp [hs]))

/-! ### The obligation -/

/-- What a record that is written changes outside memory: the ring moves on, and the fault is posted. -/
theorem postFault_frame {s : State} {c : CoreId} {f : ApFault} :
    let t := ringMoved (recordPosted s c f)
    t.sys.fqtail = s.sys.fqtail + 1 ∧ t.sys.fseq = s.sys.fseq + 1 ∧ t.sys.mgt.getLsbD 2 = true ∧
      (t.core c).ap.fault = some { f with posted := true } ∧ { t.core c with ap := (s.core c).ap } = s.core c ∧ OthersSame c s t ∧
      t.clusters = s.clusters := by
  intro t
  have hcore (d : CoreId) : t.core d = (recordPosted s c f).core d := notice_core 2 _ d
  obtain ⟨htail, hseq⟩ := ringMoved_sys (s := recordPosted s c f)
  rw [recordPosted_sys] at htail hseq
  exact ⟨htail, hseq, notice_mgt _ (by decide), by rw [hcore, recordPosted_core], by rw [hcore, recordPosted_core],
    fun d hd => (hcore d).trans (recordPosted_core_other hd), (notice_clusters 2 _).trans recordPosted_clusters⟩

theorem deviceWord_posted {s : State} {c : CoreId} {f : ApFault} (x : Nat) :
    deviceWord (ringMoved (recordPosted s c f)) 0 x = deviceWord (devicePut 0 (ringAddr s) (faultBytes s c f) s) 0 x :=
  (deviceWord_ringMoved 0 x).trans (deviceWord_recordPosted 0 x)

theorem posted_regq {s : State} {c : CoreId} {f : ApFault} (hq : s.regq = []) : (ringMoved (recordPosted s c f)).regq = [] := by
  rw [ringMoved, notice_regq]
  exact (congrArg State.regq (onlyMemory_devicePut 0 (ringAddr s) (faultBytes s c f) s) :).trans hq

/-- Settles O44, by the walk from its root, the words of a fault record in the ring, and what an eviction writes back. -/
theorem apEvents : Obligations.ApEvents := by
  unfold Obligations.ApEvents
  refine ⟨?_, ?_, ?_, ?_, ?_⟩
  · intro s c va acc hq
    have hexec {t : State} (ht : walkEvent c va.toNat acc s = t) (hreg : t.regq = []) : exec (.pageWalk c va acc) s = .next t :=
      (congrArg done ht).trans (done_of_regq hreg)
    refine ⟨fun h => hexec (walkEvent_none h) hq, ?_⟩
    intro root a3 e3 hplan hmiss hlow hfresh hroot hmark3 hpoison3
    have hr : FromRoot s c va.toNat := ⟨hlow, hfresh, hroot⟩
    have hread3 : EntryRead s (rootEntry s c va.toNat) := ⟨hmark3, hpoison3⟩
    refine ⟨?_, ?_⟩
    · intro f k hv hi hva hacc hhost hready
      exact hexec (walk_invalid hplan hmiss hr hread3 hv hi hva hacc hhost hready) hq
    · intro a2 e2 leaf hv3 hz3 hl3 hal3 hin3 hmark2 hpoison2 hv2 hz2 hl2 hal2 hcheck
      refine ⟨s.modCore c (tlbInsert leaf [rootPointer s c va.toNat e3]), ([rootPointer s c va.toNat e3] ++ (s.core c).ap.walks).take 1024,
        hexec (walk_leaf hplan hmiss hr hread3 rfl ⟨hv3, hz3, hl3, hal3, hin3⟩ ⟨hmark2, hpoison2⟩ rfl ⟨hv2, hz2, hl2, hal2⟩ hcheck) hq, ?_, rfl⟩
      rw [State.core_modCore_same]
      exact tlbFind_insert _ _ _ _ (Nat.mul_div_cancel _ (by decide)).symm rfl
  · intro s c f hq hf base size
    refine ⟨fun h => (congrArg done (postFault_rests hf h)).trans (done_of_regq hq), ?_⟩
    intro hp hb hroom hok hcause hdetail _ hword _ a hin
    obtain ⟨htail, hseq, hmgt, hfault, hkept, hothers, hclusters⟩ := postFault_frame (s := s) (c := c) (f := f)
    refine ⟨_, (congrArg done (postFault_posts hf hp hb hroom)).trans (done_of_regq (posted_regq hq)), htail, hseq, hmgt, hfault, hkept,
      hothers, hclusters, ?_⟩
    obtain ⟨h0, h8, h16, h24⟩ := deviceWord_record (c := c) (f := f) hok (a := ringAddr s) hin
    obtain ⟨f1, f2, f3, f4, f5, f6, f7⟩ := recordHead_fields (s := s) (c := c) hcause hdetail
    obtain ⟨g1, g2, g3, g4⟩ := recordTail_fields (s := s) hword
    rw [deviceWord_posted, deviceWord_posted, deviceWord_posted, deviceWord_posted]
    rw [show a = ringAddr s from rfl, h0, h8, h16, h24]
    exact ⟨f1, f2, f3, f4, f5, f6, f7, rfl, rfl, g1, g2, g3, g4⟩
  · intro s v hq hpow c
    have hexec : exec (.apres v) s = done (resumeAp c s) := by
      refine (congrArg done (if_neg (by simp [regAwake, hpow]))).trans ?_
      exact congrArg (fun d => done (resumeAp d s)) (apresCore v)
    exact ⟨fun h => hexec.trans ((congrArg done (resumeAp_none h)).trans (done_of_regq hq)),
      fun h hs => hexec.trans ((congrArg done (resumeAp_clears h hs)).trans (done_of_regq hq))⟩
  · intro s c q l1 e l2 hq hl h he
    exact (congrArg done (qldArrive_oldest hl h he)).trans (done_of_regq hq)
  · intro s f line hq hok
    have hmem := onlyMemory_evictLine s f line.toNat
    have hout := memOk_evictLine s f line.toNat hok
    exact ⟨evictLine s f line.toNat, done_of_regq ((congrArg State.regq hmem :).trans hq),
      l2Get_l2Put_same _ f _ _ ((memOk_writeBack s f line.toNat hok).2 f), hmem.cores, hmem.clusters, hout,
      fun g v pa hpa => (lineAgree_evictLine (pa / 128) line.toNat s f hpa.symm).sees hok hout g v,
      fun x i hx hkey hi hd => evictLine_hbm hok hx hkey hi hd⟩

end Sys2Proof.Proofs.ApEvents
end

section
/-! PROOFS. An abort of a collective whose job holds no core (R357, R118, R386): the job event's completion record goes to the job's saved
state, so the event changes more of the job than the number of its next event. -/

namespace Sys2Proof.Proofs.CollectiveAbort

open Sys2Proof Sys2Proof.Machine

/-! ### A saved job with a collective -/

/-- A plane of world 0 with nothing in it. -/
def emptyPlane : Plane :=
  { world := 0, strict := false, priv := false, dual := false, drainlim := 0, starts := Vector.replicate 6 0, looptab := Vector.replicate 4 0
    xlate := 0, tbase := 0, ctxbase := 0, tvec := 0, uiAddr := 0, collid := 0, spcfg := Vector.replicate 4 0, ft := Vector.replicate 16 0
    bins := Vector.replicate 16 Bin.zero, s := Vector.replicate 32 0, a := Vector.replicate 32 0, cairn := [], tabs := Vector.replicate 8 []
    kernel := [] }

/-- A core saved with UIEN set: its AP takes completion records. -/
def savedUi : SavedCore :=
  let x := State.reset.core 0
  { core := { x with ap := { x.ap with uien := true } }, from_ := 0, whole := true, late := [], clk := 0, slots := [] }

/-- A job saved from core 0, its event ring at 0x20000. -/
def storedJob : Job :=
  { id := 0, slot := 0, entry := 0x10000, index := 0, replay := none, plane := emptyPlane, team := [0], phase := .saved, rdvs := 0
    evq := 0x20000, evlog := 4, evn := 0, tag := 7, succ := [], swap := none, saved := [savedUi], maxTick := 0, eligible := false, atFlip := false
    save := false }

/-- A collective of that job, of one rank. -/
def itsColl : Coll :=
  { id := 7, core := 0
    cmd := { id := 7, src := .lead, target := targetOfFn 0xB, fn := 0xB, d := 5, g := 15, gs := false, a := 0, b := 5, imm := 0
             geo := Vector.replicate 8 0, world := 0, hnd := false, pieces := [], xtra := List.replicate 128 0, tmshape := 0, tab := []
             ok := some true, prog := none }
    job := 0, running := false, wrote := false, marks := [], ranks := 1, own := 0, status := 0, input := [], classes := [], fseqs := []
    beyond := false, msgs := 0, cut := none }

/-- The package with that job and that collective in its unit; no core holds the job. -/
def savedWithColl : State :=
  let s := State.reset
  { s with jobs := [storedJob], fabric := { s.fabric with colls := [itsColl] } }

/-! ### Its abort -/

/-- The completion records that wait in the saved cores of job 0 after an event. -/
def waitingRecords (i : Instr) (s : State) : List Nat :=
  match exec i s with
  | .next t => ((jobById t 0).map fun j => j.saved.map fun v => v.core.ap.heldDone.length).getD []
  | _ => []

theorem savedWithColl_meets :
    let s := savedWithColl
    s.regq = [] ∧ collById s itsColl.id = some itsColl ∧ itsColl.cut = none ∧ writesHeld s itsColl.core itsColl.cmd.id = false ∧
      jobById s itsColl.job = some storedJob ∧ eventRoom s storedJob = true ∧ s.mem.wf = true ∧ (∀ f : Fin 4, swf none s.l2[f] = true) ∧
      inHbm (storedJob.evq + 32 * (storedJob.evn % 2 ^ storedJob.evlog)) 32 = true :=
  ⟨rfl, rfl, rfl, by decide +kernel, rfl, by decide +kernel, by decide +kernel, by decide +kernel, by decide +kernel⟩

/-- The abort's job event leaves a record in the saved core. -/
theorem abort_leaves_record : waitingRecords (.collAbort 7 1 0) savedWithColl = [1] := by decide +kernel

/-- Where the job after the event differs only in its next event, no record waits in the saved core. -/
theorem waitingRecords_of_evn {i : Instr} {s t : State} (hexec : exec i s = .next t)
    (hjob : jobById t 0 = some { storedJob with evn := storedJob.evn + 1 }) : waitingRecords i s = [0] := by
  simp only [waitingRecords, hexec, hjob]
  rfl

/-- Refutes O50: the clause on the job event of an abort says that of the job only the number of its next event changes. Where the job
holds no core, its completion record goes to the AP of its saved state (R118, R386), which holds it while UIEN is set (R129): the saved
core of the job changes as well. -/
theorem not_collectiveEvents : ¬ Obligations.CollectiveEvents := by
  unfold Obligations.CollectiveEvents
  intro h
  obtain ⟨hq, hcoll, hcut, hheld, hjob, hroom, hmem, hl2, hring⟩ := savedWithColl_meets
  obtain ⟨-, -, -, -, -, -, -, -, -, hevent⟩ := h.2 savedWithColl itsColl hq hcoll hcut hheld
  obtain ⟨t, hexec, hevn, -⟩ := hevent 0 1 storedJob (by decide) (by decide) hjob hroom ⟨hmem, hl2⟩ hring (by decide)
  exact absurd ((waitingRecords_of_evn hexec hevn).symm.trans abort_leaves_record) (by decide)

end Sys2Proof.Proofs.CollectiveAbort
end

section
/-! PROOFS. A forced save (R128, R133) of a core whose scratchpad lists a zero byte: the context area in HBM lists it too, which the
canonical form of memory does not allow. -/

namespace Sys2Proof.Proofs.ScratchSave

open Sys2Proof Sys2Proof.Machine
open Sys2Proof.Proofs.CollectiveAbort (storedJob)
open Sys2Proof.Proofs.Complete (drainTeam_nil onlyMemory_releaseFace)
open Sys2Proof.Proofs.Device (blockClaimed deviceBlock_mem)
open Sys2Proof.Proofs.Saving

/-! ### A table that lists the default -/

theorem not_swfFrom_of_mem {α : Type} [DecidableEq α] {d : α} {m : Sparse α} {k : Nat} (h : (k, d) ∈ m) (lo : Nat) :
    swfFrom d lo m = false := by
  induction m generalizing lo with
  | nil => cases h
  | cons e r ih =>
    obtain ⟨i, v⟩ := e
    obtain hhead | htail := List.mem_cons.mp h
    · cases hhead
      simp [swfFrom]
    · simp [swfFrom, ih htail]

theorem not_memOk_of_zero {s : State} {a : Nat} (h : (a, 0) ∈ s.mem.hbm) : ¬ s.memOk := fun hok => by
  have hwf := ((Memory.wf_iff s.mem).mp hok.1).1
  rw [swf, not_swfFrom_of_mem h] at hwf
  cases hwf

/-! ### What keeps an entry of HBM -/

theorem mem_sput_of_ne {α : Type} [DecidableEq α] {d v : α} {m : Sparse α} {x : Nat} {e : Nat × α} (h : e ∈ m) (hx : e.1 ≠ x) :
    e ∈ sput d m x v := by
  induction m with
  | nil => cases h
  | cons b r ih =>
    obtain ⟨k, w⟩ := b
    obtain rfl | htail := List.mem_cons.mp h
    · rw [sput, if_neg (Ne.symm hx)]
      split
      · split <;> simp
      · exact List.mem_cons_self
    · have hput := ih htail
      rw [sput]
      split
      · split <;> simp [htail]
      · split
        · split <;> simp [htail]
        · exact List.mem_cons_of_mem _ hput

section Kept

variable {e : Nat × Byte}

theorem mem_claimLine {line : Nat} {v : World} {s : State} (h : e ∈ s.mem.hbm) (hline : e.1 < 128 * line) :
    e ∈ (claimLine s v line).mem.hbm := by
  unfold claimLine
  split
  · exact h
  · exact List.mem_append_left _ (List.mem_append_left _ (List.mem_filter.mpr ⟨h, decide_eq_true hline⟩))

theorem mem_hbmStore {v : World} {cells : List Host.Cell} {s : State} (h : e ∈ s.mem.hbm) (hcells : ∀ c ∈ cells, e.1 < 128 * (c.1 / 128)) :
    e ∈ (hbmStore v cells s).mem.hbm := by
  induction cells generalizing s with
  | nil => exact h
  | cons c r ih =>
    obtain ⟨a, b⟩ := c
    have ha : e.1 < 128 * (a / 128) := hcells (a, b) List.mem_cons_self
    refine ih (mem_sput_of_ne (mem_claimLine h ha) ?_) fun c hc => hcells c (List.mem_cons_of_mem _ hc)
    omega

theorem mem_writeBack {line : Nat} {f : Fin 4} {s : State} (h : e ∈ s.mem.hbm) (hline : e.1 < 128 * line) :
    e ∈ (writeBack s f line).mem.hbm := by
  unfold writeBack
  split
  · exact h
  · next x _ =>
    have hput : e ∈ (hbmPut x.world (dirtyCells line x) s).mem.hbm := mem_hbmStore h fun c hc => by
      rwa [dirtyCells_line line x c hc]
    split
    · exact h
    · split
      · exact h
      · exact hput

theorem mem_evictLine {line : Nat} {f : Fin 4} {s : State} (h : e ∈ s.mem.hbm) (hline : e.1 < 128 * line) :
    e ∈ (evictLine s f line).mem.hbm := mem_writeBack (f := f) h hline

theorem mem_foldl {β : Type} {f : State → β → State} {l : List β} {s : State} (h : e ∈ s.mem.hbm)
    (hf : ∀ s, ∀ b ∈ l, e ∈ s.mem.hbm → e ∈ (f s b).mem.hbm) : e ∈ (l.foldl f s).mem.hbm := by
  induction l generalizing s with
  | nil => exact h
  | cons b r ih => exact ih (hf s b List.mem_cons_self h) fun s c hc => hf s c (List.mem_cons_of_mem _ hc)

theorem mem_evictLines {lo hi : Nat} {s : State} (h : e ∈ s.mem.hbm) (hlo : e.1 < 128 * lo) : e ∈ (evictLines lo hi s).mem.hbm := by
  rw [evictLines]
  refine mem_foldl h fun s f _ hs => mem_foldl hs fun s l hl hs => mem_evictLine hs ?_
  have hrange := (List.mem_filter.mp hl).2
  simp only [Bool.and_eq_true, decide_eq_true_eq] at hrange
  omega

theorem mem_claimLines {v : World} {n lo : Nat} {s : State} (h : e ∈ s.mem.hbm) (hlo : e.1 < 128 * lo) :
    e ∈ (claimLines v lo n s).mem.hbm := by
  induction n generalizing lo s with
  | zero => exact h
  | succ n ih => exact ih (mem_claimLine h hlo) (by omega)

/-- A block keeps what stands below its first line. -/
theorem mem_deviceBlock_below {v : World} {a n : Nat} {m : Sparse Byte} {s : State} (h : e ∈ s.mem.hbm) (hlo : e.1 < 128 * (a / 128)) :
    e ∈ (deviceBlock v a n m s).mem.hbm := by
  by_cases hn : n = 0
  · rwa [deviceBlock, if_pos hn]
  · have hclaimed : e ∈ (blockClaimed v a n s).mem.hbm := mem_claimLines (mem_evictLines h hlo) hlo
    rw [deviceBlock_mem m hn]
    exact List.mem_append_left _ (List.mem_append_left _ (List.mem_filter.mpr ⟨hclaimed, decide_eq_true (by omega)⟩))

/-- A block lists what its table lists. -/
theorem mem_deviceBlock {v : World} {a n : Nat} {m : Sparse Byte} {s : State} (h : e ∈ m) (hn : e.1 < n) :
    (a + e.1, e.2) ∈ (deviceBlock v a n m s).mem.hbm := by
  rw [deviceBlock_mem m (by omega)]
  exact List.mem_append_left _ (List.mem_append_right _
    (List.mem_map_of_mem (f := fun e => (a + e.1, e.2)) (List.mem_filter.mpr ⟨h, decide_eq_true hn⟩)))

/-- The scratchpad is the first of the parts of a whole context area: what is written after it lies behind it. -/
theorem contextParts_scratch (tick : Nat) (x : Core) : ∃ l r, contextParts true tick x = l ++ (0, 0x200000, x.scratch) :: r ∧
    ∀ p ∈ r, 0x200000 ≤ p.1 :=
  ⟨(contextParts true tick x).take 3, (contextParts true tick x).drop 4, rfl, by simp [contextParts]⟩

/-- The context area of a forced save lists what the scratchpad lists. -/
theorem mem_writeContext {c : CoreId} {s : State} (hin : inHbm (contextAddr c (s.core c)) 0x400000 = true) (h : e ∈ (s.core c).scratch)
    (hlt : e.1 + 128 ≤ 0x200000) : (contextAddr c (s.core c) + e.1, e.2) ∈ (writeContext true c s).mem.hbm := by
  obtain ⟨l, r, hparts, hr⟩ := contextParts_scratch (tickOf s c) (s.core c)
  rw [writeContext, if_pos hin, hparts, List.foldl_append, List.foldl_cons]
  generalize contextAddr c (s.core c) = base
  refine mem_foldl ?_ fun s p hp hs => mem_deviceBlock_below hs ?_
  · rw [Nat.add_zero]
    exact mem_deviceBlock h (Nat.lt_of_lt_of_le (by omega) hlt)
  · have hbehind := hr p hp
    simp only
    omega

/-! ### A job of one core saved -/

theorem core_settled {s : State} {c : CoreId} (hq : (s.core c).ap.storeQ = []) :
    (writeFrame c (settleAp c s)).core c = settledCore (s.core c) := by
  rw [(onlyMemory_writeFrame c _).core, settleAp_eq hq, State.core_modCore_same, (onlyMemory_releaseFace _ _ s).core]

theorem writeTeam_single (c : CoreId) (s : State) : writeTeam true [c] s = writeContext true c (writeFrame c s) := by
  rw [writeTeam, List.foldl_cons, List.foldl_nil, List.foldl_cons, List.foldl_nil]

theorem saveTeam_mem {s : State} {j : Job} (hj : jobById s j.id = some j) :
    (saveTeam false j.id s).mem = (writeTeam true j.team (j.team.foldl (fun s c => settleAp c s) s)).mem := by
  have hsave : ∀ u, writeTeam true j.team (j.team.foldl (fun s c => settleAp c s) s) = u → saveTeam false j.id s =
      (freeCores j.team u).modJob j.id (savedJob false (j.team.map (saveCore false j u))) := by
    rintro u rfl
    rw [saveTeam, hj]
    rfl
  generalize writeTeam true j.team (j.team.foldl (fun s c => settleAp c s) s) = u at hsave
  rw [hsave u rfl, State.modJob_mem, freeCores_only]

/-- A forced save of a job of one core leaves in HBM what the core's scratchpad lists. -/
theorem mem_saveTeam {s : State} {j : Job} {c : CoreId} (hj : jobById s j.id = some j) (hteam : j.team = [c])
    (hq : (s.core c).ap.storeQ = []) (hin : inHbm (contextAddr c (s.core c)) 0x400000 = true) (h : e ∈ (s.core c).scratch)
    (hlt : e.1 + 128 ≤ 0x200000) : (contextAddr c (s.core c) + e.1, e.2) ∈ (saveTeam false j.id s).mem.hbm := by
  have hmem := @mem_writeContext e c (writeFrame c (settleAp c s))
  rw [core_settled hq] at hmem
  rw [saveTeam_mem hj, hteam, List.foldl_cons, List.foldl_nil, writeTeam_single]
  exact hmem hin h hlt

end Kept

/-! ### A scratchpad that lists a zero byte -/

/-- A job of core 0, running. -/
def runningJob : Job := { storedJob with phase := .running, saved := [] }

/-- A core that runs job 0, its scratchpad with a zero listed at 0. -/
def zeroListing (x : Core) : Core := { x with scratch := [(0, 0)], job := some 0 }

/-- The package with that job and that core. -/
def runningPackage : State := { State.reset with jobs := [runningJob] }.modCore 0 zeroListing

/-- The package with the job's forced save due. -/
def saveDue : State := { runningPackage with sched := [.save 0] }

theorem memOk_saveDue : saveDue.memOk := State.memOk_of_eq rfl rfl memOk_reset

/-- The package once the job's save has begun and its core has stopped. -/
def stopped : State := forceStops [0] (runningPackage.modJob 0 beginSave)

theorem stopped_meets : jobById stopped 0 = some (beginSave runningJob) ∧ (stopped.core 0).ap.storeQ = [] ∧
    contextAddr 0 (stopped.core 0) = 0 ∧ (stopped.core 0).scratch = [(0, 0)] := by
  decide +kernel

theorem forceTeam_running : forceTeam 0 runningPackage = saveTeam false 0 stopped := by
  have hj : jobById runningPackage runningJob.id = some runningJob := rfl
  generalize hu : runningPackage.modJob 0 beginSave = u
  have hjobs : runningPackage.modJob runningJob.id beginSave = u := hu
  have hrun : (u.core 0).running = [] ∧ (u.core 0).ap.storeQ = [] ∧ (u.core 0).ap.host = none := by
    subst hu
    decide +kernel
  obtain ⟨hrunning, hqueue, hhost⟩ := hrun
  have hdrain : drainTeam runningJob (finishCommands performCmd 0 u) = u := by
    rw [finishCommands_none hrunning]
    refine drainTeam_nil fun c hc => ?_
    rw [List.mem_singleton.mp hc, hqueue]
  have hmarked : runningJob.team.any (markedColl u) = false := by
    change (markedColl u 0 || false) = false
    simp [markedColl, hrunning]
  have hdone : (runningJob.team.all fun c => accessesDone u c && commandsDone u c) = true := by
    change (accessesDone u 0 && commandsDone u 0 && true) = true
    simp [accessesDone, storesDone, commandsDone, hrunning, hqueue, hhost]
  change forceTeam runningJob.id runningPackage = _
  rw [forceTeam_eq hj rfl u u hjobs hdrain, hmarked, if_neg Bool.false_ne_true, if_pos hdone]
  change saveTeam false 0 (forceStops [0] (cancelColls 0 u)) = _
  rw [cancelColls_none hrunning, stopped, hu]

theorem zero_saved : (0, 0) ∈ (saveTeam false 0 stopped).mem.hbm := by
  obtain ⟨hj, hq, hbase, hscratch⟩ := stopped_meets
  have hmem := mem_saveTeam (e := (0, 0)) (j := beginSave runningJob) hj rfl hq (by rw [hbase]; decide) (by rw [hscratch]; exact List.mem_cons_self)
    (by decide)
  rwa [hbase] at hmem

theorem saved_regq : (saveTeam false 0 stopped).regq = [] := by
  obtain ⟨hj, hq, -⟩ := stopped_meets
  refine (saveTeam_saved (j := beginSave runningJob) false hj fun c hc => ?_).regq
  rw [List.mem_singleton.mp hc, hq]

theorem step_saveDue : step saveDue = .next (saveTeam false 0 stopped) := by
  change Host.Outcome.next (flushRegs (forceTeam 0 runningPackage)) = _
  rw [forceTeam_running, flushRegs_nil _ saved_regq]

/-- Refutes O8: the canonical form says nothing of a core's scratchpad, and a forced save (R128, R132) writes the scratchpad's own table
into the core's context area in HBM. Where that table lists a zero byte, memory lists it after the step. -/
theorem not_stepKeepsMemoryCanonical : ¬ Obligations.StepKeepsMemoryCanonical := by
  unfold Obligations.StepKeepsMemoryCanonical
  intro h
  exact not_memOk_of_zero zero_saved (h saveDue _ memOk_saveDue step_saveDue)

end Sys2Proof.Proofs.ScratchSave
end

section
/-! PROOFS. A terminated session whose discarded store belongs to a core that is not its job's lead (R198, R118, R386): the job event's
completion record goes to the job's saved state, so the event changes more of the job than the number of its next event. -/

namespace Sys2Proof.Proofs.SessionEnd

open Sys2Proof Sys2Proof.Machine Sys2Proof.Proofs.CollectiveAbort

/-! ### A store that waits before egress -/

/-- A store of one byte to the host window. -/
def waitingStore : StoreOp :=
  { va := 0, asid := 0, world := 0, wq := none, cells := [(0x8_0000_0000_0000, 0)] }

/-- A core that holds job 0, with that store in its AP's queue. -/
def storingCore (x : Core) : Core := { x with job := some 0, ap := { x.ap with storeQ := [waitingStore] } }

/-- The package with the saved job and an active session of function 0; core 1 holds the job, its lead core does not. -/
def storingOffLead : State :=
  ({ State.reset with jobs := [storedJob] }.modSess 0 fun x => { x with active := true }).modCore 1 storingCore

theorem storingOffLead_meets :
    let s := storingOffLead
    s.regq = [] ∧ powered s = true ∧ (session s 0).active = true ∧ (s.core 1).job = some storedJob.id ∧
      jobById s storedJob.id = some storedJob ∧ vfOf s 1 = 0 ∧ (s.core 1).owed = [] ∧ (s.core 1).ap.storeQ = [waitingStore] ∧
      hostStore waitingStore = true ∧ eventRoom s storedJob = true :=
  ⟨rfl, by decide +kernel, by decide +kernel, by decide +kernel, rfl, by decide +kernel, by decide +kernel, by decide +kernel,
    by decide +kernel, by decide +kernel⟩

theorem noneWaits_reset : Claims.noneWaits State.reset := by
  unfold Claims.noneWaits
  decide +kernel

/-- No other core has a store or a completion that waits. -/
theorem storingOffLead_others (d : CoreId) (hd : d ≠ 1) :
    (storingOffLead.core d).ap.storeQ = [] ∧ (storingOffLead.core d).owed = [] := by
  have hcore : storingOffLead.core d = State.reset.core d := State.core_modCore_other _ 1 d storingCore hd
  rw [hcore]
  exact noneWaits_reset d

/-! ### Its session terminated -/

/-- The discarded store's job event leaves a record in the saved core. -/
theorem term_leaves_record : waitingRecords (.tsessTerm 0) storingOffLead = [1] := by decide +kernel

/-- Refutes O55: the clause on the end of a session says that the job event of a discarded store changes only the number of the job's
next event. Where the job's lead core does not hold the job, the event's completion record goes to the AP of its saved state (R118, R386),
which holds it while UIEN is set (R129): the saved core of the job changes as well. -/
theorem not_sessionEvents : ¬ Obligations.SessionEvents := by
  unfold Obligations.SessionEvents
  intro h
  obtain ⟨hq, hpow, hact, hcore, hjob, hvf, howed, hstore, hhost, hroom⟩ := storingOffLead_meets
  obtain ⟨-, -, -, -, -, -, -, -, -, -, hterm, -⟩ := h storingOffLead 0 0 hq
  obtain ⟨-, hdiscard⟩ := hterm 1 storedJob hpow hact hcore hjob hvf storingOffLead_others
  obtain ⟨t, hexec, -, hevn⟩ := hdiscard waitingStore howed hstore hhost hroom
  exact absurd ((waitingRecords_of_evn hexec hevn).symm.trans term_leaves_record) (by decide)

end Sys2Proof.Proofs.SessionEnd
end
